-- ==== Sys2Proof/Word.lean ====
section
/-!
DEFINITION. The word types of the fabric and the two sparse containers that State uses.

`Word` is a 32-bit register word (R440), `Byte` one byte of a data window (R9).  `Tab` is a table of
records by number (regions, flocks, crossings, generator rows), `Mem` a byte memory: both are lists in
one canonical form, keys strictly rising and no entry equal to what an unlisted key reads as.
-/
namespace Sys2Proof

/-- One register word: every register access is one aligned 32-bit word (R440). -/
abbrev Word := BitVec 32

/-- One byte; byte 0 at the lowest address holds bits 7:0 (R9). -/
abbrev Byte := BitVec 8

/-- A sparse table of records by number; an unlisted number reads as the table's default record. -/
abbrev Tab (α : Type) := List (Nat × α)

/-- A byte memory; an unlisted address reads as 0. -/
abbrev Mem := List (Nat × BitVec 8)

/-- The CRC-16 and data-port widths. -/
abbrev Half := BitVec 16

end Sys2Proof
end

