-- ==== Sys2Proof/Config.lean ====
section
/-!
DEFINITION. What an implementation fixes (the build-time parameters of R24, as plain data), and the
free values: constants with no body, applied to what they depend on, where the manual states no value.
-/
namespace Sys2Proof

/-- The build-time parameters of R24 and R25.  They are fixed at elaboration: State carries one `Build`
and no command writes it. -/
structure Build where
  /-- P_REGIONS, logic and tier regions together (R24). -/
  regions : Nat
  /-- P_FLOCKS, exactly P_REGIONS / 16 (R24). -/
  flocks : Nat
  /-- P_SPARES, spare generators per flock; the paths per flock are one more (R24, R27). -/
  spares : Nat
  /-- P_CLASSES, clock classes implemented in the order compute, fabric, memory tier, spare (R24, R28). -/
  classes : Nat
  /-- P_ZONES, supply zones (R24). -/
  zones : Nat
  /-- P_XINGS, crossing pointer units (R24, R29). -/
  xings : Nat
  /-- P_TIERS, bonded memory tiers (R24). -/
  tiers : Nat
  /-- L, the number of logic regions; tier regions begin at this number (R25, R26). -/
  logic : Nat
  deriving DecidableEq, Repr

/-- The reference host at the full configuration (R24, last column; "The reference host"). -/
def Build.reference : Build :=
  { regions := 5120, flocks := 320, spares := 2, classes := 3, zones := 12, xings := 24576, tiers := 4,
    logic := 4096 }

/-- The constraints of R24, R25 and R28: elaboration fails outside them. -/
def Build.valid (b : Build) : Bool :=
  b.logic % 256 == 0 && 256 ≤ b.logic && b.logic ≤ 4096 && b.regions * 16 == b.logic * (16 + b.tiers) &&
  b.flocks * 16 == b.regions && (b.spares == 2 || (b.spares == 1 && b.regions ≤ 2048)) &&
  1 ≤ b.classes && b.classes ≤ 4 && 1 ≤ b.zones && b.zones ≤ 16 && 1 ≤ b.xings && b.xings ≤ 24576 &&
  b.tiers ≤ 4 && (b.tiers == 0 || 3 ≤ b.classes)

/-- P_SPARES + 1 tick-mesh paths reach each flock (R27). -/
def Build.paths (b : Build) : Nat := b.spares + 1

/-- The free value of a byte that the manual calls undefined, the n-th one a run meets (log 8).
DESIGN CHOICE, safe: nothing can be proved of its value. -/
opaque Config.freeByte : Nat → BitVec 8

/-- The free value of a word the manual leaves open, the n-th one a run meets (log 8). -/
opaque Config.freeWord : Nat → BitVec 32

/-- The 8-bit codes of the test port's instructions, which the manual does not state (R518; log 122). -/
opaque Config.freeCode : Nat → BitVec 8

/-- The SHA-384 digest that R404 and R407 name; its function stands in a standard outside the spec
(log 9).  PRESUMED nothing of it: it is uninterpreted. -/
opaque Config.sha384 : List (BitVec 8) → BitVec 384

/-- Whether an ECDSA P-384 signature verifies: public key, signature and digest (R404, R407; log 9). -/
opaque Config.ecdsaVerifies : List (BitVec 8) → List (BitVec 8) → BitVec 384 → Bool

end Sys2Proof
end

