-- ==== Sys2Proof/Syntax.lean ====
section
/-!
DEFINITION. The commands of the fabric: one constructor of `Instr` per row of spec/opcode_table.json.

A command that is a register write stands for the write as its port completes it; its effect comes when R13 and R15 say.
A command that is an event carries, as its operands, what the fabric observes of
the analog or outside world at that event (an error, a count, a margin, a frame); everything else it
needs stands in the state.
-/
namespace Sys2Proof

/-- The three ports from which the registers are reached (R442, R464). -/
inductive Port where
  | host   -- the control port
  | bm     -- the board-management port
  | shep   -- the Shepherd core's own port
  deriving DecidableEq, Repr

/-- The two root synthesizers. -/
inductive Syn where
  | s0
  | s1
  deriving DecidableEq, Repr

/-- How one register write reaches the fabric: the port it comes from, its byte strobes (R440), and the
highest-ranked other port that writes the same register in the same slow-clock period (R442). -/
structure Wr where
  port  : Port
  strb  : BitVec 4
  rival : Option Port
  deriving DecidableEq, Repr

/-- One beat of an INCR burst on the data port: the address of its byte 0, its 32 byte strobes and its
256 data bits (R485 to R487). -/
structure Beat where
  addr : BitVec 24
  strb : BitVec 32
  data : BitVec 256
  deriving DecidableEq, Repr

/-- A muster frame of R367: its fields after the comma, 16 payload bytes and the CRC it carries. -/
structure Frame where
  type    : BitVec 8
  src     : BitVec 16
  root    : BitVec 16
  hops    : BitVec 16
  round   : BitVec 32
  seq     : BitVec 8
  flags   : BitVec 8
  payload : List (BitVec 8)
  crc     : BitVec 16
  deriving DecidableEq, Repr

/-- Why a locked mesh path fails, the five cases of R88 in order. -/
inductive PathFault where
  | noEdge      -- no edge within 250 ps after the selected (or earliest) path's edge
  | departs     -- its edge departs by more than 100 ps on two consecutive edges
  | crcTwice    -- two consecutive frames fail CRC
  | mismatch    -- a good frame with LOAD = 0 carries a T + m that differs from the replica
  | echoLost    -- its echo lock is lost
  deriving DecidableEq, Repr

/-- What a path's lock sequence finds of its delay: δ from the echo comparison, and by how many ps the forward clock lane and the
echo lane differ (R81, R84). -/
structure PathDelay where
  delta : BitVec 10
  lanePs : Nat
  deriving DecidableEq, Repr

/-- The tests of R283 that fire on their own (code 5, FORCED, is the crook path's), with what the drover observes: the
interval since the last DCO edge in 1/65,536 commanded period; the DCO edges of the last two ticks, the earlier first,
in 1/16 edge; the generator's sampler counts at the last two tick edges, the earlier first. -/
inductive GenFault where
  | stop (gap : Nat)
  | slow (edges1 edges2 : Nat)
  | fast (edges1 edges2 : Nat)
  | sampler (count1 count2 : Nat)
  deriving DecidableEq, Repr

/-- A position on a Tally unit's ring: the coarse count of ring periods and the phase, 16 to a period (R310). -/
structure RingPos where
  coarse : Nat
  phase  : BitVec 4
  deriving DecidableEq, Repr

/-- The bypass-clock edges one and two periods after the one at which a calibration starts (R315). -/
structure CalEnds where
  one : RingPos
  two : RingPos
  deriving DecidableEq, Repr

/-- The three bypass-clock edges on which a repeat calibrates (R315). -/
structure CalEdges where
  start : RingPos
  ends  : CalEnds
  deriving DecidableEq, Repr

/-- What an edge reaches a Tally channel from: the source code and ARG of R319, and whether it falls (R334). -/
structure TapEdge where
  src  : BitVec 6
  arg  : BitVec 15
  fall : Bool
  deriving DecidableEq, Repr

/-- The instant, on the ring, at which a unit's gate opens (R313). -/
structure RingGate where
  unit : BitVec 2
  pos  : RingPos
  deriving DecidableEq, Repr

/-- An edge at a unit's start channel, with its instant on the ring (R317). -/
structure RingEdge where
  unit : BitVec 2
  tap  : TapEdge
  pos  : RingPos
  deriving DecidableEq, Repr

/-- One windsock sample: the margins of the eight types, 4 bits each, and the instant at which its warning resolves, in
1/65,536 of a tick after the last delivered edge (R168, R171). -/
structure Sample where
  margins : BitVec 32
  at16    : Nat
  deriving DecidableEq, Repr

/-- The other side of an audit mark: the beat of an expect, if one came, and whether another mark or expect fell between
(R209). -/
structure Expect where
  beat    : Option Nat
  between : Bool
  deriving DecidableEq, Repr

/-- What a RETEST did after its measurement: the tick after its start at which the row's verification ended, and whether
its lock trial was clean (R294). -/
structure RetestRun where
  verified : Nat
  clean    : Bool
  deriving DecidableEq, Repr

/-- A muster port and how many consecutive symbols have arrived on it free of errors (R371). -/
structure LinkUp where
  port  : BitVec 1
  clean : Nat
  deriving DecidableEq, Repr

/-- The ten halt causes of R411. -/
inductive HaltCause where
  | illegalInsn
  | fetchFault
  | loadFault
  | storeFault
  | misaligned
  | eccInsn
  | eccData
  | ebreak
  | assertion
  | entry
  deriving DecidableEq, Repr

/-- What takes a muster port out of UP: the symbol times without a valid symbol, the code or disparity errors in
65,536 symbols, or cable-detect (R371). -/
inductive DownCause where
  | noSignal (symbols : Nat)
  | errors (count : Nat)
  | cable
  deriving DecidableEq, Repr

/-- The calibrations that the Vervin-1 timeout of R358 covers. -/
inductive TimedCal where
  | spare (flock spare : Nat)
  | path (flock path : Nat)
  | tally (unit : Nat)
  | pump (y : Syn)
  deriving DecidableEq, Repr

/-- The blocks that have an SQ event register and an IRQ_EN register. -/
inductive Block where
  | cfg | bell | root | fold | rcg | xing | fcst | zone | flock | tally | cal | mus | shep | mbx | lc
  deriving DecidableEq, Repr

/-- One IEEE 1149.1 operation on the ts_ pins (R505, R506, R518): a TAP reset, one of the instructions of
every state, a programming of fuses in MANUFACTURE, or any other instruction code. -/
inductive TestOp where
  | tapReset
  | bypass
  | sample
  | preload
  | extest
  | programKey (slot : BitVec 2) (digest : BitVec 384)
  | programDieId (id : BitVec 64)
  | programTrims
  | programRootBand (y : Syn) (band : BitVec 4) (entry : BitVec 32)
  | blowManufactureComplete
  | other (code : BitVec 8)
  deriving DecidableEq, Repr

/-- A board-management I²C transaction of R514 and R515: the 7-bit target address, the three offset bytes, and either the data bytes
the controller writes or the number of words it reads. -/
inductive I2c where
  | write (target : BitVec 7) (off : BitVec 24) (bytes : List (BitVec 8))
  | read (target : BitVec 7) (off : BitVec 24) (words : Nat)
  deriving DecidableEq, Repr

/-- An OFFSET frame as it arrives, and whether firmware serves it: where it does not, the core, though it runs, is hung (R377,
R543). -/
structure Told where
  frame : Frame
  served : Bool
  deriving DecidableEq, Repr

/-- The commands, in the order of the table's chapters. -/
inductive Instr where
  -- crystal, root synthesizers and bypass
  | crystalQualified
  | missingCrystalEdge
  | edgesResume
  | refLoss
  | refReturn
  | frozenOutputFail (y : Syn) (ps : Nat)
  | lockLoss (y : Syn) (err1 err2 : Int) (slip both : Bool) (edges : Nat)
  | lockAcquired (y : Syn)
  | synthQualified (y : Syn)
  | bypExit (y : Syn) (edge1 edge2 : Bool)
  | prefWrite (w : Wr) (v : Word)
  | spareEnWrite (w : Wr) (v : Word)
  | bypassForce (w : Wr) (v : Word)
  | divApply (w : Wr) (v : Word)
  | rootBtabWrite (w : Wr) (v : Word)
  | rootMeas (w : Wr) (v : Word)
  | rootMeasDone (count : BitVec 16)
  | rootAgeWrite (w : Wr) (v : Word)
  | ageSlewStep
  | syncInEdge (phase : BitVec 16)
  -- Bellwether time and the tick mesh
  | bellSnapReq (w : Wr) (v : Word)
  | bellLoad (w : Wr) (v : Word)
  | broadcastFrame (flock path : Nat) (frame : BitVec 128)
  | pathLockDone (flock path : Nat) (delta : PathDelay) (frame : BitVec 128)
  | deltaTrack (flock path : Nat) (late : Bool)
  | pathFail (flock path : Nat) (cause : PathFault)
  | pathReturn (flock path : Nat)
  | meshDisable (w : Wr) (flock : Nat) (v : Word)
  -- folds
  | foldStart (w : Wr) (v : Word)
  | bell
  | call
  | graceTailStart
  | regionPark (r : Nat)
  | pull (r : Nat)
  | tetherStop (x : Nat)
  | availInterlock (x : Nat)
  | roomStop (x : Nat)
  | tetherStopRelease (x : Nat)
  | excludeSet (w : Wr) (region : BitVec 13) (tag : BitVec 8)
  | excludeClear (w : Wr) (region : BitVec 13) (tag : BitVec 8)
  | foldTetherWrite (w : Wr) (v : Word)
  | foldStatReq (w : Wr) (v : Word)
  | foldLogSel (w : Wr) (v : Word)
  -- regional clock generators
  | windsockStretch (r : Nat) (sample : Sample)
  | windsockHold (r : Nat) (margins : BitVec 32)
  | holdRelease (r : Nat) (margins : BitVec 32)
  | adviseOnset (r : Nat) (margins : BitVec 32)
  | bandChangeStopEnd (gen : Nat)
  | rcgSel (w : Wr) (v : Word)
  | rcgCfgWrite (w : Wr) (v : Word)
  | rcgBmeas (w : Wr) (v : Word)
  | rcgBmeasDone (counts : List (Nat × List (Nat × Nat)))
  | bandRowWrite (b : Beat)
  -- crossings
  | xingSel (w : Wr) (v : Word)
  | xingCfgWrite (w : Wr) (v : Word)
  | auditEnWrite (w : Wr) (v : Word)
  | auditClear (w : Wr) (v : Word)
  | auditMismatch (x : Nat) (mark : Option Nat) (expect : Expect)
  | pinWrite (b : Beat)
  -- forecast
  | fcstModeWrite (w : Wr) (v : Word)
  | fcstOpen (w : Wr) (bank : BitVec 1) (tag : BitVec 8)
  | fcstSeal (w : Wr) (bank : BitVec 1) (tag : BitVec 8)
  | fcstSwap (w : Wr) (bank : BitVec 1) (tag : BitVec 8)
  | fcstStop (w : Wr) (tag : BitVec 8)
  | fcstCmdNone (w : Wr) (tag : BitVec 8)
  | fcstCmdInvalid (w : Wr) (op : BitVec 3) (tag : BitVec 8)
  | fcstEntryWrite (b : Beat)
  | fcstSealShort (bank : BitVec 1)
  | fcstVerifyDone (bank : BitVec 1)
  | fcstNop (idx : Nat)
  | preStretch (idx : Nat)
  | fcLean (idx : Nat)
  | holdMargin (idx : Nat)
  | fcRelease (idx : Nat)
  | calSlot (idx : Nat)
  | skewCount (r : Nat)
  | fcstStatReq (w : Wr) (v : Word)
  -- zones
  | clampWindowEnd
  | zoneStatReq (w : Wr) (v : Word)
  -- flocks, failover, crook path
  | generatorFail (flock index : Nat) (code : GenFault)
  | claimRetry (flock slot : Nat)
  | spareLost (flock spare : Nat) (code : GenFault)
  | spareLocked (flock spare : Nat)
  | drvParity (flock : Nat)
  | clearParity (w : Wr) (flock : Nat) (gen : BitVec 5) (tag : BitVec 8)
  | retest (w : Wr) (flock : Nat) (gen : BitVec 5) (tag : BitVec 8)
  | retestDone (flock : Nat) (counts : List (Nat × Nat)) (run : RetestRun)
  | reinstate (w : Wr) (flock : Nat) (gen : BitVec 5) (tag : BitVec 8)
  | retire (w : Wr) (flock : Nat) (gen : BitVec 5) (tag : BitVec 8)
  | crkArm (w : Wr) (v : Word)
  | crkArmExpiry
  | forceHoldRegion (w : Wr) (target : BitVec 13) (tag : BitVec 8)
  | releaseRegion (w : Wr) (target : BitVec 13) (tag : BitVec 8)
  | forceHoldFlock (w : Wr) (target : BitVec 13) (tag : BitVec 8)
  | releaseFlock (w : Wr) (target : BitVec 13) (tag : BitVec 8)
  | forceFailover (w : Wr) (flock : BitVec 9) (slot : BitVec 4) (gen : BitVec 2) (tag : BitVec 8)
  | crkCoreReset (w : Wr) (tag : BitVec 8)
  | crkInvalidOp (w : Wr) (op : BitVec 4) (tag : BitVec 8)
  -- Tally
  | tallyClaim (w : Wr) (unit : BitVec 2) (tag : BitVec 8)
  | tallyRelease (w : Wr) (unit : BitVec 2) (tag : BitVec 8)
  | claimTimeout (p : Port)
  | tallyArm (w : Wr) (unit : BitVec 2) (tag : BitVec 8) (start : RingPos) (ends : CalEnds)
  | tallyAbort (w : Wr) (unit : BitVec 2) (tag : BitVec 8)
  | tallyCalRefresh (unit : BitVec 2) (start : RingPos) (ends : CalEnds)
  | tallyGateOpen (gate : RingGate)
  | tallyStartEdge (edge : RingEdge)
  | tallyStopEdge (unit : BitVec 2) (stop : BitVec 3) (edge : TapEdge) (pos : RingPos)
  | tallyWindowClose (unit : BitVec 2) (start : RingPos) (ends : CalEnds)
  -- calibration
  | tempSample (flocks : List (Nat × Int)) (island : Int)
  | calFlockDue (w : Wr) (flock : BitVec 9) (tag : BitVec 8)
  | calAllDue (w : Wr) (tag : BitVec 8)
  | restore (w : Wr) (tag : BitVec 8)
  | cancelRestore (w : Wr) (tag : BitVec 8)
  | calInvalidOp (w : Wr) (op : BitVec 3) (tag : BitVec 8)
  | calImageWrite (b : Beat)
  | regionHoldStart (r : Nat)
  | regionHoldEnd (r : Nat) (counts : Nat × Nat) (rings : List Nat) (checked : Bool)
  | spareCalStart (flock spare : Nat)
  | spareCalEnd (flock spare : Nat) (counts : Nat × Nat) (checked : Bool)
  | pathCalStart (flock path : Nat)
  | pathCalDone (flock path : Nat) (taps : List (BitVec 8 × Nat))
  | tallyPhaseCalStart (unit : BitVec 2)
  | tallyPhaseCalDone (unit : BitVec 2) (phases : List (BitVec 8 × Nat))
  | chargePumpCalStart (y : Syn)
  | chargePumpCalDone (y : Syn) (bandwidth : Nat) (code : BitVec 6)
  | bandgapTrimStep (microvolts : Int)
  | calTimeout (what : TimedCal)
  -- muster
  | cableIn (p : BitVec 1) (present : Bool)
  | portUp (link : LinkUp)
  | portDown (p : BitVec 1) (cause : DownCause)
  | roundStart
  | helloSend (p : BitVec 1)
  | hello (p : BitVec 1) (f : Frame)
  | tree (p : BitVec 1) (f : Frame)
  | syncSend (k : BitVec 6) (tx0 tx1 : Option Int)
  | sync (p : BitVec 1) (f : Frame) (rx : Option Int)
  | followSend (j : BitVec 5)
  | follow (p : BitVec 1) (f : Frame)
  | offset (p : BitVec 1) (f : Told)
  | muDone (p : BitVec 1) (f : Frame)
  | doneDeadline
  | muApply
  | ageTransfer
  | ppsInEdge (err : Int)
  | ppsOut
  | todArm (w : Wr) (v : Word)
  -- Shepherd core and firmware banks
  | fwOpen (w : Wr) (bank : BitVec 1) (tag : BitVec 8)
  | fwSeal (w : Wr) (bank : BitVec 1) (tag : BitVec 8)
  | fwSwap (w : Wr) (bank : BitVec 1) (tag : BitVec 8)
  | fwBankInvalidOp (w : Wr) (op : BitVec 3) (tag : BitVec 8)
  | fwDataWrite (b : Beat)
  | fwSealShort (bank : BitVec 1)
  | fwVerifyDone (bank : BitVec 1)
  | fwSwapPreStart
  | halt (cause : HaltCause) (pc val : Word)
  | shepAssertWrite (code : BitVec 16) (pc : Word)
  | haltRestart
  | wdog
  | watchdogKick (v : Word)
  | eccCorr (insn : Bool)
  -- mailboxes and the firmware 2.1 command set
  | mbxGo (w : Wr) (m : BitVec 2)
  | mbxWithdraw (w : Wr) (m : BitVec 2)
  | mbxTake
  | version
  | status
  | nop
  | rowVerify
  | rowVerifyJobEnd (hit : List Nat)
  | xcal
  | calDone (tx : List (Nat × List Nat))
  | jobStatus
  | jobAbort
  | jobKill
  | releaseTally
  | cfgCommit
  | identify
  | identifyExpiry
  | badOpcode
  -- register conventions
  | eventClear (w : Wr) (blk : Block) (v : Word)
  | cfgCtrlWrite (w : Wr) (v : Word)
  | preBellApply
  | configPassEnd
  | restoreWriteDone
  | regWrite (w : Wr) (addr : BitVec 20) (v : Word)
  | badBurst (write : Bool) (beats : Nat)
  -- supplies, resets, life cycle, front panel, test
  | onBackup
  | onMain
  | backupFail
  | powerOnReset
  | coldReset
  | warmReset
  | fabPowerLoss
  | fabPowerReturn
  | hcAreset
  | lcTransition (w : Wr) (target : BitVec 2) (tag : BitVec 8)
  | lcRevoke (w : Wr) (slot : BitVec 2) (tag : BitVec 8)
  | lcOpRefuse (w : Wr) (tag : BitVec 8)
  | lcDone
  | eraseDone
  | buttonPress
  | btnLong
  | btnShort
  | ledChange
  | i2cTransaction (t : I2c)
  | sclTimeout
  -- the region clocks
  | tickEdge (bypassEdge : Bool) (phases : List (Nat × Nat))
  | issuedEdge (r : Nat) (dcoAt : Int) (at16 : Nat) (act : BitVec 4)
  -- further steps
  | downSweep
  | upSweep
  | frozenFailureCountEnd
  | powerOnResetRelease
  | supplyOkChange (mainOk backupOk : Bool)
  | buttonRelease
  | testAccess (op : TestOp)
  | manifestWrite (b : Beat)
  deriving DecidableEq, Repr

end Sys2Proof
end

