-- ==== Sys2Proof/Decode.lean ====
section
/-!
DEFINITION. The words of the table: spec/opcode_table.json gives no row any bits, since the fabric takes
commands at its ports and has no instruction encoding, so no word spells a command (log 10).
-/
namespace Sys2Proof

/-- The command that a word spells by the table's bits: the table gives no row bits, so none (log 10). -/
def decodeTableWord (nbits w : Nat) : Option Instr :=
  match nbits, w with
  | _, _ => none

end Sys2Proof
end

