-- ==== Sys2Proof/Machine/State.lean ====
section
/-!
DEFINITION. The state of the fabric: every register, buffer, counter, mode and pin level the manual
names, block by block, as plain data, and the queue of waiting commands.

Registers that software writes stand in three register files keyed by control-port offset: `cfgW` and
`cfgA` hold the last written and the applied values of the bell-class registers (R13, R14, R452), `nowR`
those of the "now" registers.  Read-only registers are computed from the fields below (Machine/RegRead).
-/
namespace Sys2Proof.Machine
open Sys2Proof

/-- Why the fabric stops with a fault.  Safe: the machine stops where a command names something that the
build does not have, so nothing false can be proved of it. -/
inductive Fault where
  /-- Raised by the meaning of an event that names a region, flock, spare, path, crossing, generator or
  zone the build lacks (R17, R24): there is no such unit, so no such event exists.  Safe. -/
  | noSuchUnit
  deriving DecidableEq, Repr

/-- Why the fabric refuses a command. -/
inductive Refusal where
  /-- Raised by exec's own arm for an instruction that has no meaning yet.  Safe. -/
  | notModelled (mnemonic : String)
  /-- Raised by TEST_ACCESS for an instruction code beyond those R518 names, in MANUFACTURE or RETURN,
  where the code is decoded and the manual does not say what it does.  Safe. -/
  | vendorTestInstruction
  deriving DecidableEq, Repr

/-- AXI responses of R440, R487 and R511. -/
inductive Resp where
  | okay
  | slverr
  deriving DecidableEq, Repr

/-! ### The root (island) -/

/-- One root synthesizer (R39 to R75, R354). -/
structure Synth where
  /-- Powered; the non-preferred one is off while SPARE_EN = 0 (R55). -/
  powered : Bool := true
  /-- LOCK0 / LOCK1: holds lock (R51, R70). -/
  locked : Bool := false
  /-- The slow clock's count of ticks at which it attained the lock it holds (R53). -/
  lockAt : Nat := 0
  /-- Held lock for 327,680 ticks (R53). -/
  qualified : Bool := false
  /-- Acquiring lock (R51). -/
  acquiring : Bool := false
  /-- No usable band: makes no further attempt until its table is written (R42). -/
  noBand : Bool := false
  /-- Tuning frozen on a missing crystal edge (R62). -/
  frozen : Bool := false
  /-- Failed by the frozen-output monitor (R63). -/
  failed : Bool := false
  /-- Locked, and aligned if the spare, at the freeze (R63). -/
  readyAtFreeze : Bool := false
  /-- BAND0 / BAND1 (R70). -/
  band : BitVec 4 := 0
  /-- Applied REF_MODE (R68). -/
  refMode : BitVec 2 := 0
  /-- Applied feedback divider N (R68). -/
  n : BitVec 8 := 100
  /-- Applied tick output divider D_T (R68). -/
  dT : BitVec 5 := 20
  /-- The root band table, 16 words in the layout of R41. -/
  table : Tab Word := []
  /-- Output-divider phase resets performed, for the three sources of R49 and R61. -/
  phaseResets : Nat := 0
  /-- Charge-pump trim code in force, 6 bits (R340). -/
  pumpCode : BitVec 6 := 0
  /-- Accepted charge-pump code toward which the trim slews (R355). -/
  pumpTarget : BitVec 6 := 0
  /-- A charge-pump calibration is running (R354). -/
  pumpCal : Bool := false
  /-- Due for calibration by the island sensor (R341). -/
  due : Bool := false
  /-- Its last charge-pump result was rejected (R355). -/
  rejected : Bool := false
  deriving DecidableEq, Repr

/-- A root band measurement in progress (R44, R73). -/
structure RootMeas where
  syn  : Syn
  band : BitVec 4
  tune : Bool
  tag  : BitVec 8
  /-- The slow clock's count of ticks at its start (R44). -/
  start : Nat
  deriving DecidableEq, Repr

/-- An apply performed in a tick, as a switchover of that tick undoes it: the slow clock's count of ticks, the word, the
two synthesizers, ALIGNED and DIV_TAG before it, which of the two it made drop lock, and the event bits that it raised (R48). -/
structure ApplyUndo where
  tick : Nat
  word : Word
  s0 : Synth
  s1 : Synth
  aligned : Bool
  divTag : BitVec 8
  retuned0 : Bool
  retuned1 : Bool
  raised : BitVec 24
  deriving DecidableEq, Repr

/-- The crystal, the synthesizers and bypass (R33 to R75, R542). -/
structure RootSt where
  /-- ROOT_STATUS.XTAL_SEL: ao_xtal_sel as sampled at cold reset (R34). -/
  xtalSel : BitVec 2 := 0
  /-- ROOT_STATUS.REF_OK: crystal qualified and present (R36). -/
  refOk : Bool := false
  /-- A bypass-clock edge is missing and none has resumed (R62). -/
  missing : Bool := false
  /-- Consecutive bypass-clock edges with no missing one, up to 65,536 (R36, R63). -/
  goodEdges : Nat := 0
  /-- Ticks the slow clock had counted when the missing edge was seen: the 64 periods run from it (R64). -/
  missedAt : Nat := 0
  /-- The crystal stopped while the fabric was in bypass, and must requalify before a return (R542). -/
  stopped : Bool := false
  /-- Reference loss is declared (R64). -/
  refLost : Bool := false
  /-- The slow clock runs from the tick clock ÷ 40 (R62). -/
  slowFromTick : Bool := false
  /-- ROOT_STATUS.BYPASS: the mesh carries the bypass clock (R70). -/
  bypass : Bool := true
  /-- ROOT_STATUS.ACTIVE: the synthesizer driving, or last driving in bypass (R70). -/
  active : Syn := .s0
  /-- ROOT_STATUS.ALIGNED: the warm spare is within ±20 ps (R50). -/
  aligned : Bool := false
  s0 : Synth := {}
  s1 : Synth := {}
  /-- ROOT_STATUS.DIV_TAG (R45). -/
  divTag : BitVec 8 := 0
  /-- V of R56: the counter recorded at the last bypass edge at which the driver was locked. -/
  recV : Nat := 0
  /-- V + 5 × n of R56 while in bypass: what the counter takes once it is no longer ahead of it. -/
  bypTarget : Nat := 0
  /-- Bypass edges that passed in the detection window before the entry to bypass, until the first bypass edge after it:
  n - 1 of R56. -/
  lateEdges : Nat := 0
  /-- What an apply of DIV_APPLY changed in the running tick, for a switchover of that tick (R48). -/
  applied : Option ApplyUndo := none
  /-- The slow clock's count of ticks at the last automatic switchover: an apply of that tick waits for the next (R48). -/
  switchedAt : Option Nat := none
  /-- The band measurement in progress (R44). -/
  meas : Option RootMeas := none
  /-- Writes of ROOT_MEAS withheld until the running measurement is done, oldest first, by port (R442). -/
  heldMeas : List (Port × Word) := []
  /-- ROOT_MEAS_RES.COUNT (R73). -/
  measCount : BitVec 16 := 0
  /-- ROOT_MEAS_RES.TAG (R73). -/
  measTag : BitVec 8 := 0
  /-- ROOT_MEAS_RES.STATUS (R73). -/
  measStatus : BitVec 2 := 0
  /-- ROOT_AGE.CURRENT, signed, 0.01 ppm (R37, R75). -/
  ageCurrent : BitVec 12 := 0
  /-- The slow-clock edge of the last step of CURRENT (R37). -/
  ageAt : Nat := 0
  /-- ROOT_SYNC_ERR.PHASE (R74). -/
  syncPhase : BitVec 16 := 0
  /-- ROOT_SYNC_ERR.EDGES (R74). -/
  syncEdges : BitVec 8 := 0
  deriving DecidableEq, Repr

/-! ### Bellwether time -/

/-- The Bellwether counter and its status (R76 to R78, R102). -/
structure TimeSt where
  /-- The 64-bit Bellwether counter, below 2^64 (R78). -/
  counter : Nat := 0
  /-- The increment that the last edge added (R80). -/
  inc : Nat := 0
  /-- The counter is held for want of any clock (R66). -/
  held : Bool := false
  /-- BELL_STATUS.FIRST_BELL: a bell has occurred since cold reset (R102). -/
  firstBell : Bool := false
  /-- BELL_STATUS.LOAD_TAG (R102), and the slow clock's count of ticks at the last BELL_LOAD (R391). -/
  loadTag : BitVec 8 := 0
  loadAt : Option Nat := none
  /-- Increments the root has added since reset, on which the path replicas run (R79). -/
  total : Nat := 0
  /-- The latest edges of the root, newest first: the slow clock's count of ticks at each, and `total` there.  A flock
  sees each m ticks later (R79). -/
  trail : List (Nat × Nat) := []
  /-- Edges of the running broadcast frame already sent, 0 to 127 (R82). -/
  frameEdge : Nat := 0
  /-- `total` at the first edge of the running frame (R82). -/
  frameTot : Nat := 0
  /-- `total` at the first edge of the last complete frame (R82). -/
  frameLast : Nat := 0
  /-- T, BYPASS and LOAD of the running frame: the counter and the mode at its first edge, and whether the counter
  was loaded before it (R82). -/
  frameT : Nat := 0
  frameByp : Bool := true
  frameLoad : Bool := false
  /-- The counter has been loaded since the running frame began (R82). -/
  loaded : Bool := false
  /-- Ticks since the last slow-clock edge, 0 to 39 (R35, R62). -/
  slow : Nat := 0
  /-- Slow-clock edges since reset (R449). -/
  slowEdges : Nat := 0
  deriving DecidableEq, Repr

/-- One snapshot set of one port: VALID, TAG, the index captured, a mode bit, the words (R97, R447). -/
structure Snap where
  valid : Bool := false
  tag   : BitVec 8 := 0
  index : Nat := 0
  bypass : Bool := false
  words : List Word := []
  deriving DecidableEq, Repr

/-! ### Flocks: mesh paths, drover, spares -/

/-- One tick-mesh path of a flock's aligner (R80 to R94). -/
structure MeshPath where
  /-- LOCKED (R84, R104). -/
  locked : Bool := false
  /-- Failed under R88. -/
  failed : Bool := false
  /-- Taken out of use by firmware for a tap calibration (R352). -/
  calOut : Bool := false
  /-- Latency m in ticks (R84, R105). -/
  m : BitVec 6 := 0
  /-- m is valid: MESH_SET bit 17 (R83). -/
  mValid : Bool := false
  /-- The fine delay code δ (R84, R105). -/
  delta : BitVec 10 := 0
  /-- The replica less the root's total of increments (R79). -/
  repBase : Int := 0
  /-- The replica is loaded (R84). -/
  repValid : Bool := false
  /-- The root's total of increments at the first edge of the frame after the one that loaded it: a later frame checks it (R84). -/
  repFrom : Nat := 0
  /-- Consecutive frames whose CRC failed (R88). -/
  crcBad : Nat := 0
  /-- The last good frame with LOAD = 0 disagreed with the replica (R88). -/
  mismatch : Bool := false
  /-- The slow clock's count of ticks at the last step of δ, or at the lock (R85). -/
  trackAt : Nat := 0
  /-- The increments from which the failed path, locked again, has stayed clean (R92). -/
  cleanFrom : Nat := 0
  /-- Tap selections in force (R340, R356), and restored ones that the path takes when it is next out of use (R357). -/
  taps : List (BitVec 8) := []
  tapsNew : Option (List (BitVec 8)) := none
  /-- The selections that a calibration in progress has replaced (R358). -/
  tapsOld : Option (List (BitVec 8)) := none
  /-- PATH_DUE (R364). -/
  due : Bool := false
  /-- Its last tap calibration was rejected (R355). -/
  rejected : Bool := false
  /-- The increments at which its tap calibration began (R352, R358). -/
  calFrom : Nat := 0
  deriving DecidableEq, Repr

/-- The states of a generator.  For a spare they are the codes of FLOCK_SPARE.STATE (R303); an own
generator is `absent` before it starts, `serving` while it is its region's, `failed` or `qualified`. -/
inductive GenSt where
  | absent
  | locking
  | free
  | serving
  | measuring
  | failed
  | qualified
  deriving DecidableEq, Repr

/-- One generator row of R153: its verified copy, its band, and its redundancy state. -/
structure Gen where
  st : GenSt := .absent
  /-- ROW_OK (R154). -/
  rowOk : Bool := false
  /-- Verified at least once since cold reset (R155). -/
  verified : Bool := false
  /-- The verified copy of its row, 24 words (R154). -/
  copy : List Word := []
  /-- The selected band (R158). -/
  band : Option Nat := none
  /-- The band change planned for the coming bell (R159). -/
  planned : Option Nat := none
  /-- The divider that goes with it (R282). -/
  plannedDiv : Nat := 1
  /-- The band-change stop in force: the count of increments at which it ends (R160). -/
  stopEnd : Option Nat := none
  /-- The divider d, 1, 2 or 4 (R281). -/
  div : Nat := 1
  /-- The slot served while `st = serving`, of a spare (R303). -/
  slot : Nat := 0
  /-- FLOCK_SPARE.COVER (R303). -/
  cover : BitVec 16 := 0
  /-- The increments from which a LOCKING spare has held its line (R280). -/
  lockFrom : Nat := 0
  /-- The sampler's copy of the count: that of the region it serves, or the shadow count of a FREE or QUALIFIED
  generator (R278, R280). -/
  count : Nat := 0
  /-- The frequency it is commanded to, in MHz, from the last tick edges on, newest first (R283, R284). -/
  words : List Nat := []
  /-- Under band measurement (R156), and its state before it. -/
  measFrom : Option GenSt := none
  /-- The slow clock's count of ticks at the measurement's start, and the bands whose entries it has written (R156). -/
  measAt : Nat := 0
  measBands : Nat := 0
  /-- The slow clock's count of ticks at which a measurement last wrote its row, and the bands whose entries it wrote in that tick, from
  the first to before the second (R156, R490). -/
  rowWroteAt : Option Nat := none
  rowWrote : Nat × Nat := (0, 0)
  /-- Its row as it stood before the first data-port write that landed on it while ROW_VERIFY ran (R424). -/
  rowWas : Option (List Word) := none
  /-- Band-cell selections of bands 0 to 23 in force (R356). -/
  cells : Tab (BitVec 8) := []
  /-- Windsock element selections of types 0 to 7 in force (R356). -/
  socks : Tab (BitVec 8) := []
  /-- Accepted band-cell proposal awaiting the region's park: band and steps (R346). -/
  cellProp : Option (Nat × Int) := none
  /-- Accepted windsock proposals awaiting the region's park (R346). -/
  sockProp : List Int := []
  /-- A spare due for calibration (R351, R364). -/
  due : Bool := false
  /-- A calibration hold of a spare in force: the increments at which it began (R351). -/
  calFrom : Option Nat := none
  /-- Counts of a hold that ended while the core did not run, with the band they are of (R343). -/
  waiting : Option (Nat × Nat × Nat) := none
  /-- Its last calibration result was rejected (R355). -/
  rejected : Bool := false
  /-- A reinstated own generator that takes its region back at the next park (R295). -/
  failback : Bool := false
  deriving DecidableEq, Repr

/-! ### Regions -/

/-- The level of a region's windsocks (R169). -/
inductive Level where
  | none
  | advise
  | stretch
  | hold
  deriving DecidableEq, Repr

/-- The tracking states of R117 that are not decided by parking, a slot or an exclusion. -/
inductive Track where
  | run
  | reel
  | held
  deriving DecidableEq, Repr

/-- Exclusion of a region (R128, R130). -/
inductive Excl where
  | no
  | byHost
  | auto
  deriving DecidableEq, Repr

/-- A calibration hold of a region in force (R344, R345). -/
structure Hold where
  /-- The tick of hold tick 0. -/
  start : Nat
  /-- A hold at a planned bell, not in a slot (R349). -/
  atBell : Bool
  /-- Its results will be discarded (R289, R359). -/
  discard : Bool
  /-- The flock's temperature at its start (R342). -/
  temp : Int
  deriving DecidableEq, Repr

/-- What a region's hold measured: the hold, the generator and band it ran on, the DCO counts and the rings (R343,
R345). -/
structure Held where
  hold : Hold
  gen : Nat
  band : Nat
  entry : Word
  count0 : Nat
  count1 : Nat
  rings : List Nat
  deriving DecidableEq, Repr

/-- A forecast entry that awaits its HIT or MISS (R244). -/
structure SkewEntry where
  /-- Entry index in its bank. -/
  idx : Nat
  /-- Fold offset of the entry. -/
  off : Nat
  /-- It has been counted as a HIT or MISS. -/
  counted : Bool := false
  deriving DecidableEq, Repr

/-- A stretch that one sample owes (R171): the instant at which its warning resolved, in 1/65,536 tick of the root's
total of increments, its eighths, and whether the level was reached only through a HOLD_MARGIN raise (R233). -/
structure Owed where
  at16 : Nat
  eighths : Nat
  byFcst : Bool := false
  deriving DecidableEq, Repr

/-- The drover's state of one region (R107 to R148, R151 to R189, R227 to R233, R298, R344). -/
structure Region where
  /-- The region has left reset (R155). -/
  out : Bool := false
  /-- An edge has been issued since: rg_rst_n is released at it (R519). -/
  rstN : Bool := false
  /-- Its open pace line, in 1/65,536 cycle, and the root's total of increments up to which it has risen (R112). -/
  openPace : Nat := 0
  openTo : Nat := 0
  /-- C: edges issued since the bell (R116). -/
  c : Nat := 0
  /-- The captured phase in 1/16 period (R164). -/
  phase16 : Nat := 0
  /-- The pace line at the last tick edge, in 1/16 cycle (R115). -/
  pace16 : Nat := 0
  /-- The lag at the last tick edge, in 1/16 cycle (R116). -/
  lag16 : Nat := 0
  /-- The lag one tick earlier. -/
  lag16a : Nat := 0
  /-- The lag two ticks earlier, which its neighbours' floors use (R120). -/
  lag16b : Nat := 0
  /-- The floor in 1/16 cycle at the last tick edge (R120). -/
  floor16 : Nat := 0
  /-- The floor at the coming tick edge, which bounds the edges issued until then (R117, R121). -/
  floorNext : Nat := 0
  /-- Its lag exceeds T − g: it pulls (R120). -/
  pulling : Bool := false
  /-- RUN, REEL or HELD (R117). -/
  track : Track := .run
  /-- PARKED (R117). -/
  parked : Bool := false
  /-- DETACHED: inside a slot hold (R348). -/
  detached : Bool := false
  /-- Exclusion (R128, R130). -/
  excl : Excl := .no
  /-- A re-admission is pending for the next bell (R129). -/
  readmit : Bool := false
  /-- Excluded for the whole of the running window (R256). -/
  exclWindow : Bool := false
  /-- A forced hold through the crook path (R298). -/
  forced : Bool := false
  /-- The offset of its K-th edge from the fold's bell (R136). -/
  kDone : Nat := 0
  /-- FLOCK_MUX.SEL: 0 own, 1 spare 0, 2 spare 1, 3 no source (R301). -/
  mux : BitVec 2 := 0
  /-- The generator to which the multiplexer switches at the end of its band-change stop (R288). -/
  switchTo : Option Nat := none
  /-- The fold at whose end its generator last changed band by plan (R350). -/
  bandFold : Option Nat := none
  /-- The windsock level (R169). -/
  level : Level := .none
  /-- The margin at the last sample (R182). -/
  margin : Nat := 0
  /-- The worst type at the most recent stretch or hold onset (R182). -/
  wsType : Nat := 0
  /-- Consecutive samples above HLD for every type while at hold level (R172). -/
  above : Nat := 0
  /-- The stretches that samples at stretch level owe to coming edges (R171). -/
  owed : List Owed := []
  /-- Its hold level was reached only through a HOLD_MARGIN raise (R233). -/
  heldByFcst : Bool := false
  /-- PRE_STRETCH edges that remain (R227). -/
  preN : Nat := 0
  /-- PRE_STRETCH eighths per edge (R227). -/
  preW : Nat := 0
  /-- The lean ceiling code in force (R228). -/
  leanC : Option Nat := none
  /-- The HOLD_MARGIN raise in force (R229). -/
  raiseR : Nat := 0
  /-- The instant of its last issued edge, in 1/65,536 tick (R151). -/
  lastEdge : Nat := 0
  /-- The DCO frequency in MHz (R165). -/
  freq : Nat := 0
  /-- Restricted operation (R161). -/
  restrict : Bool := false
  /-- A failover hold in force ends with the next edge (R287). -/
  failHold : Bool := false
  /-- The commanded frequency at the takeover whose hold is being measured, in MHz (R287, R306). -/
  holdMHz : Option Nat := none
  /-- C at the last two tick edges (R283). -/
  cTick : Nat := 0
  cTick1 : Nat := 0
  /-- RCG_CNT0.STR_EDGES (R183). -/
  strEdges : Word := 0
  /-- RCG_CNT1.STR_EIGHTHS (R183). -/
  strEighths : Word := 0
  /-- RCG_CNT2.HOLD_EDGES (R183). -/
  holdEdges : Word := 0
  /-- RCG_CNT3.ADV_ON (R183). -/
  advOn : Half := 0
  /-- RCG_CNT3.HOLD_ON (R183). -/
  holdOn : Half := 0
  /-- RCG_CNT4.REEL_TICKS (R183). -/
  reelTicks : Word := 0
  /-- RCG_CNT5.HELD_TICKS (R183). -/
  heldTicks : Word := 0
  /-- Ticks in restricted operation; RCG_CNT6 shows them in units of 256 (R183). -/
  restrictTicks : Nat := 0
  /-- RCG_CNT6.GATE (R183). -/
  gate : Half := 0
  /-- RCG_CNT7.BANDS (R183). -/
  bands : Half := 0
  /-- RCG_CNT7.FORCED (R183). -/
  forcedStops : Half := 0
  /-- The largest lag of the running fold, 1/16 cycle (R182). -/
  lagMaxNow : Nat := 0
  /-- RCG_LIVE3.LAG_MAX: of the last completed fold (R182). -/
  lagMax : Nat := 0
  /-- Edges stretched in the running fold (R182). -/
  strNow : Nat := 0
  /-- RCG_LIVE3.STR_FOLD: of the last completed fold (R182). -/
  strFold : Nat := 0
  /-- 1/16 cycles each cause of R136 has added to its lag in the running fold. -/
  causes : Tab Nat := []
  /-- Its lag at the fold's first call (R150). -/
  callLag : Nat := 0
  /-- The head of the pull chain that holds it now; none while no floor or tether stop holds it (R136). -/
  head : Option Nat := none
  /-- The head of the pull chain that held it at the first call (R136). -/
  origin : Nat := 0
  /-- Incomplete at the fold's first call (R133). -/
  lateCall : Bool := false
  /-- Edges issued and activity codes summed in the ballast window (R256). -/
  edges : Nat := 0
  activity : Nat := 0
  /-- The same in the clamp window (R262). -/
  clampEdges : Nat := 0
  clampActivity : Nat := 0
  /-- FLOCK_CAL.DUE (R364). -/
  due : Bool := false
  /-- The FOLDS value at which its deadline expires (R349). -/
  deadline : Nat := 0
  /-- Its calibration hold in force (R345). -/
  hold : Option Hold := none
  /-- A hold has run in it in this fold (R344). -/
  heldThisFold : Bool := false
  /-- The slot that its CAL_SLOT entry declared: the tick at which it began, its fold offset, its length (R231). -/
  slot : Option (Nat × Nat × Nat) := none
  /-- Its last calibration result was rejected (R355). -/
  rejected : Bool := false
  /-- Results of a hold that ended while the core did not run wait here (R343). -/
  waiting : Option Held := none
  /-- PRE_STRETCH and HOLD_MARGIN entries applied in the fold (R244). -/
  skew : List SkewEntry := []
  /-- Advise onsets of the fold: fold offset, and whether it has been judged for UNFORECAST (R244). -/
  onsets : List (Nat × Bool) := []
  deriving DecidableEq, Repr

/-- A takeover of the running tick and what it changed, for the happening of the same tick that undoes it: the generator
taken, the slot, the fault code; that generator, the region and FLOCK_FO_LAST before it; the generator that a forced failover
left behind, as it was; whether it counted as uncovered; the flock's conditions, and the event bits of FLOCK_EVENT and
CAL_EVENT that it set; of a forced failover its port, TAG and GEN, and CRK_STAT before it (R290, R291). -/
structure Taken where
  gen : Nat
  slot : Nat
  code : Nat
  genWas : Gen := {}
  regionWas : Region := {}
  foLastWas : Word := 0
  leftWas : Option (Nat × Gen) := none
  uncov : Bool := false
  coverGapWas : Bool := false
  svcWas : Bool := false
  spareOutWas : Bool := false
  raised : BitVec 24 := 0
  raisedCal : BitVec 24 := 0
  cmd : Option (Port × BitVec 8 × Nat × BitVec 8 × BitVec 4) := none
  deriving DecidableEq, Repr

/-- The state of one flock (R79 to R106, R276 to R308, R364). -/
structure Flock where
  p0 : MeshPath := {}
  p1 : MeshPath := {}
  p2 : MeshPath := {}
  /-- FLOCK_MESH.SEL (R104). -/
  sel : BitVec 2 := 0
  /-- The flock's last path has failed: it has no clock (R93). -/
  noClock : Bool := false
  /-- FLOCK_MESH.FAILS, saturating at 255 (R104). -/
  fails : BitVec 8 := 0
  /-- FLOCK_STATUS.COVER_GAP (R281). -/
  coverGap : Bool := false
  /-- FLOCK_STATUS.PARITY (R293). -/
  parity : Bool := false
  /-- FLOCK_STATUS.SVC as last reported by SVC_ON or SVC_OFF (R292). -/
  svc : Bool := false
  /-- SPARE_OUT as last reported (R292). -/
  spareOut : Bool := false
  /-- LAST: on its last healthy path, as last reported (R93). -/
  lastPath : Bool := false
  /-- FLOCK_GEN_STAT.STATUS (R305). -/
  genStatus : BitVec 2 := 0
  /-- FLOCK_GEN_STAT.TAG (R305). -/
  genTag : BitVec 8 := 0
  /-- FLOCK_GEN_STAT still reports the running RETEST (R294). -/
  reportsRetest : Bool := false
  /-- The generator under RETEST: slot 0 to 15, or 16 + spare; and the root's total of increments at its start (R294). -/
  retest : Option Nat := none
  retestAt : Nat := 0
  /-- FLOCK_FO_CNT.FAILOVERS (R306). -/
  failovers : BitVec 16 := 0
  /-- FLOCK_FO_CNT.UNCOVERED (R306). -/
  uncovered : BitVec 8 := 0
  /-- FLOCK_FO_CNT.RETRIES (R306). -/
  retries : BitVec 8 := 0
  /-- FLOCK_FO_LAST (R306). -/
  foLast : Word := 0
  /-- Slots whose claim waits for the next tick edge (R290), with the fault code and the root's total of
  increments at which it was deferred. -/
  claims : List (Nat × Nat × Nat) := []
  /-- Takeovers of the running tick, and of the one before it (R290, R291). -/
  taken : List Taken := []
  takenLast : List Taken := []
  /-- FLOCK_TEMP.TEMP, 0.25 °C (R364). -/
  temp : Int := 0
  /-- By how many ticks the label at which the flock took its bell differs from the root counter at that bell: 0 in
  tick mode (R57, R58, R79). -/
  bellShift : Int := 0
  /-- The flock has begun its grace tail: its own first edge at offset F - G or later has come (R95). -/
  tailed : Bool := false
  /-- Index of the next forecast entry to be delivered to the flock (R95, R226). -/
  nextIdx : Nat := 0
  /-- A first temperature has been read; the last sample, plausible or not (R339). -/
  tempSeen : Bool := false
  tempPrev : Option Int := none
  /-- FLOCK_TEMP.TEMP_LAST (R364). -/
  tempLast : Int := 0
  /-- The temperature at the start of the first accepted hold since the trigger (R342). -/
  tempHold : Option Int := none
  deriving DecidableEq, Repr

/-! ### Crossings -/

/-- The licensee's hookup of one crossing pointer unit: storage attached, the regions it joins, and the
xc_depth tie-off (R29, R202, R521). -/
structure Hook where
  attached : Bool := false
  writer   : Nat := 0
  reader   : Nat := 0
  depth    : BitVec 2 := 0
  deriving DecidableEq, Repr

/-- One crossing pointer unit (R190 to R221). -/
structure Xing where
  /-- xc_depth as sampled at cold reset (R202). -/
  depth : BitVec 2 := 0
  /-- Enabled by the calibration in force (R201). -/
  enabled : Bool := false
  /-- Measured by the calibration in force: it has a manifest entry. -/
  listed : Bool := false
  /-- The flags of its manifest entry (R206). -/
  nomeas : Bool := false
  long : Bool := false
  tight : Bool := false
  pinned : Bool := false
  pinExceeded : Bool := false
  /-- The latency L in beats (R200). -/
  lat : Nat := 0
  /-- The transport D in beats (R200). -/
  dBeats : Nat := 0
  /-- t_x in 15.625 ps (R199). -/
  tx : Nat := 0
  /-- The pin byte of its manifest entry (R206). -/
  pin : BitVec 8 := 0
  /-- Writer and reader edges per beat recorded at calibration; 0 where not an integer (R192). -/
  wRatio : Nat := 0
  rRatio : Nat := 0
  /-- XING_LIVE1.RATIO_OK (R192). -/
  ratioOk : Bool := false
  /-- Armed (R193). -/
  armed : Bool := false
  /-- Disarmed by an exclusion (R211). -/
  disarmed : Bool := false
  /-- Beats issued by the writer and the reader since arming; WB and RB are their low 8 bits (R193). -/
  wBeats : Nat := 0
  rBeats : Nat := 0
  /-- Instants at which the writer's latest beats were launched, newest first, at most as many as the deepest
  storage holds, in 1/65,536 tick of elapsed time (R196, R202; the model's own record, log 17). -/
  launch : List Nat := []
  /-- XING_LIVE1.SLIP_MAX (R219). -/
  slipMax : Nat := 0
  /-- The writer, or the reader, has issued a further edge since its slip passed T − g (R122). -/
  pastW : Bool := false
  pastR : Bool := false
  /-- A tether stop withholds the writer or the reader (R122). -/
  stopW : Bool := false
  stopR : Bool := false
  /-- The availability interlock withholds the reader (R196). -/
  avail : Bool := false
  /-- The room interlock withholds the writer (R197). -/
  room : Bool := false
  /-- XING_CNT0.TSTOPS (R220). -/
  tstops : Word := 0
  /-- XING_CNT1.AVAIL and ROOM (R220). -/
  availCnt : Half := 0
  roomCnt : Half := 0
  /-- XING_CNT2.MATCH and MISMATCH (R220). -/
  matchCnt : Half := 0
  mismatchCnt : Half := 0
  deriving DecidableEq, Repr

/-- The crossing block (R213 to R221). -/
structure XingSt where
  tab : Tab Xing := []
  /-- XING_STATUS.CAL_RUN (R216). -/
  calRun : Bool := false
  /-- XING_STATUS.MANIFEST_READY (R216). -/
  manifestReady : Bool := false
  /-- XING_STATUS.ARMED (R216). -/
  armed : Bool := false
  /-- T, g and TMARGIN are captured (R118, R215). -/
  captured : Bool := false
  /-- The manifest's CAL_TICK, CRC, and the SPRINT and K16 fields of its header (R205). -/
  calTick : Nat := 0
  manifest : List (BitVec 8) := []
  /-- K, NOM and SPRINT of each class, and the classes of each crossing's writer and reader, as they stood when calibration
  started (R200). -/
  calVals : List (Nat × Nat × Nat) := []
  calCls : List (Nat × Nat × Nat) := []
  /-- The slow clock's count of ticks at which MANIFEST_READY was set (R490). -/
  readyAt : Option Nat := none
  /-- XING_AUDIT_STAT.HIT, UNPAIRED, OFFSET, XING (R221). -/
  auditHit : Bool := false
  auditUnpaired : Bool := false
  auditOffset : BitVec 8 := 0
  auditXing : BitVec 15 := 0
  deriving DecidableEq, Repr

/-! ### Folds -/

/-- What the fold sequence keeps per clock class (R132 to R135, R143, R260, R273). -/
structure ClassSt where
  /-- K_eff of the running fold, in cycles (R115). -/
  kEff : Nat := 0
  /-- The software K in force, in cycles (R132, R243). -/
  kSw : Nat := 0
  /-- The pace increment, Q16.16 (R115). -/
  inc : Nat := 0
  /-- ADAPT_STEPS (R135). -/
  steps : Nat := 0
  /-- Cycles by which ADAPTIVE holds the class down (R133). -/
  down : Nat := 0
  /-- FOLDS values of the missed bells charged in the last 256 folds (R133). -/
  win : List Nat := []
  /-- Consecutive folds with no missed bell charged (R134). -/
  clean : Nat := 0
  /-- The last bell took the class's software K from FCST_FLATn, or asked it to (R114, R243). -/
  fromFlat : Bool := false
  /-- ZONE_CAPn.CAP16, ZONE and LEVEL (R273). -/
  cap16 : Nat := 0
  capZone : Nat := 0
  capLevel : Nat := 0
  deriving DecidableEq, Repr

/-- One entry of the 16-entry fold log (R136, R150). -/
structure LogEntry where
  nominal   : Word := 0
  straggler : Nat := 0
  origin    : Nat := 0
  cause     : Nat := 0
  cls       : Nat := 0
  lag       : Nat := 0
  laps      : Nat := 0
  seq       : BitVec 8 := 0
  lastDone  : Nat := 0
  planned   : Bool := false
  excluded  : Bool := false
  deriving DecidableEq, Repr

/-- The bell sequencer (R107 to R150). -/
structure FoldSt where
  /-- FOLD_STATUS.STARTED (R141). -/
  started : Bool := false
  /-- FOLD_STATUS.PENDING (R141). -/
  pending : Bool := false
  /-- FOLD_STATUS.IN_LAP (R141). -/
  inLap : Bool := false
  /-- FOLD_STATUS.STALLED (R141). -/
  stalled : Bool := false
  /-- Unplanned and planned laps of the running fold; LAPS_NOW is their sum (R141). -/
  laps : Nat := 0
  plannedLaps : Nat := 0
  /-- FOLD_STATUS.REJ_CAUSE (R141). -/
  rejCause : BitVec 4 := 0
  /-- FOLD_STATUS.START_TAG (R141). -/
  startTag : BitVec 8 := 0
  /-- FOLD_STATUS.K_REJ (R141). -/
  kRej : BitVec 4 := 0
  /-- The tick of the fold's bell, and of the pending first bell (R110, R113). -/
  bellTick : Nat := 0
  firstTick : Nat := 0
  /-- The tick at which the running fold's pace line starts: the edge of the bell (R58). -/
  paceStart : Nat := 0
  /-- The tick of the coming bell, laps included (R113). -/
  nextBell : Nat := 0
  /-- F and G of the running fold, in ticks (R108). -/
  f : Nat := 4096
  g : Nat := 64
  /-- A call of this fold has been taken; the first call has been taken (R124). -/
  called : Bool := false
  /-- The last call found every region complete: the bell rings at its tick (R124). -/
  ring : Bool := false
  /-- Only band-change stops held up the call that added an unplanned lap (R160). -/
  bandLate : Bool := false
  /-- Planned laps requested for the coming bell (R131). -/
  plannedReq : Nat := 0
  /-- The planned laps include calibration holds at the coming bell (R349). -/
  calPlanned : Bool := false
  /-- The grace tail of the fold has begun (R125). -/
  tail : Bool := false
  classes : Tab ClassSt := []
  /-- FOLD_STAT2 to FOLD_STAT7 (R137). -/
  folds : Word := 0
  missed : Word := 0
  lapsAll : Word := 0
  planned : Word := 0
  pulls : Word := 0
  tstops : Word := 0
  /-- FOLDS as a count that does not wrap, for windows and deadlines. -/
  foldNo : Nat := 0
  /-- The log, newest first (R150). -/
  log : List LogEntry := []
  logSeq : BitVec 8 := 0
  /-- FOLD_EXCL_STAT.LAST (R147). -/
  exclLast : BitVec 13 := 0
  /-- FOLD_EXCL_RES (R148). -/
  exclRes : BitVec 2 := 0
  exclTag : BitVec 8 := 0
  exclRegion : BitVec 13 := 0
  /-- The fold is suspended while the counter is held (R66). -/
  suspended : Bool := false
  deriving DecidableEq, Repr

/-! ### The forecast -/

/-- The states of a forecast or firmware bank (R237, R405). -/
inductive BankSt where
  | empty
  | opened
  | waiting
  | verify
  | sealed
  | active
  deriving DecidableEq, Repr

/-- One bank: state, write count, the COUNT or LENGTH / 32 a seal read, and the tick of its timer or of
the end of its verification (R236 to R239, R405 to R407). -/
structure Bank where
  st     : BankSt := .empty
  wcount : Nat := 0
  want   : Nat := 0
  timer  : Nat := 0
  /-- The slow clock's count of ticks at its sealing (R241, R409). -/
  sealedAt : Nat := 0
  deriving DecidableEq, Repr

/-- The forecast engine (R222 to R254). -/
structure FcstSt where
  /-- FCST_CFG.MODE: single-bank mode (R247). -/
  single : Bool := false
  b0 : Bank := {}
  b1 : Bank := {}
  /-- The active bank (R249). -/
  active : Option (BitVec 1) := none
  /-- A pending SWAP: bank and SWAP_AT (R240). -/
  swap : Option (BitVec 1 × Word) := none
  /-- A pending STOP (R241). -/
  stop : Bool := false
  /-- FCST_STATUS.COMMITTED, and the committed state: a bank to swap in, or flat, or none where the
  state continues (R241). -/
  committed : Bool := false
  commitBank : Option (BitVec 1) := none
  commitFlat : Bool := false
  /-- FCST_STATUS.SEAL_RES, CMD_TAG and REJ; FCST_SEAL_IDX (R249, R250). -/
  sealRes : BitVec 4 := 0
  cmdTag : BitVec 8 := 0
  rej : BitVec 3 := 0
  sealIdx : Nat := 0
  /-- FCST_POS.FOLD and PERIOD; the active image's F64, G16, ONCE flag and SCHED_ID (R251). -/
  foldIdx : Nat := 0
  period : Nat := 0
  once : Bool := false
  schedId : Word := 0
  /-- A flat run is in progress (R243). -/
  flatRun : Bool := false
  /-- FCST_STAT0 to FCST_STAT7 (R245). -/
  dispatched : Word := 0
  dropped : Word := 0
  absorbed : Word := 0
  preEighths : Word := 0
  hits : Word := 0
  misses : Word := 0
  unforecast : Word := 0
  skewSum : Word := 0
  deriving DecidableEq, Repr

/-! ### Zones -/

/-- One supply zone (R255 to R275). -/
structure ZoneSt where
  /-- The ballast level in force (R259). -/
  level : Nat := 0
  /-- The level decided for the coming bell (R259). -/
  next : Nat := 0
  /-- Consecutive decisions below LO_PCT (R259). -/
  relax : Nat := 0
  /-- ZONE_STATUS.CLAMP (R272). -/
  clamp : Bool := false
  /-- The estimate of the last completed window, W (R275). -/
  est : Nat := 0
  /-- Classes its regions held during the last decision's window (R261). -/
  scope : List Nat := []
  /-- Estimates recorded by fold index (R257). -/
  hist : Tab Nat := []
  deriving DecidableEq, Repr

/-- Ballast (R255 to R275). -/
structure BallastSt where
  tab : Tab ZoneSt := []
  /-- The tick at which the running clamp window began (R262). -/
  clampFrom : Nat := 0
  /-- Folds the active bank has played since the history was cleared (R257). -/
  played : Nat := 0
  /-- ZONE_OVR1, 3, 4, 5 and 6; ZONE_OVR2 is PULLS + TSTOPS (R266). -/
  ovr1 : Word := 0
  ovr3 : Word := 0
  ovr4 : Word := 0
  ovr5 : Word := 0
  ovr6 : Word := 0
  deriving DecidableEq, Repr

/-! ### The crook path -/

/-- The crook path (R297, R309). -/
structure CrookSt where
  /-- CRK_STAT.ARMED, and the slow-clock edge count at which it was armed (R297). -/
  armed : Bool := false
  armedAt : Nat := 0
  /-- CRK_STAT.TAG and REJ (R309). -/
  tag : BitVec 8 := 0
  rej : BitVec 4 := 0
  /-- The slow-clock edge at which a board-management command lost to a host's and set TAG: the host's, whose TAG may be the same,
  is performed all the same (R297). -/
  lostAt : Option Nat := none
  /-- A forced failover that an automatic one of the same tick holds to the next tick edge: its port, TAG, region, GEN (R291). -/
  held : Option (Port × BitVec 8 × Nat × Nat) := none
  deriving DecidableEq, Repr

/-! ### Tally -/

/-- The states of a Tally unit (R335). -/
inductive TallyState where
  | idle
  | waiting
  | calibrating
  | measuring
  | done
  deriving DecidableEq, Repr

/-- Owners of Tally units (R331). -/
inductive Owner where
  | none
  | host
  | bm
  | fw
  deriving DecidableEq, Repr

/-- A stop channel in the running repeat: chosen edges taken since the start, and the ring position of the last one
that reached its edge counter, in phases (R317, R318). -/
structure StopCh where
  channel : Nat
  count   : Nat := 0
  last    : Option Int := none
  deriving DecidableEq, Repr

/-- One Tally unit (R310 to R338). -/
structure TallyUnit where
  owner : Owner := .none
  state : TallyState := .idle
  /-- TALLY_STAT.REP, TAG, REJ (R335). -/
  rep : Nat := 0
  tag : BitVec 8 := 0
  rej : BitVec 3 := 0
  /-- TALLY_CAL.R1 and R2 (R336). -/
  r1 : BitVec 16 := 0
  r2 : BitVec 16 := 0
  /-- The running repeat's calibration: the span and offset accepted, none when not accepted (R316). -/
  gain : Option (Int × Int) := none
  /-- The slow clock's count of ticks at which the latest calibration of the repeat began; its readings are taken (R315,
  R316). -/
  calAt : Nat := 0
  calRead : Bool := false
  /-- The running repeat was hit by a missing crystal edge (R312). -/
  refLost : Bool := false
  /-- The window is open since this tick; its start edge has arrived (R313, R317). -/
  openedAt : Nat := 0
  gateOpen : Bool := false
  started : Bool := false
  /-- The ring position of the start edge, in phases; chosen edges that the start channel has counted from the gate
  (R310, R318). -/
  startPos : Int := 0
  startCount : Nat := 0
  /-- The stop channels that have taken an edge of the running repeat, and the increments at the last record (R313,
  R317). -/
  chans : List StopCh := []
  lastAt : Nat := 0
  /-- Stops recorded in the running repeat: channel and result word (R317, R318). -/
  stops : List (Nat × Word) := []
  /-- TALLY_BUF, 128 words (R323). -/
  buf : Tab Word := []
  /-- TALLY_RES, 8 words (R323). -/
  res : Tab Word := []
  /-- A release waits for DONE; the count of slow-clock edges at which a release took effect at DONE (R329, R330). -/
  releasing : Bool := false
  freedAt : Option Nat := none
  /-- Phase selections in force (R353, R356), and a phase calibration's start tick. -/
  phases : List (BitVec 8) := []
  phaseCal : Option Nat := none
  due : Bool := false
  rejected : Bool := false
  /-- What runs on unit 0 is an exchange of muster or a timestamp of ms_pps_in (R326, R375, R386). -/
  forMuster : Bool := false
  deriving DecidableEq, Repr

/-- A pending claim of a port: the pool unit and the slow-clock edge of its write (R328). -/
structure Claim where
  unit : BitVec 2
  since : Nat
  deriving DecidableEq, Repr

/-- The Tally block (R325 to R331). -/
structure TallySt where
  u0 : TallyUnit := { owner := .fw }
  u1 : TallyUnit := {}
  u2 : TallyUnit := {}
  u3 : TallyUnit := {}
  claimHost : Option Claim := none
  claimBm : Option Claim := none
  claimFw : Option Claim := none
  /-- Each port's last TALLY_CLAIM TAG (R464). -/
  tagHost : BitVec 8 := 0
  tagBm : BitVec 8 := 0
  tagFw : BitVec 8 := 0
  deriving DecidableEq, Repr

/-! ### Calibration -/

/-- The calibration block (R339 to R365). -/
structure CalSt where
  /-- CAL_TEMP_AO.TEMP and TEMP_LAST (R363). -/
  tempAo : Int := 0
  tempAoSeen : Bool := false
  tempAoPrev : Option Int := none
  /-- The slow clock's count of ticks at the last sample of the sensors (R339). -/
  tempAt : Option Nat := none
  /-- Triggers that arrived while calibrations were held, in order: flocks, and the island under its own number; and
  those of them that arrived in a hold that is over (R19). -/
  arrived : List Nat := []
  arrivedOld : List Nat := []
  /-- The image last restored, empty for the factory values: what factory-only mode keeps in force (R341). -/
  base : Mem := []
  tempAoLast : Int := 0
  /-- CAL_STATUS.RESTORE_PEND, TAG, REJ; FACTORY (R362). -/
  restorePend : Bool := false
  tag : BitVec 8 := 0
  rej : BitVec 3 := 0
  factory : Bool := true
  /-- CAL_LATEST.END (R363). -/
  latest : Nat := 0
  /-- CAL_CNT0 and CAL_CNT1 (R363). -/
  cntSlot : Half := 0
  cntBell : Half := 0
  cntRej : Half := 0
  cntSkip : Half := 0
  /-- The band-gap buffer code, 8 bits of 0.5 mV (R340). -/
  bandgap : BitVec 8 := 0
  /-- The counter at the last band-gap step (R355). -/
  bandgapAt : Nat := 0
  /-- The counter at the last charge-pump step of either synthesizer (R355). -/
  pumpAt : Nat := 0
  /-- CAL_TICK of the values in force (R356). -/
  calTick : Nat := 0
  /-- Calibrations of a restore still slewing: trim codes to reach (R357). -/
  bandgapTarget : BitVec 8 := 0
  /-- The tick of the last charge-pump calibration's start (R354). -/
  pumpFrom : Nat := 0
  /-- The band-gap buffer's last comparison was rejected (R355). -/
  bandgapRejected : Bool := false
  /-- The increments from which a calibration may take unit 0, after the droop timing aborted for it (R326). -/
  unit0From : Nat := 0
  deriving DecidableEq, Repr

/-! ### Muster -/

/-- The states of a muster port, with the codes of R370. -/
inductive PortState where
  | off
  | noCable
  | training
  | up
  | loop
  | conflict
  | long
  deriving DecidableEq, Repr

/-- One muster port (R366 to R378, R394). -/
structure MusPort where
  st : PortState := .off
  /-- CABLE: debounced cable-detect (R394). -/
  cable : Bool := false
  /-- The slow-clock edge of its last debounced change (R371). -/
  cableAt : Nat := 0
  /-- PEER (R394). -/
  peer : BitVec 10 := 0
  /-- PARENT and CHILD (R394). -/
  parent : Bool := false
  child : Bool := false
  /-- DELAY in 15.625 ps (R394). -/
  delay : BitVec 16 := 0
  /-- Consecutive HELLOs accepted while training (R371). -/
  hellos : Nat := 0
  /-- UP since the round start, and so usable for the tree (R370). -/
  usable : Bool := false
  /-- The link was lost in this round and has not come up since: a frame that was in flight is discarded (R390, R391). -/
  cut : Bool := false
  /-- The increments at which the last HELLO of training was sent, and the round of the last one sent while UP
  (R368). -/
  helloAt : Option Nat := none
  helloRound : Option Nat := none
  /-- SEQs accepted this round; the port failed for the rest of it (R369). -/
  seen : List Nat := []
  roundFailed : Bool := false
  /-- Exchange markers of the round by exchange: transmit, and receive, in 0.25 ps (R375). -/
  tx : List (Nat × Rat) := []
  rx : List (Nat × Rat) := []
  /-- The peer's sums and differences by exchange, from its FOLLOWs (R376). -/
  sums : List (Nat × Int × Int) := []
  /-- The child's DONE of this round: subtree size, in holdover, worst, missing (R378). -/
  childDone : Option (Nat × Nat × Nat × Nat) := none
  /-- The coarse offset that the last HELLO gave, in 1/256 tick (R388). -/
  coarse : Int := 0
  deriving DecidableEq, Repr

/-- The muster front end (R366 to R399). -/
structure MusSt where
  p0 : MusPort := {}
  p1 : MusPort := {}
  /-- MUS_CFG as sampled at the last round start; its reset value before the first (R372, R392). -/
  cfg : Word := 0x0800001E
  /-- The round that runs: counter bits 51:20 (R367). -/
  round : Nat := 0
  inRound : Bool := false
  /-- The increments at the last round start (R373). -/
  roundAt : Option Nat := none
  /-- A TREE that would have given more than 1,023 hops has come in this round (R374). -/
  hopsOver : Bool := false
  /-- Parent port and HOPS of this round (R374, R395). -/
  parent : Option (BitVec 1) := none
  hops : Nat := 0x3FF
  /-- The core has restarted in this round: firmware takes muster up again at the next (R416). -/
  restarted : Bool := false
  /-- The increments at which the parent was taken (R374). -/
  treeAt : Nat := 0
  /-- θ_p and Θ of the round in 0.25 ps, exact; OFFSET was accepted (R376, R377). -/
  thetaP : Option Rat := none
  theta : Option Rat := none
  offsetSeen : Bool := false
  doneSent : Bool := false
  /-- APPLY of the round has been taken (R380). -/
  applied : Bool := false
  /-- MUS_STATUS.PARENT and HOPS as of the last APPLY (R395). -/
  statParent : Option (BitVec 1) := none
  statHops : Nat := 0x3FF
  /-- F and S in ppb, exact (R379, R380). -/
  freqF : Rat := 0
  slewS : Rat := 0
  /-- MUS_FREQ: F and S as of the last APPLY (R395). -/
  shownF : Rat := 0
  shownS : Rat := 0
  /-- MUS_OFFSET.THETA (R395). -/
  lastTheta : Int := 0
  /-- MUS_STATUS: MODE, ALIGNED, HOLD_ROUNDS (R395). -/
  mode : BitVec 3 := 0
  aligned : Bool := false
  goodRounds : Nat := 0
  holdRounds : Nat := 0
  holdover : Bool := false
  farSlew : Int := 0
  /-- The phase that the rotators have moved, in 0.25 ps; what their accumulator holds beyond it, less than a step; the phase at
  round offset 294,912, and the round in which it was kept (R379, R380). -/
  rotor : Rat := 0
  rotorAcc : Rat := 0
  rotorMid : Rat := 0
  midRound : Option Nat := none
  /-- MUS_PPS_ERR, an edge waiting for APPLY, the increments at the last edge seen, and the second nearest to it
  (R386). -/
  ppsErr : Int := 0
  ppsUse : Option Int := none
  ppsSeen : Nat := 0
  ppsSecond : Nat := 0
  /-- MUS_ROOT and MUS_ROOT_WORST (R396). -/
  reached : Nat := 0
  holdCnt : Nat := 0
  missing : Nat := 0
  worst : Nat := 0
  /-- MUS_TOD_CTRL.TAG last armed, ARMED (R397). -/
  todTag : BitVec 8 := 0
  todArmed : Bool := false
  /-- A time-of-day load requested by an ms_pps_in edge: the value, and the increments at the tick edge that bears it;
  a join load requested by a HELLO: the ticks to take off (R77, R387, R388). -/
  todLoad : Option (Nat × Nat) := none
  joinTicks : Option Int := none
  /-- The slow clock's count of ticks at which a time-of-day load was last made (R391). -/
  todAt : Option Nat := none
  /-- MUS_CNT (R398). -/
  discard : Half := 0
  downs : Half := 0
  /-- The sum of F over the current 256 rounds and their number; the means of the last 256 such spans, newest
  first; steps of ROOT_AGE that firmware has asked for and that are still to be applied (R383). -/
  fSum : Rat := 0
  fRounds : Nat := 0
  means : List Rat := []
  ageSteps : Int := 0
  /-- Frames the host has sent in the running round, newest first, by port (R368). -/
  sent : List (BitVec 1 × Frame) := []
  /-- The slow clock's count of ticks since which ms_pps_out is high (R385). -/
  ppsOutAt : Option Nat := none
  deriving DecidableEq, Repr

/-! ### The Shepherd core -/

/-- The states of the core, SHEP_STATUS.STATE (R429). -/
inductive CoreState where
  | held
  | running
  | halted
  | restarting
  deriving DecidableEq, Repr

/-- A background job (R421 to R426): JOB_STATUS state, progress, results, and the rows or crossings. -/
structure Job where
  state : Nat := 0
  progress : Nat := 0
  results : List Word := []
  first : Nat := 0
  count : Nat := 0
  deriving DecidableEq, Repr

/-- The Shepherd subsystem (R400 to R436). -/
structure ShepSt where
  state : CoreState := .held
  active : Option (BitVec 1) := none
  /-- SHEP_STATUS.BOOT, RESTARTS (R429). -/
  boot : BitVec 3 := 0
  restarts : BitVec 8 := 0
  /-- SHEP_PREV (R430). -/
  prev : Word := 0
  /-- SHEP_HALT, SHEP_HALT_PC, SHEP_HALT_VAL (R432). -/
  haltCause : BitVec 4 := 0
  haltCount : BitVec 8 := 0
  haltPc : Word := 0
  haltVal : Word := 0
  /-- The edges that have clocked the core, and their number at the last halt; the ticks that the watchdog has counted since the
  last kick; the increments at the last restart (R400, R413, R414, R422). -/
  edges : Nat := 0
  haltAt : Nat := 0
  wdogCount : Nat := 0
  startAt : Nat := 0
  /-- The slow-clock edge count at the core's last start (R420). -/
  startEdge : Nat := 0
  /-- The watchdog has expired with WDOG_ACT = 0 (R414). -/
  wdogOut : Bool := false
  /-- SHEP_ECC, saturating (R433). -/
  eccInsn : BitVec 16 := 0
  eccData : BitVec 16 := 0
  b0 : Bank := {}
  b1 : Bank := {}
  /-- A pending SWAP, and COMMITTED (R408, R409). -/
  swap : Option (BitVec 1) := none
  committed : Option (BitVec 1) := none
  sealRes : BitVec 4 := 0
  cmdTag : BitVec 8 := 0
  rej : BitVec 3 := 0
  rowJob : Job := {}
  xcalJob : Job := {}
  /-- STATUS results: code of the last INTERNAL result, commands completed (R422). -/
  internal : Word := 0
  completed : Nat := 0
  /-- A running IDENTIFY ends at this tick (R428). -/
  identifyEnd : Option Nat := none
  /-- The core's program counter at its last start (R401, R404). -/
  entry : Word := 0
  /-- The mailbox whose command the last watchdog reset completed (R420). -/
  wdogBox : Option Nat := none
  /-- The core runs and performs no duty, from the first duty that a command shows left undone to its next start (R543). -/
  hung : Bool := false
  deriving DecidableEq, Repr

/-- The states of a mailbox slot (R417). -/
inductive SlotSt where
  | idle
  | posted
  | taken
  deriving DecidableEq, Repr

/-- One mailbox (R417, R437, R438). -/
structure Mailbox where
  slot : SlotSt := .idle
  cmd : Word := 0
  args : Tab Word := []
  res : Tab Word := []
  status : BitVec 8 := 0
  tag : BitVec 8 := 0
  doneCount : BitVec 16 := 0
  /-- The slow-clock edges when firmware took the command (R420). -/
  takenAt : Nat := 0
  deriving DecidableEq, Repr

/-- The three mailboxes (R417). -/
structure MbxSt where
  m0 : Mailbox := {}
  m1 : Mailbox := {}
  m2 : Mailbox := {}
  deriving DecidableEq, Repr

/-! ### The configuration check and the event registers -/

/-- An SQ event register (R444): its event bits, SEQ, and the companion register's index. -/
structure EventReg where
  bits : BitVec 24 := 0
  seq : BitVec 8 := 0
  about : Nat := 0
  deriving DecidableEq, Repr

/-- A bell-class register written in the running tick: its key, the tick of the write by the slow clock's count,
and its last written value and standing before the tick's first write of it (R13). -/
structure FreshWr where
  key : Nat
  tick : Nat
  was : Word
  wasPend : Bool
  wasByPort : Bool
  deriving DecidableEq, Repr

/-- The configuration check (R450 to R462). -/
structure CfgSt where
  /-- Bell-class writes of the running tick, which a bell of that tick leaves to the next (R13). -/
  fresh : List FreshWr := []
  /-- CFG_CTRL: CHECK_EN, REF_VALID, RESTORE_EN; VIEW per port (R460). -/
  checkEn : Bool := true
  refValid : Bool := false
  restoreEn : Bool := false
  viewHost : Bool := false
  viewBm : Bool := false
  viewShep : Bool := false
  /-- Keys with a pending write; those whose pending write a port made; those whose last write completed within 64 ticks of a
  pending first bell (R450, R451). -/
  pend : List Nat := []
  byPort : List Nat := []
  late : List Nat := []
  /-- A restore is among the pending writes (R457). -/
  restoreSet : Bool := false
  /-- The tick, by the slow clock's count, of the restore's last write (R457). -/
  restoreAt : Nat := 0
  /-- CFG_STATUS (R461). -/
  drift : Bool := false
  restoring : Bool := false
  restoredOnce : Bool := false
  applyCnt : BitVec 8 := 0
  denyPort : BitVec 2 := 0
  /-- CFG_CRC (R461). -/
  crc : Word := 0
  /-- The running pass began at this count of increments; an application moves it on (R455). -/
  passFrom : Nat := 0
  /-- The copy a restore is writing, and the keys ports have written since it began (R457). -/
  copy : List Word := []
  portWrote : List Nat := []
  /-- The first complete pass after a restoring bell is still to come (R457). -/
  awaitPass : Bool := false
  deriving DecidableEq, Repr

/-! ### Supplies, life cycle, panel -/

/-- The fuses (R404, R480, R505 to R508). -/
structure Fuses where
  /-- The life-cycle state: 0 MANUFACTURE, 1 PROVISION, 2 FIELD, 3 RETURN (R480). -/
  state : BitVec 2 := 0
  /-- Key slots: digest programmed, revoked, digest (R404, R505). -/
  keyProg : BitVec 4 := 0
  keyRevoked : BitVec 4 := 0
  keys : Tab (BitVec 384) := []
  /-- The die identifier and whether it is programmed (R478, R506). -/
  dieId : BitVec 64 := 0
  dieIdSet : Bool := false
  /-- The factory trims are programmed; the MANUFACTURE-complete fuse (R506). -/
  trims : Bool := false
  mfgComplete : Bool := false
  /-- The erasure-complete fuse (R507). -/
  erased : Bool := false
  /-- Factory root band tables: entries 0 to 15 of synthesizer 0, then of 1 (R41). -/
  rootBand : Tab Word := []
  deriving DecidableEq, Repr

/-- A life-cycle request accepted and being blown, with its TAG (R506). -/
inductive LcJob where
  | transition (target : BitVec 2) (tag : BitVec 8)
  | revoke (slot : BitVec 2) (tag : BitVec 8)
  deriving DecidableEq, Repr

/-- What the instruction register of the test port selects (R518). -/
inductive TapIr where
  | bypass
  | sample
  | preload
  | extest
  | vendor
  deriving DecidableEq, Repr

/-- The digital pads that the boundary-scan register covers: those of R510 but the crystal, the Tally inputs, the muster pairs and
the test port's own (R510, R518; log 122). -/
inductive Pad where
  | xtalSel (k : Fin 2)
  | coldRst
  | fabPgood
  | syncIn
  | tallyGate (u : Fin 4)
  | cableDetect (p : Fin 2)
  | ppsIn
  | ppsOut
  | button
  | led
  deriving DecidableEq, Repr

/-- The IEEE 1149.1 port: the code that its 8-bit instruction register holds, what that selects, and its boundary-scan register, a bit
for each pad (R518; log 122; the code at reset: log 147). -/
structure TapSt where
  code : BitVec 8 := 0xFF
  ir : TapIr := .bypass
  scan : List Bool := []
  deriving DecidableEq, Repr

/-- The LC_ block: life cycle, supplies, front panel (R480 to R484, R491 to R493, R523 to R525). -/
structure LcSt where
  fuses : Fuses := {}
  /-- The life-cycle state shown, and the one that governs access, which follows it at the next slow-clock edge (R480,
  R506). -/
  state : BitVec 2 := 0
  access : BitVec 2 := 0
  erasing : Bool := false
  cmdTag : BitVec 8 := 0
  rej : BitVec 4 := 0
  /-- The accepted request whose fuses are being blown (R506). -/
  job : Option LcJob := none
  /-- Writes of LC_CTRL withheld until that request is performed, oldest first (R442). -/
  held : List Word := []
  /-- LC_SUPPLY (R482). -/
  mainOk : Bool := false
  backupOk : Bool := false
  onBackup : Bool := false
  switches : BitVec 8 := 0
  /-- The slow-clock edge count from which MAIN_OK has held (R491). -/
  mainFrom : Nat := 0
  /-- The island's power-on reset is asserted (R492). -/
  por : Bool := false
  /-- LC_PANEL (R483). -/
  button : Bool := false
  /-- BUTTON as it stood at the last slow-clock edge, and at the one before (R509). -/
  buttonLast : Bool := false
  buttonPrev : Bool := false
  longPress : Bool := false
  /-- The slow-clock edge of the last debounced change of the button (R523). -/
  pressedAt : Nat := 0
  led : BitVec 3 := 0
  /-- The quantum of the LED's last change, and the quanta for which its pattern had been shown then (R524, R525). -/
  ledAt : Nat := 0
  ledFor : Nat := 0
  /-- The tick of the last cable event that starts a flash sequence, and of the last one of an earlier quantum (R524). -/
  flash : Option Int := none
  flashPrev : Option Int := none
  /-- The quantum in which the last tick edge fell, and whether a service request and an IDENTIFY stood at its first edge
  (R524, R525). -/
  ledSeen : Option (Nat × Bool × Bool) := none
  /-- The test port (R518). -/
  tap : TapSt := {}
  /-- bm_addr[1:0] as sampled at cold reset (R514). -/
  bmAddr : BitVec 2 := 0
  deriving DecidableEq, Repr

/-- The power and reset state of the fabric domain (R493, R496, R501). -/
structure PowerSt where
  /-- ao_fab_pgood, filtered (R510). -/
  pgood : Bool := true
  /-- The tick mesh and aligners are out of reset (R501 step 4). -/
  meshUp : Bool := false
  /-- The rest of the fabric domain is out of reset (R501 step 5). -/
  fabUp : Bool := false
  /-- The mesh has been ready since it left reset, so step 5 of R501 has begun. -/
  meshReady : Bool := false
  /-- The restore of R500 runs when the fabric domain next leaves reset (R496, R500). -/
  restoreDue : Bool := false
  deriving DecidableEq, Repr

/-- The strap and tie-off inputs (R34, R510, R514). -/
structure Straps where
  /-- ao_xtal_sel[1:0] (R33, R34). -/
  xtalSel : BitVec 2 := 0
  /-- bm_addr[1:0] (R514). -/
  bmAddr : BitVec 2 := 0
  deriving DecidableEq, Repr

/-- A register write that has completed on its port and waits for the slow-clock edge that R15 gives: how it
reached the fabric, the address, the word, and what its command carries beside the word. -/
structure WaitWr where
  w : Wr
  addr : Nat
  word : Word
  ext : List Nat := []
  deriving DecidableEq, Repr

/-- A byte of the pin table or the calibration image that a data-port beat has written: the tick, by the slow clock's count, and what
it was before the first such beat of the tick (R213, R490). -/
structure FreshByte where
  tick : Nat
  addr : Nat
  was : BitVec 8
  deriving DecidableEq, Repr

/-- What the ports hold: the writes that wait for a slow-clock edge, oldest first (R15, R442), the copies of the
SC registers LC_STATUS, LC_SUPPLY, LC_PANEL, MUS_PORT0, MUS_PORT1, MUS_STATUS and CAL_TEMP_AO of the last slow-clock edge (R12, R449),
the response of the last register write or burst, beat by beat, and the bytes and NACK of the last board-management
transaction (R440, R487, R515). -/
structure OutSt where
  waiting : List WaitWr := []
  /-- The last slow-clock edge took a waiting write: one listed after that edge is of the next period (R15; log 79). -/
  took : Bool := false
  /-- The event registers as they stood just before the last slow-clock edge (R445). -/
  seen : Tab EventReg := []
  /-- Snapshots whose slow-clock edge has come and whose tick edge or bypass edge has not (R15, R36). -/
  captures : List WaitWr := []
  sc : List Word := [0, 0, 0, 0, 0, 0xFFF0, 0]
  resp : Resp := .okay
  beats : List Resp := []
  /-- The data that the last burst of reads returned, beat by beat (R486). -/
  rdata : List (BitVec 256) := []
  /-- Bytes that beats of the running tick have written, for an internal user of the same tick (R213, R490). -/
  fresh : List FreshByte := []
  i2c : List (BitVec 8) := []
  nack : Bool := false
  deriving DecidableEq, Repr

/-- The state of the fabric. -/
structure State where
  /-- The commands that wait, first in, first out. -/
  pending : List Instr := []
  /-- The build-time parameters; no command writes them (R24). -/
  build : Build := Build.reference
  straps : Straps := {}
  /-- The licensee's crossing hookups; no command writes them (R521). -/
  hook : Tab Hook := []
  /-- Last written values of the bell-class registers (R452). -/
  cfgW : Tab Word := []
  /-- Applied values of the bell-class registers (R452). -/
  cfgA : Tab Word := []
  /-- Values of the "now" registers that software writes; per-port instances under their own keys. -/
  nowR : Tab Word := []
  root : RootSt := {}
  time : TimeSt := {}
  /-- Snapshot sets by 4 × set + port (R447, R464). -/
  snaps : Tab Snap := []
  /-- Each port's latched FOLD_LOG0 to FOLD_LOG3 (R150, R464). -/
  logs : Tab LogEntry := []
  flocks : Tab Flock := []
  gens : Tab Gen := []
  regions : Tab Region := []
  xing : XingSt := {}
  fold : FoldSt := {}
  fcst : FcstSt := {}
  zones : BallastSt := {}
  /-- FLOCK_FO_TOTAL (R307). -/
  foTotal : Word := 0
  crook : CrookSt := {}
  tally : TallySt := {}
  cal : CalSt := {}
  mus : MusSt := {}
  shep : ShepSt := {}
  mbx : MbxSt := {}
  cfg : CfgSt := {}
  /-- The SQ event registers by block number (R444). -/
  events : Tab EventReg := []
  lc : LcSt := {}
  power : PowerSt := {}
  /-- The data-port window: forecast banks and headers, band table, pin table, calibration staging copy,
  firmware banks (R485). -/
  data : Mem := []
  /-- The retention RAM, 16 KiB (R497). -/
  ret : Mem := []
  /-- The Shepherd data memory, 64 KiB (R401). -/
  dmem : Mem := []
  /-- RCG_BMEAS_STAT.STATUS, BUSY, TAG, and the rows under measurement (R188). -/
  bmStatus : BitVec 2 := 0
  bmBusy : Bool := false
  bmTag : BitVec 8 := 0
  bmRows : List Nat := []
  /-- What the ports hold and what they answered last (R15, R440, R449, R487, R515). -/
  out : OutSt := {}
  /-- How many free values a run has met; the model's own field, not the spec's (log 8). -/
  freeCtr : Nat := 0
  deriving DecidableEq, Repr

/-- The fabric right after a cold reset: the island released, the counter at 0 in bypass, no crystal
qualified, the fabric domain held until MESH_READY, the core held (R76, R402, R493, R501). -/
def State.reset : State := {}

end Sys2Proof.Machine
end

