-- ==== Sys2Proof/Machine/Operands.lean ====
section
/-!
DEFINITION. The operand forms of the commands: fields of a register word (R8), words made of fields, the
register addresses of R463 to R475, and byte order (R9).
-/
namespace Sys2Proof.Machine
open Sys2Proof

/-- The field of `n` bits of `v` whose lowest bit is `lo` (R8). -/
def fld (v : Word) (lo n : Nat) : Nat := v.toNat / 2 ^ lo % 2 ^ n

/-- Bit `k` of `v`. -/
def bitAt (v : Word) (k : Nat) : Bool := v.toNat.testBit k

/-- A word made of fields, each (lowest bit, width, value); a value too wide for its field is cut. -/
def packWord (fs : List (Nat × Nat × Nat)) : Word :=
  BitVec.ofNat 32 (fs.foldl (fun a f => a + f.2.2 % 2 ^ f.2.1 * 2 ^ f.1) 0)

/-- A flag as a number. -/
def b2n (b : Bool) : Nat := if b then 1 else 0

/-- The value of an `n`-bit field read as signed. -/
def signedFld (v : Word) (lo n : Nat) : Int :=
  let u := fld v lo n
  if u < 2 ^ (n - 1) then (u : Int) else (u : Int) - (2 ^ n : Nat)

/-- A signed value as an `n`-bit field. -/
def intField (n : Nat) (i : Int) : Nat := (i % (2 ^ n : Nat)).toNat

/-- A count that stops at `m`. -/
def satAt (m v : Nat) : Nat := if v < m then v else m

/-- The ceiling of `a / b`. -/
def ceilDiv (a b : Nat) : Nat := (a + b - 1) / b

/-- A port's index, 0 control, 1 board management, 2 Shepherd core. -/
def portIx : Port → Nat
  | .host => 0
  | .bm => 1
  | .shep => 2

/-- The rank of R442: the lower number ranks higher. -/
def outranks (a b : Port) : Bool := portIx a < portIx b

/-- Key of a register that exists once per port (R464): the address within that port's instance. -/
def portKey (p : Port) (a : Nat) : Nat := a + portIx p * 0x1000000

/-- Key of RCG_CFG of region r among the bell-class registers. -/
def keyRcg (r : Nat) : Nat := 0x200000 + r

/-- Key of the ballast table entry of a level and class (R271). -/
def keyBtab (level cls : Nat) : Nat := 0x210000 + 16 * cls + level

/-- Address of the word at an offset of flock f's block (R475). -/
def flockAddr (f off : Nat) : Nat := 0x10000 + 64 * f + off

/-- FLOCK_SPARE_CFG of flock f. -/
def keySpareCfg (f : Nat) : Nat := flockAddr f 0x18

/-- FOLD_CLASSn and its kin: base plus 0x10 × n (R467, R468). -/
def clsAddr (base n : Nat) : Nat := base + 0x10 * n

/-- A little-endian number from the bytes of a memory window (R9). -/
def leNat (bs : List (BitVec 8)) : Nat := bs.foldr (fun b a => b.toNat + 256 * a) 0

/-- The `n` bytes of a number, least significant first (R9). -/
def leBytes (n v : Nat) : List (BitVec 8) := (List.range n).map (fun k => BitVec.ofNat 8 (v / 256 ^ k))

/-- Bytes as one word, little-endian. -/
def wordOfBytes (bs : List (BitVec 8)) : Word := BitVec.ofNat 32 (leNat bs)

/-- The bits of a number selected by a test, lowest `n`. -/
def bitsWhere (n : Nat) (p : Nat → Bool) : Nat :=
  (List.range n).foldl (fun a k => a + (if p k then 2 ^ k else 0)) 0

end Sys2Proof.Machine
end

