-- ==== Sys2Proof/Machine/Ops.lean ====
section
/-!
DEFINITION. The named operations over State: the sparse tables and byte memories, the event registers
(R444, R445), the two register files with their reset values and implemented bits, the checks that every
register write meets (R440, R442, R458, R459, R481, R512), snapshots (R447, R448), and access to the
records of flocks, generators, regions and crossings.
-/
namespace Sys2Proof.Machine
open Sys2Proof

/-! ### Sparse tables and byte memories -/

/-- The record of number k; an unlisted number reads as `d`. -/
def tabGet {α : Type} (t : Tab α) (k : Nat) (d : α) : α :=
  match t with
  | [] => d
  | (j, w) :: r => if j = k then w else tabGet r k d

/-- Inserts an entry at its place, in place of the one that stands there. -/
def tabInsert {α : Type} (t : Tab α) (k : Nat) (v : α) : Tab α :=
  match t with
  | [] => [(k, v)]
  | (j, w) :: r => if k < j then (k, v) :: (j, w) :: r else if k = j then (k, v) :: r else (j, w) :: tabInsert r k v

/-- Writes record k; a value equal to the default removes the entry, so the form stays canonical. -/
def tabSet {α : Type} [DecidableEq α] (t : Tab α) (k : Nat) (v d : α) : Tab α :=
  if v = d then t.filter (fun e => decide (e.1 ≠ k)) else tabInsert t k v

/-- The table that holds `f k` at each k below n, listing only what differs from the default. -/
def tabulate {α : Type} [DecidableEq α] (n : Nat) (d : α) (f : Nat → α) : Tab α :=
  (List.range n).filterMap (fun k => if f k = d then none else some (k, f k))

/-- The canonical form of a table: numbers strictly rising, no entry equal to its default. -/
def tabWf {α : Type} [DecidableEq α] (d : Nat → α) (t : Tab α) : Bool :=
  match t with
  | [] => true
  | (k, v) :: r => decide (v ≠ d k) && r.all (fun e => decide (k < e.1)) && tabWf d r

/-- One byte of a memory. -/
def memGet (m : Mem) (a : Nat) : BitVec 8 := tabGet m a 0

/-- Writes one byte. -/
def memSet (m : Mem) (a : Nat) (b : BitVec 8) : Mem := tabSet m a b 0

/-- `n` bytes from address a. -/
def memRead (m : Mem) (a n : Nat) : List (BitVec 8) := (List.range n).map (fun k => memGet m (a + k))

/-- Writes bytes from address a upward. -/
def memWrite (m : Mem) (a : Nat) (bs : List (BitVec 8)) : Mem :=
  match bs with
  | [] => m
  | b :: r => memWrite (memSet m a b) (a + 1) r

/-- Writes the bytes of a beat whose strobes are set: byte k of the beat to a + k (R9, R487). -/
def memStrobe (m : Mem) (a : Nat) (strb : Nat) (bs : List (BitVec 8)) : Mem :=
  match bs with
  | [] => m
  | b :: r => memStrobe (if strb % 2 = 1 then memSet m a b else m) (a + 1) (strb / 2) r

/-- Sets the `n` bytes from address a to 0. -/
def memClear (m : Mem) (a n : Nat) : Mem := m.filter (fun c => !(a ≤ c.1 && c.1 < a + n))

/-- The canonical form of a byte memory. -/
def memWf (m : Mem) : Bool := tabWf (fun _ => (0 : BitVec 8)) m

/-- A little-endian word of a memory (R9). -/
def memWord (m : Mem) (a : Nat) : Word := wordOfBytes (memRead m a 4)

/-- A little-endian number of n bytes of a memory (R9). -/
def memNat (m : Mem) (a n : Nat) : Nat := leNat (memRead m a n)

/-- The bytes of the windows that an internal user reads as they stood before the running tick, in that user's range: those that beats
of the tick have written (R213, R490). -/
def freshIn (s : State) (now a n : Nat) : List FreshByte :=
  s.out.fresh.filter (fun e => decide (e.tick = now) && decide (a ≤ e.addr) && decide (e.addr < a + n))

/-- A memory with some bytes as they were. -/
def restoreBytes (bs : List FreshByte) (m : Mem) : Mem := bs.foldl (fun m e => memSet m e.addr e.was) m

/-- Stores the bytes of a beat whose strobes are set, and keeps what they were before the tick's first beat on them (R490). -/
def storeFresh (now a strb : Nat) (bs : List (BitVec 8)) (s : State) : State :=
  let old := s.out.fresh.filter (fun e => e.tick = now)
  let new := ((List.range bs.length).filter (fun k => strb.testBit k && !old.any (fun e => e.addr = a + k))).map
    (fun k => ({ tick := now, addr := a + k, was := memGet s.data (a + k) } : FreshByte))
  { s with data := memStrobe s.data a strb bs, out := { s.out with fresh := old ++ new } }

/-! ### Event registers -/

/-- The number of a block with an event register, as CFG_IRQ_SUM orders them (R479). -/
def blockIx : Block → Nat
  | .cfg => 0
  | .bell => 1
  | .root => 2
  | .fold => 3
  | .rcg => 4
  | .xing => 5
  | .fcst => 6
  | .zone => 7
  | .flock => 8
  | .tally => 9
  | .cal => 10
  | .mus => 11
  | .shep => 12
  | .mbx => 13
  | .lc => 14

/-- The event register of a block. -/
def eventOf (s : State) (b : Block) : EventReg := tabGet s.events (blockIx b) {}

/-- Raises an event bit: SEQ rises by 1, modulo 256, when the bit goes from 0 to 1 (R444). -/
def raise (b : Block) (k : Nat) (s : State) : State :=
  let e := eventOf s b
  let e' : EventReg :=
    if e.bits.getLsbD k then e else { e with bits := e.bits ||| BitVec.ofNat 24 (2 ^ k), seq := e.seq + 1 }
  { s with events := tabSet s.events (blockIx b) e' {} }

/-- Raises an event and names its unit in the companion register, recurrences included (R444). -/
def raiseAbout (b : Block) (k about : Nat) (s : State) : State :=
  let s := raise b k s
  let e := eventOf s b
  { s with events := tabSet s.events (blockIx b) { e with about := about } {} }

/-- Raises an event where a condition holds. -/
def raiseIf (c : Bool) (b : Block) (k : Nat) (s : State) : State := if c then raise b k s else s

/-- The event bits of a block set in t and not in s. -/
def newBits (b : Block) (s t : State) : BitVec 24 := (eventOf t b).bits &&& ~~~(eventOf s b).bits

/-- The opposite of raise: an event bit that is set is cleared, and SEQ goes back by 1. -/
def lower (b : Block) (k : Nat) (s : State) : State :=
  let e := eventOf s b
  let e' : EventReg :=
    if e.bits.getLsbD k then { e with bits := e.bits &&& ~~~(BitVec.ofNat 24 (2 ^ k)), seq := e.seq - 1 } else e
  { s with events := tabSet s.events (blockIx b) e' {} }

/-- Events that a happening raised, of the bits ks that it may raise, are as if not raised where the manual sets the
happening aside (R48, R290, R291). -/
def unraise (b : Block) (ks : List Nat) (raised : BitVec 24) (s : State) : State :=
  ks.foldl (fun t k => if raised.getLsbD k then lower b k t else t) s

/-- The blocks in the order of CFG_IRQ_SUM (R479). -/
def allBlocks : List Block :=
  [.cfg, .bell, .root, .fold, .rcg, .xing, .fcst, .zone, .flock, .tally, .cal, .mus, .shep, .mbx, .lc]

/-- The address of a block's event register. -/
def eventAddr : Block → Nat
  | .cfg => 0x20
  | .bell => 0x1020
  | .root => 0x2014
  | .fold => 0x3018
  | .rcg => 0x4054
  | .xing => 0x5024
  | .fcst => 0x6024
  | .zone => 0x7018
  | .flock => 0x8000
  | .tally => 0x9008
  | .cal => 0xA01C
  | .mus => 0xB040
  | .shep => 0xC03C
  | .mbx => 0xD300
  | .lc => 0xF010

/-- The block whose event register stands at an address. -/
def eventBlock (a : Nat) : Option Block := allBlocks.find? (fun b => eventAddr b = a)

/-- A block's event register as it stood just before the last slow-clock edge (R445). -/
def seenOf (s : State) (b : Block) : EventReg := tabGet s.out.seen (blockIx b) {}

/-- A clear of R445: a write whose bits 31:24 equal SEQ as it stood just before the slow-clock edge removes exactly the event
bits that were set then; an event of the edge or later stays, and SEQ too. -/
def clearEvents (b : Block) (v : Word) (s : State) : State :=
  let e := eventOf s b
  let was := seenOf s b
  if fld v 24 8 = was.seq.toNat then { s with events := tabSet s.events (blockIx b) { e with bits := e.bits &&& ~~~was.bits } {} } else s

/-- A clear listed at a slow-clock edge that does not carry SEQ as it stood just before that edge was written after a later read:
it is of the next period, and waits (R12, R15, R445; log 79). -/
def clearWaits (s : State) (a : Nat) (v : Word) : Bool :=
  match eventBlock a with
  | some b => decide (fld v 24 8 ≠ (seenOf s b).seq.toNat)
  | none => false

/-- A debounce is over: 65,536 slow-clock periods have passed since the input's last debounced change, or since the cold
reset (R371, R523, R531; log 110). -/
def debounced (s : State) (since : Nat) : Bool := decide (since + 65536 ≤ s.time.slowEdges)

/-- Ticks of time that the slow clock has counted since reset: 40 per period (R35, R62). -/
def elapsed (s : State) : Nat := 40 * s.time.slowEdges + s.time.slow

/-- The core runs, and is not hung, so firmware performs its duties (R19, R374, R543). -/
def coreRuns (s : State) : Bool := s.shep.state = .running && !s.shep.hung

/-- A duty that the core, running, has left undone shows it hung (R543). -/
def hangUnless (done : Bool) (s : State) : State :=
  if !done && s.shep.state = .running then { s with shep := { s.shep with hung := true } } else s

/-- A value held between bounds. -/
def clampRat (lo hi x : Rat) : Rat := max lo (min hi x)

/-- The same selections, where one that a list does not hold is the factory's 0 (R356, R362). -/
def sameBytes (a b : List (BitVec 8)) : Bool := (List.range (max a.length b.length)).all (fun k => decide (a.getD k 0 = b.getD k 0))

/-- The same n selections in two tables. -/
def sameTab (n : Nat) (a b : Tab (BitVec 8)) : Bool := (List.range n).all (fun k => decide (tabGet a k 0 = tabGet b k 0))

/-- A value in force has changed (R356, R362). -/
def valuesChanged (s : State) : State := { s with cal := { s.cal with factory := false, calTick := s.time.counter } }

/-! ### The register files -/

/-- The class of a region after reset: fabric-wide, 0 for logic regions, 2 for tier regions (R184). -/
def resetClass (b : Build) (r : Nat) : Nat := if r < b.logic then 0 else 2

/-- The bell-class registers (R454): implemented bits and reset value, none where the build has none. -/
def bellReg (b : Build) (a : Nat) : Option (Word × Word) :=
  if a = 0x3000 then some (0xFF7FF7FF, 0x10004040)
  else if 0x3100 ≤ a && a < 0x3100 + 0x10 * b.classes && a % 0x10 = 0 then
    some (0x1FFFFFFF, if a = 0x3100 then packWord [(0, 16, 2948), (16, 12, 3000)] else packWord [(0, 16, 1474), (16, 12, 1500)])
  else if 0x3100 ≤ a && a < 0x3100 + 0x10 * b.classes && a % 0x10 = 0xC then some (0xFFFFFFFF, packWord [(0, 8, 29), (8, 8, 4)])
  else if a = 0x4040 then some (0xFFFFFFFF, 0x22222222)
  else if a = 0x4044 then some (0xFFFFFFFF, 0x66666666)
  else if a = 0x4048 then some (0xFFFFFFFF, 0x99999999)
  else if 0x4100 ≤ a && a < 0x4100 + 0x10 * b.classes && a % 0x10 = 0 then some (0x00017F3F, packWord [(0, 6, 24), (8, 7, 24)])
  else if 0x4100 ≤ a && a < 0x4100 + 0x10 * b.classes && a % 0x10 = 4 then some (0xFFFFFFFF, 0x12468888)
  else if 0x4100 ≤ a && a < 0x4100 + 0x10 * b.classes && a % 0x10 = 8 then some (0xFFFFFFFF, 0x11111111)
  else if 0x6100 ≤ a && a < 0x6100 + 4 * b.classes && a % 4 = 0 then
    some (0x0001FFFF, if a = 0x6100 then 2887 else 1443)
  else if a = 0x7000 then some (0x03FFFFFF, packWord [(0, 8, 115), (8, 8, 90), (16, 8, 16), (24, 1, 1), (25, 1, 1)])
  else if 0x7100 ≤ a && a < 0x7100 + 4 * b.zones && a % 4 = 0 then some (0x0FFF0FFF, 0)
  else if 0x7140 ≤ a && a < 0x7140 + 8 * b.classes && a % 8 = 0 then
    some (0xFFFFFFFF, if a = 0x7140 then packWord [(0, 16, 300), (16, 16, 100)] else packWord [(0, 16, 200), (16, 16, 80)])
  else if a = 0xA000 then some (0x010FFFFF, packWord [(0, 1, 1), (1, 7, 16), (8, 12, 256)])
  else if 0x210000 ≤ a && a < 0x210000 + 16 * b.classes && a % 16 ≠ 0 then
    some (0x000007FF, BitVec.ofNat 32 (1024 - 20 * (a % 16)))
  else if 0x200000 ≤ a && a < 0x200000 + b.regions then
    some (0x0000FFF3, packWord [(0, 2, resetClass b (a - 0x200000)), (8, 8, 255)])
  else if 0x10000 ≤ a && a < 0x10000 + 64 * b.flocks && a % 64 = 0x18 then
    some (0x0000000F, if 16 * ((a - 0x10000) / 64) < b.logic then 0 else 0xA)
  else none

/-- The reset value of a bell-class register; 0 where there is none. -/
def bellReset (b : Build) (a : Nat) : Word :=
  match bellReg b a with
  | some (_, d) => d
  | none => 0

/-- The reset value of REF_MODE by the sampled strap: the mode with a 50 MHz detector; 11 is treated as 00
(R34, R40, R68). -/
def refModeReset (x : Nat) : Nat := if x = 1 then 1 else if x = 2 then 2 else 0

/-- The "now" registers that software writes: implemented bits and reset value (R12, R13).  A register
with one instance per port carries its port's key (R464). -/
def nowReg (b : Build) (x : Nat) (k : Nat) : Option (Word × Word) :=
  let a := k % 0x1000000
  if a = 0x1C || a = 0x1010 || a = 0x1014 || a = 0x3008 || a = 0x300C || a = 0x6008 || a = 0xB004 || a = 0xB030 || a = 0xB034 then
    some (0xFFFFFFFF, 0)
  else if a = 0x24 then some (0x1FF, 0)
  else if a = 0x1000 || a = 0x1018 || a = 0x3010 || a = 0x3028 || a = 0x602C || a = 0x7024 || a = 0xB038 then some (0xFF, 0)
  else if a = 0x1024 then some (0x3F, 0)
  else if a = 0x2000 then some (0x7, 2)
  else if a = 0x2004 || a = 0x2008 then
    some (0x1FFF03, packWord [(0, 2, refModeReset x), (8, 8, 100), (16, 5, 20)])
  else if a = 0x200C then some (0x3FF, 0)
  else if a = 0x2018 then some (0x7FF, 0)
  else if a = 0x201C then some (0x1F, 0)
  else if a = 0x2024 then some (0xFF3F, 0)
  else if a = 0x202C then some (0x3, 0)
  else if a = 0x2034 then some (0xFFF, 0)
  else if a = 0x3004 then some (0xF3F, packWord [(0, 6, 8), (8, 4, 2)])
  else if a = 0x301C then some (0x1FFF, 0)
  else if a = 0x3020 then some (0xFF011FFF, 0)
  else if a = 0x3050 then some (0xF, 0)
  else if a = 0x4000 then some (0xFF001FFF, 0)
  else if a = 0x404C then some (0xFF011FFF, 0)
  else if a = 0x4058 then some (0x1FF, 0)
  else if a = 0x5000 then some (0xFF007FFF, 0)
  else if a = 0x501C then some (0x3F, 10)
  else if a = 0x5028 then some (0x3FF, 0)
  else if a = 0x5030 then some (0x1, 0)
  else if a = 0x6000 then some (0x1, 0)
  else if a = 0x6004 then some (0xFF17, 0)
  else if a = 0x6028 then some (0x7FF, 0)
  else if a = 0x7004 then some (0x3F, 1)
  else if a = 0x701C then some (0x7F, 0)
  else if a = 0x8004 then some (0x1FFF, 0)
  else if a = 0x9000 then some (0xFF000103, 0)
  else if a = 0x900C then some (0xFF, 0)
  else if 0x9100 ≤ a && a < 0x9500 && a % 0x100 = 0 then some (0x0FFFFFFF, 12)
  else if 0x9100 ≤ a && a < 0x9500 && (a % 0x100 = 4 || a % 0x100 = 8) then some (0xFFFFFFFF, 0)
  else if 0x9100 ≤ a && a < 0x9500 && 0xC ≤ a % 0x100 && a % 0x100 ≤ 0x2C && a % 4 = 0 then some (0x3F7FFFFF, 0x01000000)
  else if 0x9100 ≤ a && a < 0x9500 && a % 0x100 = 0x30 then some (0xFF03, 0)
  else if a = 0xA004 then some (0xFF01FF07, 0)
  else if a = 0xA020 then some (0x1FF, 0)
  else if a = 0xB000 then some (0x1FFFFFFF, packWord [(1, 1, 1), (2, 1, 1), (3, 2, 3), (25, 4, 4)])
  else if a = 0xB010 || a = 0xB018 then some (0xFFFF, 0)
  else if a = 0xB044 then some (0xFFF, 0)
  else if a = 0xC008 then some (0x7F, packWord [(1, 4, 10), (5, 1, 1), (6, 1, 1)])
  else if a = 0xC024 then some (0xFF17, 0)
  else if a = 0xC040 then some (0x1FFF, 0)
  else if a = 0xD304 then some (0x7F, 0)
  else if a = 0xE004 then some (0xFF07FFFF, 0)
  else if a = 0xF004 then some (0xFF3F, 0)
  else if a = 0xF014 then some (0x7F, 0)
  else if 0x10000 ≤ a && a < 0x10000 + 64 * b.flocks && a % 64 = 0xC then some (0x7, 0)
  else if 0x10000 ≤ a && a < 0x10000 + 64 * b.flocks && a % 64 = 0x2C then some (0xFF00031F, 0)
  else none

/-- The reset value of a "now" register. -/
def nowReset (s : State) (k : Nat) : Word :=
  match nowReg s.build s.root.xtalSel.toNat k with
  | some (_, d) => d
  | none => 0

/-- A "now" register as software last wrote it. -/
def nowGet (s : State) (k : Nat) : Word := tabGet s.nowR k (nowReset s k)

/-- Writes a "now" register: implemented bits only (reserved bits read 0 and ignore writes). -/
def nowPut (k : Nat) (v : Word) (s : State) : State :=
  match nowReg s.build s.root.xtalSel.toNat k with
  | some (m, d) => { s with nowR := tabSet s.nowR k (v &&& m) d }
  | none => s

/-- A bell-class register's last written value (R452). -/
def bellW (s : State) (k : Nat) : Word := tabGet s.cfgW k (bellReset s.build k)

/-- A bell-class register's applied value (R452). -/
def bellA (s : State) (k : Nat) : Word := tabGet s.cfgA k (bellReset s.build k)

/-- Writes take effect before the first bell, until 64 ticks before a pending one (R450). -/
def appliesEarly (s : State) : Bool :=
  !s.fold.started && !(s.fold.pending && decide (s.fold.firstTick ≤ s.time.counter + 64))

/-- A write of a bell-class field: buffered until its bell, only the last one applied, and noted as a write of the
running tick, which a bell of that tick does not apply (R13, R14, R451).  Writing the applied value back replaces a pending
change, and its bell applies nothing new (R452). -/
def bellPut (k : Nat) (v : Word) (s : State) : State :=
  match bellReg s.build k with
  | none => s
  | some (m, d) =>
    let w := v &&& m
    let s := if s.cfg.restoring then { s with cfg := { s.cfg with portWrote := k :: s.cfg.portWrote } } else s
    let old : FreshWr := { key := k, tick := elapsed s, was := bellW s k, wasPend := s.cfg.pend.contains k,
                           wasByPort := s.cfg.byPort.contains k }
    let now := s.cfg.fresh.filter (fun e => e.tick = elapsed s)
    let s := { s with cfg := { s.cfg with fresh := if now.any (fun e => e.key = k) then now else now ++ [old] } }
    let rest := s.cfg.pend.filter (· ≠ k)
    let restBy := s.cfg.byPort.filter (· ≠ k)
    let restLate := s.cfg.late.filter (· ≠ k)
    { s with cfgW := tabSet s.cfgW k w d,
             cfg := { s.cfg with pend := rest ++ [k], byPort := restBy ++ [k],
                                 late := if s.fold.started || appliesEarly s then restLate else restLate ++ [k] } }

/-! ### What every register write meets -/

/-- The blocks of the always-on island, which answer while the fabric domain is in reset (R512). -/
def islandAddr (a : Nat) : Bool := (0x1000 ≤ a && a < 0x3000) || (0xB000 ≤ a && a < 0xC000) || (0xF000 ≤ a && a < 0x10000)

/-- What a port sees of an address: all of it, or only the island's blocks (R512); nothing while the island is
in power-on reset (R492). -/
def reachable (s : State) (a : Nat) : Bool := !s.lc.por && (s.power.fabUp || islandAddr a)

/-- The owner code of a port in TALLY_OWN (R331). -/
def ownerOf : Port → Owner
  | .host => .host
  | .bm => .bm
  | .shep => .fw

/-- Tally unit u. -/
def tallyUnit (s : State) (u : Nat) : TallyUnit :=
  if u = 0 then s.tally.u0 else if u = 1 then s.tally.u1 else if u = 2 then s.tally.u2 else s.tally.u3

/-- What the board-management port may write (R459); whether it owns the Tally unit is decided at the write (R327). -/
def bmMayWrite (a : Nat) : Bool :=
  a = 0x1000 || a = 0x3028 || a = 0x3050 || a = 0x4000 || a = 0x5000 || a = 0x602C || a = 0x7024 ||
  a = 0x201C || a = 0x7004 || a = 0x10 || (0xD100 ≤ a && a < 0xD300) || a = 0xE000 || a = 0xE004 || a = 0x9000 ||
  (0x9100 ≤ a && a < 0x9500) || (0x9800 ≤ a && a < 0xA000)

/-- The vendor diagnostic range is open in MANUFACTURE and RETURN only (R458). -/
def vendorClosed (s : State) (a : Nat) : Bool := 0x80000 ≤ a && (s.lc.access = 1 || s.lc.access = 2)

/-- A write that R458, R459 or R481 denies. -/
def writeDenied (s : State) (p : Port) (a : Nat) : Bool :=
  vendorClosed s a || (p = .bm && !bmMayWrite a) || (p = .shep && a = 0xF004)

/-- Records a denied access: ACCESS_DENY and DENY_PORT, SLVERR on the control port (R458, R461). -/
def deny (p : Port) (s : State) : State :=
  let s := raise .cfg 8 s
  { s with cfg := { s.cfg with denyPort := BitVec.ofNat 2 (portIx p + 1) },
           out := { s.out with resp := if p = .host then .slverr else .okay } }

/-- The write loses a collision: the highest-ranked other writer of the period outranks it (R442). -/
def loses (w : Wr) : Bool :=
  match w.rival with
  | some q => outranks q w.port
  | none => false

/-- The register exists once per port, so its writes never collide (R442, R464). -/
def perPort (a : Nat) : Bool :=
  a = 0x1000 || a = 0x3028 || a = 0x3050 || a = 0x4000 || a = 0x5000 || a = 0x602C || a = 0x7024 || a = 0x201C || a = 0x7004

/-- The registers that decide their own collisions: the crook registers (R297), mailbox 2 (R418) and
TALLY_CLAIM (R328). -/
def ownRule (a : Nat) : Bool := a = 0xE000 || a = 0xE004 || (0xD200 ≤ a && a < 0xD300) || a = 0x9000

/-- Writes of the register by two ports in one slow-clock period are ranked by R442. -/
def ranked (a : Nat) : Bool := !perPort a && !ownRule a && a ≠ 0x10

/-- The registers that perform a command when a new TAG is written (R442); a snapshot's request is not among them, since
a later one abandons it (R448), nor is TALLY_CMDu, whose ARM and ABORT of one period are both performed (R330). -/
def tagReg (a : Nat) : Bool :=
  a = 0x1018 || a = 0x200C || a = 0x2024 || a = 0x3010 || a = 0x3020 || a = 0x404C || a = 0x6004 || a = 0x9000 ||
  a = 0xA004 || a = 0xB038 || a = 0xC024 || a = 0xE004 || a = 0xF004 || (0x10000 ≤ a && a < 0x15000 && a % 64 = 0x2C)

/-- The bell-class registers, whose writes are buffered for a bell at once; the others are "now" and wait for the
slow-clock edge (R13, R15). -/
def bellClass (s : State) (a : Nat) : Bool := (bellReg s.build a).isSome || a = 0x400C || a = 0x7008

/-- A slow-clock edge has just come (R35, R62). -/
def slowNow (s : State) : Bool := decide (s.time.slow = 0) && decide (0 < s.time.slowEdges) && !s.time.held

/-- A slow-clock edge has just come that took no waiting write, and none waits on: a "now" write listed here is one of the period
that ended, taken at this edge (R15; log 79). -/
def atSlowEdge (s : State) : Bool := slowNow s && s.out.waiting.isEmpty && !s.out.took

/-- Edges reach the counter and the flocks: from the crystal's qualification on (R36). -/
def edgesRun (s : State) : Bool := s.root.refOk || !s.root.bypass

/-- A port's snapshot set: 0 Bellwether, 1 fold, 2 region, 3 crossing, 4 forecast, 5 zone (R447). -/
def snapKey (set : Nat) (p : Port) : Nat := 4 * set + portIx p

/-- The port's snapshot of a set. -/
def snapOf (s : State) (set : Nat) (p : Port) : Snap := tabGet s.snaps (snapKey set p) {}

/-- A completed capture: its words, its index and its TAG, VALID set (R97, R448). -/
def snapPut (set : Nat) (p : Port) (n : Snap) (s : State) : State :=
  { s with snaps := tabSet s.snaps (snapKey set p) n {} }

/-- The snapshot set that a request register serves, and the lowest bit of its TAG (R447). -/
def snapSet (a : Nat) : Option (Nat × Nat) :=
  if a = 0x1000 then some (0, 0) else if a = 0x3028 then some (1, 0) else if a = 0x4000 then some (2, 24)
  else if a = 0x5000 then some (3, 24) else if a = 0x602C then some (4, 0) else if a = 0x7024 then some (5, 0) else none

/-- A write that is taken at a tick edge or bypass edge: a snapshot, or a load of the counter (R15, R77). -/
def edgeBound (a : Nat) : Bool := (snapSet a).isSome || a = 0x1018

/-- A request with a new TAG clears VALID of the port's set until its capture (R97, R448). -/
def snapAsked (e : WaitWr) (s : State) : State :=
  match snapSet e.addr with
  | some (set, lo) =>
    let n := snapOf s set e.w.port
    if fld e.word lo 8 = n.tag.toNat then s else snapPut set e.w.port { n with valid := false } s
  | none => s

/-- A write joins those that wait for the next slow-clock edge (R15). -/
def await (e : WaitWr) (s : State) : State :=
  snapAsked e { s with out := { s.out with waiting := s.out.waiting ++ [e] } }

/-- A write whose outcome waits for what another port's write of the period asks: claims are evaluated together, and
CFG_CTRL's bits are merged (R328, R443). -/
def metBy (w : Wr) (a : Nat) : Bool := w.rival.isSome && (a = 0x9000 || a = 0x10)

/-- A TAG register still has an earlier write of the same port to perform, which withholds this one (R442). -/
def withheld (before : List WaitWr) (e : WaitWr) : Bool :=
  tagReg e.addr && before.any (fun d => decide (d.addr = e.addr) && decide (d.w.port = e.w.port))

/-- A register whose operation runs: a write of it is withheld until that is done (R73, R291, R442, R506). -/
def regBusy (s : State) (a : Nat) : Bool :=
  (a = 0x2024 && s.root.meas.isSome) || (a = 0xF004 && s.lc.job.isSome) || (a = 0xE004 && s.crook.held.isSome)

/-- The ports with a withheld write in the register that withholds it; LC_CTRL is the control port's alone (R442, R458). -/
def stalledPorts (s : State) : List Port := s.root.heldMeas.map Prod.fst ++ (if s.lc.held.isEmpty then [] else [.host])

/-- The waiting writes, each with whether it stalls: it is withheld, or a crook command while one is held to the next tick edge, or
an earlier one of its port is, since a port's writes complete in order (R291, R442, R511). -/
def markStalled (busy : Nat → Bool) (held : List Port) (before : List WaitWr) : List WaitWr → List (WaitWr × Bool)
  | [] => []
  | e :: r =>
    let off := held.contains e.w.port || withheld before e || (e.addr = 0xE004 && busy e.addr)
    (e, off) :: markStalled busy (if off || busy e.addr then e.w.port :: held else held) (before ++ [e]) r

/-- The waiting writes of the state, so marked. -/
def waitMarks (s : State) : List (WaitWr × Bool) := markStalled (regBusy s) (stalledPorts s) [] s.out.waiting

/-- A further write of port p stalls behind a withheld one (R442, R511). -/
def portStalls (s : State) (p : Port) : Bool :=
  (stalledPorts s).contains p || (waitMarks s).any (fun m => decide (m.1.w.port = p) && (m.2 || regBusy s m.1.addr))

/-- The write takes effect where its command is listed: a bell-class write is buffered at once, a "now" write is
taken at the slow-clock edge, where a snapshot needs a tick or bypass edge too, unless it stalls (R13, R15, R442). -/
def takenNow (s : State) (w : Wr) (a : Nat) : Bool :=
  !portStalls s w.port &&
  (bellClass s a || (atSlowEdge s && !metBy w a && !(a = 0xE004 && s.crook.held.isSome) && (!edgeBound a || edgesRun s)))

/-- What a write that may clear an event register performs where its command is listed: its effect, or it waits (R12, R445). -/
def unlessClearWaits (w : Wr) (a : Nat) (v : Word) (ext : List Nat) (eff : State → State) (s : State) : State :=
  if clearWaits s a v then await ⟨w, a, v, ext⟩ s else eff s

/-- The key of a waiting write's register (R464). -/
def waitKey (e : WaitWr) : Nat := if perPort e.addr then portKey e.w.port e.addr else e.addr

/-- The words written to a "now" register that have not taken effect, oldest first: those withheld while its operation runs, those
whose slow-clock edge has come but not their tick edge, and those that wait for a slow-clock edge (R12, R15, R442). -/
def unperformed (s : State) (k : Nat) : List Word :=
  (if k = 0x2024 then s.root.heldMeas.map Prod.snd else []) ++ (if k = 0xF004 then s.lc.held else []) ++
  ((s.out.captures ++ s.out.waiting).filter (fun e => waitKey e = k)).map WaitWr.word

/-- A "now" register as software last wrote it, whether or not that write has taken effect (R12). -/
def lastWritten (s : State) (k : Nat) (m live : Word) : Word :=
  match (unperformed s k).getLast? with
  | some v => v &&& m
  | none => live

/-- What a read of a "now" register that software writes returns (R12). -/
def nowSeen (s : State) (k : Nat) : Word :=
  match nowReg s.build s.root.xtalSel.toNat k with
  | some (m, _) => lastWritten s k m (nowGet s k)
  | none => nowGet s k

/-- The region that a port's RCG_SEL names, by the last write of it, whether or not that has taken effect (R12, R442, R453). -/
def selRegion (s : State) (p : Port) : Nat := fld (nowSeen s (portKey p 0x4000)) 0 13

/-- The rival writes the same register: at RCG_CFG it does only where both ports name one region (R453). -/
def oneRegister (s : State) (w : Wr) (a : Nat) : Bool :=
  a ≠ 0x400C || match w.rival with
    | some q => selRegion s q = selRegion s w.port
    | none => false

/-- One register write: ignored while the fabric domain is in reset (R512), waiting behind a withheld one of its port, which
completes first (R442, R511), PARTIAL where a strobe is missing (R440), denied under R458, R459 and R481, lost to a
higher-ranked port (R442: BM_LOST for board management, a retry at the next slow-clock edge for firmware), and otherwise
performed: a bell-class write at once, any other at the slow-clock edge (R15).  `ext` is what the command carries beside the word; log 5 gives the order of the
checks. -/
def regWrite (w : Wr) (a : Nat) (v : Word) (ext : List Nat) (eff : State → State) (s : State) : State :=
  let s := { s with out := { s.out with resp := .okay } }
  if !reachable s a then s
  else if portStalls s w.port then await ⟨w, a, v, ext⟩ s
  else if w.strb ≠ 15 then raise .cfg 5 s
  else if writeDenied s w.port a then deny w.port s
  else if loses w && ranked a && oneRegister s w a then
    (match w.port with
     | .bm => raise .cfg 6 s
     | .shep => await ⟨⟨.shep, 15, none⟩, a, v, ext⟩ s
     | .host => s)
  else if takenNow s w a then eff s
  else await ⟨w, a, v, ext⟩ s

/-- Two waiting writes are of one register: RCG_CFG's are where both reach one region (R453). -/
def sameRegister (d e : WaitWr) : Bool := decide (d.addr = e.addr) && (e.addr ≠ 0x400C || d.ext = e.ext)

/-- A waiting write that another port's write of the same period outranks (R442). -/
def outranked (q : List WaitWr) (e : WaitWr) : Bool :=
  ranked e.addr && q.any (fun d => sameRegister d e && outranks d.w.port e.w.port)

/-- The writes that meet at a slow-clock edge: those performed, those that wait on (firmware's that lost, and its later ones),
and whether one of board management's is dropped (R442). -/
def sortWaiting (q : List WaitWr) (lost : Bool) : List WaitWr → List WaitWr × List WaitWr × Bool
  | [] => ([], [], false)
  | e :: r =>
    let again : Bool := e.w.port = .shep && (lost || outranked q e)
    let (p, k, b) := sortWaiting q (lost || again) r
    if again then (p, e :: k, b)
    else if outranked q e then (p, k, b || e.w.port = .bm)
    else (e :: p, k, b)

/-- The waiting writes with port p's withheld ones, those of a register whose operation runs among them, and what stalls behind
them, dropped (R442, R512, R531). -/
def dropWithheld (s : State) (p : Port) : List WaitWr :=
  ((waitMarks s).filter (fun m => !((m.2 || regBusy s m.1.addr) && decide (m.1.w.port = p)))).map Prod.fst

/-- Registers whose writes in one period meet under a rule of their own: the crook registers as one, mailbox 2 as one
(R297, R418). -/
def meets (a b : Nat) : Bool :=
  a = b || ((a = 0xE000 || a = 0xE004) && (b = 0xE000 || b = 0xE004)) ||
  (0xD200 ≤ a && a < 0xD300 && 0xD200 ≤ b && b < 0xD300)

/-- A waiting write with the highest-ranked other port whose write it meets. -/
def withRival (q : List WaitWr) (e : WaitWr) : WaitWr :=
  { e with w := { e.w with rival := [Port.host, .bm, .shep].find? (fun p =>
      p ≠ e.w.port && q.any (fun d => meets d.addr e.addr && decide (d.w.port = p))) } }

/-- A waiting write is an ABORT of a Tally unit (R335). -/
def isAbort (e : WaitWr) : Bool := 0x9100 ≤ e.addr && e.addr < 0x9500 && e.addr % 0x100 = 0x30 && fld e.word 0 2 = 2

/-- A board-management command on the crook path (R297). -/
def isBmCrook (e : WaitWr) : Bool := decide (e.addr = 0xE004) && decide (e.w.port = .bm)

/-- The order of the writes of one edge: as they completed, but board management's crook command after the host's, a Tally ABORT
after an ARM of the same period, and those of CFG_CTRL last and by rising rank, so that a bit selected by two ports takes the
higher-ranked one's value (R297, R330, R442, R443). -/
def edgeOrder (p : List WaitWr) : List WaitWr :=
  let of := fun (q : Port) => p.filter (fun e => decide (e.addr = 0x10) && decide (e.w.port = q))
  p.filter (fun e => decide (e.addr ≠ 0x10) && !isAbort e && !isBmCrook e) ++ p.filter isBmCrook ++ p.filter isAbort ++
  of .shep ++ of .bm ++ of .host

/-- A write of a word of flock f's block; where the build has no such flock the address holds no register, and
the write is ignored (R440, R475). -/
def whereFlock (f : Nat) (eff : State → State) (s : State) : State := if f < s.build.flocks then eff s else s

/-- The address of the word at an offset of unit u's block (R473). -/
def tallyAddr (u off : Nat) : Nat := 0x9100 + 0x100 * u + off

/-- TALLY_ATu (R333). -/
def tAt (s : State) (u : Nat) : Nat := (nowGet s (tallyAddr u 4)).toNat + 2 ^ 32 * (nowGet s (tallyAddr u 8)).toNat

/-- A measurement is armed or running. -/
def tallyBusy (x : TallyUnit) : Bool := x.state = .waiting || x.state = .calibrating || x.state = .measuring

/-- A result word (R321). -/
def resultWord (flag time : Nat) : Word := packWord [(0, 28, time), (28, 4, flag)]

/-- PPS_EN, HOST_ID and ROOT_ID of MUS_CFG as sampled at the last round start; the host with ROOT_ID is the root of its tree (R372,
R392). -/
def ppsEn (s : State) : Bool := bitAt s.mus.cfg 0
def hostId (s : State) : Nat := fld s.mus.cfg 5 10
def rootId (s : State) : Nat := fld s.mus.cfg 15 10
def isRoot (s : State) : Bool := hostId s = rootId s

/-! ### Records -/

/-- Flock f. -/
def flockOf (s : State) (f : Nat) : Flock := tabGet s.flocks f {}

/-- Writes flock f. -/
def setFlock (f : Nat) (x : Flock) (s : State) : State := { s with flocks := tabSet s.flocks f x {} }

/-- Generator row g, numbered as R153 numbers them: r for the own generator of region r, 5,120 + 2 × f + s
for spare s of flock f. -/
def genOf (s : State) (g : Nat) : Gen := tabGet s.gens g {}

/-- Writes generator row g. -/
def setGen (g : Nat) (x : Gen) (s : State) : State := { s with gens := tabSet s.gens g x {} }

/-- Region r. -/
def regionOf (s : State) (r : Nat) : Region := tabGet s.regions r {}

/-- Writes region r. -/
def setRegion (r : Nat) (x : Region) (s : State) : State := { s with regions := tabSet s.regions r x {} }

/-- Every region's record by a function of the old one. -/
def mapRegions (f : Nat → Region → Region) (s : State) : State :=
  { s with regions := tabulate s.build.regions {} (fun r => f r (regionOf s r)) }

/-- The generator row of spare j of flock f (R153). -/
def spareRow (_b : Build) (f j : Nat) : Nat := 5120 + 2 * f + j

/-- The generator rows of the build, ascending (R153). -/
def allGens (b : Build) : List Nat :=
  List.range b.regions ++ (List.range b.flocks).flatMap (fun f => (List.range b.spares).map (fun j => spareRow b f j))

/-- Every generator's record by a function of the old one. -/
def mapGens (f : Nat → Gen → Gen) (s : State) : State :=
  { s with gens := (allGens s.build).filterMap (fun g => if f g (genOf s g) = {} then none else some (g, f g (genOf s g))) }

/-- Every flock's record by a function of the old one. -/
def mapFlocks (f : Nat → Flock → Flock) (s : State) : State :=
  { s with flocks := tabulate s.build.flocks {} (fun g => f g (flockOf s g)) }

/-- Crossing x. -/
def xingOf (s : State) (x : Nat) : Xing := tabGet s.xing.tab x {}

/-- Writes crossing x. -/
def setXing (x : Nat) (v : Xing) (s : State) : State := { s with xing := { s.xing with tab := tabSet s.xing.tab x v {} } }

/-- The licensee's hookup of crossing x. -/
def hookOf (s : State) (x : Nat) : Hook := tabGet s.hook x {}

/-- Crossings whose record is not the default one. -/
def listedXings (s : State) : List Nat := s.xing.tab.map Prod.fst

/-- Every listed crossing's record by a function of the old one. -/
def mapXings (f : Nat → Xing → Xing) (s : State) : State :=
  { s with xing := { s.xing with tab := s.xing.tab.filterMap (fun e => if f e.1 e.2 = {} then none else some (e.1, f e.1 e.2)) } }

/-- What the fold sequence keeps of class n. -/
def classOf (s : State) (n : Nat) : ClassSt := tabGet s.fold.classes n {}

/-- Writes class n. -/
def setClass (n : Nat) (c : ClassSt) (s : State) : State := { s with fold := { s.fold with classes := tabSet s.fold.classes n c {} } }

/-- Zone z. -/
def zoneOf (s : State) (z : Nat) : ZoneSt := tabGet s.zones.tab z {}

/-- Writes zone z. -/
def setZone (z : Nat) (v : ZoneSt) (s : State) : State := { s with zones := { s.zones with tab := tabSet s.zones.tab z v {} } }

/-- Flock of a region (R16). -/
def flockOfRegion (r : Nat) : Nat := r / 16

/-- The generator row that serves region r: the one to which its multiplexer is to switch, else that of FLOCK_MUX
(R288, R301); none where it has no source. -/
def servingGen (s : State) (r : Nat) : Option Nat :=
  let m := (regionOf s r).mux
  if (regionOf s r).switchTo.isSome then (regionOf s r).switchTo
  else if m = 0 then some r else if m = 1 then some (spareRow s.build (r / 16) 0)
  else if m = 2 then some (spareRow s.build (r / 16) 1) else none

/-- The region's class in force (R184). -/
def classOfRegion (s : State) (r : Nat) : Nat := fld (bellA s (keyRcg r)) 0 2

/-- The region's zone in force (R184). -/
def zoneOfRegion (s : State) (r : Nat) : Nat := fld (bellA s (keyRcg r)) 4 4

/-- The mesh path p of a flock. -/
def pathOf (f : Flock) (p : Nat) : MeshPath := if p = 0 then f.p0 else if p = 1 then f.p1 else f.p2

/-- Writes the mesh path p of a flock record. -/
def withPath (f : Flock) (p : Nat) (x : MeshPath) : Flock :=
  if p = 0 then { f with p0 := x } else if p = 1 then { f with p1 := x } else { f with p2 := x }

/-- A synthesizer. -/
def synOf (s : State) (y : Syn) : Synth :=
  match y with
  | .s0 => s.root.s0
  | .s1 => s.root.s1

/-- Writes a synthesizer. -/
def setSyn (y : Syn) (v : Synth) (s : State) : State :=
  match y with
  | .s0 => { s with root := { s.root with s0 := v } }
  | .s1 => { s with root := { s.root with s1 := v } }

/-- The other synthesizer. -/
def otherSyn : Syn → Syn
  | .s0 => .s1
  | .s1 => .s0

/-- Writes Tally unit u. -/
def setTally (u : Nat) (v : TallyUnit) (s : State) : State :=
  if u = 0 then { s with tally := { s.tally with u0 := v } }
  else if u = 1 then { s with tally := { s.tally with u1 := v } }
  else if u = 2 then { s with tally := { s.tally with u2 := v } }
  else { s with tally := { s.tally with u3 := v } }

/-- A 32-bit count that wraps. -/
def bump (w : Word) (n : Nat) : Word := w + BitVec.ofNat 32 n

/-- A 16-bit count that wraps. -/
def bump16 (w : Half) (n : Nat) : Half := w + BitVec.ofNat 16 n

/-- Runs an operation over a list of numbers, in order. -/
def forAll (l : List Nat) (f : Nat → State → State) (s : State) : State := l.foldl (fun t k => f k t) s

/-- A free byte (log 8): the next unconstrained value. -/
def takeFreeByte (s : State) : BitVec 8 × State := (Config.freeByte s.freeCtr, { s with freeCtr := s.freeCtr + 1 })

/-- A free word (log 8): the next unconstrained value. -/
def takeFreeWord (s : State) : Word × State := (Config.freeWord s.freeCtr, { s with freeCtr := s.freeCtr + 1 })

end Sys2Proof.Machine
end

