-- ==== Sys2Proof/Machine/Flags.lean ====
section
/-!
DEFINITION. The flags that the fabric computes from its state: block interrupts (R446), their summary
(R479), the interrupt and service outputs (R516, R517), and the conditions of a flock (R292, R300).
-/
namespace Sys2Proof.Machine
open Sys2Proof

/-- The address of a block's IRQ_EN register: beside its event register. -/
def irqEnAddr (b : Block) : Nat := eventAddr b + 4

/-- The events of a block that are set and enabled (R446). -/
def liveEvents (s : State) (b : Block) : Nat := (eventOf s b).bits.toNat &&& (nowGet s (irqEnAddr b)).toNat

/-- The mailbox events that reach a port: mailbox 0 the host, 1 board management, 2 both (R439). -/
def mbxMask : Port → Nat
  | .host => 0b1101101
  | .bm => 0b1110110
  | .shep => 0

/-- A block's interrupt as a port sees it: a level (R446, R439). -/
def blockIrq (s : State) (p : Port) (b : Block) : Bool :=
  let e := liveEvents s b
  match b with
  | .mbx => (e &&& mbxMask p) != 0
  | _ => e != 0

/-- CFG_IRQ_SUM as a port reads it (R479). -/
def irqSum (s : State) (p : Port) : Word :=
  packWord (allBlocks.map (fun b => (blockIx b, 1, b2n (blockIrq s p b))))

/-- hc_irq (R517) and, for board management, bm_irq_n driven low (R516): CFG_IRQ_SUM as the port reads it, 0 while the fabric domain
is in reset (R512). -/
def irqOut (s : State) (p : Port) : Bool := reachable s 0xC && allBlocks.any (fun b => blockIrq s p b)

/-- The 16 own generators of flock f, as rows. -/
def ownRows (f : Nat) : List Nat := (List.range 16).map (fun k => 16 * f + k)

/-- The rows of flock f's spares. -/
def spareRows (b : Build) (f : Nat) : List Nat := (List.range b.spares).map (fun j => spareRow b f j)

/-- Generator g is in a state that a measurement of it does not end (R304). -/
def isSt (s : State) (st : GenSt) (g : Nat) : Bool :=
  (genOf s g).st = st || ((genOf s g).st = .measuring && (genOf s g).measFrom = some st)

/-- SPARE_OUT: every spare is serving or FAILED and no own generator is QUALIFIED (R292). -/
def spareOutNow (s : State) (f : Nat) : Bool :=
  (spareRows s.build f).all (fun g => (genOf s g).st = .serving || (genOf s g).st = .failed) &&
  (ownRows f).all (fun g => !isSt s .qualified g)

/-- The regions of flock f excluded under R130. -/
def exclCount (s : State) (f : Nat) : Nat := ((ownRows f).filter (fun r => (regionOf s r).excl = .auto)).length

/-- A path is locked and neither failed nor taken out for calibration (R87, R88, R352). -/
def pathUsable (s : State) (f p : Nat) : Bool :=
  let m := pathOf (flockOf s f) p
  m.locked && !m.failed && !m.calOut

/-- The usable paths of flock f. -/
def usablePaths (s : State) (f : Nat) : List Nat := (List.range s.build.paths).filter (pathUsable s f)

/-- The healthy paths of flock f: usable and not disabled; a DISABLE that would leave none is ignored for
the last such path (R94). -/
def healthyPaths (s : State) (f : Nat) : List Nat :=
  let u := usablePaths s f
  let h := u.filter (fun p => !bitAt (nowGet s (flockAddr f 0xC)) p)
  if h ≠ [] then h
  else if u.contains (flockOf s f).sel.toNat then [(flockOf s f).sel.toNat]
  else u.take 1

/-- A path is one of its flock's healthy ones. -/
def pathHealthy (s : State) (f p : Nat) : Bool := (healthyPaths s f).contains p

/-- One healthy path is left to flock f (R93, R104). -/
def onLastPath (s : State) (f : Nat) : Bool := (healthyPaths s f).length = 1

/-- MESH_READY: every flock has a locked path (R84, R102). -/
def meshReadyNow (s : State) : Bool :=
  (List.range s.build.flocks).all (fun f => (List.range s.build.paths).any (fun p => (pathOf (flockOf s f) p).locked))

/-! ### The lanes of the mesh and flock time -/

/-- The latest root edge that has reached a flock m ticks away: the newest one sent at least m ticks ago.  Where the
record does not reach back so far the edges before it came at the present rate: m less in tick mode, and in bypass, where
edges come 5 ticks apart, the least multiple of 5 that is at least m less (R79). -/
def arrivedTotal (s : State) (m : Nat) : Int :=
  match s.time.trail.find? (fun e => decide (e.1 + m ≤ elapsed s)) with
  | some e => e.2
  | none => (s.time.total : Int) - (if s.root.bypass then 5 * ceilDiv m 5 else m : Nat)

/-- Flock time of flock f: the label of its latest delivered edge, from the replica of its selected path (R79, R84, R87).
DESIGN CHOICE (log 115): a flock whose selected path holds no replica goes by the root counter. -/
def flockTime (s : State) (f : Nat) : Nat :=
  let m := pathOf (flockOf s f) (flockOf s f).sel.toNat
  if m.repValid then (m.repBase + arrivedTotal s m.m.toNat).toNat else s.time.counter

/-- The root edge before the latest one that has reached a flock m ticks away (R79). -/
def arrivedBefore (s : State) (m : Nat) : Int :=
  match s.time.trail.dropWhile (fun e => !decide (e.1 + m ≤ elapsed s)) with
  | _ :: e :: _ => e.2
  | _ => arrivedTotal s m - (if s.root.bypass then 5 else 1 : Nat)

/-- The label of flock f's delivered edge before its latest (R79). -/
def flockBefore (s : State) (f : Nat) : Int :=
  let m := pathOf (flockOf s f) (flockOf s f).sel.toNat
  if m.repValid then m.repBase + arrivedBefore s m.m.toNat else (s.time.counter : Int) - s.time.inc

/-- The Advance lane: bits 3:0 the increment of the last edge, bit 4 MODE (R80). -/
def advanceLane (s : State) : BitVec 5 := BitVec.ofNat 5 (s.time.inc % 16 + (if s.root.bypass then 16 else 0))

/-- The Echo lane of every path of the build: the aligned tick ÷ 2, from the aligners' reset on; the lock sequence acquires the
delay from it (R80, R84). -/
def echoLane (s : State) (f p : Nat) : Bool := s.power.meshUp && decide (f < s.build.flocks) && decide (p < s.build.paths) && decide (s.time.frameEdge % 2 = 1)

/-- The service request of flock f, by the four conditions of R292. -/
def svcNow (s : State) (f : Nat) : Bool :=
  spareOutNow s f || (flockOf s f).lastPath || decide (0 < exclCount s f) || (flockOf s f).parity

/-- FLOCK_SVCw (R308). -/
def svcWord (s : State) (w : Nat) : Word :=
  packWord ((List.range 32).map (fun b => (b, 1, b2n (decide (32 * w + b < s.build.flocks) && (flockOf s (32 * w + b)).svc))))

/-- hc_svc, and bm_svc_n driven low: any flock's service request (R516, R517). -/
def svcOut (s : State) : Bool := (List.range s.build.flocks).any (fun f => (flockOf s f).svc)

/-- Brings FLOCK_STATUS.SVC and SPARE_OUT of flock f up to date, raising SVC_ON, SVC_OFF and SPARE_OUT as
they change (R292, R307). -/
def updateSvc (f : Nat) (s : State) : State :=
  let x := flockOf s f
  let so := spareOutNow s f
  let sv := svcNow s f
  let s := if so && !x.spareOut then raiseAbout .flock 2 f s else s
  let s := if sv && !x.svc then raiseAbout .flock 9 f s else if !sv && x.svc then raiseAbout .flock 10 f s else s
  setFlock f { flockOf s f with spareOut := so, svc := sv } s

end Sys2Proof.Machine
end

