-- ==== Sys2Proof/Machine/Drover.lean ====
section
/-!
DEFINITION. What a drover decides for its regions and generators: the contract's values in force, band
windows and band selection (R158), neighbours and exclusion (R117, R128, R130, R211), cover (R281), the
computed choice (R286) and takeovers (R287, R288).
-/
namespace Sys2Proof.Machine
open Sys2Proof

/-! ### Values of the contract -/

/-- FOLD_CLASSn, applied: K16, NOM, POLICY (R142). -/
def swK (s : State) (n : Nat) : Nat := 16 * fld (bellA s (clsAddr 0x3100 n)) 0 16
def nomOf (s : State) (n : Nat) : Nat := fld (bellA s (clsAddr 0x3100 n)) 16 12
def adaptive (s : State) (n : Nat) : Bool := bitAt (bellA s (clsAddr 0x3100 n)) 28

/-- RCG_CLASSn, applied: SPRINT, HOLD8, ADV_CAP (R185). -/
def sprintOf (s : State) (n : Nat) : Nat := fld (bellA s (clsAddr 0x4100 n)) 0 6
def hold8Of (s : State) (n : Nat) : Nat := fld (bellA s (clsAddr 0x4100 n)) 8 7
def advCapOf (s : State) (n : Nat) : Bool := bitAt (bellA s (clsAddr 0x4100 n)) 16

/-- F and G of FOLD_CFG, applied, in ticks (R108, R138). -/
def cfgF (s : State) : Nat := 64 * fld (bellA s 0x3000) 0 11
def cfgG (s : State) : Nat := 16 * fld (bellA s 0x3000) 12 11

/-- F and G that govern now: the running fold's, or FOLD_CFG's before the first bell. -/
def fNow (s : State) : Nat := if s.fold.started then s.fold.f else cfgF s
def gNow (s : State) : Nat := if s.fold.started then s.fold.g else cfgG s

/-- The pace increment of R115: floor(K × 65,536 / (F − G)). -/
def paceInc (k f g : Nat) : Nat := k * 65536 / (f - g)

/-- The K that a class runs now: its effective K, or before the first bell its software K (R112). -/
def kNow (s : State) (n : Nat) : Nat := if s.fold.started then (classOf s n).kEff else swK s n

/-- The pace increment in force (R112, R115). -/
def incNow (s : State) (n : Nat) : Nat :=
  if s.fold.started then (classOf s n).inc else paceInc (swK s n) (cfgF s) (cfgG s)

/-- R114: K is a multiple of 16 between 800 and NOM times (F − G) / 250, with a NOM of at most 4,000 MHz (R535; DEDUCED, log 134). -/
def kValid (k nom f g : Nat) : Bool :=
  decide (nom ≤ 4000) && decide (k % 16 = 0) && decide (250 * k ≤ nom * (f - g)) && decide (800 * (f - g) ≤ 250 * k)

/-- The smallest multiple of 16 that meets R114's lower bound. -/
def kFloor (f g : Nat) : Nat := 16 * ceilDiv (800 * (f - g)) (250 * 16)

/-- R108: F is 1,024 to 65,536 by 64, G is 32 to F / 4 by 16, in FOLD_CFG's units. -/
def fgValid (f64 g16 : Nat) : Bool :=
  decide (16 ≤ f64) && decide (f64 ≤ 1024) && decide (2 ≤ g16) && decide (g16 ≤ f64)

/-- The value that a bell-class register will have at the coming bell: pending, or in force (R159). -/
def coming (s : State) (k : Nat) : Word := if s.cfg.pend.contains k then bellW s k else bellA s k

/-- The fold offset of flock f's latest delivered edge: by its label, at which its units take their events (R79, R95). -/
def flockOffset (s : State) (f : Nat) : Nat := flockTime s f - s.fold.bellTick

/-! ### Bands -/

/-- The highest sprint ceiling of any class, in 1/200 MHz (R176, R535). -/
def topSprint : Nat := 200 * 4000

/-- The sprint ceiling of a nominal and a SPRINT code, in 1/200 MHz: at most 4,000 MHz (R176, R535). -/
def sprint200 (nom spr : Nat) : Nat := min topSprint (nom * (200 + spr))

/-- A band window (R158): K over F − G, the nominal, the SPRINT code, and the divider d of R281. -/
structure Window where
  k   : Nat
  den : Nat
  nom : Nat
  spr : Nat
  mul : Nat

/-- Fields of a band table entry (R152). -/
def bFmin (e : Word) : Nat := fld e 0 12
def bSpan (e : Word) : Nat := fld e 12 11
def bValid (e : Word) : Bool := bitAt e 31

/-- A band is usable for a window (R158), by exact cross-multiplication. -/
def rowUsable (e : Word) (w : Window) : Bool :=
  bValid e && decide ((10 * bFmin e + bSpan e) * w.den ≤ 2500 * w.k * w.mul) &&
  decide (w.mul * sprint200 w.nom w.spr ≤ 20 * (10 * bFmin e + 9 * bSpan e))

/-- Distance of a band's centre from the window's middle, times 400 (F − G). -/
def rowMiss (e : Word) (w : Window) : Nat :=
  let a := (2 * bFmin e + bSpan e) * 200 * w.den
  let b := w.mul * (50000 * w.k + sprint200 w.nom w.spr * w.den)
  (a - b) + (b - a)

/-- The entry of a band in a row. -/
def entryOf (row : List Word) (b : Nat) : Word := row.getD b 0

/-- The best band of those that pass a test, by a score to be least, the lower number on a tie. -/
def bestBand (row : List Word) (ok : Word → Bool) (score : Word → Nat) : Option Nat :=
  (List.range 24).foldl (fun best b =>
    if ok (entryOf row b) then
      match best with
      | none => some b
      | some a => if score (entryOf row b) < score (entryOf row a) then some b else best
    else best) none

/-- The valid band with the highest F_MIN + SPAN (R158, R162). -/
def topBand (row : List Word) : Option Nat :=
  bestBand row bValid (fun e => 8192 - (bFmin e + bSpan e))

/-- R158: the current band while it is usable, else the usable band closest to the middle. -/
def pickBand (row : List Word) (cur : Option Nat) (w : Window) : Option Nat :=
  match cur with
  | some b => if rowUsable (entryOf row b) w then some b else bestBand row (fun e => rowUsable e w) (fun e => rowMiss e w)
  | none => bestBand row (fun e => rowUsable e w) (fun e => rowMiss e w)

/-- The band's top reaches f_line (R162). -/
def reachesLine (e : Word) (w : Window) : Bool := decide (250 * w.k * w.mul ≤ (bFmin e + bSpan e) * w.den)

/-- The band does not cover the window from end to end: restricted operation (R161). -/
def isRestricted (e : Word) (w : Window) : Bool :=
  decide (250 * w.k * w.mul < bFmin e * w.den) || decide (200 * (bFmin e + bSpan e) < w.mul * sprint200 w.nom w.spr)

/-- The window of class n in the running fold (R158). -/
def classWindow (s : State) (n : Nat) : Window :=
  { k := kNow s n, den := fNow s - gNow s, nom := nomOf s n, spr := sprintOf s n, mul := 1 }

/-- A window multiplied by a divider (R281). -/
def Window.times (w : Window) (d : Nat) : Window := { w with mul := w.mul * d }

/-- The smallest divider for which a band is usable (R281, R282). -/
def divFor (e : Word) (w : Window) : Option Nat := [1, 2, 4].find? (fun d => rowUsable e (w.times d))

/-- The smallest divider for which some band of a row is usable, and that band (R282). -/
def divAnyBand (row : List Word) (w : Window) : Option (Nat × Nat) :=
  match pickBand row none (w.times 1), pickBand row none (w.times 2), pickBand row none (w.times 4) with
  | some b, _, _ => some (1, b)
  | none, some b, _ => some (2, b)
  | none, none, some b => some (4, b)
  | none, none, none => none

/-- The selected band's entry of a generator, 0 where it has none. -/
def curEntry (g : Gen) : Word :=
  match g.band with
  | some b => entryOf g.copy b
  | none => 0

/-- The band that a generator runs on: from the start of a band-change stop, the one it changes to (R160, R162; log
77). -/
def selBand (g : Gen) : Option Nat := if g.stopEnd.isSome && g.planned.isSome then g.planned else g.band

/-- The divider that goes with it (R281, R282). -/
def selDiv (g : Gen) : Nat := if g.stopEnd.isSome && g.planned.isSome then g.plannedDiv else g.div

/-! ### Regions -/

/-- Region r exists in the build (R17). -/
def isRegion (s : State) (r : Nat) : Bool := decide (r < s.build.regions)

/-- rg_rst_n of region r is released: on the first rising edge of rg_clk since the region left reset (R155, R519). -/
def rgReleased (s : State) (r : Nat) : Bool := s.power.fabUp && (regionOf s r).out && (regionOf s r).rstN

/-- The region is excluded (R128, R130). -/
def excluded (s : State) (r : Nat) : Bool := (regionOf s r).excl ≠ .no

/-- The region takes part in the contract: out of reset and not excluded (R107, R155). -/
def inContract (s : State) (r : Nat) : Bool := (regionOf s r).out && !excluded s r

/-- The region is being served: in the contract with a clock source. -/
def served (s : State) (r : Nat) : Bool := inContract s r && (servingGen s r).isSome

/-- A region's lag, in 1/16 cycle: 0 once it has parked, while its neighbours' floors still follow what it was (R116, R120). -/
def lagNow (x : Region) : Nat := if x.parked then 0 else x.lag16

/-- Calibrations are held: the core does not run, or the fabric is in bypass (R343, R362). -/
def calHeld (s : State) : Bool := s.shep.state ≠ .running || s.root.bypass

/-- Firmware starts no calibration: calibrations are held, or the core is hung (R19, R343, R543). -/
def fwHolds (s : State) : Bool := calHeld s || s.shep.hung

/-- Region r is armed: firmware arms every due region whose row is verified (R343, R344; log 19). -/
def armedNow (s : State) (r : Nat) : Bool :=
  let x := regionOf s r
  x.due && inContract s r && s.shep.state = .running && x.hold.isNone && x.waiting.isNone && !x.heldThisFold &&
  match servingGen s r with
  | some g => (genOf s g).rowOk
  | none => false

/-- The state code of R182: EXCLUDED, DETACHED, PARKED, or its tracking state. -/
def stateCode (s : State) (r : Nat) : Nat :=
  let x := regionOf s r
  if x.excl ≠ .no then 5 else if x.detached then 4 else if x.parked || s.time.held then 3
  else match x.track with
    | .run => 0
    | .reel => 1
    | .held => 2

/-- Crossings that join region r and are enabled (R117, "The tether"). -/
def crossingsOf (s : State) (r : Nat) : List Nat :=
  (s.xing.tab.filter (fun e => e.2.enabled && ((hookOf s e.1).writer = r || (hookOf s e.1).reader = r))).map Prod.fst

/-- Regions joined to r by an enabled crossing (R117). -/
def neighbours (s : State) (r : Nat) : List Nat :=
  ((crossingsOf s r).map (fun x => if (hookOf s x).writer = r then (hookOf s x).reader else (hookOf s x).writer)).dedup

/-- T and g in cycles, in force (R118, R139). -/
def tetherT (s : State) : Nat := fld (nowGet s 0x3004) 0 6
def guardG (s : State) : Nat := fld (nowGet s 0x3004) 8 4

/-- The working band T − g (R118). -/
def bandOf (s : State) : Nat := tetherT s - guardG s

/-- The enabled crossings of a region disarm, enforce no tether and no interlock (R211). -/
def disarmXings (r : Nat) (s : State) : State :=
  mapXings (fun x v =>
    if v.enabled && ((hookOf s x).writer = r || (hookOf s x).reader = r) && v.armed then
      { v with armed := false, disarmed := true, pastW := false, pastR := false, stopW := false, stopR := false, avail := false, room := false }
    else v) s

/-- A region leaves the contract now: it parks wherever its count stands, its pulls and floors are
dropped, its crossings disarm; a calibration hold in it loses its results (R128, R211, R359). -/
def leaveContract (r : Nat) (e : Excl) (s : State) : State :=
  let x := regionOf s r
  disarmXings r (setRegion r { x with
    excl := e, parked := true, pulling := false, floor16 := 0, floorNext := 0, readmit := false, failHold := false, holdMHz := none,
    hold := x.hold.map (fun h => { h with discard := true }) } s)

/-- The automatic exclusion of R130. -/
def autoExclude (r : Nat) (s : State) : State :=
  let s := leaveContract r .auto s
  let s := raise .fold 9 s
  updateSvc (r / 16) { s with fold := { s.fold with exclLast := BitVec.ofNat 13 r } }

/-- f_line of class n in MHz, rounded down (R158). -/
def classMHz (s : State) (n : Nat) : Nat := 250 * kNow s n / (fNow s - gNow s)

/-- f_line of region r in MHz, rounded down (R158). -/
def lineMHz (s : State) (r : Nat) : Nat := classMHz s (classOfRegion s r)

/-- The present DCO frequency, MHz. -/
def freqNow (s : State) (r : Nat) : Nat := if (regionOf s r).freq = 0 then max 1 (lineMHz s r) else (regionOf s r).freq

/-- A frequency within the band that a generator runs on, where it has one (R161). -/
def withinBand (g : Gen) (mhz : Nat) : Nat :=
  match selBand g with
  | none => mhz
  | some b => min (bFmin (entryOf g.copy b) + bSpan (entryOf g.copy b)) (max (bFmin (entryOf g.copy b)) mhz)

/-- A frequency of num / den MHz that region r wants, times the divider of its generator, rounded down, and within its band (R161,
R182, R281). -/
def inBand (s : State) (r num den : Nat) : Nat :=
  match servingGen s r with
  | none => (regionOf s r).freq
  | some g => withinBand (genOf s g) (selDiv (genOf s g) * num / den)

/-- f_line of region r on its generator, within its band (R158, R161). -/
def lineBand (s : State) (r : Nat) : Nat := inBand s r (250 * kNow s (classOfRegion s r)) (fNow s - gNow s)

/-- Region r has another generator, or its generator another band (R182, R283, R287).  DESIGN CHOICE (log 145): FREQ is that of its line
there until its loop sets it anew. -/
def retune (r : Nat) (s : State) : State := setRegion r { regionOf s r with freq := lineBand s r } s

/-! ### Cover and claims -/

/-- The divider with which spare row g covers region r's window, while FREE (R281). -/
def coverDiv (s : State) (g : Nat) (w : Window) : Option Nat :=
  let x := genOf s g
  if x.band.isSome then divFor (curEntry x) w else none

/-- The window of a region's class now. -/
def regionWindow (s : State) (r : Nat) : Window := classWindow s (classOfRegion s r)

/-- Evaluates cover in flock f against a window for each region (R281). -/
def evalCover (win : Nat → Window) (f : Nat) (s : State) : State :=
  let covers := fun g r => (genOf s g).st = .free && (coverDiv s g (win r)).isSome
  let rows := spareRows s.build f
  let gap := (ownRows f).any (fun r => served s r && rows.all (fun g => !covers g r))
  let s' := forAll rows (fun g t =>
    setGen g { genOf t g with cover := BitVec.ofNat 16 (bitsWhere 16 (fun k => covers g (16 * f + k))) } t) s
  let s' := setFlock f { flockOf s' f with coverGap := gap } s'
  if gap then raiseAbout .flock 3 f s' else s'

/-- What follows whenever a spare's state changes: cover and the service request (R281, R292). -/
def spareChanged (f : Nat) (s : State) : State := updateSvc f (evalCover (regionWindow s) f s)

/-- The computed choice of a slot at the last tick edge (R286): the lowest FREE spare that covers it, its
own generator when QUALIFIED, the lowest FREE spare.  `free` says which spares were FREE at the edge. -/
def computedChoice (s : State) (r : Nat) (free : Nat → Bool) : Option Nat :=
  let rows := (spareRows s.build (r / 16)).filter free
  match rows.find? (fun g => (genOf s g).calFrom.isNone && (coverDiv s g (regionWindow s r)).isSome) with
  | some g => some g
  | none => if (genOf s r).st = .qualified then some r else rows.head?

/-- Multiplexer code of a generator row for region r (R301). -/
def muxCode (s : State) (r g : Nat) : BitVec 2 :=
  if g = r then 0 else if g = spareRow s.build (r / 16) 0 then 1 else 2

/-- The flock of a generator row, and its index there: own slots 0 to 15, spares 16 and 17 (R153, R305). -/
def rowFlock (_b : Build) (g : Nat) : Nat := if g < 5120 then g / 16 else (g - 5120) / 2
def rowIndex (_b : Build) (g : Nat) : Nat := if g < 5120 then g % 16 else 16 + (g - 5120) % 2

/-- The generator row of a flock's GEN code (R305). -/
def genRow (b : Build) (f code : Nat) : Option Nat :=
  if code < 16 then some (16 * f + code) else if code < 16 + b.spares then some (spareRow b f (code - 16)) else none

/-- A takeover of region r by generator row g (R287, R288): the multiplexer switches, the new generator's
divider is set and its sampler copy loaded, an uncovered one first takes a 150-tick band-change stop; the flock's
records follow, but for the length of the hold, which the first edge ends; a parked region has a hold only where its bell may come
within the stop.  A calibration hold ends with its results
discarded, or where it began in this tick does not start, and a band-change stop is abandoned (R163, R278, R289, R306,
R359). -/
def takeover (r g code : Nat) (s : State) : State :=
  let f := r / 16
  let x := genOf s g
  let w := regionWindow s r
  let cov := if x.calFrom.isSome then none else if g = r then (if x.band.isSome && rowUsable (curEntry x) w then some 1 else none) else coverDiv s g w
  let x' : Gen :=
    match cov with
    | some d => { x with st := .serving, slot := r % 16, div := d, plannedDiv := d, stopEnd := none, planned := none, failback := false }
    | none =>
      let any := if g = r then (pickBand x.copy none w).map (fun b => (1, b)) else divAnyBand x.copy w
      let (d, b) := match any with
        | some p => p
        | none => (1, (match x.band with
                       | some b => b
                       | none => (topBand x.copy).getD 0))
      { x with st := .serving, slot := r % 16, planned := some b, plannedDiv := d,
               calFrom := none, stopEnd := some (s.time.total + 150), failback := false }
  let unc := cov.isNone
  let y := regionOf s r
  let s := setGen g { x' with count := y.c } s
  let begins := y.hold.any (fun h => h.start = s.time.counter)
  let s := if (y.hold.isSome && !begins) || x.calFrom.isSome then raiseAbout .cal 7 f s else s
  let s := setRegion r { y with
    heldThisFold := y.heldThisFold && !begins,
    mux := if unc then y.mux else muxCode s r g, switchTo := if unc then some g else none, hold := none, detached := false,
    failHold := unc || !y.parked, holdMHz := some (freqNow s r) } s
  let s := retune r s
  let fl := flockOf s f
  let word := packWord [(0, 4, r % 16), (4, 3, code), (7, 2, (muxCode s r g).toNat), (9, 1, b2n unc)]
  let s := setFlock f { fl with failovers := fl.failovers + 1, uncovered := if unc then fl.uncovered + 1 else fl.uncovered, foLast := word } s
  let s := { s with foTotal := bump s.foTotal 1 }
  let s := raiseAbout .flock 0 f s
  let s := if unc then raiseAbout .flock 4 f s else s
  spareChanged f s

/-- A slot's claim waits for the next tick edge, without a source meanwhile: CLAIM_RETRY (R290, R291). -/
def retryClaim (r code : Nat) (s : State) : State :=
  let f := r / 16
  let y := regionOf s r
  let s := setRegion r { y with mux := 3, switchTo := none, failHold := !y.parked } s
  let fl := flockOf s f
  let cs := fl.claims.filter (fun c => c.1 ≠ r % 16) ++ [(r % 16, code, s.time.total)]
  raiseAbout .flock 5 f (setFlock f { fl with claims := cs, retries := fl.retries + 1 } s)

/-- A takeover as it is recorded for the tick, with what it finds (R290, R291). -/
def takenAs (r g code : Nat) (s : State) : Taken :=
  let fl := flockOf s (r / 16)
  { gen := g, slot := r % 16, code := code, genWas := genOf s g, regionWas := regionOf s r, foLastWas := fl.foLast,
    coverGapWas := fl.coverGap, svcWas := fl.svc, spareOutWas := fl.spareOut }

/-- A takeover, recorded for the tick with what it changes (R287, R290, R291). -/
def takeNoted (e : Taken) (r g code : Nat) (s : State) : State :=
  let f := r / 16
  let t := takeover r g code s
  let e := { e with uncov := decide ((flockOf t f).uncovered ≠ (flockOf s f).uncovered), raised := newBits .flock s t, raisedCal := newBits .cal s t }
  setFlock f { flockOf t f with taken := (flockOf t f).taken ++ [e] } t

/-- A takeover of the running tick is undone: the generator, the region's source, the counts and the events are as before it
(R290, R291). -/
def undoTaken (f : Nat) (e : Taken) (s : State) : State :=
  let r := 16 * f + e.slot
  let w := e.regionWas
  let s := setRegion r { regionOf s r with mux := w.mux, switchTo := w.switchTo, failHold := w.failHold, holdMHz := w.holdMHz, freq := w.freq,
                                           hold := w.hold, detached := w.detached, heldThisFold := w.heldThisFold } s
  let s := setGen e.gen e.genWas s
  let s := match e.leftWas with
    | some (g, x) => setGen g x s
    | none => s
  let fl := flockOf s f
  let s := setFlock f { fl with
    taken := fl.taken.filter (fun t => t.gen ≠ e.gen), failovers := fl.failovers - 1,
    uncovered := if e.uncov then fl.uncovered - 1 else fl.uncovered,
    foLast := if fld fl.foLast 0 4 = e.slot then e.foLastWas else fl.foLast,
    coverGap := e.coverGapWas, svc := e.svcWas, spareOut := e.spareOutWas } s
  unraise .cal [7] e.raisedCal (unraise .flock [0, 2, 3, 4, 9, 10] e.raised { s with foTotal := s.foTotal - 1 })

/-- A slot that claimed a generator earlier in the tick yields it to a lower-numbered one: its takeover is undone and
its claim waits (R290). -/
def yieldClaim (f : Nat) (e : Taken) (s : State) : State := retryClaim (16 * f + e.slot) e.code (undoTaken f e s)

/-- A slot claims its computed choice (R286, R290, R291): the choice made in this tick by a lower slot, or
a spare lost in this tick, defers the claim to the next tick edge (CLAIM_RETRY), a higher slot yields it; no choice at
all excludes the region (R130). -/
def claim (r code : Nat) (s : State) : State :=
  let f := r / 16
  let fl := flockOf s f
  let free := fun g => (genOf s g).st = .free || (genOf s g).calFrom.isSome || fl.taken.any (fun t => t.gen = g)
  let drop := fun t => setFlock f { flockOf t f with claims := (flockOf t f).claims.filter (fun c => c.1 ≠ r % 16) } t
  match computedChoice s r free with
  | none =>
    let s := drop s
    autoExclude r (setRegion r { regionOf s r with mux := 3, switchTo := none } s)
  | some g =>
    let take := fun s => takeNoted (takenAs r g code s) r g code (drop s)
    match fl.taken.find? (fun t => t.gen = g) with
    | none => take s
    | some e => if e.slot < 16 && r % 16 < e.slot then take (yieldClaim f e s) else retryClaim r code s

/-- The shadow class of spare j of flock f (R280, R302). -/
def shadowClass (s : State) (f j : Nat) : Nat := fld (bellA s (keySpareCfg f)) (2 * j) 2

/-- The band that a generator selects for a window (R158, R162): a usable one; where none is, the current one, but at a
bell that one only if it reaches f_line or no valid band does. -/
def newBand (atBell : Bool) (row : List Word) (cur : Option Nat) (w : Window) : Option Nat :=
  match pickBand row cur w, cur with
  | some b, _ => some b
  | none, none => topBand row
  | none, some c =>
    if atBell && !reachesLine (entryOf row c) w then
      match topBand row with
      | some b => if reachesLine (entryOf row b) w then some b else some c
      | none => some c
    else some c

/-- What a spare's selection of band b for its shadow window raises where no band is usable: BAND_FORCED for a forced stop
at a bell; NO_BAND and RESTRICT where the band does not reach f_line (R158, R162).  DESIGN CHOICE (log 116): a spare that
serves no region has none to name. -/
def noBandEvents (row : List Word) (cur b : Option Nat) (w : Window) (s : State) : State :=
  match b with
  | none => s
  | some c =>
    let e := entryOf row c
    if rowUsable e w then s
    else if !reachesLine e w then raise .rcg 3 (raise .rcg 2 s)
    else
      let s := if cur.isSome && cur ≠ b then raise .rcg 1 s else s
      if isRestricted e w then raise .rcg 2 s else s

/-- A spare that serves no region selects its band for its shadow class's window, after a 150-tick stop where that is another band
(R158, R162, R280). -/
def spareBand (atBell : Bool) (g : Nat) (s : State) : State :=
  let x := genOf s g
  let w := classWindow s (shadowClass s ((g - 5120) / 2) ((g - 5120) % 2))
  let b := newBand atBell x.copy x.band w
  let s := if atBell || x.band.isNone then noBandEvents x.copy x.band b w s else s
  setGen g (if x.band.isNone then { x with band := b, stopEnd := none, planned := none }
            else if b = x.band then { x with stopEnd := none, planned := none }
            else { x with planned := b, plannedDiv := 1, stopEnd := some (s.time.total + 150) }) s

/-- A spare goes back to pre-locking: it selects its band and is LOCKING on its shadow line (R158, R280, R282). -/
def spareLocking (atBell : Bool) (g : Nat) (s : State) : State :=
  spareBand atBell g (setGen g { genOf s g with
    st := .locking, div := 1, plannedDiv := 1, lockFrom := s.time.total, slot := 0, calFrom := none, cellProp := none, count := 0 } s)

/-- A region that is excluded in the tick of its takeover gives its spare back, LOCKING, and has no source (R291). -/
def unclaim (r : Nat) (s : State) : State :=
  let fl := flockOf s (r / 16)
  match (fl.taken ++ fl.takenLast).find? (fun t => t.slot = r % 16) with
  | some e =>
    if s.build.regions ≤ e.gen && servingGen s r = some e.gen then
      spareChanged (r / 16) (spareLocking false e.gen (setRegion r { regionOf s r with mux := 3, switchTo := none, holdMHz := none } s))
    else s
  | none => s

end Sys2Proof.Machine
end

