-- ==== Sys2Proof/Machine/Check.lean ====
section
/-!
DEFINITION. Configuration: what a bell, or an application before the first bell, does with the pending
bell-class writes (R14, R114, R145, R170, R176, R178, R186, R268 to R271, R302, R361, R450 to R452), the
configuration check (R454 to R457), and the committed copy in the retention RAM (R427, R497 to R500).
-/
namespace Sys2Proof.Machine
open Sys2Proof

/-! ### The CRC of R454 -/

/-- One bit of the reflected Castagnoli CRC. -/
def crc32cBit (c : BitVec 32) : BitVec 32 := if c.getLsbD 0 then (c >>> 1) ^^^ 0x82F63B78 else c >>> 1

/-- One byte of the CRC. -/
def crc32cByte (c : BitVec 32) (b : BitVec 8) : BitVec 32 :=
  crc32cBit (crc32cBit (crc32cBit (crc32cBit (crc32cBit (crc32cBit (crc32cBit (crc32cBit (c ^^^ b.setWidth 32))))))))

/-- CRC-32C: reflected, initial value and final XOR all ones (R454). -/
def crc32c (bs : List (BitVec 8)) : Word := bs.foldl crc32cByte 0xFFFFFFFF ^^^ 0xFFFFFFFF

/-- The host-wide bell-class registers, in ascending control-port address (R454 item 1). -/
def hostKeys (b : Build) : List Nat :=
  let cs := List.range b.classes
  [0x3000] ++ cs.flatMap (fun n => [clsAddr 0x3100 n, clsAddr 0x310C n]) ++ [0x4040, 0x4044, 0x4048] ++
  cs.flatMap (fun n => [clsAddr 0x4100 n, clsAddr 0x4104 n, clsAddr 0x4108 n]) ++ cs.map (fun n => 0x6100 + 4 * n) ++
  [0x7000] ++ (List.range b.zones).map (fun z => 0x7100 + 4 * z) ++ cs.map (fun n => 0x7140 + 8 * n) ++ [0xA000]

/-- The ballast table entries, level-major (R454 item 2). -/
def ballastKeys (b : Build) : List Nat :=
  (List.range 15).flatMap (fun l => (List.range b.classes).map (fun n => keyBtab (l + 1) n))

/-- Every word of the pass, in its order (R454). -/
def configKeys (b : Build) : List Nat :=
  hostKeys b ++ ballastKeys b ++ (List.range b.regions).map keyRcg ++ (List.range b.flocks).map keySpareCfg

/-- CFG_CRC of the applied values (R454). -/
def crcOfWords (ws : List Word) : Word := crc32c (ws.flatMap (fun w => leBytes 4 w.toNat))

/-- CFG_CRC of the applied values (R454). -/
def configCrc (s : State) : Word := crcOfWords ((configKeys s.build).map (bellA s))

/-- Ticks of one pass, 8 words a tick (R455). -/
def passTicks (b : Build) : Nat := ceilDiv (configKeys b).length 8

/-! ### Applying pending writes -/

/-- A write of this key is pending. -/
def isPend (s : State) (k : Nat) : Bool := s.cfg.pend.contains k

/-- K16 × 16 and NOM of a FOLD_CLASSn word (R142). -/
def wordK (v : Word) : Nat := 16 * fld v 0 16
def wordNom (v : Word) : Nat := fld v 16 12

/-- The software K in force for a class: as decided at the last bell, or the applied one before it. -/
def kInForce (s : State) (n : Nat) : Nat := if s.fold.started then (classOf s n).kSw else swK s n

/-- The flat K of a FCST_FLATn word: K16 × 16 where EN is 1 (R243). -/
def wordFlat (v : Word) : Option Nat := if bitAt v 16 then some (16 * fld v 0 16) else none

/-- NOM that class n has at the coming application, F and G given (R114). -/
def nomAt (s : State) (n f g : Nat) : Nat :=
  let w := coming s (clsAddr 0x3100 n)
  if isPend s (clsAddr 0x3100 n) && !kValid (wordK w) (wordNom w) f g then nomOf s n else wordNom w

/-- The software K that class n takes at a bell with F and G, and whether the K it asks for is valid: the
flat K at a flat bell (R243), else FOLD_CLASSn's; an invalid one leaves the K in force (R114). -/
def takeK (s : State) (flat : Bool) (n f g : Nat) : Nat × Bool :=
  let nom := nomAt s n f g
  let w := coming s (clsAddr 0x3100 n)
  let base := if isPend s (clsAddr 0x3100 n) && !kValid (wordK w) (wordNom w) f g then swK s n else wordK w
  let want := match flat, wordFlat (coming s (0x6100 + 4 * n)) with
    | true, some k => k
    | _, _ => base
  if kValid want nom f g then (want, true) else (kInForce s n, false)

/-- F and G of a FOLD_CFG word, in ticks (R138). -/
def wordF (v : Word) : Nat := 64 * fld v 0 11
def wordG (v : Word) : Nat := 16 * fld v 12 11

/-- A pending FOLD_CFG is rejected: F, G or STALL_LAPS invalid, or some class would run a K outside R114's
bounds (R114, R145).  `flat` says whether the bell is flat for a given F and G. -/
def cfgBad (s : State) (flat : Nat → Nat → Bool) : Bool :=
  let w := bellW s 0x3000
  let f := wordF w
  let g := wordG w
  isPend s 0x3000 &&
  !(fgValid (fld w 0 11) (fld w 12 11) && fld w 24 8 ≠ 0 &&
    (List.range s.build.classes).all (fun n => kValid (takeK s (flat f g) n f g).1 (nomAt s n f g) f g))

/-- F and G that the application leaves applied. -/
def fAt (s : State) (flat : Nat → Nat → Bool) : Nat := if cfgBad s flat then cfgF s else wordF (coming s 0x3000)
def gAt (s : State) (flat : Nat → Nat → Bool) : Nat := if cfgBad s flat then cfgG s else wordG (coming s 0x3000)

/-- R170: for every type HLD < STR < ADV. -/
def wsOrder (h t a : Word) : Bool :=
  (List.range 8).all (fun i => decide (fld h (4 * i) 4 < fld t (4 * i) 4) && decide (fld t (4 * i) 4 < fld a (4 * i) 4))

/-- R186: every field of the curve is 1 to 8. -/
def curveOk (v : Word) : Bool := (List.range 8).all (fun i => 1 ≤ fld v (4 * i) 4 && fld v (4 * i) 4 ≤ 8)

/-- R271: every Q is 512 to 1,024 and no class's Q rises with the level. -/
def ballastOk (s : State) : Bool :=
  (List.range s.build.classes).all (fun n => (List.range 15).all (fun l =>
    let q := fld (coming s (keyBtab (l + 1) n)) 0 11
    512 ≤ q && q ≤ 1024 && (l = 0 || q ≤ fld (coming s (keyBtab l n)) 0 11)))

/-- R178: the class suits the region and is implemented, and the zone exists. -/
def rcgClassOk (b : Build) (r : Nat) (v : Word) : Bool :=
  let c := fld v 0 2
  (if r < b.logic then c = 0 || c = 1 || c = 3 else c = 2 || c = 3) && c < b.classes && fld v 4 4 < b.zones

/-- A word with the field of n bits at lo taken from another word. -/
def keepField (v old : Word) (lo n : Nat) : Word :=
  let m : Word := BitVec.ofNat 32 ((2 ^ n - 1) * 2 ^ lo)
  (v &&& ~~~m) ||| (old &&& m)

/-- What the application makes of one pending key: the value then applied, and the events raised (block,
bit, and the region named by the companion register where there is one). -/
def judge (s : State) (flat : Nat → Nat → Bool) (k : Nat) : Word × List (Block × Nat × Option Nat) :=
  let v := bellW s k
  let old := bellA s k
  let bad := cfgBad s flat
  let f := fAt s flat
  let g := gAt s flat
  let keep := fun (b : Block) (e : Nat) => (old, [(b, e, (none : Option Nat))])
  if k = 0x3000 then (if bad then keep .fold 11 else (v, []))
  else if 0x3100 ≤ k && k < 0x3140 then
    if k % 16 = 0 then
      (if bad then (old, []) else if kValid (wordK v) (wordNom v) f g then (v, []) else keep .fold 3)
    else (if fld v 0 8 = 0 || fld v 8 8 = 0 then keep .fold 11 else (v, []))
  else if k = 0x4040 || k = 0x4044 || k = 0x4048 then
    (if wsOrder (coming s 0x4040) (coming s 0x4044) (coming s 0x4048) then (v, []) else keep .rcg 6)
  else if 0x4100 ≤ k && k < 0x4140 then
    let n := (k - 0x4100) / 16
    if k % 16 = 0 then
      let nom := if bad then nomOf s n else nomAt s n f g
      let okS := 2 ≤ fld v 0 6 && fld v 0 6 ≤ 40 && nom * (200 + fld v 0 6) ≤ 4000 * 200
      let okH := 9 ≤ fld v 8 7 && fld v 8 7 ≤ 64
      let v1 := if okS then v else keepField v old 0 6
      (if okH then v1 else keepField v1 old 8 7,
       (if okS then [] else [(.rcg, 5, none)]) ++ (if okH then [] else [(.rcg, 6, none)]))
    else
      (if curveOk (coming s (clsAddr 0x4104 n)) && curveOk (coming s (clsAddr 0x4108 n)) then (v, []) else keep .rcg 6)
  else if 0x6100 ≤ k && k < 0x6110 then
    let n := (k - 0x6100) / 4
    match flat f g, wordFlat v with
    | true, some kf => if bad then (old, []) else if kValid kf (nomAt s n f g) f g then (v, []) else keep .fold 3
    | _, _ => (v, [])
  else if k = 0x7000 then
    (if 100 ≤ fld v 0 8 && fld v 0 8 ≤ 200 && 50 ≤ fld v 8 8 && fld v 8 8 ≤ 99 && 1 ≤ fld v 16 8 then (v, []) else keep .zone 6)
  else if 0x7100 ≤ k && k < 0x7140 then 
    (if fld v 0 12 ≤ 2500 then (v, []) else (old, [(.zone, 6, some ((k - 0x7100) / 4))]))
  else if k = 0xA000 then
    (if 4 ≤ fld v 1 7 && fld v 1 7 ≤ 80 && fld v 8 12 ≠ 0 then (v, []) else keep .cal 8)
  else if 0x210000 ≤ k then (if ballastOk s then (v, []) else keep .zone 6)
  else if 0x200000 ≤ k then
    let r := k - 0x200000
    let okC := rcgClassOk s.build r v
    let okW := fld v 8 8 ≠ 0
    if okC && okW then (v, [])
    else (old, (if okC then [] else [(.rcg, 8, some r)]) ++ (if okW then [] else [(.rcg, 6, some r)]))
  else if 0x10000 ≤ k then
    let f := (k - 0x10000) / 64
    let ok0 := fld v 0 2 < s.build.classes
    let ok1 := fld v 2 2 < s.build.classes
    let v1 := if ok0 then v else keepField v old 0 2
    (if ok1 then v1 else keepField v1 old 2 2, if ok0 && ok1 then [] else [(.rcg, 8, some (16 * f))])
  else (v, [])

/-- Raises the events that judging a key brought. -/
def raiseList (es : List (Block × Nat × Option Nat)) (s : State) : State :=
  es.foldl (fun t e => match e.2.2 with
    | some r => raiseAbout e.1 e.2.1 r t
    | none => raise e.1 e.2.1 t) s

/-- Sets or clears class n's bit of FOLD_STATUS.K_REJ (R114). -/
def setKRej (n : Nat) (on : Bool) (s : State) : State :=
  let m : BitVec 4 := BitVec.ofNat 4 (2 ^ n)
  { s with fold := { s.fold with kRej := if on then s.fold.kRej ||| m else s.fold.kRej &&& ~~~m } }

/-- A judged write is applied, and not rejected: its value stands, in whole or in part (R451). -/
def takes (s : State) (j : Nat × Word × List (Block × Nat × Option Nat)) : Bool :=
  j.2.1 = bellW s j.1 || j.2.1 ≠ bellA s j.1

/-- Applies every pending bell-class write, all judged together; where all are rejected APPLY_CNT and the running pass go on
(R14, R450 to R452, R455 to R457). -/
def applyPending (flat : Nat → Nat → Bool) (s : State) : State :=
  if s.cfg.pend = [] then s
  else
    let js := s.cfg.pend.map (fun k => (k, judge s flat k))
    let stale := js.any (fun j => s.cfg.byPort.contains j.1 && j.2.1 ≠ bellA s j.1)
    let f := fAt s flat
    let g := gAt s flat
    let bad := cfgBad s flat
    let t := js.foldl (fun t j => raiseList j.2.2 { t with cfgA := tabSet t.cfgA j.1 j.2.1 (bellReset t.build j.1) }) s
    let t := forAll (List.range s.build.classes) (fun n t =>
      if isPend s (clsAddr 0x3100 n) && !bad then
        setKRej n (!kValid (wordK (bellW s (clsAddr 0x3100 n))) (wordNom (bellW s (clsAddr 0x3100 n))) f g) t
      else t) t
    let t := if stale then raise .cfg 4 t else t
    let t := if s.cfg.restoreSet then raise .cfg 2 t else t
    { t with cfg := { t.cfg with
        pend := [], byPort := [], late := [], restoreSet := false,
        applyCnt := if js.any (takes s) then s.cfg.applyCnt + 1 else s.cfg.applyCnt,
        refValid := s.cfg.refValid && !stale, passFrom := if js.any (takes s) then s.time.total else s.cfg.passFrom,
        awaitPass := s.cfg.awaitPass || s.cfg.restoreSet } }

/-- The pending writes that take effect at a slow-clock edge before the first bell: all, or once it is 64 ticks away those that
completed earlier (R450). -/
def earlyKeys (s : State) : List Nat := if appliesEarly s then s.cfg.pend else s.cfg.pend.filter (fun k => !s.cfg.late.contains k)

/-- An application before the first bell: the writes that completed within 64 ticks of it wait on, and RESTORED with a restore's among
them (R450, R457). -/
def applyEarly (s : State) : State :=
  let wait := s.cfg.pend.filter (fun k => !(earlyKeys s).contains k)
  let waits := s.cfg.restoreSet && wait.any (fun k => !s.cfg.byPort.contains k)
  let t := applyPending (fun _ _ => false) { s with cfg := { s.cfg with pend := earlyKeys s, restoreSet := s.cfg.restoreSet && !waits } }
  { t with cfg := { t.cfg with
      pend := wait, byPort := s.cfg.byPort.filter wait.contains, late := wait, restoreSet := t.cfg.restoreSet || waits } }

/-- Key k as a bell that falls in the tick of its last write finds it: as it stood before that tick (R13). -/
def rewindKey (e : FreshWr) (s : State) : State :=
  let put := fun (l : List Nat) (on : Bool) => if on then (if l.contains e.key then l else l ++ [e.key]) else l.filter (· ≠ e.key)
  { s with cfgW := tabSet s.cfgW e.key e.was (bellReset s.build e.key),
           cfg := { s.cfg with pend := put s.cfg.pend e.wasPend, byPort := put s.cfg.byPort e.wasByPort } }

/-- The bell-class writes of the running tick. -/
def freshNow (s : State) : List FreshWr := s.cfg.fresh.filter (fun e => e.tick = elapsed s)

/-- The state that a bell of this tick judges: without the bell-class writes of the tick (R13, R457). -/
def rewindFresh (s : State) : State :=
  let t := (freshNow s).foldl (fun t e => rewindKey e t) s
  { t with cfg := { t.cfg with restoreSet := t.cfg.restoreSet && decide (t.cfg.restoreAt ≠ elapsed s) } }

/-- After the bell, the writes of its tick stand as pending for the next one (R13). -/
def replayFresh (was : State) (s : State) : State :=
  let t := (freshNow was).foldl (fun t e =>
    let t := bellPut e.key (bellW was e.key) t
    if was.cfg.byPort.contains e.key then t
    else { t with cfg := { t.cfg with byPort := t.cfg.byPort.filter (· ≠ e.key) } }) s
  { t with cfg := { t.cfg with restoreSet := t.cfg.restoreSet || (was.cfg.restoreSet && decide (was.cfg.restoreAt = elapsed was)) } }

/-! ### The committed copy -/

/-- Base address of a configuration slot: 1 is slot A, 2 slot B (R497). -/
def slotBase (n : Nat) : Nat := if n = 1 then 0x400 else 0x1C00

/-- Offset and length of the encoded bytes of a slot (R499). -/
def slotLen : Nat := 0xFE0

/-- Pads a list of words to n words, as bytes. -/
def padWords (n : Nat) (ws : List Word) : List (BitVec 8) := leBytes (4 * n) (ws.foldr (fun w a => w.toNat + 2 ^ 32 * a) 0)

/-- Fields of `w` bits packed from bit 0 upward, as one number. -/
def packBits (w : Nat) (vs : List Nat) : Nat := vs.foldr (fun v a => v + 2 ^ w * a) 0

/-- The distinct applied RCG_CFG words, in order of first use (R499). -/
def rcgDict (s : State) : List Word :=
  ((List.range s.build.regions).foldl (fun d r =>
    let v := bellA s (keyRcg r)
    if d.contains v then d else v :: d) []).reverse

/-- The encoded bytes of a slot but for bytes 60 to 63, in two parts (R499; log 12). -/
def slotBytes (s : State) (tick : Nat) : List (BitVec 8) × List (BitVec 8) :=
  let b := s.build
  let dict := rcgDict s
  let head := leBytes 4 (configCrc s).toNat ++ leBytes 4 0 ++ leBytes 8 tick ++ leBytes 4 (hostKeys b).length ++
    leBytes 4 (ballastKeys b).length ++ leBytes 4 dict.length ++ leBytes 4 b.regions ++ leBytes 4 b.flocks ++ leBytes 24 0
  let body := padWords 64 ((hostKeys b).map (bellA s)) ++ padWords 64 ((ballastKeys b).map (bellA s)) ++ padWords 32 dict ++
    leBytes 3200 (packBits 5 ((List.range b.regions).map (fun r => dict.idxOf (bellA s (keyRcg r))))) ++
    leBytes 160 (packBits 4 ((List.range b.flocks).map (fun f => fld (bellA s (keySpareCfg f)) 0 4)))
  (head, body)

/-- The slot the directory names, 0 for none or a bad directory (R497, R500). -/
def dirSlot (ret : Mem) : Nat :=
  if memWord ret 60 = crc32c (memRead ret 0 60) && memWord ret 0 = 0x54455256 then
    let n := memNat ret 8 4
    if n = 1 || n = 2 then n else 0
  else 0

/-- The directory naming a slot (R497). -/
def dirBytes (n : Nat) : List (BitVec 8) :=
  let d := leBytes 4 0x54455256 ++ leBytes 2 2 ++ leBytes 2 0 ++ leBytes 4 n ++ leBytes 48 0
  d ++ leBytes 4 (crc32c d).toNat

/-- The tick CFG_COMMIT returns: the most recent bell's, 0 before the first (R427). -/
def commitTick (s : State) : Nat := if s.fold.started then s.fold.bellTick else 0

/-- CFG_COMMIT's copy: written beside the committed one, then named by the directory; refused where more
than 32 RCG_CFG values are applied (R427, R499). -/
def commitConfig (s : State) : Option State :=
  if 32 < (rcgDict s).length then none
  else
    let n := if dirSlot s.ret = 1 then 2 else 1
    let (h, b) := slotBytes s (commitTick s)
    let ret := memWrite s.ret (slotBase n) (h ++ leBytes 4 (crc32c (h ++ b)).toNat ++ b)
    some { s with ret := memWrite ret 0 (dirBytes n) }

/-- Decodes a slot into the words of R454 (R499). -/
def slotWords (b : Build) (ret : Mem) (base : Nat) : List Word :=
  let idx := memNat ret (base + 0x2C0) 3200
  let fl := memNat ret (base + 0xF40) 160
  (List.range (hostKeys b).length).map (fun k => memWord ret (base + 0x40 + 4 * k)) ++
  (List.range (ballastKeys b).length).map (fun k => memWord ret (base + 0x140 + 4 * k)) ++
  (List.range b.regions).map (fun r => memWord ret (base + 0x240 + 4 * (idx / 2 ^ (5 * r) % 32))) ++
  (List.range b.flocks).map (fun f => BitVec.ofNat 32 (fl / 2 ^ (4 * f) % 16))

/-- The CRC of R454 in a slot's header. -/
def slotCrc (ret : Mem) (base : Nat) : Word := memWord ret base

/-- The committed copy, where the directory names a slot whose CRC is good and whose words have the CRC
of its header (R500 step 1). -/
def committedCopy (s : State) : Option (List Word × Word) :=
  let n := dirSlot s.ret
  if n = 0 then none
  else
    let base := slotBase n
    let ws := slotWords s.build s.ret base
    if memWord s.ret (base + 60) = crc32c (memRead s.ret base 60 ++ memRead s.ret (base + 64) (slotLen - 64)) &&
       crcOfWords ws = slotCrc s.ret base then some (ws, slotCrc s.ret base)
    else none

/-- Writes decoded words as applied values (R500 step 2). -/
def loadApplied (ws : List Word) (s : State) : State :=
  ((configKeys s.build).zip ws).foldl (fun t p =>
    match bellReg t.build p.1 with
    | some (m, d) => { t with cfgA := tabSet t.cfgA p.1 (p.2 &&& m) d, cfgW := tabSet t.cfgW p.1 (p.2 &&& m) d }
    | none => t) s

/-- The restore of R500, at the release of a warm reset or after a fabric power loss. -/
def restoreCommitted (s : State) : State :=
  match committedCopy s with
  | none => raise .cfg 3 s
  | some (ws, crc) =>
    let s := loadApplied ws s
    raise .cfg 2 { nowPut 0x1C crc s with cfg := { s.cfg with refValid := true } }

/-! ### The configuration check -/

/-- The restore engine acts on a drift, once (R457 steps 1 to 3). -/
def driftRestore (s : State) : State :=
  if s.cfg.restoreEn && !s.cfg.restoredOnce then
    let s := { s with cfg := { s.cfg with restoredOnce := true } }
    match committedCopy s with
    | some (ws, crc) =>
      if crc = nowGet s 0x1C then { s with cfg := { s.cfg with restoring := true, restoreAt := elapsed s, copy := ws, portWrote := [] } }
      else raise .cfg 3 s
    | none => raise .cfg 3 s
  else s

/-- CONFIG_PASS_END (R454 to R457): CFG_CRC takes the pass's result, which is compared with CFG_REF. -/
def execConfigPassEnd (s : State) : Host.Outcome State Fault Refusal :=
  if !s.power.fabUp || s.time.total < s.cfg.passFrom + passTicks s.build then .next s
  else
    let crc := configCrc s
    let s := { s with cfg := { s.cfg with crc := crc, passFrom := s.time.total } }
    if s.cfg.checkEn && s.cfg.refValid then
      if crc = nowGet s 0x1C then
        .next { s with cfg := { s.cfg with drift := false, awaitPass := false,
                                           restoredOnce := s.cfg.restoredOnce && !s.cfg.drift } }
      else
        let again := s.cfg.awaitPass
        let s := raise .cfg 0 { s with cfg := { s.cfg with drift := true, awaitPass := false } }
        let s := if again then raise .cfg 1 s else s
        .next (driftRestore s)
    else .next { s with cfg := { s.cfg with awaitPass := false } }

/-- RESTORE_WRITE_DONE (R457 steps 3 and 4): after 8 words a tick the values stand as pending writes, but for those that a
port has written meanwhile. -/
def execRestoreWriteDone (s : State) : Host.Outcome State Fault Refusal :=
  if s.cfg.restoring && decide (s.cfg.restoreAt + passTicks s.build ≤ elapsed s) then
    let ps := ((configKeys s.build).zip s.cfg.copy).filter (fun p => !s.cfg.portWrote.contains p.1)
    let s := { s with cfg := { s.cfg with restoring := false, copy := [], portWrote := [] } }
    let s := ps.foldl (fun t p =>
      let by' := t.cfg.byPort.filter (· ≠ p.1)
      let t := bellPut p.1 p.2 t
      { t with cfg := { t.cfg with byPort := by' } }) s
    .next { s with cfg := { s.cfg with restoreSet := true, restoreAt := elapsed s } }
  else .next s

end Sys2Proof.Machine
end

