-- ==== Sys2Proof/Machine/Start.lean ====
section
/-!
DEFINITION. How a region leaves reset and its generator starts (R112, R155, R158), and how the fabric
domain leaves reset (R500, R501).
-/
namespace Sys2Proof.Machine
open Sys2Proof

/-- A region enters restricted operation: its bit, and RESTRICT (R161). -/
def setRestrict (r : Nat) (s : State) : State :=
  let x := regionOf s r
  if x.restrict then s else raiseAbout .rcg 2 r (setRegion r { x with restrict := true } s)

/-- The band a generator takes when it has none in use: a usable one, else the valid band with the highest
F_MIN + SPAN; restricted where it does not cover the window, NO_BAND where it does not reach f_line
(R158, R161, R162). -/
def firstBand (r : Nat) (row : List Word) (w : Window) (s : State) : Option Nat × State :=
  match bestBand row (fun e => rowUsable e w) (fun e => rowMiss e w) with
  | some b => (some b, s)
  | none =>
    match topBand row with
    | none => (none, s)
    | some b =>
      let e := entryOf row b
      if reachesLine e w then (some b, if isRestricted e w then setRestrict r s else s)
      else (some b, raiseAbout .rcg 3 r (setRestrict r s))

/-- The tick from which no region of a pending first bell keeps running: 64 ticks before it (R112). -/
def nearFirst (s : State) : Bool := s.fold.pending && decide (s.fold.firstTick ≤ s.time.counter + 64)

/-- Region r leaves reset: its generator starts, on the open pace, or parked once the fold sequence runs or
its first bell is near (R112, R155). -/
def leaveReset (r : Nat) (s : State) : State :=
  let x := regionOf s r
  if x.out then s
  else
    match servingGen s r with
    | none => s
    | some g =>
      let gn := genOf s g
      if gn.verified then
        let (b, s) := match gn.band with
          | some b => (some b, s)
          | none => firstBand r gn.copy ((regionWindow s r).times gn.div) s
        let s := setGen g { genOf s g with st := .serving, band := b } s
        let x := regionOf s r
        setRegion r { x with
          out := true, openPace := 0, openTo := s.time.total, c := 0, phase16 := 0, pace16 := 0,
          parked := s.fold.started || nearFirst s, lastEdge := 65536 * s.time.total } s
      else s

/-- Every region whose generator's row is verified leaves reset (R155, R501 step 7). -/
def releaseRegions (s : State) : State := forAll (List.range s.build.regions) leaveReset s

/-- The spares that are LOCKING lock on their shadow lines from here (R280, R494). -/
def spareLocks (s : State) : State :=
  forAll (List.range s.build.flocks) (fun f t => forAll (spareRows t.build f) (fun g t =>
    if (genOf t g).st = .locking then spareLocking false g t else t) t) s

/-! ### Calibration values -/

/-- CAL_CFG.MODE, applied: 1 is temperature-triggered, 0 factory-only (R341, R360). -/
def calMode (s : State) : Bool := bitAt (bellA s 0xA000) 0

/-- Base and size of the calibration image window; its bytes in `data` are the staging copy (R356, R485). -/
def imageBase : Nat := 0xB00000
def imageSize : Nat := 0x4E000

/-- A table of n bytes of a memory. -/
def byteTab (m : Mem) (a n : Nat) : Tab (BitVec 8) := tabulate n 0 (fun k => memGet m (a + k))

/-- The generator, Tally and trim records of an image come into force, the trims as codes to slew to (R355 to R357). -/
def loadImage (d : Mem) (s : State) : State :=
  let s := mapGens (fun g x =>
    let a := imageBase + 0x1000 + 32 * g
    { x with
      cells := byteTab d a 24, socks := if g < s.build.regions then byteTab d (a + 24) 8 else x.socks,
      cellProp := none, sockProp := [] }) s
  let s := forAll [0, 1, 2, 3] (fun u t => setTally u { tallyUnit t u with phases := memRead d (imageBase + 0x80 + 16 * u) 16 } t) s
  let code := fun k => (memGet d (imageBase + 0x40 + k)).setWidth 6
  { s with root := { s.root with
    s0 := { s.root.s0 with pumpTarget := code 1 }, s1 := { s.root.s1 with pumpTarget := code 2 } } }

/-- The aligner records of an image wait for each path to go out of use (R352, R357). -/
def loadTaps (d : Mem) (s : State) : State :=
  let p := fun f k (m : MeshPath) =>
    let ts := memRead d (imageBase + 0x30000 + 128 * (3 * f + k)) 128
    { m with tapsNew := if sameBytes ts m.taps then none else some ts }
  mapFlocks (fun f x => { x with p0 := p f 0 x.p0, p1 := p f 1 x.p1, p2 := if s.build.paths = 3 then p f 2 x.p2 else x.p2 }) s

/-- Factory-only mode comes into force: every value but the band-gap buffer's is the factory value, or the one last restored
(R341). -/
def factoryMode (s : State) : State := loadTaps s.cal.base (loadImage s.cal.base s)

/-- The fabric domain leaves reset: the restore of R500 first where it is due, with factory-only mode
where it brings that, then every region whose row is verified (R341, R500, R501 step 5). -/
def fabricLeaves (s : State) : State :=
  let s := { s with power := { s.power with fabUp := true }, cfg := { s.cfg with passFrom := s.time.total } }
  let s := if s.power.restoreDue then restoreCommitted { s with power := { s.power with restoreDue := false } } else s
  spareLocks (releaseRegions (if calMode s then s else factoryMode s))

end Sys2Proof.Machine
end

