-- ==== Sys2Proof/Machine/Rcg.lean ====
section
/-!
DEFINITION. Regional clock generators and windsocks (R151 to R189): windsock samples and levels, band-change
stops, the region snapshot and configuration window, and band measurement.
-/
namespace Sys2Proof.Machine
open Sys2Proof

/-! ### Windsock samples -/

/-- The number of a level (R182). -/
def levelNum : Level → Nat
  | .none => 0
  | .advise => 1
  | .stretch => 2
  | .hold => 3

/-- The margin code of replica type t in a sample. -/
def marginOf (m : Word) (t : Nat) : Nat := fld m (4 * t) 4

/-- The replica types enabled for region r (R184). -/
def wsTypes (s : State) (r : Nat) : List Nat := (List.range 8).filter (fun t => bitAt (bellA s (keyRcg r)) (8 + t))

/-- A threshold of type t with a HOLD_MARGIN raise (R187, R229). -/
def thresholdOf (s : State) (reg cap raise t : Nat) : Nat :=
  let v := fld (bellA s reg) (4 * t) 4
  if raise = 0 then v else min (v + raise) cap

/-- The level that a sample decides, with a raise in force (R169). -/
def levelOf (s : State) (r : Nat) (m : Word) (raise : Nat) : Level :=
  let ts := wsTypes s r
  if ts.any (fun t => marginOf m t ≤ thresholdOf s 0x4040 13 raise t) then .hold
  else if ts.any (fun t => marginOf m t ≤ thresholdOf s 0x4044 14 raise t) then .stretch
  else if ts.any (fun t => marginOf m t ≤ thresholdOf s 0x4048 15 raise t) then .advise
  else .none

/-- The worst enabled type of a sample: the lowest margin, the lower number on a tie (R168). -/
def worstType (ts : List Nat) (m : Word) : Nat :=
  match ts with
  | [] => 0
  | t :: r => r.foldl (fun a b => if marginOf m b < marginOf m a then b else a) t

/-- W of the class's curve at margin code m (R171, R186). -/
def curveW (s : State) (n m : Nat) : Nat :=
  if m < 8 then fld (bellA s (clsAddr 0x4104 n)) (4 * m) 4 else fld (bellA s (clsAddr 0x4108 n)) (4 * (m - 8)) 4

/-- Windsocks sample: not during a band-change stop, a failover hold or a calibration hold (R169). -/
def samples (s : State) (r : Nat) : Bool :=
  let x := regionOf s r
  x.out && !x.failHold && x.hold.isNone &&
  match servingGen s r with
  | some g => (genOf s g).stopEnd.isNone
  | none => false

/-- The level after a sample: hold lasts until four consecutive samples lie above HLD for every enabled
type (R169, R172).  DESIGN CHOICE (log 135): the fourth of them decides the level that follows it. -/
def nextLevel (s : State) (r : Nat) (m : Word) : Level × Nat :=
  let x := regionOf s r
  let d := levelOf s r m x.raiseR
  if x.level = .hold then
    if d = .hold then (.hold, 0) else if x.above + 1 < 4 then (.hold, x.above + 1) else (d, 0)
  else (d, 0)

/-- The fold offset of the present tick (R95). -/
def foldOffset (s : State) : Nat := s.time.counter - s.fold.bellTick

/-- One windsock sample of region r with its margins, whose warning resolves at16 / 65,536 of a tick after the last
delivered edge: level, counters, the owed stretch and the overrides
(R168 to R175, R182, R183, R233, R244, R266). -/
def sampleRegion (r : Nat) (m : Word) (at16 : Nat) (s : State) : State :=
  let x := regionOf s r
  let ts := wsTypes s r
  let w := worstType ts m
  let mg := marginOf m w
  let (lv, ab) := nextLevel s r m
  let onset := x.level = .none && lv ≠ .none
  let holdOn := x.level ≠ .hold && lv = .hold
  let strOn := levelNum x.level < 2 && lv = .stretch
  let was := stateCode s r
  let byFcst := x.raiseR ≠ 0 && levelNum (levelOf s r m 0) < levelNum lv
  let owe := lv = .stretch && x.level ≠ .hold && !x.parked
  let cw := curveW s (classOfRegion s r) mg
  let x' := { x with
    level := lv, above := ab, margin := mg,
    wsType := if holdOn || strOn then w else x.wsType,
    advOn := if onset then bump16 x.advOn 1 else x.advOn,
    holdOn := if holdOn then bump16 x.holdOn 1 else x.holdOn,
    owed := if owe then x.owed ++ [{ at16 := 65536 * s.time.total + at16, eighths := cw, byFcst := byFcst }] else x.owed,
    heldByFcst := if holdOn then byFcst else x.heldByFcst,
    onsets := if onset && s.fold.started then x.onsets ++ [(flockOffset s (r / 16), false)] else x.onsets }
  let s := setRegion r x' s
  let s := if (holdOn || strOn) && was = 1 then { s with zones := { s.zones with ovr1 := bump s.zones.ovr1 1 } } else s
  if holdOn then raiseAbout .rcg 4 r s else s

/-- WINDSOCK_STRETCH (R169, R171, R173, R175): a sample that decides stretch level; its warning resolves at16 / 65,536
of a tick after the last delivered edge. -/
def execWindsockStretch (r : Nat) (sample : Sample) (s : State) : Host.Outcome State Fault Refusal :=
  if isRegion s r then
    .next (if samples s r && levelOf s r sample.margins (regionOf s r).raiseR = .stretch then
             sampleRegion r sample.margins sample.at16 s else s)
  else .fault .noSuchUnit

/-- WINDSOCK_HOLD (R169, R172, R173, R175): a sample at or below HLD for some enabled type. -/
def execWindsockHold (r : Nat) (m : Word) (s : State) : Host.Outcome State Fault Refusal :=
  if isRegion s r then
    .next (if samples s r && levelOf s r m (regionOf s r).raiseR = .hold then sampleRegion r m 0 s else s)
  else .fault .noSuchUnit

/-- HOLD_RELEASE (R172): a sample above HLD for every enabled type; the fourth in a row ends the hold level.
Outside hold level it is a sample below stretch level, which ends a stretch or advise (log 15). -/
def execHoldRelease (r : Nat) (m : Word) (s : State) : Host.Outcome State Fault Refusal :=
  if isRegion s r then
    let lv := levelOf s r m (regionOf s r).raiseR
    let ok := if (regionOf s r).level = .hold then lv ≠ .hold else levelNum lv < 2
    .next (if samples s r && ok then sampleRegion r m 0 s else s)
  else .fault .noSuchUnit

/-- ADVISE_ONSET (R174, R244): a sample whose level rises from none to advise. -/
def execAdviseOnset (r : Nat) (m : Word) (s : State) : Host.Outcome State Fault Refusal :=
  if isRegion s r then
    .next (if samples s r && (regionOf s r).level = .none && levelOf s r m (regionOf s r).raiseR = .advise then
             sampleRegion r m 0 s else s)
  else .fault .noSuchUnit

/-! ### Band changes -/

/-- A generator row of the build (R153). -/
def isGen (s : State) (g : Nat) : Bool :=
  decide (g < s.build.regions) ||
  (decide (5120 ≤ g) && decide ((g - 5120) / 2 < s.build.flocks) && decide ((g - 5120) % 2 < s.build.spares))

/-- The region that a generator serves. -/
def regionOfGen (s : State) (g : Nat) : Option Nat :=
  if g < s.build.regions then (if servingGen s g = some g then some g else none)
  else if (genOf s g).st = .serving then some (16 * rowFlock s.build g + (genOf s g).slot) else none

/-- BAND_CHANGE_STOP_END (R160, R162, R280, R282): after 150 ticks the generator runs on its new band; a
spare's shadow lock counts from here, a change in the grace tail is that bell's, and an uncovered takeover switches the multiplexer (R287, R288). -/
def execBandChangeStopEnd (g : Nat) (s : State) : Host.Outcome State Fault Refusal :=
  if isGen s g then
    let x := genOf s g
    match x.stopEnd with
    | some t =>
      if t ≤ s.time.total then
        let b := match x.planned with
          | some b => some b
          | none => x.band
        let s := setGen g { x with
          band := b, div := if x.planned.isSome then x.plannedDiv else x.div, planned := none, stopEnd := none,
          lockFrom := if x.st = .locking then s.time.total else x.lockFrom } s
        match regionOfGen s g with
        | some r =>
          let y := regionOf s r
          let s := setRegion r { y with
            bands := if x.planned.isSome && decide (y.switchTo ≠ some g) then bump16 y.bands 1 else y.bands,
            bandFold := if x.planned.isSome && s.fold.tail then some s.fold.foldNo else y.bandFold,
            failHold := y.failHold && !y.parked, mux := if y.switchTo = some g then muxCode s r g else y.mux,
            switchTo := if y.switchTo = some g then none else y.switchTo } s
          .next (if x.planned.isSome then retune r s else s)
        | none => .next s
      else .next s
    | none => .next s
  else .fault .noSuchUnit

/-! ### The region window -/

/-- RCG_LIVE0 to RCG_LIVE3 and RCG_CNT0 to RCG_CNT7 of a region (R182, R183). -/
def regionWords (s : State) (r : Nat) : List Word :=
  let x := regionOf s r
  let g := match servingGen s r with
    | some g => genOf s g
    | none => {}
  [ packWord [(0, 20, x.c), (20, 3, stateCode s r), (24, 2, levelNum x.level)],
    packWord [(0, 16, satAt 65535 (lagNow x)), (16, 16, satAt 65535 x.floor16)],
    packWord [(0, 13, x.freq), (13, 5, (selBand g).getD 0), (18, 3, x.wsType), (21, 4, x.margin), (25, 1, b2n x.restrict),
              (26, 1, b2n (g.planned.isSome || g.stopEnd.isSome)), (27, 1, b2n g.rowOk), (28, 2, x.mux.toNat)],
    packWord [(0, 16, satAt 65535 x.lagMax), (16, 16, satAt 65535 x.strFold)],
    x.strEdges, x.strEighths, x.holdEdges,
    packWord [(0, 16, x.advOn.toNat), (16, 16, x.holdOn.toNat)],
    x.reelTicks, x.heldTicks,
    packWord [(0, 16, x.restrictTicks / 256), (16, 16, x.gate.toNat)],
    packWord [(0, 16, x.bands.toNat), (16, 16, x.forcedStops.toNat)] ]

/-- A write of RCG_SEL: REGION is selected, and a new TAG takes the snapshot (R179, R181, R453). -/
def writeRcgSel (p : Port) (v : Word) (s : State) : State :=
  let s := nowPut (portKey p 0x4000) v s
  let tag := BitVec.ofNat 8 (fld v 24 8)
  let r := fld v 0 13
  if tag = (snapOf s 2 p).tag then s
  else snapPut 2 p { valid := true, tag := tag, index := r,
                     words := if r < s.build.regions then regionWords s r else List.replicate 12 0 } s

/-- RCG_SEL (R179, R181 to R183). -/
def execRcgSel (w : Wr) (v : Word) (s : State) : Host.Outcome State Fault Refusal :=
  .next (regWrite w 0x4000 v [] (writeRcgSel w.port v) s)

/-- A write of RCG_CFG: the region r that the port's RCG_SEL names, buffered to its bell (R180, R184, R453). -/
def writeRcgCfg (r : Nat) (v : Word) (s : State) : State :=
  if r < s.build.regions then bellPut (keyRcg r) v s else raise .cfg 7 s

/-- RCG_CFG_WRITE (R178, R180, R184, R453). -/
def execRcgCfgWrite (w : Wr) (v : Word) (s : State) : Host.Outcome State Fault Refusal :=
  .next (regWrite w 0x400C v [selRegion s w.port] (writeRcgCfg (selRegion s w.port) v) s)

/-! ### Band rows -/

/-- The address of generator row g in the data-port window (R153, R485). -/
def rowAddr (g : Nat) : Nat := 0x800000 + 128 * g

/-- The 24 entries of a row in the band table. -/
def rowWords (s : State) (g : Nat) : List Word := (List.range 24).map (fun b => memWord s.data (rowAddr g + 4 * b))

/-- R154: some entry is valid, every valid one lies in range, and the valid centres rise strictly. -/
def rowVerifies (row : List Word) : Bool :=
  let vs := row.filter bValid
  let centre := fun e => 2 * bFmin e + bSpan e
  !vs.isEmpty && vs.all (fun e => 700 ≤ bFmin e && 100 ≤ bSpan e && bFmin e + bSpan e ≤ 4400) &&
  (vs.zip (vs.drop 1)).all (fun p => centre p.1 < centre p.2)

/-- A generator serves a region, as R157 has it. -/
def isServing (s : State) (g : Nat) : Bool :=
  if g < s.build.regions then inContract s g && servingGen s g = some g
  else (genOf s g).st = .serving

/-- A measurement starts on these rows (R156, R157). -/
def startBmeas (rows : List Nat) (tag : BitVec 8) (s : State) : State :=
  let s := { s with bmStatus := 3, bmBusy := true, bmTag := tag, bmRows := rows }
  let s := forAll rows (fun g t =>
    let st := if (genOf t g).calFrom.isSome then .locking else (genOf t g).st
    setGen g { genOf t g with measFrom := some st, measAt := elapsed t, measBands := 0, st := .measuring, calFrom := none } t) s
  forAll ((rows.filter (fun g => decide (s.build.regions ≤ g))).map (rowFlock s.build)).dedup spareChanged s

/-- A write of RCG_BMEAS (R156, R157, R188).  DESIGN CHOICE (log 119): a request that names a row the build lacks is accepted, measures
nothing, and ends with RCG_BMEAS_DONE. -/
def writeRcgBmeas (v : Word) (s : State) : State :=
  let s := nowPut 0x404C v s
  let tag := BitVec.ofNat 8 (fld v 24 8)
  let g := fld v 0 13
  if tag = s.bmTag then s
  else if s.bmBusy then { s with bmStatus := 2, bmTag := tag }
  else if bitAt v 16 then
    startBmeas ((allGens s.build).filter (fun g => !isServing s g)) tag s
  else if !isGen s g then startBmeas [] tag s
  else if isServing s g then { s with bmStatus := 1, bmTag := tag }
  else startBmeas [g] tag s

/-- RCG_BMEAS (R156, R157, R188). -/
def execRcgBmeas (w : Wr) (v : Word) (s : State) : Host.Outcome State Fault Refusal :=
  .next (regWrite w 0x404C v [] (writeRcgBmeas v) s)

/-- The entry that two counts of a band give: F_MIN and SPAN in whole MHz, VALID where SPAN is 100 or more
(R156; a count over 512 ticks is COUNT × 1000 / 1024 MHz; log 16). -/
def measuredEntry (c0 c1 : Nat) : Word :=
  let span := (c1 - c0) * 1000 / 1024
  packWord [(0, 12, c0 * 1000 / 1024), (12, 11, span), (31, 1, b2n (decide (100 ≤ span)))]

/-- The ticks of a measurement: 24 bands of 1,524 (R156). -/
def bmeasTicks : Nat := 24 * 1524

/-- The bands of generator g whose measurement has ended (R156). -/
def bandsOver (s : State) (x : Gen) : Nat := min 24 ((elapsed s - x.measAt) / 1524)

/-- Writes the entries of the bands measured since the last write, as far as their counts are given; at the end of the measurement
all that are left, a band without counts with those of 0 (R156). -/
def recordBands (ends : Bool) (counts : List (Nat × List (Nat × Nat))) (g : Nat) (s : State) : State :=
  let x := genOf s g
  let cs := ((counts.find? (fun e => e.1 = g)).map Prod.snd).getD []
  let n := if ends then 24 else min (bandsOver s x) cs.length
  if n ≤ x.measBands then s
  else
    let bytes := ((List.range n).drop x.measBands).flatMap (fun b =>
      let p := cs.getD b (0, 0)
      leBytes 4 (measuredEntry p.1 p.2).toNat)
    let from' := if x.rowWroteAt = some (elapsed s) then min x.rowWrote.1 x.measBands else x.measBands
    let to' := if x.rowWroteAt = some (elapsed s) then max x.rowWrote.2 n else n
    setGen g { x with measBands := n, rowOk := false, rowWroteAt := some (elapsed s), rowWrote := (from', to') }
      { s with data := memWrite s.data (rowAddr g + 4 * x.measBands) bytes }

/-- The end of a measurement of generator g: its entries stand, ROW_OK is clear, and a spare must relock (R156, R157). -/
def endBmeas (counts : List (Nat × List (Nat × Nat))) (g : Nat) (s : State) : State :=
  let s := recordBands true counts g s
  let x := genOf s g
  let s := setGen g { x with rowOk := false, st := x.measFrom.getD x.st, measFrom := none } s
  if s.build.regions ≤ g && (x.measFrom = some .free || x.measFrom = some .locking) then spareLocking false g s else s

/-- 36,576 ticks have passed since the start of the running measurement (R156). -/
def bmeasOver (s : State) : Bool :=
  s.bmRows.all (fun g => (genOf s g).measFrom.isNone || decide ((genOf s g).measAt + bmeasTicks ≤ elapsed s))

/-- RCG_BMEAS_DONE (R156, R157): the counts of bands measured so far give their entries; 36,576 ticks after its start the
measurement ends (log 86). -/
def execRcgBmeasDone (counts : List (Nat × List (Nat × Nat))) (s : State) : Host.Outcome State Fault Refusal :=
  if !s.bmBusy then .next s
  else if bmeasOver s then
    let rows := s.bmRows
    let s := { s with bmBusy := false, bmStatus := if s.bmStatus = 2 then 2 else 0, bmRows := [] }
    let s := forAll rows (endBmeas counts) s
    .next (forAll ((rows.filter (fun g => decide (s.build.regions ≤ g))).map (rowFlock s.build)).dedup spareChanged s)
  else .next (forAll (s.bmRows.filter (fun g => (genOf s g).measFrom.isSome)) (recordBands false counts) s)

end Sys2Proof.Machine
end

