-- ==== Sys2Proof/Machine/Xing.lean ====
section
/-!
DEFINITION. Tethered crossings (R118, R122, R190 to R221): slip, tether stops and interlocks, arming and
ratios, calibration and the latency manifest, audit mode, and the crossing registers.
-/
namespace Sys2Proof.Machine
open Sys2Proof

/-! ### Slip and stops -/

/-- A crossing of the build (R29). -/
def isXing (s : State) (x : Nat) : Bool := decide (x < s.build.xings)

/-- The slip: reader beats less writer beats (R194). -/
def slipOf (v : Xing) : Int := (v.rBeats : Int) - v.wBeats


/-- The storage depth N in entries (R202). -/
def depthN (d : BitVec 2) : Nat := 8 * 2 ^ d.toNat

/-! ### Beats -/

/-- The next edge of a region that has issued c of its K, on a crossing whose smaller K is kMin, is a beat (R190). -/
def isBeat (c k kMin : Nat) : Bool := decide (c * kMin / k < (c + 1) * kMin / k)

/-- Region r's next edge is a beat on crossing x. -/
def beatOn (s : State) (r x : Nat) : Bool :=
  let h := hookOf s x
  let kw := kNow s (classOfRegion s h.writer)
  let kr := kNow s (classOfRegion s h.reader)
  isBeat (regionOf s r).c (kNow s (classOfRegion s r)) (min kw kr)

/-- xc_wr_en: the writer's next edge is a beat and writes the storage (R193). -/
def wrEn (s : State) (x : Nat) : Bool := (xingOf s x).armed && beatOn s (hookOf s x).writer x

/-- xc_wr_addr: the writer's n-th beat writes address (n − 1) mod N (R193). -/
def wrAddr (v : Xing) : Nat := v.wBeats % depthN v.depth

/-- The reader's next beat is a fill beat, one of its first L (R193). -/
def fillBeat (v : Xing) : Bool := decide (v.rBeats < v.lat)

/-- xc_rd_en: the reader's next edge is a beat that reads (R193). -/
def rdEn (s : State) (x : Nat) : Bool := (xingOf s x).armed && !fillBeat (xingOf s x) && beatOn s (hookOf s x).reader x

/-- xc_rd_addr: the reader's b-th beat, b > L, reads address (b − 1 − L) mod N (R193). -/
def rdAddr (v : Xing) : Nat := (v.rBeats - v.lat) % depthN v.depth

/-- xc_rd_fill: the reader's beat carries no data, while it is one of the first L and while the crossing is not armed
(R193, R211). -/
def rdFill (v : Xing) : Bool := !v.armed || fillBeat v

/-- xc_st_mark: low while the fabric domain is in reset; while the crossings are measured the measurement's value, `launch` at the
write that starts the Tally; else xc_wr_mark (R199, R521). -/
def stMark (s : State) (launch wrMark : Bool) : Bool := s.power.fabUp && (if s.xing.calRun then launch else wrMark)

/-! ### Stops -/

/-- A tether stop can act on a region: it is neither PARKED nor EXCLUDED (R122). -/
def stoppable (s : State) (r : Nat) : Bool := stateCode s r ≠ 3 && stateCode s r ≠ 5

/-- Counts a stop on a crossing: XING_CNT0.TSTOPS and FOLD_STAT7.TSTOPS (R122, R137, R198). -/
def countStop (x : Nat) (v : Xing) (s : State) : State :=
  let s := setXing x { v with tstops := bump v.tstops 1 } s
  { s with fold := { s.fold with tstops := bump s.fold.tstops 1 } }

/-- TETHER_STOP (R119, R122, R194): the slip of an armed crossing exceeds T − g, and the edges of the side
that is ahead are withheld. -/
def execTetherStop (x : Nat) (s : State) : Host.Outcome State Fault Refusal :=
  if isXing s x then
    let v := xingOf s x
    let h := hookOf s x
    if v.armed && bandOf s < (slipOf v).natAbs then
      if 0 < slipOf v then
        .next (if stoppable s h.reader && !v.stopR then countStop x { v with stopR := true } s else s)
      else .next (if stoppable s h.writer && !v.stopW then countStop x { v with stopW := true } s else s)
    else .next s
  else .fault .noSuchUnit

/-- The reader's next beat must wait at an instant, in 1/65,536 tick of elapsed time: the word of the writer's
beat b − L is not launched, or was launched less than t_x before (R196; log 17). -/
def availBlocks (v : Xing) (now : Nat) : Bool :=
  decide (v.lat < v.rBeats + 1) &&
  (decide (v.wBeats < v.rBeats + 1 - v.lat) ||
   match v.launch[v.wBeats - (v.rBeats + 1 - v.lat)]? with
   | some t => decide (now < t + 256 * v.tx)
   | none => false)

/-- The writer's next beat must wait for the reader to take the word its entry holds (R197). -/
def roomBlocks (v : Xing) : Bool :=
  decide (depthN v.depth < v.wBeats + 1) && decide (v.rBeats + depthN v.depth < v.wBeats + 1 + v.lat)

/-- AVAIL_INTERLOCK (R196, R198). -/
def execAvailInterlock (x : Nat) (s : State) : Host.Outcome State Fault Refusal :=
  if isXing s x then
    let v := xingOf s x
    .next (if v.armed && !v.avail && stoppable s (hookOf s x).reader && beatOn s (hookOf s x).reader x &&
              availBlocks v (65536 * s.time.total) then
             countStop x { v with avail := true, availCnt := bump16 v.availCnt 1 } s else s)
  else .fault .noSuchUnit

/-- ROOM_STOP (R197, R198, R217). -/
def execRoomStop (x : Nat) (s : State) : Host.Outcome State Fault Refusal :=
  if isXing s x then
    let v := xingOf s x
    .next (if v.armed && !v.room && stoppable s (hookOf s x).writer && beatOn s (hookOf s x).writer x && roomBlocks v then
             raiseAbout .xing 7 x (countStop x { v with room := true, roomCnt := bump16 v.roomCnt 1 } s) else s)
  else .fault .noSuchUnit

/-- The end of the running tick, in 1/65,536 tick of elapsed time: the next edge is 1 tick away, in bypass 5. -/
def tickEnd (s : State) : Nat := 65536 * (s.time.total + (if s.root.bypass then 5 else 1))

/-- TETHER_STOP_RELEASE (R122, R198): each stop whose condition has gone, or for an availability stop goes within the running tick,
releases its side; the edge itself waits for the instant (R196). -/
def execTetherStopRelease (x : Nat) (s : State) : Host.Outcome State Fault Refusal :=
  if isXing s x then
    let v := xingOf s x
    let far := bandOf s < (slipOf v).natAbs
    .next (setXing x { v with
      stopR := v.stopR && far && decide (0 < slipOf v), stopW := v.stopW && far && decide (slipOf v < 0),
      avail := v.avail && availBlocks v (tickEnd s), room := v.room && roomBlocks v } s)
  else .fault .noSuchUnit

/-! ### Beats, arming and ratios -/

/-- The step of a side: its K over the smaller K where that is an integer, else 0 (R190, R192). -/
def stepOf (k kMin : Nat) : Nat := if kMin = 0 then 0 else if k % kMin = 0 then k / kMin else 0

/-- The steps of writer and reader at the Ks that the classes run now. -/
def stepsNow (s : State) (x : Nat) : Nat × Nat :=
  let h := hookOf s x
  let kw := kNow s (classOfRegion s h.writer)
  let kr := kNow s (classOfRegion s h.reader)
  (stepOf kw (min kw kr), stepOf kr (min kw kr))

/-- The Ks of a crossing's writer and reader. -/
def ksOf (s : State) (x : Nat) : Nat × Nat :=
  (kNow s (classOfRegion s (hookOf s x).writer), kNow s (classOfRegion s (hookOf s x).reader))

/-- The bell changes the crossing's ratio from what it was in `was` (R192). -/
def ratioChanged (was s : State) (x : Nat) : Bool := (ksOf was x).1 * (ksOf s x).2 ≠ (ksOf s x).1 * (ksOf was x).2

/-- RATIO_OK is evaluated at a bell; RATIO_BREAK where the ratio becomes another than the recorded one (R192, R213).
`was` is the state before the bell. -/
def ratioCheck (was : State) (x : Nat) (s : State) : State :=
  let v := xingOf s x
  if v.enabled then
    let (a, b) := stepsNow s x
    let ok := a = v.wRatio && b = v.rRatio && a ≠ 0 && b ≠ 0
    let s := setXing x { v with ratioOk := ok } s
    if !ok && (v.ratioOk || ratioChanged was s x) then raiseAbout .xing 2 x s else s
  else s

/-- A crossing arms with both beat counters at 0 (R193). -/
def armXing (x : Nat) (s : State) : State :=
  let v := xingOf s x
  if v.enabled then
    setXing x { v with
      armed := true, disarmed := false, wBeats := 0, rBeats := 0, launch := [], slipMax := 0,
      pastW := false, pastR := false, stopW := false, stopR := false, avail := false, room := false } s
  else s

/-- At the first bell every enabled crossing whose regions are both in use arms (R193, R211, R216). -/
def armAll (s : State) : State :=
  let s := forAll (listedXings s) (fun x t =>
    if inContract t (hookOf t x).writer && inContract t (hookOf t x).reader then armXing x t else t) s
  { s with xing := { s.xing with armed := s.xing.manifestReady } }

/-- At a bell that re-admits region r its crossings arm, where both regions are in use (R193, R211). -/
def rearm (r : Nat) (s : State) : State :=
  forAll (crossingsOf s r) (fun x t =>
    if inContract t (hookOf t x).writer && inContract t (hookOf t x).reader && s.xing.armed then armXing x t else t) s

/-! ### Calibration -/

/-- D less its compare stage, for one side: the ceiling of t_x × (1 + TMARGIN / 100) × the side's fastest
beat rate, in exact integers (R199, R200). -/
def transportBeats (tx tm nom spr k kMin : Nat) : Nat := ceilDiv (tx * (100 + tm) * nom * (200 + spr) * kMin) (1280000000 * k)

/-- The classes' K, NOM and SPRINT now (R200). -/
def classVals (s : State) : List (Nat × Nat × Nat) :=
  (List.range 4).map (fun n => if n < s.build.classes then (kNow s n, nomOf s n, sprintOf s n) else (0, 0, 0))

/-- The crossings with storage attached, which the calibration measures (R199, R205). -/
def attachedXings (s : State) : List Nat :=
  (s.hook.filter (fun e => e.2.attached && decide (e.1 < s.build.xings))).map Prod.fst

/-- The classes of each crossing's writer and reader now (R200). -/
def classSides (s : State) : List (Nat × Nat × Nat) :=
  (attachedXings s).map (fun x => (x, classOfRegion s (hookOf s x).writer, classOfRegion s (hookOf s x).reader))

/-- The classes of crossing x's sides as captured at the start of calibration (R200). -/
def sidesOf (s : State) (x : Nat) : Nat × Nat :=
  match s.xing.calCls.find? (fun e => e.1 = x) with
  | some e => e.2
  | none => (classOfRegion s (hookOf s x).writer, classOfRegion s (hookOf s x).reader)

/-- TMARGIN of XING_CFG (R215). -/
def tMargin (s : State) : Nat := fld (nowGet s 0x501C) 0 6

/-- 450 ticks in units of 15.625 ps, within which a stop must arrive (R199). -/
def txMax : Nat := 450 * 256

/-- t_x of a crossing's results: the largest of the 16; 0 where there are not 16, or one is 0 or did not arrive within
450 ticks of its start (R199). -/
def transportOf (results : List Nat) : Nat :=
  if results.length = 16 && results.all (fun t => 1 ≤ t && t ≤ txMax) then results.foldl max 0 else 0

/-- The measurement of crossing x with its results (R199 to R203, R206).  DESIGN CHOICE (log 139): where the recorded ratio is no
integer, RATIO_OK is 0 from the calibration on. -/
def measureXing (s : State) (x : Nat) (results : List Nat) : Xing :=
  let h := hookOf s x
  let o := xingOf s x
  let tx := transportOf results
  let (kw, nw, sw) := s.xing.calVals.getD (sidesOf s x).1 (0, 0, 0)
  let (kr, nr, sr) := s.xing.calVals.getD (sidesOf s x).2 (0, 0, 0)
  let km := min kw kr
  let pin := (memGet s.data (0x900000 + x)).toNat
  let valid := 4 ≤ pin && pin ≤ 40
  let v : Xing := { depth := o.depth, listed := true, tstops := o.tstops, availCnt := o.availCnt, roomCnt := o.roomCnt,
                    matchCnt := o.matchCnt, mismatchCnt := o.mismatchCnt, wRatio := stepOf kw km, rRatio := stepOf kr km,
                    pin := if valid then BitVec.ofNat 8 pin else 0 }
  if tx = 0 || !(regionOf s h.writer).out || !(regionOf s h.reader).out then { v with nomeas := true }
  else
    let d := 1 + max (transportBeats tx (tMargin s) nw sw kw km) (transportBeats tx (tMargin s) nr sr kr km)
    let v := { v with dBeats := d, tx := tx }
    if 10 < d then { v with long := true }
    else
      let l := d + bandOf s
      let lat := if valid && l ≤ pin then pin else l
      { v with
        enabled := true, lat := lat, pinned := valid && decide (l ≤ pin), pinExceeded := valid && decide (pin < l),
        tight := decide (depthN v.depth < lat + tetherT s),
        ratioOk := stepOf kw km ≠ 0 && stepOf kr km ≠ 0 }

/-- WSTEP and RSTEP (R206). -/
def stepCode (n : Nat) : Nat := if n = 1 then 0 else if n = 2 then 1 else if n = 4 then 2 else 3

/-- A manifest entry (R206). -/
def manifestEntry (s : State) (x : Nat) : List (BitVec 8) :=
  let v := xingOf s x
  let h := hookOf s x
  let w0 := x % 2 ^ 15 + 2 ^ 15 * (h.writer % 2 ^ 13) + 2 ^ 28 * (h.reader % 2 ^ 13) + 2 ^ 41 * v.lat + 2 ^ 47 * min v.dBeats 15 +
    2 ^ 51 * v.depth.toNat + 2 ^ 53 * stepCode v.wRatio + 2 ^ 55 * stepCode v.rRatio + 2 ^ 57 * b2n v.enabled +
    2 ^ 58 * b2n v.tight + 2 ^ 59 * b2n v.long + 2 ^ 60 * b2n v.pinned + 2 ^ 61 * b2n v.pinExceeded + 2 ^ 62 * b2n v.nomeas
  leBytes 8 w0 ++ leBytes 8 (v.tx % 2 ^ 20 + 2 ^ 20 * v.pin.toNat)

/-- The manifest: header and entries (R205, R206). -/
def manifestBytes (s : State) (xs : List Nat) (tick hw fw : Nat) : List (BitVec 8) :=
  let any := fun (p : Xing → Bool) => b2n (xs.any (fun x => p (xingOf s x)))
  let flags := any (·.pinned) + 2 * any (fun v => v.nomeas || v.long) + 4 * any (·.tight) + 8 * any (·.pinExceeded)
  let vals := fun k => s.xing.calVals.getD k (0, 0, 0)
  let head := leBytes 4 0x464D5856 ++ leBytes 2 2 ++ leBytes 2 0 ++ leBytes 4 xs.length ++ leBytes 1 (tetherT s) ++
    leBytes 1 (guardG s) ++ leBytes 1 (tMargin s) ++ leBytes 1 flags ++ leBytes 8 tick ++ leBytes 4 hw ++ leBytes 4 fw ++
    (List.range 4).flatMap (fun k => leBytes 1 (vals k).2.2) ++ (List.range 4).flatMap (fun k => leBytes 2 ((vals k).1 / 16)) ++ leBytes 16 0
  let entries := xs.flatMap (manifestEntry s)
  head ++ leBytes 4 (crc32c (head ++ entries)).toNat ++ entries

/-- Pin-table beats of the tick in which calibration starts are ignored, with PIN_LATE (R213). -/
def dropPins (s : State) : State :=
  let bs := freshIn s (elapsed s) 0x900000 0x6000
  raiseIf (!bs.isEmpty) .xing 5 { s with data := restoreBytes bs s.data }

/-- Starts a calibration: T, g, TMARGIN and the class values are captured and every crossing is disabled
until it is measured (R118, R200, R208, R213, R425, R503). -/
def startXcal (s : State) : State :=
  let s := dropPins s
  { s with xing := { s.xing with
      calRun := true, manifestReady := false, captured := true, calVals := classVals s, calCls := classSides s,
      tab := s.xing.tab.map (fun e => (e.1, { e.2 with enabled := false, armed := false })) } }

/-- Ends a calibration with its measurements: latencies, flags, events and the manifest (R199 to R206,
R217).  DESIGN CHOICE (log 138): an event that names no one crossing leaves XING_EVENT_XING as it was. -/
def finishXcal (txs : List (Nat × List Nat)) (hw fw : Nat) (s : State) : State :=
  let xs := attachedXings s
  let txOf := fun x => match txs.find? (fun e => e.1 = x) with
    | some e => e.2
    | none => []
  let s := forAll xs (fun x t =>
    let v := measureXing t x (txOf x)
    let pin := (memGet t.data (0x900000 + x)).toNat
    let t := setXing x v t
    let t := if v.pinExceeded then raiseAbout .xing 4 x t else t
    if pin ≠ 0 && !(4 ≤ pin && pin ≤ 40) then raiseAbout .xing 8 x t else t) s
  let m := manifestBytes s xs s.time.counter hw fw
  let s := { s with xing := { s.xing with calRun := false, manifestReady := true, calTick := s.time.counter, readyAt := some (elapsed s), manifest := m } }
  let bad := xs.any (fun x => (xingOf s x).nomeas || (xingOf s x).long)
  let s := raise .xing 0 s
  if bad then raise .xing 1 s else s

/-! ### Crossing registers -/

/-- XING_LIVE0, XING_LIVE1 and XING_CNT0 to XING_CNT2 of a crossing (R219, R220). -/
def xingWords (s : State) (x : Nat) : List Word :=
  let v := xingOf s x
  let st := if !v.enabled then 0 else if v.disarmed then 4 else if !v.armed then 1 else if v.rBeats < v.lat then 2 else 3
  [ packWord [(0, 8, v.wBeats), (8, 8, v.rBeats), (16, 8, intField 8 (slipOf v)), (24, 7, v.wBeats - (v.rBeats - v.lat))],
    packWord [(0, 6, v.lat), (6, 2, v.depth.toNat), (8, 3, st), (11, 1, b2n v.ratioOk), (12, 1, b2n v.tight), (16, 8, v.slipMax)],
    v.tstops,
    packWord [(0, 16, v.availCnt.toNat), (16, 16, v.roomCnt.toNat)],
    packWord [(0, 16, v.matchCnt.toNat), (16, 16, v.mismatchCnt.toNat)] ]

/-- A write of XING_SEL: a new TAG takes the snapshot (R214, R218). -/
def writeXingSel (p : Port) (v : Word) (s : State) : State :=
  let s := nowPut (portKey p 0x5000) v s
  let tag := BitVec.ofNat 8 (fld v 24 8)
  let x := fld v 0 15
  if tag = (snapOf s 3 p).tag then s
  else snapPut 3 p { valid := true, tag := tag, index := x,
                     words := if x < s.build.xings then xingWords s x else List.replicate 5 0 } s

/-- XING_SEL (R214, R218 to R220). -/
def execXingSel (w : Wr) (v : Word) (s : State) : Host.Outcome State Fault Refusal :=
  .next (regWrite w 0x5000 v [] (writeXingSel w.port v) s)

/-- A write of XING_CFG (R215): CFG_LATE after capture, CFG_RANGE beyond 50. -/
def writeXingCfg (v : Word) (s : State) : State :=
  if s.xing.captured then raise .xing 6 s
  else if 50 < fld v 0 6 then raise .xing 9 s
  else nowPut 0x501C v s

/-- XING_CFG_WRITE (R215). -/
def execXingCfgWrite (w : Wr) (v : Word) (s : State) : Host.Outcome State Fault Refusal :=
  .next (regWrite w 0x501C v [] (writeXingCfg v) s)

/-- A write of FOLD_TETHER (R118, R139): ignored with TETHER_REJECT after capture or outside R118's ranges. -/
def writeFoldTether (v : Word) (s : State) : State :=
  let t := fld v 0 6
  let g := fld v 8 4
  if s.xing.captured || !(4 ≤ t && t ≤ 32 && 2 ≤ g && g ≤ 8 && g + 2 ≤ t) then raise .fold 6 s
  else nowPut 0x3004 v s

/-- FOLD_TETHER_WRITE (R118, R139). -/
def execFoldTetherWrite (w : Wr) (v : Word) (s : State) : Host.Outcome State Fault Refusal :=
  .next (regWrite w 0x3004 v [] (writeFoldTether v) s)

/-- A write of XING_AUDIT: EN, and CLEAR of XING_AUDIT_STAT (R221). -/
def writeXingAudit (v : Word) (s : State) : State :=
  let s := nowPut 0x5030 v s
  if bitAt v 1 then
    { s with xing := { s.xing with auditHit := false, auditUnpaired := false, auditOffset := 0, auditXing := 0 } }
  else s

/-- AUDIT_EN_WRITE (R209, R221). -/
def execAuditEnWrite (w : Wr) (v : Word) (s : State) : Host.Outcome State Fault Refusal :=
  .next (regWrite w 0x5030 v [] (writeXingAudit v) s)

/-- AUDIT_CLEAR (R209, R221). -/
def execAuditClear (w : Wr) (v : Word) (s : State) : Host.Outcome State Fault Refusal :=
  .next (regWrite w 0x5030 v [] (writeXingAudit v) s)

/-- Counts an audit mismatch, the first since the last clear held in XING_AUDIT_STAT (R209, R221). -/
def auditFails (x n : Nat) (unpaired : Bool) (off : Int) (s : State) : State :=
  let v := xingOf s x
  let s := setXing x { v with mismatchCnt := bump16 v.mismatchCnt n } s
  let s := if s.xing.auditHit then s
    else { s with xing := { s.xing with
        auditHit := true, auditUnpaired := unpaired, auditOffset := BitVec.ofNat 8 (intField 8 off), auditXing := BitVec.ofNat 15 x } }
  raiseAbout .xing 3 x s

/-- AUDIT_MISMATCH (R209): on an armed crossing, a mark read at a reader beat outside the fill beats and an expect within 8 beats,
with none of either `between` them, pair, and offset 0 is a match; others count as mismatches, unpaired ones singly.  A mark and an
expect with another between them are no pair, and each is judged with its own neighbour, by a command of its own (log 118).  DESIGN
CHOICE (log 137): OFFSET of an unpaired mismatch is 0. -/
def execAuditMismatch (x : Nat) (mark : Option Nat) (expect : Expect) (s : State) : Host.Outcome State Fault Refusal :=
  if isXing s x then
    if bitAt (nowGet s 0x5030) 0 && (xingOf s x).enabled && (xingOf s x).armed then
      match mark.filter (fun m => (xingOf s x).lat < m), expect.beat with
      | none, none => .next s
      | some m, some e =>
        let d : Int := (e : Int) - m
        if d = 0 then .next (setXing x { xingOf s x with matchCnt := bump16 (xingOf s x).matchCnt 1 } s)
        else if expect.between then .next s
        else if d.natAbs ≤ 8 then .next (auditFails x 1 false d s)
        else .next (auditFails x 2 true 0 s)
      | _, _ => .next (auditFails x 1 true 0 s)
    else .next s
  else .fault .noSuchUnit

end Sys2Proof.Machine
end

