-- ==== Sys2Proof/Machine/Fcst.lean ====
section
/-!
DEFINITION. The forecast (R222 to R254): banks and their commands, sealing and verification, delivery of
entries, the commit and the bell, and skew counts.
-/
namespace Sys2Proof.Machine
open Sys2Proof

/-! ### Banks and headers -/

/-- A bank's record. -/
def fbank (s : State) (b : BitVec 1) : Bank := if b = 0 then s.fcst.b0 else s.fcst.b1

/-- Writes a bank's record. -/
def setFbank (b : BitVec 1) (x : Bank) (s : State) : State :=
  { s with fcst := if b = 0 then { s.fcst with b0 := x } else { s.fcst with b1 := x } }

/-- Base of a bank's entries and of its header in the data-port window (R234). -/
def entriesBase (b : BitVec 1) : Nat := if b = 0 then 0 else 0x200000
def headerBase (b : BitVec 1) : Nat := 0x400000 + 0x40 * b.toNat

/-- Entries that a bank holds (R222). -/
def bankSize (s : State) : Nat := if s.fcst.single then 524288 else 262144

/-- Header fields (R235). -/
def hdrCount (s : State) (b : BitVec 1) : Nat := memNat s.data (headerBase b + 8) 4
def hdrPeriod (s : State) (b : BitVec 1) : Nat := memNat s.data (headerBase b + 12) 2
def hdrF64 (s : State) (b : BitVec 1) : Nat := memNat s.data (headerBase b + 14) 2
def hdrG16 (s : State) (b : BitVec 1) : Nat := memNat s.data (headerBase b + 16) 2

/-- Entry i of a bank, 64 bits (R223, R234). -/
def entryAt (s : State) (b : BitVec 1) (i : Nat) : Nat := memNat s.data (entriesBase b + 8 * i) 8

/-- Fields of an entry (R223). -/
def enOffset (e : Nat) : Nat := e / 2 ^ 40
def enFlock (e : Nat) : Nat := e / 2 ^ 31 % 2 ^ 9
def enAction (e : Nat) : Nat := e / 2 ^ 27 % 16
def enParam (e : Nat) : Nat := e / 2 ^ 16 % 2 ^ 11
def enMask (e : Nat) : Nat := e % 2 ^ 16

/-- PARAM is one that R224 lists for the action. -/
def paramOk (act p : Nat) : Bool :=
  if act = 1 then 1 ≤ p / 128 && p / 128 ≤ 8 && 1 ≤ p % 128
  else if act = 2 then p ≤ 40
  else if act = 3 then 1 ≤ p && p ≤ 7
  else if act = 4 then 1 ≤ p && p ≤ 3
  else if act = 5 then 1 ≤ p
  else false

/-- R239 code 6, for one entry: F and G of the header, and the end of the period in ticks. -/
def entryOk (s : State) (f g per e : Nat) : Bool :=
  enAction e = 0 && enOffset e < per * f ||
  (paramOk (enAction e) (enParam e) && (enFlock e < s.build.flocks || enFlock e = 0x1FF) && enMask e ≠ 0 &&
   enOffset e < per * f && enOffset e % f < f - g &&
   (enAction e ≠ 5 || enOffset e % f + 4 * enParam e ≤ f - g))

/-- The first index below n at which a test fails. -/
def firstBad (n : Nat) (ok : Nat → Bool) : Option Nat := (List.range n).find? (fun i => !ok i)

/-- R239, codes 3 to 9 in the table's order: the result code and the failing index. -/
def checkSeal (s : State) (b : BitVec 1) : Nat × Nat :=
  let h := headerBase b
  let cnt := hdrCount s b
  let f := 64 * hdrF64 s b
  let g := 16 * hdrG16 s b
  let per := hdrPeriod s b
  let en := entryAt s b
  if memNat s.data h 4 ≠ 0x54534346 || memNat s.data (h + 4) 2 ≠ 2 || cnt = 0 || bankSize s < cnt ||
     1 < memNat s.data (h + 18) 1 || 1 < memNat s.data (h + 19) 1 then (3, 0)
  else if per = 0 || 16384 < per || !fgValid (hdrF64 s b) (hdrG16 s b) || 16777216 < per * f then (4, 0)
  else if memNat s.data (h + 19) 1 = 1 &&
          !(s.xing.manifestReady && decide (memNat s.data (h + 24) 4 = leNat ((s.xing.manifest.drop 60).take 4))) then (5, 0)
  else match firstBad cnt (fun i => entryOk s f g per (en i)) with
    | some i => (6, i)
    | none => match firstBad cnt (fun i => i = 0 || enOffset (en (i - 1)) ≤ enOffset (en i)) with
      | some i => (7, i)
      | none => match firstBad cnt (fun i => i < 16 || enOffset (en (i - 16)) < enOffset (en i)) with
        | some i => (8, i)
        | none =>
          if memWord s.data (h + 60) = crc32c (memRead s.data h 60 ++ memRead s.data (entriesBase b) (8 * cnt)) then (0, 0) else (9, 0)

/-- A failed seal: the bank returns to OPEN with its count and contents unchanged (R238, R239). -/
def sealFails (b : BitVec 1) (code idx : Nat) (s : State) : State :=
  let s := setFbank b { fbank s b with st := .opened } s
  raise .fcst 1 { s with fcst := { s.fcst with sealRes := BitVec.ofNat 4 code, sealIdx := idx } }

/-- While in WAIT the count decides: equal to COUNT, the bank goes to VERIFY at 16 entries a tick; above it,
the seal fails (R238, R239). -/
def waitCheck (b : BitVec 1) (s : State) : State :=
  let x := fbank s b
  if x.st = .waiting then
    if x.wcount = x.want then setFbank b { x with st := .verify, timer := s.time.total + ceilDiv (min x.want (bankSize s)) 16 } s
    else if x.want < x.wcount then sealFails b 2 0 s
    else s
  else s

/-! ### Commands -/

/-- A rejected command (R248, R249). -/
def fcstReject (code : Nat) (s : State) : State :=
  raise .fcst 10 { s with fcst := { s.fcst with rej := BitVec.ofNat 3 code } }

/-- OPEN (R237). -/
def fcstDoOpen (b : BitVec 1) (s : State) : State :=
  if b = 1 && s.fcst.single then fcstReject 4 s
  else if s.fcst.active = some b || s.fcst.committed then fcstReject 1 s
  else
    let s := setFbank b { st := .opened } s
    match s.fcst.swap with
    | some (c, _) => if c = b then raise .fcst 3 { s with fcst := { s.fcst with swap := none } } else s
    | none => s

/-- SEAL (R238). -/
def fcstDoSeal (b : BitVec 1) (s : State) : State :=
  if b = 1 && s.fcst.single then fcstReject 4 s
  else if (fbank s b).st ≠ .opened then fcstReject 2 s
  else waitCheck b (setFbank b { fbank s b with st := .waiting, want := hdrCount s b, timer := s.time.total + 4096 } s)

/-- The value of FOLDS once the coming bell has rung (R137, R240). -/
def comingFold (s : State) : Word := s.fold.folds + 1

/-- SWAP (R240): rejected where it names a bell that has rung, or one whose state is committed. -/
def fcstDoSwap (b : BitVec 1) (s : State) : State :=
  let at' := nowGet s 0x6008
  if b = 1 && s.fcst.single then fcstReject 4 s
  else if (fbank s b).st = .empty || (fbank s b).st = .active then fcstReject 3 s
  else if at' ≠ 0 && (at'.toNat ≤ s.fold.folds.toNat || (s.fcst.committed && at' = comingFold s)) then fcstReject 7 s
  else { s with fcst := { s.fcst with swap := some (b, at'), stop := false } }

/-- STOP replaces what is pending (R240, R241). -/
def fcstDoStop (s : State) : State := { s with fcst := { s.fcst with swap := none, stop := true } }

/-- A write of FCST_CTRL: a new TAG is recorded and performs OP (R248). -/
def writeFcstCtrl (v : Word) (s : State) : State :=
  let s := nowPut 0x6004 v s
  let tag := BitVec.ofNat 8 (fld v 8 8)
  if tag = s.fcst.cmdTag then s
  else
    let s := { s with fcst := { s.fcst with cmdTag := tag } }
    let b : BitVec 1 := BitVec.ofNat 1 (fld v 4 1)
    match fld v 0 3 with
    | 0 => s
    | 1 => fcstDoOpen b s
    | 2 => fcstDoSeal b s
    | 3 => fcstDoSwap b s
    | 4 => fcstDoStop s
    | _ => fcstReject 5 s

/-- The FCST_CTRL word of an operation (R248). -/
def fcstWord (op bank tag : Nat) : Word := packWord [(0, 3, op), (4, 1, bank), (8, 8, tag)]

/-- FCST_OPEN (R237, R248). -/
def execFcstOpen (w : Wr) (b : BitVec 1) (tag : BitVec 8) (s : State) : Host.Outcome State Fault Refusal :=
  .next (regWrite w 0x6004 (fcstWord 1 b.toNat tag.toNat) [] (writeFcstCtrl (fcstWord 1 b.toNat tag.toNat)) s)

/-- FCST_SEAL (R238, R248). -/
def execFcstSeal (w : Wr) (b : BitVec 1) (tag : BitVec 8) (s : State) : Host.Outcome State Fault Refusal :=
  .next (regWrite w 0x6004 (fcstWord 2 b.toNat tag.toNat) [] (writeFcstCtrl (fcstWord 2 b.toNat tag.toNat)) s)

/-- FCST_SWAP (R240, R248). -/
def execFcstSwap (w : Wr) (b : BitVec 1) (tag : BitVec 8) (s : State) : Host.Outcome State Fault Refusal :=
  .next (regWrite w 0x6004 (fcstWord 3 b.toNat tag.toNat) [] (writeFcstCtrl (fcstWord 3 b.toNat tag.toNat)) s)

/-- FCST_STOP (R241, R248). -/
def execFcstStop (w : Wr) (tag : BitVec 8) (s : State) : Host.Outcome State Fault Refusal :=
  .next (regWrite w 0x6004 (fcstWord 4 0 tag.toNat) [] (writeFcstCtrl (fcstWord 4 0 tag.toNat)) s)

/-- FCST_CMD_NONE (R248): OP = 0 is recorded and does nothing. -/
def execFcstCmdNone (w : Wr) (tag : BitVec 8) (s : State) : Host.Outcome State Fault Refusal :=
  .next (regWrite w 0x6004 (fcstWord 0 0 tag.toNat) [] (writeFcstCtrl (fcstWord 0 0 tag.toNat)) s)

/-- FCST_CMD_INVALID (R248): OP 5 to 7. -/
def execFcstCmdInvalid (w : Wr) (op : BitVec 3) (tag : BitVec 8) (s : State) : Host.Outcome State Fault Refusal :=
  .next (regWrite w 0x6004 (fcstWord op.toNat 0 tag.toNat) [] (writeFcstCtrl (fcstWord op.toNat 0 tag.toNat)) s)

/-- Fills a stretch of the data-port window with free bytes (log 8). -/
def freeBytes (a : Nat) (n : Nat) (s : State) : State :=
  forAll (List.range n) (fun k t =>
    let (b, t) := takeFreeByte t
    { t with data := memSet t.data (a + k) b }) s

/-- A write of FCST_CFG (R222, R247): a mode change empties both banks, or is refused; after a return to
banked mode the bank 1 header is undefined (R234). -/
def writeFcstCfg (v : Word) (s : State) : State :=
  let single := bitAt v 0
  if single = s.fcst.single then s
  else if s.fcst.active.isSome || s.fcst.commitBank.isSome then fcstReject 6 s
  else
    let s := nowPut 0x6000 v { s with fcst := { s.fcst with single := single, b0 := {}, b1 := {} } }
    if single then s else freeBytes 0x400040 64 s

/-- FCST_MODE_WRITE (R222, R247). -/
def execFcstModeWrite (w : Wr) (v : Word) (s : State) : Host.Outcome State Fault Refusal :=
  .next (regWrite w 0x6000 v [] (writeFcstCfg v) s)

/-! ### Seals -/

/-- FCST_SEAL_SHORT (R238): the timer of 4,096 ticks expires in WAIT. -/
def execFcstSealShort (b : BitVec 1) (s : State) : Host.Outcome State Fault Refusal :=
  let x := fbank s b
  .next (if x.st = .waiting && x.timer ≤ s.time.total then sealFails b 1 0 s else s)

/-- FCST_VERIFY_DONE (R239): the bank is sealed, or the seal fails. -/
def execFcstVerifyDone (b : BitVec 1) (s : State) : Host.Outcome State Fault Refusal :=
  let x := fbank s b
  if x.st = .verify && x.timer ≤ s.time.total then
    let (code, idx) := checkSeal s b
    if code = 0 then
      let s := setFbank b { x with st := .sealed, sealedAt := elapsed s } s
      .next (raise .fcst 0 { s with fcst := { s.fcst with sealRes := 0 } })
    else .next (sealFails b code idx s)
  else .next s

/-! ### Entry delivery -/

/-- The flocks that an entry names (R223). -/
def entryFlocks (s : State) (e : Nat) : List Nat := if enFlock e = 0x1FF then List.range s.build.flocks else [enFlock e]

/-- Entry idx, at fold offset off, falls due in flock fl at its latest delivered edge: the flock has reached that offset of its
fold, has not been given the entry, and once the root is in the grace tail, this is the flock's first edge at or after it (R57, R95,
R226). -/
def dueInFlock (s : State) (idx off fl : Nat) : Bool :=
  decide (s.fold.bellTick + off ≤ flockTime s fl) && decide ((flockOf s fl).nextIdx ≤ idx) &&
  (!s.fold.tail || decide (flockBefore s fl < ((s.fold.bellTick + off : Nat) : Int)))

/-- The active bank's entry idx, where it is due now in some flock that it names: of the running fold index, its fold offset
reached, and not yet delivered there (R95, R225, R226). -/
def dueEntry (s : State) (idx act : Nat) : Option (Nat × Nat) :=
  match s.fcst.active with
  | none => none
  | some b =>
    let e := entryAt s b idx
    let f := s.fold.f
    if s.fold.started && idx < hdrCount s b && enAction e = act && f ≠ 0 &&
       enOffset e / f = s.fcst.foldIdx && (entryFlocks s e).any (dueInFlock s idx (enOffset e % f)) then some (e, enOffset e % f)
    else none

/-- Entry idx is due now in flock fl. -/
def waitsIn (s : State) (fl idx : Nat) : Bool :=
  [0, 1, 2, 3, 4, 5].any (fun act => match dueEntry s idx act with
    | some (e, off) => (entryFlocks s e).contains fl && dueInFlock s idx off fl
    | none => false)

/-- One of the n entries from idx on is due now in flock fl; beyond the first whose offset the flock has not reached none is. -/
def dueFrom (s : State) (fl count : Nat) (b : BitVec 1) : Nat → Nat → Bool
  | 0, _ => false
  | n + 1, idx =>
    if count ≤ idx || decide (s.fcst.foldIdx * s.fold.f + flockOffset s fl < enOffset (entryAt s b idx)) then false
    else waitsIn s fl idx || dueFrom s fl count b n (idx + 1)

/-- Some entry that flock fl has not been given is due there now: its actions precede a slot's hold on the same edge (R96, R231). -/
def entryWaits (s : State) (fl : Nat) : Bool :=
  match s.fcst.active with
  | none => false
  | some b => dueFrom s fl (hdrCount s b) b (bankSize s) (flockOf s fl).nextIdx

/-- The grace tail has begun in flock fl: its flock time has reached it (R95, R230). -/
def flockTail (s : State) (fl : Nat) : Bool := s.fold.tail && decide (s.fold.bellTick + (s.fold.f - s.fold.g) ≤ flockTime s fl)

/-- Where a flock's grace tail has begun, what no RELEASE has ended ends (R230). -/
def tailEnds (s : State) : State :=
  { s with regions := s.regions.map (fun e => (e.1, if flockTail s (e.1 / 16) then { e.2 with leanC := none, raiseR := 0 } else e.2)) }

/-- The regions that an entry names (R223). -/
def entryRegions (s : State) (e : Nat) : List Nat :=
  (List.range s.build.regions).filter (fun r => (enFlock e = 0x1FF || enFlock e = r / 16) && (enMask e).testBit (r % 16))

/-- The flocks in which an entry falls due now go on to the next one. -/
def passEntry (idx e off : Nat) (s : State) : State :=
  forAll ((entryFlocks s e).filter (dueInFlock s idx off)) (fun fl t => setFlock fl { flockOf t fl with nextIdx := idx + 1 } t) s

/-- Delivers an entry in the flocks in which it falls due: it is applied to each region that it names there, or dropped where
that is EXCLUDED or DETACHED; in a flock whose grace tail has begun with this edge a LEAN or a HOLD_MARGIN ends at once
(R57, R226, R230, R232, R245). -/
def deliver (idx e off : Nat) (act : Nat → State → State) (s : State) : State :=
  let rs := (entryRegions s e).filter (fun r => dueInFlock s idx off (r / 16))
  tailEnds (forAll rs (fun r t =>
    if stateCode t r = 4 || stateCode t r = 5 then { t with fcst := { t.fcst with dropped := bump t.fcst.dropped 1 } }
    else act r { t with fcst := { t.fcst with dispatched := bump t.fcst.dispatched 1 } }) (passEntry idx e off s))

/-- FCST_NOP (R224): delivered and ignored. -/
def execFcstNop (idx : Nat) (s : State) : Host.Outcome State Fault Refusal :=
  match dueEntry s idx 0 with
  | some (e, off) => .next (passEntry idx e off s)
  | none => .next s

/-- PRE_STRETCH (R227, R232, R244). -/
def execPreStretch (idx : Nat) (s : State) : Host.Outcome State Fault Refusal :=
  match dueEntry s idx 1 with
  | none => .next s
  | some (e, off) => .next (deliver idx e off (fun r t =>
      let x := regionOf t r
      setRegion r { x with preN := enParam e % 128, preW := enParam e / 128, skew := x.skew ++ [{ idx := idx, off := off }] } t) s)

/-- Counts an application of LEAN or HOLD_MARGIN in ZONE_OVR5 (R266). -/
def countOvr5 (s : State) : State := { s with zones := { s.zones with ovr5 := bump s.zones.ovr5 1 } }

/-- LEAN (R228, R232). -/
def execFcLean (idx : Nat) (s : State) : Host.Outcome State Fault Refusal :=
  match dueEntry s idx 2 with
  | none => .next s
  | some (e, off) => .next (deliver idx e off (fun r t => countOvr5 (setRegion r { regionOf t r with leanC := some (enParam e % 64) } t)) s)

/-- HOLD_MARGIN (R229, R232, R244). -/
def execHoldMargin (idx : Nat) (s : State) : Host.Outcome State Fault Refusal :=
  match dueEntry s idx 3 with
  | none => .next s
  | some (e, off) => .next (deliver idx e off (fun r t =>
      let x := regionOf t r
      countOvr5 (setRegion r { x with raiseR := enParam e % 8, skew := x.skew ++ [{ idx := idx, off := off }] } t)) s)

/-- A slot of so many ticks that begins at fold offset `off` is usable (R347). -/
def slotUsable (s : State) (off len : Nat) : Bool := decide (452 ≤ len) && decide (off + 450 ≤ s.cal.latest)

/-- RELEASE (R230, R232): 1 ends LEAN, 2 ends HOLD_MARGIN, 3 both. -/
def execFcRelease (idx : Nat) (s : State) : Host.Outcome State Fault Refusal :=
  match dueEntry s idx 4 with
  | none => .next s
  | some (e, off) => .next (deliver idx e off (fun r t =>
      let x := regionOf t r
      let p := enParam e
      setRegion r { x with leanC := if p % 2 = 1 then none else x.leanC, raiseR := if p / 2 % 2 = 1 then 0 else x.raiseR } t) s)

/-- CAL_SLOT (R231, R232, R347): the slot of each named region begins; one that an armed region cannot use is
passed by and counted in SKIP. -/
def execCalSlot (idx : Nat) (s : State) : Host.Outcome State Fault Refusal :=
  match dueEntry s idx 5 with
  | none => .next s
  | some (e, off) => .next (deliver idx e off (fun r t =>
      let x := regionOf t r
      let usable := slotUsable t off (4 * enParam e)
      let t := setRegion r { x with slot := some (t.time.counter, off, 4 * enParam e) } t
      if armedNow t r && !usable then { t with cal := { t.cal with cntSkip := bump16 t.cal.cntSkip 1 } } else t) s)

/-! ### Skew -/

/-- The first onset within 16 ticks of an entry (R244). -/
def firstOnset (x : Region) (off : Nat) : Option Nat :=
  (x.onsets.find? (fun o => decide (o.1 ≤ off + 16) && decide (off ≤ o.1 + 16))).map Prod.fst

/-- The distance of two offsets. -/
def offDist (a b : Nat) : Nat := (a - b) + (b - a)

/-- The entry that an onset pairs with: nearest of those whose first onset it is, the lower index on a tie. -/
def pairOf (x : Region) (o : Nat) : Option SkewEntry :=
  (x.skew.filter (fun e => firstOnset x e.off = some o)).foldl (fun best e =>
    match best with
    | none => some e
    | some a => if offDist e.off o < offDist a.off o || (offDist e.off o = offDist a.off o && e.idx < a.idx) then some e else some a) none

/-- Judges the entries and onsets of region r whose count is due at fold offset `now`, or all of them at the
bell (R244). -/
def countSkew (r now : Nat) (atBell : Bool) (s : State) : State :=
  let x := regionOf s r
  let ready := fun (e : SkewEntry) => !e.counted && (atBell || match firstOnset x e.off with
    | some o => decide (o + 16 ≤ now)
    | none => decide (e.off + 16 ≤ now))
  let due := x.skew.filter ready
  let hit := fun (e : SkewEntry) => match firstOnset x e.off with
    | some o => pairOf x o = some e
    | none => false
  let hits := due.filter hit
  let sum : Int := hits.foldl (fun a e => a + ((firstOnset x e.off).getD 0 : Nat) - e.off) 0
  let oReady := fun (o : Nat × Bool) => !o.2 && (atBell || decide (o.1 + 16 ≤ now))
  let unf := x.onsets.filter (fun o => oReady o && x.skew.all (fun e => 16 < offDist e.off o.1))
  let fc := s.fcst
  let s := { s with fcst := { fc with
    hits := bump fc.hits hits.length, misses := bump fc.misses (due.length - hits.length),
    skewSum := fc.skewSum + BitVec.ofInt 32 sum,
    unforecast := if fc.active.isSome then bump fc.unforecast unf.length else fc.unforecast } }
  setRegion r { x with
    skew := x.skew.map (fun e => if ready e then { e with counted := true } else e),
    onsets := x.onsets.map (fun o => if oReady o then (o.1, true) else o) } s

/-- SKEW_COUNT (R244): at the end of a 16-tick window. -/
def execSkewCount (r : Nat) (s : State) : Host.Outcome State Fault Refusal :=
  if isRegion s r then .next (if s.fold.started then countSkew r (flockOffset s (r / 16)) false s else s) else .fault .noSuchUnit

/-! ### Commit and bell -/

/-- The bank was SEALED at the end of the previous tick (R241). -/
def sealedBefore (s : State) (x : Bank) : Bool := x.st = .sealed && decide (x.sealedAt < elapsed s)

/-- The commit of the coming bell's state (R241). -/
def commitForecast (s : State) : State :=
  let fc := s.fcst
  let ends := fc.once && fc.active.isSome && decide (fc.period ≤ fc.foldIdx + 1)
  let rest := fun (fc : FcstSt) (t : State) =>
    if fc.stop then { t with fcst := { fc with committed := true, commitBank := none, commitFlat := true, stop := false } }
    else { t with fcst := { fc with committed := true, commitBank := none, commitFlat := ends } }
  match fc.swap with
  | some (b, at') =>
    if (at' = 0 || at' = comingFold s) && sealedBefore s (fbank s b) then
      { s with fcst := { fc with committed := true, commitBank := some b, commitFlat := false, swap := none } }
    else if at' ≠ 0 && at' = comingFold s then
      let s := raise .fcst 3 s
      rest { fc with swap := none } s
    else rest fc s
  | none => rest fc s

/-- A bank's header has the F and G of a bell (R242). -/
def shapeFits (s : State) (b : BitVec 1) (f g : Nat) : Bool := 64 * hdrF64 s b = f && 16 * hdrG16 s b = g

/-- The bell with F and G is a flat one (R241 to R243). -/
def flatBell (s : State) (f g : Nat) : Bool :=
  if s.fcst.committed then
    match s.fcst.commitBank with
    | some b => !shapeFits s b f g
    | none => s.fcst.commitFlat || (match s.fcst.active with
        | some b => !shapeFits s b f g
        | none => true)
  else match s.fcst.active with
    | some b => !shapeFits s b f g
    | none => true

/-- The state committed for the coming bell is flat, its shape not yet checked (R159, R243). -/
def flatCommitted (s : State) : Bool :=
  if s.fcst.committed then s.fcst.commitBank.isNone && (s.fcst.commitFlat || s.fcst.active.isNone) else s.fcst.active.isNone

/-- Every flock's next entry is the first again. -/
def fromFirstEntry (s : State) : State := { s with flocks := s.flocks.map (fun e => (e.1, { e.2 with nextIdx := 0 })) }

/-- The active bank stops and reverts to SEALED. -/
def stopActive (s : State) : State :=
  match s.fcst.active with
  | some b =>
    let s := setFbank b { fbank s b with st := .sealed } s
    { s with fcst := { s.fcst with active := none, foldIdx := 0, period := 0, once := false, schedId := 0 } }
  | none => s

/-- The forecast's part of the bell (R225, R242, R243): the committed state takes effect, shapes are checked,
the fold index advances, FLAT_ON and FLAT_OFF mark the flat runs. -/
def forecastBell (f g : Nat) (s : State) : State :=
  let fc := s.fcst
  let s := match fc.committed, fc.commitBank with
    | true, some b =>
      let s := stopActive s
      if shapeFits s b f g then
        let s := setFbank b { fbank s b with st := .active } s
        raise .fcst 2 { fromFirstEntry s with fcst := { s.fcst with
          active := some b, foldIdx := 0, period := hdrPeriod s b,
          once := memNat s.data (headerBase b + 18) 1 = 1, schedId := memWord s.data (headerBase b + 20) } }
      else raise .fcst 3 s
    | _, _ =>
      if fc.committed && fc.commitFlat then stopActive s
      else match fc.active with
        | none => s
        | some b =>
          if shapeFits s b f g then
            let j := fc.foldIdx + 1
            let back := decide (fc.period ≤ j)
            { (if back then fromFirstEntry s else s) with fcst := { s.fcst with foldIdx := if back then 0 else j } }
          else raise .fcst 6 (stopActive s)
  let s := { s with fcst := { s.fcst with committed := false, commitBank := none, commitFlat := false } }
  let flat := s.fcst.active.isNone
  if flat && !s.fcst.flatRun then raise .fcst 4 { s with fcst := { s.fcst with flatRun := true } }
  else if !flat && s.fcst.flatRun then raise .fcst 5 { s with fcst := { s.fcst with flatRun := false } }
  else s

/-! ### Statistics and the data port -/

/-- FCST_STAT0 to FCST_STAT7 (R245). -/
def fcstStatWords (s : State) : List Word :=
  let c := s.fcst
  [c.dispatched, c.dropped, c.absorbed, c.preEighths, c.hits, c.misses, c.unforecast, c.skewSum]

/-- A write of FCST_STAT_REQ (R245, R254). -/
def writeFcstStatReq (p : Port) (v : Word) (s : State) : State :=
  let s := nowPut (portKey p 0x602C) v s
  let tag := BitVec.ofNat 8 (fld v 0 8)
  if tag = (snapOf s 4 p).tag then s else snapPut 4 p { valid := true, tag := tag, words := fcstStatWords s } s

/-- FCST_STAT_REQ (R245, R254). -/
def execFcstStatReq (w : Wr) (v : Word) (s : State) : Host.Outcome State Fault Refusal :=
  .next (regWrite w 0x602C v [] (writeFcstStatReq w.port v) s)

/-- The strobes of entry k of a beat. -/
def entryStrobe (b : Beat) (k : Nat) : Nat := b.strb.toNat / 2 ^ (8 * k) % 256

/-- The bytes of a beat, byte 0 first (R9). -/
def beatBytes (b : Beat) : List (BitVec 8) := leBytes 32 b.data.toNat

/-- Stores a beat by its strobes. -/
def storeBeat (b : Beat) (s : State) : State :=
  { s with data := memStrobe s.data b.addr.toNat b.strb.toNat (beatBytes b) }

/-- The data port's answer to one beat (R487). -/
def answer (r : Resp) (s : State) : State := { s with out := { s.out with beats := [r] } }

/-- A beat in the forecast windows (R234, R236, R487): stored and counted in OPEN and WAIT, refused
otherwise; headers are not counted. -/
def fcstBeat (b : Beat) (s : State) : State :=
  let a := b.addr.toNat
  let hdr := decide (0x400000 ≤ a)
  let bank : BitVec 1 :=
    if hdr then (if a < 0x400040 then 0 else 1) else if s.fcst.single then 0 else if a < 0x200000 then 0 else 1
  if s.fcst.single && bank = 1 then answer .okay s
  else
    let x := fbank s bank
    if x.st = .opened || x.st = .waiting then
      let s := answer .okay (storeBeat b s)
      if hdr then s
      else
        let whole := ((List.range 4).filter (fun k => entryStrobe b k = 255)).length
        let part := (List.range 4).any (fun k => entryStrobe b k ≠ 255 && entryStrobe b k ≠ 0)
        let s := if part then raise .fcst 9 s else s
        waitCheck bank (setFbank bank { x with wcount := x.wcount + whole } s)
    else
      let s := if x.st = .active then raise .fcst 7 s else if x.st = .empty then s else raise .fcst 8 s
      answer .slverr s

end Sys2Proof.Machine
end

