-- ==== Sys2Proof/Machine/Flock.lean ====
section
/-!
DEFINITION. Flocks, drovers, spares and failover (R276 to R308): failing generators and claims, spares,
parity, retest, reinstatement, fail-back and retirement.
-/
namespace Sys2Proof.Machine
open Sys2Proof

/-- The code of a test of R283. -/
def faultCode : GenFault → Nat
  | .stop _ => 1
  | .slow _ _ => 2
  | .fast _ _ => 3
  | .sampler _ _ => 4

/-- The frequency that generator g is commanded to, in MHz: its region's, or the line of its shadow class, or of its
region's class for a QUALIFIED own generator, within its band (R161, R280, R283, R294); none while it does not run a line. -/
def commandedMHz (s : State) (g : Nat) : Option Nat :=
  let x := genOf s g
  if x.st = .qualified || x.st = .free || x.st = .locking then
    some (withinBand x (classMHz s (if g < 5120 then classOfRegion s g else shadowClass s ((g - 5120) / 2) ((g - 5120) % 2))))
  else (regionOfGen s g).map (freqNow s)

/-- The commanded frequency of the k-th last tick changed by more than 2 % at that tick's edge (R284). -/
def wordChanged (ws : List Nat) (k : Nat) : Bool :=
  match ws[k]?, ws[k + 1]? with
  | some a, some b => decide (2 * b < 100 * ((a : Int) - b).natAbs)
  | _, _ => false

/-- The DCO edges that a tick of that frequency commands, in 1/16,000 edge. -/
def commanded16k (mhz : Nat) : Nat := 64 * mhz

/-- Edges counted in the k-th last tick fall short of the commanded count by more than 3 % (R283). -/
def countShort (ws : List Nat) (k edges : Nat) : Bool :=
  match ws[k]? with
  | some f => decide (100 * (1000 * edges) < 97 * commanded16k f)
  | none => false

/-- Edges counted in the k-th last tick exceed the commanded count by more than 3 % (R283). -/
def countOver (ws : List Nat) (k edges : Nat) : Bool :=
  match ws[k]? with
  | some f => decide (103 * commanded16k f < 100 * (1000 * edges))
  | none => false

/-- The test fires on what the drover observes of generator g, and is not suspended for the tick after a change of the
frequency word (R283, R284).  The sampler's test compares with the count of the region that g serves (R278). -/
def faultFires (s : State) (g : Nat) : GenFault → Bool
  | .stop gap => !wordChanged (genOf s g).words 0 && decide (8 * gap > 9 * 65536)
  | .slow a b =>
    let ws := (genOf s g).words
    !wordChanged ws 1 && !wordChanged ws 2 && countShort ws 1 b && countShort ws 2 a
  | .fast a b =>
    let ws := (genOf s g).words
    !wordChanged ws 1 && !wordChanged ws 2 && countOver ws 1 b && countOver ws 2 a
  | .sampler a b =>
    !wordChanged (genOf s g).words 1 && !wordChanged (genOf s g).words 2 &&
    match regionOfGen s g with
    | some r => decide ((regionOf s r).cTick ≠ b) && decide ((regionOf s r).cTick1 ≠ a)
    | none => false

/-- The tests of a generator run: not during its own band-change stop, a measurement or a calibration hold
(R284). -/
def testsRun (s : State) (g : Nat) : Bool :=
  let x := genOf s g
  x.stopEnd.isNone && x.st ≠ .measuring && x.st ≠ .failed && x.st ≠ .absent && x.calFrom.isNone &&
  match regionOfGen s g with
  | some r => (regionOf s r).hold.isNone
  | none => true

/-- A generator is marked FAILED: a band-change stop of it is abandoned (R163, R283). -/
def markFailed (g : Nat) (s : State) : State :=
  let x := genOf s g
  setGen g { x with st := .failed, stopEnd := none, planned := none, plannedDiv := x.div, calFrom := none, cellProp := none, measFrom := none, failback := false } s

/-- A forced failover of the running tick that left generator g behind is undone for an automatic one of the same tick, and
the command is held to the next tick edge (R291). -/
def holdForced (f g : Nat) (s : State) : State :=
  match (flockOf s f).taken.find? (fun t => t.cmd.isSome && decide (t.leftWas.map Prod.fst = some g)) with
  | some e =>
    match e.cmd with
    | some (p, tag, gen, tagWas, rejWas) =>
      let s := undoTaken f e s
      spareChanged f { s with crook := { s.crook with held := some (p, tag, 16 * f + e.slot, gen), tag := tagWas, rej := rejWas } }
    | none => s
  | none => s

/-- What a generator that fails a test leaves: a serving one's slot claims its computed choice; the region of an excluded
slot is left with no source; a QUALIFIED generator is FAILED again (R283 to R292). -/
def failGen (g : Nat) (code : GenFault) (s : State) : State :=
  match regionOfGen s g with
  | some r =>
    if (genOf s g).st = .qualified then spareChanged (r / 16) (markFailed g s)
    else if inContract s r then
      let s := claim r (faultCode code) (markFailed g s)
      if g < s.build.regions then s else spareChanged (r / 16) s
    else
      let s := markFailed g s
      spareChanged (r / 16) (if (regionOf s r).out then setRegion r { regionOf s r with mux := 3, switchTo := none } s else s)
  | none => if (genOf s g).st = .qualified then spareChanged (rowFlock s.build g) (markFailed g s) else s

/-- GENERATOR_FAIL (R283 to R292): a test of R283 fires on a generator of flock f. -/
def execGeneratorFail (f k : Nat) (code : GenFault) (s : State) : Host.Outcome State Fault Refusal :=
  if f < s.build.flocks && k < 16 + s.build.spares then
    let g := (genRow s.build f k).getD 0
    let u := holdForced f g s
    .next (if testsRun u g && faultFires u g code then failGen g code u else s)
  else .fault .noSuchUnit

/-- CLAIM_RETRY (R290, R291): at the next tick edge the slot takes the choice then computed; an excluded
region claims nothing. -/
def execClaimRetry (f k : Nat) (s : State) : Host.Outcome State Fault Refusal :=
  let r := 16 * f + k
  if k < 16 && isRegion s r then
    match (flockOf s f).claims.find? (fun c => c.1 = k) with
    | some (_, code, t) =>
      if s.time.total ≤ t then .next s
      else if inContract s r then .next (claim r code s)
      else .next (setFlock f { flockOf s f with claims := (flockOf s f).claims.filter (fun c => c.1 ≠ k) } s)
    | none => .next s
  else .fault .noSuchUnit

/-- A spare of the build (R24). -/
def isSpare (s : State) (f j : Nat) : Bool := decide (f < s.build.flocks) && decide (j < s.build.spares)

/-- SPARE_LOST (R285, R291): a FREE spare that fails a test becomes FAILED; no slot takes it in this tick.
One that is LOCKING or QUALIFIED becomes FAILED with no event. -/
def execSpareLost (f j : Nat) (code : GenFault) (s : State) : Host.Outcome State Fault Refusal :=
  if isSpare s f j then
    let g := spareRow s.build f j
    let x := genOf s g
    if !faultFires s g code then .next s
    else if x.stopEnd.isNone && x.calFrom.isNone && x.st = .free then
      let s := markFailed g s
      let s := setFlock f { flockOf s f with taken := (flockOf s f).taken ++ [{ gen := g, slot := 16, code := 0 }] } s
      .next (spareChanged f (raiseAbout .flock 1 f s))
    else if x.stopEnd.isNone && (x.st = .locking || x.st = .qualified) then .next (spareChanged f (markFailed g s))
    else .next s
  else .fault .noSuchUnit

/-- SPARE_LOCKED (R280): a LOCKING spare that has held its line for 256 ticks is FREE. -/
def execSpareLocked (f j : Nat) (s : State) : Host.Outcome State Fault Refusal :=
  if isSpare s f j then
    let g := spareRow s.build f j
    let x := genOf s g
    .next (if x.st = .locking && x.stopEnd.isNone && x.verified && decide (x.lockFrom + 256 ≤ s.time.total) then
             spareChanged f (setGen g { x with st := .free } s) else s)
  else .fault .noSuchUnit

/-- A spare starts once its row is verified: LOCKING on its shadow line (R155, R158, R280). -/
def startSpare (f j : Nat) (s : State) : State :=
  let g := spareRow s.build f j
  let x := genOf s g
  if x.st = .absent && x.verified then spareChanged f (spareLocking false g s) else s

/-- A new shadow class applied at a bell: a FREE or LOCKING spare locks anew for it, and a QUALIFIED one selects its band for it
(R280, R294). -/
def respare (f j : Nat) (s : State) : State :=
  let g := spareRow s.build f j
  let x := genOf s g
  if x.st = .free || x.st = .locking then spareChanged f (spareLocking true g s)
  else if x.st = .qualified then spareBand true g s
  else s

/-- DRV_PARITY (R292, R293). -/
def execDrvParity (f : Nat) (s : State) : Host.Outcome State Fault Refusal :=
  if f < s.build.flocks then
    .next (updateSvc f (raiseAbout .flock 11 f (setFlock f { flockOf s f with parity := true } s)))
  else .fault .noSuchUnit

/-! ### FLOCK_GEN_CTRL -/

/-- The own generator takes its region back: the spare that served it is LOCKING, and no cycle is lost (R295). -/
def failBack (atBell : Bool) (r : Nat) (s : State) : State :=
  match servingGen s r with
  | none => retune r (setRegion r { regionOf s r with mux := 0, switchTo := none } (setGen r { genOf s r with st := .serving, failback := false } s))
  | some g =>
    if g = r then setGen r { genOf s r with st := .serving, failback := false } s
    else
      let s := spareLocking atBell g s
      let s := setGen r { genOf s r with st := .serving, failback := false } s
      let s := raiseAbout .flock 8 (r / 16) (retune r (setRegion r { regionOf s r with mux := 0, switchTo := none } s))
      spareChanged (r / 16) s

/-- The answer of FLOCK_GEN_STAT to a request. -/
def genAnswer (f : Nat) (status : BitVec 2) (s : State) : State :=
  setFlock f { flockOf s f with genStatus := status, reportsRetest := false } s

/-- RETEST starts on a FAILED generator, one at a time in a flock (R294). -/
def doRetest (f code : Nat) (s : State) : State :=
  match genRow s.build f code with
  | none => genAnswer f 1 s
  | some g =>
    if (flockOf s f).retest.isSome || (genOf s g).st ≠ .failed then genAnswer f 1 s
    else setFlock f { flockOf s f with genStatus := 3, reportsRetest := true, retest := some code, retestAt := s.time.total } s

/-- REINSTATE returns a QUALIFIED generator to use (R295).  DESIGN CHOICE (log 141): a region that is parked already fails back at
once. -/
def doReinstate (f code : Nat) (s : State) : State :=
  match genRow s.build f code with
  | none => genAnswer f 1 s
  | some g =>
    if (genOf s g).st ≠ .qualified then genAnswer f 1 s
    else
      let s := raiseAbout .flock 7 f (genAnswer f 0 s)
      if code < 16 then
        let s := setGen g { genOf s g with failback := true } s
        if (regionOf s g).parked && !excluded s g then failBack false g s else s
      else spareChanged f (spareLocking false g s)

/-- RETIRE marks a generator that is not serving as FAILED (R296). -/
def doRetire (f code : Nat) (s : State) : State :=
  match genRow s.build f code with
  | none => genAnswer f 1 s
  | some g => if isServing s g then genAnswer f 1 s else spareChanged f (markFailed g (genAnswer f 0 s))

/-- A write of FLOCK_GEN_CTRL: a new TAG performs OP (R293 to R296, R305). -/
def writeGenCtrl (f : Nat) (v : Word) (s : State) : State :=
  let s := nowPut (flockAddr f 0x2C) v s
  let tag := BitVec.ofNat 8 (fld v 24 8)
  if tag = (flockOf s f).genTag then s
  else
    let s := setFlock f { flockOf s f with genTag := tag } s
    match fld v 8 2 with
    | 0 => updateSvc f (genAnswer f 0 (setFlock f { flockOf s f with parity := false } s))
    | 1 => doRetest f (fld v 0 5) s
    | 2 => doReinstate f (fld v 0 5) s
    | _ => doRetire f (fld v 0 5) s

/-- The FLOCK_GEN_CTRL word of an operation (R305). -/
def genWord (op : Nat) (gen : BitVec 5) (tag : BitVec 8) : Word := packWord [(0, 5, gen.toNat), (8, 2, op), (24, 8, tag.toNat)]

/-- CLEAR_PARITY (R293, R305). -/
def execClearParity (w : Wr) (f : Nat) (gen : BitVec 5) (tag : BitVec 8) (s : State) : Host.Outcome State Fault Refusal :=
  .next (regWrite w (flockAddr f 0x2C) (genWord 0 gen tag) [] (whereFlock f (writeGenCtrl f (genWord 0 gen tag))) s)

/-- RETEST (R294, R305). -/
def execRetest (w : Wr) (f : Nat) (gen : BitVec 5) (tag : BitVec 8) (s : State) : Host.Outcome State Fault Refusal :=
  .next (regWrite w (flockAddr f 0x2C) (genWord 1 gen tag) [] (whereFlock f (writeGenCtrl f (genWord 1 gen tag))) s)

/-- REINSTATE (R295, R305). -/
def execReinstate (w : Wr) (f : Nat) (gen : BitVec 5) (tag : BitVec 8) (s : State) : Host.Outcome State Fault Refusal :=
  .next (regWrite w (flockAddr f 0x2C) (genWord 2 gen tag) [] (whereFlock f (writeGenCtrl f (genWord 2 gen tag))) s)

/-- RETIRE (R296, R305). -/
def execRetire (w : Wr) (f : Nat) (gen : BitVec 5) (tag : BitVec 8) (s : State) : Host.Outcome State Fault Refusal :=
  .next (regWrite w (flockAddr f 0x2C) (genWord 3 gen tag) [] (whereFlock f (writeGenCtrl f (genWord 3 gen tag))) s)

/-- The core restarted while it verified the retested row: between the end of the measurement and `verified`, both in
ticks from the RETEST's start (R294). -/
def retestCut (s : State) (f verified : Nat) : Bool :=
  decide ((flockOf s f).retestAt + bmeasTicks < s.shep.startAt) && decide (s.shep.startAt ≤ (flockOf s f).retestAt + verified)

/-- The ticks that a lock trial lasts (R294). -/
def trialTicks : Nat := 65536

/-- The RETEST can have ended: its measurement is over, firmware ended the verification `verified` ticks after its start,
and a row that passed has had its lock trial, where no test fired in it (R156, R294). -/
def retestOver (s : State) (f verified : Nat) (toTrial trialClean : Bool) : Bool :=
  coreRuns s && decide (bmeasTicks ≤ verified) &&
  decide ((flockOf s f).retestAt + verified + (if toTrial && trialClean then trialTicks else 0) ≤ s.time.total)

/-- RETEST_DONE (R294): measurement, row verification and lock trial all passed make the generator
QUALIFIED; otherwise it stays FAILED.  The counts are those of R156 for its 24 bands; a verification that a restart of
the core cuts short fails, and its row stays unverified. -/
def execRetestDone (f : Nat) (counts : List (Nat × Nat)) (run : RetestRun) (s : State) :
    Host.Outcome State Fault Refusal :=
  if f < s.build.flocks then
    match (flockOf s f).retest with
    | none => .next s
    | some code =>
      match genRow s.build f code with
      | none => .next s
      | some g =>
        let row := (List.range 24).map (fun b => measuredEntry (counts.getD b (0, 0)).1 (counts.getD b (0, 0)).2)
        let cut := retestCut s f run.verified
        let good := rowVerifies row && !cut
        if !retestOver s f run.verified good run.clean then .next s else
        let s := { s with data := memWrite s.data (rowAddr g) (row.flatMap (fun e => leBytes 4 e.toNat)) }
        let x := genOf s g
        let w := if code < 16 then regionWindow s g else classWindow s (shadowClass s f (code - 16))
        let x := if good then
            { x with rowOk := true, verified := true, copy := row,
                     band := match pickBand row x.band w with
                       | some b => some b
                       | none => topBand row }
          else { x with rowOk := false }
        let pass := good && run.clean
        let s := setGen g { x with st := if pass then .qualified else .failed } s
        let s := if good || cut then s else raiseAbout .rcg 7 g s
        let fl := flockOf s f
        let s := setFlock f { fl with
          retest := none, reportsRetest := false,
          genStatus := if fl.reportsRetest then (if pass then 0 else 2) else fl.genStatus } s
        .next (spareChanged f (raiseAbout .flock (if pass then 6 else 12) f s))
  else .fault .noSuchUnit

/-! ### Flock status words -/

/-- FLOCK_STATUS (R300). -/
def flockStatusWord (s : State) (f : Nat) : Word :=
  let x := flockOf s f
  let free := ((spareRows s.build f).filter (fun g => (genOf s g).st = .free)).length
  packWord [(0, 1, b2n x.svc), (1, 1, b2n (spareOutNow s f)), (2, 2, free), (4, 1, b2n x.coverGap), (5, 1, b2n x.parity),
    (8, 5, exclCount s f), (16, 16, bitsWhere 16 (fun k => (regionOf s (16 * f + k)).forced))]

/-- The STATE code of a spare (R303). -/
def genCode : GenSt → Nat
  | .absent => 0
  | .locking => 1
  | .free => 2
  | .serving => 3
  | .measuring => 4
  | .failed => 5
  | .qualified => 6

/-- FLOCK_SPARE0 and FLOCK_SPARE1; a spare the build lacks reads 0 (R303). -/
def spareWord (s : State) (f j : Nat) : Word :=
  if j < s.build.spares then
    let x := genOf s (spareRow s.build f j)
    packWord [(0, 3, genCode x.st), (4, 4, if x.st = .serving then x.slot else 0),
      (8, 2, if selDiv x = 2 then 1 else if selDiv x = 4 then 2 else 0), (10, 5, (selBand x).getD 0), (16, 16, x.cover.toNat)]
  else 0

/-- FLOCK_GEN_FAIL or FLOCK_GEN_QUAL: own generators and spares in a state, which a measurement does not
end (R304). -/
def genWordOf (s : State) (f : Nat) (st : GenSt) : Word :=
  packWord [(0, 16, bitsWhere 16 (fun k => isSt s st (16 * f + k))), (16, 2, bitsWhere s.build.spares (fun j => isSt s st (spareRow s.build f j)))]

end Sys2Proof.Machine
end

