-- ==== Sys2Proof/Machine/Mesh.lean ====
section
/-!
DEFINITION. Bellwether time and the tick mesh (R76 to R106): snapshots and loads of the counter, broadcast
frames, locking, tracking, failing and returning paths.
-/
namespace Sys2Proof.Machine
open Sys2Proof

/-! ### Snapshots and loads -/

/-- A write of BELL_SNAP_REQ at its slow-clock edge: a new TAG captures the counter and the mode of the edge that falls
there (R15, R97, R99). -/
def writeBellSnap (p : Port) (v : Word) (s : State) : State :=
  let s := nowPut (portKey p 0x1000) v s
  let tag := BitVec.ofNat 8 (fld v 0 8)
  if tag = (snapOf s 0 p).tag then s
  else
    let c := s.time.counter
    snapPut 0 p { valid := true, tag := tag, index := 0, bypass := s.root.bypass,
                  words := [BitVec.ofNat 32 c, BitVec.ofNat 32 (c / 2 ^ 32)] } s

/-- BELL_SNAP_REQ (R97 to R100). -/
def execBellSnapReq (w : Wr) (v : Word) (s : State) : Host.Outcome State Fault Refusal :=
  .next (regWrite w 0x1000 v [] (writeBellSnap w.port v) s)

/-- After a cancelled start a region that had parked for it runs on its open pace line again, which rose from
its release with no end (R112; log 47). -/
def resumeOpen (s : State) : State :=
  if s.fold.started then s
  else mapRegions (fun r x => if inContract s r then { x with parked := false } else x) s

/-- A load of the counter (R77): taken before the first bell since cold reset, when it also cancels a
pending start with REJ_CAUSE 4 (R111) and the regions parked for it run on (R112), and rejected after it. -/
def loadCounter (value : Nat) (s : State) : State :=
  if s.time.firstBell then raise .bell 1 s
  else
    let v := value % 2 ^ 64
    let s := { s with time := { s.time with counter := v, loaded := true },
                      lc := { s.lc with
                        ledAt := v / 2 ^ 22, ledSeen := none, flash := s.lc.flash.map (fun t => t + v - s.time.counter),
                        flashPrev := s.lc.flashPrev.map (fun t => t + v - s.time.counter) },
                      root := { s.root with recV := value % 2 ^ 64, bypTarget := value % 2 ^ 64 } }
    let s := raise .bell 0 s
    if s.fold.pending then
      raise .fold 5 (resumeOpen { s with fold := { s.fold with pending := false, tail := false, rejCause := 4 } })
    else s

/-- A write of BELL_LOAD_CTRL: a new TAG requests a load of VALUE_HI:VALUE_LO (R77, R101, R102); of a time-of-day load made at the
same edge it takes the place, and that one waits for the next edge of ms_pps_in (R391). -/
def writeBellLoad (v : Word) (s : State) : State :=
  let s := nowPut 0x1018 v s
  let tag := BitVec.ofNat 8 (fld v 0 8)
  if tag = s.time.loadTag then s
  else
    let s := { s with time := { s.time with loadTag := tag, loadAt := some (elapsed s) },
                      mus := { s.mus with todArmed := s.mus.todArmed || decide (s.mus.todAt = some (elapsed s)) } }
    loadCounter ((nowGet s 0x1010).toNat + 2 ^ 32 * (nowGet s 0x1014).toNat) s

/-- BELL_LOAD (R77, R101, R102, R111). -/
def execBellLoad (w : Wr) (v : Word) (s : State) : Host.Outcome State Fault Refusal :=
  .next (regWrite w 0x1018 v [] (writeBellLoad v) s)

/-! ### Broadcast frames -/

/-- One bit of CRC-16/CCITT, polynomial 0x1021 (R82). -/
def crc16Bit (c : BitVec 16) (b : Bool) : BitVec 16 :=
  if (c.getLsbD 15) != b then (c <<< 1) ^^^ 0x1021 else c <<< 1

/-- The CRC of a broadcast frame: over bits 111:8 in the order they are sent, initial value all ones
(R81, R82; log 14). -/
def frameCrc (fr : BitVec 128) : BitVec 16 :=
  (List.range 104).foldl (fun c k => crc16Bit c (fr.getLsbD (8 + k))) 0xFFFF

/-- Fields of a broadcast frame (R82). -/
def frameT (fr : BitVec 128) : Nat := fr.toNat / 2 ^ 8 % 2 ^ 64
def frameLoad (fr : BitVec 128) : Bool := fr.getLsbD 73
def frameCmd (fr : BitVec 128) : Word := BitVec.ofNat 32 (fr.toNat / 2 ^ 80)
def frameSync (fr : BitVec 128) : Bool := fr.toNat % 256 = 0xB4
def frameGood (fr : BitVec 128) : Bool := fr.toNat / 2 ^ 112 = (frameCrc fr).toNat

/-- The frame that the root sends: SYNC, T, BYPASS and LOAD of the running frame, a command word and the CRC (R82). -/
def rootFrame (t : TimeSt) (cmd : Word) : BitVec 128 :=
  let body : BitVec 128 := BitVec.ofNat 128 (0xB4 + t.frameT % 2 ^ 64 * 2 ^ 8 + (b2n t.frameByp + 2 * b2n t.frameLoad) * 2 ^ 72 + cmd.toNat * 2 ^ 80)
  body ||| BitVec.ofNat 128 ((frameCrc body).toNat * 2 ^ 112)

/-- The Time lane at the present edge of the running frame (R80, R82). -/
def timeLane (s : State) (cmd : Word) : Bool := (rootFrame s.time cmd).getLsbD s.time.frameEdge

/-- A path of the build (R27). -/
def isPath (s : State) (f p : Nat) : Bool := decide (f < s.build.flocks) && decide (p < s.build.paths)

/-- A MESH_SET command that names this path (R83): its latency and valid bit. -/
def meshSetFor (fr : BitVec 128) (f p : Nat) : Option (Nat × Bool) :=
  let c := frameCmd fr
  if fld c 28 4 = 1 && fld c 0 9 = f && fld c 9 2 = p then some (fld c 11 6, bitAt c 17) else none

/-- The clean time of a failed path that has locked again starts anew: at a CRC failure of the second frame running or a
replica mismatch, and at a flock with no clock at any CRC failure (R88, R92). -/
def cleanAgain (s : State) (noClock : Bool) (m : MeshPath) : MeshPath :=
  if m.failed && m.locked && (m.mismatch || 2 ≤ m.crcBad || (noClock && 1 ≤ m.crcBad)) then { m with cleanFrom := s.time.total } else m

/-- A MESH_SET for a path: m, frozen throughout bypass on a locked path (R59, R83, R85). -/
def takeMeshSet (bypass : Bool) (set : Option (Nat × Bool)) (m : MeshPath) : MeshPath :=
  match set with
  | some (lat, ok) =>
    if bypass && m.locked then m else { m with m := BitVec.ofNat 6 lat, mValid := ok, repValid := false, mismatch := false }
  | none => m

/-- BROADCAST_FRAME (R82, R83, R84, R88, R92): the path's CRC record, its replica check or load, and a MESH_SET
for it.  DESIGN CHOICE (log 117): a frame whose CRC is good and whose SYNC is not 0xB4 ends a run of CRC failures, and nothing
else of it is used. -/
def execBroadcastFrame (f p : Nat) (fr : BitVec 128) (s : State) : Host.Outcome State Fault Refusal :=
  if isPath s f p then
    let fl := flockOf s f
    let m := pathOf fl p
    if !s.power.meshUp then .next s
    else if !frameGood fr then
      .next (setFlock f (withPath fl p (cleanAgain s fl.noClock { m with crcBad := m.crcBad + 1 })) s)
    else if !frameSync fr then .next (setFlock f (withPath fl p { m with crcBad := 0 }) s)
    else
      let t : Int := frameT fr + m.m.toNat
      let m := { m with crcBad := 0 }
      let m :=
        if m.mValid && !m.repValid then { m with repBase := t + 128 - s.time.frameTot, repValid := true, repFrom := s.time.frameTot, mismatch := false }
        else if m.repValid && frameLoad fr then { m with repBase := t - s.time.frameLast, repFrom := s.time.frameTot, mismatch := false }
        else if m.repValid then { m with mismatch := decide (t ≠ m.repBase + s.time.frameLast) }
        else m
      let m := takeMeshSet s.root.bypass (meshSetFor fr f p) m
      .next (setFlock f (withPath fl p (cleanAgain s fl.noClock m)) s)
  else .fault .noSuchUnit

/-! ### Locking and losing paths -/

/-- Selects the lowest healthy path where the selected one is not healthy (R90). -/
def reselect (f : Nat) (s : State) : State :=
  let h := healthyPaths s f
  let fl := flockOf s f
  if h.contains fl.sel.toNat then s
  else match h with
    | [] => s
    | p :: _ => setFlock f { fl with sel := BitVec.ofNat 2 p } s

/-- The flock's last path has failed: it has no clock and its regions stop, excluded under R130 (R93). -/
def clockLost (f : Nat) (s : State) : State :=
  let s := setFlock f { flockOf s f with noClock := true, lastPath := false } s
  forAll (ownRows f) (fun r t => if inContract t r then autoExclude r t else t) s

/-- What follows when a path goes out of use: another is selected, the last one is reported, or the clock
is lost (R90, R93). -/
def pathGone (f : Nat) (s : State) : State :=
  let s := reselect f s
  match healthyPaths s f with
  | [] => updateSvc f (if (flockOf s f).noClock then s else clockLost f s)
  | [_] =>
    if (flockOf s f).lastPath then s
    else updateSvc f (raiseAbout .bell 4 f (setFlock f { flockOf s f with lastPath := true } s))
  | _ => s

/-- What follows when a path comes into use: the lowest healthy one is selected where none was, and LAST_PATH is
reported while one path is healthy, once the mesh has been ready, and ends while two are (R84, R92, R93).  DESIGN CHOICE (log 130):
as a flock's paths first lock one after the other, the first stays selected but where it is not healthy. -/
def pathBack (f : Nat) (s : State) : State :=
  let s := reselect f s
  let fl := flockOf s f
  let lone := onLastPath s f && (s.power.meshReady || fl.lastPath)
  let s := if lone && !fl.lastPath then raiseAbout .bell 4 f s else s
  updateSvc f (setFlock f { fl with noClock := fl.noClock && (healthyPaths s f).isEmpty, lastPath := lone } s)

/-- MESH_READY: every flock has a locked path (R84, R102); a flock that has one only reports it, and the fabric domain
leaves reset (R93, R501). -/
def meshReadyCheck (s : State) : State :=
  if s.power.meshReady || !meshReadyNow s then s
  else
    let s := forAll (List.range s.build.flocks) pathBack { s with power := { s.power with meshReady := true } }
    if s.lc.erasing || !s.power.pgood then s else fabricLeaves s

/-- The forward delay d, which m and δ give, lies between 4 and 248 ns: between 1 and 62 ticks, in steps of 1/1,024 tick
(R81, R84). -/
def delayOk (m delta : Nat) : Bool := 1024 ≤ 1024 * m - delta && 1024 * m - delta ≤ 62 * 1024

/-- The path keeps the limits of R81: its forward delay, and at most 10 ps between its clock lane and its echo lane. -/
def pathFits (m : Nat) (d : PathDelay) : Bool := delayOk m d.delta.toNat && decide (d.lanePs ≤ 10)

/-- PATH_LOCK_DONE (R81, R84, R92, R102): δ acquired, m set valid, the replica loaded, and a frame after the one that loaded it
matches; LOCKED is set, and a path that relocks after its tap calibration is re-admitted (R352).  A failed path begins its
clean time instead.  A path whose delay or lane mismatch is out of its limits does not lock (R81). -/
def execPathLockDone (f p : Nat) (d : PathDelay) (fr : BitVec 128) (s : State) : Host.Outcome State Fault Refusal :=
  if isPath s f p then
    let fl := flockOf s f
    let m := pathOf fl p
    if s.power.meshUp && !s.root.bypass && s.root.refOk && m.mValid && m.repValid && !m.locked && pathFits m.m.toNat d && frameSync fr &&
       frameGood fr && decide (m.repFrom ≤ s.time.frameLast) && decide ((frameT fr : Int) + m.m.toNat = m.repBase + s.time.frameLast) then
      let s := setFlock f (withPath fl p { m with locked := true, calOut := false, tapsOld := none, delta := d.delta, crcBad := 0, mismatch := false,
                                                  cleanFrom := s.time.total, trackAt := elapsed s }) s
      .next (meshReadyCheck (if m.failed then s else pathBack f s))
    else .next s
  else .fault .noSuchUnit

/-- DELTA_TRACK (R59, R85, R89): 256 ticks after its last step δ moves one step toward the delay; at a wrap m moves the
other way and the flock time stays continuous.  δ and m are frozen throughout bypass, and held while the counter is. -/
def execDeltaTrack (f p : Nat) (late : Bool) (s : State) : Host.Outcome State Fault Refusal :=
  if isPath s f p then
    let fl := flockOf s f
    let m := pathOf fl p
    if !m.locked || s.root.bypass || s.time.held || elapsed s < m.trackAt + 256 then .next s
    else
      let m :=
        if late then
          (if m.delta = 0 then { m with delta := 1023, m := m.m + 1, repBase := m.repBase + 1 } else { m with delta := m.delta - 1 })
        else
          (if m.delta = 1023 then { m with delta := 0, m := m.m - 1, repBase := m.repBase - 1 } else { m with delta := m.delta + 1 })
      .next (setFlock f (withPath fl p { m with trackAt := elapsed s }) s)
  else .fault .noSuchUnit

/-- The other locked paths of flock f. -/
def otherLocked (s : State) (f p : Nat) : List Nat :=
  (List.range s.build.paths).filter (fun q => decide (q ≠ p) && (pathOf (flockOf s f) q).locked)

/-- Path p is judged with no other path beside it: it is the flock's last healthy one, reported as such, or the flock has no clock
(R88, R92, R93). -/
def judgedAlone (s : State) (f p : Nat) : Bool :=
  (flockOf s f).noClock || ((flockOf s f).lastPath && decide (healthyPaths s f = [p]))

/-- Path p can depart from the selected one: another that is locked, or, for the selected path itself, two others that agree (R88,
R91). -/
def mayDepart (s : State) (f p : Nat) : Bool :=
  if (flockOf s f).sel.toNat = p then decide (2 ≤ (otherLocked s f p).length) else (otherLocked s f p).contains (flockOf s f).sel.toNat

/-- The cause of R88 that a PATH_FAIL names holds: never while the counter is held (R89), and only while another locked path
delivers its edge, but for a path that is judged alone (R88, R93); CRC failures and mismatches stand in the path's records, the
rest is observed. -/
def faultHolds (s : State) (f p : Nat) (cause : PathFault) : Bool :=
  let m := pathOf (flockOf s f) p
  !s.time.held && (judgedAlone s f p || !(otherLocked s f p).isEmpty) &&
  match cause with
  | .noEdge => true
  | .departs => mayDepart s f p
  | .crcTwice => 2 ≤ m.crcBad
  | .mismatch => m.mismatch
  | .echoLost => true

/-- The path is failed under R88: FAILS counts, PATH_FAIL is raised, and the path needs the lock sequence of R84 from
its MESH_SET on (R92; log 84). -/
def failPath (f p : Nat) (s : State) : State :=
  let fl := flockOf s f
  let m := pathOf fl p
  let fl := withPath fl p { m with failed := true, locked := false, mValid := false, repValid := false, crcBad := 0, mismatch := false }
  raiseAbout .bell 2 f (setFlock f { fl with fails := if fl.fails = 255 then 255 else fl.fails + 1 } s)

/-- PATH_FAIL (R88 to R93): the path, or of two that disagree the one not selected, fails; the aligner
substitutes and selects the lowest healthy path, and a flock with none left loses its clock.  A failed path that has locked again
and is not clean in its clean time must lock anew (R92; DESIGN CHOICE, log 84), with no event. -/
def execPathFail (f p : Nat) (cause : PathFault) (s : State) : Host.Outcome State Fault Refusal :=
  if isPath s f p then
    let fl := flockOf s f
    let m := pathOf fl p
    if m.locked && !m.failed && faultHolds s f p cause then
      let h := healthyPaths s f
      let pair := cause = .mismatch && h.length = 2 && h.contains p
      let victim := if pair then (h.filter (· ≠ fl.sel.toNat)).headD p else p
      let s := failPath f victim s
      let s := if pair then raiseAbout .bell 5 f s else s
      .next (pathGone f s)
    else if m.failed && m.locked && faultHolds s f p cause && !(fl.noClock && (cause = .noEdge || cause = .departs)) then
      .next (setFlock f (withPath fl p { m with locked := false, mValid := false, repValid := false, crcBad := 0, mismatch := false }) s)
    else .next s
  else .fault .noSuchUnit

/-- PATH_RETURN (R92): the failed path has locked again and stayed clean for 65,536 ticks. -/
def execPathReturn (f p : Nat) (s : State) : Host.Outcome State Fault Refusal :=
  if isPath s f p then
    let fl := flockOf s f
    let m := pathOf fl p
    if m.failed && m.locked && !m.mismatch && m.crcBad < (if fl.noClock then 1 else 2) && m.cleanFrom + 65536 ≤ s.time.total then
      .next (pathBack f (raiseAbout .bell 3 f (setFlock f (withPath fl p { m with failed := false }) s)))
    else .next s
  else .fault .noSuchUnit

/-- A write of FLOCK_MESH_CTRL (R94, R106): paths leave or come into use with no PATH_FAIL. -/
def writeMeshCtrl (f : Nat) (v : Word) (s : State) : State :=
  let before := (healthyPaths s f).length
  let s := nowPut (flockAddr f 0xC) v s
  if (healthyPaths s f).length < before then pathGone f s else pathBack f s

/-- MESH_DISABLE (R93, R94, R106). -/
def execMeshDisable (w : Wr) (f : Nat) (v : Word) (s : State) : Host.Outcome State Fault Refusal :=
  .next (regWrite w (flockAddr f 0xC) v [] (whereFlock f (writeMeshCtrl f v)) s)

end Sys2Proof.Machine
end

