-- ==== Sys2Proof/Machine/Root.lean ====
section
/-!
DEFINITION. The crystal, the root synthesizers and bypass (R33 to R75, R542), and the root commands.
-/
namespace Sys2Proof.Machine
open Sys2Proof

/-! ### Dividers and bands -/

/-- The crystal in MHz by its sampled strap; 11 is treated as 00 (R33, R34). -/
def crystalMHz (sel : BitVec 2) : Nat := if sel = 1 then 25 else if sel = 2 then 100 else 50

/-- Twice the detector frequency in MHz of a reference mode; the reserved mode gives 0 (R39, R68). -/
def detector2 (sel : BitVec 2) (mode : Nat) : Nat :=
  if mode = 0 then 2 * crystalMHz sel else if mode = 1 then 4 * crystalMHz sel
  else if mode = 2 then crystalMHz sel else 0

/-- R39: the detector runs at 25, 50 or 100 MHz, D_T is 18 to 22, and N × detector = 250 MHz × D_T. -/
def dividersValid (sel : BitVec 2) (mode n dT : Nat) : Bool :=
  let d := detector2 sel mode
  (d = 50 || d = 100 || d = 200) && 18 ≤ dT && dT ≤ 22 && n * d = 500 * dT

/-- Band b of a table is usable for f_vco (R42), in MHz; tenths keep the 0.2 and 0.8 exact. -/
def bandUsable (e : Word) (fvco : Nat) : Bool :=
  bitAt e 31 && 10 * fld e 8 13 + 2 * fld e 21 9 ≤ 10 * fvco && 10 * fvco ≤ 10 * fld e 8 13 + 8 * fld e 21 9

/-- Twice the distance of a band's centre from f_vco. -/
def bandMiss (e : Word) (fvco : Nat) : Nat :=
  let c := 2 * fld e 8 13 + fld e 21 9
  (c - 2 * fvco) + (2 * fvco - c)

/-- The band that R42 selects: the usable one with the closest centre, the lower number on a tie. -/
def selectRootBand (t : Tab Word) (fvco : Nat) : Option Nat :=
  (List.range 16).foldl (fun best b =>
    let e := tabGet t b 0
    if bandUsable e fvco then
      match best with
      | none => some b
      | some a => if bandMiss e fvco < bandMiss (tabGet t a 0) fvco then some b else best
    else best) none

/-! ### Roles -/

/-- The number of a synthesizer. -/
def synIx : Syn → Nat
  | .s0 => 0
  | .s1 => 1

/-- The synthesizer of a number. -/
def synNum (k : Nat) : Syn := if k = 0 then .s0 else .s1

/-- ROOT_CTRL.PREF, SPARE_EN and BYPASS_FORCE (R67). -/
def prefSyn (s : State) : Syn := synNum (fld (nowGet s 0x2000) 0 1)
def spareEn (s : State) : Bool := bitAt (nowGet s 0x2000) 1
def bypassForce (s : State) : Bool := bitAt (nowGet s 0x2000) 2

/-- The synthesizer drives the tick mesh: none does in bypass. -/
def driving (s : State) (y : Syn) : Bool := !s.root.bypass && s.root.active = y

/-- The spare may take the mesh (R52): locked and aligned, or, while frozen, so at the freeze, not failed by its own
monitor and not under charge-pump calibration (R63, R354). -/
def spareReady (s : State) (y : Syn) : Bool :=
  let x := synOf s y
  x.powered && !driving s y &&
  (if x.frozen then x.readyAtFreeze && !x.failed && !x.pumpCal else x.locked && s.root.aligned)

/-- A band measurement of synthesizer y runs (R44). -/
def measuring (s : State) (y : Syn) : Bool :=
  match s.root.meas with
  | some m => m.syn = y
  | none => false

/-- A synthesizer drops lock and, where it is powered and the crystal is good, starts to acquire: it selects its
band, or raises NO_BAND and makes no further attempt until its table is written (R36, R42, R51). -/
def startAcquire (y : Syn) (s : State) : State :=
  let x := { synOf s y with locked := false, qualified := false, acquiring := false, pumpCal := false }
  if !x.powered || !s.root.refOk || x.noBand || measuring s y then setSyn y x s
  else
    match selectRootBand x.table (250 * x.dT.toNat) with
    | some b => setSyn y { x with acquiring := true, band := BitVec.ofNat 4 b } s
    | none => raise .root 8 (setSyn y { x with noBand := true } s)

/-- A powered synthesizer that neither holds lock nor acquires starts to (R36). -/
def enableSyn (y : Syn) (s : State) : State :=
  let x := synOf s y
  if x.powered && !x.locked && !x.acquiring && !x.failed then startAcquire y s else s

/-- The non-preferred synthesizer is powered down while SPARE_EN is 0, unless it drives the mesh, and up
again while it is 1 (R55; log 13). -/
def sparePower (s : State) : State :=
  let o := otherSyn (prefSyn s)
  let x := synOf s o
  if spareEn s then
    (if x.powered then s else enableSyn o (setSyn o { x with powered := true } s))
  else if driving s o || !x.powered then s
  else
    let s := setSyn o { x with powered := false, locked := false, qualified := false, acquiring := false, pumpCal := false } s
    { s with root := { s.root with aligned := if s.root.bypass then s.root.aligned else false } }

/-- The mesh switches to synthesizer y on the next tick edge, no tick lost or added (R52, R54). -/
def switchTo (y : Syn) (s : State) : State :=
  let old := synOf s (otherSyn y)
  let s := { s with root := { s.root with active := y, aligned := old.locked && !old.failed } }
  raise .root 2 s

/-- R54: when PREF names the warm spare and it is ready, the mesh switches to it. -/
def prefSwitch (s : State) : State :=
  if !s.root.bypass && s.root.active ≠ prefSyn s && spareReady s (prefSyn s) then
    let y := prefSyn s
    let o := otherSyn y
    let s := switchTo y s
    let x := synOf s o
    setSyn o { x with phaseResets := x.phaseResets + 1 } s
  else s

/-- PREF and SPARE_EN act together: the waiting switch is made once the spare is ready, and then the synthesizer that
SPARE_EN = 0 keeps off is powered down (R54, R55). -/
def prefAct (s : State) : State := sparePower (prefSwitch s)

/-- What every entry to bypass does: no spare is aligned and no charge pump is calibrated, the results of calibration holds that run are discarded,
a synthesizer that SPARE_EN = 0 keeps off is powered down, and BYP_ENTER is raised (R55, R56, R354, R359). -/
def bypassEntered (s : State) : State :=
  let s := { s with
    root := { s.root with bypass := true, aligned := false, s0 := { s.root.s0 with pumpCal := false },
                          s1 := { s.root.s1 with pumpCal := false } },
    regions := s.regions.map (fun e => (e.1, { e.2 with hold := e.2.hold.map (fun h => { h with discard := true }) })) }
  raise .root 3 (sparePower s)

/-- Entry to bypass: at the first bypass edge after it, the n-th since V was recorded, the counter takes V + 5 n unless that
is less than its value (R56). -/
def enterBypass (n : Nat) (s : State) : State :=
  bypassEntered { s with root := { s.root with bypTarget := s.root.recV + 5 * (n - 1), lateEdges := n - 1 } }

/-- The edges on their way to the flocks, at most 63 ticks away, arrive as the counter holds (R79, R81; DEDUCED, log 144: at once). -/
def arriveAll (s : State) : TimeSt := { s.time with trail := [(elapsed s - 63, s.time.total)] }

/-- The counter holds for want of any clock: TIME_LOST, every drover parks its regions and suspends the
fold; the edges already sent still arrive (R66, R79, R542). -/
def loseTime (s : State) : State :=
  raise .root 10 { s with time := { arriveAll s with held := true }, fold := { s.fold with suspended := true } }

/-- After a hold the fabric resumes in bypass; the time without edges is not counted (R66, R542). -/
def resumeHeld (s : State) : State :=
  if s.time.held then
    let s := { s with
      root := { s.root with bypTarget := s.time.counter, lateEdges := 0 },
      time := { s.time with held := false }, fold := { s.fold with suspended := false } }
    if s.root.bypass then s else bypassEntered s
  else s

/-- The dividers of one synthesizer as another record of it has them. -/
def dividersOf (x o : Synth) : Synth := { x with refMode := o.refMode, n := o.n, dT := o.dT }

/-- The lock of synthesizer y, where the apply took it and nothing else of the tick did (R44, R48, R55). -/
def relocks (s : State) (retuned : Bool) (y : Syn) : Bool :=
  retuned && (synOf s y).powered && !(synOf s y).failed && !measuring s y && !driving s y

/-- One synthesizer without the apply of this tick: its dividers are as before; where `relock`, it holds lock as before (R48). -/
def unapplySyn (relock : Bool) (x o : Synth) : Synth :=
  let y := dividersOf x o
  if relock then
    { y with locked := o.locked, qualified := o.qualified, acquiring := o.acquiring, band := o.band, noBand := o.noBand, pumpCal := o.pumpCal }
  else y

/-- The state had the apply of this tick not been made: the synthesizers' dividers, the lock and ALIGNED that it took, DIV_TAG and the
events are as before it (R48). -/
def unapply (u : ApplyUndo) (s : State) : State :=
  let r0 := relocks s u.retuned0 .s0
  let r1 := relocks s u.retuned1 .s1
  unraise .root [7, 8] u.raised { s with root := { s.root with
    s0 := unapplySyn r0 s.root.s0 u.s0, s1 := unapplySyn r1 s.root.s1 u.s1,
    aligned := if r0 || r1 then u.aligned else s.root.aligned, divTag := u.divTag, applied := none } }

/-- A write of ROOT_DIV_APPLY waits for the next tick edge (R48). -/
def deferApply (v : Word) (s : State) : State :=
  { s with out := { s.out with captures := s.out.captures ++ [⟨⟨.host, 15, none⟩, 0x200C, v, []⟩] } }

/-- An automatic switchover to synthesizer y, noted for an apply of the same tick (R48, R52). -/
def takeOverMesh (y : Syn) (s : State) : State :=
  let t := switchTo y s
  { t with root := { t.root with switchedAt := some (elapsed s) } }

/-- A switchover that falls in the tick of an apply takes that tick where the spare was ready before it: the apply is
evaluated on the next tick edge, against the new roles (R48). -/
def switchOverApply (y : Syn) (s : State) : Option State :=
  match s.root.applied with
  | some u =>
    let t := unapply u s
    if u.tick = elapsed s && spareReady t (otherSyn y) then some (deferApply u.word (takeOverMesh (otherSyn y) t)) else none
  | none => none

/-- What follows when the driving synthesizer is lost: the ready spare takes over, else bypass, else,
with no bypass edge either, the counter holds (R48, R52, R66).  `both`: the other is lost in the same detector cycle, and no
switchover falls in the tick (R55). -/
def driverLost (y : Syn) (both : Bool) (edges : Nat) (s : State) : State :=
  match (if both then none else switchOverApply y s) with
  | some t => t
  | none =>
    if spareReady s (otherSyn y) then takeOverMesh (otherSyn y) s
    else if s.root.missing then loseTime s
    else enterBypass edges s

/-! ### The crystal -/

/-- The crystal has shown 65,536 consecutive bypass-clock edges with no missing edge (R36, R63). -/
def qualifiedEdges (s : State) : Bool := decide (65536 ≤ s.root.goodEdges)

/-- CRYSTAL_QUALIFIED (R36): after 65,536 consecutive edges REF_OK is set, the synthesizers are enabled, and the
counter counts from the next bypass edge.  After a declared loss the requalification is REF_RETURN. -/
def execCrystalQualified (s : State) : Host.Outcome State Fault Refusal :=
  if s.root.refOk || s.root.refLost || !qualifiedEdges s then .next s
  else .next (enableSyn .s1 (enableSyn .s0 { s with root := { s.root with refOk := true, bypTarget := s.time.counter } }))

/-- One synthesizer freezes its tuning (R62, R63). -/
def freezeSyn (y : Syn) (s : State) : State :=
  let x := synOf s y
  let ok := x.powered && x.locked && !s.root.bypass && (s.root.active = y || s.root.aligned)
  setSyn y { x with frozen := true, readyAtFreeze := ok } s

/-- One synthesizer that has not failed unfreezes (R64, R65). -/
def thawSyn (y : Syn) (s : State) : State :=
  let x := synOf s y
  if x.failed then s else setSyn y { x with frozen := false, readyAtFreeze := false } s

/-- A synthesizer failed while frozen is released and reacquires (R63). -/
def releaseFailed (y : Syn) (s : State) : State :=
  let x := synOf s y
  if x.failed then startAcquire y (setSyn y { x with failed := false, frozen := false, readyAtFreeze := false } s) else s

/-- Repeats that run carry flag 6 after a missing crystal edge (R312). -/
def tallyRefLost (s : State) : State :=
  forAll [0, 1, 2, 3] (fun u t =>
    let x := tallyUnit t u
    if x.state = .waiting || x.state = .calibrating || x.state = .measuring then setTally u { x with refLost := true } t else t) s

/-- MISSING_CRYSTAL_EDGE (R36, R62, R312, R542): the count of good edges starts again; of a crystal that is
qualified, both synthesizers freeze, and in tick mode the slow clock moves to the tick ÷ 40, in bypass the counter
holds and TIME_LOST is raised. -/
def execMissingCrystalEdge (s : State) : Host.Outcome State Fault Refusal :=
  let s := { s with root := { s.root with goodEdges := 0 } }
  if s.root.missing || !s.root.refOk then .next s
  else
    let s := { s with root := { s.root with
      missing := true, missedAt := elapsed s, slowFromTick := !s.root.bypass, stopped := s.root.stopped || s.root.bypass } }
    let s := tallyRefLost (freezeSyn .s1 (freezeSyn .s0 s))
    .next (if s.root.bypass then loseTime s else s)

/-- Bypass is entered at a bypass edge that finds BYPASS_FORCE 1: the counter stands at V, and counts on from it (R60). -/
def forceEdge (s : State) : State :=
  if bypassForce s && !s.root.bypass && !s.root.missing && decide (s.time.slow % 5 = 0) then
    bypassEntered { s with root := { s.root with bypTarget := s.time.counter, lateEdges := 0 } }
  else s

/-- The 64 expected bypass-clock periods, of 5 ticks each, have passed since the missing edge (R64). -/
def past64 (s : State) : Bool := decide (s.root.missedAt + 64 * 5 ≤ elapsed s)

/-- No more than the 64 expected periods have passed (R64). -/
def within64 (s : State) : Bool := decide (elapsed s ≤ s.root.missedAt + 64 * 5)

/-- EDGES_RESUME (R54, R63, R64, R542): edges resume within 64 expected periods; the loops that have not failed unfreeze, a
switch that PREF waits for is made, and no event is raised for the crystal.  In bypass, or with the counter held, no clock of
the fabric counts the gap: there the sender has counted it. -/
def execEdgesResume (s : State) : Host.Outcome State Fault Refusal :=
  if s.root.missing && !s.root.refLost && (s.root.bypass || s.time.held || within64 s) then
    let s := { s with root := { s.root with missing := false, slowFromTick := false } }
    .next (prefAct (resumeHeld (thawSyn .s1 (thawSyn .s0 s))))
  else .next s

/-- REF_LOSS (R64): no edge has come within 64 expected periods; REF_OK clears.  In bypass, or with the counter held, the
sender has counted. -/
def execRefLoss (s : State) : Host.Outcome State Fault Refusal :=
  if s.root.missing && !s.root.refLost && (s.root.bypass || s.time.held || past64 s) then
    .next (raise .root 5 { s with root := { s.root with refOk := false, refLost := true } })
  else .next s

/-- REF_RETURN (R36, R63, R65, R66): the crystal has requalified; the loops unfreeze with no phase step, the new
relation between crystal edges and counter values is recorded, failed synthesizers reacquire, a held counter resumes
in bypass. -/
def execRefReturn (s : State) : Host.Outcome State Fault Refusal :=
  if s.root.refLost && qualifiedEdges s then
    let s := { s with root := { s.root with
      refOk := true, refLost := false, missing := false, slowFromTick := false, recV := s.time.counter } }
    let s := raise .root 6 s
    let s := releaseFailed .s1 (releaseFailed .s0 (thawSyn .s1 (thawSyn .s0 s)))
    .next (prefAct (resumeHeld (enableSyn .s1 (enableSyn .s0 s))))
  else .next s

/-- FROZEN_FAILURE_COUNT_END (R63): after edges resumed without a declared loss, the count of 65,536 edges ends;
REF_OK stays set and no event is raised. -/
def execFrozenFailureCountEnd (s : State) : Host.Outcome State Fault Refusal :=
  if !s.root.missing && !s.root.refLost && qualifiedEdges s then .next (releaseFailed .s1 (releaseFailed .s0 s)) else .next s

/-! ### Lock -/

/-- The event bit LOSS0 or LOSS1. -/
def lossBit (y : Syn) : Nat := synIx y

/-- A synthesizer loses lock: its event is raised and it begins to reacquire (R51). -/
def dropLock (y : Syn) (s : State) : State := raise .root (lossBit y) (startAcquire y s)

/-- FROZEN_OUTPUT_FAIL (R63, R66): a tick interval above 6 ns or below 2 ns fails a frozen synthesizer; the
failure acts as a lock loss. -/
def execFrozenOutputFail (y : Syn) (ps : Nat) (s : State) : Host.Outcome State Fault Refusal :=
  let x := synOf s y
  if x.frozen && !x.failed && x.powered && (6000 < ps || ps < 2000) then
    let drove := driving s y
    let s := setSyn y { x with failed := true, locked := false, qualified := false, acquiring := false, pumpCal := false } s
    let s := raise .root (lossBit y) s
    .next (if drove then driverLost y false 1 s
           else { s with root := { s.root with aligned := false } })
  else .next s

/-- LOCK_LOSS (R20, R51, R52, R55, R56): phase error beyond ±400 ps on two consecutive detector cycles, or
a cycle slip; suppressed while frozen (R62).  `both`: the other synthesizer loses lock in the same cycle;
`edges` is the n of R56. -/
def execLockLoss (y : Syn) (err1 err2 : Int) (slip both : Bool) (edges : Nat) (s : State) :
    Host.Outcome State Fault Refusal :=
  let x := synOf s y
  let o := synOf s (otherSyn y)
  if x.locked && !x.frozen && (slip || (400 < err1.natAbs && 400 < err2.natAbs)) then
    let drove := driving s y
    let otherDrove := driving s (otherSyn y)
    let s := dropLock y s
    let also := both && o.locked && !o.frozen
    let s := if also then dropLock (otherSyn y) s else s
    .next (if drove then driverLost y both edges s
           else if also && otherDrove then driverLost (otherSyn y) both edges { s with root := { s.root with aligned := false } }
           else { s with root := { s.root with aligned := false } })
  else .next s

/-- LOCK_ACQUIRED (R42, R51): the synthesizer attains lock in the band that it selected when it started to acquire.  DESIGN CHOICE (log
124): no least time of acquisition is held. -/
def execLockAcquired (y : Syn) (s : State) : Host.Outcome State Fault Refusal :=
  let x := synOf s y
  if x.acquiring && x.powered && !x.frozen then
    .next (setSyn y { x with locked := true, acquiring := false, lockAt := elapsed s } s)
  else .next s

/-- SYNTH_QUALIFIED (R53, R54): lock held for 327,680 ticks; with another synthesizer driving it becomes
warm spare, its divider phase-reset from the active tick. -/
def execSynthQualified (y : Syn) (s : State) : Host.Outcome State Fault Refusal :=
  let x := synOf s y
  if x.locked && !x.qualified && !x.frozen && decide (x.lockAt + 327680 ≤ elapsed s) then
    let s := setSyn y { x with qualified := true } s
    if !s.root.bypass && s.root.active ≠ y then
      let s := setSyn y { synOf s y with phaseResets := x.phaseResets + 1 } s
      .next (prefAct { s with root := { s.root with aligned := true } })
    else .next s
  else .next s

/-- The synthesizer that returns from bypass: qualified, and PREF's where both are; after a crystal that stopped in
bypass, none until the crystal has requalified (R61, R542).  DESIGN CHOICE (log 129): PREF names it also where the two qualified on
different edges while BYPASS_FORCE kept the fabric in bypass. -/
def mayReturn (s : State) (y : Syn) : Bool :=
  (!s.root.stopped || qualifiedEdges s) &&
  (synOf s y).qualified && (synOf s y).locked &&
  (!((synOf s (otherSyn y)).qualified && (synOf s (otherSyn y)).locked) || prefSyn s = y)

/-- BYP_EXIT (R61, R501): the returning divider is phase-reset from the bypass clock; when its tick edges
coincide with the next two bypass edges the mesh returns to the tick clock.  The mesh and aligners leave
reset at the first such return with the fabric supply good. -/
def execBypExit (y : Syn) (edge1 edge2 : Bool) (s : State) : Host.Outcome State Fault Refusal :=
  if s.root.bypass && !bypassForce s && !s.root.missing && !s.time.held && s.root.refOk && mayReturn s y then
    let s := setSyn y { synOf s y with phaseResets := (synOf s y).phaseResets + 1 } s
    if edge1 && edge2 then
      let o := otherSyn y
      let spare := (synOf s o).qualified && (synOf s o).locked
      let s := { s with root := { s.root with bypass := false, active := y, aligned := spare, recV := s.time.counter, stopped := false },
                        power := { s.power with meshUp := s.power.meshUp || s.power.pgood } }
      let s := if spare then setSyn o { synOf s o with phaseResets := (synOf s o).phaseResets + 1 } s else s
      .next (raise .root 4 (prefAct s))
    else .next s
  else .next s

/-! ### Root registers -/

/-- A write of ROOT_CTRL: PREF and SPARE_EN act together; BYPASS_FORCE acts at the next bypass edge (R54, R55, R60, R67). -/
def writeRootCtrl (v : Word) (s : State) : State :=
  let s := prefAct (nowPut 0x2000 v s)
  let pref := prefSyn s
  if (synOf s pref).powered then s else enableSyn pref (setSyn pref { synOf s pref with powered := true } s)

/-- PREF_WRITE (R54, R67). -/
def execPrefWrite (w : Wr) (v : Word) (s : State) : Host.Outcome State Fault Refusal :=
  .next (regWrite w 0x2000 v [] (writeRootCtrl v) s)

/-- SPARE_EN_WRITE (R55, R67). -/
def execSpareEnWrite (w : Wr) (v : Word) (s : State) : Host.Outcome State Fault Refusal :=
  .next (regWrite w 0x2000 v [] (writeRootCtrl v) s)

/-- BYPASS_FORCE (R60, R67). -/
def execBypassForce (w : Wr) (v : Word) (s : State) : Host.Outcome State Fault Refusal :=
  .next (regWrite w 0x2000 v [] (writeRootCtrl v) s)

/-- The shadow of a synthesizer: REF_MODE, N, D_T (R68). -/
def shadowOf (s : State) (y : Syn) : Nat × Nat × Nat :=
  let v := nowGet s (if y = .s0 then 0x2004 else 0x2008)
  (fld v 0 2, fld v 8 8, fld v 16 5)

/-- The apply of a named synthesizer must be rejected (R46). -/
def applyRejects (s : State) (y : Syn) : Bool :=
  let (mode, n, dT) := shadowOf s y
  let x := synOf s y
  !dividersValid s.root.xtalSel mode n dT ||
  (driving s y && (dT ≠ x.dT.toNat ||
    n * detector2 s.root.xtalSel mode ≠ x.n.toNat * detector2 s.root.xtalSel x.refMode.toNat))

/-- A named synthesizer loads its dividers; a standby one whose VCO target changes drops lock and
reacquires (R45, R47). -/
def loadDividers (y : Syn) (s : State) : State :=
  let (mode, n, dT) := shadowOf s y
  let x := synOf s y
  let retune := dT ≠ x.dT.toNat
  let s := setSyn y { x with refMode := BitVec.ofNat 2 mode, n := BitVec.ofNat 8 n, dT := BitVec.ofNat 5 dT } s
  if retune && !driving s y then
    let s := startAcquire y s
    { s with root := { s.root with aligned := if s.root.active = y then s.root.aligned else false } }
  else s

/-- An apply: the named synthesizers load together, or it is rejected as a whole with DIV_REJECT (R45, R46). -/
def applyDividers (v : Word) (s : State) : State :=
  let named := fun y => bitAt v (8 + synIx y)
  if (named .s0 && applyRejects s .s0) || (named .s1 && applyRejects s .s1) then raise .root 7 s
  else
    let s := if named .s0 then loadDividers .s0 s else s
    let s := if named .s1 then loadDividers .s1 s else s
    { s with root := { s.root with divTag := BitVec.ofNat 8 (fld v 0 8) } }

/-- A write of ROOT_DIV_APPLY with a new TAG makes an apply, on the next tick edge where a switchover has taken this one; what it
changes is kept for a switchover of the same tick (R45, R48, R69). -/
def writeDivApply (v : Word) (s : State) : State :=
  let s := nowPut 0x200C v s
  if fld v 0 8 = s.root.divTag.toNat then s
  else if s.root.switchedAt = some (elapsed s) then deferApply v s
  else
    let t := applyDividers v s
    let drops := fun (y : Syn) => bitAt v (8 + synIx y) && decide ((synOf t y).dT ≠ (synOf s y).dT)
    { t with root := { t.root with applied := some {
        tick := elapsed s, word := v, s0 := s.root.s0, s1 := s.root.s1, aligned := s.root.aligned, divTag := s.root.divTag,
        retuned0 := drops .s0, retuned1 := drops .s1, raised := newBits .root s t } } }

/-- DIV_APPLY (R45 to R47, R69). -/
def execDivApply (w : Wr) (v : Word) (s : State) : Host.Outcome State Fault Refusal :=
  .next (regWrite w 0x200C v [] (writeDivApply v) s)

/-- Implemented bits of a root band table entry (R41). -/
def rootEntryMask : Word := 0xBFFFFFFF

/-- A write of ROOT_BTAB_DATA: the entry the writing port's ROOT_BTAB_SEL names, at once, and through to the
retention RAM; a synthesizer waiting with NO_BAND tries again (R42, R43, R72, R498). -/
def writeRootBtab (p : Port) (v : Word) (s : State) : State :=
  let sel := nowGet s (portKey p 0x201C)
  let b := fld sel 0 4
  let y := synNum (fld sel 4 1)
  let e := v &&& rootEntryMask
  let x := synOf s y
  let s := setSyn y { x with table := tabSet x.table b e 0, noBand := false } s
  let s := if x.noBand then enableSyn y s else s
  { s with ret := memWrite s.ret (0x40 + 64 * synIx y + 4 * b) (leBytes 4 e.toNat) }

/-- ROOT_BTAB_WRITE (R41, R43, R72, R498). -/
def execRootBtabWrite (w : Wr) (v : Word) (s : State) : Host.Outcome State Fault Refusal :=
  .next (regWrite w 0x2020 v [] (writeRootBtab w.port v) s)

/-- A write of ROOT_MEAS that is performed: with a new TAG it is rejected for the driving synthesizer, else the
measurement starts and the synthesizer leaves lock (R44, R73).  DESIGN CHOICE (log 55): that raises no LOSS0 or LOSS1. -/
def performMeas (v : Word) (s : State) : State :=
  let s := nowPut 0x2024 v s
  if fld v 8 8 = s.root.measTag.toNat then s
  else
    let y := synNum (fld v 4 1)
    let tag := BitVec.ofNat 8 (fld v 8 8)
    if driving s y then { s with root := { s.root with measStatus := 1, measTag := tag } }
    else
      let x := synOf s y
      let s := setSyn y { x with locked := false, qualified := false, acquiring := false, pumpCal := false, readyAtFreeze := false } s
      { s with root := { s.root with
          meas := some { syn := y, band := BitVec.ofNat 4 (fld v 0 4), tune := bitAt v 5, tag := tag, start := elapsed s },
          measStatus := 3, aligned := if s.root.active = y then s.root.aligned else false } }

/-- A write of ROOT_MEAS: withheld while a measurement runs (R442). -/
def writeRootMeas (p : Port) (v : Word) (s : State) : State :=
  if s.root.meas.isSome then { s with root := { s.root with heldMeas := s.root.heldMeas ++ [(p, v)] } } else performMeas v s

/-- The withheld writes take effect in order, until one starts a measurement again (R442). -/
def releaseMeas (held : List (Port × Word)) (s : State) : State :=
  match held with
  | [] => s
  | e :: r =>
    if s.root.meas.isSome then { s with root := { s.root with heldMeas := e :: r } } else releaseMeas r (performMeas e.2 s)

/-- ROOT_MEAS (R44, R73). -/
def execRootMeas (w : Wr) (v : Word) (s : State) : Host.Outcome State Fault Refusal :=
  .next (regWrite w 0x2024 v [] (writeRootMeas w.port v) s)

/-- The ticks of a band measurement: 10 µs, and 4,096 bypass-clock edges (R43). -/
def measTicks : Nat := 2500 + 5 * 4096

/-- ROOT_MEAS_DONE (R43, R73, R442): COUNT, TAG and STATUS appear, the synthesizer acquires lock again, and withheld
writes of ROOT_MEAS follow. -/
def execRootMeasDone (count : BitVec 16) (s : State) : Host.Outcome State Fault Refusal :=
  match s.root.meas with
  | none => .next s
  | some m =>
    if elapsed s < m.start + measTicks then .next s else
    let held := s.root.heldMeas
    let s := { s with root := { s.root with
      meas := none, heldMeas := [], measCount := count, measTag := m.tag, measStatus := 0 } }
    .next (releaseMeas held (startAcquire m.syn s))

/-- A write of ROOT_AGE: firmware's next transfer starts from the value written (R75, R383). -/
def writeRootAge (v : Word) (s : State) : State :=
  let s := nowPut 0x2034 v s
  { s with mus := { s.mus with ageSteps := 0 } }

/-- Of the steps by which CURRENT is still to move, those that firmware asked for: as many, in that direction (R37, R383). -/
def ownSteps (left asked : Int) : Int := max (min 0 left) (min asked (max 0 left))

/-- A write of ROOT_AGE by firmware: n steps from the TARGET that stands when it is performed, within 12 bits; `lowers`: F is lowered
as they are applied, as it is for its mean but not for the slope added in holdover (R38, R382, R383). -/
def stepRootAge (n : Int) (lowers : Bool) (s : State) : State :=
  let t := signedFld (nowGet s 0x2034) 0 12
  let t' := max (-2048) (min 2047 (t + n))
  let s := nowPut 0x2034 (BitVec.ofNat 32 (intField 12 t')) s
  { s with mus := { s.mus with ageSteps := ownSteps (t' - s.root.ageCurrent.toInt) (s.mus.ageSteps + (if lowers then t' - t else 0)) } }

/-- ROOT_AGE_WRITE (R37, R75): the slew is redirected from CURRENT. -/
def execRootAgeWrite (w : Wr) (v : Word) (s : State) : Host.Outcome State Fault Refusal :=
  .next (regWrite w 0x2034 v [] (writeRootAge v) s)

/-- F follows the steps that firmware asked for: firmware runs, and the host is no root that keeps F at 0 (R380, R383). -/
def lowersF (s : State) : Bool := coreRuns s && (!isRoot s || ppsEn s)

/-- AGE_SLEW_STEP (R37, R383): 65,536 slow-clock periods after the last step, CURRENT moves one step of 0.01 ppm
toward TARGET; firmware lowers F, within ±25 ppm, by a step that it asked for (R379, R380). -/
def execAgeSlewStep (s : State) : Host.Outcome State Fault Refusal :=
  if s.time.slowEdges < s.root.ageAt + 65536 then .next s else
  let t : BitVec 12 := BitVec.ofNat 12 (fld (nowGet s 0x2034) 0 12)
  let c := s.root.ageCurrent
  let d : Int := if c.slt t then 1 else if t.slt c then -1 else 0
  let own := decide (0 < d * s.mus.ageSteps)
  .next { s with
    root := { s.root with ageCurrent := c + BitVec.ofInt 12 d, ageAt := s.time.slowEdges },
    mus := { s.mus with
      ageSteps := if own then s.mus.ageSteps - d else s.mus.ageSteps,
      freqF := if own && lowersF s then clampRat (-25000) 25000 (s.mus.freqF - 10 * d) else s.mus.freqF } }

/-- SYNC_IN_EDGE (R49, R50, R74): with FORCE every synthesizer that does not drive is phase-reset, the
driving one only before the first bell; with MEAS_EN the phase error is recorded.  DESIGN CHOICE (log 123): ALIGNED stays as it is. -/
def execSyncInEdge (phase : BitVec 16) (s : State) : Host.Outcome State Fault Refusal :=
  let ctl := nowGet s 0x202C
  let s := { s with root := { s.root with
    syncEdges := s.root.syncEdges + 1, syncPhase := if bitAt ctl 0 then phase else s.root.syncPhase } }
  if bitAt ctl 1 then
    let go := fun y t =>
      if driving t y && t.time.firstBell then t
      else setSyn y { synOf t y with phaseResets := (synOf t y).phaseResets + 1 } t
    .next (raise .root 9 (go .s1 (go .s0 s)))
  else .next s

end Sys2Proof.Machine
end

