-- ==== Sys2Proof/Machine/Muster.lean ====
section
/-!
DEFINITION. Muster (R366 to R399): links and frames, ports, the round's sweeps, slewing, holdover, 1PPS and
time of day.  Times are in units of 0.25 ps, rates in ppb, both exact.
-/
namespace Sys2Proof.Machine
open Sys2Proof

/-! ### Settings -/

/-- MUS_CFG as sampled at the last round start (R372, R392). -/
def ageEn (s : State) : Bool := bitAt s.mus.cfg 1
def joinLoad (s : State) : Bool := bitAt s.mus.cfg 2
def portEn (s : State) (p : Nat) : Bool := bitAt s.mus.cfg (3 + p)

/-- SLEW_MAX in ppb, at most 2 ppm (R379, R392). -/
def slewMax (s : State) : Rat := 250 * (min (fld s.mus.cfg 25 4) 8 : Nat)

/-- Round offset in ticks (R373). -/
def roundOff (s : State) : Nat := s.time.counter % 2 ^ 20

/-- The tick edge that round offset `o` falls on: the first whose counter reaches it (R57, R373). -/
def dueAt (s : State) (o : Nat) : Bool := decide (o ≤ roundOff s) && decide (roundOff s < o + max 1 s.time.inc)

/-- Firmware performs the duties of the round that runs: it has not restarted in it (R416). -/
def roundRuns (s : State) : Bool := coreRuns s && !s.mus.restarted

/-- The host takes part in the tree: not in bypass, the crystal present, the core running, and a hung core runs (R374, R543). -/
def takesPart (s : State) : Bool := s.shep.state = .running && !s.root.bypass && s.root.refOk

/-- The receiver's current ROUND: counter bits 51 to 20 (R367, R369). -/
def roundNow (s : State) : Nat := s.time.counter / 2 ^ 20 % 2 ^ 32

/-- Unit 0 gives a marker or an edge a time with FLAG 0: it is armed for that gate tick, its calibration was not rejected and its
reference not lost, and what stop channel `ch` has recorded of it carries no flag (R312, R316, R317, R375, R376, R386). -/
def unit0Times (s : State) (tick ch : Nat) : Bool :=
  let x := s.tally.u0
  x.forMuster && decide (tAt s 0 = tick) && !x.refLost && (!x.calRead || x.gain.isSome) &&
  x.stops.all (fun e => e.1 ≠ ch || fld e.2 28 4 = 0) && (tallyBusy x || fld (tabGet x.buf ch (resultWord 1 0)) 28 4 = 0)

/-- The gate tick of exchange k of the running round (R375). -/
def exchangeAt (s : State) (k : Nat) : Nat := s.time.counter / 2 ^ 20 * 2 ^ 20 + 262144 + 1024 * k

/-! ### Ports -/

/-- A port's record. -/
def mport (s : State) (p : BitVec 1) : MusPort := if p = 0 then s.mus.p0 else s.mus.p1

/-- Writes a port's record. -/
def setMport (p : BitVec 1) (x : MusPort) (s : State) : State :=
  { s with mus := if p = 0 then { s.mus with p0 := x } else { s.mus with p1 := x } }

/-- The other port. -/
def otherPort (p : BitVec 1) : BitVec 1 := if p = 0 then 1 else 0

/-- Raises a port event and names the port (R399). -/
def raisePort (k : Nat) (p : BitVec 1) (s : State) : State := raiseAbout .mus k p.toNat s

/-- A port that the tree may use: UP since the round start (R370). -/
def inTree (x : MusPort) : Bool := x.st = .up && x.usable

/-- The UP ports that the tree may use. -/
def upPorts (s : State) : List (BitVec 1) := [0, 1].filter (fun p => inTree (mport s p))

/-- A port whose link is lost takes no further part in the round: what was in flight on it is discarded (R369, R371, R390). -/
def portLost (st : PortState) (x : MusPort) : MusPort :=
  { x with st := st, hellos := 0, helloAt := none, usable := false, cut := true, tx := [], rx := [], sums := [] }

/-- A port turns to a state that the tree does not use; PORT_DOWN where it was UP (R370, R399). -/
def turnPort (p : BitVec 1) (st : PortState) (s : State) : State :=
  let x := mport s p
  let s := setMport p { x with st := st, usable := x.usable && decide (st = .up) } s
  if x.st = .up && decide (st ≠ .up) then raisePort 3 p s else s

/-! ### Frames -/

/-- Nearest integer, halves upward. -/
def nearest (q : Rat) : Int := (q + 1 / 2).floor

/-- Symbols 1 to 29 of a frame (R367). -/
def frameSymbols (f : Frame) : List (BitVec 8) :=
  leBytes 1 f.type.toNat ++ leBytes 2 f.src.toNat ++ leBytes 2 f.root.toNat ++ leBytes 2 f.hops.toNat ++
  leBytes 4 f.round.toNat ++ leBytes 1 f.seq.toNat ++ leBytes 1 f.flags.toNat ++
  (List.range 16).map (fun k => f.payload.getD k 0)

/-- The CRC of a muster frame: CRC-16/CCITT over symbols 1 to 29, most significant bit first (R367; log 14). -/
def musterCrc (f : Frame) : BitVec 16 :=
  (frameSymbols f).foldl (fun c b => (List.range 8).foldl (fun c k => crc16Bit c (b.getLsbD (7 - k))) c) 0xFFFF

/-- A frame this host sends on port p: FLAGS bit 0 marks its parent link, bit 1 is HOLD (R367). -/
def mkFrame (s : State) (p : BitVec 1) (type seq : Nat) (hold : Bool) (payload : List (BitVec 8)) : Frame :=
  let f : Frame :=
    { type := BitVec.ofNat 8 type, src := BitVec.ofNat 16 (hostId s), root := BitVec.ofNat 16 (rootId s),
      hops := BitVec.ofNat 16 s.mus.hops, round := BitVec.ofNat 32 (s.time.counter / 2 ^ 20),
      seq := BitVec.ofNat 8 seq, flags := BitVec.ofNat 8 (b2n (mport s p).parent + 2 * b2n hold),
      payload := (List.range 16).map (fun k => payload.getD k 0), crc := 0 }
  { f with crc := musterCrc f }

/-- Sends a frame on port p. -/
def sendOn (p : BitVec 1) (type seq : Nat) (hold : Bool) (payload : List (BitVec 8)) (s : State) : State :=
  { s with mus := { s.mus with sent := (p, mkFrame s p type seq hold payload) :: s.mus.sent } }

/-- This round's frame of a slot has been sent on port p. -/
def wasSent (s : State) (p : BitVec 1) (type seq : Nat) : Bool :=
  s.mus.sent.any (fun e => e.1 = p && e.2.type.toNat = type && e.2.seq.toNat = seq)

/-- A discarded frame (R369, R398). -/
def discardFrame (s : State) : State := { s with mus := { s.mus with discard := bump16 s.mus.discard 1 } }

/-- The slot number that a frame's type and index give (R369). -/
def slotOk (f : Frame) : Bool :=
  let q := f.seq.toNat
  match f.type.toNat with
  | 2 => q = 0
  | 3 => 1 ≤ q && q ≤ 64 && (f.payload.getD 0 0).toNat + 1 = q
  | 4 => 65 ≤ q && q ≤ 96
  | 5 => q = 97
  | 6 => q = 98
  | _ => false

/-- Receives a frame on port p (R368, R369): `act` is what an accepted one does; every other is discarded, one of a
reserved type among them, with ROOT_CONFLICT where its ROOT differs, and the port failed for the round where its SEQ breaks the
rule.  A HELLO whose CRC fails breaks the run of accepted ones (R371); a frame that was in flight when the link failed is discarded
(R390). -/
def receive (p : BitVec 1) (f : Frame) (act : State → State) (s : State) : State :=
  let x := mport s p
  if x.st = .off || x.st = .noCable then s
  else if f.crc ≠ musterCrc f || decide (6 < f.type.toNat) then
    discardFrame (if f.type = 1 then setMport p { x with hellos := 0 } s else s)
  else if f.root.toNat ≠ rootId s then
    raisePort 9 p (turnPort p .conflict (setMport p { x with hellos := 0 } (discardFrame s)))
  else if f.type = 1 then act s
  else if x.cut || x.roundFailed || f.round.toNat ≠ roundNow s then discardFrame s
  else if !slotOk f || x.seen.contains f.seq.toNat then discardFrame (setMport p { x with roundFailed := true } s)
  else
    let s := setMport p { x with seen := f.seq.toNat :: x.seen, child := x.child || f.flags.getLsbD 0 } s
    if inTree x then act s else s

/-- Bytes of a payload as a signed number. -/
def paySigned (f : Frame) (off n : Nat) : Int :=
  let v := leNat ((f.payload.drop off).take n)
  if v < 2 ^ (8 * n - 1) then v else (v : Int) - (2 ^ (8 * n) : Nat)

/-- Bytes of a payload as an unsigned number. -/
def payNat (f : Frame) (off n : Nat) : Nat := leNat ((f.payload.drop off).take n)

/-! ### Ports at the rack -/

/-- A cable event starts the LED's flash sequence, unless a service request is shown; until its first change the one that runs goes
on (R524). -/
def cableFlash (s : State) : State :=
  if s.lc.led = 2 then s
  else
    let earlier := s.lc.flash.any (fun t => decide (t / 2 ^ 22 < ((s.time.counter / 2 ^ 22 : Nat) : Int)))
    { s with lc := { s.lc with flash := some s.time.counter, flashPrev := if earlier then s.lc.flash else s.lc.flashPrev } }

/-- ms_pps_out is high (R385). -/
def ppsOutHigh (s : State) : Bool := s.mus.ppsOutAt.isSome

/-- The value that OFFSET carries, 0.25 ps, signed 64-bit. -/
def offsetPayload (t : Option Rat) : List (BitVec 8) :=
  match t with
  | some q => leBytes 8 (intField 64 (nearest q))
  | none => []

/-- Sends OFFSET on every UP port but the parent's; HOLD where the host has no Θ (R377). -/
def sendOffset (s : State) : State :=
  (upPorts s).foldl (fun t p =>
    if s.mus.parent = some p || wasSent t p 5 97 then t
    else if isRoot t then sendOn p 5 97 false [] t
    else sendOn p 5 97 t.mus.theta.isNone (offsetPayload t.mus.theta) t) s

/-- Port p leaves UP (R371, R390): a parent lost in the TREE phase may be replaced, one lost in the DOWN phase before OFFSET
leaves HOLD to the children. -/
def leaveUp (p : BitVec 1) (st : PortState) (s : State) : State :=
  let t := setMport p (portLost st (mport s p)) s
  let s := raisePort 3 p { t with mus := { t.mus with downs := bump16 t.mus.downs 1 } }
  if s.mus.parent ≠ some p then s
  else if roundOff s < 262144 then
    setMport p { mport s p with parent := false } { s with mus := { s.mus with parent := none, hops := 0x3FF } }
  else if 327680 ≤ roundOff s && roundOff s < 655360 && !s.mus.offsetSeen && roundRuns s then sendOffset s
  else s

/-- CABLE_IN (R371, R524): cable-detect has held a changed level for 65,536 slow-clock periods. -/
def execCableIn (p : BitVec 1) (present : Bool) (s : State) : Host.Outcome State Fault Refusal :=
  let x := mport s p
  if present = x.cable || !debounced s x.cableAt then .next s
  else
    let st : PortState :=
      if !portEn s p.toNat then .off else if present then (if x.st = .off || x.st = .noCable then .training else x.st) else .noCable
    let s := setMport p { x with cable := present, cableAt := s.time.slowEdges } s
    let s := if x.st = .up && !present then leaveUp p st s
      else setMport p (if present then { mport s p with st := st } else portLost st (mport s p)) s
    .next (raisePort (if present then 0 else 1) p (cableFlash s))

/-- PORT_UP (R371): `clean` consecutive symbols have arrived without an error, 1,024 or more, and two consecutive HELLOs
been accepted. -/
def execPortUp (link : LinkUp) (s : State) : Host.Outcome State Fault Refusal :=
  let p := link.port
  let x := mport s p
  .next (if x.st = .training && decide (2 ≤ x.hellos) && decide (1024 ≤ link.clean) then
           raisePort 2 p (setMport p { x with st := .up, cut := false } s) else s)

/-- A cause takes a port out of UP: no valid symbol in 4 symbol times, more than 16 errors in 65,536 symbols, cable-detect
(R371). -/
def downs (cause : DownCause) : Bool :=
  match cause with
  | .noSignal n => decide (4 ≤ n)
  | .errors n => decide (16 < n)
  | .cable => true

/-- PORT_DOWN (R371, R390): the port goes to TRAINING, or with its cable gone to NO_CABLE. -/
def execPortDown (p : BitVec 1) (cause : DownCause) (s : State) : Host.Outcome State Fault Refusal :=
  .next (if (mport s p).st = .up && downs cause then
           leaveUp p (match cause with | .cable => .noCable | _ => .training) s else s)

/-! ### The tree -/

/-- A port at a round start: its records clear, PORT_EN acts, and an UP port becomes usable for the tree (R370, R372). -/
def freshPort (en : Bool) (x : MusPort) : MusPort :=
  let st := if !en then .off else if x.st = .off then (if x.cable then .training else .noCable) else x.st
  { x with
    st := st, usable := decide (st = .up), cut := false, hellos := if st = .off then 0 else x.hellos,
    parent := false, child := false, seen := [], roundFailed := false, tx := [], rx := [], sums := [], childDone := none }

/-- Port p at a round start; PORT_DOWN where PORT_EN takes it out of UP (R399). -/
def roundPort (p : BitVec 1) (s : State) : State :=
  let x := mport s p
  let s := setMport p (freshPort (portEn s p.toNat) x) s
  if x.st = .up && !portEn s p.toNat then raisePort 3 p s else s

/-- ROUND_START (R372 to R374): at each tick whose counter is a multiple of 2^20; firmware samples MUS_CFG,
and the root sends TREE with HOPS 0 on every UP port. -/
def execRoundStart (s : State) : Host.Outcome State Fault Refusal :=
  let n := s.time.counter / 2 ^ 20
  if !dueAt s 0 || s.mus.roundAt = some s.time.total then .next s
  else
    let s := { s with mus := { s.mus with
      inRound := true, roundAt := some s.time.total, round := n, cfg := if coreRuns s then nowGet s 0xB000 else s.mus.cfg, parent := none,
      hopsOver := false, restarted := false, thetaP := none, theta := none, offsetSeen := false, doneSent := false, applied := false,
      sent := [] } }
    let s := roundPort 1 (roundPort 0 s)
    let s := { s with mus := { s.mus with hops := if isRoot s then 0 else 0x3FF } }
    .next (if isRoot s && coreRuns s then (upPorts s).foldl (fun t p => sendOn p 2 0 false [] t) s else s)

/-- Takes port p as parent with the received HOPS plus 1 and forwards TREE on the other port (R374). -/
def takeParent (p : BitVec 1) (hops : Nat) (s : State) : State :=
  let s := setMport (otherPort p) { mport s (otherPort p) with parent := false } s
  let s := setMport p { mport s p with parent := true } s
  let s := { s with mus := { s.mus with
    parent := some p, hops := hops, treeAt := s.time.total, sent := s.mus.sent.filter (fun e => e.2.type ≠ 2) } }
  if inTree (mport s (otherPort p)) then sendOn (otherPort p) 2 0 false [] s else s

/-- TREE (R374): the first of the round sets the parent; of two at one tick the lower HOPS wins, then port 0. -/
def execTree (p : BitVec 1) (f : Frame) (s : State) : Host.Outcome State Fault Refusal :=
  if f.type ≠ 2 then .next s
  else .next (receive p f (fun s =>
    let h := f.hops.toNat + 1
    if isRoot s || !takesPart s || 262144 ≤ roundOff s then s
    else if 1023 < h then { s with mus := { s.mus with hopsOver := true } }
    else match s.mus.parent with
      | none => takeParent p h s
      | some q =>
        if q ≠ p && s.mus.treeAt = s.time.total && (h < s.mus.hops || (h = s.mus.hops && p = 0)) then takeParent p h s
        else s) s)

/-! ### The exchange -/

/-- A marker time scaled by the rotator's rate (R375). -/
def scaleTime (s : State) (t : Int) : Rat := t * (1 + (s.mus.freqF + s.mus.slewS) / 1000000000)

/-- The marker of exchange k in a list. -/
def markerAt (l : List (Nat × Rat)) (k : Nat) : Option Rat := (l.find? (fun e => e.1 = k)).map Prod.snd

/-- Sends SYNC k on port p and records its transmit marker, on stop 2 p, where unit 0 gives it with FLAG 0 (R375, R376). -/
def syncOn (k : Nat) (p : BitVec 1) (tx : Option Int) (s : State) : State :=
  if inTree (mport s p) && !wasSent s p 3 (1 + k) then
    let s := sendOn p 3 (1 + k) false [BitVec.ofNat 8 k] s
    match tx with
    | some t =>
      if unit0Times s (exchangeAt s k) (2 * p.toNat) then setMport p { mport s p with tx := (k, scaleTime s t) :: (mport s p).tx } s else s
    | none => s
  else s

/-- SYNC_SEND (R375). -/
def execSyncSend (k : BitVec 6) (tx0 tx1 : Option Int) (s : State) : Host.Outcome State Fault Refusal :=
  if s.mus.inRound && roundRuns s && dueAt s (262144 + 1024 * k.toNat) then
    .next (syncOn k.toNat 1 tx1 (syncOn k.toNat 0 tx0 s))
  else .next s

/-- SYNC (R369, R375): the receive marker of an exchange, on stop 2 p + 1, where unit 0 gives it with FLAG 0. -/
def execSync (p : BitVec 1) (f : Frame) (rx : Option Int) (s : State) : Host.Outcome State Fault Refusal :=
  if f.type ≠ 3 then .next s
  else .next (receive p f (fun s =>
    match rx with
    | some t =>
      if unit0Times s (exchangeAt s (f.seq.toNat - 1)) (2 * p.toNat + 1) then
        setMport p { mport s p with rx := (f.seq.toNat - 1, scaleTime s t) :: (mport s p).rx } s
      else s
    | none => s) s)

/-- The eight payload bytes of one exchange on port p: the sum t1 + t4 and the difference t4 − t1; where a
marker is missing the manual does not say what they hold (R368, R376; log 8). -/
def followBytes (p : BitVec 1) (k : Nat) (s : State) : List (BitVec 8) × State :=
  match markerAt (mport s p).tx k, markerAt (mport s p).rx k with
  | some t1, some t4 => (leBytes 4 (intField 32 (nearest (t1 + t4))) ++ leBytes 4 (intField 32 (nearest (t4 - t1))), s)
  | _, _ =>
    let (a, s) := takeFreeWord s
    let (b, s) := takeFreeWord s
    (leBytes 4 a.toNat ++ leBytes 4 b.toNat, s)

/-- FOLLOW_SEND (R368, R375). -/
def execFollowSend (j : BitVec 5) (s : State) : Host.Outcome State Fault Refusal :=
  let k := 2 * j.toNat
  if s.mus.inRound && roundRuns s && dueAt s (262144 + 1024 * (k + 1) + 512) then
    .next ((upPorts s).foldl (fun t p =>
      if wasSent t p 4 (65 + j.toNat) then t
      else
        let (a, t) := followBytes p k t
        let (b, t) := followBytes p (k + 1) t
        sendOn p 4 (65 + j.toNat) false (a ++ b) t) s)
  else .next s

/-- FOLLOW (R368, R376): the peer's sums and differences of two exchanges. -/
def execFollow (p : BitVec 1) (f : Frame) (s : State) : Host.Outcome State Fault Refusal :=
  if f.type ≠ 4 then .next s
  else .next (receive p f (fun s =>
    let k := 2 * (f.seq.toNat - 65)
    let x := mport s p
    setMport p { x with sums := (k, paySigned f 0 4, paySigned f 4 4) :: (k + 1, paySigned f 8 4, paySigned f 12 4) :: x.sums } s) s)

/-- θ_k and d_k of the valid exchanges on the link to the parent (R376). -/
def validExchanges (s : State) (p : BitVec 1) : List (Rat × Rat) :=
  let x := mport s p
  let asym : Rat := signedFld (nowGet s (0xB010 + 8 * p.toNat)) 0 16
  x.sums.filterMap (fun e =>
    match markerAt x.rx e.1, markerAt x.tx e.1 with
    | some t2, some t3 => some ((t2 + t3 - e.2.1) / 2 + asym / 2, (t2 - t3 + e.2.2) / 2)
    | _, _ => none)

/-- The mean of a list. -/
def meanOf (l : List Rat) : Rat := l.foldl (· + ·) 0 / l.length

/-- The offset to the parent and the link delay: exchanges more than 1 ns above the least delay are dropped,
and at least 32 must remain (R376). -/
def offsetToParent (s : State) (p : BitVec 1) : Option (Rat × Rat) :=
  let v := validExchanges s p
  match v.map Prod.snd with
  | [] => none
  | d :: r =>
    let least := r.foldl min d
    let kept := v.filter (fun e => decide (e.2 ≤ least + 4000))
    if 32 ≤ kept.length then some (meanOf (kept.map Prod.fst), meanOf (kept.map Prod.snd)) else none

/-- The exchange phase is closed: θ_p, DELAY, and LONG above 100 ticks (R366, R370, R376). -/
def closeExchange (s : State) : State :=
  match s.mus.parent with
  | none => s
  | some p =>
    if !inTree (mport s p) then s
    else match offsetToParent s p with
      | none => s
      | some (th, d) =>
        let x := mport s p
        let long := decide (1600000 < d)
        let s := setMport p { x with delay := BitVec.ofNat 16 (nearest (d * 2 / 125)).toNat } s
        let s := if long then turnPort p .long s else s
        { s with mus := { s.mus with thetaP := if long then none else some th } }

/-- DOWN_SWEEP (R373, R377, R390): at round offset 327,680 the root sends OFFSET 0; a member whose parent link is
gone sends HOLD. -/
def execDownSweep (s : State) : Host.Outcome State Fault Refusal :=
  if s.mus.inRound && roundRuns s && dueAt s 327680 then
    let s := closeExchange s
    if isRoot s then .next (sendOffset s)
    else match s.mus.parent with
      | some p => .next (if inTree (mport s p) || s.mus.offsetSeen then s else sendOffset s)
      | none => .next s
  else .next s

/-- OFFSET (R377, R543): Θ = θ_p plus the received value, and it is forwarded; HOLD where θ_p does not stand or the
parent has none.  Firmware that does not serve it is hung, and forms no Θ. -/
def execOffset (p : BitVec 1) (o : Told) (s : State) : Host.Outcome State Fault Refusal :=
  let f := o.frame
  if f.type ≠ 5 then .next s
  else .next (receive p f (fun s =>
    let s := hangUnless o.served s
    if s.mus.parent ≠ some p || s.mus.offsetSeen || 655360 ≤ roundOff s || !roundRuns s then s
    else
      let s := if s.mus.thetaP.isSome then s else closeExchange s
      let th := match s.mus.thetaP with
        | some t => if f.flags.getLsbD 1 then none else some (t + paySigned f 0 8)
        | none => none
      sendOffset { s with mus := { s.mus with offsetSeen := true, theta := th } }) s)

/-! ### The up-sweep -/

/-- The ports whose peer's parent link they are (R378). -/
def childPorts (s : State) : List (BitVec 1) := [0, 1].filter (fun p => (mport s p).child && s.mus.parent ≠ some p)

/-- What a host's subtree reports: hosts, of them in holdover, largest offset, child links without a DONE
(R378). -/
def subtree (s : State) : Nat × Nat × Nat × Nat :=
  let own := match s.mus.theta with
    | some t => (nearest t).natAbs
    | none => 0
  let hold := if isRoot s then b2n s.mus.holdover else b2n s.mus.theta.isNone
  (childPorts s).foldl (fun a p =>
    match (mport s p).childDone with
    | some c => (a.1 + c.1, a.2.1 + c.2.1, max a.2.2.1 c.2.2.1, a.2.2.2 + c.2.2.2)
    | none => (a.1, a.2.1, a.2.2.1, a.2.2.2 + 1)) (1, hold, own, 0)

/-- Sends DONE to the parent, once (R378). -/
def sendDone (s : State) : State :=
  match s.mus.parent with
  | some p =>
    if inTree (mport s p) && !s.mus.doneSent then
      let (n, h, w, m) := subtree s
      sendOn p 6 98 false (leBytes 2 n ++ leBytes 2 h ++ leBytes 4 w ++ leBytes 2 m) { s with mus := { s.mus with doneSent := true } }
    else s
  | none => s

/-- Every child has reported (R378). -/
def allDone (s : State) : Bool := (childPorts s).all (fun p => (mport s p).childDone.isSome)

/-- UP_SWEEP (R373, R378): at round offset 655,360. -/
def execUpSweep (s : State) : Host.Outcome State Fault Refusal :=
  .next (if s.mus.inRound && roundRuns s && dueAt s 655360 && allDone s then sendDone s else s)

/-- DONE (R368, R378): a child's subtree. -/
def execMuDone (p : BitVec 1) (f : Frame) (s : State) : Host.Outcome State Fault Refusal :=
  if f.type ≠ 6 then .next s
  else .next (receive p f (fun s =>
    let s := setMport p { mport s p with child := true, childDone := some (payNat f 0 2, payNat f 2 2, payNat f 4 4, payNat f 8 2) } s
    if roundRuns s && decide (655360 ≤ roundOff s) && allDone s then sendDone s else s) s)

/-- DONE_DEADLINE (R378): at round offset 655,360 + 320 × (1,024 − h). -/
def execDoneDeadline (s : State) : Host.Outcome State Fault Refusal :=
  .next (if s.mus.inRound && roundRuns s && dueAt s (655360 + 320 * (1024 - s.mus.hops)) then sendDone s else s)

/-! ### Slewing -/

/-- One round is 2^20 ticks of 4 ns, in 0.25 ps. -/
def roundTime : Rat := 16777216000

/-- ALIGNED follows the round's |Θ|, in 0.25 ps: 250 ps is 1,000 (R381). -/
def alignRound (theta : Rat) (s : State) : State :=
  if decide (theta ≤ 1000) && decide (-1000 ≤ theta) then
    let n := s.mus.goodRounds + 1
    let s := { s with mus := { s.mus with goodRounds := n } }
    if 4 ≤ n && !s.mus.aligned then raise .mus 6 { s with mus := { s.mus with aligned := true } } else s
  else
    let was := s.mus.aligned
    let s := { s with mus := { s.mus with goodRounds := 0, aligned := false } }
    if was then raise .mus 7 s else s

/-- MODE in holdover: a root's holdover, else FAR, not taking part under R374, or holdover (R388, R395). -/
def holdMode (s : State) : BitVec 3 :=
  if isRoot s then 3 else if s.mus.farSlew ≠ 0 then 4 else if !takesPart s || s.mus.hopsOver && s.mus.parent.isNone then 5 else 3

/-- A round of holdover (R381, R382): S = 0 and F kept where firmware runs, else the rate last set. -/
def holdRound (s : State) : State :=
  let was := s.mus.holdover
  let n := satAt 65535 (s.mus.holdRounds + 1)
  let s := { s with mus := { s.mus with
    holdover := true, holdRounds := n, goodRounds := 0,
    slewS := if coreRuns s then (if isRoot s || s.mus.farSlew = 0 then 0 else s.mus.slewS) else s.mus.slewS,
    mode := holdMode s } }
  let s := if was then s else raise .mus 4 s
  if 4 ≤ n && s.mus.aligned then raise .mus 7 { s with mus := { s.mus with aligned := false } } else s

/-- Holdover ends (R382). -/
def holdOver (s : State) : State :=
  let was := s.mus.holdover
  let s := { s with mus := { s.mus with holdover := false, holdRounds := 0 } }
  if was then raise .mus 5 s else s

/-- R380 with Θ_a, F updated over a span of 8 × `span`. -/
def applyTheta (ta span : Rat) (s : State) : State :=
  let f := clampRat (-25000) 25000 (s.mus.freqF - ta * 1000000000 / (8 * span))
  let v := clampRat (-slewMax s) (slewMax s) (-ta * 1000000000 / roundTime)
  { s with mus := { s.mus with freqF := f, slewS := v, lastTheta := nearest ta, farSlew := 0 } }

/-- The round counts towards the mean of F, which firmware forms while AGE_EN is set (R19, R383). -/
def countF (s : State) : State :=
  if !ageEn s then { s with mus := { s.mus with fSum := 0, fRounds := 0 } }
  else if lowersF s then { s with mus := { s.mus with fSum := s.mus.fSum + s.mus.freqF, fRounds := s.mus.fRounds + 1 } }
  else s

/-- APPLY at a member: Θ_a adds the phase that its own rotator moved from offset 294,912 to here; an edge of ms_pps_in that it saw as
root is not used (R380, R391). -/
def applyMember (now : State) : State :=
  let s := { now with mus := { now.mus with ppsUse := none } }
  match s.mus.theta with
  | some t =>
    if roundRuns s && !s.root.bypass then
      let s := applyTheta (t + (s.mus.rotor - s.mus.rotorMid)) roundTime s
      alignRound t (holdOver { s with mus := { s.mus with mode := 2 } })
    else holdRound s
  | none => holdRound s

/-- APPLY at the root, which is never FAR (R380, R382, R386, R388): an edge is applied at the first one after it, or not at all. -/
def applyRoot (now : State) : State :=
  let s := { now with mus := { now.mus with ppsUse := none, farSlew := 0 } }
  if !ppsEn s then
    holdOver { s with mus := { s.mus with freqF := 0, slewS := 0, mode := 0 } }
  else if s.root.bypass || !coreRuns s || s.mus.ppsSeen + 500000000 < s.time.total then holdRound s
  else
    match now.mus.ppsUse with
    | some e =>
      let s := applyTheta e 4000000000000 s
      holdOver { s with mus := { s.mus with mode := 1 } }
    | none => holdOver { s with mus := { s.mus with slewS := 0, mode := 1 } }

/-- The root's report, and ROUND_DONE; on a member MUS_ROOT reads 0 (R378, R396). -/
def reportRound (s : State) : State :=
  if isRoot s then
    let (n, h, w, m) := subtree s
    raise .mus 8 { s with mus := { s.mus with reached := n, holdCnt := h, worst := w, missing := m } }
  else { s with mus := { s.mus with reached := 0, holdCnt := 0, worst := 0, missing := 0 } }

/-- Firmware keeps a record in its area of the retention RAM, at 0x3400 + 4 k; how it encodes it is not stated (R412, R497; log
121). -/
def fwRecord (k : Nat) (s : State) : State :=
  let (v, s) := takeFreeWord s
  { s with ret := memWrite s.ret (0x3400 + 4 * k) (leBytes 4 v.toNat) }

/-- APPLY (R373, R378, R380 to R382, R386, R391, R395): at round offset 983,040; firmware keeps the frequency term (R497). -/
def execMuApply (s : State) : Host.Outcome State Fault Refusal :=
  if s.mus.inRound && !s.mus.applied && dueAt s 983040 then
    let s := reportRound (countF (if isRoot s then applyRoot s else applyMember s))
    let s := { s with mus := { s.mus with
      applied := true, statParent := s.mus.parent, statHops := s.mus.hops, shownF := s.mus.freqF, shownS := s.mus.slewS } }
    .next (if coreRuns s then fwRecord 0 s else s)
  else .next s

/-- AGE_TRANSFER (R383): after 256 rounds the mean F, in holdover the recorded slope, goes into ROOT_AGE.TARGET
in steps of 0.01 ppm; the steps are added to the TARGET that stands when the write is performed.  In holdover F is not lowered and
no mean is recorded; firmware keeps the slope (R497). -/
def execAgeTransfer (s : State) : Host.Outcome State Fault Refusal :=
  if ageEn s && coreRuns s && decide (256 ≤ s.mus.fRounds) then
    let mean := s.mus.fSum / s.mus.fRounds
    let means := if s.mus.holdover then s.mus.means else (mean :: s.mus.means).take 257
    let slope := (means.headD 0 - means.getLastD 0) / (means.length - 1 : Nat)
    let n := nearest ((if s.mus.holdover then slope else mean) / 10)
    let t := signedFld (nowGet s 0x2034) 0 12 + n
    let s := await ⟨⟨.shep, 15, none⟩, 0x2034, BitVec.ofNat 32 (intField 12 (max (-2048) (min 2047 t))),
      [n.toNat, (-n).toNat, b2n (!s.mus.holdover)]⟩ s
    .next (fwRecord 1 { s with mus := { s.mus with fSum := 0, fRounds := 0, means := means } })
  else .next s

/-! ### HELLO and the coarse offset -/

/-- A HELLO falls due on a port: every 4,096 ticks while training, once in a round at offset 1,015,808 while UP (R368). -/
def helloDue (s : State) (x : MusPort) : Bool :=
  match x.st with
  | .training => match x.helloAt with
    | some t => decide (t + 4096 ≤ s.time.total)
    | none => true
  | .up => dueAt s 1015808 && x.helloRound ≠ some s.mus.round
  | _ => false

/-- HELLO_SEND (R368): SENDER_TIME and the port's number. -/
def execHelloSend (p : BitVec 1) (s : State) : Host.Outcome State Fault Refusal :=
  let x := mport s p
  if helloDue s x then
    let x := if x.st = .training then { x with helloAt := some s.time.total } else { x with helloRound := some s.mus.round }
    .next (sendOn p 1 255 false (leBytes 8 s.time.counter ++ leBytes 1 p.toNat) (setMport p x s))
  else .next s

/-- What firmware does with a coarse offset, in 1/256 tick, of the parent port or of any UP port: a join load takes off its whole
part (R388). -/
def coarseAct (c : Int) (s : State) : State :=
  if 64 * 256 < c.natAbs then
    if s.time.firstBell then
      let v := if 0 < c then -slewMax s else slewMax s
      raise .mus 11 { s with mus := { s.mus with slewS := v, farSlew := if 0 < c then -1 else 1 } }
    else if joinLoad s then { s with mus := { s.mus with joinTicks := some (c.tdiv 256) } }
    else s
  else if s.mus.farSlew ≠ 0 then { s with mus := { s.mus with farSlew := 0, slewS := 0 } }
  else s

/-- HELLO (R368, R369, R370, R388): the peer, the port's state, and the coarse offset; a frame of a reserved type is
discarded. -/
def execHello (p : BitVec 1) (f : Frame) (s : State) : Host.Outcome State Fault Refusal :=
  if f.type = 0 || (2 ≤ f.type.toNat && f.type.toNat ≤ 6) then .next s
  else .next (receive p f (fun s =>
    let x := mport s p
    let loop := f.src.toNat = hostId s
    let st : PortState := if loop then .loop else if x.st = .loop || x.st = .conflict then .training else x.st
    let c : Int := 256 * ((s.time.counter : Int) - payNat f 0 8) - x.delay.toNat
    let s := turnPort p st (setMport p { x with
      peer := BitVec.ofNat 10 f.src.toNat, hellos := if st = .training then x.hellos + 1 else x.hellos,
      child := x.child || f.flags.getLsbD 0, coarse := c } s)
    if !isRoot s && coreRuns s && (s.mus.parent = some p || (s.mus.parent.isNone && st = .up)) then coarseAct c s else s) s)

/-! ### 1PPS and time of day -/

/-- PPS_OUT (R57, R385): at each tick whose counter is a multiple of 250,000,000, and else at the first edge past it; the output stays
high for 25,000 ticks. -/
def execPpsOut (s : State) : Host.Outcome State Fault Refusal :=
  .next (if s.mus.ppsOutAt.isNone && decide (s.time.counter % 250000000 < max 1 s.time.inc) then
           { s with mus := { s.mus with ppsOutAt := some (elapsed s) } } else s)

/-- The second nearest to the present tick (R386). -/
def nearSecond (s : State) : Nat := (s.time.counter + 125000000) / 250000000 * 250000000

/-- The window of a second meets the interval in which unit 0 serves the exchanges (R326, R386). -/
def meetsExchange (second : Nat) : Bool :=
  let o := second % 2 ^ 20
  decide (262112 ≤ o + 513) && decide (o ≤ 327680 + 528)

/-- The loads of the counter that wait for this slow-clock edge: a time-of-day load bears VALUE plus the ticks since the
edge that bears VALUE, a join load takes off the whole ticks of the coarse offset (R77, R387, R388). -/
def requestedLoad (s : State) : State :=
  let t := { s with mus := { s.mus with todLoad := none, joinTicks := none } }
  match s.mus.todLoad, s.mus.joinTicks with
  | some (v, at'), _ => loadCounter (v + (s.time.total - at')) { t with mus := { t.mus with todAt := some (elapsed s) } }
  | none, some c => loadCounter ((s.time.counter : Int) - c).toNat t
  | none, none => s

/-- PPS_IN_EDGE (R326, R386, R387): an armed time-of-day load is requested; a root with PPS_EN then uses an
edge inside its window that unit 0 times, whose error in 0.25 ps the command brings. -/
def execPpsInEdge (err : Int) (s : State) : Host.Outcome State Fault Refusal :=
  let s := if s.mus.todArmed then
      { s with mus := { s.mus with
          todArmed := false,
          todLoad := some ((nowGet s 0xB030).toNat + 2 ^ 32 * (nowGet s 0xB034).toNat,
            s.time.total + (if s.root.bypass then 5 else 1)) } }
    else s
  if isRoot s && ppsEn s && coreRuns s then
    let s := { s with mus := { s.mus with ppsSeen := s.time.total, ppsSecond := nearSecond s } }
    if meetsExchange (nearSecond s) then .next s
    else if 8192000 < err.natAbs then .next (raise .mus 10 s)
    else if !unit0Times s (nearSecond s - 512) 0 then .next s
    else
      let e := err + signedFld (nowGet s 0xB004) 0 32
      .next { s with mus := { s.mus with ppsErr := e, ppsUse := some e } }
  else .next s

/-- A write of MUS_TOD_CTRL: a new TAG arms a load (R387, R397). -/
def writeTodCtrl (v : Word) (s : State) : State :=
  let s := nowPut 0xB038 v s
  let tag := BitVec.ofNat 8 (fld v 0 8)
  if tag = s.mus.todTag then s else { s with mus := { s.mus with todTag := tag, todArmed := true } }

/-- TOD_ARM (R387, R397). -/
def execTodArm (w : Wr) (v : Word) (s : State) : Host.Outcome State Fault Refusal :=
  .next (regWrite w 0xB038 v [] (writeTodCtrl v) s)

/-! ### Registers -/

/-- The code of a port state (R370). -/
def portCode : PortState → Nat
  | .off => 0
  | .noCable => 1
  | .training => 2
  | .up => 3
  | .loop => 4
  | .conflict => 5
  | .long => 6

/-- MUS_PORTp (R394). -/
def musPortWord (x : MusPort) : Word :=
  packWord [(0, 3, portCode x.st), (3, 1, b2n x.cable), (4, 10, x.peer.toNat), (14, 1, b2n x.parent), (15, 1, b2n x.child),
    (16, 16, x.delay.toNat)]

/-- MUS_STATUS (R395). -/
def musStatusWord (s : State) : Word :=
  let p := match s.mus.statParent with
    | some p => p.toNat
    | none => 3
  packWord [(0, 3, s.mus.mode.toNat), (3, 1, b2n s.mus.aligned), (4, 2, p), (6, 10, s.mus.statHops), (16, 16, s.mus.holdRounds)]

/-- MUS_FREQ (R395). -/
def musFreqWord (s : State) : Word :=
  packWord [(0, 16, intField 16 (nearest s.mus.shownF)), (16, 16, intField 16 (nearest s.mus.shownS))]

/-- MUS_ROOT and MUS_ROOT_WORST: on a member they read 0 (R396). -/
def musRootWord (s : State) : Word :=
  if isRoot s then packWord [(0, 11, s.mus.reached), (11, 11, s.mus.holdCnt), (22, 10, s.mus.missing)] else 0
def musWorstWord (s : State) : Word := if isRoot s then BitVec.ofNat 32 s.mus.worst else 0

end Sys2Proof.Machine
end

