-- ==== Sys2Proof/Machine/Tally.lean ====
section
/-!
DEFINITION. Tally (R310 to R338): ownership, arming, calibration, gates, edges, results and summaries.
-/
namespace Sys2Proof.Machine
open Sys2Proof

/-! ### Registers of a unit -/

/-- Fields of TALLY_CFGu (R332). -/
def tWin (s : State) (u : Nat) : Nat := fld (nowGet s (tallyAddr u 0)) 0 20
def tRepeats (s : State) (u : Nat) : Nat := fld (nowGet s (tallyAddr u 0)) 20 4 + 1
def tGate (s : State) (u : Nat) : Nat := fld (nowGet s (tallyAddr u 0)) 24 2
def tAcc (s : State) (u : Nat) : Nat := fld (nowGet s (tallyAddr u 0)) 26 2

/-- TALLY_STARTu, and TALLY_STOPuk of channel k (R334). -/
def tStart (s : State) (u : Nat) : Word := nowGet s (tallyAddr u 0xC)
def tStop (s : State) (u k : Nat) : Word := nowGet s (tallyAddr u (0x10 + 4 * k))

/-- The enabled stop channels: their source is not 0 (R317). -/
def tStops (s : State) (u : Nat) : List Nat := (List.range 8).filter (fun k => fld (tStop s u k) 0 6 ≠ 0)

/-- A source code and ARG of R319 that a channel may select. -/
def sourceOk (s : State) (start : Bool) (v : Word) : Bool :=
  let src := fld v 0 6
  let arg := fld v 8 15
  if src = 0 then !start
  else if src ≤ 8 || (15 ≤ src && src ≤ 18) then true
  else if src = 9 || src = 11 || src = 12 then isRegion s arg
  else if src = 10 then isGen s arg
  else if src = 13 || src = 14 then arg < s.build.xings
  else if src = 19 then arg < s.build.flocks
  else src = 20 && start

/-- The configuration is one that an ARM accepts (R319, R320, R332, R334). -/
def tallyCfgOk (s : State) (u : Nat) : Bool :=
  tWin s u ≠ 0 && tGate s u ≠ 3 && sourceOk s true (tStart s u) &&
  (List.range 8).all (fun k => sourceOk s false (tStop s u k) && decide (fld (tStop s u k) 24 6 ≠ 0))

/-! ### Ring positions and calibration -/

/-- A ring position in phases, 15.625 ps nominal each (R310). -/
def ringSteps (p : RingPos) : Int := 16 * p.coarse + p.phase.toNat

/-- A raw interval: 16 × coarse count + stop phase − start phase (R310). -/
def rawInterval (a b : RingPos) : Int := ringSteps b - ringSteps a

/-- R1 and R2 of a calibration: one and two bypass-clock periods, raw (R315, R336). -/
def calR1 (c : CalEdges) : BitVec 16 := BitVec.ofInt 16 (rawInterval c.start c.ends.one)
def calR2 (c : CalEdges) : BitVec 16 := BitVec.ofInt 16 (rawInterval c.start c.ends.two)

/-- A calibration that begins at that count of ticks ends with the third bypass-clock edge after it (R315). -/
def calEnd (began : Nat) : Nat := 5 * (began / 5 + 3)

/-- Span and offset of a calibration, where it is accepted (R315, R316). -/
def calOf (r1 r2 : BitVec 16) : Option (Int × Int) :=
  let s : Int := (r2.toNat : Int) - r1.toNat
  let o : Int := 2 * (r1.toNat : Int) - r2.toNat
  if 1248 ≤ s && s ≤ 1312 && -64 ≤ o && o ≤ 64 then some (s, o) else none

/-- A raw interval corrected, halves upward (R315). -/
def correct (g : Int × Int) (raw : Int) : Nat := ((2 * (raw - g.2) * 1280 + g.1) / (2 * g.1)).toNat

/-! ### Results and summaries -/

/-- The summary of stop k over the n repeats run (R323). -/
def summaryWord (x : TallyUnit) (acc n k : Nat) : Word :=
  let ws := (List.range n).map (fun r => tabGet x.buf (8 * r + k) 0)
  let vs := (ws.filter (fun w => fld w 28 4 = 0)).map (fun w => fld w 0 28)
  match vs with
  | [] => ws.getLastD 0
  | v :: rest =>
    let t := if acc = 0 then (v :: rest).getLastD 0
      else if acc = 1 then rest.foldl max v
      else if acc = 2 then rest.foldl min v
      else (v :: rest).sum / (rest.length + 1)
    resultWord (if vs.length = n then 0 else 7) t

/-- The port's claim pending, and writing it. -/
def claimOf (s : State) : Port → Option Claim
  | .host => s.tally.claimHost
  | .bm => s.tally.claimBm
  | .shep => s.tally.claimFw

/-- Writes a port's pending claim. -/
def setClaim (p : Port) (c : Option Claim) (s : State) : State :=
  match p with
  | .host => { s with tally := { s.tally with claimHost := c } }
  | .bm => { s with tally := { s.tally with claimBm := c } }
  | .shep => { s with tally := { s.tally with claimFw := c } }

/-- Evaluates the pending claims of every free pool unit: host, board management, firmware (R328); while a
crossing measurement runs firmware holds every pool unit (R329).  A unit that DONE gave back at this slow-clock edge, or since
it, is evaluated at the next one (R330). -/
def evalClaims (s : State) : State :=
  forAll [1, 2, 3] (fun u t =>
    if (tallyUnit t u).owner = .none && (tallyUnit t u).freedAt ≠ some t.time.slowEdges then
      match [Port.host, .bm, .shep].find? (fun p => (claimOf t p).any (fun c => c.unit.toNat = u)) with
      | some p => setClaim p none (setTally u { tallyUnit t u with owner := ownerOf p } t)
      | none => t
    else t) s

/-- The summaries over the n repeats run (R323). -/
def summaries (s : State) (u n : Nat) (x : TallyUnit) : Tab Word :=
  (tStops s u).foldl (fun t k => tabSet t k (summaryWord x (tAcc s u) n k) 0) ([] : Tab Word)

/-- A unit comes to DONE; a release that waited takes effect (R313, R329). -/
def tallyDone (u : Nat) (ev : Bool) (s : State) : State :=
  let x := tallyUnit s u
  let x := { x with state := .done, gateOpen := false, started := false, stops := [], chans := [], refLost := false }
  let x := if x.releasing then { x with owner := .none, releasing := false, freedAt := some s.time.slowEdges } else x
  let s := setTally u x s
  if ev then raiseAbout .tally u u s else s

/-- Writes the results of the running repeat, one word per enabled stop, and the summaries over the repeats run so far;
an aborted repeat is not a completed one (R313, R322, R323, R335). -/
def writeResults (u : Nat) (completed : Bool) (word : Nat → Word) (s : State) : State :=
  let x := tallyUnit s u
  let x := { x with buf := (tStops s u).foldl (fun b k => tabSet b (8 * x.rep + k) (word k) 0) x.buf }
  setTally u { x with
    res := summaries s u (x.rep + 1) x, rep := if completed then x.rep + 1 else x.rep, stops := [], chans := [], started := false,
    gateOpen := false, refLost := false } s

/-- Bypass-clock edges are wanting: no calibration can run (R312). -/
def refGone (s : State) : Bool := s.root.missing || s.root.refLost || !s.root.refOk

/-- A repeat ends with flag 6 in all its results, and REF_FLAG (R312, R338). -/
def lostRepeat (u : Nat) (s : State) : State := raiseAbout .tally 7 u (writeResults u true (fun _ => resultWord 6 0) s)

/-- The remaining repeats end at once with flag 6 while no bypass edges come (R312). -/
def lostRepeats (u : Nat) : Nat → State → State
  | 0, s => s
  | n + 1, s => lostRepeats u n (lostRepeat u s)

/-- The gate opens: the window of WIN ticks begins (R313, R319, R320). -/
def openGate (u : Nat) (pos : RingPos) (s : State) : State :=
  setTally u { tallyUnit s u with
    state := .measuring, gateOpen := true, openedAt := s.time.total, started := fld (tStart s u) 0 6 = 20,
    startPos := ringSteps pos, startCount := 0, stops := [], chans := [], lastAt := s.time.total } s

/-- A calibration's readings are taken: accepted, they correct the repeat; where they are not the repeat has no calibration (R315,
R316). -/
def takeCal (u : Nat) (c : CalEdges) (s : State) : State :=
  let x := tallyUnit s u
  let g := calOf (calR1 c) (calR2 c)
  let s := setTally u { x with r1 := calR1 c, r2 := calR2 c, gain := g, calRead := true } s
  if g.isSome then s else raiseAbout .tally 4 u s

/-- A repeat begins with its calibration, whose readings are taken here where the step carries them (R313, R315). -/
def beginRepeat (u : Nat) (c : Option CalEdges) (s : State) : State :=
  let s := setTally u { tallyUnit s u with state := .calibrating, gain := none, calAt := elapsed s, calRead := false } s
  match c with
  | some c => takeCal u c s
  | none => s

/-- After a repeat: the next one begins, or the measurement is done. -/
def afterRepeat (u : Nat) (c : Option CalEdges) (s : State) : State :=
  let x := tallyUnit s u
  if tRepeats s u ≤ x.rep then tallyDone u true s
  else if refGone s then tallyDone u true (lostRepeats u (tRepeats s u - x.rep) s)
  else beginRepeat u c s

/-! ### Unit 0 -/

/-- The exchanges of every round take unit 0 from round offset 262,112, and firmware ends a lower-ranked measurement
32 ticks before the first one's span, to 327,680 (R326, R375): the ticks from `a` to `b` meet that in this round or a later
one. -/
def meetsRound (a b : Nat) : Bool :=
  let o := a % 2 ^ 20
  (decide (o ≤ 327680) && decide (262096 ≤ o + (b - a))) || decide (2 ^ 20 + 262096 ≤ o + (b - a))

/-- The timestamp of the next second's ms_pps_in edge takes unit 0, on a root that follows it: from 16 ticks, and for a
lower-ranked measurement 32 ticks more, before a gate 512 ticks ahead of the second to one after its window (R326, R386). -/
def meetsSecond (s : State) (a b : Nat) : Bool :=
  let second := (a + 249999487) / 250000000 * 250000000
  isRoot s && ppsEn s && !meetsExchange second && decide (second ≤ b + 560)

/-- Higher-ranked measurements need unit 0 in the ticks from `a` to `b` (R326). -/
def unit0Taken (s : State) (a b : Nat) : Bool := meetsRound a b || meetsSecond s a b

/-- The ticks that an ARM of unit u spans: from 16 ticks before its gate to one after its last window (R314, R326). -/
def armFrom (s : State) (u : Nat) : Nat := if tGate s u = 1 then tAt s u - 16 else s.time.counter
def armSpan (s : State) (u : Nat) : Nat := tRepeats s u * (16 + tWin s u) + 1

/-- Calibrations start: firmware runs, outside bypass, in temperature-triggered mode (R19, R59, R341, R343, R543). -/
def calRuns (s : State) : Bool := !fwHolds s && calMode s

/-- A charge-pump calibration runs, and times its response on unit 0 (R340). -/
def pumpRuns (s : State) : Bool := s.root.s0.pumpCal || s.root.s1.pumpCal

/-- A calibration of so many ticks may take unit 0 of its higher-ranked users, and of the calibration that has it: the exchanges and
the 1PPS timestamps leave it the time (R326). -/
def unit0Free (s : State) (n : Nat) : Bool :=
  s.tally.u0.phaseCal.isNone && !pumpRuns s && decide (s.cal.unit0From ≤ s.time.total) &&
  !unit0Taken s s.time.counter (s.time.counter + n)

/-- A due Tally unit whose turn it could be, but for what it measures: firmware owns it (R326, R353). -/
def tallyDue (s : State) (u : Nat) : Bool :=
  let x := tallyUnit s u
  x.due && x.owner = .fw && x.phaseCal.isNone && calRuns s && (u ≠ 0 || unit0Free s 8192)

/-- A due Tally unit may be calibrated now: no measurement is armed on it (R326, R353). -/
def tallyStartable (s : State) (u : Nat) : Bool := tallyDue s u && !tallyBusy (tallyUnit s u)

/-- A due synthesizer whose turn it could be, but for what unit 0 measures: the warm spare, outside bypass, not frozen (R62, R326,
R354). -/
def pumpDue (s : State) (y : Syn) : Bool :=
  let x := synOf s y
  x.due && s.root.aligned && s.root.active ≠ y && x.locked && x.qualified && !x.frozen && !x.pumpCal && calRuns s && unit0Free s 25000

/-- A due synthesizer may be calibrated now: no measurement is armed on unit 0 (R326, R354). -/
def pumpStartable (s : State) (y : Syn) : Bool := pumpDue s y && !tallyBusy s.tally.u0

/-- The synthesizer is the warm spare again once its charge-pump calibration ends, and drives where PREF has named it
meanwhile; SPARE_EN then acts (R53, R54, R55, R354). -/
def pumpOver (y : Syn) (s : State) : State :=
  let x := synOf s y
  let s := setSyn y { x with pumpCal := false } s
  if x.locked && x.qualified && !s.root.bypass && s.root.active ≠ y then prefAct { s with root := { s.root with aligned := true } } else s

/-- Firmware ends what it runs on unit 0 for a higher-ranked measurement: a measurement is aborted, a calibration stays due and is
repeated later (R326). -/
def yieldUnit0 (s : State) : State :=
  let x := s.tally.u0
  if tallyBusy x then
    let s := tallyDone 0 false (writeResults 0 false (fun _ => resultWord 4 0) s)
    { s with cal := { s.cal with unit0From := s.time.total + 32 } }
  else
    let s := { s with tally := { s.tally with u0 := { x with phaseCal := none } } }
    let s := if s.root.s0.pumpCal then pumpOver .s0 s else s
    if s.root.s1.pumpCal then pumpOver .s1 s else s

/-- Unit 0 measures for something that ranks below the exchanges and the 1PPS timestamps (R326). -/
def unit0Lower (s : State) : Bool := (tallyBusy s.tally.u0 && !s.tally.u0.forMuster) || s.tally.u0.phaseCal.isSome || pumpRuns s

/-- A calibration waits for droop timing to leave unit 0 (R326). -/
def droopYields (s : State) : Bool :=
  tallyBusy s.tally.u0 && !s.tally.u0.forMuster && (tallyDue s 0 || pumpDue s .s0 || pumpDue s .s1)

/-! ### Commands -/

/-- The answer of TALLY_STATu. -/
def tallyAnswer (u : Nat) (tag : BitVec 8) (rej : Nat) (s : State) : State :=
  setTally u { tallyUnit s u with tag := tag, rej := BitVec.ofNat 3 rej } s

/-- ARM on a unit (R312 to R316, R319, R320, R323, R335): with a scheduled gate the calibration runs from 16 ticks before
it; the first repeat otherwise begins with it now. -/
def doArm (u : Nat) (tag : BitVec 8) (c : Option CalEdges) (s : State) : State :=
  let x := tallyUnit s u
  if tallyBusy x || x.phaseCal.isSome then tallyAnswer u tag 2 s
  else if !tallyCfgOk s u then tallyAnswer u tag 3 s
  else if tGate s u = 1 && tAt s u < s.time.counter + 32 then tallyAnswer u tag 4 s
  else
    let s := tallyAnswer u tag 0 (setTally u { x with
      state := .waiting, forMuster := false, rep := 0, buf := [], res := [], r1 := 0, r2 := 0, gain := none, calRead := false, stops := [], chans := [],
      refLost := false } s)
    if refGone s then tallyDone u true (lostRepeats u (tRepeats s u) s)
    else if tGate s u = 1 then s
    else beginRepeat u c s

/-- ABORT (R313, R322, R330): the running repeat is written with flag 4.  An ARM that comes after it, of the next period, waits for
the next edge. -/
def doAbort (u : Nat) (tag : BitVec 8) (s : State) : State :=
  let x := tallyUnit s u
  let s := tallyAnswer u tag 0 { s with out := { s.out with took := true } }
  if tallyBusy x then tallyDone u false (writeResults u false (fun _ => resultWord 4 0) s) else s

/-- A write of unit u by a port that does not own it is ignored: OWN_ERR, and for board management a denied access
(R327, R459). -/
def notOwner (p : Port) (u : Nat) (s : State) : State :=
  let s := raiseAbout .tally 5 u s
  if p = .bm then deny .bm s else s

/-- A calibration that times on unit 0 runs, or may begin, or waits out the 32 ticks after the measurement that yielded to it
(R326). -/
def calTakesUnit0 (s : State) : Bool :=
  pumpRuns s || tallyDue s 0 || pumpDue s .s0 || pumpDue s .s1 || decide (s.time.total < s.cal.unit0From)

/-- A write of TALLY_CMDu (R326, R327, R335); the readings are those of the first repeat's calibration.  Firmware does not
arm unit 0 where the measurement would meet a higher-ranked one. -/
def writeTallyCmd (p : Port) (u : Nat) (v : Word) (c : Option CalEdges) (s : State) : State :=
  let tag := BitVec.ofNat 8 (fld v 8 8)
  if (tallyUnit s u).owner ≠ ownerOf p then
    (if tag = (tallyUnit s u).tag then notOwner p u s else tallyAnswer u tag 1 (notOwner p u s))
  else
    let s := nowPut (tallyAddr u 0x30) v s
    if tag = (tallyUnit s u).tag then s
    else if fld v 0 2 = 1 then
      (if u = 0 && (calTakesUnit0 s || unit0Taken s (armFrom s 0) (armFrom s 0 + armSpan s 0)) then s else doArm u tag c s)
    else if fld v 0 2 = 2 then doAbort u tag s
    else tallyAnswer u tag 0 s

/-- Firmware arms unit 0 at a scheduled tick, one repeat with the start at its gate: WIN, and the sources of its stops (R320, R332 to
R335, R375, R386). -/
def armUnit0 (at' win : Nat) (stops : List Nat) (s : State) : State :=
  let s := nowPut (tallyAddr 0 0) (packWord [(0, 20, win), (24, 2, 1)]) s
  let s := nowPut (tallyAddr 0 4) (BitVec.ofNat 32 at') s
  let s := nowPut (tallyAddr 0 8) (BitVec.ofNat 32 (at' / 2 ^ 32)) s
  let s := nowPut (tallyAddr 0 0xC) (packWord [(0, 6, 20), (24, 6, 1)]) s
  let s := (List.range 8).foldl (fun t k => nowPut (tallyAddr 0 (0x10 + 4 * k)) (packWord [(0, 6, stops.getD k 0), (24, 6, 1)]) t) s
  let tag := s.tally.u0.tag + 1
  let s := doArm 0 tag none (nowPut (tallyAddr 0 0x30) (packWord [(0, 2, 1), (8, 8, tag.toNat)]) s)
  setTally 0 { s.tally.u0 with forMuster := tallyBusy s.tally.u0 } s

/-- The counter passes `n` at this edge. -/
def passes (s : State) (n : Nat) : Bool := decide (n ≤ s.time.counter) && decide (s.time.counter < n + max 1 s.time.inc)

/-- The tick of the exchange whose measurement firmware arms at this edge, 48 ticks before it, if any (R320, R375). -/
def exchangeTick (s : State) : Option Nat :=
  let base := s.time.counter / 2 ^ 20 * 2 ^ 20 + 262144
  ((List.range 64).find? (fun k => passes s (base + 1024 * k - 48))).map (fun k => base + 1024 * k)

/-- The second whose timestamp firmware arms at this edge, 48 ticks before its gate, if any (R386). -/
def secondTick (s : State) : Option Nat :=
  let second := (s.time.counter + 560) / 250000000 * 250000000
  if isRoot s && ppsEn s && !meetsExchange second && passes s (second - 560) && decide (560 ≤ second) then some second else none

/-- At a tick edge firmware, while it runs and is not hung, keeps unit 0 for the exchanges and the 1PPS timestamps, ends droop timing
for a calibration, and arms each exchange's measurement and each timestamp (R19, R326, R375, R386). -/
def keepUnit0 (s : State) : State :=
  if coreRuns s then
    let s := if (unit0Taken s s.time.counter s.time.counter && unit0Lower s) || droopYields s then yieldUnit0 s else s
    match exchangeTick s, secondTick s with
    | some t, _ => if s.mus.inRound && !s.mus.restarted then armUnit0 t 256 [15, 16, 17, 18] s else s
    | none, some t => armUnit0 (t - 512) 1024 [5] s
    | none, none => s
  else s

/-- The TALLY_CMDu word of an operation (R335). -/
def tallyWord (op tag : Nat) : Word := packWord [(0, 2, op), (8, 8, tag)]

/-- A calibration's edges as a waiting write carries them. -/
def calExt (c : CalEdges) : List Nat :=
  [c.start.coarse, c.start.phase.toNat, c.ends.one.coarse, c.ends.one.phase.toNat,
   c.ends.two.coarse, c.ends.two.phase.toNat]

/-- The calibration's edges that a waiting write carries. -/
def calOfExt : List Nat → Option CalEdges
  | [a, p, b, q, c, r] => some ⟨⟨a, BitVec.ofNat 4 p⟩, ⟨⟨b, BitVec.ofNat 4 q⟩, ⟨c, BitVec.ofNat 4 r⟩⟩⟩
  | _ => none

/-- TALLY_ARM (R313 to R316, R335). -/
def execTallyArm (w : Wr) (u : BitVec 2) (tag : BitVec 8) (start : RingPos) (ends : CalEnds) (s : State) :
    Host.Outcome State Fault Refusal :=
  .next (regWrite w (tallyAddr u.toNat 0x30) (tallyWord 1 tag.toNat) (calExt ⟨start, ends⟩)
    (writeTallyCmd w.port u.toNat (tallyWord 1 tag.toNat) (some ⟨start, ends⟩)) s)

/-- TALLY_ABORT (R313, R322, R335). -/
def execTallyAbort (w : Wr) (u : BitVec 2) (tag : BitVec 8) (s : State) : Host.Outcome State Fault Refusal :=
  .next (regWrite w (tallyAddr u.toNat 0x30) (tallyWord 2 tag.toNat) [] (writeTallyCmd w.port u.toNat (tallyWord 2 tag.toNat) none) s)

/-- The repeat that runs has its scheduled gate: the first one of GATE = 1 (R320). -/
def scheduled (s : State) (u : Nat) : Bool := tGate s u = 1 && (tallyUnit s u).rep = 0

/-- When the calibration that a waiting unit makes next began: 16 ticks before a scheduled tick, or 4,096 ticks after
the last one for an external gate; none before that tick (R316). -/
def nextCalAt (s : State) (u : Nat) : Option Nat :=
  let x := tallyUnit s u
  if x.state = .waiting then
    (if tAt s u ≤ s.time.counter + 16 && !x.calRead then some (elapsed s - (s.time.counter + 16 - tAt s u)) else none)
  else if !x.calRead then some x.calAt
  else if tGate s u = 2 && x.gain.isSome then some (x.calAt + 4096)
  else none

/-- A repeat with an external gate whose calibration was not accepted takes no measurement: it ends with flag 3 (R316). -/
def endRejected (u : Nat) (s : State) : State :=
  let x := tallyUnit s u
  if x.state = .calibrating && tGate s u = 2 && x.calRead && x.gain.isNone && !x.refLost then
    afterRepeat u none (writeResults u true (fun _ => resultWord 3 0) s)
  else s

/-- TALLY_CAL_REFRESH (R312, R315, R316): the readings of a calibration that has ended: of a scheduled gate, of a repeat whose step
carried none, or an external gate's, each 4,096 ticks.  Where no calibration can run the repeat ends with flag 6, and an external
gate's whose calibration was not accepted with flag 3. -/
def execTallyCalRefresh (u : BitVec 2) (start : RingPos) (ends : CalEnds) (s : State) : Host.Outcome State Fault Refusal :=
  let n := u.toNat
  let x := tallyUnit s n
  if refGone s then
    .next (if x.state = .calibrating && !x.calRead then afterRepeat n none (lostRepeat n s) else s)
  else if x.state = .waiting || x.state = .calibrating then
    match nextCalAt s n with
    | some t =>
      .next (if calEnd t ≤ elapsed s then endRejected n (takeCal n ⟨start, ends⟩ (setTally n { x with calAt := t } s)) else s)
    | none => .next (if calEnd x.calAt ≤ elapsed s then endRejected n s else s)
  else .next s

/-- The gate of a unit may open: its calibration is over, or for the scheduled repeat its tick has come (R57, R316,
R320). -/
def gateDue (s : State) (u : Nat) : Bool :=
  let x := tallyUnit s u
  if x.state = .waiting then tAt s u ≤ s.time.counter
  else x.state = .calibrating && decide (calEnd x.calAt ≤ elapsed s) && (x.calRead || x.refLost)

/-- TALLY_GATE_OPEN (R57, R313, R316, R320): at the end of the calibration, at the scheduled tick, or at an external edge
after the calibration; a repeat whose calibration was not accepted takes no measurement. -/
def execTallyGateOpen (gate : RingGate) (s : State) : Host.Outcome State Fault Refusal :=
  let n := gate.unit.toNat
  let x := tallyUnit s n
  if gateDue s n then
    .next (if x.gain.isSome || x.refLost then openGate n gate.pos s
           else afterRepeat n none (writeResults n true (fun _ => resultWord 3 0) s))
  else .next s

/-- The sources that an ARG names a unit of: 9 to 14 and 19 (R319). -/
def hasArg (src : Nat) : Bool := (decide (9 ≤ src) && decide (src ≤ 14)) || src = 19

/-- The edge is a chosen one of a channel: its source, its ARG where the source has one, and its direction are those of the
channel's register, and the crossing sources exist only while firmware measures crossings (R317, R319, R334). -/
def chosenEdge (s : State) (v : Word) (e : TapEdge) : Bool :=
  e.src.toNat = fld v 0 6 && (!hasArg e.src.toNat || e.arg.toNat = fld v 8 15) && e.fall = bitAt v 7 &&
  ((e.src.toNat ≠ 13 && e.src.toNat ≠ 14) || s.xing.calRun)

/-- Chosen edges to one edge that reaches the channel's counter: 8 through the prescaler (R318, R334). -/
def prescale (v : Word) : Nat := if bitAt v 6 then 8 else 1

/-- The window of a measuring unit is open (R313, R330). -/
def windowOpen (s : State) (u : Nat) : Bool :=
  (tallyUnit s u).state = .measuring && decide (s.time.total < (tallyUnit s u).openedAt + tWin s u)

/-- TALLY_START_EDGE (R317, R318): the first chosen start edge inside the window, or through the prescaler the first whose
count from the gate is a multiple of 8. -/
def execTallyStartEdge (edge : RingEdge) (s : State) : Host.Outcome State Fault Refusal :=
  let n := edge.unit.toNat
  let x := tallyUnit s n
  if windowOpen s n && !x.started && chosenEdge s (tStart s n) edge.tap then
    let c := x.startCount + 1
    .next (setTally n { x with startCount := c, started := c % prescale (tStart s n) = 0, startPos := ringSteps edge.pos } s)
  else .next s

/-- A stop channel's record of the running repeat. -/
def stopCh (x : TallyUnit) (k : Nat) : StopCh := (x.chans.find? (fun c => c.channel = k)).getD { channel := k }

/-- The word that a stop channel records with a counted edge, if any: flag 5 where the edge before it lies less than 1 ns,
64 steps, back; the corrected interval at the EDGE_N-th (R315, R317, R318). -/
def stopWord (x : TallyUnit) (v : Word) (c : StopCh) (pos : RingPos) : Option Word :=
  if c.last.any (fun p => decide (ringSteps pos - p < 64)) then some (resultWord 5 0)
  else if (c.count + 1) / prescale v = fld v 24 6 then
    some (match x.gain with
      | some g => resultWord 0 (correct g (ringSteps pos - x.startPos))
      | none => resultWord 3 0)
  else none

/-- TALLY_STOP_EDGE (R310, R315, R317, R318): an enabled channel counts the chosen edges of its source from the start on and
records one; an edge within one step of the start follows it. -/
def execTallyStopEdge (u : BitVec 2) (k : BitVec 3) (edge : TapEdge) (pos : RingPos) (s : State) : Host.Outcome State Fault Refusal :=
  let n := u.toNat
  let x := tallyUnit s n
  let v := tStop s n k.toNat
  if windowOpen s n && x.started && decide (x.startPos ≤ ringSteps pos + 1) && (tStops s n).contains k.toNat &&
     x.stops.all (fun e => e.1 ≠ k.toNat) && chosenEdge s v edge then
    let c := stopCh x k.toNat
    let rest := x.chans.filter (fun d => d.channel ≠ k.toNat)
    if (c.count + 1) % prescale v ≠ 0 then .next (setTally n { x with chans := { c with count := c.count + 1 } :: rest } s)
    else
      let y := { x with chans := { c with count := c.count + 1, last := some (ringSteps pos) } :: rest }
      .next (setTally n (match stopWord x v c pos with
        | some word => { y with stops := x.stops ++ [(k.toNat, word)], lastAt := s.time.total }
        | none => y) s)
  else .next s

/-- Every enabled stop channel has recorded its edge (R313). -/
def allStopped (s : State) (u : Nat) : Bool :=
  (tStops s u).all (fun k => (tallyUnit s u).stops.any (fun e => e.1 = k))

/-- The tick at which a repeat's results are written: one after its window closes (R313). -/
def resultsAt (s : State) (u : Nat) : Nat :=
  let x := tallyUnit s u
  if allStopped s u then min (x.lastAt + 1) (x.openedAt + tWin s u + 1) else x.openedAt + tWin s u + 1

/-- The word of stop k at the end of a repeat (R312, R317, R322). -/
def closeWord (x : TallyUnit) (k : Nat) : Word :=
  if x.refLost then resultWord 6 0
  else match x.stops.find? (fun e => e.1 = k) with
    | some e => e.2
    | none => if x.started then resultWord 1 0 else resultWord 2 0

/-- TALLY_WINDOW_CLOSE (R313, R317, R322, R323): one tick after the window closed, at WIN ticks or once every stop has
recorded, the results are written; the readings are those of the next repeat's calibration. -/
def execTallyWindowClose (u : BitVec 2) (start : RingPos) (ends : CalEnds) (s : State) : Host.Outcome State Fault Refusal :=
  let n := u.toNat
  let x := tallyUnit s n
  if x.state = .measuring && decide (resultsAt s n ≤ s.time.total) then
    let s := writeResults n true (closeWord x) s
    .next (afterRepeat n (some ⟨start, ends⟩) (if x.refLost then raiseAbout .tally 7 n s else s))
  else .next s

/-! ### Claims -/

/-- The port's last TALLY_CLAIM TAG (R464), and writing it. -/
def claimTag (s : State) : Port → BitVec 8
  | .host => s.tally.tagHost
  | .bm => s.tally.tagBm
  | .shep => s.tally.tagFw

/-- Writes the port's last TALLY_CLAIM TAG. -/
def setClaimTag (p : Port) (t : BitVec 8) (s : State) : State :=
  match p with
  | .host => { s with tally := { s.tally with tagHost := t } }
  | .bm => { s with tally := { s.tally with tagBm := t } }
  | .shep => { s with tally := { s.tally with tagFw := t } }

/-- Gives a unit back now, or at DONE (R329). -/
def giveBack (u : Nat) (s : State) : State :=
  let x := tallyUnit s u
  setTally u (if tallyBusy x then { x with releasing := true } else { x with owner := .none, releasing := false }) s

/-- A write of TALLY_CLAIM: a new TAG claims or releases (R325, R328, R329, R331); the claims of a slow-clock edge are
evaluated together. -/
def writeTallyClaim (w : Wr) (v : Word) (s : State) : State :=
  let p := w.port
  let s := nowPut 0x9000 v s
  let tag := BitVec.ofNat 8 (fld v 24 8)
  let u := fld v 0 2
  if tag = claimTag s p then s
  else
    let s := setClaimTag p tag s
    if u = 0 then raiseAbout .tally 5 0 s
    else if bitAt v 8 then
      setClaim p (some { unit := BitVec.ofNat 2 u, since := s.time.slowEdges }) s
    else
      let s := if (claimOf s p).any (fun c => c.unit.toNat = u) then setClaim p none s else s
      if (tallyUnit s u).owner = ownerOf p then giveBack u s else s

/-- The TALLY_CLAIM word of an operation (R331). -/
def claimWord (op : Nat) (u : BitVec 2) (tag : BitVec 8) : Word := packWord [(0, 2, u.toNat), (8, 1, op), (24, 8, tag.toNat)]

/-- TALLY_CLAIM (R325, R328, R331). -/
def execTallyClaim (w : Wr) (u : BitVec 2) (tag : BitVec 8) (s : State) : Host.Outcome State Fault Refusal :=
  .next (regWrite w 0x9000 (claimWord 1 u tag) [] (fun t => evalClaims (writeTallyClaim w (claimWord 1 u tag) t)) s)

/-- TALLY_RELEASE (R329, R331). -/
def execTallyRelease (w : Wr) (u : BitVec 2) (tag : BitVec 8) (s : State) : Host.Outcome State Fault Refusal :=
  .next (regWrite w 0x9000 (claimWord 0 u tag) [] (fun t => evalClaims (writeTallyClaim w (claimWord 0 u tag) t)) s)

/-- CLAIM_TIMEOUT (R328): a claim 64 slow-clock periods old is dropped. -/
def execClaimTimeout (p : Port) (s : State) : Host.Outcome State Fault Refusal :=
  match claimOf s p with
  | some c =>
    .next (if c.since + 64 ≤ s.time.slowEdges then raiseAbout .tally 6 c.unit.toNat (setClaim p none s) else s)
  | none => .next s

/-- The pool units that firmware owns are released, at DONE where one runs (R329). -/
def releaseFirmware (s : State) : State :=
  forAll [1, 2, 3] (fun u t => if (tallyUnit t u).owner = .fw then giveBack u t else t) s

/-- TALLY_OWN (R331). -/
def ownCode : Owner → Nat
  | .none => 0
  | .host => 1
  | .bm => 2
  | .fw => 3

/-- TALLY_OWN (R331). -/
def tallyOwnWord (s : State) : Word :=
  packWord ((List.range 4).map (fun u => (2 * u, 2, ownCode (tallyUnit s u).owner)) ++
    [(8, 1, b2n s.tally.claimHost.isSome), (9, 1, b2n s.tally.claimBm.isSome), (10, 1, b2n s.tally.claimFw.isSome)])

/-- The STATE code of TALLY_STATu (R335). -/
def tallyCode : TallyState → Nat
  | .idle => 0
  | .waiting => 1
  | .calibrating => 2
  | .measuring => 3
  | .done => 4

/-- The state that TALLY_STATu shows: a scheduled unit calibrates from 16 ticks before its gate, and one with an external
gate waits for it once its calibration is over (R316, R335). -/
def shownState (s : State) (u : Nat) : TallyState :=
  let x := tallyUnit s u
  match x.state with
  | .waiting => if !x.calRead && (nextCalAt s u).isSome then .calibrating else .waiting
  | .calibrating =>
    if tGate s u = 2 && x.calRead && decide (calEnd x.calAt ≤ elapsed s) && decide (elapsed s < x.calAt + 4096) then .waiting
    else .calibrating
  | st => st

/-- TALLY_STATu (R335). -/
def tallyStatWord (s : State) (u : Nat) : Word :=
  let x := tallyUnit s u
  packWord [(0, 3, tallyCode (shownState s u)), (4, 4, x.rep), (8, 8, x.tag.toNat), (16, 3, x.rej.toNat)]

end Sys2Proof.Machine
end

