-- ==== Sys2Proof/Machine/Cal.lean ====
section
/-!
DEFINITION. Calibration and trimming (R339 to R365): temperatures and triggers, region holds, spare, path,
Tally and charge-pump calibrations, the band-gap trim, and restoring a calibration image.
-/
namespace Sys2Proof.Machine
open Sys2Proof

/-! ### Settings and triggers -/

/-- CAL_CFG, applied (R360). -/
def calDt (s : State) : Nat := fld (bellA s 0xA000) 1 7
def calDeadline (s : State) : Nat := fld (bellA s 0xA000) 8 12
def v1Timeout (s : State) : Bool := bitAt (bellA s 0xA000) 24

/-- A reading is plausible: −40 to +125 °C, and within 8 °C of the previous sample (R339). -/
def plausible (prev : Option Int) (t : Int) : Bool :=
  decide (-160 ≤ t) && decide (t ≤ 500) && prev.all (fun p => decide ((t - p).natAbs ≤ 32))

/-- The number of the island among the sources of triggers; flocks have their own. -/
def islandSource : Nat := 512

/-- Some unit that a source of triggers makes due, and firmware sequences, is due. -/
def sourceDue (s : State) (src : Nat) : Bool :=
  if src = islandSource then s.root.s0.due || s.root.s1.due || [0, 1, 2, 3].any (fun u => (tallyUnit s u).due)
  else
    (spareRows s.build src).any (fun g => (genOf s g).due) ||
    (List.range s.build.paths).any (fun p => (pathOf (flockOf s src) p).due)

/-- A trigger that arrives while calibrations are held takes its place in their order; the triggers whose calibrations are all done
have left it.  DESIGN CHOICE (log 140): a source whose trigger came in an earlier hold, and that is triggered again, takes its
place anew (R19, R343, R543). -/
def noteArrival (src : Nat) (s : State) : State :=
  let a := s.cal.arrived.filter (sourceDue s)
  if fwHolds s && (!a.contains src || s.cal.arrivedOld.contains src) then
    { s with cal := { s.cal with arrived := a.erase src ++ [src], arrivedOld := s.cal.arrivedOld.erase src } }
  else { s with cal := { s.cal with arrived := a } }

/-- A flock becomes due: its regions, its FREE spares and its aligner paths (R341, R349). -/
def flockDue (f : Nat) (s : State) : State :=
  let s := noteArrival f s
  let s := forAll (ownRows f) (fun r t =>
    let x := regionOf t r
    if x.due || !isRegion t r then t else setRegion r { x with due := true, deadline := t.fold.foldNo + calDeadline t } t) s
  let s := forAll (spareRows s.build f) (fun g t =>
    let x := genOf t g
    if x.st = .free then setGen g { x with due := true } t else t) s
  let s := forAll (List.range s.build.paths) (fun p t =>
    let fl := flockOf t f
    setFlock f (withPath fl p { pathOf fl p with due := true }) t) s
  setFlock f { flockOf s f with tempHold := none } s

/-- The island's units become due: the Tally units and the root synthesizers (R341). -/
def islandDue (s : State) : State :=
  let s := forAll [0, 1, 2, 3] (fun u t => setTally u { tallyUnit t u with due := true } t) (noteArrival islandSource s)
  { s with root := { s.root with s0 := { s.root.s0 with due := true }, s1 := { s.root.s1 with due := true } } }

/-- A reading that has moved by more than DT from TEMP_LAST (R341). -/
def moved (s : State) (t last : Int) : Bool := decide (calDt s < (t - last).natAbs)

/-- Flock f becomes due where its reading has moved by more than DT, in temperature-triggered mode (R341). -/
def triggerFlock (f : Nat) (s : State) : State :=
  let x := flockOf s f
  if calMode s && x.tempSeen && moved s x.temp x.tempLast then flockDue f s else s

/-- The island's units become due by the same test (R341). -/
def triggerIsland (s : State) : State :=
  if calMode s && s.cal.tempAoSeen && moved s s.cal.tempAo s.cal.tempAoLast then islandDue s else s

/-- One sample of a flock's sensor: a plausible one is its reading (R339). -/
def sampleFlock (f : Nat) (t : Int) (s : State) : State :=
  let x := flockOf s f
  let y := { x with tempPrev := some t }
  if plausible x.tempPrev t then triggerFlock f (setFlock f { y with temp := t, tempSeen := true } s) else setFlock f y s

/-- One sample of the island's sensor (R339). -/
def sampleIsland (t : Int) (s : State) : State :=
  let c := { s.cal with tempAoPrev := some t }
  if plausible s.cal.tempAoPrev t then triggerIsland { s with cal := { c with tempAo := t, tempAoSeen := true } } else { s with cal := c }

/-- TEMP_SAMPLE (R339, R341): each 65,536 ticks the sensors are sampled, and a flock or the island whose reading has
moved by more than DT becomes due in temperature-triggered mode. -/
def execTempSample (flocks : List (Nat × Int)) (island : Int) (s : State) : Host.Outcome State Fault Refusal :=
  if s.cal.tempAt.any (fun t => decide (elapsed s < t + 65536)) then .next s
  else
    let s := { s with cal := { s.cal with tempAt := some (elapsed s) } }
    let s := flocks.foldl (fun t p => if p.1 < t.build.flocks && t.power.fabUp then sampleFlock p.1 p.2 t else t) s
    .next (sampleIsland island s)

/-! ### Results -/

/-- So many results of a calibration are rejected: counted, CAL_REJECT raised; the second calibration in a row ends the due state
with REJ_PERSIST (R355).  `was` says whether the last one was rejected too; an event of the island names no flock. -/
def rejectResults (n : Nat) (f : Option Nat) (was : Bool) (s : State) : State :=
  let s := { s with cal := { s.cal with cntRej := bump16 s.cal.cntRej n } }
  match f with
  | some f =>
    let s := raiseAbout .cal 1 f s
    if was then raiseAbout .cal 2 f s else s
  | none =>
    let s := raise .cal 1 s
    if was then raise .cal 2 s else s

/-- A calibration's one result is rejected (R355). -/
def rejectResult (f : Option Nat) (was : Bool) (s : State) : State := rejectResults 1 f was s

/-- The values in force have changed where the new ones are not the old (R356, R362). -/
def changedIf (c : Bool) (s : State) : State := if c then valuesChanged s else s

/-- CAL_DONE when a flock's last due calibration completes; it is due again where its reading has moved on
(R342, R365). -/
def calDoneCheck (f : Nat) (s : State) : State :=
  let busy := (ownRows f).any (fun r => (regionOf s r).due) || (spareRows s.build f).any (fun g => (genOf s g).due) ||
    (List.range s.build.paths).any (fun p => (pathOf (flockOf s f) p).due)
  if busy then s
  else
    let s := raiseAbout .cal 0 f s
    if calMode s && moved s (flockOf s f).temp (flockOf s f).tempLast then flockDue f s else s

/-- Division of integers rounded to nearest, halves away from zero. -/
def roundDiv (a b : Int) : Int :=
  if b = 0 then 0 else if 0 ≤ a then (2 * a + b) / (2 * b) else -((2 * (-a) + b) / (2 * b))

/-- A value held to −2 to +2 (R346, R355). -/
def clamp2 (i : Int) : Int := max (-2) (min 2 i)

/-- Band cells: F0 within ±8 % of F_MIN and F1 − F0 within ±10 % of SPAN; frequencies are counts × 7.8125
MHz (R345, R355). -/
def cellsOk (e : Word) (c0 c1 : Nat) : Bool :=
  let f0 : Int := 125 * c0
  let fm : Int := 16 * bFmin e
  let sp : Int := 16 * bSpan e
  let df : Int := 125 * c1 - f0 - sp
  decide (100 * (f0 - fm).natAbs ≤ 8 * fm.natAbs) && decide (100 * df.natAbs ≤ 10 * sp.natAbs)

/-- The band-cell proposal of R346. -/
def cellProposal (e : Word) (c0 : Nat) : Int :=
  clamp2 (roundDiv ((16 * (bFmin e : Int) - 125 * c0) * 1000) (64 * bFmin e))

/-- Windsock elements: the measured delay within ±30 % of d_ref, for a ring count over 24 ticks and the
class's nominal in MHz; d / d_ref = 128 × NOM / (625 × count) (R345, R346, R355). -/
def sockOk (nom c : Nat) : Bool :=
  decide (c ≠ 0) && decide (10 * ((128 * nom : Int) - 625 * c).natAbs ≤ 3 * (625 * c))

/-- The windsock proposal of R346. -/
def sockProposal (nom c : Nat) : Int := clamp2 (roundDiv (128 * (nom : Int) - 625 * c) (25 * c))

/-- A selection moved by a number of steps. -/
def stepSel (v : BitVec 8) (i : Int) : BitVec 8 := v + BitVec.ofInt 8 i

/-- Accepted proposals are applied at the region's park (R346). -/
def applyProposals (r : Nat) (s : State) : State :=
  match servingGen s r with
  | none => s
  | some g =>
    let x := genOf s g
    let s := match x.cellProp with
      | some (b, i) => changedIf (i ≠ 0) (setGen g { x with cells := tabSet x.cells b (stepSel (tabGet x.cells b 0) i) 0, cellProp := none } s)
      | none => s
    let y := genOf s r
    if y.sockProp = [] then s
    else
      let ss := (List.range 8).foldl (fun t k => tabSet t k (stepSel (tabGet t k 0) (y.sockProp.getD k 0)) 0) y.socks
      changedIf (y.sockProp.any (· ≠ 0)) (setGen r { y with socks := ss, sockProp := [] } s)

/-- A region whose calibration is accepted: no longer due, its flock's TEMP_LAST, and the counts (R342, R363). -/
def holdAccepted (r : Nat) (w : Held) (s : State) : State :=
  let f := r / 16
  let s := setRegion r { regionOf s r with due := false, rejected := false, waiting := none } s
  let fl := flockOf s f
  let s := if fl.tempHold.isNone then setFlock f { fl with tempLast := w.hold.temp, tempHold := some w.hold.temp } s else s
  calDoneCheck f { s with cal := { s.cal with
    cntSlot := if w.hold.atBell then s.cal.cntSlot else bump16 s.cal.cntSlot 1,
    cntBell := if w.hold.atBell then bump16 s.cal.cntBell 1 else s.cal.cntBell } }

/-- Every windsock result of a hold is within its limit (R355). -/
def socksOk (s : State) (r : Nat) (w : Held) : Bool :=
  (List.range 8).all (fun k => sockOk (nomOf s (classOfRegion s r)) (w.rings.getD k 0))

/-- The accepted band-cell result of a hold becomes a proposal, and the accepted windsock results do (R346, R355). -/
def proposeCells (w : Held) (s : State) : State :=
  if cellsOk w.entry w.count0 w.count1 then
    setGen w.gen { genOf s w.gen with cellProp := some (w.band, cellProposal w.entry w.count0) } s
  else s

/-- The accepted windsock results of a hold become proposals (R346, R355). -/
def proposeSocks (r : Nat) (w : Held) (s : State) : State :=
  if socksOk s r w then
    setGen r { genOf s r with
      sockProp := (List.range 8).map (fun k => sockProposal (nomOf s (classOfRegion s r)) (w.rings.getD k 0)) } s
  else s

/-- Judges what region r's hold measured, against the band it ran on: its band cells and its windsocks are two results, each
accepted or discarded by its own limit; the region stays due unless both are accepted (R342, R345, R346, R355; log 142). -/
def judgeHold (r : Nat) (w : Held) (s : State) : State :=
  let x := regionOf s r
  let bad := b2n (!cellsOk w.entry w.count0 w.count1) + b2n (!socksOk s r w)
  let s := proposeSocks r w (proposeCells w s)
  let s := if x.parked then applyProposals r s else s
  if bad = 0 then holdAccepted r w s
  else rejectResults bad (some (r / 16)) x.rejected
    (setRegion r { x with due := x.due && !x.rejected, rejected := !x.rejected, waiting := none } s)

/-- A spare's counts are judged against the band they are of; an accepted correction is applied at once (R355). -/
def judgeSpare (f g : Nat) (b c0 c1 : Nat) (s : State) : State :=
  let x := { genOf s g with waiting := none }
  let e := entryOf x.copy b
  if cellsOk e c0 c1 then
    let cells := tabSet x.cells b (stepSel (tabGet x.cells b 0) (cellProposal e c0)) 0
    calDoneCheck f (changedIf (cellProposal e c0 ≠ 0) (setGen g { x with cells := cells, due := false, rejected := false } s))
  else rejectResult (some f) x.rejected (setGen g { x with due := x.due && !x.rejected, rejected := !x.rejected } s)

/-- Results of a hold are discarded (R341, R343, R359, R365). -/
def discardHold (r : Nat) (s : State) : State :=
  raiseAbout .cal 7 (r / 16) (setRegion r { regionOf s r with waiting := none } s)

/-- A result of region r may be judged: calibrations run, and the generator it was measured on still serves (R341,
R343). -/
def judgeable (s : State) (r : Nat) (w : Held) : Bool := calMode s && servingGen s r = some w.gen

/-- Results that waited for the core are checked when it runs again (R343). -/
def judgeWaiting (s : State) : State :=
  let s := forAll (s.regions.map Prod.fst) (fun r t =>
    match (regionOf t r).waiting with
    | some w => if judgeable t r w then judgeHold r w t else discardHold r t
    | none => t) s
  forAll (s.gens.map Prod.fst) (fun g t =>
    match (genOf t g).waiting with
    | some (b, c0, c1) =>
      let f := rowFlock t.build g
      if calMode t && (genOf t g).st ≠ .serving then judgeSpare f g b c0 c1 t
      else raiseAbout .cal 7 f (setGen g { genOf t g with waiting := none } t)
    | none => t) s

/-! ### Region holds -/

/-- The generator of a region has a band change planned or a stop running, or has changed its band at the coming bell (R350). -/
def bandChanging (s : State) (r : Nat) : Bool :=
  decide ((regionOf s r).bandFold = some s.fold.foldNo) ||
  match servingGen s r with
  | some g => (genOf s g).planned.isSome || (genOf s g).stopEnd.isSome
  | none => false

/-- The region's slot begins now and is usable (R344, R347). -/
def slotStarts (s : State) (r : Nat) : Bool :=
  match (regionOf s r).slot with
  | some (t, off, len) => t = s.time.counter && slotUsable s off len
  | none => false

/-- A failover of region r has taken the tick (R359). -/
def failedNow (s : State) (r : Nat) : Bool := (flockOf s (r / 16)).taken.any (fun t => t.slot = r % 16)

/-- Region r may start its hold: armed, in temperature-triggered mode, outside bypass, with no failover in the tick, after the
forecast's actions of the edge (R96, R341, R343, R344, R359). -/
def holdReady (s : State) (r : Nat) : Bool :=
  armedNow s r && calMode s && !s.root.bypass && s.fold.started && !failedNow s r && !entryWaits s (r / 16)

/-- The hold that starts now. -/
def holdNow (s : State) (r : Nat) (atBell : Bool) : Hold :=
  { start := s.time.counter, atBell := atBell, discard := false, temp := (flockOf s (r / 16)).temp }

/-- REGION_HOLD_START (R344, R347 to R350): at the first edge of a usable slot, or parked at a planned bell. -/
def execRegionHoldStart (r : Nat) (s : State) : Host.Outcome State Fault Refusal :=
  if isRegion s r then
    let x := regionOf s r
    if holdReady s r && slotStarts s r then
      .next (setRegion r { x with hold := some (holdNow s r false), detached := true, heldThisFold := true } s)
    else if holdReady s r && s.fold.calPlanned && s.fold.tail && x.parked && !bandChanging s r then
      .next (setRegion r { x with hold := some (holdNow s r true), heldThisFold := true } s)
    else .next s
  else .fault .noSuchUnit

/-- Firmware checks a result as it comes: the core runs, and is not hung (R343, R543). -/
def checksNow (s : State) (checked : Bool) : Bool := checked && coreRuns s

/-- The end of region r's hold, its results discarded, waiting, or judged. -/
def endHold (r : Nat) (h : Hold) (count0 count1 : Nat) (rings : List Nat) (checked : Bool) (s : State) : State :=
  let x := regionOf s r
  let s := setRegion r { x with hold := none, detached := false, track := if x.parked then x.track else .reel } s
  match servingGen s r with
  | none => discardHold r s
  | some g =>
    let gn := genOf s g
    let w : Held := { hold := h, gen := g, band := (selBand gn).getD 0, entry := curEntry gn, count0 := count0, count1 := count1, rings := rings }
    if h.discard || !calMode s then discardHold r s
    else if checksNow s checked then judgeHold r w s
    else hangUnless checked (setRegion r { regionOf s r with waiting := some w } s)

/-- REGION_HOLD_END (R343, R345, R346, R355, R359, R543): after 450 ticks the region enters REEL; its results are
discarded, wait for the core, or are judged.  `checked`: firmware checks them now. -/
def execRegionHoldEnd (r : Nat) (counts : Nat × Nat) (rings : List Nat) (checked : Bool) (s : State) : Host.Outcome State Fault Refusal :=
  if isRegion s r then
    match (regionOf s r).hold with
    | some h => .next (if h.start + 450 ≤ s.time.counter then endHold r h counts.1 counts.2 rings checked s else s)
    | none => .next s
  else .fault .noSuchUnit

/-! ### Spares, paths, Tally units, charge pumps -/

/-- Another FREE spare covers every serving slot of the flock (R351). -/
def othersCover (s : State) (f g : Nat) : Bool :=
  (spareRows s.build f).any (fun h => h ≠ g && (genOf s h).st = .free &&
    (ownRows f).all (fun r => !served s r || (coverDiv s h (regionWindow s r)).isSome))

/-- A due spare may be calibrated now (R351). -/
def spareStartable (s : State) (f j : Nat) : Bool :=
  let x := genOf s (spareRow s.build f j)
  x.due && x.st = .free && calRuns s && (othersCover s f (spareRow s.build f j) || (s.fold.calPlanned && s.fold.tail))

/-- A due path, or one with restored taps to take, may go out of use now (R352, R357). -/
def pathStartable (s : State) (f p : Nat) : Bool :=
  let m := pathOf (flockOf s f) p
  ((m.due && calRuns s) || (m.tapsNew.isSome && !fwHolds s)) && pathUsable s f p && decide (2 ≤ (healthyPaths s f).length)

/-- Some unit of a source of triggers could be calibrated now. -/
def sourceStartable (s : State) (src : Nat) : Bool :=
  if src = islandSource then [0, 1, 2, 3].any (tallyStartable s) || [Syn.s0, .s1].any (pumpStartable s)
  else (List.range s.build.spares).any (spareStartable s src) || (List.range s.build.paths).any (pathStartable s src)

/-- It is the source's turn: nothing of a trigger that arrived earlier, while calibrations were held, could start (R19).  DESIGN
CHOICE (log 140): a source that was due before the hold, and is not triggered in it, comes after those of the hold. -/
def turnOf (s : State) (src : Nat) : Bool := (s.cal.arrived.takeWhile (· ≠ src)).all (fun e => !sourceStartable s e)

/-- SPARE_CAL_START (R19, R351). -/
def execSpareCalStart (f j : Nat) (s : State) : Host.Outcome State Fault Refusal :=
  if isSpare s f j then
    let g := spareRow s.build f j
    .next (if spareStartable s f j && turnOf s f then
             spareChanged f (setGen g { genOf s g with st := .measuring, calFrom := some s.time.total } s) else s)
  else .fault .noSuchUnit

/-- SPARE_CAL_END (R343, R351, R355, R543): at tick 450 the spare is LOCKING, and the result is judged, waits for the core, or
is discarded. -/
def execSpareCalEnd (f j : Nat) (counts : Nat × Nat) (checked : Bool) (s : State) : Host.Outcome State Fault Refusal :=
  if isSpare s f j then
    let g := spareRow s.build f j
    let x := genOf s g
    match x.calFrom with
    | some t =>
      if t + 450 ≤ s.time.total then
        let b := (selBand x).getD 0
        let s :=
          if s.root.bypass || !calMode s then raiseAbout .cal 7 f s
          else if checksNow s checked then judgeSpare f g b counts.1 counts.2 s
          else hangUnless checked (setGen g { x with waiting := some (b, counts.1, counts.2) } s)
        .next (spareChanged f (spareLocking false g s))
      else .next s
    | none => .next s
  else .fault .noSuchUnit

/-- PATH_CAL_START (R19, R352, R357): firmware takes a due path out of use while the flock has two healthy ones. -/
def execPathCalStart (f p : Nat) (s : State) : Host.Outcome State Fault Refusal :=
  if isPath s f p then
    let fl := flockOf s f
    .next (if pathStartable s f p && turnOf s f then
             pathGone f (setFlock f (withPath fl p { pathOf fl p with calOut := true, calFrom := s.time.total }) s) else s)
  else .fault .noSuchUnit

/-- The taps that one path has. -/
def tapCount : Nat := 128

/-- Every tap within ±25 % of 31.25 ps, in fs (R355). -/
def tapsOk (taps : List (BitVec 8 × Nat)) : Bool := taps.all (fun t => decide (4 * ((t.2 : Int) - 31250).natAbs ≤ 31250))

/-- A path out of use for its taps needs the lock sequence of R84, at whose end it is re-admitted (R352). -/
def relockPath (m : MeshPath) : MeshPath := { m with locked := false, mValid := false, repValid := false, crcBad := 0, mismatch := false }

/-- PATH_CAL_DONE (R352, R355, R357): the selection of each of the 128 taps with its measured delay in fs; accepted taps are
applied, as restored ones are unmeasured, and the path relocks.  Nothing is judged while the core does not run, and
delays stay in bypass (R59). -/
def execPathCalDone (f p : Nat) (taps : List (BitVec 8 × Nat)) (s : State) : Host.Outcome State Fault Refusal :=
  if isPath s f p then
    let fl := flockOf s f
    let m := pathOf fl p
    let put := fun (m : MeshPath) => setFlock f (withPath fl p (relockPath m)) s
    if !m.calOut || !m.locked || fwHolds s || taps.length ≠ tapCount then .next s
    else
      match m.tapsNew with
      | some ts => .next (changedIf (!sameBytes ts m.taps) (put { m with taps := ts, tapsNew := none }))
      | none =>
        if !calMode s then .next (raiseAbout .cal 7 f (put m))
        else if tapsOk taps then
          .next (calDoneCheck f (changedIf (!sameBytes (taps.map Prod.fst) m.taps)
            (put { m with taps := taps.map Prod.fst, tapsOld := some m.taps, due := false, rejected := false })))
        else .next (rejectResult (some f) m.rejected (put { m with due := m.due && !m.rejected, rejected := !m.rejected }))
  else .fault .noSuchUnit

/-- A unit of the island was calibrated: CAL_TEMP_AO.TEMP_LAST takes the reading (R341, R363). -/
def islandDone (s : State) : State := { s with cal := { s.cal with tempAoLast := s.cal.tempAo } }

/-- TALLY_PHASE_CAL_START (R19, R353): a unit that firmware owns, with no measurement armed. -/
def execTallyPhaseCalStart (u : BitVec 2) (s : State) : Host.Outcome State Fault Refusal :=
  .next (if tallyStartable s u.toNat && turnOf s islandSource then
           setTally u.toNat { tallyUnit s u.toNat with phaseCal := some s.time.total } s else s)

/-- Every phase width within ±25 % of 15.625 ps, in fs (R355). -/
def phasesOk (phases : List (BitVec 8 × Nat)) : Bool := phases.all (fun p => decide (4 * ((p.2 : Int) - 15625).natAbs ≤ 15625))

/-- TALLY_PHASE_CAL_DONE (R353, R355): the selection of each of the 16 phases with its width in fs, of a unit that firmware still
owns. -/
def execTallyPhaseCalDone (u : BitVec 2) (phases : List (BitVec 8 × Nat)) (s : State) : Host.Outcome State Fault Refusal :=
  let x := tallyUnit s u.toNat
  match x.phaseCal with
  | some t =>
    if coreRuns s && decide (t + 8192 ≤ s.time.total) && phases.length = 16 then
      let y := { x with phaseCal := none }
      if x.owner ≠ .fw then .next (setTally u.toNat y s)
      else if !calMode s then .next (raise .cal 7 (setTally u.toNat y s))
      else if phasesOk phases then
        .next (changedIf (!sameBytes (phases.map Prod.fst) x.phases)
          (islandDone (setTally u.toNat { y with phases := phases.map Prod.fst, due := false, rejected := false } s)))
      else .next (rejectResult none x.rejected (setTally u.toNat { y with due := x.due && !x.rejected, rejected := !x.rejected } s))
    else .next s
  | none => .next s

/-- CHARGE_PUMP_CAL_START (R19, R354): only the warm spare, outside bypass; ALIGNED clears. -/
def execChargePumpCalStart (y : Syn) (s : State) : Host.Outcome State Fault Refusal :=
  if pumpStartable s y && turnOf s islandSource then
    let s := setSyn y { synOf s y with pumpCal := true } s
    .next { s with root := { s.root with aligned := false }, cal := { s.cal with pumpFrom := s.time.total } }
  else .next s

/-- The loop bandwidth of a synthesizer's mode, in kHz (R39's table of reference modes). -/
def loopKHz (s : State) (y : Syn) : Nat := 10 * detector2 s.root.xtalSel (synOf s y).refMode.toNat

/-- The measured bandwidth lies within ±40 % of the mode's (R355). -/
def bandwidthOk (s : State) (y : Syn) (kHz : Nat) : Bool := decide (100 * ((kHz : Int) - loopKHz s y).natAbs ≤ 40 * loopKHz s y)

/-- CHARGE_PUMP_CAL_DONE (R354, R355): the measured bandwidth in kHz and the code toward which the trim slews. -/
def execChargePumpCalDone (y : Syn) (bandwidth : Nat) (code : BitVec 6) (s : State) : Host.Outcome State Fault Refusal :=
  let x := synOf s y
  if x.pumpCal && coreRuns s then
    if !calMode s then .next (raise .cal 7 (pumpOver y s))
    else if bandwidthOk s y bandwidth then
      .next (pumpOver y (islandDone (setSyn y { x with pumpTarget := code, due := false, rejected := false } s)))
    else .next (pumpOver y (rejectResult none x.rejected (setSyn y { x with due := x.due && !x.rejected, rejected := !x.rejected } s)))
  else .next s

/-- BANDGAP_TRIM_STEP (R340, R341, R355, R357): in either mode, one code, 0.5 mV, each 2^20 ticks, against the comparator's offset,
or toward a restored code.  DESIGN CHOICE (log 120): the trim and the check of its offset go on while the core is halted. -/
def execBandgapTrimStep (microvolts : Int) (s : State) : Host.Outcome State Fault Refusal :=
  if s.time.total < s.cal.bandgapAt + 2 ^ 20 then .next s
  else if 5000 < microvolts.natAbs then
    .next (rejectResult none s.cal.bandgapRejected { s with cal := { s.cal with
      bandgapAt := s.time.total, bandgapRejected := !s.cal.bandgapRejected } })
  else
    let c := s.cal.bandgap
    let t := s.cal.bandgapTarget
    let c' : BitVec 8 :=
      if c.ult t then c + 1 else if t.ult c then c - 1
      else if 250 < microvolts && c ≠ 0 then c - 1 else if microvolts < -250 && c ≠ 255 then c + 1 else c
    let s := { s with cal := { s.cal with
      bandgap := c', bandgapTarget := if c = t then c' else t, bandgapAt := s.time.total, bandgapRejected := false } }
    .next (changedIf (c' ≠ c && !(s.cal.factory && decide (t = 0) && decide (c ≠ t))) s)

/-- A path whose calibration is abandoned comes back into use with its old taps (R358). -/
def abandonPath (f p : Nat) (s : State) : State :=
  let fl := flockOf s f
  let m := pathOf fl p
  pathBack f (setFlock f (withPath fl p { m with calOut := false, taps := m.tapsOld.getD m.taps, tapsOld := none }) (raiseAbout .cal 4 f s))

/-- CAL_TIMEOUT (R358): with V1_TO set, firmware abandons a calibration that is not done within four times its stated
interruption; it keeps its old values. -/
def execCalTimeout (what : TimedCal) (s : State) : Host.Outcome State Fault Refusal :=
  if !v1Timeout s || !coreRuns s then .next s
  else
    match what with
    | .spare f j =>
      if isSpare s f j then
        let g := spareRow s.build f j
        match (genOf s g).calFrom with
        | some t => .next (if t + 4 * 706 ≤ s.time.total then spareChanged f (spareLocking false g (raiseAbout .cal 4 f s)) else s)
        | none => .next s
      else .fault .noSuchUnit
    | .path f p =>
      if isPath s f p then
        let m := pathOf (flockOf s f) p
        .next (if m.calOut && decide (m.calFrom + 4 * 10240 ≤ s.time.total) then abandonPath f p s else s)
      else .fault .noSuchUnit
    | .tally u =>
      match (tallyUnit s u).phaseCal with
      | some t => .next (if t + 4 * 8192 ≤ s.time.total then raise .cal 4 (setTally u { tallyUnit s u with phaseCal := none } s) else s)
      | none => .next s
    | .pump y =>
      .next (if (synOf s y).pumpCal && decide (s.cal.pumpFrom + 4 * 25000 ≤ s.time.total) then raise .cal 4 (pumpOver y s) else s)

/-! ### CAL_CTRL and restoring -/

/-- The staging copy as it stood at the end of the previous tick (R490). -/
def stagedWas (s : State) : Mem := restoreBytes (freshIn s (elapsed s) imageBase imageSize) s.data

/-- The staging copy is accepted: MAGIC, FMT_MAJOR, DIE_ID and CRC (R357, R490). -/
def stagingOk (s : State) : Bool :=
  let d := stagedWas s
  let n := fun a k => memNat d (imageBase + a) k
  n 0 4 = 0x4C414356 && n 4 2 = 2 && n 8 8 = s.lc.fuses.dieId.toNat &&
  memWord d (imageBase + 60) =
    crc32c (memRead d imageBase 60 ++ memRead d (imageBase + 64) (imageSize - 64))

/-- The answer of CAL_STATUS to a command. -/
def calAnswer (rej : Nat) (s : State) : State := { s with cal := { s.cal with rej := BitVec.ofNat 3 rej } }

/-- A write of CAL_CTRL: a new TAG performs OP (R342, R357, R362). -/
def writeCalCtrl (v : Word) (s : State) : State :=
  let s := nowPut 0xA004 v s
  let tag := BitVec.ofNat 8 (fld v 24 8)
  if tag = s.cal.tag then s
  else
    let s := calAnswer 0 { s with cal := { s.cal with tag := tag } }
    match fld v 0 3 with
    | 0 => s
    | 1 => if !calMode s then calAnswer 1 s else if fld v 8 9 < s.build.flocks then flockDue (fld v 8 9) s else calAnswer 2 s
    | 2 => if !calMode s then calAnswer 1 s else forAll (List.range s.build.flocks) flockDue s
    | 3 => if stagingOk s then { s with cal := { s.cal with restorePend := true } } else raise .cal 6 (calAnswer 3 s)
    | 4 => { s with cal := { s.cal with restorePend := false } }
    | _ => calAnswer 4 s

/-- The CAL_CTRL word of an operation (R362). -/
def calWord (op flock tag : Nat) : Word := packWord [(0, 3, op), (8, 9, flock), (24, 8, tag)]

/-- CAL_FLOCK_DUE (R341, R342, R362). -/
def execCalFlockDue (w : Wr) (flock : BitVec 9) (tag : BitVec 8) (s : State) : Host.Outcome State Fault Refusal :=
  .next (regWrite w 0xA004 (calWord 1 flock.toNat tag.toNat) [] (writeCalCtrl (calWord 1 flock.toNat tag.toNat)) s)

/-- CAL_ALL_DUE (R342, R362). -/
def execCalAllDue (w : Wr) (tag : BitVec 8) (s : State) : Host.Outcome State Fault Refusal :=
  .next (regWrite w 0xA004 (calWord 2 0 tag.toNat) [] (writeCalCtrl (calWord 2 0 tag.toNat)) s)

/-- RESTORE (R357, R362). -/
def execRestore (w : Wr) (tag : BitVec 8) (s : State) : Host.Outcome State Fault Refusal :=
  .next (regWrite w 0xA004 (calWord 3 0 tag.toNat) [] (writeCalCtrl (calWord 3 0 tag.toNat)) s)

/-- CANCEL_RESTORE (R357, R362). -/
def execCancelRestore (w : Wr) (tag : BitVec 8) (s : State) : Host.Outcome State Fault Refusal :=
  .next (regWrite w 0xA004 (calWord 4 0 tag.toNat) [] (writeCalCtrl (calWord 4 0 tag.toNat)) s)

/-- CAL_INVALID_OP (R362): OP 5 to 7. -/
def execCalInvalidOp (w : Wr) (op : BitVec 3) (tag : BitVec 8) (s : State) : Host.Outcome State Fault Refusal :=
  .next (regWrite w 0xA004 (calWord op.toNat 0 tag.toNat) [] (writeCalCtrl (calWord op.toNat 0 tag.toNat)) s)

/-- No unit is left due, and every TEMP_LAST takes the current reading (R357). -/
def noneDue (s : State) : State :=
  let s := mapGens (fun _ x => { x with due := false }) s
  let p := fun (m : MeshPath) => { m with due := false }
  let s := mapFlocks (fun _ x => { x with p0 := p x.p0, p1 := p x.p1, p2 := p x.p2, tempLast := x.temp }) s
  let s := { s with regions := s.regions.map (fun e => (e.1, { e.2 with due := false })) }
  let s := forAll [0, 1, 2, 3] (fun u t => setTally u { tallyUnit t u with due := false } t) s
  { s with root := { s.root with s0 := { s.root.s0 with due := false }, s1 := { s.root.s1 with due := false } },
           cal := { s.cal with tempAoLast := s.cal.tempAo, arrived := [], arrivedOld := [] } }

/-- The bytes of the staging copy, as the image last restored. -/
def stagedImage (s : State) : Mem := s.data.filter (fun e => decide (imageBase ≤ e.1) && decide (e.1 < imageBase + imageSize))

/-- The band-cell, windsock and phase selections in force are the same (R356, R362). -/
def sameValues (s t : State) : Bool :=
  (allGens s.build).all (fun g => sameTab 24 (genOf s g).cells (genOf t g).cells && sameTab 8 (genOf s g).socks (genOf t g).socks) &&
  [0, 1, 2, 3].all (fun u => sameBytes (tallyUnit s u).phases (tallyUnit t u).phases)

/-- A pending restore takes effect at the bell (R356, R357): generator and Tally records at once, trim codes as targets to slew
to, aligner records path by path; no flock is left due.  FACTORY clears where a value changes (R362). -/
def restoreApply (s : State) : State :=
  if s.cal.restorePend then
    let d := s.data
    let same := sameValues s (loadImage d s)
    let s := noneDue (loadTaps d (loadImage d s))
    raise .cal 5 { s with cal := { s.cal with
      restorePend := false, factory := s.cal.factory && same, bandgapTarget := memGet d (imageBase + 0x40), base := stagedImage s,
      calTick := memNat d (imageBase + 16) 8 } }
  else s

/-- What an applied CAL_CFG does: MODE = 0 puts the base values in force, else a reading beyond DT triggers (R341). -/
def calCfgApplied (before s : State) : State :=
  if bellA before 0xA000 = bellA s 0xA000 then s
  else if !calMode s then (if calMode before then factoryMode s else s)
  else triggerIsland (forAll (List.range s.build.flocks) triggerFlock s)

/-- The values in force return to the factory values, the trims slewing as after a restore, and the staging copy is
cleared (R355, R362, R496, R507; the factory selections are all 0, log 3). -/
def factoryValues (s : State) : State :=
  let s := mapGens (fun _ x => { x with cells := [], socks := [], cellProp := none, sockProp := [] }) s
  let p := fun (m : MeshPath) => { m with taps := [], tapsNew := none }
  let s := mapFlocks (fun _ x => { x with p0 := p x.p0, p1 := p x.p1, p2 := p x.p2 }) s
  let s := forAll [0, 1, 2, 3] (fun u t => setTally u { tallyUnit t u with phases := [] } t) s
  { s with
    data := memClear s.data imageBase imageSize,
    root := { s.root with s0 := { s.root.s0 with pumpTarget := 0 }, s1 := { s.root.s1 with pumpTarget := 0 } },
    cal := { s.cal with factory := true, restorePend := false, bandgapTarget := 0, calTick := 0, base := [] } }

/-- END of one class in the running fold, in exact integers (R347). -/
def holdEnd (k f g nom spr : Nat) : Nat :=
  let a := 50000 * k
  let b := nom * (200 + spr) * (f - g)
  if 450 * a ≤ (g - 16) * b then f - g
  else if b ≤ a then 0
  else (f - g) - ceilDiv (450 * a - (g - 16) * b) (b - a)

/-- CAL_LATEST.END: the smallest over the implemented classes (R347). -/
def latestEnd (s : State) : Nat :=
  (List.range s.build.classes).foldl (fun m n => min m (holdEnd (kNow s n) (fNow s) (gNow s) (nomOf s n) (sprintOf s n))) (fNow s - gNow s)

/-- The bytes of the calibration image that hold the values in force (R356); `hw` is the VERSION word. -/
def imageByte (s : State) (hw a : Nat) : BitVec 8 :=
  if a < 0x40 then
    let h := leBytes 4 0x4C414356 ++ leBytes 2 2 ++ leBytes 2 0 ++ leBytes 8 s.lc.fuses.dieId.toNat ++ leBytes 8 s.cal.calTick ++ leBytes 4 hw
    h.getD a 0
  else if a < 0x80 then
    (if a = 0x40 then s.cal.bandgap else if a = 0x41 then s.root.s0.pumpCode.setWidth 8
     else if a = 0x42 then s.root.s1.pumpCode.setWidth 8 else 0)
  else if a < 0xC0 then (tallyUnit s ((a - 0x80) / 16)).phases.getD (a % 16) 0
  else if 0x1000 ≤ a && a < 0x1000 + 32 * 5760 then
    let g := (a - 0x1000) / 32
    let k := a % 32
    if k < 24 then tabGet (genOf s g).cells k 0 else tabGet (genOf s g).socks (k - 24) 0
  else if 0x30000 ≤ a && a < 0x30000 + 384 * s.build.flocks then
    let f := (a - 0x30000) / 384
    (pathOf (flockOf s f) ((a - 0x30000) / 128 % 3)).taps.getD (a % 128) 0
  else 0

/-- The CRC of the image of the values in force (R356). -/
def imageCrc (s : State) (hw : Nat) : Word :=
  crc32c (((List.range 60) ++ (List.range (imageSize - 64)).map (· + 64)).map (imageByte s hw))

end Sys2Proof.Machine
end

