-- ==== Sys2Proof/Machine/Shep.lean ====
section
/-!
DEFINITION. The Shepherd subsystem (R400 to R439): the firmware banks, the core's halts and restarts, the
mailboxes, and the command set of firmware 2.1 with its background jobs.
-/
namespace Sys2Proof.Machine
open Sys2Proof

/-- VERSION (R477): hardware 2.0; the netlist build reads 0 (log 3). -/
def versionWord : Word := 0x00000200

/-! ### Firmware banks -/

/-- A firmware bank's record. -/
def swBank (s : State) (b : BitVec 1) : Bank := if b = 0 then s.shep.b0 else s.shep.b1

/-- Writes a firmware bank's record. -/
def setSwBank (b : BitVec 1) (x : Bank) (s : State) : State :=
  { s with shep := if b = 0 then { s.shep with b0 := x } else { s.shep with b1 := x } }

/-- Base of a firmware bank in the data-port window (R403, R485). -/
def fwBase (b : BitVec 1) : Nat := 0xC00000 + 0x20000 * b.toNat

/-- A little-endian field of a bank's image header (R404). -/
def imgField (s : State) (b : BitVec 1) (off n : Nat) : Nat := memNat s.data (fwBase b + off) n

/-- LENGTH and ENTRY of a bank's image (R404). -/
def imgLength (s : State) (b : BitVec 1) : Nat := imgField s b 12 4
def imgEntry (s : State) (b : BitVec 1) : Nat := imgField s b 16 4

/-- Version word of a bank's image: FW_MAJOR in bits 15:8, FW_MINOR in 7:0 (R404, R422). -/
def imgVersion (s : State) (b : BitVec 1) : Nat := 256 * imgField s b 8 1 + imgField s b 9 1

/-- The header checks of FW_SEAL_HEADER (R404, R407). -/
def imgHeaderOk (s : State) (b : BitVec 1) : Bool :=
  let len := imgLength s b
  let en := imgEntry s b
  imgField s b 0 4 = 0x57485346 && imgField s b 4 2 = 2 &&
  len % 32 = 0 && 1024 ≤ len && len ≤ 131072 && 256 ≤ en && en + 2 ≤ len && en % 2 = 0 &&
  imgField s b 24 1 ≤ 1 && imgField s b 25 1 ≤ 3 && (memRead s.data (fwBase b + 26) 38).all (· == 0)

/-- The bytes over which an image is signed (R404). -/
def imgSigned (s : State) (b : BitVec 1) : List (BitVec 8) :=
  memRead s.data (fwBase b) 160 ++ memRead s.data (fwBase b + 256) (imgLength s b - 256)

/-- Whether a fused key slot holds the digest of this image's PUBKEY, and is not revoked (R404, R407). -/
def imgKeyOk (s : State) (b : BitVec 1) : Bool :=
  let k := imgField s b 25 1
  let fu := s.lc.fuses
  fu.keyProg.getLsbD k && !fu.keyRevoked.getLsbD k &&
  tabGet fu.keys k 0 = Config.sha384 (memRead s.data (fwBase b + 64) 96)

/-- R407: the code of the first check that fails, 0 where none does. -/
def imgCheck (s : State) (b : BitVec 1) : Nat :=
  if !imgHeaderOk s b then 3
  else if versionWord.toNat % 65536 < imgField s b 22 2 then 4
  else if imgField s b 24 1 = 0 then (if s.lc.access = 1 || s.lc.access = 2 then 5 else 0)
  else if !imgKeyOk s b then 6
  else if Config.ecdsaVerifies (memRead s.data (fwBase b + 64) 96) (memRead s.data (fwBase b + 160) 96) (Config.sha384 (imgSigned s b)) then 0
  else 7

/-- Ticks that verification takes: LENGTH / 16, and 120,000 more for a signed image (R407). -/
def imgVerifyTicks (s : State) (b : BitVec 1) : Nat :=
  imgLength s b / 16 + if imgField s b 24 1 = 1 then 120000 else 0

/-- A failed seal returns the bank to OPEN, its count and contents unchanged (R406, R407). -/
def swSealFails (b : BitVec 1) (code : Nat) (s : State) : State :=
  let s := setSwBank b { swBank s b with st := .opened } s
  raise .shep 4 { s with shep := { s.shep with sealRes := BitVec.ofNat 4 code } }

/-- In WAIT the count decides until the timer has expired: LENGTH / 32 moves the bank to VERIFY, more fails the seal (R406).
Both times are the hardware's own and do not lengthen in bypass (R400). -/
def swWaitCheck (b : BitVec 1) (s : State) : State :=
  let x := swBank s b
  if x.st = .waiting && decide (elapsed s ≤ x.timer) then
    if x.wcount = x.want then setSwBank b { x with st := .verify, timer := elapsed s + imgVerifyTicks s b } s
    else if x.want < x.wcount then swSealFails b 2 s
    else s
  else s

/-- A rejected bank command (R434, R436). -/
def swReject (code : Nat) (s : State) : State :=
  raise .shep 12 { s with shep := { s.shep with rej := BitVec.ofNat 3 code } }

/-- OPEN (R406, R409). -/
def swDoOpen (b : BitVec 1) (s : State) : State :=
  if s.shep.active = some b || s.shep.committed.isSome then swReject 1 s
  else
    let s := setSwBank b { st := .opened } s
    if s.shep.swap = some b then raise .shep 6 { s with shep := { s.shep with swap := none } } else s

/-- SEAL (R406). -/
def swDoSeal (b : BitVec 1) (s : State) : State :=
  if (swBank s b).st ≠ .opened then swReject 2 s
  else swWaitCheck b (setSwBank b { swBank s b with st := .waiting, want := imgLength s b / 32, timer := elapsed s + 4096 } s)

/-- SWAP (R408). -/
def swDoSwap (b : BitVec 1) (s : State) : State :=
  if (swBank s b).st = .empty || (swBank s b).st = .active then swReject 3 s
  else { s with shep := { s.shep with swap := some b } }

/-- A write of SHEP_BANK_CTRL: a new TAG is recorded and performs OP (R406, R408, R434). -/
def writeShepBankCtrl (v : Word) (s : State) : State :=
  let s := nowPut 0xC024 v s
  let tag := BitVec.ofNat 8 (fld v 8 8)
  if tag = s.shep.cmdTag then s
  else
    let s := { s with shep := { s.shep with cmdTag := tag, rej := 0 } }
    let b : BitVec 1 := BitVec.ofNat 1 (fld v 4 1)
    match fld v 0 3 with
    | 0 => s
    | 1 => swDoOpen b s
    | 2 => swDoSeal b s
    | 3 => swDoSwap b s
    | _ => swReject 4 s

/-- The SHEP_BANK_CTRL word of an operation (R434). -/
def swWord (op bank tag : Nat) : Word := packWord [(0, 3, op), (4, 1, bank), (8, 8, tag)]

/-- FW_OPEN (R406). -/
def execFwOpen (w : Wr) (b : BitVec 1) (tag : BitVec 8) (s : State) : Host.Outcome State Fault Refusal :=
  .next (regWrite w 0xC024 (swWord 1 b.toNat tag.toNat) [] (writeShepBankCtrl (swWord 1 b.toNat tag.toNat)) s)

/-- FW_SEAL (R406). -/
def execFwSeal (w : Wr) (b : BitVec 1) (tag : BitVec 8) (s : State) : Host.Outcome State Fault Refusal :=
  .next (regWrite w 0xC024 (swWord 2 b.toNat tag.toNat) [] (writeShepBankCtrl (swWord 2 b.toNat tag.toNat)) s)

/-- FW_SWAP (R408). -/
def execFwSwap (w : Wr) (b : BitVec 1) (tag : BitVec 8) (s : State) : Host.Outcome State Fault Refusal :=
  .next (regWrite w 0xC024 (swWord 3 b.toNat tag.toNat) [] (writeShepBankCtrl (swWord 3 b.toNat tag.toNat)) s)

/-- FW_BANK_INVALID_OP (R434). -/
def execFwBankInvalidOp (w : Wr) (op : BitVec 3) (tag : BitVec 8) (s : State) : Host.Outcome State Fault Refusal :=
  .next (regWrite w 0xC024 (swWord op.toNat 0 tag.toNat) [] (writeShepBankCtrl (swWord op.toNat 0 tag.toNat)) s)

/-- FW_SEAL_SHORT (R406): the timer expires in WAIT. -/
def execFwSealShort (b : BitVec 1) (s : State) : Host.Outcome State Fault Refusal :=
  .next (if (swBank s b).st = .waiting && decide ((swBank s b).timer ≤ elapsed s) then swSealFails b 1 s else s)

/-- An unsigned image that the life-cycle state refuses is a denied access of the host's, whose data port wrote it (R407, R458,
R487; log 128). -/
def denyImage (s : State) : State := { raise .cfg 8 s with cfg := { s.cfg with denyPort := 1 } }

/-- FW_VERIFY_DONE (R407, R458). -/
def execFwVerifyDone (b : BitVec 1) (s : State) : Host.Outcome State Fault Refusal :=
  let x := swBank s b
  if x.st = .verify && decide (x.timer ≤ elapsed s) then
    let code := imgCheck s b
    if code = 0 then
      let s := setSwBank b { x with st := .sealed, sealedAt := elapsed s } s
      .next (raise .shep 3 { s with shep := { s.shep with sealRes := 0 } })
    else .next (if code = 5 then denyImage (swSealFails b code s) else swSealFails b code s)
  else .next s

/-- A beat in a firmware window (R405, R487): stored, and counted when whole, in OPEN and WAIT; in EMPTY no
write is accepted; in ACTIVE, VERIFY and SEALED it is refused with an error response. -/
def fwBeat (b : Beat) (s : State) : State :=
  let bank : BitVec 1 := if b.addr.toNat < 0xC20000 then 0 else 1
  let x := swBank s bank
  if x.st = .opened || x.st = .waiting then
    let s := answer .okay (storeBeat b s)
    if b.strb.toNat = 2 ^ 32 - 1 then swWaitCheck bank (setSwBank bank { x with wcount := x.wcount + 1 } s)
    else if b.strb = 0 then s else raise .shep 9 s
  else
    let s := if x.st = .active then raise .shep 7 s else if x.st = .empty then s else raise .shep 8 s
    answer .slverr s

/-! ### Mailboxes -/

/-- Mailbox m. -/
def mbox (s : State) (m : Nat) : Mailbox := if m = 0 then s.mbx.m0 else if m = 1 then s.mbx.m1 else s.mbx.m2

/-- Writes mailbox m. -/
def setMbox (m : Nat) (x : Mailbox) (s : State) : State :=
  { s with mbx := if m = 0 then { s.mbx with m0 := x } else if m = 1 then { s.mbx with m1 := x } else { s.mbx with m2 := x } }

/-- A completion: status and TAG, the slot back to IDLE, DONE_COUNT and the DONE event (R417, R438). -/
def completeWith (m : Nat) (status : BitVec 8) (res : Tab Word) (s : State) : State :=
  let x := mbox s m
  raise .mbx m (setMbox m { x with
    slot := .idle, status := status, tag := BitVec.ofNat 8 (fld x.cmd 8 8), res := res, doneCount := x.doneCount + 1 } s)

/-- A list of result words R0 upward; a result not listed reads 0 (R422). -/
def resTab (ws : List Word) : Tab Word := tabulate 8 0 (fun k => ws.getD k 0)

/-- Firmware completes a command with its results (R417, R422). -/
def complete (m : Nat) (status : BitVec 8) (ws : List Word) (s : State) : State :=
  let s := completeWith m status (resTab ws) s
  { s with shep := { s.shep with completed := s.shep.completed + 1 } }

/-- The mailbox whose command firmware has taken (R419). -/
def takenBox (s : State) : Option Nat := [0, 1, 2].find? (fun m => (mbox s m).slot = .taken)

/-- Hardware completes the taken command with a status (R412, R415, R420, R423). -/
def abortTaken (status : BitVec 8) (s : State) : State :=
  match takenBox s with
  | some m => completeWith m status [] s
  | none => s

/-- Which ports reach a mailbox as its client (R418). -/
def mbxClient (p : Port) (m : Nat) : Bool :=
  (p = .host && (m = 0 || m = 2)) || (p = .bm && (m = 1 || m = 2))

/-- A client's write to mailbox m: mailbox 2 only while the crook path is armed, the control port's write
before board management's (R418). -/
def mbxWrite (w : Wr) (m : Nat) (eff : State → State) (s : State) : State :=
  if !mbxClient w.port m then s
  else if m = 2 && (!s.crook.armed || (w.port = .bm && w.rival = some .host)) then raise .mbx 6 s
  else eff s

/-- A write that OWN = 1 makes mailbox m ignore (R417). -/
def whileIdle (m : Nat) (eff : State → State) (s : State) : State :=
  if (mbox s m).slot = .idle then eff s else raise .mbx (3 + m) s

/-- GO = 1 (R417, R418). -/
def mbxPost (m : Nat) (s : State) : State :=
  whileIdle m (fun s =>
    let s := setMbox m { mbox s m with slot := .posted } s
    if m = 2 then { s with crook := { s.crook with armed := false } } else s) s

/-- WITHDRAW = 1 (R417): the results stay.  A take of the slow-clock period that ends fails (R420). -/
def mbxUnpost (m : Nat) (s : State) : State :=
  let x := mbox s m
  if x.slot = .posted || (x.slot = .taken && decide (s.time.slowEdges ≤ x.takenAt + 1)) then completeWith m 0xE3 (mbox s m).res s else s

/-- A write of MBX_CTRLm: GO posts, or is refused; WITHDRAW withdraws a command that was posted before the write (R417,
R437). -/
def writeMbxCtrl (m : Nat) (v : Word) (s : State) : State :=
  let t := if bitAt v 0 then mbxPost m s else s
  if bitAt v 1 && (mbox s m).slot ≠ .idle then mbxUnpost m t else t

/-- The address of MBX_CTRLm and of the other words of mailbox m (R474). -/
def mbxAddr (m off : Nat) : Nat := 0xD000 + 0x100 * m + off

/-- A mailbox of the fabric. -/
def isMbox (m : BitVec 2) : Bool := m.toNat < 3

/-- MBX_GO (R417, R418, R437). -/
def execMbxGo (w : Wr) (m : BitVec 2) (s : State) : Host.Outcome State Fault Refusal :=
  if isMbox m then .next (regWrite w (mbxAddr m.toNat 0) (1 : Word) [] (mbxWrite w m.toNat (writeMbxCtrl m.toNat 1)) s) else .fault .noSuchUnit

/-- MBX_WITHDRAW (R417, R418, R437). -/
def execMbxWithdraw (w : Wr) (m : BitVec 2) (s : State) : Host.Outcome State Fault Refusal :=
  if isMbox m then .next (regWrite w (mbxAddr m.toNat 0) (2 : Word) [] (mbxWrite w m.toNat (writeMbxCtrl m.toNat 2)) s) else .fault .noSuchUnit

/-- A write to mailbox 2 that waits for the slow-clock edge will be performed there: the crook path is armed, or a waiting CRK_ARM
arms it, and the control port does not write the mailbox in the same period as board management (R297, R418). -/
def crookHears (s : State) (p : Port) : Bool :=
  (s.crook.armed || s.out.waiting.any (fun e => e.addr = 0xE000 && fld e.word 0 8 = 0xA5)) &&
  (p = .host || s.out.waiting.all (fun e => e.w.port ≠ .host || e.addr < mbxAddr 2 0 || mbxAddr 3 0 ≤ e.addr))

/-- A client's WITHDRAW of mailbox m waits for the slow-clock edge, and will be performed (R417, R418). -/
def withdrawing (s : State) (m : Nat) : Bool :=
  s.out.waiting.any (fun e => e.addr = mbxAddr m 0 && mbxClient e.w.port m && bitAt e.word 1 && (m ≠ 2 || crookHears s e.w.port))

/-- MBX_TAKE (R417, R419, R420): firmware, when free, takes the posted command of the highest rank, mailbox 2, 0, 1, that its
client does not withdraw in this period. -/
def execMbxTake (s : State) : Host.Outcome State Fault Refusal :=
  if coreRuns s && (takenBox s).isNone then
    match [2, 0, 1].find? (fun m => (mbox s m).slot = .posted && !withdrawing s m) with
    | some m => .next (setMbox m { mbox s m with slot := .taken, takenAt := s.time.slowEdges } s)
    | none => .next s
  else .next s

/-! ### Jobs -/

/-- A job of kind k: 1 ROW_VERIFY, 2 XCAL (R422). -/
def jobOf (s : State) (k : Nat) : Job := if k = 1 then s.shep.rowJob else s.shep.xcalJob

/-- Writes a job. -/
def setJob (k : Nat) (j : Job) (s : State) : State :=
  { s with shep := if k = 1 then { s.shep with rowJob := j } else { s.shep with xcalJob := j } }

/-- Firmware keeps the record of job k in its area of the retention RAM as the job starts and as it ends (R412, R497; log 121). -/
def jobRecord (k : Nat) (s : State) : State := fwRecord (k + 1) s

/-- Ends a running job as aborted: its results are discarded, and an XCAL leaves MANIFEST_READY clear and
gives its pool units back (R415, R425, R426). -/
def abortJob (k : Nat) (s : State) : State :=
  if (jobOf s k).state = 1 then
    let s := raise .shep 11 (setJob k { jobOf s k with state := 3, progress := 0, results := [] } s)
    if k = 2 then releaseFirmware { s with xing := { s.xing with calRun := false, manifestReady := false } } else s
  else s

/-- Aborts every background job (R412, R415). -/
def abortJobs (s : State) : State := abortJob 2 (abortJob 1 s)

/-! ### The core -/

/-- SHEP_PREV of the image that runs now (R410, R430). -/
def prevWord (s : State) : Word :=
  match s.shep.active with
  | some b => packWord [(0, 8, imgField s b 9 1), (8, 8, imgField s b 8 1), (16, 16, imgField s b 20 2)]
  | none => 0

/-- The core starts from the active bank's ENTRY with a boot cause; every start but the first activation is
a restart (R343, R410, R414, R428 to R430, R436).  Results of holds that waited for the core are judged; the data memory
is cleared where its layout is another's, and the muster round that runs goes on without this host (R410, R416). -/
def startCore (cause : Nat) (prev : Word) (s : State) : State :=
  match s.shep.active with
  | none => s
  | some b =>
    let s := { s with mus := { s.mus with restarted := s.mus.inRound }, shep := { s.shep with
      state := .running, boot := BitVec.ofNat 3 cause, wdogCount := 0, startAt := s.time.total, startEdge := s.time.slowEdges, wdogOut := false, hung := false,
      completed := 0, internal := 0, identifyEnd := none, entry := BitVec.ofNat 32 (imgEntry s b) } }
    let s := if cause = 1 then s
      else raise .shep 2 { s with
        dmem := if prev.toNat / 65536 = imgField s b 20 2 then s.dmem else [],
        shep := { s.shep with
          prev := prev, restarts := if s.shep.restarts = 255 then 255 else s.shep.restarts + 1 } }
    judgeWaiting s

/-- A reset through the crook path or the watchdog, and a halt restart (R413, R415). -/
def resetCore (cause : Nat) (s : State) : State :=
  if s.shep.active.isNone then s
  else startCore cause (prevWord s) (releaseFirmware (abortJobs (abortTaken 0xE1 s)))

/-- The watchdog has reset the core in this slow-clock period (R420). -/
def wdogNow (s : State) : Bool :=
  s.shep.state = .running && s.shep.boot = 5 && s.shep.startEdge = s.time.slowEdges

/-- A swap restart of the period of a watchdog reset is the one restart: the command that the reset completed completes with
ABORTED_SWAP, and RESTARTS counts once (R420). -/
def oneRestart (s : State) : State :=
  if wdogNow s then
    let s := { s with shep := { s.shep with restarts := s.shep.restarts - 1 } }
    match s.shep.wdogBox with
    | some m => if (mbox s m).slot = .idle && (mbox s m).status = 0xE1 then setMbox m { mbox s m with status := 0xE0 } s else s
    | none => s
  else s

/-- The committed or pending bank becomes ACTIVE, the one that was active SEALED, and the core restarts
(R408, R409, R420). -/
def swapTo (b : BitVec 1) (s : State) : State :=
  let s := oneRestart s
  let prev := prevWord s
  let first := s.shep.active.isNone
  let s := match s.shep.active with
    | some a => setSwBank a { swBank s a with st := .sealed } s
    | none => s
  let s := setSwBank b { swBank s b with st := .active } s
  let s := { s with shep := { s.shep with active := some b, swap := if s.shep.swap = some b then none else s.shep.swap, committed := none } }
  let s := abortJobs (abortTaken 0xE0 s)
  raise .shep 5 (startCore (if first then 1 else 2) prev s)

/-- FW_SWAP_PRE_START (R408): while no fold runs or is pending, a pending swap takes effect at the first slow-clock edge at
which its bank is SEALED. -/
def execFwSwapPreStart (s : State) : Host.Outcome State Fault Refusal :=
  match s.shep.swap with
  | some b => .next (if !s.fold.started && !s.fold.pending && slowNow s && (swBank s b).st = .sealed then swapTo b s else s)
  | none => .next s

/-- The commit of a pending firmware swap whose bank was SEALED at the end of the previous tick (R409). -/
def commitFirmware (s : State) : State :=
  match s.shep.swap with
  | some b =>
    if sealedBefore s (swBank s b) then { s with shep := { s.shep with committed := some b, swap := none } } else s
  | none => s

/-- The committed swap takes effect at the bell (R409). -/
def firmwareBell (s : State) : State :=
  match s.shep.committed with
  | some b => swapTo b s
  | none => s

/-- The code of a halt cause (R411). -/
def haltCode : HaltCause → Nat
  | .illegalInsn => 1
  | .fetchFault => 2
  | .loadFault => 3
  | .storeFault => 4
  | .misaligned => 5
  | .eccInsn => 6
  | .eccData => 7
  | .ebreak => 8
  | .assertion => 9
  | .entry => 10

/-- The last column of R411: 0 for EBREAK, ENTRY for cause 10, a 16-bit code for an assertion. -/
def haltValue (s : State) (c : HaltCause) (val : Word) : Word :=
  match c with
  | .ebreak => 0
  | .entry => s.shep.entry
  | .assertion => val &&& 0xFFFF
  | _ => val

/-- The core's address map: which ranges it loads from, and which it stores to (R401). -/
def coreLoads (a : Nat) : Bool :=
  a < 0x20000 || (0x10000000 ≤ a && a < 0x10010000) || (0x20000000 ≤ a && a < 0x20004000) || (0x40000000 ≤ a && a < 0x40100000)
def coreStores (a : Nat) : Bool := coreLoads a && 0x20000 ≤ a

/-- The length of the image in the active bank (R404). -/
def activeLength (s : State) : Nat :=
  match s.shep.active with
  | some b => imgLength s b
  | none => 0

/-- The condition of R411's table that a halt names, as far as the address shows it. -/
def haltHolds (s : State) (c : HaltCause) (val : Nat) : Bool :=
  match c with
  | .fetchFault => activeLength s ≤ val
  | .loadFault => !coreLoads val
  | .storeFault => !coreStores val
  | .misaligned => val % 4 ≠ 0
  | .eccInsn => val < activeLength s
  | .eccData => 0x10000000 ≤ val && coreLoads val && val < 0x40000000
  | .illegalInsn => true
  | .ebreak => true
  | .assertion => true
  | .entry => true

/-- The running core halts (R411, R412). -/
def haltCore (c : HaltCause) (pc val : Word) (s : State) : State :=
  if s.shep.state = .running then
    let s := { s with shep := { s.shep with
      state := .halted, haltCause := BitVec.ofNat 4 (haltCode c), haltPc := pc, haltVal := haltValue s c val,
      haltCount := if s.shep.haltCount = 255 then 255 else s.shep.haltCount + 1, haltAt := s.shep.edges } }
    releaseFirmware (abortJobs (abortTaken 0xE2 (raise .shep 0 s)))
  else s

/-- HALT (R401, R411, R412): on a condition of R411's table. -/
def execHalt (c : HaltCause) (pc val : Word) (s : State) : Host.Outcome State Fault Refusal :=
  .next (if haltHolds s c val.toNat then haltCore c pc val s else s)

/-- SHEP_ASSERT_WRITE (R411, R432). -/
def execShepAssertWrite (code : BitVec 16) (pc : Word) (s : State) : Host.Outcome State Fault Refusal :=
  .next (haltCore .assertion pc (code.setWidth 32) s)

/-- HALT_RESTART (R400, R413): 256 ticks, in bypass 256 bypass edges, after a halt, with SHEP_CFG.HALT_RESTART set. -/
def execHaltRestart (s : State) : Host.Outcome State Fault Refusal :=
  .next (if s.shep.state = .halted && bitAt (nowGet s 0xC008) 0 && decide (s.shep.haltAt + 256 ≤ s.shep.edges) then resetCore 6 s else s)

/-- The watchdog period in ticks (R414, R431). -/
def wdogPeriod (s : State) : Nat := 2 ^ (min (fld (nowGet s 0xC008) 1 4) 12 + 10)

/-- WDOG (R414): the watchdog of a running core expires. -/
def execWdog (s : State) : Host.Outcome State Fault Refusal :=
  if s.shep.state = .running && bitAt (nowGet s 0xC008) 6 && !s.shep.wdogOut && decide (wdogPeriod s ≤ s.shep.wdogCount) then
    let s := raise .shep 1 s
    .next (if bitAt (nowGet s 0xC008) 5 then resetCore 5 { s with shep := { s.shep with wdogBox := takenBox s } } else { s with shep := { s.shep with wdogOut := true } })
  else .next s

/-- WATCHDOG_KICK (R414, R432): firmware writes SHEP_KICK. -/
def execWatchdogKick (v : Word) (s : State) : Host.Outcome State Fault Refusal :=
  .next (if s.shep.state = .running && bitAt v 0 then { s with shep := { s.shep with wdogCount := 0, wdogOut := false } } else s)

/-- ECC_CORR (R401, R433). -/
def execEccCorr (insn : Bool) (s : State) : Host.Outcome State Fault Refusal :=
  let up := fun (c : BitVec 16) => if c = 65535 then c else c + 1
  .next (raise .shep 10 { s with shep :=
    if insn then { s.shep with eccInsn := up s.shep.eccInsn } else { s.shep with eccData := up s.shep.eccData } })

/-! ### The command set -/

/-- Opcodes of R422. -/
def fwOpcodes : List Nat := [0x01, 0x02, 0x03, 0x10, 0x11, 0x12, 0x13, 0x20, 0x21, 0x40, 0x41]

/-- Argument k of mailbox m. -/
def argOf (s : State) (m k : Nat) : Nat := (tabGet (mbox s m).args k 0).toNat

/-- Firmware executes the taken command where it carries this opcode: not permitted in its mailbox, a
reserved argument not 0, or the command's own meaning (R422, R423).  R6 leaves open what firmware other than version 2.1 does
with a command; DESIGN CHOICE: the 2.1 command set, whatever version the image carries (log 80). -/
def onCommand (op : Nat) (boxes : List Nat) (nargs : Nat) (f : Nat → State → State) (s : State) : State :=
  match takenBox s with
  | some m =>
    if coreRuns s && fld (mbox s m).cmd 0 8 = op then
      if !boxes.contains m then complete m 0x04 [] s
      else if (List.range 8).any (fun k => nargs ≤ k && argOf s m k ≠ 0) then complete m 0x03 [] s
      else f m s
    else s
  | none => s

/-- VERSION (R422). -/
def execVersion (s : State) : Host.Outcome State Fault Refusal :=
  .next (onCommand 0x01 [0, 1, 2] 0 (fun m s =>
    match s.shep.active with
    | some b => complete m 0 [BitVec.ofNat 32 (imgVersion s b), BitVec.ofNat 32 (imgField s b 10 2),
        packWord [(0, 2, b.toNat + 1), (16, 16, imgField s b 20 2)], packWord [(0, 8, imgField s b 24 1), (8, 8, imgField s b 25 1)]] s
    | none => s) s)

/-- STATUS (R422). -/
def execStatus (s : State) : Host.Outcome State Fault Refusal :=
  .next (onCommand 0x02 [0, 1, 2] 0 (fun m s =>
    complete m 0 [packWord [(0, 1, b2n (s.shep.rowJob.state = 1)), (1, 1, b2n (s.shep.xcalJob.state = 1)), (8, 1, b2n (calHeld s))],
      BitVec.ofNat 32 ((s.time.total - s.shep.startAt) / 2 ^ 20), s.shep.internal, BitVec.ofNat 32 s.shep.completed] s) s)

/-- NOP (R422). -/
def execNop (s : State) : Host.Outcome State Fault Refusal :=
  .next (onCommand 0x03 [0, 1, 2] 1 (fun m s => complete m 0 [BitVec.ofNat 32 (argOf s m 0)] s) s)

/-- Rows of a ROW_VERIFY job: count 0 names every row the build has (R422, R424). -/
def jobRows (s : State) (j : Job) : List Nat :=
  if j.count = 0 then allGens s.build else (List.range j.count).map (j.first + ·)

/-- ROW_VERIFY (R421, R422, R424). -/
def execRowVerify (s : State) : Host.Outcome State Fault Refusal :=
  .next (onCommand 0x10 [0] 2 (fun m s =>
    let a := argOf s m 0
    let n := argOf s m 1
    if n ≠ 0 && (5760 < n || 5120 + 2 * s.build.flocks < a + n) then complete m 0x03 [] s
    else if s.shep.rowJob.state = 1 then complete m 0x05 [] s
    else
      let j : Job := { state := 1, progress := 0, results := [], first := a, count := n }
      let s := setJob 1 j s
      let s := forAll (jobRows s j) (fun g t => if isGen t g then setGen g { genOf t g with rowWas := none } t else t) s
      complete m 0x01 [] (jobRecord 1 s)) s)

/-- The row as it stood at its own verification: with a data-port write that came before it, and without one that came after
it.  Where within the job a row is verified the manual does not say: a free value decides (log 42). -/
def rowJudged (s : State) (g : Nat) : List Word :=
  match (genOf s g).rowWas with
  | some ws => if (Config.freeWord (s.freeCtr + g)).getLsbD 0 then ws else rowWords s g
  | none => rowWords s g

/-- The generator of row g is under band measurement: an RCG_BMEAS's, or a RETEST's (R156, R294). -/
def rowMeasured (s : State) (g : Nat) : Bool :=
  (genOf s g).measFrom.isSome ||
  ((flockOf s (rowFlock s.build g)).retest = some (rowIndex s.build g) &&
   decide (s.time.total < (flockOf s (rowFlock s.build g)).retestAt + bmeasTicks))

/-- The verification of one row by R154: 0 passed, 1 failed, 2 skipped (R424). -/
def rowOutcome (s : State) (hit : List Nat) (g : Nat) : Nat :=
  if !isGen s g || rowMeasured s g || (hit.contains g && (genOf s g).rowWas.isSome) then 2
  else if rowVerifies (rowJudged s g) then 0 else 1

/-- A row passes: it is copied into the generator, whose region leaves reset where it was waiting, and ROW_OK is set where no
write has landed on it since (R154, R155); a row that fails raises ROW_FAIL. -/
def verifyRow (hit : List Nat) (g : Nat) (s : State) : State :=
  match rowOutcome s hit g with
  | 0 =>
    let s := setGen g { genOf s g with rowOk := decide (rowJudged s g = rowWords s g), verified := true, copy := rowJudged s g } s
    if g < s.build.regions then leaveReset g s else startSpare (rowFlock s.build g) (rowIndex s.build g - 16) s
  | 1 => raiseAbout .rcg 7 g s
  | _ => s

/-- ROW_VERIFY_JOB_END (R154, R155, R421, R422, R424): the rows are verified; `hit` names those on which a
data-port write landed while they were being verified. -/
def execRowVerifyJobEnd (hit : List Nat) (s : State) : Host.Outcome State Fault Refusal :=
  let j := s.shep.rowJob
  if coreRuns s && j.state = 1 then
    let rows := jobRows s j
    let out := rows.map (rowOutcome s hit)
    let n := fun k => BitVec.ofNat 32 (out.filter (· == k)).length
    let bad := match (rows.zip out).find? (fun p => p.2 = 1) with
      | some p => BitVec.ofNat 32 p.1
      | none => 0xFFFFFFFF
    let s := forAll rows (verifyRow hit) s
    let s := if rows.any (fun g => (genOf s g).rowWas.isSome) then { s with freeCtr := s.freeCtr + 6144 } else s
    .next (jobRecord 1 (raise .shep 11 (setJob 1 { j with state := 2, progress := rows.length, results := [n 0, n 1, n 2, bad] } s)))
  else .next s

/-- The pool units held by another port, a bit per unit 1 to 3 (R423, R425). -/
def heldByOthers (s : State) : Nat :=
  bitsWhere 4 (fun u => 1 ≤ u && ((tallyUnit s u).owner = .host || (tallyUnit s u).owner = .bm))

/-- XCAL (R199, R208, R329, R425, R503). -/
def execXcal (s : State) : Host.Outcome State Fault Refusal :=
  .next (onCommand 0x11 [0] 0 (fun m s =>
    if s.shep.xcalJob.state = 1 then complete m 0x05 [] s
    else if s.fold.started then complete m 0x06 [1] s
    else if !meshReadyNow s then complete m 0x06 [2] s
    else if s.root.bypass then complete m 0x06 [3] s
    else if heldByOthers s ≠ 0 then complete m 0x07 [BitVec.ofNat 32 (heldByOthers s)] s
    else
      let s := forAll [1, 2, 3] (fun u t => setTally u { tallyUnit t u with owner := .fw, releasing := false } t) s
      let s := startXcal (setJob 2 { state := 1 } s)
      complete m 0x01 [] (jobRecord 2 s)) s)

/-- The firmware version word of the manifest (R205). -/
def fwVersion (s : State) : Nat :=
  match s.shep.active with
  | some b => imgVersion s b
  | none => 0

/-- CAL_DONE (R59, R199 to R206, R217, R425, R503): a running XCAL ends with its measurements, the t_x of each crossing's 16
repeats in 15.625 ps, and gives its pool units back; in bypass the measurement pauses. -/
def execCalDone (tx : List (Nat × List Nat)) (s : State) : Host.Outcome State Fault Refusal :=
  if coreRuns s && s.shep.xcalJob.state = 1 && !s.root.bypass then
    let s := finishXcal tx versionWord.toNat (fwVersion s) s
    let xs := attachedXings s
    let n := fun (p : Xing → Bool) => BitVec.ofNat 32 (xs.filter (fun x => p (xingOf s x))).length
    let s := setJob 2 { state := 2, progress := xs.length, results := [n (·.enabled), n (fun v => v.nomeas || v.long)] } s
    .next (jobRecord 2 (releaseFirmware (raise .shep 11 s)))
  else .next s

/-- JOB_STATUS (R422): the progress of a running job is a number of items the manual does not fix (log 8). -/
def execJobStatus (s : State) : Host.Outcome State Fault Refusal :=
  .next (onCommand 0x12 [0, 1, 2] 1 (fun m s =>
    let k := argOf s m 0
    if k = 1 || k = 2 then
      let j := jobOf s k
      if j.state = 1 then
        let items := if k = 1 then (jobRows s j).length else (attachedXings s).length
        let (v, s) := takeFreeWord s
        complete m 0 [1, BitVec.ofNat 32 (v.toNat % (items + 1))] s
      else complete m 0 ([BitVec.ofNat 32 j.state, BitVec.ofNat 32 j.progress] ++ j.results) s
    else complete m 0x03 [] s) s)

/-- JOB_ABORT and JOB_KILL share this (R426). -/
def endJob (m : Nat) (s : State) : State :=
  let k := argOf s m 0
  if k = 1 || k = 2 then
    (if (jobOf s k).state = 1 then complete m 0 [] (abortJob k s) else complete m 0x08 [] s)
  else complete m 0x03 [] s

/-- JOB_ABORT (R422, R426). -/
def execJobAbort (s : State) : Host.Outcome State Fault Refusal := .next (onCommand 0x13 [0] 1 endJob s)

/-- JOB_KILL (R422, R426). -/
def execJobKill (s : State) : Host.Outcome State Fault Refusal := .next (onCommand 0x40 [2] 1 endJob s)

/-- RELEASE_TALLY (R422, R426). -/
def execReleaseTally (s : State) : Host.Outcome State Fault Refusal :=
  .next (onCommand 0x41 [2] 0 (fun m s =>
    let mask := bitsWhere 4 (fun u => 1 ≤ u && (tallyUnit s u).owner = .fw)
    complete m 0 [BitVec.ofNat 32 mask] (releaseFirmware (abortJob 2 s))) s)

/-- CFG_COMMIT (R427, R499). -/
def execCfgCommit (s : State) : Host.Outcome State Fault Refusal :=
  .next (onCommand 0x20 [0] 0 (fun m s =>
    match commitConfig s with
    | some t => complete m 0 [configCrc s, BitVec.ofNat 32 (commitTick s), BitVec.ofNat 32 (commitTick s / 2 ^ 32)] t
    | none => complete m 0x06 [4] s) s)

/-- IDENTIFY (R422, R428). -/
def execIdentify (s : State) : Host.Outcome State Fault Refusal :=
  .next (onCommand 0x21 [0, 1] 1 (fun m s =>
    let a := argOf s m 0
    if 3600 < a then complete m 0x03 [] s
    else complete m 0 [] { s with shep := { s.shep with
      identifyEnd := if a = 0 then none else some (s.time.counter + 250000000 * a) } }) s)

/-- IDENTIFY_EXPIRY (R428). -/
def execIdentifyExpiry (s : State) : Host.Outcome State Fault Refusal :=
  match s.shep.identifyEnd with
  | some t => .next (if t ≤ s.time.counter then { s with shep := { s.shep with identifyEnd := none } } else s)
  | none => .next s

/-- BAD_OPCODE (R423). -/
def execBadOpcode (s : State) : Host.Outcome State Fault Refusal :=
  match takenBox s with
  | some m => .next (if coreRuns s && !fwOpcodes.contains (fld (mbox s m).cmd 0 8) then complete m 0x02 [] s else s)
  | none => .next s

end Sys2Proof.Machine
end

