-- ==== Sys2Proof/Machine/Crook.lean ====
section
/-!
DEFINITION. The crook path (R297 to R299, R309, R415): arming, forced holds, forced failover, the core reset.
-/
namespace Sys2Proof.Machine
open Sys2Proof

/-- A write of CRK_ARM: KEY = 0xA5 arms the path for 64 slow-clock periods (R297). -/
def writeCrkArm (v : Word) (s : State) : State :=
  if fld v 0 8 = 0xA5 then { s with crook := { s.crook with armed := true, armedAt := s.time.slowEdges } } else s

/-- CRK_ARM (R297, R309). -/
def execCrkArm (w : Wr) (v : Word) (s : State) : Host.Outcome State Fault Refusal :=
  .next (regWrite w 0xE000 v [] (writeCrkArm v) s)

/-- CRK_ARM_EXPIRY (R297). -/
def execCrkArmExpiry (s : State) : Host.Outcome State Fault Refusal :=
  .next (if s.crook.armed && decide (s.crook.armedAt + 64 ≤ s.time.slowEdges) then { s with crook := { s.crook with armed := false } } else s)

/-- The answer of CRK_STAT. -/
def crkAnswer (tag : BitVec 8) (rej : Nat) (s : State) : State :=
  { s with crook := { s.crook with tag := tag, rej := BitVec.ofNat 4 rej } }

/-- Begins or ends a forced hold of a region (R298). -/
def setForced (on : Bool) (r : Nat) (s : State) : State := setRegion r { regionOf s r with forced := on } s

/-- FORCE_HOLD and RELEASE of a region (R298). -/
def crkRegion (on : Bool) (tag : BitVec 8) (r : Nat) (s : State) : State :=
  if !isRegion s r || excluded s r then crkAnswer tag 2 s else crkAnswer tag 0 (setForced on r s)

/-- FORCE_HOLD and RELEASE of a flock: its excluded regions are left as they are (R298). -/
def crkFlock (on : Bool) (tag : BitVec 8) (f : Nat) (s : State) : State :=
  if f < s.build.flocks then
    crkAnswer tag 0 (forAll (ownRows f) (fun r t => if excluded t r then t else setForced on r t) s)
  else crkAnswer tag 2 s

/-- The target generator of OP 5 for region r, where it is FREE, or QUALIFIED for the own generator (R299). -/
def crkTarget (s : State) (r gen : Nat) : Option Nat :=
  if gen = 0 then (if (genOf s r).st = .qualified then some r else none)
  else if gen ≤ s.build.spares then
    let g := spareRow s.build (r / 16) (gen - 1)
    if (genOf s g).st = .free then some g else none
  else none

/-- FORCE_FAILOVER (R299): the generator left behind is FAILED, or a spare LOCKING where GEN is the own
generator; then the takeover of R287 with fault code 5.  An automatic failover of the region in this tick, or a claim of its
slot that waits for the next, holds the command to the next tick edge (R291). -/
def crkFailover (p : Port) (tag : BitVec 8) (r gen : Nat) (s : State) : State :=
  if !isRegion s r || excluded s r then crkAnswer tag 2 s
  else if (flockOf s (r / 16)).taken.any (fun t => t.slot = r % 16) || (flockOf s (r / 16)).claims.any (fun q => q.1 = r % 16) then { s with crook := { s.crook with held := some (p, tag, r, gen) } }
  else
    match crkTarget s r gen with
    | none => crkAnswer tag 4 s
    | some g =>
      let e : Taken := { takenAs r g 5 s with
        leftWas := (servingGen s r).map (fun old => (old, genOf s old)), cmd := some (p, tag, gen, s.crook.tag, s.crook.rej) }
      let s := match servingGen s r with
        | some old => if gen = 0 then spareLocking false old s else markFailed old s
        | none => s
      crkAnswer tag 0 (takeNoted e r g 5 s)

/-- A crook core reset; a watchdog's reset of the same slow-clock period is the same one, with boot cause 4 (R415, R420). -/
def crookReset (s : State) : State :=
  if wdogNow s then
    { s with shep := { s.shep with boot := 4 } }
  else resetCore 4 s

/-- A held forced failover is evaluated at the tick edge, against the assignment that then stands (R291). -/
def crkHeld (s : State) : State :=
  match s.crook.held with
  | some (p, tag, r, gen) => crkFailover p tag r gen { s with crook := { s.crook with held := none } }
  | none => s

/-- A write of CRK_CMD with a new TAG: rejected where not armed or lost to a host write, else performed or
rejected, and the path disarms (R297, R309). -/
def writeCrkCmd (w : Wr) (v : Word) (s : State) : State :=
  let tag := BitVec.ofNat 8 (fld v 24 8)
  if w.port = .shep && w.rival.isSome then s
  else if w.port = .bm && w.rival = some .host then
    (if tag = s.crook.tag then s
     else crkAnswer tag 3 { s with crook := { s.crook with lostAt := some s.time.slowEdges } })
  else
    let s := nowPut 0xE004 v s
    if tag = s.crook.tag && s.crook.lostAt ≠ some s.time.slowEdges then s
    else if !s.crook.armed then crkAnswer tag 1 s
    else
      let s := { s with crook := { s.crook with armed := false } }
      let t := fld v 4 13
      match fld v 0 4 with
      | 0 => crkAnswer tag 0 s
      | 1 => crkRegion true tag t s
      | 2 => crkRegion false tag t s
      | 3 => crkFlock true tag t s
      | 4 => crkFlock false tag t s
      | 5 => crkFailover w.port tag t (fld v 17 2) s
      | 6 => crkAnswer tag 0 (crookReset s)
      | _ => crkAnswer tag 5 s

/-- The CRK_CMD word of an operation (R309). -/
def crkWord (op target gen tag : Nat) : Word := packWord [(0, 4, op), (4, 13, target), (17, 2, gen), (24, 8, tag)]

/-- FORCE_HOLD_REGION (R297, R298). -/
def execForceHoldRegion (w : Wr) (target : BitVec 13) (tag : BitVec 8) (s : State) : Host.Outcome State Fault Refusal :=
  .next (regWrite w 0xE004 (crkWord 1 target.toNat 0 tag.toNat) [] (writeCrkCmd w (crkWord 1 target.toNat 0 tag.toNat)) s)

/-- RELEASE_REGION (R297, R298). -/
def execReleaseRegion (w : Wr) (target : BitVec 13) (tag : BitVec 8) (s : State) : Host.Outcome State Fault Refusal :=
  .next (regWrite w 0xE004 (crkWord 2 target.toNat 0 tag.toNat) [] (writeCrkCmd w (crkWord 2 target.toNat 0 tag.toNat)) s)

/-- FORCE_HOLD_FLOCK (R297, R298). -/
def execForceHoldFlock (w : Wr) (target : BitVec 13) (tag : BitVec 8) (s : State) : Host.Outcome State Fault Refusal :=
  .next (regWrite w 0xE004 (crkWord 3 target.toNat 0 tag.toNat) [] (writeCrkCmd w (crkWord 3 target.toNat 0 tag.toNat)) s)

/-- RELEASE_FLOCK (R297, R298). -/
def execReleaseFlock (w : Wr) (target : BitVec 13) (tag : BitVec 8) (s : State) : Host.Outcome State Fault Refusal :=
  .next (regWrite w 0xE004 (crkWord 4 target.toNat 0 tag.toNat) [] (writeCrkCmd w (crkWord 4 target.toNat 0 tag.toNat)) s)

/-- FORCE_FAILOVER (R297, R299). -/
def execForceFailover (w : Wr) (flock : BitVec 9) (slot : BitVec 4) (gen : BitVec 2) (tag : BitVec 8) (s : State) :
    Host.Outcome State Fault Refusal :=
  let v := crkWord 5 (16 * flock.toNat + slot.toNat) gen.toNat tag.toNat
  .next (regWrite w 0xE004 v [] (writeCrkCmd w v) s)

/-- CRK_CORE_RESET (R297, R415). -/
def execCrkCoreReset (w : Wr) (tag : BitVec 8) (s : State) : Host.Outcome State Fault Refusal :=
  .next (regWrite w 0xE004 (crkWord 6 0 0 tag.toNat) [] (writeCrkCmd w (crkWord 6 0 0 tag.toNat)) s)

/-- CRK_INVALID_OP (R309): OP 7 to 15. -/
def execCrkInvalidOp (w : Wr) (op : BitVec 4) (tag : BitVec 8) (s : State) : Host.Outcome State Fault Refusal :=
  .next (regWrite w 0xE004 (crkWord op.toNat 0 0 tag.toNat) [] (writeCrkCmd w (crkWord op.toNat 0 0 tag.toNat)) s)

end Sys2Proof.Machine
end

