-- ==== Sys2Proof/Machine/Zone.lean ====
section
/-!
DEFINITION. Supply zones and ballast (R255 to R275): estimates, decisions, caps and clamps.
-/
namespace Sys2Proof.Machine
open Sys2Proof

/-- ZONE_BUDGETz.BUDGET and STATIC, applied (R269). -/
def budgetOf (s : State) (z : Nat) : Nat := fld (bellA s (0x7100 + 4 * z)) 0 12
def staticOf (s : State) (z : Nat) : Nat := fld (bellA s (0x7100 + 4 * z)) 16 12

/-- E_BASE and E_UNIT of a class (R270). -/
def eBase (s : State) (n : Nat) : Nat := fld (bellA s (0x7140 + 8 * n)) 0 16
def eUnit (s : State) (n : Nat) : Nat := fld (bellA s (0x7140 + 8 * n)) 16 16

/-- ZONE_CTRL, applied (R268). -/
def tripPct (s : State) : Nat := fld (bellA s 0x7000) 0 8
def loPct (s : State) : Nat := fld (bellA s 0x7000) 8 8
def relaxOf (s : State) : Nat := fld (bellA s 0x7000) 16 8
def projEn (s : State) : Bool := bitAt (bellA s 0x7000) 24
def clampEn (s : State) : Bool := bitAt (bellA s 0x7000) 25

/-- The zones of the build. -/
def allZones (s : State) : List Nat := List.range s.build.zones

/-- The regions of a zone (R184). -/
def zoneRegions (s : State) (z : Nat) : List Nat := (List.range s.build.regions).filter (fun r => zoneOfRegion s r = z)

/-- The estimate of a zone over a window of so many ticks, in watts (R256); `count` gives a region's edges
and activity sum.  A pJ in a tick of 4 ns is 1/4,000 W. -/
def estimate (s : State) (z ticks : Nat) (count : Region → Nat × Nat) : Nat :=
  staticOf s z + ((zoneRegions s z).foldl (fun a r =>
    let (e, u) := count (regionOf s r)
    let n := classOfRegion s r
    a + e * eBase s n + u * eUnit s n) 0) / (4000 * ticks)

/-- The classes that a zone's regions hold (R261). -/
def zoneScope (s : State) (z : Nat) : List Nat :=
  (((zoneRegions s z).filter (fun r => (regionOf s r).out)).map (classOfRegion s)).dedup

/-- The estimate recorded one period earlier for the fold index of the coming fold, 0 where none may be used: the bank has played a
full period before the running fold (R257). -/
def projected (s : State) (z : Nat) : Nat :=
  let fc := s.fcst
  if projEn s && fc.active.isSome && !fc.once && 0 < fc.period && fc.period ≤ 64 && fc.period < s.zones.played &&
     fc.commitBank.isNone && !fc.commitFlat then tabGet (zoneOf s z).hist ((fc.foldIdx + 1) % fc.period) 0
  else 0

/-- One zone's estimate and decision at a fold's first call (R256, R257, R259). -/
def decideZone (z : Nat) (s : State) : State :=
  let x := zoneOf s z
  let e := estimate s z (s.fold.f - 16) (fun r => (r.edges, r.activity))
  let fc := s.fcst
  let x := { x with hist := tabSet x.hist fc.foldIdx (if projEn s && fc.active.isSome && !fc.once && fc.period ≤ 64 then e else 0) 0 }
  let s := setZone z { x with est := e, scope := zoneScope s z } s
  let b := budgetOf s z
  let x := zoneOf s z
  if b = 0 then s
  else
    let e := max e (projected s z)
    if b < e then
      if x.level < 15 then raiseAbout .zone 0 z (setZone z { x with next := x.level + 1, relax := 0 } s)
      else raiseAbout .zone 2 z (setZone z { x with next := 15, relax := 0 } s)
    else if 100 * e < b * loPct s then
      if relaxOf s ≤ x.relax + 1 then
        if 0 < x.level then raiseAbout .zone 1 z (setZone z { x with next := x.level - 1, relax := 0 } s)
        else setZone z { x with next := 0, relax := 0 } s
      else setZone z { x with next := x.level, relax := x.relax + 1 } s
    else setZone z { x with next := x.level, relax := 0 } s

/-- Ballast's decisions at a fold's first call (R259). -/
def ballastDecide (s : State) : State := forAll (allZones s) decideZone s

/-- Ends a zone's clamp, with CLAMP_OFF (R258, R262). -/
def unclamp (z : Nat) (s : State) : State :=
  let x := zoneOf s z
  if x.clamp then raiseAbout .zone 4 z (setZone z { x with clamp := false } s) else s

/-- The end of a clamp window of so many ticks (R262): zones clamp and unclamp, and the sums restart. -/
def clampEval (len : Nat) (s : State) : State :=
  let s := forAll (allZones s) (fun z t =>
    let b := budgetOf t z
    if b = 0 then t
    else
      let x := zoneOf t z
      let e := estimate t z len (fun r => (r.clampEdges, r.clampActivity))
      if !x.clamp && b * tripPct t < 100 * e then
        let t := raiseAbout .zone 3 z (setZone z { x with clamp := true } t)
        { t with zones := { t.zones with ovr3 := bump t.zones.ovr3 1 } }
      else if e ≤ b then unclamp z t
      else t) s
  { s with regions := s.regions.map (fun e => (e.1, { e.2 with clampEdges := 0, clampActivity := 0 })) }

/-- The bell that rings cuts the running clamp window short (R262). -/
def bellCuts (s : State) : Bool := s.fold.ring && decide (s.fold.nextBell < s.zones.clampFrom + 256)

/-- CLAMP_WINDOW_END (R262): every 256 ticks from the bell, but for a window that a bell cuts short. -/
def execClampWindowEnd (s : State) : Host.Outcome State Fault Refusal :=
  if s.fold.started && clampEn s && !bellCuts s && decide (s.zones.clampFrom + 256 ≤ s.time.counter) then
    let s := clampEval 256 s
    .next { s with zones := { s.zones with clampFrom := s.zones.clampFrom + 256 } }
  else .next s

/-- The clamp window cut short by the bell that rings at tick `placed` (R262). -/
def cutClampWindow (placed : Nat) (s : State) : State :=
  let len := placed - s.zones.clampFrom
  if s.fold.started && clampEn s && 0 < len then clampEval (min len 256) s else s

/-- The zones at a bell, once its writes are applied (R258, R259, R262): levels take effect, a BUDGET of 0
and a CLAMP_EN of 0 end what they end, and the clamp windows start. -/
def zoneBell (s : State) : State :=
  let s := forAll (allZones s) (fun z t =>
    let x := zoneOf t z
    if budgetOf t z = 0 then
      let t := setZone z { x with level := 0, next := 0, relax := 0 } t
      unclamp z (if 0 < x.level then raiseAbout .zone 1 z t else t)
    else
      let t := setZone z { x with level := x.next } t
      if clampEn t then t else unclamp z t) s
  { s with zones := { s.zones with clampFrom := s.fold.bellTick },
           regions := s.regions.map (fun e => (e.1, { e.2 with edges := 0, activity := 0, clampEdges := 0, clampActivity := 0 })) }

/-- What becomes of the projection history at a bell (R257). -/
def historyBell (changed : Bool) (s : State) : State :=
  if changed || s.fcst.active.isNone then
    let s := forAll (allZones s) (fun z t => setZone z { zoneOf t z with hist := [] } t) s
    { s with zones := { s.zones with played := if s.fcst.active.isSome then 1 else 0 } }
  else { s with zones := { s.zones with played := s.zones.played + 1 } }

/-- The cap of zone z on class n for a software K, and whether the bound of R114 raised it (R260). -/
def zoneCap (s : State) (z n k f g : Nat) : Nat × Bool :=
  let q := fld (bellA s (keyBtab (zoneOf s z).level n)) 0 11
  let c := 16 * (k * q / 16384)
  if c < kFloor f g then (kFloor f g, true) else (c, false)

/-- The zones above level 0 whose scope includes class n (R261). -/
def cappingZones (s : State) (n : Nat) : List Nat :=
  (allZones s).filter (fun z => 0 < (zoneOf s z).level && (zoneOf s z).scope.contains n)

/-- The ballast K of class n at a bell: the least cap, with the lowest zone that sets it (R261, R273). -/
def ballastCap (s : State) (n k f g : Nat) : Option (Nat × Nat) :=
  (cappingZones s n).foldl (fun best z =>
    let c := (zoneCap s z n k f g).1
    match best with
    | none => some (c, z)
    | some (c0, z0) => if c < c0 then some (c, z) else some (c0, z0)) none

/-- CAP_FLOOR for each zone whose cap on class n the bound raised (R260). -/
def capFloors (n k f g : Nat) (s : State) : State :=
  forAll (cappingZones s n) (fun z t => if (zoneCap s z n k f g).2 then raiseAbout .zone 5 z t else t) s

/-- ZONE_EST0 to ZONE_EST7 and ZONE_OVR1 to ZONE_OVR6 (R266, R275). -/
def zoneWords (s : State) : List Word :=
  (List.range 8).map (fun w => packWord [(0, 16, (zoneOf s (2 * w)).est), (16, 16, (zoneOf s (2 * w + 1)).est)]) ++
  [s.zones.ovr1, s.fold.pulls + s.fold.tstops, s.zones.ovr3, s.zones.ovr4, s.zones.ovr5, s.zones.ovr6]

/-- A write of ZONE_STAT_REQ (R275). -/
def writeZoneStatReq (p : Port) (v : Word) (s : State) : State :=
  let s := nowPut (portKey p 0x7024) v s
  let tag := BitVec.ofNat 8 (fld v 0 8)
  if tag = (snapOf s 5 p).tag then s else snapPut 5 p { valid := true, tag := tag, words := zoneWords s } s

/-- ZONE_STAT_REQ (R275). -/
def execZoneStatReq (w : Wr) (v : Word) (s : State) : Host.Outcome State Fault Refusal :=
  .next (regWrite w 0x7024 v [] (writeZoneStatReq w.port v) s)

end Sys2Proof.Machine
end

