-- ==== Sys2Proof/Machine/Fold.lean ====
section
/-!
DEFINITION. Folds (R107 to R150): the start, the grace tail, calls and laps, the bell, parking, pulls,
exclusion, statistics and the fold log.
-/
namespace Sys2Proof.Machine
open Sys2Proof

/-! ### The start -/

/-- F, G and the K of every implemented class are valid as applied (R110). -/
def startCfgOk (s : State) : Bool :=
  fgValid (fld (bellA s 0x3000) 0 11) (fld (bellA s 0x3000) 12 11) &&
  (List.range s.build.classes).all (fun n => kValid (swK s n) (nomOf s n) (cfgF s) (cfgG s))

/-- The first-bell tick that FOLD_FIRST_LO and FOLD_FIRST_HI hold (R140). -/
def firstWritten (s : State) : Nat := (nowGet s 0x3008).toNat + 2 ^ 32 * (nowGet s 0x300C).toNat

/-- A rejected start (R110). -/
def rejectStart (cause : Nat) (s : State) : State :=
  raise .fold 5 { s with fold := { s.fold with rejCause := BitVec.ofNat 4 cause } }

/-- A write of FOLD_CTRL: a new TAG requests the start (R110, R140). -/
def writeFoldCtrl (v : Word) (s : State) : State :=
  let s := nowPut 0x3010 v s
  let tag := BitVec.ofNat 8 (fld v 0 8)
  if tag = s.fold.startTag then s
  else
    let s := { s with fold := { s.fold with startTag := tag } }
    if firstWritten s < s.time.counter + 128 then rejectStart 1 s
    else if !meshReadyNow s then rejectStart 2 s
    else if !startCfgOk s then rejectStart 3 s
    else if s.fold.started then rejectStart 5 s
    else { s with fold := { s.fold with pending := true, tail := false, firstTick := firstWritten s } }

/-- FOLD_START (R110, R140, R141). -/
def execFoldStart (w : Wr) (v : Word) (s : State) : Host.Outcome State Fault Refusal :=
  .next (regWrite w 0x3010 v [] (writeFoldCtrl v) s)

/-! ### Pulls and parking -/

/-- The lag of region n on the scale of the pair with r, in 1/16 cycle ("The tether"). -/
def pairLag (s : State) (n r lag16 : Nat) : Nat :=
  let kn := kNow s (classOfRegion s n)
  let kr := kNow s (classOfRegion s r)
  lag16 * min kn kr / kn

/-- The floor that a lag of neighbour n gives region r: that lag less T − g, in r's cycles (R120). -/
def floorBy (s : State) (n r lag16 : Nat) : Nat :=
  let kn := kNow s (classOfRegion s n)
  let kr := kNow s (classOfRegion s r)
  if inContract s n then (pairLag s n r lag16 - 16 * bandOf s) * kr / min kn kr else 0

/-- The floor that neighbour n gives region r, by its lag two ticks earlier (R120). -/
def floorFrom (s : State) (n r : Nat) : Nat := floorBy s n r (regionOf s n).lag16b

/-- The floor that neighbour n gives region r at the coming tick edge, two ticks after the lag that makes it; in bypass by the lag at
this edge, the last before that one (R120, R121). -/
def floorNextFrom (s : State) (n r : Nat) : Nat :=
  floorBy s n r (if s.root.bypass then (regionOf s n).lag16 else (regionOf s n).lag16a)

/-- The floor of region r: the largest that its neighbours give it; none while it is parked or excluded
(R120, R121). -/
def floorOf (s : State) (r : Nat) : Nat :=
  if (regionOf s r).parked || !inContract s r then 0
  else (neighbours s r).foldl (fun a n => max a (floorFrom s n r)) 0

/-- The floor of region r at the coming tick edge (R120, R121). -/
def floorAhead (s : State) (r : Nat) : Nat :=
  if (regionOf s r).parked || !inContract s r then 0
  else (neighbours s r).foldl (fun a n => max a (floorNextFrom s n r)) 0

/-- Region r's lag exceeds T − g towards some neighbour (R120). -/
def pullsNow (s : State) (r : Nat) : Bool :=
  inContract s r && !(regionOf s r).parked &&
  (neighbours s r).any (fun n => 16 * bandOf s < pairLag s r n (regionOf s r).lag16)

/-- PULL (R120, R121, R137): the region begins to pull its neighbours. -/
def execPull (r : Nat) (s : State) : Host.Outcome State Fault Refusal :=
  if isRegion s r then
    if pullsNow s r && !(regionOf s r).pulling then
      .next { setRegion r { regionOf s r with pulling := true } s with fold := { s.fold with pulls := bump s.fold.pulls 1 } }
    else .next s
  else .fault .noSuchUnit

/-- A planned band change starts its 150-tick stop (R160). -/
def startPlannedStop (r : Nat) (s : State) : State :=
  match servingGen s r with
  | some g =>
    let x := genOf s g
    if x.planned.isSome && x.stopEnd.isNone then setGen g { x with stopEnd := some (s.time.total + 150) } s else s
  | none => s

/-- The region may park now: its K-th edge is issued, or within 64 ticks of a pending first bell it has
caught up with its open pace line, to less than the 1/8 cycle that counts as on the line (R112, R117, R165). -/
def mayPark (s : State) (r : Nat) : Bool :=
  let x := regionOf s r
  inContract s r && !x.parked &&
  (if s.fold.started then (classOf s (classOfRegion s r)).kEff ≤ x.c else nearFirst s && x.lag16 < 2)

/-- REGION_PARK (R112, R117, R136, R160, R230, R295, R346): a PRE_STRETCH ends with the K-th edge, and accepted proposals are
applied before a reinstated generator takes its region back. -/
def execRegionPark (r : Nat) (s : State) : Host.Outcome State Fault Refusal :=
  if isRegion s r then
    if mayPark s r then
      let s := setRegion r { regionOf s r with
        parked := true, track := .run, floor16 := 0, floorNext := 0, pulling := false, preN := 0,
        kDone := s.time.counter - s.fold.bellTick } s
      let s := if s.fold.started && (flockOf s (r / 16)).tailed then startPlannedStop r s else s
      let s := applyProposals r s
      .next (if (genOf s r).failback then failBack false r s else s)
    else .next s
  else .fault .noSuchUnit

/-! ### The grace tail -/

/-- Whether the state committed for the coming bell is flat, whatever F and G: the evaluation of R159 does not
anticipate the shape checks of R242 (R243). -/
def comingFlat (s : State) : Nat → Nat → Bool := fun _ _ => flatCommitted s

/-- F and G pending for the coming bell, or in force (R159). -/
def comingF (s : State) : Nat := wordF (coming s 0x3000)
def comingG (s : State) : Nat := wordG (coming s 0x3000)

/-- The software K that a class takes at a bell of F and G: every K keeps its value where the bell rejects F or G
(R114, R145, R243).  `flat` says whether the bell is flat for a given F and G. -/
def bellK (s : State) (flat : Nat → Nat → Bool) (n f g : Nat) : Nat × Bool :=
  if cfgBad s flat then (kInForce s n, true) else takeK s (flat f g) n f g

/-- The software K of a class pending for the coming bell: the flat K where the committed state is flat and asks for
one, else FOLD_CLASSn's (R159, R243; log 76). -/
def comingSw (s : State) (n : Nat) : Nat :=
  match flatCommitted s, wordFlat (coming s (0x6100 + 4 * n)) with
  | true, some k => k
  | _, _ => wordK (coming s (clsAddr 0x3100 n))

/-- The K of R159's window: the lesser of a new software K and ballast's K in the running fold, or the
running effective K where no new software K is pending. -/
def comingK (s : State) (n : Nat) : Nat :=
  let c := classOf s n
  let k := comingSw s n
  if k = c.kSw then c.kEff else if c.cap16 = 0 then k else min k (16 * c.cap16)

/-- The window of region r for the coming bell (R159). -/
def comingWindow (s : State) (r : Nat) : Window :=
  let n := fld (coming s (keyRcg r)) 0 2
  { k := comingK s n, den := comingF s - comingG s, nom := wordNom (coming s (clsAddr 0x3100 n)),
    spr := fld (coming s (clsAddr 0x4100 n)) 0 6, mul := 1 }

/-- Plans the band change of the generator that serves region r, and a spare's divider (R159, R282).  DESIGN CHOICE (log 131): a
generator still in a band-change stop, as after an uncovered takeover, is not evaluated at that tail. -/
def planBand (r : Nat) (s : State) : State :=
  match servingGen s r with
  | none => s
  | some g =>
    let x := genOf s g
    let w := comingWindow s r
    let plan := fun (b d : Nat) => raiseAbout .rcg 0 r (setGen g { x with planned := some b, plannedDiv := d } s)
    if !inContract s r || x.stopEnd.isSome then s
    else if g = r then
      (if rowUsable (curEntry x) w then s
       else match pickBand x.copy none w with
         | some b => plan b 1
         | none => s)
    else
      match divFor (curEntry x) w with
      | some d => setGen g { x with plannedDiv := d } s
      | none =>
        match divAnyBand x.copy w with
        | some (d, b) => plan b d
        | none => s

/-- A band change is planned for region r's coming bell: not one whose stop already runs (R159, R160). -/
def bandPlanned (s : State) (r : Nat) : Bool :=
  inContract s r &&
  match servingGen s r with
  | some g => (genOf s g).planned.isSome && (genOf s g).stopEnd.isNone
  | none => false

/-- At the start of the grace tail restricted operation ends where the band in use, or the one planned, covers the
coming window (R161, R162). -/
def endRestrict (r : Nat) (s : State) : State :=
  match servingGen s r with
  | some g =>
    let x := genOf s g
    let (e, d) := match x.planned with
      | some b => (entryOf x.copy b, x.plannedDiv)
      | none => (curEntry x, x.plannedDiv)
    let w := (comingWindow s r).times d
    if reachesLine e w && !isRestricted e w then setRegion r { regionOf s r with restrict := false } s else s
  | none => s

/-- No deadline of region r expires in this fold: in bypass, in factory-only mode, or while it is out of the contract (R341,
R343, R349). -/
def deadlineHeld (s : State) (r : Nat) : Bool := s.root.bypass || !calMode s || !inContract s r

/-- A due region whose deadline expires in this fold (R349). -/
def deadlineDue (s : State) (r : Nat) : Bool :=
  (regionOf s r).due && !deadlineHeld s r && decide ((regionOf s r).deadline = s.fold.foldNo)

/-- Laps that cover so many ticks less G (R160, R349). -/
def lapsFor (n g : Nat) : Nat := ceilDiv (n - g) 64

/-- The planned deferral requested for the coming bell: the larger of band changes and calibrations; a region
with both takes only the band change, its deadline moved to the next bell, with a deferral of its own; a deadline that does not
run moves on by a fold (R160, R343, R349, R350). -/
def requestDeferral (s : State) : State :=
  let rs := List.range s.build.regions
  let bands := rs.any (bandPlanned s)
  let cal := rs.filter (deadlineDue s)
  let now := cal.filter (fun r => !bandPlanned s r)
  let late := rs.filter (fun r => bandPlanned s r && (cal.contains r || (!now.isEmpty && armedNow s r)))
  let held := rs.filter (fun r => (regionOf s r).due && deadlineHeld s r)
  let s := forAll late (fun r t => setRegion r { regionOf t r with deadline := t.fold.foldNo + 1 } t) s
  let s := forAll held (fun r t => setRegion r { regionOf t r with deadline := (regionOf t r).deadline + 1 } t) s
  let n := max (if bands then lapsFor 166 s.fold.g else 0) (if now = [] then 0 else lapsFor 466 s.fold.g)
  let s := { s with fold := { s.fold with plannedReq := n, calPlanned := !now.isEmpty } }
  if now = [] then s else raiseAbout .cal 3 (now.getLastD 0 / 16) s

/-- The commits of the coming bell (R241, R409). -/
def commitBell (s : State) : State := commitFirmware (if s.fcst.committed then s else commitForecast s)

/-- The regions of some flocks. -/
def regionsIn (s : State) (fs : List Nat) : List Nat := (fs.flatMap ownRows).filter (isRegion s)

/-- Flocks that begin their grace tail plan the band changes of their regions for the coming bell (R95, R159). -/
def tailBands (fs : List Nat) (s : State) : State := forAll (regionsIn s fs) planBand s

/-- What else flocks do at the beginning of their grace tail, once band changes are planned: cover is evaluated, restricted operation, LEAN
and HOLD_MARGIN end, and the planned stops of parked regions start (R95, R160, R161, R230, R281). -/
def tailRest (fs : List Nat) (s : State) : State :=
  let w := comingWindow s
  let s := forAll fs (fun f t => updateSvc f (evalCover w f t)) s
  let s := forAll ((regionsIn s fs).filter (fun r => (regionOf s r).restrict)) endRestrict s
  let s := tailEnds s
  let s := forAll fs (fun f t => setFlock f { flockOf t f with tailed := true } t) s
  forAll (regionsIn s fs) (fun r t => if (regionOf t r).parked then startPlannedStop r t else t) s

/-- The flocks whose own first edge in the grace tail has come and that have not begun it (R95). -/
def newTails (s : State) : List Nat := (List.range s.build.flocks).filter (fun f => flockTail s f && !(flockOf s f).tailed)

/-- The planned deferral that a flock behind the root asks for as its grace tail begins: laps for its band changes; a region that was to
be calibrated at the coming bell waits for the next (R95, R160, R350; DEDUCED, log 146). -/
def lateDeferral (fs : List Nat) (s : State) : State :=
  let bands := (regionsIn s fs).filter (bandPlanned s)
  let late := bands.filter (fun r => deadlineDue s r || (s.fold.calPlanned && armedNow s r))
  let s := forAll late (fun r t => setRegion r { regionOf t r with deadline := t.fold.foldNo + 1 } t) s
  if bands.isEmpty then s else { s with fold := { s.fold with plannedReq := max s.fold.plannedReq (lapsFor 166 s.fold.g) } }

/-- Flocks behind the root, as in bypass, begin their grace tail at their own edge (R57, R95). -/
def lateTails (s : State) : State :=
  if s.fold.started && s.fold.tail && !(newTails s).isEmpty then
    let fs := newTails s
    tailRest fs (lateDeferral fs (tailBands fs s))
  else s

/-- The grace tail of a running fold begins at the root, and in every flock whose own edge has come (R95, R159, R230, R241, R281, R349,
R409). -/
def beginTail (s : State) : State :=
  let s := commitBell s
  let s := { s with fold := { s.fold with tail := true } }
  let fs := newTails s
  tailRest fs (requestDeferral (tailBands fs s))

/-- GRACE_TAIL_START (R159, R241, R409): at offset F − G of the fold, or 64 ticks before a pending first bell. -/
def execGraceTailStart (s : State) : Host.Outcome State Fault Refusal :=
  if s.fold.tail || s.time.held then .next s
  else if s.fold.started then
    .next (if s.fold.bellTick + (s.fold.f - s.fold.g) ≤ s.time.counter then beginTail s else s)
  else if nearFirst s then .next { commitBell s with fold := { s.fold with tail := true } }
  else .next s

/-! ### The call -/

/-- A band-change stop of region r's generator is running. -/
def stopRunning (s : State) (r : Nat) : Bool :=
  match servingGen s r with
  | some g => (genOf s g).stopEnd.isSome
  | none => false

/-- Region r is incomplete at the call: in the contract, and not parked or still in a band-change stop (R109,
R124, R155, R160). -/
def incomplete (s : State) (r : Nat) : Bool := inContract s r && (!(regionOf s r).parked || stopRunning s r)

/-- The neighbour that holds region r back: the one that gives it its floor, or the side behind on a crossing whose
tether stop withholds it (R120, R122).  DESIGN CHOICE (log 132): a floor before a stop, and of several the first in crossing order. -/
def holderOf (s : State) (r floor : Nat) : Option Nat :=
  if 0 < floor then (neighbours s r).find? (fun m => floorFrom s m r = floor)
  else
    ((crossingsOf s r).find? (fun x =>
      let v := xingOf s x
      v.armed && ((v.stopW && decide ((hookOf s x).writer = r)) || (v.stopR && decide ((hookOf s x).reader = r))))).map
      (fun x => if (hookOf s x).writer = r then (hookOf s x).reader else (hookOf s x).writer)

/-- The head of the chain that holds region r: a pull takes its holder's, as it stood at the tick edge before; tether stops spread
within the tick, so one is followed at once to the region that holds the holder (R123, R136; log 87). -/
def headOf (s : State) : Nat → Nat → Nat → Option Nat
  | 0, _, _ => none
  | n + 1, r, floor =>
    (holderOf s r floor).map (fun m =>
      if 0 < floor then (regionOf s m).head.getD m else (headOf s n m (floorOf s m)).getD m)

/-- What the fabric records at a fold's first call (R133, R136, R150, R259). -/
def firstCall (inc : List Nat) (s : State) : State :=
  let s := forAll inc (fun r t =>
    let x := regionOf t r
    setRegion r { x with callLag := satAt 65535 (lagNow x), origin := x.head.getD r, lateCall := true } t) s
  ballastDecide { s with fold := { s.fold with called := true } }

/-- The bell is deferred by planned laps (R131). -/
def deferPlanned (n : Nat) (s : State) : State :=
  raise .fold 10 { s with fold := { s.fold with
    plannedLaps := s.fold.plannedLaps + n, planned := bump s.fold.planned n, nextBell := s.fold.nextBell + 64 * n, inLap := true } }

/-- STALL_LAPS, applied (R138). -/
def stallLaps (s : State) : Nat := fld (bellA s 0x3000) 24 8

/-- The bell is deferred by one unplanned lap (R124, R127). -/
def deferLap (late : Bool) (s : State) : State :=
  let s := if s.fold.laps = 0 then raise .fold 1 { s with fold := { s.fold with missed := bump s.fold.missed 1 } } else s
  let n := s.fold.laps + 1
  let s := { s with fold := { s.fold with
    laps := n, lapsAll := bump s.fold.lapsAll 1, nextBell := s.fold.nextBell + 64, inLap := true,
    bandLate := s.fold.bandLate || late } }
  if stallLaps s ≤ n && !s.fold.stalled then raise .fold 2 { s with fold := { s.fold with stalled := true } } else s

/-- CALL (R109, R124, R126, R127, R131, R133, R259): 16 ticks before the bell. -/
def execCall (s : State) : Host.Outcome State Fault Refusal :=
  if s.fold.started && !s.fold.ring && !s.time.held && decide (s.fold.nextBell ≤ s.time.counter + 16) then
    let inc := (List.range s.build.regions).filter (incomplete s)
    let s := if s.fold.called then s else firstCall inc s
    let n := s.fold.plannedReq - s.fold.plannedLaps
    if 0 < n then .next (deferPlanned n s)
    else if inc ≠ [] then .next (deferLap (inc.all (fun r => (regionOf s r).parked && (regionOf s r).switchTo.isNone)) s)
    else .next { s with fold := { s.fold with ring := true } }
  else .next s

/-! ### The bell -/

/-- Region r issued its K-th edge in the ended fold: every region of the contract did, and one excluded since may have. -/
def issuedK (s : State) (r : Nat) : Bool := inContract s r || decide (0 < (regionOf s r).kDone)

/-- Region a's K-th edge came before region b's: at an earlier tick, or in one tick at an earlier instant. -/
def doneBefore (s : State) (a b : Nat) : Bool :=
  decide ((regionOf s a).kDone < (regionOf s b).kDone) ||
  (decide ((regionOf s a).kDone = (regionOf s b).kDone) && decide ((regionOf s a).lastEdge < (regionOf s b).lastEdge))

/-- The straggler of the ended fold: the region whose K-th edge came last, the lower number on a tie (R136).  DESIGN CHOICE (log 133):
where no region issued a K-th edge it is region 0. -/
def straggler (s : State) : Nat :=
  ((List.range s.build.regions).filter (issuedK s)).foldl (fun a r => if doneBefore s a r || !issuedK s a then r else a) 0

/-- The cause that added the most to a region's lag, the lower code on a tie; 0 where none did (R136). -/
def topCause (x : Region) : Nat :=
  (x.causes.foldl (fun (a : Nat × Nat) e => if a.2 < e.2 then e else a) (0, 0)).1

/-- The log entry of a missed fold or a planned deferral (R131, R136, R150, R160).  DESIGN CHOICE (log 92): a fold with both kinds of lap
has one entry, LAST_DONE is modulo 2^17, and an exclusion that ends at that very bell counts as in force. -/
def logFold (s : State) : State :=
  let fo := s.fold
  if fo.laps + fo.plannedLaps = 0 then s
  else
    let r := straggler s
    let x := regionOf s r
    let cause := if fo.laps = 0 then 15 else if fo.bandLate then 4 else topCause x
    let e : LogEntry :=
      { nominal := BitVec.ofNat 32 (fo.bellTick + fo.f), straggler := r, origin := if cause = 2 then x.origin else r,
        cause := cause, cls := classOfRegion s r, lag := x.callLag, laps := satAt 255 (fo.laps + fo.plannedLaps),
        seq := fo.logSeq + 1, lastDone := x.kDone % 2 ^ 17, planned := 0 < fo.plannedLaps,
        excluded := (List.range s.build.regions).any (excluded s) }
    { s with fold := { fo with log := (e :: fo.log).take 16, logSeq := fo.logSeq + 1 } }

/-- ADAPTIVE at a bell, for class n with its software K and the bell's F and G (R133 to R135, R266).
`charged`: the missed bell of the ended fold is charged to the class; `cancel`: its reduction is cancelled. -/
def adapt (n k f g : Nat) (charged cancel : Bool) (s : State) : State :=
  let c := classOf s n
  if cancel then setClass n { c with steps := 0, down := 0, win := [], clean := 0 } s
  else
    let win := (if charged then s.fold.foldNo :: c.win else c.win).filter (fun e => s.fold.foldNo < e + 256)
    let clean := if charged then 0 else c.clean + 1
    let c := { c with win := win, clean := clean }
    let w := bellA s (clsAddr 0x310C n)
    let step := 16 * fld w 0 8
    let cur := k - c.down
    let low := max (max (16 * fld w 16 16) (kFloor f g)) (cur - step)
    if adaptive s n && charged && 4 ≤ win.length && low < cur then
      let s := raise .fold 7 (setClass n { c with down := k - low, steps := c.steps + 1, win := [] } s)
      { s with zones := { s.zones with ovr4 := bump s.zones.ovr4 1 } }
    else if adaptive s n && 0 < c.down && 256 * fld w 8 8 ≤ clean then
      let all := k ≤ cur + step
      raise .fold 8 (setClass n { c with
        down := if all then 0 else k - (cur + step), steps := if all then 0 else max 1 (c.steps - 1), clean := 0 } s)
    else setClass n c s

/-- The effective K of class n: the least of the software, ADAPTIVE and ballast K (R115, R132, R266, R273). -/
def decideK (n k f g : Nat) (s : State) : State :=
  let s := capFloors n k f g s
  let c := classOf s n
  let ad := k - c.down
  let cap := ballastCap s n k f g
  let ke := match cap with
    | some (b, _) => min ad b
    | none => ad
  let below := match cap with
    | some (b, _) => decide (b < k) && decide (b < ad)
    | none => false
  let (c16, z) := match cap with
    | some (b, z) => (b / 16, z)
    | none => (0, 0)
  let s := setClass n { c with
    kSw := k, kEff := ke, inc := paceInc ke f g, cap16 := c16, capZone := z,
    capLevel := if cap.isSome then (zoneOf s z).level else 0 } s
  { s with zones := { s.zones with
      ovr3 := if below then bump s.zones.ovr3 1 else s.zones.ovr3,
      ovr6 := if ke < k then bump s.zones.ovr6 1 else s.zones.ovr6 } }

/-- A re-admission at the bell (R128, R130, R295): the region starts with every other one when it has a clock
source, its own generator where that was reinstated, or claims one; else it stays excluded. -/
def readmit (r : Nat) (s : State) : State :=
  let s := setRegion r { regionOf s r with readmit := false, excl := .no } s
  let s := if (genOf s r).failback then failBack true r s else s
  let ok : Bool := match servingGen s r with
    | some g => decide ((genOf s g).st ≠ .failed) && decide ((genOf s g).st ≠ .qualified)
    | none => false
  let s := if ok then s else claim r 0 s
  updateSvc (r / 16) s

/-- A region at the bell: every count restarts, and the fold's records roll over (R112, R117, R182, R256). -/
def regionBell (x : Region) : Region :=
  { x with
    c := 0, phase16 := 0, pace16 := 0, lag16 := 0, lag16a := 0, lag16b := 0, floor16 := 0, floorNext := 0, pulling := false, track := .run,
    head := none, preN := 0,
    parked := !x.out || x.excl ≠ .no, detached := false, exclWindow := x.excl ≠ .no, kDone := 0,
    lagMax := x.lagMaxNow, lagMaxNow := 0, strFold := x.strNow, strNow := 0, causes := [], callLag := 0, origin := 0,
    lateCall := false, heldThisFold := false, slot := none, skew := [], onsets := [] }

/-- The band check of a serving generator at the bell (R161, R162, R282): a divider planned takes effect, a
line above the band forces a 150-tick stop, or NO_BAND; a band that covers the window only in part runs
restricted. -/
def bellBand (r : Nat) (s : State) : State :=
  match servingGen s r with
  | none => s
  | some g =>
    let x := genOf s g
    if !inContract s r || x.stopEnd.isSome then s
    else
      let d := if x.planned.isSome then x.div else x.plannedDiv
      let s := setGen g { x with div := d, plannedDiv := d, planned := none } s
      let w := (regionWindow s r).times d
      let e := curEntry x
      if reachesLine e w then (if isRestricted e w then setRestrict r s else s)
      else
        let b := match pickBand x.copy none w with
          | some b => some b
          | none => match topBand x.copy with
            | some b => if reachesLine (entryOf x.copy b) w then some b else none
            | none => none
        match b with
        | some b =>
          let s := setGen g { genOf s g with planned := some b, plannedDiv := d, stopEnd := some (s.time.total + 150) } s
          let y := regionOf s r
          let s := raiseAbout .rcg 1 r (setRegion r { y with forcedStops := bump16 y.forcedStops 1, restrict := false } s)
          if isRestricted (entryOf x.copy b) w then setRestrict r s else s
        | none => raiseAbout .rcg 3 r (setRestrict r s)

/-- The bell's K decisions, class by class; `ks` gives the software K taken and whether the K asked for was
valid, `flat` whether the flat K was asked for, `fresh` whether the bell has just rejected the class's pending
FOLD_CLASSn (R114, R132 to R135, R243).  The class's bit of K_REJ is set by a rejection at this bell and clears when a
valid K is applied: from a pending word, the flat K that a flat bell takes, or FOLD_CLASSn's K at the bell that ends a
flat run. -/
def bellClasses (first : Bool) (charged was : Nat → Bool) (ks : Nat → Nat × Bool) (flat fresh : Nat → Bool) (f g : Nat)
    (s : State) : State :=
  forAll (List.range s.build.classes) (fun n t =>
    let (k, ok) := ks n
    let t := if flat n && !ok then setKRej n true (raise .fold 3 t)
             else if ok && (flat n || (classOf t n).fromFlat) && !fresh n then setKRej n false t else t
    let t := setClass n { classOf t n with fromFlat := flat n } t
    let cancel := first || k ≠ (classOf t n).kSw || (was n && !adaptive t n)
    decideK n k f g (adapt n k f g (charged n) cancel t)) s

/-- What the bell does with the fold sequence (R113, R137, R141). -/
def nextFold (placed f g : Nat) (s : State) : State :=
  { s with fold := { s.fold with
      started := true, pending := false, inLap := false, stalled := false, laps := 0, plannedLaps := 0, bandLate := false,
      bellTick := placed, paceStart := s.time.counter, nextBell := placed + f, f := f, g := g, called := false, ring := false,
      plannedReq := 0, calPlanned := false, tail := false, folds := bump s.fold.folds 1, foldNo := s.fold.foldNo + 1 } }

/-- Every spare whose shadow class differs from what it was in s locks on its new line (R280). -/
def respareChanged (s t : State) : State :=
  forAll (List.range t.build.flocks) (fun fl t => forAll (List.range t.build.spares) (fun j t =>
    if shadowClass s fl j = shadowClass t fl j then t else respare fl j t) t) t

/-- PRE_BELL_APPLY (R280, R450, R451, R455, R456). -/
def execPreBellApply (s : State) : Host.Outcome State Fault Refusal :=
  if !s.fold.started && slowNow s then .next (calCfgApplied s (respareChanged s (applyEarly s))) else .next s

/-- The label at which flock f takes a bell placed at that tick: its latest one where that has reached it, else that of the
first edge on its way to it that does (R57, R79, R95). -/
def bellLabel (placed : Nat) (s : State) (f : Nat) : Int :=
  let m := pathOf (flockOf s f) (flockOf s f).sel.toNat
  if placed ≤ flockTime s f then flockTime s f
  else match (s.time.trail.filter (fun e => decide (m.repValid ∧ (placed : Int) ≤ m.repBase + e.2))).getLast? with
    | some e => m.repBase + e.2
    | none => (flockTime s f : Int) + 5

/-- How the edge at which each flock takes the bell differs from the root's: in bypass the first label of its own edges
that is at least the bell's tick, in tick mode the same edge (R57, R58, R79, R95). -/
def shiftBells (placed : Nat) (s : State) : State :=
  mapFlocks (fun f x => { x with tailed := false, bellShift := if s.root.bypass then bellLabel placed s f - s.fold.paceStart else 0 }) s

/-- Class n's pending FOLD_CLASSn is rejected at a bell (R114). -/
def classRejected (s : State) (flat : Nat → Nat → Bool) (n : Nat) : Bool :=
  let w := bellW s (clsAddr 0x3100 n)
  isPend s (clsAddr 0x3100 n) && !cfgBad s flat && !kValid (wordK w) (wordNom w) (fAt s flat) (gAt s flat)

/-- The bell that falls at tick `placed` (R96, R112 to R115, R128 to R136, R159 to R162, R192, R193, R225,
R242, R243, R257 to R262, R280, R347, R357, R409, R450). -/
def ringBell (placed : Nat) (now : State) : State :=
  let s := rewindFresh now
  let first := !s.fold.started
  let missed := decide (0 < s.fold.laps)
  let s := if first then s else logFold (forAll (List.range s.build.regions) (fun r t => countSkew r (flockOffset t (r / 16)) true t) (cutClampWindow placed s))
  let late := fun n => (List.range s.build.regions).any (fun r => (regionOf s r).lateCall && decide (classOfRegion s r = n))
  let charged := fun n => missed && late n
  let t := applyPending (flatBell s) s
  let f := cfgF t
  let g := cfgG t
  let isFlat := flatBell s f g
  let t := shiftBells placed (nextFold placed f g t)
  let active := t.fcst.active
  let t := forecastBell f g t
  let t := zoneBell (historyBell (decide (t.fcst.active ≠ active)) t)
  let t := bellClasses first charged (adaptive s) (fun n => bellK s (flatBell s) n f g)
    (fun n => isFlat && !cfgBad s (flatBell s) && (wordFlat (coming s (0x6100 + 4 * n))).isSome)
    (classRejected s (flatBell s)) f g t
  let t := restoreApply (calCfgApplied s t)
  let back := (List.range t.build.regions).filter (fun r => (regionOf t r).readmit)
  let t := forAll back readmit t
  let t := mapRegions (fun _ x => regionBell x) t
  let t := if first then armAll { t with time := { t.time with firstBell := true } } else forAll back rearm t
  let t := forAll (listedXings t) (ratioCheck s) t
  let t := mapGens (fun _ x => { x with count := 0 }) t
  let t := respareChanged s t
  let t := forAll (List.range t.build.regions) bellBand t
  let t := { t with cal := { t.cal with latest := latestEnd t } }
  let t := raise .fold 0 (if first then raise .fold 4 t else t)
  replayFresh now (firmwareBell t)

/-- BELL (R112, R113, R124): the first bell at its tick, and each later one that its call lets ring. -/
def execBell (s : State) : Host.Outcome State Fault Refusal :=
  if s.time.held then .next s
  else if s.fold.started then
    .next (if s.fold.ring && decide (s.fold.nextBell ≤ s.time.counter) then ringBell s.fold.nextBell s else s)
  else .next (if s.fold.pending && decide (s.fold.firstTick ≤ s.time.counter) then ringBell s.fold.firstTick s else s)

/-! ### Exclusion -/

/-- The outcome of a FOLD_EXCLUDE request (R129, R148). -/
def exclAnswer (res : Nat) (tag : BitVec 8) (r : Nat) (s : State) : State :=
  { s with fold := { s.fold with exclRes := BitVec.ofNat 2 res, exclTag := tag, exclRegion := BitVec.ofNat 13 r } }

/-- A write of FOLD_EXCLUDE: a new TAG performs the request (R128, R129, R147). -/
def writeFoldExclude (v : Word) (s : State) : State :=
  let s := nowPut 0x3020 v s
  let tag := BitVec.ofNat 8 (fld v 24 8)
  let r := fld v 0 13
  if tag = s.fold.exclTag then s
  else if !isRegion s r then raise .fold 12 (exclAnswer 2 tag r s)
  else
    let x := regionOf s r
    if bitAt v 16 then
      (if x.excl = .no then exclAnswer 0 tag r (leaveContract r .byHost (unclaim r s))
       else if x.readmit then exclAnswer 0 tag r (setRegion r { x with readmit := false } s)
       else exclAnswer 1 tag r s)
    else
      (if x.excl ≠ .no && !x.readmit then exclAnswer 0 tag r (setRegion r { x with readmit := true } s)
       else exclAnswer 1 tag r s)

/-- The FOLD_EXCLUDE word of a request (R147). -/
def exclWord (region set tag : Nat) : Word := packWord [(0, 13, region), (16, 1, set), (24, 8, tag)]

/-- EXCLUDE_SET (R128, R129, R147). -/
def execExcludeSet (w : Wr) (region : BitVec 13) (tag : BitVec 8) (s : State) : Host.Outcome State Fault Refusal :=
  .next (regWrite w 0x3020 (exclWord region.toNat 1 tag.toNat) [] (writeFoldExclude (exclWord region.toNat 1 tag.toNat)) s)

/-- EXCLUDE_CLEAR (R128, R129, R147). -/
def execExcludeClear (w : Wr) (region : BitVec 13) (tag : BitVec 8) (s : State) : Host.Outcome State Fault Refusal :=
  .next (regWrite w 0x3020 (exclWord region.toNat 0 tag.toNat) [] (writeFoldExclude (exclWord region.toNat 0 tag.toNat)) s)

/-! ### Statistics and the log -/

/-- FOLD_STAT0 to FOLD_STAT7 (R137). -/
def foldStatWords (s : State) : List Word :=
  let c := s.fold
  [BitVec.ofNat 32 c.bellTick, BitVec.ofNat 32 (c.bellTick / 2 ^ 32), c.folds, c.missed, c.lapsAll, c.planned, c.pulls, c.tstops]

/-- A write of FOLD_STAT_REQ (R137, R149). -/
def writeFoldStatReq (p : Port) (v : Word) (s : State) : State :=
  let s := nowPut (portKey p 0x3028) v s
  let tag := BitVec.ofNat 8 (fld v 0 8)
  if tag = (snapOf s 1 p).tag then s else snapPut 1 p { valid := true, tag := tag, words := foldStatWords s } s

/-- FOLD_STAT_REQ (R137, R149). -/
def execFoldStatReq (w : Wr) (v : Word) (s : State) : Host.Outcome State Fault Refusal :=
  .next (regWrite w 0x3028 v [] (writeFoldStatReq w.port v) s)

/-- A write of FOLD_LOG_SEL latches an entry, 0 being the newest, for the port (R150, R464). -/
def writeFoldLogSel (p : Port) (v : Word) (s : State) : State :=
  let s := nowPut (portKey p 0x3050) v s
  { s with logs := tabSet s.logs (portIx p) (s.fold.log.getD (fld v 0 4) {}) {} }

/-- FOLD_LOG_SEL (R150). -/
def execFoldLogSel (w : Wr) (v : Word) (s : State) : Host.Outcome State Fault Refusal :=
  .next (regWrite w 0x3050 v [] (writeFoldLogSel w.port v) s)

/-- FOLD_LOG0 to FOLD_LOG3 of a latched entry (R150). -/
def logWords (e : LogEntry) : List Word :=
  [ e.nominal,
    packWord [(0, 13, e.straggler), (13, 13, e.origin), (26, 4, e.cause), (30, 2, e.cls)],
    packWord [(0, 16, e.lag), (16, 8, e.laps), (24, 8, e.seq.toNat)],
    packWord [(0, 17, e.lastDone), (17, 1, b2n e.planned), (18, 1, b2n e.excluded)] ]

end Sys2Proof.Machine
end

