-- ==== Sys2Proof/Machine/Lc.lean ====
section
/-!
DEFINITION. Life cycle (R481, R504 to R508), test access (R518) and the front panel (R523 to R525).
-/
namespace Sys2Proof.Machine
open Sys2Proof

/-! ### Life-cycle requests -/

/-- The slots programmed and unrevoked, less one (R506). -/
def goodSlots (fu : Fuses) (less : Nat) : Bool :=
  [0, 1, 2, 3].any (fun k => k ≠ less && fu.keyProg.getLsbD k && !fu.keyRevoked.getLsbD k)

/-- A firmware bank holds a SEALED or ACTIVE unsigned image (R404, R506). -/
def unsignedHeld (s : State) : Bool :=
  [(0 : BitVec 1), 1].any (fun b =>
    ((swBank s b).st = .sealed || (swBank s b).st = .active) && imgField s b 24 1 = 0)

/-- The permitted transitions (R506). -/
def permitted (from' to' : BitVec 2) : Bool :=
  (from' = 0 && to' = 1) || (from' = 1 && to' = 2) || (from' = 1 && to' = 3) || (from' = 2 && to' = 3)

/-- The first check of R506 that a transition to `target` fails, 0 where none does; BUTTON as it stood at the end of the
slow-clock period before the request's (R509). -/
def transitionRej (s : State) (target : BitVec 2) : Nat :=
  let st := s.lc.state
  let fu := s.lc.fuses
  if !permitted st target then 1
  else if s.lc.erasing then 2
  else if s.lc.onBackup then 3
  else if st = 0 && !(fu.trims && fu.dieIdSet && fu.mfgComplete) then 4
  else if st = 0 && unsignedHeld s then 5
  else if (target = 2 || st = 0) && !goodSlots fu 4 then 6
  else if st = 2 && target = 3 && !s.lc.buttonPrev then 7
  else 0

/-- The first check of R506 that the revocation of a slot fails, 0 where none does. -/
def revokeRej (s : State) (slot : BitVec 2) : Nat :=
  let fu := s.lc.fuses
  if s.lc.erasing then 2
  else if s.lc.onBackup then 3
  else if !fu.keyProg.getLsbD slot.toNat || fu.keyRevoked.getLsbD slot.toNat || s.lc.state = 0 || s.lc.state = 3 then 8
  else if !goodSlots fu slot.toNat then 9
  else 0

/-- The first check of R506 that a request with OP = 3 fails. -/
def invalidRej (s : State) : Nat := if s.lc.erasing then 2 else if s.lc.onBackup then 3 else 10

/-- A refused request: its cause in REJ, its TAG in CMD_TAG, and LC_REJECT (R480, R506). -/
def lcRefuse (code : Nat) (tag : BitVec 8) (s : State) : State :=
  raise .lc 6 { s with lc := { s.lc with rej := BitVec.ofNat 4 code, cmdTag := tag } }

/-- A request whose checks gave `code`: refused, or its fuses are being blown (R506). -/
def lcJudge (code : Nat) (job : LcJob) (tag : BitVec 8) (s : State) : State :=
  if code = 0 then { s with lc := { s.lc with job := some job } } else lcRefuse code tag s

/-- A write of LC_CTRL that is performed: a new TAG performs OP (R481, R505, R506). -/
def performLc (v : Word) (s : State) : State :=
  let s := nowPut 0xF004 v s
  let tag := BitVec.ofNat 8 (fld v 8 8)
  let op := fld v 0 2
  let target := BitVec.ofNat 2 (fld v 2 2)
  let slot := BitVec.ofNat 2 (fld v 4 2)
  if tag = s.lc.cmdTag then s
  else if op = 0 then { s with lc := { s.lc with cmdTag := tag, rej := 0 } }
  else if op = 1 then lcJudge (transitionRej s target) (.transition target tag) tag s
  else if op = 2 then lcJudge (revokeRej s slot) (.revoke slot tag) tag s
  else lcRefuse (invalidRej s) tag s

/-- A write of LC_CTRL: withheld while an accepted request is being performed (R442). -/
def writeLcCtrl (v : Word) (s : State) : State :=
  if s.lc.job.isSome then { s with lc := { s.lc with held := s.lc.held ++ [v] } } else performLc v s

/-- The withheld writes take effect in order, until one is an accepted request again (R442). -/
def releaseLc (held : List Word) (s : State) : State :=
  match held with
  | [] => s
  | v :: r => if s.lc.job.isSome then { s with lc := { s.lc with held := v :: r } } else releaseLc r (performLc v s)

/-- The LC_CTRL word of a request (R481). -/
def lcWord (op target slot tag : Nat) : Word := packWord [(0, 2, op), (2, 2, target), (4, 2, slot), (8, 8, tag)]

/-- LC_TRANSITION (R481, R506). -/
def execLcTransition (w : Wr) (target : BitVec 2) (tag : BitVec 8) (s : State) : Host.Outcome State Fault Refusal :=
  .next (regWrite w 0xF004 (lcWord 1 target.toNat 0 tag.toNat) [] (writeLcCtrl (lcWord 1 target.toNat 0 tag.toNat)) s)

/-- LC_REVOKE (R481, R505, R506). -/
def execLcRevoke (w : Wr) (slot : BitVec 2) (tag : BitVec 8) (s : State) : Host.Outcome State Fault Refusal :=
  .next (regWrite w 0xF004 (lcWord 2 0 slot.toNat tag.toNat) [] (writeLcCtrl (lcWord 2 0 slot.toNat tag.toNat)) s)

/-- LC_OP_REFUSE (R481, R506). -/
def execLcOpRefuse (w : Wr) (tag : BitVec 8) (s : State) : Host.Outcome State Fault Refusal :=
  .next (regWrite w 0xF004 (lcWord 3 0 0 tag.toNat) [] (writeLcCtrl (lcWord 3 0 0 tag.toNat)) s)

/-- The fuses of an accepted request are blown (R506, R507). -/
def lcPerform (s : State) : LcJob → State
  | .transition target tag =>
    { s with lc := { s.lc with
        fuses := { s.lc.fuses with state := target }, state := target, erasing := s.lc.erasing || target = 3,
        cmdTag := tag, rej := 0 } }
  | .revoke slot tag =>
    { s with lc := { s.lc with
        fuses := { s.lc.fuses with keyRevoked := s.lc.fuses.keyRevoked ||| BitVec.ofNat 4 (2 ^ slot.toNat) },
        cmdTag := tag, rej := 0 } }

/-- LC_DONE (R442, R506, R507): the accepted request has blown its fuses, entry to RETURN starts the erasure, and
withheld writes of LC_CTRL follow. -/
def execLcDone (s : State) : Host.Outcome State Fault Refusal :=
  match s.lc.job with
  | none => .next s
  | some j => .next (releaseLc s.lc.held (raise .lc 5 (lcPerform { s with lc := { s.lc with job := none, held := [] } } j)))

/-! ### Test access -/

/-- A fuse programming of the test floor (R505, R506): a programmed key slot is never reprogrammed. -/
def programFuses (fu : Fuses) : TestOp → Fuses
  | .programKey slot digest =>
    if fu.keyProg.getLsbD slot.toNat then fu
    else { fu with keyProg := fu.keyProg ||| BitVec.ofNat 4 (2 ^ slot.toNat), keys := tabSet fu.keys slot.toNat digest 0 }
  | .programDieId id => if fu.dieIdSet then fu else { fu with dieId := id, dieIdSet := true }
  | .programTrims => { fu with trims := true }
  | .programRootBand y band entry =>
    { fu with rootBand := tabSet fu.rootBand ((match y with
                                               | .s0 => 0
                                               | .s1 => 16) + band.toNat) entry 0 }
  | .blowManufactureComplete => { fu with mfgComplete := true }
  | _ => fu

/-- The instruction code that a command loads: all ones for BYPASS and at a TAP reset (PRESUMED, log 147), one that no rule states for
the other instructions (log 122), the command's own for any other (R518). -/
def tapCode : TestOp → BitVec 8
  | .tapReset => 0xFF
  | .bypass => 0xFF
  | .sample => Config.freeCode 0
  | .preload => Config.freeCode 1
  | .extest => Config.freeCode 2
  | .programKey _ _ => Config.freeCode 3
  | .programDieId _ => Config.freeCode 4
  | .programTrims => Config.freeCode 5
  | .programRootBand _ _ _ => Config.freeCode 6
  | .blowManufactureComplete => Config.freeCode 7
  | .other code => code

/-- The instruction register takes a code, which selects `ir`. -/
def tapSelect (op : TestOp) (ir : TapIr) (s : State) : State :=
  { s with lc := { s.lc with tap := { s.lc.tap with code := tapCode op, ir := ir } } }

/-- The pads in the order of R510. -/
def pads : List Pad :=
  [.xtalSel 0, .xtalSel 1, .coldRst, .fabPgood, .syncIn, .tallyGate 0, .tallyGate 1, .tallyGate 2, .tallyGate 3,
   .cableDetect 0, .cableDetect 1, .ppsIn, .ppsOut, .button, .led]

/-- fp_led_n drives the LED: the quanta that each pattern lights (R524). -/
def ledLit (s : State) : Bool :=
  let k := s.lc.ledFor
  if s.lc.led = 2 then true else if s.lc.led = 3 then k / 8 % 2 = 0 else if s.lc.led = 1 then k / 32 % 2 = 0 else false

/-- The level of a pad, where the state holds it: the straps, the resets, and what the fabric itself drives (R510). -/
def padLevel (s : State) : Pad → Option Bool
  | .xtalSel k => some (s.straps.xtalSel.getLsbD k.val)
  | .coldRst => some true
  | .fabPgood => some s.power.pgood
  | .ppsOut => some (ppsOutHigh s)
  | .led => some (!ledLit s)
  | _ => none

/-- The level at which the fabric drives an output pad: under EXTEST that of the pad's boundary-scan bit (R510, R518). -/
def padDrives (s : State) (p : Pad) : Option Bool :=
  if s.lc.tap.ir = .extest then some (s.lc.tap.scan.getD (pads.findIdx (· = p)) false) else padLevel s p

/-- ts_tdo is at high impedance: it drives only while TCK shifts a register, and no command shifts one (R510; log 122). -/
def tsTdo (_ : State) : Option Bool := none

/-- SAMPLE captures the pads in the boundary-scan register, PRELOAD loads bits that the command does not carry (R518; log 122). -/
def tapScan (op : TestOp) (ir : TapIr) (s : State) : State :=
  let (v, s) := takeFreeWord s
  let bits := (List.range pads.length).zip pads |>.map (fun p => ((if ir = .sample then padLevel s p.2 else none).getD (v.getLsbD p.1)))
  tapSelect op ir { s with lc := { s.lc with tap := { s.lc.tap with scan := bits } } }

/-- The life-cycle state closes the test port's instructions beyond the mandatory ones (R458, R518). -/
def testClosed (s : State) : Bool := s.lc.access = 1 || s.lc.access = 2

/-- A closed test instruction is a denied access: ACCESS_DENY, while CFG_EVENT's block is out of reset; which port DENY_PORT
then records the manual does not say (R458, R461; log 128). -/
def denyTest (s : State) : State :=
  if s.power.fabUp then
    let (v, s) := takeFreeWord s
    { raise .cfg 8 s with cfg := { s.cfg with denyPort := v.setWidth 2 } }
  else s

/-- TEST_ACCESS (R458, R505, R506, R518): a TAP reset and the mandatory instructions change no fabric state; fuses
are programmed in MANUFACTURE only; any other instruction is denied and selects BYPASS in PROVISION and FIELD, and is one
whose effect the manual does not give in MANUFACTURE and RETURN. -/
def execTestAccess (op : TestOp) (s : State) : Host.Outcome State Fault Refusal :=
  if s.lc.por then .next s
  else
    match op with
    | .tapReset | .bypass => .next (tapSelect op .bypass s)
    | .sample => .next (tapScan op .sample s)
    | .preload => .next (tapScan op .preload s)
    | .extest => .next (tapSelect op .extest s)
    | .other _ => if testClosed s then .next (tapSelect op .bypass (denyTest s)) else .refused .vendorTestInstruction
    | op =>
      if testClosed s then .next (tapSelect op .bypass (denyTest s))
      else .next (tapSelect op .vendor
        (if s.lc.access = 0 then { s with lc := { s.lc with fuses := programFuses s.lc.fuses op } } else s))

/-! ### The front panel -/

/-- Slow-clock periods of a long press (R523). -/
def longPressLen : Nat := 18750000

/-- BUTTON_PRESS (R523, R531): a debounced press. -/
def execButtonPress (s : State) : Host.Outcome State Fault Refusal :=
  if s.lc.button || s.lc.por || !debounced s s.lc.pressedAt then .next s
  else .next { s with lc := { s.lc with button := true, longPress := false, pressedAt := s.time.slowEdges } }

/-- BTN_LONG (R523): raised once for the press. -/
def execBtnLong (s : State) : Host.Outcome State Fault Refusal :=
  if s.lc.button && !s.lc.longPress && decide (s.lc.pressedAt + longPressLen ≤ s.time.slowEdges) then
    .next (raise .lc 4 { s with lc := { s.lc with longPress := true } })
  else .next s

/-- BTN_SHORT (R523): a debounced release before long-press length. -/
def execBtnShort (s : State) : Host.Outcome State Fault Refusal :=
  if s.lc.button && debounced s s.lc.pressedAt && !s.lc.longPress && decide (s.time.slowEdges < s.lc.pressedAt + longPressLen) then
    .next (raise .lc 3 { s with lc := { s.lc with button := false, pressedAt := s.time.slowEdges } })
  else .next s

/-- BUTTON_RELEASE (R523): a debounced release after long-press length. -/
def execButtonRelease (s : State) : Host.Outcome State Fault Refusal :=
  if s.lc.button && debounced s s.lc.pressedAt && s.lc.longPress then
    .next { s with lc := { s.lc with button := false, longPress := false, pressedAt := s.time.slowEdges } }
  else .next s

/-- The quantum of the LED in which the counter stands (R524). -/
def ledQuantum (s : State) : Nat := s.time.counter / 2 ^ 22

/-- The cable event whose flash sequence governs quantum q: the last one of an earlier quantum, as its first change is the first one
scheduled after the event (R524, R525). -/
def flashOf (s : State) (q : Nat) : Option Int :=
  if s.lc.flash.any (fun t => decide (t / 2 ^ 22 < (q : Int))) then s.lc.flash else s.lc.flashPrev

/-- The flash sequence is shown in quantum q: for 48 quanta from its own first one (R524). -/
def flashShown (s : State) (q : Nat) : Bool :=
  (flashOf s q).any (fun t => decide (t / 2 ^ 22 < (q : Int)) && decide ((q : Int) < t / 2 ^ 22 + 49))

/-- A service request and an IDENTIFY that a change of quantum q shows: those of the quantum's first tick edge, or before it those
that stand (R524, R525). -/
def ledAsks (s : State) (q : Nat) : Bool × Bool :=
  match s.lc.ledSeen with
  | some (n, a) => if n = q then a else (svcOut s, s.shep.identifyEnd.isSome)
  | none => (svcOut s, s.shep.identifyEnd.isSome)

/-- The pattern that a change in quantum q shows (R524). -/
def ledPattern (s : State) (q : Nat) : BitVec 3 :=
  if (ledAsks s q).1 then 2 else if flashShown s q then 3 else if (ledAsks s q).2 then 1 else 0

/-- A change of this quantum takes effect now: at its tick before the first bell, else at the first bell at or
after it, or 65,536 ticks after it (R525). -/
def ledTime (s : State) : Bool :=
  let m := 2 ^ 22 * ledQuantum s
  !s.fold.started || decide (m ≤ s.fold.paceStart) || decide (m + 65536 ≤ s.time.counter)

/-- LED_CHANGE (R524, R525). -/
def execLedChange (s : State) : Host.Outcome State Fault Refusal :=
  let q := ledQuantum s
  if ledTime s && decide (s.lc.ledAt < q) then
    let p := ledPattern s q
    let again := (flashOf s q).any (fun t => decide (t / 2 ^ 22 + 1 = (q : Int)))
    .next { s with lc := { s.lc with
      led := p, ledAt := q, ledFor := if p ≠ s.lc.led || (p = 3 && again) then 0 else s.lc.ledFor + (q - s.lc.ledAt) } }
  else .next s

end Sys2Proof.Machine
end

