-- ==== Sys2Proof/Machine/RegRead.lean ====
section
/-!
DEFINITION. What a read of each register returns (R441, R452, R463 to R484): the control-port window, block by
block.  No read changes the state (R441).
-/
namespace Sys2Proof.Machine
open Sys2Proof

/-- A status register of a snapshot set: VALID, the mode bit and TAG (R98, R100). -/
def snapStat (n : Snap) : Word := packWord [(0, 1, b2n n.valid), (1, 1, b2n n.bypass), (8, 8, n.tag.toNat)]

/-- Word k of a port's snapshot; 0 while VALID is clear (R98, R448). -/
def snapWord (n : Snap) (k : Nat) : Word := if n.valid then n.words.getD k 0 else 0

/-- An SQ event register (R444). -/
def eventWord (s : State) (b : Block) : Word := packWord [(0, 24, (eventOf s b).bits.toNat), (24, 8, (eventOf s b).seq.toNat)]

/-- VIEW of a port's CFG_CTRL (R460). -/
def viewOf (s : State) : Port → Bool
  | .host => s.cfg.viewHost
  | .bm => s.cfg.viewBm
  | .shep => s.cfg.viewShep

/-- A bell-class register as a port reads it: the last value written, or the applied one (R452). -/
def bellRead (s : State) (p : Port) (k : Nat) : Word := if viewOf s p then bellA s k else bellW s k

/-- The state code of a forecast or firmware bank (R249, R434). -/
def bankCode : BankSt → Nat
  | .empty => 0
  | .opened => 1
  | .waiting => 2
  | .verify => 3
  | .sealed => 4
  | .active => 5

/-- A bank number plus 1, 0 for none. -/
def bankPlus : Option (BitVec 1) → Nat
  | some b => b.toNat + 1
  | none => 0

/-- The CFG_ block (R30, R31, R460, R461, R465, R477 to R479). -/
def readCfg (s : State) (p : Port) (a : Nat) : Word :=
  let b := s.build
  let c := s.cfg
  if a = 0x0 then versionWord
  else if a = 0x4 then packWord [(0, 13, b.regions), (13, 9, b.flocks), (22, 2, b.spares), (24, 3, b.classes), (27, 5, b.zones)]
  else if a = 0x8 then packWord [(0, 15, b.xings), (15, 3, b.tiers), (18, 13, b.logic)]
  else if a = 0xC then irqSum s p
  else if a = 0x10 then
    packWord [(0, 1, b2n c.checkEn), (1, 1, b2n c.refValid), (2, 1, b2n c.restoreEn), (3, 1, b2n (viewOf s p))]
  else if a = 0x14 then
    packWord [(0, 1, b2n (!c.pend.isEmpty)), (1, 1, b2n c.drift), (2, 1, b2n c.restoring), (3, 1, b2n c.restoredOnce),
      (8, 8, c.applyCnt.toNat), (16, 2, c.denyPort.toNat)]
  else if a = 0x18 then c.crc
  else if a = 0x28 then BitVec.ofNat 32 s.lc.fuses.dieId.toNat
  else if a = 0x2C then BitVec.ofNat 32 (s.lc.fuses.dieId.toNat / 2 ^ 32)
  else nowSeen s a

/-- The BELL_ block (R97 to R103, R466). -/
def readBell (s : State) (p : Port) (a : Nat) : Word :=
  let n := snapOf s 0 p
  if a = 0x1000 then nowSeen s (portKey p a)
  else if a = 0x1004 then snapStat n
  else if a = 0x1008 then snapWord n 0
  else if a = 0x100C then snapWord n 1
  else if a = 0x101C then
    packWord [(0, 1, b2n s.time.firstBell), (1, 1, b2n (meshReadyNow s)),
      (2, 1, b2n ((List.range s.build.flocks).any (onLastPath s))), (8, 8, s.time.loadTag.toNat)]
  else if a = 0x1028 then BitVec.ofNat 32 ((eventOf s .bell).about % 512)
  else nowSeen s a

/-- The entry, as BAND and SYNTH number it, that a port's ROOT_BTAB_SEL names once the waiting writes before a given one are
performed. -/
def entryNamed (s : State) (before : List WaitWr) (p : Port) : Nat :=
  match (before.filter (fun e => decide (e.addr = 0x201C) && decide (e.w.port = p))).getLast? with
  | some e => fld e.word 0 5
  | none => fld (nowGet s (portKey p 0x201C)) 0 5

/-- The last value written to entry k of the root band tables: by a write that waits, or as it stands (R12, R72). -/
def lastEntry (s : State) (k : Nat) (before : List WaitWr) (v : Word) : List WaitWr → Word
  | [] => v
  | e :: r =>
    lastEntry s k (before ++ [e])
      (if e.addr = 0x2020 && entryNamed s before e.w.port = k then e.word &&& rootEntryMask else v) r

/-- A read of entry k of the root band tables (R12, R72). -/
def rootEntrySeen (s : State) (k : Nat) : Word :=
  lastEntry s k [] (tabGet (synOf s (synNum (k / 16))).table (k % 16) 0) s.out.waiting

/-- The ROOT_ block (R67 to R75, R466). -/
def readRoot (s : State) (p : Port) (a : Nat) : Word :=
  let r := s.root
  if a = 0x2010 then
    packWord [(0, 1, b2n r.s0.locked), (1, 1, b2n r.s1.locked), (2, 1, b2n (r.active = .s1)), (3, 1, b2n r.bypass),
      (4, 1, b2n r.refOk), (5, 1, b2n r.aligned), (6, 2, r.xtalSel.toNat), (8, 8, r.divTag.toNat), (16, 4, r.s0.band.toNat),
      (20, 4, r.s1.band.toNat)]
  else if a = 0x201C then nowSeen s (portKey p a)
  else if a = 0x2020 then rootEntrySeen s (fld (nowSeen s (portKey p 0x201C)) 0 5)
  else if a = 0x2028 then
    packWord [(0, 16, r.measCount.toNat), (16, 8, r.measTag.toNat), (24, 2, r.measStatus.toNat)]
  else if a = 0x2030 then packWord [(0, 16, r.syncPhase.toNat), (16, 8, r.syncEdges.toNat)]
  else if a = 0x2034 then nowSeen s a ||| packWord [(16, 12, r.ageCurrent.toNat)]
  else nowSeen s a

/-- The FOLD_ block (R137 to R150, R467).  DESIGN CHOICE (log 125): ADAPT_STEPS shows the number of steps modulo 256. -/
def readFold (s : State) (p : Port) (a : Nat) : Word :=
  let f := s.fold
  let n := snapOf s 1 p
  if a = 0x3014 then
    packWord [(0, 1, b2n f.started), (1, 1, b2n f.pending), (2, 1, b2n f.inLap), (3, 1, b2n f.stalled),
      (4, 8, satAt 255 (f.laps + f.plannedLaps)), (12, 4, f.rejCause.toNat), (16, 8, f.startTag.toNat), (24, 4, f.kRej.toNat)]
  else if a = 0x3024 then
    packWord [(0, 13, ((List.range s.build.regions).filter (excluded s)).length), (16, 13, f.exclLast.toNat)]
  else if a = 0x3028 || a = 0x3050 then nowSeen s (portKey p a)
  else if a = 0x302C then snapStat n
  else if 0x3030 ≤ a && a < 0x3050 then snapWord n ((a - 0x3030) / 4)
  else if 0x3054 ≤ a && a < 0x3064 then (logWords (tabGet s.logs (portIx p) {})).getD ((a - 0x3054) / 4) 0
  else if a = 0x3064 then packWord [(0, 2, f.exclRes.toNat), (8, 8, f.exclTag.toNat), (16, 13, f.exclRegion.toNat)]
  else if 0x3100 ≤ a && a < 0x3100 + 0x10 * s.build.classes then
    let c := classOf s ((a - 0x3100) / 0x10)
    if a % 0x10 = 4 then packWord [(0, 16, c.kEff / 16), (16, 8, c.steps), (24, 8, c.win.length)]
    else if a % 0x10 = 8 then BitVec.ofNat 32 c.inc
    else bellRead s p a
  else if (bellReg s.build a).isSome then bellRead s p a
  else nowSeen s a

/-- The RCG_ block (R181 to R189, R453, R468). -/
def readRcg (s : State) (p : Port) (a : Nat) : Word :=
  let n := snapOf s 2 p
  let r := selRegion s p
  if a = 0x4000 then nowSeen s (portKey p a)
  else if a = 0x4004 then packWord [(0, 1, b2n n.valid), (13, 13, n.index)]
  else if a = 0x4008 then packWord [(8, 8, n.tag.toNat)]
  else if a = 0x400C then (if r < s.build.regions then bellRead s p (keyRcg r) else 0)
  else if 0x4010 ≤ a && a < 0x4040 then snapWord n ((a - 0x4010) / 4)
  else if a = 0x4050 then packWord [(0, 2, s.bmStatus.toNat), (2, 1, b2n s.bmBusy), (24, 8, s.bmTag.toNat)]
  else if a = 0x405C then BitVec.ofNat 32 ((eventOf s .rcg).about % 8192)
  else if (bellReg s.build a).isSome then bellRead s p a
  else nowSeen s a

/-- The XING_ block (R215 to R221, R469). -/
def readXing (s : State) (p : Port) (a : Nat) : Word :=
  let n := snapOf s 3 p
  let x := s.xing
  if a = 0x5000 then nowSeen s (portKey p a)
  else if a = 0x5004 then packWord [(0, 1, b2n n.valid), (8, 8, n.tag.toNat), (16, 15, n.index)]
  else if 0x5008 ≤ a && a < 0x501C then snapWord n ((a - 0x5008) / 4)
  else if a = 0x5020 then
    packWord [(0, 1, b2n x.calRun), (1, 1, b2n x.manifestReady), (2, 1, b2n x.armed),
      (3, 15, (x.tab.filter (fun e => e.2.enabled)).length),
      (18, 14, satAt 16383 (x.tab.filter (fun e => e.2.nomeas || e.2.long)).length)]
  else if a = 0x502C then BitVec.ofNat 32 ((eventOf s .xing).about % 32768)
  else if a = 0x5034 then
    packWord [(0, 1, b2n x.auditHit), (1, 1, b2n x.auditUnpaired), (2, 8, x.auditOffset.toNat), (10, 15, x.auditXing.toNat)]
  else nowSeen s a

/-- The FCST_ block (R245 to R254, R469). -/
def readFcst (s : State) (p : Port) (a : Nat) : Word :=
  let n := snapOf s 4 p
  let f := s.fcst
  if a = 0x6000 then lastWritten s a 1 (packWord [(0, 1, b2n f.single)])
  else if a = 0x600C then
    packWord [(0, 2, bankPlus f.active), (2, 3, bankCode f.b0.st), (5, 3, bankCode f.b1.st), (8, 1, b2n f.swap.isSome),
      (9, 1, b2n f.stop), (10, 1, b2n f.committed), (11, 4, f.sealRes.toNat), (16, 8, f.cmdTag.toNat), (24, 3, f.rej.toNat)]
  else if a = 0x6010 then packWord [(0, 20, f.b0.wcount)]
  else if a = 0x6014 then packWord [(0, 20, f.b1.wcount)]
  else if a = 0x6018 then packWord [(0, 20, f.sealIdx)]
  else if a = 0x601C then packWord [(0, 16, f.foldIdx), (16, 16, if f.active.isSome then f.period else 0)]
  else if a = 0x6020 then (if f.active.isSome then f.schedId else 0)
  else if a = 0x602C then nowSeen s (portKey p a)
  else if a = 0x6030 then snapStat n
  else if 0x6034 ≤ a && a < 0x6054 then snapWord n ((a - 0x6034) / 4)
  else if (bellReg s.build a).isSome then bellRead s p a
  else nowSeen s a

/-- A port's ZONE_BTAB_SEL by its last write, whether or not that has taken effect (R12, R442). -/
def btabSel (s : State) (p : Port) : Word := nowSeen s (portKey p 0x7004)

/-- The ballast table entry that a ZONE_BTAB_SEL word names; level 0 selects nothing (R271). -/
def btabKey (sel : Word) : Option Nat :=
  if fld sel 0 4 = 0 then none else some (keyBtab (fld sel 0 4) (fld sel 4 2))

/-- The ZONE_ block (R266, R268 to R275, R470). -/
def readZone (s : State) (p : Port) (a : Nat) : Word :=
  let n := snapOf s 5 p
  if a = 0x7004 || a = 0x7024 then nowSeen s (portKey p a)
  else if a = 0x7008 then
    (match btabKey (btabSel s p) with
     | some k => bellRead s p k
     | none => 1024)
  else if a = 0x700C then packWord ((List.range 8).map (fun z => (4 * z, 4, (zoneOf s z).level)))
  else if a = 0x7010 then packWord ((List.range 8).map (fun z => (4 * z, 4, (zoneOf s (8 + z)).level)))
  else if a = 0x7014 then packWord [(0, 16, bitsWhere 16 (fun z => (zoneOf s z).clamp))]
  else if a = 0x7020 then BitVec.ofNat 32 ((eventOf s .zone).about % 16)
  else if a = 0x7028 then snapStat n
  else if 0x702C ≤ a && a < 0x7064 then snapWord n ((a - 0x702C) / 4)
  else if 0x7140 ≤ a && a < 0x7140 + 8 * s.build.classes && a % 8 = 4 then
    let c := classOf s ((a - 0x7140) / 8)
    packWord [(0, 16, c.cap16), (16, 4, c.capZone), (20, 4, c.capLevel)]
  else if (bellReg s.build a).isSome then bellRead s p a
  else nowSeen s a

/-- The host-wide FLOCK_ registers (R307, R308, R471). -/
def readFlocks (s : State) (a : Nat) : Word :=
  if a = 0x8008 then BitVec.ofNat 32 ((eventOf s .flock).about % 512)
  else if a = 0x800C then s.foTotal
  else if 0x8010 ≤ a && a < 0x8038 then svcWord s ((a - 0x8010) / 4)
  else nowSeen s a

/-- One flock's block (R104 to R106, R300 to R306, R364, R475, R476). -/
def readFlock (s : State) (p : Port) (f off : Nat) : Word :=
  let x := flockOf s f
  let ps := List.range s.build.paths
  if s.build.flocks ≤ f then 0
  else if off = 0x0 then
    packWord [(0, 2, x.sel.toNat), (2, 3, bitsWhere s.build.paths (fun k => (pathOf x k).locked)),
      (5, 3, bitsWhere s.build.paths (pathHealthy s f)), (8, 1, b2n (onLastPath s f)), (16, 8, x.fails.toNat)]
  else if off = 0x4 then packWord (ps.map (fun k => (8 * k, 6, (pathOf x k).m.toNat)))
  else if off = 0x8 then packWord (ps.map (fun k => (10 * k, 10, (pathOf x k).delta.toNat)))
  else if off = 0x10 then flockStatusWord s f
  else if off = 0x14 then packWord ((List.range 16).map (fun k => (2 * k, 2, (regionOf s (16 * f + k)).mux.toNat)))
  else if off = 0x18 then bellRead s p (keySpareCfg f)
  else if off = 0x1C then spareWord s f 0
  else if off = 0x20 then spareWord s f 1
  else if off = 0x24 then genWordOf s f .failed
  else if off = 0x28 then genWordOf s f .qualified
  else if off = 0x2C then packWord [(0, 2, x.genStatus.toNat), (8, 8, x.genTag.toNat)]
  else if off = 0x30 then packWord [(0, 16, x.failovers.toNat), (16, 8, x.uncovered.toNat), (24, 8, x.retries.toNat)]
  else if off = 0x34 then x.foLast
  else if off = 0x38 then packWord [(0, 12, intField 12 x.temp), (16, 12, intField 12 x.tempLast)]
  else if off = 0x3C then
    packWord [(0, 16, bitsWhere 16 (fun k => (regionOf s (16 * f + k)).due)),
      (16, 2, bitsWhere s.build.spares (fun j => (genOf s (spareRow s.build f j)).due)),
      (18, 3, bitsWhere s.build.paths (fun k => (pathOf x k).due))]
  else nowSeen s (flockAddr f off)

/-- The TALLY_ block (R331 to R338, R472). -/
def readTally (s : State) (a : Nat) : Word :=
  if a = 0x9004 then tallyOwnWord s
  else if a = 0x9010 then BitVec.ofNat 32 ((eventOf s .tally).about % 4)
  else if 0x9100 ≤ a && a < 0x9500 then
    let x := tallyUnit s ((a - 0x9100) / 0x100)
    let off := a % 0x100
    if off = 0x34 then tallyStatWord s ((a - 0x9100) / 0x100)
    else if off = 0x38 then packWord [(0, 16, x.r1.toNat), (16, 16, x.r2.toNat)]
    else if 0x40 ≤ off && off < 0x60 then tabGet x.res ((off - 0x40) / 4) 0
    else nowSeen s a
  else if 0x9800 ≤ a then tabGet (tallyUnit s ((a - 0x9800) / 0x200)).buf ((a - 0x9800) % 0x200 / 4) 0
  else nowSeen s a

/-- What an SC register reads: its copy of the last slow-clock edge (R12, R449). -/
def scRead (s : State) (k : Nat) : Word := s.out.sc.getD k 0

/-- CAL_TEMP_AO (R363). -/
def calTempAoWord (s : State) : Word := packWord [(0, 12, intField 12 s.cal.tempAo), (16, 12, intField 12 s.cal.tempAoLast)]

/-- The CAL_ block (R360 to R365, R471). -/
def readCal (s : State) (p : Port) (a : Nat) : Word :=
  let c := s.cal
  if a = 0xA000 then bellRead s p a
  else if a = 0xA008 then
    packWord [(0, 13, ((List.range s.build.regions).filter (fun r => (regionOf s r).due)).length), (13, 1, b2n c.restorePend),
      (14, 1, b2n (calHeld s)), (15, 1, b2n c.factory), (16, 8, c.tag.toNat), (24, 3, c.rej.toNat)]
  else if a = 0xA00C then packWord [(0, 17, c.latest)]
  else if a = 0xA010 then scRead s 6
  else if a = 0xA014 then packWord [(0, 16, c.cntSlot.toNat), (16, 16, c.cntBell.toNat)]
  else if a = 0xA018 then packWord [(0, 16, c.cntRej.toNat), (16, 16, c.cntSkip.toNat)]
  else if a = 0xA024 then BitVec.ofNat 32 ((eventOf s .cal).about % 512)
  else nowSeen s a

/-- The MUS_ block (R392 to R399, R473). -/
def readMus (s : State) (a : Nat) : Word :=
  let m := s.mus
  if a = 0xB008 then BitVec.ofNat 32 (intField 32 m.ppsErr)
  else if a = 0xB00C then scRead s 3
  else if a = 0xB014 then scRead s 4
  else if a = 0xB01C then scRead s 5
  else if a = 0xB020 then BitVec.ofNat 32 (intField 32 m.lastTheta)
  else if a = 0xB024 then musFreqWord s
  else if a = 0xB028 then musRootWord s
  else if a = 0xB02C then musWorstWord s
  else if a = 0xB038 then nowSeen s a ||| packWord [(8, 1, b2n m.todArmed)]
  else if a = 0xB03C then packWord [(0, 16, m.discard.toNat), (16, 16, m.downs.toNat)]
  else if a = 0xB048 then BitVec.ofNat 32 ((eventOf s .mus).about % 2)
  else nowSeen s a

/-- The state code of the core (R429). -/
def coreCode : CoreState → Nat
  | .held => 0
  | .running => 1
  | .halted => 2
  | .restarting => 3

/-- SHEP_IMG0 and SHEP_IMG1: the header of a bank that is SEALED or ACTIVE (R404, R435). -/
def imgWord (s : State) (b : BitVec 1) : Word :=
  if (swBank s b).st = .sealed || (swBank s b).st = .active then
    packWord [(0, 8, imgField s b 9 1), (8, 8, imgField s b 8 1), (16, 16, imgField s b 10 2)]
  else 0

/-- The SHEP_ block (R429 to R436, R473). -/
def readShep (s : State) (a : Nat) : Word :=
  let x := s.shep
  if a = 0xC000 then
    let (mi, ma) := match x.active with
      | some b => (imgField s b 9 1, imgField s b 8 1)
      | none => (0, 0)
    packWord [(0, 3, coreCode x.state), (3, 2, bankPlus x.active), (5, 3, x.boot.toNat), (8, 8, mi), (16, 8, ma),
      (24, 8, x.restarts.toNat)]
  else if a = 0xC004 then x.prev
  else if a = 0xC00C then packWord [(0, 4, x.haltCause.toNat), (8, 8, x.haltCount.toNat)]
  else if a = 0xC010 then x.haltPc
  else if a = 0xC014 then x.haltVal
  else if a = 0xC020 then packWord [(0, 16, x.eccInsn.toNat), (16, 16, x.eccData.toNat)]
  else if a = 0xC028 then
    packWord [(0, 3, bankCode x.b0.st), (3, 3, bankCode x.b1.st), (6, 1, b2n x.swap.isSome), (7, 1, b2n x.committed.isSome),
      (8, 4, x.sealRes.toNat), (16, 8, x.cmdTag.toNat), (24, 3, x.rej.toNat)]
  else if a = 0xC02C then packWord [(0, 13, x.b0.wcount)]
  else if a = 0xC030 then packWord [(0, 13, x.b1.wcount)]
  else if a = 0xC034 then imgWord s 0
  else if a = 0xC038 then imgWord s 1
  else nowSeen s a

/-- The state code of a mailbox slot (R417, R437). -/
def slotCode : SlotSt → Nat
  | .idle => 0
  | .posted => 1
  | .taken => 2

/-- The mailboxes that a port reads: those of R418's table; board management reads every register (R418, R459, R474). -/
def mbxReads (p : Port) (m : Nat) : Bool :=
  match p with
  | .host => m ≠ 1
  | .bm => true
  | .shep => true

/-- A word of mailbox m that its client writes, by the last write that the mailbox takes, performed or not (R12, R417,
R418). -/
def mbxSeen (s : State) (m a : Nat) (mask live : Word) : Word :=
  let w := s.out.waiting.filter (fun e => decide (e.addr = a) && mbxClient e.w.port m)
  if (mbox s m).slot = .idle && (m ≠ 2 || s.crook.armed) then
    match w.getLast? with
    | some e => e.word &&& mask
    | none => live
  else live

/-- The MBX_ block (R437 to R439, R474). -/
def readMbx (s : State) (p : Port) (a : Nat) : Word :=
  let m := (a - 0xD000) / 0x100
  if a < 0xD300 && !mbxReads p m then 0
  else if a < 0xD300 then
    let x := mbox s m
    let off := a % 0x100
    if off = 0 then packWord [(2, 2, slotCode x.slot), (4, 1, b2n (x.slot ≠ .idle))]
    else if off = 4 then mbxSeen s m a 0xFFFF x.cmd
    else if off = 8 then packWord [(0, 8, x.status.toNat), (8, 8, x.tag.toNat), (16, 16, x.doneCount.toNat)]
    else if 0x10 ≤ off && off < 0x30 then mbxSeen s m a 0xFFFFFFFF (tabGet x.args ((off - 0x10) / 4) 0)
    else if 0x30 ≤ off && off < 0x50 then tabGet x.res ((off - 0x30) / 4) 0
    else 0
  else nowSeen s a

/-- The CRK_ block (R309, R474). -/
def readCrk (s : State) (a : Nat) : Word :=
  if a = 0xE008 then packWord [(0, 1, b2n s.crook.armed), (8, 8, s.crook.tag.toNat), (16, 4, s.crook.rej.toNat)]
  else nowSeen s a

/-- LC_STATUS, LC_SUPPLY and LC_PANEL as the always-on domain holds them (R480, R482, R483). -/
def lcStatusWord (s : State) : Word :=
  let l := s.lc
  packWord [(0, 2, l.state.toNat), (2, 1, b2n l.erasing), (4, 4, l.fuses.keyProg.toNat), (8, 4, l.fuses.keyRevoked.toNat),
    (16, 8, l.cmdTag.toNat), (24, 4, l.rej.toNat)]
def lcSupplyWord (s : State) : Word :=
  packWord [(0, 1, b2n s.lc.mainOk), (1, 1, b2n s.lc.backupOk), (2, 1, b2n s.lc.onBackup), (8, 8, s.lc.switches.toNat)]
def lcPanelWord (s : State) : Word :=
  packWord [(0, 1, b2n s.lc.button), (1, 1, b2n s.lc.longPress), (4, 3, s.lc.led.toNat), (8, 1, b2n s.mus.p0.cable),
    (9, 1, b2n s.mus.p1.cable)]

/-- The always-on values that a slow-clock edge copies into the SC registers (R12, R449). -/
def scWords (s : State) : List Word :=
  [lcStatusWord s, lcSupplyWord s, lcPanelWord s, musPortWord s.mus.p0, musPortWord s.mus.p1, musStatusWord s, calTempAoWord s]

/-- The LC_ block (R474, R480 to R484). -/
def readLc (s : State) (a : Nat) : Word :=
  if a = 0xF000 then scRead s 0
  else if a = 0xF008 then scRead s 1
  else if a = 0xF00C then scRead s 2
  else nowSeen s a

/-- A register of the window by its block (R463); the reserved and the vendor ranges hold none (R440). -/
def readBlock (s : State) (p : Port) (a : Nat) : Word :=
  match eventBlock a with
  | some b => eventWord s b
  | none =>
    if a < 0x1000 then readCfg s p a
    else if a < 0x2000 then readBell s p a
    else if a < 0x3000 then readRoot s p a
    else if a < 0x4000 then readFold s p a
    else if a < 0x5000 then readRcg s p a
    else if a < 0x6000 then readXing s p a
    else if a < 0x7000 then readFcst s p a
    else if a < 0x8000 then readZone s p a
    else if a < 0x9000 then readFlocks s a
    else if a < 0xA000 then readTally s a
    else if a < 0xB000 then readCal s p a
    else if a < 0xC000 then readMus s a
    else if a < 0xD000 then readShep s a
    else if a < 0xE000 then readMbx s p a
    else if a < 0xF000 then readCrk s a
    else if a < 0x10000 then readLc s a
    else if a < 0x15000 then readFlock s p ((a - 0x10000) / 64) (a % 64)
    else 0

/-- What a port reads at an address (R440, R441, R458, R512): aligned; 0 for a block that is in reset, and for
a denied read. -/
def regRead (s : State) (p : Port) (addr : Nat) : Word :=
  let a := addr - addr % 4
  if !reachable s a || vendorClosed s a then 0 else readBlock s p a

end Sys2Proof.Machine
end

