-- ==== Sys2Proof/Machine/Bus.lean ====
section
/-!
DEFINITION. The register bus: what a write at any address of the control-port window does (R12 to R15, R440 to
R445, R463 to R476), CFG_CTRL (R443, R460), the event registers (R444, R445), and the board-management
transactions (R514, R515).
-/
namespace Sys2Proof.Machine
open Sys2Proof

/-- A write of CFG_CTRL: the bits that the mask selects (R443, R460); board management writes its VIEW only (R459).  Setting
REF_VALID lets the restore engine act again (R457). -/
def writeCfgCtrl (w : Wr) (v : Word) (s : State) : State :=
  let sel := fun k => bitAt v (16 + k)
  let bit := fun k old => if sel k then bitAt v k else old
  let c := s.cfg
  let s := match w.port with
    | .host => { s with cfg := { c with viewHost := bit 3 c.viewHost } }
    | .bm => { s with cfg := { c with viewBm := bit 3 c.viewBm } }
    | .shep => { s with cfg := { c with viewShep := bit 3 c.viewShep } }
  if w.port = .bm then (if sel 0 || sel 1 || sel 2 then deny .bm s else s)
  else
    { s with cfg := { s.cfg with
        checkEn := bit 0 c.checkEn, refValid := bit 1 c.refValid, restoreEn := bit 2 c.restoreEn,
        restoredOnce := c.restoredOnce && !(sel 1 && bitAt v 1) } }

/-- CFG_CTRL_WRITE (R443, R460). -/
def execCfgCtrlWrite (w : Wr) (v : Word) (s : State) : Host.Outcome State Fault Refusal :=
  .next (regWrite w 0x10 v [] (writeCfgCtrl w v) s)

/-- EVENT_CLEAR (R445). -/
def execEventClear (w : Wr) (blk : Block) (v : Word) (s : State) : Host.Outcome State Fault Refusal :=
  .next (regWrite w (eventAddr blk) v [] (unlessClearWaits w (eventAddr blk) v [] (clearEvents blk v)) s)

/-- A write of a word of a mailbox (R417, R418, R437, R438). -/
def writeMbox (w : Wr) (m off : Nat) (v : Word) (s : State) : State :=
  if off = 0 then mbxWrite w m (writeMbxCtrl m v) s
  else if off = 4 then mbxWrite w m (whileIdle m (fun s => setMbox m { mbox s m with cmd := v &&& 0xFFFF } s)) s
  else if 0x10 ≤ off && off < 0x30 then
    mbxWrite w m (whileIdle m (fun s =>
      setMbox m { mbox s m with args := tabSet (mbox s m).args ((off - 0x10) / 4) v 0 } s)) s
  else if off = 8 || (0x30 ≤ off && off < 0x50) then mbxWrite w m id s
  else s

/-- A write of a Tally unit's register: its owner's only (R327); the calibration of an ARM written so is read by
TALLY_CAL_REFRESH.  A read-only word ignores it, and denies it to a board management that does not own the unit (R459). -/
def writeTallyUnit (w : Wr) (u off : Nat) (v : Word) (s : State) : State :=
  if off = 0x30 then writeTallyCmd w.port u v none s
  else if off < 0x30 then
    (if (tallyUnit s u).owner = ownerOf w.port then nowPut (tallyAddr u off) v s else notOwner w.port u s)
  else if w.port = .bm && (tallyUnit s u).owner ≠ .bm then deny .bm s
  else s

/-- A write of one word of a flock's block (R94, R106, R302, R305, R475, R476). -/
def writeFlockWord (f off : Nat) (v : Word) (s : State) : State :=
  if s.build.flocks ≤ f then s
  else if off = 0xC then writeMeshCtrl f v s
  else if off = 0x18 then bellPut (keySpareCfg f) v s
  else if off = 0x2C then writeGenCtrl f v s
  else s

/-- A write of the ballast table entry that a ZONE_BTAB_SEL word names (R271). -/
def writeZoneBtab (sel : Word) (v : Word) (s : State) : State :=
  match btabKey sel with
  | some k => bellPut k v s
  | none => s

/-- A write of SHEP_ASSERT: the core halts at an address that the write does not carry (R411, R432). -/
def writeAssert (v : Word) (s : State) : State :=
  let (pc, s) := takeFreeWord s
  haltCore .assertion pc (v &&& 0xFFFF) s

/-- A write of SHEP_KICK (R414, R432). -/
def writeKick (v : Word) (s : State) : State :=
  if s.shep.state = .running && bitAt v 0 then { s with shep := { s.shep with wdogCount := 0, wdogOut := false } } else s

/-- A register of the host-wide blocks that acts on a write, by its address; none where a write only stores
fields.  RCG_CFG and ZONE_BTAB_DATA reach what the port's last select names in s (R442, R453). -/
def actingWrite (s : State) (w : Wr) (a : Nat) (v : Word) : Option (State → State) :=
  let p := w.port
  if a = 0x10 then some (writeCfgCtrl w v)
  else if a = 0x1000 then some (writeBellSnap p v)
  else if a = 0x1018 then some (writeBellLoad v)
  else if a = 0x2000 then some (writeRootCtrl v)
  else if a = 0x200C then some (writeDivApply v)
  else if a = 0x201C then some (nowPut (portKey p a) v)
  else if a = 0x2020 then some (writeRootBtab p v)
  else if a = 0x2024 then some (writeRootMeas p v)
  else if a = 0x2034 then some (writeRootAge v)
  else if a = 0x3004 then some (writeFoldTether v)
  else if a = 0x3010 then some (writeFoldCtrl v)
  else if a = 0x3020 then some (writeFoldExclude v)
  else if a = 0x3028 then some (writeFoldStatReq p v)
  else if a = 0x3050 then some (writeFoldLogSel p v)
  else if a = 0x4000 then some (writeRcgSel p v)
  else if a = 0x400C then some (writeRcgCfg (selRegion s p) v)
  else if a = 0x404C then some (writeRcgBmeas v)
  else if a = 0x5000 then some (writeXingSel p v)
  else if a = 0x501C then some (writeXingCfg v)
  else if a = 0x5030 then some (writeXingAudit v)
  else if a = 0x6000 then some (writeFcstCfg v)
  else if a = 0x6004 then some (writeFcstCtrl v)
  else if a = 0x602C then some (writeFcstStatReq p v)
  else if a = 0x7004 then some (nowPut (portKey p a) v)
  else if a = 0x7008 then some (writeZoneBtab (btabSel s p) v)
  else if a = 0x7024 then some (writeZoneStatReq p v)
  else if a = 0x9000 then some (fun s => evalClaims (writeTallyClaim w v s))
  else if 0x9100 ≤ a && a < 0x9500 then some (writeTallyUnit w ((a - 0x9100) / 0x100) (a % 0x100) v)
  else if a = 0xA004 then some (writeCalCtrl v)
  else if a = 0xB038 then some (writeTodCtrl v)
  else if a = 0xC018 then some (if p = .shep then writeAssert v else id)
  else if a = 0xC01C then some (if p = .shep then writeKick v else id)
  else if a = 0xC024 then some (writeShepBankCtrl v)
  else if 0xD000 ≤ a && a < 0xD300 then some (writeMbox w ((a - 0xD000) / 0x100) (a % 0x100) v)
  else if a = 0xE000 then some (writeCrkArm v)
  else if a = 0xE004 then some (writeCrkCmd w v)
  else if a = 0xF004 then some (writeLcCtrl v)
  else if 0x10000 ≤ a && a < 0x15000 then some (writeFlockWord ((a - 0x10000) / 64) (a % 64) v)
  else none

/-- What a write performs at an address (R12 to R14, R440, R445, R465 to R476): an acting register, an event
register, a bell-class register, a plain "now" register, or nothing. -/
def writeEffect (w : Wr) (a : Nat) (v : Word) (s : State) : State :=
  match actingWrite s w a v with
  | some f => f s
  | none =>
    match eventBlock a with
    | some b => clearEvents b v s
    | none =>
      if 0x15000 ≤ a then s
      else if (bellReg s.build a).isSome then bellPut a v s
      else nowPut a v s

/-- What a write carries beside its word: at RCG_CFG the region that it reaches (R453). -/
def writeExt (s : State) (w : Wr) (a : Nat) : List Nat := if a = 0x400C then [selRegion s w.port] else []

/-- A register write at any address of the window: aligned, and then as every register write (R440). -/
def busWrite (w : Wr) (addr : Nat) (v : Word) (s : State) : State :=
  let a := addr - addr % 4
  regWrite w a v (writeExt s w a) (unlessClearWaits w a v (writeExt s w a) (writeEffect w a v)) s

/-- REG_WRITE (R12 to R15, R440 to R443, R458, R459). -/
def execRegWrite (w : Wr) (addr : BitVec 20) (v : Word) (s : State) : Host.Outcome State Fault Refusal :=
  .next (busWrite w addr.toNat v s)

/-! ### The writes of a slow-clock edge -/

/-- What a waiting write performs that meets its checks, with what its command carries beside the word: the readings of an ARM's
first calibration, or the steps of an ageing transfer.  Claims are evaluated once, after every write (R328). -/
def waitMeaning (e : WaitWr) (s : State) : State :=
  if 0x9100 ≤ e.addr && e.addr < 0x9500 && e.addr % 0x100 = 0x30 then
    writeTallyCmd e.w.port ((e.addr - 0x9100) / 0x100) e.word (calOfExt e.ext) s
  else if e.addr = 0x9000 then writeTallyClaim e.w e.word s
  else if e.addr = 0x400C then writeRcgCfg (e.ext.getD 0 0) e.word s
  else if e.addr = 0x2034 && !e.ext.isEmpty then stepRootAge ((e.ext.getD 0 0 : Int) - (e.ext.getD 1 0 : Int)) (e.ext.getD 2 0 = 1) s
  else writeEffect e.w e.addr e.word s

/-- What a waiting write performs: one that waited behind a withheld write of its port meets its checks now (R440, R458, R511). -/
def waitEffect (e : WaitWr) (s : State) : State :=
  if e.w.strb ≠ 15 then raise .cfg 5 s
  else if writeDenied s e.w.port e.addr then deny e.w.port s
  else waitMeaning e s

/-- The snapshots and loads that wait for a tick edge or bypass edge are taken (R15, R77). -/
def takeCaptures (s : State) : State :=
  s.out.captures.foldl (fun t e => waitEffect e t) { s with out := { s.out with captures := [] } }

/-- The waiting writes at a slow-clock edge: each takes effect in its order, stalls or is retried, or is dropped, with
BM_LOST for one of board management's; a snapshot or a load of the counter waits on for a tick edge or bypass edge where none
falls here (R15, R77, R297, R418, R442, R443, R511). -/
def performWaiting (s : State) : State :=
  let q := ((waitMarks s).filter (fun m => !m.2)).map Prod.fst
  let stalled := ((waitMarks s).filter Prod.snd).map Prod.fst
  let (now, again, lost) := sortWaiting q false q
  let early := now.filter (fun e => !edgeBound e.addr || edgesRun s)
  let caps := now.filter (fun e => !(!edgeBound e.addr || edgesRun s))
  let s := raiseIf lost .cfg 6 { s with out := { s.out with
    waiting := again ++ stalled, captures := s.out.captures ++ caps, took := !now.isEmpty } }
  (edgeOrder early).foldl (fun t e => waitEffect (withRival q e) t) s

/-- A slow-clock edge: the waiting writes, and then the loads that an ms_pps_in edge or a HELLO has asked for; a BELL_LOAD
of the same period is taken instead, and the time-of-day load waits for the next edge of ms_pps_in (R77, R387, R388, R391). -/
def performAll (s : State) : State :=
  let t := performWaiting s
  if !edgesRun t then t
  else if t.time.loadAt = some (elapsed t) then
    { t with mus := { t.mus with todArmed := t.mus.todArmed || t.mus.todLoad.isSome, todLoad := none, joinTicks := none } }
  else requestedLoad t

/-! ### Board management -/

/-- The words of a write transaction, in order; 1 to 3 trailing bytes are a partial word (R440, R515). -/
def i2cWords (off : Nat) (bytes : List (BitVec 8)) (s : State) : State :=
  match bytes with
  | a :: b :: c :: d :: rest =>
    i2cWords ((off + 4) % 2 ^ 20) rest (busWrite ⟨.bm, 15, none⟩ off (wordOfBytes [a, b, c, d]) s)
  | [] => s
  | _ => busWrite ⟨.bm, 7, none⟩ off 0 s

/-- A read at a port: the word it returns, 0 where the life-cycle state denies it, and what it leaves: a denial raises ACCESS_DENY
and records the port, with SLVERR on the control port; any other read changes nothing but that answer (R441, R458, R461, R511). -/
def busRead (p : Port) (off : Nat) (s : State) : Word × State :=
  let a := off - off % 4
  (regRead s p off,
   if reachable s a && vendorClosed s a then deny p s
   else if p = .host then { s with out := { s.out with resp := .okay } } else s)

/-- The words of a read transaction, each a read of its own (R458, R515). -/
def i2cReads (off : Nat) (n : Nat) (s : State) : State :=
  match n with
  | 0 => s
  | n + 1 =>
    let (v, s) := busRead .bm off s
    i2cReads ((off + 4) % 2 ^ 20) n { s with out := { s.out with i2c := s.out.i2c ++ leBytes 4 v.toNat } }

/-- The target address of a transaction, and its offset. -/
def i2cTarget : I2c → BitVec 7
  | .write t _ _ => t
  | .read t _ _ => t
def i2cOffset : I2c → BitVec 24
  | .write _ o _ => o
  | .read _ o _ => o

/-- The port's own address: 0b101_10xx, the low bits bm_addr as sampled at cold reset (R514). -/
def bmTarget (s : State) : BitVec 7 := 0x58#7 + s.lc.bmAddr.setWidth 7

/-- I2C_TRANSACTION (R514, R515): one to another address is no business of the port; an OFF2 whose bits 7:4 are not 0 is answered with
NACK and the rest ignored. -/
def execI2cTransaction (t : I2c) (s : State) : Host.Outcome State Fault Refusal :=
  if i2cTarget t ≠ bmTarget s then .next s
  else
    let s := { s with out := { s.out with i2c := [], nack := decide (2 ^ 20 ≤ (i2cOffset t).toNat) } }
    if 2 ^ 20 ≤ (i2cOffset t).toNat then .next s
    else
      match t with
      | .write _ o bytes => .next (i2cWords o.toNat bytes s)
      | .read _ o words => .next (i2cReads o.toNat words s)

/-- SCL_TIMEOUT (R515): the target's transaction state is reset and bm_sda released. -/
def execSclTimeout (s : State) : Host.Outcome State Fault Refusal :=
  .next { s with out := { s.out with i2c := [], nack := false } }

end Sys2Proof.Machine
end

