-- ==== Sys2Proof/Machine/DataPort.lean ====
section
/-!
DEFINITION. The data port (R485 to R490, R513): the windows, how each answers a write beat, and what a
read of a byte returns.
-/
namespace Sys2Proof.Machine
open Sys2Proof

/-- The windows of R485. -/
inductive Win where
  | fcst
  | band
  | pin
  | manifest
  | image
  | firmware
  | reserved
  deriving DecidableEq, Repr

/-- The window into which an offset falls (R485). -/
def winOf (a : Nat) : Win :=
  if a < 0x400080 then .fcst
  else if 0x800000 ≤ a && a < 0x8B4000 then .band
  else if 0x900000 ≤ a && a < 0x906000 then .pin
  else if 0xA00000 ≤ a && a < 0xA60040 then .manifest
  else if imageBase ≤ a && a < imageBase + imageSize then .image
  else if 0xC00000 ≤ a && a < 0xC40000 then .firmware
  else .reserved

/-- A beat starts at a multiple of its 32 bytes (R489, R513). -/
def aligned (b : Beat) : Beat := { b with addr := b.addr &&& ~~~(31 : BitVec 24) }

/-- A byte lane of a band-table row holds fields: words 0 to 23, and in each the fields F_MIN, SPAN and
VALID of R152; the mask of its implemented bits. -/
def bandMask (a : Nat) : BitVec 8 :=
  if 96 ≤ a % 128 then 0 else if a % 4 = 2 then 0x7F else if a % 4 = 3 then 0x80 else 0xFF

/-- The byte lanes of a beat at `a` that fall on an entry of row g which a measurement has written in this tick (R490). -/
def measuredLane (s : State) (g a k : Nat) : Bool :=
  let x := genOf s g
  let b := (a % 128 + k) / 4
  x.rowWroteAt = some (elapsed s) && decide (x.rowWrote.1 ≤ b) && decide (b < x.rowWrote.2)

/-- The strobes of a beat in row g that take effect: a measurement's write of the same word in the same tick governs (R490). -/
def bandStrb (s : State) (g a strb : Nat) : Nat := bitsWhere 32 (fun k => strb.testBit k && !measuredLane s g a k)

/-- A beat in the band table: stored, but on a word that a measurement has written in the same tick, and its row's ROW_OK cleared;
a row the build lacks ignores it (R152 to R154, R485, R487, R490). -/
def bandBeat (b : Beat) (s : State) : State :=
  let a := b.addr.toNat
  let g := (a - 0x800000) / 128
  if isGen s g && b.strb ≠ 0 then
    let bs := ((List.range 32).zip (beatBytes b)).map (fun p => p.2 &&& bandMask (a + p.1))
    let x := genOf s g
    let was := if x.rowWas.isNone && s.shep.rowJob.state = 1 then some (rowWords s g) else x.rowWas
    let s := { s with data := memStrobe s.data a (bandStrb s g a b.strb.toNat) bs }
    answer .okay (setGen g { x with rowOk := false, rowWas := was } s)
  else answer .okay s

/-- A beat in the pin table: ignored with PIN_LATE while calibration runs; pins of crossings that the build
lacks are ignored (R203, R213, R485, R487). -/
def pinBeat (b : Beat) (s : State) : State :=
  if s.xing.calRun then answer .okay (raise .xing 5 s)
  else
    let a := b.addr.toNat
    let keep := bitsWhere 32 (fun k => b.strb.toNat.testBit k && decide (a + k - 0x900000 < s.build.xings))
    answer .okay (storeFresh (elapsed s) a keep (beatBytes b) s)

/-- One write beat of an INCR burst (R485, R487, R513). -/
def dpBeat (b : Beat) (s : State) : State :=
  if !s.power.fabUp then answer .slverr s
  else
    let b := aligned b
    match winOf b.addr.toNat with
    | .fcst => fcstBeat b s
    | .band => bandBeat b s
    | .pin => pinBeat b s
    | .manifest => answer .slverr s
    | .image => answer .okay (storeFresh (elapsed s) b.addr.toNat b.strb.toNat (beatBytes b) s)
    | .firmware => fwBeat b s
    | .reserved => answer .okay s

/-- What a data-port read of the byte at an offset returns (R153, R204, R234, R356, R485, R487, R490, R513). -/
def dpRead (s : State) (a : Nat) : BitVec 8 :=
  if !s.power.fabUp then 0
  else
    match winOf a with
    | .fcst => if s.fcst.single && 0x400040 ≤ a then 0 else memGet s.data a
    | .band => memGet s.data a
    | .pin => memGet s.data a
    | .manifest => if s.xing.manifestReady && decide (s.xing.readyAt ≠ some (elapsed s)) then s.xing.manifest.getD (a - 0xA00000) 0 else 0
    | .image =>
      if a < imageBase + 60 || imageBase + 64 ≤ a then imageByte s versionWord.toNat (a - imageBase)
      else (leBytes 4 (imageCrc s versionWord.toNat).toNat).getD (a - imageBase - 60) 0
    | .firmware => memGet s.data a
    | .reserved => 0

/-- BAND_ROW_WRITE (R154, R485, R487, R490). -/
def execBandRowWrite (b : Beat) (s : State) : Host.Outcome State Fault Refusal := .next (dpBeat b s)

/-- PIN_WRITE (R203, R213, R485, R487). -/
def execPinWrite (b : Beat) (s : State) : Host.Outcome State Fault Refusal := .next (dpBeat b s)

/-- FCST_ENTRY_WRITE (R236, R485, R487). -/
def execFcstEntryWrite (b : Beat) (s : State) : Host.Outcome State Fault Refusal := .next (dpBeat b s)

/-- CAL_IMAGE_WRITE (R356, R485, R487). -/
def execCalImageWrite (b : Beat) (s : State) : Host.Outcome State Fault Refusal := .next (dpBeat b s)

/-- FW_DATA_WRITE (R405, R485, R487). -/
def execFwDataWrite (b : Beat) (s : State) : Host.Outcome State Fault Refusal := .next (dpBeat b s)

/-- MANIFEST_WRITE (R485, R487). -/
def execManifestWrite (b : Beat) (s : State) : Host.Outcome State Fault Refusal := .next (dpBeat b s)

/-- One read beat of an INCR burst: SLVERR and 0 while the fabric domain is in reset, else OKAY and the 32 bytes (R485, R487,
R513). -/
def dpReadBeat (s : State) (a : BitVec 24) : Resp × BitVec 256 :=
  (if s.power.fabUp then .okay else .slverr,
   BitVec.ofNat 256 (leNat ((List.range 32).map (fun k => dpRead s (a.toNat / 32 * 32 + k)))))

/-- BAD_BURST (R486): every beat of a FIXED or WRAP burst is answered with SLVERR; nothing is written, and a read returns 0. -/
def execBadBurst (write : Bool) (beats : Nat) (s : State) : Host.Outcome State Fault Refusal :=
  .next { s with out := { s.out with beats := List.replicate beats .slverr, rdata := if write then [] else List.replicate beats 0 } }

end Sys2Proof.Machine
end

