-- ==== Sys2Proof/Machine/Power.lean ====
section
/-!
DEFINITION. Supplies and resets (R491 to R503, R507, R508): the switch between the always-on supplies, the
cold and the warm reset, the loss and the return of the fabric supply, and the erasure on entry to RETURN.
-/
namespace Sys2Proof.Machine
open Sys2Proof

/-! ### The always-on supplies -/

/-- A switch-over counts in SWITCHES, saturating (R482, R491). -/
def countSwitch (s : State) : State :=
  { s with lc := { s.lc with switches := if s.lc.switches = 255 then 255 else s.lc.switches + 1 } }

/-- ON_BACKUP (R491, R492): the main supply falls below 0.70 V; with BACKUP_OK set the island switches. -/
def execOnBackup (s : State) : Host.Outcome State Fault Refusal :=
  if s.lc.por then .next s
  else
    let s := { s with lc := { s.lc with mainOk := false } }
    if s.lc.backupOk && !s.lc.onBackup then .next (raise .lc 0 (countSwitch { s with lc := { s.lc with onBackup := true } }))
    else .next s

/-- ON_MAIN (R491): MAIN_OK has held for 65,536 slow-clock periods. -/
def execOnMain (s : State) : Host.Outcome State Fault Refusal :=
  if s.lc.onBackup && s.lc.mainOk && decide (s.lc.mainFrom + 65536 ≤ s.time.slowEdges) then
    .next (raise .lc 1 (countSwitch { s with lc := { s.lc with onBackup := false } }))
  else .next s

/-- BACKUP_FAIL (R492): BACKUP_OK clears. -/
def execBackupFail (s : State) : Host.Outcome State Fault Refusal :=
  if s.lc.backupOk then .next (raise .lc 2 { s with lc := { s.lc with backupOk := false } }) else .next s

/-- SUPPLY_OK_CHANGE (R491, R492): a supply crosses 0.71 V; the switch-back count starts again when MAIN_OK
sets. -/
def execSupplyOkChange (mainOk backupOk : Bool) (s : State) : Host.Outcome State Fault Refusal :=
  if s.lc.por then .next s
  else
    let fails := s.lc.backupOk && !backupOk
    let s := { s with lc := { s.lc with
      mainFrom := if mainOk && !s.lc.mainOk then s.time.slowEdges else s.lc.mainFrom, mainOk := mainOk, backupOk := backupOk } }
    .next (if fails then raise .lc 2 s else s)

/-! ### The cold reset -/

/-- The root band table of a synthesizer as fused (R41, R498). -/
def fusedTable (fu : Fuses) (y : Nat) : Tab Word := tabulate 16 0 (fun b => tabGet fu.rootBand (16 * y + b) 0 &&& rootEntryMask)

/-- The retention RAM after a cold reset: the directory cleared and the root band tables as fused (R498, R500). -/
def coldRet (fu : Fuses) (m : Mem) : Mem :=
  memWrite (memClear m 0 64) 0x40 ((List.range 32).flatMap (fun k => leBytes 4 (tabGet fu.rootBand k 0 &&& rootEntryMask).toNat))

/-- The crossings' depths as sampled from their tie-offs (R202, R521). -/
def sampledXings (b : Build) (hook : Tab Hook) : Tab Xing :=
  (hook.filter (fun e => e.2.depth ≠ 0 && decide (e.1 < b.xings))).map (fun e => (e.1, { depth := e.2.depth }))

/-- The state after a cold reset: fuses and straps are sensed, and every register takes its reset value (R76,
R402, R493, R496, R501, R508).  The retention RAM stands as `ret` gives it. -/
def coldState (ret : Mem) (s : State) : State :=
  let fu := s.lc.fuses
  let t : State := {
    pending := s.pending, build := s.build, straps := s.straps, hook := s.hook, freeCtr := s.freeCtr,
    root := { xtalSel := s.straps.xtalSel,
              s0 := { table := fusedTable fu 0, refMode := BitVec.ofNat 2 (refModeReset s.straps.xtalSel.toNat) },
              s1 := { table := fusedTable fu 1, refMode := BitVec.ofNat 2 (refModeReset s.straps.xtalSel.toNat) } },
    xing := { tab := sampledXings s.build s.hook },
    lc := { fuses := fu, state := fu.state, access := fu.state, erasing := fu.state = 3 && !fu.erased, bmAddr := s.straps.bmAddr },
    power := { pgood := s.power.pgood },
    ret := coldRet fu ret }
  { t with out := { sc := scWords t } }

/-- COLD_RESET (R493, R501): ao_cold_rst_n has been held low and is released. -/
def execColdReset (s : State) : Host.Outcome State Fault Refusal :=
  .next (if s.lc.por then s else coldState s.ret s)

/-- POWER_ON_RESET (R492): both supplies are lost, and with them the count, the retention RAM and every
register. -/
def execPowerOnReset (s : State) : Host.Outcome State Fault Refusal :=
  let t := coldState [] s
  .next { t with ret := [], lc := { t.lc with por := true } }

/-- POWER_ON_RESET_RELEASE (R492, R501): a supply has returned, and the island starts with a cold reset. -/
def execPowerOnResetRelease (s : State) : Host.Outcome State Fault Refusal :=
  .next (if s.lc.por then coldState [] s else s)

/-! ### The warm reset and the fabric supply -/

/-- A register key of the blocks that a warm reset keeps: BELL_, ROOT_, MUS_ and LC_ (R494). -/
def keptKey (k : Nat) : Bool := islandAddr (k % 0x1000000)

/-- An event register that a warm reset keeps (R494). -/
def keptBlock (b : Nat) : Bool := b = 1 || b = 2 || b = 11 || b = 14

/-- What the ports hold through a reset of the fabric domain: the island's own waiting writes and captures, the SC copies, and a
board-management transaction, which completes (R494, R512, R531). -/
def islandOut (o : OutSt) : OutSt :=
  { waiting := o.waiting.filter (fun e => islandAddr e.addr), captures := o.captures.filter (fun e => islandAddr e.addr),
    seen := o.seen.filter (fun e => keptBlock e.1), sc := o.sc.set 6 0, i2c := o.i2c, nack := o.nack }

/-- The crossings as a reset of the fabric domain leaves them: the depths sampled at the last cold reset (R202, R531). -/
def depthsOnly (t : Tab Xing) : Tab Xing :=
  t.filterMap (fun e => if e.2.depth = 0 then none else some (e.1, { depth := e.2.depth }))

/-- What lies in the island and stays through every reset of the fabric domain; everything else at its reset
value, with the crossing depths as sampled (R494, R496). -/
def islandOnly (s : State) : State :=
  { pending := s.pending, build := s.build, straps := s.straps, hook := s.hook, freeCtr := s.freeCtr,
    nowR := s.nowR.filter (fun e => keptKey e.1),
    root := { s.root with
      s0 := { s.root.s0 with due := false, rejected := false, pumpCal := false },
      s1 := { s.root.s1 with due := false, rejected := false, pumpCal := false } },
    time := s.time,
    snaps := s.snaps.filter (fun e => decide (e.1 < 4)),
    mus := s.mus,
    events := s.events.filter (fun e => keptBlock e.1),
    lc := s.lc,
    ret := s.ret,
    xing := { tab := depthsOnly s.xing.tab },
    cal := { bandgap := s.cal.bandgap, bandgapAt := s.cal.bandgapAt, pumpAt := s.cal.pumpAt, bandgapTarget := s.cal.bandgapTarget },
    out := islandOut s.out,
    power := { pgood := s.power.pgood } }

/-- A mesh path through a warm reset: its lock, m, δ, replica and taps stay, a calibration ends (R494). -/
def warmPath (m : MeshPath) : MeshPath := { m with calOut := false, due := false, rejected := false, calFrom := 0, tapsOld := none }

/-- A flock through a warm reset (R294, R494). -/
def warmFlock (x : Flock) : Flock :=
  { p0 := warmPath x.p0, p1 := warmPath x.p1, p2 := warmPath x.p2, sel := x.sel, noClock := x.noClock, fails := x.fails,
    lastPath := x.lastPath,
    genStatus := if x.retest.isSome && x.reportsRetest then 2 else x.genStatus, genTag := x.genTag,
    failovers := x.failovers, uncovered := x.uncovered, retries := x.retries, foLast := x.foLast }

/-- The state of a generator through a warm reset: the FREE, FAILED and QUALIFIED states and a spare's service stay, under
measurement the last two; one whose row was never verified stays as it is (R155); any other spare locks anew, also one measured while FREE
(R157), and an own generator starts anew with its
region (R494). -/
def warmSt (b : Build) (g : Nat) (x : Gen) : GenSt :=
  let was := if x.st = .measuring then
      (if x.measFrom = some .failed then .failed else if x.measFrom = some .qualified then .qualified
       else if x.measFrom = some .absent then .absent else .locking)
    else x.st
  if was = .free || was = .failed || was = .qualified || (was = .serving && b.regions ≤ g) then was
  else if b.regions ≤ g && was ≠ .absent then .locking else .absent

/-- A generator through a warm reset: its row, verified copy, band, calibration values and redundancy state stay (R494). -/
def warmGen (b : Build) (g : Nat) (x : Gen) : Gen :=
  let st := warmSt b g x
  let serves := st = .serving
  { st := st, rowOk := x.rowOk, verified := x.verified, copy := x.copy, cells := x.cells, socks := x.socks,
    band := if st = .absent then none else x.band, div := if serves then x.div else 1,
    plannedDiv := if serves then x.div else 1, slot := if serves then x.slot else 0 }

/-- The core's records that a warm reset keeps (R402, R494). -/
def warmShep (x : ShepSt) : ShepSt :=
  { restarts := x.restarts, haltCause := x.haltCause, haltCount := x.haltCount, haltPc := x.haltPc, haltVal := x.haltVal,
    edges := x.edges, haltAt := x.haltAt, eccInsn := x.eccInsn, eccData := x.eccData, b0 := x.b0, b1 := x.b1, active := x.active, boot := x.boot }

/-- The fabric domain in its warm reset: of a BELL_ snapshot TAG and BYPASS stay, and an LC_CTRL write of the period is dropped, unless it
is still withheld (R442, R448, R494, R509). -/
def warmHeld (s : State) : State :=
  let t := islandOnly s
  { t with
    out := { t.out with waiting := t.out.waiting.filter (fun e => e.addr ≠ 0xF004 || regBusy s e.addr || (stalledPorts s).contains e.w.port) },
    snaps := t.snaps.filterMap (fun e =>
      if e.2.tag = 0 && !e.2.bypass then none else some (e.1, { tag := e.2.tag, bypass := e.2.bypass })),
    flocks := tabulate s.build.flocks {} (fun f => warmFlock (flockOf s f)),
    gens := (allGens s.build).filterMap (fun g => if warmGen s.build g (genOf s g) = {} then none else some (g, warmGen s.build g (genOf s g))),
    regions := tabulate s.build.regions {} (fun r =>
      { mux := match (regionOf s r).switchTo with
               | some g => muxCode s r g
               | none => (regionOf s r).mux }),
    tally := { u0 := { owner := .fw, phases := s.tally.u0.phases }, u1 := { phases := s.tally.u1.phases },
               u2 := { phases := s.tally.u2.phases }, u3 := { phases := s.tally.u3.phases } },
    cal := { t.cal with factory := s.cal.factory, calTick := s.cal.calTick, base := s.cal.base },
    shep := warmShep s.shep,
    data := s.data,
    power := { s.power with fabUp := false, restoreDue := true } }

/-- The release of a warm reset: the restore, the regions, and the core from the active bank with boot cause 3
(R402, R494, R500, R501). -/
def warmRelease (prev : Word) (s : State) : State :=
  let s := fabricLeaves s
  forAll (List.range s.build.flocks) pathBack (startCore 3 prev s)

/-- A warm reset, asserted and released; with the fabric supply off the fabric domain is held in reset as it
is (R493), and so it is while an erasure that a cold start runs is not complete (R508). -/
def warmReset (s : State) : State :=
  if s.power.pgood && !s.lc.por then
    let t := warmHeld s
    if t.power.meshReady && (s.power.fabUp || !s.lc.erasing) then warmRelease (prevWord s) t else t
  else s

/-- WARM_RESET (R493, R494, R500, R501, R503). -/
def execWarmReset (s : State) : Host.Outcome State Fault Refusal := .next (warmReset s)

/-- FAB_POWER_LOSS (R493, R496): ao_fab_pgood deasserts; the fabric domain loses every state. -/
def execFabPowerLoss (s : State) : Host.Outcome State Fault Refusal :=
  if s.lc.por then .next { s with power := { s.power with pgood := false } }
  else
    let t := factoryValues (islandOnly s)
    .next { t with power := { pgood := false, restoreDue := true } }

/-- FAB_POWER_RETURN (R496, R501 step 4): the mesh and the aligners leave reset, once the fabric has returned
from bypass. -/
def execFabPowerReturn (s : State) : Host.Outcome State Fault Refusal :=
  .next { s with power := { s.power with pgood := true, meshUp := s.power.meshUp || (!s.lc.por && !s.root.bypass) } }

/-- HC_ARESET (R512, R531): only the control port's AXI state is reset; its withheld writes are dropped. -/
def execHcAreset (s : State) : Host.Outcome State Fault Refusal :=
  .next { s with
    out := { s.out with resp := .okay, waiting := dropWithheld s .host }, lc := { s.lc with held := [] },
    crook := { s.crook with held := s.crook.held.filter (fun h => decide (h.1 ≠ .host)) },
    root := { s.root with heldMeas := s.root.heldMeas.filter (fun e => decide (e.1 ≠ .host)) } }

/-! ### The erasure -/

/-- What the erasure on entry to RETURN clears (R507). -/
def eraseCustomer (s : State) : State :=
  let s := factoryValues s
  { s with
    data := memClear (memClear s.data 0 0x400080) 0x900000 0x6000,
    fcst := { s.fcst with b0 := {}, b1 := {}, active := none, swap := none, stop := false, committed := false,
                          commitBank := none, commitFlat := false },
    ret := memClear (memClear s.ret 0 64) 0x400 0x3000,
    xing := { s.xing with manifestReady := false, manifest := [] } }

/-- ERASE_DONE (R507, R508): the erasure-complete fuse is blown, ERASING clears, and a warm reset follows; a cold
start that the erasure held goes on from step 5 of R501. -/
def execEraseDone (s : State) : Host.Outcome State Fault Refusal :=
  if s.lc.erasing && !s.lc.por then
    let s := eraseCustomer s
    let s := { s with lc := { s.lc with erasing := false, fuses := { s.lc.fuses with erased := true } } }
    if s.power.fabUp then .next (warmReset s)
    else if s.power.meshReady && s.power.pgood then .next (fabricLeaves s)
    else .next s
  else .next s

end Sys2Proof.Machine
end

