-- ==== Sys2Proof/Machine/Tick.lean ====
section
/-!
DEFINITION. The tick edge and the issued edge: the counter (R56, R76), the broadcast frames (R82), the slow clock
(R35, R62), each region's pace line, lag, floor and tracking state (R112, R115 to R121, R164, R165, R177), and
the output gate (R151, R171, R172, R190 to R198, R227, R255).
-/
namespace Sys2Proof.Machine
open Sys2Proof

/-! ### The pace line -/

/-- The ticks since flock f took the bell: its flock time, less the label of the edge at which it took the bell; below 0
while that edge is on its way (R57, R58, R79, R95). -/
def foldEdge (s : State) (f : Nat) : Int := (flockTime s f : Int) - s.fold.paceStart - (flockOf s f).bellShift

/-- The position of region r's pace line at `frac` / 65,536 of a tick after the last delivered edge, in cycles
times 2^32: t × inc, not rounded, before F − G, and K from there (R115); before the first bell the open line, which
has risen from its release at the increment in force at each tick (R112). -/
def paceAt (s : State) (r frac : Nat) : Nat :=
  let n := classOfRegion s r
  let x := regionOf s r
  if s.fold.started then
    let off := (65536 * foldEdge s (r / 16) + frac).toNat
    if off < 65536 * (s.fold.f - s.fold.g) then off * incNow s n else (classOf s n).kEff * 2 ^ 32
  else 65536 * x.openPace + (65536 * (s.time.total - x.openTo) + frac) * incNow s n

/-- The target lets region r have issued n edges at that instant: the line less the floor of the coming tick edge (R117, R121, R151). -/
def targetReaches (s : State) (r frac n : Nat) : Bool :=
  decide (n * 2 ^ 32 + (regionOf s r).floorNext * 2 ^ 28 ≤ paceAt s r frac)

/-! ### The DCO -/

/-- A tether stop of some crossing withholds region r (R122). -/
def tetherHeld (s : State) (r : Nat) : Bool :=
  (crossingsOf s r).any (fun x =>
    let v := xingOf s x
    v.armed && ((v.stopW && decide ((hookOf s x).writer = r)) || (v.stopR && decide ((hookOf s x).reader = r))))

/-- A tether stop or an interlock stop of some crossing withholds region r (R122, R198). -/
def stopHeld (s : State) (r : Nat) : Bool :=
  (crossingsOf s r).any (fun x =>
    let v := xingOf s x
    v.armed && (((v.stopW || v.room) && decide ((hookOf s x).writer = r)) || ((v.stopR || v.avail) && decide ((hookOf s x).reader = r))))

/-- The ceiling of reel-in in 1/200 MHz under a LEAN, if any: the sprint ceiling, at most 4,000 MHz, the LEAN's, and the nominal
during advise with ADV_CAP or in a clamped zone (R174, R177, R228, R262, R535). -/
def ceilUnder (s : State) (r : Nat) (leanC : Option Nat) : Nat :=
  let n := classOfRegion s r
  let nom := nomOf s n
  let spr := sprint200 nom (sprintOf s n)
  let lean := match leanC with
    | some c => nom * (200 + c)
    | none => spr
  let cap := ((regionOf s r).level = .advise && advCapOf s n) || (zoneOf s (zoneOfRegion s r)).clamp
  min (min spr lean) (if cap then 200 * nom else spr)

/-- The ceiling of reel-in in force, in 1/200 MHz (R177). -/
def ceilNow (s : State) (r : Nat) : Nat := ceilUnder s r (regionOf s r).leanC

/-- The recovery that a LEAN costs region r in `ticks` ticks of reel-in, in 1/16 cycle (R228, R233; log 72). -/
def leanLoss (s : State) (ticks r : Nat) : Nat :=
  min (regionOf s r).lag16 (16 * ticks * (ceilUnder s r none - ceilNow s r) / 50000)

/-- The ceiling within the band (R161, R177). -/
def ceilBand (s : State) (r : Nat) : Nat := inBand s r (ceilNow s r) 200

/-- The DCO frequency during a calibration hold: word 0 of the band from hold tick 0, word 65,535 from 80, what reel-in needs
from 400 (R345). -/
def holdDco (s : State) (r : Nat) (h : Hold) : Nat :=
  let t := s.time.counter - h.start
  if t < 80 then inBand s r 0 1 else if t < 400 then inBand s r 8191 1 else ceilBand s r

/-- The DCO frequency in MHz that the loop sets: the line while tracking, the ceiling in REEL, times the divider
and within the band; frozen during stretch and hold, and as it was while parked; the steps of a calibration hold (R161, R165,
R166, R173, R177, R345). -/
def dcoMHz (s : State) (r : Nat) (reel : Bool) : Nat :=
  let x := regionOf s r
  match x.hold with
  | some h => holdDco s r h
  | none =>
    if x.parked || x.level = .stretch || x.level = .hold then x.freq
    else if reel then ceilBand s r else lineBand s r

/-! ### The tick edge -/

/-- The counter at the next edge: 1 per tick, or in bypass 5 per edge but never below V + 5 × n (R56, R76). -/
def nextCounter (s : State) : Nat :=
  if s.root.bypass then max s.time.counter (s.root.bypTarget + 5) else s.time.counter + 1

/-- The running broadcast frame moves on by one edge; a new frame takes T, the mode and LOAD (R82).  DESIGN CHOICE (log 143): a load
taken at the edge at which a frame begins is not in that frame, whose T is the count before it, but in the next. -/
def frameStep (bypass : Bool) (t : TimeSt) : TimeSt :=
  if t.frameEdge = 127 then
    { t with frameEdge := 0, frameLast := t.frameTot, frameTot := t.total, frameT := t.counter, frameByp := bypass,
             frameLoad := t.loaded, loaded := false }
  else { t with frameEdge := t.frameEdge + 1 }

/-- The slow clock counts n ticks: one edge each 40 (R35, R62). -/
def slowCount (n : Nat) (t : TimeSt) : TimeSt :=
  { t with slow := (t.slow + n) % 40, slowEdges := t.slowEdges + (t.slow + n) / 40 }

/-- The ticks that the slow clock counts at an edge: one in tick mode; in bypass those up to the next bypass edge, and at the
first edge after an entry those of the bypass edges that the detection window passed over (R35, R56). -/
def slowTicks (s : State) : Nat := if s.root.bypass then 5 - s.time.slow % 5 + 5 * s.root.lateEdges else 1

/-- The root's latest edges, with the one just made (R79). -/
def noteEdge (t : TimeSt) : TimeSt := { t with trail := ((40 * t.slowEdges + t.slow, t.total) :: t.trail).take 64 }

/-- The counter and the slow clock advance.  A bypass-clock edge falls every 5 ticks: it counts toward the crystal's
qualification while none is missing, and in normal operation V is recorded at it (R36, R56, R63, R76). -/
def countEdge (s : State) : State :=
  let c := nextCounter s
  let inc := c - s.time.counter
  let s := { s with
    time := noteEdge (slowCount (slowTicks s) (frameStep s.root.bypass { s.time with counter := c % 2 ^ 64, total := s.time.total + inc, inc := inc })),
    root := { s.root with lateEdges := 0 } }
  if s.time.slow % 5 = 0 && !s.root.missing then
    let s := { s with root := { s.root with goodEdges := min 65536 (s.root.goodEdges + 1) } }
    if s.root.bypass then { s with root := { s.root with bypTarget := s.root.bypTarget + 5 } }
    else if (synOf s s.root.active).locked then { s with root := { s.root with recV := s.time.counter } }
    else s
  else s

/-- The cause of R136 to which a rise of region r's lag in this tick is charged; the stretches of R171 and R227 are
charged edge by edge. -/
def riseCause (s : State) (r : Nat) : Nat :=
  let x := regionOf s r
  if x.failHold then 3
  else if stopRunning s r then 4
  else if x.hold.isSome then 5
  else if x.forced then 8
  else if x.level = .hold then (if x.heldByFcst then 6 else 1)
  else if 0 < x.floor16 || stopHeld s r then 2
  else if s.root.bypass then 7
  else 0

/-- Charges sixteenths of a cycle to a cause (R136). -/
def charge (cause n : Nat) (x : Region) : Region :=
  if cause = 0 || n = 0 then x else { x with causes := tabSet x.causes cause (tabGet x.causes cause 0 + n) 0 }

/-- Before the first bell region r's open pace line rises by the ticks that have passed (R112). -/
def riseOpen (s : State) (r : Nat) (x : Region) : Region :=
  if s.fold.started || !x.out then x
  else { x with openPace := x.openPace + (s.time.total - x.openTo) * incNow s (classOfRegion s r), openTo := s.time.total }

/-- The sampler's capture and the lag at this edge (R116, R164); a parked region's lag is 0 (R112). -/
def captureLag (s : State) (phases : List (Nat × Nat)) (r : Nat) (x : Region) : Region :=
  if !inContract s r then x
  else if x.parked then
    { x with lag16b := if s.root.bypass then x.lag16 else x.lag16a, lag16a := x.lag16, lag16 := 0, cTick := x.c, cTick1 := x.cTick }
  else
    let ph := match phases.find? (fun p => p.1 = r) with
      | some p => min p.2 15
      | none => 0
    let pace := paceAt s r 0 / 2 ^ 28
    let lag := pace - (16 * x.c + ph)
    let x' := { x with
      phase16 := ph, cTick := x.c, cTick1 := x.cTick, pace16 := pace, lag16 := lag, lag16a := x.lag16, lag16b := if s.root.bypass then x.lag16 else x.lag16a,
      lagMaxNow := max x.lagMaxNow lag }
    if s.fold.started then charge (riseCause s r) (lag - x.lag16) x' else x'

/-- The floor at this edge and at the coming one, the tracking state and the tick counters (R117, R120, R121, R165, R183). -/
def trackRegion (s : State) (ticks r : Nat) (x : Region) : Region :=
  if !inContract s r then x
  else if x.parked then { x with floor16 := 0, floorNext := 0, head := none, freq := dcoMHz s r false, restrictTicks := if x.restrict then x.restrictTicks + ticks else x.restrictTicks }
  else
    let fl := floorOf s r
    let held := stopHeld s r
    let tr : Track := if held then .held else if fl + 2 ≤ x.lag16 then .reel else if 0 < fl then .held else .run
    let x := if s.fold.started && tr = .reel then charge 6 (leanLoss s ticks r) x else x
    { x with
      floor16 := fl, floorNext := floorAhead s r, track := tr, pulling := x.pulling && pullsNow s r, head := if tr = .held || 0 < fl then headOf s s.build.regions r fl else none,
      freq := dcoMHz s r (tr = .reel),
      reelTicks := if tr = .reel && !x.detached then bump x.reelTicks ticks else x.reelTicks,
      heldTicks := if tr = .held && !x.detached then bump x.heldTicks ticks else x.heldTicks,
      restrictTicks := if x.restrict then x.restrictTicks + ticks else x.restrictTicks }

/-- So many ticks after its start a measurement has just ended one of its bands (R156). -/
def bandEnds (bypass : Bool) (t : Nat) : Bool := decide (1524 ≤ t) && decide (t % 1524 < if bypass then 5 else 1)

/-- A band's measurement of generator g ends at this edge, of an RCG_BMEAS's or of a RETEST's: it clears ROW_OK (R156, R294). -/
def bandMeasured (s : State) (g : Nat) (x : Gen) : Bool :=
  let fl := flockOf s (rowFlock s.build g)
  (x.measFrom.isSome && bandEnds s.root.bypass (elapsed s - x.measAt)) ||
  (fl.retest = some (rowIndex s.build g) && decide (s.time.total ≤ fl.retestAt + bmeasTicks) && bandEnds s.root.bypass (s.time.total - fl.retestAt))

/-- The commanded frequency of each generator from this edge on, ROW_OK of a generator under measurement, and the shadow
count of a FREE or QUALIFIED one, which follows its pace line and parks at K (R156, R280, R284, R294). -/
def genStep (s : State) (g : Nat) (x : Gen) : Gen :=
  let x := if bandMeasured s g x then { x with rowOk := false } else x
  let x := match commandedMHz s g with
    | some f => { x with words := (f :: x.words).take 4 }
    | none => { x with words := [] }
  if x.st = .free || x.st = .qualified then
    let n := if g < 5120 then classOfRegion s g else shadowClass s ((g - 5120) / 2) ((g - 5120) % 2)
    let off := (foldEdge s (rowFlock s.build g)).toNat
    { x with count :=
        if s.fold.started then (if off < s.fold.f - s.fold.g then off * incNow s n / 65536 else (classOf s n).kEff) else 0 }
  else x

/-- The charge-pump codes slew by one code each 65,536 ticks; where they do not return to the factory codes, values in force change
(R355, R362). -/
def pumpStep (s : State) : State :=
  let near := fun (c t : BitVec 6) => if c.ult t then c + 1 else if t.ult c then c - 1 else c
  if (s.root.s0.pumpCode ≠ s.root.s0.pumpTarget || s.root.s1.pumpCode ≠ s.root.s1.pumpTarget) &&
     decide (s.cal.pumpAt + 65536 ≤ s.time.total) then
    let t := { s with
      root := { s.root with
        s0 := { s.root.s0 with pumpCode := near s.root.s0.pumpCode s.root.s0.pumpTarget },
        s1 := { s.root.s1 with pumpCode := near s.root.s1.pumpCode s.root.s1.pumpTarget } },
      cal := { s.cal with pumpAt := s.time.total } }
    if s.cal.factory && decide (s.root.s0.pumpTarget = 0) && decide (s.root.s1.pumpTarget = 0) then t else valuesChanged t
  else s

/-- The core's clock at an edge, and the watchdog's count of ticks while the core runs with WDOG_EN (R400, R414). -/
def coreTick (s : State) : State :=
  let n := if s.root.bypass then 5 else 1
  { s with shep := { s.shep with
      edges := s.shep.edges + 1,
      wdogCount := if s.shep.state = .running && bitAt (nowGet s 0xC008) 6 then s.shep.wdogCount + n else s.shep.wdogCount } }

/-- ms_pps_out falls 25,000 ticks after it rose (R385). -/
def ppsFall (s : State) : State :=
  match s.mus.ppsOutAt with
  | some t => if elapsed s < t + 25000 then s else { s with mus := { s.mus with ppsOutAt := none } }
  | none => s

/-- What every region does at a tick edge (R115 to R121, R164, R165, R286). -/
def regionsTick (phases : List (Nat × Nat)) (ticks : Nat) (s : State) : State :=
  let t := mapRegions (captureLag s phases) s
  let t := mapRegions (riseOpen t) t
  let t := mapRegions (trackRegion t ticks) t
  let t := mapGens (genStep t) t
  tailEnds (lateTails { t with flocks := t.flocks.map (fun e => (e.1, { e.2 with taken := [], takenLast := e.2.taken })) })

/-- The island's own copies at a slow-clock edge: the state that governs access, and BUTTON at this edge and the one
before (R506, R509). -/
def islandCopies (s : State) : State :=
  { s with lc := { s.lc with access := s.lc.state, buttonPrev := s.lc.buttonLast, buttonLast := s.lc.button } }

/-- What a slow-clock edge does once it has come: the SC registers are copied, the event registers are kept as they stood
just before it, the waiting writes are performed, and pending claims evaluated (R12, R15, R325, R442, R443, R445, R449). -/
def slowWork (seen : Tab EventReg) (s : State) : State :=
  evalClaims (performAll (islandCopies { s with out := { s.out with sc := scWords s, seen := seen } }))

/-- The slow-clock edge, where one has come since `before`. -/
def slowEdge (before s : State) : State := if before.time.slowEdges < s.time.slowEdges then slowWork before.events s else s

/-- A step of the tick phase rotators, 1/2,048 of the VCO period of the synthesizer that drives, in 0.25 ps (R379). -/
def rotorStep (s : State) : Rat := 16000 / (2048 * ((synOf s s.root.active).dT.toNat : Nat))

/-- The rotators' accumulator moves with each tick of the synthesizer, and the phase by its whole steps (R379). -/
def turnRotor (v : Rat) (s : State) : State :=
  let a := s.mus.rotorAcc + v
  let n : Rat := (a / rotorStep s).floor
  { s with mus := { s.mus with rotor := s.mus.rotor + n * rotorStep s, rotorAcc := a - n * rotorStep s } }

/-- Each tick of the synthesizer turns the rotators at the rate r; their phase at round offset 294,912, or where the counter passed
it by without an edge, is kept (R379, R380). -/
def rotate (s : State) : State :=
  let v : Rat := if s.root.bypass then 0 else (s.mus.freqF + s.mus.slewS) * (s.time.inc * 16 : Nat) / 1000000
  let s := if v = 0 then s else turnRotor v s
  let round := s.time.counter / 2 ^ 20
  if dueAt s 294912 || (decide (294912 ≤ roundOff s) && decide (s.mus.midRound ≠ some round)) then
    { s with mus := { s.mus with rotorMid := s.mus.rotor, midRound := some round } }
  else s

/-- The window of a second has ended with no edge of ms_pps_in near that second (R386, R399). -/
def ppsWatch (s : State) : State :=
  let past := (s.time.counter - 513) % 250000000
  let second := s.time.counter - 513 - past
  if isRoot s && ppsEn s && coreRuns s && decide (past < max 1 s.time.inc) && decide (0 < second) &&
     decide (s.mus.ppsSecond ≠ second) && !meetsExchange second then raise .mus 10 s
  else s

/-- Once calibrations are no longer held, the triggers listed are those of an earlier hold (R19). -/
def arrivalsOver (s : State) : State :=
  if fwHolds s then s else { s with cal := { s.cal with arrivedOld := s.cal.arrived } }

/-- At the first tick edge of a quantum of the LED the requests that its change shows are taken (R524, R525). -/
def ledTick (s : State) : State :=
  let q := s.time.counter / 2 ^ 22
  if s.lc.ledSeen.any (fun e => e.1 = q) then s
  else { s with lc := { s.lc with ledSeen := some (q, svcOut s, s.shep.identifyEnd.isSome) } }

/-- A delivered edge: the counter, the slow clock, the fabric's regions, what is timed by ticks, and what a slow-clock
edge that falls on it does. -/
def deliverEdge (phases : List (Nat × Nat)) (s : State) : State :=
  let before := s
  let s := forceEdge (countEdge s)
  slowEdge before (takeCaptures (ledTick (arrivalsOver (keepUnit0 (ppsWatch (ppsFall (coreTick (rotate (pumpStep (crkHeld (regionsTick phases s.time.inc s)))))))))))

/-- A crystal edge that reaches no counter: it counts toward the crystal's qualification, and where the slow clock is
the crystal's it runs it (R35, R36). -/
def crystalEdge (s : State) : State :=
  let before := s
  let s := { s with root := { s.root with goodEdges := min 65536 (s.root.goodEdges + 1) } }
  if s.root.refLost then s else slowEdge before { s with time := slowCount 5 s.time }

/-- TICK_EDGE (R35, R36, R56, R66, R76, R79, R112, R115 to R121, R164, R165, R177): a tick edge, or in bypass a bypass
edge.  With no clock for the counter nothing advances; before the crystal qualifies only the slow clock runs, and an
edge of a crystal that has returned after a loss counts toward its requalification. -/
def execTickEdge (bypassEdge : Bool) (phases : List (Nat × Nat)) (s : State) : Host.Outcome State Fault Refusal :=
  if s.lc.por then .next s
  else if bypassEdge && !s.root.refOk && (s.root.bypass || s.root.refLost) then .next (crystalEdge s)
  else if s.time.held || bypassEdge ≠ s.root.bypass || (s.root.bypass && s.root.missing) then .next s
  else .next (deliverEdge phases s)

/-! ### The output gate -/

/-- An interlock withholds, `at16` / 65,536 of a tick after the last delivered edge, the beat that region r's next
edge would be (R196, R197). -/
def interlocked (s : State) (r at16 : Nat) : Bool :=
  (crossingsOf s r).any (fun x =>
    let v := xingOf s x
    v.armed && beatOn s r x &&
      ((decide ((hookOf s x).reader = r) && availBlocks v (65536 * s.time.total + at16)) || (decide ((hookOf s x).writer = r) && roomBlocks v)))

/-- The slip of an armed crossing has passed T − g and region r, ahead on it, has issued a further edge since (R122). -/
def slipStops (s : State) (r : Nat) : Bool :=
  (crossingsOf s r).any (fun x =>
    let v := xingOf s x
    v.armed && ((v.pastW && decide ((hookOf s x).writer = r)) || (v.pastR && decide ((hookOf s x).reader = r))))

/-- No stop is in force on region r at that instant: band-change stop, failover source, calibration hold, forced hold, tether stop or
interlock (R122, R151, R196, R197). -/
def gateOpen (s : State) (r at16 : Nat) : Bool :=
  let x := regionOf s r
  inContract s r && !x.parked && !s.time.held && (servingGen s r).isSome && x.switchTo.isNone && !stopRunning s r && x.hold.isNone && !x.forced &&
  !tetherHeld s r && !slipStops s r && !interlocked s r at16

/-- A sample's stretch reaches an edge whose undelayed instant is dcoAt: more than half a DCO period after the warning
resolved (R171). -/
def reaches (s : State) (r : Nat) (dcoAt : Int) (o : Owed) : Bool :=
  decide (250 * 65536 < 2 * freqNow s r * (65536 * s.time.total + dcoAt - o.at16))

/-- The stretches of samples that reach region r's next edge, by its undelayed instant (R171). -/
def owedNow (s : State) (r : Nat) (dcoAt : Int) : List Owed := (regionOf s r).owed.filter (reaches s r dcoAt)

/-- The eighths of the largest of some stretches; of samples that reach one edge the largest acts (log 85). -/
def mostOwed (os : List Owed) : Nat := os.foldl (fun a o => max a o.eighths) 0

/-- The windsock's stretch of region r's next edge, in eighths (R171). -/
def wsStretch (s : State) (r : Nat) (dcoAt : Int) : Nat := mostOwed (owedNow s r dcoAt)

/-- The stretch of region r's next edge in eighths: the larger of the windsock's and the forecast's (R171, R227). -/
def stretchOf (s : State) (r : Nat) (dcoAt : Int) : Nat :=
  let x := regionOf s r
  max (wsStretch s r dcoAt) (if 0 < x.preN then x.preW else 0)

/-- The earliest instant of the next edge by its DCO edge and its stretch, in 1/65,536 tick after the last delivered
edge, rounded up (R151); below 0 where that instant precedes it. -/
def afterStretch (s : State) (r : Nat) (dcoAt : Int) : Int := dcoAt + ceilDiv (stretchOf s r dcoAt * 250 * 65536) (8 * freqNow s r)

/-- The hold-rate spacing allows an edge at that instant (R172). -/
def spacingOk (s : State) (r at16 : Nat) : Bool :=
  let x := regionOf s r
  let n := classOfRegion s r
  x.level ≠ .hold ||
    decide (hold8Of s n * 250 * 65536 ≤ (65536 * s.time.total + at16 - x.lastEdge) * 8 * nomOf s n)

/-- R151: the edge may be issued at that instant. Its DCO edge does not precede the region's last issued edge
(log 70). -/
def mayIssue (s : State) (r : Nat) (dcoAt : Int) (at16 : Nat) : Bool :=
  let x := regionOf s r
  gateOpen s r at16 && decide ((x.lastEdge : Int) ≤ 65536 * s.time.total + dcoAt) && decide (afterStretch s r dcoAt ≤ at16) && decide (at16 < 65536 * (if s.root.bypass then 5 else 1)) &&
  spacingOk s r at16 &&
  (!s.fold.started || decide (x.c < (classOf s (classOfRegion s r)).kEff)) && targetReaches s r at16 (x.c + 1)

/-- The counters of a crossing on an edge of region r issued at16 / 65,536 of a tick after the last delivered
one, the launch of the writer's word, and whether the side ahead by more than T − g has now issued a further edge (R122,
R190, R193, R195, R219). -/
def xingEdge (s : State) (r at16 x : Nat) (v : Xing) : Xing :=
  let h := hookOf s x
  if v.enabled && v.armed && (h.writer = r || h.reader = r) then
    let pastW := v.pastW || (h.writer = r && decide (slipOf v < -(bandOf s : Int)))
    let pastR := v.pastR || (h.reader = r && decide ((bandOf s : Int) < slipOf v))
    let v :=
      if beatOn s r x then
        let v := if h.writer = r then { v with wBeats := v.wBeats + 1, room := false, launch := ((65536 * s.time.total + at16) :: v.launch).take 64 } else v
        let v := if h.reader = r then { v with rBeats := v.rBeats + 1, avail := false } else v
        { v with slipMax := max v.slipMax (slipOf v).natAbs }
      else v
    { v with pastW := pastW && decide (slipOf v < -(bandOf s : Int)), pastR := pastR && decide ((bandOf s : Int) < slipOf v) }
  else v

/-- The region's own record on an issued edge (R116, R171, R172, R182, R183, R227, R255, R256, R262, R287).  DESIGN CHOICE (log 136):
STR_FOLD counts also an edge that a PRE_STRETCH alone stretched. -/
def regionEdge (s : State) (r : Nat) (dcoAt : Int) (at16 : Nat) (act : BitVec 4) (x : Region) : Region :=
  let pre := if 0 < x.preN then x.preW else 0
  let st := s.fold.started
  let os := owedNow s r dcoAt
  let ws := mostOwed os
  let byFcst := (os.filter (fun o => o.eighths = ws)).all (·.byFcst)
  let x := charge (if st then (if pre < ws then (if byFcst then 6 else 1) else 6) else 0) (2 * max ws pre) x
  let win := st && !s.fold.called
  { x with
    rstN := true, c := x.c + 1, lastEdge := 65536 * s.time.total + at16, failHold := false, holdMHz := none,
    owed := x.owed.filter (fun o => !reaches s r dcoAt o), preN := x.preN - 1,
    strEdges := if 0 < ws then bump x.strEdges 1 else x.strEdges,
    strEighths := bump x.strEighths ws,
    strNow := if 0 < ws || 0 < pre then x.strNow + 1 else x.strNow,
    holdEdges := if x.level = .hold then bump x.holdEdges 1 else x.holdEdges,
    gate := if targetReaches s r (afterStretch s r dcoAt).toNat (x.c + 1) then x.gate else bump16 x.gate 1,
    edges := if win then x.edges + 1 else x.edges, activity := if win then x.activity + act.toNat else x.activity,
    clampEdges := if st then x.clampEdges + 1 else x.clampEdges,
    clampActivity := if st then x.clampActivity + act.toNat else x.clampActivity }

/-- The forecast's statistics of an issued edge that a PRE_STRETCH reaches, with a windsock stretch of ws eighths
(R227, R245). -/
def fcstEdge (ws : Nat) (x : Region) (f : FcstSt) : FcstSt :=
  if 0 < x.preN then
    { f with absorbed := if 0 < ws then bump f.absorbed 1 else f.absorbed,
             preEighths := if ws < x.preW then bump f.preEighths x.preW else f.preEighths }
  else f

/-- The hold that an edge issued now ends, in 1/16 period of the commanded frequency: from the last edge of the failed
generator to this one (R287, R306). -/
def holdOf (s : State) (x : Region) (at16 mhz : Nat) : Nat := satAt 255 (16 * (65536 * s.time.total + at16 - x.lastEdge) * mhz / (250 * 65536))

/-- The first edge after a takeover gives FLOCK_FO_LAST.HOLD, where that still reports the slot (R287, R306). -/
def endFailHold (r at16 : Nat) (s : State) : State :=
  let x := regionOf s r
  let fl := flockOf s (r / 16)
  match x.holdMHz with
  | some f =>
    if fld fl.foLast 0 4 = r % 16 then
      setFlock (r / 16) { fl with foLast := fl.foLast ||| packWord [(16, 8, holdOf s x at16 f)] } s
    else s
  | none => s

/-- The sampler copy of the generator that serves region r counts the edge (R278). -/
def countCopy (r : Nat) (s : State) : State :=
  match servingGen s r with
  | some g => setGen g { genOf s g with count := (genOf s g).count + 1 } s
  | none => s

/-- What an issued edge does (R151, R195, R278, R287). -/
def issueEdge (r : Nat) (dcoAt : Int) (at16 : Nat) (act : BitVec 4) (s : State) : State :=
  let x := regionOf s r
  let t := mapXings (xingEdge s r at16) s
  let t := countCopy r (endFailHold r at16 t)
  let t := setRegion r (regionEdge s r dcoAt at16 act x) t
  { t with fcst := fcstEdge (wsStretch s r dcoAt) x t.fcst }

/-- ISSUED_EDGE (R151, R165, R171, R172, R190 to R198, R227, R255): the output gate issues an edge of region r.
`dcoAt` is the instant of its DCO edge and `at16` the instant of issue, both in 1/65,536 tick after the last
delivered edge (`dcoAt` below 0 where the DCO edge precedes it); an edge that some constraint still withholds at that instant is not issued. -/
def execIssuedEdge (r : Nat) (dcoAt : Int) (at16 : Nat) (act : BitVec 4) (s : State) : Host.Outcome State Fault Refusal :=
  if isRegion s r then .next (if mayIssue s r dcoAt at16 then issueEdge r dcoAt at16 act s else s)
  else .fault .noSuchUnit

end Sys2Proof.Machine
end

