-- ==== Sys2Proof/Machine/Dispatch.lean ====
section
/-!
DEFINITION. exec: one arm per command, each a direct call of its meaning.
-/
namespace Sys2Proof.Machine
open Sys2Proof

def exec (i : Instr) (s : State) : Host.Outcome State Fault Refusal :=
  match i with
  | .crystalQualified => Sys2Proof.Machine.execCrystalQualified s
  | .missingCrystalEdge => Sys2Proof.Machine.execMissingCrystalEdge s
  | .edgesResume => Sys2Proof.Machine.execEdgesResume s
  | .refLoss => Sys2Proof.Machine.execRefLoss s
  | .refReturn => Sys2Proof.Machine.execRefReturn s
  | .frozenOutputFail y ps => Sys2Proof.Machine.execFrozenOutputFail y ps s
  | .lockLoss y err1 err2 slip both edges => Sys2Proof.Machine.execLockLoss y err1 err2 slip both edges s
  | .lockAcquired y => Sys2Proof.Machine.execLockAcquired y s
  | .synthQualified y => Sys2Proof.Machine.execSynthQualified y s
  | .bypExit y edge1 edge2 => Sys2Proof.Machine.execBypExit y edge1 edge2 s
  | .prefWrite w v => Sys2Proof.Machine.execPrefWrite w v s
  | .spareEnWrite w v => Sys2Proof.Machine.execSpareEnWrite w v s
  | .bypassForce w v => Sys2Proof.Machine.execBypassForce w v s
  | .divApply w v => Sys2Proof.Machine.execDivApply w v s
  | .rootBtabWrite w v => Sys2Proof.Machine.execRootBtabWrite w v s
  | .rootMeas w v => Sys2Proof.Machine.execRootMeas w v s
  | .rootMeasDone count => Sys2Proof.Machine.execRootMeasDone count s
  | .rootAgeWrite w v => Sys2Proof.Machine.execRootAgeWrite w v s
  | .ageSlewStep => Sys2Proof.Machine.execAgeSlewStep s
  | .syncInEdge phase => Sys2Proof.Machine.execSyncInEdge phase s
  | .bellSnapReq w v => Sys2Proof.Machine.execBellSnapReq w v s
  | .bellLoad w v => Sys2Proof.Machine.execBellLoad w v s
  | .broadcastFrame flock path frame => Sys2Proof.Machine.execBroadcastFrame flock path frame s
  | .pathLockDone flock path delta frame => Sys2Proof.Machine.execPathLockDone flock path delta frame s
  | .deltaTrack flock path late => Sys2Proof.Machine.execDeltaTrack flock path late s
  | .pathFail flock path cause => Sys2Proof.Machine.execPathFail flock path cause s
  | .pathReturn flock path => Sys2Proof.Machine.execPathReturn flock path s
  | .meshDisable w flock v => Sys2Proof.Machine.execMeshDisable w flock v s
  | .foldStart w v => Sys2Proof.Machine.execFoldStart w v s
  | .bell => Sys2Proof.Machine.execBell s
  | .call => Sys2Proof.Machine.execCall s
  | .graceTailStart => Sys2Proof.Machine.execGraceTailStart s
  | .regionPark r => Sys2Proof.Machine.execRegionPark r s
  | .pull r => Sys2Proof.Machine.execPull r s
  | .tetherStop x => Sys2Proof.Machine.execTetherStop x s
  | .availInterlock x => Sys2Proof.Machine.execAvailInterlock x s
  | .roomStop x => Sys2Proof.Machine.execRoomStop x s
  | .tetherStopRelease x => Sys2Proof.Machine.execTetherStopRelease x s
  | .excludeSet w region tag => Sys2Proof.Machine.execExcludeSet w region tag s
  | .excludeClear w region tag => Sys2Proof.Machine.execExcludeClear w region tag s
  | .foldTetherWrite w v => Sys2Proof.Machine.execFoldTetherWrite w v s
  | .foldStatReq w v => Sys2Proof.Machine.execFoldStatReq w v s
  | .foldLogSel w v => Sys2Proof.Machine.execFoldLogSel w v s
  | .windsockStretch r sample => Sys2Proof.Machine.execWindsockStretch r sample s
  | .windsockHold r margins => Sys2Proof.Machine.execWindsockHold r margins s
  | .holdRelease r margins => Sys2Proof.Machine.execHoldRelease r margins s
  | .adviseOnset r margins => Sys2Proof.Machine.execAdviseOnset r margins s
  | .bandChangeStopEnd gen => Sys2Proof.Machine.execBandChangeStopEnd gen s
  | .rcgSel w v => Sys2Proof.Machine.execRcgSel w v s
  | .rcgCfgWrite w v => Sys2Proof.Machine.execRcgCfgWrite w v s
  | .rcgBmeas w v => Sys2Proof.Machine.execRcgBmeas w v s
  | .rcgBmeasDone counts => Sys2Proof.Machine.execRcgBmeasDone counts s
  | .bandRowWrite b => Sys2Proof.Machine.execBandRowWrite b s
  | .xingSel w v => Sys2Proof.Machine.execXingSel w v s
  | .xingCfgWrite w v => Sys2Proof.Machine.execXingCfgWrite w v s
  | .auditEnWrite w v => Sys2Proof.Machine.execAuditEnWrite w v s
  | .auditClear w v => Sys2Proof.Machine.execAuditClear w v s
  | .auditMismatch x mark expect => Sys2Proof.Machine.execAuditMismatch x mark expect s
  | .pinWrite b => Sys2Proof.Machine.execPinWrite b s
  | .fcstModeWrite w v => Sys2Proof.Machine.execFcstModeWrite w v s
  | .fcstOpen w bank tag => Sys2Proof.Machine.execFcstOpen w bank tag s
  | .fcstSeal w bank tag => Sys2Proof.Machine.execFcstSeal w bank tag s
  | .fcstSwap w bank tag => Sys2Proof.Machine.execFcstSwap w bank tag s
  | .fcstStop w tag => Sys2Proof.Machine.execFcstStop w tag s
  | .fcstCmdNone w tag => Sys2Proof.Machine.execFcstCmdNone w tag s
  | .fcstCmdInvalid w op tag => Sys2Proof.Machine.execFcstCmdInvalid w op tag s
  | .fcstEntryWrite b => Sys2Proof.Machine.execFcstEntryWrite b s
  | .fcstSealShort bank => Sys2Proof.Machine.execFcstSealShort bank s
  | .fcstVerifyDone bank => Sys2Proof.Machine.execFcstVerifyDone bank s
  | .fcstNop idx => Sys2Proof.Machine.execFcstNop idx s
  | .preStretch idx => Sys2Proof.Machine.execPreStretch idx s
  | .fcLean idx => Sys2Proof.Machine.execFcLean idx s
  | .holdMargin idx => Sys2Proof.Machine.execHoldMargin idx s
  | .fcRelease idx => Sys2Proof.Machine.execFcRelease idx s
  | .calSlot idx => Sys2Proof.Machine.execCalSlot idx s
  | .skewCount r => Sys2Proof.Machine.execSkewCount r s
  | .fcstStatReq w v => Sys2Proof.Machine.execFcstStatReq w v s
  | .clampWindowEnd => Sys2Proof.Machine.execClampWindowEnd s
  | .zoneStatReq w v => Sys2Proof.Machine.execZoneStatReq w v s
  | .generatorFail flock index code => Sys2Proof.Machine.execGeneratorFail flock index code s
  | .claimRetry flock slot => Sys2Proof.Machine.execClaimRetry flock slot s
  | .spareLost flock spare code => Sys2Proof.Machine.execSpareLost flock spare code s
  | .spareLocked flock spare => Sys2Proof.Machine.execSpareLocked flock spare s
  | .drvParity flock => Sys2Proof.Machine.execDrvParity flock s
  | .clearParity w flock gen tag => Sys2Proof.Machine.execClearParity w flock gen tag s
  | .retest w flock gen tag => Sys2Proof.Machine.execRetest w flock gen tag s
  | .retestDone flock counts run => Sys2Proof.Machine.execRetestDone flock counts run s
  | .reinstate w flock gen tag => Sys2Proof.Machine.execReinstate w flock gen tag s
  | .retire w flock gen tag => Sys2Proof.Machine.execRetire w flock gen tag s
  | .crkArm w v => Sys2Proof.Machine.execCrkArm w v s
  | .crkArmExpiry => Sys2Proof.Machine.execCrkArmExpiry s
  | .forceHoldRegion w target tag => Sys2Proof.Machine.execForceHoldRegion w target tag s
  | .releaseRegion w target tag => Sys2Proof.Machine.execReleaseRegion w target tag s
  | .forceHoldFlock w target tag => Sys2Proof.Machine.execForceHoldFlock w target tag s
  | .releaseFlock w target tag => Sys2Proof.Machine.execReleaseFlock w target tag s
  | .forceFailover w flock slot gen tag => Sys2Proof.Machine.execForceFailover w flock slot gen tag s
  | .crkCoreReset w tag => Sys2Proof.Machine.execCrkCoreReset w tag s
  | .crkInvalidOp w op tag => Sys2Proof.Machine.execCrkInvalidOp w op tag s
  | .tallyClaim w unit tag => Sys2Proof.Machine.execTallyClaim w unit tag s
  | .tallyRelease w unit tag => Sys2Proof.Machine.execTallyRelease w unit tag s
  | .claimTimeout p => Sys2Proof.Machine.execClaimTimeout p s
  | .tallyArm w unit tag start ends => Sys2Proof.Machine.execTallyArm w unit tag start ends s
  | .tallyAbort w unit tag => Sys2Proof.Machine.execTallyAbort w unit tag s
  | .tallyCalRefresh unit start ends => Sys2Proof.Machine.execTallyCalRefresh unit start ends s
  | .tallyGateOpen gate => Sys2Proof.Machine.execTallyGateOpen gate s
  | .tallyStartEdge edge => Sys2Proof.Machine.execTallyStartEdge edge s
  | .tallyStopEdge unit stop edge pos => Sys2Proof.Machine.execTallyStopEdge unit stop edge pos s
  | .tallyWindowClose unit start ends => Sys2Proof.Machine.execTallyWindowClose unit start ends s
  | .tempSample flocks island => Sys2Proof.Machine.execTempSample flocks island s
  | .calFlockDue w flock tag => Sys2Proof.Machine.execCalFlockDue w flock tag s
  | .calAllDue w tag => Sys2Proof.Machine.execCalAllDue w tag s
  | .restore w tag => Sys2Proof.Machine.execRestore w tag s
  | .cancelRestore w tag => Sys2Proof.Machine.execCancelRestore w tag s
  | .calInvalidOp w op tag => Sys2Proof.Machine.execCalInvalidOp w op tag s
  | .calImageWrite b => Sys2Proof.Machine.execCalImageWrite b s
  | .regionHoldStart r => Sys2Proof.Machine.execRegionHoldStart r s
  | .regionHoldEnd r counts rings checked => Sys2Proof.Machine.execRegionHoldEnd r counts rings checked s
  | .spareCalStart flock spare => Sys2Proof.Machine.execSpareCalStart flock spare s
  | .spareCalEnd flock spare counts checked => Sys2Proof.Machine.execSpareCalEnd flock spare counts checked s
  | .pathCalStart flock path => Sys2Proof.Machine.execPathCalStart flock path s
  | .pathCalDone flock path taps => Sys2Proof.Machine.execPathCalDone flock path taps s
  | .tallyPhaseCalStart unit => Sys2Proof.Machine.execTallyPhaseCalStart unit s
  | .tallyPhaseCalDone unit phases => Sys2Proof.Machine.execTallyPhaseCalDone unit phases s
  | .chargePumpCalStart y => Sys2Proof.Machine.execChargePumpCalStart y s
  | .chargePumpCalDone y bandwidth code => Sys2Proof.Machine.execChargePumpCalDone y bandwidth code s
  | .bandgapTrimStep microvolts => Sys2Proof.Machine.execBandgapTrimStep microvolts s
  | .calTimeout what => Sys2Proof.Machine.execCalTimeout what s
  | .cableIn p present => Sys2Proof.Machine.execCableIn p present s
  | .portUp link => Sys2Proof.Machine.execPortUp link s
  | .portDown p cause => Sys2Proof.Machine.execPortDown p cause s
  | .roundStart => Sys2Proof.Machine.execRoundStart s
  | .helloSend p => Sys2Proof.Machine.execHelloSend p s
  | .hello p f => Sys2Proof.Machine.execHello p f s
  | .tree p f => Sys2Proof.Machine.execTree p f s
  | .syncSend k tx0 tx1 => Sys2Proof.Machine.execSyncSend k tx0 tx1 s
  | .sync p f rx => Sys2Proof.Machine.execSync p f rx s
  | .followSend j => Sys2Proof.Machine.execFollowSend j s
  | .follow p f => Sys2Proof.Machine.execFollow p f s
  | .offset p f => Sys2Proof.Machine.execOffset p f s
  | .muDone p f => Sys2Proof.Machine.execMuDone p f s
  | .doneDeadline => Sys2Proof.Machine.execDoneDeadline s
  | .muApply => Sys2Proof.Machine.execMuApply s
  | .ageTransfer => Sys2Proof.Machine.execAgeTransfer s
  | .ppsInEdge err => Sys2Proof.Machine.execPpsInEdge err s
  | .ppsOut => Sys2Proof.Machine.execPpsOut s
  | .todArm w v => Sys2Proof.Machine.execTodArm w v s
  | .fwOpen w bank tag => Sys2Proof.Machine.execFwOpen w bank tag s
  | .fwSeal w bank tag => Sys2Proof.Machine.execFwSeal w bank tag s
  | .fwSwap w bank tag => Sys2Proof.Machine.execFwSwap w bank tag s
  | .fwBankInvalidOp w op tag => Sys2Proof.Machine.execFwBankInvalidOp w op tag s
  | .fwDataWrite b => Sys2Proof.Machine.execFwDataWrite b s
  | .fwSealShort bank => Sys2Proof.Machine.execFwSealShort bank s
  | .fwVerifyDone bank => Sys2Proof.Machine.execFwVerifyDone bank s
  | .fwSwapPreStart => Sys2Proof.Machine.execFwSwapPreStart s
  | .halt cause pc val => Sys2Proof.Machine.execHalt cause pc val s
  | .shepAssertWrite code pc => Sys2Proof.Machine.execShepAssertWrite code pc s
  | .haltRestart => Sys2Proof.Machine.execHaltRestart s
  | .wdog => Sys2Proof.Machine.execWdog s
  | .watchdogKick v => Sys2Proof.Machine.execWatchdogKick v s
  | .eccCorr insn => Sys2Proof.Machine.execEccCorr insn s
  | .mbxGo w m => Sys2Proof.Machine.execMbxGo w m s
  | .mbxWithdraw w m => Sys2Proof.Machine.execMbxWithdraw w m s
  | .mbxTake => Sys2Proof.Machine.execMbxTake s
  | .version => Sys2Proof.Machine.execVersion s
  | .status => Sys2Proof.Machine.execStatus s
  | .nop => Sys2Proof.Machine.execNop s
  | .rowVerify => Sys2Proof.Machine.execRowVerify s
  | .rowVerifyJobEnd hit => Sys2Proof.Machine.execRowVerifyJobEnd hit s
  | .xcal => Sys2Proof.Machine.execXcal s
  | .calDone tx => Sys2Proof.Machine.execCalDone tx s
  | .jobStatus => Sys2Proof.Machine.execJobStatus s
  | .jobAbort => Sys2Proof.Machine.execJobAbort s
  | .jobKill => Sys2Proof.Machine.execJobKill s
  | .releaseTally => Sys2Proof.Machine.execReleaseTally s
  | .cfgCommit => Sys2Proof.Machine.execCfgCommit s
  | .identify => Sys2Proof.Machine.execIdentify s
  | .identifyExpiry => Sys2Proof.Machine.execIdentifyExpiry s
  | .badOpcode => Sys2Proof.Machine.execBadOpcode s
  | .eventClear w blk v => Sys2Proof.Machine.execEventClear w blk v s
  | .cfgCtrlWrite w v => Sys2Proof.Machine.execCfgCtrlWrite w v s
  | .preBellApply => Sys2Proof.Machine.execPreBellApply s
  | .configPassEnd => Sys2Proof.Machine.execConfigPassEnd s
  | .restoreWriteDone => Sys2Proof.Machine.execRestoreWriteDone s
  | .regWrite w addr v => Sys2Proof.Machine.execRegWrite w addr v s
  | .badBurst write beats => Sys2Proof.Machine.execBadBurst write beats s
  | .onBackup => Sys2Proof.Machine.execOnBackup s
  | .onMain => Sys2Proof.Machine.execOnMain s
  | .backupFail => Sys2Proof.Machine.execBackupFail s
  | .powerOnReset => Sys2Proof.Machine.execPowerOnReset s
  | .coldReset => Sys2Proof.Machine.execColdReset s
  | .warmReset => Sys2Proof.Machine.execWarmReset s
  | .fabPowerLoss => Sys2Proof.Machine.execFabPowerLoss s
  | .fabPowerReturn => Sys2Proof.Machine.execFabPowerReturn s
  | .hcAreset => Sys2Proof.Machine.execHcAreset s
  | .lcTransition w target tag => Sys2Proof.Machine.execLcTransition w target tag s
  | .lcRevoke w slot tag => Sys2Proof.Machine.execLcRevoke w slot tag s
  | .lcOpRefuse w tag => Sys2Proof.Machine.execLcOpRefuse w tag s
  | .lcDone => Sys2Proof.Machine.execLcDone s
  | .eraseDone => Sys2Proof.Machine.execEraseDone s
  | .buttonPress => Sys2Proof.Machine.execButtonPress s
  | .btnLong => Sys2Proof.Machine.execBtnLong s
  | .btnShort => Sys2Proof.Machine.execBtnShort s
  | .ledChange => Sys2Proof.Machine.execLedChange s
  | .i2cTransaction t => Sys2Proof.Machine.execI2cTransaction t s
  | .sclTimeout => Sys2Proof.Machine.execSclTimeout s
  | .tickEdge bypassEdge phases => Sys2Proof.Machine.execTickEdge bypassEdge phases s
  | .issuedEdge r dcoAt at16 act => Sys2Proof.Machine.execIssuedEdge r dcoAt at16 act s
  | .downSweep => Sys2Proof.Machine.execDownSweep s
  | .upSweep => Sys2Proof.Machine.execUpSweep s
  | .frozenFailureCountEnd => Sys2Proof.Machine.execFrozenFailureCountEnd s
  | .powerOnResetRelease => Sys2Proof.Machine.execPowerOnResetRelease s
  | .supplyOkChange mainOk backupOk => Sys2Proof.Machine.execSupplyOkChange mainOk backupOk s
  | .buttonRelease => Sys2Proof.Machine.execButtonRelease s
  | .testAccess op => Sys2Proof.Machine.execTestAccess op s
  | .manifestWrite b => Sys2Proof.Machine.execManifestWrite b s

end Sys2Proof.Machine
end

