-- ==== Sys2Proof/WellFormed.lean ====
section
/-!
DEFINITION. The well-formedness of commands: what the operands must satisfy whatever the build, so that the
command is one that the manual's rows describe.  A unit that the largest build has may still be absent from
the build in hand: a register write for it is ignored (R440), and an event of it is a fault of the command's meaning
(Machine/State.lean), not an ill-formed command.
-/
namespace Sys2Proof

/-- A register write's other writer of the period is another port (R442). -/
def Wr.wellFormed (w : Wr) : Bool :=
  match w.rival with
  | none => true
  | some q => q ≠ w.port

/-- A beat of the data port starts at a multiple of its 32 bytes, and lies in a window (R485, R489). -/
def Beat.inWindow (b : Beat) (lo hi : Nat) : Bool :=
  b.addr.toNat % 32 = 0 && lo ≤ b.addr.toNat && b.addr.toNat < hi

/-- A muster frame carries 16 payload bytes (R367). -/
def Frame.wellFormed (f : Frame) (types : List Nat) : Bool :=
  decide (f.payload.length = 16) && types.contains f.type.toNat

/-- Units of the largest build: regions, flocks, spares, paths, crossings, generator rows (R24, R27, R153). -/
def okRegion (r : Nat) : Bool := decide (r < 5120)
def okFlock (f : Nat) : Bool := decide (f < 320)
def okSpare (f j : Nat) : Bool := decide (f < 320) && decide (j < 2)
def okPath (f p : Nat) : Bool := decide (f < 320) && decide (p < 3)
def okXing (x : Nat) : Bool := decide (x < 24576)
def okGen (g : Nat) : Bool := decide (g < 5760)

/-- A calibration under the timeout of R358 names a unit of the largest build. -/
def TimedCal.wellFormed : TimedCal → Bool
  | .spare f j => okSpare f j
  | .path f p => okPath f p
  | .tally u => decide (u < 4)
  | .pump _ => true

/-- A transaction's offset bytes carry bits 19:0; a read asks for one word or more (R515). -/
def I2c.wellFormed : I2c → Bool
  | .write _ _ _ => true
  | .read _ _ n => decide (0 < n)

/-- A command is well formed. -/
def Instr.wellFormed : Instr → Bool
  | .crystalQualified => true
  | .missingCrystalEdge => true
  | .edgesResume => true
  | .refLoss => true
  | .refReturn => true
  | .frozenOutputFail _ _ => true
  | .lockLoss _ _ _ _ _ edges => decide (0 < edges)
  | .lockAcquired _ => true
  | .synthQualified _ => true
  | .bypExit _ _ _ => true
  | .prefWrite w _ => w.wellFormed
  | .spareEnWrite w _ => w.wellFormed
  | .bypassForce w _ => w.wellFormed
  | .divApply w _ => w.wellFormed
  | .rootBtabWrite w _ => w.wellFormed
  | .rootMeas w _ => w.wellFormed
  | .rootMeasDone _ => true
  | .rootAgeWrite w _ => w.wellFormed
  | .ageSlewStep => true
  | .syncInEdge _ => true
  | .bellSnapReq w _ => w.wellFormed
  | .bellLoad w _ => w.wellFormed
  | .broadcastFrame f p _ => okPath f p
  | .pathLockDone f p _ _ => okPath f p
  | .deltaTrack f p _ => okPath f p
  | .pathFail f p _ => okPath f p
  | .pathReturn f p => okPath f p
  | .meshDisable w f _ => w.wellFormed && okFlock f
  | .foldStart w _ => w.wellFormed
  | .bell => true
  | .call => true
  | .graceTailStart => true
  | .regionPark r => okRegion r
  | .pull r => okRegion r
  | .tetherStop x => okXing x
  | .availInterlock x => okXing x
  | .roomStop x => okXing x
  | .tetherStopRelease x => okXing x
  | .excludeSet w _ _ => w.wellFormed
  | .excludeClear w _ _ => w.wellFormed
  | .foldTetherWrite w _ => w.wellFormed
  | .foldStatReq w _ => w.wellFormed
  | .foldLogSel w _ => w.wellFormed
  | .windsockStretch r _ => okRegion r
  | .windsockHold r _ => okRegion r
  | .holdRelease r _ => okRegion r
  | .adviseOnset r _ => okRegion r
  | .bandChangeStopEnd g => okGen g
  | .rcgSel w _ => w.wellFormed
  | .rcgCfgWrite w _ => w.wellFormed
  | .rcgBmeas w _ => w.wellFormed
  | .rcgBmeasDone counts => counts.all (fun e => okGen e.1 && decide (e.2.length ≤ 24))
  | .bandRowWrite b => b.inWindow 0x800000 0x8B4000
  | .xingSel w _ => w.wellFormed
  | .xingCfgWrite w _ => w.wellFormed
  | .auditEnWrite w _ => w.wellFormed
  | .auditClear w _ => w.wellFormed
  | .auditMismatch x _ _ => okXing x
  | .pinWrite b => b.inWindow 0x900000 0x906000
  | .fcstModeWrite w _ => w.wellFormed
  | .fcstOpen w _ _ => w.wellFormed
  | .fcstSeal w _ _ => w.wellFormed
  | .fcstSwap w _ _ => w.wellFormed
  | .fcstStop w _ => w.wellFormed
  | .fcstCmdNone w _ => w.wellFormed
  | .fcstCmdInvalid w op _ => w.wellFormed && decide (5 ≤ op.toNat)
  | .fcstEntryWrite b => b.inWindow 0 0x400080
  | .fcstSealShort _ => true
  | .fcstVerifyDone _ => true
  | .fcstNop _ => true
  | .preStretch _ => true
  | .fcLean _ => true
  | .holdMargin _ => true
  | .fcRelease _ => true
  | .calSlot _ => true
  | .skewCount r => okRegion r
  | .fcstStatReq w _ => w.wellFormed
  | .clampWindowEnd => true
  | .zoneStatReq w _ => w.wellFormed
  | .generatorFail f k _ => okFlock f && decide (k < 18)
  | .claimRetry f k => okFlock f && decide (k < 16)
  | .spareLost f j _ => okSpare f j
  | .spareLocked f j => okSpare f j
  | .drvParity f => okFlock f
  | .clearParity w f _ _ => w.wellFormed && okFlock f
  | .retest w f _ _ => w.wellFormed && okFlock f
  | .retestDone f counts _ => okFlock f && decide (counts.length ≤ 24)
  | .reinstate w f _ _ => w.wellFormed && okFlock f
  | .retire w f _ _ => w.wellFormed && okFlock f
  | .crkArm w _ => w.wellFormed
  | .crkArmExpiry => true
  | .forceHoldRegion w _ _ => w.wellFormed
  | .releaseRegion w _ _ => w.wellFormed
  | .forceHoldFlock w _ _ => w.wellFormed
  | .releaseFlock w _ _ => w.wellFormed
  | .forceFailover w _ _ _ _ => w.wellFormed
  | .crkCoreReset w _ => w.wellFormed
  | .crkInvalidOp w op _ => w.wellFormed && decide (7 ≤ op.toNat)
  | .tallyClaim w _ _ => w.wellFormed
  | .tallyRelease w _ _ => w.wellFormed
  | .claimTimeout _ => true
  | .tallyArm w _ _ _ _ => w.wellFormed
  | .tallyAbort w _ _ => w.wellFormed
  | .tallyCalRefresh _ _ _ => true
  | .tallyGateOpen _ => true
  | .tallyStartEdge _ => true
  | .tallyStopEdge _ _ _ _ => true
  | .tallyWindowClose _ _ _ => true
  | .tempSample flocks _ => flocks.all (fun e => okFlock e.1)
  | .calFlockDue w _ _ => w.wellFormed
  | .calAllDue w _ => w.wellFormed
  | .restore w _ => w.wellFormed
  | .cancelRestore w _ => w.wellFormed
  | .calInvalidOp w op _ => w.wellFormed && decide (5 ≤ op.toNat)
  | .calImageWrite b => b.inWindow 0xB00000 0xB4E000
  | .regionHoldStart r => okRegion r
  | .regionHoldEnd r _ rings _ => okRegion r && decide (rings.length ≤ 8)
  | .spareCalStart f j => okSpare f j
  | .spareCalEnd f j _ _ => okSpare f j
  | .pathCalStart f p => okPath f p
  | .pathCalDone f p _ => okPath f p
  | .tallyPhaseCalStart _ => true
  | .tallyPhaseCalDone _ _ => true
  | .chargePumpCalStart _ => true
  | .chargePumpCalDone _ _ _ => true
  | .bandgapTrimStep _ => true
  | .calTimeout what => what.wellFormed
  | .cableIn _ _ => true
  | .portUp _ => true
  | .portDown _ _ => true
  | .roundStart => true
  | .helloSend _ => true
  | .hello _ f => decide (f.payload.length = 16) && (f.type = 1 || decide (6 < f.type.toNat))
  | .tree _ f => f.wellFormed [2]
  | .syncSend _ _ _ => true
  | .sync _ f _ => f.wellFormed [3]
  | .followSend _ => true
  | .follow _ f => f.wellFormed [4]
  | .offset _ f => f.frame.wellFormed [5]
  | .muDone _ f => f.wellFormed [6]
  | .doneDeadline => true
  | .muApply => true
  | .ageTransfer => true
  | .ppsInEdge _ => true
  | .ppsOut => true
  | .todArm w _ => w.wellFormed
  | .fwOpen w _ _ => w.wellFormed
  | .fwSeal w _ _ => w.wellFormed
  | .fwSwap w _ _ => w.wellFormed
  | .fwBankInvalidOp w op _ => w.wellFormed && decide (4 ≤ op.toNat)
  | .fwDataWrite b => b.inWindow 0xC00000 0xC40000
  | .fwSealShort _ => true
  | .fwVerifyDone _ => true
  | .fwSwapPreStart => true
  | .halt _ _ _ => true
  | .shepAssertWrite _ _ => true
  | .haltRestart => true
  | .wdog => true
  | .watchdogKick _ => true
  | .eccCorr _ => true
  | .mbxGo w m => w.wellFormed && decide (m.toNat < 3)
  | .mbxWithdraw w m => w.wellFormed && decide (m.toNat < 3)
  | .mbxTake => true
  | .version => true
  | .status => true
  | .nop => true
  | .rowVerify => true
  | .rowVerifyJobEnd hit => hit.all okGen
  | .xcal => true
  | .calDone tx => tx.all (fun e => okXing e.1 && decide (e.2.length ≤ 16))
  | .jobStatus => true
  | .jobAbort => true
  | .jobKill => true
  | .releaseTally => true
  | .cfgCommit => true
  | .identify => true
  | .identifyExpiry => true
  | .badOpcode => true
  | .eventClear w _ _ => w.wellFormed
  | .cfgCtrlWrite w _ => w.wellFormed
  | .preBellApply => true
  | .configPassEnd => true
  | .restoreWriteDone => true
  | .regWrite w _ _ => w.wellFormed
  | .badBurst _ beats => decide (1 ≤ beats) && decide (beats ≤ 256)
  | .onBackup => true
  | .onMain => true
  | .backupFail => true
  | .powerOnReset => true
  | .coldReset => true
  | .warmReset => true
  | .fabPowerLoss => true
  | .fabPowerReturn => true
  | .hcAreset => true
  | .lcTransition w _ _ => w.wellFormed
  | .lcRevoke w _ _ => w.wellFormed
  | .lcOpRefuse w _ => w.wellFormed
  | .lcDone => true
  | .eraseDone => true
  | .buttonPress => true
  | .btnLong => true
  | .btnShort => true
  | .ledChange => true
  | .i2cTransaction t => t.wellFormed
  | .sclTimeout => true
  | .tickEdge _ phases => phases.all (fun e => okRegion e.1 && decide (e.2 < 16))
  | .issuedEdge r _ _ _ => okRegion r
  | .downSweep => true
  | .upSweep => true
  | .frozenFailureCountEnd => true
  | .powerOnResetRelease => true
  | .supplyOkChange _ _ => true
  | .buttonRelease => true
  | .testAccess _ => true
  | .manifestWrite b => b.inWindow 0xA00000 0xA60040

end Sys2Proof
end

