-- ==== Sys2Proof/Safety.lean ====
section
/-!
DEFINITION. The words in which claims about the fabric are made: a command that completes, a register write
that is performed, an event that stands, the parts of the state and what a command leaves of them, the
canonical form of the memories, and fuses that only blow.
-/
namespace Sys2Proof.Machine
open Sys2Proof

/-! ### Completion -/

/-- The command answers a next state, and that state has the property P. -/
def Completes (c : Instr) (s : State) (P : State → Prop) : Prop := ∃ t, exec c s = .next t ∧ P t

/-- The checks that every register write meets are passed, so the write is performed: the register is
reachable (R492, R512), every strobe is set (R440), the access is not denied (R458, R459, R481), no
higher-ranked port writes the register in the same period, unless the register decides that itself, is
held once per port, or is RCG_CFG of another region (R442, R453), and the write is taken where it stands: a bell-class one at once, a "now" one at a
slow-clock edge (R13, R15; log 79). -/
structure Performs (w : Wr) (a : Nat) (s : State) : Prop where
  reach : reachable s a = true
  whole : w.strb = 15
  allowed : writeDenied s w.port a = false
  wins : loses w = false ∨ ranked a = false ∨ oneRegister s w a = false
  now : takenNow s w a = true

/-- Bit k of a block's event register is set (R444). -/
abbrev Flagged (s : State) (b : Block) (k : Nat) : Prop := (eventOf s b).bits.getLsbD k = true

/-! ### The parts of the state -/

/-- The parts of the state, each one or a few fields of State; an event register is a part, and so is each of
its bits. -/
inductive Part where
  | queue | build | straps | hook | bellWritten | bellApplied | nowRegs | root | time | snaps | logs
  | flocks | gens | regions | xing | fold | fcst | zones | foTotal | crook | tally | cal | mus | shep | mbx
  | check | lc | power | data | retention | coreData | bmeas | answers | freeCount
  | eventReg (b : Block)
  | event (b : Block) (k : Nat)
  deriving DecidableEq, Repr

/-- Two states agree on a part. -/
def samePart (p : Part) (s t : State) : Prop :=
  match p with
  | .queue => t.pending = s.pending
  | .build => t.build = s.build
  | .straps => t.straps = s.straps
  | .hook => t.hook = s.hook
  | .bellWritten => t.cfgW = s.cfgW
  | .bellApplied => t.cfgA = s.cfgA
  | .nowRegs => t.nowR = s.nowR
  | .root => t.root = s.root
  | .time => t.time = s.time
  | .snaps => t.snaps = s.snaps
  | .logs => t.logs = s.logs
  | .flocks => t.flocks = s.flocks
  | .gens => t.gens = s.gens
  | .regions => t.regions = s.regions
  | .xing => t.xing = s.xing
  | .fold => t.fold = s.fold
  | .fcst => t.fcst = s.fcst
  | .zones => t.zones = s.zones
  | .foTotal => t.foTotal = s.foTotal
  | .crook => t.crook = s.crook
  | .tally => t.tally = s.tally
  | .cal => t.cal = s.cal
  | .mus => t.mus = s.mus
  | .shep => t.shep = s.shep
  | .mbx => t.mbx = s.mbx
  | .check => t.cfg = s.cfg
  | .lc => t.lc = s.lc
  | .power => t.power = s.power
  | .data => t.data = s.data
  | .retention => t.ret = s.ret
  | .coreData => t.dmem = s.dmem
  | .bmeas => t.bmStatus = s.bmStatus ∧ t.bmBusy = s.bmBusy ∧ t.bmTag = s.bmTag ∧ t.bmRows = s.bmRows
  | .answers => t.out = s.out
  | .freeCount => t.freeCtr = s.freeCtr
  | .eventReg b => eventOf t b = eventOf s b
  | .event b k => (eventOf t b).bits.getLsbD k = (eventOf s b).bits.getLsbD k

/-- The states agree on every part outside a list. -/
def SameBut (l : List Part) (s t : State) : Prop := ∀ p, p ∉ l → samePart p s t

/-- An event register that may change in the bits listed, SEQ and its companion with it (R444). -/
def evs (b : Block) (ks : List Nat) : List Part := .eventReg b :: ks.map (.event b)

/-- What every register write may change: the answer and the writes that wait, and the records of a partial, a
denied and a lost write (R15, R440, R442, R458). -/
def writeParts : List Part := [.answers, .check] ++ evs .cfg [5, 6, 8]

/-- Every bit of every event register. -/
def allEvents : List Part := allBlocks.flatMap (fun b => evs b (List.range 24))

/-- What a cold reset and the loss of both supplies may change: everything but the build, the straps, the
crossings' hookups and the queue (R492, R493). -/
def resetParts : List Part :=
  [.bellWritten, .bellApplied, .nowRegs, .root, .time, .snaps, .logs, .flocks, .gens, .regions, .xing, .fold, .fcst,
   .zones, .foTotal, .crook, .tally, .cal, .mus, .shep, .mbx, .check, .lc, .power, .data, .retention, .coreData, .bmeas,
   .answers] ++ allEvents

/-- What a reset of the fabric domain may change: not the counter, the life cycle, the retention RAM (R494, R496). -/
def warmParts : List Part :=
  [.bellWritten, .bellApplied, .nowRegs, .root, .snaps, .logs, .flocks, .gens, .regions, .xing, .fold, .fcst, .zones,
   .foTotal, .crook, .tally, .cal, .mus, .shep, .mbx, .check, .power, .data, .coreData, .bmeas, .answers] ++ allEvents

/-- What a register write at an address that the command gives may change, or a slow-clock edge, which performs the
writes that wait: all that some register's write does (R15). -/
def busParts : List Part :=
  [.bellWritten, .nowRegs, .root, .time, .snaps, .logs, .flocks, .gens, .regions, .xing, .fold, .fcst, .foTotal, .crook,
   .tally, .cal, .mus, .shep, .mbx, .check, .lc, .data, .retention, .coreData, .bmeas, .answers, .freeCount] ++ allEvents

/-- What a beat of the data port may change, by the window it falls into (R485, R487). -/
def beatParts (b : Beat) : List Part :=
  [.answers] ++
  match winOf (aligned b).addr.toNat with
  | .fcst => [.data, .fcst] ++ evs .fcst [1, 7, 8, 9]
  | .band => [.data, .gens]
  | .pin => [.data] ++ evs .xing [5]
  | .manifest => []
  | .image => [.data]
  | .firmware => [.data, .shep] ++ evs .shep [4, 7, 8, 9]
  | .reserved => []

/-! ### The commands by family, and what each may change -/

/-- The families of commands, one per chapter of the manual. -/
inductive Family where
  | root | mesh | fold | rcg | xing | fcst | zone | flock | tally | cal | muster | core | mailbox | bus | power | tick
  deriving DecidableEq, Repr

/-- The family of a command. -/
def familyOf : Instr → Family
  | .crystalQualified => .root
  | .missingCrystalEdge => .root
  | .edgesResume => .root
  | .refLoss => .root
  | .refReturn => .root
  | .frozenOutputFail _ _ => .root
  | .lockLoss _ _ _ _ _ _ => .root
  | .lockAcquired _ => .root
  | .synthQualified _ => .root
  | .bypExit _ _ _ => .root
  | .prefWrite _ _ => .root
  | .spareEnWrite _ _ => .root
  | .bypassForce _ _ => .root
  | .divApply _ _ => .root
  | .rootBtabWrite _ _ => .root
  | .rootMeas _ _ => .root
  | .rootMeasDone _ => .root
  | .rootAgeWrite _ _ => .root
  | .ageSlewStep => .root
  | .syncInEdge _ => .root
  | .bellSnapReq _ _ => .mesh
  | .bellLoad _ _ => .mesh
  | .broadcastFrame _ _ _ => .mesh
  | .pathLockDone _ _ _ _ => .mesh
  | .deltaTrack _ _ _ => .mesh
  | .pathFail _ _ _ => .mesh
  | .pathReturn _ _ => .mesh
  | .meshDisable _ _ _ => .mesh
  | .foldStart _ _ => .fold
  | .bell => .fold
  | .call => .fold
  | .graceTailStart => .fold
  | .regionPark _ => .fold
  | .pull _ => .fold
  | .tetherStop _ => .fold
  | .availInterlock _ => .fold
  | .roomStop _ => .fold
  | .tetherStopRelease _ => .fold
  | .excludeSet _ _ _ => .fold
  | .excludeClear _ _ _ => .fold
  | .foldTetherWrite _ _ => .fold
  | .foldStatReq _ _ => .fold
  | .foldLogSel _ _ => .fold
  | .windsockStretch _ _ => .rcg
  | .windsockHold _ _ => .rcg
  | .holdRelease _ _ => .rcg
  | .adviseOnset _ _ => .rcg
  | .bandChangeStopEnd _ => .rcg
  | .rcgSel _ _ => .rcg
  | .rcgCfgWrite _ _ => .rcg
  | .rcgBmeas _ _ => .rcg
  | .rcgBmeasDone _ => .rcg
  | .bandRowWrite _ => .rcg
  | .xingSel _ _ => .xing
  | .xingCfgWrite _ _ => .xing
  | .auditEnWrite _ _ => .xing
  | .auditClear _ _ => .xing
  | .auditMismatch _ _ _ => .xing
  | .pinWrite _ => .xing
  | .fcstModeWrite _ _ => .fcst
  | .fcstOpen _ _ _ => .fcst
  | .fcstSeal _ _ _ => .fcst
  | .fcstSwap _ _ _ => .fcst
  | .fcstStop _ _ => .fcst
  | .fcstCmdNone _ _ => .fcst
  | .fcstCmdInvalid _ _ _ => .fcst
  | .fcstEntryWrite _ => .fcst
  | .fcstSealShort _ => .fcst
  | .fcstVerifyDone _ => .fcst
  | .fcstNop _ => .fcst
  | .preStretch _ => .fcst
  | .fcLean _ => .fcst
  | .holdMargin _ => .fcst
  | .fcRelease _ => .fcst
  | .calSlot _ => .fcst
  | .skewCount _ => .fcst
  | .fcstStatReq _ _ => .fcst
  | .clampWindowEnd => .zone
  | .zoneStatReq _ _ => .zone
  | .generatorFail _ _ _ => .flock
  | .claimRetry _ _ => .flock
  | .spareLost _ _ _ => .flock
  | .spareLocked _ _ => .flock
  | .drvParity _ => .flock
  | .clearParity _ _ _ _ => .flock
  | .retest _ _ _ _ => .flock
  | .retestDone _ _ _ => .flock
  | .reinstate _ _ _ _ => .flock
  | .retire _ _ _ _ => .flock
  | .crkArm _ _ => .flock
  | .crkArmExpiry => .flock
  | .forceHoldRegion _ _ _ => .flock
  | .releaseRegion _ _ _ => .flock
  | .forceHoldFlock _ _ _ => .flock
  | .releaseFlock _ _ _ => .flock
  | .forceFailover _ _ _ _ _ => .flock
  | .crkCoreReset _ _ => .flock
  | .crkInvalidOp _ _ _ => .flock
  | .tallyClaim _ _ _ => .tally
  | .tallyRelease _ _ _ => .tally
  | .claimTimeout _ => .tally
  | .tallyArm _ _ _ _ _ => .tally
  | .tallyAbort _ _ _ => .tally
  | .tallyCalRefresh _ _ _ => .tally
  | .tallyGateOpen _ => .tally
  | .tallyStartEdge _ => .tally
  | .tallyStopEdge _ _ _ _ => .tally
  | .tallyWindowClose _ _ _ => .tally
  | .tempSample _ _ => .cal
  | .calFlockDue _ _ _ => .cal
  | .calAllDue _ _ => .cal
  | .restore _ _ => .cal
  | .cancelRestore _ _ => .cal
  | .calInvalidOp _ _ _ => .cal
  | .calImageWrite _ => .cal
  | .regionHoldStart _ => .cal
  | .regionHoldEnd _ _ _ _ => .cal
  | .spareCalStart _ _ => .cal
  | .spareCalEnd _ _ _ _ => .cal
  | .pathCalStart _ _ => .cal
  | .pathCalDone _ _ _ => .cal
  | .tallyPhaseCalStart _ => .cal
  | .tallyPhaseCalDone _ _ => .cal
  | .chargePumpCalStart _ => .cal
  | .chargePumpCalDone _ _ _ => .cal
  | .bandgapTrimStep _ => .cal
  | .calTimeout _ => .cal
  | .cableIn _ _ => .muster
  | .portUp _ => .muster
  | .portDown _ _ => .muster
  | .roundStart => .muster
  | .helloSend _ => .muster
  | .hello _ _ => .muster
  | .tree _ _ => .muster
  | .syncSend _ _ _ => .muster
  | .sync _ _ _ => .muster
  | .followSend _ => .muster
  | .follow _ _ => .muster
  | .offset _ _ => .muster
  | .muDone _ _ => .muster
  | .doneDeadline => .muster
  | .muApply => .muster
  | .ageTransfer => .muster
  | .ppsInEdge _ => .muster
  | .ppsOut => .muster
  | .todArm _ _ => .muster
  | .fwOpen _ _ _ => .core
  | .fwSeal _ _ _ => .core
  | .fwSwap _ _ _ => .core
  | .fwBankInvalidOp _ _ _ => .core
  | .fwDataWrite _ => .core
  | .fwSealShort _ => .core
  | .fwVerifyDone _ => .core
  | .fwSwapPreStart => .core
  | .halt _ _ _ => .core
  | .shepAssertWrite _ _ => .core
  | .haltRestart => .core
  | .wdog => .core
  | .watchdogKick _ => .core
  | .eccCorr _ => .core
  | .mbxGo _ _ => .mailbox
  | .mbxWithdraw _ _ => .mailbox
  | .mbxTake => .mailbox
  | .version => .mailbox
  | .status => .mailbox
  | .nop => .mailbox
  | .rowVerify => .mailbox
  | .rowVerifyJobEnd _ => .mailbox
  | .xcal => .mailbox
  | .calDone _ => .mailbox
  | .jobStatus => .mailbox
  | .jobAbort => .mailbox
  | .jobKill => .mailbox
  | .releaseTally => .mailbox
  | .cfgCommit => .mailbox
  | .identify => .mailbox
  | .identifyExpiry => .mailbox
  | .badOpcode => .mailbox
  | .eventClear _ _ _ => .bus
  | .cfgCtrlWrite _ _ => .bus
  | .preBellApply => .bus
  | .configPassEnd => .bus
  | .restoreWriteDone => .bus
  | .regWrite _ _ _ => .bus
  | .badBurst _ _ => .bus
  | .onBackup => .power
  | .onMain => .power
  | .backupFail => .power
  | .powerOnReset => .power
  | .coldReset => .power
  | .warmReset => .power
  | .fabPowerLoss => .power
  | .fabPowerReturn => .power
  | .hcAreset => .power
  | .lcTransition _ _ _ => .power
  | .lcRevoke _ _ _ => .power
  | .lcOpRefuse _ _ => .power
  | .lcDone => .power
  | .eraseDone => .power
  | .buttonPress => .power
  | .btnLong => .power
  | .btnShort => .power
  | .ledChange => .power
  | .i2cTransaction _ => .power
  | .sclTimeout => .power
  | .tickEdge _ _ => .tick
  | .issuedEdge _ _ _ _ => .tick
  | .downSweep => .muster
  | .upSweep => .muster
  | .frozenFailureCountEnd => .root
  | .powerOnResetRelease => .power
  | .supplyOkChange _ _ => .power
  | .buttonRelease => .power
  | .testAccess _ => .power
  | .manifestWrite _ => .xing

/-- The parts of the state that a command may change; every other part stays as it is. -/
def footprint : Instr → List Part
  | .crystalQualified => [.root] ++ evs .root [8]
  | .missingCrystalEdge => [.fold, .root, .tally, .time] ++ evs .root [10]
  | .edgesResume => [.fold, .regions, .root, .time] ++ evs .root [2, 3, 8]
  | .refLoss => [.root] ++ evs .root [5]
  | .refReturn => [.fold, .regions, .root, .time] ++ evs .root [2, 3, 6, 8]
  | .frozenOutputFail y _ => [.answers, .fold, .regions, .root, .time] ++ evs .root [lossBit y, 2, 3, 7, 8, 10]
  | .lockLoss _ _ _ _ _ _ => [.answers, .fold, .regions, .root, .time] ++ evs .root [0, 1, 2, 3, 7, 8, 10]
  | .lockAcquired _ => [.root]
  | .synthQualified _ => [.root] ++ evs .root [2, 8]
  | .bypExit _ _ _ => [.power, .root] ++ evs .root [2, 4, 8]
  | .prefWrite _ _ => writeParts ++ [.nowRegs, .root] ++ evs .root [2, 8]
  | .spareEnWrite _ _ => writeParts ++ [.nowRegs, .root] ++ evs .root [2, 8]
  | .bypassForce _ _ => writeParts ++ [.nowRegs, .root] ++ evs .root [2, 8]
  | .divApply _ _ => writeParts ++ [.nowRegs, .root] ++ evs .root [7, 8]
  | .rootBtabWrite _ _ => writeParts ++ [.retention, .root] ++ evs .root [8]
  | .rootMeas _ _ => writeParts ++ [.nowRegs, .root]
  | .rootMeasDone _ => [.nowRegs, .root] ++ evs .root [8]
  | .rootAgeWrite _ _ => writeParts ++ [.mus, .nowRegs]
  | .ageSlewStep => [.mus, .root]
  | .syncInEdge _ => [.root] ++ evs .root [9]
  | .bellSnapReq _ _ => writeParts ++ [.nowRegs, .snaps]
  | .bellLoad _ _ =>
      writeParts ++ [.fold, .lc, .mus, .nowRegs, .regions, .root, .time] ++ evs .bell [0, 1] ++ evs .fold [5]
  | .broadcastFrame _ _ _ => [.flocks]
  | .pathLockDone _ _ _ _ =>
      [.bellApplied, .bellWritten, .check, .flocks, .gens, .nowRegs, .power, .regions, .root, .tally] ++ evs
      .bell [4] ++ evs .cfg [2, 3] ++ evs .flock [2, 9, 10] ++ evs .rcg [1, 2, 3]
  | .deltaTrack _ _ _ => [.flocks]
  | .pathFail _ _ _ =>
      [.flocks, .fold, .regions, .xing] ++ evs .bell [2, 4, 5] ++ evs .flock [2, 9, 10] ++ evs .fold [9]
  | .pathReturn _ _ => [.flocks] ++ evs .bell [3, 4] ++ evs .flock [2, 9, 10]
  | .meshDisable _ _ _ =>
      writeParts ++ [.flocks, .fold, .nowRegs, .regions, .xing] ++ evs .bell [4] ++ evs .flock [2, 9, 10] ++
      evs .fold [9]
  | .foldStart _ _ => writeParts ++ [.fold, .nowRegs] ++ evs .fold [5]
  | .bell =>
      [.bellApplied, .bellWritten, .cal, .check, .coreData, .fcst, .flocks, .foTotal, .fold, .gens, .mbx,
      .mus, .regions, .root, .shep, .tally, .time, .xing, .zones] ++ evs .cal [0, 1, 2, 5, 7, 8] ++ evs .cfg
      [2, 4] ++ evs .fcst [2, 3, 4, 5, 6] ++ evs .flock [0, 2, 3, 4, 5, 8, 9, 10] ++ evs .fold [0, 3, 4, 7, 8,
      9, 11] ++ evs .mbx [0, 1, 2] ++ evs .rcg [1, 2, 3, 5, 6, 8] ++ evs .shep [2, 5, 11] ++ evs .xing [2] ++
      evs .zone [1, 3, 4, 5, 6]
  | .call => [.fold, .regions, .zones] ++ evs .fold [1, 2, 10] ++ evs .zone [0, 1, 2]
  | .graceTailStart =>
      [.fcst, .flocks, .fold, .gens, .regions, .shep] ++ evs .cal [3] ++ evs .fcst [3] ++ evs .flock [2, 3, 9,
      10] ++ evs .rcg [0]
  | .regionPark _ => [.cal, .flocks, .gens, .regions] ++ evs .flock [2, 3, 8, 9, 10] ++ evs .rcg [1, 2, 3]
  | .pull _ => [.fold, .regions]
  | .tetherStop _ => [.fold, .xing]
  | .availInterlock _ => [.fold, .xing]
  | .roomStop _ => [.fold, .xing] ++ evs .xing [7]
  | .tetherStopRelease _ => [.xing]
  | .excludeSet _ _ _ =>
      writeParts ++ [.flocks, .fold, .gens, .nowRegs, .regions, .xing] ++ evs .flock [2, 3, 9, 10] ++ evs
      .fold [12] ++ evs .rcg [1, 2, 3]
  | .excludeClear _ _ _ =>
      writeParts ++ [.flocks, .fold, .gens, .nowRegs, .regions, .xing] ++ evs .flock [2, 3, 9, 10] ++ evs
      .fold [12] ++ evs .rcg [1, 2, 3]
  | .foldTetherWrite _ _ => writeParts ++ [.nowRegs] ++ evs .fold [6]
  | .foldStatReq _ _ => writeParts ++ [.nowRegs, .snaps]
  | .foldLogSel _ _ => writeParts ++ [.logs, .nowRegs]
  | .windsockStretch _ _ => [.regions, .zones] ++ evs .rcg [4]
  | .windsockHold _ _ => [.regions, .zones] ++ evs .rcg [4]
  | .holdRelease _ _ => [.regions, .zones] ++ evs .rcg [4]
  | .adviseOnset _ _ => [.regions, .zones] ++ evs .rcg [4]
  | .bandChangeStopEnd _ => [.gens, .regions]
  | .rcgSel _ _ => writeParts ++ [.nowRegs, .snaps]
  | .rcgCfgWrite _ _ => writeParts ++ [.bellWritten] ++ evs .cfg [7]
  | .rcgBmeas _ _ => writeParts ++ [.bmeas, .flocks, .gens, .nowRegs] ++ evs .flock [2, 3, 9, 10]
  | .rcgBmeasDone _ => [.bmeas, .data, .flocks, .gens] ++ evs .flock [2, 3, 9, 10] ++ evs .rcg [1, 2, 3]
  | .bandRowWrite b => beatParts b
  | .xingSel _ _ => writeParts ++ [.nowRegs, .snaps]
  | .xingCfgWrite _ _ => writeParts ++ [.nowRegs] ++ evs .xing [6, 9]
  | .auditEnWrite _ _ => writeParts ++ [.nowRegs, .xing]
  | .auditClear _ _ => writeParts ++ [.nowRegs, .xing]
  | .auditMismatch _ _ _ => [.xing] ++ evs .xing [3]
  | .pinWrite b => beatParts b
  | .fcstModeWrite _ _ => writeParts ++ [.data, .fcst, .freeCount, .nowRegs] ++ evs .fcst [10]
  | .fcstOpen _ _ _ => writeParts ++ [.fcst, .nowRegs] ++ evs .fcst [3, 10]
  | .fcstSeal _ _ _ => writeParts ++ [.fcst, .nowRegs] ++ evs .fcst [1, 10]
  | .fcstSwap _ _ _ => writeParts ++ [.fcst, .nowRegs] ++ evs .fcst [10]
  | .fcstStop _ _ => writeParts ++ [.fcst, .nowRegs]
  | .fcstCmdNone _ _ => writeParts ++ [.fcst, .nowRegs]
  | .fcstCmdInvalid _ _ _ => writeParts ++ [.fcst, .nowRegs] ++ evs .fcst [10]
  | .fcstEntryWrite b => beatParts b
  | .fcstSealShort _ => [.fcst] ++ evs .fcst [1]
  | .fcstVerifyDone _ => [.fcst] ++ evs .fcst [0, 1]
  | .fcstNop _ => [.flocks]
  | .preStretch _ => [.fcst, .flocks, .regions]
  | .fcLean _ => [.fcst, .flocks, .regions, .zones]
  | .holdMargin _ => [.fcst, .flocks, .regions, .zones]
  | .fcRelease _ => [.fcst, .flocks, .regions]
  | .calSlot _ => [.cal, .fcst, .flocks, .regions]
  | .skewCount _ => [.fcst, .regions]
  | .fcstStatReq _ _ => writeParts ++ [.nowRegs, .snaps]
  | .clampWindowEnd => [.regions, .zones] ++ evs .zone [3, 4]
  | .zoneStatReq _ _ => writeParts ++ [.nowRegs, .snaps]
  | .generatorFail _ _ _ =>
      [.crook, .flocks, .foTotal, .fold, .gens, .regions, .xing] ++ evs .cal [7] ++ evs .flock [0, 2, 3, 4, 5,
      9, 10] ++ evs .fold [9]
  | .claimRetry _ _ =>
      [.flocks, .foTotal, .fold, .gens, .regions, .xing] ++ evs .cal [7] ++ evs .flock [0, 2, 3, 4, 5, 9, 10]
      ++ evs .fold [9]
  | .spareLost _ _ _ => [.flocks, .gens] ++ evs .flock [1, 2, 3, 9, 10]
  | .spareLocked _ _ => [.flocks, .gens] ++ evs .flock [2, 3, 9, 10]
  | .drvParity _ => [.flocks] ++ evs .flock [2, 9, 10, 11]
  | .clearParity _ _ _ _ => writeParts ++ [.flocks, .nowRegs] ++ evs .flock [2, 9, 10]
  | .retest _ _ _ _ => writeParts ++ [.flocks, .nowRegs]
  | .retestDone _ _ _ => [.data, .flocks, .gens] ++ evs .flock [2, 3, 6, 9, 10, 12] ++ evs .rcg [7]
  | .reinstate _ _ _ _ =>
      writeParts ++ [.flocks, .gens, .nowRegs, .regions] ++ evs .flock [2, 3, 7, 8, 9, 10] ++ evs .rcg [1, 2,
      3]
  | .retire _ _ _ _ => writeParts ++ [.flocks, .gens, .nowRegs] ++ evs .flock [2, 3, 9, 10]
  | .crkArm _ _ => writeParts ++ [.crook]
  | .crkArmExpiry => [.crook]
  | .forceHoldRegion _ _ _ => writeParts ++ [.crook, .nowRegs, .regions]
  | .releaseRegion _ _ _ => writeParts ++ [.crook, .nowRegs, .regions]
  | .forceHoldFlock _ _ _ => writeParts ++ [.crook, .nowRegs, .regions]
  | .releaseFlock _ _ _ => writeParts ++ [.crook, .nowRegs, .regions]
  | .forceFailover _ _ _ _ _ =>
      writeParts ++ [.crook, .flocks, .foTotal, .gens, .nowRegs, .regions] ++ evs .cal [7] ++ evs .flock [0,
      2, 3, 4, 9, 10] ++ evs .rcg [1, 2, 3]
  | .crkCoreReset _ _ =>
      writeParts ++ [.cal, .coreData, .crook, .flocks, .gens, .mbx, .mus, .nowRegs, .regions, .shep, .tally,
      .xing] ++ evs .cal [0, 1, 2, 7] ++ evs .mbx [0, 1, 2] ++ evs .shep [2, 11]
  | .crkInvalidOp _ _ _ => writeParts ++ [.crook, .nowRegs]
  | .tallyClaim _ _ _ => writeParts ++ [.nowRegs, .tally] ++ evs .tally [5]
  | .tallyRelease _ _ _ => writeParts ++ [.nowRegs, .tally] ++ evs .tally [5]
  | .claimTimeout _ => [.tally] ++ evs .tally [6]
  | .tallyArm _ unit _ _ _ => writeParts ++ [.nowRegs, .tally] ++ evs .tally [unit.toNat, 4, 5, 7]
  | .tallyAbort _ _ _ => writeParts ++ [.nowRegs, .tally] ++ evs .tally [5]
  | .tallyCalRefresh unit _ _ => [.tally] ++ evs .tally [unit.toNat, 4, 7]
  | .tallyGateOpen gate => [.tally] ++ evs .tally [gate.unit.toNat, 7]
  | .tallyStartEdge _ => [.tally]
  | .tallyStopEdge _ _ _ _ => [.tally]
  | .tallyWindowClose unit _ _ => [.tally] ++ evs .tally [unit.toNat, 4, 7]
  | .tempSample _ _ => [.cal, .flocks, .gens, .regions, .root, .tally]
  | .calFlockDue _ _ _ => writeParts ++ [.cal, .flocks, .gens, .nowRegs, .regions]
  | .calAllDue _ _ => writeParts ++ [.cal, .flocks, .gens, .nowRegs, .regions]
  | .restore _ _ => writeParts ++ [.cal, .nowRegs] ++ evs .cal [6]
  | .cancelRestore _ _ => writeParts ++ [.cal, .nowRegs]
  | .calInvalidOp _ _ _ => writeParts ++ [.cal, .nowRegs]
  | .calImageWrite b => beatParts b
  | .regionHoldStart _ => [.regions]
  | .regionHoldEnd _ _ _ _ => [.cal, .flocks, .gens, .regions, .shep] ++ evs .cal [0, 1, 2, 7]
  | .spareCalStart _ _ => [.flocks, .gens] ++ evs .flock [2, 3, 9, 10]
  | .spareCalEnd _ _ _ _ =>
      [.cal, .flocks, .gens, .regions, .shep] ++ evs .cal [0, 1, 2, 7] ++ evs .flock [2, 3, 9, 10] ++ evs .rcg
      [1, 2, 3]
  | .pathCalStart _ _ => [.flocks, .fold, .regions, .xing] ++ evs .bell [4] ++ evs .flock [2, 9, 10] ++ evs .fold [9]
  | .pathCalDone _ _ _ => [.cal, .flocks, .gens, .regions] ++ evs .cal [0, 1, 2, 7]
  | .tallyPhaseCalStart _ => [.tally]
  | .tallyPhaseCalDone _ _ => [.cal, .tally] ++ evs .cal [1, 2, 7]
  | .chargePumpCalStart _ => [.cal, .root]
  | .chargePumpCalDone _ _ _ => [.cal, .root] ++ evs .cal [1, 2, 7] ++ evs .root [2, 8]
  | .bandgapTrimStep _ => [.cal] ++ evs .cal [1, 2]
  | .calTimeout _ =>
      [.flocks, .gens, .root, .tally] ++ evs .bell [4] ++ evs .cal [4] ++ evs .flock [2, 3, 9, 10] ++ evs .rcg
      [1, 2, 3] ++ evs .root [2, 8]
  | .cableIn _ _ => [.lc, .mus] ++ evs .mus [0, 1, 3]
  | .portUp _ => [.mus] ++ evs .mus [2]
  | .portDown _ _ => [.mus] ++ evs .mus [3]
  | .roundStart => [.mus] ++ evs .mus [3]
  | .helloSend _ => [.mus]
  | .hello _ _ => [.mus] ++ evs .mus [3, 9, 11]
  | .tree _ _ => [.mus] ++ evs .mus [3, 9]
  | .syncSend _ _ _ => [.mus]
  | .sync _ _ _ => [.mus] ++ evs .mus [3, 9]
  | .followSend _ => [.freeCount, .mus]
  | .follow _ _ => [.mus] ++ evs .mus [3, 9]
  | .offset _ _ => [.mus, .shep] ++ evs .mus [3, 9]
  | .muDone _ _ => [.mus] ++ evs .mus [3, 9]
  | .doneDeadline => [.mus]
  | .muApply => [.freeCount, .mus, .retention] ++ evs .mus [4, 5, 6, 7, 8]
  | .ageTransfer => [.answers, .freeCount, .mus, .retention]
  | .ppsInEdge _ => [.mus] ++ evs .mus [10]
  | .ppsOut => [.mus]
  | .todArm _ _ => writeParts ++ [.mus, .nowRegs]
  | .fwOpen _ _ _ => writeParts ++ [.nowRegs, .shep] ++ evs .shep [6, 12]
  | .fwSeal _ _ _ => writeParts ++ [.nowRegs, .shep] ++ evs .shep [4, 12]
  | .fwSwap _ _ _ => writeParts ++ [.nowRegs, .shep] ++ evs .shep [12]
  | .fwBankInvalidOp _ _ _ => writeParts ++ [.nowRegs, .shep] ++ evs .shep [12]
  | .fwDataWrite b => beatParts b
  | .fwSealShort _ => [.shep] ++ evs .shep [4]
  | .fwVerifyDone _ => [.shep, .check] ++ evs .shep [3, 4] ++ evs .cfg [8]
  | .fwSwapPreStart =>
      [.cal, .coreData, .flocks, .gens, .mbx, .mus, .regions, .shep, .tally, .xing] ++ evs .cal [0, 1, 2, 7]
      ++ evs .mbx [0, 1, 2] ++ evs .shep [2, 5, 11]
  | .halt _ _ _ => [.mbx, .shep, .tally, .xing] ++ evs .mbx [0, 1, 2] ++ evs .shep [0, 11]
  | .shepAssertWrite _ _ => [.mbx, .shep, .tally, .xing] ++ evs .mbx [0, 1, 2] ++ evs .shep [0, 11]
  | .haltRestart =>
      [.cal, .coreData, .flocks, .gens, .mbx, .mus, .regions, .shep, .tally, .xing] ++ evs .cal [0, 1, 2, 7]
      ++ evs .mbx [0, 1, 2] ++ evs .shep [2, 11]
  | .wdog =>
      [.cal, .coreData, .flocks, .gens, .mbx, .mus, .regions, .shep, .tally, .xing] ++ evs .cal [0, 1, 2, 7]
      ++ evs .mbx [0, 1, 2] ++ evs .shep [1, 2, 11]
  | .watchdogKick _ => [.shep]
  | .eccCorr _ => [.shep] ++ evs .shep [10]
  | .mbxGo _ m => writeParts ++ [.crook, .mbx] ++ evs .mbx [3 + m.toNat, 6]
  | .mbxWithdraw _ m => writeParts ++ [.mbx] ++ evs .mbx [m.toNat, 6]
  | .mbxTake => [.mbx]
  | .version => [.mbx, .shep] ++ evs .mbx [0, 1, 2]
  | .status => [.mbx, .shep] ++ evs .mbx [0, 1, 2]
  | .nop => [.mbx, .shep] ++ evs .mbx [0, 1, 2]
  | .rowVerify => [.freeCount, .gens, .mbx, .retention, .shep] ++ evs .mbx [0, 1, 2]
  | .rowVerifyJobEnd _ =>
      [.flocks, .freeCount, .gens, .regions, .retention, .shep] ++ evs .flock [2, 3, 9, 10] ++ evs .rcg [1, 2, 3, 7] ++
      evs .shep [11]
  | .xcal => [.data, .freeCount, .mbx, .retention, .shep, .tally, .xing] ++ evs .mbx [0, 1, 2] ++ evs .xing [5]
  | .calDone _ => [.freeCount, .retention, .shep, .tally, .xing] ++ evs .shep [11] ++ evs .xing [0, 1, 4, 8]
  | .jobStatus => [.freeCount, .mbx, .shep] ++ evs .mbx [0, 1, 2]
  | .jobAbort => [.mbx, .shep, .tally, .xing] ++ evs .mbx [0, 1, 2] ++ evs .shep [11]
  | .jobKill => [.mbx, .shep, .tally, .xing] ++ evs .mbx [0, 1, 2] ++ evs .shep [11]
  | .releaseTally => [.mbx, .shep, .tally, .xing] ++ evs .mbx [0, 1, 2] ++ evs .shep [11]
  | .cfgCommit => [.mbx, .retention, .shep] ++ evs .mbx [0, 1, 2]
  | .identify => [.mbx, .shep] ++ evs .mbx [0, 1, 2]
  | .identifyExpiry => [.shep]
  | .badOpcode => [.mbx, .shep] ++ evs .mbx [0, 1, 2]
  | .eventClear _ blk _ => writeParts ++ evs blk (List.range 24)
  | .cfgCtrlWrite _ _ => writeParts
  | .preBellApply =>
      [.bellApplied, .cal, .check, .flocks, .fold, .gens, .regions, .root, .tally] ++ evs .cal [8] ++ evs .cfg
      [2, 4] ++ evs .flock [2, 3, 9, 10] ++ evs .fold [3, 11] ++ evs .rcg [1, 2, 3, 5, 6, 8] ++ evs .zone [6]
  | .configPassEnd => [.check] ++ evs .cfg [0, 1, 3]
  | .restoreWriteDone => [.bellWritten, .check]
  | .regWrite _ _ _ => busParts
  | .badBurst _ _ => [.answers]
  | .onBackup => [.lc] ++ evs .lc [0]
  | .onMain => [.lc] ++ evs .lc [1]
  | .backupFail => [.lc] ++ evs .lc [2]
  | .powerOnReset => resetParts
  | .coldReset => resetParts
  | .warmReset => warmParts
  | .fabPowerLoss => warmParts
  | .fabPowerReturn => [.power]
  | .hcAreset => [.answers, .crook, .lc, .root]
  | .lcTransition _ _ _ => writeParts ++ [.lc, .nowRegs] ++ evs .lc [6]
  | .lcRevoke _ _ _ => writeParts ++ [.lc, .nowRegs] ++ evs .lc [6]
  | .lcOpRefuse _ _ => writeParts ++ [.lc, .nowRegs] ++ evs .lc [6]
  | .lcDone => [.lc, .nowRegs] ++ evs .lc [5, 6]
  | .eraseDone => warmParts ++ [.lc, .retention]
  | .buttonPress => [.lc]
  | .btnLong => [.lc] ++ evs .lc [4]
  | .btnShort => [.lc] ++ evs .lc [3]
  | .ledChange => [.lc]
  | .i2cTransaction _ => busParts
  | .sclTimeout => [.answers]
  | .tickEdge _ _ => busParts
  | .issuedEdge _ _ _ _ => [.fcst, .flocks, .gens, .regions, .xing]
  | .downSweep => [.mus] ++ evs .mus [3]
  | .upSweep => [.mus]
  | .frozenFailureCountEnd => [.root] ++ evs .root [8]
  | .powerOnResetRelease => resetParts
  | .supplyOkChange _ _ => [.lc] ++ evs .lc [2]
  | .buttonRelease => [.lc]
  | .testAccess _ => [.freeCount, .lc, .check] ++ evs .cfg [8]
  | .manifestWrite b => beatParts b

/-- The register that a command writes, and how: none where the command is no register write. -/
def regTarget : Instr → Option (Wr × Nat)
  | .crystalQualified => none
  | .missingCrystalEdge => none
  | .edgesResume => none
  | .refLoss => none
  | .refReturn => none
  | .frozenOutputFail _ _ => none
  | .lockLoss _ _ _ _ _ _ => none
  | .lockAcquired _ => none
  | .synthQualified _ => none
  | .bypExit _ _ _ => none
  | .prefWrite w _ => some (w, 0x2000)
  | .spareEnWrite w _ => some (w, 0x2000)
  | .bypassForce w _ => some (w, 0x2000)
  | .divApply w _ => some (w, 0x200C)
  | .rootBtabWrite w _ => some (w, 0x2020)
  | .rootMeas w _ => some (w, 0x2024)
  | .rootMeasDone _ => none
  | .rootAgeWrite w _ => some (w, 0x2034)
  | .ageSlewStep => none
  | .syncInEdge _ => none
  | .bellSnapReq w _ => some (w, 0x1000)
  | .bellLoad w _ => some (w, 0x1018)
  | .broadcastFrame _ _ _ => none
  | .pathLockDone _ _ _ _ => none
  | .deltaTrack _ _ _ => none
  | .pathFail _ _ _ => none
  | .pathReturn _ _ => none
  | .meshDisable w flock _ => some (w, flockAddr flock 0xC)
  | .foldStart w _ => some (w, 0x3010)
  | .bell => none
  | .call => none
  | .graceTailStart => none
  | .regionPark _ => none
  | .pull _ => none
  | .tetherStop _ => none
  | .availInterlock _ => none
  | .roomStop _ => none
  | .tetherStopRelease _ => none
  | .excludeSet w _ _ => some (w, 0x3020)
  | .excludeClear w _ _ => some (w, 0x3020)
  | .foldTetherWrite w _ => some (w, 0x3004)
  | .foldStatReq w _ => some (w, 0x3028)
  | .foldLogSel w _ => some (w, 0x3050)
  | .windsockStretch _ _ => none
  | .windsockHold _ _ => none
  | .holdRelease _ _ => none
  | .adviseOnset _ _ => none
  | .bandChangeStopEnd _ => none
  | .rcgSel w _ => some (w, 0x4000)
  | .rcgCfgWrite w _ => some (w, 0x400C)
  | .rcgBmeas w _ => some (w, 0x404C)
  | .rcgBmeasDone _ => none
  | .bandRowWrite _ => none
  | .xingSel w _ => some (w, 0x5000)
  | .xingCfgWrite w _ => some (w, 0x501C)
  | .auditEnWrite w _ => some (w, 0x5030)
  | .auditClear w _ => some (w, 0x5030)
  | .auditMismatch _ _ _ => none
  | .pinWrite _ => none
  | .fcstModeWrite w _ => some (w, 0x6000)
  | .fcstOpen w _ _ => some (w, 0x6004)
  | .fcstSeal w _ _ => some (w, 0x6004)
  | .fcstSwap w _ _ => some (w, 0x6004)
  | .fcstStop w _ => some (w, 0x6004)
  | .fcstCmdNone w _ => some (w, 0x6004)
  | .fcstCmdInvalid w _ _ => some (w, 0x6004)
  | .fcstEntryWrite _ => none
  | .fcstSealShort _ => none
  | .fcstVerifyDone _ => none
  | .fcstNop _ => none
  | .preStretch _ => none
  | .fcLean _ => none
  | .holdMargin _ => none
  | .fcRelease _ => none
  | .calSlot _ => none
  | .skewCount _ => none
  | .fcstStatReq w _ => some (w, 0x602C)
  | .clampWindowEnd => none
  | .zoneStatReq w _ => some (w, 0x7024)
  | .generatorFail _ _ _ => none
  | .claimRetry _ _ => none
  | .spareLost _ _ _ => none
  | .spareLocked _ _ => none
  | .drvParity _ => none
  | .clearParity w flock _ _ => some (w, flockAddr flock 0x2C)
  | .retest w flock _ _ => some (w, flockAddr flock 0x2C)
  | .retestDone _ _ _ => none
  | .reinstate w flock _ _ => some (w, flockAddr flock 0x2C)
  | .retire w flock _ _ => some (w, flockAddr flock 0x2C)
  | .crkArm w _ => some (w, 0xE000)
  | .crkArmExpiry => none
  | .forceHoldRegion w _ _ => some (w, 0xE004)
  | .releaseRegion w _ _ => some (w, 0xE004)
  | .forceHoldFlock w _ _ => some (w, 0xE004)
  | .releaseFlock w _ _ => some (w, 0xE004)
  | .forceFailover w _ _ _ _ => some (w, 0xE004)
  | .crkCoreReset w _ => some (w, 0xE004)
  | .crkInvalidOp w _ _ => some (w, 0xE004)
  | .tallyClaim w _ _ => some (w, 0x9000)
  | .tallyRelease w _ _ => some (w, 0x9000)
  | .claimTimeout _ => none
  | .tallyArm w unit _ _ _ => some (w, tallyAddr unit.toNat 0x30)
  | .tallyAbort w unit _ => some (w, tallyAddr unit.toNat 0x30)
  | .tallyCalRefresh _ _ _ => none
  | .tallyGateOpen _ => none
  | .tallyStartEdge _ => none
  | .tallyStopEdge _ _ _ _ => none
  | .tallyWindowClose _ _ _ => none
  | .tempSample _ _ => none
  | .calFlockDue w _ _ => some (w, 0xA004)
  | .calAllDue w _ => some (w, 0xA004)
  | .restore w _ => some (w, 0xA004)
  | .cancelRestore w _ => some (w, 0xA004)
  | .calInvalidOp w _ _ => some (w, 0xA004)
  | .calImageWrite _ => none
  | .regionHoldStart _ => none
  | .regionHoldEnd _ _ _ _ => none
  | .spareCalStart _ _ => none
  | .spareCalEnd _ _ _ _ => none
  | .pathCalStart _ _ => none
  | .pathCalDone _ _ _ => none
  | .tallyPhaseCalStart _ => none
  | .tallyPhaseCalDone _ _ => none
  | .chargePumpCalStart _ => none
  | .chargePumpCalDone _ _ _ => none
  | .bandgapTrimStep _ => none
  | .calTimeout _ => none
  | .cableIn _ _ => none
  | .portUp _ => none
  | .portDown _ _ => none
  | .roundStart => none
  | .helloSend _ => none
  | .hello _ _ => none
  | .tree _ _ => none
  | .syncSend _ _ _ => none
  | .sync _ _ _ => none
  | .followSend _ => none
  | .follow _ _ => none
  | .offset _ _ => none
  | .muDone _ _ => none
  | .doneDeadline => none
  | .muApply => none
  | .ageTransfer => none
  | .ppsInEdge _ => none
  | .ppsOut => none
  | .todArm w _ => some (w, 0xB038)
  | .fwOpen w _ _ => some (w, 0xC024)
  | .fwSeal w _ _ => some (w, 0xC024)
  | .fwSwap w _ _ => some (w, 0xC024)
  | .fwBankInvalidOp w _ _ => some (w, 0xC024)
  | .fwDataWrite _ => none
  | .fwSealShort _ => none
  | .fwVerifyDone _ => none
  | .fwSwapPreStart => none
  | .halt _ _ _ => none
  | .shepAssertWrite _ _ => none
  | .haltRestart => none
  | .wdog => none
  | .watchdogKick _ => none
  | .eccCorr _ => none
  | .mbxGo w m => some (w, mbxAddr m.toNat 0)
  | .mbxWithdraw w m => some (w, mbxAddr m.toNat 0)
  | .mbxTake => none
  | .version => none
  | .status => none
  | .nop => none
  | .rowVerify => none
  | .rowVerifyJobEnd _ => none
  | .xcal => none
  | .calDone _ => none
  | .jobStatus => none
  | .jobAbort => none
  | .jobKill => none
  | .releaseTally => none
  | .cfgCommit => none
  | .identify => none
  | .identifyExpiry => none
  | .badOpcode => none
  | .eventClear w blk _ => some (w, eventAddr blk)
  | .cfgCtrlWrite w _ => some (w, 0x10)
  | .preBellApply => none
  | .configPassEnd => none
  | .restoreWriteDone => none
  | .regWrite w addr _ => some (w, addr.toNat - addr.toNat % 4)
  | .badBurst _ _ => none
  | .onBackup => none
  | .onMain => none
  | .backupFail => none
  | .powerOnReset => none
  | .coldReset => none
  | .warmReset => none
  | .fabPowerLoss => none
  | .fabPowerReturn => none
  | .hcAreset => none
  | .lcTransition w _ _ => some (w, 0xF004)
  | .lcRevoke w _ _ => some (w, 0xF004)
  | .lcOpRefuse w _ => some (w, 0xF004)
  | .lcDone => none
  | .eraseDone => none
  | .buttonPress => none
  | .btnLong => none
  | .btnShort => none
  | .ledChange => none
  | .i2cTransaction _ => none
  | .sclTimeout => none
  | .tickEdge _ _ => none
  | .issuedEdge _ _ _ _ => none
  | .downSweep => none
  | .upSweep => none
  | .frozenFailureCountEnd => none
  | .powerOnResetRelease => none
  | .supplyOkChange _ _ => none
  | .buttonRelease => none
  | .testAccess _ => none
  | .manifestWrite _ => none

/-! ### Units, outcomes and beats -/

/-- The build has the unit that an event names (R17, R24); a command that names none always passes.  A
calibration's timeout looks at its unit only while the timeout is on (R358). -/
def unitPresent (s : State) : Instr → Bool
  | .broadcastFrame f p _ => isPath s f p
  | .pathLockDone f p _ _ => isPath s f p
  | .deltaTrack f p _ => isPath s f p
  | .pathFail f p _ => isPath s f p
  | .pathReturn f p => isPath s f p
  | .pathCalStart f p => isPath s f p
  | .pathCalDone f p _ => isPath s f p
  | .calTimeout (.path f p) => !v1Timeout s || isPath s f p
  | .calTimeout (.spare f j) => !v1Timeout s || isSpare s f j
  | .spareLost f j _ => isSpare s f j
  | .spareLocked f j => isSpare s f j
  | .spareCalStart f j => isSpare s f j
  | .spareCalEnd f j _ _ => isSpare s f j
  | .regionPark r => isRegion s r
  | .pull r => isRegion s r
  | .windsockStretch r _ => isRegion s r
  | .windsockHold r _ => isRegion s r
  | .holdRelease r _ => isRegion s r
  | .adviseOnset r _ => isRegion s r
  | .skewCount r => isRegion s r
  | .claimRetry f k => decide (k < 16) && isRegion s (16 * f + k)
  | .regionHoldStart r => isRegion s r
  | .regionHoldEnd r _ _ _ => isRegion s r
  | .issuedEdge r _ _ _ => isRegion s r
  | .bandChangeStopEnd g => isGen s g
  | .generatorFail f k _ => decide (f < s.build.flocks) && decide (k < 16 + s.build.spares)
  | .tetherStop x => isXing s x
  | .availInterlock x => isXing s x
  | .roomStop x => isXing s x
  | .tetherStopRelease x => isXing s x
  | .auditMismatch x _ _ => isXing s x
  | .drvParity f => decide (f < s.build.flocks)
  | .retestDone f _ _ => decide (f < s.build.flocks)
  | .mbxGo _ m => isMbox m
  | .mbxWithdraw _ m => isMbox m
  | _ => true

/-- An instruction code beyond the mandatory set and the programming of fuses. -/
def isOtherOp : TestOp → Bool
  | .other _ => true
  | _ => false

/-- A test instruction beyond those of R518, in a state in which the part decodes it (R458). -/
def vendorTest (s : State) : Instr → Bool
  | .testAccess op => isOtherOp op && !s.lc.por && !(s.lc.access = 1 || s.lc.access = 2)
  | _ => false

/-- The beat that a data-port command writes (R485). -/
def portBeat : Instr → Option Beat
  | .fcstEntryWrite b => some b
  | .bandRowWrite b => some b
  | .pinWrite b => some b
  | .manifestWrite b => some b
  | .calImageWrite b => some b
  | .fwDataWrite b => some b
  | _ => none

/-- The region whose record alone, of all regions', an event changes. -/
def ownRegion : Instr → Option Nat
  | .pull r => some r
  | .windsockStretch r _ => some r
  | .windsockHold r _ => some r
  | .holdRelease r _ => some r
  | .adviseOnset r _ => some r
  | .skewCount r => some r
  | .regionHoldStart r => some r
  | .issuedEdge r _ _ _ => some r
  | _ => none

/-- The crossing whose record alone, of all crossings', an event changes. -/
def ownXing : Instr → Option Nat
  | .tetherStop x => some x
  | .availInterlock x => some x
  | .roomStop x => some x
  | .tetherStopRelease x => some x
  | .auditMismatch x _ _ => some x
  | _ => none

/-- The flock whose record alone, of all flocks', a command changes. -/
def ownFlock : Instr → Option Nat
  | .broadcastFrame f _ _ => some f
  | .deltaTrack f _ _ => some f
  | .drvParity f => some f
  | .clearParity _ f _ _ => some f
  | .retest _ f _ _ => some f
  | .retire _ f _ _ => some f
  | .retestDone f _ _ => some f
  | .spareLost f _ _ => some f
  | .spareLocked f _ => some f
  | .spareCalStart f _ => some f
  | _ => none

/-- Only these commands may change what is applied of the bell-class registers: the bell, an application before
the first bell, the leaving of reset with its restore, and the resets (R13, R450, R500). -/
def appliesBellClass : Instr → Bool
  | .bell => true
  | .preBellApply => true
  | .pathLockDone _ _ _ _ => true
  | .powerOnReset => true
  | .powerOnResetRelease => true
  | .coldReset => true
  | .warmReset => true
  | .fabPowerLoss => true
  | .eraseDone => true
  | _ => false

/-- A cold reset, or the loss or the return of both supplies (R492, R493). -/
def isColdReset : Instr → Bool
  | .powerOnReset => true
  | .powerOnResetRelease => true
  | .coldReset => true
  | _ => false

/-- The core is held while no bank is active (R402). -/
def CoreOk (s : State) : Prop := s.shep.active = none → s.shep.state = .held

/-- The life-cycle state in force is the fused one, and an accepted transition leads onward (R480, R506). -/
def LifeCycleOk (s : State) : Prop :=
  s.lc.state = s.lc.fuses.state ∧
  ∀ target tag, s.lc.job = some (.transition target tag) → s.lc.state.toNat < target.toNat

/-! ### The memories and the fuses -/

/-- The byte memories are in their canonical form: addresses strictly rising, and no entry equal to what an
unlisted address reads as. -/
def MemOk (s : State) : Prop := memWf s.data = true ∧ memWf s.ret = true ∧ memWf s.dmem = true

/-- Fuses only blow: a key digest, a revocation, the die identifier, the trims and the completion fuses stay
once programmed, and the digest of a programmed key and the identifier stay as they are (R404, R505 to R507). -/
structure FusesGrow (a b : Fuses) : Prop where
  key : ∀ k : Nat, a.keyProg.getLsbD k = true → b.keyProg.getLsbD k = true ∧ tabGet b.keys k 0 = tabGet a.keys k 0
  revoked : ∀ k : Nat, a.keyRevoked.getLsbD k = true → b.keyRevoked.getLsbD k = true
  die : a.dieIdSet = true → b.dieIdSet = true ∧ b.dieId = a.dieId
  trims : a.trims = true → b.trims = true
  made : a.mfgComplete = true → b.mfgComplete = true
  erased : a.erased = true → b.erased = true

end Sys2Proof.Machine
end

