-- ==== Sys2Proof/Certificates/Slice0/Obligations.lean ====
section
/-!
DEFINITION. The statements for the provers: what each command does where it completes, what it leaves unchanged,
the checks that every register write meets, and what every step keeps.
-/
open Sys2Proof Sys2Proof.Machine

/-- A step runs the command at the front of the queue, and idles on an empty one (R76, R442). With command c at the
front of the queue, a step is exec of c on the state whose queue is the rest; with no command waiting it answers
the state unchanged, which is the model’s choice (log 11): the table gives the tick a row of its own. -/
def Obligations.StepTakesTheFront : Prop :=
  (∀ (s : State) (c : Instr) (rest : List Instr), s.pending = c :: rest → step s = exec c { s with pending := rest }) ∧
  (∀ s : State, s.pending = [] → step s = .next s)

/-- What a cold reset leaves, as the manual states it (R76, R102, R138, R141, R222, R331, R402, R501). At reset the
counter reads 0 in bypass with no crystal qualified, the fabric domain is held, no fold sequence runs, the core
is held with both banks EMPTY and its data memory 0, the forecast is EMPTY in banked mode, firmware owns Tally
unit 0 and nobody the others, and the fold configuration has its reset word. Only values that the manual gives
are named. -/
def Obligations.ResetValues : Prop :=
  State.reset.time.counter = 0 ∧ State.reset.time.firstBell = false ∧ State.reset.root.bypass = true ∧
  State.reset.root.refOk = false ∧ State.reset.power.fabUp = false ∧ State.reset.power.meshReady = false ∧
  State.reset.fold.started = false ∧ State.reset.fold.pending = false ∧ State.reset.shep.state = .held ∧
  State.reset.shep.b0.st = .empty ∧ State.reset.shep.b1.st = .empty ∧ (∀ a, memGet State.reset.dmem a = 0) ∧
  State.reset.fcst.single = false ∧ State.reset.fcst.b0.st = .empty ∧ State.reset.fcst.b1.st = .empty ∧
  State.reset.tally.u0.owner = .fw ∧ State.reset.tally.u1.owner = .none ∧ State.reset.tally.u2.owner = .none ∧
  State.reset.tally.u3.owner = .none ∧ State.reset.crook.armed = false ∧
  fld (bellA State.reset 0x3000) 0 11 = 64 ∧ fld (bellA State.reset 0x3000) 12 11 = 4 ∧
  fld (bellA State.reset 0x3000) 24 8 = 16

/-- The memories after reset are in canonical form (R401, R402, R480, R485, R497). State.reset meets the three
invariants: the memories’ form, the held core and the life cycle’s order. -/
def Obligations.ResetMemoryForm : Prop :=
  MemOk State.reset ∧ CoreOk State.reset ∧ LifeCycleOk State.reset

/-- When a command completes and when it stops (R17, R24, R358, R458, R518). A well-formed command whose unit the
build has completes in every state, but for a vendor test instruction in MANUFACTURE or RETURN, which is refused
by name because the manual does not give its effect; an event of a unit that the build lacks is a fault by name.
That it is a fault is the model’s choice (log 7), and so is the refusal of a vendor test instruction (log 20). -/
def Obligations.Outcomes : Prop :=
  ∀ (c : Instr) (s : State), c.wellFormed = true →
    (unitPresent s c = false → exec c s = .fault .noSuchUnit) ∧
    (unitPresent s c = true → vendorTest s c = true → exec c s = .refused .vendorTestInstruction) ∧
    (unitPresent s c = true → vendorTest s c = false → ∃ t, exec c s = .next t)

/-- A register write that fails a check, loses or waits does nothing else (R15, R440, R442, R458, R459, R481, R511,
R512). For every command that writes a register: where the block is in reset nothing happens; a write with a
strobe missing raises PARTIAL alone; a denied write raises ACCESS_DENY and sets DENY_PORT alone, with SLVERR on
the control port; a write that loses to a higher-ranked port is dropped, with BM_LOST for board management, and
firmware’s is retried at the next slow-clock edge (RCG_CFG collides only where both ports have selected one
region); a "now" write that is not made at a slow-clock edge, and any write behind a withheld one of its port,
whatever its strobes and rights, waits for the edge that performs it and does nothing until then. The order of
the checks is the model’s (log 5). -/
def Obligations.WritesNotPerformed : Prop :=
  ∀ (c : Instr) (w : Wr) (a : Nat) (s : State), regTarget c = some (w, a) → c.wellFormed = true →
    (reachable s a = false → exec c s = .next { s with out := { s.out with resp := .okay } }) ∧
    (reachable s a = true → portStalls s w.port = true → ∃ v ext, exec c s = .next (await ⟨w, a, v, ext⟩ { s with out := { s.out with resp := .okay } })) ∧
    (reachable s a = true → portStalls s w.port = false → w.strb ≠ 15 → exec c s = .next (raise .cfg 5 { s with out := { s.out with resp := .okay } })) ∧
    (reachable s a = true → portStalls s w.port = false → w.strb = 15 → writeDenied s w.port a = true →
      Completes c s (fun t => Flagged t .cfg 8 ∧ t.cfg = { s.cfg with denyPort := BitVec.ofNat 2 (portIx w.port + 1) } ∧
        t.out.resp = (if w.port = .host then .slverr else .okay) ∧ SameBut ([.answers, .check] ++ evs .cfg [8]) s t)) ∧
    (reachable s a = true → portStalls s w.port = false → w.strb = 15 → writeDenied s w.port a = false → loses w = true → ranked a = true → oneRegister s w a = true →
      (w.port = .bm → exec c s = .next (raise .cfg 6 { s with out := { s.out with resp := .okay } })) ∧
      (w.port = .shep → ∃ v ext, exec c s = .next (await ⟨⟨.shep, 15, none⟩, a, v, ext⟩ { s with out := { s.out with resp := .okay } }))) ∧
    (reachable s a = true → portStalls s w.port = false → w.strb = 15 → writeDenied s w.port a = false → loses w = false ∨ ranked a = false ∨ oneRegister s w a = false →
      takenNow s w a = false → ∃ v ext, exec c s = .next (await ⟨w, a, v, ext⟩ { s with out := { s.out with resp := .okay } })) ∧
    (∀ (e : WaitWr) (u : State), (await e u).out.waiting = u.out.waiting ++ [e] ∧ SameBut [.answers, .snaps] u (await e u))

/-- What the crystal events do (R36, R62, R63, R64, R65, R66, R542). after 65,536 good edges CRYSTAL_QUALIFIED sets
REF_OK and starts the powered unlocked synthesizers, each in its selected band or with NO_BAND;
MISSING_CRYSTAL_EDGE freezes both and, in bypass, holds the counter; EDGES_RESUME no later than 64 expected
periods thaws those that have not failed and raises no crystal event, REF_LOSS acts once 64 have passed (that a
command outside that time changes nothing, and that in bypass or with the counter held, where no clock of the
fabric counts the gap, the sender has counted it, is the model’s reading, log 114); REF_LOSS and REF_RETURN move
REF_OK with their events; the frozen-failure count ends with a failed synthesizer released to reacquire. -/
def Obligations.CrystalAndReference : Prop :=
  (∀ (s : State),
      s.root.refOk = false → s.root.refLost = false → qualifiedEdges s = true →
      Completes .crystalQualified s (fun t =>
        t.root.refOk = true ∧
        ((synOf s .s0).powered = true → (synOf s .s0).locked = false → (synOf s .s0).acquiring = false → (synOf s .s0).failed = false → (synOf s .s0).noBand = false → measuring s .s0 = false → (synOf t .s0).acquiring = (selectRootBand (synOf s .s0).table (250 * (synOf s .s0).dT.toNat)).isSome ∧ (synOf t .s0).noBand = (selectRootBand (synOf s .s0).table (250 * (synOf s .s0).dT.toNat)).isNone) ∧
        ((synOf s .s1).powered = true → (synOf s .s1).locked = false → (synOf s .s1).acquiring = false → (synOf s .s1).failed = false → (synOf s .s1).noBand = false → measuring s .s1 = false → (synOf t .s1).acquiring = (selectRootBand (synOf s .s1).table (250 * (synOf s .s1).dT.toNat)).isSome ∧ (synOf t .s1).noBand = (selectRootBand (synOf s .s1).table (250 * (synOf s .s1).dT.toNat)).isNone))) ∧
  (∀ (s : State),
      qualifiedEdges s = false →
      Completes .crystalQualified s (fun t =>
        t.root.refOk = s.root.refOk)) ∧
  (∀ (s : State),
      s.root.missing = false → s.root.refOk = true →
      Completes .missingCrystalEdge s (fun t =>
        t.root.goodEdges = 0 ∧ t.root.missing = true ∧ t.root.missedAt = elapsed s ∧
        t.root.slowFromTick = !s.root.bypass ∧ (synOf t .s0).frozen = true ∧ (synOf t .s1).frozen = true ∧
        (s.root.bypass = true → t.time.held = true ∧ t.fold.suspended = true ∧ Flagged t .root 10))) ∧
  (∀ (s : State),
      s.root.missing = true → s.root.refLost = false →
      s.root.bypass = true ∨ s.time.held = true ∨ elapsed s ≤ s.root.missedAt + 320 →
      Completes .edgesResume s (fun t =>
        t.root.missing = false ∧ t.root.slowFromTick = false ∧ t.root.refOk = s.root.refOk ∧ t.time.held = false ∧
        ((synOf s .s0).failed = false → (synOf t .s0).frozen = false) ∧
        ((synOf s .s1).failed = false → (synOf t .s1).frozen = false) ∧
        (eventOf t .root).bits.getLsbD 5 = (eventOf s .root).bits.getLsbD 5 ∧
        (eventOf t .root).bits.getLsbD 6 = (eventOf s .root).bits.getLsbD 6)) ∧
  (∀ (s : State),
      s.root.bypass = false → s.time.held = false → s.root.missedAt + 320 < elapsed s →
      Completes .edgesResume s (fun t =>
        t = s)) ∧
  (∀ (s : State),
      s.root.missing = true → s.root.refLost = false →
      s.root.bypass = true ∨ s.time.held = true ∨ s.root.missedAt + 320 ≤ elapsed s →
      Completes .refLoss s (fun t =>
        t.root.refOk = false ∧ t.root.refLost = true ∧ Flagged t .root 5)) ∧
  (∀ (s : State),
      s.root.bypass = false → s.time.held = false → elapsed s < s.root.missedAt + 320 →
      Completes .refLoss s (fun t =>
        t = s)) ∧
  (∀ (s : State),
      s.root.refLost = true → qualifiedEdges s = true →
      Completes .refReturn s (fun t =>
        t.root.refOk = true ∧ t.root.recV = s.time.counter ∧ t.root.refLost = false ∧ t.root.missing = false ∧
        t.root.slowFromTick = false ∧ t.time.held = false ∧ Flagged t .root 6 ∧
        ((synOf s .s0).failed = false → (synOf t .s0).frozen = false) ∧
        ((synOf s .s0).failed = false → s.root.bypass = true ∨ s.root.active = prefSyn s → (synOf t .s0).phaseResets = (synOf s .s0).phaseResets) ∧
        ((synOf s .s1).failed = false → (synOf t .s1).frozen = false) ∧
        ((synOf s .s1).failed = false → s.root.bypass = true ∨ s.root.active = prefSyn s → (synOf t .s1).phaseResets = (synOf s .s1).phaseResets) ∧
        ((synOf s .s0).failed = true → (synOf t .s0).failed = false ∧ (synOf t .s0).frozen = false ∧ (synOf t .s0).locked = false) ∧
        ((synOf s .s1).failed = true → (synOf t .s1).failed = false ∧ (synOf t .s1).frozen = false ∧ (synOf t .s1).locked = false))) ∧
  (∀ (s : State),
      s.root.missing = false → s.root.refLost = false → qualifiedEdges s = true →
      Completes .frozenFailureCountEnd s (fun t =>
        t.root.refOk = s.root.refOk ∧
        ((synOf s .s0).failed = true → (synOf t .s0).failed = false ∧ (synOf t .s0).frozen = false ∧ (synOf t .s0).locked = false) ∧
        ((synOf s .s1).failed = true → (synOf t .s1).failed = false ∧ (synOf t .s1).frozen = false ∧ (synOf t .s1).locked = false) ∧
        ((synOf s .s0).failed = false → synOf t .s0 = synOf s .s0) ∧
        ((synOf s .s1).failed = false → synOf t .s1 = synOf s .s1))) ∧
  (∀ (s : State),
      qualifiedEdges s = false →
      Completes .frozenFailureCountEnd s (fun t =>
        t = s))

/-- Losing and gaining lock, entering and leaving bypass (R42, R48, R51, R52, R53, R54, R55, R56, R60, R61, R63,
R66). A lock loss or a frozen-output failure of the driving synthesizer hands the mesh to the ready spare, or
enters bypass, where the next bypass edge gives the counter the greater of its value and V + 5 n; the loss of
both at once enters bypass in the same way, and where no bypass edge comes either the counter holds, its value
kept, with TIME_LOST and the fold suspended; lock is acquired in the band selected at the start; after 327,680
ticks of lock a synthesizer is qualified, a spare then becomes warm and PREF takes the mesh; bypass is left only
when both tick edges coincide (which of two qualified synthesizers returns where BYPASS_FORCE kept the fabric in
bypass is log 129, and a switchover in the tick of an apply is R48’s). -/
def Obligations.LockAndBypass : Prop :=
  (∀ (s : State) (y : Syn) (ps : Nat),
      (synOf s y).frozen = true → (synOf s y).failed = false → (synOf s y).powered = true →
      6000 < ps ∨ ps < 2000 →
      Completes (.frozenOutputFail y ps) s (fun t =>
        (synOf t y).failed = true ∧ (synOf t y).locked = false ∧ Flagged t .root (lossBit y) ∧
        (driving s y = true → spareReady s (otherSyn y) = true → t.root.active = otherSyn y ∧ Flagged t .root 2 ∧ t.time.counter = s.time.counter) ∧
        (driving s y = true → spareReady s (otherSyn y) = false → s.root.applied = none → s.root.missing = true → t.time.held = true ∧ t.time.counter = s.time.counter ∧ t.fold.suspended = true ∧ Flagged t .root 10) ∧
        (driving s y = false → t.root.aligned = false ∧ t.root.active = s.root.active ∧ t.time = s.time))) ∧
  (∀ (s : State) (y : Syn) (ps : Nat),
      driving s y = true → (synOf s y).frozen = true → (synOf s y).failed = false → (synOf s y).powered = true →
      6000 < ps ∨ ps < 2000 → spareReady s (otherSyn y) = false → s.root.applied = none → s.root.missing = true →
      Completes (.frozenOutputFail y ps) s (fun t =>
        t.time.held = true ∧ t.time.counter = s.time.counter ∧ t.fold.suspended = true ∧
        t.root.bypass = s.root.bypass ∧ Flagged t .root 10)) ∧
  (∀ (s : State) (y : Syn) (err1 err2 : Int) (slip both : Bool) (edges : Nat),
      (synOf s y).locked = true → (synOf s y).frozen = false →
      slip = true ∨ (400 < err1.natAbs ∧ 400 < err2.natAbs) → 1 ≤ edges →
      Completes (.lockLoss y err1 err2 slip both edges) s (fun t =>
        (synOf t y).locked = false ∧
        ((synOf s y).powered = true → (spareEn s = true ∨ prefSyn s = y) → s.root.refOk = true → (synOf s y).noBand = false → measuring s y = false → (synOf t y).acquiring = (selectRootBand (synOf s y).table (250 * (synOf s y).dT.toNat)).isSome) ∧
        Flagged t .root (lossBit y) ∧
        (both = false → driving s y = true → spareReady s (otherSyn y) = true → t.root.active = otherSyn y ∧ t.root.bypass = false ∧ Flagged t .root 2 ∧ t.time.counter = s.time.counter) ∧
        (both = false → driving s y = true → spareReady s (otherSyn y) = false → s.root.missing = false → s.root.applied = none → t.root.bypass = true ∧ t.root.bypTarget + 5 = s.root.recV + 5 * edges ∧ nextCounter t = max s.time.counter (s.root.recV + 5 * edges) ∧ Flagged t .root 3) ∧
        (both = true → driving s y = true → (synOf s (otherSyn y)).locked = true → (synOf s (otherSyn y)).frozen = false → s.root.missing = false → t.root.bypass = true ∧ t.root.active = s.root.active ∧ nextCounter t = max s.time.counter (s.root.recV + 5 * edges) ∧ (synOf t (otherSyn y)).locked = false ∧ Flagged t .root 3 ∧ Flagged t .root (lossBit (otherSyn y))))) ∧
  (∀ (s : State) (y : Syn) (err1 err2 : Int) (slip both : Bool) (edges : Nat),
      both = true → driving s y = true → (synOf s y).locked = true → (synOf s y).frozen = false → slip = true →
      1 ≤ edges → (synOf s (otherSyn y)).locked = true → (synOf s (otherSyn y)).frozen = false →
      s.root.missing = false →
      Completes (.lockLoss y err1 err2 slip both edges) s (fun t =>
        t.root.bypass = true ∧ nextCounter t = max s.time.counter (s.root.recV + 5 * edges) ∧
        (synOf t y).locked = false ∧ (synOf t (otherSyn y)).locked = false ∧ Flagged t .root (lossBit y) ∧
        Flagged t .root (lossBit (otherSyn y)) ∧ Flagged t .root 3)) ∧
  (∀ (s : State) (y : Syn),
      (synOf s y).acquiring = true → (synOf s y).powered = true → (synOf s y).frozen = false →
      Completes (.lockAcquired y) s (fun t =>
        (synOf t y).locked = true ∧ (synOf t y).acquiring = false ∧ (synOf t y).band = (synOf s y).band ∧
        (synOf t y).lockAt = elapsed s ∧ (synOf t y).qualified = (synOf s y).qualified)) ∧
  (∀ (s : State) (y : Syn),
      (synOf s y).locked = true → (synOf s y).qualified = false → (synOf s y).frozen = false →
      (synOf s y).lockAt + 327680 ≤ elapsed s → (synOf s y).powered = true → spareEn s = true →
      Completes (.synthQualified y) s (fun t =>
        (synOf t y).qualified = true ∧
        (s.root.bypass = false → s.root.active ≠ y → prefSyn s = s.root.active → t.root.aligned = true ∧ t.root.active = s.root.active ∧ (synOf t y).phaseResets = (synOf s y).phaseResets + 1) ∧
        (s.root.bypass = false → s.root.active ≠ y → prefSyn s = y → t.root.active = y ∧ Flagged t .root 2))) ∧
  (∀ (s : State) (y : Syn),
      elapsed s < (synOf s y).lockAt + 327680 →
      Completes (.synthQualified y) s (fun t =>
        t = s)) ∧
  (∀ (s : State) (y : Syn) (edge1 edge2 : Bool),
      s.root.bypass = true → bypassForce s = false → s.root.missing = false → s.time.held = false →
      s.root.refOk = true → mayReturn s y = true → (synOf s (otherSyn y)).frozen = false →
      Completes (.bypExit y edge1 edge2) s (fun t =>
        (synOf t y).phaseResets = (synOf s y).phaseResets + 1 ∧ t.time.counter = s.time.counter ∧
        (edge1 = true → edge2 = true → t.root.bypass = false ∧ t.root.active = y ∧ t.root.recV = s.time.counter ∧ t.power.meshUp = (s.power.meshUp || s.power.pgood) ∧ Flagged t .root 4) ∧
        (edge1 = false ∨ edge2 = false → t.root.bypass = true)))

/-- The root register writes (R37, R44, R45, R46, R48, R54, R55, R67, R69, R72, R73, R442). A performed write of
ROOT_CTRL reads back and acts through PREF and SPARE_EN at once, through BYPASS_FORCE at the next bypass edge;
ROOT_DIV_APPLY loads the named shadows or is rejected whole, and in the tick of a switchover waits for the next;
a band table entry lands in the table and in the retention RAM; ROOT_MEAS is refused for the driving synthesizer
(a write withheld while a measurement runs is R442’s, and the shape of its queue log 2; that a measurement
raises no LOSS event is log 55); ROOT_AGE slews one step at a time; a sync edge counts, measures and resets
phases. A write of ROOT_MEAS made while a measurement runs is withheld and follows it. -/
def Obligations.RootRegisters : Prop :=
  (∀ (s : State) (w : Wr) (v : Word),
      Performs w 0x2000 s →
      Completes (.prefWrite w v) s (fun t =>
        nowGet t 0x2000 = v &&& 7 ∧
        (s.root.bypass = false → s.root.active ≠ synNum (fld v 0 1) → spareReady s (synNum (fld v 0 1)) = true → t.root.active = synNum (fld v 0 1) ∧ Flagged t .root 2) ∧
        (s.root.bypass = true ∨ s.root.active = synNum (fld v 0 1) ∨ spareReady s (synNum (fld v 0 1)) = false → t.root.active = s.root.active))) ∧
  (∀ (s : State) (w : Wr) (v : Word),
      Performs w 0x2000 s →
      Completes (.spareEnWrite w v) s (fun t =>
        nowGet t 0x2000 = v &&& 7 ∧ (synOf t (synNum (fld v 0 1))).powered = true ∧
        (bitAt v 1 = true → (synOf t (otherSyn (synNum (fld v 0 1)))).powered = true) ∧
        (bitAt v 1 = false → driving s (otherSyn (synNum (fld v 0 1))) = false → (synOf t (otherSyn (synNum (fld v 0 1)))).powered = false))) ∧
  (∀ (s : State) (w : Wr) (v : Word),
      Performs w 0x2000 s →
      Completes (.bypassForce w v) s (fun t =>
        nowGet t 0x2000 = v &&& 7 ∧ bypassForce t = bitAt v 2 ∧ t.root.bypass = s.root.bypass ∧ t.time = s.time)) ∧
  (∀ (s : State) (w : Wr) (v : Word),
      Performs w 0x200C s → fld v 0 8 ≠ s.root.divTag.toNat → s.root.switchedAt ≠ some (elapsed s) →
      (bitAt v 8 = true → applyRejects s .s0 = false) → (bitAt v 9 = true → applyRejects s .s1 = false) →
      Completes (.divApply w v) s (fun t =>
        t.root.divTag = BitVec.ofNat 8 (fld v 0 8) ∧
        (bitAt v 8 = true → ((synOf t .s0).refMode.toNat, (synOf t .s0).n.toNat, (synOf t .s0).dT.toNat) = shadowOf s .s0) ∧
        (bitAt v 9 = true → ((synOf t .s1).refMode.toNat, (synOf t .s1).n.toNat, (synOf t .s1).dT.toNat) = shadowOf s .s1))) ∧
  (∀ (s : State) (w : Wr) (v : Word),
      Performs w 0x200C s → fld v 0 8 ≠ s.root.divTag.toNat → s.root.switchedAt = some (elapsed s) →
      Completes (.divApply w v) s (fun t =>
        t.root = s.root ∧ t.out.captures = s.out.captures ++ [⟨⟨.host, 15, none⟩, 0x200C, v, []⟩] ∧
        t.events = s.events)) ∧
  (∀ (s : State) (w : Wr) (v : Word),
      Performs w 0x200C s → fld v 0 8 ≠ s.root.divTag.toNat → s.root.switchedAt ≠ some (elapsed s) →
      (bitAt v 8 = true ∧ applyRejects s .s0 = true) ∨ (bitAt v 9 = true ∧ applyRejects s .s1 = true) →
      Completes (.divApply w v) s (fun t =>
        t.root = { s.root with applied := t.root.applied } ∧ Flagged t .root 7)) ∧
  (∀ (s : State) (w : Wr) (v : Word),
      Performs w 0x2020 s →
      Completes (.rootBtabWrite w v) s (fun t =>
        tabGet (synOf t (synNum (fld (nowGet s (portKey w.port 0x201C)) 4 1))).table (fld (nowGet s (portKey w.port 0x201C)) 0 4) 0 = v &&& rootEntryMask ∧
        memWord t.ret (0x40 + 64 * synIx (synNum (fld (nowGet s (portKey w.port 0x201C)) 4 1)) + 4 * fld (nowGet s (portKey w.port 0x201C)) 0 4) = v &&& rootEntryMask ∧
        ((synOf s (synNum (fld (nowGet s (portKey w.port 0x201C)) 4 1))).noBand = true → (synOf s (synNum (fld (nowGet s (portKey w.port 0x201C)) 4 1))).powered = true → (synOf s (synNum (fld (nowGet s (portKey w.port 0x201C)) 4 1))).locked = false → (synOf s (synNum (fld (nowGet s (portKey w.port 0x201C)) 4 1))).acquiring = false → (synOf s (synNum (fld (nowGet s (portKey w.port 0x201C)) 4 1))).failed = false → s.root.refOk = true → measuring s (synNum (fld (nowGet s (portKey w.port 0x201C)) 4 1)) = false → (synOf t (synNum (fld (nowGet s (portKey w.port 0x201C)) 4 1))).acquiring = (selectRootBand (synOf t (synNum (fld (nowGet s (portKey w.port 0x201C)) 4 1))).table (250 * (synOf s (synNum (fld (nowGet s (portKey w.port 0x201C)) 4 1))).dT.toNat)).isSome))) ∧
  (∀ (s : State) (w : Wr) (v : Word),
      Performs w 0x2024 s → s.root.meas = none → fld v 8 8 ≠ s.root.measTag.toNat →
      driving s (synNum (fld v 4 1)) = true →
      Completes (.rootMeas w v) s (fun t =>
        t.root.measStatus = 1 ∧ t.root.measTag = BitVec.ofNat 8 (fld v 8 8) ∧ t.root.meas = none)) ∧
  (∀ (s : State) (w : Wr) (v : Word),
      Performs w 0x2024 s → s.root.meas = none → fld v 8 8 ≠ s.root.measTag.toNat →
      driving s (synNum (fld v 4 1)) = false →
      Completes (.rootMeas w v) s (fun t =>
        t.root.measStatus = 3 ∧
        t.root.meas = some ⟨synNum (fld v 4 1), BitVec.ofNat 4 (fld v 0 4), bitAt v 5, BitVec.ofNat 8 (fld v 8 8), elapsed s⟩ ∧
        (synOf t (synNum (fld v 4 1))).locked = false)) ∧
  (∀ (s : State) (w : Wr) (v : Word),
      Performs w 0x2024 s → s.root.meas ≠ none →
      Completes (.rootMeas w v) s (fun t =>
        t.root = { s.root with heldMeas := s.root.heldMeas ++ [(w.port, v)] } ∧ t.nowR = s.nowR)) ∧
  (∀ (s : State) (count : BitVec 16) (m : RootMeas),
      s.root.meas = some m → s.root.heldMeas = [] → m.start + measTicks ≤ elapsed s →
      Completes (.rootMeasDone count) s (fun t =>
        t.root.meas = none ∧ t.root.measCount = count ∧ t.root.measTag = m.tag ∧ t.root.measStatus = 0 ∧
        (synOf t m.syn).locked = false ∧
        ((synOf s m.syn).powered = true → s.root.refOk = true → (synOf s m.syn).noBand = false → (synOf t m.syn).acquiring = (selectRootBand (synOf s m.syn).table (250 * (synOf s m.syn).dT.toNat)).isSome))) ∧
  (∀ (s : State) (count : BitVec 16) (m : RootMeas) (p : Port) (v : Word),
      s.root.meas = some m → m.start + measTicks ≤ elapsed s → s.root.heldMeas = [(p, v)] →
      fld v 8 8 ≠ m.tag.toNat → driving s .s0 = true → m.syn = .s1 → fld v 4 1 = 1 →
      Completes (.rootMeasDone count) s (fun t =>
        t.root.measCount = count ∧ t.root.measTag = m.tag ∧ t.root.measStatus = 3 ∧
        t.root.meas = some ⟨.s1, BitVec.ofNat 4 (fld v 0 4), bitAt v 5, BitVec.ofNat 8 (fld v 8 8), elapsed s⟩ ∧
        t.root.heldMeas = [])) ∧
  (∀ (s : State) (w : Wr) (v : Word),
      Performs w 0x2034 s →
      Completes (.rootAgeWrite w v) s (fun t =>
        nowGet t 0x2034 = v &&& 0xFFF ∧ t.root.ageCurrent = s.root.ageCurrent ∧ t.mus.ageSteps = 0)) ∧
  (∀ (s : State),
      s.root.ageAt + 65536 ≤ s.time.slowEdges →
      Completes .ageSlewStep s (fun t =>
        t.root.ageAt = s.time.slowEdges ∧
        (s.root.ageCurrent.slt (BitVec.ofNat 12 (fld (nowGet s 0x2034) 0 12)) = true → t.root.ageCurrent = s.root.ageCurrent + 1) ∧
        ((BitVec.ofNat 12 (fld (nowGet s 0x2034) 0 12)).slt s.root.ageCurrent = true → t.root.ageCurrent = s.root.ageCurrent - 1) ∧
        (s.root.ageCurrent = BitVec.ofNat 12 (fld (nowGet s 0x2034) 0 12) → t.root.ageCurrent = s.root.ageCurrent))) ∧
  (∀ (s : State),
      s.time.slowEdges < s.root.ageAt + 65536 →
      Completes .ageSlewStep s (fun t =>
        t = s)) ∧
  (∀ (s : State) (phase : BitVec 16),
      Completes (.syncInEdge phase) s (fun t =>
        t.root.syncEdges = s.root.syncEdges + 1 ∧ (bitAt (nowGet s 0x202C) 0 = true → t.root.syncPhase = phase) ∧
        (bitAt (nowGet s 0x202C) 0 = false → t.root.syncPhase = s.root.syncPhase) ∧
        (bitAt (nowGet s 0x202C) 1 = true → Flagged t .root 9 ∧ (synOf t .s0).phaseResets = (synOf s .s0).phaseResets + (if driving s .s0 && s.time.firstBell then 0 else 1) ∧ (synOf t .s1).phaseResets = (synOf s .s1).phaseResets + (if driving s .s1 && s.time.firstBell then 0 else 1))))

/-- Snapshots, loads and the mesh paths (R77, R84, R85, R88, R90, R92, R94, R97, R111). A new TAG of BELL_SNAP_REQ
captures counter and mode; BELL_LOAD sets the counter before the first bell and is rejected after it; a path
follows its frames, locks, tracks its delay within continuous time, fails with FAILS and PATH_FAIL and returns
after 65,536 clean ticks; FLOCK_MESH_CTRL takes paths out without PATH_FAIL. The model’s choices here: a LOAD 1
frame also reloads the replica (log 88), a failed path loses M and its replica and locks anew (log 84), the sync
word that a frame must show (log 117). -/
def Obligations.MeshCommands : Prop :=
  (∀ (s : State) (w : Wr) (v : Word),
      Performs w 0x1000 s → BitVec.ofNat 8 (fld v 0 8) ≠ (snapOf s 0 w.port).tag →
      Completes (.bellSnapReq w v) s (fun t =>
        snapOf t 0 w.port = ⟨true, BitVec.ofNat 8 (fld v 0 8), 0, s.root.bypass, [BitVec.ofNat 32 s.time.counter, BitVec.ofNat 32 (s.time.counter / 2 ^ 32)]⟩)) ∧
  (∀ (s : State) (w : Wr) (v : Word),
      Performs w 0x1018 s → BitVec.ofNat 8 (fld v 0 8) ≠ s.time.loadTag → s.time.firstBell = false →
      Completes (.bellLoad w v) s (fun t =>
        t.time.loadTag = BitVec.ofNat 8 (fld v 0 8) ∧
        t.time.counter = (nowGet s 0x1010).toNat + 2 ^ 32 * (nowGet s 0x1014).toNat ∧ Flagged t .bell 0 ∧
        (s.fold.pending = true → t.fold.pending = false ∧ t.fold.rejCause = 4 ∧ Flagged t .fold 5))) ∧
  (∀ (s : State) (w : Wr) (v : Word),
      Performs w 0x1018 s → BitVec.ofNat 8 (fld v 0 8) ≠ s.time.loadTag → s.time.firstBell = true →
      Completes (.bellLoad w v) s (fun t =>
        t.time.loadTag = BitVec.ofNat 8 (fld v 0 8) ∧ t.time.counter = s.time.counter ∧ Flagged t .bell 1)) ∧
  (∀ (s : State) (flock path : Nat) (frame : BitVec 128),
      isPath s flock path = true → s.power.meshUp = true → frameGood frame = false →
      Completes (.broadcastFrame flock path frame) s (fun t =>
        (pathOf (flockOf t flock) path).crcBad = (pathOf (flockOf s flock) path).crcBad + 1)) ∧
  (∀ (s : State) (flock path : Nat) (frame : BitVec 128),
      isPath s flock path = true → s.power.meshUp = true → frameSync frame = true → frameGood frame = true →
      meshSetFor frame flock path = none → (pathOf (flockOf s flock) path).repValid = true →
      Completes (.broadcastFrame flock path frame) s (fun t =>
        (pathOf (flockOf t flock) path).crcBad = 0 ∧
        (frameLoad frame = false → ((pathOf (flockOf t flock) path).mismatch = true ↔ ((frameT frame : Int) + (pathOf (flockOf s flock) path).m.toNat ≠ (pathOf (flockOf s flock) path).repBase + s.time.frameLast))) ∧
        (frameLoad frame = true → (pathOf (flockOf t flock) path).mismatch = false ∧ (pathOf (flockOf t flock) path).repBase = (frameT frame : Int) + (pathOf (flockOf s flock) path).m.toNat - s.time.frameLast))) ∧
  (∀ (s : State) (flock path : Nat) (frame : BitVec 128),
      isPath s flock path = true → s.power.meshUp = true → frameSync frame = true → frameGood frame = true →
      meshSetFor frame flock path = none → (pathOf (flockOf s flock) path).repValid = false →
      (pathOf (flockOf s flock) path).mValid = true →
      Completes (.broadcastFrame flock path frame) s (fun t =>
        (pathOf (flockOf t flock) path).crcBad = 0 ∧ (pathOf (flockOf t flock) path).repValid = true ∧
        (pathOf (flockOf t flock) path).mismatch = false ∧
        (pathOf (flockOf t flock) path).repBase = (frameT frame : Int) + (pathOf (flockOf s flock) path).m.toNat + 128 - s.time.frameTot)) ∧
  (∀ (s : State) (flock path : Nat) (frame : BitVec 128) (lat : Nat) (ok : Bool),
      isPath s flock path = true → s.power.meshUp = true → frameSync frame = true → frameGood frame = true →
      meshSetFor frame flock path = some (lat, ok) →
      s.root.bypass = false ∨ (pathOf (flockOf s flock) path).locked = false →
      Completes (.broadcastFrame flock path frame) s (fun t =>
        (pathOf (flockOf t flock) path).m = BitVec.ofNat 6 lat ∧ (pathOf (flockOf t flock) path).mValid = ok ∧
        (pathOf (flockOf t flock) path).repValid = false)) ∧
  (∀ (s : State) (flock path : Nat) (delta : PathDelay) (frame : BitVec 128),
      isPath s flock path = true → s.power.meshUp = true → s.root.bypass = false → s.root.refOk = true →
      pathFits (pathOf (flockOf s flock) path).m.toNat delta = true →
      (pathOf (flockOf s flock) path).mValid = true → (pathOf (flockOf s flock) path).repValid = true →
      (pathOf (flockOf s flock) path).locked = false → frameSync frame = true → frameGood frame = true →
      (pathOf (flockOf s flock) path).repFrom ≤ s.time.frameLast →
      (frameT frame : Int) + (pathOf (flockOf s flock) path).m.toNat = (pathOf (flockOf s flock) path).repBase + s.time.frameLast →
      Completes (.pathLockDone flock path delta frame) s (fun t =>
        (pathOf (flockOf t flock) path).locked = true ∧ (pathOf (flockOf t flock) path).delta = delta.delta ∧
        (pathOf (flockOf t flock) path).calOut = false ∧
        (pathOf (flockOf t flock) path).failed = (pathOf (flockOf s flock) path).failed ∧
        (pathOf (flockOf t flock) path).cleanFrom = s.time.total)) ∧
  (∀ (s : State) (flock path : Nat) (delta : PathDelay) (frame : BitVec 128),
      isPath s flock path = true → s.time.frameLast < (pathOf (flockOf s flock) path).repFrom →
      Completes (.pathLockDone flock path delta frame) s (fun t =>
        t = s)) ∧
  (∀ (s : State) (flock path : Nat) (delta : PathDelay) (frame : BitVec 128),
      isPath s flock path = true → pathFits (pathOf (flockOf s flock) path).m.toNat delta = false →
      Completes (.pathLockDone flock path delta frame) s (fun t =>
        t = s)) ∧
  (∀ (s : State) (flock path : Nat) (late : Bool),
      isPath s flock path = true → (pathOf (flockOf s flock) path).locked = true → s.root.bypass = false →
      s.time.held = false → (pathOf (flockOf s flock) path).trackAt + 256 ≤ elapsed s → late = true →
      Completes (.deltaTrack flock path late) s (fun t =>
        ((pathOf (flockOf s flock) path).delta = 0 → (pathOf (flockOf t flock) path).delta = 1023 ∧ (pathOf (flockOf t flock) path).m = (pathOf (flockOf s flock) path).m + 1 ∧ (pathOf (flockOf t flock) path).repBase = (pathOf (flockOf s flock) path).repBase + 1) ∧
        ((pathOf (flockOf s flock) path).delta ≠ 0 → (pathOf (flockOf t flock) path).delta = (pathOf (flockOf s flock) path).delta - 1 ∧ (pathOf (flockOf t flock) path).m = (pathOf (flockOf s flock) path).m))) ∧
  (∀ (s : State) (flock path : Nat) (late : Bool),
      isPath s flock path = true → (pathOf (flockOf s flock) path).locked = true → s.root.bypass = false →
      s.time.held = false → (pathOf (flockOf s flock) path).trackAt + 256 ≤ elapsed s → late = false →
      Completes (.deltaTrack flock path late) s (fun t =>
        ((pathOf (flockOf s flock) path).delta = 1023 → (pathOf (flockOf t flock) path).delta = 0 ∧ (pathOf (flockOf t flock) path).m = (pathOf (flockOf s flock) path).m - 1 ∧ (pathOf (flockOf t flock) path).repBase = (pathOf (flockOf s flock) path).repBase - 1) ∧
        ((pathOf (flockOf s flock) path).delta ≠ 1023 → (pathOf (flockOf t flock) path).delta = (pathOf (flockOf s flock) path).delta + 1 ∧ (pathOf (flockOf t flock) path).m = (pathOf (flockOf s flock) path).m))) ∧
  (∀ (s : State) (flock path : Nat) (late : Bool),
      isPath s flock path = true →
      s.root.bypass = true ∨ s.time.held = true ∨ elapsed s < (pathOf (flockOf s flock) path).trackAt + 256 →
      Completes (.deltaTrack flock path late) s (fun t =>
        t = s)) ∧
  (∀ (s : State) (flock path : Nat) (cause : PathFault),
      isPath s flock path = true → (pathOf (flockOf s flock) path).locked = true →
      (pathOf (flockOf s flock) path).failed = false → faultHolds s flock path cause = true → cause ≠ .mismatch →
      Completes (.pathFail flock path cause) s (fun t =>
        (pathOf (flockOf t flock) path).failed = true ∧ (pathOf (flockOf t flock) path).locked = false ∧
        (pathOf (flockOf t flock) path).mValid = false ∧ (pathOf (flockOf t flock) path).repValid = false ∧
        Flagged t .bell 2 ∧
        ((flockOf t flock).fails = if (flockOf s flock).fails = 255 then 255 else (flockOf s flock).fails + 1))) ∧
  (∀ (s : State) (flock path : Nat),
      isPath s flock path = true → (pathOf (flockOf s flock) path).locked = true →
      (pathOf (flockOf s flock) path).failed = false → faultHolds s flock path .mismatch = true →
      (healthyPaths s flock).length = 2 → (healthyPaths s flock).contains path = true →
      Completes (.pathFail flock path .mismatch) s (fun t =>
        Flagged t .bell 2 ∧ Flagged t .bell 5)) ∧
  (∀ (s : State) (flock path : Nat) (cause : PathFault),
      isPath s flock path = true →
      s.time.held = true ∨ (judgedAlone s flock path = false ∧ otherLocked s flock path = []) →
      Completes (.pathFail flock path cause) s (fun t =>
        t = s)) ∧
  (∀ (s : State) (flock path : Nat),
      isPath s flock path = true → (pathOf (flockOf s flock) path).failed = true →
      (pathOf (flockOf s flock) path).locked = true → (pathOf (flockOf s flock) path).mismatch = false →
      (pathOf (flockOf s flock) path).crcBad < (if (flockOf s flock).noClock then 1 else 2) →
      (pathOf (flockOf s flock) path).cleanFrom + 65536 ≤ s.time.total →
      Completes (.pathReturn flock path) s (fun t =>
        (pathOf (flockOf t flock) path).failed = false ∧ (pathOf (flockOf t flock) path).locked = true ∧
        Flagged t .bell 3)) ∧
  (∀ (s : State) (w : Wr) (flock : Nat) (v : Word),
      Performs w (flockAddr flock 0xC) s → s.build.valid = true → flock < s.build.flocks →
      Completes (.meshDisable w flock v) s (fun t =>
        nowGet t (flockAddr flock 0xC) = v &&& 7 ∧
        (eventOf t .bell).bits.getLsbD 2 = (eventOf s .bell).bits.getLsbD 2 ∧
        (healthyPaths t flock ≠ [] → (flockOf t flock).sel.toNat ∈ healthyPaths t flock)))

/-- Starting the fold sequence, its calls and its bells (R110, R112, R113, R117, R124, R126, R127, R131, R137, R140,
R141, R159). A new TAG of FOLD_CTRL makes a start pending at the written tick, or is rejected with cause 1, 2, 3
or 5 in that order and FOLD START_REJECT. A region parks once its last edge is issued; the grace tail begins at
F − G; a call defers the bell by the planned laps asked for, or by a lap while a region is incomplete, and lets
it ring otherwise; a bell starts the next fold at its tick, the first one at FIRST with its event, and restarts
every count. -/
def Obligations.FoldSequence : Prop :=
  (∀ (s : State) (w : Wr) (v : Word),
      Performs w 0x3010 s → BitVec.ofNat 8 (fld v 0 8) ≠ s.fold.startTag →
      s.time.counter + 128 ≤ firstWritten s → meshReadyNow s = true → startCfgOk s = true →
      s.fold.started = false →
      Completes (.foldStart w v) s (fun t =>
        t.fold.pending = true ∧ t.fold.firstTick = firstWritten s ∧ t.fold.startTag = BitVec.ofNat 8 (fld v 0 8))) ∧
  (∀ (s : State) (w : Wr) (v : Word),
      Performs w 0x3010 s → BitVec.ofNat 8 (fld v 0 8) ≠ s.fold.startTag →
      firstWritten s < s.time.counter + 128 ∨ meshReadyNow s = false ∨ startCfgOk s = false ∨ s.fold.started = true →
      Completes (.foldStart w v) s (fun t =>
        t.fold.pending = s.fold.pending ∧ t.fold.startTag = BitVec.ofNat 8 (fld v 0 8) ∧ Flagged t .fold 5 ∧
        (t.fold.rejCause = if firstWritten s < s.time.counter + 128 then 1 else if meshReadyNow s = false then 2 else if startCfgOk s = false then 3 else 5))) ∧
  (∀ (s : State) (r : Nat),
      isRegion s r = true → mayPark s r = true →
      Completes (.regionPark r) s (fun t =>
        (regionOf t r).parked = true ∧ (regionOf t r).pulling = false ∧
        (regionOf t r).kDone = s.time.counter - s.fold.bellTick)) ∧
  (∀ (s : State),
      s.fold.tail = false → s.time.held = false → s.fold.started = true →
      s.fold.bellTick + (s.fold.f - s.fold.g) ≤ s.time.counter →
      Completes .graceTailStart s (fun t =>
        t.fold.tail = true ∧
        (∀ r : Nat, flockTail t (r / 16) = true → (regionOf t r).leanC = none ∧ (regionOf t r).raiseR = 0))) ∧
  (∀ (s : State),
      s.fold.tail = false → s.time.held = false → s.fold.started = false → nearFirst s = true →
      Completes .graceTailStart s (fun t =>
        t.fold.tail = true)) ∧
  (∀ (s : State),
      s.fold.started = true → s.fold.ring = false → s.time.held = false → s.fold.nextBell ≤ s.time.counter + 16 →
      s.fold.plannedReq ≤ s.fold.plannedLaps → (∀ r < s.build.regions, incomplete s r = false) →
      Completes .call s (fun t =>
        t.fold.ring = true ∧ t.fold.nextBell = s.fold.nextBell)) ∧
  (∀ (s : State),
      s.fold.started = true → s.fold.ring = false → s.time.held = false → s.fold.nextBell ≤ s.time.counter + 16 →
      s.fold.plannedReq ≤ s.fold.plannedLaps → (∃ r < s.build.regions, incomplete s r = true) →
      Completes .call s (fun t =>
        t.fold.ring = false ∧ t.fold.laps = s.fold.laps + 1 ∧ t.fold.lapsAll = s.fold.lapsAll + 1 ∧
        t.fold.nextBell = s.fold.nextBell + 64 ∧
        (s.fold.laps = 0 → t.fold.missed = s.fold.missed + 1 ∧ Flagged t .fold 1) ∧
        (stallLaps s ≤ s.fold.laps + 1 → t.fold.stalled = true))) ∧
  (∀ (s : State),
      s.fold.started = true → s.fold.ring = false → s.time.held = false → s.fold.nextBell ≤ s.time.counter + 16 →
      s.fold.plannedLaps < s.fold.plannedReq →
      Completes .call s (fun t =>
        t.fold.plannedLaps = s.fold.plannedReq ∧ t.fold.laps = s.fold.laps ∧
        t.fold.nextBell = s.fold.nextBell + 64 * (s.fold.plannedReq - s.fold.plannedLaps) ∧ Flagged t .fold 10)) ∧
  (∀ (s : State),
      s.time.held = false → s.fold.started = true → s.fold.ring = true → s.fold.nextBell ≤ s.time.counter →
      Completes .bell s (fun t =>
        t.fold.bellTick = s.fold.nextBell ∧ t.fold.folds = s.fold.folds + 1 ∧
        t.fold.nextBell = s.fold.nextBell + t.fold.f ∧ t.fold.laps = 0 ∧ t.fold.plannedLaps = 0 ∧
        t.fold.tail = false ∧ t.fold.ring = false ∧ Flagged t .fold 0 ∧ (∀ r : Nat, (regionOf t r).c = 0))) ∧
  (∀ (s : State),
      s.time.held = false → s.fold.started = false → s.fold.pending = true → s.fold.firstTick ≤ s.time.counter →
      Completes .bell s (fun t =>
        t.fold.started = true ∧ t.fold.pending = false ∧ t.fold.bellTick = s.fold.firstTick ∧
        t.time.firstBell = true ∧ Flagged t .fold 0 ∧ Flagged t .fold 4))

/-- Exclusion, pulls, the fold statistics and log (R118, R120, R128, R129, R137, R139, R148, R149, R150). An
exclusion request takes a region out at once, a clear re-admits it at the next bell, an unknown region is
refused either way, and so is a set of a region excluded already, and a clear of one that is not excluded or
that waits for its re-admission; a pull is counted; FOLD_TETHER is rejected after capture or out of range; a
statistics request captures FOLD_STAT0 to 7 and a log select latches its entry. -/
def Obligations.FoldRegisters : Prop :=
  (∀ (s : State) (r : Nat),
      isRegion s r = true → pullsNow s r = true → (regionOf s r).pulling = false →
      Completes (.pull r) s (fun t =>
        (regionOf t r).pulling = true ∧ t.fold.pulls = s.fold.pulls + 1)) ∧
  (∀ (s : State) (w : Wr) (region : BitVec 13) (tag : BitVec 8),
      Performs w 0x3020 s → tag ≠ s.fold.exclTag → isRegion s region.toNat = true →
      (regionOf s region.toNat).excl = .no →
      Completes (.excludeSet w region tag) s (fun t =>
        (regionOf t region.toNat).excl = .byHost ∧ (regionOf t region.toNat).parked = true ∧ t.fold.exclRes = 0 ∧
        t.fold.exclTag = tag ∧ t.fold.exclRegion = region)) ∧
  (∀ (s : State) (w : Wr) (region : BitVec 13) (tag : BitVec 8),
      Performs w 0x3020 s → tag ≠ s.fold.exclTag → isRegion s region.toNat = true →
      (regionOf s region.toNat).excl ≠ .no →
      Completes (.excludeSet w region tag) s (fun t =>
        (regionOf t region.toNat).readmit = false ∧
        (t.fold.exclRes = if (regionOf s region.toNat).readmit then 0 else 1) ∧ t.fold.exclTag = tag)) ∧
  (∀ (s : State) (w : Wr) (region : BitVec 13) (tag : BitVec 8),
      Performs w 0x3020 s → tag ≠ s.fold.exclTag → isRegion s region.toNat = false →
      Completes (.excludeSet w region tag) s (fun t =>
        t.fold.exclRes = 2 ∧ t.fold.exclTag = tag ∧ t.regions = s.regions ∧ Flagged t .fold 12)) ∧
  (∀ (s : State) (w : Wr) (region : BitVec 13) (tag : BitVec 8),
      Performs w 0x3020 s → tag ≠ s.fold.exclTag → isRegion s region.toNat = true →
      (regionOf s region.toNat).excl ≠ .no → (regionOf s region.toNat).readmit = false →
      Completes (.excludeClear w region tag) s (fun t =>
        (regionOf t region.toNat).readmit = true ∧
        (regionOf t region.toNat).excl = (regionOf s region.toNat).excl ∧ t.fold.exclRes = 0 ∧
        t.fold.exclTag = tag)) ∧
  (∀ (s : State) (w : Wr) (region : BitVec 13) (tag : BitVec 8),
      Performs w 0x3020 s → tag ≠ s.fold.exclTag → isRegion s region.toNat = true →
      (regionOf s region.toNat).excl = .no ∨ (regionOf s region.toNat).readmit = true →
      Completes (.excludeClear w region tag) s (fun t =>
        t.regions = s.regions ∧ t.fold.exclRes = 1 ∧ t.fold.exclTag = tag ∧ t.fold.exclRegion = region)) ∧
  (∀ (s : State) (w : Wr) (region : BitVec 13) (tag : BitVec 8),
      Performs w 0x3020 s → tag ≠ s.fold.exclTag → isRegion s region.toNat = false →
      Completes (.excludeClear w region tag) s (fun t =>
        t.regions = s.regions ∧ t.fold.exclRes = 2 ∧ t.fold.exclTag = tag ∧ t.fold.exclRegion = region ∧
        Flagged t .fold 12)) ∧
  (∀ (s : State) (w : Wr) (v : Word),
      Performs w 0x3004 s → s.xing.captured = false → 4 ≤ fld v 0 6 → fld v 0 6 ≤ 32 → 2 ≤ fld v 8 4 →
      fld v 8 4 ≤ 8 → fld v 8 4 + 2 ≤ fld v 0 6 →
      Completes (.foldTetherWrite w v) s (fun t =>
        nowGet t 0x3004 = v &&& 0xF3F)) ∧
  (∀ (s : State) (w : Wr) (v : Word),
      Performs w 0x3004 s →
      s.xing.captured = true ∨ fld v 0 6 < 4 ∨ 32 < fld v 0 6 ∨ fld v 8 4 < 2 ∨ 8 < fld v 8 4 ∨ fld v 0 6 < fld v 8 4 + 2 →
      Completes (.foldTetherWrite w v) s (fun t =>
        nowGet t 0x3004 = nowGet s 0x3004 ∧ Flagged t .fold 6)) ∧
  (∀ (s : State) (w : Wr) (v : Word),
      Performs w 0x3028 s → BitVec.ofNat 8 (fld v 0 8) ≠ (snapOf s 1 w.port).tag →
      Completes (.foldStatReq w v) s (fun t =>
        snapOf t 1 w.port = ⟨true, BitVec.ofNat 8 (fld v 0 8), 0, false, foldStatWords s⟩)) ∧
  (∀ (s : State) (w : Wr) (v : Word),
      Performs w 0x3050 s →
      Completes (.foldLogSel w v) s (fun t =>
        tabGet t.logs (portIx w.port) {} = s.fold.log.getD (fld v 0 4) {}))

/-- Stops and interlocks of a crossing, its registers and its audit (R122, R196, R197, R198, R209, R214, R215, R218,
R221). A slip beyond T − g stops the side that is ahead; the availability interlock stops the reader and the
room interlock the writer with ROOM_STOP; a stop is released when its condition has gone; XING_SEL captures a
crossing; XING_CFG is refused after capture or beyond 50; audit marks and expects pair within 8 beats. -/
def Obligations.CrossingCommands : Prop :=
  (∀ (s : State) (x : Nat),
      isXing s x = true → (xingOf s x).armed = true → bandOf s < (slipOf (xingOf s x)).natAbs →
      0 < slipOf (xingOf s x) → stoppable s (hookOf s x).reader = true → (xingOf s x).stopR = false →
      Completes (.tetherStop x) s (fun t =>
        (xingOf t x).stopR = true ∧ (xingOf t x).stopW = (xingOf s x).stopW ∧
        (xingOf t x).tstops = (xingOf s x).tstops + 1 ∧ t.fold.tstops = s.fold.tstops + 1)) ∧
  (∀ (s : State) (x : Nat),
      isXing s x = true → (xingOf s x).armed = true → bandOf s < (slipOf (xingOf s x)).natAbs →
      slipOf (xingOf s x) < 0 → stoppable s (hookOf s x).writer = true → (xingOf s x).stopW = false →
      Completes (.tetherStop x) s (fun t =>
        (xingOf t x).stopW = true ∧ (xingOf t x).stopR = (xingOf s x).stopR ∧
        (xingOf t x).tstops = (xingOf s x).tstops + 1 ∧ t.fold.tstops = s.fold.tstops + 1)) ∧
  (∀ (s : State) (x : Nat),
      isXing s x = true → (xingOf s x).armed = true → (xingOf s x).avail = false →
      stoppable s (hookOf s x).reader = true → beatOn s (hookOf s x).reader x = true →
      availBlocks (xingOf s x) (65536 * s.time.total) = true →
      Completes (.availInterlock x) s (fun t =>
        (xingOf t x).avail = true ∧ (xingOf t x).availCnt = (xingOf s x).availCnt + 1 ∧
        t.fold.tstops = s.fold.tstops + 1)) ∧
  (∀ (s : State) (x : Nat),
      isXing s x = true → (xingOf s x).armed = true → (xingOf s x).room = false →
      stoppable s (hookOf s x).writer = true → beatOn s (hookOf s x).writer x = true →
      roomBlocks (xingOf s x) = true →
      Completes (.roomStop x) s (fun t =>
        (xingOf t x).room = true ∧ (xingOf t x).roomCnt = (xingOf s x).roomCnt + 1 ∧ Flagged t .xing 7 ∧
        t.fold.tstops = s.fold.tstops + 1)) ∧
  (∀ (s : State) (x : Nat),
      isXing s x = true →
      Completes (.tetherStopRelease x) s (fun t =>
        (availBlocks (xingOf s x) (tickEnd s) = false → (xingOf t x).avail = false) ∧
        (roomBlocks (xingOf s x) = false → (xingOf t x).room = false) ∧
        ((slipOf (xingOf s x)).natAbs ≤ bandOf s → (xingOf t x).stopR = false ∧ (xingOf t x).stopW = false))) ∧
  (∀ (s : State) (w : Wr) (v : Word),
      Performs w 0x5000 s → BitVec.ofNat 8 (fld v 24 8) ≠ (snapOf s 3 w.port).tag → fld v 0 15 < s.build.xings →
      Completes (.xingSel w v) s (fun t =>
        snapOf t 3 w.port = ⟨true, BitVec.ofNat 8 (fld v 24 8), fld v 0 15, false, xingWords s (fld v 0 15)⟩)) ∧
  (∀ (s : State) (w : Wr) (v : Word),
      Performs w 0x501C s → s.xing.captured = false → fld v 0 6 ≤ 50 →
      Completes (.xingCfgWrite w v) s (fun t =>
        nowGet t 0x501C = v &&& 0x3F)) ∧
  (∀ (s : State) (w : Wr) (v : Word),
      Performs w 0x501C s → s.xing.captured = true ∨ 50 < fld v 0 6 →
      Completes (.xingCfgWrite w v) s (fun t =>
        nowGet t 0x501C = nowGet s 0x501C ∧ Flagged t .xing (if s.xing.captured then 6 else 9))) ∧
  (∀ (s : State) (w : Wr) (v : Word),
      Performs w 0x5030 s →
      Completes (.auditEnWrite w v) s (fun t =>
        nowGet t 0x5030 = v &&& 1)) ∧
  (∀ (s : State) (w : Wr) (v : Word),
      Performs w 0x5030 s → bitAt v 1 = true →
      Completes (.auditClear w v) s (fun t =>
        t.xing.auditHit = false ∧ t.xing.auditUnpaired = false ∧ t.xing.auditOffset = 0 ∧ t.xing.auditXing = 0)) ∧
  (∀ (s : State) (x : Nat) (m e : Nat),
      isXing s x = true → bitAt (nowGet s 0x5030) 0 = true → (xingOf s x).enabled = true →
      (xingOf s x).armed = true → (xingOf s x).lat < m → m ≠ e → ((e : Int) - m).natAbs ≤ 8 →
      Completes (.auditMismatch x (some m) ⟨some e, false⟩) s (fun t =>
        (xingOf t x).mismatchCnt = (xingOf s x).mismatchCnt + 1 ∧ Flagged t .xing 3 ∧ t.xing.auditHit = true)) ∧
  (∀ (s : State) (x : Nat) (m : Nat) (b : Bool),
      isXing s x = true → bitAt (nowGet s 0x5030) 0 = true → (xingOf s x).enabled = true →
      (xingOf s x).armed = true → (xingOf s x).lat < m →
      Completes (.auditMismatch x (some m) ⟨some m, b⟩) s (fun t =>
        (xingOf t x).matchCnt = (xingOf s x).matchCnt + 1 ∧ (xingOf t x).mismatchCnt = (xingOf s x).mismatchCnt)) ∧
  (∀ (s : State) (x : Nat) (m e : Nat),
      isXing s x = true → bitAt (nowGet s 0x5030) 0 = true → (xingOf s x).enabled = true →
      (xingOf s x).armed = true → (xingOf s x).lat < m → 8 < ((e : Int) - m).natAbs →
      Completes (.auditMismatch x (some m) ⟨some e, false⟩) s (fun t =>
        (xingOf t x).mismatchCnt = (xingOf s x).mismatchCnt + 2 ∧ Flagged t .xing 3 ∧ t.xing.auditHit = true)) ∧
  (∀ (s : State) (x : Nat) (m : Nat) (b : Bool),
      isXing s x = true → bitAt (nowGet s 0x5030) 0 = true → (xingOf s x).enabled = true →
      (xingOf s x).armed = true → (xingOf s x).lat < m →
      Completes (.auditMismatch x (some m) ⟨none, b⟩) s (fun t =>
        (xingOf t x).mismatchCnt = (xingOf s x).mismatchCnt + 1 ∧ Flagged t .xing 3 ∧ t.xing.auditHit = true)) ∧
  (∀ (s : State) (x : Nat) (m : Nat) (b : Bool),
      isXing s x = true → (xingOf s x).armed = false ∨ m ≤ (xingOf s x).lat →
      Completes (.auditMismatch x (some m) ⟨none, b⟩) s (fun t =>
        t = s))

/-- Windsock levels, and the zones’ clamp and snapshot (R168, R169, R171, R172, R174, R183, R256, R262, R275). A
sample that decides a level sets it: stretch owes the curve’s stretch to the next edge, hold counts an onset and
raises HOLD, four samples in a row above HLD end a hold, advise counts an onset. That the fourth sample itself
decides the new level is log 135, and that a HOLD_RELEASE outside the hold level is an ordinary sample log 15.
At the end of a clamp window a zone whose estimate exceeds TRIP_PCT of its budget clamps with CLAMP_ON, one
within its budget unclamps, and the sums restart; a new TAG of ZONE_STAT_REQ captures the zone words. -/
def Obligations.WindsockAndZoneCommands : Prop :=
  (∀ (s : State) (r : Nat) (sample : Sample),
      isRegion s r = true → samples s r = true → levelOf s r sample.margins (regionOf s r).raiseR = .stretch →
      (regionOf s r).level ≠ .hold →
      Completes (.windsockStretch r sample) s (fun t =>
        (regionOf t r).level = .stretch ∧
        (regionOf t r).margin = marginOf sample.margins (worstType (wsTypes s r) sample.margins) ∧
        ((regionOf s r).parked = false → (regionOf t r).owed = (regionOf s r).owed ++ [⟨65536 * s.time.total + sample.at16, curveW s (classOfRegion s r) (marginOf sample.margins (worstType (wsTypes s r) sample.margins)), decide ((regionOf s r).raiseR ≠ 0) && decide (levelNum (levelOf s r sample.margins 0) < 2)⟩]))) ∧
  (∀ (s : State) (r : Nat) (margins : BitVec 32),
      isRegion s r = true → samples s r = true → levelOf s r margins (regionOf s r).raiseR = .hold →
      Completes (.windsockHold r margins) s (fun t =>
        (regionOf t r).level = .hold ∧ (regionOf t r).above = 0 ∧
        ((regionOf s r).level ≠ .hold → (regionOf t r).holdOn = (regionOf s r).holdOn + 1 ∧ Flagged t .rcg 4))) ∧
  (∀ (s : State) (r : Nat) (margins : BitVec 32),
      isRegion s r = true → samples s r = true → (regionOf s r).level = .hold →
      levelOf s r margins (regionOf s r).raiseR ≠ .hold →
      Completes (.holdRelease r margins) s (fun t =>
        ((regionOf s r).above < 3 → (regionOf t r).level = .hold ∧ (regionOf t r).above = (regionOf s r).above + 1) ∧
        (3 ≤ (regionOf s r).above → (regionOf t r).level = levelOf s r margins (regionOf s r).raiseR ∧ (regionOf t r).above = 0))) ∧
  (∀ (s : State) (r : Nat) (margins : BitVec 32),
      isRegion s r = true → samples s r = true → (regionOf s r).level ≠ .hold →
      levelNum (levelOf s r margins (regionOf s r).raiseR) < 2 →
      Completes (.holdRelease r margins) s (fun t =>
        (regionOf t r).level = levelOf s r margins (regionOf s r).raiseR)) ∧
  (∀ (s : State) (r : Nat) (margins : BitVec 32),
      isRegion s r = true → samples s r = true → levelOf s r margins (regionOf s r).raiseR = .advise →
      (regionOf s r).level = .none →
      Completes (.adviseOnset r margins) s (fun t =>
        (regionOf t r).level = .advise ∧ (regionOf t r).advOn = (regionOf s r).advOn + 1)) ∧
  (∀ (s : State),
      s.fold.started = true → clampEn s = true →
      s.fold.ring = false ∨ s.zones.clampFrom + 256 ≤ s.fold.nextBell →
      s.zones.clampFrom + 256 ≤ s.time.counter →
      Completes .clampWindowEnd s (fun t =>
        t.zones.clampFrom = s.zones.clampFrom + 256 ∧
        (∀ z < s.build.zones, (zoneOf t z).clamp = (if budgetOf s z = 0 then (zoneOf s z).clamp else if (zoneOf s z).clamp = false ∧ budgetOf s z * tripPct s < 100 * estimate s z 256 (fun r => (r.clampEdges, r.clampActivity)) then true else if estimate s z 256 (fun r => (r.clampEdges, r.clampActivity)) ≤ budgetOf s z then false else (zoneOf s z).clamp) ∧ ((zoneOf s z).clamp = false ∧ (zoneOf t z).clamp = true → Flagged t .zone 3)) ∧
        (∀ r : Nat, (regionOf t r).clampEdges = 0 ∧ (regionOf t r).clampActivity = 0))) ∧
  (∀ (s : State) (w : Wr) (v : Word),
      Performs w 0x7024 s → BitVec.ofNat 8 (fld v 0 8) ≠ (snapOf s 5 w.port).tag →
      Completes (.zoneStatReq w v) s (fun t =>
        snapOf t 5 w.port = ⟨true, BitVec.ofNat 8 (fld v 0 8), 0, false, zoneWords s⟩))

/-- The region window, band stops and band measurement (R156, R157, R160, R179, R180, R181, R188, R453). A
band-change stop ends on the new band; RCG_SEL captures a region; RCG_CFG is buffered for the selected region or
refused with CFG IDX_RANGE; RCG_BMEAS starts on rows that do not serve, is refused for one that does or while
busy; its end clears ROW_OK. That an RCG_BMEAS_DONE sent before its time ends nothing is the model’s choice (log
86). -/
def Obligations.RegionRegisters : Prop :=
  (∀ (s : State) (gen : Nat) (e : Nat),
      isGen s gen = true → (genOf s gen).stopEnd = some e → e ≤ s.time.total →
      Completes (.bandChangeStopEnd gen) s (fun t =>
        (genOf t gen).stopEnd = none ∧ (genOf t gen).planned = none ∧
        (∀ b, (genOf s gen).planned = some b → (genOf t gen).band = some b ∧ (genOf t gen).div = (genOf s gen).plannedDiv) ∧
        ((genOf s gen).planned = none → (genOf t gen).band = (genOf s gen).band))) ∧
  (∀ (s : State) (w : Wr) (v : Word),
      Performs w 0x4000 s → BitVec.ofNat 8 (fld v 24 8) ≠ (snapOf s 2 w.port).tag →
      fld v 0 13 < s.build.regions →
      Completes (.rcgSel w v) s (fun t =>
        snapOf t 2 w.port = ⟨true, BitVec.ofNat 8 (fld v 24 8), fld v 0 13, false, regionWords s (fld v 0 13)⟩)) ∧
  (∀ (s : State) (w : Wr) (v : Word),
      Performs w 0x400C s → s.build.valid = true → selRegion s w.port < s.build.regions →
      Completes (.rcgCfgWrite w v) s (fun t =>
        bellW t (keyRcg (selRegion s w.port)) = v &&& 0xFFF3 ∧ t.cfgA = s.cfgA)) ∧
  (∀ (s : State) (w : Wr) (v : Word),
      Performs w 0x400C s → s.build.regions ≤ selRegion s w.port →
      Completes (.rcgCfgWrite w v) s (fun t =>
        t.cfgW = s.cfgW ∧ Flagged t .cfg 7)) ∧
  (∀ (s : State) (w : Wr) (v : Word),
      Performs w 0x404C s → BitVec.ofNat 8 (fld v 24 8) ≠ s.bmTag → s.bmBusy = true →
      Completes (.rcgBmeas w v) s (fun t =>
        t.bmStatus = 2 ∧ t.bmTag = BitVec.ofNat 8 (fld v 24 8) ∧ t.bmRows = s.bmRows ∧ t.bmBusy = true)) ∧
  (∀ (s : State) (w : Wr) (v : Word),
      Performs w 0x404C s → BitVec.ofNat 8 (fld v 24 8) ≠ s.bmTag → s.bmBusy = false → bitAt v 16 = false →
      isGen s (fld v 0 13) = true → isServing s (fld v 0 13) = true →
      Completes (.rcgBmeas w v) s (fun t =>
        t.bmStatus = 1 ∧ t.bmTag = BitVec.ofNat 8 (fld v 24 8) ∧ t.bmBusy = false ∧ t.gens = s.gens)) ∧
  (∀ (s : State) (w : Wr) (v : Word),
      Performs w 0x404C s → BitVec.ofNat 8 (fld v 24 8) ≠ s.bmTag → s.bmBusy = false → bitAt v 16 = false →
      isGen s (fld v 0 13) = true → isServing s (fld v 0 13) = false →
      Completes (.rcgBmeas w v) s (fun t =>
        t.bmStatus = 3 ∧ t.bmBusy = true ∧ t.bmRows = [fld v 0 13] ∧ (genOf t (fld v 0 13)).st = .measuring ∧
        (genOf t (fld v 0 13)).measFrom = some (if (genOf s (fld v 0 13)).calFrom.isSome then .locking else (genOf s (fld v 0 13)).st) ∧
        (genOf t (fld v 0 13)).measAt = elapsed s)) ∧
  (∀ (s : State) (w : Wr) (v : Word),
      Performs w 0x404C s → BitVec.ofNat 8 (fld v 24 8) ≠ s.bmTag → s.bmBusy = false → bitAt v 16 = true →
      Completes (.rcgBmeas w v) s (fun t =>
        t.bmStatus = 3 ∧ t.bmBusy = true ∧ t.bmRows = (allGens s.build).filter (fun g => !isServing s g))) ∧
  (∀ (s : State) (counts : List (Nat × List (Nat × Nat))),
      s.bmBusy = true → bmeasOver s = false →
      Completes (.rcgBmeasDone counts) s (fun t =>
        t.bmBusy = true ∧ t.bmRows = s.bmRows ∧
        (∀ g ∈ s.bmRows, (genOf t g).st = (genOf s g).st ∧ (genOf t g).measFrom = (genOf s g).measFrom))) ∧
  (∀ (s : State) (counts : List (Nat × List (Nat × Nat))),
      s.bmBusy = true → (∀ g ∈ s.bmRows, (genOf s g).measFrom = none ∨ (genOf s g).measAt + 36576 ≤ elapsed s) →
      Completes (.rcgBmeasDone counts) s (fun t =>
        t.bmBusy = false ∧ t.bmRows = [] ∧ (∀ g ∈ s.bmRows, (genOf t g).rowOk = false)))

/-- What a beat of the data port writes (R152, R154, R203, R236, R238, R356, R405, R406, R485, R486, R487, R490). A
beat writes the bytes its strobes name where its window takes writes, and no other; a band row loses ROW_OK, and
a word of it that a measurement wrote in the same tick keeps what was measured (log 111); pins are late while
calibration runs; open and waiting forecast and firmware banks count whole entries and beats, and a waiting one
whose count is then complete goes to VERIFY; active ones answer SLVERR with ACTIVE_WR and empty, verifying and
sealed ones SLVERR; the manifest and FIXED or WRAP bursts answer SLVERR and write nothing. -/
def Obligations.DataPortBeats : Prop :=
  (∀ (s : State) (b : Beat),
      (Instr.bandRowWrite b).wellFormed = true → s.power.fabUp = true →
      isGen s ((b.addr.toNat - 0x800000) / 128) = true → b.strb ≠ 0 →
      (genOf s ((b.addr.toNat - 0x800000) / 128)).rowWroteAt ≠ some (elapsed s) →
      Completes (.bandRowWrite b) s (fun t =>
        t.out.beats = [.okay] ∧ (genOf t ((b.addr.toNat - 0x800000) / 128)).rowOk = false ∧
        (∀ k < 32, memGet t.data (b.addr.toNat + k) = if b.strb.getLsbD k = true then b.data.extractLsb' (8 * k) 8 &&& bandMask (b.addr.toNat + k) else memGet s.data (b.addr.toNat + k)))) ∧
  (∀ (s : State) (b : Beat),
      (Instr.bandRowWrite b).wellFormed = true → s.power.fabUp = true →
      isGen s ((b.addr.toNat - 0x800000) / 128) = true → b.strb ≠ 0 →
      (genOf s ((b.addr.toNat - 0x800000) / 128)).rowWroteAt = some (elapsed s) →
      Completes (.bandRowWrite b) s (fun t =>
        t.out.beats = [.okay] ∧ (genOf t ((b.addr.toNat - 0x800000) / 128)).rowOk = false ∧
        (∀ k < 32, memGet t.data (b.addr.toNat + k) = if b.strb.getLsbD k = true ∧ ((b.addr.toNat % 128 + k) / 4 < (genOf s ((b.addr.toNat - 0x800000) / 128)).rowWrote.1 ∨ (genOf s ((b.addr.toNat - 0x800000) / 128)).rowWrote.2 ≤ (b.addr.toNat % 128 + k) / 4) then b.data.extractLsb' (8 * k) 8 &&& bandMask (b.addr.toNat + k) else memGet s.data (b.addr.toNat + k)))) ∧
  (∀ (s : State) (b : Beat),
      (Instr.bandRowWrite b).wellFormed = true → s.power.fabUp = true →
      isGen s ((b.addr.toNat - 0x800000) / 128) = false →
      Completes (.bandRowWrite b) s (fun t =>
        t.out.beats = [.okay] ∧ t.data = s.data ∧ t.gens = s.gens)) ∧
  (∀ (s : State) (b : Beat),
      (Instr.pinWrite b).wellFormed = true → s.power.fabUp = true → s.xing.calRun = false →
      Completes (.pinWrite b) s (fun t =>
        t.out.beats = [.okay] ∧
        (∀ k < 32, memGet t.data (b.addr.toNat + k) = if b.strb.getLsbD k = true ∧ b.addr.toNat + k - 0x900000 < s.build.xings then b.data.extractLsb' (8 * k) 8 else memGet s.data (b.addr.toNat + k)))) ∧
  (∀ (s : State) (b : Beat),
      (Instr.pinWrite b).wellFormed = true → s.power.fabUp = true → s.xing.calRun = true →
      Completes (.pinWrite b) s (fun t =>
        t.out.beats = [.okay] ∧ t.data = s.data ∧ Flagged t .xing 5)) ∧
  (∀ (s : State) (b : Beat),
      (Instr.fcstEntryWrite b).wellFormed = true → s.power.fabUp = true → b.addr.toNat < 0x400000 →
      s.fcst.single = false → (fbank s (if b.addr.toNat < 0x200000 then 0 else 1)).st = .opened →
      Completes (.fcstEntryWrite b) s (fun t =>
        t.out.beats = [.okay] ∧
        (∀ k < 32, memGet t.data (b.addr.toNat + k) = if b.strb.getLsbD k = true then b.data.extractLsb' (8 * k) 8 else memGet s.data (b.addr.toNat + k)) ∧
        (b.strb = BitVec.allOnes 32 → (fbank t (if b.addr.toNat < 0x200000 then 0 else 1)).wcount = (fbank s (if b.addr.toNat < 0x200000 then 0 else 1)).wcount + 4) ∧
        (b.strb = 1 → Flagged t .fcst 9))) ∧
  (∀ (s : State) (b : Beat),
      (Instr.fcstEntryWrite b).wellFormed = true → s.power.fabUp = true → b.addr.toNat < 0x400000 →
      s.fcst.single = false → (fbank s (if b.addr.toNat < 0x200000 then 0 else 1)).st = .active →
      Completes (.fcstEntryWrite b) s (fun t =>
        t.out.beats = [.slverr] ∧ t.data = s.data ∧ Flagged t .fcst 7)) ∧
  (∀ (s : State) (b : Beat),
      (Instr.fcstEntryWrite b).wellFormed = true → s.power.fabUp = true → b.addr.toNat < 0x400000 →
      s.fcst.single = false → (fbank s (if b.addr.toNat < 0x200000 then 0 else 1)).st = .waiting →
      b.strb = BitVec.allOnes 32 →
      Completes (.fcstEntryWrite b) s (fun t =>
        t.out.beats = [.okay] ∧
        (∀ k < 32, memGet t.data (b.addr.toNat + k) = if b.strb.getLsbD k = true then b.data.extractLsb' (8 * k) 8 else memGet s.data (b.addr.toNat + k)) ∧
        (fbank t (if b.addr.toNat < 0x200000 then 0 else 1)).wcount = (fbank s (if b.addr.toNat < 0x200000 then 0 else 1)).wcount + 4 ∧
        ((fbank s (if b.addr.toNat < 0x200000 then 0 else 1)).wcount + 4 = (fbank s (if b.addr.toNat < 0x200000 then 0 else 1)).want → (fbank t (if b.addr.toNat < 0x200000 then 0 else 1)).st = .verify) ∧
        ((fbank s (if b.addr.toNat < 0x200000 then 0 else 1)).wcount + 4 < (fbank s (if b.addr.toNat < 0x200000 then 0 else 1)).want → (fbank t (if b.addr.toNat < 0x200000 then 0 else 1)).st = .waiting) ∧
        ((fbank s (if b.addr.toNat < 0x200000 then 0 else 1)).want < (fbank s (if b.addr.toNat < 0x200000 then 0 else 1)).wcount + 4 → (fbank t (if b.addr.toNat < 0x200000 then 0 else 1)).st = .opened ∧ t.fcst.sealRes = 2 ∧ Flagged t .fcst 1))) ∧
  (∀ (s : State) (b : Beat),
      (Instr.fcstEntryWrite b).wellFormed = true → s.power.fabUp = true → s.fcst.single = false →
      (fbank s (if b.addr.toNat < 0x200000 ∨ 0x400000 ≤ b.addr.toNat ∧ b.addr.toNat < 0x400040 then 0 else 1)).st = .empty ∨ (fbank s (if b.addr.toNat < 0x200000 ∨ 0x400000 ≤ b.addr.toNat ∧ b.addr.toNat < 0x400040 then 0 else 1)).st = .verify ∨ (fbank s (if b.addr.toNat < 0x200000 ∨ 0x400000 ≤ b.addr.toNat ∧ b.addr.toNat < 0x400040 then 0 else 1)).st = .sealed →
      Completes (.fcstEntryWrite b) s (fun t =>
        t.out.beats = [.slverr] ∧ t.data = s.data ∧
        ((fbank s (if b.addr.toNat < 0x200000 ∨ 0x400000 ≤ b.addr.toNat ∧ b.addr.toNat < 0x400040 then 0 else 1)).st = .empty → t.events = s.events) ∧
        ((fbank s (if b.addr.toNat < 0x200000 ∨ 0x400000 ≤ b.addr.toNat ∧ b.addr.toNat < 0x400040 then 0 else 1)).st ≠ .empty → Flagged t .fcst 8))) ∧
  (∀ (s : State) (b : Beat),
      (Instr.calImageWrite b).wellFormed = true → s.power.fabUp = true →
      Completes (.calImageWrite b) s (fun t =>
        t.out.beats = [.okay] ∧
        (∀ k < 32, memGet t.data (b.addr.toNat + k) = if b.strb.getLsbD k = true then b.data.extractLsb' (8 * k) 8 else memGet s.data (b.addr.toNat + k)))) ∧
  (∀ (s : State) (b : Beat),
      (Instr.fwDataWrite b).wellFormed = true → s.power.fabUp = true →
      (swBank s (if b.addr.toNat < 0xC20000 then 0 else 1)).st = .opened →
      Completes (.fwDataWrite b) s (fun t =>
        t.out.beats = [.okay] ∧
        (∀ k < 32, memGet t.data (b.addr.toNat + k) = if b.strb.getLsbD k = true then b.data.extractLsb' (8 * k) 8 else memGet s.data (b.addr.toNat + k)) ∧
        (b.strb = BitVec.allOnes 32 → (swBank t (if b.addr.toNat < 0xC20000 then 0 else 1)).wcount = (swBank s (if b.addr.toNat < 0xC20000 then 0 else 1)).wcount + 1) ∧
        (b.strb = 1 → Flagged t .shep 9))) ∧
  (∀ (s : State) (b : Beat),
      (Instr.fwDataWrite b).wellFormed = true → s.power.fabUp = true →
      (swBank s (if b.addr.toNat < 0xC20000 then 0 else 1)).st = .active →
      Completes (.fwDataWrite b) s (fun t =>
        t.out.beats = [.slverr] ∧ t.data = s.data ∧ Flagged t .shep 7)) ∧
  (∀ (s : State) (b : Beat),
      (Instr.fwDataWrite b).wellFormed = true → s.power.fabUp = true →
      (swBank s (if b.addr.toNat < 0xC20000 then 0 else 1)).st = .waiting →
      elapsed s ≤ (swBank s (if b.addr.toNat < 0xC20000 then 0 else 1)).timer → b.strb = BitVec.allOnes 32 →
      Completes (.fwDataWrite b) s (fun t =>
        t.out.beats = [.okay] ∧
        (∀ k < 32, memGet t.data (b.addr.toNat + k) = if b.strb.getLsbD k = true then b.data.extractLsb' (8 * k) 8 else memGet s.data (b.addr.toNat + k)) ∧
        ((swBank s (if b.addr.toNat < 0xC20000 then 0 else 1)).wcount + 1 = (swBank s (if b.addr.toNat < 0xC20000 then 0 else 1)).want → (swBank t (if b.addr.toNat < 0xC20000 then 0 else 1)).st = .verify) ∧
        ((swBank s (if b.addr.toNat < 0xC20000 then 0 else 1)).wcount + 1 < (swBank s (if b.addr.toNat < 0xC20000 then 0 else 1)).want → (swBank t (if b.addr.toNat < 0xC20000 then 0 else 1)).st = .waiting ∧ (swBank t (if b.addr.toNat < 0xC20000 then 0 else 1)).wcount = (swBank s (if b.addr.toNat < 0xC20000 then 0 else 1)).wcount + 1))) ∧
  (∀ (s : State) (b : Beat),
      (Instr.fwDataWrite b).wellFormed = true → s.power.fabUp = true →
      (swBank s (if b.addr.toNat < 0xC20000 then 0 else 1)).st = .empty ∨ (swBank s (if b.addr.toNat < 0xC20000 then 0 else 1)).st = .verify ∨ (swBank s (if b.addr.toNat < 0xC20000 then 0 else 1)).st = .sealed →
      Completes (.fwDataWrite b) s (fun t =>
        t.out.beats = [.slverr] ∧ t.data = s.data ∧
        ((swBank s (if b.addr.toNat < 0xC20000 then 0 else 1)).st ≠ .empty → Flagged t .shep 8))) ∧
  (∀ (s : State) (b : Beat),
      (Instr.manifestWrite b).wellFormed = true →
      Completes (.manifestWrite b) s (fun t =>
        t.out.beats = [.slverr] ∧ t.data = s.data)) ∧
  (∀ (s : State) (write : Bool) (beats : Nat),
      Completes (.badBurst write beats) s (fun t =>
        t.out.beats = List.replicate beats .slverr ∧ t.data = s.data))

/-- The forecast commands and its mode (R222, R237, R238, R239, R240, R241, R247, R248, R249). A new TAG performs
OPEN, SEAL, SWAP, STOP or nothing, or is rejected with its code and CMD_REJECT; a seal waits for its count,
fails above it and is judged by the checks of a seal; a mode change empties both banks and is refused while a
bank is active or committed; a SWAP of an empty or active bank is refused with 3, and OPEN, SEAL and SWAP of
bank 1 in single-bank mode with 4. -/
def Obligations.ForecastCommands : Prop :=
  (∀ (s : State) (w : Wr) (v : Word),
      Performs w 0x6000 s → bitAt v 0 ≠ s.fcst.single → s.fcst.active = none → s.fcst.commitBank = none →
      Completes (.fcstModeWrite w v) s (fun t =>
        t.fcst.single = bitAt v 0 ∧ t.fcst.b0 = {} ∧ t.fcst.b1 = {})) ∧
  (∀ (s : State) (w : Wr) (v : Word),
      Performs w 0x6000 s → bitAt v 0 ≠ s.fcst.single →
      s.fcst.active.isSome = true ∨ s.fcst.commitBank.isSome = true →
      Completes (.fcstModeWrite w v) s (fun t =>
        t.fcst.single = s.fcst.single ∧ t.fcst.b0 = s.fcst.b0 ∧ t.fcst.rej = 6 ∧ Flagged t .fcst 10)) ∧
  (∀ (s : State) (w : Wr) (bank : BitVec 1) (tag : BitVec 8),
      Performs w 0x6004 s → tag ≠ s.fcst.cmdTag → (bank = 0 ∨ s.fcst.single = false) →
      s.fcst.active ≠ some bank → s.fcst.committed = false →
      Completes (.fcstOpen w bank tag) s (fun t =>
        fbank t bank = { st := .opened } ∧ t.fcst.cmdTag = tag ∧
        (∀ a, s.fcst.swap = some (bank, a) → t.fcst.swap = none ∧ Flagged t .fcst 3))) ∧
  (∀ (s : State) (w : Wr) (bank : BitVec 1) (tag : BitVec 8),
      Performs w 0x6004 s → tag ≠ s.fcst.cmdTag → (bank = 0 ∨ s.fcst.single = false) →
      s.fcst.active = some bank ∨ s.fcst.committed = true →
      Completes (.fcstOpen w bank tag) s (fun t =>
        fbank t bank = fbank s bank ∧ t.fcst.rej = 1 ∧ t.fcst.cmdTag = tag ∧ Flagged t .fcst 10)) ∧
  (∀ (s : State) (w : Wr) (bank : BitVec 1) (tag : BitVec 8),
      Performs w 0x6004 s → tag ≠ s.fcst.cmdTag → (bank = 0 ∨ s.fcst.single = false) →
      (fbank s bank).st = .opened →
      Completes (.fcstSeal w bank tag) s (fun t =>
        (fbank t bank).wcount = (fbank s bank).wcount ∧
        ((fbank s bank).wcount < hdrCount s bank → (fbank t bank).st = .waiting ∧ (fbank t bank).timer = s.time.total + 4096) ∧
        ((fbank s bank).wcount = hdrCount s bank → (fbank t bank).st = .verify ∧ (fbank t bank).timer = s.time.total + ceilDiv (min (hdrCount s bank) (bankSize s)) 16) ∧
        (hdrCount s bank < (fbank s bank).wcount → (fbank t bank).st = .opened ∧ t.fcst.sealRes = 2 ∧ Flagged t .fcst 1))) ∧
  (∀ (s : State) (w : Wr) (bank : BitVec 1) (tag : BitVec 8),
      Performs w 0x6004 s → tag ≠ s.fcst.cmdTag → (bank = 0 ∨ s.fcst.single = false) →
      (fbank s bank).st ≠ .opened →
      Completes (.fcstSeal w bank tag) s (fun t =>
        fbank t bank = fbank s bank ∧ t.fcst.rej = 2 ∧ Flagged t .fcst 10)) ∧
  (∀ (s : State) (w : Wr) (bank : BitVec 1) (tag : BitVec 8),
      Performs w 0x6004 s → tag ≠ s.fcst.cmdTag → (bank = 0 ∨ s.fcst.single = false) →
      (fbank s bank).st ≠ .empty → (fbank s bank).st ≠ .active →
      nowGet s 0x6008 = 0 ∨ s.fold.folds.toNat < (nowGet s 0x6008).toNat →
      nowGet s 0x6008 = 0 ∨ s.fcst.committed = false ∨ nowGet s 0x6008 ≠ s.fold.folds + 1 →
      Completes (.fcstSwap w bank tag) s (fun t =>
        t.fcst.swap = some (bank, nowGet s 0x6008) ∧ t.fcst.stop = false)) ∧
  (∀ (s : State) (w : Wr) (bank : BitVec 1) (tag : BitVec 8),
      Performs w 0x6004 s → tag ≠ s.fcst.cmdTag → (bank = 0 ∨ s.fcst.single = false) →
      (fbank s bank).st ≠ .empty → (fbank s bank).st ≠ .active → nowGet s 0x6008 ≠ 0 →
      (nowGet s 0x6008).toNat ≤ s.fold.folds.toNat ∨ (s.fcst.committed = true ∧ nowGet s 0x6008 = s.fold.folds + 1) →
      Completes (.fcstSwap w bank tag) s (fun t =>
        t.fcst.swap = s.fcst.swap ∧ t.fcst.rej = 7 ∧ Flagged t .fcst 10)) ∧
  (∀ (s : State) (w : Wr) (bank : BitVec 1) (tag : BitVec 8),
      Performs w 0x6004 s → tag ≠ s.fcst.cmdTag → (bank = 0 ∨ s.fcst.single = false) →
      (fbank s bank).st = .empty ∨ (fbank s bank).st = .active →
      Completes (.fcstSwap w bank tag) s (fun t =>
        t.fcst.swap = s.fcst.swap ∧ t.fcst.stop = s.fcst.stop ∧ t.fcst.rej = 3 ∧ t.fcst.cmdTag = tag ∧
        Flagged t .fcst 10)) ∧
  (∀ (s : State) (w : Wr) (bank : BitVec 1) (tag : BitVec 8),
      Performs w 0x6004 s → tag ≠ s.fcst.cmdTag → bank = 1 → s.fcst.single = true →
      Completes (.fcstSwap w bank tag) s (fun t =>
        t.fcst.swap = s.fcst.swap ∧ t.fcst.stop = s.fcst.stop ∧ t.fcst.rej = 4 ∧ t.fcst.cmdTag = tag ∧
        Flagged t .fcst 10)) ∧
  (∀ (s : State) (w : Wr) (bank : BitVec 1) (tag : BitVec 8),
      Performs w 0x6004 s → tag ≠ s.fcst.cmdTag → bank = 1 → s.fcst.single = true →
      Completes (.fcstOpen w bank tag) s (fun t =>
        t.fcst.b1 = s.fcst.b1 ∧ t.fcst.rej = 4 ∧ t.fcst.cmdTag = tag ∧ Flagged t .fcst 10)) ∧
  (∀ (s : State) (w : Wr) (bank : BitVec 1) (tag : BitVec 8),
      Performs w 0x6004 s → tag ≠ s.fcst.cmdTag → bank = 1 → s.fcst.single = true →
      Completes (.fcstSeal w bank tag) s (fun t =>
        t.fcst.b1 = s.fcst.b1 ∧ t.fcst.rej = 4 ∧ t.fcst.cmdTag = tag ∧ Flagged t .fcst 10)) ∧
  (∀ (s : State) (w : Wr) (tag : BitVec 8),
      Performs w 0x6004 s → tag ≠ s.fcst.cmdTag →
      Completes (.fcstStop w tag) s (fun t =>
        t.fcst.swap = none ∧ t.fcst.stop = true ∧ t.fcst.cmdTag = tag)) ∧
  (∀ (s : State) (w : Wr) (tag : BitVec 8),
      Performs w 0x6004 s → tag ≠ s.fcst.cmdTag →
      Completes (.fcstCmdNone w tag) s (fun t =>
        t.fcst = { s.fcst with cmdTag := tag })) ∧
  (∀ (s : State) (w : Wr) (op : BitVec 3) (tag : BitVec 8),
      Performs w 0x6004 s → tag ≠ s.fcst.cmdTag → 5 ≤ op.toNat →
      Completes (.fcstCmdInvalid w op tag) s (fun t =>
        t.fcst.rej = 5 ∧ t.fcst.cmdTag = tag ∧ Flagged t .fcst 10)) ∧
  (∀ (s : State) (bank : BitVec 1),
      (fbank s bank).st = .waiting → (fbank s bank).timer ≤ s.time.total →
      Completes (.fcstSealShort bank) s (fun t =>
        (fbank t bank).st = .opened ∧ (fbank t bank).wcount = (fbank s bank).wcount ∧ t.fcst.sealRes = 1 ∧
        Flagged t .fcst 1)) ∧
  (∀ (s : State) (bank : BitVec 1),
      (fbank s bank).st = .verify → (fbank s bank).timer ≤ s.time.total → (checkSeal s bank).1 = 0 →
      Completes (.fcstVerifyDone bank) s (fun t =>
        (fbank t bank).st = .sealed ∧ t.fcst.sealRes = 0 ∧ Flagged t .fcst 0)) ∧
  (∀ (s : State) (bank : BitVec 1),
      (fbank s bank).st = .verify → (fbank s bank).timer ≤ s.time.total → (checkSeal s bank).1 ≠ 0 →
      Completes (.fcstVerifyDone bank) s (fun t =>
        (fbank t bank).st = .opened ∧ t.fcst.sealRes = BitVec.ofNat 4 (checkSeal s bank).1 ∧
        t.fcst.sealIdx = (checkSeal s bank).2 ∧ Flagged t .fcst 1)) ∧
  (∀ (s : State) (w : Wr) (v : Word),
      Performs w 0x602C s → BitVec.ofNat 8 (fld v 0 8) ≠ (snapOf s 4 w.port).tag →
      Completes (.fcstStatReq w v) s (fun t =>
        snapOf t 4 w.port = ⟨true, BitVec.ofNat 8 (fld v 0 8), 0, false, fcstStatWords s⟩))

/-- What a due forecast entry does to the regions it names (R223, R224, R226, R227, R228, R229, R230, R231, R232). A
due entry is delivered once to every region it names that is neither EXCLUDED nor DETACHED, and to no other:
PRE_STRETCH sets its edges and eighths, LEAN a ceiling, HOLD_MARGIN a raise, RELEASE ends either, CAL_SLOT opens
a slot; a NOP does nothing. -/
def Obligations.ForecastEntries : Prop :=
  (∀ (s : State) (idx : Nat) (e off : Nat),
      dueEntry s idx 0 = some (e, off) →
      Completes (.fcstNop idx) s (fun t =>
        (∀ fl ∈ entryFlocks s e, dueInFlock s idx off fl = true → (flockOf t fl).nextIdx = idx + 1) ∧
        t.regions = s.regions)) ∧
  (∀ (s : State) (idx : Nat) (e off : Nat),
      dueEntry s idx 1 = some (e, off) →
      Completes (.preStretch idx) s (fun t =>
        (∀ fl ∈ entryFlocks s e, dueInFlock s idx off fl = true → (flockOf t fl).nextIdx = idx + 1) ∧
        (∀ r ∈ entryRegions s e, dueInFlock s idx off (r / 16) = true → stateCode s r ≠ 4 → stateCode s r ≠ 5 → (regionOf t r).preN = enParam e % 128 ∧ (regionOf t r).preW = enParam e / 128) ∧
        (∀ q, q ∉ entryRegions s e ∨ dueInFlock s idx off (q / 16) = false → flockTail s (q / 16) = false → regionOf t q = regionOf s q))) ∧
  (∀ (s : State) (idx : Nat) (e off : Nat),
      dueEntry s idx 2 = some (e, off) →
      Completes (.fcLean idx) s (fun t =>
        (∀ fl ∈ entryFlocks s e, dueInFlock s idx off fl = true → (flockOf t fl).nextIdx = idx + 1) ∧
        (∀ r ∈ entryRegions s e, dueInFlock s idx off (r / 16) = true → flockTail s (r / 16) = false → stateCode s r ≠ 4 → stateCode s r ≠ 5 → (regionOf t r).leanC = some (enParam e % 64)) ∧
        (∀ q, q ∉ entryRegions s e ∨ dueInFlock s idx off (q / 16) = false → flockTail s (q / 16) = false → regionOf t q = regionOf s q))) ∧
  (∀ (s : State) (idx : Nat) (e off : Nat),
      dueEntry s idx 3 = some (e, off) →
      Completes (.holdMargin idx) s (fun t =>
        (∀ fl ∈ entryFlocks s e, dueInFlock s idx off fl = true → (flockOf t fl).nextIdx = idx + 1) ∧
        (∀ r ∈ entryRegions s e, dueInFlock s idx off (r / 16) = true → flockTail s (r / 16) = false → stateCode s r ≠ 4 → stateCode s r ≠ 5 → (regionOf t r).raiseR = enParam e % 8) ∧
        (∀ q, q ∉ entryRegions s e ∨ dueInFlock s idx off (q / 16) = false → flockTail s (q / 16) = false → regionOf t q = regionOf s q))) ∧
  (∀ (s : State) (idx : Nat) (e off : Nat),
      dueEntry s idx 4 = some (e, off) →
      Completes (.fcRelease idx) s (fun t =>
        (∀ fl ∈ entryFlocks s e, dueInFlock s idx off fl = true → (flockOf t fl).nextIdx = idx + 1) ∧
        (∀ r ∈ entryRegions s e, dueInFlock s idx off (r / 16) = true → stateCode s r ≠ 4 → stateCode s r ≠ 5 → (enParam e % 2 = 1 → (regionOf t r).leanC = none) ∧ (enParam e / 2 % 2 = 1 → (regionOf t r).raiseR = 0)) ∧
        (∀ q, q ∉ entryRegions s e ∨ dueInFlock s idx off (q / 16) = false → flockTail s (q / 16) = false → regionOf t q = regionOf s q))) ∧
  (∀ (s : State) (idx : Nat) (e off : Nat),
      dueEntry s idx 5 = some (e, off) →
      Completes (.calSlot idx) s (fun t =>
        (∀ fl ∈ entryFlocks s e, dueInFlock s idx off fl = true → (flockOf t fl).nextIdx = idx + 1) ∧
        (∀ r ∈ entryRegions s e, dueInFlock s idx off (r / 16) = true → stateCode s r ≠ 4 → stateCode s r ≠ 5 → (regionOf t r).slot = some (s.time.counter, off, 4 * enParam e)) ∧
        (∀ q, q ∉ entryRegions s e ∨ dueInFlock s idx off (q / 16) = false → flockTail s (q / 16) = false → regionOf t q = regionOf s q))) ∧
  (∀ (s : State) (r : Nat) (i off o : Nat),
      isRegion s r = true → s.fold.started = true → (regionOf s r).skew = [⟨i, off, false⟩] →
      firstOnset (regionOf s r) off = some o → o + 16 ≤ flockOffset s (r / 16) →
      Completes (.skewCount r) s (fun t =>
        t.fcst.hits = s.fcst.hits + 1 ∧ t.fcst.misses = s.fcst.misses ∧
        t.fcst.skewSum = s.fcst.skewSum + BitVec.ofInt 32 ((o : Int) - off))) ∧
  (∀ (s : State) (r : Nat) (i off : Nat),
      isRegion s r = true → s.fold.started = true → (regionOf s r).skew = [⟨i, off, false⟩] →
      firstOnset (regionOf s r) off = none → off + 16 ≤ flockOffset s (r / 16) →
      Completes (.skewCount r) s (fun t =>
        t.fcst.hits = s.fcst.hits ∧ t.fcst.misses = s.fcst.misses + 1 ∧ t.fcst.skewSum = s.fcst.skewSum))

/-- Failing generators, claims and spares (R130, R280, R283, R285, R286, R287, R290, R292, R293). A serving
generator that fails is FAILED and its slot takes its computed choice, or is excluded where there is none; a
claim that waited takes the choice then computed; a FREE spare that fails is lost with SPARE_LOST; a LOCKING
spare that held its line for 256 ticks is FREE; a drover parity error requests service. -/
def Obligations.FailoverCommands : Prop :=
  (∀ (s : State) (flock index : Nat) (code : GenFault) (gen r g : Nat),
      flock < s.build.flocks → genRow s.build flock index = some gen → testsRun s gen = true →
      faultFires s gen code = true → regionOfGen s gen = some r → inContract s r = true →
      (genOf s gen).st ≠ .qualified → (flockOf s (r / 16)).taken = [] →
      computedChoice (markFailed gen s) r (fun y => decide ((genOf (markFailed gen s) y).st = .free) || (genOf (markFailed gen s) y).calFrom.isSome) = some g →
      Completes (.generatorFail flock index code) s (fun t =>
        (genOf t gen).st = .failed ∧ (genOf t g).st = .serving ∧
        ((regionOf t r).mux = muxCode s r g ∨ ((regionOf t r).switchTo = some g ∧ (genOf t g).stopEnd = some (s.time.total + 150))) ∧
        (flockOf t (r / 16)).failovers = (flockOf s (r / 16)).failovers + 1 ∧ t.foTotal = s.foTotal + 1 ∧
        Flagged t .flock 0)) ∧
  (∀ (s : State) (flock index : Nat) (code : GenFault) (gen r : Nat),
      flock < s.build.flocks → genRow s.build flock index = some gen → testsRun s gen = true →
      faultFires s gen code = true → regionOfGen s gen = some r → inContract s r = true →
      (genOf s gen).st ≠ .qualified → (flockOf s (r / 16)).taken = [] →
      computedChoice (markFailed gen s) r (fun y => decide ((genOf (markFailed gen s) y).st = .free) || (genOf (markFailed gen s) y).calFrom.isSome) = none →
      Completes (.generatorFail flock index code) s (fun t =>
        (genOf t gen).st = .failed ∧ (regionOf t r).excl = .auto ∧ (regionOf t r).mux = 3 ∧ Flagged t .fold 9)) ∧
  (∀ (s : State) (flock index : Nat) (code : GenFault) (gen : Nat),
      flock < s.build.flocks → genRow s.build flock index = some gen → testsRun s gen = true →
      faultFires s gen code = true → (genOf s gen).st = .qualified → (flockOf s flock).taken = [] →
      Completes (.generatorFail flock index code) s (fun t =>
        (genOf t gen).st = .failed)) ∧
  (∀ (s : State) (flock slot : Nat) (k code t0 g : Nat),
      slot < 16 → isRegion s (16 * flock + slot) = true →
      (flockOf s flock).claims.find? (fun c => c.1 = slot) = some (k, code, t0) → t0 < s.time.total →
      inContract s (16 * flock + slot) = true → (flockOf s flock).taken = [] →
      computedChoice s (16 * flock + slot) (fun y => decide ((genOf s y).st = .free) || (genOf s y).calFrom.isSome) = some g →
      Completes (.claimRetry flock slot) s (fun t =>
        (genOf t g).st = .serving ∧
        ((regionOf t (16 * flock + slot)).mux = muxCode s (16 * flock + slot) g ∨ ((regionOf t (16 * flock + slot)).switchTo = some g ∧ (genOf t g).stopEnd = some (s.time.total + 150))) ∧
        Flagged t .flock 0 ∧ (∀ c ∈ (flockOf t flock).claims, c.1 ≠ slot))) ∧
  (∀ (s : State) (flock spare : Nat) (code : GenFault),
      isSpare s flock spare = true → faultFires s (spareRow s.build flock spare) code = true →
      (genOf s (spareRow s.build flock spare)).st = .free →
      (genOf s (spareRow s.build flock spare)).stopEnd = none →
      (genOf s (spareRow s.build flock spare)).calFrom = none →
      Completes (.spareLost flock spare code) s (fun t =>
        (genOf t (spareRow s.build flock spare)).st = .failed ∧ Flagged t .flock 1)) ∧
  (∀ (s : State) (flock spare : Nat),
      isSpare s flock spare = true → (genOf s (spareRow s.build flock spare)).st = .locking →
      (genOf s (spareRow s.build flock spare)).stopEnd = none →
      (genOf s (spareRow s.build flock spare)).verified = true →
      (genOf s (spareRow s.build flock spare)).lockFrom + 256 ≤ s.time.total →
      Completes (.spareLocked flock spare) s (fun t =>
        (genOf t (spareRow s.build flock spare)).st = .free)) ∧
  (∀ (s : State) (flock : Nat),
      flock < s.build.flocks →
      Completes (.drvParity flock) s (fun t =>
        (flockOf t flock).parity = true ∧ (flockOf t flock).svc = true ∧ Flagged t .flock 11))

/-- Parity, retest, reinstatement and retirement (R292, R293, R294, R295, R296, R305). A new TAG of FLOCK_GEN_CTRL
clears parity, starts a RETEST of a FAILED generator, reinstates a QUALIFIED one or retires one that does not
serve, and answers STATUS 1 otherwise; the end of a RETEST makes the generator QUALIFIED or leaves it FAILED.
The readings here are the model’s: the counts measured and the row they give, a verification cut short (logs 16
and 36), and a REINSTATE of the own generator of a region already parked, which fails back at once (log 141). -/
def Obligations.FlockCommands : Prop :=
  (∀ (s : State) (w : Wr) (flock : Nat) (gen : BitVec 5) (tag : BitVec 8),
      Performs w (flockAddr flock 0x2C) s → flock < s.build.flocks → tag ≠ (flockOf s flock).genTag →
      Completes (.clearParity w flock gen tag) s (fun t =>
        (flockOf t flock).parity = false ∧
        (flockOf t flock).svc = (spareOutNow s flock || (flockOf s flock).lastPath || decide (0 < exclCount s flock)) ∧
        (flockOf t flock).genStatus = 0 ∧ (flockOf t flock).genTag = tag)) ∧
  (∀ (s : State) (w : Wr) (flock : Nat) (gen : BitVec 5) (tag : BitVec 8) (g : Nat),
      Performs w (flockAddr flock 0x2C) s → flock < s.build.flocks → tag ≠ (flockOf s flock).genTag →
      genRow s.build flock gen.toNat = some g → (flockOf s flock).retest = none → (genOf s g).st = .failed →
      Completes (.retest w flock gen tag) s (fun t =>
        (flockOf t flock).retest = some gen.toNat ∧ t.gens = s.gens ∧ (flockOf t flock).genStatus = 3 ∧
        (flockOf t flock).genTag = tag)) ∧
  (∀ (s : State) (w : Wr) (flock : Nat) (gen : BitVec 5) (tag : BitVec 8) (g : Nat),
      Performs w (flockAddr flock 0x2C) s → flock < s.build.flocks → tag ≠ (flockOf s flock).genTag →
      genRow s.build flock gen.toNat = some g →
      (flockOf s flock).retest.isSome = true ∨ (genOf s g).st ≠ .failed →
      Completes (.retest w flock gen tag) s (fun t =>
        (flockOf t flock).retest = (flockOf s flock).retest ∧ t.gens = s.gens ∧ (flockOf t flock).genStatus = 1 ∧
        (flockOf t flock).genTag = tag)) ∧
  (∀ (s : State) (flock : Nat) (counts : List (Nat × Nat)) (run : RetestRun) (code g : Nat),
      flock < s.build.flocks → (flockOf s flock).retest = some code → genRow s.build flock code = some g →
      coreRuns s = true → 36576 ≤ run.verified →
      (flockOf s flock).retestAt + run.verified + 65536 ≤ s.time.total → retestCut s flock run.verified = false →
      rowVerifies ((List.range 24).map (fun b => measuredEntry (counts.getD b (0, 0)).1 (counts.getD b (0, 0)).2)) = true →
      run.clean = true →
      Completes (.retestDone flock counts run) s (fun t =>
        (genOf t g).st = .qualified ∧
        (genOf t g).copy = ((List.range 24).map (fun b => measuredEntry (counts.getD b (0, 0)).1 (counts.getD b (0, 0)).2)) ∧
        (flockOf t flock).retest = none ∧ Flagged t .flock 6 ∧
        ((flockOf t flock).genStatus = if (flockOf s flock).reportsRetest then 0 else (flockOf s flock).genStatus))) ∧
  (∀ (s : State) (flock : Nat) (counts : List (Nat × Nat)) (run : RetestRun) (code g : Nat),
      flock < s.build.flocks → (flockOf s flock).retest = some code → genRow s.build flock code = some g →
      coreRuns s = true → 36576 ≤ run.verified → (flockOf s flock).retestAt + run.verified ≤ s.time.total →
      rowVerifies ((List.range 24).map (fun b => measuredEntry (counts.getD b (0, 0)).1 (counts.getD b (0, 0)).2)) = false ∨ retestCut s flock run.verified = true ∨ run.clean = false →
      Completes (.retestDone flock counts run) s (fun t =>
        (genOf t g).st = .failed ∧ (flockOf t flock).retest = none ∧ Flagged t .flock 12 ∧
        ((flockOf t flock).genStatus = if (flockOf s flock).reportsRetest then 2 else (flockOf s flock).genStatus))) ∧
  (∀ (s : State) (w : Wr) (flock : Nat) (gen : BitVec 5) (tag : BitVec 8) (g : Nat),
      Performs w (flockAddr flock 0x2C) s → flock < s.build.flocks → tag ≠ (flockOf s flock).genTag →
      genRow s.build flock gen.toNat = some g → (genOf s g).st = .qualified → 16 ≤ gen.toNat →
      Completes (.reinstate w flock gen tag) s (fun t =>
        (genOf t g).st = .locking ∧ Flagged t .flock 7 ∧ (flockOf t flock).genStatus = 0 ∧
        (flockOf t flock).genTag = tag)) ∧
  (∀ (s : State) (w : Wr) (flock : Nat) (gen : BitVec 5) (tag : BitVec 8) (g : Nat),
      Performs w (flockAddr flock 0x2C) s → flock < s.build.flocks → tag ≠ (flockOf s flock).genTag →
      genRow s.build flock gen.toNat = some g → (genOf s g).st = .qualified → gen.toNat < 16 →
      (regionOf s g).parked = false ∨ excluded s g = true →
      Completes (.reinstate w flock gen tag) s (fun t =>
        (genOf t g).failback = true ∧ (genOf t g).st = .qualified ∧ t.regions = s.regions ∧ Flagged t .flock 7 ∧
        (flockOf t flock).genStatus = 0 ∧ (flockOf t flock).genTag = tag)) ∧
  (∀ (s : State) (w : Wr) (flock : Nat) (gen : BitVec 5) (tag : BitVec 8) (g old : Nat),
      Performs w (flockAddr flock 0x2C) s → flock < s.build.flocks → tag ≠ (flockOf s flock).genTag →
      genRow s.build flock gen.toNat = some g → (genOf s g).st = .qualified → gen.toNat < 16 →
      (regionOf s g).parked = true → excluded s g = false → servingGen s g = some old → old ≠ g →
      Completes (.reinstate w flock gen tag) s (fun t =>
        (genOf t g).st = .serving ∧ (regionOf t g).mux = 0 ∧ (genOf t old).st = .locking ∧ Flagged t .flock 7 ∧
        Flagged t .flock 8 ∧ (flockOf t flock).genStatus = 0 ∧ (flockOf t flock).genTag = tag)) ∧
  (∀ (s : State) (w : Wr) (flock : Nat) (gen : BitVec 5) (tag : BitVec 8) (g : Nat),
      Performs w (flockAddr flock 0x2C) s → flock < s.build.flocks → tag ≠ (flockOf s flock).genTag →
      genRow s.build flock gen.toNat = some g → (genOf s g).st = .qualified → gen.toNat < 16 →
      (regionOf s g).parked = true → excluded s g = false → servingGen s g = none →
      Completes (.reinstate w flock gen tag) s (fun t =>
        (genOf t g).st = .serving ∧ (regionOf t g).mux = 0 ∧ Flagged t .flock 7 ∧ (flockOf t flock).genStatus = 0 ∧
        (flockOf t flock).genTag = tag)) ∧
  (∀ (s : State) (w : Wr) (flock : Nat) (gen : BitVec 5) (tag : BitVec 8) (g : Nat),
      Performs w (flockAddr flock 0x2C) s → flock < s.build.flocks → tag ≠ (flockOf s flock).genTag →
      genRow s.build flock gen.toNat = some g → (genOf s g).st ≠ .qualified →
      Completes (.reinstate w flock gen tag) s (fun t =>
        t.gens = s.gens ∧ t.regions = s.regions ∧ (flockOf t flock).genStatus = 1 ∧ (flockOf t flock).genTag = tag)) ∧
  (∀ (s : State) (w : Wr) (flock : Nat) (gen : BitVec 5) (tag : BitVec 8) (g : Nat),
      Performs w (flockAddr flock 0x2C) s → flock < s.build.flocks → tag ≠ (flockOf s flock).genTag →
      genRow s.build flock gen.toNat = some g → isServing s g = false →
      Completes (.retire w flock gen tag) s (fun t =>
        (genOf t g).st = .failed ∧ (flockOf t flock).genStatus = 0 ∧ (flockOf t flock).genTag = tag)) ∧
  (∀ (s : State) (w : Wr) (flock : Nat) (gen : BitVec 5) (tag : BitVec 8) (g : Nat),
      Performs w (flockAddr flock 0x2C) s → flock < s.build.flocks → tag ≠ (flockOf s flock).genTag →
      genRow s.build flock gen.toNat = some g → isServing s g = true →
      Completes (.retire w flock gen tag) s (fun t =>
        t.gens = s.gens ∧ (flockOf t flock).genStatus = 1 ∧ (flockOf t flock).genTag = tag))

/-- Arming, forced holds, forced failover and the core reset (R291, R297, R298, R299, R309, R415). Writing
CRK_ARM.KEY = 0xA5 arms the path for 64 slow-clock periods; a command with a new TAG is performed while the path
is armed and disarms it, holds or releases a region or every region of a flock that is not excluded, moves a
region to a FREE or QUALIFIED generator (one whose slot an automatic failover of the same tick takes, or has a
claim waiting, is held to the next tick edge), or resets the core; it is rejected with REJ 1 where not armed, 2,
4 or 5 by its operands, and 3 where it lost to a host write. -/
def Obligations.CrookCommands : Prop :=
  (∀ (s : State) (w : Wr) (v : Word),
      Performs w 0xE000 s → fld v 0 8 = 0xA5 →
      Completes (.crkArm w v) s (fun t =>
        t.crook.armed = true ∧ t.crook.armedAt = s.time.slowEdges)) ∧
  (∀ (s : State) (w : Wr) (v : Word),
      Performs w 0xE000 s → fld v 0 8 ≠ 0xA5 →
      Completes (.crkArm w v) s (fun t =>
        t.crook = s.crook)) ∧
  (∀ (s : State),
      s.crook.armed = true → s.crook.armedAt + 64 ≤ s.time.slowEdges →
      Completes .crkArmExpiry s (fun t =>
        t.crook.armed = false)) ∧
  (∀ (s : State) (w : Wr) (target : BitVec 13) (tag : BitVec 8),
      Performs w 0xE004 s → w.rival = none → tag ≠ s.crook.tag → s.crook.armed = true →
      isRegion s target.toNat = true → excluded s target.toNat = false →
      Completes (.forceHoldRegion w target tag) s (fun t =>
        (regionOf t target.toNat).forced = true ∧ t.crook.rej = 0 ∧ t.crook.tag = tag ∧ t.crook.armed = false)) ∧
  (∀ (s : State) (w : Wr) (target : BitVec 13) (tag : BitVec 8),
      Performs w 0xE004 s → w.rival = none → tag ≠ s.crook.tag → s.crook.armed = true →
      isRegion s target.toNat = false ∨ excluded s target.toNat = true →
      Completes (.forceHoldRegion w target tag) s (fun t =>
        t.regions = s.regions ∧ t.crook.rej = 2 ∧ t.crook.tag = tag ∧ t.crook.armed = false)) ∧
  (∀ (s : State) (w : Wr) (target : BitVec 13) (tag : BitVec 8),
      Performs w 0xE004 s → w.rival = none → tag ≠ s.crook.tag → s.crook.armed = false →
      Completes (.forceHoldRegion w target tag) s (fun t =>
        t.regions = s.regions ∧ t.crook.rej = 1 ∧ t.crook.tag = tag ∧ t.crook.armed = false)) ∧
  (∀ (s : State) (w : Wr) (target : BitVec 13) (tag : BitVec 8),
      Performs w 0xE004 s → w.port = .bm → w.rival = some .host → tag ≠ s.crook.tag → s.crook.armed = true →
      Completes (.forceHoldRegion w target tag) s (fun t =>
        t.regions = s.regions ∧ t.crook.rej = 3 ∧ t.crook.tag = tag ∧ t.crook.armed = true)) ∧
  (∀ (s : State) (w : Wr) (target : BitVec 13) (tag : BitVec 8),
      Performs w 0xE004 s → w.rival = none → tag ≠ s.crook.tag → s.crook.armed = true →
      isRegion s target.toNat = true → excluded s target.toNat = false →
      Completes (.releaseRegion w target tag) s (fun t =>
        (regionOf t target.toNat).forced = false ∧ t.crook.rej = 0 ∧ t.crook.tag = tag ∧ t.crook.armed = false)) ∧
  (∀ (s : State) (w : Wr) (target : BitVec 13) (tag : BitVec 8),
      Performs w 0xE004 s → w.rival = none → tag ≠ s.crook.tag → s.crook.armed = true →
      target.toNat < s.build.flocks →
      Completes (.forceHoldFlock w target tag) s (fun t =>
        (∀ k < 16, excluded s (16 * target.toNat + k) = false → (regionOf t (16 * target.toNat + k)).forced = true) ∧
        (∀ r, excluded s r = true → regionOf t r = regionOf s r) ∧ t.crook.rej = 0 ∧ t.crook.tag = tag ∧
        t.crook.armed = false)) ∧
  (∀ (s : State) (w : Wr) (target : BitVec 13) (tag : BitVec 8),
      Performs w 0xE004 s → w.rival = none → tag ≠ s.crook.tag → s.crook.armed = true →
      target.toNat < s.build.flocks →
      Completes (.releaseFlock w target tag) s (fun t =>
        (∀ k < 16, excluded s (16 * target.toNat + k) = false → (regionOf t (16 * target.toNat + k)).forced = false) ∧
        (∀ r, excluded s r = true → regionOf t r = regionOf s r) ∧ t.crook.rej = 0 ∧ t.crook.tag = tag ∧
        t.crook.armed = false)) ∧
  (∀ (s : State) (w : Wr) (flock : BitVec 9) (slot : BitVec 4) (gen : BitVec 2) (tag : BitVec 8) (g : Nat),
      Performs w 0xE004 s → w.rival = none → tag ≠ s.crook.tag → s.crook.armed = true →
      isRegion s (16 * flock.toNat + slot.toNat) = true → excluded s (16 * flock.toNat + slot.toNat) = false →
      (flockOf s ((16 * flock.toNat + slot.toNat) / 16)).taken.any (fun c => c.slot = (16 * flock.toNat + slot.toNat) % 16) = false ∧ (flockOf s ((16 * flock.toNat + slot.toNat) / 16)).claims.any (fun q => q.1 = (16 * flock.toNat + slot.toNat) % 16) = false →
      crkTarget s (16 * flock.toNat + slot.toNat) gen.toNat = some g →
      Completes (.forceFailover w flock slot gen tag) s (fun t =>
        (genOf t g).st = .serving ∧
        ((regionOf t (16 * flock.toNat + slot.toNat)).mux = muxCode s (16 * flock.toNat + slot.toNat) g ∨ ((regionOf t (16 * flock.toNat + slot.toNat)).switchTo = some g ∧ (genOf t g).stopEnd = some (s.time.total + 150))) ∧
        t.foTotal = s.foTotal + 1 ∧ Flagged t .flock 0 ∧
        (∀ old, servingGen s (16 * flock.toNat + slot.toNat) = some old → old ≠ g → (genOf t old).st = if gen = 0 then .locking else .failed) ∧
        t.crook.rej = 0 ∧ t.crook.tag = tag ∧ t.crook.armed = false)) ∧
  (∀ (s : State) (w : Wr) (flock : BitVec 9) (slot : BitVec 4) (gen : BitVec 2) (tag : BitVec 8),
      Performs w 0xE004 s → w.rival = none → tag ≠ s.crook.tag → s.crook.armed = true →
      isRegion s (16 * flock.toNat + slot.toNat) = true → excluded s (16 * flock.toNat + slot.toNat) = false →
      (flockOf s ((16 * flock.toNat + slot.toNat) / 16)).taken.any (fun c => c.slot = (16 * flock.toNat + slot.toNat) % 16) = false ∧ (flockOf s ((16 * flock.toNat + slot.toNat) / 16)).claims.any (fun q => q.1 = (16 * flock.toNat + slot.toNat) % 16) = false →
      crkTarget s (16 * flock.toNat + slot.toNat) gen.toNat = none →
      Completes (.forceFailover w flock slot gen tag) s (fun t =>
        t.gens = s.gens ∧ t.regions = s.regions ∧ t.crook.rej = 4 ∧ t.crook.tag = tag ∧ t.crook.armed = false)) ∧
  (∀ (s : State) (w : Wr) (flock : BitVec 9) (slot : BitVec 4) (gen : BitVec 2) (tag : BitVec 8),
      Performs w 0xE004 s → w.rival = none → tag ≠ s.crook.tag → s.crook.armed = true →
      isRegion s (16 * flock.toNat + slot.toNat) = true → excluded s (16 * flock.toNat + slot.toNat) = false →
      (flockOf s ((16 * flock.toNat + slot.toNat) / 16)).taken.any (fun c => c.slot = (16 * flock.toNat + slot.toNat) % 16) = true ∨ (flockOf s ((16 * flock.toNat + slot.toNat) / 16)).claims.any (fun q => q.1 = (16 * flock.toNat + slot.toNat) % 16) = true →
      Completes (.forceFailover w flock slot gen tag) s (fun t =>
        t.gens = s.gens ∧ t.regions = s.regions ∧
        t.crook.held = some (w.port, tag, (16 * flock.toNat + slot.toNat), gen.toNat) ∧ t.crook.armed = false ∧
        t.crook.tag = s.crook.tag)) ∧
  (∀ (s : State) (w : Wr) (tag : BitVec 8),
      Performs w 0xE004 s → w.rival = none → tag ≠ s.crook.tag → s.crook.armed = true →
      s.shep.active.isSome = true →
      Completes (.crkCoreReset w tag) s (fun t =>
        t.shep.state = .running ∧ t.shep.boot = 4 ∧ t.crook.rej = 0 ∧ t.crook.tag = tag ∧ t.crook.armed = false)) ∧
  (∀ (s : State) (w : Wr) (tag : BitVec 8),
      Performs w 0xE004 s → w.rival = none → tag ≠ s.crook.tag → s.crook.armed = true → s.shep.active = none →
      Completes (.crkCoreReset w tag) s (fun t =>
        t.shep = s.shep ∧ t.crook.rej = 0 ∧ t.crook.tag = tag ∧ t.crook.armed = false)) ∧
  (∀ (s : State) (w : Wr) (op : BitVec 4) (tag : BitVec 8),
      Performs w 0xE004 s → w.rival = none → tag ≠ s.crook.tag → s.crook.armed = true → 7 ≤ op.toNat →
      Completes (.crkInvalidOp w op tag) s (fun t =>
        t.regions = s.regions ∧ t.shep = s.shep ∧ t.crook.rej = 5 ∧ t.crook.tag = tag ∧ t.crook.armed = false))

/-- Claims and releases of the Tally pool (R325, R328, R329, R331). A new TAG of TALLY_CLAIM grants a free pool unit
to the port that claims it, leaves a claim for an owned unit pending, refuses unit 0 with OWN_ERR, and gives a
unit back at once or at DONE; a claim 64 slow-clock periods old is dropped with CLAIM_TIMEOUT. -/
def Obligations.TallyClaims : Prop :=
  (∀ (s : State) (w : Wr) (unit : BitVec 2) (tag : BitVec 8),
      Performs w 0x9000 s → tag ≠ claimTag s w.port → unit ≠ 0 → loses w = false →
      (tallyUnit s unit.toNat).owner = .none → (tallyUnit s unit.toNat).freedAt ≠ some s.time.slowEdges →
      w.port = .host ∨ s.tally.claimHost = none → w.port = .bm ∨ s.tally.claimBm = none →
      w.port = .shep ∨ s.tally.claimFw = none →
      Completes (.tallyClaim w unit tag) s (fun t =>
        (tallyUnit t unit.toNat).owner = ownerOf w.port ∧ claimOf t w.port = none ∧ claimTag t w.port = tag)) ∧
  (∀ (s : State) (w : Wr) (unit : BitVec 2) (tag : BitVec 8),
      Performs w 0x9000 s → tag ≠ claimTag s w.port → unit ≠ 0 → (tallyUnit s unit.toNat).owner ≠ .none →
      Completes (.tallyClaim w unit tag) s (fun t =>
        (tallyUnit t unit.toNat).owner = (tallyUnit s unit.toNat).owner ∧
        claimOf t w.port = some ⟨unit, s.time.slowEdges⟩ ∧ claimTag t w.port = tag)) ∧
  (∀ (s : State) (w : Wr) (unit : BitVec 2) (tag : BitVec 8),
      Performs w 0x9000 s → tag ≠ claimTag s w.port → unit = 0 →
      Completes (.tallyClaim w unit tag) s (fun t =>
        Flagged t .tally 5 ∧ claimTag t w.port = tag ∧
        (∀ u, (tallyUnit s u).owner ≠ .none → (tallyUnit t u).owner = (tallyUnit s u).owner))) ∧
  (∀ (s : State) (w : Wr) (unit : BitVec 2) (tag : BitVec 8),
      Performs w 0x9000 s → tag ≠ claimTag s w.port → unit ≠ 0 →
      (tallyUnit s unit.toNat).owner = ownerOf w.port → tallyBusy (tallyUnit s unit.toNat) = false →
      s.tally.claimHost = none → s.tally.claimBm = none → s.tally.claimFw = none →
      Completes (.tallyRelease w unit tag) s (fun t =>
        (tallyUnit t unit.toNat).owner = .none ∧ claimTag t w.port = tag)) ∧
  (∀ (s : State) (w : Wr) (unit : BitVec 2) (tag : BitVec 8),
      Performs w 0x9000 s → tag ≠ claimTag s w.port → unit ≠ 0 →
      (tallyUnit s unit.toNat).owner = ownerOf w.port → tallyBusy (tallyUnit s unit.toNat) = true →
      Completes (.tallyRelease w unit tag) s (fun t =>
        (tallyUnit t unit.toNat).owner = (tallyUnit s unit.toNat).owner ∧
        (tallyUnit t unit.toNat).releasing = true ∧ claimTag t w.port = tag)) ∧
  (∀ (s : State) (p : Port) (c : Claim),
      claimOf s p = some c → c.since + 64 ≤ s.time.slowEdges →
      Completes (.claimTimeout p) s (fun t =>
        claimOf t p = none ∧ Flagged t .tally 6))

/-- ARM and ABORT, calibration, gate, edges and results (R310, R312, R313, R315, R316, R317, R318, R320, R322, R326,
R327, R335). An ARM by the owner with a valid configuration calibrates or waits for its gate, and is rejected
with REJ 1 to 4 otherwise; a gate opens the window, or gives flag 3 where no calibration was accepted, and an
external gate’s repeat ends so at the rejected calibration; the window counts the chosen edges and records one
of each enabled stop, corrected by the calibration, or flag 5; one tick after its close each stop has its word
or flag 1 or 2, and the last repeat forms the summaries and raises DONE; an ABORT writes flag 4, and where no
calibration can run the repeat ends with flag 6; firmware does not arm unit 0 where a calibration that times on
it runs or comes, or an exchange or a second falls in its span. That a non-owner’s ARM shows its TAG and REJ 1,
and the words at an ABORT, are the model’s readings (log 31), the spans of unit 0 log 101. -/
def Obligations.TallyMeasurements : Prop :=
  (∀ (s : State) (w : Wr) (unit : BitVec 2) (tag : BitVec 8) (start : RingPos) (ends : CalEnds),
      Performs w (tallyAddr unit.toNat 0x30) s → (tallyUnit s unit.toNat).owner = ownerOf w.port →
      tag ≠ (tallyUnit s unit.toNat).tag →
      unit ≠ 0 ∨ (calTakesUnit0 s = false ∧ unit0Taken s (armFrom s 0) (armFrom s 0 + armSpan s 0) = false) →
      tallyBusy (tallyUnit s unit.toNat) = false → (tallyUnit s unit.toNat).phaseCal = none →
      tallyCfgOk s unit.toNat = true → tGate s unit.toNat ≠ 1 → refGone s = false →
      Completes (.tallyArm w unit tag start ends) s (fun t =>
        (tallyUnit t unit.toNat).state = .calibrating ∧
        (tallyUnit t unit.toNat).gain = calOf (calR1 ⟨start, ends⟩) (calR2 ⟨start, ends⟩) ∧
        (calOf (calR1 ⟨start, ends⟩) (calR2 ⟨start, ends⟩) = none → Flagged t .tally 4) ∧
        (tallyUnit t unit.toNat).calRead = true ∧ (tallyUnit t unit.toNat).calAt = elapsed s ∧
        (tallyUnit t unit.toNat).rep = 0 ∧
        (tallyUnit t unit.toNat).r1 = calR1 ⟨start, ends⟩ ∧ (tallyUnit t unit.toNat).r2 = calR2 ⟨start, ends⟩ ∧
        (tallyUnit t unit.toNat).tag = tag ∧ (tallyUnit t unit.toNat).rej = 0)) ∧
  (∀ (s : State) (w : Wr) (unit : BitVec 2) (tag : BitVec 8) (start : RingPos) (ends : CalEnds),
      Performs w (tallyAddr unit.toNat 0x30) s → (tallyUnit s unit.toNat).owner = ownerOf w.port →
      tag ≠ (tallyUnit s unit.toNat).tag →
      unit ≠ 0 ∨ (calTakesUnit0 s = false ∧ unit0Taken s (armFrom s 0) (armFrom s 0 + armSpan s 0) = false) →
      tallyBusy (tallyUnit s unit.toNat) = false → (tallyUnit s unit.toNat).phaseCal = none →
      tallyCfgOk s unit.toNat = true → tGate s unit.toNat = 1 → s.time.counter + 32 ≤ tAt s unit.toNat →
      refGone s = false →
      Completes (.tallyArm w unit tag start ends) s (fun t =>
        (tallyUnit t unit.toNat).state = .waiting ∧ (tallyUnit t unit.toNat).rep = 0 ∧
        (tallyUnit t unit.toNat).gain = none ∧ (tallyUnit t unit.toNat).calRead = false ∧
        (tallyUnit t unit.toNat).tag = tag ∧ (tallyUnit t unit.toNat).rej = 0)) ∧
  (∀ (s : State) (w : Wr) (unit : BitVec 2) (tag : BitVec 8) (start : RingPos) (ends : CalEnds),
      Performs w (tallyAddr unit.toNat 0x30) s → (tallyUnit s unit.toNat).owner ≠ ownerOf w.port →
      tag ≠ (tallyUnit s unit.toNat).tag →
      Completes (.tallyArm w unit tag start ends) s (fun t =>
        (tallyUnit t unit.toNat).state = (tallyUnit s unit.toNat).state ∧ Flagged t .tally 5 ∧
        (tallyUnit t unit.toNat).tag = tag ∧ (tallyUnit t unit.toNat).rej = 1)) ∧
  (∀ (s : State) (w : Wr) (unit : BitVec 2) (tag : BitVec 8) (start : RingPos) (ends : CalEnds),
      Performs w (tallyAddr unit.toNat 0x30) s → (tallyUnit s unit.toNat).owner ≠ ownerOf w.port →
      tag = (tallyUnit s unit.toNat).tag →
      Completes (.tallyArm w unit tag start ends) s (fun t =>
        (tallyUnit t unit.toNat) = (tallyUnit s unit.toNat) ∧ Flagged t .tally 5)) ∧
  (∀ (s : State) (w : Wr) (unit : BitVec 2) (tag : BitVec 8) (start : RingPos) (ends : CalEnds),
      Performs w (tallyAddr unit.toNat 0x30) s → (tallyUnit s unit.toNat).owner = ownerOf w.port →
      tag ≠ (tallyUnit s unit.toNat).tag →
      unit ≠ 0 ∨ (calTakesUnit0 s = false ∧ unit0Taken s (armFrom s 0) (armFrom s 0 + armSpan s 0) = false) →
      tallyBusy (tallyUnit s unit.toNat) = true ∨ (tallyUnit s unit.toNat).phaseCal.isSome = true →
      Completes (.tallyArm w unit tag start ends) s (fun t =>
        (tallyUnit t unit.toNat).state = (tallyUnit s unit.toNat).state ∧ (tallyUnit t unit.toNat).tag = tag ∧
        (tallyUnit t unit.toNat).rej = 2)) ∧
  (∀ (s : State) (w : Wr) (unit : BitVec 2) (tag : BitVec 8) (start : RingPos) (ends : CalEnds),
      Performs w (tallyAddr unit.toNat 0x30) s → (tallyUnit s unit.toNat).owner = ownerOf w.port →
      tag ≠ (tallyUnit s unit.toNat).tag →
      unit ≠ 0 ∨ (calTakesUnit0 s = false ∧ unit0Taken s (armFrom s 0) (armFrom s 0 + armSpan s 0) = false) →
      tallyBusy (tallyUnit s unit.toNat) = false → (tallyUnit s unit.toNat).phaseCal = none →
      tallyCfgOk s unit.toNat = false →
      Completes (.tallyArm w unit tag start ends) s (fun t =>
        (tallyUnit t unit.toNat).state = (tallyUnit s unit.toNat).state ∧ (tallyUnit t unit.toNat).tag = tag ∧
        (tallyUnit t unit.toNat).rej = 3)) ∧
  (∀ (s : State) (w : Wr) (unit : BitVec 2) (tag : BitVec 8) (start : RingPos) (ends : CalEnds),
      Performs w (tallyAddr unit.toNat 0x30) s → (tallyUnit s unit.toNat).owner = ownerOf w.port →
      tag ≠ (tallyUnit s unit.toNat).tag →
      unit ≠ 0 ∨ (calTakesUnit0 s = false ∧ unit0Taken s (armFrom s 0) (armFrom s 0 + armSpan s 0) = false) →
      tallyBusy (tallyUnit s unit.toNat) = false → (tallyUnit s unit.toNat).phaseCal = none →
      tallyCfgOk s unit.toNat = true → tGate s unit.toNat = 1 → tAt s unit.toNat < s.time.counter + 32 →
      Completes (.tallyArm w unit tag start ends) s (fun t =>
        (tallyUnit t unit.toNat).state = (tallyUnit s unit.toNat).state ∧ (tallyUnit t unit.toNat).tag = tag ∧
        (tallyUnit t unit.toNat).rej = 4)) ∧
  (∀ (s : State) (w : Wr) (unit : BitVec 2) (tag : BitVec 8) (start : RingPos) (ends : CalEnds),
      Performs w (tallyAddr unit.toNat 0x30) s → (tallyUnit s unit.toNat).owner = ownerOf w.port →
      tag ≠ (tallyUnit s unit.toNat).tag → unit = 0 →
      calTakesUnit0 s = true ∨ unit0Taken s (armFrom s 0) (armFrom s 0 + armSpan s 0) = true →
      Completes (.tallyArm w unit tag start ends) s (fun t =>
        t.tally = s.tally)) ∧
  (∀ (s : State) (w : Wr) (unit : BitVec 2) (tag : BitVec 8),
      Performs w (tallyAddr unit.toNat 0x30) s → (tallyUnit s unit.toNat).owner = ownerOf w.port →
      tag ≠ (tallyUnit s unit.toNat).tag → tallyBusy (tallyUnit s unit.toNat) = true →
      Completes (.tallyAbort w unit tag) s (fun t =>
        (tallyUnit t unit.toNat).state = .done ∧ (tallyUnit t unit.toNat).rep = (tallyUnit s unit.toNat).rep ∧
        (∀ k ∈ tStops s unit.toNat, tabGet (tallyUnit t unit.toNat).buf (8 * (tallyUnit s unit.toNat).rep + k) 0 = resultWord 4 0) ∧
        (tallyUnit t unit.toNat).tag = tag ∧ (tallyUnit t unit.toNat).rej = 0)) ∧
  (∀ (s : State) (w : Wr) (unit : BitVec 2) (tag : BitVec 8),
      Performs w (tallyAddr unit.toNat 0x30) s → (tallyUnit s unit.toNat).owner = ownerOf w.port →
      tag ≠ (tallyUnit s unit.toNat).tag → tallyBusy (tallyUnit s unit.toNat) = false →
      Completes (.tallyAbort w unit tag) s (fun t =>
        (tallyUnit t unit.toNat).state = (tallyUnit s unit.toNat).state ∧ (tallyUnit t unit.toNat).tag = tag ∧
        (tallyUnit t unit.toNat).rej = 0)) ∧
  (∀ (s : State) (unit : BitVec 2) (start : RingPos) (ends : CalEnds) (t0 : Nat),
      refGone s = false →
      (tallyUnit s unit.toNat).state = .waiting ∨ (tallyUnit s unit.toNat).state = .calibrating →
      nextCalAt s unit.toNat = some t0 → calEnd t0 ≤ elapsed s →
      (calOf (calR1 ⟨start, ends⟩) (calR2 ⟨start, ends⟩)).isSome = true →
      Completes (.tallyCalRefresh unit start ends) s (fun t =>
        (tallyUnit t unit.toNat).state = (tallyUnit s unit.toNat).state ∧
        (tallyUnit t unit.toNat).r1 = calR1 ⟨start, ends⟩ ∧ (tallyUnit t unit.toNat).r2 = calR2 ⟨start, ends⟩ ∧
        (tallyUnit t unit.toNat).calRead = true ∧ (tallyUnit t unit.toNat).calAt = t0 ∧
        (tallyUnit t unit.toNat).gain = (calOf (calR1 ⟨start, ends⟩) (calR2 ⟨start, ends⟩)))) ∧
  (∀ (s : State) (unit : BitVec 2) (start : RingPos) (ends : CalEnds) (t0 : Nat),
      refGone s = false →
      (tallyUnit s unit.toNat).state = .waiting ∨ (tallyUnit s unit.toNat).state = .calibrating →
      nextCalAt s unit.toNat = some t0 → calEnd t0 ≤ elapsed s →
      (calOf (calR1 ⟨start, ends⟩) (calR2 ⟨start, ends⟩)) = none →
      tGate s unit.toNat ≠ 2 ∨ (tallyUnit s unit.toNat).state = .waiting ∨ (tallyUnit s unit.toNat).refLost = true →
      Completes (.tallyCalRefresh unit start ends) s (fun t =>
        (tallyUnit t unit.toNat).state = (tallyUnit s unit.toNat).state ∧
        (tallyUnit t unit.toNat).r1 = calR1 ⟨start, ends⟩ ∧ (tallyUnit t unit.toNat).r2 = calR2 ⟨start, ends⟩ ∧
        (tallyUnit t unit.toNat).calRead = true ∧ (tallyUnit t unit.toNat).gain = none ∧ Flagged t .tally 4)) ∧
  (∀ (s : State) (unit : BitVec 2) (start : RingPos) (ends : CalEnds) (t0 : Nat),
      refGone s = false →
      (tallyUnit s unit.toNat).state = .waiting ∨ (tallyUnit s unit.toNat).state = .calibrating →
      nextCalAt s unit.toNat = some t0 → calEnd t0 ≤ elapsed s →
      (calOf (calR1 ⟨start, ends⟩) (calR2 ⟨start, ends⟩)) = none → tGate s unit.toNat = 2 →
      (tallyUnit s unit.toNat).state = .calibrating → (tallyUnit s unit.toNat).refLost = false →
      tRepeats s unit.toNat ≤ (tallyUnit s unit.toNat).rep + 1 →
      Completes (.tallyCalRefresh unit start ends) s (fun t =>
        (tallyUnit t unit.toNat).state = .done ∧
        (∀ k ∈ tStops s unit.toNat, tabGet (tallyUnit t unit.toNat).buf (8 * (tallyUnit s unit.toNat).rep + k) 0 = resultWord 3 0) ∧
        Flagged t .tally unit.toNat)) ∧
  (∀ (s : State) (unit : BitVec 2) (start : RingPos) (ends : CalEnds),
      refGone s = true → (tallyUnit s unit.toNat).state = .calibrating →
      (tallyUnit s unit.toNat).calRead = false → tRepeats s unit.toNat ≤ (tallyUnit s unit.toNat).rep + 1 →
      Completes (.tallyCalRefresh unit start ends) s (fun t =>
        (tallyUnit t unit.toNat).state = .done ∧ Flagged t .tally 7 ∧ Flagged t .tally unit.toNat ∧
        (∀ k ∈ tStops s unit.toNat, tabGet (tallyUnit t unit.toNat).buf (8 * (tallyUnit s unit.toNat).rep + k) 0 = resultWord 6 0))) ∧
  (∀ (s : State) (gate : RingGate),
      gateDue s gate.unit.toNat = true →
      (tallyUnit s gate.unit.toNat).gain.isSome = true ∨ (tallyUnit s gate.unit.toNat).refLost = true →
      Completes (.tallyGateOpen gate) s (fun t =>
        (tallyUnit t gate.unit.toNat).state = .measuring ∧ (tallyUnit t gate.unit.toNat).gateOpen = true ∧
        (tallyUnit t gate.unit.toNat).openedAt = s.time.total ∧
        (tallyUnit t gate.unit.toNat).startPos = ringSteps gate.pos ∧
        (tallyUnit t gate.unit.toNat).started = decide (fld (tStart s gate.unit.toNat) 0 6 = 20) ∧
        (tallyUnit t gate.unit.toNat).stops = [])) ∧
  (∀ (s : State) (gate : RingGate),
      gateDue s gate.unit.toNat = true → (tallyUnit s gate.unit.toNat).gain = none →
      (tallyUnit s gate.unit.toNat).refLost = false →
      Completes (.tallyGateOpen gate) s (fun t =>
        (∀ k ∈ tStops s gate.unit.toNat, tabGet (tallyUnit t gate.unit.toNat).buf (8 * (tallyUnit s gate.unit.toNat).rep + k) 0 = resultWord 3 0))) ∧
  (∀ (s : State) (edge : RingEdge),
      windowOpen s edge.unit.toNat = true → (tallyUnit s edge.unit.toNat).started = false →
      chosenEdge s (tStart s edge.unit.toNat) edge.tap = true →
      Completes (.tallyStartEdge edge) s (fun t =>
        (tallyUnit t edge.unit.toNat).startCount = (tallyUnit s edge.unit.toNat).startCount + 1 ∧
        (tallyUnit t edge.unit.toNat).started = decide (((tallyUnit s edge.unit.toNat).startCount + 1) % prescale (tStart s edge.unit.toNat) = 0) ∧
        (tallyUnit t edge.unit.toNat).startPos = ringSteps edge.pos ∧
        (tallyUnit t edge.unit.toNat).state = .measuring)) ∧
  (∀ (s : State) (unit : BitVec 2) (stop : BitVec 3) (edge : TapEdge) (pos : RingPos) (g : Int × Int),
      windowOpen s unit.toNat = true → (tallyUnit s unit.toNat).started = true →
      (tallyUnit s unit.toNat).startPos ≤ ringSteps pos + 1 → stop.toNat ∈ tStops s unit.toNat →
      (∀ y ∈ (tallyUnit s unit.toNat).stops, y.1 ≠ stop.toNat) →
      chosenEdge s (tStop s unit.toNat stop.toNat) edge = true →
      ((stopCh (tallyUnit s unit.toNat) stop.toNat).count + 1) % prescale (tStop s unit.toNat stop.toNat) = 0 →
      (stopCh (tallyUnit s unit.toNat) stop.toNat).last.any (fun p => decide (ringSteps pos - p < 64)) = false →
      ((stopCh (tallyUnit s unit.toNat) stop.toNat).count + 1) / prescale (tStop s unit.toNat stop.toNat) = fld (tStop s unit.toNat stop.toNat) 24 6 →
      (tallyUnit s unit.toNat).gain = some g →
      Completes (.tallyStopEdge unit stop edge pos) s (fun t =>
        (tallyUnit t unit.toNat).stops = (tallyUnit s unit.toNat).stops ++ [(stop.toNat, resultWord 0 (correct g (ringSteps pos - (tallyUnit s unit.toNat).startPos)))] ∧
        (tallyUnit t unit.toNat).lastAt = s.time.total)) ∧
  (∀ (s : State) (unit : BitVec 2) (stop : BitVec 3) (edge : TapEdge) (pos : RingPos),
      windowOpen s unit.toNat = true → (tallyUnit s unit.toNat).started = true →
      (tallyUnit s unit.toNat).startPos ≤ ringSteps pos + 1 → stop.toNat ∈ tStops s unit.toNat →
      (∀ y ∈ (tallyUnit s unit.toNat).stops, y.1 ≠ stop.toNat) →
      chosenEdge s (tStop s unit.toNat stop.toNat) edge = true →
      ((stopCh (tallyUnit s unit.toNat) stop.toNat).count + 1) % prescale (tStop s unit.toNat stop.toNat) = 0 →
      (stopCh (tallyUnit s unit.toNat) stop.toNat).last.any (fun p => decide (ringSteps pos - p < 64)) = true →
      Completes (.tallyStopEdge unit stop edge pos) s (fun t =>
        (tallyUnit t unit.toNat).stops = (tallyUnit s unit.toNat).stops ++ [(stop.toNat, resultWord 5 0)])) ∧
  (∀ (s : State) (unit : BitVec 2) (start : RingPos) (ends : CalEnds),
      (tallyUnit s unit.toNat).state = .measuring → (tallyUnit s unit.toNat).refLost = false →
      resultsAt s unit.toNat ≤ s.time.total → tRepeats s unit.toNat ≤ (tallyUnit s unit.toNat).rep + 1 →
      Completes (.tallyWindowClose unit start ends) s (fun t =>
        (tallyUnit t unit.toNat).state = .done ∧ Flagged t .tally unit.toNat ∧
        (∀ k ∈ tStops s unit.toNat, ∀ x, (tallyUnit s unit.toNat).stops.find? (fun y => y.1 = k) = some x → tabGet (tallyUnit t unit.toNat).buf (8 * (tallyUnit s unit.toNat).rep + k) 0 = x.2) ∧
        (∀ k ∈ tStops s unit.toNat, (tallyUnit s unit.toNat).stops.find? (fun y => y.1 = k) = none → tabGet (tallyUnit t unit.toNat).buf (8 * (tallyUnit s unit.toNat).rep + k) 0 = resultWord (if (tallyUnit s unit.toNat).started then 1 else 2) 0) ∧
        (∀ k ∈ tStops s unit.toNat, tabGet (tallyUnit t unit.toNat).res k 0 = summaryWord (tallyUnit t unit.toNat) (tAcc s unit.toNat) ((tallyUnit s unit.toNat).rep + 1) k))) ∧
  (∀ (s : State) (unit : BitVec 2) (start : RingPos) (ends : CalEnds),
      (tallyUnit s unit.toNat).state = .measuring → (tallyUnit s unit.toNat).refLost = false →
      resultsAt s unit.toNat ≤ s.time.total → (tallyUnit s unit.toNat).rep + 1 < tRepeats s unit.toNat →
      refGone s = false →
      Completes (.tallyWindowClose unit start ends) s (fun t =>
        (tallyUnit t unit.toNat).state = .calibrating ∧
        (tallyUnit t unit.toNat).rep = (tallyUnit s unit.toNat).rep + 1 ∧
        (tallyUnit t unit.toNat).gain = calOf (calR1 ⟨start, ends⟩) (calR2 ⟨start, ends⟩) ∧
        (calOf (calR1 ⟨start, ends⟩) (calR2 ⟨start, ends⟩) = none → Flagged t .tally 4) ∧
        (tallyUnit t unit.toNat).calAt = elapsed s ∧
        (∀ k ∈ tStops s unit.toNat, ∀ x, (tallyUnit s unit.toNat).stops.find? (fun y => y.1 = k) = some x → tabGet (tallyUnit t unit.toNat).buf (8 * (tallyUnit s unit.toNat).rep + k) 0 = x.2) ∧
        (∀ k ∈ tStops s unit.toNat, (tallyUnit s unit.toNat).stops.find? (fun y => y.1 = k) = none → tabGet (tallyUnit t unit.toNat).buf (8 * (tallyUnit s unit.toNat).rep + k) 0 = resultWord (if (tallyUnit s unit.toNat).started then 1 else 2) 0)))

/-- Temperature samples, calibration commands and the regions’ calibration holds (R339, R340, R341, R342, R343,
R344, R345, R346, R347, R348, R355, R362). A plausible reading is taken, and in temperature-triggered mode one
that has moved by more than DT makes the flock or the island due; CAL_CTRL makes flocks due, arms or cancels a
restore, and rejects the rest with its code; the band gap moves one code per 2^20 ticks. The trim’s going on
while the core is halted is the model’s choice (log 120). An armed region holds at the first tick of a usable
slot, or parked at a planned bell; after 450 ticks the region enters REEL and its results are discarded with
ABANDON, wait for the core, or are judged: accepted ones are counted, each rejected one, the band cells or the
windsocks, is counted and discarded with the other kept, and the second rejected calibration in a row ends the
due state. That the two are separate results is the model’s reading (log 142), as are what a hold measures (log
32) and that a check not served in time leaves the core hung (log 99). -/
def Obligations.CalibrationTriggers : Prop :=
  (∀ (s : State) (island : Int) (f : Nat) (x : Int),
      f < s.build.flocks → s.power.fabUp = true →
      s.cal.tempAt.all (fun t0 => decide (t0 + 65536 ≤ elapsed s)) = true →
      plausible (flockOf s f).tempPrev x = true →
      Completes (.tempSample [(f, x)] island) s (fun t =>
        (flockOf t f).temp = x ∧ (flockOf t f).tempPrev = some x ∧ t.cal.tempAt = some (elapsed s) ∧
        (flockOf t f).tempSeen = true ∧
        (calMode s = true → moved s x (flockOf s f).tempLast = true → ∀ r ∈ ownRows f, isRegion s r = true → (regionOf t r).due = true))) ∧
  (∀ (s : State) (flocks : List (Nat × Int)) (island : Int),
      s.cal.tempAt.all (fun t0 => decide (t0 + 65536 ≤ elapsed s)) = true →
      plausible s.cal.tempAoPrev island = true →
      Completes (.tempSample flocks island) s (fun t =>
        t.cal.tempAo = island ∧ t.cal.tempAoPrev = some island ∧ t.cal.tempAoSeen = true ∧
        (calMode s = true → moved s island s.cal.tempAoLast = true → t.root.s0.due = true ∧ t.root.s1.due = true ∧ t.tally.u0.due = true ∧ t.tally.u1.due = true ∧ t.tally.u2.due = true ∧ t.tally.u3.due = true))) ∧
  (∀ (s : State) (flocks : List (Nat × Int)) (island : Int),
      s.cal.tempAt.all (fun t0 => decide (t0 + 65536 ≤ elapsed s)) = true →
      plausible s.cal.tempAoPrev island = false →
      Completes (.tempSample flocks island) s (fun t =>
        t.cal.tempAo = s.cal.tempAo ∧ t.cal.tempAoSeen = s.cal.tempAoSeen ∧ t.cal.tempAoPrev = some island ∧
        t.root = s.root)) ∧
  (∀ (s : State) (flocks : List (Nat × Int)) (island : Int) (t0 : Nat),
      s.cal.tempAt = some t0 → elapsed s < t0 + 65536 →
      Completes (.tempSample flocks island) s (fun t =>
        t.cal = s.cal ∧ t.flocks = s.flocks ∧ t.regions = s.regions ∧ t.root = s.root)) ∧
  (∀ (s : State) (w : Wr) (flock : BitVec 9) (tag : BitVec 8),
      Performs w 0xA004 s → tag ≠ s.cal.tag → calMode s = true → flock.toNat < s.build.flocks →
      Completes (.calFlockDue w flock tag) s (fun t =>
        (∀ r ∈ ownRows flock.toNat, isRegion s r = true → (regionOf t r).due = true) ∧ t.cal.tag = tag ∧
        t.cal.rej = 0)) ∧
  (∀ (s : State) (w : Wr) (flock : BitVec 9) (tag : BitVec 8),
      Performs w 0xA004 s → tag ≠ s.cal.tag → calMode s = false ∨ s.build.flocks ≤ flock.toNat →
      Completes (.calFlockDue w flock tag) s (fun t =>
        t.regions = s.regions ∧ t.cal.tag = tag ∧ (t.cal.rej = if calMode s = false then 1 else 2))) ∧
  (∀ (s : State) (w : Wr) (tag : BitVec 8),
      Performs w 0xA004 s → tag ≠ s.cal.tag → calMode s = true →
      Completes (.calAllDue w tag) s (fun t =>
        (∀ f < s.build.flocks, ∀ r ∈ ownRows f, isRegion s r = true → (regionOf t r).due = true) ∧
        t.cal.tag = tag ∧ t.cal.rej = 0)) ∧
  (∀ (s : State) (w : Wr) (tag : BitVec 8),
      Performs w 0xA004 s → tag ≠ s.cal.tag → calMode s = false →
      Completes (.calAllDue w tag) s (fun t =>
        t.regions = s.regions ∧ t.cal.tag = tag ∧ t.cal.rej = 1)) ∧
  (∀ (s : State) (w : Wr) (tag : BitVec 8),
      Performs w 0xA004 s → tag ≠ s.cal.tag → stagingOk s = true →
      Completes (.restore w tag) s (fun t =>
        t.cal.restorePend = true ∧ t.cal.tag = tag ∧ t.cal.rej = 0)) ∧
  (∀ (s : State) (w : Wr) (tag : BitVec 8),
      Performs w 0xA004 s → tag ≠ s.cal.tag → stagingOk s = false →
      Completes (.restore w tag) s (fun t =>
        t.cal.restorePend = s.cal.restorePend ∧ Flagged t .cal 6 ∧ t.cal.tag = tag ∧ t.cal.rej = 3)) ∧
  (∀ (s : State) (w : Wr) (tag : BitVec 8),
      Performs w 0xA004 s → tag ≠ s.cal.tag →
      Completes (.cancelRestore w tag) s (fun t =>
        t.cal.restorePend = false ∧ t.cal.tag = tag ∧ t.cal.rej = 0)) ∧
  (∀ (s : State) (w : Wr) (op : BitVec 3) (tag : BitVec 8),
      Performs w 0xA004 s → tag ≠ s.cal.tag → 5 ≤ op.toNat →
      Completes (.calInvalidOp w op tag) s (fun t =>
        t.cal.restorePend = s.cal.restorePend ∧ t.regions = s.regions ∧ t.cal.tag = tag ∧ t.cal.rej = 4)) ∧
  (∀ (s : State) (microvolts : Int),
      s.cal.bandgapAt + 2 ^ 20 ≤ s.time.total → microvolts.natAbs ≤ 5000 → s.cal.bandgapTarget = s.cal.bandgap →
      Completes (.bandgapTrimStep microvolts) s (fun t =>
        t.cal.bandgapAt = s.time.total ∧
        (t.cal.bandgap = if 250 < microvolts ∧ s.cal.bandgap ≠ 0 then s.cal.bandgap - 1 else if microvolts < -250 ∧ s.cal.bandgap ≠ 255 then s.cal.bandgap + 1 else s.cal.bandgap) ∧
        t.cal.bandgapRejected = false)) ∧
  (∀ (s : State) (microvolts : Int),
      s.cal.bandgapAt + 2 ^ 20 ≤ s.time.total → 5000 < microvolts.natAbs →
      Completes (.bandgapTrimStep microvolts) s (fun t =>
        t.cal.bandgap = s.cal.bandgap ∧ t.cal.cntRej = s.cal.cntRej + 1 ∧
        t.cal.bandgapRejected = !s.cal.bandgapRejected ∧ Flagged t .cal 1 ∧
        (s.cal.bandgapRejected = true → Flagged t .cal 2))) ∧
  (∀ (s : State) (r : Nat),
      isRegion s r = true → armedNow s r = true → calMode s = true → s.root.bypass = false →
      s.fold.started = true → failedNow s r = false → entryWaits s (r / 16) = false → slotStarts s r = true →
      Completes (.regionHoldStart r) s (fun t =>
        (regionOf t r).hold = some ⟨s.time.counter, false, false, (flockOf s (r / 16)).temp⟩ ∧
        (regionOf t r).detached = true ∧ (regionOf t r).heldThisFold = true)) ∧
  (∀ (s : State) (r : Nat),
      isRegion s r = true → armedNow s r = true → calMode s = true → s.root.bypass = false →
      s.fold.started = true → failedNow s r = false → entryWaits s (r / 16) = false → slotStarts s r = false →
      s.fold.calPlanned = true → s.fold.tail = true → (regionOf s r).parked = true → bandChanging s r = false →
      Completes (.regionHoldStart r) s (fun t =>
        (regionOf t r).hold = some ⟨s.time.counter, true, false, (flockOf s (r / 16)).temp⟩ ∧
        (regionOf t r).detached = (regionOf s r).detached ∧ (regionOf t r).heldThisFold = true)) ∧
  (∀ (s : State) (r : Nat) (counts : Nat × Nat) (rings : List Nat) (checked : Bool) (h : Hold),
      isRegion s r = true → (regionOf s r).hold = some h → h.start + 450 ≤ s.time.counter →
      h.discard = true ∨ calMode s = false ∨ servingGen s r = none →
      Completes (.regionHoldEnd r counts rings checked) s (fun t =>
        (regionOf t r).hold = none ∧ (regionOf t r).detached = false ∧
        ((regionOf s r).parked = false → (regionOf t r).track = .reel) ∧ (regionOf t r).waiting = none ∧
        t.cal.cntSlot = s.cal.cntSlot ∧ t.cal.cntBell = s.cal.cntBell ∧ Flagged t .cal 7)) ∧
  (∀ (s : State) (r : Nat) (counts : Nat × Nat) (rings : List Nat) (checked : Bool) (h : Hold) (g : Nat),
      isRegion s r = true → (regionOf s r).hold = some h → h.start + 450 ≤ s.time.counter → h.discard = false →
      calMode s = true → checked = false ∨ coreRuns s = false → servingGen s r = some g →
      Completes (.regionHoldEnd r counts rings checked) s (fun t =>
        (regionOf t r).hold = none ∧ ((regionOf s r).parked = false → (regionOf t r).track = .reel) ∧
        (regionOf t r).waiting = some ⟨h, g, (selBand (genOf s g)).getD 0, curEntry (genOf s g), counts.1, counts.2, rings⟩ ∧
        (regionOf t r).due = (regionOf s r).due)) ∧
  (∀ (s : State) (r : Nat) (counts : Nat × Nat) (rings : List Nat) (checked : Bool) (h : Hold) (g : Nat),
      isRegion s r = true → (regionOf s r).hold = some h → h.start + 450 ≤ s.time.counter → h.discard = false →
      calMode s = true → checked = true → coreRuns s = true → servingGen s r = some g →
      (cellsOk (curEntry (genOf s g)) counts.1 counts.2 = true ∧ (List.range 8).all (fun k => sockOk (nomOf s (classOfRegion s r)) (rings.getD k 0)) = true) →
      Completes (.regionHoldEnd r counts rings checked) s (fun t =>
        (regionOf t r).hold = none ∧ (regionOf t r).rejected = false ∧
        t.cal.cntSlot = s.cal.cntSlot + (if h.atBell then 0 else 1) ∧
        t.cal.cntBell = s.cal.cntBell + (if h.atBell then 1 else 0) ∧ t.cal.cntRej = s.cal.cntRej)) ∧
  (∀ (s : State) (r : Nat) (counts : Nat × Nat) (rings : List Nat) (checked : Bool) (h : Hold) (g : Nat),
      isRegion s r = true → (regionOf s r).hold = some h → h.start + 450 ≤ s.time.counter → h.discard = false →
      calMode s = true → checked = true → coreRuns s = true → servingGen s r = some g →
      ¬(cellsOk (curEntry (genOf s g)) counts.1 counts.2 = true ∧ (List.range 8).all (fun k => sockOk (nomOf s (classOfRegion s r)) (rings.getD k 0)) = true) →
      Completes (.regionHoldEnd r counts rings checked) s (fun t =>
        (regionOf t r).hold = none ∧ (regionOf t r).rejected = !(regionOf s r).rejected ∧
        (regionOf t r).due = ((regionOf s r).due && !(regionOf s r).rejected) ∧
        t.cal.cntRej = s.cal.cntRej + (if cellsOk (curEntry (genOf s g)) counts.1 counts.2 = true then 0 else 1) + (if (List.range 8).all (fun k => sockOk (nomOf s (classOfRegion s r)) (rings.getD k 0)) = true then 0 else 1) ∧
        Flagged t .cal 1 ∧ ((regionOf s r).rejected = true → Flagged t .cal 2) ∧
        ((regionOf s r).parked = false → cellsOk (curEntry (genOf s g)) counts.1 counts.2 = true → (genOf t g).cellProp = some ((selBand (genOf s g)).getD 0, cellProposal (curEntry (genOf s g)) counts.1)) ∧
        ((regionOf s r).parked = false → (List.range 8).all (fun k => sockOk (nomOf s (classOfRegion s r)) (rings.getD k 0)) = true → (genOf t r).sockProp = (List.range 8).map (fun k => sockProposal (nomOf s (classOfRegion s r)) (rings.getD k 0)))))

/-- Calibrations of spares, paths, Tally units and charge pumps (R19, R343, R351, R352, R353, R354, R355, R357,
R358, R543). A due spare, path, Tally unit or warm spare synthesizer is calibrated in its turn while the core
runs outside bypass in temperature-triggered mode; it takes an accepted result, counts and reports a rejected
one, and is abandoned by the Vervin-1 timeout; a spare and a path relock after it, and a spare’s result waits
for a core that does not check it. The model’s choices here: a check not served in time leaves the core hung
(log 99), a waiting spare’s counts (log 33), TEMP_LAST of the island (log 35), restored taps (log 38). -/
def Obligations.CalibrationRuns : Prop :=
  (∀ (s : State) (flock spare : Nat),
      isSpare s flock spare = true → (genOf s (spareRow s.build flock spare)).due = true →
      (genOf s (spareRow s.build flock spare)).st = .free → calRuns s = true →
      othersCover s flock (spareRow s.build flock spare) = true ∨ (s.fold.calPlanned = true ∧ s.fold.tail = true) →
      turnOf s flock = true →
      Completes (.spareCalStart flock spare) s (fun t =>
        (genOf t (spareRow s.build flock spare)).st = .measuring ∧
        (genOf t (spareRow s.build flock spare)).calFrom = some s.time.total)) ∧
  (∀ (s : State) (flock spare : Nat) (counts : Nat × Nat) (checked : Bool) (f0 : Nat),
      isSpare s flock spare = true → (genOf s (spareRow s.build flock spare)).calFrom = some f0 →
      f0 + 450 ≤ s.time.total → checked = true → coreRuns s = true → s.root.bypass = false → calMode s = true →
      cellsOk (entryOf (genOf s (spareRow s.build flock spare)).copy ((selBand (genOf s (spareRow s.build flock spare))).getD 0)) counts.1 counts.2 = true →
      Completes (.spareCalEnd flock spare counts checked) s (fun t =>
        (genOf t (spareRow s.build flock spare)).st = .locking ∧
        (genOf t (spareRow s.build flock spare)).calFrom = none ∧
        (genOf t (spareRow s.build flock spare)).rejected = false ∧
        tabGet (genOf t (spareRow s.build flock spare)).cells ((selBand (genOf s (spareRow s.build flock spare))).getD 0) 0 = tabGet (genOf s (spareRow s.build flock spare)).cells ((selBand (genOf s (spareRow s.build flock spare))).getD 0) 0 + BitVec.ofInt 8 (cellProposal (entryOf (genOf s (spareRow s.build flock spare)).copy ((selBand (genOf s (spareRow s.build flock spare))).getD 0)) counts.1))) ∧
  (∀ (s : State) (flock spare : Nat) (counts : Nat × Nat) (checked : Bool) (f0 : Nat),
      isSpare s flock spare = true → (genOf s (spareRow s.build flock spare)).calFrom = some f0 →
      f0 + 450 ≤ s.time.total → checked = true → coreRuns s = true → s.root.bypass = false → calMode s = true →
      cellsOk (entryOf (genOf s (spareRow s.build flock spare)).copy ((selBand (genOf s (spareRow s.build flock spare))).getD 0)) counts.1 counts.2 = false →
      Completes (.spareCalEnd flock spare counts checked) s (fun t =>
        (genOf t (spareRow s.build flock spare)).st = .locking ∧
        (genOf t (spareRow s.build flock spare)).calFrom = none ∧
        (genOf t (spareRow s.build flock spare)).rejected = !(genOf s (spareRow s.build flock spare)).rejected ∧
        (genOf t (spareRow s.build flock spare)).cells = (genOf s (spareRow s.build flock spare)).cells ∧
        t.cal.cntRej = s.cal.cntRej + 1 ∧ Flagged t .cal 1)) ∧
  (∀ (s : State) (flock spare : Nat) (counts : Nat × Nat) (checked : Bool) (f0 : Nat),
      isSpare s flock spare = true → (genOf s (spareRow s.build flock spare)).calFrom = some f0 →
      f0 + 450 ≤ s.time.total → checked = false ∨ coreRuns s = false → s.root.bypass = false → calMode s = true →
      Completes (.spareCalEnd flock spare counts checked) s (fun t =>
        (genOf t (spareRow s.build flock spare)).st = .locking ∧
        (genOf t (spareRow s.build flock spare)).calFrom = none ∧
        (genOf t (spareRow s.build flock spare)).waiting = some ((selBand (genOf s (spareRow s.build flock spare))).getD 0, counts.1, counts.2) ∧
        (genOf t (spareRow s.build flock spare)).cells = (genOf s (spareRow s.build flock spare)).cells)) ∧
  (∀ (s : State) (flock spare : Nat) (counts : Nat × Nat) (checked : Bool) (f0 : Nat),
      isSpare s flock spare = true → (genOf s (spareRow s.build flock spare)).calFrom = some f0 →
      f0 + 450 ≤ s.time.total → s.root.bypass = true ∨ calMode s = false →
      Completes (.spareCalEnd flock spare counts checked) s (fun t =>
        (genOf t (spareRow s.build flock spare)).st = .locking ∧
        (genOf t (spareRow s.build flock spare)).calFrom = none ∧
        (genOf t (spareRow s.build flock spare)).cells = (genOf s (spareRow s.build flock spare)).cells ∧
        Flagged t .cal 7)) ∧
  (∀ (s : State) (flock path : Nat),
      isPath s flock path = true → (pathOf (flockOf s flock) path).due = true → pathUsable s flock path = true →
      calRuns s = true → 2 ≤ (healthyPaths s flock).length → turnOf s flock = true →
      Completes (.pathCalStart flock path) s (fun t =>
        (pathOf (flockOf t flock) path).calOut = true ∧ (pathOf (flockOf t flock) path).calFrom = s.time.total)) ∧
  (∀ (s : State) (flock path : Nat) (taps : List (BitVec 8 × Nat)),
      isPath s flock path = true → (pathOf (flockOf s flock) path).calOut = true →
      (pathOf (flockOf s flock) path).locked = true → fwHolds s = false → taps.length = 128 →
      (pathOf (flockOf s flock) path).tapsNew = none → calMode s = true →
      (∀ y ∈ taps, 4 * ((y.2 : Int) - 31250).natAbs ≤ 31250) →
      Completes (.pathCalDone flock path taps) s (fun t =>
        (pathOf (flockOf t flock) path).taps = taps.map Prod.fst ∧
        (pathOf (flockOf t flock) path).rejected = false ∧
        (pathOf (flockOf t flock) path).locked = false ∧ (pathOf (flockOf t flock) path).mValid = false ∧ (pathOf (flockOf t flock) path).calOut = true ∧
        (pathOf (flockOf t flock) path).tapsOld = some (pathOf (flockOf s flock) path).taps ∧
        (sameBytes (taps.map Prod.fst) (pathOf (flockOf s flock) path).taps = false → t.cal.calTick = s.time.counter))) ∧
  (∀ (s : State) (flock path : Nat) (taps : List (BitVec 8 × Nat)),
      isPath s flock path = true → (pathOf (flockOf s flock) path).calOut = true →
      (pathOf (flockOf s flock) path).locked = true → fwHolds s = false → taps.length = 128 →
      (pathOf (flockOf s flock) path).tapsNew = none → calMode s = true →
      ¬(∀ y ∈ taps, 4 * ((y.2 : Int) - 31250).natAbs ≤ 31250) →
      Completes (.pathCalDone flock path taps) s (fun t =>
        (pathOf (flockOf t flock) path).taps = (pathOf (flockOf s flock) path).taps ∧
        (pathOf (flockOf t flock) path).rejected = !(pathOf (flockOf s flock) path).rejected ∧
        (pathOf (flockOf t flock) path).locked = false ∧ (pathOf (flockOf t flock) path).mValid = false ∧ (pathOf (flockOf t flock) path).calOut = true ∧
        t.cal.cntRej = s.cal.cntRej + 1 ∧ Flagged t .cal 1)) ∧
  (∀ (s : State) (flock path : Nat) (taps : List (BitVec 8 × Nat)) (ts : List (BitVec 8)),
      isPath s flock path = true → (pathOf (flockOf s flock) path).calOut = true →
      (pathOf (flockOf s flock) path).locked = true → fwHolds s = false → taps.length = 128 →
      (pathOf (flockOf s flock) path).tapsNew = some ts →
      Completes (.pathCalDone flock path taps) s (fun t =>
        (pathOf (flockOf t flock) path).taps = ts ∧ (pathOf (flockOf t flock) path).tapsNew = none ∧
        (pathOf (flockOf t flock) path).locked = false ∧ (pathOf (flockOf t flock) path).mValid = false ∧ (pathOf (flockOf t flock) path).calOut = true)) ∧
  (∀ (s : State) (unit : BitVec 2),
      (tallyUnit s unit.toNat).due = true → (tallyUnit s unit.toNat).owner = .fw →
      tallyBusy (tallyUnit s unit.toNat) = false → (tallyUnit s unit.toNat).phaseCal = none → calRuns s = true →
      unit ≠ 0 ∨ unit0Free s 8192 = true → turnOf s islandSource = true →
      Completes (.tallyPhaseCalStart unit) s (fun t =>
        (tallyUnit t unit.toNat).phaseCal = some s.time.total)) ∧
  (∀ (s : State) (unit : BitVec 2) (phases : List (BitVec 8 × Nat)) (f0 : Nat),
      (tallyUnit s unit.toNat).phaseCal = some f0 → f0 + 8192 ≤ s.time.total → coreRuns s = true →
      phases.length = 16 → (tallyUnit s unit.toNat).owner = .fw → calMode s = true →
      (∀ y ∈ phases, 4 * ((y.2 : Int) - 15625).natAbs ≤ 15625) →
      Completes (.tallyPhaseCalDone unit phases) s (fun t =>
        (tallyUnit t unit.toNat).phaseCal = none ∧ (tallyUnit t unit.toNat).phases = phases.map Prod.fst ∧
        (tallyUnit t unit.toNat).due = false ∧ t.cal.tempAoLast = s.cal.tempAo)) ∧
  (∀ (s : State) (unit : BitVec 2) (phases : List (BitVec 8 × Nat)) (f0 : Nat),
      (tallyUnit s unit.toNat).phaseCal = some f0 → f0 + 8192 ≤ s.time.total → coreRuns s = true →
      phases.length = 16 → (tallyUnit s unit.toNat).owner = .fw → calMode s = true →
      ¬(∀ y ∈ phases, 4 * ((y.2 : Int) - 15625).natAbs ≤ 15625) →
      Completes (.tallyPhaseCalDone unit phases) s (fun t =>
        (tallyUnit t unit.toNat).phaseCal = none ∧
        (tallyUnit t unit.toNat).phases = (tallyUnit s unit.toNat).phases ∧
        (tallyUnit t unit.toNat).rejected = !(tallyUnit s unit.toNat).rejected ∧ t.cal.cntRej = s.cal.cntRej + 1 ∧
        Flagged t .cal 1)) ∧
  (∀ (s : State) (y : Syn),
      (synOf s y).due = true → s.root.aligned = true → s.root.active ≠ y → (synOf s y).locked = true →
      (synOf s y).qualified = true → (synOf s y).frozen = false → (synOf s y).pumpCal = false →
      calRuns s = true → unit0Free s 25000 = true → tallyBusy s.tally.u0 = false → turnOf s islandSource = true →
      Completes (.chargePumpCalStart y) s (fun t =>
        (synOf t y).pumpCal = true ∧ t.root.aligned = false ∧ t.cal.pumpFrom = s.time.total)) ∧
  (∀ (s : State) (y : Syn) (bandwidth : Nat) (code : BitVec 6),
      (synOf s y).pumpCal = true → coreRuns s = true → calMode s = true →
      100 * ((bandwidth : Int) - loopKHz s y).natAbs ≤ 40 * loopKHz s y →
      Completes (.chargePumpCalDone y bandwidth code) s (fun t =>
        (synOf t y).pumpCal = false ∧ (synOf t y).pumpTarget = code ∧ (synOf t y).due = false ∧
        (synOf t y).rejected = false)) ∧
  (∀ (s : State) (y : Syn) (bandwidth : Nat) (code : BitVec 6),
      (synOf s y).pumpCal = true → coreRuns s = true → calMode s = true →
      40 * loopKHz s y < 100 * ((bandwidth : Int) - loopKHz s y).natAbs →
      Completes (.chargePumpCalDone y bandwidth code) s (fun t =>
        (synOf t y).pumpCal = false ∧ (synOf t y).pumpTarget = (synOf s y).pumpTarget ∧
        (synOf t y).rejected = !(synOf s y).rejected ∧ t.cal.cntRej = s.cal.cntRej + 1 ∧ Flagged t .cal 1)) ∧
  (∀ (s : State) (f j f0 : Nat),
      v1Timeout s = true → coreRuns s = true → isSpare s f j = true →
      (genOf s (spareRow s.build f j)).calFrom = some f0 → f0 + 4 * 706 ≤ s.time.total →
      Completes (.calTimeout (.spare f j)) s (fun t =>
        (genOf t (spareRow s.build f j)).st = .locking ∧ (genOf t (spareRow s.build f j)).calFrom = none ∧
        Flagged t .cal 4)) ∧
  (∀ (s : State) (f p : Nat),
      v1Timeout s = true → coreRuns s = true → isPath s f p = true → (pathOf (flockOf s f) p).calOut = true →
      (pathOf (flockOf s f) p).calFrom + 4 * 10240 ≤ s.time.total →
      Completes (.calTimeout (.path f p)) s (fun t =>
        (pathOf (flockOf t f) p).calOut = false ∧
        (pathOf (flockOf t f) p).taps = (pathOf (flockOf s f) p).tapsOld.getD (pathOf (flockOf s f) p).taps ∧
        Flagged t .cal 4)) ∧
  (∀ (s : State) (u f0 : Nat),
      v1Timeout s = true → coreRuns s = true → (tallyUnit s u).phaseCal = some f0 →
      f0 + 4 * 8192 ≤ s.time.total →
      Completes (.calTimeout (.tally u)) s (fun t =>
        (tallyUnit t u).phaseCal = none ∧ (tallyUnit t u).phases = (tallyUnit s u).phases ∧ Flagged t .cal 4)) ∧
  (∀ (s : State) (y : Syn),
      v1Timeout s = true → coreRuns s = true → (synOf s y).pumpCal = true →
      s.cal.pumpFrom + 4 * 25000 ≤ s.time.total →
      Completes (.calTimeout (.pump y)) s (fun t =>
        (synOf t y).pumpCal = false ∧ (synOf t y).pumpTarget = (synOf s y).pumpTarget ∧ Flagged t .cal 4))

/-- Cables, ports and HELLO (R368, R369, R370, R371, R388, R390, R394, R398, R399). A debounced cable change takes
its port out of or into training with its event; two accepted HELLOs bring a port up; a port that goes down is
counted and gives up the parent in the TREE phase; a HELLO tells its peer, shows a loop, and starts a far slew
beyond 64 ticks; a frame with a bad CRC or another ROOT is discarded. -/
def Obligations.MusterPorts : Prop :=
  (∀ (s : State) (p : BitVec 1) (present : Bool),
      (mport s p).cableAt + 65536 ≤ s.time.slowEdges → (mport s p).cable = false → present = true →
      portEn s p.toNat = true →
      Completes (.cableIn p present) s (fun t =>
        (mport t p).cableAt = s.time.slowEdges ∧ (mport t p).cable = true ∧
        ((mport t p).st = if (mport s p).st = .off ∨ (mport s p).st = .noCable then .training else (mport s p).st) ∧
        Flagged t .mus 0)) ∧
  (∀ (s : State) (p : BitVec 1) (present : Bool),
      (mport s p).cableAt + 65536 ≤ s.time.slowEdges → (mport s p).cable = true → present = false →
      portEn s p.toNat = true →
      Completes (.cableIn p present) s (fun t =>
        (mport t p).cableAt = s.time.slowEdges ∧ (mport t p).cable = false ∧ (mport t p).st = .noCable ∧
        Flagged t .mus 1 ∧ ((mport s p).st = .up → Flagged t .mus 3 ∧ t.mus.downs = s.mus.downs + 1))) ∧
  (∀ (s : State) (link : LinkUp),
      (mport s link.port).st = .training → 2 ≤ (mport s link.port).hellos → 1024 ≤ link.clean →
      Completes (.portUp link) s (fun t =>
        (mport t link.port).st = .up ∧ Flagged t .mus 2)) ∧
  (∀ (s : State) (p : BitVec 1) (cause : DownCause),
      (mport s p).st = .up → downs cause = true →
      Completes (.portDown p cause) s (fun t =>
        ((mport t p).st = if cause = DownCause.cable then .noCable else .training) ∧ Flagged t .mus 3 ∧
        t.mus.downs = s.mus.downs + 1 ∧
        (s.mus.parent = some p → roundOff s < 262144 → t.mus.parent = none ∧ t.mus.hops = 0x3FF) ∧
        (s.mus.parent = some p → 327680 ≤ roundOff s → roundOff s < 655360 → s.mus.offsetSeen = false → roundRuns s = true → inTree (mport s (otherPort p)) = true → wasSent t (otherPort p) 5 97 = true))) ∧
  (∀ (s : State) (p : BitVec 1),
      helloDue s (mport s p) = true →
      Completes (.helloSend p) s (fun t =>
        t.mus.sent = (p, mkFrame s p 1 255 false (leBytes 8 s.time.counter ++ leBytes 1 p.toNat)) :: s.mus.sent)) ∧
  (∀ (s : State) (p : BitVec 1) (f : Frame),
      (mport s p).st ≠ .off → (mport s p).st ≠ .noCable → f.type = 1 → f.crc = musterCrc f →
      f.root.toNat = rootId s →
      Completes (.hello p f) s (fun t =>
        (mport t p).peer = BitVec.ofNat 10 f.src.toNat ∧
        (mport t p).coarse = 256 * ((s.time.counter : Int) - payNat f 0 8) - (mport s p).delay.toNat ∧
        ((mport t p).st = if f.src.toNat = hostId s then .loop else if (mport s p).st = .loop ∨ (mport s p).st = .conflict then .training else (mport s p).st) ∧
        ((mport t p).st = .training → (mport t p).hellos = (mport s p).hellos + 1))) ∧
  (∀ (s : State) (p : BitVec 1) (f : Frame),
      (mport s p).st ≠ .off → (mport s p).st ≠ .noCable → f.type = 1 → f.crc = musterCrc f →
      f.root.toNat = rootId s → isRoot s = false → coreRuns s = true → s.mus.parent = some p →
      64 * 256 < (256 * ((s.time.counter : Int) - payNat f 0 8) - (mport s p).delay.toNat).natAbs →
      s.time.firstBell = true →
      Completes (.hello p f) s (fun t =>
        Flagged t .mus 11 ∧
        (t.mus.farSlew = if 0 < 256 * ((s.time.counter : Int) - payNat f 0 8) - (mport s p).delay.toNat then -1 else 1) ∧
        (t.mus.slewS = if 0 < 256 * ((s.time.counter : Int) - payNat f 0 8) - (mport s p).delay.toNat then -slewMax s else slewMax s))) ∧
  (∀ (s : State) (p : BitVec 1) (f : Frame),
      (mport s p).st ≠ .off → (mport s p).st ≠ .noCable → f.type = 1 → f.crc ≠ musterCrc f →
      Completes (.hello p f) s (fun t =>
        t.mus.discard = s.mus.discard + 1 ∧ (mport t p) = { (mport s p) with hellos := 0 })) ∧
  (∀ (s : State) (p : BitVec 1) (f : Frame),
      (mport s p).st ≠ .off → (mport s p).st ≠ .noCable → f.type = 1 → f.crc = musterCrc f →
      f.root.toNat ≠ rootId s →
      Completes (.hello p f) s (fun t =>
        t.mus.discard = s.mus.discard + 1 ∧ (mport t p).st = .conflict ∧ Flagged t .mus 9 ∧
        ((mport s p).st = .up → Flagged t .mus 3)))

/-- The sweeps of a round (R367, R368, R369, R372, R373, R374, R375, R376, R377, R378). A round starts at a multiple
of 2^20 with the root’s TREE; the first TREE of the round sets parent and hops and goes on; SYNC and FOLLOW
bring the markers, sums and differences of the exchanges; a marker counts where unit 0 gives it with FLAG 0;
OFFSET gives Θ by the offset to the parent, or HOLD; DONE collects the subtree; a frame out of the slot rule
fails its port for the round. The model’s choices here: a sum is rounded to the nearest (log 50), the ports on
which a host sends (log 51), a check not served in time leaves the core hung (log 99). -/
def Obligations.MusterRound : Prop :=
  (∀ (s : State),
      dueAt s 0 = true → s.mus.roundAt ≠ some s.time.total →
      Completes .roundStart s (fun t =>
        t.mus.inRound = true ∧ t.mus.round = s.time.counter / 2 ^ 20 ∧
        (t.mus.cfg = if coreRuns s then nowGet s 0xB000 else s.mus.cfg) ∧ t.mus.parent = none ∧
        t.mus.theta = none ∧ t.mus.applied = false ∧ (t.mus.hops = if isRoot t then 0 else 0x3FF) ∧
        (∀ p : BitVec 1, isRoot t = true → coreRuns s = true → (mport t p).st = .up → wasSent t p 2 0 = true))) ∧
  (∀ (s : State) (p : BitVec 1) (f : Frame),
      f.type = 2 → f.crc = musterCrc f → f.root.toNat = rootId s → inTree (mport s p) = true →
      (mport s p).cut = false → (mport s p).roundFailed = false → f.round.toNat = roundNow s → slotOk f = true →
      f.seq.toNat ∉ (mport s p).seen → isRoot s = false → takesPart s = true → f.hops.toNat + 1 ≤ 1023 →
      roundOff s < 262144 → s.mus.parent = none →
      Completes (.tree p f) s (fun t =>
        t.mus.parent = some p ∧ t.mus.hops = f.hops.toNat + 1 ∧ (mport t p).parent = true ∧
        (inTree (mport s (otherPort p)) = true → wasSent t (otherPort p) 2 0 = true))) ∧
  (∀ (s : State) (p : BitVec 1) (f : Frame),
      f.type = 2 → f.crc = musterCrc f → f.root.toNat = rootId s → inTree (mport s p) = true →
      (mport s p).cut = false → (mport s p).roundFailed = false → f.round.toNat = roundNow s → slotOk f = true →
      f.seq.toNat ∉ (mport s p).seen → isRoot s = true →
      Completes (.tree p f) s (fun t =>
        t.mus.parent = s.mus.parent ∧ t.mus.hops = s.mus.hops ∧ t.mus.sent = s.mus.sent)) ∧
  (∀ (s : State) (k : BitVec 6) (tx0 tx1 : Option Int) (x : Int),
      s.mus.inRound = true → roundRuns s = true → dueAt s (262144 + 1024 * k.toNat) = true →
      inTree (mport s 0) = true → wasSent s 0 3 (1 + k.toNat) = false → tx0 = some x →
      unit0Times s (exchangeAt s k.toNat) 0 = true →
      Completes (.syncSend k tx0 tx1) s (fun t =>
        wasSent t 0 3 (1 + k.toNat) = true ∧ markerAt (mport t 0).tx k.toNat = some (scaleTime s x))) ∧
  (∀ (s : State) (k : BitVec 6) (tx0 tx1 : Option Int) (x : Int),
      s.mus.inRound = true → roundRuns s = true → dueAt s (262144 + 1024 * k.toNat) = true →
      inTree (mport s 1) = true → wasSent s 1 3 (1 + k.toNat) = false → tx1 = some x →
      unit0Times s (exchangeAt s k.toNat) 2 = true →
      Completes (.syncSend k tx0 tx1) s (fun t =>
        wasSent t 1 3 (1 + k.toNat) = true ∧ markerAt (mport t 1).tx k.toNat = some (scaleTime s x))) ∧
  (∀ (s : State) (k : BitVec 6) (tx0 tx1 : Option Int),
      s.mus.inRound = true → roundRuns s = true → dueAt s (262144 + 1024 * k.toNat) = true →
      inTree (mport s 0) = true → wasSent s 0 3 (1 + k.toNat) = false →
      tx0 = none ∨ unit0Times s (exchangeAt s k.toNat) 0 = false →
      Completes (.syncSend k tx0 tx1) s (fun t =>
        wasSent t 0 3 (1 + k.toNat) = true ∧ (mport t 0).tx = (mport s 0).tx)) ∧
  (∀ (s : State) (p : BitVec 1) (f : Frame) (rx : Option Int) (x : Int),
      f.type = 3 → f.crc = musterCrc f → f.root.toNat = rootId s → inTree (mport s p) = true →
      (mport s p).cut = false → (mport s p).roundFailed = false → f.round.toNat = roundNow s → slotOk f = true →
      f.seq.toNat ∉ (mport s p).seen → rx = some x →
      unit0Times s (exchangeAt s (f.seq.toNat - 1)) (2 * p.toNat + 1) = true →
      Completes (.sync p f rx) s (fun t =>
        markerAt (mport t p).rx (f.seq.toNat - 1) = some (scaleTime s x) ∧
        (mport t p).seen = f.seq.toNat :: (mport s p).seen)) ∧
  (∀ (s : State) (p : BitVec 1) (f : Frame) (rx : Option Int),
      (mport s p).st ≠ .off → (mport s p).st ≠ .noCable → f.type = 3 → f.crc = musterCrc f →
      f.root.toNat = rootId s → (mport s p).cut = false → (mport s p).roundFailed = false →
      f.round.toNat = roundNow s → slotOk f = false ∨ f.seq.toNat ∈ (mport s p).seen →
      Completes (.sync p f rx) s (fun t =>
        (mport t p).roundFailed = true ∧ (mport t p).rx = (mport s p).rx ∧ t.mus.discard = s.mus.discard + 1)) ∧
  (∀ (s : State) (j : BitVec 5),
      s.mus.inRound = true → roundRuns s = true → dueAt s (262144 + 1024 * (2 * j.toNat + 1) + 512) = true →
      Completes (.followSend j) s (fun t =>
        (∀ p : BitVec 1, inTree (mport s p) = true → wasSent t p 4 (65 + j.toNat) = true) ∧
        (∀ p a b c d, inTree (mport s p) = true → wasSent s p 4 (65 + j.toNat) = false → markerAt (mport s p).tx (2 * j.toNat) = some a → markerAt (mport s p).rx (2 * j.toNat) = some b → markerAt (mport s p).tx (2 * j.toNat + 1) = some c → markerAt (mport s p).rx (2 * j.toNat + 1) = some d → (p, mkFrame s p 4 (65 + j.toNat) false (leBytes 4 (intField 32 (nearest (a + b))) ++ leBytes 4 (intField 32 (nearest (b - a))) ++ (leBytes 4 (intField 32 (nearest (c + d))) ++ leBytes 4 (intField 32 (nearest (d - c)))))) ∈ t.mus.sent))) ∧
  (∀ (s : State) (p : BitVec 1) (f : Frame),
      f.type = 4 → f.crc = musterCrc f → f.root.toNat = rootId s → inTree (mport s p) = true →
      (mport s p).cut = false → (mport s p).roundFailed = false → f.round.toNat = roundNow s → slotOk f = true →
      f.seq.toNat ∉ (mport s p).seen →
      Completes (.follow p f) s (fun t =>
        (mport t p).sums = (2 * (f.seq.toNat - 65), paySigned f 0 4, paySigned f 4 4) :: (2 * (f.seq.toNat - 65) + 1, paySigned f 8 4, paySigned f 12 4) :: (mport s p).sums)) ∧
  (∀ (s : State) (p : BitVec 1) (f : Told) (q : Rat),
      f.frame.type = 5 → f.frame.crc = musterCrc f.frame → f.frame.root.toNat = rootId s →
      inTree (mport s p) = true → (mport s p).cut = false → (mport s p).roundFailed = false →
      f.frame.round.toNat = roundNow s → slotOk f.frame = true → f.frame.seq.toNat ∉ (mport s p).seen →
      f.served = true → s.mus.parent = some p → s.mus.offsetSeen = false → roundRuns s = true →
      roundOff s < 655360 → s.mus.thetaP = some q →
      Completes (.offset p f) s (fun t =>
        t.mus.offsetSeen = true ∧
        (t.mus.theta = if f.frame.flags.getLsbD 1 then none else some (q + paySigned f.frame 0 8)) ∧
        (inTree (mport s (otherPort p)) = true → wasSent t (otherPort p) 5 97 = true) ∧ t.shep = s.shep)) ∧
  (∀ (s : State) (p : BitVec 1) (f : Told),
      f.frame.type = 5 → f.frame.crc = musterCrc f.frame → f.frame.root.toNat = rootId s →
      inTree (mport s p) = true → (mport s p).cut = false → (mport s p).roundFailed = false →
      f.frame.round.toNat = roundNow s → slotOk f.frame = true → f.frame.seq.toNat ∉ (mport s p).seen →
      f.served = false → s.shep.state = .running →
      Completes (.offset p f) s (fun t =>
        t.shep.hung = true ∧ t.mus.theta = s.mus.theta ∧ t.mus.offsetSeen = s.mus.offsetSeen)) ∧
  (∀ (s : State) (p : BitVec 1) (f : Frame),
      f.type = 6 → f.crc = musterCrc f → f.root.toNat = rootId s → inTree (mport s p) = true →
      (mport s p).cut = false → (mport s p).roundFailed = false → f.round.toNat = roundNow s → slotOk f = true →
      f.seq.toNat ∉ (mport s p).seen →
      Completes (.muDone p f) s (fun t =>
        (mport t p).childDone = some (payNat f 0 2, payNat f 2 2, payNat f 4 4, payNat f 8 2) ∧
        (mport t p).child = true)) ∧
  (∀ (s : State) (p : BitVec 1),
      s.mus.inRound = true → roundRuns s = true → dueAt s (655360 + 320 * (1024 - s.mus.hops)) = true →
      s.mus.parent = some p → inTree (mport s p) = true → s.mus.doneSent = false →
      Completes .doneDeadline s (fun t =>
        t.mus.doneSent = true ∧ wasSent t p 6 98 = true)) ∧
  (∀ (s : State) (p : BitVec 1),
      s.mus.inRound = true → roundRuns s = true → dueAt s 655360 = true → allDone s = true →
      s.mus.parent = some p → inTree (mport s p) = true → s.mus.doneSent = false →
      Completes .upSweep s (fun t =>
        t.mus.doneSent = true ∧ wasSent t p 6 98 = true)) ∧
  (∀ (s : State),
      s.mus.inRound = true → roundRuns s = true → dueAt s 327680 = true → isRoot s = true → s.mus.parent = none →
      Completes .downSweep s (fun t =>
        (∀ p : BitVec 1, inTree (mport s p) = true → wasSent t p 5 97 = true))) ∧
  (∀ (s : State) (p : BitVec 1),
      s.mus.inRound = true → roundRuns s = true → dueAt s 327680 = true → isRoot s = false →
      s.mus.parent = some p → inTree (mport s p) = false → s.mus.offsetSeen = false →
      Completes .downSweep s (fun t =>
        (inTree (mport s (otherPort p)) = true → wasSent t (otherPort p) 5 97 = true)))

/-- APPLY, the ageing transfer, 1PPS and time of day (R378, R379, R380, R381, R382, R383, R385, R386, R387, R395,
R397). At APPLY a root without PPS stands still, a member with an offset corrects its frequency and slews within
its limits, and one without enters or stays in holdover; 256 rounds move the mean into ROOT_AGE; a PPS edge
gives the root its error or PPS_MISS, and an armed time of day loads the counter; PPS goes out at each whole
second. The model’s choices here: values are rounded to the nearest (log 50), the transfer’s mean and slope (log
53) and how its write waits (log 104). -/
def Obligations.MusterSlewing : Prop :=
  (∀ (s : State),
      s.mus.inRound = true → s.mus.applied = false → dueAt s 983040 = true → isRoot s = true → ppsEn s = false →
      Completes .muApply s (fun t =>
        t.mus.applied = true ∧ t.mus.freqF = 0 ∧ t.mus.slewS = 0 ∧ t.mus.mode = 0 ∧ t.mus.holdover = false ∧
        t.mus.reached = (subtree s).1 ∧ Flagged t .mus 8 ∧ t.mus.statHops = s.mus.hops ∧
        t.mus.shownF = 0 ∧ t.mus.shownS = 0)) ∧
  (∀ (s : State) (q : Rat),
      s.mus.inRound = true → s.mus.applied = false → dueAt s 983040 = true → isRoot s = false →
      s.mus.theta = some q → roundRuns s = true → s.root.bypass = false →
      Completes .muApply s (fun t =>
        t.mus.applied = true ∧
        t.mus.freqF = clampRat (-25000) 25000 (s.mus.freqF - (q + (s.mus.rotor - s.mus.rotorMid)) * 1000000000 / (8 * roundTime)) ∧
        t.mus.slewS = clampRat (-slewMax s) (slewMax s) (-(q + (s.mus.rotor - s.mus.rotorMid)) * 1000000000 / roundTime) ∧
        t.mus.lastTheta = nearest (q + (s.mus.rotor - s.mus.rotorMid)) ∧ t.mus.mode = 2 ∧ t.mus.holdover = false ∧
        t.mus.statParent = s.mus.parent)) ∧
  (∀ (s : State),
      s.mus.inRound = true → s.mus.applied = false → dueAt s 983040 = true → isRoot s = false →
      s.mus.theta = none →
      Completes .muApply s (fun t =>
        t.mus.applied = true ∧ t.mus.freqF = s.mus.freqF ∧ t.mus.holdover = true ∧
        t.mus.holdRounds = satAt 65535 (s.mus.holdRounds + 1) ∧
        (t.mus.mode = if s.mus.farSlew ≠ 0 then 4 else if takesPart s = false ∨ (s.mus.hopsOver = true ∧ s.mus.parent = none) then 5 else 3) ∧
        (s.mus.holdover = false → Flagged t .mus 4))) ∧
  (∀ (s : State) (e : Int),
      s.mus.inRound = true → s.mus.applied = false → dueAt s 983040 = true → isRoot s = true → ppsEn s = true →
      coreRuns s = true → s.root.bypass = false → s.mus.ppsUse = some e →
      s.time.total ≤ s.mus.ppsSeen + 500000000 →
      Completes .muApply s (fun t =>
        t.mus.applied = true ∧
        t.mus.freqF = clampRat (-25000) 25000 (s.mus.freqF - e * 1000000000 / (8 * 4000000000000)) ∧
        t.mus.slewS = clampRat (-slewMax s) (slewMax s) (-e * 1000000000 / roundTime) ∧ t.mus.mode = 1 ∧
        t.mus.ppsUse = none ∧ t.mus.holdover = false)) ∧
  (∀ (s : State),
      ageEn s = true → coreRuns s = true → 256 ≤ s.mus.fRounds → s.mus.holdover = false →
      Completes .ageTransfer s (fun t =>
        t.mus.fSum = 0 ∧ t.mus.fRounds = 0 ∧
        t.out.waiting = s.out.waiting ++ [⟨⟨.shep, 15, none⟩, 0x2034, BitVec.ofNat 32 (intField 12 (max (-2048) (min 2047 (signedFld (nowGet s 0x2034) 0 12 + (nearest (s.mus.fSum / s.mus.fRounds / 10)))))), [((nearest (s.mus.fSum / s.mus.fRounds / 10))).toNat, (-(nearest (s.mus.fSum / s.mus.fRounds / 10))).toNat, 1]⟩])) ∧
  (∀ (s : State) (err : Int),
      s.mus.todArmed = true →
      Completes (.ppsInEdge err) s (fun t =>
        t.mus.todArmed = false ∧ t.time = s.time ∧
        t.mus.todLoad = some ((nowGet s 0xB030).toNat + 2 ^ 32 * (nowGet s 0xB034).toNat, s.time.total + (if s.root.bypass then 5 else 1)))) ∧
  (∀ (s : State) (err : Int),
      isRoot s = true → ppsEn s = true → coreRuns s = true → meetsExchange (nearSecond s) = false →
      err.natAbs ≤ 8192000 → unit0Times s (nearSecond s - 512) 0 = true →
      Completes (.ppsInEdge err) s (fun t =>
        t.mus.ppsUse = some (err + signedFld (nowGet s 0xB004) 0 32) ∧
        t.mus.ppsErr = err + signedFld (nowGet s 0xB004) 0 32 ∧ t.mus.ppsSeen = s.time.total)) ∧
  (∀ (s : State) (err : Int),
      isRoot s = true → ppsEn s = true → coreRuns s = true → meetsExchange (nearSecond s) = false →
      8192000 < err.natAbs →
      Completes (.ppsInEdge err) s (fun t =>
        t.mus.ppsUse = s.mus.ppsUse ∧ t.mus.ppsSeen = s.time.total ∧ Flagged t .mus 10)) ∧
  (∀ (s : State),
      s.mus.ppsOutAt = none → s.time.counter % 250000000 < max 1 s.time.inc →
      Completes .ppsOut s (fun t =>
        t.mus.ppsOutAt = some (elapsed s))) ∧
  (∀ (s : State) (w : Wr) (v : Word),
      Performs w 0xB038 s → BitVec.ofNat 8 (fld v 0 8) ≠ s.mus.todTag →
      Completes (.todArm w v) s (fun t =>
        t.mus.todTag = BitVec.ofNat 8 (fld v 0 8) ∧ t.mus.todArmed = true))

/-- The firmware bank commands (R405, R406, R407, R408, R434, R458, R487). A new TAG of SHEP_BANK_CTRL performs
OPEN, SEAL or SWAP, or is rejected with its code and CMD_REJECT; a seal waits for its count, fails above it or
at its timer, and is judged by the checks of a firmware image; before the first fold a pending swap of a SEALED
bank takes effect at once. That an unsigned image refused by the life-cycle state names port 1 in DENY_PORT is
log 128. -/
def Obligations.FirmwareBanks : Prop :=
  (∀ (s : State) (w : Wr) (bank : BitVec 1) (tag : BitVec 8),
      Performs w 0xC024 s → tag ≠ s.shep.cmdTag → s.shep.active ≠ some bank → s.shep.committed = none →
      Completes (.fwOpen w bank tag) s (fun t =>
        (swBank t bank) = { st := .opened } ∧ (s.shep.swap = some bank → t.shep.swap = none ∧ Flagged t .shep 6) ∧
        t.shep.cmdTag = tag ∧ t.shep.rej = 0)) ∧
  (∀ (s : State) (w : Wr) (bank : BitVec 1) (tag : BitVec 8),
      Performs w 0xC024 s → tag ≠ s.shep.cmdTag → s.shep.active = some bank ∨ s.shep.committed.isSome = true →
      Completes (.fwOpen w bank tag) s (fun t =>
        (swBank t bank) = (swBank s bank) ∧ t.shep.cmdTag = tag ∧ t.shep.rej = 1 ∧ Flagged t .shep 12)) ∧
  (∀ (s : State) (w : Wr) (bank : BitVec 1) (tag : BitVec 8),
      Performs w 0xC024 s → tag ≠ s.shep.cmdTag → (swBank s bank).st = .opened →
      Completes (.fwSeal w bank tag) s (fun t =>
        (swBank t bank).wcount = (swBank s bank).wcount ∧
        ((swBank s bank).wcount < imgLength s bank / 32 → (swBank t bank).st = .waiting ∧ (swBank t bank).timer = elapsed s + 4096) ∧
        ((swBank s bank).wcount = imgLength s bank / 32 → (swBank t bank).st = .verify ∧ (swBank t bank).timer = elapsed s + imgVerifyTicks s bank) ∧
        (imgLength s bank / 32 < (swBank s bank).wcount → (swBank t bank).st = .opened ∧ t.shep.sealRes = 2 ∧ Flagged t .shep 4) ∧
        t.shep.cmdTag = tag ∧ t.shep.rej = 0)) ∧
  (∀ (s : State) (w : Wr) (bank : BitVec 1) (tag : BitVec 8),
      Performs w 0xC024 s → tag ≠ s.shep.cmdTag → (swBank s bank).st ≠ .opened →
      Completes (.fwSeal w bank tag) s (fun t =>
        (swBank t bank) = (swBank s bank) ∧ t.shep.cmdTag = tag ∧ t.shep.rej = 2 ∧ Flagged t .shep 12)) ∧
  (∀ (s : State) (w : Wr) (bank : BitVec 1) (tag : BitVec 8),
      Performs w 0xC024 s → tag ≠ s.shep.cmdTag → (swBank s bank).st ≠ .empty → (swBank s bank).st ≠ .active →
      Completes (.fwSwap w bank tag) s (fun t =>
        t.shep.swap = some bank ∧ t.shep.cmdTag = tag ∧ t.shep.rej = 0)) ∧
  (∀ (s : State) (w : Wr) (bank : BitVec 1) (tag : BitVec 8),
      Performs w 0xC024 s → tag ≠ s.shep.cmdTag → (swBank s bank).st = .empty ∨ (swBank s bank).st = .active →
      Completes (.fwSwap w bank tag) s (fun t =>
        t.shep.swap = s.shep.swap ∧ t.shep.cmdTag = tag ∧ t.shep.rej = 3 ∧ Flagged t .shep 12)) ∧
  (∀ (s : State) (w : Wr) (op : BitVec 3) (tag : BitVec 8),
      Performs w 0xC024 s → tag ≠ s.shep.cmdTag → 4 ≤ op.toNat →
      Completes (.fwBankInvalidOp w op tag) s (fun t =>
        t.shep.b0 = s.shep.b0 ∧ t.shep.b1 = s.shep.b1 ∧ t.shep.cmdTag = tag ∧ t.shep.rej = 4 ∧ Flagged t .shep 12)) ∧
  (∀ (s : State) (bank : BitVec 1),
      (swBank s bank).st = .waiting → (swBank s bank).timer ≤ elapsed s →
      Completes (.fwSealShort bank) s (fun t =>
        (swBank t bank).st = .opened ∧ (swBank t bank).wcount = (swBank s bank).wcount ∧ t.shep.sealRes = 1 ∧
        Flagged t .shep 4)) ∧
  (∀ (s : State) (bank : BitVec 1),
      (swBank s bank).st = .verify → (swBank s bank).timer ≤ elapsed s → imgCheck s bank = 0 →
      Completes (.fwVerifyDone bank) s (fun t =>
        (swBank t bank).st = .sealed ∧ t.shep.sealRes = 0 ∧ Flagged t .shep 3)) ∧
  (∀ (s : State) (bank : BitVec 1),
      (swBank s bank).st = .verify → (swBank s bank).timer ≤ elapsed s → imgCheck s bank ≠ 0 →
      Completes (.fwVerifyDone bank) s (fun t =>
        (swBank t bank).st = .opened ∧ t.shep.sealRes = BitVec.ofNat 4 (imgCheck s bank) ∧ Flagged t .shep 4 ∧
        (imgCheck s bank = 5 → Flagged t .cfg 8 ∧ t.cfg.denyPort = 1))) ∧
  (∀ (s : State) (bank : BitVec 1),
      s.shep.swap = some bank → s.fold.started = false → s.fold.pending = false → slowNow s = true →
      (swBank s bank).st = .sealed →
      Completes .fwSwapPreStart s (fun t =>
        t.shep.active = some bank ∧ (swBank t bank).st = .active ∧ t.shep.swap = none ∧ t.shep.state = .running ∧
        (t.shep.boot = if s.shep.active = none then 1 else 2) ∧ Flagged t .shep 5 ∧
        (∀ a, s.shep.active = some a → a ≠ bank → (swBank t a).st = .sealed)))

/-- The core’s halts, restarts and watchdog, and the mailbox slots (R401, R411, R412, R413, R414, R415, R417, R418,
R419, R432, R437, R438). A running core halts, where the condition of the cause holds, with its cause, address
and value and completes the taken command with 0xE2; 256 ticks later it restarts where HALT_RESTART is set; an
expired watchdog reports and, with WDOG_ACT, restarts it; a kick restarts the watchdog; a corrected error is
counted. GO posts an idle mailbox, mailbox 2 only while the crook path is armed, which it disarms; WITHDRAW ends
a posted command with 0xE3, that of mailbox 2 only while the crook path is armed; firmware, when free, takes the
posted command of the highest rank. That a withdrawn command keeps its results is log 44, that a halt comes only
where its condition holds by the map log 75. -/
def Obligations.CoreAndMailboxSlots : Prop :=
  (∀ (s : State) (cause : HaltCause) (pc val : Word),
      s.shep.state = .running → haltHolds s cause val.toNat = true →
      Completes (.halt cause pc val) s (fun t =>
        t.shep.state = .halted ∧ t.shep.haltAt = s.shep.edges ∧
        (t.shep.haltCount = if s.shep.haltCount = 255 then 255 else s.shep.haltCount + 1) ∧ Flagged t .shep 0 ∧
        (∀ m, takenBox s = some m → (mbox t m).slot = .idle ∧ (mbox t m).status = 0xE2) ∧
        t.shep.haltCause = BitVec.ofNat 4 (haltCode cause) ∧ t.shep.haltPc = pc ∧
        t.shep.haltVal = haltValue s cause val)) ∧
  (∀ (s : State) (cause : HaltCause) (pc val : Word),
      s.shep.state ≠ .running ∨ haltHolds s cause val.toNat = false →
      Completes (.halt cause pc val) s (fun t =>
        t = s)) ∧
  (∀ (s : State) (code : BitVec 16) (pc : Word),
      s.shep.state = .running →
      Completes (.shepAssertWrite code pc) s (fun t =>
        t.shep.state = .halted ∧ t.shep.haltAt = s.shep.edges ∧
        (t.shep.haltCount = if s.shep.haltCount = 255 then 255 else s.shep.haltCount + 1) ∧ Flagged t .shep 0 ∧
        (∀ m, takenBox s = some m → (mbox t m).slot = .idle ∧ (mbox t m).status = 0xE2) ∧ t.shep.haltCause = 9 ∧
        t.shep.haltPc = pc ∧ t.shep.haltVal = code.setWidth 32)) ∧
  (∀ (s : State),
      s.shep.state = .halted → bitAt (nowGet s 0xC008) 0 = true → s.shep.haltAt + 256 ≤ s.shep.edges →
      s.shep.active.isSome = true →
      Completes .haltRestart s (fun t =>
        t.shep.state = .running ∧ t.shep.boot = 6 ∧ Flagged t .shep 2 ∧
        (t.shep.restarts = if s.shep.restarts = 255 then 255 else s.shep.restarts + 1))) ∧
  (∀ (s : State),
      s.shep.state = .running → bitAt (nowGet s 0xC008) 6 = true → s.shep.wdogOut = false →
      wdogPeriod s ≤ s.shep.wdogCount → bitAt (nowGet s 0xC008) 5 = true → s.shep.active.isSome = true →
      Completes .wdog s (fun t =>
        t.shep.state = .running ∧ t.shep.boot = 5 ∧ t.shep.wdogBox = takenBox s ∧ Flagged t .shep 1 ∧
        Flagged t .shep 2)) ∧
  (∀ (s : State),
      s.shep.state = .running → bitAt (nowGet s 0xC008) 6 = true → s.shep.wdogOut = false →
      wdogPeriod s ≤ s.shep.wdogCount → bitAt (nowGet s 0xC008) 5 = false →
      Completes .wdog s (fun t =>
        t.shep = { s.shep with wdogOut := true } ∧ Flagged t .shep 1)) ∧
  (∀ (s : State) (v : Word),
      s.shep.state = .running → bitAt v 0 = true →
      Completes (.watchdogKick v) s (fun t =>
        t.shep.wdogCount = 0 ∧ t.shep.wdogOut = false)) ∧
  (∀ (s : State) (insn : Bool),
      Completes (.eccCorr insn) s (fun t =>
        t.shep.eccInsn = (if insn = true ∧ s.shep.eccInsn ≠ 65535 then s.shep.eccInsn + 1 else s.shep.eccInsn) ∧
        t.shep.eccData = (if insn = false ∧ s.shep.eccData ≠ 65535 then s.shep.eccData + 1 else s.shep.eccData) ∧
        Flagged t .shep 10)) ∧
  (∀ (s : State) (w : Wr) (m : BitVec 2),
      Performs w (mbxAddr m.toNat 0) s → isMbox m = true → mbxClient w.port m.toNat = true → m ≠ 2 →
      (mbox s m.toNat).slot = .idle →
      Completes (.mbxGo w m) s (fun t =>
        (mbox t m.toNat).slot = .posted ∧ t.crook = s.crook)) ∧
  (∀ (s : State) (w : Wr) (m : BitVec 2),
      Performs w (mbxAddr m.toNat 0) s → isMbox m = true → mbxClient w.port m.toNat = true → m = 2 →
      s.crook.armed = true → w.rival = none → (mbox s m.toNat).slot = .idle →
      Completes (.mbxGo w m) s (fun t =>
        (mbox t m.toNat).slot = .posted ∧ t.crook.armed = false)) ∧
  (∀ (s : State) (w : Wr) (m : BitVec 2),
      Performs w (mbxAddr m.toNat 0) s → isMbox m = true → mbxClient w.port m.toNat = true → m = 2 →
      s.crook.armed = false →
      Completes (.mbxGo w m) s (fun t =>
        (mbox t m.toNat) = (mbox s m.toNat) ∧ Flagged t .mbx 6)) ∧
  (∀ (s : State) (w : Wr) (m : BitVec 2),
      Performs w (mbxAddr m.toNat 0) s → isMbox m = true → mbxClient w.port m.toNat = true → m ≠ 2 →
      (mbox s m.toNat).slot ≠ .idle →
      Completes (.mbxGo w m) s (fun t =>
        (mbox t m.toNat) = (mbox s m.toNat) ∧ Flagged t .mbx (3 + m.toNat))) ∧
  (∀ (s : State) (w : Wr) (m : BitVec 2),
      Performs w (mbxAddr m.toNat 0) s → isMbox m = true → mbxClient w.port m.toNat = true → m ≠ 2 →
      (mbox s m.toNat).slot = .posted ∨ ((mbox s m.toNat).slot = .taken ∧ s.time.slowEdges ≤ (mbox s m.toNat).takenAt + 1) →
      Completes (.mbxWithdraw w m) s (fun t =>
        (mbox t m.toNat).slot = .idle ∧ (mbox t m.toNat).status = 0xE3 ∧
        (mbox t m.toNat).tag = BitVec.ofNat 8 (fld (mbox s m.toNat).cmd 8 8) ∧
        (mbox t m.toNat).res = (mbox s m.toNat).res ∧ (mbox t m.toNat).doneCount = (mbox s m.toNat).doneCount + 1 ∧
        Flagged t .mbx m.toNat)) ∧
  (∀ (s : State) (w : Wr) (m : BitVec 2),
      Performs w (mbxAddr m.toNat 0) s → isMbox m = true → mbxClient w.port m.toNat = true → m = 2 →
      s.crook.armed = true → w.rival = none → (mbox s m.toNat).slot = .posted →
      Completes (.mbxWithdraw w m) s (fun t =>
        (mbox t m.toNat).slot = .idle ∧ (mbox t m.toNat).status = 0xE3 ∧
        (mbox t m.toNat).res = (mbox s m.toNat).res ∧ (mbox t m.toNat).doneCount = (mbox s m.toNat).doneCount + 1 ∧
        Flagged t .mbx 2 ∧ t.crook = s.crook)) ∧
  (∀ (s : State) (w : Wr) (m : BitVec 2),
      Performs w (mbxAddr m.toNat 0) s → isMbox m = true → mbxClient w.port m.toNat = true → m = 2 →
      s.crook.armed = false →
      Completes (.mbxWithdraw w m) s (fun t =>
        (mbox t m.toNat) = (mbox s m.toNat) ∧ Flagged t .mbx 6)) ∧
  (∀ (s : State) (w : Wr) (m : BitVec 2),
      Performs w (mbxAddr m.toNat 0) s → isMbox m = true → mbxClient w.port m.toNat = true → m ≠ 2 →
      (mbox s m.toNat).slot = .idle ∨ ((mbox s m.toNat).slot = .taken ∧ (mbox s m.toNat).takenAt + 1 < s.time.slowEdges) →
      Completes (.mbxWithdraw w m) s (fun t =>
        (mbox t m.toNat) = (mbox s m.toNat))) ∧
  (∀ (s : State) (m : Nat),
      coreRuns s = true → takenBox s = none →
      [2, 0, 1].find? (fun k => decide ((mbox s k).slot = .posted) && !withdrawing s k) = some m →
      Completes .mbxTake s (fun t =>
        (mbox t m).slot = .taken ∧ (mbox t m).cmd = (mbox s m).cmd))

/-- VERSION, STATUS, NOP, CFG_COMMIT, IDENTIFY and bad commands (R417, R422, R423, R427, R428). A taken command
whose reserved arguments are 0 completes with status 0 and its results, an IDENTIFY of more than 3,600 s or a
command with a reserved argument that is not 0 with 3, a commit of too many region words with 6, one not
permitted in its mailbox with 4, an unknown opcode with 2. The order of the refusals is log 45, the slot that a
commit writes log 12. -/
def Obligations.MailboxInformation : Prop :=
  (∀ (s : State) (m : Nat) (b : BitVec 1),
      coreRuns s = true → takenBox s = some m → fld (mbox s m).cmd 0 8 = 1 → (∀ k < 8, 0 ≤ k → argOf s m k = 0) →
      s.shep.active = some b →
      Completes .version s (fun t =>
        (mbox t m).slot = .idle ∧ (mbox t m).status = 0 ∧
        (mbox t m).tag = BitVec.ofNat 8 (fld (mbox s m).cmd 8 8) ∧
        (mbox t m).doneCount = (mbox s m).doneCount + 1 ∧ Flagged t .mbx m ∧
        t.shep.completed = s.shep.completed + 1 ∧ tabGet (mbox t m).res 0 0 = BitVec.ofNat 32 (imgVersion s b) ∧
        tabGet (mbox t m).res 1 0 = BitVec.ofNat 32 (imgField s b 10 2))) ∧
  (∀ (s : State) (m k : Nat),
      coreRuns s = true → takenBox s = some m → fld (mbox s m).cmd 0 8 = 1 → k < 8 → argOf s m k ≠ 0 →
      Completes .version s (fun t =>
        (mbox t m).slot = .idle ∧ (mbox t m).status = 3 ∧
        (mbox t m).tag = BitVec.ofNat 8 (fld (mbox s m).cmd 8 8) ∧
        (mbox t m).doneCount = (mbox s m).doneCount + 1 ∧ Flagged t .mbx m ∧
        t.shep.completed = s.shep.completed + 1)) ∧
  (∀ (s : State) (m : Nat),
      coreRuns s = true → takenBox s = some m → fld (mbox s m).cmd 0 8 = 2 → (∀ k < 8, 0 ≤ k → argOf s m k = 0) →
      Completes .status s (fun t =>
        (mbox t m).slot = .idle ∧ (mbox t m).status = 0 ∧
        (mbox t m).tag = BitVec.ofNat 8 (fld (mbox s m).cmd 8 8) ∧
        (mbox t m).doneCount = (mbox s m).doneCount + 1 ∧ Flagged t .mbx m ∧
        t.shep.completed = s.shep.completed + 1 ∧
        tabGet (mbox t m).res 0 0 = packWord [(0, 1, b2n (s.shep.rowJob.state = 1)), (1, 1, b2n (s.shep.xcalJob.state = 1)), (8, 1, b2n (calHeld s))] ∧
        tabGet (mbox t m).res 1 0 = BitVec.ofNat 32 ((s.time.total - s.shep.startAt) / 2 ^ 20) ∧
        tabGet (mbox t m).res 2 0 = s.shep.internal ∧ tabGet (mbox t m).res 3 0 = BitVec.ofNat 32 s.shep.completed)) ∧
  (∀ (s : State) (m : Nat),
      coreRuns s = true → takenBox s = some m → fld (mbox s m).cmd 0 8 = 3 → (∀ k < 8, 1 ≤ k → argOf s m k = 0) →
      Completes .nop s (fun t =>
        (mbox t m).slot = .idle ∧ (mbox t m).status = 0 ∧
        (mbox t m).tag = BitVec.ofNat 8 (fld (mbox s m).cmd 8 8) ∧
        (mbox t m).doneCount = (mbox s m).doneCount + 1 ∧ Flagged t .mbx m ∧
        t.shep.completed = s.shep.completed + 1 ∧ tabGet (mbox t m).res 0 0 = BitVec.ofNat 32 (argOf s m 0))) ∧
  (∀ (s : State) (m : Nat),
      coreRuns s = true → takenBox s = some m → fld (mbox s m).cmd 0 8 = 32 → m = 0 →
      (∀ k < 8, 0 ≤ k → argOf s m k = 0) → (rcgDict s).length ≤ 32 →
      Completes .cfgCommit s (fun t =>
        (mbox t m).slot = .idle ∧ (mbox t m).status = 0 ∧
        (mbox t m).tag = BitVec.ofNat 8 (fld (mbox s m).cmd 8 8) ∧
        (mbox t m).doneCount = (mbox s m).doneCount + 1 ∧ Flagged t .mbx m ∧
        t.shep.completed = s.shep.completed + 1 ∧ tabGet (mbox t m).res 0 0 = configCrc s ∧
        tabGet (mbox t m).res 1 0 = BitVec.ofNat 32 (commitTick s) ∧
        dirSlot t.ret = (if dirSlot s.ret = 1 then 2 else 1))) ∧
  (∀ (s : State) (m : Nat),
      coreRuns s = true → takenBox s = some m → fld (mbox s m).cmd 0 8 = 32 → m = 0 →
      (∀ k < 8, 0 ≤ k → argOf s m k = 0) → 32 < (rcgDict s).length →
      Completes .cfgCommit s (fun t =>
        (mbox t m).slot = .idle ∧ (mbox t m).status = 6 ∧
        (mbox t m).tag = BitVec.ofNat 8 (fld (mbox s m).cmd 8 8) ∧
        (mbox t m).doneCount = (mbox s m).doneCount + 1 ∧ Flagged t .mbx m ∧
        t.shep.completed = s.shep.completed + 1 ∧ tabGet (mbox t m).res 0 0 = 4 ∧ t.ret = s.ret)) ∧
  (∀ (s : State) (m : Nat),
      coreRuns s = true → takenBox s = some m → fld (mbox s m).cmd 0 8 = 32 → m ≠ 0 →
      Completes .cfgCommit s (fun t =>
        (mbox t m).slot = .idle ∧ (mbox t m).status = 4 ∧
        (mbox t m).tag = BitVec.ofNat 8 (fld (mbox s m).cmd 8 8) ∧
        (mbox t m).doneCount = (mbox s m).doneCount + 1 ∧ Flagged t .mbx m ∧
        t.shep.completed = s.shep.completed + 1 ∧ t.ret = s.ret)) ∧
  (∀ (s : State) (m : Nat),
      coreRuns s = true → takenBox s = some m → fld (mbox s m).cmd 0 8 = 33 → m ≠ 2 →
      (∀ k < 8, 1 ≤ k → argOf s m k = 0) → argOf s m 0 ≤ 3600 →
      Completes .identify s (fun t =>
        (mbox t m).slot = .idle ∧ (mbox t m).status = 0 ∧
        (mbox t m).tag = BitVec.ofNat 8 (fld (mbox s m).cmd 8 8) ∧
        (mbox t m).doneCount = (mbox s m).doneCount + 1 ∧ Flagged t .mbx m ∧
        t.shep.completed = s.shep.completed + 1 ∧
        (t.shep.identifyEnd = if argOf s m 0 = 0 then none else some (s.time.counter + 250000000 * argOf s m 0)))) ∧
  (∀ (s : State) (m : Nat),
      coreRuns s = true → takenBox s = some m → fld (mbox s m).cmd 0 8 = 33 → m ≠ 2 →
      (∀ k < 8, 1 ≤ k → argOf s m k = 0) → 3600 < argOf s m 0 →
      Completes .identify s (fun t =>
        (mbox t m).slot = .idle ∧ (mbox t m).status = 3 ∧
        (mbox t m).tag = BitVec.ofNat 8 (fld (mbox s m).cmd 8 8) ∧
        (mbox t m).doneCount = (mbox s m).doneCount + 1 ∧ Flagged t .mbx m ∧
        t.shep.completed = s.shep.completed + 1 ∧ t.shep.identifyEnd = s.shep.identifyEnd)) ∧
  (∀ (s : State) (e : Nat),
      s.shep.identifyEnd = some e → e ≤ s.time.counter →
      Completes .identifyExpiry s (fun t =>
        t.shep.identifyEnd = none)) ∧
  (∀ (s : State) (m : Nat),
      coreRuns s = true → takenBox s = some m → fld (mbox s m).cmd 0 8 ∉ fwOpcodes →
      Completes .badOpcode s (fun t =>
        (mbox t m).slot = .idle ∧ (mbox t m).status = 2 ∧
        (mbox t m).tag = BitVec.ofNat 8 (fld (mbox s m).cmd 8 8) ∧
        (mbox t m).doneCount = (mbox s m).doneCount + 1 ∧ Flagged t .mbx m ∧
        t.shep.completed = s.shep.completed + 1))

/-- Background jobs and their ends (R154, R199, R205, R208, R329, R421, R422, R424, R425, R426). ROW_VERIFY and XCAL
start as background jobs with status 1, or answer busy, the gate that is shut, or the Tally units another port
holds; a row that passes is copied with ROW_OK, one that fails raises ROW_FAIL; XCAL’s end measures every
attached crossing and makes the manifest; JOB_STATUS reports; JOB_ABORT and JOB_KILL end a running job;
RELEASE_TALLY gives firmware’s units back. What a row is judged by, and ROW_OK then, is log 42, the order of the
refusals log 45, firmware’s own record of a job log 121. -/
def Obligations.MailboxJobs : Prop :=
  (∀ (s : State) (m : Nat),
      coreRuns s = true → takenBox s = some m → fld (mbox s m).cmd 0 8 = 16 → m = 0 →
      (∀ k < 8, 2 ≤ k → argOf s m k = 0) →
      argOf s m 1 = 0 ∨ (argOf s m 1 ≤ 5760 ∧ argOf s m 0 + argOf s m 1 ≤ 5120 + 2 * s.build.flocks) →
      s.shep.rowJob.state ≠ 1 →
      Completes .rowVerify s (fun t =>
        (mbox t m).slot = .idle ∧ (mbox t m).status = 1 ∧
        (mbox t m).tag = BitVec.ofNat 8 (fld (mbox s m).cmd 8 8) ∧
        (mbox t m).doneCount = (mbox s m).doneCount + 1 ∧ Flagged t .mbx m ∧
        t.shep.completed = s.shep.completed + 1 ∧
        t.shep.rowJob = { state := 1, first := argOf s m 0, count := argOf s m 1 })) ∧
  (∀ (s : State) (m : Nat),
      coreRuns s = true → takenBox s = some m → fld (mbox s m).cmd 0 8 = 16 → m = 0 →
      (∀ k < 8, 2 ≤ k → argOf s m k = 0) →
      argOf s m 1 ≠ 0 ∧ (5760 < argOf s m 1 ∨ 5120 + 2 * s.build.flocks < argOf s m 0 + argOf s m 1) →
      Completes .rowVerify s (fun t =>
        (mbox t m).slot = .idle ∧ (mbox t m).status = 3 ∧
        (mbox t m).tag = BitVec.ofNat 8 (fld (mbox s m).cmd 8 8) ∧
        (mbox t m).doneCount = (mbox s m).doneCount + 1 ∧ Flagged t .mbx m ∧
        t.shep.completed = s.shep.completed + 1 ∧ t.shep.rowJob = s.shep.rowJob)) ∧
  (∀ (s : State) (m : Nat),
      coreRuns s = true → takenBox s = some m → fld (mbox s m).cmd 0 8 = 16 → m = 0 →
      (∀ k < 8, 2 ≤ k → argOf s m k = 0) → argOf s m 1 = 0 → s.shep.rowJob.state = 1 →
      Completes .rowVerify s (fun t =>
        (mbox t m).slot = .idle ∧ (mbox t m).status = 5 ∧
        (mbox t m).tag = BitVec.ofNat 8 (fld (mbox s m).cmd 8 8) ∧
        (mbox t m).doneCount = (mbox s m).doneCount + 1 ∧ Flagged t .mbx m ∧
        t.shep.completed = s.shep.completed + 1 ∧ t.shep.rowJob = s.shep.rowJob)) ∧
  (∀ (s : State) (hit : List Nat),
      coreRuns s = true → s.shep.rowJob.state = 1 →
      Completes (.rowVerifyJobEnd hit) s (fun t =>
        t.shep.rowJob.state = 2 ∧ t.shep.rowJob.progress = (jobRows s s.shep.rowJob).length ∧ Flagged t .shep 11 ∧
        (∀ g ∈ jobRows s s.shep.rowJob, (rowOutcome s hit g = 0 → (genOf t g).rowOk = decide (rowJudged s g = rowWords s g) ∧ (genOf t g).copy = rowJudged s g ∧ (genOf t g).verified = true) ∧ (rowOutcome s hit g = 1 → Flagged t .rcg 7)))) ∧
  (∀ (s : State) (m : Nat),
      coreRuns s = true → takenBox s = some m → fld (mbox s m).cmd 0 8 = 17 → m = 0 →
      (∀ k < 8, 0 ≤ k → argOf s m k = 0) → s.shep.xcalJob.state ≠ 1 → s.fold.started = false →
      meshReadyNow s = true → s.root.bypass = false → heldByOthers s = 0 →
      Completes .xcal s (fun t =>
        (mbox t m).slot = .idle ∧ (mbox t m).status = 1 ∧
        (mbox t m).tag = BitVec.ofNat 8 (fld (mbox s m).cmd 8 8) ∧
        (mbox t m).doneCount = (mbox s m).doneCount + 1 ∧ Flagged t .mbx m ∧
        t.shep.completed = s.shep.completed + 1 ∧ t.shep.xcalJob = { state := 1 } ∧ t.xing.calRun = true ∧
        t.xing.manifestReady = false ∧ t.xing.captured = true ∧
        t.tally.u1.owner = .fw ∧ t.tally.u2.owner = .fw ∧ t.tally.u3.owner = .fw)) ∧
  (∀ (s : State) (m : Nat),
      coreRuns s = true → takenBox s = some m → fld (mbox s m).cmd 0 8 = 17 → m = 0 →
      (∀ k < 8, 0 ≤ k → argOf s m k = 0) → s.shep.xcalJob.state = 1 →
      Completes .xcal s (fun t =>
        (mbox t m).slot = .idle ∧ (mbox t m).status = 5 ∧
        (mbox t m).tag = BitVec.ofNat 8 (fld (mbox s m).cmd 8 8) ∧
        (mbox t m).doneCount = (mbox s m).doneCount + 1 ∧ Flagged t .mbx m ∧
        t.shep.completed = s.shep.completed + 1 ∧ t.xing = s.xing)) ∧
  (∀ (s : State) (m : Nat),
      coreRuns s = true → takenBox s = some m → fld (mbox s m).cmd 0 8 = 17 → m = 0 →
      (∀ k < 8, 0 ≤ k → argOf s m k = 0) → s.shep.xcalJob.state ≠ 1 →
      s.fold.started = true ∨ meshReadyNow s = false ∨ s.root.bypass = true →
      Completes .xcal s (fun t =>
        (mbox t m).slot = .idle ∧ (mbox t m).status = 6 ∧
        (mbox t m).tag = BitVec.ofNat 8 (fld (mbox s m).cmd 8 8) ∧
        (mbox t m).doneCount = (mbox s m).doneCount + 1 ∧ Flagged t .mbx m ∧
        t.shep.completed = s.shep.completed + 1 ∧
        (tabGet (mbox t m).res 0 0 = (if s.fold.started then 1 else if meshReadyNow s = false then 2 else 3)) ∧
        t.xing = s.xing)) ∧
  (∀ (s : State) (m : Nat),
      coreRuns s = true → takenBox s = some m → fld (mbox s m).cmd 0 8 = 17 → m = 0 →
      (∀ k < 8, 0 ≤ k → argOf s m k = 0) → s.shep.xcalJob.state ≠ 1 → s.fold.started = false →
      meshReadyNow s = true → s.root.bypass = false → heldByOthers s ≠ 0 →
      Completes .xcal s (fun t =>
        (mbox t m).slot = .idle ∧ (mbox t m).status = 7 ∧
        (mbox t m).tag = BitVec.ofNat 8 (fld (mbox s m).cmd 8 8) ∧
        (mbox t m).doneCount = (mbox s m).doneCount + 1 ∧ Flagged t .mbx m ∧
        t.shep.completed = s.shep.completed + 1 ∧ tabGet (mbox t m).res 0 0 = BitVec.ofNat 32 (heldByOthers s) ∧
        t.xing = s.xing)) ∧
  (∀ (s : State) (tx : List (Nat × List Nat)),
      coreRuns s = true → s.root.bypass = false → s.shep.xcalJob.state = 1 →
      Completes (.calDone tx) s (fun t =>
        t.shep.xcalJob.state = 2 ∧ t.xing.calRun = false ∧ t.xing.manifestReady = true ∧
        t.xing.calTick = s.time.counter ∧ Flagged t .xing 0 ∧ Flagged t .shep 11 ∧
        (∀ x ∈ attachedXings s, xingOf t x = measureXing s x (((tx.find? (fun e => e.1 = x)).map Prod.snd).getD [])))) ∧
  (∀ (s : State) (m : Nat),
      coreRuns s = true → takenBox s = some m → fld (mbox s m).cmd 0 8 = 18 →
      (∀ k < 8, 1 ≤ k → argOf s m k = 0) → (argOf s m 0 = 1 ∨ argOf s m 0 = 2) →
      (jobOf s (argOf s m 0)).state ≠ 1 →
      Completes .jobStatus s (fun t =>
        (mbox t m).slot = .idle ∧ (mbox t m).status = 0 ∧
        (mbox t m).tag = BitVec.ofNat 8 (fld (mbox s m).cmd 8 8) ∧
        (mbox t m).doneCount = (mbox s m).doneCount + 1 ∧ Flagged t .mbx m ∧
        t.shep.completed = s.shep.completed + 1 ∧
        tabGet (mbox t m).res 0 0 = BitVec.ofNat 32 (jobOf s (argOf s m 0)).state ∧
        tabGet (mbox t m).res 1 0 = BitVec.ofNat 32 (jobOf s (argOf s m 0)).progress ∧ t.freeCtr = s.freeCtr)) ∧
  (∀ (s : State) (m : Nat),
      coreRuns s = true → takenBox s = some m → fld (mbox s m).cmd 0 8 = 18 →
      (∀ k < 8, 1 ≤ k → argOf s m k = 0) → (argOf s m 0 = 1 ∨ argOf s m 0 = 2) →
      (jobOf s (argOf s m 0)).state = 1 →
      Completes .jobStatus s (fun t =>
        (mbox t m).slot = .idle ∧ (mbox t m).status = 0 ∧
        (mbox t m).tag = BitVec.ofNat 8 (fld (mbox s m).cmd 8 8) ∧
        (mbox t m).doneCount = (mbox s m).doneCount + 1 ∧ Flagged t .mbx m ∧
        t.shep.completed = s.shep.completed + 1 ∧ tabGet (mbox t m).res 0 0 = 1 ∧ t.freeCtr = s.freeCtr + 1)) ∧
  (∀ (s : State) (m : Nat),
      coreRuns s = true → takenBox s = some m → fld (mbox s m).cmd 0 8 = 18 →
      (∀ k < 8, 1 ≤ k → argOf s m k = 0) → argOf s m 0 ≠ 1 → argOf s m 0 ≠ 2 →
      Completes .jobStatus s (fun t =>
        (mbox t m).slot = .idle ∧ (mbox t m).status = 3 ∧
        (mbox t m).tag = BitVec.ofNat 8 (fld (mbox s m).cmd 8 8) ∧
        (mbox t m).doneCount = (mbox s m).doneCount + 1 ∧ Flagged t .mbx m ∧
        t.shep.completed = s.shep.completed + 1)) ∧
  (∀ (s : State) (m : Nat),
      coreRuns s = true → takenBox s = some m → fld (mbox s m).cmd 0 8 = 19 → m = 0 →
      (∀ k < 8, 1 ≤ k → argOf s m k = 0) → (argOf s m 0 = 1 ∨ argOf s m 0 = 2) →
      (jobOf s (argOf s m 0)).state = 1 →
      Completes .jobAbort s (fun t =>
        (mbox t m).slot = .idle ∧ (mbox t m).status = 0 ∧
        (mbox t m).tag = BitVec.ofNat 8 (fld (mbox s m).cmd 8 8) ∧
        (mbox t m).doneCount = (mbox s m).doneCount + 1 ∧ Flagged t .mbx m ∧
        t.shep.completed = s.shep.completed + 1 ∧ (jobOf t (argOf s m 0)).state = 3 ∧
        (argOf s m 0 = 2 → t.xing.calRun = false ∧ t.xing.manifestReady = false) ∧ Flagged t .shep 11)) ∧
  (∀ (s : State) (m : Nat),
      coreRuns s = true → takenBox s = some m → fld (mbox s m).cmd 0 8 = 19 → m = 0 →
      (∀ k < 8, 1 ≤ k → argOf s m k = 0) → (argOf s m 0 = 1 ∨ argOf s m 0 = 2) →
      (jobOf s (argOf s m 0)).state ≠ 1 →
      Completes .jobAbort s (fun t =>
        (mbox t m).slot = .idle ∧ (mbox t m).status = 8 ∧
        (mbox t m).tag = BitVec.ofNat 8 (fld (mbox s m).cmd 8 8) ∧
        (mbox t m).doneCount = (mbox s m).doneCount + 1 ∧ Flagged t .mbx m ∧
        t.shep.completed = s.shep.completed + 1 ∧ t.shep.rowJob = s.shep.rowJob ∧ t.shep.xcalJob = s.shep.xcalJob)) ∧
  (∀ (s : State) (m : Nat),
      coreRuns s = true → takenBox s = some m → fld (mbox s m).cmd 0 8 = 64 → m = 2 →
      (∀ k < 8, 1 ≤ k → argOf s m k = 0) → (argOf s m 0 = 1 ∨ argOf s m 0 = 2) →
      (jobOf s (argOf s m 0)).state = 1 →
      Completes .jobKill s (fun t =>
        (mbox t m).slot = .idle ∧ (mbox t m).status = 0 ∧
        (mbox t m).tag = BitVec.ofNat 8 (fld (mbox s m).cmd 8 8) ∧
        (mbox t m).doneCount = (mbox s m).doneCount + 1 ∧ Flagged t .mbx m ∧
        t.shep.completed = s.shep.completed + 1 ∧ (jobOf t (argOf s m 0)).state = 3 ∧ Flagged t .shep 11)) ∧
  (∀ (s : State) (m : Nat),
      coreRuns s = true → takenBox s = some m → fld (mbox s m).cmd 0 8 = 65 → m = 2 →
      (∀ k < 8, 0 ≤ k → argOf s m k = 0) → s.tally.claimHost = none → s.tally.claimBm = none →
      s.tally.claimFw = none →
      Completes .releaseTally s (fun t =>
        (mbox t m).slot = .idle ∧ (mbox t m).status = 0 ∧
        (mbox t m).tag = BitVec.ofNat 8 (fld (mbox s m).cmd 8 8) ∧
        (mbox t m).doneCount = (mbox s m).doneCount + 1 ∧ Flagged t .mbx m ∧
        t.shep.completed = s.shep.completed + 1 ∧
        tabGet (mbox t m).res 0 0 = BitVec.ofNat 32 (bitsWhere 4 (fun u => 1 ≤ u && (tallyUnit s u).owner = .fw)) ∧
        (∀ u, 1 ≤ u → u ≤ 3 → (tallyUnit s u).owner = .fw → if tallyBusy (tallyUnit s u) then (tallyUnit t u).releasing = true else (tallyUnit t u).owner = .none)))

/-- Generic register writes, event clears and CFG_CTRL (R12, R13, R14, R440, R443, R444, R445, R452, R459, R460). A
write of a bell-class register is buffered in its implemented bits and applied later, one of a plain register
takes effect in its implemented bits, one of a read-only or absent register does nothing, one of a mailbox,
spare-class or Tally word its own effect, and one at the address of a command’s register is that command; an
event register clears only where bits 31:24 equal SEQ; CFG_CTRL takes the bits its mask selects, VIEW only from
board management. A clear listed at a slow-clock edge whose SEQ was read after that edge waits for the next,
where one that still does not carry SEQ does nothing (log 79). That board management’s CFG_CTRL write performs
its VIEW and is denied for the rest is the model’s reading of R459 (log 21). -/
def Obligations.RegisterFile : Prop :=
  (∀ (s : State) (w : Wr) (blk : Block) (v : Word),
      Performs w (eventAddr blk) s → fld v 24 8 = (seenOf s blk).seq.toNat →
      Completes (.eventClear w blk v) s (fun t =>
        (eventOf t blk).bits = (eventOf s blk).bits &&& ~~~(seenOf s blk).bits ∧
        (eventOf t blk).seq = (eventOf s blk).seq ∧ (eventOf t blk).about = (eventOf s blk).about)) ∧
  (∀ (s : State) (w : Wr) (blk : Block) (v : Word),
      Performs w (eventAddr blk) s → fld v 24 8 ≠ (seenOf s blk).seq.toNat →
      Completes (.eventClear w blk v) s (fun t =>
        t.events = s.events ∧ t.out.waiting = s.out.waiting ++ [⟨w, eventAddr blk, v, []⟩] ∧
        clearEvents blk v s = s)) ∧
  (∀ (s : State) (w : Wr) (v : Word),
      Performs w 0x10 s → w.port ≠ .bm →
      Completes (.cfgCtrlWrite w v) s (fun t =>
        t.cfg.checkEn = (if bitAt v 16 then bitAt v 0 else s.cfg.checkEn) ∧
        t.cfg.refValid = (if bitAt v 17 then bitAt v 1 else s.cfg.refValid) ∧
        t.cfg.restoreEn = (if bitAt v 18 then bitAt v 2 else s.cfg.restoreEn) ∧
        viewOf t w.port = (if bitAt v 19 then bitAt v 3 else viewOf s w.port) ∧
        (∀ p, p ≠ w.port → viewOf t p = viewOf s p) ∧
        (bitAt v 17 = true → bitAt v 1 = true → t.cfg.restoredOnce = false))) ∧
  (∀ (s : State) (w : Wr) (v : Word),
      Performs w 0x10 s → w.port = .bm →
      Completes (.cfgCtrlWrite w v) s (fun t =>
        t.cfg.checkEn = s.cfg.checkEn ∧ t.cfg.refValid = s.cfg.refValid ∧ t.cfg.restoreEn = s.cfg.restoreEn ∧
        viewOf t .bm = (if bitAt v 19 then bitAt v 3 else viewOf s .bm) ∧
        (bitAt v 16 = true ∨ bitAt v 17 = true ∨ bitAt v 18 = true → Flagged t .cfg 8))) ∧
  (∀ (s : State) (w : Wr) (addr : BitVec 20) (v : Word) (m d : Word),
      Performs w (addr.toNat - addr.toNat % 4) s → actingWrite s w (addr.toNat - addr.toNat % 4) v = none →
      eventBlock (addr.toNat - addr.toNat % 4) = none → (addr.toNat - addr.toNat % 4) < 0x15000 →
      bellReg s.build (addr.toNat - addr.toNat % 4) = some (m, d) →
      Completes (.regWrite w addr v) s (fun t =>
        bellW t (addr.toNat - addr.toNat % 4) = v &&& m ∧ t.cfgA = s.cfgA ∧ t.nowR = s.nowR)) ∧
  (∀ (s : State) (w : Wr) (addr : BitVec 20) (v : Word) (m d : Word),
      Performs w (addr.toNat - addr.toNat % 4) s → actingWrite s w (addr.toNat - addr.toNat % 4) v = none →
      eventBlock (addr.toNat - addr.toNat % 4) = none → (addr.toNat - addr.toNat % 4) < 0x15000 →
      bellReg s.build (addr.toNat - addr.toNat % 4) = none →
      nowReg s.build s.root.xtalSel.toNat (addr.toNat - addr.toNat % 4) = some (m, d) →
      Completes (.regWrite w addr v) s (fun t =>
        nowGet t (addr.toNat - addr.toNat % 4) = v &&& m ∧ t.cfgW = s.cfgW ∧ t.cfgA = s.cfgA)) ∧
  (∀ (s : State) (w : Wr) (addr : BitVec 20) (v : Word),
      Performs w (addr.toNat - addr.toNat % 4) s → actingWrite s w (addr.toNat - addr.toNat % 4) v = none →
      eventBlock (addr.toNat - addr.toNat % 4) = none →
      0x15000 ≤ (addr.toNat - addr.toNat % 4) ∨ (bellReg s.build (addr.toNat - addr.toNat % 4) = none ∧ nowReg s.build s.root.xtalSel.toNat (addr.toNat - addr.toNat % 4) = none) →
      Completes (.regWrite w addr v) s (fun t =>
        t.cfgW = s.cfgW ∧ t.cfgA = s.cfgA ∧ t.nowR = s.nowR ∧ t.events = s.events)) ∧
  (∀ (s : State) (w : Wr) (addr : BitVec 20) (v : Word) (m : Nat),
      Performs w (addr.toNat - addr.toNat % 4) s → (addr.toNat - addr.toNat % 4) = mbxAddr m 4 →
      isMbox (BitVec.ofNat 2 m) = true → m < 2 → mbxClient w.port m = true → (mbox s m).slot = .idle →
      Completes (.regWrite w addr v) s (fun t =>
        (mbox t m).cmd = v &&& 0xFFFF ∧ (mbox t m).args = (mbox s m).args)) ∧
  (∀ (s : State) (w : Wr) (addr : BitVec 20) (v : Word) (m k : Nat),
      Performs w (addr.toNat - addr.toNat % 4) s → (addr.toNat - addr.toNat % 4) = mbxAddr m (0x10 + 4 * k) →
      k < 8 → m < 2 → mbxClient w.port m = true → (mbox s m).slot = .idle →
      Completes (.regWrite w addr v) s (fun t =>
        tabGet (mbox t m).args k 0 = v ∧ (mbox t m).cmd = (mbox s m).cmd)) ∧
  (∀ (s : State) (w : Wr) (addr : BitVec 20) (v : Word) (f : Nat) (m d : Word),
      Performs w (addr.toNat - addr.toNat % 4) s → s.build.valid = true →
      (addr.toNat - addr.toNat % 4) = flockAddr f 0x18 → f < s.build.flocks →
      bellReg s.build (keySpareCfg f) = some (m, d) →
      Completes (.regWrite w addr v) s (fun t =>
        bellW t (keySpareCfg f) = v &&& m ∧ t.cfgA = s.cfgA)) ∧
  (∀ (s : State) (w : Wr) (addr : BitVec 20) (v : Word) (u off : Nat) (m d : Word),
      Performs w (addr.toNat - addr.toNat % 4) s → (addr.toNat - addr.toNat % 4) = tallyAddr u off → u < 4 →
      off < 0x30 → (tallyUnit s u).owner = ownerOf w.port →
      nowReg s.build s.root.xtalSel.toNat (tallyAddr u off) = some (m, d) →
      Completes (.regWrite w addr v) s (fun t =>
        nowGet t (tallyAddr u off) = v &&& m ∧ t.tally = s.tally)) ∧
  (∀ (s : State) (w : Wr) (addr : BitVec 20) (v : Word) (u off : Nat),
      Performs w (addr.toNat - addr.toNat % 4) s → (addr.toNat - addr.toNat % 4) = tallyAddr u off → u < 4 →
      off < 0x30 → (tallyUnit s u).owner ≠ ownerOf w.port →
      Completes (.regWrite w addr v) s (fun t =>
        t.nowR = s.nowR ∧ t.tally = s.tally ∧ Flagged t .tally 5 ∧ (w.port = .bm → Flagged t .cfg 8))) ∧
  (∀ (s : State) (w : Wr) (v : Word), exec (.regWrite w 0x2000 v) s = exec (.prefWrite w v) s ∧
    exec (.regWrite w 0x200C v) s = exec (.divApply w v) s ∧
    exec (.regWrite w 0x2020 v) s = exec (.rootBtabWrite w v) s ∧
    exec (.regWrite w 0x2024 v) s = exec (.rootMeas w v) s ∧
    exec (.regWrite w 0x2034 v) s = exec (.rootAgeWrite w v) s ∧
    exec (.regWrite w 0x1000 v) s = exec (.bellSnapReq w v) s ∧
    exec (.regWrite w 0x1018 v) s = exec (.bellLoad w v) s ∧
    exec (.regWrite w 0x3004 v) s = exec (.foldTetherWrite w v) s ∧
    exec (.regWrite w 0x3010 v) s = exec (.foldStart w v) s ∧
    exec (.regWrite w 0x3028 v) s = exec (.foldStatReq w v) s ∧
    exec (.regWrite w 0x3050 v) s = exec (.foldLogSel w v) s ∧
    exec (.regWrite w 0x4000 v) s = exec (.rcgSel w v) s ∧
    exec (.regWrite w 0x400C v) s = exec (.rcgCfgWrite w v) s ∧
    exec (.regWrite w 0x404C v) s = exec (.rcgBmeas w v) s ∧
    exec (.regWrite w 0x5000 v) s = exec (.xingSel w v) s ∧
    exec (.regWrite w 0x501C v) s = exec (.xingCfgWrite w v) s ∧
    exec (.regWrite w 0x5030 v) s = exec (.auditEnWrite w v) s ∧
    exec (.regWrite w 0x6000 v) s = exec (.fcstModeWrite w v) s ∧
    exec (.regWrite w 0x602C v) s = exec (.fcstStatReq w v) s ∧
    exec (.regWrite w 0x7024 v) s = exec (.zoneStatReq w v) s ∧
    exec (.regWrite w 0xB038 v) s = exec (.todArm w v) s ∧
    exec (.regWrite w 0xE000 v) s = exec (.crkArm w v) s ∧
    exec (.regWrite w 0x10 v) s = exec (.cfgCtrlWrite w v) s ∧
    ∀ b : Block, exec (.regWrite w (BitVec.ofNat 20 (eventAddr b)) v) s = exec (.eventClear w b v) s)

/-- Early application, the check’s pass and the restore (R14, R450, R452, R454, R455, R456, R457, R461). Before the
first bell pending writes apply as they are judged; a pass takes the CRC of the applied values and, where the
check is on, sets or clears DRIFT against CFG_REF; a restore’s values stand as pending writes, but for the keys
a port has written since. -/
def Obligations.ConfigurationCheck : Prop :=
  (∀ (s : State),
      s.fold.started = false → slowNow s = true →
      Completes .preBellApply s (fun t =>
        (∀ k ∈ earlyKeys s, bellA t k = (judge { s with cfg := { s.cfg with pend := earlyKeys s } } (fun _ _ => false) k).1) ∧
        (∀ k, k ∉ earlyKeys s → bellA t k = bellA s k) ∧
        t.cfg.pend = s.cfg.pend.filter (fun k => !(earlyKeys s).contains k) ∧
        t.cfg.applyCnt = (if (earlyKeys s).any (fun k => takes s (k, judge { s with cfg := { s.cfg with pend := earlyKeys s } } (fun _ _ => false) k)) then s.cfg.applyCnt + 1 else s.cfg.applyCnt) ∧
        t.cfgW = s.cfgW)) ∧
  (∀ (s : State),
      s.fold.started = true ∨ slowNow s = false →
      Completes .preBellApply s (fun t =>
        t = s)) ∧
  (∀ (s : State),
      s.power.fabUp = true → s.cfg.passFrom + passTicks s.build ≤ s.time.total →
      Completes .configPassEnd s (fun t =>
        t.cfg.crc = configCrc s ∧ t.cfg.passFrom = s.time.total ∧
        (s.cfg.checkEn = true → s.cfg.refValid = true → configCrc s = nowGet s 0x1C → t.cfg.drift = false) ∧
        (s.cfg.checkEn = true → s.cfg.refValid = true → configCrc s ≠ nowGet s 0x1C → t.cfg.drift = true ∧ Flagged t .cfg 0 ∧ (s.cfg.awaitPass = true → Flagged t .cfg 1) ∧ (s.cfg.restoreEn = true → t.cfg.restoredOnce = true)))) ∧
  (∀ (s : State),
      s.cfg.restoring = true → s.cfg.restoreAt + passTicks s.build ≤ elapsed s → (configKeys s.build).Nodup →
      Completes .restoreWriteDone s (fun t =>
        t.cfg.restoring = false ∧ t.cfg.restoreSet = true ∧ (∀ k ∈ s.cfg.portWrote, bellW t k = bellW s k) ∧
        (∀ p ∈ (configKeys s.build).zip s.cfg.copy, p.1 ∉ s.cfg.portWrote → ∀ m d, bellReg s.build p.1 = some (m, d) → bellW t p.1 = p.2 &&& m) ∧
        t.cfgA = s.cfgA))

/-- The always-on supplies (R482, R491, R492). The main supply’s loss switches the island to a good backup with
ON_BACKUP and counts it; MAIN_OK held for 65,536 slow-clock periods switches back with ON_MAIN; a backup that
fails is reported. -/
def Obligations.SupplyCommands : Prop :=
  (∀ (s : State),
      s.lc.por = false → s.lc.backupOk = true → s.lc.onBackup = false →
      Completes .onBackup s (fun t =>
        t.lc.onBackup = true ∧ t.lc.mainOk = false ∧ Flagged t .lc 0 ∧
        (t.lc.switches = if s.lc.switches = 255 then 255 else s.lc.switches + 1))) ∧
  (∀ (s : State),
      s.lc.por = false → s.lc.backupOk = false ∨ s.lc.onBackup = true →
      Completes .onBackup s (fun t =>
        t.lc = { s.lc with mainOk := false } ∧ t.events = s.events)) ∧
  (∀ (s : State),
      s.lc.onBackup = true → s.lc.mainOk = true → s.lc.mainFrom + 65536 ≤ s.time.slowEdges →
      Completes .onMain s (fun t =>
        t.lc.onBackup = false ∧ Flagged t .lc 1 ∧
        (t.lc.switches = if s.lc.switches = 255 then 255 else s.lc.switches + 1))) ∧
  (∀ (s : State),
      s.lc.backupOk = true →
      Completes .backupFail s (fun t =>
        t.lc.backupOk = false ∧ Flagged t .lc 2)) ∧
  (∀ (s : State) (mainOk backupOk : Bool),
      s.lc.por = false →
      Completes (.supplyOkChange mainOk backupOk) s (fun t =>
        t.lc.mainOk = mainOk ∧ t.lc.backupOk = backupOk ∧
        t.lc.mainFrom = (if mainOk = true ∧ s.lc.mainOk = false then s.time.slowEdges else s.lc.mainFrom) ∧
        (s.lc.backupOk = true → backupOk = false → Flagged t .lc 2)))

/-- Cold reset, power-on reset and its release (R402, R492, R493, R494, R501). A cold reset senses the fuses and
straps and gives every register its reset value; power-on reset does so too, loses the retention RAM and holds
the island until its release, which is a cold reset again. That a memory which a reset leaves open reads 0 is
the model’s choice (log 4), and what the release does log 61. -/
def Obligations.ColdResets : Prop :=
  (∀ (s : State),
      s.lc.por = false →
      Completes .coldReset s (fun t =>
        t.time = {} ∧ t.nowR = [] ∧ t.cfgA = [] ∧ t.cfgW = [] ∧ t.events = [] ∧ t.regions = [] ∧ t.gens = [] ∧
        t.flocks = [] ∧ t.data = [] ∧ t.shep.state = .held ∧ t.lc.fuses = s.lc.fuses ∧
        t.lc.state = s.lc.fuses.state ∧ t.root.s0.table = fusedTable s.lc.fuses 0 ∧
        t.root.s1.table = fusedTable s.lc.fuses 1 ∧ t.root.xtalSel = s.straps.xtalSel ∧ t.power.fabUp = false ∧
        t.lc.bmAddr = s.straps.bmAddr ∧ t.out.waiting = [])) ∧
  (∀ (s : State),
      Completes .powerOnReset s (fun t =>
        t.time = {} ∧ t.nowR = [] ∧ t.cfgA = [] ∧ t.cfgW = [] ∧ t.events = [] ∧ t.regions = [] ∧ t.gens = [] ∧
        t.flocks = [] ∧ t.data = [] ∧ t.shep.state = .held ∧ t.lc.fuses = s.lc.fuses ∧
        t.lc.state = s.lc.fuses.state ∧ t.root.xtalSel = s.straps.xtalSel ∧ t.power.fabUp = false ∧
        t.lc.bmAddr = s.straps.bmAddr ∧ t.out.waiting = [] ∧ t.lc.por = true ∧ t.ret = [])) ∧
  (∀ (s : State),
      s.lc.por = true →
      Completes .powerOnResetRelease s (fun t =>
        t.time = {} ∧ t.nowR = [] ∧ t.cfgA = [] ∧ t.cfgW = [] ∧ t.events = [] ∧ t.regions = [] ∧ t.gens = [] ∧
        t.flocks = [] ∧ t.data = [] ∧ t.shep.state = .held ∧ t.lc.fuses = s.lc.fuses ∧
        t.lc.state = s.lc.fuses.state ∧ t.root.s0.table = fusedTable s.lc.fuses 0 ∧
        t.root.s1.table = fusedTable s.lc.fuses 1 ∧ t.root.xtalSel = s.straps.xtalSel ∧ t.power.fabUp = false ∧
        t.lc.bmAddr = s.straps.bmAddr ∧ t.out.waiting = [] ∧ t.lc.por = false))

/-- Warm reset, the fabric supply, a reset of the control port and the erasure (R402, R492, R493, R494, R496, R507,
R508, R512, R531). A warm reset keeps the island’s blocks, the fuses and the retention RAM and starts the core
with boot cause 3; the loss of the fabric supply clears the fabric domain, and its return ends the isolation; a
reset of the control port drops what it has outstanding; the erasure clears the customer’s data and blows its
fuse. The fabric’s level after a warm reset, as one command, is the model’s reading (logs 59 and 62), that the
window reads 0 after the loss of the fabric supply its choice (log 4). -/
def Obligations.FabricResets : Prop :=
  (∀ (s : State),
      s.lc.por = false → s.power.pgood = true →
      Completes .warmReset s (fun t =>
        t.time = s.time ∧ t.lc = s.lc ∧ t.mus = { s.mus with restarted := t.mus.restarted } ∧ t.ret = s.ret ∧
        t.data = s.data ∧ t.fcst = {} ∧ t.fold = {} ∧ t.crook = {} ∧ t.dmem = [] ∧ t.shep.b0 = s.shep.b0 ∧
        t.shep.b1 = s.shep.b1 ∧ t.power.fabUp = (s.power.meshReady && (s.power.fabUp || !s.lc.erasing)) ∧
        (t.power.fabUp = true → ∀ b, s.shep.active = some b → t.shep.state = .running ∧ t.shep.boot = 3 ∧ t.shep.entry = BitVec.ofNat 32 (imgEntry s b)) ∧
        (t.power.fabUp = false ∨ s.shep.active = none → t.shep.state = .held))) ∧
  (∀ (s : State),
      s.lc.por = false →
      Completes .fabPowerLoss s (fun t =>
        t.time = s.time ∧ t.lc = s.lc ∧ t.mus = s.mus ∧ t.ret = s.ret ∧ t.regions = [] ∧ t.data = [] ∧
        t.fold = {} ∧ t.fcst = {} ∧ t.shep = {} ∧ t.power = { pgood := false, restoreDue := true })) ∧
  (∀ (s : State),
      Completes .fabPowerReturn s (fun t =>
        t.power = { s.power with pgood := true, meshUp := s.power.meshUp || (!s.lc.por && !s.root.bypass) })) ∧
  (∀ (s : State),
      Completes .hcAreset s (fun t =>
        t.out = { s.out with resp := .okay, waiting := dropWithheld s .host } ∧ t.lc = { s.lc with held := [] } ∧
        t.root = { s.root with heldMeas := s.root.heldMeas.filter (fun e => decide (e.1 ≠ .host)) } ∧
        t.crook = { s.crook with held := s.crook.held.filter (fun h => decide (h.1 ≠ .host)) })) ∧
  (∀ (s : State),
      s.lc.erasing = true → s.lc.por = false →
      Completes .eraseDone s (fun t =>
        t.lc.erasing = false ∧ t.lc.fuses.erased = true ∧ (∀ a, a < 0x400080 → memGet t.data a = 0) ∧
        (∀ a, 0x900000 ≤ a → a < 0x906000 → memGet t.data a = 0) ∧ (∀ a, a < 64 → memGet t.ret a = 0) ∧
        t.xing.manifest = []))

/-- Life-cycle requests, fuses and test access (R442, R458, R481, R505, R506, R507, R518). A request whose checks
pass is blown into the fuses and reported with LC_DONE, and one that fails a check is refused with its cause and
LC_REJECT; fuses are programmed in MANUFACTURE only, a key slot and the die identifier once, the trims, the root
band values and the completion fuse as named; the mandatory test instructions and, in PROVISION and FIELD, every
other one change only what the test access port selects. The model’s choices here: how a withheld write is kept
(log 2), a request’s answer (log 57) and its access rights (log 65), the instruction register (log 122), the
port that a denied test instruction names (log 128). A write of LC_CTRL made while an accepted request is being
performed is withheld and follows it. -/
def Obligations.LifeCycleCommands : Prop :=
  (∀ (s : State) (w : Wr) (target : BitVec 2) (tag : BitVec 8),
      Performs w 0xF004 s → tag ≠ s.lc.cmdTag → s.lc.job = none → transitionRej s target = 0 →
      Completes (.lcTransition w target tag) s (fun t =>
        t.lc = { s.lc with job := some (.transition target tag) })) ∧
  (∀ (s : State) (w : Wr) (target : BitVec 2) (tag : BitVec 8),
      Performs w 0xF004 s → tag ≠ s.lc.cmdTag → s.lc.job = none → transitionRej s target ≠ 0 →
      Completes (.lcTransition w target tag) s (fun t =>
        t.lc.rej = BitVec.ofNat 4 (transitionRej s target) ∧ t.lc.cmdTag = tag ∧ t.lc.job = none ∧
        t.lc.state = s.lc.state ∧ Flagged t .lc 6)) ∧
  (∀ (s : State) (w : Wr) (slot : BitVec 2) (tag : BitVec 8),
      Performs w 0xF004 s → tag ≠ s.lc.cmdTag → s.lc.job = none → revokeRej s slot = 0 →
      Completes (.lcRevoke w slot tag) s (fun t =>
        t.lc = { s.lc with job := some (.revoke slot tag) })) ∧
  (∀ (s : State) (w : Wr) (slot : BitVec 2) (tag : BitVec 8),
      Performs w 0xF004 s → tag ≠ s.lc.cmdTag → s.lc.job = none → revokeRej s slot ≠ 0 →
      Completes (.lcRevoke w slot tag) s (fun t =>
        t.lc.rej = BitVec.ofNat 4 (revokeRej s slot) ∧ t.lc.cmdTag = tag ∧ t.lc.job = none ∧ Flagged t .lc 6)) ∧
  (∀ (s : State) (w : Wr) (tag : BitVec 8),
      Performs w 0xF004 s → tag ≠ s.lc.cmdTag → s.lc.job = none →
      Completes (.lcOpRefuse w tag) s (fun t =>
        (t.lc.rej = if s.lc.erasing then 2 else if s.lc.onBackup then 3 else 10) ∧ t.lc.cmdTag = tag ∧
        t.lc.job = none ∧ Flagged t .lc 6)) ∧
  (∀ (s : State) (target : BitVec 2) (tag : BitVec 8),
      s.lc.job = some (.transition target tag) → s.lc.held = [] →
      Completes .lcDone s (fun t =>
        t.lc.state = target ∧ t.lc.fuses.state = target ∧ t.lc.erasing = (s.lc.erasing || decide (target = 3)) ∧
        t.lc.cmdTag = tag ∧ t.lc.rej = 0 ∧ t.lc.job = none ∧ Flagged t .lc 5)) ∧
  (∀ (s : State) (slot : BitVec 2) (tag : BitVec 8),
      s.lc.job = some (.revoke slot tag) → s.lc.held = [] →
      Completes .lcDone s (fun t =>
        t.lc.fuses.keyRevoked.getLsbD slot.toNat = true ∧ t.lc.state = s.lc.state ∧ t.lc.cmdTag = tag ∧
        t.lc.rej = 0 ∧ t.lc.job = none ∧ Flagged t .lc 5)) ∧
  (∀ (s : State) (w : Wr) (target : BitVec 2) (tag : BitVec 8),
      Performs w 0xF004 s → s.lc.job ≠ none →
      Completes (.lcTransition w target tag) s (fun t =>
        t.lc = { s.lc with held := s.lc.held ++ [lcWord 1 target.toNat 0 tag.toNat] } ∧ t.nowR = s.nowR)) ∧
  (∀ (s : State) (tag : BitVec 8) (v : Word),
      s.lc.job = some (.transition 3 tag) → s.lc.held = [v] → fld v 0 2 = 1 → BitVec.ofNat 8 (fld v 8 8) ≠ tag →
      Completes .lcDone s (fun t =>
        t.lc.state = 3 ∧ t.lc.erasing = true ∧ t.lc.rej = 1 ∧ t.lc.cmdTag = BitVec.ofNat 8 (fld v 8 8) ∧
        t.lc.job = none ∧ t.lc.held = [] ∧ Flagged t .lc 5 ∧ Flagged t .lc 6)) ∧
  (∀ (s : State) (slot : BitVec 2) (digest : BitVec 384),
      s.lc.por = false → s.lc.access = 0 → s.lc.fuses.keyProg.getLsbD slot.toNat = false →
      Completes (.testAccess (.programKey slot digest)) s (fun t =>
        t.lc.fuses.keyProg.getLsbD slot.toNat = true ∧ tabGet t.lc.fuses.keys slot.toNat 0 = digest)) ∧
  (∀ (s : State) (slot : BitVec 2) (digest : BitVec 384),
      s.lc.por = false → s.lc.access = 0 → s.lc.fuses.keyProg.getLsbD slot.toNat = true →
      Completes (.testAccess (.programKey slot digest)) s (fun t =>
        t.lc.fuses = s.lc.fuses)) ∧
  (∀ (s : State) (id : BitVec 64),
      s.lc.por = false → s.lc.access = 0 →
      Completes (.testAccess (.programDieId id)) s (fun t =>
        t.lc.fuses = (if s.lc.fuses.dieIdSet then s.lc.fuses else { s.lc.fuses with dieId := id, dieIdSet := true }) ∧
        t.lc.tap.ir = .vendor)) ∧
  (∀ (s : State),
      s.lc.por = false → s.lc.access = 0 →
      Completes (.testAccess .programTrims) s (fun t =>
        t.lc.fuses = { s.lc.fuses with trims := true })) ∧
  (∀ (s : State) (y : Syn) (band : BitVec 4) (entry : BitVec 32),
      s.lc.por = false → s.lc.access = 0 →
      Completes (.testAccess (.programRootBand y band entry)) s (fun t =>
        tabGet t.lc.fuses.rootBand (16 * synIx y + band.toNat) 0 = entry ∧
        (∀ k, k ≠ 16 * synIx y + band.toNat → tabGet t.lc.fuses.rootBand k 0 = tabGet s.lc.fuses.rootBand k 0) ∧
        (synOf t y).table = (synOf s y).table)) ∧
  (∀ (s : State),
      s.lc.por = false → s.lc.access = 0 →
      Completes (.testAccess .blowManufactureComplete) s (fun t =>
        t.lc.fuses = { s.lc.fuses with mfgComplete := true })) ∧
  (∀ (s : State) (op : TestOp),
      s.lc.por = false → s.lc.access = 1 ∨ s.lc.access = 2 → op ≠ .tapReset → op ≠ .bypass → op ≠ .sample →
      op ≠ .preload → op ≠ .extest →
      Completes (.testAccess op) s (fun t =>
        t.lc = { s.lc with tap := { s.lc.tap with code := tapCode op, ir := .bypass } } ∧
        (s.power.fabUp = true → Flagged t .cfg 8) ∧ (s.power.fabUp = false → t.events = s.events ∧ t.cfg = s.cfg))) ∧
  (∀ (s : State) (op : TestOp),
      s.lc.por = false → s.lc.access = 3 → isOtherOp op = false →
      Completes (.testAccess op) s (fun t =>
        t = { s with lc := { s.lc with tap := t.lc.tap }, freeCtr := t.freeCtr })) ∧
  (∀ (s : State) (op : TestOp),
      s.lc.por = false → op = .tapReset ∨ op = .bypass ∨ op = .sample ∨ op = .preload ∨ op = .extest →
      Completes (.testAccess op) s (fun t =>
        t = { s with lc := { s.lc with tap := t.lc.tap }, freeCtr := t.freeCtr } ∧
        (op = .extest → t.lc.tap.ir = .extest) ∧ (op = .sample → t.lc.tap.ir = .sample) ∧
        (op = .preload → t.lc.tap.ir = .preload) ∧
        (op = .tapReset ∨ op = .bypass → t.lc.tap.ir = .bypass ∧ t.lc.tap.code = 0xFF) ∧
        (op = .sample → ∀ p ∈ pads, ∀ b, padLevel s p = some b → t.lc.tap.scan.getD (pads.findIdx (· = p)) false = b) ∧
        (op = .extest → ∀ p ∈ pads, padDrives t p = some (s.lc.tap.scan.getD (pads.findIdx (· = p)) false))))

/-- The front panel and board management’s wire (R514, R515, R523, R524, R525). A press is timed, reported long once
or short at its release; the LED takes its pattern at its quantum; a transaction to another target does nothing,
one with a bad offset is answered with NACK, a write transaction writes its words as the board-management port,
a read answers its words; an SCL timeout releases the wire. -/
def Obligations.PanelCommands : Prop :=
  (∀ (s : State),
      s.lc.pressedAt + 65536 ≤ s.time.slowEdges → s.lc.button = false → s.lc.por = false →
      Completes .buttonPress s (fun t =>
        t.lc = { s.lc with button := true, longPress := false, pressedAt := s.time.slowEdges })) ∧
  (∀ (s : State),
      s.lc.button = true → s.lc.longPress = false → s.lc.pressedAt + longPressLen ≤ s.time.slowEdges →
      Completes .btnLong s (fun t =>
        t.lc.longPress = true ∧ t.lc.button = true ∧ Flagged t .lc 4)) ∧
  (∀ (s : State),
      s.lc.pressedAt + 65536 ≤ s.time.slowEdges → s.lc.button = true → s.lc.longPress = false →
      s.time.slowEdges < s.lc.pressedAt + longPressLen →
      Completes .btnShort s (fun t =>
        t.lc.button = false ∧ t.lc.pressedAt = s.time.slowEdges ∧ Flagged t .lc 3)) ∧
  (∀ (s : State),
      s.lc.pressedAt + 65536 ≤ s.time.slowEdges → s.lc.button = true → s.lc.longPress = true →
      Completes .buttonRelease s (fun t =>
        t.lc.button = false ∧ t.lc.pressedAt = s.time.slowEdges ∧ t.lc.longPress = false ∧ t.events = s.events)) ∧
  (∀ (s : State),
      ledTime s = true → s.lc.ledAt < ledQuantum s →
      Completes .ledChange s (fun t =>
        t.lc.led = ledPattern s (ledQuantum s) ∧ t.lc.ledAt = ledQuantum s ∧ t.lc.flash = s.lc.flash ∧
        (ledPattern s (ledQuantum s) ≠ s.lc.led → t.lc.ledFor = 0))) ∧
  (∀ (s : State) (target : BitVec 7) (off : BitVec 24) (bytes : List (BitVec 8)),
      target = bmTarget s → 2 ^ 20 ≤ off.toNat →
      Completes (.i2cTransaction (.write target off bytes)) s (fun t =>
        t = { s with out := { s.out with i2c := [], nack := true } })) ∧
  (∀ (s : State) (target : BitVec 7) (off : BitVec 24) (a b c d : BitVec 8),
      target = bmTarget s → off.toNat < 2 ^ 20 →
      Completes (.i2cTransaction (.write target off [a, b, c, d])) s (fun t =>
        t = busWrite ⟨.bm, 15, none⟩ off.toNat (wordOfBytes [a, b, c, d]) { s with out := { s.out with i2c := [], nack := false } })) ∧
  (∀ (s : State) (target : BitVec 7) (off : BitVec 24) (words : Nat),
      target = bmTarget s → off.toNat < 2 ^ 20 →
      Completes (.i2cTransaction (.read target off words)) s (fun t =>
        t.out.i2c.length = 4 * words ∧
        (words = 1 → t.out.i2c = leBytes 4 (regRead { s with out := { s.out with i2c := [], nack := false } } .bm off.toNat).toNat) ∧
        t.out.nack = false)) ∧
  (∀ (s : State) (io : I2c),
      i2cTarget io ≠ bmTarget s →
      Completes (.i2cTransaction io) s (fun t =>
        t = s)) ∧
  (∀ (s : State),
      Completes .sclTimeout s (fun t =>
        t = { s with out := { s.out with i2c := [], nack := false } }))

/-- Tick edges, bypass edges, the slow-clock edge and issued edges (R15, R35, R36, R56, R60, R76, R115, R116, R164,
R171, R195, R442). A tick edge adds 1 to the counter, a bypass edge 5 but never below its floor, and neither
without a clock; the tick edge on a bypass edge that finds BYPASS_FORCE 1 enters bypass; an edge of a crystal
that is not yet good counts toward its qualification; the slow clock steps each 40 ticks, and its edge performs
a waiting write, but for one behind a withheld write of its port; a region’s lag is its pace line less what it
has issued; an issued edge counts in its region and as a beat of its crossings, and one that a constraint
withholds does nothing. The model’s choices here: what a bypass edge that finds BYPASS_FORCE 1 does with LATE
edges (log 55), the DCO instant of an issued edge (log 70), the resolution of the lag (log 69). -/
def Obligations.ClockEdges : Prop :=
  (∀ (s : State) (bypassEdge : Bool) (phases : List (Nat × Nat)),
      s.lc.por = false → s.time.held = false → s.root.bypass = false → bypassEdge = false → s.crook.held = none →
      s.out.waiting = [] → s.out.captures = [] → s.mus.todLoad = none → s.mus.joinTicks = none →
      Completes (.tickEdge bypassEdge phases) s (fun t =>
        t.time.counter = (s.time.counter + 1) % 2 ^ 64 ∧
        t.time.total = s.time.total + (s.time.counter + 1 - s.time.counter) ∧
        t.time.slow = (s.time.slow + 1) % 40 ∧ t.time.slowEdges = s.time.slowEdges + (s.time.slow + 1) / 40 ∧
        (s.root.missing = false → (synOf s s.root.active).locked = true → (s.time.slow + 1) % 5 = 0 → t.root.recV = t.time.counter) ∧
        (∀ r < s.build.regions, inContract s r = true → (regionOf s r).parked = false → (regionOf t r).lag16 = paceAt t r 0 / 2 ^ 28 - (16 * (regionOf s r).c + ((phases.find? (fun p => p.1 = r)).map (fun p => min p.2 15)).getD 0)) ∧
        (∀ r < s.build.regions, inContract s r = true → (regionOf s r).parked = true → (regionOf t r).lag16 = 0))) ∧
  (∀ (s : State) (bypassEdge : Bool) (phases : List (Nat × Nat)),
      s.lc.por = false → s.time.held = false → s.root.bypass = false → bypassEdge = false →
      bypassForce s = true → s.root.missing = false → (s.time.slow + 1) % 5 = 0 → s.out.waiting = [] →
      s.out.captures = [] → s.mus.todLoad = none → s.mus.joinTicks = none →
      Completes (.tickEdge bypassEdge phases) s (fun t =>
        t.root.bypass = true ∧ t.time.counter = (s.time.counter + 1) % 2 ^ 64 ∧ t.root.bypTarget = t.time.counter ∧
        Flagged t .root 3)) ∧
  (∀ (s : State) (bypassEdge : Bool) (phases : List (Nat × Nat)),
      s.lc.por = false → s.time.held = false → s.root.bypass = true → bypassEdge = true →
      s.root.missing = false → s.root.refOk = true → s.out.waiting = [] → s.out.captures = [] →
      s.mus.todLoad = none → s.mus.joinTicks = none →
      Completes (.tickEdge bypassEdge phases) s (fun t =>
        t.time.counter = max s.time.counter (s.root.bypTarget + 5) % 2 ^ 64 ∧
        t.root.bypTarget = s.root.bypTarget + 5 ∧
        t.time.slow = (s.time.slow + (5 - s.time.slow % 5 + 5 * s.root.lateEdges)) % 40 ∧ t.root.lateEdges = 0 ∧
        t.time.total = s.time.total + (max s.time.counter (s.root.bypTarget + 5) - s.time.counter))) ∧
  (∀ (s : State) (bypassEdge : Bool) (phases : List (Nat × Nat)),
      s.lc.por = false → bypassEdge = true → s.root.refOk = false →
      s.root.bypass = true ∨ s.root.refLost = true → s.out.waiting = [] →
      Completes (.tickEdge bypassEdge phases) s (fun t =>
        t.root.goodEdges = min 65536 (s.root.goodEdges + 1) ∧ t.time.counter = s.time.counter ∧
        t.time.total = s.time.total ∧
        t.time.slow = (if s.root.refLost = true then s.time.slow else (s.time.slow + 5) % 40))) ∧
  (∀ (s : State) (bypassEdge : Bool) (phases : List (Nat × Nat)),
      s.lc.por = true ∨ ((bypassEdge = false ∨ s.root.refOk = true ∨ (s.root.bypass = false ∧ s.root.refLost = false)) ∧ (s.time.held = true ∨ bypassEdge ≠ s.root.bypass ∨ (s.root.bypass = true ∧ s.root.missing = true))) →
      Completes (.tickEdge bypassEdge phases) s (fun t =>
        t = s)) ∧
  (∀ (s : State) (bypassEdge : Bool) (phases : List (Nat × Nat)) (w : Wr) (a : Nat) (v m d : Word),
      s.lc.por = false → s.time.held = false → s.root.bypass = false → bypassEdge = false → 39 ≤ s.time.slow →
      s.out.waiting = [⟨w, a, v, []⟩] → (stalledPorts s).contains w.port = false → w.strb = 15 →
      writeDenied s w.port a = false → a < 0x15000 → a ≠ 0x2034 → edgeBound a = false → s.out.captures = [] →
      actingWrite s w a v = none → eventBlock a = none → bellReg s.build a = none →
      nowReg s.build s.root.xtalSel.toNat a = some (m, d) →
      Completes (.tickEdge bypassEdge phases) s (fun t =>
        nowGet t a = v &&& m ∧ t.out.waiting = [])) ∧
  (∀ (s : State) (bypassEdge : Bool) (phases : List (Nat × Nat)) (w : Wr) (a : Nat) (v : Word),
      s.lc.por = false → s.time.held = false → s.root.bypass = false → bypassEdge = false → 39 ≤ s.time.slow →
      s.out.waiting = [⟨w, a, v, []⟩] → (stalledPorts s).contains w.port = true → s.out.captures = [] →
      s.mus.todLoad = none → s.mus.joinTicks = none →
      Completes (.tickEdge bypassEdge phases) s (fun t =>
        t.out.waiting = [⟨w, a, v, []⟩] ∧ t.time.slowEdges = s.time.slowEdges + (s.time.slow + 1) / 40)) ∧
  (∀ (s : State) (r : Nat) (dcoAt : Int) (at16 : Nat) (act : BitVec 4),
      isRegion s r = true → mayIssue s r dcoAt at16 = true →
      Completes (.issuedEdge r dcoAt at16 act) s (fun t =>
        (regionOf t r).c = (regionOf s r).c + 1 ∧ (regionOf t r).lastEdge = 65536 * s.time.total + at16 ∧
        (regionOf t r).owed = (regionOf s r).owed.filter (fun o => !reaches s r dcoAt o) ∧
        (regionOf t r).preN = (regionOf s r).preN - 1 ∧
        (regionOf t r).strEighths = bump (regionOf s r).strEighths (wsStretch s r dcoAt) ∧
        (∀ x, (xingOf s x).enabled = true → xingOf t x = xingEdge s r at16 x (xingOf s x)))) ∧
  (∀ (s : State) (r : Nat) (dcoAt : Int) (at16 : Nat) (act : BitVec 4),
      isRegion s r = true → mayIssue s r dcoAt at16 = false →
      Completes (.issuedEdge r dcoAt at16 act) s (fun t =>
        t = s))

/-- Every step keeps the byte memories in canonical form (R401, R485, R497). From any state whose data-port window,
retention RAM and core data memory are in canonical form (addresses strictly rising, no entry equal to the
default byte), every step gives such a state. -/
def Obligations.MemoryFormKept : Prop :=
  ∀ s t : State, MemOk s → step s = .next t → MemOk t

/-- Fuses only blow, and the life cycle only moves onward (R404, R442, R480, R505, R506, R507, R508). Across every
step a programmed key digest, a revocation, the die identifier, the trims and the completion fuses stay once
programmed, and the digest of a programmed key and the identifier keep their value. Where the state in force is
the fused one and the accepted transition leads onward, every step keeps that, and the fused state never goes
back: MANUFACTURE, PROVISION, FIELD, RETURN. -/
def Obligations.FusesAndLifeCycleAdvance : Prop :=
  (∀ s t : State, step s = .next t → FusesGrow s.lc.fuses t.lc.fuses) ∧
  (∀ s t : State, LifeCycleOk s → step s = .next t → LifeCycleOk t ∧ s.lc.fuses.state.toNat ≤ t.lc.fuses.state.toNat)

/-- No command touches the queue, the build, the straps or the hookups (R24, R34, R521). Whatever command runs, the
queue behind it, the build parameters, the strap inputs and the licensee’s hookups stay as they are. -/
def Obligations.QueueAndBuildUntouched : Prop :=
  ∀ (c : Instr) (s t : State), exec c s = .next t →
    t.pending = s.pending ∧ t.build = s.build ∧ t.straps = s.straps ∧ t.hook = s.hook

/-- The data port while the fabric domain is in reset (R513). While the fabric domain is in reset the data port
answers every write beat with SLVERR and writes nothing, and every byte reads 0. -/
def Obligations.DataPortDown : Prop :=
  ∀ (c : Instr) (b : Beat) (s : State), portBeat c = some b → s.power.fabUp = false →
    exec c s = .next { s with out := { s.out with beats := [.slverr] } } ∧ ∀ a, dpRead s a = 0

/-- What the commands of the root, the mesh and the folds leave unchanged (R33, R51, R77, R80, R107, R124). A
command of the root, the mesh and the folds that answers a next state changes nothing outside its footprint:
every register file, every block’s state, every memory and every event bit that the footprint does not list is
as before. -/
def Obligations.FrameRootAndFold : Prop :=
  ∀ (c : Instr) (s t : State), familyOf c ∈ [Family.root, Family.mesh, Family.fold] → c.wellFormed = true → exec c s = .next t →
    SameBut (footprint c) s t

/-- What the commands of the regional generators, the crossings and the forecast leave unchanged (R151, R169, R190,
R222, R237). A command of the regional generators, the crossings and the forecast that answers a next state
changes nothing outside its footprint: every register file, every block’s state, every memory and every event
bit that the footprint does not list is as before. -/
def Obligations.FrameRegionsAndForecast : Prop :=
  ∀ (c : Instr) (s t : State), familyOf c ∈ [Family.rcg, Family.xing, Family.fcst] → c.wellFormed = true → exec c s = .next t →
    SameBut (footprint c) s t

/-- What the commands of the zones, the flocks, Tally and calibration leave unchanged (R255, R276, R297, R310,
R339). A command of the zones, the flocks, Tally and calibration that answers a next state changes nothing
outside its footprint: every register file, every block’s state, every memory and every event bit that the
footprint does not list is as before. -/
def Obligations.FrameFlocksAndCalibration : Prop :=
  ∀ (c : Instr) (s t : State), familyOf c ∈ [Family.zone, Family.flock, Family.tally, Family.cal] → c.wellFormed = true → exec c s = .next t →
    SameBut (footprint c) s t

/-- What the commands of muster, the core and the mailboxes leave unchanged (R366, R400, R417, R422). A command of
muster, the core and the mailboxes that answers a next state changes nothing outside its footprint: every
register file, every block’s state, every memory and every event bit that the footprint does not list is as
before. -/
def Obligations.FrameMusterAndCore : Prop :=
  ∀ (c : Instr) (s t : State), familyOf c ∈ [Family.muster, Family.core, Family.mailbox] → c.wellFormed = true → exec c s = .next t →
    SameBut (footprint c) s t

/-- What the commands of the register bus, power, the panel and the ticks leave unchanged (R440, R450, R491, R493,
R523). A command of the register bus, power, the panel and the ticks that answers a next state changes nothing
outside its footprint: every register file, every block’s state, every memory and every event bit that the
footprint does not list is as before. -/
def Obligations.FrameBusAndPower : Prop :=
  ∀ (c : Instr) (s t : State), familyOf c ∈ [Family.bus, Family.power, Family.tick] → c.wellFormed = true → exec c s = .next t →
    SameBut (footprint c) s t

/-- Commands about one unit leave its fellows alone (R54, R120, R122, R154, R169, R196, R197, R285, R293, R298,
R344, R417). The events and writes that concern one region, crossing, flock, mailbox, generator row or
synthesizer leave the record of every other one as it is. -/
def Obligations.UnitFrames : Prop :=
  (∀ (c : Instr) (r k : Nat) (s t : State), ownRegion c = some r → exec c s = .next t → k ≠ r → regionOf t k = regionOf s k) ∧
  (∀ (w : Wr) (region : BitVec 13) (tag : BitVec 8) (k : Nat) (s t : State), k ≠ region.toNat →
    exec (.forceHoldRegion w region tag) s = .next t ∨ exec (.releaseRegion w region tag) s = .next t →
    regionOf t k = regionOf s k) ∧
  (∀ (c : Instr) (x k : Nat) (s t : State), ownXing c = some x → exec c s = .next t → k ≠ x → xingOf t k = xingOf s k) ∧
  (∀ (c : Instr) (f k : Nat) (s t : State), ownFlock c = some f → exec c s = .next t → k ≠ f → flockOf t k = flockOf s k) ∧
  (∀ (w : Wr) (m : BitVec 2) (k : Nat) (s t : State), k < 3 → k ≠ m.toNat →
    exec (.mbxGo w m) s = .next t ∨ exec (.mbxWithdraw w m) s = .next t → mbox t k = mbox s k) ∧
  (∀ (b : Beat) (k : Nat) (s t : State), exec (.bandRowWrite b) s = .next t → winOf (aligned b).addr.toNat = .band →
    k ≠ ((aligned b).addr.toNat - 0x800000) / 128 → genOf t k = genOf s k) ∧
  (∀ (y : Syn) (s t : State), exec (.lockAcquired y) s = .next t → synOf t (otherSyn y) = synOf s (otherSyn y))

/-- Which bytes a command may change (R72, R154, R156, R203, R234, R294, R412, R427, R487, R497, R498). A write beat
changes at most the bytes of its own 32 whose strobe is set; a band measurement and a RETEST change at most the
rows measured; a write of ROOT_BTAB_DATA changes only its entry of the retained table; CFG_COMMIT leaves the
root tables and the slot committed before as they are; the muster and the background jobs change only firmware’s
own records in the retention RAM, the start of XCAL at most the pin table, and a change of the forecast mode at
most the header of bank 1, and that only on a return to banked mode. -/
def Obligations.MemoryFrames : Prop :=
  (∀ (c : Instr) (b : Beat) (s t : State) (a : Nat), portBeat c = some b → exec c s = .next t →
    (∀ k, k < 32 → a = (aligned b).addr.toNat + k → b.strb.toNat.testBit k = false) → memGet t.data a = memGet s.data a) ∧
  (∀ (counts : List (Nat × List (Nat × Nat))) (s t : State) (a : Nat), exec (.rcgBmeasDone counts) s = .next t →
    (∀ g ∈ s.bmRows, a < rowAddr g ∨ rowAddr g + 96 ≤ a) → memGet t.data a = memGet s.data a) ∧
  (∀ (f : Nat) (counts : List (Nat × Nat)) (run : RetestRun) (s t : State) (a : Nat),
    exec (.retestDone f counts run) s = .next t →
    (∀ code g, (flockOf s f).retest = some code → genRow s.build f code = some g → a < rowAddr g ∨ rowAddr g + 96 ≤ a) →
    memGet t.data a = memGet s.data a) ∧
  (∀ (w : Wr) (v : Word) (s t : State) (a : Nat), exec (.rootBtabWrite w v) s = .next t →
    (let e := 0x40 + 64 * synIx (synNum (fld (nowGet s (portKey w.port 0x201C)) 4 1)) +
        4 * fld (nowGet s (portKey w.port 0x201C)) 0 4
     a < e ∨ e + 4 ≤ a) → memGet t.ret a = memGet s.ret a) ∧
  (∀ (s t : State) (a : Nat), exec .cfgCommit s = .next t → (64 ≤ a ∧ a < 0x400) ∨
    (dirSlot s.ret ≠ 0 ∧ slotBase (dirSlot s.ret) ≤ a ∧ a < slotBase (dirSlot s.ret) + slotLen) →
    memGet t.ret a = memGet s.ret a) ∧
  (∀ (s t : State) (a : Nat), a < 0x3400 ∨ 0x3404 ≤ a → exec .muApply s = .next t → memGet t.ret a = memGet s.ret a) ∧
  (∀ (s t : State) (a : Nat), a < 0x3404 ∨ 0x3408 ≤ a → exec .ageTransfer s = .next t → memGet t.ret a = memGet s.ret a) ∧
  (∀ (rows : List Nat) (s t : State) (a : Nat), a < 0x3408 ∨ 0x340C ≤ a →
    exec .rowVerify s = .next t ∨ exec (.rowVerifyJobEnd rows) s = .next t → memGet t.ret a = memGet s.ret a) ∧
  (∀ (tx : List (Nat × List Nat)) (s t : State) (a : Nat), a < 0x340C ∨ 0x3410 ≤ a →
    exec .xcal s = .next t ∨ exec (.calDone tx) s = .next t → memGet t.ret a = memGet s.ret a) ∧
  (∀ (s t : State) (a : Nat), a < 0x900000 ∨ 0x906000 ≤ a → exec .xcal s = .next t → memGet t.data a = memGet s.data a) ∧
  (∀ (w : Wr) (v : Word) (s t : State) (a : Nat), a < 0x400040 ∨ 0x400080 ≤ a ∨ bitAt v 0 = true → exec (.fcstModeWrite w v) s = .next t →
    memGet t.data a = memGet s.data a)

/-- A register write changes no other register (R13, R271, R442, R452, R453, R464). A command that writes a register
leaves every other plain register, every other port’s instance, and every other bell-class register’s written
value as it is; no write changes what is applied. RCG_CFG and ZONE_BTAB_DATA reach the entry that the writing
port’s select register names. -/
def Obligations.RegisterWriteFrame : Prop :=
  ∀ (c : Instr) (w : Wr) (a : Nat) (s t : State), regTarget c = some (w, a) → exec c s = .next t →
    t.cfgA = s.cfgA ∧ (∀ k, k ≠ a → k ≠ portKey w.port a → nowGet t k = nowGet s k) ∧
    (∀ k, k ≠ a → (a = 0x400C → k ≠ keyRcg (selRegion s w.port)) →
      (a = 0x7008 → btabKey (btabSel s w.port) ≠ some k) → bellW t k = bellW s k)

/-- One port’s request never disturbs another port’s snapshots (R447, R460, R464). A register write of one port
leaves every other port’s snapshots (VALID, TAG, index and words), latched fold log entry and VIEW as they are. -/
def Obligations.OtherPortsUndisturbed : Prop :=
  ∀ (c : Instr) (w : Wr) (a : Nat) (s t : State) (p : Port), regTarget c = some (w, a) → exec c s = .next t → p ≠ w.port →
    (∀ set, snapOf t set p = snapOf s set p) ∧ tabGet t.logs (portIx p) {} = tabGet s.logs (portIx p) {} ∧
    viewOf t p = viewOf s p

/-- Bell-class values change only at a bell (R13, R14, R450, R452, R500). Only a bell, an application before the
first bell, the fabric’s leaving reset with its restore, and the resets change what is applied; a bell changes
only the keys with a pending write or one written in its tick. -/
def Obligations.AppliedOnlyAtBells : Prop :=
  (∀ (c : Instr) (s t : State), appliesBellClass c = false → exec c s = .next t → t.cfgA = s.cfgA) ∧
  (∀ (s t : State) (k : Nat), exec .bell s = .next t → k ∉ s.cfg.pend → (∀ e ∈ s.cfg.fresh, e.key ≠ k) → bellA t k = bellA s k)

/-- What reads return (R12, R15, R441, R452, R458, R460, R476, R512, R515). After a bell-class write that is
performed the port reads the value written, in its implemented bits, or with VIEW the applied value; a plain
register reads its last written word in its implemented bits, at once, whether its write is performed or still
waits for its slow-clock edge, and its stored word where none waits; FLOCK_GEN_CTRL’s address reads
FLOCK_GEN_STAT; an address of a block in reset, and a denied address, read 0; reading words over board
management changes only the answer, but for the record of a denied read. -/
def Obligations.ReadBack : Prop :=
  (∀ (s : State) (w : Wr) (addr : BitVec 20) (v m d : Word), s.build.valid = true → Performs w (addr.toNat - addr.toNat % 4) s → (addr.toNat - addr.toNat % 4) < 0x15000 →
    actingWrite s w (addr.toNat - addr.toNat % 4) v = none → eventBlock (addr.toNat - addr.toNat % 4) = none → bellReg s.build (addr.toNat - addr.toNat % 4) = some (m, d) →
    Completes (.regWrite w addr v) s (fun t =>
      regRead t w.port addr.toNat = (if viewOf s w.port then bellA s (addr.toNat - addr.toNat % 4) else v &&& m))) ∧
  (∀ (s : State) (w : Wr) (addr : BitVec 20) (v m d : Word), s.build.valid = true → s.out.captures = [] → Performs w (addr.toNat - addr.toNat % 4) s →
    (addr.toNat - addr.toNat % 4) < 0x15000 → actingWrite s w (addr.toNat - addr.toNat % 4) v = none → eventBlock (addr.toNat - addr.toNat % 4) = none → bellReg s.build (addr.toNat - addr.toNat % 4) = none →
    nowReg s.build s.root.xtalSel.toNat (addr.toNat - addr.toNat % 4) = some (m, d) →
    Completes (.regWrite w addr v) s (fun t => regRead t w.port addr.toNat = v &&& m ∧ nowGet t (addr.toNat - addr.toNat % 4) = v &&& m)) ∧
  (∀ (s : State) (w : Wr) (addr : BitVec 20) (v m d : Word), s.build.valid = true → reachable s (addr.toNat - addr.toNat % 4) = true → portStalls s w.port = false →
    w.strb = 15 → writeDenied s w.port (addr.toNat - addr.toNat % 4) = false → loses w = false → takenNow s w (addr.toNat - addr.toNat % 4) = false →
    (addr.toNat - addr.toNat % 4) < 0x15000 → actingWrite s w (addr.toNat - addr.toNat % 4) v = none → eventBlock (addr.toNat - addr.toNat % 4) = none → bellReg s.build (addr.toNat - addr.toNat % 4) = none →
    nowReg s.build s.root.xtalSel.toNat (addr.toNat - addr.toNat % 4) = some (m, d) →
    Completes (.regWrite w addr v) s (fun t => regRead t w.port addr.toNat = v &&& m ∧ nowGet t (addr.toNat - addr.toNat % 4) = nowGet s (addr.toNat - addr.toNat % 4))) ∧
  (∀ (s : State) (p : Port) (a : Nat) (m d : Word), s.build.valid = true → reachable s a = true → a < 0x15000 → a % 4 = 0 →
    actingWrite s ⟨p, 15, none⟩ a 0 = none → eventBlock a = none → bellReg s.build a = none →
    nowReg s.build s.root.xtalSel.toNat a = some (m, d) → s.out.waiting = [] → s.out.captures = [] → regRead s p a = nowGet s a) ∧
  (∀ (s : State) (p : Port) (f : Nat), s.power.fabUp = true → s.lc.por = false → f < s.build.flocks → f < 320 →
    regRead s p (flockAddr f 0x2C) =
      packWord [(0, 2, (flockOf s f).genStatus.toNat), (8, 8, (flockOf s f).genTag.toNat)]) ∧
  (∀ (s : State) (p : Port) (a : Nat), reachable s (a - a % 4) = false ∨ vendorClosed s (a - a % 4) = true → regRead s p a = 0) ∧
  (∀ (s t : State) (target : BitVec 7) (off : BitVec 24) (n : Nat), exec (.i2cTransaction (.read target off n)) s = .next t →
    SameBut ([.answers, .check] ++ evs .cfg [8]) s t ∧ ((s.lc.access = 0 ∨ s.lc.access = 3) → SameBut [.answers] s t))

/-- How an event register counts, and a block’s interrupt (R439, R444, R446, R479). SEQ rises by 1, modulo 256, when
an event bit goes from 0 to 1, so by 2 for two bits; an event that recurs changes neither the bit nor SEQ; the
companion register is updated at every occurrence; no other block’s register changes. A block’s interrupt is
asserted at a port exactly while some event bit is set whose IRQ_EN bit is 1 (for the mailboxes, of the events
that reach that port), it depends on nothing else of the state, and events are recorded whatever IRQ_EN holds;
CFG_IRQ_SUM shows it. -/
def Obligations.EventsAndInterrupts : Prop :=
  (∀ (s : State) (b : Block) (k : Nat), k < 24 → (eventOf s b).bits.getLsbD k = false →
    (eventOf (raise b k s) b).seq = (eventOf s b).seq + 1 ∧
    ∀ j, (eventOf (raise b k s) b).bits.getLsbD j = ((eventOf s b).bits.getLsbD j || decide (j = k))) ∧
  (∀ (s : State) (b : Block) (j k : Nat), j < 24 → k < 24 → j ≠ k → (eventOf s b).bits.getLsbD j = false →
    (eventOf s b).bits.getLsbD k = false → (eventOf (raise b k (raise b j s)) b).seq = (eventOf s b).seq + 2) ∧
  (∀ (s : State) (b : Block) (k : Nat), (eventOf s b).bits.getLsbD k = true → eventOf (raise b k s) b = eventOf s b) ∧
  (∀ (s : State) (b : Block) (k x : Nat), (eventOf (raiseAbout b k x s) b).about = x ∧
    (eventOf (raiseAbout b k x s) b).bits = (eventOf (raise b k s) b).bits ∧
    (eventOf (raiseAbout b k x s) b).seq = (eventOf (raise b k s) b).seq) ∧
  (∀ (s : State) (a b : Block) (k x : Nat), a ≠ b →
    eventOf (raise b k s) a = eventOf s a ∧ eventOf (raiseAbout b k x s) a = eventOf s a) ∧
  (∀ (s : State) (p : Port) (b : Block), blockIrq s p b = true ↔
    ∃ k, k < 24 ∧ (eventOf s b).bits.getLsbD k = true ∧ (nowGet s (irqEnAddr b)).getLsbD k = true ∧
      (b = .mbx → (mbxMask p).testBit k = true)) ∧
  (∀ (s : State) (b : Block) (k : Nat), k < 24 → Flagged (raise b k s) b k) ∧
  (∀ (s : State) (p : Port) (b : Block), (irqSum s p).getLsbD (blockIx b) = blockIrq s p b)

/-- Read-only words that report units (R12, R31, R301, R308, R316, R336, R440). CFG_PARAM1 reads the crossing, tier
and logic-region parameters; FLOCK_MUX reads every slot’s selection; FLOCK_SVCw reads the service request of
flocks 32 × w to 32 × w + 31; TALLY_CALu reads the two raw results; each reads its stated reset value after
reset, and a write of it changes nothing but the answer and the records of a write that is not performed. -/
def Obligations.StatusWords : Prop :=
  (∀ (s : State) (p : Port), s.build.valid = true →
    fld (readBlock s p 0x8) 0 15 = s.build.xings ∧ fld (readBlock s p 0x8) 15 3 = s.build.tiers ∧
    fld (readBlock s p 0x8) 18 13 = s.build.logic) ∧
  (∀ (s : State) (p : Port) (f k : Nat), f < s.build.flocks → f < 320 → k < 16 →
    fld (readBlock s p (flockAddr f 0x14)) (2 * k) 2 = (regionOf s (16 * f + k)).mux.toNat) ∧
  (∀ (s : State) (p : Port) (q b : Nat), q < 10 → b < 32 → 32 * q + b < s.build.flocks →
    bitAt (readBlock s p (0x8010 + 4 * q)) b = (flockOf s (32 * q + b)).svc) ∧
  (∀ (s : State) (p : Port) (u : Nat), u < 4 →
    fld (readBlock s p (tallyAddr u 0x38)) 0 16 = (tallyUnit s u).r1.toNat ∧
    fld (readBlock s p (tallyAddr u 0x38)) 16 16 = (tallyUnit s u).r2.toNat) ∧
  (∀ (p : Port) (f u q : Nat), f < 320 → u < 4 → q < 10 → readBlock State.reset p (flockAddr f 0x14) = 0 ∧
    readBlock State.reset p (tallyAddr u 0x38) = 0 ∧ readBlock State.reset p (0x8010 + 4 * q) = 0) ∧
  (∀ (s t : State) (w : Wr) (addr : BitVec 20) (v : Word) (f u q : Nat), s.build.valid = true → f < 320 → u < 4 → q < 10 →
    addr.toNat = 0x8 ∨ addr.toNat = flockAddr f 0x14 ∨ addr.toNat = tallyAddr u 0x38 ∨ addr.toNat = 0x8010 + 4 * q →
    exec (.regWrite w addr v) s = .next t → SameBut writeParts s t)

/-- The root band tables and the retention RAM (R498). A performed write of ROOT_BTAB_DATA stands in the selected
table and in the retention RAM at once; a cold reset loads both from the fused factory values; a warm reset
neither resets nor reloads the synthesizers’ tables. -/
def Obligations.RootTableRetention : Prop :=
  (∀ (s : State) (w : Wr) (v : Word), Performs w 0x2020 s →
    Completes (.rootBtabWrite w v) s (fun t =>
      let y := synNum (fld (nowGet s (portKey w.port 0x201C)) 4 1)
      let b := fld (nowGet s (portKey w.port 0x201C)) 0 4
      tabGet (synOf t y).table b 0 = v &&& rootEntryMask ∧ memWord t.ret (0x40 + 64 * synIx y + 4 * b) = v &&& rootEntryMask)) ∧
  (∀ s : State, s.lc.por = false → Completes .coldReset s (fun t => ∀ y b, b < 16 →
    memWord t.ret (0x40 + 64 * synIx y + 4 * b) = tabGet s.lc.fuses.rootBand (16 * synIx y + b) 0 &&& rootEntryMask ∧
    tabGet (synOf t y).table b 0 = tabGet s.lc.fuses.rootBand (16 * synIx y + b) 0 &&& rootEntryMask)) ∧
  (∀ s : State, Completes .warmReset s (fun t => (∀ y, (synOf t y).table = (synOf s y).table) ∧ t.ret = s.ret))

/-- The core through resets, and held until a bank is active (R402). A cold reset clears the data memory, empties
both banks and holds the core; while no bank is active every step leaves the core held; a warm reset keeps both
banks and their states, clears the data memory and restarts the core from the active bank’s entry with boot
cause 3. -/
def Obligations.CoreHeldUntilActive : Prop :=
  (∀ s : State, s.lc.por = false → Completes .coldReset s (fun t => t.shep.state = .held ∧ t.shep.active = none ∧
    t.shep.b0.st = .empty ∧ t.shep.b1.st = .empty ∧ ∀ a, memGet t.dmem a = 0)) ∧
  (∀ s t : State, CoreOk s → step s = .next t → CoreOk t) ∧
  (∀ (s : State) (b : BitVec 1), s.lc.por = false → s.power.pgood = true → s.power.meshReady = true → s.power.fabUp = true →
    s.shep.active = some b → Completes .warmReset s (fun t => t.shep.b0 = s.shep.b0 ∧ t.shep.b1 = s.shep.b1 ∧
      (∀ a, memGet t.dmem a = 0) ∧ t.shep.active = some b ∧ t.shep.state = .running ∧
      t.shep.entry = BitVec.ofNat 32 (imgEntry s b) ∧ t.shep.boot = 3))

/-- A cold start completes an interrupted erasure first (R507, R508, R513). A cold start with the RETURN fuse blown
and the erasure-complete fuse not blown sets ERASING and holds the fabric domain; no command but the erasure’s
end lets the domain out of reset; the erasure’s end clears what is erased and goes on to release the domain once
the mesh is ready; until then no port reads what is being erased. What is erased is R507’s list; that it is
erased at its end is the model’s reading (log 63), the wait for the domain log 62. -/
def Obligations.ErasureHolds : Prop :=
  (∀ s : State, s.lc.fuses.state = 3 → s.lc.fuses.erased = false →
    (s.lc.por = false → Completes .coldReset s (fun t => t.lc.erasing = true ∧ t.power.fabUp = false)) ∧
    (s.lc.por = true → Completes .powerOnResetRelease s (fun t => t.lc.erasing = true ∧ t.power.fabUp = false))) ∧
  (∀ (c : Instr) (s t : State), s.lc.erasing = true → s.power.fabUp = false → c ≠ .eraseDone → exec c s = .next t →
    t.power.fabUp = false) ∧
  (∀ s : State, s.lc.erasing = true → s.lc.por = false → s.power.fabUp = false → s.power.meshReady = true → s.power.pgood = true →
    Completes .eraseDone s (fun t => t.power.fabUp = true ∧ t.lc.erasing = false ∧ t.lc.fuses.erased = true ∧
      (∀ a, a < 0x400080 → memGet t.data a = 0) ∧ (∀ a, 0x900000 ≤ a → a < 0x906000 → memGet t.data a = 0) ∧
      (∀ a, imageBase ≤ a → a < imageBase + imageSize → memGet t.data a = 0) ∧
      (∀ a, a < 64 ∨ (0x400 ≤ a ∧ a < 0x3400) → memGet t.ret a = 0))) ∧
  (∀ (s : State) (a : Nat), s.power.fabUp = false → dpRead s a = 0)

/-- The Bellwether counter never decreases once a bell has rung (R76, R77). Once the first bell has occurred, no
command but a cold reset, or the loss or return of both supplies, makes the counter smaller or forgets the first
bell, as long as its 64 bits do not wrap. -/
def Obligations.CounterNeverDecreases : Prop :=
  ∀ (c : Instr) (s t : State), isColdReset c = false → s.time.firstBell = true →
    s.time.counter + 1 < 2 ^ 64 → s.root.bypTarget + 5 < 2 ^ 64 → exec c s = .next t →
    s.time.counter ≤ t.time.counter ∧ t.time.firstBell = true
end

