-- ==== Sys2Proof/Laws/Tab.lean ====
section
/-!
SUPPORT. The laws of the sparse tables and byte memories: a read after a write, a write leaves every other place
alone, and every operation keeps the canonical form; and what marking and sorting the waiting writes keeps (R442).
-/
namespace Sys2Proof.Machine
open Sys2Proof

section
variable {α : Type} [DecidableEq α]

omit [DecidableEq α] in
theorem tabGet_insert (t : Tab α) (k j : Nat) (v d : α) :
    tabGet (tabInsert t k v) j d = if j = k then v else tabGet t j d := by
  induction t with
  | nil => simp only [tabInsert, tabGet, eq_comm]
  | cons e r ih =>
    obtain ⟨i, w⟩ := e
    by_cases h1 : k < i
    · simp only [tabInsert, tabGet, h1, if_true, eq_comm]
    · by_cases h3 : k = i
      · subst h3
        by_cases h2 : j = k
        · simp [tabInsert, tabGet, h2]
        · have h4 : ¬ k = j := fun h => h2 h.symm
          simp [tabInsert, tabGet, h2, h4]
      · by_cases h2 : j = k
        · subst h2
          have h4 : ¬ i = j := fun h => h3 h.symm
          simp [tabInsert, tabGet, h1, h3, h4, ih]
        · simp only [tabInsert, tabGet, h1, h3, if_false, ih, h2]

omit [DecidableEq α] in
theorem tabGet_erase (t : Tab α) (k j : Nat) (d : α) :
    tabGet (t.filter (fun e => decide (e.1 ≠ k))) j d = if j = k then d else tabGet t j d := by
  induction t with
  | nil => simp [tabGet]
  | cons e r ih =>
    obtain ⟨i, w⟩ := e
    by_cases h : i = k <;> by_cases hj : i = j <;> simp_all [tabGet]

/-- Read after write: the value written, and every other record as before. -/
theorem tabGet_set (t : Tab α) (k j : Nat) (v d : α) :
    tabGet (tabSet t k v d) j d = if j = k then v else tabGet t j d := by
  unfold tabSet
  by_cases h : v = d
  · subst h; rw [if_pos rfl, tabGet_erase]
  · rw [if_neg h, tabGet_insert]

@[simp] theorem tabGet_set_same (t : Tab α) (k : Nat) (v d : α) : tabGet (tabSet t k v d) k d = v := by
  simp [tabGet_set]

theorem tabGet_set_other (t : Tab α) {k j : Nat} (v d : α) (h : j ≠ k) : tabGet (tabSet t k v d) j d = tabGet t j d := by
  simp [tabGet_set, h]

/-- Another record read with a default of its own is as before, too. -/
theorem tabGet_set_away (t : Tab α) {k j : Nat} (v d e : α) (h : j ≠ k) : tabGet (tabSet t k v d) j e = tabGet t j e := by
  unfold tabSet
  by_cases hv : v = d
  · rw [if_pos hv, tabGet_erase, if_neg h]
  · rw [if_neg hv, tabGet_insert, if_neg h]

theorem tabGet_filterMap (l : List Nat) (d : α) (f : Nat → α) (k : Nat) :
    tabGet (l.filterMap (fun k => if f k = d then none else some (k, f k))) k d = if k ∈ l then f k else d := by
  induction l with
  | nil => simp [tabGet]
  | cons i r ih =>
    by_cases hk : i = k
    · subst hk
      by_cases h : f i = d <;> simp_all [tabGet]
    · have hk' : ¬ k = i := fun h => hk h.symm
      by_cases h : f i = d <;> simp [tabGet, h, hk, hk', ih]

/-- The records of a tabulated table. -/
theorem tabGet_tabulate (n k : Nat) (d : α) (f : Nat → α) :
    tabGet (tabulate n d f) k d = if k < n then f k else d := by
  unfold tabulate
  rw [tabGet_filterMap]
  simp [List.mem_range]

theorem tabWf_cons {d : Nat → α} {k : Nat} {v : α} {r : Tab α} :
    tabWf d ((k, v) :: r) = true ↔ v ≠ d k ∧ (∀ e ∈ r, k < e.1) ∧ tabWf d r = true := by
  simp [tabWf, and_assoc]

theorem tabWf_filter {d : Nat → α} {t : Tab α} (p : Nat × α → Bool) (h : tabWf d t = true) : tabWf d (t.filter p) = true := by
  induction t with
  | nil => simp [tabWf]
  | cons e r ih =>
    obtain ⟨k, v⟩ := e
    obtain ⟨h1, h2, h3⟩ := tabWf_cons.mp h
    by_cases hp : p (k, v) = true <;> simp only [List.filter_cons, hp, if_true]
    · exact tabWf_cons.mpr ⟨h1, fun e he => h2 e (List.mem_filter.mp he).1, ih h3⟩
    · simpa using ih h3

omit [DecidableEq α] in
theorem tabInsert_keys {t : Tab α} {k : Nat} {v : α} {e : Nat × α} (h : e ∈ tabInsert t k v) : e.1 = k ∨ e ∈ t := by
  induction t with
  | nil => simp_all [tabInsert]
  | cons i r ih =>
    obtain ⟨j, w⟩ := i
    simp only [tabInsert] at h
    split_ifs at h
    · rcases List.mem_cons.mp h with h | h
      · exact Or.inl (by rw [h])
      · exact Or.inr h
    · rcases List.mem_cons.mp h with h | h
      · exact Or.inl (by rw [h])
      · exact Or.inr (List.mem_cons_of_mem _ h)
    · rcases List.mem_cons.mp h with h | h
      · exact Or.inr (by rw [h]; exact List.mem_cons_self)
      · rcases ih h with h | h
        · exact Or.inl h
        · exact Or.inr (List.mem_cons_of_mem _ h)

theorem tabWf_insert {d : Nat → α} {t : Tab α} {k : Nat} {v : α} (h : tabWf d t = true) (hv : v ≠ d k) :
    tabWf d (tabInsert t k v) = true := by
  induction t with
  | nil => simp [tabInsert, tabWf, hv]
  | cons e r ih =>
    obtain ⟨j, w⟩ := e
    obtain ⟨h1, h2, h3⟩ := tabWf_cons.mp h
    simp only [tabInsert]
    split_ifs with h4 h5
    · refine tabWf_cons.mpr ⟨hv, ?_, h⟩
      intro e he
      rcases List.mem_cons.mp he with rfl | he
      · exact h4
      · exact lt_trans h4 (h2 e he)
    · subst h5
      exact tabWf_cons.mpr ⟨hv, h2, h3⟩
    · refine tabWf_cons.mpr ⟨h1, ?_, ih h3⟩
      intro e he
      rcases tabInsert_keys he with he | he
      · omega
      · exact h2 e he

/-- A write keeps the canonical form. -/
theorem tabWf_set {t : Tab α} {k : Nat} {v d : α} (h : tabWf (fun _ => d) t = true) :
    tabWf (fun _ => d) (tabSet t k v d) = true := by
  unfold tabSet
  split_ifs with hv
  · exact tabWf_filter _ h
  · exact tabWf_insert h hv

end

/-! ### Byte memories -/

theorem memGet_set (m : Mem) (a b : Nat) (v : BitVec 8) : memGet (memSet m a v) b = if b = a then v else memGet m b :=
  tabGet_set m a b v 0

theorem memWf_set {m : Mem} {a : Nat} {v : BitVec 8} (h : memWf m = true) : memWf (memSet m a v) = true :=
  tabWf_set h

theorem memWf_write {m : Mem} {a : Nat} {bs : List (BitVec 8)} (h : memWf m = true) : memWf (memWrite m a bs) = true := by
  induction bs generalizing m a with
  | nil => exact h
  | cons b r ih => exact ih (memWf_set h)

theorem memWf_strobe {m : Mem} {a n : Nat} {bs : List (BitVec 8)} (h : memWf m = true) :
    memWf (memStrobe m a n bs) = true := by
  induction bs generalizing m a n with
  | nil => exact h
  | cons b r ih =>
    unfold memStrobe
    split
    · exact ih (memWf_set h)
    · exact ih h

theorem memWf_restore {m : Mem} {bs : List FreshByte} (h : memWf m = true) : memWf (restoreBytes bs m) = true := by
  induction bs generalizing m with
  | nil => exact h
  | cons b r ih => exact ih (memWf_set h)

theorem memWf_storeFresh {s : State} {now a n : Nat} {bs : List (BitVec 8)} (h : memWf s.data = true) :
    memWf (storeFresh now a n bs s).data = true := memWf_strobe h

theorem memWf_clear {m : Mem} {a n : Nat} (h : memWf m = true) : memWf (memClear m a n) = true := tabWf_filter _ h

/-- The bytes written, and every other byte as before. -/
theorem memGet_write (m : Mem) (a b : Nat) (bs : List (BitVec 8)) :
    memGet (memWrite m a bs) b = if a ≤ b ∧ b < a + bs.length then bs.getD (b - a) 0 else memGet m b := by
  induction bs generalizing m a with
  | nil => simp [memWrite]
  | cons v r ih =>
    simp only [memWrite, ih, memGet_set, List.length_cons]
    by_cases h : b = a
    · subst h; simp
    · by_cases h1 : a + 1 ≤ b
      · have h2 : a ≤ b := by omega
        have h3 : b - a = (b - (a + 1)) + 1 := by omega
        simp only [h1, h2, h, true_and, if_false]
        rw [h3]
        have h4 : (b < a + 1 + r.length) ↔ (b < a + (r.length + 1)) := by omega
        simp [h4]
      · have h2 : ¬ a ≤ b := by omega
        simp [h1, h2, h]

/-- The strobed bytes of a beat are written, and every other byte is as before. -/
theorem memGet_strobe (m : Mem) (a b n : Nat) (bs : List (BitVec 8)) :
    memGet (memStrobe m a n bs) b =
      if a ≤ b ∧ b < a + bs.length ∧ n.testBit (b - a) = true then bs.getD (b - a) 0 else memGet m b := by
  induction bs generalizing m a n with
  | nil => simp [memStrobe]; intro h1 h2; omega
  | cons v r ih =>
    simp only [memStrobe, ih, List.length_cons]
    by_cases h : b = a
    · subst h
      have hn : ¬ (b + 1 ≤ b) := by omega
      simp only [hn, false_and, if_false]
      by_cases hn : n % 2 = 1
      · simp [hn, memGet_set, Nat.testBit_zero]
      · simp [hn, Nat.testBit_zero]
    · by_cases h1 : a + 1 ≤ b
      · have h2 : a ≤ b := by omega
        obtain ⟨c, hc⟩ : ∃ c, b - a = c + 1 := ⟨b - (a + 1), by omega⟩
        have hc' : b - (a + 1) = c := by omega
        have h4 : (b < a + 1 + r.length) ↔ (b < a + (r.length + 1)) := by omega
        simp only [h1, h2, true_and, hc, hc', h4, Nat.testBit_succ, List.getD_cons_succ]
        split_ifs <;> simp_all [memGet_set]
      · have h2 : ¬ a ≤ b := by omega
        simp only [h1, h2, false_and, if_false]
        split_ifs <;> simp_all [memGet_set]

/-! ### The waiting writes -/

/-- Marking the waiting writes neither drops nor reorders one (R442, R511). -/
theorem markStalled_fst (busy : Nat → Bool) (held : List Port) (before q : List WaitWr) :
    (markStalled busy held before q).map Prod.fst = q := by
  induction q generalizing held before with
  | nil => rfl
  | cons e r ih => simp [markStalled, ih]

/-- A port stalls behind nothing where no write waits and none of its own is withheld (R442). -/
theorem portStalls_empty {s : State} {p : Port} (hw : s.out.waiting = []) :
    portStalls s p = (stalledPorts s).contains p := by
  simp [portStalls, waitMarks, hw, markStalled]

/-- Each waiting write that is sorted is performed, waits on, or is one of board management's that is dropped (R442). -/
theorem mem_sortWaiting (q r : List WaitWr) (lost : Bool) (e : WaitWr) (h : e ∈ r) :
    e ∈ (sortWaiting q lost r).1 ∨ e ∈ (sortWaiting q lost r).2.1 ∨ outranked q e = true := by
  induction r generalizing lost with
  | nil => simp at h
  | cons d r ih =>
    rcases List.mem_cons.mp h with rfl | h
    · simp only [sortWaiting]
      split
      · simp
      · split <;> simp_all
    · have := ih (lost || (decide (d.w.port = .shep) && (lost || outranked q d))) h
      simp only [sortWaiting]
      split
      · exact this.imp id (Or.imp (List.mem_cons_of_mem _) id)
      · split
        · exact this
        · exact this.imp (List.mem_cons_of_mem _) id

end Sys2Proof.Machine
end

