-- ==== Sys2Proof/Laws/Event.lean ====
section
/-!
SUPPORT. The event registers: what raising and clearing do to them, and that they do nothing else (R444, R445).
-/
namespace Sys2Proof.Machine
open Sys2Proof

theorem blockIx_inj {a b : Block} : blockIx a = blockIx b ↔ a = b := by
  cases a <;> cases b <;> simp [blockIx]

/-- The event register of a block after one was written. -/
theorem eventOf_put (s : State) (a b : Block) (e : EventReg) :
    eventOf { s with events := tabSet s.events (blockIx b) e {} } a = if a = b then e else eventOf s a := by
  simp only [eventOf, tabGet_set, blockIx_inj]

theorem getLsbD_two_pow (k j : Nat) : (BitVec.ofNat 24 (2 ^ k)).getLsbD j = (decide (j < 24) && decide (j = k)) := by
  simp only [BitVec.getLsbD_ofNat, Nat.testBit_two_pow]
  by_cases h : k = j <;> simp [h, eq_comm]

/-- Bit j of a block's event register after bit k of block b was raised. -/
theorem raise_bit (s : State) (a b : Block) (k j : Nat) :
    (eventOf (raise b k s) a).bits.getLsbD j = ((eventOf s a).bits.getLsbD j || (decide (a = b) && decide (j < 24) && decide (j = k))) := by
  simp only [raise, eventOf_put]
  by_cases hab : a = b
  · subst hab
    simp only [if_true, decide_true, Bool.true_and]
    split_ifs with h
    · by_cases hj : j = k
      · subst hj; simp [h]
      · simp [hj]
    · simp only [BitVec.getLsbD_or, getLsbD_two_pow]
  · simp [hab]

/-- An event register of another block is as before. -/
theorem raise_other {s : State} {a b : Block} (k : Nat) (h : a ≠ b) : eventOf (raise b k s) a = eventOf s a := by
  simp only [raise, eventOf_put, if_neg h]

theorem raiseAbout_bit (s : State) (a b : Block) (k x j : Nat) :
    (eventOf (raiseAbout b k x s) a).bits.getLsbD j = ((eventOf s a).bits.getLsbD j || (decide (a = b) && decide (j < 24) && decide (j = k))) := by
  rw [← raise_bit]
  simp only [raiseAbout, eventOf_put]
  by_cases h : a = b
  · subst h; simp
  · simp [h]

theorem raiseAbout_other {s : State} {a b : Block} (k x : Nat) (h : a ≠ b) : eventOf (raiseAbout b k x s) a = eventOf s a := by
  simp only [raiseAbout, eventOf_put, if_neg h, raise_other k h]

/-- Lowering an event bit leaves every other bit. -/
theorem lower_bit (s : State) {a b : Block} {k j : Nat} (h : a ≠ b ∨ j ≠ k) :
    (eventOf (lower b k s) a).bits.getLsbD j = (eventOf s a).bits.getLsbD j := by
  simp only [lower, eventOf_put]
  by_cases hab : a = b
  · subst hab
    have hj : j ≠ k := h.resolve_left (by simp)
    simp only [if_true]
    split_ifs with hk
    · simp only [BitVec.getLsbD_and, BitVec.getLsbD_not, getLsbD_two_pow, hj, decide_false, Bool.and_false, Bool.not_false,
        Bool.and_true]
      by_cases hl : j < 24
      · simp [hl]
      · simp [BitVec.getLsbD_of_ge _ _ (by omega : 24 ≤ j)]
    · rfl
  · simp [hab]

/-- Lowering a bit of another block's event register. -/
theorem lower_other {s : State} {a b : Block} (k : Nat) (h : a ≠ b) : eventOf (lower b k s) a = eventOf s a := by
  simp only [lower, eventOf_put, if_neg h]

/-- A raised event stands. -/
theorem flagged_raise (s : State) (b : Block) {k : Nat} (h : k < 24) : Flagged (raise b k s) b k := by
  simp [Flagged, raise_bit, h]

theorem flagged_raiseAbout (s : State) (b : Block) {k : Nat} (x : Nat) (h : k < 24) : Flagged (raiseAbout b k x s) b k := by
  simp [Flagged, raiseAbout_bit, h]

/-- An event that stands is not lost by raising another. -/
theorem flagged_raise_of {s : State} {a b : Block} {j : Nat} (k : Nat) (h : Flagged s a j) : Flagged (raise b k s) a j := by
  simp only [Flagged] at *; simp [raise_bit, h]

theorem flagged_raiseAbout_of {s : State} {a b : Block} {j : Nat} (k x : Nat) (h : Flagged s a j) :
    Flagged (raiseAbout b k x s) a j := by
  simp only [Flagged] at *; simp [raiseAbout_bit, h]

/-- Raising an event writes the event registers alone. -/
theorem raise_eq (b : Block) (k : Nat) (s : State) : raise b k s = { s with events := (raise b k s).events } := rfl

theorem raiseAbout_eq (b : Block) (k x : Nat) (s : State) :
    raiseAbout b k x s = { s with events := (raiseAbout b k x s).events } := rfl

theorem raiseIf_eq (c : Bool) (b : Block) (k : Nat) (s : State) :
    raiseIf c b k s = { s with events := (raiseIf c b k s).events } := by
  unfold raiseIf; split <;> rfl

theorem clearEvents_eq (b : Block) (v : Word) (s : State) :
    clearEvents b v s = { s with events := (clearEvents b v s).events } := by
  unfold clearEvents; simp only; split <;> rfl

end Sys2Proof.Machine
end

