-- ==== Sys2Proof/Laws/Frame.lean ====
section
/-!
SUPPORT. What the shared operations leave of the state: `SameBut l s` does not see an operation whose parts lie
in `l`.  Each lemma says, for one operation and once for all, every part that it may change.
-/
namespace Sys2Proof.Machine
open Sys2Proof

theorem samePart_refl (p : Part) (s : State) : samePart p s s := by
  cases p <;> simp [samePart]

theorem samePart_trans {p : Part} {s t u : State} (h : samePart p s t) (g : samePart p t u) : samePart p s u := by
  cases p <;> simp only [samePart] at * <;> first | exact g.trans h | simp_all

theorem samePart_symm {p : Part} {s t : State} (h : samePart p s t) : samePart p t s := by
  cases p <;> simp only [samePart] at * <;> first | exact h.symm | simp_all

theorem SameBut.rfl {l : List Part} {s : State} : SameBut l s s := fun p _ => samePart_refl p s

theorem SameBut.trans {l : List Part} {s t u : State} (h : SameBut l s t) (g : SameBut l t u) : SameBut l s u :=
  fun p hp => samePart_trans (h p hp) (g p hp)

/-- A longer list of parts asks for less. -/
theorem SameBut.mono {l m : List Part} {s t : State} (h : SameBut l s t) (hm : l ⊆ m) : SameBut m s t :=
  fun p hp => h p (fun hl => hp (hm hl))

/-- A step that leaves everything outside l does not change what SameBut l sees. -/
theorem sameBut_step {l : List Part} {s0 s t : State} (h : SameBut l s t) : SameBut l s0 t ↔ SameBut l s0 s :=
  ⟨fun g p hp => samePart_trans (g p hp) (samePart_symm (h p hp)), fun g => g.trans h⟩

theorem same_ite {l : List Part} {s0 a b : State} {c : Prop} [Decidable c] :
    SameBut l s0 (if c then a else b) ↔ if c then SameBut l s0 a else SameBut l s0 b := by
  split <;> exact Iff.rfl

/-- A record update whose changed fields all lie in l. -/
theorem same_record {l : List Part} {s0 s : State} {pending : List Instr} {straps : Straps} {hook : Tab Hook}
    {cfgW cfgA nowR : Tab Word} {root : RootSt} {time : TimeSt} {snaps : Tab Snap} {logs : Tab LogEntry}
    {flocks : Tab Flock} {gens : Tab Gen} {regions : Tab Region} {xing : XingSt} {fold : FoldSt} {fcst : FcstSt}
    {zones : BallastSt} {foTotal : Word} {crook : CrookSt} {tally : TallySt} {cal : CalSt} {mus : MusSt} {shep : ShepSt}
    {mbx : MbxSt} {cfg : CfgSt} {lc : LcSt} {power : PowerSt} {data ret dmem : Mem} {bmStatus : BitVec 2} {bmBusy : Bool}
    {bmTag : BitVec 8} {bmRows : List Nat} {out : OutSt} {freeCtr : Nat}
    (h1 : pending = s.pending ∨ .queue ∈ l) (h2 : straps = s.straps ∨ .straps ∈ l) (h3 : hook = s.hook ∨ .hook ∈ l)
    (h4 : cfgW = s.cfgW ∨ .bellWritten ∈ l) (h5 : cfgA = s.cfgA ∨ .bellApplied ∈ l) (h6 : nowR = s.nowR ∨ .nowRegs ∈ l)
    (h7 : root = s.root ∨ .root ∈ l) (h8 : time = s.time ∨ .time ∈ l) (h9 : snaps = s.snaps ∨ .snaps ∈ l)
    (h10 : logs = s.logs ∨ .logs ∈ l) (h11 : flocks = s.flocks ∨ .flocks ∈ l) (h12 : gens = s.gens ∨ .gens ∈ l)
    (h13 : regions = s.regions ∨ .regions ∈ l) (h14 : xing = s.xing ∨ .xing ∈ l) (h15 : fold = s.fold ∨ .fold ∈ l)
    (h16 : fcst = s.fcst ∨ .fcst ∈ l) (h17 : zones = s.zones ∨ .zones ∈ l) (h18 : foTotal = s.foTotal ∨ .foTotal ∈ l)
    (h19 : crook = s.crook ∨ .crook ∈ l) (h20 : tally = s.tally ∨ .tally ∈ l) (h21 : cal = s.cal ∨ .cal ∈ l)
    (h22 : mus = s.mus ∨ .mus ∈ l) (h23 : shep = s.shep ∨ .shep ∈ l) (h24 : mbx = s.mbx ∨ .mbx ∈ l)
    (h25 : cfg = s.cfg ∨ .check ∈ l) (h26 : lc = s.lc ∨ .lc ∈ l) (h27 : power = s.power ∨ .power ∈ l)
    (h28 : data = s.data ∨ .data ∈ l) (h29 : ret = s.ret ∨ .retention ∈ l) (h30 : dmem = s.dmem ∨ .coreData ∈ l)
    (h31 : (bmStatus = s.bmStatus ∧ bmBusy = s.bmBusy ∧ bmTag = s.bmTag ∧ bmRows = s.bmRows) ∨ .bmeas ∈ l)
    (h32 : out = s.out ∨ .answers ∈ l) (h33 : freeCtr = s.freeCtr ∨ .freeCount ∈ l) :
    SameBut l s0 (State.mk pending s.build straps hook cfgW cfgA nowR root time snaps logs flocks gens regions xing fold
      fcst zones foTotal crook tally cal mus shep mbx cfg s.events lc power data ret dmem bmStatus bmBusy bmTag bmRows
      out freeCtr) ↔ SameBut l s0 s := by
  apply sameBut_step
  intro p hp
  cases p <;> simp only [samePart, eventOf] <;>
    first
      | rfl
      | exact h1.resolve_right hp | exact h2.resolve_right hp | exact h3.resolve_right hp | exact h4.resolve_right hp
      | exact h5.resolve_right hp | exact h6.resolve_right hp | exact h7.resolve_right hp | exact h8.resolve_right hp
      | exact h9.resolve_right hp | exact h10.resolve_right hp | exact h11.resolve_right hp | exact h12.resolve_right hp
      | exact h13.resolve_right hp | exact h14.resolve_right hp | exact h15.resolve_right hp | exact h16.resolve_right hp
      | exact h17.resolve_right hp | exact h18.resolve_right hp | exact h19.resolve_right hp | exact h20.resolve_right hp
      | exact h21.resolve_right hp | exact h22.resolve_right hp | exact h23.resolve_right hp | exact h24.resolve_right hp
      | exact h25.resolve_right hp | exact h26.resolve_right hp | exact h27.resolve_right hp | exact h28.resolve_right hp
      | exact h29.resolve_right hp | exact h30.resolve_right hp | exact h31.resolve_right hp | exact h32.resolve_right hp
      | exact h33.resolve_right hp

theorem same_forAll {l : List Part} {s0 s : State} {ks : List Nat} {f : Nat → State → State}
    (h : ∀ k t, SameBut l s0 (f k t) ↔ SameBut l s0 t) : SameBut l s0 (forAll ks f s) ↔ SameBut l s0 s := by
  unfold forAll
  induction ks generalizing s with
  | nil => exact Iff.rfl
  | cons k ks ih => exact (ih (s := f k s)).trans (h k s)

theorem same_foldl {α : Type} {l : List Part} {s0 s : State} {xs : List α} {f : State → α → State}
    (h : ∀ x t, SameBut l s0 (f t x) ↔ SameBut l s0 t) : SameBut l s0 (xs.foldl f s) ↔ SameBut l s0 s := by
  induction xs generalizing s with
  | nil => exact Iff.rfl
  | cons k ks ih => exact (ih (s := f s k)).trans (h k s)

/-! ### Events and the register bus -/

theorem same_raise {l : List Part} {s0 s : State} {b : Block} {k : Nat} (h1 : .eventReg b ∈ l) (h2 : .event b k ∈ l) :
    SameBut l s0 (raise b k s) ↔ SameBut l s0 s := by
  apply sameBut_step
  intro p hp
  cases p with
  | eventReg a =>
    have : a ≠ b := by rintro rfl; exact hp h1
    exact raise_other k this
  | event a j =>
    show (eventOf (raise b k s) a).bits.getLsbD j = _
    rw [raise_bit]
    by_cases hab : a = b
    · have : j ≠ k := by rintro rfl; subst hab; exact hp h2
      simp [this]
    · simp [hab]
  | _ => simp [samePart, raise]

theorem same_raiseAbout {l : List Part} {s0 s : State} {b : Block} {k x : Nat} (h1 : .eventReg b ∈ l) (h2 : .event b k ∈ l) :
    SameBut l s0 (raiseAbout b k x s) ↔ SameBut l s0 s := by
  apply sameBut_step
  intro p hp
  cases p with
  | eventReg a =>
    have : a ≠ b := by rintro rfl; exact hp h1
    exact raiseAbout_other k x this
  | event a j =>
    show (eventOf (raiseAbout b k x s) a).bits.getLsbD j = _
    rw [raiseAbout_bit]
    by_cases hab : a = b
    · have : j ≠ k := by rintro rfl; subst hab; exact hp h2
      simp [this]
    · simp [hab]
  | _ => simp [samePart, raiseAbout, raise]

theorem same_raiseIf {l : List Part} {s0 s : State} {c : Bool} {b : Block} {k : Nat} (h1 : .eventReg b ∈ l)
    (h2 : .event b k ∈ l) : SameBut l s0 (raiseIf c b k s) ↔ SameBut l s0 s := by
  unfold raiseIf
  split
  · exact same_raise h1 h2
  · exact Iff.rfl

theorem same_lower {l : List Part} {s0 s : State} {b : Block} {k : Nat} (h1 : .eventReg b ∈ l) (h2 : .event b k ∈ l) :
    SameBut l s0 (lower b k s) ↔ SameBut l s0 s := by
  apply sameBut_step
  intro p hp
  cases p with
  | eventReg a =>
    have : a ≠ b := by rintro rfl; exact hp h1
    exact lower_other k this
  | event a j =>
    refine lower_bit s ?_
    by_cases hab : a = b
    · exact Or.inr (by rintro rfl; subst hab; exact hp h2)
    · exact Or.inl hab
  | _ => simp [samePart, lower]

/-- Taking back what a happening raised changes those of the event bits ks alone. -/
theorem same_unraise {l : List Part} {s0 s : State} {b : Block} {ks : List Nat} {raised : BitVec 24} (h : evs b ks ⊆ l) :
    SameBut l s0 (unraise b ks raised s) ↔ SameBut l s0 s := by
  have h1 : .eventReg b ∈ l := h (by simp [evs])
  have h2 : ∀ k ∈ ks, .event b k ∈ l := fun k hk => h (by simp [evs, hk])
  unfold unraise
  clear h
  induction ks generalizing s with
  | nil => exact Iff.rfl
  | cons k ks ih =>
    refine (ih (fun j hj => h2 j (List.mem_cons_of_mem _ hj))).trans ?_
    rw [same_ite, same_lower h1 (h2 k List.mem_cons_self), ite_self]

theorem same_clearEvents {l : List Part} {s0 s : State} {b : Block} {v : Word} (h1 : .eventReg b ∈ l)
    (h2 : ∀ k, k < 24 → .event b k ∈ l) : SameBut l s0 (clearEvents b v s) ↔ SameBut l s0 s := by
  apply sameBut_step
  intro p hp
  unfold clearEvents
  simp only
  split
  · cases p with
    | eventReg a =>
      have : a ≠ b := by rintro rfl; exact hp h1
      exact (eventOf_put s a b _).trans (if_neg this)
    | event a j =>
      show (eventOf _ a).bits.getLsbD j = _
      rw [eventOf_put]
      by_cases hab : a = b
      · subst hab
        have : ¬ j < 24 := fun h => hp (h2 j h)
        rw [BitVec.getLsbD_of_ge _ _ (by omega), BitVec.getLsbD_of_ge _ _ (by omega)]
      · rw [if_neg hab]
    | _ => simp [samePart]
  · exact samePart_refl p s

theorem same_deny {l : List Part} {s0 s : State} {p : Port} (h : [Part.answers, .check] ++ evs .cfg [8] ⊆ l) :
    SameBut l s0 (deny p s) ↔ SameBut l s0 s := by
  simp only [evs, List.map_cons, List.map_nil, List.cons_append, List.nil_append, List.cons_subset, List.nil_subset, and_true] at h
  unfold deny
  simp only [↓same_record, ↓same_raise, h, or_true, true_or, and_self]

theorem same_snapAsked {l : List Part} {s0 s : State} {e : WaitWr} (h : snapSet e.addr = none ∨ .snaps ∈ l) :
    SameBut l s0 (snapAsked e s) ↔ SameBut l s0 s := by
  unfold snapAsked
  split
  · next hs =>
    have hl : Part.snaps ∈ l := h.resolve_left (by simp [hs])
    simp only [snapPut, ↓same_ite, ↓same_record, hl, or_true, true_or, and_self, ite_self]
  · exact Iff.rfl

/-- No snapshot is asked for above the zone block (R447). -/
theorem snapSet_far {a : Nat} (h : 0x8000 ≤ a) : snapSet a = none := by
  unfold snapSet
  repeat' split
  all_goals first | rfl | omega

/-- A write that waits changes the queue of waiting writes, and a snapshot's request the port's VALID (R15, R448). -/
theorem same_await {l : List Part} {s0 s : State} {e : WaitWr} (ha : .answers ∈ l) (h : snapSet e.addr = none ∨ .snaps ∈ l) :
    SameBut l s0 (await e s) ↔ SameBut l s0 s := by
  unfold await
  rw [same_snapAsked h]
  simp only [↓same_record, ha, or_true, true_or, and_self]

/-- A write that may clear an event register changes what its effect changes, or waits (R12, R445). -/
theorem same_unlessClearWaits {l : List Part} {s0 s : State} {w : Wr} {a : Nat} {v : Word} {ext : List Nat} {eff : State → State}
    (ha : .answers ∈ l) (hs : snapSet a = none ∨ .snaps ∈ l) (he : SameBut l s0 (eff s) ↔ SameBut l s0 s) :
    SameBut l s0 (unlessClearWaits w a v ext eff s) ↔ SameBut l s0 s := by
  unfold unlessClearWaits
  simp only [↓same_ite, ↓same_await (e := ⟨w, a, v, ext⟩) ha hs, ↓he, ite_self]

theorem same_regWrite {l : List Part} {s0 s : State} {w : Wr} {a : Nat} {v : Word} {ext : List Nat} {eff : State → State}
    (h : writeParts ⊆ l) (hs : snapSet a = none ∨ .snaps ∈ l) (he : ∀ t, SameBut l s0 (eff t) ↔ SameBut l s0 t) :
    SameBut l s0 (regWrite w a v ext eff s) ↔ SameBut l s0 s := by
  have h' := h
  simp only [writeParts, evs, List.map_cons, List.map_nil, List.cons_append, List.nil_append, List.cons_subset, List.nil_subset, and_true] at h'
  have hd : [Part.answers, .check] ++ evs .cfg [8] ⊆ l := by
    simp only [evs, List.map_cons, List.map_nil, List.cons_append, List.nil_append, List.cons_subset, List.nil_subset, h', and_self]
  unfold regWrite
  cases w.port <;>
    simp only [↓same_ite, ↓same_record, ↓same_raise, ↓same_deny hd, ↓he, ↓same_await h'.1 (e := ⟨_, a, v, ext⟩) hs, h',
      or_true, true_or, and_self, ite_self]

end Sys2Proof.Machine
end

