-- ==== Sys2Proof/Laws/FrameOps.lean ====
section
/-!
SUPPORT. One lemma per operation of Machine/: every part of the state that it may change.  `SameBut l s0` does not see
an operation whose parts lie in `l`.
-/
set_option linter.unusedSimpArgs false
set_option linter.unusedTactic false
set_option linter.unreachableTactic false
set_option linter.unusedVariables false
namespace Sys2Proof.Machine
open Sys2Proof

theorem same_setFlock {l : List Part} {s0 s : State} (f : Nat) (x : Flock)
    (h : [Part.flocks] ⊆ l) : SameBut l s0 (setFlock f x s) ↔ SameBut l s0 s := by
  simp only [evs, List.map_cons, List.map_nil, List.cons_append, List.nil_append, List.append_nil, List.cons_subset, List.nil_subset, and_true, and_self] at h
  unfold setFlock
  repeat' first
    | simp only [↓same_ite, ↓same_record, h, or_true, true_or, ite_self, evs, List.map_cons, List.map_nil, List.cons_append, List.nil_append, List.append_nil, List.cons_subset, List.nil_subset, and_true, and_self]
    | with_reducible refine Iff.trans (same_forAll (fun k t => ?_)) ?_
    | with_reducible refine Iff.trans (same_foldl (fun k t => ?_)) ?_
    | split
    | with_reducible exact Iff.rfl

theorem same_reselect {l : List Part} {s0 s : State} (f : Nat)
    (h : [Part.flocks] ⊆ l) : SameBut l s0 (reselect f s) ↔ SameBut l s0 s := by
  simp only [evs, List.map_cons, List.map_nil, List.cons_append, List.nil_append, List.append_nil, List.cons_subset, List.nil_subset, and_true, and_self] at h
  unfold reselect
  repeat' first
    | simp only [↓same_ite, ↓same_record, ↓same_setFlock, h, or_true, true_or, ite_self, evs, List.map_cons, List.map_nil, List.cons_append, List.nil_append, List.append_nil, List.cons_subset, List.nil_subset, and_true, and_self]
    | with_reducible refine Iff.trans (same_forAll (fun k t => ?_)) ?_
    | with_reducible refine Iff.trans (same_foldl (fun k t => ?_)) ?_
    | split
    | with_reducible exact Iff.rfl

theorem same_updateSvc {l : List Part} {s0 s : State} (f : Nat)
    (h : [Part.flocks] ++ evs .flock [2, 9, 10] ⊆ l) : SameBut l s0 (updateSvc f s) ↔ SameBut l s0 s := by
  simp only [evs, List.map_cons, List.map_nil, List.cons_append, List.nil_append, List.append_nil, List.cons_subset, List.nil_subset, and_true, and_self] at h
  unfold updateSvc
  repeat' first
    | simp only [↓same_ite, ↓same_record, ↓same_raiseAbout, ↓same_setFlock, h, or_true, true_or, ite_self, evs, List.map_cons, List.map_nil, List.cons_append, List.nil_append, List.append_nil, List.cons_subset, List.nil_subset, and_true, and_self]
    | with_reducible refine Iff.trans (same_forAll (fun k t => ?_)) ?_
    | with_reducible refine Iff.trans (same_foldl (fun k t => ?_)) ?_
    | split
    | with_reducible exact Iff.rfl

theorem same_pathBack {l : List Part} {s0 s : State} (f : Nat)
    (h : [Part.flocks] ++ evs .bell [4] ++ evs .flock [2, 9, 10] ⊆ l) : SameBut l s0 (pathBack f s) ↔ SameBut l s0 s := by
  simp only [evs, List.map_cons, List.map_nil, List.cons_append, List.nil_append, List.append_nil, List.cons_subset, List.nil_subset, and_true, and_self] at h
  unfold pathBack
  repeat' first
    | simp only [↓same_ite, ↓same_record, ↓same_raiseAbout, ↓same_reselect, ↓same_setFlock, ↓same_updateSvc, h, or_true, true_or, ite_self, evs, List.map_cons, List.map_nil, List.cons_append, List.nil_append, List.append_nil, List.cons_subset, List.nil_subset, and_true, and_self]
    | with_reducible refine Iff.trans (same_forAll (fun k t => ?_)) ?_
    | with_reducible refine Iff.trans (same_foldl (fun k t => ?_)) ?_
    | split
    | with_reducible exact Iff.rfl

theorem same_abandonPath {l : List Part} {s0 s : State} (f p : Nat)
    (h : [Part.flocks] ++ evs .bell [4] ++ evs .cal [4] ++ evs .flock [2, 9, 10] ⊆ l) : SameBut l s0 (abandonPath f p s) ↔ SameBut l s0 s := by
  simp only [evs, List.map_cons, List.map_nil, List.cons_append, List.nil_append, List.append_nil, List.cons_subset, List.nil_subset, and_true, and_self] at h
  unfold abandonPath
  repeat' first
    | simp only [↓same_ite, ↓same_record, ↓same_pathBack, ↓same_raiseAbout, ↓same_setFlock, h, or_true, true_or, ite_self, evs, List.map_cons, List.map_nil, List.cons_append, List.nil_append, List.append_nil, List.cons_subset, List.nil_subset, and_true, and_self]
    | with_reducible refine Iff.trans (same_forAll (fun k t => ?_)) ?_
    | with_reducible refine Iff.trans (same_foldl (fun k t => ?_)) ?_
    | split
    | with_reducible exact Iff.rfl

theorem same_setTally {l : List Part} {s0 s : State} (u : Nat) (v : TallyUnit)
    (h : [Part.tally] ⊆ l) : SameBut l s0 (setTally u v s) ↔ SameBut l s0 s := by
  simp only [evs, List.map_cons, List.map_nil, List.cons_append, List.nil_append, List.append_nil, List.cons_subset, List.nil_subset, and_true, and_self] at h
  unfold setTally
  repeat' first
    | simp only [↓same_ite, ↓same_record, h, or_true, true_or, ite_self, evs, List.map_cons, List.map_nil, List.cons_append, List.nil_append, List.append_nil, List.cons_subset, List.nil_subset, and_true, and_self]
    | with_reducible refine Iff.trans (same_forAll (fun k t => ?_)) ?_
    | with_reducible refine Iff.trans (same_foldl (fun k t => ?_)) ?_
    | split
    | with_reducible exact Iff.rfl

theorem same_giveBack {l : List Part} {s0 s : State} (u : Nat)
    (h : [Part.tally] ⊆ l) : SameBut l s0 (giveBack u s) ↔ SameBut l s0 s := by
  simp only [evs, List.map_cons, List.map_nil, List.cons_append, List.nil_append, List.append_nil, List.cons_subset, List.nil_subset, and_true, and_self] at h
  unfold giveBack
  repeat' first
    | simp only [↓same_ite, ↓same_record, ↓same_setTally, h, or_true, true_or, ite_self, evs, List.map_cons, List.map_nil, List.cons_append, List.nil_append, List.append_nil, List.cons_subset, List.nil_subset, and_true, and_self]
    | with_reducible refine Iff.trans (same_forAll (fun k t => ?_)) ?_
    | with_reducible refine Iff.trans (same_foldl (fun k t => ?_)) ?_
    | split
    | with_reducible exact Iff.rfl

theorem same_releaseFirmware {l : List Part} {s0 s : State} 
    (h : [Part.tally] ⊆ l) : SameBut l s0 (releaseFirmware s) ↔ SameBut l s0 s := by
  simp only [evs, List.map_cons, List.map_nil, List.cons_append, List.nil_append, List.append_nil, List.cons_subset, List.nil_subset, and_true, and_self] at h
  unfold releaseFirmware
  repeat' first
    | simp only [↓same_ite, ↓same_record, ↓same_giveBack, h, or_true, true_or, ite_self, evs, List.map_cons, List.map_nil, List.cons_append, List.nil_append, List.append_nil, List.cons_subset, List.nil_subset, and_true, and_self]
    | with_reducible refine Iff.trans (same_forAll (fun k t => ?_)) ?_
    | with_reducible refine Iff.trans (same_foldl (fun k t => ?_)) ?_
    | split
    | with_reducible exact Iff.rfl

theorem same_setJob {l : List Part} {s0 s : State} (k : Nat) (j : Job)
    (h : [Part.shep] ⊆ l) : SameBut l s0 (setJob k j s) ↔ SameBut l s0 s := by
  simp only [evs, List.map_cons, List.map_nil, List.cons_append, List.nil_append, List.append_nil, List.cons_subset, List.nil_subset, and_true, and_self] at h
  unfold setJob
  repeat' first
    | simp only [↓same_ite, ↓same_record, h, or_true, true_or, ite_self, evs, List.map_cons, List.map_nil, List.cons_append, List.nil_append, List.append_nil, List.cons_subset, List.nil_subset, and_true, and_self]
    | with_reducible refine Iff.trans (same_forAll (fun k t => ?_)) ?_
    | with_reducible refine Iff.trans (same_foldl (fun k t => ?_)) ?_
    | split
    | with_reducible exact Iff.rfl

theorem same_abortJob {l : List Part} {s0 s : State} (k : Nat)
    (h : [Part.shep, .tally, .xing] ++ evs .shep [11] ⊆ l) : SameBut l s0 (abortJob k s) ↔ SameBut l s0 s := by
  simp only [evs, List.map_cons, List.map_nil, List.cons_append, List.nil_append, List.append_nil, List.cons_subset, List.nil_subset, and_true, and_self] at h
  unfold abortJob
  repeat' first
    | simp only [↓same_ite, ↓same_record, ↓same_raise, ↓same_releaseFirmware, ↓same_setJob, h, or_true, true_or, ite_self, evs, List.map_cons, List.map_nil, List.cons_append, List.nil_append, List.append_nil, List.cons_subset, List.nil_subset, and_true, and_self]
    | with_reducible refine Iff.trans (same_forAll (fun k t => ?_)) ?_
    | with_reducible refine Iff.trans (same_foldl (fun k t => ?_)) ?_
    | split
    | with_reducible exact Iff.rfl

theorem same_abortJobs {l : List Part} {s0 s : State} 
    (h : [Part.shep, .tally, .xing] ++ evs .shep [11] ⊆ l) : SameBut l s0 (abortJobs s) ↔ SameBut l s0 s := by
  simp only [evs, List.map_cons, List.map_nil, List.cons_append, List.nil_append, List.append_nil, List.cons_subset, List.nil_subset, and_true, and_self] at h
  unfold abortJobs
  repeat' first
    | simp only [↓same_ite, ↓same_record, ↓same_abortJob, h, or_true, true_or, ite_self, evs, List.map_cons, List.map_nil, List.cons_append, List.nil_append, List.append_nil, List.cons_subset, List.nil_subset, and_true, and_self]
    | with_reducible refine Iff.trans (same_forAll (fun k t => ?_)) ?_
    | with_reducible refine Iff.trans (same_foldl (fun k t => ?_)) ?_
    | split
    | with_reducible exact Iff.rfl

theorem same_setMbox {l : List Part} {s0 s : State} (m : Nat) (x : Mailbox)
    (h : [Part.mbx] ⊆ l) : SameBut l s0 (setMbox m x s) ↔ SameBut l s0 s := by
  simp only [evs, List.map_cons, List.map_nil, List.cons_append, List.nil_append, List.append_nil, List.cons_subset, List.nil_subset, and_true, and_self] at h
  unfold setMbox
  repeat' first
    | simp only [↓same_ite, ↓same_record, h, or_true, true_or, ite_self, evs, List.map_cons, List.map_nil, List.cons_append, List.nil_append, List.append_nil, List.cons_subset, List.nil_subset, and_true, and_self]
    | with_reducible refine Iff.trans (same_forAll (fun k t => ?_)) ?_
    | with_reducible refine Iff.trans (same_foldl (fun k t => ?_)) ?_
    | split
    | with_reducible exact Iff.rfl

theorem same_completeWith {l : List Part} {s0 : State} (m : Nat) (status : BitVec 8) (res : Tab Word) (s : State)
    (h : [Part.mbx] ++ evs .mbx [m] ⊆ l) : SameBut l s0 (completeWith m status res s) ↔ SameBut l s0 s := by
  simp only [evs, List.map_cons, List.map_nil, List.cons_append, List.nil_append, List.append_nil, List.cons_subset, List.nil_subset, and_true, and_self] at h
  unfold completeWith
  repeat' first
    | simp only [↓same_ite, ↓same_record, ↓same_raise, ↓same_setMbox, h, or_true, true_or, ite_self, evs, List.map_cons, List.map_nil, List.cons_append, List.nil_append, List.append_nil, List.cons_subset, List.nil_subset, and_true, and_self]
    | with_reducible refine Iff.trans (same_forAll (fun k t => ?_)) ?_
    | with_reducible refine Iff.trans (same_foldl (fun k t => ?_)) ?_
    | split
    | with_reducible exact Iff.rfl

theorem takenBox_lt {s : State} {m : Nat} (h : takenBox s = some m) : m = 0 ∨ m = 1 ∨ m = 2 := by
  have := List.mem_of_find?_eq_some h
  simpa using this

theorem same_abortTaken {l : List Part} {s0 : State} (status : BitVec 8) (s : State)
    (h : [Part.mbx] ++ evs .mbx [0, 1, 2] ⊆ l) : SameBut l s0 (abortTaken status s) ↔ SameBut l s0 s := by
  simp only [evs, List.map_cons, List.map_nil, List.cons_append, List.nil_append, List.append_nil, List.cons_subset, List.nil_subset, and_true, and_self] at h
  unfold abortTaken
  split
  next m hm =>
    rcases takenBox_lt hm with rfl | rfl | rfl <;> simp only [↓same_completeWith, h, evs, List.map_cons, List.map_nil, List.cons_append, List.nil_append, List.append_nil, List.cons_subset, List.nil_subset, and_true, and_self]
  next => exact Iff.rfl

theorem same_setClass {l : List Part} {s0 s : State} (n : Nat) (c : ClassSt)
    (h : [Part.fold] ⊆ l) : SameBut l s0 (setClass n c s) ↔ SameBut l s0 s := by
  simp only [evs, List.map_cons, List.map_nil, List.cons_append, List.nil_append, List.append_nil, List.cons_subset, List.nil_subset, and_true, and_self] at h
  unfold setClass
  repeat' first
    | simp only [↓same_ite, ↓same_record, h, or_true, true_or, ite_self, evs, List.map_cons, List.map_nil, List.cons_append, List.nil_append, List.append_nil, List.cons_subset, List.nil_subset, and_true, and_self]
    | with_reducible refine Iff.trans (same_forAll (fun k t => ?_)) ?_
    | with_reducible refine Iff.trans (same_foldl (fun k t => ?_)) ?_
    | split
    | with_reducible exact Iff.rfl

theorem same_adapt {l : List Part} {s0 s : State} (n k f g : Nat) (charged cancel : Bool)
    (h : [Part.fold, .zones] ++ evs .fold [7, 8] ⊆ l) : SameBut l s0 (adapt n k f g charged cancel s) ↔ SameBut l s0 s := by
  simp only [evs, List.map_cons, List.map_nil, List.cons_append, List.nil_append, List.append_nil, List.cons_subset, List.nil_subset, and_true, and_self] at h
  unfold adapt
  repeat' first
    | simp only [↓same_ite, ↓same_record, ↓same_raise, ↓same_setClass, h, or_true, true_or, ite_self, evs, List.map_cons, List.map_nil, List.cons_append, List.nil_append, List.append_nil, List.cons_subset, List.nil_subset, and_true, and_self]
    | with_reducible refine Iff.trans (same_forAll (fun k t => ?_)) ?_
    | with_reducible refine Iff.trans (same_foldl (fun k t => ?_)) ?_
    | split
    | with_reducible exact Iff.rfl

theorem same_takeCal {l : List Part} {s0 s : State} (u : Nat) (c : CalEdges)
    (h : [Part.tally] ++ evs .tally [4] ⊆ l) : SameBut l s0 (takeCal u c s) ↔ SameBut l s0 s := by
  simp only [evs, List.map_cons, List.map_nil, List.cons_append, List.nil_append, List.append_nil, List.cons_subset, List.nil_subset, and_true, and_self] at h
  unfold takeCal
  repeat' first
    | simp only [↓same_ite, ↓same_record, ↓same_raiseAbout, ↓same_setTally, h, or_true, true_or, ite_self, evs, List.map_cons, List.map_nil, List.cons_append, List.nil_append, List.append_nil, List.cons_subset, List.nil_subset, and_true, and_self]
    | with_reducible refine Iff.trans (same_forAll (fun k t => ?_)) ?_
    | with_reducible refine Iff.trans (same_foldl (fun k t => ?_)) ?_
    | split
    | with_reducible exact Iff.rfl

theorem same_beginRepeat {l : List Part} {s0 s : State} (u : Nat) (c : Option CalEdges)
    (h : [Part.tally] ++ evs .tally [4] ⊆ l) : SameBut l s0 (beginRepeat u c s) ↔ SameBut l s0 s := by
  simp only [evs, List.map_cons, List.map_nil, List.cons_append, List.nil_append, List.append_nil, List.cons_subset, List.nil_subset, and_true, and_self] at h
  unfold beginRepeat
  repeat' first
    | simp only [↓same_ite, ↓same_record, ↓same_setTally, ↓same_takeCal, h, or_true, true_or, ite_self, evs, List.map_cons, List.map_nil, List.cons_append, List.nil_append, List.append_nil, List.cons_subset, List.nil_subset, and_true, and_self]
    | with_reducible refine Iff.trans (same_forAll (fun k t => ?_)) ?_
    | with_reducible refine Iff.trans (same_foldl (fun k t => ?_)) ?_
    | split
    | with_reducible exact Iff.rfl

theorem same_writeResults {l : List Part} {s0 s : State} (u : Nat) (completed : Bool) (word : Nat → Word)
    (h : [Part.tally] ⊆ l) : SameBut l s0 (writeResults u completed word s) ↔ SameBut l s0 s := by
  simp only [evs, List.map_cons, List.map_nil, List.cons_append, List.nil_append, List.append_nil, List.cons_subset, List.nil_subset, and_true, and_self] at h
  unfold writeResults
  repeat' first
    | simp only [↓same_ite, ↓same_record, ↓same_setTally, h, or_true, true_or, ite_self, evs, List.map_cons, List.map_nil, List.cons_append, List.nil_append, List.append_nil, List.cons_subset, List.nil_subset, and_true, and_self]
    | with_reducible refine Iff.trans (same_forAll (fun k t => ?_)) ?_
    | with_reducible refine Iff.trans (same_foldl (fun k t => ?_)) ?_
    | split
    | with_reducible exact Iff.rfl

theorem same_lostRepeat {l : List Part} {s0 s : State} (u : Nat)
    (h : [Part.tally] ++ evs .tally [7] ⊆ l) : SameBut l s0 (lostRepeat u s) ↔ SameBut l s0 s := by
  simp only [evs, List.map_cons, List.map_nil, List.cons_append, List.nil_append, List.append_nil, List.cons_subset, List.nil_subset, and_true, and_self] at h
  unfold lostRepeat
  repeat' first
    | simp only [↓same_ite, ↓same_record, ↓same_raiseAbout, ↓same_writeResults, h, or_true, true_or, ite_self, evs, List.map_cons, List.map_nil, List.cons_append, List.nil_append, List.append_nil, List.cons_subset, List.nil_subset, and_true, and_self]
    | with_reducible refine Iff.trans (same_forAll (fun k t => ?_)) ?_
    | with_reducible refine Iff.trans (same_foldl (fun k t => ?_)) ?_
    | split
    | with_reducible exact Iff.rfl

theorem same_lostRepeats {l : List Part} {s0 : State} (u n : Nat) (s : State)
    (h : [Part.tally] ++ evs .tally [7] ⊆ l) : SameBut l s0 (lostRepeats u n s) ↔ SameBut l s0 s := by
  simp only [evs, List.map_cons, List.map_nil, List.cons_append, List.nil_append, List.append_nil, List.cons_subset, List.nil_subset, and_true, and_self] at h
  induction n generalizing s with
  | zero => exact Iff.rfl
  | succ n ih => simp only [lostRepeats, ih, ↓same_lostRepeat, h, evs, List.map_cons, List.map_nil, List.cons_append, List.nil_append, List.append_nil, List.cons_subset, List.nil_subset, and_true, and_self]

theorem same_tallyDone {l : List Part} {s0 : State} (u : Nat) (ev : Bool) (s : State)
    (h : [Part.tally] ++ evs .tally [u] ⊆ l) : SameBut l s0 (tallyDone u ev s) ↔ SameBut l s0 s := by
  simp only [evs, List.map_cons, List.map_nil, List.cons_append, List.nil_append, List.append_nil, List.cons_subset, List.nil_subset, and_true, and_self] at h
  unfold tallyDone
  repeat' first
    | simp only [↓same_ite, ↓same_record, ↓same_setTally, ↓same_raiseAbout, h, or_true, true_or, ite_self, evs, List.map_cons, List.map_nil, List.cons_append, List.nil_append, List.append_nil, List.cons_subset, List.nil_subset, and_true, and_self]
    | with_reducible refine Iff.trans (same_forAll (fun k t => ?_)) ?_
    | with_reducible refine Iff.trans (same_foldl (fun k t => ?_)) ?_
    | split
    | with_reducible exact Iff.rfl

theorem same_afterRepeat {l : List Part} {s0 : State} (u : Nat) (c : Option CalEdges) (s : State)
    (h : [Part.tally] ++ evs .tally [u, 4, 7] ⊆ l) : SameBut l s0 (afterRepeat u c s) ↔ SameBut l s0 s := by
  simp only [evs, List.map_cons, List.map_nil, List.cons_append, List.nil_append, List.append_nil, List.cons_subset, List.nil_subset, and_true, and_self] at h
  unfold afterRepeat
  repeat' first
    | simp only [↓same_ite, ↓same_record, ↓same_tallyDone, ↓same_lostRepeats, ↓same_beginRepeat, h, or_true, true_or, ite_self, evs, List.map_cons, List.map_nil, List.cons_append, List.nil_append, List.append_nil, List.cons_subset, List.nil_subset, and_true, and_self]
    | with_reducible refine Iff.trans (same_forAll (fun k t => ?_)) ?_
    | with_reducible refine Iff.trans (same_foldl (fun k t => ?_)) ?_
    | split
    | with_reducible exact Iff.rfl

theorem same_afterRepeat_none {l : List Part} {s0 : State} (u : Nat) (s : State)
    (h : [Part.tally] ++ evs .tally [u, 7] ⊆ l) : SameBut l s0 (afterRepeat u none s) ↔ SameBut l s0 s := by
  simp only [evs, List.map_cons, List.map_nil, List.cons_append, List.nil_append, List.append_nil, List.cons_subset, List.nil_subset, and_true, and_self] at h
  unfold afterRepeat beginRepeat
  simp only [↓same_ite, ↓same_tallyDone, ↓same_lostRepeats, ↓same_setTally, h, ite_self, evs, List.map_cons, List.map_nil, List.cons_append, List.nil_append, List.append_nil, List.cons_subset, List.nil_subset, and_true, and_self]

theorem same_alignRound {l : List Part} {s0 s : State} (theta : Rat)
    (h : [Part.mus] ++ evs .mus [6, 7] ⊆ l) : SameBut l s0 (alignRound theta s) ↔ SameBut l s0 s := by
  simp only [evs, List.map_cons, List.map_nil, List.cons_append, List.nil_append, List.append_nil, List.cons_subset, List.nil_subset, and_true, and_self] at h
  unfold alignRound
  repeat' first
    | simp only [↓same_ite, ↓same_record, ↓same_raise, h, or_true, true_or, ite_self, evs, List.map_cons, List.map_nil, List.cons_append, List.nil_append, List.append_nil, List.cons_subset, List.nil_subset, and_true, and_self]
    | with_reducible refine Iff.trans (same_forAll (fun k t => ?_)) ?_
    | with_reducible refine Iff.trans (same_foldl (fun k t => ?_)) ?_
    | split
    | with_reducible exact Iff.rfl

theorem same_answer {l : List Part} {s0 s : State} (r : Resp)
    (h : [Part.answers] ⊆ l) : SameBut l s0 (answer r s) ↔ SameBut l s0 s := by
  simp only [evs, List.map_cons, List.map_nil, List.cons_append, List.nil_append, List.append_nil, List.cons_subset, List.nil_subset, and_true, and_self] at h
  unfold answer
  repeat' first
    | simp only [↓same_ite, ↓same_record, h, or_true, true_or, ite_self, evs, List.map_cons, List.map_nil, List.cons_append, List.nil_append, List.append_nil, List.cons_subset, List.nil_subset, and_true, and_self]
    | with_reducible refine Iff.trans (same_forAll (fun k t => ?_)) ?_
    | with_reducible refine Iff.trans (same_foldl (fun k t => ?_)) ?_
    | split
    | with_reducible exact Iff.rfl

theorem same_setSyn {l : List Part} {s0 s : State} (y : Syn) (v : Synth)
    (h : [Part.root] ⊆ l) : SameBut l s0 (setSyn y v s) ↔ SameBut l s0 s := by
  simp only [evs, List.map_cons, List.map_nil, List.cons_append, List.nil_append, List.append_nil, List.cons_subset, List.nil_subset, and_true, and_self] at h
  unfold setSyn
  repeat' first
    | simp only [↓same_ite, ↓same_record, h, or_true, true_or, ite_self, evs, List.map_cons, List.map_nil, List.cons_append, List.nil_append, List.append_nil, List.cons_subset, List.nil_subset, and_true, and_self]
    | with_reducible refine Iff.trans (same_forAll (fun k t => ?_)) ?_
    | with_reducible refine Iff.trans (same_foldl (fun k t => ?_)) ?_
    | split
    | with_reducible exact Iff.rfl

theorem same_startAcquire {l : List Part} {s0 s : State} (y : Syn)
    (h : [Part.root] ++ evs .root [8] ⊆ l) : SameBut l s0 (startAcquire y s) ↔ SameBut l s0 s := by
  simp only [evs, List.map_cons, List.map_nil, List.cons_append, List.nil_append, List.append_nil, List.cons_subset, List.nil_subset, and_true, and_self] at h
  unfold startAcquire
  repeat' first
    | simp only [↓same_ite, ↓same_record, ↓same_raise, ↓same_setSyn, h, or_true, true_or, ite_self, evs, List.map_cons, List.map_nil, List.cons_append, List.nil_append, List.append_nil, List.cons_subset, List.nil_subset, and_true, and_self]
    | with_reducible refine Iff.trans (same_forAll (fun k t => ?_)) ?_
    | with_reducible refine Iff.trans (same_foldl (fun k t => ?_)) ?_
    | split
    | with_reducible exact Iff.rfl

theorem same_loadDividers {l : List Part} {s0 s : State} (y : Syn)
    (h : [Part.root] ++ evs .root [8] ⊆ l) : SameBut l s0 (loadDividers y s) ↔ SameBut l s0 s := by
  simp only [evs, List.map_cons, List.map_nil, List.cons_append, List.nil_append, List.append_nil, List.cons_subset, List.nil_subset, and_true, and_self] at h
  unfold loadDividers
  repeat' first
    | simp only [↓same_ite, ↓same_record, ↓same_setSyn, ↓same_startAcquire, h, or_true, true_or, ite_self, evs, List.map_cons, List.map_nil, List.cons_append, List.nil_append, List.append_nil, List.cons_subset, List.nil_subset, and_true, and_self]
    | with_reducible refine Iff.trans (same_forAll (fun k t => ?_)) ?_
    | with_reducible refine Iff.trans (same_foldl (fun k t => ?_)) ?_
    | split
    | with_reducible exact Iff.rfl

theorem same_applyDividers {l : List Part} {s0 s : State} (v : Word)
    (h : [Part.root] ++ evs .root [7, 8] ⊆ l) : SameBut l s0 (applyDividers v s) ↔ SameBut l s0 s := by
  simp only [evs, List.map_cons, List.map_nil, List.cons_append, List.nil_append, List.append_nil, List.cons_subset, List.nil_subset, and_true, and_self] at h
  unfold applyDividers
  repeat' first
    | simp only [↓same_ite, ↓same_record, ↓same_loadDividers, ↓same_raise, h, or_true, true_or, ite_self, evs, List.map_cons, List.map_nil, List.cons_append, List.nil_append, List.append_nil, List.cons_subset, List.nil_subset, and_true, and_self]
    | with_reducible refine Iff.trans (same_forAll (fun k t => ?_)) ?_
    | with_reducible refine Iff.trans (same_foldl (fun k t => ?_)) ?_
    | split
    | with_reducible exact Iff.rfl

theorem same_raiseList {l : List Part} {s0 : State} (es : List (Block × Nat × Option Nat)) (s : State)
    (h : ∀ e ∈ es, .eventReg e.1 ∈ l ∧ .event e.1 e.2.1 ∈ l) : SameBut l s0 (raiseList es s) ↔ SameBut l s0 s := by
  unfold raiseList
  induction es generalizing s with
  | nil => exact Iff.rfl
  | cons e es ih =>
    have he := h e List.mem_cons_self
    rw [List.foldl_cons, ih _ (fun e' h' => h e' (List.mem_cons_of_mem _ h'))]
    split
    · exact same_raiseAbout he.1 he.2
    · exact same_raise he.1 he.2

theorem same_setKRej {l : List Part} {s0 s : State} (n : Nat) (on : Bool)
    (h : [Part.fold] ⊆ l) : SameBut l s0 (setKRej n on s) ↔ SameBut l s0 s := by
  simp only [evs, List.map_cons, List.map_nil, List.cons_append, List.nil_append, List.append_nil, List.cons_subset, List.nil_subset, and_true, and_self] at h
  unfold setKRej
  repeat' first
    | simp only [↓same_ite, ↓same_record, h, or_true, true_or, ite_self, evs, List.map_cons, List.map_nil, List.cons_append, List.nil_append, List.append_nil, List.cons_subset, List.nil_subset, and_true, and_self]
    | with_reducible refine Iff.trans (same_forAll (fun k t => ?_)) ?_
    | with_reducible refine Iff.trans (same_foldl (fun k t => ?_)) ?_
    | split
    | with_reducible exact Iff.rfl

/-- The events that an outcome names are those that judging a pending write may raise. -/
def judged (es : List (Block × Nat × Option Nat)) : Prop :=
  ∀ e ∈ es, (e.1, e.2.1) ∈ [(Block.fold, 3), (.fold, 11), (.rcg, 5), (.rcg, 6), (.rcg, 8), (.zone, 6), (.cal, 8)]

theorem judged_ite {α : Type} {c : Prop} [Decidable c] {P : α → Prop} {a b : α} (ha : P a) (hb : P b) :
    P (if c then a else b) := by
  split
  · exact ha
  · exact hb

theorem judged_append {a b : List (Block × Nat × Option Nat)} (ha : judged a) (hb : judged b) : judged (a ++ b) :=
  fun e he => (List.mem_append.mp he).elim (ha e) (hb e)

theorem judge_events (s : State) (flat : Nat → Nat → Bool) (k : Nat) : judged (judge s flat k).2 := by
  unfold judge
  extract_lets v old bad f g keep
  have leaf : ∀ (x : Word) (l : List (Block × Nat × Option Nat)), judged l → judged (Prod.snd (x, l)) := fun _ _ h => h
  have nil : judged [] := fun e he => absurd he (List.not_mem_nil)
  repeat' first
    | exact leaf _ _ nil
    | exact nil
    | (intro e he; obtain rfl := List.mem_singleton.mp he; decide)
    | (intro e he; obtain rfl := List.mem_singleton.mp he; simp)
    | refine judged_ite (P := fun p : Word × List (Block × Nat × Option Nat) => judged p.2) ?_ ?_
    | refine judged_ite (P := judged) ?_ ?_
    | refine judged_append ?_ ?_
    | (cases flat f g <;> cases wordFlat v)

theorem same_applyPending {l : List Part} {s0 : State} (flat : Nat → Nat → Bool) (s : State)
    (h : [Part.bellApplied, .check, .fold] ++ evs .cal [8] ++ evs .cfg [2, 4] ++ evs .fold [3, 11] ++ evs .rcg [5, 6, 8] ++ evs .zone [6] ⊆ l) :
    SameBut l s0 (applyPending flat s) ↔ SameBut l s0 s := by
  simp only [evs, List.map_cons, List.map_nil, List.cons_append, List.nil_append, List.append_nil, List.cons_subset, List.nil_subset, and_true, and_self] at h
  unfold applyPending
  simp only [↓same_ite, ↓same_record, ↓same_raise, h, or_true, true_or, and_self, ite_self]
  split
  · exact Iff.rfl
  · refine Iff.trans (same_forAll (fun k t => ?_)) ?_
    · simp only [↓same_ite, ↓same_setKRej, h, ite_self, evs, List.map_cons, List.map_nil, List.cons_append, List.nil_append, List.append_nil, List.cons_subset, List.nil_subset, and_true, and_self]
    · generalize hj : s.cfg.pend.map (fun k => (k, judge s flat k)) = js
      have hjs : ∀ j ∈ js, ∀ e ∈ j.2.2, (e.1, e.2.1) ∈ [(Block.fold, 3), (.fold, 11), (.rcg, 5), (.rcg, 6), (.rcg, 8), (.zone, 6), (.cal, 8)] := by
        intro j hm e he
        rw [← hj] at hm
        obtain ⟨k, _, rfl⟩ := List.mem_map.mp hm
        exact judge_events s flat k e he
      clear hj
      have key : ∀ t, SameBut l s0 (js.foldl (fun t j => raiseList j.2.2 { t with cfgA := tabSet t.cfgA j.1 j.2.1 (bellReset t.build j.1) }) t) ↔ SameBut l s0 t := by
        induction js with
        | nil => exact fun t => Iff.rfl
        | cons j js ih =>
          intro t
          rw [List.foldl_cons, ih (fun j' hm => hjs j' (List.mem_cons_of_mem _ hm)), same_raiseList]
          · simp only [↓same_record, h, or_true, true_or, and_self]
          · rintro ⟨b, k, o⟩ he
            have := hjs j List.mem_cons_self ⟨b, k, o⟩ he
            simp only [List.mem_cons, Prod.mk.injEq, List.not_mem_nil, or_false] at this
            rcases this with ⟨rfl, rfl⟩ | ⟨rfl, rfl⟩ | ⟨rfl, rfl⟩ | ⟨rfl, rfl⟩ | ⟨rfl, rfl⟩ | ⟨rfl, rfl⟩ | ⟨rfl, rfl⟩ <;>
              simp only [h, and_self]
      exact key s

theorem same_applyEarly {l : List Part} {s0 s : State} 
    (h : [Part.bellApplied, .check, .fold] ++ evs .cal [8] ++ evs .cfg [2, 4] ++ evs .fold [3, 11] ++ evs .rcg [5, 6, 8] ++ evs .zone [6] ⊆ l) : SameBut l s0 (applyEarly s) ↔ SameBut l s0 s := by
  simp only [evs, List.map_cons, List.map_nil, List.cons_append, List.nil_append, List.append_nil, List.cons_subset, List.nil_subset, and_true, and_self] at h
  unfold applyEarly
  repeat' first
    | simp only [↓same_ite, ↓same_record, ↓same_applyPending, h, or_true, true_or, ite_self, evs, List.map_cons, List.map_nil, List.cons_append, List.nil_append, List.append_nil, List.cons_subset, List.nil_subset, and_true, and_self]
    | with_reducible refine Iff.trans (same_forAll (fun k t => ?_)) ?_
    | with_reducible refine Iff.trans (same_foldl (fun k t => ?_)) ?_
    | split
    | with_reducible exact Iff.rfl

theorem same_applyTheta {l : List Part} {s0 s : State} (ta span : Rat)
    (h : [Part.mus] ⊆ l) : SameBut l s0 (applyTheta ta span s) ↔ SameBut l s0 s := by
  simp only [evs, List.map_cons, List.map_nil, List.cons_append, List.nil_append, List.append_nil, List.cons_subset, List.nil_subset, and_true, and_self] at h
  unfold applyTheta
  repeat' first
    | simp only [↓same_ite, ↓same_record, h, or_true, true_or, ite_self, evs, List.map_cons, List.map_nil, List.cons_append, List.nil_append, List.append_nil, List.cons_subset, List.nil_subset, and_true, and_self]
    | with_reducible refine Iff.trans (same_forAll (fun k t => ?_)) ?_
    | with_reducible refine Iff.trans (same_foldl (fun k t => ?_)) ?_
    | split
    | with_reducible exact Iff.rfl

theorem same_holdOver {l : List Part} {s0 s : State} 
    (h : [Part.mus] ++ evs .mus [5] ⊆ l) : SameBut l s0 (holdOver s) ↔ SameBut l s0 s := by
  simp only [evs, List.map_cons, List.map_nil, List.cons_append, List.nil_append, List.append_nil, List.cons_subset, List.nil_subset, and_true, and_self] at h
  unfold holdOver
  repeat' first
    | simp only [↓same_ite, ↓same_record, ↓same_raise, h, or_true, true_or, ite_self, evs, List.map_cons, List.map_nil, List.cons_append, List.nil_append, List.append_nil, List.cons_subset, List.nil_subset, and_true, and_self]
    | with_reducible refine Iff.trans (same_forAll (fun k t => ?_)) ?_
    | with_reducible refine Iff.trans (same_foldl (fun k t => ?_)) ?_
    | split
    | with_reducible exact Iff.rfl

theorem same_holdRound {l : List Part} {s0 s : State} 
    (h : [Part.mus] ++ evs .mus [4, 7] ⊆ l) : SameBut l s0 (holdRound s) ↔ SameBut l s0 s := by
  simp only [evs, List.map_cons, List.map_nil, List.cons_append, List.nil_append, List.append_nil, List.cons_subset, List.nil_subset, and_true, and_self] at h
  unfold holdRound
  repeat' first
    | simp only [↓same_ite, ↓same_record, ↓same_raise, h, or_true, true_or, ite_self, evs, List.map_cons, List.map_nil, List.cons_append, List.nil_append, List.append_nil, List.cons_subset, List.nil_subset, and_true, and_self]
    | with_reducible refine Iff.trans (same_forAll (fun k t => ?_)) ?_
    | with_reducible refine Iff.trans (same_foldl (fun k t => ?_)) ?_
    | split
    | with_reducible exact Iff.rfl

theorem same_applyMember {l : List Part} {s0 : State} (now : State)
    (h : [Part.mus] ++ evs .mus [4, 5, 6, 7] ⊆ l) : SameBut l s0 (applyMember now) ↔ SameBut l s0 now := by
  simp only [evs, List.map_cons, List.map_nil, List.cons_append, List.nil_append, List.append_nil, List.cons_subset, List.nil_subset, and_true, and_self] at h
  unfold applyMember
  repeat' first
    | simp only [↓same_ite, ↓same_record, ↓same_alignRound, ↓same_applyTheta, ↓same_holdOver, ↓same_holdRound, h, or_true, true_or, ite_self, evs, List.map_cons, List.map_nil, List.cons_append, List.nil_append, List.append_nil, List.cons_subset, List.nil_subset, and_true, and_self]
    | with_reducible refine Iff.trans (same_forAll (fun k t => ?_)) ?_
    | with_reducible refine Iff.trans (same_foldl (fun k t => ?_)) ?_
    | split
    | with_reducible exact Iff.rfl

theorem same_valuesChanged {l : List Part} {s0 s : State} 
    (h : [Part.cal] ⊆ l) : SameBut l s0 (valuesChanged s) ↔ SameBut l s0 s := by
  simp only [evs, List.map_cons, List.map_nil, List.cons_append, List.nil_append, List.append_nil, List.cons_subset, List.nil_subset, and_true, and_self] at h
  unfold valuesChanged
  repeat' first
    | simp only [↓same_ite, ↓same_record, h, or_true, true_or, ite_self, evs, List.map_cons, List.map_nil, List.cons_append, List.nil_append, List.append_nil, List.cons_subset, List.nil_subset, and_true, and_self]
    | with_reducible refine Iff.trans (same_forAll (fun k t => ?_)) ?_
    | with_reducible refine Iff.trans (same_foldl (fun k t => ?_)) ?_
    | split
    | with_reducible exact Iff.rfl

theorem same_changedIf {l : List Part} {s0 s : State} (c : Bool)
    (h : [Part.cal] ⊆ l) : SameBut l s0 (changedIf c s) ↔ SameBut l s0 s := by
  simp only [evs, List.map_cons, List.map_nil, List.cons_append, List.nil_append, List.append_nil, List.cons_subset, List.nil_subset, and_true, and_self] at h
  unfold changedIf
  repeat' first
    | simp only [↓same_ite, ↓same_record, ↓same_valuesChanged, h, or_true, true_or, ite_self, evs, List.map_cons, List.map_nil, List.cons_append, List.nil_append, List.append_nil, List.cons_subset, List.nil_subset, and_true, and_self]
    | with_reducible refine Iff.trans (same_forAll (fun k t => ?_)) ?_
    | with_reducible refine Iff.trans (same_foldl (fun k t => ?_)) ?_
    | split
    | with_reducible exact Iff.rfl

theorem same_setGen {l : List Part} {s0 s : State} (g : Nat) (x : Gen)
    (h : [Part.gens] ⊆ l) : SameBut l s0 (setGen g x s) ↔ SameBut l s0 s := by
  simp only [evs, List.map_cons, List.map_nil, List.cons_append, List.nil_append, List.append_nil, List.cons_subset, List.nil_subset, and_true, and_self] at h
  unfold setGen
  repeat' first
    | simp only [↓same_ite, ↓same_record, h, or_true, true_or, ite_self, evs, List.map_cons, List.map_nil, List.cons_append, List.nil_append, List.append_nil, List.cons_subset, List.nil_subset, and_true, and_self]
    | with_reducible refine Iff.trans (same_forAll (fun k t => ?_)) ?_
    | with_reducible refine Iff.trans (same_foldl (fun k t => ?_)) ?_
    | split
    | with_reducible exact Iff.rfl

theorem same_applyProposals {l : List Part} {s0 s : State} (r : Nat)
    (h : [Part.cal, .gens] ⊆ l) : SameBut l s0 (applyProposals r s) ↔ SameBut l s0 s := by
  simp only [evs, List.map_cons, List.map_nil, List.cons_append, List.nil_append, List.append_nil, List.cons_subset, List.nil_subset, and_true, and_self] at h
  unfold applyProposals
  repeat' first
    | simp only [↓same_ite, ↓same_record, ↓same_changedIf, ↓same_setGen, h, or_true, true_or, ite_self, evs, List.map_cons, List.map_nil, List.cons_append, List.nil_append, List.append_nil, List.cons_subset, List.nil_subset, and_true, and_self]
    | with_reducible refine Iff.trans (same_forAll (fun k t => ?_)) ?_
    | with_reducible refine Iff.trans (same_foldl (fun k t => ?_)) ?_
    | split
    | with_reducible exact Iff.rfl

theorem same_applyRoot {l : List Part} {s0 : State} (now : State)
    (h : [Part.mus] ++ evs .mus [4, 5, 7] ⊆ l) : SameBut l s0 (applyRoot now) ↔ SameBut l s0 now := by
  simp only [evs, List.map_cons, List.map_nil, List.cons_append, List.nil_append, List.append_nil, List.cons_subset, List.nil_subset, and_true, and_self] at h
  unfold applyRoot
  repeat' first
    | simp only [↓same_ite, ↓same_record, ↓same_applyTheta, ↓same_holdOver, ↓same_holdRound, h, or_true, true_or, ite_self, evs, List.map_cons, List.map_nil, List.cons_append, List.nil_append, List.append_nil, List.cons_subset, List.nil_subset, and_true, and_self]
    | with_reducible refine Iff.trans (same_forAll (fun k t => ?_)) ?_
    | with_reducible refine Iff.trans (same_foldl (fun k t => ?_)) ?_
    | split
    | with_reducible exact Iff.rfl

theorem same_setXing {l : List Part} {s0 s : State} (x : Nat) (v : Xing)
    (h : [Part.xing] ⊆ l) : SameBut l s0 (setXing x v s) ↔ SameBut l s0 s := by
  simp only [evs, List.map_cons, List.map_nil, List.cons_append, List.nil_append, List.append_nil, List.cons_subset, List.nil_subset, and_true, and_self] at h
  unfold setXing
  repeat' first
    | simp only [↓same_ite, ↓same_record, h, or_true, true_or, ite_self, evs, List.map_cons, List.map_nil, List.cons_append, List.nil_append, List.append_nil, List.cons_subset, List.nil_subset, and_true, and_self]
    | with_reducible refine Iff.trans (same_forAll (fun k t => ?_)) ?_
    | with_reducible refine Iff.trans (same_foldl (fun k t => ?_)) ?_
    | split
    | with_reducible exact Iff.rfl

theorem same_armXing {l : List Part} {s0 s : State} (x : Nat)
    (h : [Part.xing] ⊆ l) : SameBut l s0 (armXing x s) ↔ SameBut l s0 s := by
  simp only [evs, List.map_cons, List.map_nil, List.cons_append, List.nil_append, List.append_nil, List.cons_subset, List.nil_subset, and_true, and_self] at h
  unfold armXing
  repeat' first
    | simp only [↓same_ite, ↓same_record, ↓same_setXing, h, or_true, true_or, ite_self, evs, List.map_cons, List.map_nil, List.cons_append, List.nil_append, List.append_nil, List.cons_subset, List.nil_subset, and_true, and_self]
    | with_reducible refine Iff.trans (same_forAll (fun k t => ?_)) ?_
    | with_reducible refine Iff.trans (same_foldl (fun k t => ?_)) ?_
    | split
    | with_reducible exact Iff.rfl

theorem same_armAll {l : List Part} {s0 s : State} 
    (h : [Part.xing] ⊆ l) : SameBut l s0 (armAll s) ↔ SameBut l s0 s := by
  simp only [evs, List.map_cons, List.map_nil, List.cons_append, List.nil_append, List.append_nil, List.cons_subset, List.nil_subset, and_true, and_self] at h
  unfold armAll
  repeat' first
    | simp only [↓same_ite, ↓same_record, ↓same_armXing, h, or_true, true_or, ite_self, evs, List.map_cons, List.map_nil, List.cons_append, List.nil_append, List.append_nil, List.cons_subset, List.nil_subset, and_true, and_self]
    | with_reducible refine Iff.trans (same_forAll (fun k t => ?_)) ?_
    | with_reducible refine Iff.trans (same_foldl (fun k t => ?_)) ?_
    | split
    | with_reducible exact Iff.rfl

theorem same_tallyAnswer {l : List Part} {s0 s : State} (u : Nat) (tag : BitVec 8) (rej : Nat)
    (h : [Part.tally] ⊆ l) : SameBut l s0 (tallyAnswer u tag rej s) ↔ SameBut l s0 s := by
  simp only [evs, List.map_cons, List.map_nil, List.cons_append, List.nil_append, List.append_nil, List.cons_subset, List.nil_subset, and_true, and_self] at h
  unfold tallyAnswer
  repeat' first
    | simp only [↓same_ite, ↓same_record, ↓same_setTally, h, or_true, true_or, ite_self, evs, List.map_cons, List.map_nil, List.cons_append, List.nil_append, List.append_nil, List.cons_subset, List.nil_subset, and_true, and_self]
    | with_reducible refine Iff.trans (same_forAll (fun k t => ?_)) ?_
    | with_reducible refine Iff.trans (same_foldl (fun k t => ?_)) ?_
    | split
    | with_reducible exact Iff.rfl

theorem same_doArm {l : List Part} {s0 : State} (u : Nat) (tag : BitVec 8) (c : Option CalEdges) (s : State)
    (h : [Part.tally] ++ evs .tally [u, 4, 7] ⊆ l) : SameBut l s0 (doArm u tag c s) ↔ SameBut l s0 s := by
  simp only [evs, List.map_cons, List.map_nil, List.cons_append, List.nil_append, List.append_nil, List.cons_subset, List.nil_subset, and_true, and_self] at h
  unfold doArm
  repeat' first
    | simp only [↓same_ite, ↓same_record, ↓same_tallyDone, ↓same_lostRepeats, ↓same_tallyAnswer, ↓same_setTally, ↓same_beginRepeat, h, or_true, true_or, ite_self, evs, List.map_cons, List.map_nil, List.cons_append, List.nil_append, List.append_nil, List.cons_subset, List.nil_subset, and_true, and_self]
    | with_reducible refine Iff.trans (same_forAll (fun k t => ?_)) ?_
    | with_reducible refine Iff.trans (same_foldl (fun k t => ?_)) ?_
    | split
    | with_reducible exact Iff.rfl

theorem same_nowPut {l : List Part} {s0 s : State} (k : Nat) (v : Word)
    (h : [Part.nowRegs] ⊆ l) : SameBut l s0 (nowPut k v s) ↔ SameBut l s0 s := by
  simp only [evs, List.map_cons, List.map_nil, List.cons_append, List.nil_append, List.append_nil, List.cons_subset, List.nil_subset, and_true, and_self] at h
  unfold nowPut
  repeat' first
    | simp only [↓same_ite, ↓same_record, h, or_true, true_or, ite_self, evs, List.map_cons, List.map_nil, List.cons_append, List.nil_append, List.append_nil, List.cons_subset, List.nil_subset, and_true, and_self]
    | with_reducible refine Iff.trans (same_forAll (fun k t => ?_)) ?_
    | with_reducible refine Iff.trans (same_foldl (fun k t => ?_)) ?_
    | split
    | with_reducible exact Iff.rfl

theorem same_armUnit0 {l : List Part} {s0 s : State} (at' win : Nat) (stops : List Nat)
    (h : [Part.nowRegs, .tally] ++ evs .tally [0, 1, 2, 3, 4, 7] ⊆ l) : SameBut l s0 (armUnit0 at' win stops s) ↔ SameBut l s0 s := by
  simp only [evs, List.map_cons, List.map_nil, List.cons_append, List.nil_append, List.append_nil, List.cons_subset, List.nil_subset, and_true, and_self] at h
  unfold armUnit0
  repeat' first
    | simp only [↓same_ite, ↓same_record, ↓same_doArm, ↓same_nowPut, ↓same_setTally, h, or_true, true_or, ite_self, evs, List.map_cons, List.map_nil, List.cons_append, List.nil_append, List.append_nil, List.cons_subset, List.nil_subset, and_true, and_self]
    | with_reducible refine Iff.trans (same_forAll (fun k t => ?_)) ?_
    | with_reducible refine Iff.trans (same_foldl (fun k t => ?_)) ?_
    | split
    | with_reducible exact Iff.rfl

theorem same_arrivalsOver {l : List Part} {s0 s : State} 
    (h : [Part.cal] ⊆ l) : SameBut l s0 (arrivalsOver s) ↔ SameBut l s0 s := by
  simp only [evs, List.map_cons, List.map_nil, List.cons_append, List.nil_append, List.append_nil, List.cons_subset, List.nil_subset, and_true, and_self] at h
  unfold arrivalsOver
  repeat' first
    | simp only [↓same_ite, ↓same_record, h, or_true, true_or, ite_self, evs, List.map_cons, List.map_nil, List.cons_append, List.nil_append, List.append_nil, List.cons_subset, List.nil_subset, and_true, and_self]
    | with_reducible refine Iff.trans (same_forAll (fun k t => ?_)) ?_
    | with_reducible refine Iff.trans (same_foldl (fun k t => ?_)) ?_
    | split
    | with_reducible exact Iff.rfl

theorem same_auditFails {l : List Part} {s0 s : State} (x n : Nat) (unpaired : Bool) (off : Int)
    (h : [Part.xing] ++ evs .xing [3] ⊆ l) : SameBut l s0 (auditFails x n unpaired off s) ↔ SameBut l s0 s := by
  simp only [evs, List.map_cons, List.map_nil, List.cons_append, List.nil_append, List.append_nil, List.cons_subset, List.nil_subset, and_true, and_self] at h
  unfold auditFails
  repeat' first
    | simp only [↓same_ite, ↓same_record, ↓same_raiseAbout, ↓same_setXing, h, or_true, true_or, ite_self, evs, List.map_cons, List.map_nil, List.cons_append, List.nil_append, List.append_nil, List.cons_subset, List.nil_subset, and_true, and_self]
    | with_reducible refine Iff.trans (same_forAll (fun k t => ?_)) ?_
    | with_reducible refine Iff.trans (same_foldl (fun k t => ?_)) ?_
    | split
    | with_reducible exact Iff.rfl

theorem same_mapXings {l : List Part} {s0 s : State} (f : Nat → Xing → Xing)
    (h : [Part.xing] ⊆ l) : SameBut l s0 (mapXings f s) ↔ SameBut l s0 s := by
  simp only [evs, List.map_cons, List.map_nil, List.cons_append, List.nil_append, List.append_nil, List.cons_subset, List.nil_subset, and_true, and_self] at h
  unfold mapXings
  repeat' first
    | simp only [↓same_ite, ↓same_record, h, or_true, true_or, ite_self, evs, List.map_cons, List.map_nil, List.cons_append, List.nil_append, List.append_nil, List.cons_subset, List.nil_subset, and_true, and_self]
    | with_reducible refine Iff.trans (same_forAll (fun k t => ?_)) ?_
    | with_reducible refine Iff.trans (same_foldl (fun k t => ?_)) ?_
    | split
    | with_reducible exact Iff.rfl

theorem same_disarmXings {l : List Part} {s0 s : State} (r : Nat)
    (h : [Part.xing] ⊆ l) : SameBut l s0 (disarmXings r s) ↔ SameBut l s0 s := by
  simp only [evs, List.map_cons, List.map_nil, List.cons_append, List.nil_append, List.append_nil, List.cons_subset, List.nil_subset, and_true, and_self] at h
  unfold disarmXings
  repeat' first
    | simp only [↓same_ite, ↓same_record, ↓same_mapXings, h, or_true, true_or, ite_self, evs, List.map_cons, List.map_nil, List.cons_append, List.nil_append, List.append_nil, List.cons_subset, List.nil_subset, and_true, and_self]
    | with_reducible refine Iff.trans (same_forAll (fun k t => ?_)) ?_
    | with_reducible refine Iff.trans (same_foldl (fun k t => ?_)) ?_
    | split
    | with_reducible exact Iff.rfl

theorem same_setRegion {l : List Part} {s0 s : State} (r : Nat) (x : Region)
    (h : [Part.regions] ⊆ l) : SameBut l s0 (setRegion r x s) ↔ SameBut l s0 s := by
  simp only [evs, List.map_cons, List.map_nil, List.cons_append, List.nil_append, List.append_nil, List.cons_subset, List.nil_subset, and_true, and_self] at h
  unfold setRegion
  repeat' first
    | simp only [↓same_ite, ↓same_record, h, or_true, true_or, ite_self, evs, List.map_cons, List.map_nil, List.cons_append, List.nil_append, List.append_nil, List.cons_subset, List.nil_subset, and_true, and_self]
    | with_reducible refine Iff.trans (same_forAll (fun k t => ?_)) ?_
    | with_reducible refine Iff.trans (same_foldl (fun k t => ?_)) ?_
    | split
    | with_reducible exact Iff.rfl

theorem same_leaveContract {l : List Part} {s0 s : State} (r : Nat) (e : Excl)
    (h : [Part.regions, .xing] ⊆ l) : SameBut l s0 (leaveContract r e s) ↔ SameBut l s0 s := by
  simp only [evs, List.map_cons, List.map_nil, List.cons_append, List.nil_append, List.append_nil, List.cons_subset, List.nil_subset, and_true, and_self] at h
  unfold leaveContract
  repeat' first
    | simp only [↓same_ite, ↓same_record, ↓same_disarmXings, ↓same_setRegion, h, or_true, true_or, ite_self, evs, List.map_cons, List.map_nil, List.cons_append, List.nil_append, List.append_nil, List.cons_subset, List.nil_subset, and_true, and_self]
    | with_reducible refine Iff.trans (same_forAll (fun k t => ?_)) ?_
    | with_reducible refine Iff.trans (same_foldl (fun k t => ?_)) ?_
    | split
    | with_reducible exact Iff.rfl

theorem same_autoExclude {l : List Part} {s0 s : State} (r : Nat)
    (h : [Part.flocks, .fold, .regions, .xing] ++ evs .flock [2, 9, 10] ++ evs .fold [9] ⊆ l) : SameBut l s0 (autoExclude r s) ↔ SameBut l s0 s := by
  simp only [evs, List.map_cons, List.map_nil, List.cons_append, List.nil_append, List.append_nil, List.cons_subset, List.nil_subset, and_true, and_self] at h
  unfold autoExclude
  repeat' first
    | simp only [↓same_ite, ↓same_record, ↓same_leaveContract, ↓same_raise, ↓same_updateSvc, h, or_true, true_or, ite_self, evs, List.map_cons, List.map_nil, List.cons_append, List.nil_append, List.append_nil, List.cons_subset, List.nil_subset, and_true, and_self]
    | with_reducible refine Iff.trans (same_forAll (fun k t => ?_)) ?_
    | with_reducible refine Iff.trans (same_foldl (fun k t => ?_)) ?_
    | split
    | with_reducible exact Iff.rfl

theorem same_snapPut {l : List Part} {s0 s : State} (set : Nat) (p : Port) (n : Snap)
    (h : [Part.snaps] ⊆ l) : SameBut l s0 (snapPut set p n s) ↔ SameBut l s0 s := by
  simp only [evs, List.map_cons, List.map_nil, List.cons_append, List.nil_append, List.append_nil, List.cons_subset, List.nil_subset, and_true, and_self] at h
  unfold snapPut
  repeat' first
    | simp only [↓same_ite, ↓same_record, h, or_true, true_or, ite_self, evs, List.map_cons, List.map_nil, List.cons_append, List.nil_append, List.append_nil, List.cons_subset, List.nil_subset, and_true, and_self]
    | with_reducible refine Iff.trans (same_forAll (fun k t => ?_)) ?_
    | with_reducible refine Iff.trans (same_foldl (fun k t => ?_)) ?_
    | split
    | with_reducible exact Iff.rfl

theorem same_setZone {l : List Part} {s0 s : State} (z : Nat) (v : ZoneSt)
    (h : [Part.zones] ⊆ l) : SameBut l s0 (setZone z v s) ↔ SameBut l s0 s := by
  simp only [evs, List.map_cons, List.map_nil, List.cons_append, List.nil_append, List.append_nil, List.cons_subset, List.nil_subset, and_true, and_self] at h
  unfold setZone
  repeat' first
    | simp only [↓same_ite, ↓same_record, h, or_true, true_or, ite_self, evs, List.map_cons, List.map_nil, List.cons_append, List.nil_append, List.append_nil, List.cons_subset, List.nil_subset, and_true, and_self]
    | with_reducible refine Iff.trans (same_forAll (fun k t => ?_)) ?_
    | with_reducible refine Iff.trans (same_foldl (fun k t => ?_)) ?_
    | split
    | with_reducible exact Iff.rfl

theorem same_decideZone {l : List Part} {s0 s : State} (z : Nat)
    (h : [Part.zones] ++ evs .zone [0, 1, 2] ⊆ l) : SameBut l s0 (decideZone z s) ↔ SameBut l s0 s := by
  simp only [evs, List.map_cons, List.map_nil, List.cons_append, List.nil_append, List.append_nil, List.cons_subset, List.nil_subset, and_true, and_self] at h
  unfold decideZone
  repeat' first
    | simp only [↓same_ite, ↓same_record, ↓same_raiseAbout, ↓same_setZone, h, or_true, true_or, ite_self, evs, List.map_cons, List.map_nil, List.cons_append, List.nil_append, List.append_nil, List.cons_subset, List.nil_subset, and_true, and_self]
    | with_reducible refine Iff.trans (same_forAll (fun k t => ?_)) ?_
    | with_reducible refine Iff.trans (same_foldl (fun k t => ?_)) ?_
    | split
    | with_reducible exact Iff.rfl

theorem same_ballastDecide {l : List Part} {s0 s : State} 
    (h : [Part.zones] ++ evs .zone [0, 1, 2] ⊆ l) : SameBut l s0 (ballastDecide s) ↔ SameBut l s0 s := by
  simp only [evs, List.map_cons, List.map_nil, List.cons_append, List.nil_append, List.append_nil, List.cons_subset, List.nil_subset, and_true, and_self] at h
  unfold ballastDecide
  repeat' first
    | simp only [↓same_ite, ↓same_record, ↓same_decideZone, h, or_true, true_or, ite_self, evs, List.map_cons, List.map_nil, List.cons_append, List.nil_append, List.append_nil, List.cons_subset, List.nil_subset, and_true, and_self]
    | with_reducible refine Iff.trans (same_forAll (fun k t => ?_)) ?_
    | with_reducible refine Iff.trans (same_foldl (fun k t => ?_)) ?_
    | split
    | with_reducible exact Iff.rfl

theorem same_bandBeat {l : List Part} {s0 s : State} (b : Beat)
    (h : [Part.answers, .data, .gens] ⊆ l) : SameBut l s0 (bandBeat b s) ↔ SameBut l s0 s := by
  simp only [evs, List.map_cons, List.map_nil, List.cons_append, List.nil_append, List.append_nil, List.cons_subset, List.nil_subset, and_true, and_self] at h
  unfold bandBeat
  repeat' first
    | simp only [↓same_ite, ↓same_record, ↓same_answer, ↓same_setGen, h, or_true, true_or, ite_self, evs, List.map_cons, List.map_nil, List.cons_append, List.nil_append, List.append_nil, List.cons_subset, List.nil_subset, and_true, and_self]
    | with_reducible refine Iff.trans (same_forAll (fun k t => ?_)) ?_
    | with_reducible refine Iff.trans (same_foldl (fun k t => ?_)) ?_
    | split
    | with_reducible exact Iff.rfl

theorem same_commitFirmware {l : List Part} {s0 s : State} 
    (h : [Part.shep] ⊆ l) : SameBut l s0 (commitFirmware s) ↔ SameBut l s0 s := by
  simp only [evs, List.map_cons, List.map_nil, List.cons_append, List.nil_append, List.append_nil, List.cons_subset, List.nil_subset, and_true, and_self] at h
  unfold commitFirmware
  repeat' first
    | simp only [↓same_ite, ↓same_record, h, or_true, true_or, ite_self, evs, List.map_cons, List.map_nil, List.cons_append, List.nil_append, List.append_nil, List.cons_subset, List.nil_subset, and_true, and_self]
    | with_reducible refine Iff.trans (same_forAll (fun k t => ?_)) ?_
    | with_reducible refine Iff.trans (same_foldl (fun k t => ?_)) ?_
    | split
    | with_reducible exact Iff.rfl

theorem same_commitForecast {l : List Part} {s0 s : State} 
    (h : [Part.fcst] ++ evs .fcst [3] ⊆ l) : SameBut l s0 (commitForecast s) ↔ SameBut l s0 s := by
  simp only [evs, List.map_cons, List.map_nil, List.cons_append, List.nil_append, List.append_nil, List.cons_subset, List.nil_subset, and_true, and_self] at h
  unfold commitForecast
  repeat' first
    | simp only [↓same_ite, ↓same_record, ↓same_raise, h, or_true, true_or, ite_self, evs, List.map_cons, List.map_nil, List.cons_append, List.nil_append, List.append_nil, List.cons_subset, List.nil_subset, and_true, and_self]
    | with_reducible refine Iff.trans (same_forAll (fun k t => ?_)) ?_
    | with_reducible refine Iff.trans (same_foldl (fun k t => ?_)) ?_
    | split
    | with_reducible exact Iff.rfl

theorem same_commitBell {l : List Part} {s0 s : State} 
    (h : [Part.fcst, .shep] ++ evs .fcst [3] ⊆ l) : SameBut l s0 (commitBell s) ↔ SameBut l s0 s := by
  simp only [evs, List.map_cons, List.map_nil, List.cons_append, List.nil_append, List.append_nil, List.cons_subset, List.nil_subset, and_true, and_self] at h
  unfold commitBell
  repeat' first
    | simp only [↓same_ite, ↓same_record, ↓same_commitFirmware, ↓same_commitForecast, h, or_true, true_or, ite_self, evs, List.map_cons, List.map_nil, List.cons_append, List.nil_append, List.append_nil, List.cons_subset, List.nil_subset, and_true, and_self]
    | with_reducible refine Iff.trans (same_forAll (fun k t => ?_)) ?_
    | with_reducible refine Iff.trans (same_foldl (fun k t => ?_)) ?_
    | split
    | with_reducible exact Iff.rfl

theorem same_requestDeferral {l : List Part} {s0 s : State} 
    (h : [Part.fold, .regions] ++ evs .cal [3] ⊆ l) : SameBut l s0 (requestDeferral s) ↔ SameBut l s0 s := by
  simp only [evs, List.map_cons, List.map_nil, List.cons_append, List.nil_append, List.append_nil, List.cons_subset, List.nil_subset, and_true, and_self] at h
  unfold requestDeferral
  repeat' first
    | simp only [↓same_ite, ↓same_record, ↓same_raiseAbout, ↓same_setRegion, h, or_true, true_or, ite_self, evs, List.map_cons, List.map_nil, List.cons_append, List.nil_append, List.append_nil, List.cons_subset, List.nil_subset, and_true, and_self]
    | with_reducible refine Iff.trans (same_forAll (fun k t => ?_)) ?_
    | with_reducible refine Iff.trans (same_foldl (fun k t => ?_)) ?_
    | split
    | with_reducible exact Iff.rfl

theorem same_planBand {l : List Part} {s0 s : State} (r : Nat)
    (h : [Part.gens] ++ evs .rcg [0] ⊆ l) : SameBut l s0 (planBand r s) ↔ SameBut l s0 s := by
  simp only [evs, List.map_cons, List.map_nil, List.cons_append, List.nil_append, List.append_nil, List.cons_subset, List.nil_subset, and_true, and_self] at h
  unfold planBand
  repeat' first
    | simp only [↓same_ite, ↓same_record, ↓same_raiseAbout, ↓same_setGen, h, or_true, true_or, ite_self, evs, List.map_cons, List.map_nil, List.cons_append, List.nil_append, List.append_nil, List.cons_subset, List.nil_subset, and_true, and_self]
    | with_reducible refine Iff.trans (same_forAll (fun k t => ?_)) ?_
    | with_reducible refine Iff.trans (same_foldl (fun k t => ?_)) ?_
    | split
    | with_reducible exact Iff.rfl

theorem same_tailBands {l : List Part} {s0 s : State} (fs : List Nat)
    (h : [Part.gens] ++ evs .rcg [0] ⊆ l) : SameBut l s0 (tailBands fs s) ↔ SameBut l s0 s := by
  simp only [evs, List.map_cons, List.map_nil, List.cons_append, List.nil_append, List.append_nil, List.cons_subset, List.nil_subset, and_true, and_self] at h
  unfold tailBands
  repeat' first
    | simp only [↓same_ite, ↓same_record, ↓same_planBand, h, or_true, true_or, ite_self, evs, List.map_cons, List.map_nil, List.cons_append, List.nil_append, List.append_nil, List.cons_subset, List.nil_subset, and_true, and_self]
    | with_reducible refine Iff.trans (same_forAll (fun k t => ?_)) ?_
    | with_reducible refine Iff.trans (same_foldl (fun k t => ?_)) ?_
    | split
    | with_reducible exact Iff.rfl

theorem same_endRestrict {l : List Part} {s0 s : State} (r : Nat)
    (h : [Part.regions] ⊆ l) : SameBut l s0 (endRestrict r s) ↔ SameBut l s0 s := by
  simp only [evs, List.map_cons, List.map_nil, List.cons_append, List.nil_append, List.append_nil, List.cons_subset, List.nil_subset, and_true, and_self] at h
  unfold endRestrict
  repeat' first
    | simp only [↓same_ite, ↓same_record, ↓same_setRegion, h, or_true, true_or, ite_self, evs, List.map_cons, List.map_nil, List.cons_append, List.nil_append, List.append_nil, List.cons_subset, List.nil_subset, and_true, and_self]
    | with_reducible refine Iff.trans (same_forAll (fun k t => ?_)) ?_
    | with_reducible refine Iff.trans (same_foldl (fun k t => ?_)) ?_
    | split
    | with_reducible exact Iff.rfl

theorem same_evalCover {l : List Part} {s0 s : State} (win : Nat → Window) (f : Nat)
    (h : [Part.flocks, .gens] ++ evs .flock [3] ⊆ l) : SameBut l s0 (evalCover win f s) ↔ SameBut l s0 s := by
  simp only [evs, List.map_cons, List.map_nil, List.cons_append, List.nil_append, List.append_nil, List.cons_subset, List.nil_subset, and_true, and_self] at h
  unfold evalCover
  repeat' first
    | simp only [↓same_ite, ↓same_record, ↓same_raiseAbout, ↓same_setFlock, ↓same_setGen, h, or_true, true_or, ite_self, evs, List.map_cons, List.map_nil, List.cons_append, List.nil_append, List.append_nil, List.cons_subset, List.nil_subset, and_true, and_self]
    | with_reducible refine Iff.trans (same_forAll (fun k t => ?_)) ?_
    | with_reducible refine Iff.trans (same_foldl (fun k t => ?_)) ?_
    | split
    | with_reducible exact Iff.rfl

theorem same_startPlannedStop {l : List Part} {s0 s : State} (r : Nat)
    (h : [Part.gens] ⊆ l) : SameBut l s0 (startPlannedStop r s) ↔ SameBut l s0 s := by
  simp only [evs, List.map_cons, List.map_nil, List.cons_append, List.nil_append, List.append_nil, List.cons_subset, List.nil_subset, and_true, and_self] at h
  unfold startPlannedStop
  repeat' first
    | simp only [↓same_ite, ↓same_record, ↓same_setGen, h, or_true, true_or, ite_self, evs, List.map_cons, List.map_nil, List.cons_append, List.nil_append, List.append_nil, List.cons_subset, List.nil_subset, and_true, and_self]
    | with_reducible refine Iff.trans (same_forAll (fun k t => ?_)) ?_
    | with_reducible refine Iff.trans (same_foldl (fun k t => ?_)) ?_
    | split
    | with_reducible exact Iff.rfl

theorem same_tailEnds {l : List Part} {s0 s : State} 
    (h : [Part.regions] ⊆ l) : SameBut l s0 (tailEnds s) ↔ SameBut l s0 s := by
  simp only [evs, List.map_cons, List.map_nil, List.cons_append, List.nil_append, List.append_nil, List.cons_subset, List.nil_subset, and_true, and_self] at h
  unfold tailEnds
  repeat' first
    | simp only [↓same_ite, ↓same_record, h, or_true, true_or, ite_self, evs, List.map_cons, List.map_nil, List.cons_append, List.nil_append, List.append_nil, List.cons_subset, List.nil_subset, and_true, and_self]
    | with_reducible refine Iff.trans (same_forAll (fun k t => ?_)) ?_
    | with_reducible refine Iff.trans (same_foldl (fun k t => ?_)) ?_
    | split
    | with_reducible exact Iff.rfl

theorem same_tailRest {l : List Part} {s0 s : State} (fs : List Nat)
    (h : [Part.flocks, .gens, .regions] ++ evs .flock [2, 3, 9, 10] ⊆ l) : SameBut l s0 (tailRest fs s) ↔ SameBut l s0 s := by
  simp only [evs, List.map_cons, List.map_nil, List.cons_append, List.nil_append, List.append_nil, List.cons_subset, List.nil_subset, and_true, and_self] at h
  unfold tailRest
  repeat' first
    | simp only [↓same_ite, ↓same_record, ↓same_endRestrict, ↓same_evalCover, ↓same_setFlock, ↓same_startPlannedStop, ↓same_tailEnds, ↓same_updateSvc, h, or_true, true_or, ite_self, evs, List.map_cons, List.map_nil, List.cons_append, List.nil_append, List.append_nil, List.cons_subset, List.nil_subset, and_true, and_self]
    | with_reducible refine Iff.trans (same_forAll (fun k t => ?_)) ?_
    | with_reducible refine Iff.trans (same_foldl (fun k t => ?_)) ?_
    | split
    | with_reducible exact Iff.rfl

theorem same_beginTail {l : List Part} {s0 s : State} 
    (h : [Part.fcst, .flocks, .fold, .gens, .regions, .shep] ++ evs .cal [3] ++ evs .fcst [3] ++ evs .flock [2, 3, 9, 10] ++ evs .rcg [0] ⊆ l) : SameBut l s0 (beginTail s) ↔ SameBut l s0 s := by
  simp only [evs, List.map_cons, List.map_nil, List.cons_append, List.nil_append, List.append_nil, List.cons_subset, List.nil_subset, and_true, and_self] at h
  unfold beginTail
  repeat' first
    | simp only [↓same_ite, ↓same_record, ↓same_commitBell, ↓same_requestDeferral, ↓same_tailBands, ↓same_tailRest, h, or_true, true_or, ite_self, evs, List.map_cons, List.map_nil, List.cons_append, List.nil_append, List.append_nil, List.cons_subset, List.nil_subset, and_true, and_self]
    | with_reducible refine Iff.trans (same_forAll (fun k t => ?_)) ?_
    | with_reducible refine Iff.trans (same_foldl (fun k t => ?_)) ?_
    | split
    | with_reducible exact Iff.rfl

theorem same_setRestrict {l : List Part} {s0 s : State} (r : Nat)
    (h : [Part.regions] ++ evs .rcg [2] ⊆ l) : SameBut l s0 (setRestrict r s) ↔ SameBut l s0 s := by
  simp only [evs, List.map_cons, List.map_nil, List.cons_append, List.nil_append, List.append_nil, List.cons_subset, List.nil_subset, and_true, and_self] at h
  unfold setRestrict
  repeat' first
    | simp only [↓same_ite, ↓same_record, ↓same_raiseAbout, ↓same_setRegion, h, or_true, true_or, ite_self, evs, List.map_cons, List.map_nil, List.cons_append, List.nil_append, List.append_nil, List.cons_subset, List.nil_subset, and_true, and_self]
    | with_reducible refine Iff.trans (same_forAll (fun k t => ?_)) ?_
    | with_reducible refine Iff.trans (same_foldl (fun k t => ?_)) ?_
    | split
    | with_reducible exact Iff.rfl

theorem same_bellBand {l : List Part} {s0 s : State} (r : Nat)
    (h : [Part.gens, .regions] ++ evs .rcg [1, 2, 3] ⊆ l) : SameBut l s0 (bellBand r s) ↔ SameBut l s0 s := by
  simp only [evs, List.map_cons, List.map_nil, List.cons_append, List.nil_append, List.append_nil, List.cons_subset, List.nil_subset, and_true, and_self] at h
  unfold bellBand
  repeat' first
    | simp only [↓same_ite, ↓same_record, ↓same_raiseAbout, ↓same_setGen, ↓same_setRegion, ↓same_setRestrict, h, or_true, true_or, ite_self, evs, List.map_cons, List.map_nil, List.cons_append, List.nil_append, List.append_nil, List.cons_subset, List.nil_subset, and_true, and_self]
    | with_reducible refine Iff.trans (same_forAll (fun k t => ?_)) ?_
    | with_reducible refine Iff.trans (same_foldl (fun k t => ?_)) ?_
    | split
    | with_reducible exact Iff.rfl

theorem same_capFloors {l : List Part} {s0 s : State} (n k f g : Nat)
    (h : evs .zone [5] ⊆ l) : SameBut l s0 (capFloors n k f g s) ↔ SameBut l s0 s := by
  simp only [evs, List.map_cons, List.map_nil, List.cons_append, List.nil_append, List.append_nil, List.cons_subset, List.nil_subset, and_true, and_self] at h
  unfold capFloors
  repeat' first
    | simp only [↓same_ite, ↓same_record, ↓same_raiseAbout, h, or_true, true_or, ite_self, evs, List.map_cons, List.map_nil, List.cons_append, List.nil_append, List.append_nil, List.cons_subset, List.nil_subset, and_true, and_self]
    | with_reducible refine Iff.trans (same_forAll (fun k t => ?_)) ?_
    | with_reducible refine Iff.trans (same_foldl (fun k t => ?_)) ?_
    | split
    | with_reducible exact Iff.rfl

theorem same_decideK {l : List Part} {s0 s : State} (n k f g : Nat)
    (h : [Part.fold, .zones] ++ evs .zone [5] ⊆ l) : SameBut l s0 (decideK n k f g s) ↔ SameBut l s0 s := by
  simp only [evs, List.map_cons, List.map_nil, List.cons_append, List.nil_append, List.append_nil, List.cons_subset, List.nil_subset, and_true, and_self] at h
  unfold decideK
  repeat' first
    | simp only [↓same_ite, ↓same_record, ↓same_capFloors, ↓same_setClass, h, or_true, true_or, ite_self, evs, List.map_cons, List.map_nil, List.cons_append, List.nil_append, List.append_nil, List.cons_subset, List.nil_subset, and_true, and_self]
    | with_reducible refine Iff.trans (same_forAll (fun k t => ?_)) ?_
    | with_reducible refine Iff.trans (same_foldl (fun k t => ?_)) ?_
    | split
    | with_reducible exact Iff.rfl

theorem same_bellClasses {l : List Part} {s0 s : State} (first : Bool) (charged was : Nat → Bool) (ks : Nat → Nat × Bool) (flat fresh : Nat → Bool) (f g : Nat)
    (h : [Part.fold, .zones] ++ evs .fold [3, 7, 8] ++ evs .zone [5] ⊆ l) : SameBut l s0 (bellClasses first charged was ks flat fresh f g s) ↔ SameBut l s0 s := by
  simp only [evs, List.map_cons, List.map_nil, List.cons_append, List.nil_append, List.append_nil, List.cons_subset, List.nil_subset, and_true, and_self] at h
  unfold bellClasses
  repeat' first
    | simp only [↓same_ite, ↓same_record, ↓same_adapt, ↓same_decideK, ↓same_raise, ↓same_setClass, ↓same_setKRej, h, or_true, true_or, ite_self, evs, List.map_cons, List.map_nil, List.cons_append, List.nil_append, List.append_nil, List.cons_subset, List.nil_subset, and_true, and_self]
    | with_reducible refine Iff.trans (same_forAll (fun k t => ?_)) ?_
    | with_reducible refine Iff.trans (same_foldl (fun k t => ?_)) ?_
    | split
    | with_reducible exact Iff.rfl

theorem same_bellPut {l : List Part} {s0 s : State} (k : Nat) (v : Word)
    (h : [Part.bellWritten, .check] ⊆ l) : SameBut l s0 (bellPut k v s) ↔ SameBut l s0 s := by
  simp only [evs, List.map_cons, List.map_nil, List.cons_append, List.nil_append, List.append_nil, List.cons_subset, List.nil_subset, and_true, and_self] at h
  unfold bellPut
  repeat' first
    | simp only [↓same_ite, ↓same_record, h, or_true, true_or, ite_self, evs, List.map_cons, List.map_nil, List.cons_append, List.nil_append, List.append_nil, List.cons_subset, List.nil_subset, and_true, and_self]
    | with_reducible refine Iff.trans (same_forAll (fun k t => ?_)) ?_
    | with_reducible refine Iff.trans (same_foldl (fun k t => ?_)) ?_
    | split
    | with_reducible exact Iff.rfl

theorem same_enableSyn {l : List Part} {s0 s : State} (y : Syn)
    (h : [Part.root] ++ evs .root [8] ⊆ l) : SameBut l s0 (enableSyn y s) ↔ SameBut l s0 s := by
  simp only [evs, List.map_cons, List.map_nil, List.cons_append, List.nil_append, List.append_nil, List.cons_subset, List.nil_subset, and_true, and_self] at h
  unfold enableSyn
  repeat' first
    | simp only [↓same_ite, ↓same_record, ↓same_startAcquire, h, or_true, true_or, ite_self, evs, List.map_cons, List.map_nil, List.cons_append, List.nil_append, List.append_nil, List.cons_subset, List.nil_subset, and_true, and_self]
    | with_reducible refine Iff.trans (same_forAll (fun k t => ?_)) ?_
    | with_reducible refine Iff.trans (same_foldl (fun k t => ?_)) ?_
    | split
    | with_reducible exact Iff.rfl

theorem same_sparePower {l : List Part} {s0 s : State} 
    (h : [Part.root] ++ evs .root [8] ⊆ l) : SameBut l s0 (sparePower s) ↔ SameBut l s0 s := by
  simp only [evs, List.map_cons, List.map_nil, List.cons_append, List.nil_append, List.append_nil, List.cons_subset, List.nil_subset, and_true, and_self] at h
  unfold sparePower
  repeat' first
    | simp only [↓same_ite, ↓same_record, ↓same_enableSyn, ↓same_setSyn, h, or_true, true_or, ite_self, evs, List.map_cons, List.map_nil, List.cons_append, List.nil_append, List.append_nil, List.cons_subset, List.nil_subset, and_true, and_self]
    | with_reducible refine Iff.trans (same_forAll (fun k t => ?_)) ?_
    | with_reducible refine Iff.trans (same_foldl (fun k t => ?_)) ?_
    | split
    | with_reducible exact Iff.rfl

theorem same_bypassEntered {l : List Part} {s0 s : State} 
    (h : [Part.regions, .root] ++ evs .root [3, 8] ⊆ l) : SameBut l s0 (bypassEntered s) ↔ SameBut l s0 s := by
  simp only [evs, List.map_cons, List.map_nil, List.cons_append, List.nil_append, List.append_nil, List.cons_subset, List.nil_subset, and_true, and_self] at h
  unfold bypassEntered
  repeat' first
    | simp only [↓same_ite, ↓same_record, ↓same_raise, ↓same_sparePower, h, or_true, true_or, ite_self, evs, List.map_cons, List.map_nil, List.cons_append, List.nil_append, List.append_nil, List.cons_subset, List.nil_subset, and_true, and_self]
    | with_reducible refine Iff.trans (same_forAll (fun k t => ?_)) ?_
    | with_reducible refine Iff.trans (same_foldl (fun k t => ?_)) ?_
    | split
    | with_reducible exact Iff.rfl

theorem same_cableFlash {l : List Part} {s0 s : State} 
    (h : [Part.lc] ⊆ l) : SameBut l s0 (cableFlash s) ↔ SameBut l s0 s := by
  simp only [evs, List.map_cons, List.map_nil, List.cons_append, List.nil_append, List.append_nil, List.cons_subset, List.nil_subset, and_true, and_self] at h
  unfold cableFlash
  repeat' first
    | simp only [↓same_ite, ↓same_record, h, or_true, true_or, ite_self, evs, List.map_cons, List.map_nil, List.cons_append, List.nil_append, List.append_nil, List.cons_subset, List.nil_subset, and_true, and_self]
    | with_reducible refine Iff.trans (same_forAll (fun k t => ?_)) ?_
    | with_reducible refine Iff.trans (same_foldl (fun k t => ?_)) ?_
    | split
    | with_reducible exact Iff.rfl

theorem same_calAnswer {l : List Part} {s0 s : State} (rej : Nat)
    (h : [Part.cal] ⊆ l) : SameBut l s0 (calAnswer rej s) ↔ SameBut l s0 s := by
  simp only [evs, List.map_cons, List.map_nil, List.cons_append, List.nil_append, List.append_nil, List.cons_subset, List.nil_subset, and_true, and_self] at h
  unfold calAnswer
  repeat' first
    | simp only [↓same_ite, ↓same_record, h, or_true, true_or, ite_self, evs, List.map_cons, List.map_nil, List.cons_append, List.nil_append, List.append_nil, List.cons_subset, List.nil_subset, and_true, and_self]
    | with_reducible refine Iff.trans (same_forAll (fun k t => ?_)) ?_
    | with_reducible refine Iff.trans (same_foldl (fun k t => ?_)) ?_
    | split
    | with_reducible exact Iff.rfl

theorem same_mapGens {l : List Part} {s0 s : State} (f : Nat → Gen → Gen)
    (h : [Part.gens] ⊆ l) : SameBut l s0 (mapGens f s) ↔ SameBut l s0 s := by
  simp only [evs, List.map_cons, List.map_nil, List.cons_append, List.nil_append, List.append_nil, List.cons_subset, List.nil_subset, and_true, and_self] at h
  unfold mapGens
  repeat' first
    | simp only [↓same_ite, ↓same_record, h, or_true, true_or, ite_self, evs, List.map_cons, List.map_nil, List.cons_append, List.nil_append, List.append_nil, List.cons_subset, List.nil_subset, and_true, and_self]
    | with_reducible refine Iff.trans (same_forAll (fun k t => ?_)) ?_
    | with_reducible refine Iff.trans (same_foldl (fun k t => ?_)) ?_
    | split
    | with_reducible exact Iff.rfl

theorem same_loadImage {l : List Part} {s0 s : State} (d : Mem)
    (h : [Part.gens, .root, .tally] ⊆ l) : SameBut l s0 (loadImage d s) ↔ SameBut l s0 s := by
  simp only [evs, List.map_cons, List.map_nil, List.cons_append, List.nil_append, List.append_nil, List.cons_subset, List.nil_subset, and_true, and_self] at h
  unfold loadImage
  repeat' first
    | simp only [↓same_ite, ↓same_record, ↓same_mapGens, ↓same_setTally, h, or_true, true_or, ite_self, evs, List.map_cons, List.map_nil, List.cons_append, List.nil_append, List.append_nil, List.cons_subset, List.nil_subset, and_true, and_self]
    | with_reducible refine Iff.trans (same_forAll (fun k t => ?_)) ?_
    | with_reducible refine Iff.trans (same_foldl (fun k t => ?_)) ?_
    | split
    | with_reducible exact Iff.rfl

theorem same_mapFlocks {l : List Part} {s0 s : State} (f : Nat → Flock → Flock)
    (h : [Part.flocks] ⊆ l) : SameBut l s0 (mapFlocks f s) ↔ SameBut l s0 s := by
  simp only [evs, List.map_cons, List.map_nil, List.cons_append, List.nil_append, List.append_nil, List.cons_subset, List.nil_subset, and_true, and_self] at h
  unfold mapFlocks
  repeat' first
    | simp only [↓same_ite, ↓same_record, h, or_true, true_or, ite_self, evs, List.map_cons, List.map_nil, List.cons_append, List.nil_append, List.append_nil, List.cons_subset, List.nil_subset, and_true, and_self]
    | with_reducible refine Iff.trans (same_forAll (fun k t => ?_)) ?_
    | with_reducible refine Iff.trans (same_foldl (fun k t => ?_)) ?_
    | split
    | with_reducible exact Iff.rfl

theorem same_loadTaps {l : List Part} {s0 s : State} (d : Mem)
    (h : [Part.flocks] ⊆ l) : SameBut l s0 (loadTaps d s) ↔ SameBut l s0 s := by
  simp only [evs, List.map_cons, List.map_nil, List.cons_append, List.nil_append, List.append_nil, List.cons_subset, List.nil_subset, and_true, and_self] at h
  unfold loadTaps
  repeat' first
    | simp only [↓same_ite, ↓same_record, ↓same_mapFlocks, h, or_true, true_or, ite_self, evs, List.map_cons, List.map_nil, List.cons_append, List.nil_append, List.append_nil, List.cons_subset, List.nil_subset, and_true, and_self]
    | with_reducible refine Iff.trans (same_forAll (fun k t => ?_)) ?_
    | with_reducible refine Iff.trans (same_foldl (fun k t => ?_)) ?_
    | split
    | with_reducible exact Iff.rfl

theorem same_factoryMode {l : List Part} {s0 s : State} 
    (h : [Part.flocks, .gens, .root, .tally] ⊆ l) : SameBut l s0 (factoryMode s) ↔ SameBut l s0 s := by
  simp only [evs, List.map_cons, List.map_nil, List.cons_append, List.nil_append, List.append_nil, List.cons_subset, List.nil_subset, and_true, and_self] at h
  unfold factoryMode
  repeat' first
    | simp only [↓same_ite, ↓same_record, ↓same_loadImage, ↓same_loadTaps, h, or_true, true_or, ite_self, evs, List.map_cons, List.map_nil, List.cons_append, List.nil_append, List.append_nil, List.cons_subset, List.nil_subset, and_true, and_self]
    | with_reducible refine Iff.trans (same_forAll (fun k t => ?_)) ?_
    | with_reducible refine Iff.trans (same_foldl (fun k t => ?_)) ?_
    | split
    | with_reducible exact Iff.rfl

theorem same_noteArrival {l : List Part} {s0 s : State} (src : Nat)
    (h : [Part.cal] ⊆ l) : SameBut l s0 (noteArrival src s) ↔ SameBut l s0 s := by
  simp only [evs, List.map_cons, List.map_nil, List.cons_append, List.nil_append, List.append_nil, List.cons_subset, List.nil_subset, and_true, and_self] at h
  unfold noteArrival
  repeat' first
    | simp only [↓same_ite, ↓same_record, h, or_true, true_or, ite_self, evs, List.map_cons, List.map_nil, List.cons_append, List.nil_append, List.append_nil, List.cons_subset, List.nil_subset, and_true, and_self]
    | with_reducible refine Iff.trans (same_forAll (fun k t => ?_)) ?_
    | with_reducible refine Iff.trans (same_foldl (fun k t => ?_)) ?_
    | split
    | with_reducible exact Iff.rfl

theorem same_flockDue {l : List Part} {s0 s : State} (f : Nat)
    (h : [Part.cal, .flocks, .gens, .regions] ⊆ l) : SameBut l s0 (flockDue f s) ↔ SameBut l s0 s := by
  simp only [evs, List.map_cons, List.map_nil, List.cons_append, List.nil_append, List.append_nil, List.cons_subset, List.nil_subset, and_true, and_self] at h
  unfold flockDue
  repeat' first
    | simp only [↓same_ite, ↓same_record, ↓same_noteArrival, ↓same_setFlock, ↓same_setGen, ↓same_setRegion, h, or_true, true_or, ite_self, evs, List.map_cons, List.map_nil, List.cons_append, List.nil_append, List.append_nil, List.cons_subset, List.nil_subset, and_true, and_self]
    | with_reducible refine Iff.trans (same_forAll (fun k t => ?_)) ?_
    | with_reducible refine Iff.trans (same_foldl (fun k t => ?_)) ?_
    | split
    | with_reducible exact Iff.rfl

theorem same_triggerFlock {l : List Part} {s0 s : State} (f : Nat)
    (h : [Part.cal, .flocks, .gens, .regions] ⊆ l) : SameBut l s0 (triggerFlock f s) ↔ SameBut l s0 s := by
  simp only [evs, List.map_cons, List.map_nil, List.cons_append, List.nil_append, List.append_nil, List.cons_subset, List.nil_subset, and_true, and_self] at h
  unfold triggerFlock
  repeat' first
    | simp only [↓same_ite, ↓same_record, ↓same_flockDue, h, or_true, true_or, ite_self, evs, List.map_cons, List.map_nil, List.cons_append, List.nil_append, List.append_nil, List.cons_subset, List.nil_subset, and_true, and_self]
    | with_reducible refine Iff.trans (same_forAll (fun k t => ?_)) ?_
    | with_reducible refine Iff.trans (same_foldl (fun k t => ?_)) ?_
    | split
    | with_reducible exact Iff.rfl

theorem same_islandDue {l : List Part} {s0 s : State} 
    (h : [Part.cal, .root, .tally] ⊆ l) : SameBut l s0 (islandDue s) ↔ SameBut l s0 s := by
  simp only [evs, List.map_cons, List.map_nil, List.cons_append, List.nil_append, List.append_nil, List.cons_subset, List.nil_subset, and_true, and_self] at h
  unfold islandDue
  repeat' first
    | simp only [↓same_ite, ↓same_record, ↓same_noteArrival, ↓same_setTally, h, or_true, true_or, ite_self, evs, List.map_cons, List.map_nil, List.cons_append, List.nil_append, List.append_nil, List.cons_subset, List.nil_subset, and_true, and_self]
    | with_reducible refine Iff.trans (same_forAll (fun k t => ?_)) ?_
    | with_reducible refine Iff.trans (same_foldl (fun k t => ?_)) ?_
    | split
    | with_reducible exact Iff.rfl

theorem same_triggerIsland {l : List Part} {s0 s : State} 
    (h : [Part.cal, .root, .tally] ⊆ l) : SameBut l s0 (triggerIsland s) ↔ SameBut l s0 s := by
  simp only [evs, List.map_cons, List.map_nil, List.cons_append, List.nil_append, List.append_nil, List.cons_subset, List.nil_subset, and_true, and_self] at h
  unfold triggerIsland
  repeat' first
    | simp only [↓same_ite, ↓same_record, ↓same_islandDue, h, or_true, true_or, ite_self, evs, List.map_cons, List.map_nil, List.cons_append, List.nil_append, List.append_nil, List.cons_subset, List.nil_subset, and_true, and_self]
    | with_reducible refine Iff.trans (same_forAll (fun k t => ?_)) ?_
    | with_reducible refine Iff.trans (same_foldl (fun k t => ?_)) ?_
    | split
    | with_reducible exact Iff.rfl

theorem same_calCfgApplied {l : List Part} {s0 : State} (before s : State)
    (h : [Part.cal, .flocks, .gens, .regions, .root, .tally] ⊆ l) : SameBut l s0 (calCfgApplied before s) ↔ SameBut l s0 s := by
  simp only [evs, List.map_cons, List.map_nil, List.cons_append, List.nil_append, List.append_nil, List.cons_subset, List.nil_subset, and_true, and_self] at h
  unfold calCfgApplied
  repeat' first
    | simp only [↓same_ite, ↓same_record, ↓same_factoryMode, ↓same_triggerFlock, ↓same_triggerIsland, h, or_true, true_or, ite_self, evs, List.map_cons, List.map_nil, List.cons_append, List.nil_append, List.append_nil, List.cons_subset, List.nil_subset, and_true, and_self]
    | with_reducible refine Iff.trans (same_forAll (fun k t => ?_)) ?_
    | with_reducible refine Iff.trans (same_foldl (fun k t => ?_)) ?_
    | split
    | with_reducible exact Iff.rfl

theorem same_calDoneCheck {l : List Part} {s0 s : State} (f : Nat)
    (h : [Part.cal, .flocks, .gens, .regions] ++ evs .cal [0] ⊆ l) : SameBut l s0 (calDoneCheck f s) ↔ SameBut l s0 s := by
  simp only [evs, List.map_cons, List.map_nil, List.cons_append, List.nil_append, List.append_nil, List.cons_subset, List.nil_subset, and_true, and_self] at h
  unfold calDoneCheck
  repeat' first
    | simp only [↓same_ite, ↓same_record, ↓same_flockDue, ↓same_raiseAbout, h, or_true, true_or, ite_self, evs, List.map_cons, List.map_nil, List.cons_append, List.nil_append, List.append_nil, List.cons_subset, List.nil_subset, and_true, and_self]
    | with_reducible refine Iff.trans (same_forAll (fun k t => ?_)) ?_
    | with_reducible refine Iff.trans (same_foldl (fun k t => ?_)) ?_
    | split
    | with_reducible exact Iff.rfl

theorem same_retryClaim {l : List Part} {s0 s : State} (r code : Nat)
    (h : [Part.flocks, .regions] ++ evs .flock [5] ⊆ l) : SameBut l s0 (retryClaim r code s) ↔ SameBut l s0 s := by
  simp only [evs, List.map_cons, List.map_nil, List.cons_append, List.nil_append, List.append_nil, List.cons_subset, List.nil_subset, and_true, and_self] at h
  unfold retryClaim
  repeat' first
    | simp only [↓same_ite, ↓same_record, ↓same_raiseAbout, ↓same_setFlock, ↓same_setRegion, h, or_true, true_or, ite_self, evs, List.map_cons, List.map_nil, List.cons_append, List.nil_append, List.append_nil, List.cons_subset, List.nil_subset, and_true, and_self]
    | with_reducible refine Iff.trans (same_forAll (fun k t => ?_)) ?_
    | with_reducible refine Iff.trans (same_foldl (fun k t => ?_)) ?_
    | split
    | with_reducible exact Iff.rfl

theorem same_retune {l : List Part} {s0 s : State} (r : Nat)
    (h : [Part.regions] ⊆ l) : SameBut l s0 (retune r s) ↔ SameBut l s0 s := by
  simp only [evs, List.map_cons, List.map_nil, List.cons_append, List.nil_append, List.append_nil, List.cons_subset, List.nil_subset, and_true, and_self] at h
  unfold retune
  repeat' first
    | simp only [↓same_ite, ↓same_record, ↓same_setRegion, h, or_true, true_or, ite_self, evs, List.map_cons, List.map_nil, List.cons_append, List.nil_append, List.append_nil, List.cons_subset, List.nil_subset, and_true, and_self]
    | with_reducible refine Iff.trans (same_forAll (fun k t => ?_)) ?_
    | with_reducible refine Iff.trans (same_foldl (fun k t => ?_)) ?_
    | split
    | with_reducible exact Iff.rfl

theorem same_spareChanged {l : List Part} {s0 s : State} (f : Nat)
    (h : [Part.flocks, .gens] ++ evs .flock [2, 3, 9, 10] ⊆ l) : SameBut l s0 (spareChanged f s) ↔ SameBut l s0 s := by
  simp only [evs, List.map_cons, List.map_nil, List.cons_append, List.nil_append, List.append_nil, List.cons_subset, List.nil_subset, and_true, and_self] at h
  unfold spareChanged
  repeat' first
    | simp only [↓same_ite, ↓same_record, ↓same_evalCover, ↓same_updateSvc, h, or_true, true_or, ite_self, evs, List.map_cons, List.map_nil, List.cons_append, List.nil_append, List.append_nil, List.cons_subset, List.nil_subset, and_true, and_self]
    | with_reducible refine Iff.trans (same_forAll (fun k t => ?_)) ?_
    | with_reducible refine Iff.trans (same_foldl (fun k t => ?_)) ?_
    | split
    | with_reducible exact Iff.rfl

theorem same_takeover {l : List Part} {s0 s : State} (r g code : Nat)
    (h : [Part.flocks, .foTotal, .gens, .regions] ++ evs .cal [7] ++ evs .flock [0, 2, 3, 4, 9, 10] ⊆ l) : SameBut l s0 (takeover r g code s) ↔ SameBut l s0 s := by
  simp only [evs, List.map_cons, List.map_nil, List.cons_append, List.nil_append, List.append_nil, List.cons_subset, List.nil_subset, and_true, and_self] at h
  unfold takeover
  repeat' first
    | simp only [↓same_ite, ↓same_record, ↓same_raiseAbout, ↓same_retune, ↓same_setFlock, ↓same_setGen, ↓same_setRegion, ↓same_spareChanged, h, or_true, true_or, ite_self, evs, List.map_cons, List.map_nil, List.cons_append, List.nil_append, List.append_nil, List.cons_subset, List.nil_subset, and_true, and_self]
    | with_reducible refine Iff.trans (same_forAll (fun k t => ?_)) ?_
    | with_reducible refine Iff.trans (same_foldl (fun k t => ?_)) ?_
    | split
    | with_reducible exact Iff.rfl

theorem same_takeNoted {l : List Part} {s0 s : State} (e : Taken) (r g code : Nat)
    (h : [Part.flocks, .foTotal, .gens, .regions] ++ evs .cal [7] ++ evs .flock [0, 2, 3, 4, 9, 10] ⊆ l) : SameBut l s0 (takeNoted e r g code s) ↔ SameBut l s0 s := by
  simp only [evs, List.map_cons, List.map_nil, List.cons_append, List.nil_append, List.append_nil, List.cons_subset, List.nil_subset, and_true, and_self] at h
  unfold takeNoted
  repeat' first
    | simp only [↓same_ite, ↓same_record, ↓same_setFlock, ↓same_takeover, h, or_true, true_or, ite_self, evs, List.map_cons, List.map_nil, List.cons_append, List.nil_append, List.append_nil, List.cons_subset, List.nil_subset, and_true, and_self]
    | with_reducible refine Iff.trans (same_forAll (fun k t => ?_)) ?_
    | with_reducible refine Iff.trans (same_foldl (fun k t => ?_)) ?_
    | split
    | with_reducible exact Iff.rfl

theorem same_undoTaken {l : List Part} {s0 s : State} (f : Nat) (e : Taken)
    (h : [Part.flocks, .foTotal, .gens, .regions] ++ evs .cal [7] ++ evs .flock [0, 2, 3, 4, 9, 10] ⊆ l) : SameBut l s0 (undoTaken f e s) ↔ SameBut l s0 s := by
  simp only [evs, List.map_cons, List.map_nil, List.cons_append, List.nil_append, List.append_nil, List.cons_subset, List.nil_subset, and_true, and_self] at h
  unfold undoTaken
  repeat' first
    | simp only [↓same_ite, ↓same_record, ↓same_setFlock, ↓same_setGen, ↓same_setRegion, ↓same_unraise, h, or_true, true_or, ite_self, evs, List.map_cons, List.map_nil, List.cons_append, List.nil_append, List.append_nil, List.cons_subset, List.nil_subset, and_true, and_self]
    | with_reducible refine Iff.trans (same_forAll (fun k t => ?_)) ?_
    | with_reducible refine Iff.trans (same_foldl (fun k t => ?_)) ?_
    | split
    | with_reducible exact Iff.rfl

theorem same_yieldClaim {l : List Part} {s0 s : State} (f : Nat) (e : Taken)
    (h : [Part.flocks, .foTotal, .gens, .regions] ++ evs .cal [7] ++ evs .flock [0, 2, 3, 4, 5, 9, 10] ⊆ l) : SameBut l s0 (yieldClaim f e s) ↔ SameBut l s0 s := by
  simp only [evs, List.map_cons, List.map_nil, List.cons_append, List.nil_append, List.append_nil, List.cons_subset, List.nil_subset, and_true, and_self] at h
  unfold yieldClaim
  repeat' first
    | simp only [↓same_ite, ↓same_record, ↓same_retryClaim, ↓same_undoTaken, h, or_true, true_or, ite_self, evs, List.map_cons, List.map_nil, List.cons_append, List.nil_append, List.append_nil, List.cons_subset, List.nil_subset, and_true, and_self]
    | with_reducible refine Iff.trans (same_forAll (fun k t => ?_)) ?_
    | with_reducible refine Iff.trans (same_foldl (fun k t => ?_)) ?_
    | split
    | with_reducible exact Iff.rfl

theorem same_claim {l : List Part} {s0 s : State} (r code : Nat)
    (h : [Part.flocks, .foTotal, .fold, .gens, .regions, .xing] ++ evs .cal [7] ++ evs .flock [0, 2, 3, 4, 5, 9, 10] ++ evs .fold [9] ⊆ l) : SameBut l s0 (claim r code s) ↔ SameBut l s0 s := by
  simp only [evs, List.map_cons, List.map_nil, List.cons_append, List.nil_append, List.append_nil, List.cons_subset, List.nil_subset, and_true, and_self] at h
  unfold claim
  repeat' first
    | simp only [↓same_ite, ↓same_record, ↓same_autoExclude, ↓same_retryClaim, ↓same_setFlock, ↓same_setRegion, ↓same_takeNoted, ↓same_yieldClaim, h, or_true, true_or, ite_self, evs, List.map_cons, List.map_nil, List.cons_append, List.nil_append, List.append_nil, List.cons_subset, List.nil_subset, and_true, and_self]
    | with_reducible refine Iff.trans (same_forAll (fun k t => ?_)) ?_
    | with_reducible refine Iff.trans (same_foldl (fun k t => ?_)) ?_
    | split
    | with_reducible exact Iff.rfl

theorem same_unclamp {l : List Part} {s0 s : State} (z : Nat)
    (h : [Part.zones] ++ evs .zone [4] ⊆ l) : SameBut l s0 (unclamp z s) ↔ SameBut l s0 s := by
  simp only [evs, List.map_cons, List.map_nil, List.cons_append, List.nil_append, List.append_nil, List.cons_subset, List.nil_subset, and_true, and_self] at h
  unfold unclamp
  repeat' first
    | simp only [↓same_ite, ↓same_record, ↓same_raiseAbout, ↓same_setZone, h, or_true, true_or, ite_self, evs, List.map_cons, List.map_nil, List.cons_append, List.nil_append, List.append_nil, List.cons_subset, List.nil_subset, and_true, and_self]
    | with_reducible refine Iff.trans (same_forAll (fun k t => ?_)) ?_
    | with_reducible refine Iff.trans (same_foldl (fun k t => ?_)) ?_
    | split
    | with_reducible exact Iff.rfl

theorem same_clampEval {l : List Part} {s0 s : State} (len : Nat)
    (h : [Part.regions, .zones] ++ evs .zone [3, 4] ⊆ l) : SameBut l s0 (clampEval len s) ↔ SameBut l s0 s := by
  simp only [evs, List.map_cons, List.map_nil, List.cons_append, List.nil_append, List.append_nil, List.cons_subset, List.nil_subset, and_true, and_self] at h
  unfold clampEval
  repeat' first
    | simp only [↓same_ite, ↓same_record, ↓same_raiseAbout, ↓same_setZone, ↓same_unclamp, h, or_true, true_or, ite_self, evs, List.map_cons, List.map_nil, List.cons_append, List.nil_append, List.append_nil, List.cons_subset, List.nil_subset, and_true, and_self]
    | with_reducible refine Iff.trans (same_forAll (fun k t => ?_)) ?_
    | with_reducible refine Iff.trans (same_foldl (fun k t => ?_)) ?_
    | split
    | with_reducible exact Iff.rfl

theorem same_clockLost {l : List Part} {s0 s : State} (f : Nat)
    (h : [Part.flocks, .fold, .regions, .xing] ++ evs .flock [2, 9, 10] ++ evs .fold [9] ⊆ l) : SameBut l s0 (clockLost f s) ↔ SameBut l s0 s := by
  simp only [evs, List.map_cons, List.map_nil, List.cons_append, List.nil_append, List.append_nil, List.cons_subset, List.nil_subset, and_true, and_self] at h
  unfold clockLost
  repeat' first
    | simp only [↓same_ite, ↓same_record, ↓same_autoExclude, ↓same_setFlock, h, or_true, true_or, ite_self, evs, List.map_cons, List.map_nil, List.cons_append, List.nil_append, List.append_nil, List.cons_subset, List.nil_subset, and_true, and_self]
    | with_reducible refine Iff.trans (same_forAll (fun k t => ?_)) ?_
    | with_reducible refine Iff.trans (same_foldl (fun k t => ?_)) ?_
    | split
    | with_reducible exact Iff.rfl

theorem same_setMport {l : List Part} {s0 s : State} (p : BitVec 1) (x : MusPort)
    (h : [Part.mus] ⊆ l) : SameBut l s0 (setMport p x s) ↔ SameBut l s0 s := by
  simp only [evs, List.map_cons, List.map_nil, List.cons_append, List.nil_append, List.append_nil, List.cons_subset, List.nil_subset, and_true, and_self] at h
  unfold setMport
  repeat' first
    | simp only [↓same_ite, ↓same_record, h, or_true, true_or, ite_self, evs, List.map_cons, List.map_nil, List.cons_append, List.nil_append, List.append_nil, List.cons_subset, List.nil_subset, and_true, and_self]
    | with_reducible refine Iff.trans (same_forAll (fun k t => ?_)) ?_
    | with_reducible refine Iff.trans (same_foldl (fun k t => ?_)) ?_
    | split
    | with_reducible exact Iff.rfl

theorem same_raisePort {l : List Part} {s0 : State} (k : Nat) (p : BitVec 1) (s : State)
    (h : evs .mus [k] ⊆ l) : SameBut l s0 (raisePort k p s) ↔ SameBut l s0 s := by
  simp only [evs, List.map_cons, List.map_nil, List.cons_append, List.nil_append, List.append_nil, List.cons_subset, List.nil_subset, and_true, and_self] at h
  simp only [raisePort, ↓same_raiseAbout, h]

theorem same_turnPort {l : List Part} {s0 s : State} (p : BitVec 1) (st : PortState)
    (h : [Part.mus] ++ evs .mus [3] ⊆ l) : SameBut l s0 (turnPort p st s) ↔ SameBut l s0 s := by
  simp only [evs, List.map_cons, List.map_nil, List.cons_append, List.nil_append, List.append_nil, List.cons_subset, List.nil_subset, and_true, and_self] at h
  unfold turnPort
  repeat' first
    | simp only [↓same_ite, ↓same_record, ↓same_raisePort, ↓same_setMport, h, or_true, true_or, ite_self, evs, List.map_cons, List.map_nil, List.cons_append, List.nil_append, List.append_nil, List.cons_subset, List.nil_subset, and_true, and_self]
    | with_reducible refine Iff.trans (same_forAll (fun k t => ?_)) ?_
    | with_reducible refine Iff.trans (same_foldl (fun k t => ?_)) ?_
    | split
    | with_reducible exact Iff.rfl

theorem same_closeExchange {l : List Part} {s0 s : State} 
    (h : [Part.mus] ++ evs .mus [3] ⊆ l) : SameBut l s0 (closeExchange s) ↔ SameBut l s0 s := by
  simp only [evs, List.map_cons, List.map_nil, List.cons_append, List.nil_append, List.append_nil, List.cons_subset, List.nil_subset, and_true, and_self] at h
  unfold closeExchange
  repeat' first
    | simp only [↓same_ite, ↓same_record, ↓same_setMport, ↓same_turnPort, h, or_true, true_or, ite_self, evs, List.map_cons, List.map_nil, List.cons_append, List.nil_append, List.append_nil, List.cons_subset, List.nil_subset, and_true, and_self]
    | with_reducible refine Iff.trans (same_forAll (fun k t => ?_)) ?_
    | with_reducible refine Iff.trans (same_foldl (fun k t => ?_)) ?_
    | split
    | with_reducible exact Iff.rfl

theorem same_coarseAct {l : List Part} {s0 s : State} (c : Int)
    (h : [Part.mus] ++ evs .mus [11] ⊆ l) : SameBut l s0 (coarseAct c s) ↔ SameBut l s0 s := by
  simp only [evs, List.map_cons, List.map_nil, List.cons_append, List.nil_append, List.append_nil, List.cons_subset, List.nil_subset, and_true, and_self] at h
  unfold coarseAct
  repeat' first
    | simp only [↓same_ite, ↓same_record, ↓same_raise, h, or_true, true_or, ite_self, evs, List.map_cons, List.map_nil, List.cons_append, List.nil_append, List.append_nil, List.cons_subset, List.nil_subset, and_true, and_self]
    | with_reducible refine Iff.trans (same_forAll (fun k t => ?_)) ?_
    | with_reducible refine Iff.trans (same_foldl (fun k t => ?_)) ?_
    | split
    | with_reducible exact Iff.rfl

theorem same_complete {l : List Part} {s0 : State} (m : Nat) (status : BitVec 8) (ws : List Word) (s : State)
    (h : [Part.mbx, .shep] ++ evs .mbx [m] ⊆ l) : SameBut l s0 (complete m status ws s) ↔ SameBut l s0 s := by
  simp only [evs, List.map_cons, List.map_nil, List.cons_append, List.nil_append, List.append_nil, List.cons_subset, List.nil_subset, and_true, and_self] at h
  unfold complete
  repeat' first
    | simp only [↓same_ite, ↓same_record, ↓same_completeWith, h, or_true, true_or, ite_self, evs, List.map_cons, List.map_nil, List.cons_append, List.nil_append, List.append_nil, List.cons_subset, List.nil_subset, and_true, and_self]
    | with_reducible refine Iff.trans (same_forAll (fun k t => ?_)) ?_
    | with_reducible refine Iff.trans (same_foldl (fun k t => ?_)) ?_
    | split
    | with_reducible exact Iff.rfl

theorem same_coreTick {l : List Part} {s0 s : State} 
    (h : [Part.shep] ⊆ l) : SameBut l s0 (coreTick s) ↔ SameBut l s0 s := by
  simp only [evs, List.map_cons, List.map_nil, List.cons_append, List.nil_append, List.append_nil, List.cons_subset, List.nil_subset, and_true, and_self] at h
  unfold coreTick
  repeat' first
    | simp only [↓same_ite, ↓same_record, h, or_true, true_or, ite_self, evs, List.map_cons, List.map_nil, List.cons_append, List.nil_append, List.append_nil, List.cons_subset, List.nil_subset, and_true, and_self]
    | with_reducible refine Iff.trans (same_forAll (fun k t => ?_)) ?_
    | with_reducible refine Iff.trans (same_foldl (fun k t => ?_)) ?_
    | split
    | with_reducible exact Iff.rfl

theorem same_countCopy {l : List Part} {s0 s : State} (r : Nat)
    (h : [Part.gens] ⊆ l) : SameBut l s0 (countCopy r s) ↔ SameBut l s0 s := by
  simp only [evs, List.map_cons, List.map_nil, List.cons_append, List.nil_append, List.append_nil, List.cons_subset, List.nil_subset, and_true, and_self] at h
  unfold countCopy
  repeat' first
    | simp only [↓same_ite, ↓same_record, ↓same_setGen, h, or_true, true_or, ite_self, evs, List.map_cons, List.map_nil, List.cons_append, List.nil_append, List.append_nil, List.cons_subset, List.nil_subset, and_true, and_self]
    | with_reducible refine Iff.trans (same_forAll (fun k t => ?_)) ?_
    | with_reducible refine Iff.trans (same_foldl (fun k t => ?_)) ?_
    | split
    | with_reducible exact Iff.rfl

theorem same_countEdge {l : List Part} {s0 s : State} 
    (h : [Part.root, .time] ⊆ l) : SameBut l s0 (countEdge s) ↔ SameBut l s0 s := by
  simp only [evs, List.map_cons, List.map_nil, List.cons_append, List.nil_append, List.append_nil, List.cons_subset, List.nil_subset, and_true, and_self] at h
  unfold countEdge
  repeat' first
    | simp only [↓same_ite, ↓same_record, h, or_true, true_or, ite_self, evs, List.map_cons, List.map_nil, List.cons_append, List.nil_append, List.append_nil, List.cons_subset, List.nil_subset, and_true, and_self]
    | with_reducible refine Iff.trans (same_forAll (fun k t => ?_)) ?_
    | with_reducible refine Iff.trans (same_foldl (fun k t => ?_)) ?_
    | split
    | with_reducible exact Iff.rfl

theorem same_countF {l : List Part} {s0 s : State} 
    (h : [Part.mus] ⊆ l) : SameBut l s0 (countF s) ↔ SameBut l s0 s := by
  simp only [evs, List.map_cons, List.map_nil, List.cons_append, List.nil_append, List.append_nil, List.cons_subset, List.nil_subset, and_true, and_self] at h
  unfold countF
  repeat' first
    | simp only [↓same_ite, ↓same_record, h, or_true, true_or, ite_self, evs, List.map_cons, List.map_nil, List.cons_append, List.nil_append, List.append_nil, List.cons_subset, List.nil_subset, and_true, and_self]
    | with_reducible refine Iff.trans (same_forAll (fun k t => ?_)) ?_
    | with_reducible refine Iff.trans (same_foldl (fun k t => ?_)) ?_
    | split
    | with_reducible exact Iff.rfl

theorem same_countOvr5 {l : List Part} {s0 s : State} 
    (h : [Part.zones] ⊆ l) : SameBut l s0 (countOvr5 s) ↔ SameBut l s0 s := by
  simp only [evs, List.map_cons, List.map_nil, List.cons_append, List.nil_append, List.append_nil, List.cons_subset, List.nil_subset, and_true, and_self] at h
  unfold countOvr5
  repeat' first
    | simp only [↓same_ite, ↓same_record, h, or_true, true_or, ite_self, evs, List.map_cons, List.map_nil, List.cons_append, List.nil_append, List.append_nil, List.cons_subset, List.nil_subset, and_true, and_self]
    | with_reducible refine Iff.trans (same_forAll (fun k t => ?_)) ?_
    | with_reducible refine Iff.trans (same_foldl (fun k t => ?_)) ?_
    | split
    | with_reducible exact Iff.rfl

theorem same_countSkew {l : List Part} {s0 s : State} (r now : Nat) (atBell : Bool)
    (h : [Part.fcst, .regions] ⊆ l) : SameBut l s0 (countSkew r now atBell s) ↔ SameBut l s0 s := by
  simp only [evs, List.map_cons, List.map_nil, List.cons_append, List.nil_append, List.append_nil, List.cons_subset, List.nil_subset, and_true, and_self] at h
  unfold countSkew
  repeat' first
    | simp only [↓same_ite, ↓same_record, ↓same_setRegion, h, or_true, true_or, ite_self, evs, List.map_cons, List.map_nil, List.cons_append, List.nil_append, List.append_nil, List.cons_subset, List.nil_subset, and_true, and_self]
    | with_reducible refine Iff.trans (same_forAll (fun k t => ?_)) ?_
    | with_reducible refine Iff.trans (same_foldl (fun k t => ?_)) ?_
    | split
    | with_reducible exact Iff.rfl

theorem same_countStop {l : List Part} {s0 s : State} (x : Nat) (v : Xing)
    (h : [Part.fold, .xing] ⊆ l) : SameBut l s0 (countStop x v s) ↔ SameBut l s0 s := by
  simp only [evs, List.map_cons, List.map_nil, List.cons_append, List.nil_append, List.append_nil, List.cons_subset, List.nil_subset, and_true, and_self] at h
  unfold countStop
  repeat' first
    | simp only [↓same_ite, ↓same_record, ↓same_setXing, h, or_true, true_or, ite_self, evs, List.map_cons, List.map_nil, List.cons_append, List.nil_append, List.append_nil, List.cons_subset, List.nil_subset, and_true, and_self]
    | with_reducible refine Iff.trans (same_forAll (fun k t => ?_)) ?_
    | with_reducible refine Iff.trans (same_foldl (fun k t => ?_)) ?_
    | split
    | with_reducible exact Iff.rfl

theorem same_countSwitch {l : List Part} {s0 s : State} 
    (h : [Part.lc] ⊆ l) : SameBut l s0 (countSwitch s) ↔ SameBut l s0 s := by
  simp only [evs, List.map_cons, List.map_nil, List.cons_append, List.nil_append, List.append_nil, List.cons_subset, List.nil_subset, and_true, and_self] at h
  unfold countSwitch
  repeat' first
    | simp only [↓same_ite, ↓same_record, h, or_true, true_or, ite_self, evs, List.map_cons, List.map_nil, List.cons_append, List.nil_append, List.append_nil, List.cons_subset, List.nil_subset, and_true, and_self]
    | with_reducible refine Iff.trans (same_forAll (fun k t => ?_)) ?_
    | with_reducible refine Iff.trans (same_foldl (fun k t => ?_)) ?_
    | split
    | with_reducible exact Iff.rfl

theorem same_crkAnswer {l : List Part} {s0 s : State} (tag : BitVec 8) (rej : Nat)
    (h : [Part.crook] ⊆ l) : SameBut l s0 (crkAnswer tag rej s) ↔ SameBut l s0 s := by
  simp only [evs, List.map_cons, List.map_nil, List.cons_append, List.nil_append, List.append_nil, List.cons_subset, List.nil_subset, and_true, and_self] at h
  unfold crkAnswer
  repeat' first
    | simp only [↓same_ite, ↓same_record, h, or_true, true_or, ite_self, evs, List.map_cons, List.map_nil, List.cons_append, List.nil_append, List.append_nil, List.cons_subset, List.nil_subset, and_true, and_self]
    | with_reducible refine Iff.trans (same_forAll (fun k t => ?_)) ?_
    | with_reducible refine Iff.trans (same_foldl (fun k t => ?_)) ?_
    | split
    | with_reducible exact Iff.rfl

theorem same_markFailed {l : List Part} {s0 s : State} (g : Nat)
    (h : [Part.gens] ⊆ l) : SameBut l s0 (markFailed g s) ↔ SameBut l s0 s := by
  simp only [evs, List.map_cons, List.map_nil, List.cons_append, List.nil_append, List.append_nil, List.cons_subset, List.nil_subset, and_true, and_self] at h
  unfold markFailed
  repeat' first
    | simp only [↓same_ite, ↓same_record, ↓same_setGen, h, or_true, true_or, ite_self, evs, List.map_cons, List.map_nil, List.cons_append, List.nil_append, List.append_nil, List.cons_subset, List.nil_subset, and_true, and_self]
    | with_reducible refine Iff.trans (same_forAll (fun k t => ?_)) ?_
    | with_reducible refine Iff.trans (same_foldl (fun k t => ?_)) ?_
    | split
    | with_reducible exact Iff.rfl

theorem same_noBandEvents {l : List Part} {s0 s : State} (row : List Word) (cur b : Option Nat) (w : Window)
    (h : evs .rcg [1, 2, 3] ⊆ l) : SameBut l s0 (noBandEvents row cur b w s) ↔ SameBut l s0 s := by
  simp only [evs, List.map_cons, List.map_nil, List.cons_append, List.nil_append, List.append_nil, List.cons_subset, List.nil_subset, and_true, and_self] at h
  unfold noBandEvents
  repeat' first
    | simp only [↓same_ite, ↓same_record, ↓same_raise, h, or_true, true_or, ite_self, evs, List.map_cons, List.map_nil, List.cons_append, List.nil_append, List.append_nil, List.cons_subset, List.nil_subset, and_true, and_self]
    | with_reducible refine Iff.trans (same_forAll (fun k t => ?_)) ?_
    | with_reducible refine Iff.trans (same_foldl (fun k t => ?_)) ?_
    | split
    | with_reducible exact Iff.rfl

theorem same_spareBand {l : List Part} {s0 s : State} (atBell : Bool) (g : Nat)
    (h : [Part.gens] ++ evs .rcg [1, 2, 3] ⊆ l) : SameBut l s0 (spareBand atBell g s) ↔ SameBut l s0 s := by
  simp only [evs, List.map_cons, List.map_nil, List.cons_append, List.nil_append, List.append_nil, List.cons_subset, List.nil_subset, and_true, and_self] at h
  unfold spareBand
  repeat' first
    | simp only [↓same_ite, ↓same_record, ↓same_noBandEvents, ↓same_setGen, h, or_true, true_or, ite_self, evs, List.map_cons, List.map_nil, List.cons_append, List.nil_append, List.append_nil, List.cons_subset, List.nil_subset, and_true, and_self]
    | with_reducible refine Iff.trans (same_forAll (fun k t => ?_)) ?_
    | with_reducible refine Iff.trans (same_foldl (fun k t => ?_)) ?_
    | split
    | with_reducible exact Iff.rfl

theorem same_spareLocking {l : List Part} {s0 s : State} (atBell : Bool) (g : Nat)
    (h : [Part.gens] ++ evs .rcg [1, 2, 3] ⊆ l) : SameBut l s0 (spareLocking atBell g s) ↔ SameBut l s0 s := by
  simp only [evs, List.map_cons, List.map_nil, List.cons_append, List.nil_append, List.append_nil, List.cons_subset, List.nil_subset, and_true, and_self] at h
  unfold spareLocking
  repeat' first
    | simp only [↓same_ite, ↓same_record, ↓same_setGen, ↓same_spareBand, h, or_true, true_or, ite_self, evs, List.map_cons, List.map_nil, List.cons_append, List.nil_append, List.append_nil, List.cons_subset, List.nil_subset, and_true, and_self]
    | with_reducible refine Iff.trans (same_forAll (fun k t => ?_)) ?_
    | with_reducible refine Iff.trans (same_foldl (fun k t => ?_)) ?_
    | split
    | with_reducible exact Iff.rfl

theorem same_crkFailover {l : List Part} {s0 s : State} (p : Port) (tag : BitVec 8) (r gen : Nat)
    (h : [Part.crook, .flocks, .foTotal, .gens, .regions] ++ evs .cal [7] ++ evs .flock [0, 2, 3, 4, 9, 10] ++ evs .rcg [1, 2, 3] ⊆ l) : SameBut l s0 (crkFailover p tag r gen s) ↔ SameBut l s0 s := by
  simp only [evs, List.map_cons, List.map_nil, List.cons_append, List.nil_append, List.append_nil, List.cons_subset, List.nil_subset, and_true, and_self] at h
  unfold crkFailover
  repeat' first
    | simp only [↓same_ite, ↓same_record, ↓same_crkAnswer, ↓same_markFailed, ↓same_spareLocking, ↓same_takeNoted, h, or_true, true_or, ite_self, evs, List.map_cons, List.map_nil, List.cons_append, List.nil_append, List.append_nil, List.cons_subset, List.nil_subset, and_true, and_self]
    | with_reducible refine Iff.trans (same_forAll (fun k t => ?_)) ?_
    | with_reducible refine Iff.trans (same_foldl (fun k t => ?_)) ?_
    | split
    | with_reducible exact Iff.rfl

theorem same_setForced {l : List Part} {s0 s : State} (on : Bool) (r : Nat)
    (h : [Part.regions] ⊆ l) : SameBut l s0 (setForced on r s) ↔ SameBut l s0 s := by
  simp only [evs, List.map_cons, List.map_nil, List.cons_append, List.nil_append, List.append_nil, List.cons_subset, List.nil_subset, and_true, and_self] at h
  unfold setForced
  repeat' first
    | simp only [↓same_ite, ↓same_record, ↓same_setRegion, h, or_true, true_or, ite_self, evs, List.map_cons, List.map_nil, List.cons_append, List.nil_append, List.append_nil, List.cons_subset, List.nil_subset, and_true, and_self]
    | with_reducible refine Iff.trans (same_forAll (fun k t => ?_)) ?_
    | with_reducible refine Iff.trans (same_foldl (fun k t => ?_)) ?_
    | split
    | with_reducible exact Iff.rfl

theorem same_crkFlock {l : List Part} {s0 s : State} (on : Bool) (tag : BitVec 8) (f : Nat)
    (h : [Part.crook, .regions] ⊆ l) : SameBut l s0 (crkFlock on tag f s) ↔ SameBut l s0 s := by
  simp only [evs, List.map_cons, List.map_nil, List.cons_append, List.nil_append, List.append_nil, List.cons_subset, List.nil_subset, and_true, and_self] at h
  unfold crkFlock
  repeat' first
    | simp only [↓same_ite, ↓same_record, ↓same_crkAnswer, ↓same_setForced, h, or_true, true_or, ite_self, evs, List.map_cons, List.map_nil, List.cons_append, List.nil_append, List.append_nil, List.cons_subset, List.nil_subset, and_true, and_self]
    | with_reducible refine Iff.trans (same_forAll (fun k t => ?_)) ?_
    | with_reducible refine Iff.trans (same_foldl (fun k t => ?_)) ?_
    | split
    | with_reducible exact Iff.rfl

theorem same_crkHeld {l : List Part} {s0 s : State} 
    (h : [Part.crook, .flocks, .foTotal, .gens, .regions] ++ evs .cal [7] ++ evs .flock [0, 2, 3, 4, 9, 10] ++ evs .rcg [1, 2, 3] ⊆ l) : SameBut l s0 (crkHeld s) ↔ SameBut l s0 s := by
  simp only [evs, List.map_cons, List.map_nil, List.cons_append, List.nil_append, List.append_nil, List.cons_subset, List.nil_subset, and_true, and_self] at h
  unfold crkHeld
  repeat' first
    | simp only [↓same_ite, ↓same_record, ↓same_crkFailover, h, or_true, true_or, ite_self, evs, List.map_cons, List.map_nil, List.cons_append, List.nil_append, List.append_nil, List.cons_subset, List.nil_subset, and_true, and_self]
    | with_reducible refine Iff.trans (same_forAll (fun k t => ?_)) ?_
    | with_reducible refine Iff.trans (same_foldl (fun k t => ?_)) ?_
    | split
    | with_reducible exact Iff.rfl

theorem same_crkRegion {l : List Part} {s0 s : State} (on : Bool) (tag : BitVec 8) (r : Nat)
    (h : [Part.crook, .regions] ⊆ l) : SameBut l s0 (crkRegion on tag r s) ↔ SameBut l s0 s := by
  simp only [evs, List.map_cons, List.map_nil, List.cons_append, List.nil_append, List.append_nil, List.cons_subset, List.nil_subset, and_true, and_self] at h
  unfold crkRegion
  repeat' first
    | simp only [↓same_ite, ↓same_record, ↓same_crkAnswer, ↓same_setForced, h, or_true, true_or, ite_self, evs, List.map_cons, List.map_nil, List.cons_append, List.nil_append, List.append_nil, List.cons_subset, List.nil_subset, and_true, and_self]
    | with_reducible refine Iff.trans (same_forAll (fun k t => ?_)) ?_
    | with_reducible refine Iff.trans (same_foldl (fun k t => ?_)) ?_
    | split
    | with_reducible exact Iff.rfl

theorem same_discardHold {l : List Part} {s0 s : State} (r : Nat)
    (h : [Part.regions] ++ evs .cal [7] ⊆ l) : SameBut l s0 (discardHold r s) ↔ SameBut l s0 s := by
  simp only [evs, List.map_cons, List.map_nil, List.cons_append, List.nil_append, List.append_nil, List.cons_subset, List.nil_subset, and_true, and_self] at h
  unfold discardHold
  repeat' first
    | simp only [↓same_ite, ↓same_record, ↓same_raiseAbout, ↓same_setRegion, h, or_true, true_or, ite_self, evs, List.map_cons, List.map_nil, List.cons_append, List.nil_append, List.append_nil, List.cons_subset, List.nil_subset, and_true, and_self]
    | with_reducible refine Iff.trans (same_forAll (fun k t => ?_)) ?_
    | with_reducible refine Iff.trans (same_foldl (fun k t => ?_)) ?_
    | split
    | with_reducible exact Iff.rfl

theorem same_holdAccepted {l : List Part} {s0 s : State} (r : Nat) (w : Held)
    (h : [Part.cal, .flocks, .gens, .regions] ++ evs .cal [0] ⊆ l) : SameBut l s0 (holdAccepted r w s) ↔ SameBut l s0 s := by
  simp only [evs, List.map_cons, List.map_nil, List.cons_append, List.nil_append, List.append_nil, List.cons_subset, List.nil_subset, and_true, and_self] at h
  unfold holdAccepted
  repeat' first
    | simp only [↓same_ite, ↓same_record, ↓same_calDoneCheck, ↓same_setFlock, ↓same_setRegion, h, or_true, true_or, ite_self, evs, List.map_cons, List.map_nil, List.cons_append, List.nil_append, List.append_nil, List.cons_subset, List.nil_subset, and_true, and_self]
    | with_reducible refine Iff.trans (same_forAll (fun k t => ?_)) ?_
    | with_reducible refine Iff.trans (same_foldl (fun k t => ?_)) ?_
    | split
    | with_reducible exact Iff.rfl

theorem same_proposeCells {l : List Part} {s0 s : State} (w : Held)
    (h : [Part.gens] ⊆ l) : SameBut l s0 (proposeCells w s) ↔ SameBut l s0 s := by
  simp only [evs, List.map_cons, List.map_nil, List.cons_append, List.nil_append, List.append_nil, List.cons_subset, List.nil_subset, and_true, and_self] at h
  unfold proposeCells
  repeat' first
    | simp only [↓same_ite, ↓same_record, ↓same_setGen, h, or_true, true_or, ite_self, evs, List.map_cons, List.map_nil, List.cons_append, List.nil_append, List.append_nil, List.cons_subset, List.nil_subset, and_true, and_self]
    | with_reducible refine Iff.trans (same_forAll (fun k t => ?_)) ?_
    | with_reducible refine Iff.trans (same_foldl (fun k t => ?_)) ?_
    | split
    | with_reducible exact Iff.rfl

theorem same_proposeSocks {l : List Part} {s0 s : State} (r : Nat) (w : Held)
    (h : [Part.gens] ⊆ l) : SameBut l s0 (proposeSocks r w s) ↔ SameBut l s0 s := by
  simp only [evs, List.map_cons, List.map_nil, List.cons_append, List.nil_append, List.append_nil, List.cons_subset, List.nil_subset, and_true, and_self] at h
  unfold proposeSocks
  repeat' first
    | simp only [↓same_ite, ↓same_record, ↓same_setGen, h, or_true, true_or, ite_self, evs, List.map_cons, List.map_nil, List.cons_append, List.nil_append, List.append_nil, List.cons_subset, List.nil_subset, and_true, and_self]
    | with_reducible refine Iff.trans (same_forAll (fun k t => ?_)) ?_
    | with_reducible refine Iff.trans (same_foldl (fun k t => ?_)) ?_
    | split
    | with_reducible exact Iff.rfl

theorem same_rejectResults {l : List Part} {s0 s : State} (n : Nat) (f : Option Nat) (was : Bool)
    (h : [Part.cal] ++ evs .cal [1, 2] ⊆ l) : SameBut l s0 (rejectResults n f was s) ↔ SameBut l s0 s := by
  simp only [evs, List.map_cons, List.map_nil, List.cons_append, List.nil_append, List.append_nil, List.cons_subset, List.nil_subset, and_true, and_self] at h
  unfold rejectResults
  repeat' first
    | simp only [↓same_ite, ↓same_record, ↓same_raise, ↓same_raiseAbout, h, or_true, true_or, ite_self, evs, List.map_cons, List.map_nil, List.cons_append, List.nil_append, List.append_nil, List.cons_subset, List.nil_subset, and_true, and_self]
    | with_reducible refine Iff.trans (same_forAll (fun k t => ?_)) ?_
    | with_reducible refine Iff.trans (same_foldl (fun k t => ?_)) ?_
    | split
    | with_reducible exact Iff.rfl

theorem same_judgeHold {l : List Part} {s0 s : State} (r : Nat) (w : Held)
    (h : [Part.cal, .flocks, .gens, .regions] ++ evs .cal [0, 1, 2] ⊆ l) : SameBut l s0 (judgeHold r w s) ↔ SameBut l s0 s := by
  simp only [evs, List.map_cons, List.map_nil, List.cons_append, List.nil_append, List.append_nil, List.cons_subset, List.nil_subset, and_true, and_self] at h
  unfold judgeHold
  repeat' first
    | simp only [↓same_ite, ↓same_record, ↓same_applyProposals, ↓same_holdAccepted, ↓same_proposeCells, ↓same_proposeSocks, ↓same_rejectResults, ↓same_setRegion, h, or_true, true_or, ite_self, evs, List.map_cons, List.map_nil, List.cons_append, List.nil_append, List.append_nil, List.cons_subset, List.nil_subset, and_true, and_self]
    | with_reducible refine Iff.trans (same_forAll (fun k t => ?_)) ?_
    | with_reducible refine Iff.trans (same_foldl (fun k t => ?_)) ?_
    | split
    | with_reducible exact Iff.rfl

theorem same_rejectResult {l : List Part} {s0 s : State} (f : Option Nat) (was : Bool)
    (h : [Part.cal] ++ evs .cal [1, 2] ⊆ l) : SameBut l s0 (rejectResult f was s) ↔ SameBut l s0 s := by
  simp only [evs, List.map_cons, List.map_nil, List.cons_append, List.nil_append, List.append_nil, List.cons_subset, List.nil_subset, and_true, and_self] at h
  unfold rejectResult
  repeat' first
    | simp only [↓same_ite, ↓same_record, ↓same_rejectResults, h, or_true, true_or, ite_self, evs, List.map_cons, List.map_nil, List.cons_append, List.nil_append, List.append_nil, List.cons_subset, List.nil_subset, and_true, and_self]
    | with_reducible refine Iff.trans (same_forAll (fun k t => ?_)) ?_
    | with_reducible refine Iff.trans (same_foldl (fun k t => ?_)) ?_
    | split
    | with_reducible exact Iff.rfl

theorem same_judgeSpare {l : List Part} {s0 s : State} (f g : Nat) (b c0 c1 : Nat)
    (h : [Part.cal, .flocks, .gens, .regions] ++ evs .cal [0, 1, 2] ⊆ l) : SameBut l s0 (judgeSpare f g b c0 c1 s) ↔ SameBut l s0 s := by
  simp only [evs, List.map_cons, List.map_nil, List.cons_append, List.nil_append, List.append_nil, List.cons_subset, List.nil_subset, and_true, and_self] at h
  unfold judgeSpare
  repeat' first
    | simp only [↓same_ite, ↓same_record, ↓same_calDoneCheck, ↓same_changedIf, ↓same_rejectResult, ↓same_setGen, h, or_true, true_or, ite_self, evs, List.map_cons, List.map_nil, List.cons_append, List.nil_append, List.append_nil, List.cons_subset, List.nil_subset, and_true, and_self]
    | with_reducible refine Iff.trans (same_forAll (fun k t => ?_)) ?_
    | with_reducible refine Iff.trans (same_foldl (fun k t => ?_)) ?_
    | split
    | with_reducible exact Iff.rfl

theorem same_judgeWaiting {l : List Part} {s0 s : State} 
    (h : [Part.cal, .flocks, .gens, .regions] ++ evs .cal [0, 1, 2, 7] ⊆ l) : SameBut l s0 (judgeWaiting s) ↔ SameBut l s0 s := by
  simp only [evs, List.map_cons, List.map_nil, List.cons_append, List.nil_append, List.append_nil, List.cons_subset, List.nil_subset, and_true, and_self] at h
  unfold judgeWaiting
  repeat' first
    | simp only [↓same_ite, ↓same_record, ↓same_discardHold, ↓same_judgeHold, ↓same_judgeSpare, ↓same_raiseAbout, ↓same_setGen, h, or_true, true_or, ite_self, evs, List.map_cons, List.map_nil, List.cons_append, List.nil_append, List.append_nil, List.cons_subset, List.nil_subset, and_true, and_self]
    | with_reducible refine Iff.trans (same_forAll (fun k t => ?_)) ?_
    | with_reducible refine Iff.trans (same_foldl (fun k t => ?_)) ?_
    | split
    | with_reducible exact Iff.rfl

theorem same_startCore {l : List Part} {s0 s : State} (cause : Nat) (prev : Word)
    (h : [Part.cal, .coreData, .flocks, .gens, .mus, .regions, .shep] ++ evs .cal [0, 1, 2, 7] ++ evs .shep [2] ⊆ l) : SameBut l s0 (startCore cause prev s) ↔ SameBut l s0 s := by
  simp only [evs, List.map_cons, List.map_nil, List.cons_append, List.nil_append, List.append_nil, List.cons_subset, List.nil_subset, and_true, and_self] at h
  unfold startCore
  repeat' first
    | simp only [↓same_ite, ↓same_record, ↓same_judgeWaiting, ↓same_raise, h, or_true, true_or, ite_self, evs, List.map_cons, List.map_nil, List.cons_append, List.nil_append, List.append_nil, List.cons_subset, List.nil_subset, and_true, and_self]
    | with_reducible refine Iff.trans (same_forAll (fun k t => ?_)) ?_
    | with_reducible refine Iff.trans (same_foldl (fun k t => ?_)) ?_
    | split
    | with_reducible exact Iff.rfl

theorem same_resetCore {l : List Part} {s0 s : State} (cause : Nat)
    (h : [Part.cal, .coreData, .flocks, .gens, .mbx, .mus, .regions, .shep, .tally, .xing] ++ evs .cal [0, 1, 2, 7] ++ evs .mbx [0, 1, 2] ++ evs .shep [2, 11] ⊆ l) : SameBut l s0 (resetCore cause s) ↔ SameBut l s0 s := by
  simp only [evs, List.map_cons, List.map_nil, List.cons_append, List.nil_append, List.append_nil, List.cons_subset, List.nil_subset, and_true, and_self] at h
  unfold resetCore
  repeat' first
    | simp only [↓same_ite, ↓same_record, ↓same_abortJobs, ↓same_abortTaken, ↓same_releaseFirmware, ↓same_startCore, h, or_true, true_or, ite_self, evs, List.map_cons, List.map_nil, List.cons_append, List.nil_append, List.append_nil, List.cons_subset, List.nil_subset, and_true, and_self]
    | with_reducible refine Iff.trans (same_forAll (fun k t => ?_)) ?_
    | with_reducible refine Iff.trans (same_foldl (fun k t => ?_)) ?_
    | split
    | with_reducible exact Iff.rfl

theorem same_crookReset {l : List Part} {s0 s : State} 
    (h : [Part.cal, .coreData, .flocks, .gens, .mbx, .mus, .regions, .shep, .tally, .xing] ++ evs .cal [0, 1, 2, 7] ++ evs .mbx [0, 1, 2] ++ evs .shep [2, 11] ⊆ l) : SameBut l s0 (crookReset s) ↔ SameBut l s0 s := by
  simp only [evs, List.map_cons, List.map_nil, List.cons_append, List.nil_append, List.append_nil, List.cons_subset, List.nil_subset, and_true, and_self] at h
  unfold crookReset
  repeat' first
    | simp only [↓same_ite, ↓same_record, ↓same_resetCore, h, or_true, true_or, ite_self, evs, List.map_cons, List.map_nil, List.cons_append, List.nil_append, List.append_nil, List.cons_subset, List.nil_subset, and_true, and_self]
    | with_reducible refine Iff.trans (same_forAll (fun k t => ?_)) ?_
    | with_reducible refine Iff.trans (same_foldl (fun k t => ?_)) ?_
    | split
    | with_reducible exact Iff.rfl

theorem same_setClaim {l : List Part} {s0 s : State} (p : Port) (c : Option Claim)
    (h : [Part.tally] ⊆ l) : SameBut l s0 (setClaim p c s) ↔ SameBut l s0 s := by
  simp only [evs, List.map_cons, List.map_nil, List.cons_append, List.nil_append, List.append_nil, List.cons_subset, List.nil_subset, and_true, and_self] at h
  unfold setClaim
  repeat' first
    | simp only [↓same_ite, ↓same_record, h, or_true, true_or, ite_self, evs, List.map_cons, List.map_nil, List.cons_append, List.nil_append, List.append_nil, List.cons_subset, List.nil_subset, and_true, and_self]
    | with_reducible refine Iff.trans (same_forAll (fun k t => ?_)) ?_
    | with_reducible refine Iff.trans (same_foldl (fun k t => ?_)) ?_
    | split
    | with_reducible exact Iff.rfl

theorem same_evalClaims {l : List Part} {s0 s : State} 
    (h : [Part.tally] ⊆ l) : SameBut l s0 (evalClaims s) ↔ SameBut l s0 s := by
  simp only [evs, List.map_cons, List.map_nil, List.cons_append, List.nil_append, List.append_nil, List.cons_subset, List.nil_subset, and_true, and_self] at h
  unfold evalClaims
  repeat' first
    | simp only [↓same_ite, ↓same_record, ↓same_setClaim, ↓same_setTally, h, or_true, true_or, ite_self, evs, List.map_cons, List.map_nil, List.cons_append, List.nil_append, List.append_nil, List.cons_subset, List.nil_subset, and_true, and_self]
    | with_reducible refine Iff.trans (same_forAll (fun k t => ?_)) ?_
    | with_reducible refine Iff.trans (same_foldl (fun k t => ?_)) ?_
    | split
    | with_reducible exact Iff.rfl

theorem same_islandCopies {l : List Part} {s0 s : State} 
    (h : [Part.lc] ⊆ l) : SameBut l s0 (islandCopies s) ↔ SameBut l s0 s := by
  simp only [evs, List.map_cons, List.map_nil, List.cons_append, List.nil_append, List.append_nil, List.cons_subset, List.nil_subset, and_true, and_self] at h
  unfold islandCopies
  repeat' first
    | simp only [↓same_ite, ↓same_record, h, or_true, true_or, ite_self, evs, List.map_cons, List.map_nil, List.cons_append, List.nil_append, List.append_nil, List.cons_subset, List.nil_subset, and_true, and_self]
    | with_reducible refine Iff.trans (same_forAll (fun k t => ?_)) ?_
    | with_reducible refine Iff.trans (same_foldl (fun k t => ?_)) ?_
    | split
    | with_reducible exact Iff.rfl

theorem same_stepRootAge {l : List Part} {s0 s : State} (n : Int) (lowers : Bool)
    (h : [Part.mus, .nowRegs] ⊆ l) : SameBut l s0 (stepRootAge n lowers s) ↔ SameBut l s0 s := by
  simp only [evs, List.map_cons, List.map_nil, List.cons_append, List.nil_append, List.append_nil, List.cons_subset, List.nil_subset, and_true, and_self] at h
  unfold stepRootAge
  repeat' first
    | simp only [↓same_ite, ↓same_record, ↓same_nowPut, h, or_true, true_or, ite_self, evs, List.map_cons, List.map_nil, List.cons_append, List.nil_append, List.append_nil, List.cons_subset, List.nil_subset, and_true, and_self]
    | with_reducible refine Iff.trans (same_forAll (fun k t => ?_)) ?_
    | with_reducible refine Iff.trans (same_foldl (fun k t => ?_)) ?_
    | split
    | with_reducible exact Iff.rfl

theorem same_writeRcgCfg {l : List Part} {s0 s : State} (r : Nat) (v : Word)
    (h : [Part.bellWritten, .check] ++ evs .cfg [7] ⊆ l) : SameBut l s0 (writeRcgCfg r v s) ↔ SameBut l s0 s := by
  simp only [evs, List.map_cons, List.map_nil, List.cons_append, List.nil_append, List.append_nil, List.cons_subset, List.nil_subset, and_true, and_self] at h
  unfold writeRcgCfg
  repeat' first
    | simp only [↓same_ite, ↓same_record, ↓same_bellPut, ↓same_raise, h, or_true, true_or, ite_self, evs, List.map_cons, List.map_nil, List.cons_append, List.nil_append, List.append_nil, List.cons_subset, List.nil_subset, and_true, and_self]
    | with_reducible refine Iff.trans (same_forAll (fun k t => ?_)) ?_
    | with_reducible refine Iff.trans (same_foldl (fun k t => ?_)) ?_
    | split
    | with_reducible exact Iff.rfl

theorem same_setClaimTag {l : List Part} {s0 s : State} (p : Port) (t : BitVec 8)
    (h : [Part.tally] ⊆ l) : SameBut l s0 (setClaimTag p t s) ↔ SameBut l s0 s := by
  simp only [evs, List.map_cons, List.map_nil, List.cons_append, List.nil_append, List.append_nil, List.cons_subset, List.nil_subset, and_true, and_self] at h
  unfold setClaimTag
  repeat' first
    | simp only [↓same_ite, ↓same_record, h, or_true, true_or, ite_self, evs, List.map_cons, List.map_nil, List.cons_append, List.nil_append, List.append_nil, List.cons_subset, List.nil_subset, and_true, and_self]
    | with_reducible refine Iff.trans (same_forAll (fun k t => ?_)) ?_
    | with_reducible refine Iff.trans (same_foldl (fun k t => ?_)) ?_
    | split
    | with_reducible exact Iff.rfl

theorem same_writeTallyClaim {l : List Part} {s0 s : State} (w : Wr) (v : Word)
    (h : [Part.nowRegs, .tally] ++ evs .tally [5] ⊆ l) : SameBut l s0 (writeTallyClaim w v s) ↔ SameBut l s0 s := by
  simp only [evs, List.map_cons, List.map_nil, List.cons_append, List.nil_append, List.append_nil, List.cons_subset, List.nil_subset, and_true, and_self] at h
  unfold writeTallyClaim
  repeat' first
    | simp only [↓same_ite, ↓same_record, ↓same_giveBack, ↓same_nowPut, ↓same_raiseAbout, ↓same_setClaim, ↓same_setClaimTag, h, or_true, true_or, ite_self, evs, List.map_cons, List.map_nil, List.cons_append, List.nil_append, List.append_nil, List.cons_subset, List.nil_subset, and_true, and_self]
    | with_reducible refine Iff.trans (same_forAll (fun k t => ?_)) ?_
    | with_reducible refine Iff.trans (same_foldl (fun k t => ?_)) ?_
    | split
    | with_reducible exact Iff.rfl

theorem same_doAbort {l : List Part} {s0 : State} (u : Nat) (tag : BitVec 8) (s : State)
    (h : [Part.answers, .tally] ++ evs .tally [u] ⊆ l) : SameBut l s0 (doAbort u tag s) ↔ SameBut l s0 s := by
  simp only [evs, List.map_cons, List.map_nil, List.cons_append, List.nil_append, List.append_nil, List.cons_subset, List.nil_subset, and_true, and_self] at h
  unfold doAbort
  repeat' first
    | simp only [↓same_ite, ↓same_record, ↓same_tallyDone, ↓same_writeResults, ↓same_tallyAnswer, h, or_true, true_or, ite_self, evs, List.map_cons, List.map_nil, List.cons_append, List.nil_append, List.append_nil, List.cons_subset, List.nil_subset, and_true, and_self]
    | with_reducible refine Iff.trans (same_forAll (fun k t => ?_)) ?_
    | with_reducible refine Iff.trans (same_foldl (fun k t => ?_)) ?_
    | split
    | with_reducible exact Iff.rfl

theorem same_notOwner {l : List Part} {s0 s : State} (p : Port) (u : Nat)
    (h : [Part.answers, .check] ++ evs .cfg [8] ++ evs .tally [5] ⊆ l) : SameBut l s0 (notOwner p u s) ↔ SameBut l s0 s := by
  simp only [evs, List.map_cons, List.map_nil, List.cons_append, List.nil_append, List.append_nil, List.cons_subset, List.nil_subset, and_true, and_self] at h
  unfold notOwner
  repeat' first
    | simp only [↓same_ite, ↓same_record, ↓same_deny, ↓same_raiseAbout, h, or_true, true_or, ite_self, evs, List.map_cons, List.map_nil, List.cons_append, List.nil_append, List.append_nil, List.cons_subset, List.nil_subset, and_true, and_self]
    | with_reducible refine Iff.trans (same_forAll (fun k t => ?_)) ?_
    | with_reducible refine Iff.trans (same_foldl (fun k t => ?_)) ?_
    | split
    | with_reducible exact Iff.rfl

theorem same_writeTallyCmd {l : List Part} {s0 : State} (p : Port) (u : Nat) (v : Word) (c : Option CalEdges) (s : State)
    (h : [Part.answers, .check, .nowRegs, .tally] ++ evs .cfg [8] ++ evs .tally [u, 4, 5, 7] ⊆ l) : SameBut l s0 (writeTallyCmd p u v c s) ↔ SameBut l s0 s := by
  simp only [evs, List.map_cons, List.map_nil, List.cons_append, List.nil_append, List.append_nil, List.cons_subset, List.nil_subset, and_true, and_self] at h
  unfold writeTallyCmd
  repeat' first
    | simp only [↓same_ite, ↓same_record, ↓same_tallyAnswer, ↓same_notOwner, ↓same_nowPut, ↓same_doArm, ↓same_doAbort, h, or_true, true_or, ite_self, evs, List.map_cons, List.map_nil, List.cons_append, List.nil_append, List.append_nil, List.cons_subset, List.nil_subset, and_true, and_self]
    | with_reducible refine Iff.trans (same_forAll (fun k t => ?_)) ?_
    | with_reducible refine Iff.trans (same_foldl (fun k t => ?_)) ?_
    | split
    | with_reducible exact Iff.rfl

theorem same_mapRegions {l : List Part} {s0 s : State} (f : Nat → Region → Region)
    (h : [Part.regions] ⊆ l) : SameBut l s0 (mapRegions f s) ↔ SameBut l s0 s := by
  simp only [evs, List.map_cons, List.map_nil, List.cons_append, List.nil_append, List.append_nil, List.cons_subset, List.nil_subset, and_true, and_self] at h
  unfold mapRegions
  repeat' first
    | simp only [↓same_ite, ↓same_record, h, or_true, true_or, ite_self, evs, List.map_cons, List.map_nil, List.cons_append, List.nil_append, List.append_nil, List.cons_subset, List.nil_subset, and_true, and_self]
    | with_reducible refine Iff.trans (same_forAll (fun k t => ?_)) ?_
    | with_reducible refine Iff.trans (same_foldl (fun k t => ?_)) ?_
    | split
    | with_reducible exact Iff.rfl

theorem same_resumeOpen {l : List Part} {s0 s : State} 
    (h : [Part.regions] ⊆ l) : SameBut l s0 (resumeOpen s) ↔ SameBut l s0 s := by
  simp only [evs, List.map_cons, List.map_nil, List.cons_append, List.nil_append, List.append_nil, List.cons_subset, List.nil_subset, and_true, and_self] at h
  unfold resumeOpen
  repeat' first
    | simp only [↓same_ite, ↓same_record, ↓same_mapRegions, h, or_true, true_or, ite_self, evs, List.map_cons, List.map_nil, List.cons_append, List.nil_append, List.append_nil, List.cons_subset, List.nil_subset, and_true, and_self]
    | with_reducible refine Iff.trans (same_forAll (fun k t => ?_)) ?_
    | with_reducible refine Iff.trans (same_foldl (fun k t => ?_)) ?_
    | split
    | with_reducible exact Iff.rfl

theorem same_loadCounter {l : List Part} {s0 s : State} (value : Nat)
    (h : [Part.fold, .lc, .regions, .root, .time] ++ evs .bell [0, 1] ++ evs .fold [5] ⊆ l) : SameBut l s0 (loadCounter value s) ↔ SameBut l s0 s := by
  simp only [evs, List.map_cons, List.map_nil, List.cons_append, List.nil_append, List.append_nil, List.cons_subset, List.nil_subset, and_true, and_self] at h
  unfold loadCounter
  repeat' first
    | simp only [↓same_ite, ↓same_record, ↓same_raise, ↓same_resumeOpen, h, or_true, true_or, ite_self, evs, List.map_cons, List.map_nil, List.cons_append, List.nil_append, List.append_nil, List.cons_subset, List.nil_subset, and_true, and_self]
    | with_reducible refine Iff.trans (same_forAll (fun k t => ?_)) ?_
    | with_reducible refine Iff.trans (same_foldl (fun k t => ?_)) ?_
    | split
    | with_reducible exact Iff.rfl

theorem same_requestedLoad {l : List Part} {s0 s : State} 
    (h : [Part.fold, .lc, .mus, .regions, .root, .time] ++ evs .bell [0, 1] ++ evs .fold [5] ⊆ l) : SameBut l s0 (requestedLoad s) ↔ SameBut l s0 s := by
  simp only [evs, List.map_cons, List.map_nil, List.cons_append, List.nil_append, List.append_nil, List.cons_subset, List.nil_subset, and_true, and_self] at h
  unfold requestedLoad
  repeat' first
    | simp only [↓same_ite, ↓same_record, ↓same_loadCounter, h, or_true, true_or, ite_self, evs, List.map_cons, List.map_nil, List.cons_append, List.nil_append, List.append_nil, List.cons_subset, List.nil_subset, and_true, and_self]
    | with_reducible refine Iff.trans (same_forAll (fun k t => ?_)) ?_
    | with_reducible refine Iff.trans (same_foldl (fun k t => ?_)) ?_
    | split
    | with_reducible exact Iff.rfl

theorem same_cutClampWindow {l : List Part} {s0 s : State} (placed : Nat)
    (h : [Part.regions, .zones] ++ evs .zone [3, 4] ⊆ l) : SameBut l s0 (cutClampWindow placed s) ↔ SameBut l s0 s := by
  simp only [evs, List.map_cons, List.map_nil, List.cons_append, List.nil_append, List.append_nil, List.cons_subset, List.nil_subset, and_true, and_self] at h
  unfold cutClampWindow
  repeat' first
    | simp only [↓same_ite, ↓same_record, ↓same_clampEval, h, or_true, true_or, ite_self, evs, List.map_cons, List.map_nil, List.cons_append, List.nil_append, List.append_nil, List.cons_subset, List.nil_subset, and_true, and_self]
    | with_reducible refine Iff.trans (same_forAll (fun k t => ?_)) ?_
    | with_reducible refine Iff.trans (same_foldl (fun k t => ?_)) ?_
    | split
    | with_reducible exact Iff.rfl

theorem same_deferApply {l : List Part} {s0 s : State} (v : Word)
    (h : [Part.answers] ⊆ l) : SameBut l s0 (deferApply v s) ↔ SameBut l s0 s := by
  simp only [evs, List.map_cons, List.map_nil, List.cons_append, List.nil_append, List.append_nil, List.cons_subset, List.nil_subset, and_true, and_self] at h
  unfold deferApply
  repeat' first
    | simp only [↓same_ite, ↓same_record, h, or_true, true_or, ite_self, evs, List.map_cons, List.map_nil, List.cons_append, List.nil_append, List.append_nil, List.cons_subset, List.nil_subset, and_true, and_self]
    | with_reducible refine Iff.trans (same_forAll (fun k t => ?_)) ?_
    | with_reducible refine Iff.trans (same_foldl (fun k t => ?_)) ?_
    | split
    | with_reducible exact Iff.rfl

theorem same_deferLap {l : List Part} {s0 s : State} (late : Bool)
    (h : [Part.fold] ++ evs .fold [1, 2] ⊆ l) : SameBut l s0 (deferLap late s) ↔ SameBut l s0 s := by
  simp only [evs, List.map_cons, List.map_nil, List.cons_append, List.nil_append, List.append_nil, List.cons_subset, List.nil_subset, and_true, and_self] at h
  unfold deferLap
  repeat' first
    | simp only [↓same_ite, ↓same_record, ↓same_raise, h, or_true, true_or, ite_self, evs, List.map_cons, List.map_nil, List.cons_append, List.nil_append, List.append_nil, List.cons_subset, List.nil_subset, and_true, and_self]
    | with_reducible refine Iff.trans (same_forAll (fun k t => ?_)) ?_
    | with_reducible refine Iff.trans (same_foldl (fun k t => ?_)) ?_
    | split
    | with_reducible exact Iff.rfl

theorem same_deferPlanned {l : List Part} {s0 s : State} (n : Nat)
    (h : [Part.fold] ++ evs .fold [10] ⊆ l) : SameBut l s0 (deferPlanned n s) ↔ SameBut l s0 s := by
  simp only [evs, List.map_cons, List.map_nil, List.cons_append, List.nil_append, List.append_nil, List.cons_subset, List.nil_subset, and_true, and_self] at h
  unfold deferPlanned
  repeat' first
    | simp only [↓same_ite, ↓same_record, ↓same_raise, h, or_true, true_or, ite_self, evs, List.map_cons, List.map_nil, List.cons_append, List.nil_append, List.append_nil, List.cons_subset, List.nil_subset, and_true, and_self]
    | with_reducible refine Iff.trans (same_forAll (fun k t => ?_)) ?_
    | with_reducible refine Iff.trans (same_foldl (fun k t => ?_)) ?_
    | split
    | with_reducible exact Iff.rfl

theorem same_passEntry {l : List Part} {s0 s : State} (idx e off : Nat)
    (h : [Part.flocks] ⊆ l) : SameBut l s0 (passEntry idx e off s) ↔ SameBut l s0 s := by
  simp only [evs, List.map_cons, List.map_nil, List.cons_append, List.nil_append, List.append_nil, List.cons_subset, List.nil_subset, and_true, and_self] at h
  unfold passEntry
  repeat' first
    | simp only [↓same_ite, ↓same_record, ↓same_setFlock, h, or_true, true_or, ite_self, evs, List.map_cons, List.map_nil, List.cons_append, List.nil_append, List.append_nil, List.cons_subset, List.nil_subset, and_true, and_self]
    | with_reducible refine Iff.trans (same_forAll (fun k t => ?_)) ?_
    | with_reducible refine Iff.trans (same_foldl (fun k t => ?_)) ?_
    | split
    | with_reducible exact Iff.rfl

theorem same_deliver {l : List Part} {s0 : State} (idx e off : Nat) (act : Nat → State → State) (s : State)
    (h : [Part.fcst, .flocks, .regions] ⊆ l) (he : ∀ r t, SameBut l s0 (act r t) ↔ SameBut l s0 t) :
    SameBut l s0 (deliver idx e off act s) ↔ SameBut l s0 s := by
  simp only [evs, List.map_cons, List.map_nil, List.cons_append, List.nil_append, List.append_nil, List.cons_subset, List.nil_subset, and_true, and_self] at h
  unfold deliver
  simp only [↓same_tailEnds, h, evs, List.map_cons, List.map_nil, List.cons_append, List.nil_append, List.append_nil, List.cons_subset, List.nil_subset, and_true, and_self]
  refine Iff.trans (same_forAll (fun k t => ?_)) ?_ <;>
    simp only [↓same_ite, ↓same_record, ↓same_passEntry, ↓he, h, or_true, true_or, ite_self, evs, List.map_cons, List.map_nil, List.cons_append, List.nil_append, List.append_nil, List.cons_subset, List.nil_subset, and_true, and_self]

theorem same_forceEdge {l : List Part} {s0 s : State} 
    (h : [Part.regions, .root] ++ evs .root [3, 8] ⊆ l) : SameBut l s0 (forceEdge s) ↔ SameBut l s0 s := by
  simp only [evs, List.map_cons, List.map_nil, List.cons_append, List.nil_append, List.append_nil, List.cons_subset, List.nil_subset, and_true, and_self] at h
  unfold forceEdge
  repeat' first
    | simp only [↓same_ite, ↓same_record, ↓same_bypassEntered, h, or_true, true_or, ite_self, evs, List.map_cons, List.map_nil, List.cons_append, List.nil_append, List.append_nil, List.cons_subset, List.nil_subset, and_true, and_self]
    | with_reducible refine Iff.trans (same_forAll (fun k t => ?_)) ?_
    | with_reducible refine Iff.trans (same_foldl (fun k t => ?_)) ?_
    | split
    | with_reducible exact Iff.rfl

theorem same_switchTo {l : List Part} {s0 s : State} (y : Syn)
    (h : [Part.root] ++ evs .root [2] ⊆ l) : SameBut l s0 (switchTo y s) ↔ SameBut l s0 s := by
  simp only [evs, List.map_cons, List.map_nil, List.cons_append, List.nil_append, List.append_nil, List.cons_subset, List.nil_subset, and_true, and_self] at h
  unfold switchTo
  repeat' first
    | simp only [↓same_ite, ↓same_record, ↓same_raise, h, or_true, true_or, ite_self, evs, List.map_cons, List.map_nil, List.cons_append, List.nil_append, List.append_nil, List.cons_subset, List.nil_subset, and_true, and_self]
    | with_reducible refine Iff.trans (same_forAll (fun k t => ?_)) ?_
    | with_reducible refine Iff.trans (same_foldl (fun k t => ?_)) ?_
    | split
    | with_reducible exact Iff.rfl

theorem same_prefSwitch {l : List Part} {s0 s : State} 
    (h : [Part.root] ++ evs .root [2] ⊆ l) : SameBut l s0 (prefSwitch s) ↔ SameBut l s0 s := by
  simp only [evs, List.map_cons, List.map_nil, List.cons_append, List.nil_append, List.append_nil, List.cons_subset, List.nil_subset, and_true, and_self] at h
  unfold prefSwitch
  repeat' first
    | simp only [↓same_ite, ↓same_record, ↓same_setSyn, ↓same_switchTo, h, or_true, true_or, ite_self, evs, List.map_cons, List.map_nil, List.cons_append, List.nil_append, List.append_nil, List.cons_subset, List.nil_subset, and_true, and_self]
    | with_reducible refine Iff.trans (same_forAll (fun k t => ?_)) ?_
    | with_reducible refine Iff.trans (same_foldl (fun k t => ?_)) ?_
    | split
    | with_reducible exact Iff.rfl

theorem same_prefAct {l : List Part} {s0 s : State} 
    (h : [Part.root] ++ evs .root [2, 8] ⊆ l) : SameBut l s0 (prefAct s) ↔ SameBut l s0 s := by
  simp only [evs, List.map_cons, List.map_nil, List.cons_append, List.nil_append, List.append_nil, List.cons_subset, List.nil_subset, and_true, and_self] at h
  unfold prefAct
  repeat' first
    | simp only [↓same_ite, ↓same_record, ↓same_prefSwitch, ↓same_sparePower, h, or_true, true_or, ite_self, evs, List.map_cons, List.map_nil, List.cons_append, List.nil_append, List.append_nil, List.cons_subset, List.nil_subset, and_true, and_self]
    | with_reducible refine Iff.trans (same_forAll (fun k t => ?_)) ?_
    | with_reducible refine Iff.trans (same_foldl (fun k t => ?_)) ?_
    | split
    | with_reducible exact Iff.rfl

theorem same_pumpOver {l : List Part} {s0 s : State} (y : Syn)
    (h : [Part.root] ++ evs .root [2, 8] ⊆ l) : SameBut l s0 (pumpOver y s) ↔ SameBut l s0 s := by
  simp only [evs, List.map_cons, List.map_nil, List.cons_append, List.nil_append, List.append_nil, List.cons_subset, List.nil_subset, and_true, and_self] at h
  unfold pumpOver
  repeat' first
    | simp only [↓same_ite, ↓same_record, ↓same_prefAct, ↓same_setSyn, h, or_true, true_or, ite_self, evs, List.map_cons, List.map_nil, List.cons_append, List.nil_append, List.append_nil, List.cons_subset, List.nil_subset, and_true, and_self]
    | with_reducible refine Iff.trans (same_forAll (fun k t => ?_)) ?_
    | with_reducible refine Iff.trans (same_foldl (fun k t => ?_)) ?_
    | split
    | with_reducible exact Iff.rfl

theorem same_yieldUnit0 {l : List Part} {s0 s : State} 
    (h : [Part.cal, .root, .tally] ++ evs .root [2, 8] ++ evs .tally [0, 1, 2, 3] ⊆ l) : SameBut l s0 (yieldUnit0 s) ↔ SameBut l s0 s := by
  simp only [evs, List.map_cons, List.map_nil, List.cons_append, List.nil_append, List.append_nil, List.cons_subset, List.nil_subset, and_true, and_self] at h
  unfold yieldUnit0
  repeat' first
    | simp only [↓same_ite, ↓same_record, ↓same_pumpOver, ↓same_tallyDone, ↓same_writeResults, h, or_true, true_or, ite_self, evs, List.map_cons, List.map_nil, List.cons_append, List.nil_append, List.append_nil, List.cons_subset, List.nil_subset, and_true, and_self]
    | with_reducible refine Iff.trans (same_forAll (fun k t => ?_)) ?_
    | with_reducible refine Iff.trans (same_foldl (fun k t => ?_)) ?_
    | split
    | with_reducible exact Iff.rfl

theorem same_keepUnit0 {l : List Part} {s0 s : State} 
    (h : [Part.cal, .nowRegs, .root, .tally] ++ evs .root [2, 8] ++ evs .tally [0, 1, 2, 3, 4, 7] ⊆ l) : SameBut l s0 (keepUnit0 s) ↔ SameBut l s0 s := by
  simp only [evs, List.map_cons, List.map_nil, List.cons_append, List.nil_append, List.append_nil, List.cons_subset, List.nil_subset, and_true, and_self] at h
  unfold keepUnit0
  repeat' first
    | simp only [↓same_ite, ↓same_record, ↓same_armUnit0, ↓same_yieldUnit0, h, or_true, true_or, ite_self, evs, List.map_cons, List.map_nil, List.cons_append, List.nil_append, List.append_nil, List.cons_subset, List.nil_subset, and_true, and_self]
    | with_reducible refine Iff.trans (same_forAll (fun k t => ?_)) ?_
    | with_reducible refine Iff.trans (same_foldl (fun k t => ?_)) ?_
    | split
    | with_reducible exact Iff.rfl

theorem same_ledTick {l : List Part} {s0 s : State} 
    (h : [Part.lc] ⊆ l) : SameBut l s0 (ledTick s) ↔ SameBut l s0 s := by
  simp only [evs, List.map_cons, List.map_nil, List.cons_append, List.nil_append, List.append_nil, List.cons_subset, List.nil_subset, and_true, and_self] at h
  unfold ledTick
  repeat' first
    | simp only [↓same_ite, ↓same_record, h, or_true, true_or, ite_self, evs, List.map_cons, List.map_nil, List.cons_append, List.nil_append, List.append_nil, List.cons_subset, List.nil_subset, and_true, and_self]
    | with_reducible refine Iff.trans (same_forAll (fun k t => ?_)) ?_
    | with_reducible refine Iff.trans (same_foldl (fun k t => ?_)) ?_
    | split
    | with_reducible exact Iff.rfl

theorem same_ppsFall {l : List Part} {s0 s : State} 
    (h : [Part.mus] ⊆ l) : SameBut l s0 (ppsFall s) ↔ SameBut l s0 s := by
  simp only [evs, List.map_cons, List.map_nil, List.cons_append, List.nil_append, List.append_nil, List.cons_subset, List.nil_subset, and_true, and_self] at h
  unfold ppsFall
  repeat' first
    | simp only [↓same_ite, ↓same_record, h, or_true, true_or, ite_self, evs, List.map_cons, List.map_nil, List.cons_append, List.nil_append, List.append_nil, List.cons_subset, List.nil_subset, and_true, and_self]
    | with_reducible refine Iff.trans (same_forAll (fun k t => ?_)) ?_
    | with_reducible refine Iff.trans (same_foldl (fun k t => ?_)) ?_
    | split
    | with_reducible exact Iff.rfl

theorem same_ppsWatch {l : List Part} {s0 s : State} 
    (h : evs .mus [10] ⊆ l) : SameBut l s0 (ppsWatch s) ↔ SameBut l s0 s := by
  simp only [evs, List.map_cons, List.map_nil, List.cons_append, List.nil_append, List.append_nil, List.cons_subset, List.nil_subset, and_true, and_self] at h
  unfold ppsWatch
  repeat' first
    | simp only [↓same_ite, ↓same_record, ↓same_raise, h, or_true, true_or, ite_self, evs, List.map_cons, List.map_nil, List.cons_append, List.nil_append, List.append_nil, List.cons_subset, List.nil_subset, and_true, and_self]
    | with_reducible refine Iff.trans (same_forAll (fun k t => ?_)) ?_
    | with_reducible refine Iff.trans (same_foldl (fun k t => ?_)) ?_
    | split
    | with_reducible exact Iff.rfl

theorem same_pumpStep {l : List Part} {s0 s : State} 
    (h : [Part.cal, .root] ⊆ l) : SameBut l s0 (pumpStep s) ↔ SameBut l s0 s := by
  simp only [evs, List.map_cons, List.map_nil, List.cons_append, List.nil_append, List.append_nil, List.cons_subset, List.nil_subset, and_true, and_self] at h
  unfold pumpStep
  repeat' first
    | simp only [↓same_ite, ↓same_record, ↓same_valuesChanged, h, or_true, true_or, ite_self, evs, List.map_cons, List.map_nil, List.cons_append, List.nil_append, List.append_nil, List.cons_subset, List.nil_subset, and_true, and_self]
    | with_reducible refine Iff.trans (same_forAll (fun k t => ?_)) ?_
    | with_reducible refine Iff.trans (same_foldl (fun k t => ?_)) ?_
    | split
    | with_reducible exact Iff.rfl

theorem same_lateDeferral {l : List Part} {s0 s : State} (fs : List Nat)
    (h : [Part.fold, .regions] ⊆ l) : SameBut l s0 (lateDeferral fs s) ↔ SameBut l s0 s := by
  simp only [evs, List.map_cons, List.map_nil, List.cons_append, List.nil_append, List.append_nil, List.cons_subset, List.nil_subset, and_true, and_self] at h
  unfold lateDeferral
  repeat' first
    | simp only [↓same_ite, ↓same_record, ↓same_setRegion, h, or_true, true_or, ite_self, evs, List.map_cons, List.map_nil, List.cons_append, List.nil_append, List.append_nil, List.cons_subset, List.nil_subset, and_true, and_self]
    | with_reducible refine Iff.trans (same_forAll (fun k t => ?_)) ?_
    | with_reducible refine Iff.trans (same_foldl (fun k t => ?_)) ?_
    | split
    | with_reducible exact Iff.rfl

theorem same_lateTails {l : List Part} {s0 s : State} 
    (h : [Part.flocks, .fold, .gens, .regions] ++ evs .flock [2, 3, 9, 10] ++ evs .rcg [0] ⊆ l) : SameBut l s0 (lateTails s) ↔ SameBut l s0 s := by
  simp only [evs, List.map_cons, List.map_nil, List.cons_append, List.nil_append, List.append_nil, List.cons_subset, List.nil_subset, and_true, and_self] at h
  unfold lateTails
  repeat' first
    | simp only [↓same_ite, ↓same_record, ↓same_lateDeferral, ↓same_tailBands, ↓same_tailRest, h, or_true, true_or, ite_self, evs, List.map_cons, List.map_nil, List.cons_append, List.nil_append, List.append_nil, List.cons_subset, List.nil_subset, and_true, and_self]
    | with_reducible refine Iff.trans (same_forAll (fun k t => ?_)) ?_
    | with_reducible refine Iff.trans (same_foldl (fun k t => ?_)) ?_
    | split
    | with_reducible exact Iff.rfl

theorem same_regionsTick {l : List Part} {s0 s : State} (phases : List (Nat × Nat)) (ticks : Nat)
    (h : [Part.flocks, .fold, .gens, .regions] ++ evs .flock [2, 3, 9, 10] ++ evs .rcg [0] ⊆ l) : SameBut l s0 (regionsTick phases ticks s) ↔ SameBut l s0 s := by
  simp only [evs, List.map_cons, List.map_nil, List.cons_append, List.nil_append, List.append_nil, List.cons_subset, List.nil_subset, and_true, and_self] at h
  unfold regionsTick
  repeat' first
    | simp only [↓same_ite, ↓same_record, ↓same_lateTails, ↓same_mapGens, ↓same_mapRegions, ↓same_tailEnds, h, or_true, true_or, ite_self, evs, List.map_cons, List.map_nil, List.cons_append, List.nil_append, List.append_nil, List.cons_subset, List.nil_subset, and_true, and_self]
    | with_reducible refine Iff.trans (same_forAll (fun k t => ?_)) ?_
    | with_reducible refine Iff.trans (same_foldl (fun k t => ?_)) ?_
    | split
    | with_reducible exact Iff.rfl

theorem same_turnRotor {l : List Part} {s0 s : State} (v : Rat)
    (h : [Part.mus] ⊆ l) : SameBut l s0 (turnRotor v s) ↔ SameBut l s0 s := by
  simp only [evs, List.map_cons, List.map_nil, List.cons_append, List.nil_append, List.append_nil, List.cons_subset, List.nil_subset, and_true, and_self] at h
  unfold turnRotor
  repeat' first
    | simp only [↓same_ite, ↓same_record, h, or_true, true_or, ite_self, evs, List.map_cons, List.map_nil, List.cons_append, List.nil_append, List.append_nil, List.cons_subset, List.nil_subset, and_true, and_self]
    | with_reducible refine Iff.trans (same_forAll (fun k t => ?_)) ?_
    | with_reducible refine Iff.trans (same_foldl (fun k t => ?_)) ?_
    | split
    | with_reducible exact Iff.rfl

theorem same_rotate {l : List Part} {s0 s : State} 
    (h : [Part.mus] ⊆ l) : SameBut l s0 (rotate s) ↔ SameBut l s0 s := by
  simp only [evs, List.map_cons, List.map_nil, List.cons_append, List.nil_append, List.append_nil, List.cons_subset, List.nil_subset, and_true, and_self] at h
  unfold rotate
  repeat' first
    | simp only [↓same_ite, ↓same_record, ↓same_turnRotor, h, or_true, true_or, ite_self, evs, List.map_cons, List.map_nil, List.cons_append, List.nil_append, List.append_nil, List.cons_subset, List.nil_subset, and_true, and_self]
    | with_reducible refine Iff.trans (same_forAll (fun k t => ?_)) ?_
    | with_reducible refine Iff.trans (same_foldl (fun k t => ?_)) ?_
    | split
    | with_reducible exact Iff.rfl

theorem same_denyImage {l : List Part} {s0 s : State} 
    (h : [Part.check] ++ evs .cfg [8] ⊆ l) : SameBut l s0 (denyImage s) ↔ SameBut l s0 s := by
  simp only [evs, List.map_cons, List.map_nil, List.cons_append, List.nil_append, List.append_nil, List.cons_subset, List.nil_subset, and_true, and_self] at h
  unfold denyImage
  repeat' first
    | simp only [↓same_ite, ↓same_record, ↓same_raise, h, or_true, true_or, ite_self, evs, List.map_cons, List.map_nil, List.cons_append, List.nil_append, List.append_nil, List.cons_subset, List.nil_subset, and_true, and_self]
    | with_reducible refine Iff.trans (same_forAll (fun k t => ?_)) ?_
    | with_reducible refine Iff.trans (same_foldl (fun k t => ?_)) ?_
    | split
    | with_reducible exact Iff.rfl

theorem same_takeFreeWord {l : List Part} {s0 : State} (s : State) (h : [Part.freeCount] ⊆ l) :
    SameBut l s0 (takeFreeWord s).2 ↔ SameBut l s0 s := by
  simp only [List.cons_subset, List.nil_subset, and_true] at h
  simp only [takeFreeWord, ↓same_record, h, or_true, true_or, and_self]

theorem same_denyTest {l : List Part} {s0 s : State} 
    (h : [Part.check, .freeCount] ++ evs .cfg [8] ⊆ l) : SameBut l s0 (denyTest s) ↔ SameBut l s0 s := by
  simp only [evs, List.map_cons, List.map_nil, List.cons_append, List.nil_append, List.append_nil, List.cons_subset, List.nil_subset, and_true, and_self] at h
  unfold denyTest
  repeat' first
    | simp only [↓same_ite, ↓same_record, ↓same_raise, ↓same_takeFreeWord, h, or_true, true_or, ite_self, evs, List.map_cons, List.map_nil, List.cons_append, List.nil_append, List.append_nil, List.cons_subset, List.nil_subset, and_true, and_self]
    | with_reducible refine Iff.trans (same_forAll (fun k t => ?_)) ?_
    | with_reducible refine Iff.trans (same_foldl (fun k t => ?_)) ?_
    | split
    | with_reducible exact Iff.rfl

theorem same_discardFrame {l : List Part} {s0 s : State} 
    (h : [Part.mus] ⊆ l) : SameBut l s0 (discardFrame s) ↔ SameBut l s0 s := by
  simp only [evs, List.map_cons, List.map_nil, List.cons_append, List.nil_append, List.append_nil, List.cons_subset, List.nil_subset, and_true, and_self] at h
  unfold discardFrame
  repeat' first
    | simp only [↓same_ite, ↓same_record, h, or_true, true_or, ite_self, evs, List.map_cons, List.map_nil, List.cons_append, List.nil_append, List.append_nil, List.cons_subset, List.nil_subset, and_true, and_self]
    | with_reducible refine Iff.trans (same_forAll (fun k t => ?_)) ?_
    | with_reducible refine Iff.trans (same_foldl (fun k t => ?_)) ?_
    | split
    | with_reducible exact Iff.rfl

theorem same_failBack {l : List Part} {s0 s : State} (atBell : Bool) (r : Nat)
    (h : [Part.flocks, .gens, .regions] ++ evs .flock [2, 3, 8, 9, 10] ++ evs .rcg [1, 2, 3] ⊆ l) : SameBut l s0 (failBack atBell r s) ↔ SameBut l s0 s := by
  simp only [evs, List.map_cons, List.map_nil, List.cons_append, List.nil_append, List.append_nil, List.cons_subset, List.nil_subset, and_true, and_self] at h
  unfold failBack
  repeat' first
    | simp only [↓same_ite, ↓same_record, ↓same_raiseAbout, ↓same_retune, ↓same_setGen, ↓same_setRegion, ↓same_spareChanged, ↓same_spareLocking, h, or_true, true_or, ite_self, evs, List.map_cons, List.map_nil, List.cons_append, List.nil_append, List.append_nil, List.cons_subset, List.nil_subset, and_true, and_self]
    | with_reducible refine Iff.trans (same_forAll (fun k t => ?_)) ?_
    | with_reducible refine Iff.trans (same_foldl (fun k t => ?_)) ?_
    | split
    | with_reducible exact Iff.rfl

theorem same_genAnswer {l : List Part} {s0 s : State} (f : Nat) (status : BitVec 2)
    (h : [Part.flocks] ⊆ l) : SameBut l s0 (genAnswer f status s) ↔ SameBut l s0 s := by
  simp only [evs, List.map_cons, List.map_nil, List.cons_append, List.nil_append, List.append_nil, List.cons_subset, List.nil_subset, and_true, and_self] at h
  unfold genAnswer
  repeat' first
    | simp only [↓same_ite, ↓same_record, ↓same_setFlock, h, or_true, true_or, ite_self, evs, List.map_cons, List.map_nil, List.cons_append, List.nil_append, List.append_nil, List.cons_subset, List.nil_subset, and_true, and_self]
    | with_reducible refine Iff.trans (same_forAll (fun k t => ?_)) ?_
    | with_reducible refine Iff.trans (same_foldl (fun k t => ?_)) ?_
    | split
    | with_reducible exact Iff.rfl

theorem same_doReinstate {l : List Part} {s0 s : State} (f code : Nat)
    (h : [Part.flocks, .gens, .regions] ++ evs .flock [2, 3, 7, 8, 9, 10] ++ evs .rcg [1, 2, 3] ⊆ l) : SameBut l s0 (doReinstate f code s) ↔ SameBut l s0 s := by
  simp only [evs, List.map_cons, List.map_nil, List.cons_append, List.nil_append, List.append_nil, List.cons_subset, List.nil_subset, and_true, and_self] at h
  unfold doReinstate
  repeat' first
    | simp only [↓same_ite, ↓same_record, ↓same_failBack, ↓same_genAnswer, ↓same_raiseAbout, ↓same_setGen, ↓same_spareChanged, ↓same_spareLocking, h, or_true, true_or, ite_self, evs, List.map_cons, List.map_nil, List.cons_append, List.nil_append, List.append_nil, List.cons_subset, List.nil_subset, and_true, and_self]
    | with_reducible refine Iff.trans (same_forAll (fun k t => ?_)) ?_
    | with_reducible refine Iff.trans (same_foldl (fun k t => ?_)) ?_
    | split
    | with_reducible exact Iff.rfl

theorem same_doRetest {l : List Part} {s0 s : State} (f code : Nat)
    (h : [Part.flocks] ⊆ l) : SameBut l s0 (doRetest f code s) ↔ SameBut l s0 s := by
  simp only [evs, List.map_cons, List.map_nil, List.cons_append, List.nil_append, List.append_nil, List.cons_subset, List.nil_subset, and_true, and_self] at h
  unfold doRetest
  repeat' first
    | simp only [↓same_ite, ↓same_record, ↓same_genAnswer, ↓same_setFlock, h, or_true, true_or, ite_self, evs, List.map_cons, List.map_nil, List.cons_append, List.nil_append, List.append_nil, List.cons_subset, List.nil_subset, and_true, and_self]
    | with_reducible refine Iff.trans (same_forAll (fun k t => ?_)) ?_
    | with_reducible refine Iff.trans (same_foldl (fun k t => ?_)) ?_
    | split
    | with_reducible exact Iff.rfl

theorem same_doRetire {l : List Part} {s0 s : State} (f code : Nat)
    (h : [Part.flocks, .gens] ++ evs .flock [2, 3, 9, 10] ⊆ l) : SameBut l s0 (doRetire f code s) ↔ SameBut l s0 s := by
  simp only [evs, List.map_cons, List.map_nil, List.cons_append, List.nil_append, List.append_nil, List.cons_subset, List.nil_subset, and_true, and_self] at h
  unfold doRetire
  repeat' first
    | simp only [↓same_ite, ↓same_record, ↓same_genAnswer, ↓same_markFailed, ↓same_spareChanged, h, or_true, true_or, ite_self, evs, List.map_cons, List.map_nil, List.cons_append, List.nil_append, List.append_nil, List.cons_subset, List.nil_subset, and_true, and_self]
    | with_reducible refine Iff.trans (same_forAll (fun k t => ?_)) ?_
    | with_reducible refine Iff.trans (same_foldl (fun k t => ?_)) ?_
    | split
    | with_reducible exact Iff.rfl

theorem same_setFbank {l : List Part} {s0 s : State} (b : BitVec 1) (x : Bank)
    (h : [Part.fcst] ⊆ l) : SameBut l s0 (setFbank b x s) ↔ SameBut l s0 s := by
  simp only [evs, List.map_cons, List.map_nil, List.cons_append, List.nil_append, List.append_nil, List.cons_subset, List.nil_subset, and_true, and_self] at h
  unfold setFbank
  repeat' first
    | simp only [↓same_ite, ↓same_record, h, or_true, true_or, ite_self, evs, List.map_cons, List.map_nil, List.cons_append, List.nil_append, List.append_nil, List.cons_subset, List.nil_subset, and_true, and_self]
    | with_reducible refine Iff.trans (same_forAll (fun k t => ?_)) ?_
    | with_reducible refine Iff.trans (same_foldl (fun k t => ?_)) ?_
    | split
    | with_reducible exact Iff.rfl

theorem same_storeBeat {l : List Part} {s0 s : State} (b : Beat)
    (h : [Part.data] ⊆ l) : SameBut l s0 (storeBeat b s) ↔ SameBut l s0 s := by
  simp only [evs, List.map_cons, List.map_nil, List.cons_append, List.nil_append, List.append_nil, List.cons_subset, List.nil_subset, and_true, and_self] at h
  unfold storeBeat
  repeat' first
    | simp only [↓same_ite, ↓same_record, h, or_true, true_or, ite_self, evs, List.map_cons, List.map_nil, List.cons_append, List.nil_append, List.append_nil, List.cons_subset, List.nil_subset, and_true, and_self]
    | with_reducible refine Iff.trans (same_forAll (fun k t => ?_)) ?_
    | with_reducible refine Iff.trans (same_foldl (fun k t => ?_)) ?_
    | split
    | with_reducible exact Iff.rfl

theorem same_sealFails {l : List Part} {s0 s : State} (b : BitVec 1) (code idx : Nat)
    (h : [Part.fcst] ++ evs .fcst [1] ⊆ l) : SameBut l s0 (sealFails b code idx s) ↔ SameBut l s0 s := by
  simp only [evs, List.map_cons, List.map_nil, List.cons_append, List.nil_append, List.append_nil, List.cons_subset, List.nil_subset, and_true, and_self] at h
  unfold sealFails
  repeat' first
    | simp only [↓same_ite, ↓same_record, ↓same_raise, ↓same_setFbank, h, or_true, true_or, ite_self, evs, List.map_cons, List.map_nil, List.cons_append, List.nil_append, List.append_nil, List.cons_subset, List.nil_subset, and_true, and_self]
    | with_reducible refine Iff.trans (same_forAll (fun k t => ?_)) ?_
    | with_reducible refine Iff.trans (same_foldl (fun k t => ?_)) ?_
    | split
    | with_reducible exact Iff.rfl

theorem same_waitCheck {l : List Part} {s0 s : State} (b : BitVec 1)
    (h : [Part.fcst] ++ evs .fcst [1] ⊆ l) : SameBut l s0 (waitCheck b s) ↔ SameBut l s0 s := by
  simp only [evs, List.map_cons, List.map_nil, List.cons_append, List.nil_append, List.append_nil, List.cons_subset, List.nil_subset, and_true, and_self] at h
  unfold waitCheck
  repeat' first
    | simp only [↓same_ite, ↓same_record, ↓same_sealFails, ↓same_setFbank, h, or_true, true_or, ite_self, evs, List.map_cons, List.map_nil, List.cons_append, List.nil_append, List.append_nil, List.cons_subset, List.nil_subset, and_true, and_self]
    | with_reducible refine Iff.trans (same_forAll (fun k t => ?_)) ?_
    | with_reducible refine Iff.trans (same_foldl (fun k t => ?_)) ?_
    | split
    | with_reducible exact Iff.rfl

theorem same_fcstBeat {l : List Part} {s0 s : State} (b : Beat)
    (h : [Part.answers, .data, .fcst] ++ evs .fcst [1, 7, 8, 9] ⊆ l) : SameBut l s0 (fcstBeat b s) ↔ SameBut l s0 s := by
  simp only [evs, List.map_cons, List.map_nil, List.cons_append, List.nil_append, List.append_nil, List.cons_subset, List.nil_subset, and_true, and_self] at h
  unfold fcstBeat
  repeat' first
    | simp only [↓same_ite, ↓same_record, ↓same_answer, ↓same_raise, ↓same_setFbank, ↓same_storeBeat, ↓same_waitCheck, h, or_true, true_or, ite_self, evs, List.map_cons, List.map_nil, List.cons_append, List.nil_append, List.append_nil, List.cons_subset, List.nil_subset, and_true, and_self]
    | with_reducible refine Iff.trans (same_forAll (fun k t => ?_)) ?_
    | with_reducible refine Iff.trans (same_foldl (fun k t => ?_)) ?_
    | split
    | with_reducible exact Iff.rfl

theorem same_setSwBank {l : List Part} {s0 s : State} (b : BitVec 1) (x : Bank)
    (h : [Part.shep] ⊆ l) : SameBut l s0 (setSwBank b x s) ↔ SameBut l s0 s := by
  simp only [evs, List.map_cons, List.map_nil, List.cons_append, List.nil_append, List.append_nil, List.cons_subset, List.nil_subset, and_true, and_self] at h
  unfold setSwBank
  repeat' first
    | simp only [↓same_ite, ↓same_record, h, or_true, true_or, ite_self, evs, List.map_cons, List.map_nil, List.cons_append, List.nil_append, List.append_nil, List.cons_subset, List.nil_subset, and_true, and_self]
    | with_reducible refine Iff.trans (same_forAll (fun k t => ?_)) ?_
    | with_reducible refine Iff.trans (same_foldl (fun k t => ?_)) ?_
    | split
    | with_reducible exact Iff.rfl

theorem same_swSealFails {l : List Part} {s0 s : State} (b : BitVec 1) (code : Nat)
    (h : [Part.shep] ++ evs .shep [4] ⊆ l) : SameBut l s0 (swSealFails b code s) ↔ SameBut l s0 s := by
  simp only [evs, List.map_cons, List.map_nil, List.cons_append, List.nil_append, List.append_nil, List.cons_subset, List.nil_subset, and_true, and_self] at h
  unfold swSealFails
  repeat' first
    | simp only [↓same_ite, ↓same_record, ↓same_raise, ↓same_setSwBank, h, or_true, true_or, ite_self, evs, List.map_cons, List.map_nil, List.cons_append, List.nil_append, List.append_nil, List.cons_subset, List.nil_subset, and_true, and_self]
    | with_reducible refine Iff.trans (same_forAll (fun k t => ?_)) ?_
    | with_reducible refine Iff.trans (same_foldl (fun k t => ?_)) ?_
    | split
    | with_reducible exact Iff.rfl

theorem same_swWaitCheck {l : List Part} {s0 s : State} (b : BitVec 1)
    (h : [Part.shep] ++ evs .shep [4] ⊆ l) : SameBut l s0 (swWaitCheck b s) ↔ SameBut l s0 s := by
  simp only [evs, List.map_cons, List.map_nil, List.cons_append, List.nil_append, List.append_nil, List.cons_subset, List.nil_subset, and_true, and_self] at h
  unfold swWaitCheck
  repeat' first
    | simp only [↓same_ite, ↓same_record, ↓same_setSwBank, ↓same_swSealFails, h, or_true, true_or, ite_self, evs, List.map_cons, List.map_nil, List.cons_append, List.nil_append, List.append_nil, List.cons_subset, List.nil_subset, and_true, and_self]
    | with_reducible refine Iff.trans (same_forAll (fun k t => ?_)) ?_
    | with_reducible refine Iff.trans (same_foldl (fun k t => ?_)) ?_
    | split
    | with_reducible exact Iff.rfl

theorem same_fwBeat {l : List Part} {s0 s : State} (b : Beat)
    (h : [Part.answers, .data, .shep] ++ evs .shep [4, 7, 8, 9] ⊆ l) : SameBut l s0 (fwBeat b s) ↔ SameBut l s0 s := by
  simp only [evs, List.map_cons, List.map_nil, List.cons_append, List.nil_append, List.append_nil, List.cons_subset, List.nil_subset, and_true, and_self] at h
  unfold fwBeat
  repeat' first
    | simp only [↓same_ite, ↓same_record, ↓same_answer, ↓same_raise, ↓same_setSwBank, ↓same_storeBeat, ↓same_swWaitCheck, h, or_true, true_or, ite_self, evs, List.map_cons, List.map_nil, List.cons_append, List.nil_append, List.append_nil, List.cons_subset, List.nil_subset, and_true, and_self]
    | with_reducible refine Iff.trans (same_forAll (fun k t => ?_)) ?_
    | with_reducible refine Iff.trans (same_foldl (fun k t => ?_)) ?_
    | split
    | with_reducible exact Iff.rfl

theorem same_storeFresh {l : List Part} {s0 s : State} (now a strb : Nat) (bs : List (BitVec 8))
    (h : [Part.answers, .data] ⊆ l) : SameBut l s0 (storeFresh now a strb bs s) ↔ SameBut l s0 s := by
  simp only [evs, List.map_cons, List.map_nil, List.cons_append, List.nil_append, List.append_nil, List.cons_subset, List.nil_subset, and_true, and_self] at h
  unfold storeFresh
  repeat' first
    | simp only [↓same_ite, ↓same_record, h, or_true, true_or, ite_self, evs, List.map_cons, List.map_nil, List.cons_append, List.nil_append, List.append_nil, List.cons_subset, List.nil_subset, and_true, and_self]
    | with_reducible refine Iff.trans (same_forAll (fun k t => ?_)) ?_
    | with_reducible refine Iff.trans (same_foldl (fun k t => ?_)) ?_
    | split
    | with_reducible exact Iff.rfl

theorem same_pinBeat {l : List Part} {s0 s : State} (b : Beat)
    (h : [Part.answers, .data] ++ evs .xing [5] ⊆ l) : SameBut l s0 (pinBeat b s) ↔ SameBut l s0 s := by
  simp only [evs, List.map_cons, List.map_nil, List.cons_append, List.nil_append, List.append_nil, List.cons_subset, List.nil_subset, and_true, and_self] at h
  unfold pinBeat
  repeat' first
    | simp only [↓same_ite, ↓same_record, ↓same_answer, ↓same_raise, ↓same_storeFresh, h, or_true, true_or, ite_self, evs, List.map_cons, List.map_nil, List.cons_append, List.nil_append, List.append_nil, List.cons_subset, List.nil_subset, and_true, and_self]
    | with_reducible refine Iff.trans (same_forAll (fun k t => ?_)) ?_
    | with_reducible refine Iff.trans (same_foldl (fun k t => ?_)) ?_
    | split
    | with_reducible exact Iff.rfl

theorem same_dpBeat {l : List Part} {s0 s : State} (b : Beat)
    (h : [Part.answers, .data, .fcst, .gens, .shep] ++ evs .fcst [1, 7, 8, 9] ++ evs .shep [4, 7, 8, 9] ++ evs .xing [5] ⊆ l) : SameBut l s0 (dpBeat b s) ↔ SameBut l s0 s := by
  simp only [evs, List.map_cons, List.map_nil, List.cons_append, List.nil_append, List.append_nil, List.cons_subset, List.nil_subset, and_true, and_self] at h
  unfold dpBeat
  repeat' first
    | simp only [↓same_ite, ↓same_record, ↓same_answer, ↓same_bandBeat, ↓same_fcstBeat, ↓same_fwBeat, ↓same_pinBeat, ↓same_storeFresh, h, or_true, true_or, ite_self, evs, List.map_cons, List.map_nil, List.cons_append, List.nil_append, List.append_nil, List.cons_subset, List.nil_subset, and_true, and_self]
    | with_reducible refine Iff.trans (same_forAll (fun k t => ?_)) ?_
    | with_reducible refine Iff.trans (same_foldl (fun k t => ?_)) ?_
    | split
    | with_reducible exact Iff.rfl

theorem same_driftRestore {l : List Part} {s0 : State} (s : State)
    (h : [Part.check] ++ evs .cfg [3] ⊆ l) : SameBut l s0 (driftRestore s) ↔ SameBut l s0 s := by
  simp only [evs, List.map_cons, List.map_nil, List.cons_append, List.nil_append, List.append_nil, List.cons_subset, List.nil_subset, and_true, and_self] at h
  unfold driftRestore
  simp only
  split
  · generalize committedCopy _ = q
    cases q <;> simp only [↓same_ite, ↓same_record, ↓same_raise, h, or_true, true_or, and_self, ite_self]
  · exact Iff.rfl

theorem same_enterBypass {l : List Part} {s0 s : State} (n : Nat)
    (h : [Part.regions, .root] ++ evs .root [3, 8] ⊆ l) : SameBut l s0 (enterBypass n s) ↔ SameBut l s0 s := by
  simp only [evs, List.map_cons, List.map_nil, List.cons_append, List.nil_append, List.append_nil, List.cons_subset, List.nil_subset, and_true, and_self] at h
  unfold enterBypass
  repeat' first
    | simp only [↓same_ite, ↓same_record, ↓same_bypassEntered, h, or_true, true_or, ite_self, evs, List.map_cons, List.map_nil, List.cons_append, List.nil_append, List.append_nil, List.cons_subset, List.nil_subset, and_true, and_self]
    | with_reducible refine Iff.trans (same_forAll (fun k t => ?_)) ?_
    | with_reducible refine Iff.trans (same_foldl (fun k t => ?_)) ?_
    | split
    | with_reducible exact Iff.rfl

theorem same_loseTime {l : List Part} {s0 s : State} 
    (h : [Part.fold, .time] ++ evs .root [10] ⊆ l) : SameBut l s0 (loseTime s) ↔ SameBut l s0 s := by
  simp only [evs, List.map_cons, List.map_nil, List.cons_append, List.nil_append, List.append_nil, List.cons_subset, List.nil_subset, and_true, and_self] at h
  unfold loseTime
  repeat' first
    | simp only [↓same_ite, ↓same_record, ↓same_raise, h, or_true, true_or, ite_self, evs, List.map_cons, List.map_nil, List.cons_append, List.nil_append, List.append_nil, List.cons_subset, List.nil_subset, and_true, and_self]
    | with_reducible refine Iff.trans (same_forAll (fun k t => ?_)) ?_
    | with_reducible refine Iff.trans (same_foldl (fun k t => ?_)) ?_
    | split
    | with_reducible exact Iff.rfl

theorem same_takeOverMesh {l : List Part} {s0 s : State} (y : Syn)
    (h : [Part.root] ++ evs .root [2] ⊆ l) : SameBut l s0 (takeOverMesh y s) ↔ SameBut l s0 s := by
  simp only [evs, List.map_cons, List.map_nil, List.cons_append, List.nil_append, List.append_nil, List.cons_subset, List.nil_subset, and_true, and_self] at h
  unfold takeOverMesh
  repeat' first
    | simp only [↓same_ite, ↓same_record, ↓same_switchTo, h, or_true, true_or, ite_self, evs, List.map_cons, List.map_nil, List.cons_append, List.nil_append, List.append_nil, List.cons_subset, List.nil_subset, and_true, and_self]
    | with_reducible refine Iff.trans (same_forAll (fun k t => ?_)) ?_
    | with_reducible refine Iff.trans (same_foldl (fun k t => ?_)) ?_
    | split
    | with_reducible exact Iff.rfl

theorem same_unapply {l : List Part} {s0 s : State} (u : ApplyUndo)
    (h : [Part.root] ++ evs .root [7, 8] ⊆ l) : SameBut l s0 (unapply u s) ↔ SameBut l s0 s := by
  simp only [evs, List.map_cons, List.map_nil, List.cons_append, List.nil_append, List.append_nil, List.cons_subset, List.nil_subset, and_true, and_self] at h
  unfold unapply
  repeat' first
    | simp only [↓same_ite, ↓same_record, ↓same_unraise, h, or_true, true_or, ite_self, evs, List.map_cons, List.map_nil, List.cons_append, List.nil_append, List.append_nil, List.cons_subset, List.nil_subset, and_true, and_self]
    | with_reducible refine Iff.trans (same_forAll (fun k t => ?_)) ?_
    | with_reducible refine Iff.trans (same_foldl (fun k t => ?_)) ?_
    | split
    | with_reducible exact Iff.rfl

/-- A switchover in the tick of an apply changes no more than the switchover, the apply, and the queue of what waits. -/
theorem same_switchOverApply {l : List Part} {s0 : State} {y : Syn} {s t : State} (e : switchOverApply y s = some t)
    (h : [Part.answers, .root] ++ evs .root [2, 7, 8] ⊆ l) : SameBut l s0 t ↔ SameBut l s0 s := by
  simp only [evs, List.map_cons, List.map_nil, List.cons_append, List.nil_append, List.append_nil, List.cons_subset, List.nil_subset, and_true, and_self] at h
  unfold switchOverApply at e
  simp only at e
  split at e
  · split at e
    · obtain rfl := Option.some.inj e
      simp only [↓same_deferApply, ↓same_takeOverMesh, ↓same_unapply, h, or_true, true_or, evs, List.map_cons, List.map_nil, List.cons_append, List.nil_append, List.append_nil, List.cons_subset, List.nil_subset, and_true, and_self]
    · exact nomatch e
  · exact nomatch e

theorem same_driverLost {l : List Part} {s0 s : State} (y : Syn) (both : Bool) (edges : Nat)
    (h : [Part.answers, .fold, .regions, .root, .time] ++ evs .root [2, 3, 7, 8, 10] ⊆ l) : SameBut l s0 (driverLost y both edges s) ↔ SameBut l s0 s := by
  have hs : [Part.answers, .root] ++ evs .root [2, 7, 8] ⊆ l := List.Subset.trans (by decide) h
  simp only [evs, List.map_cons, List.map_nil, List.cons_append, List.nil_append, List.append_nil, List.cons_subset, List.nil_subset, and_true, and_self] at h
  unfold driverLost
  split
  · next e => exact same_switchOverApply (by split at e; exact nomatch e; exact e) hs
  · simp only [↓same_ite, ↓same_takeOverMesh, ↓same_loseTime, ↓same_enterBypass, h, ite_self, evs, List.map_cons, List.map_nil, List.cons_append, List.nil_append, List.append_nil, List.cons_subset, List.nil_subset, and_true, and_self]

theorem same_dropLock {l : List Part} {s0 : State} (y : Syn) (s : State)
    (h : [Part.root] ++ evs .root [lossBit y, 8] ⊆ l) : SameBut l s0 (dropLock y s) ↔ SameBut l s0 s := by
  simp only [evs, List.map_cons, List.map_nil, List.cons_append, List.nil_append, List.append_nil, List.cons_subset, List.nil_subset, and_true, and_self] at h
  simp only [dropLock, ↓same_raise, ↓same_startAcquire, h, evs, List.map_cons, List.map_nil, List.cons_append, List.nil_append, List.append_nil, List.cons_subset, List.nil_subset, and_true, and_self]

theorem same_dropPins {l : List Part} {s0 s : State} 
    (h : [Part.data] ++ evs .xing [5] ⊆ l) : SameBut l s0 (dropPins s) ↔ SameBut l s0 s := by
  simp only [evs, List.map_cons, List.map_nil, List.cons_append, List.nil_append, List.append_nil, List.cons_subset, List.nil_subset, and_true, and_self] at h
  unfold dropPins
  repeat' first
    | simp only [↓same_ite, ↓same_record, ↓same_raiseIf, h, or_true, true_or, ite_self, evs, List.map_cons, List.map_nil, List.cons_append, List.nil_append, List.append_nil, List.cons_subset, List.nil_subset, and_true, and_self]
    | with_reducible refine Iff.trans (same_forAll (fun k t => ?_)) ?_
    | with_reducible refine Iff.trans (same_foldl (fun k t => ?_)) ?_
    | split
    | with_reducible exact Iff.rfl

theorem same_recordBands {l : List Part} {s0 s : State} (ends : Bool) (counts : List (Nat × List (Nat × Nat))) (g : Nat)
    (h : [Part.data, .gens] ⊆ l) : SameBut l s0 (recordBands ends counts g s) ↔ SameBut l s0 s := by
  simp only [evs, List.map_cons, List.map_nil, List.cons_append, List.nil_append, List.append_nil, List.cons_subset, List.nil_subset, and_true, and_self] at h
  unfold recordBands
  repeat' first
    | simp only [↓same_ite, ↓same_record, ↓same_setGen, h, or_true, true_or, ite_self, evs, List.map_cons, List.map_nil, List.cons_append, List.nil_append, List.append_nil, List.cons_subset, List.nil_subset, and_true, and_self]
    | with_reducible refine Iff.trans (same_forAll (fun k t => ?_)) ?_
    | with_reducible refine Iff.trans (same_foldl (fun k t => ?_)) ?_
    | split
    | with_reducible exact Iff.rfl

theorem same_endBmeas {l : List Part} {s0 s : State} (counts : List (Nat × List (Nat × Nat))) (g : Nat)
    (h : [Part.data, .gens] ++ evs .rcg [1, 2, 3] ⊆ l) : SameBut l s0 (endBmeas counts g s) ↔ SameBut l s0 s := by
  simp only [evs, List.map_cons, List.map_nil, List.cons_append, List.nil_append, List.append_nil, List.cons_subset, List.nil_subset, and_true, and_self] at h
  unfold endBmeas
  repeat' first
    | simp only [↓same_ite, ↓same_record, ↓same_recordBands, ↓same_setGen, ↓same_spareLocking, h, or_true, true_or, ite_self, evs, List.map_cons, List.map_nil, List.cons_append, List.nil_append, List.append_nil, List.cons_subset, List.nil_subset, and_true, and_self]
    | with_reducible refine Iff.trans (same_forAll (fun k t => ?_)) ?_
    | with_reducible refine Iff.trans (same_foldl (fun k t => ?_)) ?_
    | split
    | with_reducible exact Iff.rfl

theorem same_endFailHold {l : List Part} {s0 s : State} (r at16 : Nat)
    (h : [Part.flocks] ⊆ l) : SameBut l s0 (endFailHold r at16 s) ↔ SameBut l s0 s := by
  simp only [evs, List.map_cons, List.map_nil, List.cons_append, List.nil_append, List.append_nil, List.cons_subset, List.nil_subset, and_true, and_self] at h
  unfold endFailHold
  repeat' first
    | simp only [↓same_ite, ↓same_record, ↓same_setFlock, h, or_true, true_or, ite_self, evs, List.map_cons, List.map_nil, List.cons_append, List.nil_append, List.append_nil, List.cons_subset, List.nil_subset, and_true, and_self]
    | with_reducible refine Iff.trans (same_forAll (fun k t => ?_)) ?_
    | with_reducible refine Iff.trans (same_foldl (fun k t => ?_)) ?_
    | split
    | with_reducible exact Iff.rfl

theorem same_hangUnless {l : List Part} {s0 s : State} (done : Bool)
    (h : [Part.shep] ⊆ l) : SameBut l s0 (hangUnless done s) ↔ SameBut l s0 s := by
  simp only [evs, List.map_cons, List.map_nil, List.cons_append, List.nil_append, List.append_nil, List.cons_subset, List.nil_subset, and_true, and_self] at h
  unfold hangUnless
  repeat' first
    | simp only [↓same_ite, ↓same_record, h, or_true, true_or, ite_self, evs, List.map_cons, List.map_nil, List.cons_append, List.nil_append, List.append_nil, List.cons_subset, List.nil_subset, and_true, and_self]
    | with_reducible refine Iff.trans (same_forAll (fun k t => ?_)) ?_
    | with_reducible refine Iff.trans (same_foldl (fun k t => ?_)) ?_
    | split
    | with_reducible exact Iff.rfl

theorem same_endHold {l : List Part} {s0 : State} (r : Nat) (hd : Hold) (c0 c1 : Nat) (rings : List Nat) (checked : Bool) (s : State)
    (h : [Part.cal, .flocks, .gens, .regions, .shep] ++ evs .cal [0, 1, 2, 7] ⊆ l) :
    SameBut l s0 (endHold r hd c0 c1 rings checked s) ↔ SameBut l s0 s := by
  simp only [evs, List.map_cons, List.map_nil, List.cons_append, List.nil_append, List.append_nil, List.cons_subset, List.nil_subset, and_true, and_self] at h
  unfold endHold
  repeat' first
    | simp only [↓same_ite, ↓same_record, ↓same_discardHold, ↓same_judgeHold, ↓same_hangUnless, ↓same_setRegion, h, or_true, true_or, ite_self, evs, List.map_cons, List.map_nil, List.cons_append, List.nil_append, List.append_nil, List.cons_subset, List.nil_subset, and_true, and_self]
    | with_reducible refine Iff.trans (same_forAll (fun k t => ?_)) ?_
    | with_reducible refine Iff.trans (same_foldl (fun k t => ?_)) ?_
    | split
    | with_reducible exact Iff.rfl

theorem same_endJob {l : List Part} {s0 : State} (m : Nat) (s : State)
    (h : [Part.mbx, .shep, .tally, .xing] ++ evs .mbx [m] ++ evs .shep [11] ⊆ l) : SameBut l s0 (endJob m s) ↔ SameBut l s0 s := by
  simp only [evs, List.map_cons, List.map_nil, List.cons_append, List.nil_append, List.append_nil, List.cons_subset, List.nil_subset, and_true, and_self] at h
  unfold endJob
  repeat' first
    | simp only [↓same_ite, ↓same_record, ↓same_complete, ↓same_abortJob, h, or_true, true_or, ite_self, evs, List.map_cons, List.map_nil, List.cons_append, List.nil_append, List.append_nil, List.cons_subset, List.nil_subset, and_true, and_self]
    | with_reducible refine Iff.trans (same_forAll (fun k t => ?_)) ?_
    | with_reducible refine Iff.trans (same_foldl (fun k t => ?_)) ?_
    | split
    | with_reducible exact Iff.rfl

theorem same_endRejected {l : List Part} {s0 : State} (u : Nat) (s : State)
    (h : [Part.tally] ++ evs .tally [u, 7] ⊆ l) : SameBut l s0 (endRejected u s) ↔ SameBut l s0 s := by
  simp only [evs, List.map_cons, List.map_nil, List.cons_append, List.nil_append, List.append_nil, List.cons_subset, List.nil_subset, and_true, and_self] at h
  unfold endRejected
  simp only [↓same_ite, ↓same_afterRepeat_none, ↓same_writeResults, h, ite_self, evs, List.map_cons, List.map_nil, List.cons_append, List.nil_append, List.append_nil, List.cons_subset, List.nil_subset, and_true, and_self]

theorem same_factoryValues {l : List Part} {s0 s : State} 
    (h : [Part.cal, .data, .flocks, .gens, .root, .tally] ⊆ l) : SameBut l s0 (factoryValues s) ↔ SameBut l s0 s := by
  simp only [evs, List.map_cons, List.map_nil, List.cons_append, List.nil_append, List.append_nil, List.cons_subset, List.nil_subset, and_true, and_self] at h
  unfold factoryValues
  repeat' first
    | simp only [↓same_ite, ↓same_record, ↓same_mapFlocks, ↓same_mapGens, ↓same_setTally, h, or_true, true_or, ite_self, evs, List.map_cons, List.map_nil, List.cons_append, List.nil_append, List.append_nil, List.cons_subset, List.nil_subset, and_true, and_self]
    | with_reducible refine Iff.trans (same_forAll (fun k t => ?_)) ?_
    | with_reducible refine Iff.trans (same_foldl (fun k t => ?_)) ?_
    | split
    | with_reducible exact Iff.rfl

theorem same_eraseCustomer {l : List Part} {s0 s : State} 
    (h : [Part.cal, .data, .fcst, .flocks, .gens, .retention, .root, .tally, .xing] ⊆ l) : SameBut l s0 (eraseCustomer s) ↔ SameBut l s0 s := by
  simp only [evs, List.map_cons, List.map_nil, List.cons_append, List.nil_append, List.append_nil, List.cons_subset, List.nil_subset, and_true, and_self] at h
  unfold eraseCustomer
  repeat' first
    | simp only [↓same_ite, ↓same_record, ↓same_factoryValues, h, or_true, true_or, ite_self, evs, List.map_cons, List.map_nil, List.cons_append, List.nil_append, List.append_nil, List.cons_subset, List.nil_subset, and_true, and_self]
    | with_reducible refine Iff.trans (same_forAll (fun k t => ?_)) ?_
    | with_reducible refine Iff.trans (same_foldl (fun k t => ?_)) ?_
    | split
    | with_reducible exact Iff.rfl

theorem same_exclAnswer {l : List Part} {s0 s : State} (res : Nat) (tag : BitVec 8) (r : Nat)
    (h : [Part.fold] ⊆ l) : SameBut l s0 (exclAnswer res tag r s) ↔ SameBut l s0 s := by
  simp only [evs, List.map_cons, List.map_nil, List.cons_append, List.nil_append, List.append_nil, List.cons_subset, List.nil_subset, and_true, and_self] at h
  unfold exclAnswer
  repeat' first
    | simp only [↓same_ite, ↓same_record, h, or_true, true_or, ite_self, evs, List.map_cons, List.map_nil, List.cons_append, List.nil_append, List.append_nil, List.cons_subset, List.nil_subset, and_true, and_self]
    | with_reducible refine Iff.trans (same_forAll (fun k t => ?_)) ?_
    | with_reducible refine Iff.trans (same_foldl (fun k t => ?_)) ?_
    | split
    | with_reducible exact Iff.rfl

theorem same_firstBand {l : List Part} {s0 : State} (r : Nat) (row : List Word) (w : Window) (s : State)
    (h : [Part.regions] ++ evs .rcg [2, 3] ⊆ l) : SameBut l s0 (firstBand r row w s).2 ↔ SameBut l s0 s := by
  simp only [evs, List.map_cons, List.map_nil, List.cons_append, List.nil_append, List.append_nil, List.cons_subset, List.nil_subset, and_true, and_self] at h
  unfold firstBand
  repeat' first
    | simp only [↓same_ite, ↓same_raiseAbout, ↓same_setRestrict, h, ite_self, evs, List.map_cons, List.map_nil, List.cons_append, List.nil_append, List.append_nil, List.cons_subset, List.nil_subset, and_true, and_self]
    | split

theorem same_leaveReset {l : List Part} {s0 : State} (r : Nat) (s : State)
    (h : [Part.gens, .regions] ++ evs .rcg [2, 3] ⊆ l) : SameBut l s0 (leaveReset r s) ↔ SameBut l s0 s := by
  have hb : [Part.regions] ++ evs .rcg [2, 3] ⊆ l := fun p hp => h (List.mem_cons_of_mem _ hp)
  simp only [evs, List.map_cons, List.map_nil, List.cons_append, List.nil_append, List.append_nil, List.cons_subset, List.nil_subset, and_true, and_self] at h
  unfold leaveReset
  simp only
  split
  · exact Iff.rfl
  · split
    · exact Iff.rfl
    · next g _ =>
      split
      · generalize (genOf s g).band = ob
        cases ob
        · simp only [↓same_setRegion, ↓same_setGen, h, evs, List.map_cons, List.map_nil, List.cons_append, List.nil_append, List.append_nil, List.cons_subset, List.nil_subset, and_true, and_self]
          exact same_firstBand _ _ _ _ hb
        · simp only [↓same_setRegion, ↓same_setGen, h, evs, List.map_cons, List.map_nil, List.cons_append, List.nil_append, List.append_nil, List.cons_subset, List.nil_subset, and_true, and_self]
      · exact Iff.rfl

theorem same_releaseRegions {l : List Part} {s0 s : State} 
    (h : [Part.gens, .regions] ++ evs .rcg [2, 3] ⊆ l) : SameBut l s0 (releaseRegions s) ↔ SameBut l s0 s := by
  simp only [evs, List.map_cons, List.map_nil, List.cons_append, List.nil_append, List.append_nil, List.cons_subset, List.nil_subset, and_true, and_self] at h
  unfold releaseRegions
  repeat' first
    | simp only [↓same_ite, ↓same_record, ↓same_leaveReset, h, or_true, true_or, ite_self, evs, List.map_cons, List.map_nil, List.cons_append, List.nil_append, List.append_nil, List.cons_subset, List.nil_subset, and_true, and_self]
    | with_reducible refine Iff.trans (same_forAll (fun k t => ?_)) ?_
    | with_reducible refine Iff.trans (same_foldl (fun k t => ?_)) ?_
    | split
    | with_reducible exact Iff.rfl

theorem same_loadApplied {l : List Part} {s0 s : State} (ws : List Word)
    (h : [Part.bellApplied, .bellWritten] ⊆ l) : SameBut l s0 (loadApplied ws s) ↔ SameBut l s0 s := by
  simp only [evs, List.map_cons, List.map_nil, List.cons_append, List.nil_append, List.append_nil, List.cons_subset, List.nil_subset, and_true, and_self] at h
  unfold loadApplied
  repeat' first
    | simp only [↓same_ite, ↓same_record, h, or_true, true_or, ite_self, evs, List.map_cons, List.map_nil, List.cons_append, List.nil_append, List.append_nil, List.cons_subset, List.nil_subset, and_true, and_self]
    | with_reducible refine Iff.trans (same_forAll (fun k t => ?_)) ?_
    | with_reducible refine Iff.trans (same_foldl (fun k t => ?_)) ?_
    | split
    | with_reducible exact Iff.rfl

theorem same_restoreCommitted {l : List Part} {s0 : State} (s : State)
    (h : [Part.bellApplied, .bellWritten, .check, .nowRegs] ++ evs .cfg [2, 3] ⊆ l) :
    SameBut l s0 (restoreCommitted s) ↔ SameBut l s0 s := by
  simp only [evs, List.map_cons, List.map_nil, List.cons_append, List.nil_append, List.append_nil, List.cons_subset, List.nil_subset, and_true, and_self] at h
  unfold restoreCommitted
  generalize committedCopy _ = q
  cases q <;> simp only [↓same_record, ↓same_raise, ↓same_nowPut, ↓same_loadApplied, h, or_true, true_or, evs, List.map_cons, List.map_nil, List.cons_append, List.nil_append, List.append_nil, List.cons_subset, List.nil_subset, and_true, and_self]

theorem same_spareLocks {l : List Part} {s0 s : State} 
    (h : [Part.gens] ++ evs .rcg [1, 2, 3] ⊆ l) : SameBut l s0 (spareLocks s) ↔ SameBut l s0 s := by
  simp only [evs, List.map_cons, List.map_nil, List.cons_append, List.nil_append, List.append_nil, List.cons_subset, List.nil_subset, and_true, and_self] at h
  unfold spareLocks
  repeat' first
    | simp only [↓same_ite, ↓same_record, ↓same_spareLocking, h, or_true, true_or, ite_self, evs, List.map_cons, List.map_nil, List.cons_append, List.nil_append, List.append_nil, List.cons_subset, List.nil_subset, and_true, and_self]
    | with_reducible refine Iff.trans (same_forAll (fun k t => ?_)) ?_
    | with_reducible refine Iff.trans (same_foldl (fun k t => ?_)) ?_
    | split
    | with_reducible exact Iff.rfl

theorem same_fabricLeaves {l : List Part} {s0 s : State} 
    (h : [Part.bellApplied, .bellWritten, .check, .flocks, .gens, .nowRegs, .power, .regions, .root, .tally] ++ evs .cfg [2, 3] ++ evs .rcg [1, 2, 3] ⊆ l) : SameBut l s0 (fabricLeaves s) ↔ SameBut l s0 s := by
  simp only [evs, List.map_cons, List.map_nil, List.cons_append, List.nil_append, List.append_nil, List.cons_subset, List.nil_subset, and_true, and_self] at h
  unfold fabricLeaves
  repeat' first
    | simp only [↓same_ite, ↓same_record, ↓same_factoryMode, ↓same_releaseRegions, ↓same_restoreCommitted, ↓same_spareLocks, h, or_true, true_or, ite_self, evs, List.map_cons, List.map_nil, List.cons_append, List.nil_append, List.append_nil, List.cons_subset, List.nil_subset, and_true, and_self]
    | with_reducible refine Iff.trans (same_forAll (fun k t => ?_)) ?_
    | with_reducible refine Iff.trans (same_foldl (fun k t => ?_)) ?_
    | split
    | with_reducible exact Iff.rfl

theorem same_failGen {l : List Part} {s0 s : State} (g : Nat) (code : GenFault)
    (h : [Part.flocks, .foTotal, .fold, .gens, .regions, .xing] ++ evs .cal [7] ++ evs .flock [0, 2, 3, 4, 5, 9, 10] ++ evs .fold [9] ⊆ l) : SameBut l s0 (failGen g code s) ↔ SameBut l s0 s := by
  simp only [evs, List.map_cons, List.map_nil, List.cons_append, List.nil_append, List.append_nil, List.cons_subset, List.nil_subset, and_true, and_self] at h
  unfold failGen
  repeat' first
    | simp only [↓same_ite, ↓same_record, ↓same_claim, ↓same_markFailed, ↓same_setRegion, ↓same_spareChanged, h, or_true, true_or, ite_self, evs, List.map_cons, List.map_nil, List.cons_append, List.nil_append, List.append_nil, List.cons_subset, List.nil_subset, and_true, and_self]
    | with_reducible refine Iff.trans (same_forAll (fun k t => ?_)) ?_
    | with_reducible refine Iff.trans (same_foldl (fun k t => ?_)) ?_
    | split
    | with_reducible exact Iff.rfl

theorem same_failPath {l : List Part} {s0 s : State} (f p : Nat)
    (h : [Part.flocks] ++ evs .bell [2] ⊆ l) : SameBut l s0 (failPath f p s) ↔ SameBut l s0 s := by
  simp only [evs, List.map_cons, List.map_nil, List.cons_append, List.nil_append, List.append_nil, List.cons_subset, List.nil_subset, and_true, and_self] at h
  unfold failPath
  repeat' first
    | simp only [↓same_ite, ↓same_record, ↓same_raiseAbout, ↓same_setFlock, h, or_true, true_or, ite_self, evs, List.map_cons, List.map_nil, List.cons_append, List.nil_append, List.append_nil, List.cons_subset, List.nil_subset, and_true, and_self]
    | with_reducible refine Iff.trans (same_forAll (fun k t => ?_)) ?_
    | with_reducible refine Iff.trans (same_foldl (fun k t => ?_)) ?_
    | split
    | with_reducible exact Iff.rfl

theorem same_fcstReject {l : List Part} {s0 s : State} (code : Nat)
    (h : [Part.fcst] ++ evs .fcst [10] ⊆ l) : SameBut l s0 (fcstReject code s) ↔ SameBut l s0 s := by
  simp only [evs, List.map_cons, List.map_nil, List.cons_append, List.nil_append, List.append_nil, List.cons_subset, List.nil_subset, and_true, and_self] at h
  unfold fcstReject
  repeat' first
    | simp only [↓same_ite, ↓same_record, ↓same_raise, h, or_true, true_or, ite_self, evs, List.map_cons, List.map_nil, List.cons_append, List.nil_append, List.append_nil, List.cons_subset, List.nil_subset, and_true, and_self]
    | with_reducible refine Iff.trans (same_forAll (fun k t => ?_)) ?_
    | with_reducible refine Iff.trans (same_foldl (fun k t => ?_)) ?_
    | split
    | with_reducible exact Iff.rfl

theorem same_fcstDoOpen {l : List Part} {s0 s : State} (b : BitVec 1)
    (h : [Part.fcst] ++ evs .fcst [3, 10] ⊆ l) : SameBut l s0 (fcstDoOpen b s) ↔ SameBut l s0 s := by
  simp only [evs, List.map_cons, List.map_nil, List.cons_append, List.nil_append, List.append_nil, List.cons_subset, List.nil_subset, and_true, and_self] at h
  unfold fcstDoOpen
  repeat' first
    | simp only [↓same_ite, ↓same_record, ↓same_fcstReject, ↓same_raise, ↓same_setFbank, h, or_true, true_or, ite_self, evs, List.map_cons, List.map_nil, List.cons_append, List.nil_append, List.append_nil, List.cons_subset, List.nil_subset, and_true, and_self]
    | with_reducible refine Iff.trans (same_forAll (fun k t => ?_)) ?_
    | with_reducible refine Iff.trans (same_foldl (fun k t => ?_)) ?_
    | split
    | with_reducible exact Iff.rfl

theorem same_fcstDoSeal {l : List Part} {s0 s : State} (b : BitVec 1)
    (h : [Part.fcst] ++ evs .fcst [1, 10] ⊆ l) : SameBut l s0 (fcstDoSeal b s) ↔ SameBut l s0 s := by
  simp only [evs, List.map_cons, List.map_nil, List.cons_append, List.nil_append, List.append_nil, List.cons_subset, List.nil_subset, and_true, and_self] at h
  unfold fcstDoSeal
  repeat' first
    | simp only [↓same_ite, ↓same_record, ↓same_fcstReject, ↓same_setFbank, ↓same_waitCheck, h, or_true, true_or, ite_self, evs, List.map_cons, List.map_nil, List.cons_append, List.nil_append, List.append_nil, List.cons_subset, List.nil_subset, and_true, and_self]
    | with_reducible refine Iff.trans (same_forAll (fun k t => ?_)) ?_
    | with_reducible refine Iff.trans (same_foldl (fun k t => ?_)) ?_
    | split
    | with_reducible exact Iff.rfl

theorem same_fcstDoStop {l : List Part} {s0 s : State} 
    (h : [Part.fcst] ⊆ l) : SameBut l s0 (fcstDoStop s) ↔ SameBut l s0 s := by
  simp only [evs, List.map_cons, List.map_nil, List.cons_append, List.nil_append, List.append_nil, List.cons_subset, List.nil_subset, and_true, and_self] at h
  unfold fcstDoStop
  repeat' first
    | simp only [↓same_ite, ↓same_record, h, or_true, true_or, ite_self, evs, List.map_cons, List.map_nil, List.cons_append, List.nil_append, List.append_nil, List.cons_subset, List.nil_subset, and_true, and_self]
    | with_reducible refine Iff.trans (same_forAll (fun k t => ?_)) ?_
    | with_reducible refine Iff.trans (same_foldl (fun k t => ?_)) ?_
    | split
    | with_reducible exact Iff.rfl

theorem same_fcstDoSwap {l : List Part} {s0 s : State} (b : BitVec 1)
    (h : [Part.fcst] ++ evs .fcst [10] ⊆ l) : SameBut l s0 (fcstDoSwap b s) ↔ SameBut l s0 s := by
  simp only [evs, List.map_cons, List.map_nil, List.cons_append, List.nil_append, List.append_nil, List.cons_subset, List.nil_subset, and_true, and_self] at h
  unfold fcstDoSwap
  repeat' first
    | simp only [↓same_ite, ↓same_record, ↓same_fcstReject, h, or_true, true_or, ite_self, evs, List.map_cons, List.map_nil, List.cons_append, List.nil_append, List.append_nil, List.cons_subset, List.nil_subset, and_true, and_self]
    | with_reducible refine Iff.trans (same_forAll (fun k t => ?_)) ?_
    | with_reducible refine Iff.trans (same_foldl (fun k t => ?_)) ?_
    | split
    | with_reducible exact Iff.rfl

theorem same_finishXcal {l : List Part} {s0 s : State} (txs : List (Nat × List Nat)) (hw fw : Nat)
    (h : [Part.xing] ++ evs .xing [0, 1, 4, 8] ⊆ l) : SameBut l s0 (finishXcal txs hw fw s) ↔ SameBut l s0 s := by
  simp only [evs, List.map_cons, List.map_nil, List.cons_append, List.nil_append, List.append_nil, List.cons_subset, List.nil_subset, and_true, and_self] at h
  unfold finishXcal
  repeat' first
    | simp only [↓same_ite, ↓same_record, ↓same_raise, ↓same_raiseAbout, ↓same_setXing, h, or_true, true_or, ite_self, evs, List.map_cons, List.map_nil, List.cons_append, List.nil_append, List.append_nil, List.cons_subset, List.nil_subset, and_true, and_self]
    | with_reducible refine Iff.trans (same_forAll (fun k t => ?_)) ?_
    | with_reducible refine Iff.trans (same_foldl (fun k t => ?_)) ?_
    | split
    | with_reducible exact Iff.rfl

theorem same_oneRestart {l : List Part} {s0 s : State} 
    (h : [Part.mbx, .shep] ⊆ l) : SameBut l s0 (oneRestart s) ↔ SameBut l s0 s := by
  simp only [evs, List.map_cons, List.map_nil, List.cons_append, List.nil_append, List.append_nil, List.cons_subset, List.nil_subset, and_true, and_self] at h
  unfold oneRestart
  repeat' first
    | simp only [↓same_ite, ↓same_record, ↓same_setMbox, h, or_true, true_or, ite_self, evs, List.map_cons, List.map_nil, List.cons_append, List.nil_append, List.append_nil, List.cons_subset, List.nil_subset, and_true, and_self]
    | with_reducible refine Iff.trans (same_forAll (fun k t => ?_)) ?_
    | with_reducible refine Iff.trans (same_foldl (fun k t => ?_)) ?_
    | split
    | with_reducible exact Iff.rfl

theorem same_swapTo {l : List Part} {s0 s : State} (b : BitVec 1)
    (h : [Part.cal, .coreData, .flocks, .gens, .mbx, .mus, .regions, .shep, .tally, .xing] ++ evs .cal [0, 1, 2, 7] ++ evs .mbx [0, 1, 2] ++ evs .shep [2, 5, 11] ⊆ l) : SameBut l s0 (swapTo b s) ↔ SameBut l s0 s := by
  simp only [evs, List.map_cons, List.map_nil, List.cons_append, List.nil_append, List.append_nil, List.cons_subset, List.nil_subset, and_true, and_self] at h
  unfold swapTo
  repeat' first
    | simp only [↓same_ite, ↓same_record, ↓same_abortJobs, ↓same_abortTaken, ↓same_oneRestart, ↓same_raise, ↓same_setSwBank, ↓same_startCore, h, or_true, true_or, ite_self, evs, List.map_cons, List.map_nil, List.cons_append, List.nil_append, List.append_nil, List.cons_subset, List.nil_subset, and_true, and_self]
    | with_reducible refine Iff.trans (same_forAll (fun k t => ?_)) ?_
    | with_reducible refine Iff.trans (same_foldl (fun k t => ?_)) ?_
    | split
    | with_reducible exact Iff.rfl

theorem same_firmwareBell {l : List Part} {s0 s : State} 
    (h : [Part.cal, .coreData, .flocks, .gens, .mbx, .mus, .regions, .shep, .tally, .xing] ++ evs .cal [0, 1, 2, 7] ++ evs .mbx [0, 1, 2] ++ evs .shep [2, 5, 11] ⊆ l) : SameBut l s0 (firmwareBell s) ↔ SameBut l s0 s := by
  simp only [evs, List.map_cons, List.map_nil, List.cons_append, List.nil_append, List.append_nil, List.cons_subset, List.nil_subset, and_true, and_self] at h
  unfold firmwareBell
  repeat' first
    | simp only [↓same_ite, ↓same_record, ↓same_swapTo, h, or_true, true_or, ite_self, evs, List.map_cons, List.map_nil, List.cons_append, List.nil_append, List.append_nil, List.cons_subset, List.nil_subset, and_true, and_self]
    | with_reducible refine Iff.trans (same_forAll (fun k t => ?_)) ?_
    | with_reducible refine Iff.trans (same_foldl (fun k t => ?_)) ?_
    | split
    | with_reducible exact Iff.rfl

theorem same_firstCall {l : List Part} {s0 s : State} (inc : List Nat)
    (h : [Part.fold, .regions, .zones] ++ evs .zone [0, 1, 2] ⊆ l) : SameBut l s0 (firstCall inc s) ↔ SameBut l s0 s := by
  simp only [evs, List.map_cons, List.map_nil, List.cons_append, List.nil_append, List.append_nil, List.cons_subset, List.nil_subset, and_true, and_self] at h
  unfold firstCall
  repeat' first
    | simp only [↓same_ite, ↓same_record, ↓same_ballastDecide, ↓same_setRegion, h, or_true, true_or, ite_self, evs, List.map_cons, List.map_nil, List.cons_append, List.nil_append, List.append_nil, List.cons_subset, List.nil_subset, and_true, and_self]
    | with_reducible refine Iff.trans (same_forAll (fun k t => ?_)) ?_
    | with_reducible refine Iff.trans (same_foldl (fun k t => ?_)) ?_
    | split
    | with_reducible exact Iff.rfl

theorem same_followBytes {l : List Part} {s0 : State} (p : BitVec 1) (k : Nat) (s : State) (h : [Part.freeCount] ⊆ l) :
    SameBut l s0 (followBytes p k s).2 ↔ SameBut l s0 s := by
  simp only [evs, List.map_cons, List.map_nil, List.cons_append, List.nil_append, List.append_nil, List.cons_subset, List.nil_subset, and_true, and_self] at h
  unfold followBytes
  split
  · exact Iff.rfl
  · simp only [takeFreeWord, ↓same_record, h, or_true, true_or, and_self]

theorem same_fromFirstEntry {l : List Part} {s0 s : State} 
    (h : [Part.flocks] ⊆ l) : SameBut l s0 (fromFirstEntry s) ↔ SameBut l s0 s := by
  simp only [evs, List.map_cons, List.map_nil, List.cons_append, List.nil_append, List.append_nil, List.cons_subset, List.nil_subset, and_true, and_self] at h
  unfold fromFirstEntry
  repeat' first
    | simp only [↓same_ite, ↓same_record, h, or_true, true_or, ite_self, evs, List.map_cons, List.map_nil, List.cons_append, List.nil_append, List.append_nil, List.cons_subset, List.nil_subset, and_true, and_self]
    | with_reducible refine Iff.trans (same_forAll (fun k t => ?_)) ?_
    | with_reducible refine Iff.trans (same_foldl (fun k t => ?_)) ?_
    | split
    | with_reducible exact Iff.rfl

theorem same_stopActive {l : List Part} {s0 s : State} 
    (h : [Part.fcst] ⊆ l) : SameBut l s0 (stopActive s) ↔ SameBut l s0 s := by
  simp only [evs, List.map_cons, List.map_nil, List.cons_append, List.nil_append, List.append_nil, List.cons_subset, List.nil_subset, and_true, and_self] at h
  unfold stopActive
  repeat' first
    | simp only [↓same_ite, ↓same_record, ↓same_setFbank, h, or_true, true_or, ite_self, evs, List.map_cons, List.map_nil, List.cons_append, List.nil_append, List.append_nil, List.cons_subset, List.nil_subset, and_true, and_self]
    | with_reducible refine Iff.trans (same_forAll (fun k t => ?_)) ?_
    | with_reducible refine Iff.trans (same_foldl (fun k t => ?_)) ?_
    | split
    | with_reducible exact Iff.rfl

theorem same_forecastBell {l : List Part} {s0 s : State} (f g : Nat)
    (h : [Part.fcst, .flocks] ++ evs .fcst [2, 3, 4, 5, 6] ⊆ l) : SameBut l s0 (forecastBell f g s) ↔ SameBut l s0 s := by
  simp only [evs, List.map_cons, List.map_nil, List.cons_append, List.nil_append, List.append_nil, List.cons_subset, List.nil_subset, and_true, and_self] at h
  unfold forecastBell
  repeat' first
    | simp only [↓same_ite, ↓same_record, ↓same_fromFirstEntry, ↓same_raise, ↓same_setFbank, ↓same_stopActive, h, or_true, true_or, ite_self, evs, List.map_cons, List.map_nil, List.cons_append, List.nil_append, List.append_nil, List.cons_subset, List.nil_subset, and_true, and_self]
    | with_reducible refine Iff.trans (same_forAll (fun k t => ?_)) ?_
    | with_reducible refine Iff.trans (same_foldl (fun k t => ?_)) ?_
    | split
    | with_reducible exact Iff.rfl

theorem same_takeFreeByte {l : List Part} {s0 : State} (s : State) (h : [Part.freeCount] ⊆ l) :
    SameBut l s0 (takeFreeByte s).2 ↔ SameBut l s0 s := by
  simp only [List.cons_subset, List.nil_subset, and_true] at h
  simp only [takeFreeByte, ↓same_record, h, or_true, true_or, and_self]

theorem same_freeBytes {l : List Part} {s0 : State} (a n : Nat) (s : State) (h : [Part.data, .freeCount] ⊆ l) :
    SameBut l s0 (freeBytes a n s) ↔ SameBut l s0 s := by
  simp only [evs, List.map_cons, List.map_nil, List.cons_append, List.nil_append, List.append_nil, List.cons_subset, List.nil_subset, and_true, and_self] at h
  unfold freeBytes
  repeat' first
    | simp only [↓same_ite, ↓same_record, ↓same_takeFreeByte, takeFreeByte, h, or_true, true_or, ite_self, evs, List.map_cons, List.map_nil, List.cons_append, List.nil_append, List.append_nil, List.cons_subset, List.nil_subset, and_true, and_self]
    | with_reducible refine Iff.trans (same_forAll (fun k t => ?_)) ?_
    | with_reducible refine Iff.trans (same_foldl (fun k t => ?_)) ?_
    | split
    | with_reducible exact Iff.rfl

theorem same_freezeSyn {l : List Part} {s0 s : State} (y : Syn)
    (h : [Part.root] ⊆ l) : SameBut l s0 (freezeSyn y s) ↔ SameBut l s0 s := by
  simp only [evs, List.map_cons, List.map_nil, List.cons_append, List.nil_append, List.append_nil, List.cons_subset, List.nil_subset, and_true, and_self] at h
  unfold freezeSyn
  repeat' first
    | simp only [↓same_ite, ↓same_record, ↓same_setSyn, h, or_true, true_or, ite_self, evs, List.map_cons, List.map_nil, List.cons_append, List.nil_append, List.append_nil, List.cons_subset, List.nil_subset, and_true, and_self]
    | with_reducible refine Iff.trans (same_forAll (fun k t => ?_)) ?_
    | with_reducible refine Iff.trans (same_foldl (fun k t => ?_)) ?_
    | split
    | with_reducible exact Iff.rfl

theorem same_fwRecord {l : List Part} {s0 s : State} (k : Nat)
    (h : [Part.freeCount, .retention] ⊆ l) : SameBut l s0 (fwRecord k s) ↔ SameBut l s0 s := by
  simp only [evs, List.map_cons, List.map_nil, List.cons_append, List.nil_append, List.append_nil, List.cons_subset, List.nil_subset, and_true, and_self] at h
  unfold fwRecord
  repeat' first
    | simp only [↓same_ite, ↓same_record, ↓same_takeFreeWord, h, or_true, true_or, ite_self, evs, List.map_cons, List.map_nil, List.cons_append, List.nil_append, List.append_nil, List.cons_subset, List.nil_subset, and_true, and_self]
    | with_reducible refine Iff.trans (same_forAll (fun k t => ?_)) ?_
    | with_reducible refine Iff.trans (same_foldl (fun k t => ?_)) ?_
    | split
    | with_reducible exact Iff.rfl

theorem same_haltCore {l : List Part} {s0 s : State} (c : HaltCause) (pc val : Word)
    (h : [Part.mbx, .shep, .tally, .xing] ++ evs .mbx [0, 1, 2] ++ evs .shep [0, 11] ⊆ l) : SameBut l s0 (haltCore c pc val s) ↔ SameBut l s0 s := by
  simp only [evs, List.map_cons, List.map_nil, List.cons_append, List.nil_append, List.append_nil, List.cons_subset, List.nil_subset, and_true, and_self] at h
  unfold haltCore
  repeat' first
    | simp only [↓same_ite, ↓same_record, ↓same_abortJobs, ↓same_abortTaken, ↓same_raise, ↓same_releaseFirmware, h, or_true, true_or, ite_self, evs, List.map_cons, List.map_nil, List.cons_append, List.nil_append, List.append_nil, List.cons_subset, List.nil_subset, and_true, and_self]
    | with_reducible refine Iff.trans (same_forAll (fun k t => ?_)) ?_
    | with_reducible refine Iff.trans (same_foldl (fun k t => ?_)) ?_
    | split
    | with_reducible exact Iff.rfl

theorem same_historyBell {l : List Part} {s0 s : State} (changed : Bool)
    (h : [Part.zones] ⊆ l) : SameBut l s0 (historyBell changed s) ↔ SameBut l s0 s := by
  simp only [evs, List.map_cons, List.map_nil, List.cons_append, List.nil_append, List.append_nil, List.cons_subset, List.nil_subset, and_true, and_self] at h
  unfold historyBell
  repeat' first
    | simp only [↓same_ite, ↓same_record, ↓same_setZone, h, or_true, true_or, ite_self, evs, List.map_cons, List.map_nil, List.cons_append, List.nil_append, List.append_nil, List.cons_subset, List.nil_subset, and_true, and_self]
    | with_reducible refine Iff.trans (same_forAll (fun k t => ?_)) ?_
    | with_reducible refine Iff.trans (same_foldl (fun k t => ?_)) ?_
    | split
    | with_reducible exact Iff.rfl

theorem same_holdForced {l : List Part} {s0 s : State} (f g : Nat)
    (h : [Part.crook, .flocks, .foTotal, .gens, .regions] ++ evs .cal [7] ++ evs .flock [0, 2, 3, 4, 9, 10] ⊆ l) : SameBut l s0 (holdForced f g s) ↔ SameBut l s0 s := by
  simp only [evs, List.map_cons, List.map_nil, List.cons_append, List.nil_append, List.append_nil, List.cons_subset, List.nil_subset, and_true, and_self] at h
  unfold holdForced
  repeat' first
    | simp only [↓same_ite, ↓same_record, ↓same_spareChanged, ↓same_undoTaken, h, or_true, true_or, ite_self, evs, List.map_cons, List.map_nil, List.cons_append, List.nil_append, List.append_nil, List.cons_subset, List.nil_subset, and_true, and_self]
    | with_reducible refine Iff.trans (same_forAll (fun k t => ?_)) ?_
    | with_reducible refine Iff.trans (same_foldl (fun k t => ?_)) ?_
    | split
    | with_reducible exact Iff.rfl

theorem same_islandDone {l : List Part} {s0 s : State} 
    (h : [Part.cal] ⊆ l) : SameBut l s0 (islandDone s) ↔ SameBut l s0 s := by
  simp only [evs, List.map_cons, List.map_nil, List.cons_append, List.nil_append, List.append_nil, List.cons_subset, List.nil_subset, and_true, and_self] at h
  unfold islandDone
  repeat' first
    | simp only [↓same_ite, ↓same_record, h, or_true, true_or, ite_self, evs, List.map_cons, List.map_nil, List.cons_append, List.nil_append, List.append_nil, List.cons_subset, List.nil_subset, and_true, and_self]
    | with_reducible refine Iff.trans (same_forAll (fun k t => ?_)) ?_
    | with_reducible refine Iff.trans (same_foldl (fun k t => ?_)) ?_
    | split
    | with_reducible exact Iff.rfl

theorem same_issueEdge {l : List Part} {s0 s : State} (r : Nat) (dcoAt : Int) (at16 : Nat) (act : BitVec 4)
    (h : [Part.fcst, .flocks, .gens, .regions, .xing] ⊆ l) : SameBut l s0 (issueEdge r dcoAt at16 act s) ↔ SameBut l s0 s := by
  simp only [evs, List.map_cons, List.map_nil, List.cons_append, List.nil_append, List.append_nil, List.cons_subset, List.nil_subset, and_true, and_self] at h
  unfold issueEdge
  repeat' first
    | simp only [↓same_ite, ↓same_record, ↓same_countCopy, ↓same_endFailHold, ↓same_mapXings, ↓same_setRegion, h, or_true, true_or, ite_self, evs, List.map_cons, List.map_nil, List.cons_append, List.nil_append, List.append_nil, List.cons_subset, List.nil_subset, and_true, and_self]
    | with_reducible refine Iff.trans (same_forAll (fun k t => ?_)) ?_
    | with_reducible refine Iff.trans (same_foldl (fun k t => ?_)) ?_
    | split
    | with_reducible exact Iff.rfl

theorem same_jobRecord {l : List Part} {s0 s : State} (k : Nat)
    (h : [Part.freeCount, .retention] ⊆ l) : SameBut l s0 (jobRecord k s) ↔ SameBut l s0 s := by
  simp only [evs, List.map_cons, List.map_nil, List.cons_append, List.nil_append, List.append_nil, List.cons_subset, List.nil_subset, and_true, and_self] at h
  unfold jobRecord
  repeat' first
    | simp only [↓same_ite, ↓same_record, ↓same_fwRecord, h, or_true, true_or, ite_self, evs, List.map_cons, List.map_nil, List.cons_append, List.nil_append, List.append_nil, List.cons_subset, List.nil_subset, and_true, and_self]
    | with_reducible refine Iff.trans (same_forAll (fun k t => ?_)) ?_
    | with_reducible refine Iff.trans (same_foldl (fun k t => ?_)) ?_
    | split
    | with_reducible exact Iff.rfl

theorem same_lcRefuse {l : List Part} {s0 s : State} (code : Nat) (tag : BitVec 8)
    (h : [Part.lc] ++ evs .lc [6] ⊆ l) : SameBut l s0 (lcRefuse code tag s) ↔ SameBut l s0 s := by
  simp only [evs, List.map_cons, List.map_nil, List.cons_append, List.nil_append, List.append_nil, List.cons_subset, List.nil_subset, and_true, and_self] at h
  unfold lcRefuse
  repeat' first
    | simp only [↓same_ite, ↓same_record, ↓same_raise, h, or_true, true_or, ite_self, evs, List.map_cons, List.map_nil, List.cons_append, List.nil_append, List.append_nil, List.cons_subset, List.nil_subset, and_true, and_self]
    | with_reducible refine Iff.trans (same_forAll (fun k t => ?_)) ?_
    | with_reducible refine Iff.trans (same_foldl (fun k t => ?_)) ?_
    | split
    | with_reducible exact Iff.rfl

theorem same_lcJudge {l : List Part} {s0 s : State} (code : Nat) (job : LcJob) (tag : BitVec 8)
    (h : [Part.lc] ++ evs .lc [6] ⊆ l) : SameBut l s0 (lcJudge code job tag s) ↔ SameBut l s0 s := by
  simp only [evs, List.map_cons, List.map_nil, List.cons_append, List.nil_append, List.append_nil, List.cons_subset, List.nil_subset, and_true, and_self] at h
  unfold lcJudge
  repeat' first
    | simp only [↓same_ite, ↓same_record, ↓same_lcRefuse, h, or_true, true_or, ite_self, evs, List.map_cons, List.map_nil, List.cons_append, List.nil_append, List.append_nil, List.cons_subset, List.nil_subset, and_true, and_self]
    | with_reducible refine Iff.trans (same_forAll (fun k t => ?_)) ?_
    | with_reducible refine Iff.trans (same_foldl (fun k t => ?_)) ?_
    | split
    | with_reducible exact Iff.rfl

theorem same_sendOn {l : List Part} {s0 s : State} (p : BitVec 1) (type seq : Nat) (hold : Bool) (payload : List (BitVec 8))
    (h : [Part.mus] ⊆ l) : SameBut l s0 (sendOn p type seq hold payload s) ↔ SameBut l s0 s := by
  simp only [evs, List.map_cons, List.map_nil, List.cons_append, List.nil_append, List.append_nil, List.cons_subset, List.nil_subset, and_true, and_self] at h
  unfold sendOn
  repeat' first
    | simp only [↓same_ite, ↓same_record, h, or_true, true_or, ite_self, evs, List.map_cons, List.map_nil, List.cons_append, List.nil_append, List.append_nil, List.cons_subset, List.nil_subset, and_true, and_self]
    | with_reducible refine Iff.trans (same_forAll (fun k t => ?_)) ?_
    | with_reducible refine Iff.trans (same_foldl (fun k t => ?_)) ?_
    | split
    | with_reducible exact Iff.rfl

theorem same_sendOffset {l : List Part} {s0 s : State} 
    (h : [Part.mus] ⊆ l) : SameBut l s0 (sendOffset s) ↔ SameBut l s0 s := by
  simp only [evs, List.map_cons, List.map_nil, List.cons_append, List.nil_append, List.append_nil, List.cons_subset, List.nil_subset, and_true, and_self] at h
  unfold sendOffset
  repeat' first
    | simp only [↓same_ite, ↓same_record, ↓same_sendOn, h, or_true, true_or, ite_self, evs, List.map_cons, List.map_nil, List.cons_append, List.nil_append, List.append_nil, List.cons_subset, List.nil_subset, and_true, and_self]
    | with_reducible refine Iff.trans (same_forAll (fun k t => ?_)) ?_
    | with_reducible refine Iff.trans (same_foldl (fun k t => ?_)) ?_
    | split
    | with_reducible exact Iff.rfl

theorem same_leaveUp {l : List Part} {s0 s : State} (p : BitVec 1) (st : PortState)
    (h : [Part.mus] ++ evs .mus [3] ⊆ l) : SameBut l s0 (leaveUp p st s) ↔ SameBut l s0 s := by
  simp only [evs, List.map_cons, List.map_nil, List.cons_append, List.nil_append, List.append_nil, List.cons_subset, List.nil_subset, and_true, and_self] at h
  unfold leaveUp
  repeat' first
    | simp only [↓same_ite, ↓same_record, ↓same_raisePort, ↓same_sendOffset, ↓same_setMport, h, or_true, true_or, ite_self, evs, List.map_cons, List.map_nil, List.cons_append, List.nil_append, List.append_nil, List.cons_subset, List.nil_subset, and_true, and_self]
    | with_reducible refine Iff.trans (same_forAll (fun k t => ?_)) ?_
    | with_reducible refine Iff.trans (same_foldl (fun k t => ?_)) ?_
    | split
    | with_reducible exact Iff.rfl

theorem same_logFold {l : List Part} {s0 s : State} 
    (h : [Part.fold] ⊆ l) : SameBut l s0 (logFold s) ↔ SameBut l s0 s := by
  simp only [evs, List.map_cons, List.map_nil, List.cons_append, List.nil_append, List.append_nil, List.cons_subset, List.nil_subset, and_true, and_self] at h
  unfold logFold
  repeat' first
    | simp only [↓same_ite, ↓same_record, h, or_true, true_or, ite_self, evs, List.map_cons, List.map_nil, List.cons_append, List.nil_append, List.append_nil, List.cons_subset, List.nil_subset, and_true, and_self]
    | with_reducible refine Iff.trans (same_forAll (fun k t => ?_)) ?_
    | with_reducible refine Iff.trans (same_foldl (fun k t => ?_)) ?_
    | split
    | with_reducible exact Iff.rfl

theorem same_whileIdle {l : List Part} {s0 : State} (m : Nat) (eff : State → State) (s : State)
    (h : evs .mbx [3 + m] ⊆ l) (he : ∀ t, SameBut l s0 (eff t) ↔ SameBut l s0 t) : SameBut l s0 (whileIdle m eff s) ↔ SameBut l s0 s := by
  simp only [evs, List.map_cons, List.map_nil, List.cons_append, List.nil_append, List.append_nil, List.cons_subset, List.nil_subset, and_true, and_self] at h
  unfold whileIdle
  simp only [↓same_ite, ↓same_raise, ↓he, h, ite_self]

theorem same_mbxPost {l : List Part} {s0 : State} (m : Nat) (s : State)
    (h : [Part.crook, .mbx] ++ evs .mbx [3 + m] ⊆ l) : SameBut l s0 (mbxPost m s) ↔ SameBut l s0 s := by
  simp only [evs, List.map_cons, List.map_nil, List.cons_append, List.nil_append, List.append_nil, List.cons_subset, List.nil_subset, and_true, and_self] at h
  unfold mbxPost
  refine same_whileIdle _ _ _ (by simp only [h, evs, List.map_cons, List.map_nil, List.cons_append, List.nil_append, List.append_nil, List.cons_subset, List.nil_subset, and_true, and_self]) (fun t => ?_)
  simp only [↓same_ite, ↓same_record, ↓same_setMbox, h, or_true, true_or, ite_self, evs, List.map_cons, List.map_nil, List.cons_append, List.nil_append, List.append_nil, List.cons_subset, List.nil_subset, and_true, and_self]

theorem same_mbxUnpost {l : List Part} {s0 : State} (m : Nat) (s : State)
    (h : [Part.mbx] ++ evs .mbx [m] ⊆ l) : SameBut l s0 (mbxUnpost m s) ↔ SameBut l s0 s := by
  simp only [evs, List.map_cons, List.map_nil, List.cons_append, List.nil_append, List.append_nil, List.cons_subset, List.nil_subset, and_true, and_self] at h
  unfold mbxUnpost
  repeat' first
    | simp only [↓same_ite, ↓same_record, ↓same_completeWith, h, or_true, true_or, ite_self, evs, List.map_cons, List.map_nil, List.cons_append, List.nil_append, List.append_nil, List.cons_subset, List.nil_subset, and_true, and_self]
    | with_reducible refine Iff.trans (same_forAll (fun k t => ?_)) ?_
    | with_reducible refine Iff.trans (same_foldl (fun k t => ?_)) ?_
    | split
    | with_reducible exact Iff.rfl

theorem same_mbxWrite {l : List Part} {s0 : State} (w : Wr) (m : Nat) (eff : State → State) (s : State)
    (h : evs .mbx [6] ⊆ l) (he : ∀ t, SameBut l s0 (eff t) ↔ SameBut l s0 t) : SameBut l s0 (mbxWrite w m eff s) ↔ SameBut l s0 s := by
  simp only [evs, List.map_cons, List.map_nil, List.cons_append, List.nil_append, List.append_nil, List.cons_subset, List.nil_subset, and_true, and_self] at h
  unfold mbxWrite
  simp only [↓same_ite, ↓same_raise, ↓he, h, ite_self]

theorem same_meshReadyCheck {l : List Part} {s0 s : State} 
    (h : [Part.bellApplied, .bellWritten, .check, .flocks, .gens, .nowRegs, .power, .regions, .root, .tally] ++ evs .bell [4] ++ evs .cfg [2, 3] ++ evs .flock [2, 9, 10] ++ evs .rcg [1, 2, 3] ⊆ l) : SameBut l s0 (meshReadyCheck s) ↔ SameBut l s0 s := by
  simp only [evs, List.map_cons, List.map_nil, List.cons_append, List.nil_append, List.append_nil, List.cons_subset, List.nil_subset, and_true, and_self] at h
  unfold meshReadyCheck
  repeat' first
    | simp only [↓same_ite, ↓same_record, ↓same_fabricLeaves, ↓same_pathBack, h, or_true, true_or, ite_self, evs, List.map_cons, List.map_nil, List.cons_append, List.nil_append, List.append_nil, List.cons_subset, List.nil_subset, and_true, and_self]
    | with_reducible refine Iff.trans (same_forAll (fun k t => ?_)) ?_
    | with_reducible refine Iff.trans (same_foldl (fun k t => ?_)) ?_
    | split
    | with_reducible exact Iff.rfl

theorem same_nextFold {l : List Part} {s0 s : State} (placed f g : Nat)
    (h : [Part.fold] ⊆ l) : SameBut l s0 (nextFold placed f g s) ↔ SameBut l s0 s := by
  simp only [evs, List.map_cons, List.map_nil, List.cons_append, List.nil_append, List.append_nil, List.cons_subset, List.nil_subset, and_true, and_self] at h
  unfold nextFold
  repeat' first
    | simp only [↓same_ite, ↓same_record, h, or_true, true_or, ite_self, evs, List.map_cons, List.map_nil, List.cons_append, List.nil_append, List.append_nil, List.cons_subset, List.nil_subset, and_true, and_self]
    | with_reducible refine Iff.trans (same_forAll (fun k t => ?_)) ?_
    | with_reducible refine Iff.trans (same_foldl (fun k t => ?_)) ?_
    | split
    | with_reducible exact Iff.rfl

theorem same_noneDue {l : List Part} {s0 s : State} 
    (h : [Part.cal, .flocks, .gens, .regions, .root, .tally] ⊆ l) : SameBut l s0 (noneDue s) ↔ SameBut l s0 s := by
  simp only [evs, List.map_cons, List.map_nil, List.cons_append, List.nil_append, List.append_nil, List.cons_subset, List.nil_subset, and_true, and_self] at h
  unfold noneDue
  repeat' first
    | simp only [↓same_ite, ↓same_record, ↓same_mapFlocks, ↓same_mapGens, ↓same_setTally, h, or_true, true_or, ite_self, evs, List.map_cons, List.map_nil, List.cons_append, List.nil_append, List.append_nil, List.cons_subset, List.nil_subset, and_true, and_self]
    | with_reducible refine Iff.trans (same_forAll (fun k t => ?_)) ?_
    | with_reducible refine Iff.trans (same_foldl (fun k t => ?_)) ?_
    | split
    | with_reducible exact Iff.rfl

theorem same_onCommand {l : List Part} {s0 : State} (op : Nat) (boxes : List Nat) (nargs : Nat)
    (f : Nat → State → State) (s : State) (h : [Part.mbx, .shep] ++ evs .mbx [0, 1, 2] ⊆ l)
    (he : ∀ m t, (m = 0 ∨ m = 1 ∨ m = 2) → (SameBut l s0 (f m t) ↔ SameBut l s0 t)) :
    SameBut l s0 (onCommand op boxes nargs f s) ↔ SameBut l s0 s := by
  simp only [evs, List.map_cons, List.map_nil, List.cons_append, List.nil_append, List.append_nil, List.cons_subset, List.nil_subset, and_true, and_self] at h
  unfold onCommand
  split
  next m hm =>
    have hf := he m s (takenBox_lt hm)
    rcases takenBox_lt hm with rfl | rfl | rfl <;> simp only [↓same_ite, ↓same_complete, ↓hf, h, ite_self, evs, List.map_cons, List.map_nil, List.cons_append, List.nil_append, List.append_nil, List.cons_subset, List.nil_subset, and_true, and_self]
  next => exact Iff.rfl

theorem same_openGate {l : List Part} {s0 s : State} (u : Nat) (pos : RingPos)
    (h : [Part.tally] ⊆ l) : SameBut l s0 (openGate u pos s) ↔ SameBut l s0 s := by
  simp only [evs, List.map_cons, List.map_nil, List.cons_append, List.nil_append, List.append_nil, List.cons_subset, List.nil_subset, and_true, and_self] at h
  unfold openGate
  repeat' first
    | simp only [↓same_ite, ↓same_record, ↓same_setTally, h, or_true, true_or, ite_self, evs, List.map_cons, List.map_nil, List.cons_append, List.nil_append, List.append_nil, List.cons_subset, List.nil_subset, and_true, and_self]
    | with_reducible refine Iff.trans (same_forAll (fun k t => ?_)) ?_
    | with_reducible refine Iff.trans (same_foldl (fun k t => ?_)) ?_
    | split
    | with_reducible exact Iff.rfl

theorem same_pathGone {l : List Part} {s0 s : State} (f : Nat)
    (h : [Part.flocks, .fold, .regions, .xing] ++ evs .bell [4] ++ evs .flock [2, 9, 10] ++ evs .fold [9] ⊆ l) : SameBut l s0 (pathGone f s) ↔ SameBut l s0 s := by
  simp only [evs, List.map_cons, List.map_nil, List.cons_append, List.nil_append, List.append_nil, List.cons_subset, List.nil_subset, and_true, and_self] at h
  unfold pathGone
  repeat' first
    | simp only [↓same_ite, ↓same_record, ↓same_clockLost, ↓same_raiseAbout, ↓same_reselect, ↓same_setFlock, ↓same_updateSvc, h, or_true, true_or, ite_self, evs, List.map_cons, List.map_nil, List.cons_append, List.nil_append, List.append_nil, List.cons_subset, List.nil_subset, and_true, and_self]
    | with_reducible refine Iff.trans (same_forAll (fun k t => ?_)) ?_
    | with_reducible refine Iff.trans (same_foldl (fun k t => ?_)) ?_
    | split
    | with_reducible exact Iff.rfl

theorem same_performLc {l : List Part} {s0 s : State} (v : Word)
    (h : [Part.lc, .nowRegs] ++ evs .lc [6] ⊆ l) : SameBut l s0 (performLc v s) ↔ SameBut l s0 s := by
  simp only [evs, List.map_cons, List.map_nil, List.cons_append, List.nil_append, List.append_nil, List.cons_subset, List.nil_subset, and_true, and_self] at h
  unfold performLc
  repeat' first
    | simp only [↓same_ite, ↓same_record, ↓same_lcJudge, ↓same_lcRefuse, ↓same_nowPut, h, or_true, true_or, ite_self, evs, List.map_cons, List.map_nil, List.cons_append, List.nil_append, List.append_nil, List.cons_subset, List.nil_subset, and_true, and_self]
    | with_reducible refine Iff.trans (same_forAll (fun k t => ?_)) ?_
    | with_reducible refine Iff.trans (same_foldl (fun k t => ?_)) ?_
    | split
    | with_reducible exact Iff.rfl

theorem same_performMeas {l : List Part} {s0 s : State} (v : Word)
    (h : [Part.nowRegs, .root] ⊆ l) : SameBut l s0 (performMeas v s) ↔ SameBut l s0 s := by
  simp only [evs, List.map_cons, List.map_nil, List.cons_append, List.nil_append, List.append_nil, List.cons_subset, List.nil_subset, and_true, and_self] at h
  unfold performMeas
  repeat' first
    | simp only [↓same_ite, ↓same_record, ↓same_nowPut, ↓same_setSyn, h, or_true, true_or, ite_self, evs, List.map_cons, List.map_nil, List.cons_append, List.nil_append, List.append_nil, List.cons_subset, List.nil_subset, and_true, and_self]
    | with_reducible refine Iff.trans (same_forAll (fun k t => ?_)) ?_
    | with_reducible refine Iff.trans (same_foldl (fun k t => ?_)) ?_
    | split
    | with_reducible exact Iff.rfl

theorem same_ratioCheck {l : List Part} {s0 s : State} (was : State) (x : Nat)
    (h : [Part.xing] ++ evs .xing [2] ⊆ l) : SameBut l s0 (ratioCheck was x s) ↔ SameBut l s0 s := by
  simp only [evs, List.map_cons, List.map_nil, List.cons_append, List.nil_append, List.append_nil, List.cons_subset, List.nil_subset, and_true, and_self] at h
  unfold ratioCheck
  repeat' first
    | simp only [↓same_ite, ↓same_record, ↓same_raiseAbout, ↓same_setXing, h, or_true, true_or, ite_self, evs, List.map_cons, List.map_nil, List.cons_append, List.nil_append, List.append_nil, List.cons_subset, List.nil_subset, and_true, and_self]
    | with_reducible refine Iff.trans (same_forAll (fun k t => ?_)) ?_
    | with_reducible refine Iff.trans (same_foldl (fun k t => ?_)) ?_
    | split
    | with_reducible exact Iff.rfl

theorem same_readmit {l : List Part} {s0 s : State} (r : Nat)
    (h : [Part.flocks, .foTotal, .fold, .gens, .regions, .xing] ++ evs .cal [7] ++ evs .flock [0, 2, 3, 4, 5, 8, 9, 10] ++ evs .fold [9] ++ evs .rcg [1, 2, 3] ⊆ l) : SameBut l s0 (readmit r s) ↔ SameBut l s0 s := by
  simp only [evs, List.map_cons, List.map_nil, List.cons_append, List.nil_append, List.append_nil, List.cons_subset, List.nil_subset, and_true, and_self] at h
  unfold readmit
  repeat' first
    | simp only [↓same_ite, ↓same_record, ↓same_claim, ↓same_failBack, ↓same_setRegion, ↓same_updateSvc, h, or_true, true_or, ite_self, evs, List.map_cons, List.map_nil, List.cons_append, List.nil_append, List.append_nil, List.cons_subset, List.nil_subset, and_true, and_self]
    | with_reducible refine Iff.trans (same_forAll (fun k t => ?_)) ?_
    | with_reducible refine Iff.trans (same_foldl (fun k t => ?_)) ?_
    | split
    | with_reducible exact Iff.rfl

theorem same_rearm {l : List Part} {s0 s : State} (r : Nat)
    (h : [Part.xing] ⊆ l) : SameBut l s0 (rearm r s) ↔ SameBut l s0 s := by
  simp only [evs, List.map_cons, List.map_nil, List.cons_append, List.nil_append, List.append_nil, List.cons_subset, List.nil_subset, and_true, and_self] at h
  unfold rearm
  repeat' first
    | simp only [↓same_ite, ↓same_record, ↓same_armXing, h, or_true, true_or, ite_self, evs, List.map_cons, List.map_nil, List.cons_append, List.nil_append, List.append_nil, List.cons_subset, List.nil_subset, and_true, and_self]
    | with_reducible refine Iff.trans (same_forAll (fun k t => ?_)) ?_
    | with_reducible refine Iff.trans (same_foldl (fun k t => ?_)) ?_
    | split
    | with_reducible exact Iff.rfl

theorem same_receive {l : List Part} {s0 : State} (p : BitVec 1) (f : Frame) (act : State → State) (s : State)
    (h : [Part.mus] ++ evs .mus [3, 9] ⊆ l) (he : ∀ t, SameBut l s0 (act t) ↔ SameBut l s0 t) :
    SameBut l s0 (receive p f act s) ↔ SameBut l s0 s := by
  simp only [evs, List.map_cons, List.map_nil, List.cons_append, List.nil_append, List.append_nil, List.cons_subset, List.nil_subset, and_true, and_self] at h
  unfold receive
  simp only [↓same_ite, ↓same_discardFrame, ↓same_raisePort, ↓same_turnPort, ↓same_setMport, ↓he, h, ite_self, evs, List.map_cons, List.map_nil, List.cons_append, List.nil_append, List.append_nil, List.cons_subset, List.nil_subset, and_true, and_self]

theorem same_rejectStart {l : List Part} {s0 s : State} (cause : Nat)
    (h : [Part.fold] ++ evs .fold [5] ⊆ l) : SameBut l s0 (rejectStart cause s) ↔ SameBut l s0 s := by
  simp only [evs, List.map_cons, List.map_nil, List.cons_append, List.nil_append, List.append_nil, List.cons_subset, List.nil_subset, and_true, and_self] at h
  unfold rejectStart
  repeat' first
    | simp only [↓same_ite, ↓same_record, ↓same_raise, h, or_true, true_or, ite_self, evs, List.map_cons, List.map_nil, List.cons_append, List.nil_append, List.append_nil, List.cons_subset, List.nil_subset, and_true, and_self]
    | with_reducible refine Iff.trans (same_forAll (fun k t => ?_)) ?_
    | with_reducible refine Iff.trans (same_foldl (fun k t => ?_)) ?_
    | split
    | with_reducible exact Iff.rfl

theorem same_releaseFailed {l : List Part} {s0 s : State} (y : Syn)
    (h : [Part.root] ++ evs .root [8] ⊆ l) : SameBut l s0 (releaseFailed y s) ↔ SameBut l s0 s := by
  simp only [evs, List.map_cons, List.map_nil, List.cons_append, List.nil_append, List.append_nil, List.cons_subset, List.nil_subset, and_true, and_self] at h
  unfold releaseFailed
  repeat' first
    | simp only [↓same_ite, ↓same_record, ↓same_setSyn, ↓same_startAcquire, h, or_true, true_or, ite_self, evs, List.map_cons, List.map_nil, List.cons_append, List.nil_append, List.append_nil, List.cons_subset, List.nil_subset, and_true, and_self]
    | with_reducible refine Iff.trans (same_forAll (fun k t => ?_)) ?_
    | with_reducible refine Iff.trans (same_foldl (fun k t => ?_)) ?_
    | split
    | with_reducible exact Iff.rfl

theorem same_releaseLc {l : List Part} {s0 s : State} (held : List Word)
    (h : [Part.lc, .nowRegs] ++ evs .lc [6] ⊆ l) : SameBut l s0 (releaseLc held s) ↔ SameBut l s0 s := by
  simp only [evs, List.map_cons, List.map_nil, List.cons_append, List.nil_append, List.append_nil, List.cons_subset, List.nil_subset, and_true, and_self] at h
  induction held generalizing s with
  | nil => exact Iff.rfl
  | cons e r ih =>
    unfold releaseLc
    split
    · simp only [↓same_record, h, or_true, true_or, and_self]
    · rw [ih]
      simp only [↓same_performLc, h, evs, List.map_cons, List.map_nil, List.cons_append, List.nil_append, List.append_nil, List.cons_subset, List.nil_subset, and_true, and_self]

theorem same_releaseMeas {l : List Part} {s0 s : State} (held : List (Port × Word))
    (h : [Part.nowRegs, .root] ⊆ l) : SameBut l s0 (releaseMeas held s) ↔ SameBut l s0 s := by
  simp only [evs, List.map_cons, List.map_nil, List.cons_append, List.nil_append, List.append_nil, List.cons_subset, List.nil_subset, and_true, and_self] at h
  induction held generalizing s with
  | nil => exact Iff.rfl
  | cons e r ih =>
    unfold releaseMeas
    split
    · simp only [↓same_record, h, or_true, true_or, and_self]
    · rw [ih]
      simp only [↓same_performMeas, h, evs, List.map_cons, List.map_nil, List.cons_append, List.nil_append, List.append_nil, List.cons_subset, List.nil_subset, and_true, and_self]

theorem same_replayFresh {l : List Part} {s0 s : State} (was : State)
    (h : [Part.bellWritten, .check] ⊆ l) : SameBut l s0 (replayFresh was s) ↔ SameBut l s0 s := by
  simp only [evs, List.map_cons, List.map_nil, List.cons_append, List.nil_append, List.append_nil, List.cons_subset, List.nil_subset, and_true, and_self] at h
  unfold replayFresh
  repeat' first
    | simp only [↓same_ite, ↓same_record, ↓same_bellPut, h, or_true, true_or, ite_self, evs, List.map_cons, List.map_nil, List.cons_append, List.nil_append, List.append_nil, List.cons_subset, List.nil_subset, and_true, and_self]
    | with_reducible refine Iff.trans (same_forAll (fun k t => ?_)) ?_
    | with_reducible refine Iff.trans (same_foldl (fun k t => ?_)) ?_
    | split
    | with_reducible exact Iff.rfl

theorem same_reportRound {l : List Part} {s0 s : State} 
    (h : [Part.mus] ++ evs .mus [8] ⊆ l) : SameBut l s0 (reportRound s) ↔ SameBut l s0 s := by
  simp only [evs, List.map_cons, List.map_nil, List.cons_append, List.nil_append, List.append_nil, List.cons_subset, List.nil_subset, and_true, and_self] at h
  unfold reportRound
  repeat' first
    | simp only [↓same_ite, ↓same_record, ↓same_raise, h, or_true, true_or, ite_self, evs, List.map_cons, List.map_nil, List.cons_append, List.nil_append, List.append_nil, List.cons_subset, List.nil_subset, and_true, and_self]
    | with_reducible refine Iff.trans (same_forAll (fun k t => ?_)) ?_
    | with_reducible refine Iff.trans (same_foldl (fun k t => ?_)) ?_
    | split
    | with_reducible exact Iff.rfl

theorem same_respare {l : List Part} {s0 s : State} (f j : Nat)
    (h : [Part.flocks, .gens] ++ evs .flock [2, 3, 9, 10] ++ evs .rcg [1, 2, 3] ⊆ l) : SameBut l s0 (respare f j s) ↔ SameBut l s0 s := by
  simp only [evs, List.map_cons, List.map_nil, List.cons_append, List.nil_append, List.append_nil, List.cons_subset, List.nil_subset, and_true, and_self] at h
  unfold respare
  repeat' first
    | simp only [↓same_ite, ↓same_record, ↓same_spareBand, ↓same_spareChanged, ↓same_spareLocking, h, or_true, true_or, ite_self, evs, List.map_cons, List.map_nil, List.cons_append, List.nil_append, List.append_nil, List.cons_subset, List.nil_subset, and_true, and_self]
    | with_reducible refine Iff.trans (same_forAll (fun k t => ?_)) ?_
    | with_reducible refine Iff.trans (same_foldl (fun k t => ?_)) ?_
    | split
    | with_reducible exact Iff.rfl

theorem same_respareChanged {l : List Part} {s0 : State} (s t : State)
    (h : [Part.flocks, .gens] ++ evs .flock [2, 3, 9, 10] ++ evs .rcg [1, 2, 3] ⊆ l) : SameBut l s0 (respareChanged s t) ↔ SameBut l s0 t := by
  simp only [evs, List.map_cons, List.map_nil, List.cons_append, List.nil_append, List.append_nil, List.cons_subset, List.nil_subset, and_true, and_self] at h
  unfold respareChanged
  repeat' first
    | simp only [↓same_ite, ↓same_record, ↓same_respare, h, or_true, true_or, ite_self, evs, List.map_cons, List.map_nil, List.cons_append, List.nil_append, List.append_nil, List.cons_subset, List.nil_subset, and_true, and_self]
    | with_reducible refine Iff.trans (same_forAll (fun k t => ?_)) ?_
    | with_reducible refine Iff.trans (same_foldl (fun k t => ?_)) ?_
    | split
    | with_reducible exact Iff.rfl

theorem same_restoreApply {l : List Part} {s0 s : State} 
    (h : [Part.cal, .flocks, .gens, .regions, .root, .tally] ++ evs .cal [5] ⊆ l) : SameBut l s0 (restoreApply s) ↔ SameBut l s0 s := by
  simp only [evs, List.map_cons, List.map_nil, List.cons_append, List.nil_append, List.append_nil, List.cons_subset, List.nil_subset, and_true, and_self] at h
  unfold restoreApply
  repeat' first
    | simp only [↓same_ite, ↓same_record, ↓same_loadImage, ↓same_loadTaps, ↓same_noneDue, ↓same_raise, h, or_true, true_or, ite_self, evs, List.map_cons, List.map_nil, List.cons_append, List.nil_append, List.append_nil, List.cons_subset, List.nil_subset, and_true, and_self]
    | with_reducible refine Iff.trans (same_forAll (fun k t => ?_)) ?_
    | with_reducible refine Iff.trans (same_foldl (fun k t => ?_)) ?_
    | split
    | with_reducible exact Iff.rfl

theorem same_resumeHeld {l : List Part} {s0 s : State} 
    (h : [Part.fold, .regions, .root, .time] ++ evs .root [3, 8] ⊆ l) : SameBut l s0 (resumeHeld s) ↔ SameBut l s0 s := by
  simp only [evs, List.map_cons, List.map_nil, List.cons_append, List.nil_append, List.append_nil, List.cons_subset, List.nil_subset, and_true, and_self] at h
  unfold resumeHeld
  repeat' first
    | simp only [↓same_ite, ↓same_record, ↓same_bypassEntered, h, or_true, true_or, ite_self, evs, List.map_cons, List.map_nil, List.cons_append, List.nil_append, List.append_nil, List.cons_subset, List.nil_subset, and_true, and_self]
    | with_reducible refine Iff.trans (same_forAll (fun k t => ?_)) ?_
    | with_reducible refine Iff.trans (same_foldl (fun k t => ?_)) ?_
    | split
    | with_reducible exact Iff.rfl

theorem same_rewindKey {l : List Part} {s0 s : State} (e : FreshWr)
    (h : [Part.bellWritten, .check] ⊆ l) : SameBut l s0 (rewindKey e s) ↔ SameBut l s0 s := by
  simp only [evs, List.map_cons, List.map_nil, List.cons_append, List.nil_append, List.append_nil, List.cons_subset, List.nil_subset, and_true, and_self] at h
  unfold rewindKey
  repeat' first
    | simp only [↓same_ite, ↓same_record, h, or_true, true_or, ite_self, evs, List.map_cons, List.map_nil, List.cons_append, List.nil_append, List.append_nil, List.cons_subset, List.nil_subset, and_true, and_self]
    | with_reducible refine Iff.trans (same_forAll (fun k t => ?_)) ?_
    | with_reducible refine Iff.trans (same_foldl (fun k t => ?_)) ?_
    | split
    | with_reducible exact Iff.rfl

theorem same_rewindFresh {l : List Part} {s0 s : State} 
    (h : [Part.bellWritten, .check] ⊆ l) : SameBut l s0 (rewindFresh s) ↔ SameBut l s0 s := by
  simp only [evs, List.map_cons, List.map_nil, List.cons_append, List.nil_append, List.append_nil, List.cons_subset, List.nil_subset, and_true, and_self] at h
  unfold rewindFresh
  repeat' first
    | simp only [↓same_ite, ↓same_record, ↓same_rewindKey, h, or_true, true_or, ite_self, evs, List.map_cons, List.map_nil, List.cons_append, List.nil_append, List.append_nil, List.cons_subset, List.nil_subset, and_true, and_self]
    | with_reducible refine Iff.trans (same_forAll (fun k t => ?_)) ?_
    | with_reducible refine Iff.trans (same_foldl (fun k t => ?_)) ?_
    | split
    | with_reducible exact Iff.rfl

theorem same_shiftBells {l : List Part} {s0 s : State} (placed : Nat)
    (h : [Part.flocks] ⊆ l) : SameBut l s0 (shiftBells placed s) ↔ SameBut l s0 s := by
  simp only [evs, List.map_cons, List.map_nil, List.cons_append, List.nil_append, List.append_nil, List.cons_subset, List.nil_subset, and_true, and_self] at h
  unfold shiftBells
  repeat' first
    | simp only [↓same_ite, ↓same_record, ↓same_mapFlocks, h, or_true, true_or, ite_self, evs, List.map_cons, List.map_nil, List.cons_append, List.nil_append, List.append_nil, List.cons_subset, List.nil_subset, and_true, and_self]
    | with_reducible refine Iff.trans (same_forAll (fun k t => ?_)) ?_
    | with_reducible refine Iff.trans (same_foldl (fun k t => ?_)) ?_
    | split
    | with_reducible exact Iff.rfl

theorem same_zoneBell {l : List Part} {s0 s : State} 
    (h : [Part.regions, .zones] ++ evs .zone [1, 4] ⊆ l) : SameBut l s0 (zoneBell s) ↔ SameBut l s0 s := by
  simp only [evs, List.map_cons, List.map_nil, List.cons_append, List.nil_append, List.append_nil, List.cons_subset, List.nil_subset, and_true, and_self] at h
  unfold zoneBell
  repeat' first
    | simp only [↓same_ite, ↓same_record, ↓same_raiseAbout, ↓same_setZone, ↓same_unclamp, h, or_true, true_or, ite_self, evs, List.map_cons, List.map_nil, List.cons_append, List.nil_append, List.append_nil, List.cons_subset, List.nil_subset, and_true, and_self]
    | with_reducible refine Iff.trans (same_forAll (fun k t => ?_)) ?_
    | with_reducible refine Iff.trans (same_foldl (fun k t => ?_)) ?_
    | split
    | with_reducible exact Iff.rfl

theorem same_ringBell {l : List Part} {s0 : State} (placed : Nat) (now : State)
    (h : [Part.bellApplied, .bellWritten, .cal, .check, .coreData, .fcst, .flocks, .foTotal, .fold, .gens, .mbx, .mus, .regions, .root, .shep, .tally, .time, .xing, .zones] ++ evs .cal [0, 1, 2, 5, 7, 8] ++ evs .cfg [2, 4] ++ evs .fcst [2, 3, 4, 5, 6] ++ evs .flock [0, 2, 3, 4, 5, 8, 9, 10] ++ evs .fold [0, 3, 4, 7, 8, 9, 11] ++ evs .mbx [0, 1, 2] ++ evs .rcg [1, 2, 3, 5, 6, 8] ++ evs .shep [2, 5, 11] ++ evs .xing [2] ++ evs .zone [1, 3, 4, 5, 6] ⊆ l) : SameBut l s0 (ringBell placed now) ↔ SameBut l s0 now := by
  simp only [evs, List.map_cons, List.map_nil, List.cons_append, List.nil_append, List.append_nil, List.cons_subset, List.nil_subset, and_true, and_self] at h
  unfold ringBell
  repeat' first
    | simp only [↓same_ite, ↓same_record, ↓same_applyPending, ↓same_armAll, ↓same_bellBand, ↓same_bellClasses, ↓same_calCfgApplied, ↓same_countSkew, ↓same_cutClampWindow, ↓same_firmwareBell, ↓same_forecastBell, ↓same_historyBell, ↓same_logFold, ↓same_mapGens, ↓same_mapRegions, ↓same_nextFold, ↓same_raise, ↓same_ratioCheck, ↓same_readmit, ↓same_rearm, ↓same_replayFresh, ↓same_respareChanged, ↓same_restoreApply, ↓same_rewindFresh, ↓same_shiftBells, ↓same_zoneBell, h, or_true, true_or, ite_self, evs, List.map_cons, List.map_nil, List.cons_append, List.nil_append, List.append_nil, List.cons_subset, List.nil_subset, and_true, and_self]
    | with_reducible refine Iff.trans (same_forAll (fun k t => ?_)) ?_
    | with_reducible refine Iff.trans (same_foldl (fun k t => ?_)) ?_
    | split
    | with_reducible exact Iff.rfl

theorem same_roundPort {l : List Part} {s0 s : State} (p : BitVec 1)
    (h : [Part.mus] ++ evs .mus [3] ⊆ l) : SameBut l s0 (roundPort p s) ↔ SameBut l s0 s := by
  simp only [evs, List.map_cons, List.map_nil, List.cons_append, List.nil_append, List.append_nil, List.cons_subset, List.nil_subset, and_true, and_self] at h
  unfold roundPort
  repeat' first
    | simp only [↓same_ite, ↓same_record, ↓same_raisePort, ↓same_setMport, h, or_true, true_or, ite_self, evs, List.map_cons, List.map_nil, List.cons_append, List.nil_append, List.append_nil, List.cons_subset, List.nil_subset, and_true, and_self]
    | with_reducible refine Iff.trans (same_forAll (fun k t => ?_)) ?_
    | with_reducible refine Iff.trans (same_foldl (fun k t => ?_)) ?_
    | split
    | with_reducible exact Iff.rfl

theorem same_sampleFlock {l : List Part} {s0 s : State} (f : Nat) (t : Int)
    (h : [Part.cal, .flocks, .gens, .regions] ⊆ l) : SameBut l s0 (sampleFlock f t s) ↔ SameBut l s0 s := by
  simp only [evs, List.map_cons, List.map_nil, List.cons_append, List.nil_append, List.append_nil, List.cons_subset, List.nil_subset, and_true, and_self] at h
  unfold sampleFlock
  repeat' first
    | simp only [↓same_ite, ↓same_record, ↓same_setFlock, ↓same_triggerFlock, h, or_true, true_or, ite_self, evs, List.map_cons, List.map_nil, List.cons_append, List.nil_append, List.append_nil, List.cons_subset, List.nil_subset, and_true, and_self]
    | with_reducible refine Iff.trans (same_forAll (fun k t => ?_)) ?_
    | with_reducible refine Iff.trans (same_foldl (fun k t => ?_)) ?_
    | split
    | with_reducible exact Iff.rfl

theorem same_sampleIsland {l : List Part} {s0 s : State} (t : Int)
    (h : [Part.cal, .root, .tally] ⊆ l) : SameBut l s0 (sampleIsland t s) ↔ SameBut l s0 s := by
  simp only [evs, List.map_cons, List.map_nil, List.cons_append, List.nil_append, List.append_nil, List.cons_subset, List.nil_subset, and_true, and_self] at h
  unfold sampleIsland
  repeat' first
    | simp only [↓same_ite, ↓same_record, ↓same_triggerIsland, h, or_true, true_or, ite_self, evs, List.map_cons, List.map_nil, List.cons_append, List.nil_append, List.append_nil, List.cons_subset, List.nil_subset, and_true, and_self]
    | with_reducible refine Iff.trans (same_forAll (fun k t => ?_)) ?_
    | with_reducible refine Iff.trans (same_foldl (fun k t => ?_)) ?_
    | split
    | with_reducible exact Iff.rfl

theorem same_sampleRegion {l : List Part} {s0 s : State} (r : Nat) (m : Word) (at16 : Nat)
    (h : [Part.regions, .zones] ++ evs .rcg [4] ⊆ l) : SameBut l s0 (sampleRegion r m at16 s) ↔ SameBut l s0 s := by
  simp only [evs, List.map_cons, List.map_nil, List.cons_append, List.nil_append, List.append_nil, List.cons_subset, List.nil_subset, and_true, and_self] at h
  unfold sampleRegion
  repeat' first
    | simp only [↓same_ite, ↓same_record, ↓same_raiseAbout, ↓same_setRegion, h, or_true, true_or, ite_self, evs, List.map_cons, List.map_nil, List.cons_append, List.nil_append, List.append_nil, List.cons_subset, List.nil_subset, and_true, and_self]
    | with_reducible refine Iff.trans (same_forAll (fun k t => ?_)) ?_
    | with_reducible refine Iff.trans (same_foldl (fun k t => ?_)) ?_
    | split
    | with_reducible exact Iff.rfl

theorem same_sendDone {l : List Part} {s0 s : State} 
    (h : [Part.mus] ⊆ l) : SameBut l s0 (sendDone s) ↔ SameBut l s0 s := by
  simp only [evs, List.map_cons, List.map_nil, List.cons_append, List.nil_append, List.append_nil, List.cons_subset, List.nil_subset, and_true, and_self] at h
  unfold sendDone
  repeat' first
    | simp only [↓same_ite, ↓same_record, ↓same_sendOn, h, or_true, true_or, ite_self, evs, List.map_cons, List.map_nil, List.cons_append, List.nil_append, List.append_nil, List.cons_subset, List.nil_subset, and_true, and_self]
    | with_reducible refine Iff.trans (same_forAll (fun k t => ?_)) ?_
    | with_reducible refine Iff.trans (same_foldl (fun k t => ?_)) ?_
    | split
    | with_reducible exact Iff.rfl

theorem same_startBmeas {l : List Part} {s0 s : State} (rows : List Nat) (tag : BitVec 8)
    (h : [Part.bmeas, .flocks, .gens] ++ evs .flock [2, 3, 9, 10] ⊆ l) : SameBut l s0 (startBmeas rows tag s) ↔ SameBut l s0 s := by
  simp only [evs, List.map_cons, List.map_nil, List.cons_append, List.nil_append, List.append_nil, List.cons_subset, List.nil_subset, and_true, and_self] at h
  unfold startBmeas
  repeat' first
    | simp only [↓same_ite, ↓same_record, ↓same_setGen, ↓same_spareChanged, h, or_true, true_or, ite_self, evs, List.map_cons, List.map_nil, List.cons_append, List.nil_append, List.append_nil, List.cons_subset, List.nil_subset, and_true, and_self]
    | with_reducible refine Iff.trans (same_forAll (fun k t => ?_)) ?_
    | with_reducible refine Iff.trans (same_foldl (fun k t => ?_)) ?_
    | split
    | with_reducible exact Iff.rfl

theorem same_startSpare {l : List Part} {s0 s : State} (f j : Nat)
    (h : [Part.flocks, .gens] ++ evs .flock [2, 3, 9, 10] ++ evs .rcg [1, 2, 3] ⊆ l) : SameBut l s0 (startSpare f j s) ↔ SameBut l s0 s := by
  simp only [evs, List.map_cons, List.map_nil, List.cons_append, List.nil_append, List.append_nil, List.cons_subset, List.nil_subset, and_true, and_self] at h
  unfold startSpare
  repeat' first
    | simp only [↓same_ite, ↓same_record, ↓same_spareChanged, ↓same_spareLocking, h, or_true, true_or, ite_self, evs, List.map_cons, List.map_nil, List.cons_append, List.nil_append, List.append_nil, List.cons_subset, List.nil_subset, and_true, and_self]
    | with_reducible refine Iff.trans (same_forAll (fun k t => ?_)) ?_
    | with_reducible refine Iff.trans (same_foldl (fun k t => ?_)) ?_
    | split
    | with_reducible exact Iff.rfl

theorem same_startXcal {l : List Part} {s0 s : State} 
    (h : [Part.data, .xing] ++ evs .xing [5] ⊆ l) : SameBut l s0 (startXcal s) ↔ SameBut l s0 s := by
  simp only [evs, List.map_cons, List.map_nil, List.cons_append, List.nil_append, List.append_nil, List.cons_subset, List.nil_subset, and_true, and_self] at h
  unfold startXcal
  repeat' first
    | simp only [↓same_ite, ↓same_record, ↓same_dropPins, h, or_true, true_or, ite_self, evs, List.map_cons, List.map_nil, List.cons_append, List.nil_append, List.append_nil, List.cons_subset, List.nil_subset, and_true, and_self]
    | with_reducible refine Iff.trans (same_forAll (fun k t => ?_)) ?_
    | with_reducible refine Iff.trans (same_foldl (fun k t => ?_)) ?_
    | split
    | with_reducible exact Iff.rfl

theorem same_swReject {l : List Part} {s0 s : State} (code : Nat)
    (h : [Part.shep] ++ evs .shep [12] ⊆ l) : SameBut l s0 (swReject code s) ↔ SameBut l s0 s := by
  simp only [evs, List.map_cons, List.map_nil, List.cons_append, List.nil_append, List.append_nil, List.cons_subset, List.nil_subset, and_true, and_self] at h
  unfold swReject
  repeat' first
    | simp only [↓same_ite, ↓same_record, ↓same_raise, h, or_true, true_or, ite_self, evs, List.map_cons, List.map_nil, List.cons_append, List.nil_append, List.append_nil, List.cons_subset, List.nil_subset, and_true, and_self]
    | with_reducible refine Iff.trans (same_forAll (fun k t => ?_)) ?_
    | with_reducible refine Iff.trans (same_foldl (fun k t => ?_)) ?_
    | split
    | with_reducible exact Iff.rfl

theorem same_swDoOpen {l : List Part} {s0 s : State} (b : BitVec 1)
    (h : [Part.shep] ++ evs .shep [6, 12] ⊆ l) : SameBut l s0 (swDoOpen b s) ↔ SameBut l s0 s := by
  simp only [evs, List.map_cons, List.map_nil, List.cons_append, List.nil_append, List.append_nil, List.cons_subset, List.nil_subset, and_true, and_self] at h
  unfold swDoOpen
  repeat' first
    | simp only [↓same_ite, ↓same_record, ↓same_raise, ↓same_setSwBank, ↓same_swReject, h, or_true, true_or, ite_self, evs, List.map_cons, List.map_nil, List.cons_append, List.nil_append, List.append_nil, List.cons_subset, List.nil_subset, and_true, and_self]
    | with_reducible refine Iff.trans (same_forAll (fun k t => ?_)) ?_
    | with_reducible refine Iff.trans (same_foldl (fun k t => ?_)) ?_
    | split
    | with_reducible exact Iff.rfl

theorem same_swDoSeal {l : List Part} {s0 s : State} (b : BitVec 1)
    (h : [Part.shep] ++ evs .shep [4, 12] ⊆ l) : SameBut l s0 (swDoSeal b s) ↔ SameBut l s0 s := by
  simp only [evs, List.map_cons, List.map_nil, List.cons_append, List.nil_append, List.append_nil, List.cons_subset, List.nil_subset, and_true, and_self] at h
  unfold swDoSeal
  repeat' first
    | simp only [↓same_ite, ↓same_record, ↓same_setSwBank, ↓same_swReject, ↓same_swWaitCheck, h, or_true, true_or, ite_self, evs, List.map_cons, List.map_nil, List.cons_append, List.nil_append, List.append_nil, List.cons_subset, List.nil_subset, and_true, and_self]
    | with_reducible refine Iff.trans (same_forAll (fun k t => ?_)) ?_
    | with_reducible refine Iff.trans (same_foldl (fun k t => ?_)) ?_
    | split
    | with_reducible exact Iff.rfl

theorem same_swDoSwap {l : List Part} {s0 s : State} (b : BitVec 1)
    (h : [Part.shep] ++ evs .shep [12] ⊆ l) : SameBut l s0 (swDoSwap b s) ↔ SameBut l s0 s := by
  simp only [evs, List.map_cons, List.map_nil, List.cons_append, List.nil_append, List.append_nil, List.cons_subset, List.nil_subset, and_true, and_self] at h
  unfold swDoSwap
  repeat' first
    | simp only [↓same_ite, ↓same_record, ↓same_swReject, h, or_true, true_or, ite_self, evs, List.map_cons, List.map_nil, List.cons_append, List.nil_append, List.append_nil, List.cons_subset, List.nil_subset, and_true, and_self]
    | with_reducible refine Iff.trans (same_forAll (fun k t => ?_)) ?_
    | with_reducible refine Iff.trans (same_foldl (fun k t => ?_)) ?_
    | split
    | with_reducible exact Iff.rfl

theorem same_syncOn {l : List Part} {s0 s : State} (k : Nat) (p : BitVec 1) (tx : Option Int)
    (h : [Part.mus] ⊆ l) : SameBut l s0 (syncOn k p tx s) ↔ SameBut l s0 s := by
  simp only [evs, List.map_cons, List.map_nil, List.cons_append, List.nil_append, List.append_nil, List.cons_subset, List.nil_subset, and_true, and_self] at h
  unfold syncOn
  repeat' first
    | simp only [↓same_ite, ↓same_record, ↓same_sendOn, ↓same_setMport, h, or_true, true_or, ite_self, evs, List.map_cons, List.map_nil, List.cons_append, List.nil_append, List.append_nil, List.cons_subset, List.nil_subset, and_true, and_self]
    | with_reducible refine Iff.trans (same_forAll (fun k t => ?_)) ?_
    | with_reducible refine Iff.trans (same_foldl (fun k t => ?_)) ?_
    | split
    | with_reducible exact Iff.rfl

theorem same_takeParent {l : List Part} {s0 s : State} (p : BitVec 1) (hops : Nat)
    (h : [Part.mus] ⊆ l) : SameBut l s0 (takeParent p hops s) ↔ SameBut l s0 s := by
  simp only [evs, List.map_cons, List.map_nil, List.cons_append, List.nil_append, List.append_nil, List.cons_subset, List.nil_subset, and_true, and_self] at h
  unfold takeParent
  repeat' first
    | simp only [↓same_ite, ↓same_record, ↓same_sendOn, ↓same_setMport, h, or_true, true_or, ite_self, evs, List.map_cons, List.map_nil, List.cons_append, List.nil_append, List.append_nil, List.cons_subset, List.nil_subset, and_true, and_self]
    | with_reducible refine Iff.trans (same_forAll (fun k t => ?_)) ?_
    | with_reducible refine Iff.trans (same_foldl (fun k t => ?_)) ?_
    | split
    | with_reducible exact Iff.rfl

theorem same_tallyRefLost {l : List Part} {s0 s : State} 
    (h : [Part.tally] ⊆ l) : SameBut l s0 (tallyRefLost s) ↔ SameBut l s0 s := by
  simp only [evs, List.map_cons, List.map_nil, List.cons_append, List.nil_append, List.append_nil, List.cons_subset, List.nil_subset, and_true, and_self] at h
  unfold tallyRefLost
  repeat' first
    | simp only [↓same_ite, ↓same_record, ↓same_setTally, h, or_true, true_or, ite_self, evs, List.map_cons, List.map_nil, List.cons_append, List.nil_append, List.append_nil, List.cons_subset, List.nil_subset, and_true, and_self]
    | with_reducible refine Iff.trans (same_forAll (fun k t => ?_)) ?_
    | with_reducible refine Iff.trans (same_foldl (fun k t => ?_)) ?_
    | split
    | with_reducible exact Iff.rfl

theorem same_tapSelect {l : List Part} {s0 s : State} (op : TestOp) (ir : TapIr)
    (h : [Part.lc] ⊆ l) : SameBut l s0 (tapSelect op ir s) ↔ SameBut l s0 s := by
  simp only [evs, List.map_cons, List.map_nil, List.cons_append, List.nil_append, List.append_nil, List.cons_subset, List.nil_subset, and_true, and_self] at h
  unfold tapSelect
  repeat' first
    | simp only [↓same_ite, ↓same_record, h, or_true, true_or, ite_self, evs, List.map_cons, List.map_nil, List.cons_append, List.nil_append, List.append_nil, List.cons_subset, List.nil_subset, and_true, and_self]
    | with_reducible refine Iff.trans (same_forAll (fun k t => ?_)) ?_
    | with_reducible refine Iff.trans (same_foldl (fun k t => ?_)) ?_
    | split
    | with_reducible exact Iff.rfl

theorem same_tapScan {l : List Part} {s0 s : State} (op : TestOp) (ir : TapIr)
    (h : [Part.freeCount, .lc] ⊆ l) : SameBut l s0 (tapScan op ir s) ↔ SameBut l s0 s := by
  simp only [evs, List.map_cons, List.map_nil, List.cons_append, List.nil_append, List.append_nil, List.cons_subset, List.nil_subset, and_true, and_self] at h
  unfold tapScan
  repeat' first
    | simp only [↓same_ite, ↓same_record, ↓same_takeFreeWord, ↓same_tapSelect, h, or_true, true_or, ite_self, evs, List.map_cons, List.map_nil, List.cons_append, List.nil_append, List.append_nil, List.cons_subset, List.nil_subset, and_true, and_self]
    | with_reducible refine Iff.trans (same_forAll (fun k t => ?_)) ?_
    | with_reducible refine Iff.trans (same_foldl (fun k t => ?_)) ?_
    | split
    | with_reducible exact Iff.rfl

theorem same_thawSyn {l : List Part} {s0 s : State} (y : Syn)
    (h : [Part.root] ⊆ l) : SameBut l s0 (thawSyn y s) ↔ SameBut l s0 s := by
  simp only [evs, List.map_cons, List.map_nil, List.cons_append, List.nil_append, List.append_nil, List.cons_subset, List.nil_subset, and_true, and_self] at h
  unfold thawSyn
  repeat' first
    | simp only [↓same_ite, ↓same_record, ↓same_setSyn, h, or_true, true_or, ite_self, evs, List.map_cons, List.map_nil, List.cons_append, List.nil_append, List.append_nil, List.cons_subset, List.nil_subset, and_true, and_self]
    | with_reducible refine Iff.trans (same_forAll (fun k t => ?_)) ?_
    | with_reducible refine Iff.trans (same_foldl (fun k t => ?_)) ?_
    | split
    | with_reducible exact Iff.rfl

theorem same_unclaim {l : List Part} {s0 s : State} (r : Nat)
    (h : [Part.flocks, .gens, .regions] ++ evs .flock [2, 3, 9, 10] ++ evs .rcg [1, 2, 3] ⊆ l) : SameBut l s0 (unclaim r s) ↔ SameBut l s0 s := by
  simp only [evs, List.map_cons, List.map_nil, List.cons_append, List.nil_append, List.append_nil, List.cons_subset, List.nil_subset, and_true, and_self] at h
  unfold unclaim
  repeat' first
    | simp only [↓same_ite, ↓same_record, ↓same_setRegion, ↓same_spareChanged, ↓same_spareLocking, h, or_true, true_or, ite_self, evs, List.map_cons, List.map_nil, List.cons_append, List.nil_append, List.append_nil, List.cons_subset, List.nil_subset, and_true, and_self]
    | with_reducible refine Iff.trans (same_forAll (fun k t => ?_)) ?_
    | with_reducible refine Iff.trans (same_foldl (fun k t => ?_)) ?_
    | split
    | with_reducible exact Iff.rfl

theorem same_verifyRow {l : List Part} {s0 s : State} (hit : List Nat) (g : Nat)
    (h : [Part.flocks, .gens, .regions] ++ evs .flock [2, 3, 9, 10] ++ evs .rcg [1, 2, 3, 7] ⊆ l) : SameBut l s0 (verifyRow hit g s) ↔ SameBut l s0 s := by
  simp only [evs, List.map_cons, List.map_nil, List.cons_append, List.nil_append, List.append_nil, List.cons_subset, List.nil_subset, and_true, and_self] at h
  unfold verifyRow
  repeat' first
    | simp only [↓same_ite, ↓same_record, ↓same_leaveReset, ↓same_raiseAbout, ↓same_setGen, ↓same_startSpare, h, or_true, true_or, ite_self, evs, List.map_cons, List.map_nil, List.cons_append, List.nil_append, List.append_nil, List.cons_subset, List.nil_subset, and_true, and_self]
    | with_reducible refine Iff.trans (same_forAll (fun k t => ?_)) ?_
    | with_reducible refine Iff.trans (same_foldl (fun k t => ?_)) ?_
    | split
    | with_reducible exact Iff.rfl

theorem same_warmRelease {l : List Part} {s0 s : State} (prev : Word)
    (h : [Part.bellApplied, .bellWritten, .cal, .check, .coreData, .flocks, .gens, .mus, .nowRegs, .power, .regions, .root, .shep, .tally] ++ evs .bell [4] ++ evs .cal [0, 1, 2, 7] ++ evs .cfg [2, 3] ++ evs .flock [2, 9, 10] ++ evs .rcg [1, 2, 3] ++ evs .shep [2] ⊆ l) : SameBut l s0 (warmRelease prev s) ↔ SameBut l s0 s := by
  simp only [evs, List.map_cons, List.map_nil, List.cons_append, List.nil_append, List.append_nil, List.cons_subset, List.nil_subset, and_true, and_self] at h
  unfold warmRelease
  repeat' first
    | simp only [↓same_ite, ↓same_record, ↓same_fabricLeaves, ↓same_pathBack, ↓same_startCore, h, or_true, true_or, ite_self, evs, List.map_cons, List.map_nil, List.cons_append, List.nil_append, List.append_nil, List.cons_subset, List.nil_subset, and_true, and_self]
    | with_reducible refine Iff.trans (same_forAll (fun k t => ?_)) ?_
    | with_reducible refine Iff.trans (same_foldl (fun k t => ?_)) ?_
    | split
    | with_reducible exact Iff.rfl

theorem same_whereFlock {l : List Part} {s0 : State} (f : Nat) (eff : State → State) (s : State)
    (he : ∀ t, SameBut l s0 (eff t) ↔ SameBut l s0 t) : SameBut l s0 (whereFlock f eff s) ↔ SameBut l s0 s := by
  unfold whereFlock
  simp only [↓same_ite, ↓he, ite_self]

theorem same_writeAssert {l : List Part} {s0 : State} (v : Word) (s : State)
    (h : [Part.freeCount, .mbx, .shep, .tally, .xing] ++ evs .mbx [0, 1, 2] ++ evs .shep [0, 11] ⊆ l) : SameBut l s0 (writeAssert v s) ↔ SameBut l s0 s := by
  simp only [evs, List.map_cons, List.map_nil, List.cons_append, List.nil_append, List.append_nil, List.cons_subset, List.nil_subset, and_true, and_self] at h
  unfold writeAssert
  repeat' first
    | simp only [↓same_ite, ↓same_record, takeFreeWord, ↓same_haltCore, h, or_true, true_or, ite_self, evs, List.map_cons, List.map_nil, List.cons_append, List.nil_append, List.append_nil, List.cons_subset, List.nil_subset, and_true, and_self]
    | with_reducible refine Iff.trans (same_forAll (fun k t => ?_)) ?_
    | with_reducible refine Iff.trans (same_foldl (fun k t => ?_)) ?_
    | split
    | with_reducible exact Iff.rfl

theorem same_writeBellLoad {l : List Part} {s0 s : State} (v : Word)
    (h : [Part.fold, .lc, .mus, .nowRegs, .regions, .root, .time] ++ evs .bell [0, 1] ++ evs .fold [5] ⊆ l) : SameBut l s0 (writeBellLoad v s) ↔ SameBut l s0 s := by
  simp only [evs, List.map_cons, List.map_nil, List.cons_append, List.nil_append, List.append_nil, List.cons_subset, List.nil_subset, and_true, and_self] at h
  unfold writeBellLoad
  repeat' first
    | simp only [↓same_ite, ↓same_record, ↓same_loadCounter, ↓same_nowPut, h, or_true, true_or, ite_self, evs, List.map_cons, List.map_nil, List.cons_append, List.nil_append, List.append_nil, List.cons_subset, List.nil_subset, and_true, and_self]
    | with_reducible refine Iff.trans (same_forAll (fun k t => ?_)) ?_
    | with_reducible refine Iff.trans (same_foldl (fun k t => ?_)) ?_
    | split
    | with_reducible exact Iff.rfl

theorem same_writeBellSnap {l : List Part} {s0 s : State} (p : Port) (v : Word)
    (h : [Part.nowRegs, .snaps] ⊆ l) : SameBut l s0 (writeBellSnap p v s) ↔ SameBut l s0 s := by
  simp only [evs, List.map_cons, List.map_nil, List.cons_append, List.nil_append, List.append_nil, List.cons_subset, List.nil_subset, and_true, and_self] at h
  unfold writeBellSnap
  repeat' first
    | simp only [↓same_ite, ↓same_record, ↓same_nowPut, ↓same_snapPut, h, or_true, true_or, ite_self, evs, List.map_cons, List.map_nil, List.cons_append, List.nil_append, List.append_nil, List.cons_subset, List.nil_subset, and_true, and_self]
    | with_reducible refine Iff.trans (same_forAll (fun k t => ?_)) ?_
    | with_reducible refine Iff.trans (same_foldl (fun k t => ?_)) ?_
    | split
    | with_reducible exact Iff.rfl

theorem same_writeCalCtrl {l : List Part} {s0 s : State} (v : Word)
    (h : [Part.cal, .flocks, .gens, .nowRegs, .regions] ++ evs .cal [6] ⊆ l) : SameBut l s0 (writeCalCtrl v s) ↔ SameBut l s0 s := by
  simp only [evs, List.map_cons, List.map_nil, List.cons_append, List.nil_append, List.append_nil, List.cons_subset, List.nil_subset, and_true, and_self] at h
  unfold writeCalCtrl
  repeat' first
    | simp only [↓same_ite, ↓same_record, ↓same_calAnswer, ↓same_flockDue, ↓same_nowPut, ↓same_raise, h, or_true, true_or, ite_self, evs, List.map_cons, List.map_nil, List.cons_append, List.nil_append, List.append_nil, List.cons_subset, List.nil_subset, and_true, and_self]
    | with_reducible refine Iff.trans (same_forAll (fun k t => ?_)) ?_
    | with_reducible refine Iff.trans (same_foldl (fun k t => ?_)) ?_
    | split
    | with_reducible exact Iff.rfl

theorem same_writeCfgCtrl {l : List Part} {s0 s : State} (w : Wr) (v : Word)
    (h : [Part.answers, .check] ++ evs .cfg [8] ⊆ l) : SameBut l s0 (writeCfgCtrl w v s) ↔ SameBut l s0 s := by
  simp only [evs, List.map_cons, List.map_nil, List.cons_append, List.nil_append, List.append_nil, List.cons_subset, List.nil_subset, and_true, and_self] at h
  unfold writeCfgCtrl
  repeat' first
    | simp only [↓same_ite, ↓same_record, ↓same_deny, h, or_true, true_or, ite_self, evs, List.map_cons, List.map_nil, List.cons_append, List.nil_append, List.append_nil, List.cons_subset, List.nil_subset, and_true, and_self]
    | with_reducible refine Iff.trans (same_forAll (fun k t => ?_)) ?_
    | with_reducible refine Iff.trans (same_foldl (fun k t => ?_)) ?_
    | split
    | with_reducible exact Iff.rfl

theorem same_writeCrkArm {l : List Part} {s0 s : State} (v : Word)
    (h : [Part.crook] ⊆ l) : SameBut l s0 (writeCrkArm v s) ↔ SameBut l s0 s := by
  simp only [evs, List.map_cons, List.map_nil, List.cons_append, List.nil_append, List.append_nil, List.cons_subset, List.nil_subset, and_true, and_self] at h
  unfold writeCrkArm
  repeat' first
    | simp only [↓same_ite, ↓same_record, h, or_true, true_or, ite_self, evs, List.map_cons, List.map_nil, List.cons_append, List.nil_append, List.append_nil, List.cons_subset, List.nil_subset, and_true, and_self]
    | with_reducible refine Iff.trans (same_forAll (fun k t => ?_)) ?_
    | with_reducible refine Iff.trans (same_foldl (fun k t => ?_)) ?_
    | split
    | with_reducible exact Iff.rfl

theorem same_writeCrkCmd {l : List Part} {s0 s : State} (w : Wr) (v : Word)
    (h : [Part.cal, .coreData, .crook, .flocks, .foTotal, .gens, .mbx, .mus, .nowRegs, .regions, .shep, .tally, .xing] ++ evs .cal [0, 1, 2, 7] ++ evs .flock [0, 2, 3, 4, 9, 10] ++ evs .mbx [0, 1, 2] ++ evs .rcg [1, 2, 3] ++ evs .shep [2, 11] ⊆ l) : SameBut l s0 (writeCrkCmd w v s) ↔ SameBut l s0 s := by
  simp only [evs, List.map_cons, List.map_nil, List.cons_append, List.nil_append, List.append_nil, List.cons_subset, List.nil_subset, and_true, and_self] at h
  unfold writeCrkCmd
  repeat' first
    | simp only [↓same_ite, ↓same_record, ↓same_crkAnswer, ↓same_crkFailover, ↓same_crkFlock, ↓same_crkRegion, ↓same_crookReset, ↓same_nowPut, h, or_true, true_or, ite_self, evs, List.map_cons, List.map_nil, List.cons_append, List.nil_append, List.append_nil, List.cons_subset, List.nil_subset, and_true, and_self]
    | with_reducible refine Iff.trans (same_forAll (fun k t => ?_)) ?_
    | with_reducible refine Iff.trans (same_foldl (fun k t => ?_)) ?_
    | split
    | with_reducible exact Iff.rfl

theorem same_writeDivApply {l : List Part} {s0 s : State} (v : Word)
    (h : [Part.answers, .nowRegs, .root] ++ evs .root [7, 8] ⊆ l) : SameBut l s0 (writeDivApply v s) ↔ SameBut l s0 s := by
  simp only [evs, List.map_cons, List.map_nil, List.cons_append, List.nil_append, List.append_nil, List.cons_subset, List.nil_subset, and_true, and_self] at h
  unfold writeDivApply
  repeat' first
    | simp only [↓same_ite, ↓same_record, ↓same_applyDividers, ↓same_deferApply, ↓same_nowPut, h, or_true, true_or, ite_self, evs, List.map_cons, List.map_nil, List.cons_append, List.nil_append, List.append_nil, List.cons_subset, List.nil_subset, and_true, and_self]
    | with_reducible refine Iff.trans (same_forAll (fun k t => ?_)) ?_
    | with_reducible refine Iff.trans (same_foldl (fun k t => ?_)) ?_
    | split
    | with_reducible exact Iff.rfl

theorem same_writeFcstCfg {l : List Part} {s0 : State} (v : Word) (s : State)
    (h : [Part.data, .fcst, .freeCount, .nowRegs] ++ evs .fcst [10] ⊆ l) : SameBut l s0 (writeFcstCfg v s) ↔ SameBut l s0 s := by
  simp only [evs, List.map_cons, List.map_nil, List.cons_append, List.nil_append, List.append_nil, List.cons_subset, List.nil_subset, and_true, and_self] at h
  unfold writeFcstCfg
  repeat' first
    | simp only [↓same_ite, ↓same_record, ↓same_freeBytes, ↓same_fcstReject, ↓same_nowPut, h, or_true, true_or, ite_self, evs, List.map_cons, List.map_nil, List.cons_append, List.nil_append, List.append_nil, List.cons_subset, List.nil_subset, and_true, and_self]
    | with_reducible refine Iff.trans (same_forAll (fun k t => ?_)) ?_
    | with_reducible refine Iff.trans (same_foldl (fun k t => ?_)) ?_
    | split
    | with_reducible exact Iff.rfl

theorem same_writeFcstCtrl {l : List Part} {s0 s : State} (v : Word)
    (h : [Part.fcst, .nowRegs] ++ evs .fcst [1, 3, 10] ⊆ l) : SameBut l s0 (writeFcstCtrl v s) ↔ SameBut l s0 s := by
  simp only [evs, List.map_cons, List.map_nil, List.cons_append, List.nil_append, List.append_nil, List.cons_subset, List.nil_subset, and_true, and_self] at h
  unfold writeFcstCtrl
  repeat' first
    | simp only [↓same_ite, ↓same_record, ↓same_fcstDoOpen, ↓same_fcstDoSeal, ↓same_fcstDoStop, ↓same_fcstDoSwap, ↓same_fcstReject, ↓same_nowPut, h, or_true, true_or, ite_self, evs, List.map_cons, List.map_nil, List.cons_append, List.nil_append, List.append_nil, List.cons_subset, List.nil_subset, and_true, and_self]
    | with_reducible refine Iff.trans (same_forAll (fun k t => ?_)) ?_
    | with_reducible refine Iff.trans (same_foldl (fun k t => ?_)) ?_
    | split
    | with_reducible exact Iff.rfl

theorem same_writeFcstStatReq {l : List Part} {s0 s : State} (p : Port) (v : Word)
    (h : [Part.nowRegs, .snaps] ⊆ l) : SameBut l s0 (writeFcstStatReq p v s) ↔ SameBut l s0 s := by
  simp only [evs, List.map_cons, List.map_nil, List.cons_append, List.nil_append, List.append_nil, List.cons_subset, List.nil_subset, and_true, and_self] at h
  unfold writeFcstStatReq
  repeat' first
    | simp only [↓same_ite, ↓same_record, ↓same_nowPut, ↓same_snapPut, h, or_true, true_or, ite_self, evs, List.map_cons, List.map_nil, List.cons_append, List.nil_append, List.append_nil, List.cons_subset, List.nil_subset, and_true, and_self]
    | with_reducible refine Iff.trans (same_forAll (fun k t => ?_)) ?_
    | with_reducible refine Iff.trans (same_foldl (fun k t => ?_)) ?_
    | split
    | with_reducible exact Iff.rfl

theorem same_writeGenCtrl {l : List Part} {s0 s : State} (f : Nat) (v : Word)
    (h : [Part.flocks, .gens, .nowRegs, .regions] ++ evs .flock [2, 3, 7, 8, 9, 10] ++ evs .rcg [1, 2, 3] ⊆ l) : SameBut l s0 (writeGenCtrl f v s) ↔ SameBut l s0 s := by
  simp only [evs, List.map_cons, List.map_nil, List.cons_append, List.nil_append, List.append_nil, List.cons_subset, List.nil_subset, and_true, and_self] at h
  unfold writeGenCtrl
  repeat' first
    | simp only [↓same_ite, ↓same_record, ↓same_doReinstate, ↓same_doRetest, ↓same_doRetire, ↓same_genAnswer, ↓same_nowPut, ↓same_setFlock, ↓same_updateSvc, h, or_true, true_or, ite_self, evs, List.map_cons, List.map_nil, List.cons_append, List.nil_append, List.append_nil, List.cons_subset, List.nil_subset, and_true, and_self]
    | with_reducible refine Iff.trans (same_forAll (fun k t => ?_)) ?_
    | with_reducible refine Iff.trans (same_foldl (fun k t => ?_)) ?_
    | split
    | with_reducible exact Iff.rfl

theorem same_writeMeshCtrl {l : List Part} {s0 s : State} (f : Nat) (v : Word)
    (h : [Part.flocks, .fold, .nowRegs, .regions, .xing] ++ evs .bell [4] ++ evs .flock [2, 9, 10] ++ evs .fold [9] ⊆ l) : SameBut l s0 (writeMeshCtrl f v s) ↔ SameBut l s0 s := by
  simp only [evs, List.map_cons, List.map_nil, List.cons_append, List.nil_append, List.append_nil, List.cons_subset, List.nil_subset, and_true, and_self] at h
  unfold writeMeshCtrl
  repeat' first
    | simp only [↓same_ite, ↓same_record, ↓same_nowPut, ↓same_pathBack, ↓same_pathGone, h, or_true, true_or, ite_self, evs, List.map_cons, List.map_nil, List.cons_append, List.nil_append, List.append_nil, List.cons_subset, List.nil_subset, and_true, and_self]
    | with_reducible refine Iff.trans (same_forAll (fun k t => ?_)) ?_
    | with_reducible refine Iff.trans (same_foldl (fun k t => ?_)) ?_
    | split
    | with_reducible exact Iff.rfl

theorem same_writeFlockWord {l : List Part} {s0 s : State} (f off : Nat) (v : Word)
    (h : [Part.bellWritten, .check, .flocks, .fold, .gens, .nowRegs, .regions, .xing] ++ evs .bell [4] ++ evs .flock [2, 3, 7, 8, 9, 10] ++ evs .fold [9] ++ evs .rcg [1, 2, 3] ⊆ l) : SameBut l s0 (writeFlockWord f off v s) ↔ SameBut l s0 s := by
  simp only [evs, List.map_cons, List.map_nil, List.cons_append, List.nil_append, List.append_nil, List.cons_subset, List.nil_subset, and_true, and_self] at h
  unfold writeFlockWord
  repeat' first
    | simp only [↓same_ite, ↓same_record, ↓same_bellPut, ↓same_writeGenCtrl, ↓same_writeMeshCtrl, h, or_true, true_or, ite_self, evs, List.map_cons, List.map_nil, List.cons_append, List.nil_append, List.append_nil, List.cons_subset, List.nil_subset, and_true, and_self]
    | with_reducible refine Iff.trans (same_forAll (fun k t => ?_)) ?_
    | with_reducible refine Iff.trans (same_foldl (fun k t => ?_)) ?_
    | split
    | with_reducible exact Iff.rfl

theorem same_writeFoldCtrl {l : List Part} {s0 s : State} (v : Word)
    (h : [Part.fold, .nowRegs] ++ evs .fold [5] ⊆ l) : SameBut l s0 (writeFoldCtrl v s) ↔ SameBut l s0 s := by
  simp only [evs, List.map_cons, List.map_nil, List.cons_append, List.nil_append, List.append_nil, List.cons_subset, List.nil_subset, and_true, and_self] at h
  unfold writeFoldCtrl
  repeat' first
    | simp only [↓same_ite, ↓same_record, ↓same_nowPut, ↓same_rejectStart, h, or_true, true_or, ite_self, evs, List.map_cons, List.map_nil, List.cons_append, List.nil_append, List.append_nil, List.cons_subset, List.nil_subset, and_true, and_self]
    | with_reducible refine Iff.trans (same_forAll (fun k t => ?_)) ?_
    | with_reducible refine Iff.trans (same_foldl (fun k t => ?_)) ?_
    | split
    | with_reducible exact Iff.rfl

theorem same_writeFoldExclude {l : List Part} {s0 s : State} (v : Word)
    (h : [Part.flocks, .fold, .gens, .nowRegs, .regions, .xing] ++ evs .flock [2, 3, 9, 10] ++ evs .fold [12] ++ evs .rcg [1, 2, 3] ⊆ l) : SameBut l s0 (writeFoldExclude v s) ↔ SameBut l s0 s := by
  simp only [evs, List.map_cons, List.map_nil, List.cons_append, List.nil_append, List.append_nil, List.cons_subset, List.nil_subset, and_true, and_self] at h
  unfold writeFoldExclude
  repeat' first
    | simp only [↓same_ite, ↓same_record, ↓same_exclAnswer, ↓same_leaveContract, ↓same_nowPut, ↓same_raise, ↓same_setRegion, ↓same_unclaim, h, or_true, true_or, ite_self, evs, List.map_cons, List.map_nil, List.cons_append, List.nil_append, List.append_nil, List.cons_subset, List.nil_subset, and_true, and_self]
    | with_reducible refine Iff.trans (same_forAll (fun k t => ?_)) ?_
    | with_reducible refine Iff.trans (same_foldl (fun k t => ?_)) ?_
    | split
    | with_reducible exact Iff.rfl

theorem same_writeFoldLogSel {l : List Part} {s0 s : State} (p : Port) (v : Word)
    (h : [Part.logs, .nowRegs] ⊆ l) : SameBut l s0 (writeFoldLogSel p v s) ↔ SameBut l s0 s := by
  simp only [evs, List.map_cons, List.map_nil, List.cons_append, List.nil_append, List.append_nil, List.cons_subset, List.nil_subset, and_true, and_self] at h
  unfold writeFoldLogSel
  repeat' first
    | simp only [↓same_ite, ↓same_record, ↓same_nowPut, h, or_true, true_or, ite_self, evs, List.map_cons, List.map_nil, List.cons_append, List.nil_append, List.append_nil, List.cons_subset, List.nil_subset, and_true, and_self]
    | with_reducible refine Iff.trans (same_forAll (fun k t => ?_)) ?_
    | with_reducible refine Iff.trans (same_foldl (fun k t => ?_)) ?_
    | split
    | with_reducible exact Iff.rfl

theorem same_writeFoldStatReq {l : List Part} {s0 s : State} (p : Port) (v : Word)
    (h : [Part.nowRegs, .snaps] ⊆ l) : SameBut l s0 (writeFoldStatReq p v s) ↔ SameBut l s0 s := by
  simp only [evs, List.map_cons, List.map_nil, List.cons_append, List.nil_append, List.append_nil, List.cons_subset, List.nil_subset, and_true, and_self] at h
  unfold writeFoldStatReq
  repeat' first
    | simp only [↓same_ite, ↓same_record, ↓same_nowPut, ↓same_snapPut, h, or_true, true_or, ite_self, evs, List.map_cons, List.map_nil, List.cons_append, List.nil_append, List.append_nil, List.cons_subset, List.nil_subset, and_true, and_self]
    | with_reducible refine Iff.trans (same_forAll (fun k t => ?_)) ?_
    | with_reducible refine Iff.trans (same_foldl (fun k t => ?_)) ?_
    | split
    | with_reducible exact Iff.rfl

theorem same_writeFoldTether {l : List Part} {s0 s : State} (v : Word)
    (h : [Part.nowRegs] ++ evs .fold [6] ⊆ l) : SameBut l s0 (writeFoldTether v s) ↔ SameBut l s0 s := by
  simp only [evs, List.map_cons, List.map_nil, List.cons_append, List.nil_append, List.append_nil, List.cons_subset, List.nil_subset, and_true, and_self] at h
  unfold writeFoldTether
  repeat' first
    | simp only [↓same_ite, ↓same_record, ↓same_nowPut, ↓same_raise, h, or_true, true_or, ite_self, evs, List.map_cons, List.map_nil, List.cons_append, List.nil_append, List.append_nil, List.cons_subset, List.nil_subset, and_true, and_self]
    | with_reducible refine Iff.trans (same_forAll (fun k t => ?_)) ?_
    | with_reducible refine Iff.trans (same_foldl (fun k t => ?_)) ?_
    | split
    | with_reducible exact Iff.rfl

theorem same_writeKick {l : List Part} {s0 s : State} (v : Word)
    (h : [Part.shep] ⊆ l) : SameBut l s0 (writeKick v s) ↔ SameBut l s0 s := by
  simp only [evs, List.map_cons, List.map_nil, List.cons_append, List.nil_append, List.append_nil, List.cons_subset, List.nil_subset, and_true, and_self] at h
  unfold writeKick
  repeat' first
    | simp only [↓same_ite, ↓same_record, h, or_true, true_or, ite_self, evs, List.map_cons, List.map_nil, List.cons_append, List.nil_append, List.append_nil, List.cons_subset, List.nil_subset, and_true, and_self]
    | with_reducible refine Iff.trans (same_forAll (fun k t => ?_)) ?_
    | with_reducible refine Iff.trans (same_foldl (fun k t => ?_)) ?_
    | split
    | with_reducible exact Iff.rfl

theorem same_writeLcCtrl {l : List Part} {s0 s : State} (v : Word)
    (h : [Part.lc, .nowRegs] ++ evs .lc [6] ⊆ l) : SameBut l s0 (writeLcCtrl v s) ↔ SameBut l s0 s := by
  simp only [evs, List.map_cons, List.map_nil, List.cons_append, List.nil_append, List.append_nil, List.cons_subset, List.nil_subset, and_true, and_self] at h
  unfold writeLcCtrl
  repeat' first
    | simp only [↓same_ite, ↓same_record, ↓same_performLc, h, or_true, true_or, ite_self, evs, List.map_cons, List.map_nil, List.cons_append, List.nil_append, List.append_nil, List.cons_subset, List.nil_subset, and_true, and_self]
    | with_reducible refine Iff.trans (same_forAll (fun k t => ?_)) ?_
    | with_reducible refine Iff.trans (same_foldl (fun k t => ?_)) ?_
    | split
    | with_reducible exact Iff.rfl

theorem same_writeMbxCtrl {l : List Part} {s0 : State} (m : Nat) (v : Word) (s : State)
    (h : [Part.crook, .mbx] ++ evs .mbx [m, 3 + m] ⊆ l) : SameBut l s0 (writeMbxCtrl m v s) ↔ SameBut l s0 s := by
  simp only [evs, List.map_cons, List.map_nil, List.cons_append, List.nil_append, List.append_nil, List.cons_subset, List.nil_subset, and_true, and_self] at h
  unfold writeMbxCtrl
  repeat' first
    | simp only [↓same_ite, ↓same_record, ↓same_mbxPost, ↓same_mbxUnpost, h, or_true, true_or, ite_self, evs, List.map_cons, List.map_nil, List.cons_append, List.nil_append, List.append_nil, List.cons_subset, List.nil_subset, and_true, and_self]
    | with_reducible refine Iff.trans (same_forAll (fun k t => ?_)) ?_
    | with_reducible refine Iff.trans (same_foldl (fun k t => ?_)) ?_
    | split
    | with_reducible exact Iff.rfl

theorem same_writeMbox {l : List Part} {s0 : State} (w : Wr) (m off : Nat) (v : Word) (s : State)
    (h : [Part.crook, .mbx] ++ evs .mbx [m, 3 + m, 6] ⊆ l) : SameBut l s0 (writeMbox w m off v s) ↔ SameBut l s0 s := by
  simp only [evs, List.map_cons, List.map_nil, List.cons_append, List.nil_append, List.append_nil, List.cons_subset, List.nil_subset, and_true, and_self] at h
  unfold writeMbox
  split
  · exact same_mbxWrite _ _ _ _ (by simp only [h, evs, List.map_cons, List.map_nil, List.cons_append, List.nil_append, List.append_nil, List.cons_subset, List.nil_subset, and_true, and_self]) (fun t => same_writeMbxCtrl _ _ _ (by simp only [h, evs, List.map_cons, List.map_nil, List.cons_append, List.nil_append, List.append_nil, List.cons_subset, List.nil_subset, and_true, and_self]))
  · split
    · refine same_mbxWrite _ _ _ _ (by simp only [h, evs, List.map_cons, List.map_nil, List.cons_append, List.nil_append, List.append_nil, List.cons_subset, List.nil_subset, and_true, and_self]) (fun t => same_whileIdle _ _ _ (by simp only [h, evs, List.map_cons, List.map_nil, List.cons_append, List.nil_append, List.append_nil, List.cons_subset, List.nil_subset, and_true, and_self]) (fun u => ?_))
      simp only [↓same_setMbox, h, evs, List.map_cons, List.map_nil, List.cons_append, List.nil_append, List.append_nil, List.cons_subset, List.nil_subset, and_true, and_self]
    · split
      · refine same_mbxWrite _ _ _ _ (by simp only [h, evs, List.map_cons, List.map_nil, List.cons_append, List.nil_append, List.append_nil, List.cons_subset, List.nil_subset, and_true, and_self]) (fun t => same_whileIdle _ _ _ (by simp only [h, evs, List.map_cons, List.map_nil, List.cons_append, List.nil_append, List.append_nil, List.cons_subset, List.nil_subset, and_true, and_self]) (fun u => ?_))
        simp only [↓same_setMbox, h, evs, List.map_cons, List.map_nil, List.cons_append, List.nil_append, List.append_nil, List.cons_subset, List.nil_subset, and_true, and_self]
      · split
        · exact same_mbxWrite _ _ _ _ (by simp only [h, evs, List.map_cons, List.map_nil, List.cons_append, List.nil_append, List.append_nil, List.cons_subset, List.nil_subset, and_true, and_self]) (fun t => Iff.rfl)
        · exact Iff.rfl

theorem same_writeRcgBmeas {l : List Part} {s0 s : State} (v : Word)
    (h : [Part.bmeas, .flocks, .gens, .nowRegs] ++ evs .flock [2, 3, 9, 10] ⊆ l) : SameBut l s0 (writeRcgBmeas v s) ↔ SameBut l s0 s := by
  simp only [evs, List.map_cons, List.map_nil, List.cons_append, List.nil_append, List.append_nil, List.cons_subset, List.nil_subset, and_true, and_self] at h
  unfold writeRcgBmeas
  repeat' first
    | simp only [↓same_ite, ↓same_record, ↓same_nowPut, ↓same_startBmeas, h, or_true, true_or, ite_self, evs, List.map_cons, List.map_nil, List.cons_append, List.nil_append, List.append_nil, List.cons_subset, List.nil_subset, and_true, and_self]
    | with_reducible refine Iff.trans (same_forAll (fun k t => ?_)) ?_
    | with_reducible refine Iff.trans (same_foldl (fun k t => ?_)) ?_
    | split
    | with_reducible exact Iff.rfl

theorem same_writeRcgSel {l : List Part} {s0 s : State} (p : Port) (v : Word)
    (h : [Part.nowRegs, .snaps] ⊆ l) : SameBut l s0 (writeRcgSel p v s) ↔ SameBut l s0 s := by
  simp only [evs, List.map_cons, List.map_nil, List.cons_append, List.nil_append, List.append_nil, List.cons_subset, List.nil_subset, and_true, and_self] at h
  unfold writeRcgSel
  repeat' first
    | simp only [↓same_ite, ↓same_record, ↓same_nowPut, ↓same_snapPut, h, or_true, true_or, ite_self, evs, List.map_cons, List.map_nil, List.cons_append, List.nil_append, List.append_nil, List.cons_subset, List.nil_subset, and_true, and_self]
    | with_reducible refine Iff.trans (same_forAll (fun k t => ?_)) ?_
    | with_reducible refine Iff.trans (same_foldl (fun k t => ?_)) ?_
    | split
    | with_reducible exact Iff.rfl

theorem same_writeRootAge {l : List Part} {s0 s : State} (v : Word)
    (h : [Part.mus, .nowRegs] ⊆ l) : SameBut l s0 (writeRootAge v s) ↔ SameBut l s0 s := by
  simp only [evs, List.map_cons, List.map_nil, List.cons_append, List.nil_append, List.append_nil, List.cons_subset, List.nil_subset, and_true, and_self] at h
  unfold writeRootAge
  repeat' first
    | simp only [↓same_ite, ↓same_record, ↓same_nowPut, h, or_true, true_or, ite_self, evs, List.map_cons, List.map_nil, List.cons_append, List.nil_append, List.append_nil, List.cons_subset, List.nil_subset, and_true, and_self]
    | with_reducible refine Iff.trans (same_forAll (fun k t => ?_)) ?_
    | with_reducible refine Iff.trans (same_foldl (fun k t => ?_)) ?_
    | split
    | with_reducible exact Iff.rfl

theorem same_writeRootBtab {l : List Part} {s0 s : State} (p : Port) (v : Word)
    (h : [Part.retention, .root] ++ evs .root [8] ⊆ l) : SameBut l s0 (writeRootBtab p v s) ↔ SameBut l s0 s := by
  simp only [evs, List.map_cons, List.map_nil, List.cons_append, List.nil_append, List.append_nil, List.cons_subset, List.nil_subset, and_true, and_self] at h
  unfold writeRootBtab
  repeat' first
    | simp only [↓same_ite, ↓same_record, ↓same_enableSyn, ↓same_setSyn, h, or_true, true_or, ite_self, evs, List.map_cons, List.map_nil, List.cons_append, List.nil_append, List.append_nil, List.cons_subset, List.nil_subset, and_true, and_self]
    | with_reducible refine Iff.trans (same_forAll (fun k t => ?_)) ?_
    | with_reducible refine Iff.trans (same_foldl (fun k t => ?_)) ?_
    | split
    | with_reducible exact Iff.rfl

theorem same_writeRootCtrl {l : List Part} {s0 s : State} (v : Word)
    (h : [Part.nowRegs, .root] ++ evs .root [2, 8] ⊆ l) : SameBut l s0 (writeRootCtrl v s) ↔ SameBut l s0 s := by
  simp only [evs, List.map_cons, List.map_nil, List.cons_append, List.nil_append, List.append_nil, List.cons_subset, List.nil_subset, and_true, and_self] at h
  unfold writeRootCtrl
  repeat' first
    | simp only [↓same_ite, ↓same_record, ↓same_enableSyn, ↓same_nowPut, ↓same_prefAct, ↓same_setSyn, h, or_true, true_or, ite_self, evs, List.map_cons, List.map_nil, List.cons_append, List.nil_append, List.append_nil, List.cons_subset, List.nil_subset, and_true, and_self]
    | with_reducible refine Iff.trans (same_forAll (fun k t => ?_)) ?_
    | with_reducible refine Iff.trans (same_foldl (fun k t => ?_)) ?_
    | split
    | with_reducible exact Iff.rfl

theorem same_writeRootMeas {l : List Part} {s0 s : State} (p : Port) (v : Word)
    (h : [Part.nowRegs, .root] ⊆ l) : SameBut l s0 (writeRootMeas p v s) ↔ SameBut l s0 s := by
  simp only [evs, List.map_cons, List.map_nil, List.cons_append, List.nil_append, List.append_nil, List.cons_subset, List.nil_subset, and_true, and_self] at h
  unfold writeRootMeas
  repeat' first
    | simp only [↓same_ite, ↓same_record, ↓same_performMeas, h, or_true, true_or, ite_self, evs, List.map_cons, List.map_nil, List.cons_append, List.nil_append, List.append_nil, List.cons_subset, List.nil_subset, and_true, and_self]
    | with_reducible refine Iff.trans (same_forAll (fun k t => ?_)) ?_
    | with_reducible refine Iff.trans (same_foldl (fun k t => ?_)) ?_
    | split
    | with_reducible exact Iff.rfl

theorem same_writeShepBankCtrl {l : List Part} {s0 s : State} (v : Word)
    (h : [Part.nowRegs, .shep] ++ evs .shep [4, 6, 12] ⊆ l) : SameBut l s0 (writeShepBankCtrl v s) ↔ SameBut l s0 s := by
  simp only [evs, List.map_cons, List.map_nil, List.cons_append, List.nil_append, List.append_nil, List.cons_subset, List.nil_subset, and_true, and_self] at h
  unfold writeShepBankCtrl
  repeat' first
    | simp only [↓same_ite, ↓same_record, ↓same_nowPut, ↓same_swDoOpen, ↓same_swDoSeal, ↓same_swDoSwap, ↓same_swReject, h, or_true, true_or, ite_self, evs, List.map_cons, List.map_nil, List.cons_append, List.nil_append, List.append_nil, List.cons_subset, List.nil_subset, and_true, and_self]
    | with_reducible refine Iff.trans (same_forAll (fun k t => ?_)) ?_
    | with_reducible refine Iff.trans (same_foldl (fun k t => ?_)) ?_
    | split
    | with_reducible exact Iff.rfl

theorem same_writeTallyUnit {l : List Part} {s0 : State} (w : Wr) (u off : Nat) (v : Word) (s : State)
    (h : [Part.answers, .check, .nowRegs, .tally] ++ evs .cfg [8] ++ evs .tally [u, 4, 5, 7] ⊆ l) : SameBut l s0 (writeTallyUnit w u off v s) ↔ SameBut l s0 s := by
  simp only [evs, List.map_cons, List.map_nil, List.cons_append, List.nil_append, List.append_nil, List.cons_subset, List.nil_subset, and_true, and_self] at h
  unfold writeTallyUnit
  repeat' first
    | simp only [↓same_ite, ↓same_record, ↓same_writeTallyCmd, ↓same_nowPut, ↓same_notOwner, ↓same_deny, h, or_true, true_or, ite_self, evs, List.map_cons, List.map_nil, List.cons_append, List.nil_append, List.append_nil, List.cons_subset, List.nil_subset, and_true, and_self]
    | with_reducible refine Iff.trans (same_forAll (fun k t => ?_)) ?_
    | with_reducible refine Iff.trans (same_foldl (fun k t => ?_)) ?_
    | split
    | with_reducible exact Iff.rfl

theorem same_writeTodCtrl {l : List Part} {s0 s : State} (v : Word)
    (h : [Part.mus, .nowRegs] ⊆ l) : SameBut l s0 (writeTodCtrl v s) ↔ SameBut l s0 s := by
  simp only [evs, List.map_cons, List.map_nil, List.cons_append, List.nil_append, List.append_nil, List.cons_subset, List.nil_subset, and_true, and_self] at h
  unfold writeTodCtrl
  repeat' first
    | simp only [↓same_ite, ↓same_record, ↓same_nowPut, h, or_true, true_or, ite_self, evs, List.map_cons, List.map_nil, List.cons_append, List.nil_append, List.append_nil, List.cons_subset, List.nil_subset, and_true, and_self]
    | with_reducible refine Iff.trans (same_forAll (fun k t => ?_)) ?_
    | with_reducible refine Iff.trans (same_foldl (fun k t => ?_)) ?_
    | split
    | with_reducible exact Iff.rfl

theorem same_writeXingAudit {l : List Part} {s0 s : State} (v : Word)
    (h : [Part.nowRegs, .xing] ⊆ l) : SameBut l s0 (writeXingAudit v s) ↔ SameBut l s0 s := by
  simp only [evs, List.map_cons, List.map_nil, List.cons_append, List.nil_append, List.append_nil, List.cons_subset, List.nil_subset, and_true, and_self] at h
  unfold writeXingAudit
  repeat' first
    | simp only [↓same_ite, ↓same_record, ↓same_nowPut, h, or_true, true_or, ite_self, evs, List.map_cons, List.map_nil, List.cons_append, List.nil_append, List.append_nil, List.cons_subset, List.nil_subset, and_true, and_self]
    | with_reducible refine Iff.trans (same_forAll (fun k t => ?_)) ?_
    | with_reducible refine Iff.trans (same_foldl (fun k t => ?_)) ?_
    | split
    | with_reducible exact Iff.rfl

theorem same_writeXingCfg {l : List Part} {s0 s : State} (v : Word)
    (h : [Part.nowRegs] ++ evs .xing [6, 9] ⊆ l) : SameBut l s0 (writeXingCfg v s) ↔ SameBut l s0 s := by
  simp only [evs, List.map_cons, List.map_nil, List.cons_append, List.nil_append, List.append_nil, List.cons_subset, List.nil_subset, and_true, and_self] at h
  unfold writeXingCfg
  repeat' first
    | simp only [↓same_ite, ↓same_record, ↓same_nowPut, ↓same_raise, h, or_true, true_or, ite_self, evs, List.map_cons, List.map_nil, List.cons_append, List.nil_append, List.append_nil, List.cons_subset, List.nil_subset, and_true, and_self]
    | with_reducible refine Iff.trans (same_forAll (fun k t => ?_)) ?_
    | with_reducible refine Iff.trans (same_foldl (fun k t => ?_)) ?_
    | split
    | with_reducible exact Iff.rfl

theorem same_writeXingSel {l : List Part} {s0 s : State} (p : Port) (v : Word)
    (h : [Part.nowRegs, .snaps] ⊆ l) : SameBut l s0 (writeXingSel p v s) ↔ SameBut l s0 s := by
  simp only [evs, List.map_cons, List.map_nil, List.cons_append, List.nil_append, List.append_nil, List.cons_subset, List.nil_subset, and_true, and_self] at h
  unfold writeXingSel
  repeat' first
    | simp only [↓same_ite, ↓same_record, ↓same_nowPut, ↓same_snapPut, h, or_true, true_or, ite_self, evs, List.map_cons, List.map_nil, List.cons_append, List.nil_append, List.append_nil, List.cons_subset, List.nil_subset, and_true, and_self]
    | with_reducible refine Iff.trans (same_forAll (fun k t => ?_)) ?_
    | with_reducible refine Iff.trans (same_foldl (fun k t => ?_)) ?_
    | split
    | with_reducible exact Iff.rfl

theorem same_writeZoneBtab {l : List Part} {s0 s : State} (sel : Word) (v : Word)
    (h : [Part.bellWritten, .check] ⊆ l) : SameBut l s0 (writeZoneBtab sel v s) ↔ SameBut l s0 s := by
  simp only [evs, List.map_cons, List.map_nil, List.cons_append, List.nil_append, List.append_nil, List.cons_subset, List.nil_subset, and_true, and_self] at h
  unfold writeZoneBtab
  repeat' first
    | simp only [↓same_ite, ↓same_record, ↓same_bellPut, h, or_true, true_or, ite_self, evs, List.map_cons, List.map_nil, List.cons_append, List.nil_append, List.append_nil, List.cons_subset, List.nil_subset, and_true, and_self]
    | with_reducible refine Iff.trans (same_forAll (fun k t => ?_)) ?_
    | with_reducible refine Iff.trans (same_foldl (fun k t => ?_)) ?_
    | split
    | with_reducible exact Iff.rfl

theorem same_writeZoneStatReq {l : List Part} {s0 s : State} (p : Port) (v : Word)
    (h : [Part.nowRegs, .snaps] ⊆ l) : SameBut l s0 (writeZoneStatReq p v s) ↔ SameBut l s0 s := by
  simp only [evs, List.map_cons, List.map_nil, List.cons_append, List.nil_append, List.append_nil, List.cons_subset, List.nil_subset, and_true, and_self] at h
  unfold writeZoneStatReq
  repeat' first
    | simp only [↓same_ite, ↓same_record, ↓same_nowPut, ↓same_snapPut, h, or_true, true_or, ite_self, evs, List.map_cons, List.map_nil, List.cons_append, List.nil_append, List.append_nil, List.cons_subset, List.nil_subset, and_true, and_self]
    | with_reducible refine Iff.trans (same_forAll (fun k t => ?_)) ?_
    | with_reducible refine Iff.trans (same_foldl (fun k t => ?_)) ?_
    | split
    | with_reducible exact Iff.rfl

end Sys2Proof.Machine
end

