-- ==== Sys2Proof/Laws/FrameBus.lean ====
section
/-!
SUPPORT. The register bus and the slow-clock edge: what a write at any address, the writes that wait, and an edge of
the clock may change is `busParts`.
-/
namespace Sys2Proof.Machine
open Sys2Proof

theorem allEvents_reg (b : Block) : Part.eventReg b ∈ allEvents := by cases b <;> decide

theorem allEvents_bit (b : Block) {k : Nat} (h : k < 24) : Part.event b k ∈ allEvents := by
  have : ∀ b : Block, b ∈ allBlocks := by intro b; cases b <;> decide
  simp only [allEvents, List.mem_flatMap]
  exact ⟨b, this b, by simp [evs, h]⟩

theorem bus_events : allEvents ⊆ busParts := List.subset_append_right _ _

/-- Parts that are an event register, one of its 24 bits, or listed. -/
theorem sub_of {l ps : List Part} (h : allEvents ⊆ l)
    (hp : ∀ p ∈ ps, p ∈ l ∨ (∃ b, p = .eventReg b) ∨ ∃ b k, k < 24 ∧ p = .event b k) : ps ⊆ l := by
  intro p hm
  rcases hp p hm with h1 | ⟨b, rfl⟩ | ⟨b, k, hk, rfl⟩
  · exact h1
  · exact h (allEvents_reg b)
  · exact h (allEvents_bit b hk)

/-- Every effect of an optional action leaves what SameBut sees. -/
def Acts (l : List Part) (s0 : State) (o : Option (State → State)) : Prop :=
  ∀ f, o = some f → ∀ s, SameBut l s0 (f s) ↔ SameBut l s0 s

theorem acts_none {l : List Part} {s0 : State} : Acts l s0 none := fun _ h => nomatch h

theorem acts_some {l : List Part} {s0 : State} {f : State → State} (h : ∀ s, SameBut l s0 (f s) ↔ SameBut l s0 s) :
    Acts l s0 (some f) := fun _ e => by cases e; exact h

theorem acts_ite {l : List Part} {s0 : State} {c : Prop} [Decidable c] {a b : Option (State → State)}
    (ha : c → Acts l s0 a) (hb : ¬ c → Acts l s0 b) : Acts l s0 (if c then a else b) := by
  split
  · next h => exact ha h
  · next h => exact hb h

theorem same_actingWrite {l : List Part} {s0 : State} (h : busParts ⊆ l) (now : State) (w : Wr) (a : Nat) (v : Word) :
    Acts l s0 (actingWrite now w a v) := by
  have sub : ∀ {ps : List Part}, (∀ p ∈ ps, p ∈ busParts ∨ (∃ b, p = .eventReg b) ∨ ∃ b k, k < 24 ∧ p = .event b k) → ps ⊆ l :=
    fun hp => List.Subset.trans (sub_of bus_events hp) h
  unfold actingWrite
  extract_lets p
  refine acts_ite (fun hc => acts_some (fun s => same_writeCfgCtrl (h := sub (by simp [evs, busParts])) ..)) (fun _ => ?_)
  refine acts_ite (fun hc => acts_some (fun s => same_writeBellSnap (h := sub (by simp [busParts])) ..)) (fun _ => ?_)
  refine acts_ite (fun hc => acts_some (fun s => same_writeBellLoad (h := sub (by simp [evs, busParts])) ..)) (fun _ => ?_)
  refine acts_ite (fun hc => acts_some (fun s => same_writeRootCtrl (h := sub (by simp [evs, busParts])) ..)) (fun _ => ?_)
  refine acts_ite (fun hc => acts_some (fun s => same_writeDivApply (h := sub (by simp [evs, busParts])) ..)) (fun _ => ?_)
  refine acts_ite (fun hc => acts_some (fun s => same_nowPut (h := sub (by simp [busParts])) ..)) (fun _ => ?_)
  refine acts_ite (fun hc => acts_some (fun s => same_writeRootBtab (h := sub (by simp [evs, busParts])) ..)) (fun _ => ?_)
  refine acts_ite (fun hc => acts_some (fun s => same_writeRootMeas (h := sub (by simp [busParts])) ..)) (fun _ => ?_)
  refine acts_ite (fun hc => acts_some (fun s => same_writeRootAge (h := sub (by simp [busParts])) ..)) (fun _ => ?_)
  refine acts_ite (fun hc => acts_some (fun s => same_writeFoldTether (h := sub (by simp [evs, busParts])) ..)) (fun _ => ?_)
  refine acts_ite (fun hc => acts_some (fun s => same_writeFoldCtrl (h := sub (by simp [evs, busParts])) ..)) (fun _ => ?_)
  refine acts_ite (fun hc => acts_some (fun s => same_writeFoldExclude (h := sub (by simp [evs, busParts])) ..)) (fun _ => ?_)
  refine acts_ite (fun hc => acts_some (fun s => same_writeFoldStatReq (h := sub (by simp [busParts])) ..)) (fun _ => ?_)
  refine acts_ite (fun hc => acts_some (fun s => same_writeFoldLogSel (h := sub (by simp [busParts])) ..)) (fun _ => ?_)
  refine acts_ite (fun hc => acts_some (fun s => same_writeRcgSel (h := sub (by simp [busParts])) ..)) (fun _ => ?_)
  refine acts_ite (fun hc => acts_some (fun s => same_writeRcgCfg (h := sub (by simp [evs, busParts])) ..)) (fun _ => ?_)
  refine acts_ite (fun hc => acts_some (fun s => same_writeRcgBmeas (h := sub (by simp [evs, busParts])) ..)) (fun _ => ?_)
  refine acts_ite (fun hc => acts_some (fun s => same_writeXingSel (h := sub (by simp [busParts])) ..)) (fun _ => ?_)
  refine acts_ite (fun hc => acts_some (fun s => same_writeXingCfg (h := sub (by simp [evs, busParts])) ..)) (fun _ => ?_)
  refine acts_ite (fun hc => acts_some (fun s => same_writeXingAudit (h := sub (by simp [busParts])) ..)) (fun _ => ?_)
  refine acts_ite (fun hc => acts_some (fun s => same_writeFcstCfg (h := sub (by simp [evs, busParts])) ..)) (fun _ => ?_)
  refine acts_ite (fun hc => acts_some (fun s => same_writeFcstCtrl (h := sub (by simp [evs, busParts])) ..)) (fun _ => ?_)
  refine acts_ite (fun hc => acts_some (fun s => same_writeFcstStatReq (h := sub (by simp [busParts])) ..)) (fun _ => ?_)
  refine acts_ite (fun hc => acts_some (fun s => same_nowPut (h := sub (by simp [busParts])) ..)) (fun _ => ?_)
  refine acts_ite (fun hc => acts_some (fun s => same_writeZoneBtab (h := sub (by simp [busParts])) ..)) (fun _ => ?_)
  refine acts_ite (fun hc => acts_some (fun s => same_writeZoneStatReq (h := sub (by simp [busParts])) ..)) (fun _ => ?_)
  refine acts_ite (fun hc => acts_some (fun s => (same_evalClaims (h := sub (by simp [busParts])) ..).trans (same_writeTallyClaim (h := sub (by simp [evs, busParts])) ..))) (fun _ => ?_)
  refine acts_ite (fun hc => acts_some (fun s => same_writeTallyUnit (h := sub (by simp only [Bool.and_eq_true, decide_eq_true_eq] at hc; simp [evs, busParts]; omega)) ..)) (fun _ => ?_)
  refine acts_ite (fun hc => acts_some (fun s => same_writeCalCtrl (h := sub (by simp [evs, busParts])) ..)) (fun _ => ?_)
  refine acts_ite (fun hc => acts_some (fun s => same_writeTodCtrl (h := sub (by simp [busParts])) ..)) (fun _ => ?_)
  refine acts_ite (fun hc => acts_some (fun s => by split; exact same_writeAssert (h := sub (by simp [evs, busParts])) ..; exact Iff.rfl)) (fun _ => ?_)
  refine acts_ite (fun hc => acts_some (fun s => by split; exact same_writeKick (h := sub (by simp [busParts])) ..; exact Iff.rfl)) (fun _ => ?_)
  refine acts_ite (fun hc => acts_some (fun s => same_writeShepBankCtrl (h := sub (by simp [evs, busParts])) ..)) (fun _ => ?_)
  refine acts_ite (fun hc => acts_some (fun s => same_writeMbox (h := sub (by simp only [Bool.and_eq_true, decide_eq_true_eq] at hc; simp [evs, busParts]; omega)) ..)) (fun _ => ?_)
  refine acts_ite (fun hc => acts_some (fun s => same_writeCrkArm (h := sub (by simp [busParts])) ..)) (fun _ => ?_)
  refine acts_ite (fun hc => acts_some (fun s => same_writeCrkCmd (h := sub (by simp [evs, busParts])) ..)) (fun _ => ?_)
  refine acts_ite (fun hc => acts_some (fun s => same_writeLcCtrl (h := sub (by simp [evs, busParts])) ..)) (fun _ => ?_)
  refine acts_ite (fun hc => acts_some (fun s => same_writeFlockWord (h := sub (by simp [evs, busParts])) ..)) (fun _ => ?_)
  exact acts_none

theorem same_writeEffect {l : List Part} {s0 s : State} (h : busParts ⊆ l) (w : Wr) (a : Nat) (v : Word) :
    SameBut l s0 (writeEffect w a v s) ↔ SameBut l s0 s := by
  have sub : ∀ {ps : List Part}, (∀ p ∈ ps, p ∈ busParts ∨ (∃ b, p = .eventReg b) ∨ ∃ b k, k < 24 ∧ p = .event b k) → ps ⊆ l :=
    fun hp => List.Subset.trans (sub_of bus_events hp) h
  unfold writeEffect
  split
  · next f hf => exact same_actingWrite h _ w a v f hf s
  · split
    · next b _ =>
      exact same_clearEvents (h (bus_events (allEvents_reg b))) (fun k hk => h (bus_events (allEvents_bit b hk)))
    · split
      · exact Iff.rfl
      · split
        · exact same_bellPut _ _ (sub (by simp [busParts]))
        · exact same_nowPut _ _ (sub (by simp [busParts]))

theorem same_busWrite {l : List Part} {s0 s : State} (h : busParts ⊆ l) (w : Wr) (a : Nat) (v : Word) :
    SameBut l s0 (busWrite w a v s) ↔ SameBut l s0 s := by
  unfold busWrite
  refine same_regWrite (List.Subset.trans (sub_of bus_events ?_) h) (Or.inr (h (by simp [busParts]))) (fun t => ?_)
  · simp [writeParts, evs, busParts]
  · exact same_unlessClearWaits (h (by simp [busParts])) (Or.inr (h (by simp [busParts]))) (same_writeEffect h _ _ _)

theorem same_i2cWords {l : List Part} {s0 : State} (h : busParts ⊆ l) (off : Nat) (bytes : List (BitVec 8)) (s : State) :
    SameBut l s0 (i2cWords off bytes s) ↔ SameBut l s0 s := by
  unfold i2cWords
  split
  · exact (same_i2cWords h _ _ _).trans (same_busWrite h _ _ _)
  · exact Iff.rfl
  · exact same_busWrite h _ _ _

/-! ### The writes of a slow-clock edge -/

theorem same_waitMeaning {l : List Part} {s0 s : State} (h : busParts ⊆ l) (e : WaitWr) :
    SameBut l s0 (waitMeaning e s) ↔ SameBut l s0 s := by
  have sub : ∀ {ps : List Part}, (∀ p ∈ ps, p ∈ busParts ∨ (∃ b, p = .eventReg b) ∨ ∃ b k, k < 24 ∧ p = .event b k) → ps ⊆ l :=
    fun hp => List.Subset.trans (sub_of bus_events hp) h
  unfold waitMeaning
  split
  · next hc =>
    simp only [Bool.and_eq_true, decide_eq_true_eq] at hc
    exact same_writeTallyCmd (h := sub (by simp [evs, busParts]; omega)) ..
  · split
    · exact same_writeTallyClaim (h := sub (by simp [evs, busParts])) ..
    · split
      · exact same_writeRcgCfg (h := sub (by simp [evs, busParts])) ..
      · split
        · exact same_stepRootAge (h := sub (by simp [busParts])) ..
        · exact same_writeEffect h _ _ _

theorem same_waitEffect {l : List Part} {s0 s : State} (h : busParts ⊆ l) (e : WaitWr) :
    SameBut l s0 (waitEffect e s) ↔ SameBut l s0 s := by
  have sub : ∀ {ps : List Part}, (∀ p ∈ ps, p ∈ busParts ∨ (∃ b, p = .eventReg b) ∨ ∃ b k, k < 24 ∧ p = .event b k) → ps ⊆ l :=
    fun hp => List.Subset.trans (sub_of bus_events hp) h
  unfold waitEffect
  simp only [↓same_ite, ↓same_waitMeaning h, ↓same_deny (sub (ps := [.answers, .check] ++ evs .cfg [8]) (by simp [evs, busParts])),
    ↓same_raise (h (bus_events (allEvents_reg .cfg))) (h (bus_events (allEvents_bit .cfg (k := 5) (by decide)))), ite_self]

theorem same_takeCaptures {l : List Part} {s0 s : State} (h : busParts ⊆ l) :
    SameBut l s0 (takeCaptures s) ↔ SameBut l s0 s := by
  unfold takeCaptures
  refine (same_foldl (fun e t => same_waitEffect h e)).trans ?_
  have ha : Part.answers ∈ l := h (by simp [busParts])
  simp only [↓same_record, ha, or_true, true_or, and_self]

theorem same_performWaiting {l : List Part} {s0 s : State} (h : busParts ⊆ l) :
    SameBut l s0 (performWaiting s) ↔ SameBut l s0 s := by
  have ha : Part.answers ∈ l := h (by simp [busParts])
  unfold performWaiting
  extract_lets q
  split
  refine (same_foldl (fun e t => same_waitEffect h _)).trans ?_
  simp only [↓same_raiseIf (h (bus_events (allEvents_reg .cfg))) (h (bus_events (allEvents_bit .cfg (k := 6) (by decide)))),
    ↓same_record, ha, or_true, true_or, and_self]

theorem same_performAll {l : List Part} {s0 s : State} (h : busParts ⊆ l) :
    SameBut l s0 (performAll s) ↔ SameBut l s0 s := by
  have sub : ∀ {ps : List Part}, (∀ p ∈ ps, p ∈ busParts ∨ (∃ b, p = .eventReg b) ∨ ∃ b k, k < 24 ∧ p = .event b k) → ps ⊆ l :=
    fun hp => List.Subset.trans (sub_of bus_events hp) h
  have hm : Part.mus ∈ l := h (by simp [busParts])
  unfold performAll
  simp only [↓same_ite, ↓same_record, ↓same_requestedLoad (sub (by simp [evs, busParts])), same_performWaiting h, hm, or_true, true_or,
    and_self, ite_self]

theorem same_slowWork {l : List Part} {s0 s : State} (h : busParts ⊆ l) (seen : Tab EventReg) :
    SameBut l s0 (slowWork seen s) ↔ SameBut l s0 s := by
  have ha : Part.answers ∈ l := h (by simp [busParts])
  have ht : Part.tally ∈ l := h (by simp [busParts])
  have hl : Part.lc ∈ l := h (by simp [busParts])
  unfold slowWork
  rw [same_evalClaims (h := by simpa using ht), same_performAll h, same_islandCopies (h := by simpa using hl)]
  simp only [↓same_record, ha, or_true, true_or, and_self]

theorem same_slowEdge {l : List Part} {s0 s : State} (h : busParts ⊆ l) (before : State) :
    SameBut l s0 (slowEdge before s) ↔ SameBut l s0 s := by
  unfold slowEdge
  simp only [↓same_ite, same_slowWork h, ite_self]

/-- An edge of the clock that reaches the counter. -/
theorem same_deliverEdge {l : List Part} {s0 s : State} (h : busParts ⊆ l) (phases : List (Nat × Nat)) :
    SameBut l s0 (deliverEdge phases s) ↔ SameBut l s0 s := by
  have sub : ∀ {ps : List Part}, (∀ p ∈ ps, p ∈ busParts ∨ (∃ b, p = .eventReg b) ∨ ∃ b k, k < 24 ∧ p = .event b k) → ps ⊆ l :=
    fun hp => List.Subset.trans (sub_of bus_events hp) h
  unfold deliverEdge
  rw [same_slowEdge h, same_takeCaptures h, same_ledTick (h := sub (by simp [busParts])), same_arrivalsOver (h := sub (by simp [busParts])), same_keepUnit0 (h := sub (by simp [evs, busParts])),
    same_ppsWatch (h := sub (by simp [evs])), same_ppsFall (h := sub (by simp [busParts])),
    same_coreTick (h := sub (by simp [busParts])), same_rotate (h := sub (by simp [busParts])),
    same_pumpStep (h := sub (by simp [busParts])), same_crkHeld (h := sub (by simp [evs, busParts])),
    same_regionsTick (h := sub (by simp [evs, busParts])), same_forceEdge (h := sub (by simp [evs, busParts])), same_countEdge (h := sub (by simp [busParts]))]

theorem same_crystalEdge {l : List Part} {s0 s : State} (h : busParts ⊆ l) :
    SameBut l s0 (crystalEdge s) ↔ SameBut l s0 s := by
  have hr : Part.root ∈ l := h (by simp [busParts])
  have ht : Part.time ∈ l := h (by simp [busParts])
  unfold crystalEdge
  simp only [↓same_ite, ↓same_slowEdge h, ↓same_record, hr, ht, or_true, true_or, and_self, ite_self]
end Sys2Proof.Machine
end

