-- ==== Sys2Proof/Laws/PerInstr.lean ====
section
/-!
SUPPORT. One statement per command, about the command as syntax: a well-formed register-write command writes one
whole register of the 20-bit window (R440, R463), and the period's other writer is another port (R442).
-/
set_option Elab.async false

open Sys2Proof Sys2Proof.Machine

/-- A well-formed register-write command names a word of the window, and its rival is another port. -/
def Sys2Proof.Laws.Operands.Statement (i : Instr) : Prop :=
  ∀ (w : Wr) (a : Nat), regTarget i = some (w, a) → i.wellFormed = true → w.wellFormed = true ∧ a % 4 = 0 ∧ a < 2 ^ 20

theorem Sys2Proof.Laws.Operands.none_case {i : Instr} (h : regTarget i = none) : Sys2Proof.Laws.Operands.Statement i := by
  intro w a e
  rw [h] at e
  cases e

theorem Sys2Proof.Laws.Operands.write_case {i : Instr} {w : Wr} {a : Nat} (h : regTarget i = some (w, a))
    (p : i.wellFormed = true → w.wellFormed = true ∧ a % 4 = 0 ∧ a < 2 ^ 20) : Sys2Proof.Laws.Operands.Statement i := by
  intro w' a' e
  rw [h] at e
  cases e
  exact p

theorem Sys2Proof.Laws.Operands.flock_case {w : Wr} {f off : Nat} (h : (w.wellFormed && okFlock f) = true)
    (h4 : off % 4 = 0) (hl : off < 64) : w.wellFormed = true ∧ flockAddr f off % 4 = 0 ∧ flockAddr f off < 2 ^ 20 := by
  simp only [okFlock, Bool.and_eq_true, decide_eq_true_eq] at h
  refine ⟨h.1, ?_, ?_⟩ <;> simp only [flockAddr] <;> omega

theorem Sys2Proof.Laws.Operands.crystalQualified :
    Sys2Proof.Laws.Operands.Statement (.crystalQualified) := Sys2Proof.Laws.Operands.none_case rfl

theorem Sys2Proof.Laws.Operands.missingCrystalEdge :
    Sys2Proof.Laws.Operands.Statement (.missingCrystalEdge) := Sys2Proof.Laws.Operands.none_case rfl

theorem Sys2Proof.Laws.Operands.edgesResume :
    Sys2Proof.Laws.Operands.Statement .edgesResume := Sys2Proof.Laws.Operands.none_case rfl

theorem Sys2Proof.Laws.Operands.refLoss :
    Sys2Proof.Laws.Operands.Statement .refLoss := Sys2Proof.Laws.Operands.none_case rfl

theorem Sys2Proof.Laws.Operands.refReturn :
    Sys2Proof.Laws.Operands.Statement (.refReturn) := Sys2Proof.Laws.Operands.none_case rfl

theorem Sys2Proof.Laws.Operands.frozenOutputFail (x0 : Syn) (x1 : Nat) :
    Sys2Proof.Laws.Operands.Statement (.frozenOutputFail x0 x1) := Sys2Proof.Laws.Operands.none_case rfl

theorem Sys2Proof.Laws.Operands.lockLoss (x0 : Syn) (x1 : Int) (x2 : Int) (x3 : Bool) (x4 : Bool) (x5 : Nat) :
    Sys2Proof.Laws.Operands.Statement (.lockLoss x0 x1 x2 x3 x4 x5) := Sys2Proof.Laws.Operands.none_case rfl

theorem Sys2Proof.Laws.Operands.lockAcquired (x0 : Syn) :
    Sys2Proof.Laws.Operands.Statement (.lockAcquired x0) := Sys2Proof.Laws.Operands.none_case rfl

theorem Sys2Proof.Laws.Operands.synthQualified (x0 : Syn) :
    Sys2Proof.Laws.Operands.Statement (.synthQualified x0) := Sys2Proof.Laws.Operands.none_case rfl

theorem Sys2Proof.Laws.Operands.bypExit (x0 : Syn) (x1 : Bool) (x2 : Bool) :
    Sys2Proof.Laws.Operands.Statement (.bypExit x0 x1 x2) := Sys2Proof.Laws.Operands.none_case rfl

theorem Sys2Proof.Laws.Operands.prefWrite (x0 : Wr) (x1 : Word) :
    Sys2Proof.Laws.Operands.Statement (.prefWrite x0 x1) := Sys2Proof.Laws.Operands.write_case rfl
    (fun h => ⟨h, rfl, by decide⟩)

theorem Sys2Proof.Laws.Operands.spareEnWrite (x0 : Wr) (x1 : Word) :
    Sys2Proof.Laws.Operands.Statement (.spareEnWrite x0 x1) := Sys2Proof.Laws.Operands.write_case rfl
    (fun h => ⟨h, rfl, by decide⟩)

theorem Sys2Proof.Laws.Operands.bypassForce (x0 : Wr) (x1 : Word) :
    Sys2Proof.Laws.Operands.Statement (.bypassForce x0 x1) := Sys2Proof.Laws.Operands.write_case rfl
    (fun h => ⟨h, rfl, by decide⟩)

theorem Sys2Proof.Laws.Operands.divApply (x0 : Wr) (x1 : Word) :
    Sys2Proof.Laws.Operands.Statement (.divApply x0 x1) := Sys2Proof.Laws.Operands.write_case rfl
    (fun h => ⟨h, rfl, by decide⟩)

theorem Sys2Proof.Laws.Operands.rootBtabWrite (x0 : Wr) (x1 : Word) :
    Sys2Proof.Laws.Operands.Statement (.rootBtabWrite x0 x1) := Sys2Proof.Laws.Operands.write_case rfl
    (fun h => ⟨h, rfl, by decide⟩)

theorem Sys2Proof.Laws.Operands.rootMeas (x0 : Wr) (x1 : Word) :
    Sys2Proof.Laws.Operands.Statement (.rootMeas x0 x1) := Sys2Proof.Laws.Operands.write_case rfl
    (fun h => ⟨h, rfl, by decide⟩)

theorem Sys2Proof.Laws.Operands.rootMeasDone (x0 : BitVec 16) :
    Sys2Proof.Laws.Operands.Statement (.rootMeasDone x0) := Sys2Proof.Laws.Operands.none_case rfl

theorem Sys2Proof.Laws.Operands.rootAgeWrite (x0 : Wr) (x1 : Word) :
    Sys2Proof.Laws.Operands.Statement (.rootAgeWrite x0 x1) := Sys2Proof.Laws.Operands.write_case rfl
    (fun h => ⟨h, rfl, by decide⟩)

theorem Sys2Proof.Laws.Operands.ageSlewStep :
    Sys2Proof.Laws.Operands.Statement (.ageSlewStep) := Sys2Proof.Laws.Operands.none_case rfl

theorem Sys2Proof.Laws.Operands.syncInEdge (x0 : BitVec 16) :
    Sys2Proof.Laws.Operands.Statement (.syncInEdge x0) := Sys2Proof.Laws.Operands.none_case rfl

theorem Sys2Proof.Laws.Operands.bellSnapReq (x0 : Wr) (x1 : Word) :
    Sys2Proof.Laws.Operands.Statement (.bellSnapReq x0 x1) := Sys2Proof.Laws.Operands.write_case rfl
    (fun h => ⟨h, rfl, by decide⟩)

theorem Sys2Proof.Laws.Operands.bellLoad (x0 : Wr) (x1 : Word) :
    Sys2Proof.Laws.Operands.Statement (.bellLoad x0 x1) := Sys2Proof.Laws.Operands.write_case rfl
    (fun h => ⟨h, rfl, by decide⟩)

theorem Sys2Proof.Laws.Operands.broadcastFrame (x0 : Nat) (x1 : Nat) (x2 : BitVec 128) :
    Sys2Proof.Laws.Operands.Statement (.broadcastFrame x0 x1 x2) := Sys2Proof.Laws.Operands.none_case rfl

theorem Sys2Proof.Laws.Operands.pathLockDone (x0 : Nat) (x1 : Nat) (x2 : PathDelay) (x3 : BitVec 128) :
    Sys2Proof.Laws.Operands.Statement (.pathLockDone x0 x1 x2 x3) := Sys2Proof.Laws.Operands.none_case rfl

theorem Sys2Proof.Laws.Operands.deltaTrack (x0 : Nat) (x1 : Nat) (x2 : Bool) :
    Sys2Proof.Laws.Operands.Statement (.deltaTrack x0 x1 x2) := Sys2Proof.Laws.Operands.none_case rfl

theorem Sys2Proof.Laws.Operands.pathFail (x0 : Nat) (x1 : Nat) (x2 : PathFault) :
    Sys2Proof.Laws.Operands.Statement (.pathFail x0 x1 x2) := Sys2Proof.Laws.Operands.none_case rfl

theorem Sys2Proof.Laws.Operands.pathReturn (x0 : Nat) (x1 : Nat) :
    Sys2Proof.Laws.Operands.Statement (.pathReturn x0 x1) := Sys2Proof.Laws.Operands.none_case rfl

theorem Sys2Proof.Laws.Operands.meshDisable (x0 : Wr) (x1 : Nat) (x2 : Word) :
    Sys2Proof.Laws.Operands.Statement (.meshDisable x0 x1 x2) := Sys2Proof.Laws.Operands.write_case rfl
    (fun h => Sys2Proof.Laws.Operands.flock_case h (by decide) (by decide))

theorem Sys2Proof.Laws.Operands.foldStart (x0 : Wr) (x1 : Word) :
    Sys2Proof.Laws.Operands.Statement (.foldStart x0 x1) := Sys2Proof.Laws.Operands.write_case rfl
    (fun h => ⟨h, rfl, by decide⟩)

theorem Sys2Proof.Laws.Operands.bell :
    Sys2Proof.Laws.Operands.Statement (.bell) := Sys2Proof.Laws.Operands.none_case rfl

theorem Sys2Proof.Laws.Operands.call :
    Sys2Proof.Laws.Operands.Statement (.call) := Sys2Proof.Laws.Operands.none_case rfl

theorem Sys2Proof.Laws.Operands.graceTailStart :
    Sys2Proof.Laws.Operands.Statement (.graceTailStart) := Sys2Proof.Laws.Operands.none_case rfl

theorem Sys2Proof.Laws.Operands.regionPark (x0 : Nat) :
    Sys2Proof.Laws.Operands.Statement (.regionPark x0) := Sys2Proof.Laws.Operands.none_case rfl

theorem Sys2Proof.Laws.Operands.pull (x0 : Nat) :
    Sys2Proof.Laws.Operands.Statement (.pull x0) := Sys2Proof.Laws.Operands.none_case rfl

theorem Sys2Proof.Laws.Operands.tetherStop (x0 : Nat) :
    Sys2Proof.Laws.Operands.Statement (.tetherStop x0) := Sys2Proof.Laws.Operands.none_case rfl

theorem Sys2Proof.Laws.Operands.availInterlock (x0 : Nat) :
    Sys2Proof.Laws.Operands.Statement (.availInterlock x0) := Sys2Proof.Laws.Operands.none_case rfl

theorem Sys2Proof.Laws.Operands.roomStop (x0 : Nat) :
    Sys2Proof.Laws.Operands.Statement (.roomStop x0) := Sys2Proof.Laws.Operands.none_case rfl

theorem Sys2Proof.Laws.Operands.tetherStopRelease (x0 : Nat) :
    Sys2Proof.Laws.Operands.Statement (.tetherStopRelease x0) := Sys2Proof.Laws.Operands.none_case rfl

theorem Sys2Proof.Laws.Operands.excludeSet (x0 : Wr) (x1 : BitVec 13) (x2 : BitVec 8) :
    Sys2Proof.Laws.Operands.Statement (.excludeSet x0 x1 x2) := Sys2Proof.Laws.Operands.write_case rfl
    (fun h => ⟨h, rfl, by decide⟩)

theorem Sys2Proof.Laws.Operands.excludeClear (x0 : Wr) (x1 : BitVec 13) (x2 : BitVec 8) :
    Sys2Proof.Laws.Operands.Statement (.excludeClear x0 x1 x2) := Sys2Proof.Laws.Operands.write_case rfl
    (fun h => ⟨h, rfl, by decide⟩)

theorem Sys2Proof.Laws.Operands.foldTetherWrite (x0 : Wr) (x1 : Word) :
    Sys2Proof.Laws.Operands.Statement (.foldTetherWrite x0 x1) := Sys2Proof.Laws.Operands.write_case rfl
    (fun h => ⟨h, rfl, by decide⟩)

theorem Sys2Proof.Laws.Operands.foldStatReq (x0 : Wr) (x1 : Word) :
    Sys2Proof.Laws.Operands.Statement (.foldStatReq x0 x1) := Sys2Proof.Laws.Operands.write_case rfl
    (fun h => ⟨h, rfl, by decide⟩)

theorem Sys2Proof.Laws.Operands.foldLogSel (x0 : Wr) (x1 : Word) :
    Sys2Proof.Laws.Operands.Statement (.foldLogSel x0 x1) := Sys2Proof.Laws.Operands.write_case rfl
    (fun h => ⟨h, rfl, by decide⟩)

theorem Sys2Proof.Laws.Operands.windsockStretch (x0 : Nat) (x1 : Sample) :
    Sys2Proof.Laws.Operands.Statement (.windsockStretch x0 x1) := Sys2Proof.Laws.Operands.none_case rfl

theorem Sys2Proof.Laws.Operands.windsockHold (x0 : Nat) (x1 : BitVec 32) :
    Sys2Proof.Laws.Operands.Statement (.windsockHold x0 x1) := Sys2Proof.Laws.Operands.none_case rfl

theorem Sys2Proof.Laws.Operands.holdRelease (x0 : Nat) (x1 : BitVec 32) :
    Sys2Proof.Laws.Operands.Statement (.holdRelease x0 x1) := Sys2Proof.Laws.Operands.none_case rfl

theorem Sys2Proof.Laws.Operands.adviseOnset (x0 : Nat) (x1 : BitVec 32) :
    Sys2Proof.Laws.Operands.Statement (.adviseOnset x0 x1) := Sys2Proof.Laws.Operands.none_case rfl

theorem Sys2Proof.Laws.Operands.bandChangeStopEnd (x0 : Nat) :
    Sys2Proof.Laws.Operands.Statement (.bandChangeStopEnd x0) := Sys2Proof.Laws.Operands.none_case rfl

theorem Sys2Proof.Laws.Operands.rcgSel (x0 : Wr) (x1 : Word) :
    Sys2Proof.Laws.Operands.Statement (.rcgSel x0 x1) := Sys2Proof.Laws.Operands.write_case rfl
    (fun h => ⟨h, rfl, by decide⟩)

theorem Sys2Proof.Laws.Operands.rcgCfgWrite (x0 : Wr) (x1 : Word) :
    Sys2Proof.Laws.Operands.Statement (.rcgCfgWrite x0 x1) := Sys2Proof.Laws.Operands.write_case rfl
    (fun h => ⟨h, rfl, by decide⟩)

theorem Sys2Proof.Laws.Operands.rcgBmeas (x0 : Wr) (x1 : Word) :
    Sys2Proof.Laws.Operands.Statement (.rcgBmeas x0 x1) := Sys2Proof.Laws.Operands.write_case rfl
    (fun h => ⟨h, rfl, by decide⟩)

theorem Sys2Proof.Laws.Operands.rcgBmeasDone (x0 : List (Nat × List (Nat × Nat))) :
    Sys2Proof.Laws.Operands.Statement (.rcgBmeasDone x0) := Sys2Proof.Laws.Operands.none_case rfl

theorem Sys2Proof.Laws.Operands.bandRowWrite (x0 : Beat) :
    Sys2Proof.Laws.Operands.Statement (.bandRowWrite x0) := Sys2Proof.Laws.Operands.none_case rfl

theorem Sys2Proof.Laws.Operands.xingSel (x0 : Wr) (x1 : Word) :
    Sys2Proof.Laws.Operands.Statement (.xingSel x0 x1) := Sys2Proof.Laws.Operands.write_case rfl
    (fun h => ⟨h, rfl, by decide⟩)

theorem Sys2Proof.Laws.Operands.xingCfgWrite (x0 : Wr) (x1 : Word) :
    Sys2Proof.Laws.Operands.Statement (.xingCfgWrite x0 x1) := Sys2Proof.Laws.Operands.write_case rfl
    (fun h => ⟨h, rfl, by decide⟩)

theorem Sys2Proof.Laws.Operands.auditEnWrite (x0 : Wr) (x1 : Word) :
    Sys2Proof.Laws.Operands.Statement (.auditEnWrite x0 x1) := Sys2Proof.Laws.Operands.write_case rfl
    (fun h => ⟨h, rfl, by decide⟩)

theorem Sys2Proof.Laws.Operands.auditClear (x0 : Wr) (x1 : Word) :
    Sys2Proof.Laws.Operands.Statement (.auditClear x0 x1) := Sys2Proof.Laws.Operands.write_case rfl
    (fun h => ⟨h, rfl, by decide⟩)

theorem Sys2Proof.Laws.Operands.auditMismatch (x0 : Nat) (x1 : Option Nat) (x2 : Expect) :
    Sys2Proof.Laws.Operands.Statement (.auditMismatch x0 x1 x2) := Sys2Proof.Laws.Operands.none_case rfl

theorem Sys2Proof.Laws.Operands.pinWrite (x0 : Beat) :
    Sys2Proof.Laws.Operands.Statement (.pinWrite x0) := Sys2Proof.Laws.Operands.none_case rfl

theorem Sys2Proof.Laws.Operands.fcstModeWrite (x0 : Wr) (x1 : Word) :
    Sys2Proof.Laws.Operands.Statement (.fcstModeWrite x0 x1) := Sys2Proof.Laws.Operands.write_case rfl
    (fun h => ⟨h, rfl, by decide⟩)

theorem Sys2Proof.Laws.Operands.fcstOpen (x0 : Wr) (x1 : BitVec 1) (x2 : BitVec 8) :
    Sys2Proof.Laws.Operands.Statement (.fcstOpen x0 x1 x2) := Sys2Proof.Laws.Operands.write_case rfl
    (fun h => ⟨h, rfl, by decide⟩)

theorem Sys2Proof.Laws.Operands.fcstSeal (x0 : Wr) (x1 : BitVec 1) (x2 : BitVec 8) :
    Sys2Proof.Laws.Operands.Statement (.fcstSeal x0 x1 x2) := Sys2Proof.Laws.Operands.write_case rfl
    (fun h => ⟨h, rfl, by decide⟩)

theorem Sys2Proof.Laws.Operands.fcstSwap (x0 : Wr) (x1 : BitVec 1) (x2 : BitVec 8) :
    Sys2Proof.Laws.Operands.Statement (.fcstSwap x0 x1 x2) := Sys2Proof.Laws.Operands.write_case rfl
    (fun h => ⟨h, rfl, by decide⟩)

theorem Sys2Proof.Laws.Operands.fcstStop (x0 : Wr) (x1 : BitVec 8) :
    Sys2Proof.Laws.Operands.Statement (.fcstStop x0 x1) := Sys2Proof.Laws.Operands.write_case rfl
    (fun h => ⟨h, rfl, by decide⟩)

theorem Sys2Proof.Laws.Operands.fcstCmdNone (x0 : Wr) (x1 : BitVec 8) :
    Sys2Proof.Laws.Operands.Statement (.fcstCmdNone x0 x1) := Sys2Proof.Laws.Operands.write_case rfl
    (fun h => ⟨h, rfl, by decide⟩)

theorem Sys2Proof.Laws.Operands.fcstCmdInvalid (x0 : Wr) (x1 : BitVec 3) (x2 : BitVec 8) :
    Sys2Proof.Laws.Operands.Statement (.fcstCmdInvalid x0 x1 x2) := Sys2Proof.Laws.Operands.write_case rfl
    (fun h => ⟨(Bool.and_eq_true_iff.mp h).1, rfl, by decide⟩)

theorem Sys2Proof.Laws.Operands.fcstEntryWrite (x0 : Beat) :
    Sys2Proof.Laws.Operands.Statement (.fcstEntryWrite x0) := Sys2Proof.Laws.Operands.none_case rfl

theorem Sys2Proof.Laws.Operands.fcstSealShort (x0 : BitVec 1) :
    Sys2Proof.Laws.Operands.Statement (.fcstSealShort x0) := Sys2Proof.Laws.Operands.none_case rfl

theorem Sys2Proof.Laws.Operands.fcstVerifyDone (x0 : BitVec 1) :
    Sys2Proof.Laws.Operands.Statement (.fcstVerifyDone x0) := Sys2Proof.Laws.Operands.none_case rfl

theorem Sys2Proof.Laws.Operands.fcstNop (x0 : Nat) :
    Sys2Proof.Laws.Operands.Statement (.fcstNop x0) := Sys2Proof.Laws.Operands.none_case rfl

theorem Sys2Proof.Laws.Operands.preStretch (x0 : Nat) :
    Sys2Proof.Laws.Operands.Statement (.preStretch x0) := Sys2Proof.Laws.Operands.none_case rfl

theorem Sys2Proof.Laws.Operands.fcLean (x0 : Nat) :
    Sys2Proof.Laws.Operands.Statement (.fcLean x0) := Sys2Proof.Laws.Operands.none_case rfl

theorem Sys2Proof.Laws.Operands.holdMargin (x0 : Nat) :
    Sys2Proof.Laws.Operands.Statement (.holdMargin x0) := Sys2Proof.Laws.Operands.none_case rfl

theorem Sys2Proof.Laws.Operands.fcRelease (x0 : Nat) :
    Sys2Proof.Laws.Operands.Statement (.fcRelease x0) := Sys2Proof.Laws.Operands.none_case rfl

theorem Sys2Proof.Laws.Operands.calSlot (x0 : Nat) :
    Sys2Proof.Laws.Operands.Statement (.calSlot x0) := Sys2Proof.Laws.Operands.none_case rfl

theorem Sys2Proof.Laws.Operands.skewCount (x0 : Nat) :
    Sys2Proof.Laws.Operands.Statement (.skewCount x0) := Sys2Proof.Laws.Operands.none_case rfl

theorem Sys2Proof.Laws.Operands.fcstStatReq (x0 : Wr) (x1 : Word) :
    Sys2Proof.Laws.Operands.Statement (.fcstStatReq x0 x1) := Sys2Proof.Laws.Operands.write_case rfl
    (fun h => ⟨h, rfl, by decide⟩)

theorem Sys2Proof.Laws.Operands.clampWindowEnd :
    Sys2Proof.Laws.Operands.Statement (.clampWindowEnd) := Sys2Proof.Laws.Operands.none_case rfl

theorem Sys2Proof.Laws.Operands.zoneStatReq (x0 : Wr) (x1 : Word) :
    Sys2Proof.Laws.Operands.Statement (.zoneStatReq x0 x1) := Sys2Proof.Laws.Operands.write_case rfl
    (fun h => ⟨h, rfl, by decide⟩)

theorem Sys2Proof.Laws.Operands.generatorFail (x0 : Nat) (x1 : Nat) (x2 : GenFault) :
    Sys2Proof.Laws.Operands.Statement (.generatorFail x0 x1 x2) := Sys2Proof.Laws.Operands.none_case rfl

theorem Sys2Proof.Laws.Operands.claimRetry (x0 : Nat) (x1 : Nat) :
    Sys2Proof.Laws.Operands.Statement (.claimRetry x0 x1) := Sys2Proof.Laws.Operands.none_case rfl

theorem Sys2Proof.Laws.Operands.spareLost (x0 : Nat) (x1 : Nat) (x2 : GenFault) :
    Sys2Proof.Laws.Operands.Statement (.spareLost x0 x1 x2) := Sys2Proof.Laws.Operands.none_case rfl

theorem Sys2Proof.Laws.Operands.spareLocked (x0 : Nat) (x1 : Nat) :
    Sys2Proof.Laws.Operands.Statement (.spareLocked x0 x1) := Sys2Proof.Laws.Operands.none_case rfl

theorem Sys2Proof.Laws.Operands.drvParity (x0 : Nat) :
    Sys2Proof.Laws.Operands.Statement (.drvParity x0) := Sys2Proof.Laws.Operands.none_case rfl

theorem Sys2Proof.Laws.Operands.clearParity (x0 : Wr) (x1 : Nat) (x2 : BitVec 5) (x3 : BitVec 8) :
    Sys2Proof.Laws.Operands.Statement (.clearParity x0 x1 x2 x3) := Sys2Proof.Laws.Operands.write_case rfl
    (fun h => Sys2Proof.Laws.Operands.flock_case h (by decide) (by decide))

theorem Sys2Proof.Laws.Operands.retest (x0 : Wr) (x1 : Nat) (x2 : BitVec 5) (x3 : BitVec 8) :
    Sys2Proof.Laws.Operands.Statement (.retest x0 x1 x2 x3) := Sys2Proof.Laws.Operands.write_case rfl
    (fun h => Sys2Proof.Laws.Operands.flock_case h (by decide) (by decide))

theorem Sys2Proof.Laws.Operands.retestDone (x0 : Nat) (x1 : List (Nat × Nat)) (x2 : RetestRun) :
    Sys2Proof.Laws.Operands.Statement (.retestDone x0 x1 x2) := Sys2Proof.Laws.Operands.none_case rfl

theorem Sys2Proof.Laws.Operands.reinstate (x0 : Wr) (x1 : Nat) (x2 : BitVec 5) (x3 : BitVec 8) :
    Sys2Proof.Laws.Operands.Statement (.reinstate x0 x1 x2 x3) := Sys2Proof.Laws.Operands.write_case rfl
    (fun h => Sys2Proof.Laws.Operands.flock_case h (by decide) (by decide))

theorem Sys2Proof.Laws.Operands.retire (x0 : Wr) (x1 : Nat) (x2 : BitVec 5) (x3 : BitVec 8) :
    Sys2Proof.Laws.Operands.Statement (.retire x0 x1 x2 x3) := Sys2Proof.Laws.Operands.write_case rfl
    (fun h => Sys2Proof.Laws.Operands.flock_case h (by decide) (by decide))

theorem Sys2Proof.Laws.Operands.crkArm (x0 : Wr) (x1 : Word) :
    Sys2Proof.Laws.Operands.Statement (.crkArm x0 x1) := Sys2Proof.Laws.Operands.write_case rfl
    (fun h => ⟨h, rfl, by decide⟩)

theorem Sys2Proof.Laws.Operands.crkArmExpiry :
    Sys2Proof.Laws.Operands.Statement (.crkArmExpiry) := Sys2Proof.Laws.Operands.none_case rfl

theorem Sys2Proof.Laws.Operands.forceHoldRegion (x0 : Wr) (x1 : BitVec 13) (x2 : BitVec 8) :
    Sys2Proof.Laws.Operands.Statement (.forceHoldRegion x0 x1 x2) := Sys2Proof.Laws.Operands.write_case rfl
    (fun h => ⟨h, rfl, by decide⟩)

theorem Sys2Proof.Laws.Operands.releaseRegion (x0 : Wr) (x1 : BitVec 13) (x2 : BitVec 8) :
    Sys2Proof.Laws.Operands.Statement (.releaseRegion x0 x1 x2) := Sys2Proof.Laws.Operands.write_case rfl
    (fun h => ⟨h, rfl, by decide⟩)

theorem Sys2Proof.Laws.Operands.forceHoldFlock (x0 : Wr) (x1 : BitVec 13) (x2 : BitVec 8) :
    Sys2Proof.Laws.Operands.Statement (.forceHoldFlock x0 x1 x2) := Sys2Proof.Laws.Operands.write_case rfl
    (fun h => ⟨h, rfl, by decide⟩)

theorem Sys2Proof.Laws.Operands.releaseFlock (x0 : Wr) (x1 : BitVec 13) (x2 : BitVec 8) :
    Sys2Proof.Laws.Operands.Statement (.releaseFlock x0 x1 x2) := Sys2Proof.Laws.Operands.write_case rfl
    (fun h => ⟨h, rfl, by decide⟩)

theorem Sys2Proof.Laws.Operands.forceFailover (x0 : Wr) (x1 : BitVec 9) (x2 : BitVec 4) (x3 : BitVec 2) (x4 : BitVec 8) :
    Sys2Proof.Laws.Operands.Statement (.forceFailover x0 x1 x2 x3 x4) := Sys2Proof.Laws.Operands.write_case rfl
    (fun h => ⟨h, rfl, by decide⟩)

theorem Sys2Proof.Laws.Operands.crkCoreReset (x0 : Wr) (x1 : BitVec 8) :
    Sys2Proof.Laws.Operands.Statement (.crkCoreReset x0 x1) := Sys2Proof.Laws.Operands.write_case rfl
    (fun h => ⟨h, rfl, by decide⟩)

theorem Sys2Proof.Laws.Operands.crkInvalidOp (x0 : Wr) (x1 : BitVec 4) (x2 : BitVec 8) :
    Sys2Proof.Laws.Operands.Statement (.crkInvalidOp x0 x1 x2) := Sys2Proof.Laws.Operands.write_case rfl
    (fun h => ⟨(Bool.and_eq_true_iff.mp h).1, rfl, by decide⟩)

theorem Sys2Proof.Laws.Operands.tallyClaim (x0 : Wr) (x1 : BitVec 2) (x2 : BitVec 8) :
    Sys2Proof.Laws.Operands.Statement (.tallyClaim x0 x1 x2) := Sys2Proof.Laws.Operands.write_case rfl
    (fun h => ⟨h, rfl, by decide⟩)

theorem Sys2Proof.Laws.Operands.tallyRelease (x0 : Wr) (x1 : BitVec 2) (x2 : BitVec 8) :
    Sys2Proof.Laws.Operands.Statement (.tallyRelease x0 x1 x2) := Sys2Proof.Laws.Operands.write_case rfl
    (fun h => ⟨h, rfl, by decide⟩)

theorem Sys2Proof.Laws.Operands.claimTimeout (x0 : Port) :
    Sys2Proof.Laws.Operands.Statement (.claimTimeout x0) := Sys2Proof.Laws.Operands.none_case rfl

theorem Sys2Proof.Laws.Operands.tallyArm (x0 : Wr) (x1 : BitVec 2) (x2 : BitVec 8) (x3 : RingPos) (x4 : CalEnds) :
    Sys2Proof.Laws.Operands.Statement (.tallyArm x0 x1 x2 x3 x4) := Sys2Proof.Laws.Operands.write_case rfl
    (fun h => ⟨h, by simp only [tallyAddr]; omega, by simp only [tallyAddr]; omega⟩)

theorem Sys2Proof.Laws.Operands.tallyAbort (x0 : Wr) (x1 : BitVec 2) (x2 : BitVec 8) :
    Sys2Proof.Laws.Operands.Statement (.tallyAbort x0 x1 x2) := Sys2Proof.Laws.Operands.write_case rfl
    (fun h => ⟨h, by simp only [tallyAddr]; omega, by simp only [tallyAddr]; omega⟩)

theorem Sys2Proof.Laws.Operands.tallyCalRefresh (x0 : BitVec 2) (x1 : RingPos) (x2 : CalEnds) :
    Sys2Proof.Laws.Operands.Statement (.tallyCalRefresh x0 x1 x2) := Sys2Proof.Laws.Operands.none_case rfl

theorem Sys2Proof.Laws.Operands.tallyGateOpen (x0 : RingGate) :
    Sys2Proof.Laws.Operands.Statement (.tallyGateOpen x0) := Sys2Proof.Laws.Operands.none_case rfl

theorem Sys2Proof.Laws.Operands.tallyStartEdge (x0 : RingEdge) :
    Sys2Proof.Laws.Operands.Statement (.tallyStartEdge x0) := Sys2Proof.Laws.Operands.none_case rfl

theorem Sys2Proof.Laws.Operands.tallyStopEdge (x0 : BitVec 2) (x1 : BitVec 3) (x2 : TapEdge) (x3 : RingPos) :
    Sys2Proof.Laws.Operands.Statement (.tallyStopEdge x0 x1 x2 x3) := Sys2Proof.Laws.Operands.none_case rfl

theorem Sys2Proof.Laws.Operands.tallyWindowClose (x0 : BitVec 2) (x1 : RingPos) (x2 : CalEnds) :
    Sys2Proof.Laws.Operands.Statement (.tallyWindowClose x0 x1 x2) := Sys2Proof.Laws.Operands.none_case rfl

theorem Sys2Proof.Laws.Operands.tempSample (x0 : List (Nat × Int)) (x1 : Int) :
    Sys2Proof.Laws.Operands.Statement (.tempSample x0 x1) := Sys2Proof.Laws.Operands.none_case rfl

theorem Sys2Proof.Laws.Operands.calFlockDue (x0 : Wr) (x1 : BitVec 9) (x2 : BitVec 8) :
    Sys2Proof.Laws.Operands.Statement (.calFlockDue x0 x1 x2) := Sys2Proof.Laws.Operands.write_case rfl
    (fun h => ⟨h, rfl, by decide⟩)

theorem Sys2Proof.Laws.Operands.calAllDue (x0 : Wr) (x1 : BitVec 8) :
    Sys2Proof.Laws.Operands.Statement (.calAllDue x0 x1) := Sys2Proof.Laws.Operands.write_case rfl
    (fun h => ⟨h, rfl, by decide⟩)

theorem Sys2Proof.Laws.Operands.restore (x0 : Wr) (x1 : BitVec 8) :
    Sys2Proof.Laws.Operands.Statement (.restore x0 x1) := Sys2Proof.Laws.Operands.write_case rfl
    (fun h => ⟨h, rfl, by decide⟩)

theorem Sys2Proof.Laws.Operands.cancelRestore (x0 : Wr) (x1 : BitVec 8) :
    Sys2Proof.Laws.Operands.Statement (.cancelRestore x0 x1) := Sys2Proof.Laws.Operands.write_case rfl
    (fun h => ⟨h, rfl, by decide⟩)

theorem Sys2Proof.Laws.Operands.calInvalidOp (x0 : Wr) (x1 : BitVec 3) (x2 : BitVec 8) :
    Sys2Proof.Laws.Operands.Statement (.calInvalidOp x0 x1 x2) := Sys2Proof.Laws.Operands.write_case rfl
    (fun h => ⟨(Bool.and_eq_true_iff.mp h).1, rfl, by decide⟩)

theorem Sys2Proof.Laws.Operands.calImageWrite (x0 : Beat) :
    Sys2Proof.Laws.Operands.Statement (.calImageWrite x0) := Sys2Proof.Laws.Operands.none_case rfl

theorem Sys2Proof.Laws.Operands.regionHoldStart (x0 : Nat) :
    Sys2Proof.Laws.Operands.Statement (.regionHoldStart x0) := Sys2Proof.Laws.Operands.none_case rfl

theorem Sys2Proof.Laws.Operands.regionHoldEnd (x0 : Nat) (x1 : Nat × Nat) (x2 : List Nat) (x3 : Bool) :
    Sys2Proof.Laws.Operands.Statement (.regionHoldEnd x0 x1 x2 x3) := Sys2Proof.Laws.Operands.none_case rfl

theorem Sys2Proof.Laws.Operands.spareCalStart (x0 : Nat) (x1 : Nat) :
    Sys2Proof.Laws.Operands.Statement (.spareCalStart x0 x1) := Sys2Proof.Laws.Operands.none_case rfl

theorem Sys2Proof.Laws.Operands.spareCalEnd (x0 : Nat) (x1 : Nat) (x2 : Nat × Nat) (x3 : Bool) :
    Sys2Proof.Laws.Operands.Statement (.spareCalEnd x0 x1 x2 x3) := Sys2Proof.Laws.Operands.none_case rfl

theorem Sys2Proof.Laws.Operands.pathCalStart (x0 : Nat) (x1 : Nat) :
    Sys2Proof.Laws.Operands.Statement (.pathCalStart x0 x1) := Sys2Proof.Laws.Operands.none_case rfl

theorem Sys2Proof.Laws.Operands.pathCalDone (x0 : Nat) (x1 : Nat) (x2 : List (BitVec 8 × Nat)) :
    Sys2Proof.Laws.Operands.Statement (.pathCalDone x0 x1 x2) := Sys2Proof.Laws.Operands.none_case rfl

theorem Sys2Proof.Laws.Operands.tallyPhaseCalStart (x0 : BitVec 2) :
    Sys2Proof.Laws.Operands.Statement (.tallyPhaseCalStart x0) := Sys2Proof.Laws.Operands.none_case rfl

theorem Sys2Proof.Laws.Operands.tallyPhaseCalDone (x0 : BitVec 2) (x1 : List (BitVec 8 × Nat)) :
    Sys2Proof.Laws.Operands.Statement (.tallyPhaseCalDone x0 x1) := Sys2Proof.Laws.Operands.none_case rfl

theorem Sys2Proof.Laws.Operands.chargePumpCalStart (x0 : Syn) :
    Sys2Proof.Laws.Operands.Statement (.chargePumpCalStart x0) := Sys2Proof.Laws.Operands.none_case rfl

theorem Sys2Proof.Laws.Operands.chargePumpCalDone (x0 : Syn) (x1 : Nat) (x2 : BitVec 6) :
    Sys2Proof.Laws.Operands.Statement (.chargePumpCalDone x0 x1 x2) := Sys2Proof.Laws.Operands.none_case rfl

theorem Sys2Proof.Laws.Operands.bandgapTrimStep (x0 : Int) :
    Sys2Proof.Laws.Operands.Statement (.bandgapTrimStep x0) := Sys2Proof.Laws.Operands.none_case rfl

theorem Sys2Proof.Laws.Operands.calTimeout (x0 : TimedCal) :
    Sys2Proof.Laws.Operands.Statement (.calTimeout x0) := Sys2Proof.Laws.Operands.none_case rfl

theorem Sys2Proof.Laws.Operands.cableIn (x0 : BitVec 1) (x1 : Bool) :
    Sys2Proof.Laws.Operands.Statement (.cableIn x0 x1) := Sys2Proof.Laws.Operands.none_case rfl

theorem Sys2Proof.Laws.Operands.portUp (x0 : LinkUp) :
    Sys2Proof.Laws.Operands.Statement (.portUp x0) := Sys2Proof.Laws.Operands.none_case rfl

theorem Sys2Proof.Laws.Operands.portDown (x0 : BitVec 1) (x1 : DownCause) :
    Sys2Proof.Laws.Operands.Statement (.portDown x0 x1) := Sys2Proof.Laws.Operands.none_case rfl

theorem Sys2Proof.Laws.Operands.roundStart :
    Sys2Proof.Laws.Operands.Statement (.roundStart) := Sys2Proof.Laws.Operands.none_case rfl

theorem Sys2Proof.Laws.Operands.helloSend (x0 : BitVec 1) :
    Sys2Proof.Laws.Operands.Statement (.helloSend x0) := Sys2Proof.Laws.Operands.none_case rfl

theorem Sys2Proof.Laws.Operands.hello (x0 : BitVec 1) (x1 : Frame) :
    Sys2Proof.Laws.Operands.Statement (.hello x0 x1) := Sys2Proof.Laws.Operands.none_case rfl

theorem Sys2Proof.Laws.Operands.tree (x0 : BitVec 1) (x1 : Frame) :
    Sys2Proof.Laws.Operands.Statement (.tree x0 x1) := Sys2Proof.Laws.Operands.none_case rfl

theorem Sys2Proof.Laws.Operands.syncSend (x0 : BitVec 6) (x1 : Option Int) (x2 : Option Int) :
    Sys2Proof.Laws.Operands.Statement (.syncSend x0 x1 x2) := Sys2Proof.Laws.Operands.none_case rfl

theorem Sys2Proof.Laws.Operands.sync (x0 : BitVec 1) (x1 : Frame) (x2 : Option Int) :
    Sys2Proof.Laws.Operands.Statement (.sync x0 x1 x2) := Sys2Proof.Laws.Operands.none_case rfl

theorem Sys2Proof.Laws.Operands.followSend (x0 : BitVec 5) :
    Sys2Proof.Laws.Operands.Statement (.followSend x0) := Sys2Proof.Laws.Operands.none_case rfl

theorem Sys2Proof.Laws.Operands.follow (x0 : BitVec 1) (x1 : Frame) :
    Sys2Proof.Laws.Operands.Statement (.follow x0 x1) := Sys2Proof.Laws.Operands.none_case rfl

theorem Sys2Proof.Laws.Operands.offset (x0 : BitVec 1) (x1 : Told) :
    Sys2Proof.Laws.Operands.Statement (.offset x0 x1) := Sys2Proof.Laws.Operands.none_case rfl

theorem Sys2Proof.Laws.Operands.muDone (x0 : BitVec 1) (x1 : Frame) :
    Sys2Proof.Laws.Operands.Statement (.muDone x0 x1) := Sys2Proof.Laws.Operands.none_case rfl

theorem Sys2Proof.Laws.Operands.doneDeadline :
    Sys2Proof.Laws.Operands.Statement (.doneDeadline) := Sys2Proof.Laws.Operands.none_case rfl

theorem Sys2Proof.Laws.Operands.muApply :
    Sys2Proof.Laws.Operands.Statement (.muApply) := Sys2Proof.Laws.Operands.none_case rfl

theorem Sys2Proof.Laws.Operands.ageTransfer :
    Sys2Proof.Laws.Operands.Statement (.ageTransfer) := Sys2Proof.Laws.Operands.none_case rfl

theorem Sys2Proof.Laws.Operands.ppsInEdge (x0 : Int) :
    Sys2Proof.Laws.Operands.Statement (.ppsInEdge x0) := Sys2Proof.Laws.Operands.none_case rfl

theorem Sys2Proof.Laws.Operands.ppsOut :
    Sys2Proof.Laws.Operands.Statement (.ppsOut) := Sys2Proof.Laws.Operands.none_case rfl

theorem Sys2Proof.Laws.Operands.todArm (x0 : Wr) (x1 : Word) :
    Sys2Proof.Laws.Operands.Statement (.todArm x0 x1) := Sys2Proof.Laws.Operands.write_case rfl
    (fun h => ⟨h, rfl, by decide⟩)

theorem Sys2Proof.Laws.Operands.fwOpen (x0 : Wr) (x1 : BitVec 1) (x2 : BitVec 8) :
    Sys2Proof.Laws.Operands.Statement (.fwOpen x0 x1 x2) := Sys2Proof.Laws.Operands.write_case rfl
    (fun h => ⟨h, rfl, by decide⟩)

theorem Sys2Proof.Laws.Operands.fwSeal (x0 : Wr) (x1 : BitVec 1) (x2 : BitVec 8) :
    Sys2Proof.Laws.Operands.Statement (.fwSeal x0 x1 x2) := Sys2Proof.Laws.Operands.write_case rfl
    (fun h => ⟨h, rfl, by decide⟩)

theorem Sys2Proof.Laws.Operands.fwSwap (x0 : Wr) (x1 : BitVec 1) (x2 : BitVec 8) :
    Sys2Proof.Laws.Operands.Statement (.fwSwap x0 x1 x2) := Sys2Proof.Laws.Operands.write_case rfl
    (fun h => ⟨h, rfl, by decide⟩)

theorem Sys2Proof.Laws.Operands.fwBankInvalidOp (x0 : Wr) (x1 : BitVec 3) (x2 : BitVec 8) :
    Sys2Proof.Laws.Operands.Statement (.fwBankInvalidOp x0 x1 x2) := Sys2Proof.Laws.Operands.write_case rfl
    (fun h => ⟨(Bool.and_eq_true_iff.mp h).1, rfl, by decide⟩)

theorem Sys2Proof.Laws.Operands.fwDataWrite (x0 : Beat) :
    Sys2Proof.Laws.Operands.Statement (.fwDataWrite x0) := Sys2Proof.Laws.Operands.none_case rfl

theorem Sys2Proof.Laws.Operands.fwSealShort (x0 : BitVec 1) :
    Sys2Proof.Laws.Operands.Statement (.fwSealShort x0) := Sys2Proof.Laws.Operands.none_case rfl

theorem Sys2Proof.Laws.Operands.fwVerifyDone (x0 : BitVec 1) :
    Sys2Proof.Laws.Operands.Statement (.fwVerifyDone x0) := Sys2Proof.Laws.Operands.none_case rfl

theorem Sys2Proof.Laws.Operands.fwSwapPreStart :
    Sys2Proof.Laws.Operands.Statement (.fwSwapPreStart) := Sys2Proof.Laws.Operands.none_case rfl

theorem Sys2Proof.Laws.Operands.halt (x0 : HaltCause) (x1 : Word) (x2 : Word) :
    Sys2Proof.Laws.Operands.Statement (.halt x0 x1 x2) := Sys2Proof.Laws.Operands.none_case rfl

theorem Sys2Proof.Laws.Operands.shepAssertWrite (x0 : BitVec 16) (x1 : Word) :
    Sys2Proof.Laws.Operands.Statement (.shepAssertWrite x0 x1) := Sys2Proof.Laws.Operands.none_case rfl

theorem Sys2Proof.Laws.Operands.haltRestart :
    Sys2Proof.Laws.Operands.Statement (.haltRestart) := Sys2Proof.Laws.Operands.none_case rfl

theorem Sys2Proof.Laws.Operands.wdog :
    Sys2Proof.Laws.Operands.Statement (.wdog) := Sys2Proof.Laws.Operands.none_case rfl

theorem Sys2Proof.Laws.Operands.watchdogKick (x0 : Word) :
    Sys2Proof.Laws.Operands.Statement (.watchdogKick x0) := Sys2Proof.Laws.Operands.none_case rfl

theorem Sys2Proof.Laws.Operands.eccCorr (x0 : Bool) :
    Sys2Proof.Laws.Operands.Statement (.eccCorr x0) := Sys2Proof.Laws.Operands.none_case rfl

theorem Sys2Proof.Laws.Operands.mbxGo (x0 : Wr) (x1 : BitVec 2) :
    Sys2Proof.Laws.Operands.Statement (.mbxGo x0 x1) := Sys2Proof.Laws.Operands.write_case rfl
    (fun h => ⟨(Bool.and_eq_true_iff.mp h).1, by simp only [mbxAddr]; omega, by simp only [mbxAddr]; omega⟩)

theorem Sys2Proof.Laws.Operands.mbxWithdraw (x0 : Wr) (x1 : BitVec 2) :
    Sys2Proof.Laws.Operands.Statement (.mbxWithdraw x0 x1) := Sys2Proof.Laws.Operands.write_case rfl
    (fun h => ⟨(Bool.and_eq_true_iff.mp h).1, by simp only [mbxAddr]; omega, by simp only [mbxAddr]; omega⟩)

theorem Sys2Proof.Laws.Operands.mbxTake :
    Sys2Proof.Laws.Operands.Statement (.mbxTake) := Sys2Proof.Laws.Operands.none_case rfl

theorem Sys2Proof.Laws.Operands.version :
    Sys2Proof.Laws.Operands.Statement (.version) := Sys2Proof.Laws.Operands.none_case rfl

theorem Sys2Proof.Laws.Operands.status :
    Sys2Proof.Laws.Operands.Statement (.status) := Sys2Proof.Laws.Operands.none_case rfl

theorem Sys2Proof.Laws.Operands.nop :
    Sys2Proof.Laws.Operands.Statement (.nop) := Sys2Proof.Laws.Operands.none_case rfl

theorem Sys2Proof.Laws.Operands.rowVerify :
    Sys2Proof.Laws.Operands.Statement (.rowVerify) := Sys2Proof.Laws.Operands.none_case rfl

theorem Sys2Proof.Laws.Operands.rowVerifyJobEnd (x0 : List Nat) :
    Sys2Proof.Laws.Operands.Statement (.rowVerifyJobEnd x0) := Sys2Proof.Laws.Operands.none_case rfl

theorem Sys2Proof.Laws.Operands.xcal :
    Sys2Proof.Laws.Operands.Statement (.xcal) := Sys2Proof.Laws.Operands.none_case rfl

theorem Sys2Proof.Laws.Operands.calDone (x0 : List (Nat × List Nat)) :
    Sys2Proof.Laws.Operands.Statement (.calDone x0) := Sys2Proof.Laws.Operands.none_case rfl

theorem Sys2Proof.Laws.Operands.jobStatus :
    Sys2Proof.Laws.Operands.Statement (.jobStatus) := Sys2Proof.Laws.Operands.none_case rfl

theorem Sys2Proof.Laws.Operands.jobAbort :
    Sys2Proof.Laws.Operands.Statement (.jobAbort) := Sys2Proof.Laws.Operands.none_case rfl

theorem Sys2Proof.Laws.Operands.jobKill :
    Sys2Proof.Laws.Operands.Statement (.jobKill) := Sys2Proof.Laws.Operands.none_case rfl

theorem Sys2Proof.Laws.Operands.releaseTally :
    Sys2Proof.Laws.Operands.Statement (.releaseTally) := Sys2Proof.Laws.Operands.none_case rfl

theorem Sys2Proof.Laws.Operands.cfgCommit :
    Sys2Proof.Laws.Operands.Statement (.cfgCommit) := Sys2Proof.Laws.Operands.none_case rfl

theorem Sys2Proof.Laws.Operands.identify :
    Sys2Proof.Laws.Operands.Statement (.identify) := Sys2Proof.Laws.Operands.none_case rfl

theorem Sys2Proof.Laws.Operands.identifyExpiry :
    Sys2Proof.Laws.Operands.Statement (.identifyExpiry) := Sys2Proof.Laws.Operands.none_case rfl

theorem Sys2Proof.Laws.Operands.badOpcode :
    Sys2Proof.Laws.Operands.Statement (.badOpcode) := Sys2Proof.Laws.Operands.none_case rfl

theorem Sys2Proof.Laws.Operands.eventClear (x0 : Wr) (x1 : Block) (x2 : Word) :
    Sys2Proof.Laws.Operands.Statement (.eventClear x0 x1 x2) := Sys2Proof.Laws.Operands.write_case rfl
    (fun h => ⟨h, by cases x1 <;> rfl, by cases x1 <;> decide⟩)

theorem Sys2Proof.Laws.Operands.cfgCtrlWrite (x0 : Wr) (x1 : Word) :
    Sys2Proof.Laws.Operands.Statement (.cfgCtrlWrite x0 x1) := Sys2Proof.Laws.Operands.write_case rfl
    (fun h => ⟨h, rfl, by decide⟩)

theorem Sys2Proof.Laws.Operands.preBellApply :
    Sys2Proof.Laws.Operands.Statement (.preBellApply) := Sys2Proof.Laws.Operands.none_case rfl

theorem Sys2Proof.Laws.Operands.configPassEnd :
    Sys2Proof.Laws.Operands.Statement (.configPassEnd) := Sys2Proof.Laws.Operands.none_case rfl

theorem Sys2Proof.Laws.Operands.restoreWriteDone :
    Sys2Proof.Laws.Operands.Statement (.restoreWriteDone) := Sys2Proof.Laws.Operands.none_case rfl

theorem Sys2Proof.Laws.Operands.regWrite (x0 : Wr) (x1 : BitVec 20) (x2 : Word) :
    Sys2Proof.Laws.Operands.Statement (.regWrite x0 x1 x2) := Sys2Proof.Laws.Operands.write_case rfl
    (fun h => ⟨h, by omega, by have := x1.isLt; omega⟩)

theorem Sys2Proof.Laws.Operands.badBurst (x0 : Bool) (x1 : Nat) :
    Sys2Proof.Laws.Operands.Statement (.badBurst x0 x1) := Sys2Proof.Laws.Operands.none_case rfl

theorem Sys2Proof.Laws.Operands.onBackup :
    Sys2Proof.Laws.Operands.Statement (.onBackup) := Sys2Proof.Laws.Operands.none_case rfl

theorem Sys2Proof.Laws.Operands.onMain :
    Sys2Proof.Laws.Operands.Statement (.onMain) := Sys2Proof.Laws.Operands.none_case rfl

theorem Sys2Proof.Laws.Operands.backupFail :
    Sys2Proof.Laws.Operands.Statement (.backupFail) := Sys2Proof.Laws.Operands.none_case rfl

theorem Sys2Proof.Laws.Operands.powerOnReset :
    Sys2Proof.Laws.Operands.Statement (.powerOnReset) := Sys2Proof.Laws.Operands.none_case rfl

theorem Sys2Proof.Laws.Operands.coldReset :
    Sys2Proof.Laws.Operands.Statement (.coldReset) := Sys2Proof.Laws.Operands.none_case rfl

theorem Sys2Proof.Laws.Operands.warmReset :
    Sys2Proof.Laws.Operands.Statement (.warmReset) := Sys2Proof.Laws.Operands.none_case rfl

theorem Sys2Proof.Laws.Operands.fabPowerLoss :
    Sys2Proof.Laws.Operands.Statement (.fabPowerLoss) := Sys2Proof.Laws.Operands.none_case rfl

theorem Sys2Proof.Laws.Operands.fabPowerReturn :
    Sys2Proof.Laws.Operands.Statement (.fabPowerReturn) := Sys2Proof.Laws.Operands.none_case rfl

theorem Sys2Proof.Laws.Operands.hcAreset :
    Sys2Proof.Laws.Operands.Statement (.hcAreset) := Sys2Proof.Laws.Operands.none_case rfl

theorem Sys2Proof.Laws.Operands.lcTransition (x0 : Wr) (x1 : BitVec 2) (x2 : BitVec 8) :
    Sys2Proof.Laws.Operands.Statement (.lcTransition x0 x1 x2) := Sys2Proof.Laws.Operands.write_case rfl
    (fun h => ⟨h, rfl, by decide⟩)

theorem Sys2Proof.Laws.Operands.lcRevoke (x0 : Wr) (x1 : BitVec 2) (x2 : BitVec 8) :
    Sys2Proof.Laws.Operands.Statement (.lcRevoke x0 x1 x2) := Sys2Proof.Laws.Operands.write_case rfl
    (fun h => ⟨h, rfl, by decide⟩)

theorem Sys2Proof.Laws.Operands.lcOpRefuse (x0 : Wr) (x1 : BitVec 8) :
    Sys2Proof.Laws.Operands.Statement (.lcOpRefuse x0 x1) := Sys2Proof.Laws.Operands.write_case rfl
    (fun h => ⟨h, rfl, by decide⟩)

theorem Sys2Proof.Laws.Operands.lcDone :
    Sys2Proof.Laws.Operands.Statement (.lcDone) := Sys2Proof.Laws.Operands.none_case rfl

theorem Sys2Proof.Laws.Operands.eraseDone :
    Sys2Proof.Laws.Operands.Statement (.eraseDone) := Sys2Proof.Laws.Operands.none_case rfl

theorem Sys2Proof.Laws.Operands.buttonPress :
    Sys2Proof.Laws.Operands.Statement .buttonPress := Sys2Proof.Laws.Operands.none_case rfl

theorem Sys2Proof.Laws.Operands.btnLong :
    Sys2Proof.Laws.Operands.Statement (.btnLong) := Sys2Proof.Laws.Operands.none_case rfl

theorem Sys2Proof.Laws.Operands.btnShort :
    Sys2Proof.Laws.Operands.Statement .btnShort := Sys2Proof.Laws.Operands.none_case rfl

theorem Sys2Proof.Laws.Operands.ledChange :
    Sys2Proof.Laws.Operands.Statement (.ledChange) := Sys2Proof.Laws.Operands.none_case rfl

theorem Sys2Proof.Laws.Operands.i2cTransaction (x0 : I2c) :
    Sys2Proof.Laws.Operands.Statement (.i2cTransaction x0) := Sys2Proof.Laws.Operands.none_case rfl

theorem Sys2Proof.Laws.Operands.sclTimeout :
    Sys2Proof.Laws.Operands.Statement (.sclTimeout) := Sys2Proof.Laws.Operands.none_case rfl

theorem Sys2Proof.Laws.Operands.tickEdge (x0 : Bool) (x1 : List (Nat × Nat)) :
    Sys2Proof.Laws.Operands.Statement (.tickEdge x0 x1) := Sys2Proof.Laws.Operands.none_case rfl

theorem Sys2Proof.Laws.Operands.issuedEdge (x0 : Nat) (x1 : Int) (x2 : Nat) (x3 : BitVec 4) :
    Sys2Proof.Laws.Operands.Statement (.issuedEdge x0 x1 x2 x3) := Sys2Proof.Laws.Operands.none_case rfl

theorem Sys2Proof.Laws.Operands.downSweep :
    Sys2Proof.Laws.Operands.Statement (.downSweep) := Sys2Proof.Laws.Operands.none_case rfl

theorem Sys2Proof.Laws.Operands.upSweep :
    Sys2Proof.Laws.Operands.Statement (.upSweep) := Sys2Proof.Laws.Operands.none_case rfl

theorem Sys2Proof.Laws.Operands.frozenFailureCountEnd :
    Sys2Proof.Laws.Operands.Statement (.frozenFailureCountEnd) := Sys2Proof.Laws.Operands.none_case rfl

theorem Sys2Proof.Laws.Operands.powerOnResetRelease :
    Sys2Proof.Laws.Operands.Statement (.powerOnResetRelease) := Sys2Proof.Laws.Operands.none_case rfl

theorem Sys2Proof.Laws.Operands.supplyOkChange (x0 : Bool) (x1 : Bool) :
    Sys2Proof.Laws.Operands.Statement (.supplyOkChange x0 x1) := Sys2Proof.Laws.Operands.none_case rfl

theorem Sys2Proof.Laws.Operands.buttonRelease :
    Sys2Proof.Laws.Operands.Statement .buttonRelease := Sys2Proof.Laws.Operands.none_case rfl

theorem Sys2Proof.Laws.Operands.testAccess (x0 : TestOp) :
    Sys2Proof.Laws.Operands.Statement (.testAccess x0) := Sys2Proof.Laws.Operands.none_case rfl

theorem Sys2Proof.Laws.Operands.manifestWrite (x0 : Beat) :
    Sys2Proof.Laws.Operands.Statement (.manifestWrite x0) := Sys2Proof.Laws.Operands.none_case rfl
end

