-- ==== Sys2Proof/Laws/State.lean ====
section
/-!
SUPPORT. What each named update of the state leaves alone, field by field, and what its own accessor reads
after it.
-/
namespace Sys2Proof.Machine
open Sys2Proof

/-! ### The fields that an update leaves alone -/

/-- setFlock leaves every other field alone. -/
@[simp] theorem setFlock_fields (f : Nat) (x : Flock) (s : State) :
    (setFlock f x s).pending = s.pending ∧ (setFlock f x s).build = s.build ∧
    (setFlock f x s).straps = s.straps ∧ (setFlock f x s).hook = s.hook ∧ (setFlock f x s).cfgW = s.cfgW ∧
    (setFlock f x s).cfgA = s.cfgA ∧ (setFlock f x s).nowR = s.nowR ∧ (setFlock f x s).root = s.root ∧
    (setFlock f x s).time = s.time ∧ (setFlock f x s).snaps = s.snaps ∧ (setFlock f x s).logs = s.logs ∧
    (setFlock f x s).gens = s.gens ∧ (setFlock f x s).regions = s.regions ∧ (setFlock f x s).xing = s.xing ∧
    (setFlock f x s).fold = s.fold ∧ (setFlock f x s).fcst = s.fcst ∧ (setFlock f x s).zones = s.zones ∧
    (setFlock f x s).foTotal = s.foTotal ∧ (setFlock f x s).crook = s.crook ∧
    (setFlock f x s).tally = s.tally ∧ (setFlock f x s).cal = s.cal ∧ (setFlock f x s).mus = s.mus ∧
    (setFlock f x s).shep = s.shep ∧ (setFlock f x s).mbx = s.mbx ∧ (setFlock f x s).cfg = s.cfg ∧
    (setFlock f x s).events = s.events ∧ (setFlock f x s).lc = s.lc ∧ (setFlock f x s).power = s.power ∧
    (setFlock f x s).data = s.data ∧ (setFlock f x s).ret = s.ret ∧ (setFlock f x s).dmem = s.dmem ∧
    (setFlock f x s).bmStatus = s.bmStatus ∧ (setFlock f x s).bmBusy = s.bmBusy ∧
    (setFlock f x s).bmTag = s.bmTag ∧ (setFlock f x s).bmRows = s.bmRows ∧ (setFlock f x s).out = s.out ∧
    (setFlock f x s).freeCtr = s.freeCtr :=
  ⟨rfl, rfl, rfl, rfl, rfl, rfl, rfl, rfl, rfl, rfl, rfl, rfl, rfl, rfl, rfl, rfl, rfl, rfl, rfl, rfl, rfl,
    rfl, rfl, rfl, rfl, rfl, rfl, rfl, rfl, rfl, rfl, rfl, rfl, rfl, rfl, rfl, rfl⟩

/-- setGen leaves every other field alone. -/
@[simp] theorem setGen_fields (g : Nat) (x : Gen) (s : State) :
    (setGen g x s).pending = s.pending ∧ (setGen g x s).build = s.build ∧ (setGen g x s).straps = s.straps ∧
    (setGen g x s).hook = s.hook ∧ (setGen g x s).cfgW = s.cfgW ∧ (setGen g x s).cfgA = s.cfgA ∧
    (setGen g x s).nowR = s.nowR ∧ (setGen g x s).root = s.root ∧ (setGen g x s).time = s.time ∧
    (setGen g x s).snaps = s.snaps ∧ (setGen g x s).logs = s.logs ∧ (setGen g x s).flocks = s.flocks ∧
    (setGen g x s).regions = s.regions ∧ (setGen g x s).xing = s.xing ∧ (setGen g x s).fold = s.fold ∧
    (setGen g x s).fcst = s.fcst ∧ (setGen g x s).zones = s.zones ∧ (setGen g x s).foTotal = s.foTotal ∧
    (setGen g x s).crook = s.crook ∧ (setGen g x s).tally = s.tally ∧ (setGen g x s).cal = s.cal ∧
    (setGen g x s).mus = s.mus ∧ (setGen g x s).shep = s.shep ∧ (setGen g x s).mbx = s.mbx ∧
    (setGen g x s).cfg = s.cfg ∧ (setGen g x s).events = s.events ∧ (setGen g x s).lc = s.lc ∧
    (setGen g x s).power = s.power ∧ (setGen g x s).data = s.data ∧ (setGen g x s).ret = s.ret ∧
    (setGen g x s).dmem = s.dmem ∧ (setGen g x s).bmStatus = s.bmStatus ∧ (setGen g x s).bmBusy = s.bmBusy ∧
    (setGen g x s).bmTag = s.bmTag ∧ (setGen g x s).bmRows = s.bmRows ∧ (setGen g x s).out = s.out ∧
    (setGen g x s).freeCtr = s.freeCtr :=
  ⟨rfl, rfl, rfl, rfl, rfl, rfl, rfl, rfl, rfl, rfl, rfl, rfl, rfl, rfl, rfl, rfl, rfl, rfl, rfl, rfl, rfl,
    rfl, rfl, rfl, rfl, rfl, rfl, rfl, rfl, rfl, rfl, rfl, rfl, rfl, rfl, rfl, rfl⟩

/-- setRegion leaves every other field alone. -/
@[simp] theorem setRegion_fields (r : Nat) (x : Region) (s : State) :
    (setRegion r x s).pending = s.pending ∧ (setRegion r x s).build = s.build ∧
    (setRegion r x s).straps = s.straps ∧ (setRegion r x s).hook = s.hook ∧ (setRegion r x s).cfgW = s.cfgW ∧
    (setRegion r x s).cfgA = s.cfgA ∧ (setRegion r x s).nowR = s.nowR ∧ (setRegion r x s).root = s.root ∧
    (setRegion r x s).time = s.time ∧ (setRegion r x s).snaps = s.snaps ∧ (setRegion r x s).logs = s.logs ∧
    (setRegion r x s).flocks = s.flocks ∧ (setRegion r x s).gens = s.gens ∧ (setRegion r x s).xing = s.xing ∧
    (setRegion r x s).fold = s.fold ∧ (setRegion r x s).fcst = s.fcst ∧ (setRegion r x s).zones = s.zones ∧
    (setRegion r x s).foTotal = s.foTotal ∧ (setRegion r x s).crook = s.crook ∧
    (setRegion r x s).tally = s.tally ∧ (setRegion r x s).cal = s.cal ∧ (setRegion r x s).mus = s.mus ∧
    (setRegion r x s).shep = s.shep ∧ (setRegion r x s).mbx = s.mbx ∧ (setRegion r x s).cfg = s.cfg ∧
    (setRegion r x s).events = s.events ∧ (setRegion r x s).lc = s.lc ∧ (setRegion r x s).power = s.power ∧
    (setRegion r x s).data = s.data ∧ (setRegion r x s).ret = s.ret ∧ (setRegion r x s).dmem = s.dmem ∧
    (setRegion r x s).bmStatus = s.bmStatus ∧ (setRegion r x s).bmBusy = s.bmBusy ∧
    (setRegion r x s).bmTag = s.bmTag ∧ (setRegion r x s).bmRows = s.bmRows ∧ (setRegion r x s).out = s.out ∧
    (setRegion r x s).freeCtr = s.freeCtr :=
  ⟨rfl, rfl, rfl, rfl, rfl, rfl, rfl, rfl, rfl, rfl, rfl, rfl, rfl, rfl, rfl, rfl, rfl, rfl, rfl, rfl, rfl,
    rfl, rfl, rfl, rfl, rfl, rfl, rfl, rfl, rfl, rfl, rfl, rfl, rfl, rfl, rfl, rfl⟩

/-- mapRegions leaves every other field alone. -/
@[simp] theorem mapRegions_fields (f : Nat → Region → Region) (s : State) :
    (mapRegions f s).pending = s.pending ∧ (mapRegions f s).build = s.build ∧
    (mapRegions f s).straps = s.straps ∧ (mapRegions f s).hook = s.hook ∧ (mapRegions f s).cfgW = s.cfgW ∧
    (mapRegions f s).cfgA = s.cfgA ∧ (mapRegions f s).nowR = s.nowR ∧ (mapRegions f s).root = s.root ∧
    (mapRegions f s).time = s.time ∧ (mapRegions f s).snaps = s.snaps ∧ (mapRegions f s).logs = s.logs ∧
    (mapRegions f s).flocks = s.flocks ∧ (mapRegions f s).gens = s.gens ∧ (mapRegions f s).xing = s.xing ∧
    (mapRegions f s).fold = s.fold ∧ (mapRegions f s).fcst = s.fcst ∧ (mapRegions f s).zones = s.zones ∧
    (mapRegions f s).foTotal = s.foTotal ∧ (mapRegions f s).crook = s.crook ∧
    (mapRegions f s).tally = s.tally ∧ (mapRegions f s).cal = s.cal ∧ (mapRegions f s).mus = s.mus ∧
    (mapRegions f s).shep = s.shep ∧ (mapRegions f s).mbx = s.mbx ∧ (mapRegions f s).cfg = s.cfg ∧
    (mapRegions f s).events = s.events ∧ (mapRegions f s).lc = s.lc ∧ (mapRegions f s).power = s.power ∧
    (mapRegions f s).data = s.data ∧ (mapRegions f s).ret = s.ret ∧ (mapRegions f s).dmem = s.dmem ∧
    (mapRegions f s).bmStatus = s.bmStatus ∧ (mapRegions f s).bmBusy = s.bmBusy ∧
    (mapRegions f s).bmTag = s.bmTag ∧ (mapRegions f s).bmRows = s.bmRows ∧ (mapRegions f s).out = s.out ∧
    (mapRegions f s).freeCtr = s.freeCtr :=
  ⟨rfl, rfl, rfl, rfl, rfl, rfl, rfl, rfl, rfl, rfl, rfl, rfl, rfl, rfl, rfl, rfl, rfl, rfl, rfl, rfl, rfl,
    rfl, rfl, rfl, rfl, rfl, rfl, rfl, rfl, rfl, rfl, rfl, rfl, rfl, rfl, rfl, rfl⟩

/-- mapGens leaves every other field alone. -/
@[simp] theorem mapGens_fields (f : Nat → Gen → Gen) (s : State) :
    (mapGens f s).pending = s.pending ∧ (mapGens f s).build = s.build ∧ (mapGens f s).straps = s.straps ∧
    (mapGens f s).hook = s.hook ∧ (mapGens f s).cfgW = s.cfgW ∧ (mapGens f s).cfgA = s.cfgA ∧
    (mapGens f s).nowR = s.nowR ∧ (mapGens f s).root = s.root ∧ (mapGens f s).time = s.time ∧
    (mapGens f s).snaps = s.snaps ∧ (mapGens f s).logs = s.logs ∧ (mapGens f s).flocks = s.flocks ∧
    (mapGens f s).regions = s.regions ∧ (mapGens f s).xing = s.xing ∧ (mapGens f s).fold = s.fold ∧
    (mapGens f s).fcst = s.fcst ∧ (mapGens f s).zones = s.zones ∧ (mapGens f s).foTotal = s.foTotal ∧
    (mapGens f s).crook = s.crook ∧ (mapGens f s).tally = s.tally ∧ (mapGens f s).cal = s.cal ∧
    (mapGens f s).mus = s.mus ∧ (mapGens f s).shep = s.shep ∧ (mapGens f s).mbx = s.mbx ∧
    (mapGens f s).cfg = s.cfg ∧ (mapGens f s).events = s.events ∧ (mapGens f s).lc = s.lc ∧
    (mapGens f s).power = s.power ∧ (mapGens f s).data = s.data ∧ (mapGens f s).ret = s.ret ∧
    (mapGens f s).dmem = s.dmem ∧ (mapGens f s).bmStatus = s.bmStatus ∧ (mapGens f s).bmBusy = s.bmBusy ∧
    (mapGens f s).bmTag = s.bmTag ∧ (mapGens f s).bmRows = s.bmRows ∧ (mapGens f s).out = s.out ∧
    (mapGens f s).freeCtr = s.freeCtr :=
  ⟨rfl, rfl, rfl, rfl, rfl, rfl, rfl, rfl, rfl, rfl, rfl, rfl, rfl, rfl, rfl, rfl, rfl, rfl, rfl, rfl, rfl,
    rfl, rfl, rfl, rfl, rfl, rfl, rfl, rfl, rfl, rfl, rfl, rfl, rfl, rfl, rfl, rfl⟩

/-- mapFlocks leaves every other field alone. -/
@[simp] theorem mapFlocks_fields (f : Nat → Flock → Flock) (s : State) :
    (mapFlocks f s).pending = s.pending ∧ (mapFlocks f s).build = s.build ∧ (mapFlocks f s).straps = s.straps ∧
    (mapFlocks f s).hook = s.hook ∧ (mapFlocks f s).cfgW = s.cfgW ∧ (mapFlocks f s).cfgA = s.cfgA ∧
    (mapFlocks f s).nowR = s.nowR ∧ (mapFlocks f s).root = s.root ∧ (mapFlocks f s).time = s.time ∧
    (mapFlocks f s).snaps = s.snaps ∧ (mapFlocks f s).logs = s.logs ∧ (mapFlocks f s).gens = s.gens ∧
    (mapFlocks f s).regions = s.regions ∧ (mapFlocks f s).xing = s.xing ∧ (mapFlocks f s).fold = s.fold ∧
    (mapFlocks f s).fcst = s.fcst ∧ (mapFlocks f s).zones = s.zones ∧ (mapFlocks f s).foTotal = s.foTotal ∧
    (mapFlocks f s).crook = s.crook ∧ (mapFlocks f s).tally = s.tally ∧ (mapFlocks f s).cal = s.cal ∧
    (mapFlocks f s).mus = s.mus ∧ (mapFlocks f s).shep = s.shep ∧ (mapFlocks f s).mbx = s.mbx ∧
    (mapFlocks f s).cfg = s.cfg ∧ (mapFlocks f s).events = s.events ∧ (mapFlocks f s).lc = s.lc ∧
    (mapFlocks f s).power = s.power ∧ (mapFlocks f s).data = s.data ∧ (mapFlocks f s).ret = s.ret ∧
    (mapFlocks f s).dmem = s.dmem ∧ (mapFlocks f s).bmStatus = s.bmStatus ∧ (mapFlocks f s).bmBusy = s.bmBusy ∧
    (mapFlocks f s).bmTag = s.bmTag ∧ (mapFlocks f s).bmRows = s.bmRows ∧ (mapFlocks f s).out = s.out ∧
    (mapFlocks f s).freeCtr = s.freeCtr :=
  ⟨rfl, rfl, rfl, rfl, rfl, rfl, rfl, rfl, rfl, rfl, rfl, rfl, rfl, rfl, rfl, rfl, rfl, rfl, rfl, rfl, rfl,
    rfl, rfl, rfl, rfl, rfl, rfl, rfl, rfl, rfl, rfl, rfl, rfl, rfl, rfl, rfl, rfl⟩

/-- setXing leaves every other field alone. -/
@[simp] theorem setXing_fields (x : Nat) (v : Xing) (s : State) :
    (setXing x v s).pending = s.pending ∧ (setXing x v s).build = s.build ∧ (setXing x v s).straps = s.straps ∧
    (setXing x v s).hook = s.hook ∧ (setXing x v s).cfgW = s.cfgW ∧ (setXing x v s).cfgA = s.cfgA ∧
    (setXing x v s).nowR = s.nowR ∧ (setXing x v s).root = s.root ∧ (setXing x v s).time = s.time ∧
    (setXing x v s).snaps = s.snaps ∧ (setXing x v s).logs = s.logs ∧ (setXing x v s).flocks = s.flocks ∧
    (setXing x v s).gens = s.gens ∧ (setXing x v s).regions = s.regions ∧ (setXing x v s).fold = s.fold ∧
    (setXing x v s).fcst = s.fcst ∧ (setXing x v s).zones = s.zones ∧ (setXing x v s).foTotal = s.foTotal ∧
    (setXing x v s).crook = s.crook ∧ (setXing x v s).tally = s.tally ∧ (setXing x v s).cal = s.cal ∧
    (setXing x v s).mus = s.mus ∧ (setXing x v s).shep = s.shep ∧ (setXing x v s).mbx = s.mbx ∧
    (setXing x v s).cfg = s.cfg ∧ (setXing x v s).events = s.events ∧ (setXing x v s).lc = s.lc ∧
    (setXing x v s).power = s.power ∧ (setXing x v s).data = s.data ∧ (setXing x v s).ret = s.ret ∧
    (setXing x v s).dmem = s.dmem ∧ (setXing x v s).bmStatus = s.bmStatus ∧ (setXing x v s).bmBusy = s.bmBusy ∧
    (setXing x v s).bmTag = s.bmTag ∧ (setXing x v s).bmRows = s.bmRows ∧ (setXing x v s).out = s.out ∧
    (setXing x v s).freeCtr = s.freeCtr :=
  ⟨rfl, rfl, rfl, rfl, rfl, rfl, rfl, rfl, rfl, rfl, rfl, rfl, rfl, rfl, rfl, rfl, rfl, rfl, rfl, rfl, rfl,
    rfl, rfl, rfl, rfl, rfl, rfl, rfl, rfl, rfl, rfl, rfl, rfl, rfl, rfl, rfl, rfl⟩

/-- mapXings leaves every other field alone. -/
@[simp] theorem mapXings_fields (f : Nat → Xing → Xing) (s : State) :
    (mapXings f s).pending = s.pending ∧ (mapXings f s).build = s.build ∧ (mapXings f s).straps = s.straps ∧
    (mapXings f s).hook = s.hook ∧ (mapXings f s).cfgW = s.cfgW ∧ (mapXings f s).cfgA = s.cfgA ∧
    (mapXings f s).nowR = s.nowR ∧ (mapXings f s).root = s.root ∧ (mapXings f s).time = s.time ∧
    (mapXings f s).snaps = s.snaps ∧ (mapXings f s).logs = s.logs ∧ (mapXings f s).flocks = s.flocks ∧
    (mapXings f s).gens = s.gens ∧ (mapXings f s).regions = s.regions ∧ (mapXings f s).fold = s.fold ∧
    (mapXings f s).fcst = s.fcst ∧ (mapXings f s).zones = s.zones ∧ (mapXings f s).foTotal = s.foTotal ∧
    (mapXings f s).crook = s.crook ∧ (mapXings f s).tally = s.tally ∧ (mapXings f s).cal = s.cal ∧
    (mapXings f s).mus = s.mus ∧ (mapXings f s).shep = s.shep ∧ (mapXings f s).mbx = s.mbx ∧
    (mapXings f s).cfg = s.cfg ∧ (mapXings f s).events = s.events ∧ (mapXings f s).lc = s.lc ∧
    (mapXings f s).power = s.power ∧ (mapXings f s).data = s.data ∧ (mapXings f s).ret = s.ret ∧
    (mapXings f s).dmem = s.dmem ∧ (mapXings f s).bmStatus = s.bmStatus ∧ (mapXings f s).bmBusy = s.bmBusy ∧
    (mapXings f s).bmTag = s.bmTag ∧ (mapXings f s).bmRows = s.bmRows ∧ (mapXings f s).out = s.out ∧
    (mapXings f s).freeCtr = s.freeCtr :=
  ⟨rfl, rfl, rfl, rfl, rfl, rfl, rfl, rfl, rfl, rfl, rfl, rfl, rfl, rfl, rfl, rfl, rfl, rfl, rfl, rfl, rfl,
    rfl, rfl, rfl, rfl, rfl, rfl, rfl, rfl, rfl, rfl, rfl, rfl, rfl, rfl, rfl, rfl⟩

/-- setClass leaves every other field alone. -/
@[simp] theorem setClass_fields (n : Nat) (c : ClassSt) (s : State) :
    (setClass n c s).pending = s.pending ∧ (setClass n c s).build = s.build ∧
    (setClass n c s).straps = s.straps ∧ (setClass n c s).hook = s.hook ∧ (setClass n c s).cfgW = s.cfgW ∧
    (setClass n c s).cfgA = s.cfgA ∧ (setClass n c s).nowR = s.nowR ∧ (setClass n c s).root = s.root ∧
    (setClass n c s).time = s.time ∧ (setClass n c s).snaps = s.snaps ∧ (setClass n c s).logs = s.logs ∧
    (setClass n c s).flocks = s.flocks ∧ (setClass n c s).gens = s.gens ∧
    (setClass n c s).regions = s.regions ∧ (setClass n c s).xing = s.xing ∧ (setClass n c s).fcst = s.fcst ∧
    (setClass n c s).zones = s.zones ∧ (setClass n c s).foTotal = s.foTotal ∧
    (setClass n c s).crook = s.crook ∧ (setClass n c s).tally = s.tally ∧ (setClass n c s).cal = s.cal ∧
    (setClass n c s).mus = s.mus ∧ (setClass n c s).shep = s.shep ∧ (setClass n c s).mbx = s.mbx ∧
    (setClass n c s).cfg = s.cfg ∧ (setClass n c s).events = s.events ∧ (setClass n c s).lc = s.lc ∧
    (setClass n c s).power = s.power ∧ (setClass n c s).data = s.data ∧ (setClass n c s).ret = s.ret ∧
    (setClass n c s).dmem = s.dmem ∧ (setClass n c s).bmStatus = s.bmStatus ∧
    (setClass n c s).bmBusy = s.bmBusy ∧ (setClass n c s).bmTag = s.bmTag ∧
    (setClass n c s).bmRows = s.bmRows ∧ (setClass n c s).out = s.out ∧ (setClass n c s).freeCtr = s.freeCtr :=
  ⟨rfl, rfl, rfl, rfl, rfl, rfl, rfl, rfl, rfl, rfl, rfl, rfl, rfl, rfl, rfl, rfl, rfl, rfl, rfl, rfl, rfl,
    rfl, rfl, rfl, rfl, rfl, rfl, rfl, rfl, rfl, rfl, rfl, rfl, rfl, rfl, rfl, rfl⟩

/-- setZone leaves every other field alone. -/
@[simp] theorem setZone_fields (z : Nat) (v : ZoneSt) (s : State) :
    (setZone z v s).pending = s.pending ∧ (setZone z v s).build = s.build ∧ (setZone z v s).straps = s.straps ∧
    (setZone z v s).hook = s.hook ∧ (setZone z v s).cfgW = s.cfgW ∧ (setZone z v s).cfgA = s.cfgA ∧
    (setZone z v s).nowR = s.nowR ∧ (setZone z v s).root = s.root ∧ (setZone z v s).time = s.time ∧
    (setZone z v s).snaps = s.snaps ∧ (setZone z v s).logs = s.logs ∧ (setZone z v s).flocks = s.flocks ∧
    (setZone z v s).gens = s.gens ∧ (setZone z v s).regions = s.regions ∧ (setZone z v s).xing = s.xing ∧
    (setZone z v s).fold = s.fold ∧ (setZone z v s).fcst = s.fcst ∧ (setZone z v s).foTotal = s.foTotal ∧
    (setZone z v s).crook = s.crook ∧ (setZone z v s).tally = s.tally ∧ (setZone z v s).cal = s.cal ∧
    (setZone z v s).mus = s.mus ∧ (setZone z v s).shep = s.shep ∧ (setZone z v s).mbx = s.mbx ∧
    (setZone z v s).cfg = s.cfg ∧ (setZone z v s).events = s.events ∧ (setZone z v s).lc = s.lc ∧
    (setZone z v s).power = s.power ∧ (setZone z v s).data = s.data ∧ (setZone z v s).ret = s.ret ∧
    (setZone z v s).dmem = s.dmem ∧ (setZone z v s).bmStatus = s.bmStatus ∧ (setZone z v s).bmBusy = s.bmBusy ∧
    (setZone z v s).bmTag = s.bmTag ∧ (setZone z v s).bmRows = s.bmRows ∧ (setZone z v s).out = s.out ∧
    (setZone z v s).freeCtr = s.freeCtr :=
  ⟨rfl, rfl, rfl, rfl, rfl, rfl, rfl, rfl, rfl, rfl, rfl, rfl, rfl, rfl, rfl, rfl, rfl, rfl, rfl, rfl, rfl,
    rfl, rfl, rfl, rfl, rfl, rfl, rfl, rfl, rfl, rfl, rfl, rfl, rfl, rfl, rfl, rfl⟩

/-- snapPut leaves every other field alone. -/
@[simp] theorem snapPut_fields (k : Nat) (p : Port) (n : Snap) (s : State) :
    (snapPut k p n s).pending = s.pending ∧ (snapPut k p n s).build = s.build ∧
    (snapPut k p n s).straps = s.straps ∧ (snapPut k p n s).hook = s.hook ∧ (snapPut k p n s).cfgW = s.cfgW ∧
    (snapPut k p n s).cfgA = s.cfgA ∧ (snapPut k p n s).nowR = s.nowR ∧ (snapPut k p n s).root = s.root ∧
    (snapPut k p n s).time = s.time ∧ (snapPut k p n s).logs = s.logs ∧ (snapPut k p n s).flocks = s.flocks ∧
    (snapPut k p n s).gens = s.gens ∧ (snapPut k p n s).regions = s.regions ∧ (snapPut k p n s).xing = s.xing ∧
    (snapPut k p n s).fold = s.fold ∧ (snapPut k p n s).fcst = s.fcst ∧ (snapPut k p n s).zones = s.zones ∧
    (snapPut k p n s).foTotal = s.foTotal ∧ (snapPut k p n s).crook = s.crook ∧
    (snapPut k p n s).tally = s.tally ∧ (snapPut k p n s).cal = s.cal ∧ (snapPut k p n s).mus = s.mus ∧
    (snapPut k p n s).shep = s.shep ∧ (snapPut k p n s).mbx = s.mbx ∧ (snapPut k p n s).cfg = s.cfg ∧
    (snapPut k p n s).events = s.events ∧ (snapPut k p n s).lc = s.lc ∧ (snapPut k p n s).power = s.power ∧
    (snapPut k p n s).data = s.data ∧ (snapPut k p n s).ret = s.ret ∧ (snapPut k p n s).dmem = s.dmem ∧
    (snapPut k p n s).bmStatus = s.bmStatus ∧ (snapPut k p n s).bmBusy = s.bmBusy ∧
    (snapPut k p n s).bmTag = s.bmTag ∧ (snapPut k p n s).bmRows = s.bmRows ∧ (snapPut k p n s).out = s.out ∧
    (snapPut k p n s).freeCtr = s.freeCtr :=
  ⟨rfl, rfl, rfl, rfl, rfl, rfl, rfl, rfl, rfl, rfl, rfl, rfl, rfl, rfl, rfl, rfl, rfl, rfl, rfl, rfl, rfl,
    rfl, rfl, rfl, rfl, rfl, rfl, rfl, rfl, rfl, rfl, rfl, rfl, rfl, rfl, rfl, rfl⟩

/-- setFbank leaves every other field alone. -/
@[simp] theorem setFbank_fields (b : BitVec 1) (x : Bank) (s : State) :
    (setFbank b x s).pending = s.pending ∧ (setFbank b x s).build = s.build ∧
    (setFbank b x s).straps = s.straps ∧ (setFbank b x s).hook = s.hook ∧ (setFbank b x s).cfgW = s.cfgW ∧
    (setFbank b x s).cfgA = s.cfgA ∧ (setFbank b x s).nowR = s.nowR ∧ (setFbank b x s).root = s.root ∧
    (setFbank b x s).time = s.time ∧ (setFbank b x s).snaps = s.snaps ∧ (setFbank b x s).logs = s.logs ∧
    (setFbank b x s).flocks = s.flocks ∧ (setFbank b x s).gens = s.gens ∧
    (setFbank b x s).regions = s.regions ∧ (setFbank b x s).xing = s.xing ∧ (setFbank b x s).fold = s.fold ∧
    (setFbank b x s).zones = s.zones ∧ (setFbank b x s).foTotal = s.foTotal ∧
    (setFbank b x s).crook = s.crook ∧ (setFbank b x s).tally = s.tally ∧ (setFbank b x s).cal = s.cal ∧
    (setFbank b x s).mus = s.mus ∧ (setFbank b x s).shep = s.shep ∧ (setFbank b x s).mbx = s.mbx ∧
    (setFbank b x s).cfg = s.cfg ∧ (setFbank b x s).events = s.events ∧ (setFbank b x s).lc = s.lc ∧
    (setFbank b x s).power = s.power ∧ (setFbank b x s).data = s.data ∧ (setFbank b x s).ret = s.ret ∧
    (setFbank b x s).dmem = s.dmem ∧ (setFbank b x s).bmStatus = s.bmStatus ∧
    (setFbank b x s).bmBusy = s.bmBusy ∧ (setFbank b x s).bmTag = s.bmTag ∧
    (setFbank b x s).bmRows = s.bmRows ∧ (setFbank b x s).out = s.out ∧ (setFbank b x s).freeCtr = s.freeCtr :=
  ⟨rfl, rfl, rfl, rfl, rfl, rfl, rfl, rfl, rfl, rfl, rfl, rfl, rfl, rfl, rfl, rfl, rfl, rfl, rfl, rfl, rfl,
    rfl, rfl, rfl, rfl, rfl, rfl, rfl, rfl, rfl, rfl, rfl, rfl, rfl, rfl, rfl, rfl⟩

/-- setSwBank leaves every other field alone. -/
@[simp] theorem setSwBank_fields (b : BitVec 1) (x : Bank) (s : State) :
    (setSwBank b x s).pending = s.pending ∧ (setSwBank b x s).build = s.build ∧
    (setSwBank b x s).straps = s.straps ∧ (setSwBank b x s).hook = s.hook ∧ (setSwBank b x s).cfgW = s.cfgW ∧
    (setSwBank b x s).cfgA = s.cfgA ∧ (setSwBank b x s).nowR = s.nowR ∧ (setSwBank b x s).root = s.root ∧
    (setSwBank b x s).time = s.time ∧ (setSwBank b x s).snaps = s.snaps ∧ (setSwBank b x s).logs = s.logs ∧
    (setSwBank b x s).flocks = s.flocks ∧ (setSwBank b x s).gens = s.gens ∧
    (setSwBank b x s).regions = s.regions ∧ (setSwBank b x s).xing = s.xing ∧ (setSwBank b x s).fold = s.fold ∧
    (setSwBank b x s).fcst = s.fcst ∧ (setSwBank b x s).zones = s.zones ∧
    (setSwBank b x s).foTotal = s.foTotal ∧ (setSwBank b x s).crook = s.crook ∧
    (setSwBank b x s).tally = s.tally ∧ (setSwBank b x s).cal = s.cal ∧ (setSwBank b x s).mus = s.mus ∧
    (setSwBank b x s).mbx = s.mbx ∧ (setSwBank b x s).cfg = s.cfg ∧ (setSwBank b x s).events = s.events ∧
    (setSwBank b x s).lc = s.lc ∧ (setSwBank b x s).power = s.power ∧ (setSwBank b x s).data = s.data ∧
    (setSwBank b x s).ret = s.ret ∧ (setSwBank b x s).dmem = s.dmem ∧ (setSwBank b x s).bmStatus = s.bmStatus ∧
    (setSwBank b x s).bmBusy = s.bmBusy ∧ (setSwBank b x s).bmTag = s.bmTag ∧
    (setSwBank b x s).bmRows = s.bmRows ∧ (setSwBank b x s).out = s.out ∧ (setSwBank b x s).freeCtr = s.freeCtr :=
  ⟨rfl, rfl, rfl, rfl, rfl, rfl, rfl, rfl, rfl, rfl, rfl, rfl, rfl, rfl, rfl, rfl, rfl, rfl, rfl, rfl, rfl,
    rfl, rfl, rfl, rfl, rfl, rfl, rfl, rfl, rfl, rfl, rfl, rfl, rfl, rfl, rfl, rfl⟩

/-- setMport leaves every other field alone. -/
@[simp] theorem setMport_fields (p : BitVec 1) (x : MusPort) (s : State) :
    (setMport p x s).pending = s.pending ∧ (setMport p x s).build = s.build ∧
    (setMport p x s).straps = s.straps ∧ (setMport p x s).hook = s.hook ∧ (setMport p x s).cfgW = s.cfgW ∧
    (setMport p x s).cfgA = s.cfgA ∧ (setMport p x s).nowR = s.nowR ∧ (setMport p x s).root = s.root ∧
    (setMport p x s).time = s.time ∧ (setMport p x s).snaps = s.snaps ∧ (setMport p x s).logs = s.logs ∧
    (setMport p x s).flocks = s.flocks ∧ (setMport p x s).gens = s.gens ∧
    (setMport p x s).regions = s.regions ∧ (setMport p x s).xing = s.xing ∧ (setMport p x s).fold = s.fold ∧
    (setMport p x s).fcst = s.fcst ∧ (setMport p x s).zones = s.zones ∧ (setMport p x s).foTotal = s.foTotal ∧
    (setMport p x s).crook = s.crook ∧ (setMport p x s).tally = s.tally ∧ (setMport p x s).cal = s.cal ∧
    (setMport p x s).shep = s.shep ∧ (setMport p x s).mbx = s.mbx ∧ (setMport p x s).cfg = s.cfg ∧
    (setMport p x s).events = s.events ∧ (setMport p x s).lc = s.lc ∧ (setMport p x s).power = s.power ∧
    (setMport p x s).data = s.data ∧ (setMport p x s).ret = s.ret ∧ (setMport p x s).dmem = s.dmem ∧
    (setMport p x s).bmStatus = s.bmStatus ∧ (setMport p x s).bmBusy = s.bmBusy ∧
    (setMport p x s).bmTag = s.bmTag ∧ (setMport p x s).bmRows = s.bmRows ∧ (setMport p x s).out = s.out ∧
    (setMport p x s).freeCtr = s.freeCtr :=
  ⟨rfl, rfl, rfl, rfl, rfl, rfl, rfl, rfl, rfl, rfl, rfl, rfl, rfl, rfl, rfl, rfl, rfl, rfl, rfl, rfl, rfl,
    rfl, rfl, rfl, rfl, rfl, rfl, rfl, rfl, rfl, rfl, rfl, rfl, rfl, rfl, rfl, rfl⟩

/-- setMbox leaves every other field alone. -/
@[simp] theorem setMbox_fields (m : Nat) (x : Mailbox) (s : State) :
    (setMbox m x s).pending = s.pending ∧ (setMbox m x s).build = s.build ∧ (setMbox m x s).straps = s.straps ∧
    (setMbox m x s).hook = s.hook ∧ (setMbox m x s).cfgW = s.cfgW ∧ (setMbox m x s).cfgA = s.cfgA ∧
    (setMbox m x s).nowR = s.nowR ∧ (setMbox m x s).root = s.root ∧ (setMbox m x s).time = s.time ∧
    (setMbox m x s).snaps = s.snaps ∧ (setMbox m x s).logs = s.logs ∧ (setMbox m x s).flocks = s.flocks ∧
    (setMbox m x s).gens = s.gens ∧ (setMbox m x s).regions = s.regions ∧ (setMbox m x s).xing = s.xing ∧
    (setMbox m x s).fold = s.fold ∧ (setMbox m x s).fcst = s.fcst ∧ (setMbox m x s).zones = s.zones ∧
    (setMbox m x s).foTotal = s.foTotal ∧ (setMbox m x s).crook = s.crook ∧ (setMbox m x s).tally = s.tally ∧
    (setMbox m x s).cal = s.cal ∧ (setMbox m x s).mus = s.mus ∧ (setMbox m x s).shep = s.shep ∧
    (setMbox m x s).cfg = s.cfg ∧ (setMbox m x s).events = s.events ∧ (setMbox m x s).lc = s.lc ∧
    (setMbox m x s).power = s.power ∧ (setMbox m x s).data = s.data ∧ (setMbox m x s).ret = s.ret ∧
    (setMbox m x s).dmem = s.dmem ∧ (setMbox m x s).bmStatus = s.bmStatus ∧ (setMbox m x s).bmBusy = s.bmBusy ∧
    (setMbox m x s).bmTag = s.bmTag ∧ (setMbox m x s).bmRows = s.bmRows ∧ (setMbox m x s).out = s.out ∧
    (setMbox m x s).freeCtr = s.freeCtr :=
  ⟨rfl, rfl, rfl, rfl, rfl, rfl, rfl, rfl, rfl, rfl, rfl, rfl, rfl, rfl, rfl, rfl, rfl, rfl, rfl, rfl, rfl,
    rfl, rfl, rfl, rfl, rfl, rfl, rfl, rfl, rfl, rfl, rfl, rfl, rfl, rfl, rfl, rfl⟩

/-- setSyn leaves every other field alone. -/
@[simp] theorem setSyn_fields (y : Syn) (v : Synth) (s : State) :
    (setSyn y v s).pending = s.pending ∧ (setSyn y v s).build = s.build ∧ (setSyn y v s).straps = s.straps ∧
    (setSyn y v s).hook = s.hook ∧ (setSyn y v s).cfgW = s.cfgW ∧ (setSyn y v s).cfgA = s.cfgA ∧
    (setSyn y v s).nowR = s.nowR ∧ (setSyn y v s).time = s.time ∧ (setSyn y v s).snaps = s.snaps ∧
    (setSyn y v s).logs = s.logs ∧ (setSyn y v s).flocks = s.flocks ∧ (setSyn y v s).gens = s.gens ∧
    (setSyn y v s).regions = s.regions ∧ (setSyn y v s).xing = s.xing ∧ (setSyn y v s).fold = s.fold ∧
    (setSyn y v s).fcst = s.fcst ∧ (setSyn y v s).zones = s.zones ∧ (setSyn y v s).foTotal = s.foTotal ∧
    (setSyn y v s).crook = s.crook ∧ (setSyn y v s).tally = s.tally ∧ (setSyn y v s).cal = s.cal ∧
    (setSyn y v s).mus = s.mus ∧ (setSyn y v s).shep = s.shep ∧ (setSyn y v s).mbx = s.mbx ∧
    (setSyn y v s).cfg = s.cfg ∧ (setSyn y v s).events = s.events ∧ (setSyn y v s).lc = s.lc ∧
    (setSyn y v s).power = s.power ∧ (setSyn y v s).data = s.data ∧ (setSyn y v s).ret = s.ret ∧
    (setSyn y v s).dmem = s.dmem ∧ (setSyn y v s).bmStatus = s.bmStatus ∧ (setSyn y v s).bmBusy = s.bmBusy ∧
    (setSyn y v s).bmTag = s.bmTag ∧ (setSyn y v s).bmRows = s.bmRows ∧ (setSyn y v s).out = s.out ∧
    (setSyn y v s).freeCtr = s.freeCtr := by
  cases y <;> simp only [setSyn, and_self]

/-- setTally leaves every other field alone. -/
@[simp] theorem setTally_fields (u : Nat) (v : TallyUnit) (s : State) :
    (setTally u v s).pending = s.pending ∧ (setTally u v s).build = s.build ∧
    (setTally u v s).straps = s.straps ∧ (setTally u v s).hook = s.hook ∧ (setTally u v s).cfgW = s.cfgW ∧
    (setTally u v s).cfgA = s.cfgA ∧ (setTally u v s).nowR = s.nowR ∧ (setTally u v s).root = s.root ∧
    (setTally u v s).time = s.time ∧ (setTally u v s).snaps = s.snaps ∧ (setTally u v s).logs = s.logs ∧
    (setTally u v s).flocks = s.flocks ∧ (setTally u v s).gens = s.gens ∧
    (setTally u v s).regions = s.regions ∧ (setTally u v s).xing = s.xing ∧ (setTally u v s).fold = s.fold ∧
    (setTally u v s).fcst = s.fcst ∧ (setTally u v s).zones = s.zones ∧ (setTally u v s).foTotal = s.foTotal ∧
    (setTally u v s).crook = s.crook ∧ (setTally u v s).cal = s.cal ∧ (setTally u v s).mus = s.mus ∧
    (setTally u v s).shep = s.shep ∧ (setTally u v s).mbx = s.mbx ∧ (setTally u v s).cfg = s.cfg ∧
    (setTally u v s).events = s.events ∧ (setTally u v s).lc = s.lc ∧ (setTally u v s).power = s.power ∧
    (setTally u v s).data = s.data ∧ (setTally u v s).ret = s.ret ∧ (setTally u v s).dmem = s.dmem ∧
    (setTally u v s).bmStatus = s.bmStatus ∧ (setTally u v s).bmBusy = s.bmBusy ∧
    (setTally u v s).bmTag = s.bmTag ∧ (setTally u v s).bmRows = s.bmRows ∧ (setTally u v s).out = s.out ∧
    (setTally u v s).freeCtr = s.freeCtr := by
  unfold setTally
  (repeat' split) <;> simp only [and_self]

/-- raise leaves every other field alone. -/
@[simp] theorem raise_fields (b : Block) (k : Nat) (s : State) :
    (raise b k s).pending = s.pending ∧ (raise b k s).build = s.build ∧ (raise b k s).straps = s.straps ∧
    (raise b k s).hook = s.hook ∧ (raise b k s).cfgW = s.cfgW ∧ (raise b k s).cfgA = s.cfgA ∧
    (raise b k s).nowR = s.nowR ∧ (raise b k s).root = s.root ∧ (raise b k s).time = s.time ∧
    (raise b k s).snaps = s.snaps ∧ (raise b k s).logs = s.logs ∧ (raise b k s).flocks = s.flocks ∧
    (raise b k s).gens = s.gens ∧ (raise b k s).regions = s.regions ∧ (raise b k s).xing = s.xing ∧
    (raise b k s).fold = s.fold ∧ (raise b k s).fcst = s.fcst ∧ (raise b k s).zones = s.zones ∧
    (raise b k s).foTotal = s.foTotal ∧ (raise b k s).crook = s.crook ∧ (raise b k s).tally = s.tally ∧
    (raise b k s).cal = s.cal ∧ (raise b k s).mus = s.mus ∧ (raise b k s).shep = s.shep ∧
    (raise b k s).mbx = s.mbx ∧ (raise b k s).cfg = s.cfg ∧ (raise b k s).lc = s.lc ∧
    (raise b k s).power = s.power ∧ (raise b k s).data = s.data ∧ (raise b k s).ret = s.ret ∧
    (raise b k s).dmem = s.dmem ∧ (raise b k s).bmStatus = s.bmStatus ∧ (raise b k s).bmBusy = s.bmBusy ∧
    (raise b k s).bmTag = s.bmTag ∧ (raise b k s).bmRows = s.bmRows ∧ (raise b k s).out = s.out ∧
    (raise b k s).freeCtr = s.freeCtr :=
  ⟨rfl, rfl, rfl, rfl, rfl, rfl, rfl, rfl, rfl, rfl, rfl, rfl, rfl, rfl, rfl, rfl, rfl, rfl, rfl, rfl, rfl,
    rfl, rfl, rfl, rfl, rfl, rfl, rfl, rfl, rfl, rfl, rfl, rfl, rfl, rfl, rfl, rfl⟩

/-- raiseAbout leaves every other field alone. -/
@[simp] theorem raiseAbout_fields (b : Block) (k a : Nat) (s : State) :
    (raiseAbout b k a s).pending = s.pending ∧ (raiseAbout b k a s).build = s.build ∧
    (raiseAbout b k a s).straps = s.straps ∧ (raiseAbout b k a s).hook = s.hook ∧
    (raiseAbout b k a s).cfgW = s.cfgW ∧ (raiseAbout b k a s).cfgA = s.cfgA ∧
    (raiseAbout b k a s).nowR = s.nowR ∧ (raiseAbout b k a s).root = s.root ∧
    (raiseAbout b k a s).time = s.time ∧ (raiseAbout b k a s).snaps = s.snaps ∧
    (raiseAbout b k a s).logs = s.logs ∧ (raiseAbout b k a s).flocks = s.flocks ∧
    (raiseAbout b k a s).gens = s.gens ∧ (raiseAbout b k a s).regions = s.regions ∧
    (raiseAbout b k a s).xing = s.xing ∧ (raiseAbout b k a s).fold = s.fold ∧
    (raiseAbout b k a s).fcst = s.fcst ∧ (raiseAbout b k a s).zones = s.zones ∧
    (raiseAbout b k a s).foTotal = s.foTotal ∧ (raiseAbout b k a s).crook = s.crook ∧
    (raiseAbout b k a s).tally = s.tally ∧ (raiseAbout b k a s).cal = s.cal ∧
    (raiseAbout b k a s).mus = s.mus ∧ (raiseAbout b k a s).shep = s.shep ∧ (raiseAbout b k a s).mbx = s.mbx ∧
    (raiseAbout b k a s).cfg = s.cfg ∧ (raiseAbout b k a s).lc = s.lc ∧ (raiseAbout b k a s).power = s.power ∧
    (raiseAbout b k a s).data = s.data ∧ (raiseAbout b k a s).ret = s.ret ∧
    (raiseAbout b k a s).dmem = s.dmem ∧ (raiseAbout b k a s).bmStatus = s.bmStatus ∧
    (raiseAbout b k a s).bmBusy = s.bmBusy ∧ (raiseAbout b k a s).bmTag = s.bmTag ∧
    (raiseAbout b k a s).bmRows = s.bmRows ∧ (raiseAbout b k a s).out = s.out ∧
    (raiseAbout b k a s).freeCtr = s.freeCtr := by
  simp only [raiseAbout, raise_fields, and_self]

/-- raiseIf leaves every other field alone. -/
@[simp] theorem raiseIf_fields (c : Bool) (b : Block) (k : Nat) (s : State) :
    (raiseIf c b k s).pending = s.pending ∧ (raiseIf c b k s).build = s.build ∧
    (raiseIf c b k s).straps = s.straps ∧ (raiseIf c b k s).hook = s.hook ∧ (raiseIf c b k s).cfgW = s.cfgW ∧
    (raiseIf c b k s).cfgA = s.cfgA ∧ (raiseIf c b k s).nowR = s.nowR ∧ (raiseIf c b k s).root = s.root ∧
    (raiseIf c b k s).time = s.time ∧ (raiseIf c b k s).snaps = s.snaps ∧ (raiseIf c b k s).logs = s.logs ∧
    (raiseIf c b k s).flocks = s.flocks ∧ (raiseIf c b k s).gens = s.gens ∧
    (raiseIf c b k s).regions = s.regions ∧ (raiseIf c b k s).xing = s.xing ∧ (raiseIf c b k s).fold = s.fold ∧
    (raiseIf c b k s).fcst = s.fcst ∧ (raiseIf c b k s).zones = s.zones ∧
    (raiseIf c b k s).foTotal = s.foTotal ∧ (raiseIf c b k s).crook = s.crook ∧
    (raiseIf c b k s).tally = s.tally ∧ (raiseIf c b k s).cal = s.cal ∧ (raiseIf c b k s).mus = s.mus ∧
    (raiseIf c b k s).shep = s.shep ∧ (raiseIf c b k s).mbx = s.mbx ∧ (raiseIf c b k s).cfg = s.cfg ∧
    (raiseIf c b k s).lc = s.lc ∧ (raiseIf c b k s).power = s.power ∧ (raiseIf c b k s).data = s.data ∧
    (raiseIf c b k s).ret = s.ret ∧ (raiseIf c b k s).dmem = s.dmem ∧ (raiseIf c b k s).bmStatus = s.bmStatus ∧
    (raiseIf c b k s).bmBusy = s.bmBusy ∧ (raiseIf c b k s).bmTag = s.bmTag ∧
    (raiseIf c b k s).bmRows = s.bmRows ∧ (raiseIf c b k s).out = s.out ∧ (raiseIf c b k s).freeCtr = s.freeCtr := by
  cases c <;> simp only [raiseIf, raise_fields, if_true, Bool.false_eq_true, if_false, and_self]

/-- clearEvents leaves every other field alone. -/
@[simp] theorem clearEvents_fields (b : Block) (v : Word) (s : State) :
    (clearEvents b v s).pending = s.pending ∧ (clearEvents b v s).build = s.build ∧
    (clearEvents b v s).straps = s.straps ∧ (clearEvents b v s).hook = s.hook ∧
    (clearEvents b v s).cfgW = s.cfgW ∧ (clearEvents b v s).cfgA = s.cfgA ∧ (clearEvents b v s).nowR = s.nowR ∧
    (clearEvents b v s).root = s.root ∧ (clearEvents b v s).time = s.time ∧
    (clearEvents b v s).snaps = s.snaps ∧ (clearEvents b v s).logs = s.logs ∧
    (clearEvents b v s).flocks = s.flocks ∧ (clearEvents b v s).gens = s.gens ∧
    (clearEvents b v s).regions = s.regions ∧ (clearEvents b v s).xing = s.xing ∧
    (clearEvents b v s).fold = s.fold ∧ (clearEvents b v s).fcst = s.fcst ∧
    (clearEvents b v s).zones = s.zones ∧ (clearEvents b v s).foTotal = s.foTotal ∧
    (clearEvents b v s).crook = s.crook ∧ (clearEvents b v s).tally = s.tally ∧
    (clearEvents b v s).cal = s.cal ∧ (clearEvents b v s).mus = s.mus ∧ (clearEvents b v s).shep = s.shep ∧
    (clearEvents b v s).mbx = s.mbx ∧ (clearEvents b v s).cfg = s.cfg ∧ (clearEvents b v s).lc = s.lc ∧
    (clearEvents b v s).power = s.power ∧ (clearEvents b v s).data = s.data ∧ (clearEvents b v s).ret = s.ret ∧
    (clearEvents b v s).dmem = s.dmem ∧ (clearEvents b v s).bmStatus = s.bmStatus ∧
    (clearEvents b v s).bmBusy = s.bmBusy ∧ (clearEvents b v s).bmTag = s.bmTag ∧
    (clearEvents b v s).bmRows = s.bmRows ∧ (clearEvents b v s).out = s.out ∧
    (clearEvents b v s).freeCtr = s.freeCtr := by
  simp only [clearEvents]
  split <;> simp only [and_self]

/-- nowPut leaves every other field alone. -/
@[simp] theorem nowPut_fields (k : Nat) (v : Word) (s : State) :
    (nowPut k v s).pending = s.pending ∧ (nowPut k v s).build = s.build ∧ (nowPut k v s).straps = s.straps ∧
    (nowPut k v s).hook = s.hook ∧ (nowPut k v s).cfgW = s.cfgW ∧ (nowPut k v s).cfgA = s.cfgA ∧
    (nowPut k v s).root = s.root ∧ (nowPut k v s).time = s.time ∧ (nowPut k v s).snaps = s.snaps ∧
    (nowPut k v s).logs = s.logs ∧ (nowPut k v s).flocks = s.flocks ∧ (nowPut k v s).gens = s.gens ∧
    (nowPut k v s).regions = s.regions ∧ (nowPut k v s).xing = s.xing ∧ (nowPut k v s).fold = s.fold ∧
    (nowPut k v s).fcst = s.fcst ∧ (nowPut k v s).zones = s.zones ∧ (nowPut k v s).foTotal = s.foTotal ∧
    (nowPut k v s).crook = s.crook ∧ (nowPut k v s).tally = s.tally ∧ (nowPut k v s).cal = s.cal ∧
    (nowPut k v s).mus = s.mus ∧ (nowPut k v s).shep = s.shep ∧ (nowPut k v s).mbx = s.mbx ∧
    (nowPut k v s).cfg = s.cfg ∧ (nowPut k v s).events = s.events ∧ (nowPut k v s).lc = s.lc ∧
    (nowPut k v s).power = s.power ∧ (nowPut k v s).data = s.data ∧ (nowPut k v s).ret = s.ret ∧
    (nowPut k v s).dmem = s.dmem ∧ (nowPut k v s).bmStatus = s.bmStatus ∧ (nowPut k v s).bmBusy = s.bmBusy ∧
    (nowPut k v s).bmTag = s.bmTag ∧ (nowPut k v s).bmRows = s.bmRows ∧ (nowPut k v s).out = s.out ∧
    (nowPut k v s).freeCtr = s.freeCtr := by
  unfold nowPut
  (repeat' split) <;> simp only [and_self]

/-- bellPut leaves every other field alone. -/
@[simp] theorem bellPut_fields (k : Nat) (v : Word) (s : State) :
    (bellPut k v s).pending = s.pending ∧ (bellPut k v s).build = s.build ∧ (bellPut k v s).straps = s.straps ∧
    (bellPut k v s).hook = s.hook ∧ (bellPut k v s).cfgA = s.cfgA ∧ (bellPut k v s).nowR = s.nowR ∧
    (bellPut k v s).root = s.root ∧ (bellPut k v s).time = s.time ∧ (bellPut k v s).snaps = s.snaps ∧
    (bellPut k v s).logs = s.logs ∧ (bellPut k v s).flocks = s.flocks ∧ (bellPut k v s).gens = s.gens ∧
    (bellPut k v s).regions = s.regions ∧ (bellPut k v s).xing = s.xing ∧ (bellPut k v s).fold = s.fold ∧
    (bellPut k v s).fcst = s.fcst ∧ (bellPut k v s).zones = s.zones ∧ (bellPut k v s).foTotal = s.foTotal ∧
    (bellPut k v s).crook = s.crook ∧ (bellPut k v s).tally = s.tally ∧ (bellPut k v s).cal = s.cal ∧
    (bellPut k v s).mus = s.mus ∧ (bellPut k v s).shep = s.shep ∧ (bellPut k v s).mbx = s.mbx ∧
    (bellPut k v s).events = s.events ∧ (bellPut k v s).lc = s.lc ∧ (bellPut k v s).power = s.power ∧
    (bellPut k v s).data = s.data ∧ (bellPut k v s).ret = s.ret ∧ (bellPut k v s).dmem = s.dmem ∧
    (bellPut k v s).bmStatus = s.bmStatus ∧ (bellPut k v s).bmBusy = s.bmBusy ∧
    (bellPut k v s).bmTag = s.bmTag ∧ (bellPut k v s).bmRows = s.bmRows ∧ (bellPut k v s).out = s.out ∧
    (bellPut k v s).freeCtr = s.freeCtr := by
  unfold bellPut
  split
  · simp only [and_self]
  · simp only []
    split <;> simp only [and_self]

/-- deny leaves every other field alone. -/
@[simp] theorem deny_fields (p : Port) (s : State) :
    (deny p s).pending = s.pending ∧ (deny p s).build = s.build ∧ (deny p s).straps = s.straps ∧
    (deny p s).hook = s.hook ∧ (deny p s).cfgW = s.cfgW ∧ (deny p s).cfgA = s.cfgA ∧ (deny p s).nowR = s.nowR ∧
    (deny p s).root = s.root ∧ (deny p s).time = s.time ∧ (deny p s).snaps = s.snaps ∧
    (deny p s).logs = s.logs ∧ (deny p s).flocks = s.flocks ∧ (deny p s).gens = s.gens ∧
    (deny p s).regions = s.regions ∧ (deny p s).xing = s.xing ∧ (deny p s).fold = s.fold ∧
    (deny p s).fcst = s.fcst ∧ (deny p s).zones = s.zones ∧ (deny p s).foTotal = s.foTotal ∧
    (deny p s).crook = s.crook ∧ (deny p s).tally = s.tally ∧ (deny p s).cal = s.cal ∧ (deny p s).mus = s.mus ∧
    (deny p s).shep = s.shep ∧ (deny p s).mbx = s.mbx ∧ (deny p s).lc = s.lc ∧ (deny p s).power = s.power ∧
    (deny p s).data = s.data ∧ (deny p s).ret = s.ret ∧ (deny p s).dmem = s.dmem ∧
    (deny p s).bmStatus = s.bmStatus ∧ (deny p s).bmBusy = s.bmBusy ∧ (deny p s).bmTag = s.bmTag ∧
    (deny p s).bmRows = s.bmRows ∧ (deny p s).freeCtr = s.freeCtr :=
  ⟨rfl, rfl, rfl, rfl, rfl, rfl, rfl, rfl, rfl, rfl, rfl, rfl, rfl, rfl, rfl, rfl, rfl, rfl, rfl, rfl, rfl,
    rfl, rfl, rfl, rfl, rfl, rfl, rfl, rfl, rfl, rfl, rfl, rfl, rfl, rfl⟩

/-- answer leaves every other field alone. -/
@[simp] theorem answer_fields (r : Resp) (s : State) :
    (answer r s).pending = s.pending ∧ (answer r s).build = s.build ∧ (answer r s).straps = s.straps ∧
    (answer r s).hook = s.hook ∧ (answer r s).cfgW = s.cfgW ∧ (answer r s).cfgA = s.cfgA ∧
    (answer r s).nowR = s.nowR ∧ (answer r s).root = s.root ∧ (answer r s).time = s.time ∧
    (answer r s).snaps = s.snaps ∧ (answer r s).logs = s.logs ∧ (answer r s).flocks = s.flocks ∧
    (answer r s).gens = s.gens ∧ (answer r s).regions = s.regions ∧ (answer r s).xing = s.xing ∧
    (answer r s).fold = s.fold ∧ (answer r s).fcst = s.fcst ∧ (answer r s).zones = s.zones ∧
    (answer r s).foTotal = s.foTotal ∧ (answer r s).crook = s.crook ∧ (answer r s).tally = s.tally ∧
    (answer r s).cal = s.cal ∧ (answer r s).mus = s.mus ∧ (answer r s).shep = s.shep ∧
    (answer r s).mbx = s.mbx ∧ (answer r s).cfg = s.cfg ∧ (answer r s).events = s.events ∧
    (answer r s).lc = s.lc ∧ (answer r s).power = s.power ∧ (answer r s).data = s.data ∧
    (answer r s).ret = s.ret ∧ (answer r s).dmem = s.dmem ∧ (answer r s).bmStatus = s.bmStatus ∧
    (answer r s).bmBusy = s.bmBusy ∧ (answer r s).bmTag = s.bmTag ∧ (answer r s).bmRows = s.bmRows ∧
    (answer r s).freeCtr = s.freeCtr :=
  ⟨rfl, rfl, rfl, rfl, rfl, rfl, rfl, rfl, rfl, rfl, rfl, rfl, rfl, rfl, rfl, rfl, rfl, rfl, rfl, rfl, rfl,
    rfl, rfl, rfl, rfl, rfl, rfl, rfl, rfl, rfl, rfl, rfl, rfl, rfl, rfl, rfl, rfl⟩

/-! ### What an accessor reads after its update -/

@[simp] theorem flockOf_setFlock (f g : Nat) (x : Flock) (s : State) :
    flockOf (setFlock f x s) g = if g = f then x else flockOf s g := tabGet_set ..

@[simp] theorem genOf_setGen (f g : Nat) (x : Gen) (s : State) :
    genOf (setGen f x s) g = if g = f then x else genOf s g := tabGet_set ..

@[simp] theorem regionOf_setRegion (r q : Nat) (x : Region) (s : State) :
    regionOf (setRegion r x s) q = if q = r then x else regionOf s q := tabGet_set ..

@[simp] theorem xingOf_setXing (x y : Nat) (v : Xing) (s : State) :
    xingOf (setXing x v s) y = if y = x then v else xingOf s y := tabGet_set ..

@[simp] theorem classOf_setClass (n m : Nat) (c : ClassSt) (s : State) :
    classOf (setClass n c s) m = if m = n then c else classOf s m := tabGet_set ..

@[simp] theorem zoneOf_setZone (z y : Nat) (v : ZoneSt) (s : State) :
    zoneOf (setZone z v s) y = if y = z then v else zoneOf s y := tabGet_set ..

@[simp] theorem synOf_setSyn (y : Syn) (v : Synth) (s : State) : synOf (setSyn y v s) y = v := by cases y <;> rfl

@[simp] theorem synOf_setSyn_other (y : Syn) (v : Synth) (s : State) :
    synOf (setSyn y v s) (otherSyn y) = synOf s (otherSyn y) := by cases y <;> rfl

@[simp] theorem fbank_setFbank (b : BitVec 1) (x : Bank) (s : State) : fbank (setFbank b x s) b = x := by
  unfold fbank setFbank
  by_cases h : b = 0
  · simp only [if_pos h]
  · simp only [if_neg h]

@[simp] theorem swBank_setSwBank (b : BitVec 1) (x : Bank) (s : State) : swBank (setSwBank b x s) b = x := by
  unfold swBank setSwBank
  by_cases h : b = 0
  · simp only [if_pos h]
  · simp only [if_neg h]

@[simp] theorem mport_setMport (p : BitVec 1) (x : MusPort) (s : State) : mport (setMport p x s) p = x := by
  unfold mport setMport
  by_cases h : p = 0
  · simp only [if_pos h]
  · simp only [if_neg h]

@[simp] theorem mbox_setMbox (m : Nat) (x : Mailbox) (s : State) : mbox (setMbox m x s) m = x := by
  by_cases h : m = 0 <;> by_cases h' : m = 1 <;> simp [mbox, setMbox, h, h']

@[simp] theorem tallyUnit_setTally (u : Nat) (x : TallyUnit) (s : State) : tallyUnit (setTally u x s) u = x := by
  by_cases h : u = 0 <;> by_cases h' : u = 1 <;> by_cases h'' : u = 2 <;> simp [tallyUnit, setTally, h, h', h'']

/-- A "now" register reads the bits written that it implements (R440). -/
theorem nowGet_put {k : Nat} {m d : Word} (v : Word) (s : State) (h : nowReg s.build s.root.xtalSel.toNat k = some (m, d)) :
    nowGet (nowPut k v s) k = v &&& m := by
  simp [nowGet, nowPut, h, nowReset]

theorem nowGet_put_other {k j : Nat} (v : Word) (s : State) (h : j ≠ k) : nowGet (nowPut k v s) j = nowGet s j := by
  unfold nowGet nowPut
  split
  · exact tabGet_set_away (α := Word) _ _ _ _ h
  · rfl

end Sys2Proof.Machine
end

