-- ==== Sys2Proof/Laws/Words.lean ====
section
/-!
SUPPORT. The fields of the command words that the TAG registers take: what each write reads back out of the
word that the command stands for.
-/
namespace Sys2Proof.Machine
open Sys2Proof

theorem fld_ofNat (n lo k : Nat) (h : n < 2 ^ 32) : fld (BitVec.ofNat 32 n) lo k = n / 2 ^ lo % 2 ^ k := by
  rw [fld, BitVec.toNat_ofNat, Nat.mod_eq_of_lt h]

theorem packWord_two (a b c d e f : Nat) :
    packWord [(a, b, c), (d, e, f)] = BitVec.ofNat 32 (0 + c % 2 ^ b * 2 ^ a + f % 2 ^ e * 2 ^ d) := rfl

theorem packWord_three (a b c d e f g h i : Nat) : packWord [(a, b, c), (d, e, f), (g, h, i)] =
    BitVec.ofNat 32 (0 + c % 2 ^ b * 2 ^ a + f % 2 ^ e * 2 ^ d + i % 2 ^ h * 2 ^ g) := rfl

theorem packWord_four (a b c d e f g h i j k l : Nat) : packWord [(a, b, c), (d, e, f), (g, h, i), (j, k, l)] =
    BitVec.ofNat 32 (0 + c % 2 ^ b * 2 ^ a + f % 2 ^ e * 2 ^ d + i % 2 ^ h * 2 ^ g + l % 2 ^ k * 2 ^ j) := rfl

/-! ### FCST_CTRL and SHEP_BANK_CTRL -/

theorem fcstWord_op (op b : Nat) (t : BitVec 8) : fld (fcstWord op b t.toNat) 0 3 = op % 8 := by
  have := t.isLt
  rw [fcstWord, packWord_three, fld_ofNat _ _ _ (by omega)]; omega

theorem fcstWord_bank (op : Nat) (b : BitVec 1) (t : BitVec 8) : BitVec.ofNat 1 (fld (fcstWord op b.toNat t.toNat) 4 1) = b := by
  have := b.isLt; have := t.isLt
  rw [fcstWord, packWord_three, fld_ofNat _ _ _ (by omega)]; apply BitVec.eq_of_toNat_eq; simp only [BitVec.toNat_ofNat, Nat.reducePow]; omega

theorem fcstWord_tag (op b : Nat) (t : BitVec 8) : BitVec.ofNat 8 (fld (fcstWord op b t.toNat) 8 8) = t := by
  have := t.isLt
  rw [fcstWord, packWord_three, fld_ofNat _ _ _ (by omega)]; apply BitVec.eq_of_toNat_eq; simp only [BitVec.toNat_ofNat, Nat.reducePow]; omega

theorem swWord_eq (op b t : Nat) : swWord op b t = fcstWord op b t := rfl

/-! ### FLOCK_GEN_CTRL -/

theorem genWord_op (op : Nat) (g : BitVec 5) (t : BitVec 8) : fld (genWord op g t) 8 2 = op % 4 := by
  have := g.isLt; have := t.isLt
  rw [genWord, packWord_three, fld_ofNat _ _ _ (by omega)]; omega

theorem genWord_gen (op : Nat) (g : BitVec 5) (t : BitVec 8) : fld (genWord op g t) 0 5 = g.toNat := by
  have := g.isLt; have := t.isLt
  rw [genWord, packWord_three, fld_ofNat _ _ _ (by omega)]; omega

theorem genWord_tag (op : Nat) (g : BitVec 5) (t : BitVec 8) : BitVec.ofNat 8 (fld (genWord op g t) 24 8) = t := by
  have := g.isLt; have := t.isLt
  rw [genWord, packWord_three, fld_ofNat _ _ _ (by omega)]; apply BitVec.eq_of_toNat_eq; simp only [BitVec.toNat_ofNat, Nat.reducePow]; omega

/-! ### CRK_CMD -/

theorem crkWord_op (op t g : Nat) (tag : BitVec 8) : fld (crkWord op t g tag.toNat) 0 4 = op % 16 := by
  have := tag.isLt
  rw [crkWord, packWord_four, fld_ofNat _ _ _ (by omega)]; omega

theorem crkWord_target (op : Nat) (t : BitVec 13) (g : Nat) (tag : BitVec 8) : fld (crkWord op t.toNat g tag.toNat) 4 13 = t.toNat := by
  have := tag.isLt; have := t.isLt
  rw [crkWord, packWord_four, fld_ofNat _ _ _ (by omega)]; omega

theorem crkWord_gen (op t : Nat) (g : BitVec 2) (tag : BitVec 8) : fld (crkWord op t g.toNat tag.toNat) 17 2 = g.toNat := by
  have := tag.isLt; have := g.isLt
  rw [crkWord, packWord_four, fld_ofNat _ _ _ (by omega)]; omega

theorem crkWord_tag (op t g : Nat) (tag : BitVec 8) : BitVec.ofNat 8 (fld (crkWord op t g tag.toNat) 24 8) = tag := by
  have := tag.isLt
  rw [crkWord, packWord_four, fld_ofNat _ _ _ (by omega)]; apply BitVec.eq_of_toNat_eq; simp only [BitVec.toNat_ofNat, Nat.reducePow]; omega

/-! ### CAL_CTRL -/

theorem calWord_op (op f : Nat) (tag : BitVec 8) : fld (calWord op f tag.toNat) 0 3 = op % 8 := by
  have := tag.isLt
  rw [calWord, packWord_three, fld_ofNat _ _ _ (by omega)]; omega

theorem calWord_flock (op : Nat) (f : BitVec 9) (tag : BitVec 8) : fld (calWord op f.toNat tag.toNat) 8 9 = f.toNat := by
  have := tag.isLt; have := f.isLt
  rw [calWord, packWord_three, fld_ofNat _ _ _ (by omega)]; omega

theorem calWord_tag (op f : Nat) (tag : BitVec 8) : BitVec.ofNat 8 (fld (calWord op f tag.toNat) 24 8) = tag := by
  have := tag.isLt
  rw [calWord, packWord_three, fld_ofNat _ _ _ (by omega)]; apply BitVec.eq_of_toNat_eq; simp only [BitVec.toNat_ofNat, Nat.reducePow]; omega

/-! ### TALLY_CMD -/

theorem tallyWord_op (op : Nat) (tag : BitVec 8) : fld (tallyWord op tag.toNat) 0 2 = op % 4 := by
  have := tag.isLt
  rw [tallyWord, packWord_two, fld_ofNat _ _ _ (by omega)]; omega

theorem tallyWord_tag (op : Nat) (tag : BitVec 8) : BitVec.ofNat 8 (fld (tallyWord op tag.toNat) 8 8) = tag := by
  have := tag.isLt
  rw [tallyWord, packWord_two, fld_ofNat _ _ _ (by omega)]; apply BitVec.eq_of_toNat_eq; simp only [BitVec.toNat_ofNat, Nat.reducePow]; omega

end Sys2Proof.Machine
end

