-- ==== Sys2Proof/Tests/Slice0.lean ====
section
/-!
SUPPORT. Tests: for each command the states and operands that meet the hypotheses of its statements and what it
then does, ill-formed terms that WellFormed refuses, and words that spell no command.  Expected results are the
manual's rules worked by hand.
-/
set_option Elab.async false
set_option maxRecDepth 8000

open Sys2Proof Sys2Proof.Machine

def nextSat (o : Host.Outcome State Fault Refusal) (p : State → Bool) : Bool :=
  match o with
  | .next t => p t
  | _ => false
def tBuild : Build :=
  { regions := 256, flocks := 16, spares := 2, classes := 3, zones := 2, xings := 8, tiers := 0, logic := 256 }
def tTiny : Build :=
  { regions := 16, flocks := 1, spares := 2, classes := 1, zones := 1, xings := 8, tiers := 0, logic := 16 }
theorem test_build : tBuild.valid = true := by decide
def tUp : State :=
  { State.reset with
    build := tBuild,
    time := { slowEdges := 1 },
    root := { refOk := true, bypass := false, s0 := { locked := true, qualified := true } },
    power := { meshUp := true, fabUp := true, meshReady := true } }
def tFrozen : State :=
  { tUp with root := { tUp.root with missing := true, slowFromTick := true,
                                      s0 := { tUp.root.s0 with
                                      frozen := true, readyAtFreeze := true }, s1 := { frozen := true, readyAtFreeze := true, locked := true } } }

def tFrameOf (body : Nat) : BitVec 128 :=
  let f : BitVec 128 := BitVec.ofNat 128 (0xB4 + body * 2 ^ 8)
  f ||| BitVec.ofNat 128 ((frameCrc f).toNat * 2 ^ 112)
def tFrame : BitVec 128 := tFrameOf 5
def tFrameSet : BitVec 128 := tFrameOf (5 + 2 ^ 72 * (2 + 9 * 2 ^ 11 + 2 ^ 17 + 2 ^ 28))
def tSealData : Mem :=
  let m := memWrite [] 0 (leBytes 8 0)
  let h := leBytes 4 0x54534346 ++ leBytes 2 2 ++ leBytes 2 0 ++ leBytes 4 1 ++ leBytes 2 1 ++ leBytes 2 64 ++ leBytes 2 4
  let m := memWrite m 0x400000 h
  memWrite m 0x40003C (leBytes 4 (crc32c (memRead m 0x400000 60 ++ memRead m 0 8)).toNat)
def tSealable : State := { tUp with data := tSealData, fcst := { b0 := { st := .verify, wcount := 1, want := 1 } } }
theorem read_away (m : Mem) (b a n : Nat) (bs : List (BitVec 8)) (h : a + n ≤ b ∨ b + bs.length ≤ a) :
    memRead (memWrite m b bs) a n = memRead m a n := by
  unfold memRead
  refine List.map_congr_left (fun k hk => ?_)
  have := List.mem_range.1 hk
  rw [memGet_write, if_neg (by omega)]
theorem read_leBytes (m : Mem) (a : Nat) (c : Word) : memWord (memWrite m a (leBytes 4 c.toNat)) a = c := by
  have e : memRead (memWrite m a (leBytes 4 c.toNat)) a 4 = leBytes 4 c.toNat := by
    simp [memRead, leBytes, List.range_succ, memGet_write]
  have := c.isLt
  apply BitVec.eq_of_toNat_eq
  rw [memWord, e]
  simp [wordOfBytes, leNat, leBytes, List.range_succ]
  omega
def stagedHead : Mem := memWrite [] imageBase (leBytes 4 0x4C414356 ++ leBytes 2 2)
def stagedCrc : Word :=
  crc32c (memRead stagedHead imageBase 60 ++ memRead stagedHead (imageBase + 64) (imageSize - 64))
def tStaged : State :=
  { State.reset with
      time := { slowEdges := 1 }, power := { meshUp := true, fabUp := true, meshReady := true }, data := memWrite stagedHead (imageBase + 60) (leBytes 4 stagedCrc.toNat) }
theorem staged_head : memNat stagedHead imageBase 4 = 0x4C414356 ∧ memNat stagedHead (imageBase + 4) 2 = 2 ∧
      memNat stagedHead (imageBase + 8) 8 = 0 := by
  decide +kernel
theorem stagingOk_of (s : State) (m : Mem) (c : Word) (hd : s.data = memWrite m (imageBase + 60) (leBytes 4 c.toNat))
    (hf : stagedWas s = s.data) (hi : s.lc.fuses.dieId = 0) (h1 : memNat m imageBase 4 = 0x4C414356) (h2 : memNat m (imageBase + 4) 2 = 2)
    (h3 : memNat m (imageBase + 8) 8 = 0)
    (hc : c = crc32c (memRead m imageBase 60 ++ memRead m (imageBase + 64) (imageSize - 64))) : stagingOk s = true := by
  have l : (leBytes 4 c.toNat).length = 4 := by simp [leBytes]
  have a0 := read_away m (imageBase + 60) imageBase 4 (leBytes 4 c.toNat) (by omega)
  have a1 := read_away m (imageBase + 60) (imageBase + 4) 2 (leBytes 4 c.toNat) (by omega)
  have a2 := read_away m (imageBase + 60) (imageBase + 8) 8 (leBytes 4 c.toNat) (by omega)
  have a3 := read_away m (imageBase + 60) imageBase 60 (leBytes 4 c.toNat) (by omega)
  have a4 := read_away m (imageBase + 60) (imageBase + 64) (imageSize - 64) (leBytes 4 c.toNat) (by omega)
  have w := read_leBytes m (imageBase + 60) c
  rw [← hd] at a0 a1 a2 a3 a4 w
  unfold memNat at h1 h2 h3
  unfold stagingOk
  simp only [memNat, Nat.add_zero, hf, a0, a1, a2, a3, a4, w, h1, h2, h3, hi, ← hc]
  decide
theorem staged_crc : stagedCrc = crc32c (memRead stagedHead imageBase 60 ++ memRead stagedHead (imageBase + 64) (imageSize - 64)) := by
  delta stagedCrc
  with_reducible rfl
theorem staged_data : tStaged.data = memWrite stagedHead (imageBase + 60) (leBytes 4 stagedCrc.toNat) := by
  delta tStaged
  with_reducible rfl
theorem stagedWas_of (s : State) (h : s.out.fresh = []) : stagedWas s = s.data := by
  simp [stagedWas, freshIn, restoreBytes, h]
theorem staged_fresh : tStaged.out.fresh = [] := by
  delta tStaged
  rfl
theorem staged_ok : stagingOk tStaged = true :=
  stagingOk_of tStaged stagedHead stagedCrc staged_data (stagedWas_of tStaged staged_fresh) (show tStaged.lc.fuses.dieId = 0 from rfl) staged_head.1 staged_head.2.1 staged_head.2.2 staged_crc
def mFrame (type seq : Nat) (src : BitVec 16) (payload : List (BitVec 8)) : Frame :=
  let f : Frame := { type := BitVec.ofNat 8 type, src := src, root := 0, hops := 0, round := 0, seq := BitVec.ofNat 8 seq,
                     flags := 0, payload := payload, crc := 0 }
  { f with crc := musterCrc f }
def tHello : Frame := mFrame 1 255 7 (leBytes 8 1000)
def tImage : State :=
  let m := memWrite [] 0xC00000 (leBytes 4 0x57485346 ++ leBytes 2 2)
  { tUp with data := memWrite m 0xC0000C (leBytes 4 1024 ++ leBytes 4 256), shep := { b0 := { st := .verify } } }

def w_crystalQualified_s : State :=
  { State.reset with root := { State.reset.root with goodEdges := 65536, s0 := { State.reset.root.s0 with
      table := [(3, packWord [(8, 13, 4800), (21, 9, 400), (31, 1, 1)])] } } }
def w_edgesResume_s : State :=
  { tFrozen with time := { slowEdges := 8 } }
def w_edgesResume_s_2 : State :=
  { tFrozen with time := { slow := 1, slowEdges := 8 } }
def w_refLoss_s : State :=
  { tFrozen with time := { slowEdges := 8 } }
def w_refLoss_s_2 : State :=
  { tFrozen with time := { slow := 39, slowEdges := 7 } }
def w_refReturn_s : State :=
  { tFrozen with root := { tFrozen.root with
      refLost := true, refOk := false, goodEdges := 65536, s1 := { tFrozen.root.s1 with failed := true } } }
def w_frozenFailureCountEnd_s : State :=
  { tUp with root := { tUp.root with goodEdges := 65536, s1 := { failed := true, frozen := true } } }
def w_frozenFailureCountEnd_s_2 : State :=
  { tUp with root := { tUp.root with goodEdges := 65535, s1 := { failed := true, frozen := true } } }
def w_frozenOutputFail_s_2 : State :=
  { tFrozen with root := { tFrozen.root with s1 := {} } }
def w_lockLoss_s_2 : State :=
  { tUp with root := { tUp.root with aligned := true, s1 := { locked := true } } }
def w_lockAcquired_s : State :=
  { tUp with root := { tUp.root with s0 := { acquiring := true, band := 3 } } }
def w_synthQualified_s : State :=
  { tUp with time := { tUp.time with slowEdges := 8192 }, root := { tUp.root with s1 := { locked := true } } }
def w_synthQualified_s_2 : State :=
  { tUp with time := { tUp.time with slowEdges := 8191 }, root := { tUp.root with s1 := { locked := true } } }
def w_bypExit_s : State :=
  { tUp with root := { tUp.root with bypass := true } }
def w_prefWrite_s : State :=
  { tUp with root := { tUp.root with aligned := true, s1 := { locked := true } } }
def w_divApply_s : State :=
  { tUp with
      nowR := [(0x2004, packWord [(0, 2, 0), (8, 8, 100), (16, 5, 20)]), (0x2008, packWord [(0, 2, 1), (8, 8, 55), (16, 5, 22)])] }
def w_divApply_s_2 : State :=
  { tUp with root := { tUp.root with switchedAt := some 40 } }
def w_divApply_s_3 : State :=
  { tUp with nowR := [(0x2004, 0)] }
def w_rootBtabWrite_s : State :=
  { tUp with nowR := [(portKey .host 0x201C, 0x15)], root := { tUp.root with s1 := { noBand := true } } }
def w_rootMeas_s_3 : State :=
  { tUp with root := { tUp.root with meas := some ⟨.s1, 5, true, 9, 0⟩ } }
def w_rootMeasDone_s : State :=
  { tUp with time := { tUp.time with slowEdges := 600 }, root := { tUp.root with meas := some ⟨.s1, 5, true, 9, 0⟩ } }
def w_rootMeasDone_s_2 : State :=
  { tUp with time := { tUp.time with slowEdges := 600 }, root := { tUp.root with
      meas := some ⟨.s1, 5, true, 9, 0⟩, heldMeas := [(.host, 0x1A16)] } }
def w_ageSlewStep_s : State :=
  { tUp with time := { tUp.time with slowEdges := 65536 }, nowR := [(0x2034, 0xFFE)] }
def w_ageSlewStep_s_2 : State :=
  { tUp with time := { tUp.time with slowEdges := 65535 }, nowR := [(0x2034, 0xFFE)] }
def w_syncInEdge_s : State :=
  { tUp with nowR := [(0x202C, 3)], time := { tUp.time with firstBell := true } }
def w_bellSnapReq_s : State :=
  { tUp with time := { slowEdges := 1, counter := 0x123456789 } }
def w_bellLoad_s : State :=
  { tUp with nowR := [(0x1010, 7), (0x1014, 2)], fold := { pending := true } }
def w_bellLoad_s_2 : State :=
  { tUp with time := { slowEdges := 1, firstBell := true } }
def w_broadcastFrame_s : State :=
  { tUp with
      flocks := [(2, { p0 := { locked := true, m := 7, mValid := true, repValid := true, repBase := 10, delta := 0 }, p1 := { locked := true } })] }
def w_broadcastFrame_s_2 : State :=
  { tUp with
      flocks := [(2, { p0 := { locked := true, m := 7, mValid := true, repValid := true, repBase := 10, delta := 0 }, p1 := { locked := true } })] }
def w_broadcastFrame_s_3 : State :=
  { tUp with flocks := [(2, { p0 := { m := 7, mValid := true } })] }
def w_broadcastFrame_s_4 : State :=
  { tUp with
      flocks := [(2, { p0 := { locked := true, m := 7, mValid := true, repValid := true, repBase := 10, delta := 0 }, p1 := { locked := true } })] }
def w_pathLockDone_s : State :=
  { tUp with flocks := [(2, { p0 := { m := 7, mValid := true, repValid := true, repBase := 12 } })] }
def w_pathLockDone_s_2 : State :=
  { tUp with flocks := [(2, { p0 := { m := 7, mValid := true, repValid := true, repBase := 12, repFrom := 128 } })] }
def w_pathLockDone_s_3 : State :=
  { tUp with flocks := [(2, { p0 := { m := 7, mValid := true, repValid := true, repBase := 12 } })] }
def w_deltaTrack_s : State :=
  { tUp with
      time := { slowEdges := 7 }, flocks := [(2, { p0 := { locked := true, m := 7, mValid := true, repValid := true, repBase := 10, delta := 0 }, p1 := { locked := true } })] }
def w_deltaTrack_s_2 : State :=
  { tUp with
      time := { slowEdges := 7 }, flocks := [(2, { p0 := { locked := true, m := 7, mValid := true, repValid := true, repBase := 10, delta := 0 }, p1 := { locked := true } })] }
def w_deltaTrack_s_3 : State :=
  { tUp with
      flocks := [(2, { p0 := { locked := true, m := 7, mValid := true, repValid := true, repBase := 10, delta := 0 }, p1 := { locked := true } })] }
def w_pathFail_s : State :=
  { tUp with
      flocks := [(2, { p0 := { locked := true, m := 7, mValid := true, repValid := true, repBase := 10, delta := 0 }, p1 := { locked := true } })] }
def w_pathFail_s_2 : State :=
  { tUp with flocks := [(2, { p0 := { locked := true, mismatch := true }, p1 := { locked := true } })] }
def w_pathFail_s_3 : State :=
  { tUp with
      time := { held := true }, flocks := [(2, { p0 := { locked := true, m := 7, mValid := true, repValid := true, repBase := 10, delta := 0 }, p1 := { locked := true } })] }
def w_pathReturn_s : State :=
  { tUp with time := { total := 65536 }, flocks := [(2, { p1 := { locked := true, failed := true } })] }
def w_meshDisable_s : State :=
  { tUp with
      flocks := [(2, { p0 := { locked := true, m := 7, mValid := true, repValid := true, repBase := 10, delta := 0 }, p1 := { locked := true } })] }
def w_foldStart_s : State :=
  { tUp with build := tTiny, flocks := [(0, { p0 := { locked := true } })], nowR := [(0x3008, 1000)] }
def w_foldStart_s_2 : State :=
  { tUp with
      build := tTiny, flocks := [(0, { p0 := { locked := true } })], nowR := [(0x3008, 1000)], fold := { started := true } }
def w_foldStart_s_3 : State :=
  { tUp with build := tTiny, flocks := [(0, { p0 := { locked := true } })], nowR := [(0x3008, 1000)] }
def w_foldStart_s_4 : State :=
  { tUp with
      build := tTiny, flocks := [(0, { p0 := { locked := true } })], nowR := [(0x3008, 1000)], fold := { started := true } }
def w_regionPark_s : State :=
  { tUp with
      time := { slowEdges := 1, counter := 9000, total := 9000 }, fold := { started := true, bellTick := 4096, nextBell := 8192, classes := [(0, { kEff := 47168, kSw := 47168, inc := 766000 })] }, regions := [(3, { out := true, c := 50000 })] }
def w_graceTailStart_s : State :=
  { tUp with
      build := tTiny, time := { slowEdges := 1, counter := 9000, total := 9000 }, fold := { started := true, bellTick := 4096, nextBell := 8192, classes := [(0, { kEff := 47168, kSw := 47168, inc := 766000 })] }, regions := [(3, { out := true, c := 50000 })] }
def w_graceTailStart_s_2 : State :=
  { tUp with time := { counter := 990 }, fold := { pending := true, firstTick := 1000 } }
def w_call_s : State :=
  { tUp with
      time := { counter := 9000 }, fold := { started := true, nextBell := 9016 }, regions := [(3, { out := true, parked := true })] }
def w_call_s_2 : State :=
  { tUp with
      time := { slowEdges := 1, counter := 9000, total := 9000 }, fold := { started := true, bellTick := 4096, nextBell := 8192, classes := [(0, { kEff := 47168, kSw := 47168, inc := 766000 })] }, regions := [(3, { out := true, c := 50000 })] }
def w_call_s_3 : State :=
  { tUp with time := { counter := 9000 }, fold := { started := true, nextBell := 9016, plannedReq := 2 } }
def w_bell_s : State :=
  { tUp with
      build := tTiny, time := { counter := 9016 }, fold := { started := true, nextBell := 9016, ring := true }, regions := [(3, { out := true, parked := true, c := 500 })] }
def w_bell_s_2 : State :=
  { tUp with build := tTiny, time := { counter := 9016 }, fold := { pending := true, firstTick := 9016 } }
def w_pull_s : State :=
  { tUp with
      hook := [(1, { attached := true, writer := 3, reader := 4 })], xing := { tab := [(1, { enabled := true })] }, regions := [(3, { out := true, lag16 := 200 })] }
def w_excludeSet_s_2 : State :=
  { tUp with regions := [(3, { excl := .byHost })] }
def w_excludeClear_s : State :=
  { tUp with regions := [(3, { excl := .byHost })] }
def w_excludeClear_s_2 : State :=
  { tUp with regions := [(3, { excl := .byHost, readmit := true })] }
def w_foldStatReq_s : State :=
  { tUp with
      time := { slowEdges := 1, counter := 9000, total := 9000 }, fold := { started := true, bellTick := 4096, nextBell := 8192, classes := [(0, { kEff := 47168, kSw := 47168, inc := 766000 })] }, regions := [(3, { out := true, c := 50000 })] }
def w_foldLogSel_s : State :=
  { tUp with fold := { log := [{ cause := 1 }, { cause := 2 }] } }
def w_tetherStop_s : State :=
  { tUp with xing := { tab := [(1, { armed := true, rBeats := 20 })] } }
def w_tetherStop_s_2 : State :=
  { tUp with xing := { tab := [(1, { armed := true, wBeats := 20 })] } }
def w_availInterlock_s : State :=
  { tUp with xing := { tab := [(1, { armed := true, lat := 8, dBeats := 4, rBeats := 9, wBeats := 1 })] } }
def w_roomStop_s : State :=
  { tUp with xing := { tab := [(1, { armed := true, lat := 8, dBeats := 4, rBeats := 0, wBeats := 16 })] } }
def w_tetherStopRelease_s : State :=
  { tUp with xing := { tab := [(1, { armed := true, stopR := true, avail := true, room := true })] } }
def w_auditClear_s : State :=
  { tUp with xing := { auditHit := true, auditXing := 4 } }
def w_auditMismatch_s : State :=
  { tUp with nowR := [(0x5030, 1)], xing := { tab := [(1, { enabled := true, armed := true })] } }
def w_auditMismatch_s_2 : State :=
  { tUp with nowR := [(0x5030, 1)], xing := { tab := [(1, { enabled := true, armed := true })] } }
def w_auditMismatch_s_3 : State :=
  { tUp with nowR := [(0x5030, 1)], xing := { tab := [(1, { enabled := true, armed := true })] } }
def w_auditMismatch_s_4 : State :=
  { tUp with nowR := [(0x5030, 1)], xing := { tab := [(1, { enabled := true, armed := true })] } }
def w_auditMismatch_s_5 : State :=
  { tUp with nowR := [(0x5030, 1)], xing := { tab := [(1, { enabled := true, armed := true, lat := 10 })] } }
def w_windsockStretch_s : State :=
  { tUp with regions := [(3, { out := true })] }
def w_windsockHold_s : State :=
  { tUp with regions := [(3, { out := true })] }
def w_holdRelease_s : State :=
  { tUp with regions := [(3, { out := true, level := .hold, above := 3 })] }
def w_holdRelease_s_2 : State :=
  { tUp with regions := [(3, { out := true, level := .stretch })] }
def w_adviseOnset_s : State :=
  { tUp with regions := [(3, { out := true })] }
def w_clampWindowEnd_s : State :=
  { tUp with
      build := tTiny, time := { counter := 300 }, fold := { started := true }, cfgA := [(0x7100, 1)], regions := [(3, { clampEdges := 4000, clampActivity := 9000 })] }
def w_bandChangeStopEnd_s : State :=
  { tUp with gens := [(3, { st := .serving, stopEnd := some 0, planned := some 4, plannedDiv := 2 })] }
def w_rcgSel_s : State :=
  { tUp with regions := [(3, { out := true })] }
def w_rcgCfgWrite_s : State :=
  { tUp with nowR := [(portKey .host 0x4000, 3)] }
def w_rcgCfgWrite_s_2 : State :=
  { tUp with nowR := [(portKey .host 0x4000, 300)] }
def w_rcgBmeas_s : State :=
  { tUp with bmBusy := true, bmRows := [7] }
def w_rcgBmeas_s_2 : State :=
  { tUp with regions := [(3, { out := true })] }
def w_rcgBmeas_s_3 : State :=
  { tUp with gens := [(5122, { st := .free })] }
def w_rcgBmeas_s_4 : State :=
  { tUp with build := tTiny }
def w_rcgBmeasDone_s : State :=
  { tUp with
      time := { slowEdges := 50 }, bmBusy := true, bmRows := [3], gens := [(3, { rowOk := true, st := .measuring, measFrom := some .failed })] }
def w_rcgBmeasDone_s_2 : State :=
  { tUp with
      time := { slowEdges := 1000 }, bmBusy := true, bmRows := [3], gens := [(3, { rowOk := true, st := .measuring, measFrom := some .failed })] }
def w_bandRowWrite_s : State :=
  { tUp with gens := [(3, { rowOk := true })] }
def w_bandRowWrite_b : Beat :=
  ⟨0x800180, 0xFFFFFFFF, 0x1122334455667788⟩
def w_bandRowWrite_s_2 : State :=
  { tUp with gens := [(3, { rowWroteAt := some 40, rowWrote := (2, 4) })] }
def w_bandRowWrite_b_2 : Beat :=
  ⟨0x800180, 0xFFFFFFFF, 0x1122334455667788⟩
def w_bandRowWrite_s_3 : State :=
  { tUp with build := tTiny }
def w_bandRowWrite_b_3 : Beat :=
  ⟨0x80A000, 0xFFFFFFFF, 0x1122334455667788⟩
def w_pinWrite_b : Beat :=
  ⟨0x900000, 0xFFFFFFFF, 0x1122334455667788⟩
def w_pinWrite_s_2 : State :=
  { tUp with xing := { calRun := true } }
def w_pinWrite_b_2 : Beat :=
  ⟨0x900000, 0xFFFFFFFF, 0x1122334455667788⟩
def w_fcstEntryWrite_s : State :=
  { tUp with fcst := { b0 := { st := .opened } } }
def w_fcstEntryWrite_b : Beat :=
  ⟨0x40, 0xFFFFFFFF, 0x1122334455667788⟩
def w_fcstEntryWrite_s_2 : State :=
  { tUp with fcst := { b1 := { st := .active } } }
def w_fcstEntryWrite_b_2 : Beat :=
  ⟨0x200040, 0xFFFFFFFF, 0x1122334455667788⟩
def w_fcstEntryWrite_s_3 : State :=
  { tUp with fcst := { b0 := { st := .waiting, wcount := 4, want := 8 } } }
def w_fcstEntryWrite_b_3 : Beat :=
  ⟨0x40, 0xFFFFFFFF, 0x1122334455667788⟩
def w_fcstEntryWrite_s_4 : State :=
  { tUp with fcst := { b1 := { st := .sealed } } }
def w_fcstEntryWrite_b_4 : Beat :=
  ⟨0x400040, 0xFFFFFFFF, 0x1122334455667788⟩
def w_calImageWrite_b : Beat :=
  ⟨(BitVec.ofNat 24 imageBase), 0xFFFFFFFF, 0x1122334455667788⟩
def w_fwDataWrite_s : State :=
  { tUp with shep := { b1 := { st := .opened } } }
def w_fwDataWrite_b : Beat :=
  ⟨0xC20000, 0xFFFFFFFF, 0x1122334455667788⟩
def w_fwDataWrite_s_2 : State :=
  { tUp with shep := { b0 := { st := .active } } }
def w_fwDataWrite_b_2 : Beat :=
  ⟨0xC00000, 0xFFFFFFFF, 0x1122334455667788⟩
def w_fwDataWrite_s_3 : State :=
  { tUp with shep := { b1 := { st := .waiting, wcount := 7, want := 8, timer := 4096 } } }
def w_fwDataWrite_b_3 : Beat :=
  ⟨0xC20000, 0xFFFFFFFF, 0x1122334455667788⟩
def w_fwDataWrite_s_4 : State :=
  { tUp with shep := { b0 := { st := .verify } } }
def w_fwDataWrite_b_4 : Beat :=
  ⟨0xC00000, 0xFFFFFFFF, 0x1122334455667788⟩
def w_manifestWrite_b : Beat :=
  ⟨0xA00000, 0xFFFFFFFF, 0x1122334455667788⟩
def w_fcstModeWrite_s : State :=
  { tUp with data := [(0x400008, 8)], fcst := { b0 := { st := .opened, wcount := 8 } } }
def w_fcstModeWrite_s_2 : State :=
  { tUp with fcst := { active := some 0 } }
def w_fcstOpen_s_2 : State :=
  { tUp with fcst := { committed := true } }
def w_fcstSeal_s : State :=
  { tUp with data := [(0x400008, 8)], fcst := { b0 := { st := .opened, wcount := 8 } } }
def w_fcstSwap_s : State :=
  { tUp with data := [(0x400008, 8)], fcst := { b0 := { st := .opened, wcount := 8 } } }
def w_fcstSwap_s_2 : State :=
  { tUp with
      data := [(0x400008, 8)], fcst := { b0 := { st := .opened, wcount := 8 }, committed := true }, nowR := [(0x6008, 1)] }
def w_fcstSwap_s_4 : State :=
  { tUp with fcst := { single := true } }
def w_fcstOpen_s_3 : State :=
  { tUp with fcst := { single := true } }
def w_fcstSeal_s_3 : State :=
  { tUp with fcst := { single := true } }
def w_fcstStop_s : State :=
  { tUp with fcst := { swap := some (0, 0) } }
def w_fcstSealShort_s : State :=
  { tUp with fcst := { b1 := { st := .waiting, wcount := 4 } } }
def w_fcstVerifyDone_s_2 : State :=
  { tUp with fcst := { b0 := { st := .verify } } }
def w_fcstNop_s : State :=
  { tUp with
      build := tTiny, time := { counter := 100 }, fold := { started := true, f := 4096 }, regions := [(3, { out := true, leanC := some 9, raiseR := 5 })], data := (memWrite (memWrite [] 0 (leBytes 8 (8 + 2 ^ 16 * 0 + 2 ^ 27 * 0 + 2 ^ 40 * 50))) 0x400008 [1]), fcst := { active := some 0 } }
def w_preStretch_s : State :=
  { tUp with
      build := tTiny, time := { counter := 100 }, fold := { started := true, f := 4096 }, regions := [(3, { out := true, leanC := some 9, raiseR := 5 })], data := (memWrite (memWrite [] 0 (leBytes 8 (8 + 2 ^ 16 * 259 + 2 ^ 27 * 1 + 2 ^ 40 * 50))) 0x400008 [1]), fcst := { active := some 0 } }
def w_fcLean_s : State :=
  { tUp with
      build := tTiny, time := { counter := 100 }, fold := { started := true, f := 4096 }, regions := [(3, { out := true, leanC := some 9, raiseR := 5 })], data := (memWrite (memWrite [] 0 (leBytes 8 (8 + 2 ^ 16 * 7 + 2 ^ 27 * 2 + 2 ^ 40 * 50))) 0x400008 [1]), fcst := { active := some 0 } }
def w_holdMargin_s : State :=
  { tUp with
      build := tTiny, time := { counter := 100 }, fold := { started := true, f := 4096 }, regions := [(3, { out := true, leanC := some 9, raiseR := 5 })], data := (memWrite (memWrite [] 0 (leBytes 8 (8 + 2 ^ 16 * 6 + 2 ^ 27 * 3 + 2 ^ 40 * 50))) 0x400008 [1]), fcst := { active := some 0 } }
def w_fcRelease_s : State :=
  { tUp with
      build := tTiny, time := { counter := 100 }, fold := { started := true, f := 4096 }, regions := [(3, { out := true, leanC := some 9, raiseR := 5 })], data := (memWrite (memWrite [] 0 (leBytes 8 (8 + 2 ^ 16 * 1 + 2 ^ 27 * 4 + 2 ^ 40 * 50))) 0x400008 [1]), fcst := { active := some 0 } }
def w_calSlot_s : State :=
  { tUp with
      build := tTiny, time := { counter := 100 }, fold := { started := true, f := 4096 }, regions := [(3, { out := true, leanC := some 9, raiseR := 5 })], data := (memWrite (memWrite [] 0 (leBytes 8 (8 + 2 ^ 16 * 120 + 2 ^ 27 * 5 + 2 ^ 40 * 50))) 0x400008 [1]), fcst := { active := some 0 } }
def w_skewCount_s : State :=
  { tUp with
      time := { counter := 100 }, fold := { started := true }, regions := [(3, { out := true, skew := [⟨1, 50, false⟩], onsets := [(55, false)] })] }
def w_skewCount_s_2 : State :=
  { tUp with
      time := { counter := 100 }, fold := { started := true }, regions := [(3, { out := true, skew := [⟨1, 50, false⟩] })] }
def w_clampWindowEnd_s_2 : State :=
  { tUp with
      build := tTiny, time := { counter := 300 }, fold := { started := true }, cfgA := [(0x7100, 1)], regions := [(3, { clampEdges := 4000, clampActivity := 9000 })] }
def w_generatorFail_s : State :=
  { tUp with
      gens := [(3, { st := .serving, band := some 2 }), (5120, { st := .free, band := some 1 })], regions := [(3, { out := true, mux := 0, parked := true })], flocks := [] }
def w_generatorFail_s_2 : State :=
  { tUp with
      gens := [(3, { st := .serving, words := [1000, 1000, 1000, 1000] })], regions := [(3, { out := true, mux := 0, parked := true })], flocks := [] }
def w_generatorFail_s_3 : State :=
  { tUp with
      gens := [(3, { st := .qualified, words := [1000, 1000, 1000, 1000] })], regions := [(3, { mux := 1 })], flocks := [] }
def w_claimRetry_s : State :=
  { tUp with
      time := { total := 5 }, gens := [(5120, { st := .free, band := some 1 })], regions := [(3, { out := true, mux := 3 })], flocks := [(0, { claims := [(3, 1, 4)] })] }
def w_spareLost_s : State :=
  { tUp with gens := [(5122, { st := .free })] }
def w_spareLocked_s : State :=
  { tUp with time := { total := 256 }, gens := [(5122, { st := .locking, verified := true })] }
def w_clearParity_s : State :=
  { tUp with gens := [(3, { rowOk := true })], regions := [], flocks := [(1, { parity := true, svc := true })] }
def w_retest_s : State :=
  { tUp with gens := [(19, { st := .failed })], regions := [], flocks := [(1, {  })] }
def w_retestDone_s : State :=
  { tUp with
      time := { total := 102200 }, shep := { active := some 0, state := .running }, gens := [(19, { st := .failed })], regions := [], flocks := [(1, { retest := some 3, reportsRetest := true, genStatus := 3 })] }
def w_retestDone_s_2 : State :=
  { tUp with
      time := { total := 102200 }, shep := { active := some 0, state := .running }, gens := [(19, { st := .failed })], regions := [], flocks := [(1, { retest := some 3 })] }
def w_reinstate_s : State :=
  { tUp with gens := [(5122, { st := .qualified })], regions := [], flocks := [(1, {  })] }
def w_reinstate_s_2 : State :=
  { tUp with gens := [(19, { st := .qualified })], regions := [(19, { out := true, mux := 1 })], flocks := [(1, {  })] }
def w_reinstate_s_3 : State :=
  { tUp with
      gens := [(19, { st := .qualified }), (5122, { st := .serving })], regions := [(19, { out := true, parked := true, mux := 1 })] }
def w_reinstate_s_4 : State :=
  { tUp with gens := [(19, { st := .qualified })], regions := [(19, { out := true, parked := true, mux := 3 })] }
def w_retire_s : State :=
  { tUp with gens := [(5122, { st := .free })], regions := [], flocks := [(1, {  })] }
def w_retire_s_2 : State :=
  { tUp with gens := [(19, { st := .serving })], regions := [(19, { out := true })], flocks := [(1, {  })] }
def w_crkArmExpiry_s : State :=
  { tUp with time := { slowEdges := 64 }, crook := { armed := true } }
def w_forceHoldRegion_s : State :=
  { tUp with crook := { armed := true }, regions := [(3, { out := true })] }
def w_forceHoldRegion_s_2 : State :=
  { tUp with crook := { armed := true }, regions := [(3, { out := true })] }
def w_forceHoldRegion_s_4 : State :=
  { tUp with crook := { armed := true }, regions := [(3, { out := true })] }
def w_releaseRegion_s : State :=
  { tUp with
      crook := { armed := true }, regions := [(3, { out := true, forced := true }), (35, { forced := true, excl := .byHost })] }
def w_forceHoldFlock_s : State :=
  { tUp with crook := { armed := true }, regions := [(3, { out := true })] }
def w_releaseFlock_s : State :=
  { tUp with
      crook := { armed := true }, regions := [(3, { out := true, forced := true }), (35, { forced := true, excl := .byHost })] }
def w_forceFailover_s : State :=
  { tUp with
      crook := { armed := true }, regions := [(3, { out := true })], gens := [(3, { st := .serving }), (5120, { st := .free, band := some 1 })] }
def w_forceFailover_s_2 : State :=
  { tUp with crook := { armed := true }, regions := [(3, { out := true })] }
def w_forceFailover_s_3 : State :=
  { tUp with
      crook := { armed := true }, regions := [(3, { out := true })], flocks := [(0, { taken := [{ gen := 5120, slot := 3, code := 1 }] })] }
def w_crkCoreReset_s : State :=
  { tUp with crook := { armed := true }, shep := { active := some 0, state := .halted } }
def w_crkCoreReset_s_2 : State :=
  { tUp with crook := { armed := true }, regions := [(3, { out := true })] }
def w_crkInvalidOp_s : State :=
  { tUp with crook := { armed := true }, regions := [(3, { out := true })] }
def w_tallyClaim_s_2 : State :=
  { tUp with tally := { u1 := { owner := .bm } } }
def w_tallyRelease_s : State :=
  { tUp with tally := { u1 := { owner := .host } } }
def w_tallyRelease_s_2 : State :=
  { tUp with tally := { u1 := { owner := .host, state := .measuring } } }
def w_claimTimeout_s : State :=
  { tUp with time := { slowEdges := 64 }, tally := { claimBm := some ⟨1, 0⟩ } }
def w_tallyArm_s : State :=
  { tUp with
      nowR := [(0x9100, 4), (0x910C, 1), (0x9110, 0x1000001)], tally := { u0 := { owner := .host } }, time := { total := 100, counter := 100, slowEdges := 1 } }
def w_tallyArm_s_2 : State :=
  { tUp with
      nowR := [(0x9100, 4 + 0x1000000), (0x9104, 200), (0x910C, 1), (0x9110, 0x1000001)], tally := { u0 := { owner := .host } }, time := { total := 100, counter := 100, slowEdges := 1 } }
def w_tallyArm_s_5 : State :=
  { tUp with
      nowR := [(0x9100, 4), (0x910C, 1), (0x9110, 0x1000001)], tally := { u0 := { owner := .host, state := .waiting } }, time := { total := 100, counter := 100, slowEdges := 1 } }
def w_tallyArm_s_6 : State :=
  { tUp with tally := { u0 := { owner := .host } } }
def w_tallyArm_s_7 : State :=
  { tUp with
      nowR := [(0x9100, 4 + 0x1000000), (0x910C, 1), (0x9110, 0x1000001)], tally := { u0 := { owner := .host } }, time := { total := 100, counter := 100, slowEdges := 1 } }
def w_tallyArm_s_8 : State :=
  { tUp with
      cal := { unit0From := 200 }, nowR := [(0x9100, 4), (0x910C, 1), (0x9110, 0x1000001)], tally := { u0 := { owner := .host } }, time := { total := 100, counter := 100, slowEdges := 1 } }
def w_tallyAbort_s : State :=
  { tUp with
      nowR := [(0x9100, 4), (0x910C, 1), (0x9110, 0x1000001)], tally := { u0 := { owner := .host, state := .measuring, gain := some (1280, 0), openedAt := 90 } }, time := { total := 100, counter := 100, slowEdges := 1 } }
def w_tallyAbort_s_2 : State :=
  { tUp with
      nowR := [(0x9100, 4), (0x910C, 1), (0x9110, 0x1000001)], tally := { u0 := { owner := .host } }, time := { total := 100, counter := 100, slowEdges := 1 } }
def w_tallyCalRefresh_s : State :=
  { tUp with
      nowR := [(0x9100, 4), (0x910C, 1), (0x9110, 0x1000001)], tally := { u0 := { owner := .host, state := .calibrating, calAt := 3 } }, time := { total := 100, counter := 100, slowEdges := 1 } }
def w_tallyCalRefresh_s_2 : State :=
  { tUp with
      nowR := [(0x9100, 4), (0x910C, 1), (0x9110, 0x1000001)], tally := { u0 := { owner := .host, state := .calibrating, calAt := 3 } }, time := { total := 100, counter := 100, slowEdges := 1 } }
def w_tallyCalRefresh_s_3 : State :=
  { tUp with
      nowR := [(0x9100, 4 + 0x2000000), (0x910C, 1), (0x9110, 0x1000001)], tally := { u0 := { owner := .host, state := .calibrating, calAt := 3 } }, time := { total := 100, counter := 100, slowEdges := 1 } }
def w_tallyCalRefresh_s_4 : State :=
  { tUp with root := { tUp.root with
      refLost := true }, nowR := [(0x9100, 4), (0x910C, 1), (0x9110, 0x1000001)], tally := { u0 := { owner := .host, state := .calibrating } }, time := { total := 100, counter := 100, slowEdges := 1 } }
def w_tallyGateOpen_s : State :=
  { tUp with
      nowR := [(0x9100, 4 + 0x1000000), (0x910C, 1), (0x9110, 0x1000001)], tally := { u0 := { owner := .host, state := .waiting, gain := some (1280, 0) } }, time := { total := 100, counter := 100, slowEdges := 1 } }
def w_tallyGateOpen_s_2 : State :=
  { tUp with
      nowR := [(0x9100, 4 + 0x1000000), (0x910C, 1), (0x9110, 0x1000001)], tally := { u0 := { owner := .host, state := .waiting } }, time := { total := 100, counter := 100, slowEdges := 1 } }
def w_tallyStartEdge_s : State :=
  { tUp with
      nowR := [(0x9100, 100), (0x910C, 1), (0x9110, 0x1000001)], tally := { u0 := { owner := .host, state := .measuring, gain := some (1280, 0), openedAt := 90, gateOpen := true } }, time := { total := 100, counter := 100, slowEdges := 1 } }
def w_tallyStopEdge_s : State :=
  { tUp with
      nowR := [(0x9100, 100), (0x910C, 1), (0x9110, 0x1000001)], tally := { u0 := { owner := .host, state := .measuring, gain := some (1280, 0), openedAt := 90, gateOpen := true, started := true } }, time := { total := 100, counter := 100, slowEdges := 1 } }
def w_tallyStopEdge_s_2 : State :=
  { tUp with
      nowR := [(0x9100, 100), (0x910C, 1), (0x9110, 0x1000001)], tally := { u0 := { owner := .host, state := .measuring, gain := some (1280, 0), openedAt := 90, gateOpen := true, started := true, chans := [{ channel := 0, count := 1, last := some 110 }] } }, time := { total := 100, counter := 100, slowEdges := 1 } }
def w_tallyWindowClose_s : State :=
  { tUp with
      nowR := [(0x9100, 4), (0x910C, 1), (0x9110, 0x1000001)], tally := { u0 := { owner := .host, state := .measuring, gain := some (1280, 0), openedAt := 90, started := true, stops := [(0, resultWord 0 77)] } }, time := { total := 100, counter := 100, slowEdges := 1 } }
def w_tallyWindowClose_s_2 : State :=
  { tUp with
      nowR := [(0x9100, 4 + 0x100000), (0x910C, 1), (0x9110, 0x1000001)], tally := { u0 := { owner := .host, state := .measuring, gain := some (1280, 0), openedAt := 90 } }, time := { total := 100, counter := 100, slowEdges := 1 } }
def w_tempSample_s : State :=
  { tUp with regions := [(16, { out := true })] }
def w_tempSample_s_4 : State :=
  { tUp with cal := { tempAt := some 0 } }
def w_calFlockDue_s : State :=
  { tUp with regions := [(16, { out := true })] }
def w_calAllDue_s : State :=
  { tUp with regions := [(16, { out := true })] }
def w_calAllDue_s_2 : State :=
  { tUp with cfgA := [(0xA000, 2)] }
def w_cancelRestore_s : State :=
  { tUp with cal := { restorePend := true } }
def w_bandgapTrimStep_s : State :=
  { tUp with time := { total := 2 ^ 20 } }
def w_bandgapTrimStep_s_2 : State :=
  { tUp with time := { total := 2 ^ 20 } }
def w_regionHoldStart_s : State :=
  { tUp with
      shep := { state := .running, active := some 0 }, time := { counter := 100 }, fold := { started := true }, cal := { latest := 2000 }, gens := [(3, { rowOk := true })], regions := [(3, { out := true, due := true, slot := some (100, 50, 500) })] }
def w_regionHoldStart_s_2 : State :=
  { tUp with
      shep := { state := .running, active := some 0 }, fold := { started := true, calPlanned := true, tail := true }, gens := [(3, { rowOk := true })], regions := [(3, { out := true, due := true, parked := true })] }
def w_regionHoldEnd_s : State :=
  { tUp with
      time := { counter := 450 }, regions := [(3, { out := true, hold := some { start := 0, atBell := false, discard := true, temp := 0 } })] }
def w_regionHoldEnd_s_2 : State :=
  { tUp with
      time := { counter := 450 }, regions := [(3, { out := true, hold := some { start := 0, atBell := false, discard := false, temp := 0 } })] }
def w_regionHoldEnd_s_3 : State :=
  { tUp with
      shep := { state := .running }, time := { counter := 450 }, gens := [(3, { band := some 0, copy := [BitVec.ofNat 32 (2 ^ 31 + 600 * 4096 + 1000)] })], regions := [(3, { out := true, due := true, hold := some { start := 0, atBell := false, discard := false, temp := 0 } })] }
def w_regionHoldEnd_s_4 : State :=
  { tUp with
      shep := { state := .running }, time := { counter := 450 }, regions := [(3, { out := true, due := true, hold := some { start := 0, atBell := false, discard := false, temp := 0 } })] }
def w_regionHoldStart_s_3 : State :=
  { tUp with
      shep := { state := .running, active := some 0 }, time := { counter := 100 }, fold := { started := true }, cal := { latest := 2000 }, gens := [(3, { rowOk := true })], regions := [(3, { out := true, due := true, slot := some (100, 50, 500) })] }
def w_regionHoldStart_s_4 : State :=
  { tUp with
      shep := { state := .running, active := some 0 }, fold := { started := true, calPlanned := true, tail := true }, gens := [(3, { rowOk := true })], regions := [(3, { out := true, due := true, parked := true })] }
def w_regionHoldEnd_s_5 : State :=
  { tUp with
      time := { counter := 450 }, regions := [(3, { out := true, hold := some { start := 0, atBell := false, discard := true, temp := 0 } })] }
def w_regionHoldEnd_s_6 : State :=
  { tUp with
      time := { counter := 450 }, regions := [(3, { out := true, hold := some { start := 0, atBell := false, discard := false, temp := 0 } })] }
def w_regionHoldEnd_s_7 : State :=
  { tUp with
      shep := { state := .running }, time := { counter := 450 }, gens := [(3, { band := some 0, copy := [BitVec.ofNat 32 (2 ^ 31 + 600 * 4096 + 1000)] })], regions := [(3, { out := true, due := true, hold := some { start := 0, atBell := false, discard := false, temp := 0 } })] }
def w_regionHoldEnd_s_8 : State :=
  { tUp with
      shep := { state := .running }, time := { counter := 450 }, regions := [(3, { out := true, due := true, hold := some { start := 0, atBell := false, discard := false, temp := 0 } })] }
def w_spareCalStart_s : State :=
  { tUp with
      shep := { state := .running }, time := { total := 20000, counter := 20000 }, fold := { calPlanned := true, tail := true }, gens := [(5122, { st := .free, due := true })] }
def w_spareCalEnd_s : State :=
  { tUp with
      shep := { state := .running }, time := { total := 20000, counter := 20000 }, gens := [(5122, { st := .measuring, calFrom := some 0, due := true, band := some 0, copy := [BitVec.ofNat 32 (2 ^ 31 + 600 * 4096 + 1000)] })] }
def w_spareCalEnd_s_2 : State :=
  { tUp with
      shep := { state := .running }, time := { total := 20000, counter := 20000 }, gens := [(5122, { st := .measuring, calFrom := some 0, due := true, band := some 0, copy := [BitVec.ofNat 32 (2 ^ 31 + 600 * 4096 + 1000)] })] }
def w_spareCalEnd_s_3 : State :=
  { tUp with
      shep := { state := .running }, time := { total := 20000, counter := 20000 }, gens := [(5122, { st := .measuring, calFrom := some 0, due := true, band := some 0, copy := [BitVec.ofNat 32 (2 ^ 31 + 600 * 4096 + 1000)] })] }
def w_spareCalEnd_s_4 : State :=
  { tUp with root := { tUp.root with
      bypass := true }, shep := { state := .running }, time := { total := 20000, counter := 20000 }, gens := [(5122, { st := .measuring, calFrom := some 0, due := true, band := some 0, copy := [BitVec.ofNat 32 (2 ^ 31 + 600 * 4096 + 1000)] })] }
def w_pathCalStart_s : State :=
  { tUp with
      shep := { state := .running }, time := { total := 20000, counter := 20000 }, flocks := [(1, { p0 := { locked := true, due := true }, p1 := { locked := true } })] }
def w_pathCalDone_s : State :=
  { tUp with
      shep := { state := .running }, time := { total := 20000, counter := 20000 }, flocks := [(1, { p0 := { locked := true, due := true, calOut := true }, p1 := { locked := true } })] }
def w_pathCalDone_s_2 : State :=
  { tUp with
      shep := { state := .running }, time := { total := 20000, counter := 20000 }, flocks := [(1, { p0 := { locked := true, due := true, calOut := true }, p1 := { locked := true } })] }
def w_pathCalDone_s_3 : State :=
  { tUp with
      shep := { state := .running }, time := { total := 20000, counter := 20000 }, flocks := [(1, { p0 := { locked := true, due := true, calOut := true, tapsNew := some [5] }, p1 := { locked := true } })] }
def w_tallyPhaseCalStart_s : State :=
  { tUp with
      shep := { state := .running }, time := { total := 20000, counter := 20000 }, tally := { u0 := { due := true, owner := .fw } } }
def w_tallyPhaseCalDone_s : State :=
  { tUp with
      shep := { state := .running }, time := { total := 20000, counter := 20000 }, tally := { u0 := { due := true, owner := .fw, phaseCal := some 0 } } }
def w_tallyPhaseCalDone_s_2 : State :=
  { tUp with
      shep := { state := .running }, time := { total := 20000, counter := 20000 }, tally := { u0 := { due := true, owner := .fw, phaseCal := some 0 } } }
def w_chargePumpCalStart_s : State :=
  { tUp with shep := { state := .running }, time := { total := 20000, counter := 20000 }, root := { tUp.root with
      aligned := true, s1 := { locked := true, qualified := true, due := true } } }
def w_chargePumpCalDone_s : State :=
  { tUp with shep := { state := .running }, time := { total := 20000, counter := 20000 }, root := { tUp.root with
      s1 := { locked := true, due := true, pumpCal := true } } }
def w_chargePumpCalDone_s_2 : State :=
  { tUp with shep := { state := .running }, time := { total := 20000, counter := 20000 }, root := { tUp.root with
      s1 := { locked := true, due := true, pumpCal := true } } }
def w_calTimeout_s : State :=
  { tUp with
      shep := { state := .running }, time := { total := 20000, counter := 20000 }, cfgA := [(0xA000, 0x1000001)], gens := [(5122, { st := .measuring, calFrom := some 0 })] }
def w_calTimeout_s_2 : State :=
  { tUp with
      shep := { state := .running }, time := { total := 50000, counter := 50000 }, cfgA := [(0xA000, 0x1000001)], flocks := [(1, { p0 := { calOut := true, taps := [7], tapsOld := some [5] } })] }
def w_calTimeout_s_3 : State :=
  { tUp with
      shep := { state := .running }, time := { total := 50000, counter := 50000 }, cfgA := [(0xA000, 0x1000001)], tally := { u0 := { phaseCal := some 0 } } }
def w_calTimeout_s_4 : State :=
  { tUp with
      shep := { state := .running }, time := { total := 200000, counter := 200000 }, cfgA := [(0xA000, 0x1000001)], root := { tUp.root with
      s1 := { pumpCal := true } } }
def w_cableIn_s : State :=
  { tUp with time := { slowEdges := 70000 } }
def w_cableIn_s_2 : State :=
  { tUp with
      shep := { state := .running }, time := { counter := 5, slowEdges := 70000 }, mus := { cfg := 0x0800003E, inRound := true, p0 := { st := .up, usable := true, cable := true }, p1 := { st := .up, usable := true } } }
def w_portUp_s : State :=
  { tUp with mus := { p0 := { st := .training, hellos := 2 } } }
def w_portDown_s : State :=
  { tUp with
      shep := { state := .running }, time := { counter := 5 }, mus := { cfg := 0x0800003E, inRound := true, p0 := { st := .up, usable := true }, p1 := { st := .up, usable := true }, parent := some 0, hops := 3 } }
def w_helloSend_s : State :=
  { tUp with mus := { p0 := { st := .training } } }
def w_hello_s : State :=
  { tUp with mus := { cfg := 0x0800003E, p0 := { st := .training } } }
def w_hello_f : Frame :=
  tHello
def w_hello_s_2 : State :=
  { tUp with
      shep := { state := .running }, time := { counter := 70000, firstBell := true }, mus := { cfg := 0x0800003E, inRound := true, p0 := { st := .up, usable := true }, p1 := { st := .up, usable := true }, parent := some 0 } }
def w_hello_f_2 : Frame :=
  tHello
def w_hello_s_3 : State :=
  { tUp with
      shep := { state := .running }, time := { counter := 5 }, mus := { cfg := 0x0800003E, inRound := true, p0 := { st := .up, usable := true, hellos := 1 }, p1 := { st := .up, usable := true } } }
def w_hello_f_3 : Frame :=
  { tHello with crc := tHello.crc + 1 }
def w_hello_s_4 : State :=
  { tUp with
      shep := { state := .running }, time := { counter := 5 }, mus := { cfg := 0x0800803E, inRound := true, p0 := { st := .up, usable := true }, p1 := { st := .up, usable := true } } }
def w_hello_f_4 : Frame :=
  tHello
def w_roundStart_s : State :=
  { tUp with time := { counter := 3 * 2 ^ 20 }, mus := { p0 := { st := .up } } }
def w_tree_s : State :=
  { tUp with
      shep := { state := .running }, time := { counter := 5 }, mus := { cfg := 0x0800003E, inRound := true, p0 := { st := .up, usable := true }, p1 := { st := .up, usable := true } } }
def w_tree_f : Frame :=
  (mFrame 2 0 0 [])
def w_tree_s_2 : State :=
  { tUp with
      shep := { state := .running }, time := { counter := 5 }, mus := { cfg := 0x0800001E, inRound := true, p0 := { st := .up, usable := true }, p1 := { st := .up, usable := true } } }
def w_tree_f_2 : Frame :=
  (mFrame 2 0 0 [])
def w_syncSend_s : State :=
  { tUp with
      shep := { state := .running }, time := { counter := 264192 }, mus := { cfg := 0x0800003E, inRound := true, p0 := { st := .up, usable := true }, p1 := { st := .up, usable := true } }, nowR := [(tallyAddr 0 4, 264192)], tally := { u0 := { state := .measuring, forMuster := true } } }
def w_syncSend_s_2 : State :=
  { tUp with
      shep := { state := .running }, time := { counter := 264192 }, mus := { cfg := 0x0800003E, inRound := true, p0 := { st := .up, usable := true }, p1 := { st := .up, usable := true } }, nowR := [(tallyAddr 0 4, 264192)], tally := { u0 := { state := .measuring, forMuster := true } } }
def w_syncSend_s_3 : State :=
  { tUp with
      shep := { state := .running }, time := { counter := 264192 }, mus := { cfg := 0x0800003E, inRound := true, p0 := { st := .up, usable := true }, p1 := { st := .up, usable := true } } }
def w_sync_s : State :=
  { tUp with
      shep := { state := .running }, time := { counter := 5 }, mus := { cfg := 0x0800003E, inRound := true, p0 := { st := .up, usable := true }, p1 := { st := .up, usable := true } }, nowR := [(tallyAddr 0 4, 264192)], tally := { u0 := { state := .measuring, forMuster := true } } }
def w_sync_f : Frame :=
  (mFrame 3 3 0 [2])
def w_sync_s_2 : State :=
  { tUp with
      shep := { state := .running }, time := { counter := 5 }, mus := { cfg := 0x0800003E, inRound := true, p0 := { st := .up, usable := true, seen := [3] }, p1 := { st := .up, usable := true } } }
def w_sync_f_2 : Frame :=
  (mFrame 3 3 0 [2])
def w_followSend_s : State :=
  { tUp with
      shep := { state := .running }, time := { counter := 263680 }, mus := { cfg := 0x0800003E, inRound := true, p0 := { st := .up, usable := true, tx := [(0, 3), (1, 5)], rx := [(0, 4), (1, 6)] }, p1 := { st := .up, usable := true } } }
def w_follow_s : State :=
  { tUp with
      shep := { state := .running }, time := { counter := 5 }, mus := { cfg := 0x0800003E, inRound := true, p0 := { st := .up, usable := true }, p1 := { st := .up, usable := true } } }
def w_follow_f : Frame :=
  (mFrame 4 66 0 [1, 2, 3])
def w_offset_s : State :=
  { tUp with
      shep := { state := .running }, time := { counter := 5 }, mus := { cfg := 0x0800003E, inRound := true, p0 := { st := .up, usable := true }, p1 := { st := .up, usable := true }, parent := some 0, thetaP := some 3 } }
def w_offset_f : Told :=
  ⟨mFrame 5 97 0 [9], true⟩
def w_offset_s_2 : State :=
  { tUp with
      shep := { state := .running }, time := { counter := 5 }, mus := { cfg := 0x0800003E, inRound := true, p0 := { st := .up, usable := true }, p1 := { st := .up, usable := true }, parent := some 0, thetaP := some 3 } }
def w_offset_f_2 : Told :=
  ⟨mFrame 5 97 0 [9], false⟩
def w_muDone_s : State :=
  { tUp with
      shep := { state := .running }, time := { counter := 5 }, mus := { cfg := 0x0800003E, inRound := true, p0 := { st := .up, usable := true }, p1 := { st := .up, usable := true } } }
def w_muDone_f : Frame :=
  (mFrame 6 98 0 [2])
def w_doneDeadline_s : State :=
  { tUp with
      shep := { state := .running }, time := { counter := 663040 }, mus := { cfg := 0x0800003E, inRound := true, p0 := { st := .up, usable := true }, p1 := { st := .up, usable := true }, parent := some 0, hops := 1000 } }
def w_upSweep_s : State :=
  { tUp with
      shep := { state := .running }, time := { counter := 655360 }, mus := { cfg := 0x0800003E, inRound := true, p0 := { st := .up, usable := true }, p1 := { st := .up, usable := true }, parent := some 0, hops := 3 } }
def w_downSweep_s : State :=
  { tUp with
      shep := { state := .running }, time := { counter := 327680 }, mus := { cfg := 0x0800001E, inRound := true, p0 := { st := .up, usable := true }, p1 := { st := .up, usable := true } } }
def w_downSweep_s_2 : State :=
  { tUp with
      shep := { state := .running }, time := { counter := 327680 }, mus := { cfg := 0x0800003E, inRound := true, p0 := { st := .training }, p1 := { st := .up, usable := true }, parent := some 0 } }
def w_muApply_s : State :=
  { tUp with
      shep := { state := .running }, time := { counter := 983040 }, mus := { cfg := 0x0800001E, inRound := true, p0 := { st := .up, usable := true }, p1 := { st := .up, usable := true }, freqF := 3 } }
def w_muApply_s_2 : State :=
  { tUp with
      shep := { state := .running }, time := { counter := 983040 }, mus := { cfg := 0x0800003E, inRound := true, p0 := { st := .up, usable := true }, p1 := { st := .up, usable := true }, theta := some 40000, parent := some 0 } }
def w_muApply_s_3 : State :=
  { tUp with
      shep := { state := .running }, time := { counter := 983040 }, mus := { cfg := 0x0800003E, inRound := true, p0 := { st := .up, usable := true }, p1 := { st := .up, usable := true }, freqF := 3 } }
def w_muApply_s_4 : State :=
  { tUp with
      shep := { state := .running }, time := { counter := 983040 }, mus := { cfg := 0x0800001F, inRound := true, p0 := { st := .up, usable := true }, p1 := { st := .up, usable := true }, ppsUse := some 40 } }
def w_ageTransfer_s : State :=
  { tUp with
      shep := { state := .running }, time := { counter := 5 }, mus := { cfg := 0x08000022, inRound := true, p0 := { st := .up, usable := true }, p1 := { st := .up, usable := true }, fSum := -25600, fRounds := 256 } }
def w_ppsInEdge_s : State :=
  { tUp with nowR := [(0xB030, 77)], mus := { todArmed := true } }
def w_ppsInEdge_s_2 : State :=
  { tUp with
      shep := { state := .running }, time := { counter := 5 }, mus := { cfg := 0x0800001F, inRound := true, p0 := { st := .up, usable := true }, p1 := { st := .up, usable := true } }, nowR := [(tallyAddr 0 4, 0)], tally := { u0 := { state := .measuring, forMuster := true } } }
def w_ppsInEdge_s_3 : State :=
  { tUp with
      shep := { state := .running }, time := { counter := 5 }, mus := { cfg := 0x0800001F, inRound := true, p0 := { st := .up, usable := true }, p1 := { st := .up, usable := true } } }
def w_ppsOut_s : State :=
  { tUp with time := { counter := 500000000 } }
def w_fwOpen_s : State :=
  { tUp with shep := { swap := some 1, b1 := { st := .sealed } } }
def w_fwOpen_s_2 : State :=
  { tUp with shep := { active := some 1 } }
def w_fwSeal_s : State :=
  { tUp with data := [(0xC0000D, 4)], shep := { b0 := { st := .opened, wcount := 32 } } }
def w_fwSwap_s : State :=
  { tUp with shep := { b0 := { st := .sealed } } }
def w_fwSealShort_s : State :=
  { tUp with shep := { b1 := { st := .waiting, wcount := 3 } } }
def w_fwVerifyDone_s_2 : State :=
  { tUp with shep := { b0 := { st := .verify } } }
def w_fwSwapPreStart_s : State :=
  { tUp with shep := { swap := some 0, b0 := { st := .sealed }, active := some 1, b1 := { st := .active } } }
def w_halt_s : State :=
  { tUp with shep := { state := .running, active := some 0 }, mbx := { m1 := { slot := .taken, cmd := 0x501 } } }
def w_halt_s_2 : State :=
  { tUp with shep := { state := .running, active := some 0 }, mbx := { m1 := { slot := .taken, cmd := 0x501 } } }
def w_shepAssertWrite_s : State :=
  { tUp with shep := { state := .running, active := some 0 }, mbx := { m1 := { slot := .taken, cmd := 0x501 } } }
def w_haltRestart_s : State :=
  { tUp with nowR := [(0xC008, 1)], shep := { state := .halted, active := some 0, edges := 256 } }
def w_wdog_s : State :=
  { tUp with nowR := [(0xC008, 0x62)], shep := { state := .running, active := some 0, wdogCount := 4096 } }
def w_wdog_s_2 : State :=
  { tUp with nowR := [(0xC008, 0x42)], shep := { state := .running, active := some 0, wdogCount := 4096 } }
def w_watchdogKick_s : State :=
  { tUp with shep := { state := .running, active := some 0 }, mbx := { m1 := { slot := .taken, cmd := 0x501 } } }
def w_mbxGo_s_2 : State :=
  { tUp with crook := { armed := true } }
def w_mbxGo_s_4 : State :=
  { tUp with mbx := { m0 := { slot := .taken } } }
def w_mbxWithdraw_s : State :=
  { tUp with mbx := { m0 := { slot := .posted } } }
def w_mbxWithdraw_s_2 : State :=
  { tUp with crook := { armed := true }, mbx := { m2 := { slot := .posted } } }
def w_mbxTake_s : State :=
  { tUp with shep := { state := .running }, mbx := { m0 := { slot := .posted }, m2 := { slot := .posted } } }
def w_mbxGo_s_6 : State :=
  { tUp with crook := { armed := true } }
def w_mbxGo_s_8 : State :=
  { tUp with mbx := { m0 := { slot := .taken } } }
def w_mbxWithdraw_s_5 : State :=
  { tUp with mbx := { m0 := { slot := .posted } } }
def w_mbxWithdraw_s_6 : State :=
  { tUp with crook := { armed := true }, mbx := { m2 := { slot := .posted } } }
def w_mbxTake_s_2 : State :=
  { tUp with shep := { state := .running }, mbx := { m0 := { slot := .posted }, m2 := { slot := .posted } } }
def w_version_s : State :=
  { tUp with shep := { state := .running, active := some 0 }, mbx := { m0 := { slot := .taken, cmd := 1793 } } }
def w_version_s_2 : State :=
  { tUp with shep := { state := .running }, mbx := { m0 := { slot := .taken, cmd := 1793, args := [(0, 5)] } } }
def w_status_s : State :=
  { tUp with shep := { state := .running }, mbx := { m1 := { slot := .taken, cmd := 1794 } } }
def w_nop_s : State :=
  { tUp with shep := { state := .running }, mbx := { m2 := { slot := .taken, cmd := 1795, args := [(0, 55)] } } }
def w_cfgCommit_s : State :=
  { tUp with shep := { state := .running }, mbx := { m0 := { slot := .taken, cmd := 1824 } } }
def w_cfgCommit_s_2 : State :=
  { tUp with
      shep := { state := .running }, mbx := { m0 := { slot := .taken, cmd := 1824 } }, cfgA := (List.range 40).map (fun k => (0x200000 + k, BitVec.ofNat 32 (0x100 * (k + 1)))) }
def w_cfgCommit_s_3 : State :=
  { tUp with shep := { state := .running }, mbx := { m1 := { slot := .taken, cmd := 1824 } } }
def w_identify_s : State :=
  { tUp with shep := { state := .running }, mbx := { m0 := { slot := .taken, cmd := 1825, args := [(0, 9)] } } }
def w_identify_s_2 : State :=
  { tUp with shep := { state := .running }, mbx := { m0 := { slot := .taken, cmd := 1825, args := [(0, 9000)] } } }
def w_identifyExpiry_s : State :=
  { tUp with shep := { identifyEnd := some 0 } }
def w_badOpcode_s : State :=
  { tUp with shep := { state := .running }, mbx := { m0 := { slot := .taken, cmd := 1945 } } }
def w_rowVerify_s : State :=
  { tUp with shep := { state := .running }, mbx := { m0 := { slot := .taken, cmd := 1808, args := [(0, 3), (1, 2)] } } }
def w_rowVerify_s_2 : State :=
  { tUp with
      shep := { state := .running }, mbx := { m0 := { slot := .taken, cmd := 1808, args := [(0, 6000), (1, 2)] } } }
def w_rowVerify_s_3 : State :=
  { tUp with shep := { state := .running, rowJob := { state := 1 } }, mbx := { m0 := { slot := .taken, cmd := 1808 } } }
def w_rowVerifyJobEnd_s : State :=
  { tUp with
      data := memWrite [] 0x800180 (leBytes 4 (2 ^ 31 + 600 * 4096 + 1000)), shep := { state := .running, rowJob := { state := 1, first := 3, count := 2 } } }
def w_xcal_s : State :=
  { tUp with
      shep := { state := .running }, mbx := { m0 := { slot := .taken, cmd := 1809 } }, build := tTiny, flocks := [(0, { p0 := { locked := true } })] }
def w_xcal_s_2 : State :=
  { tUp with
      shep := { state := .running, xcalJob := { state := 1 } }, mbx := { m0 := { slot := .taken, cmd := 1809 } } }
def w_xcal_s_3 : State :=
  { tUp with
      shep := { state := .running }, mbx := { m0 := { slot := .taken, cmd := 1809 } }, fold := { started := true } }
def w_xcal_s_4 : State :=
  { tUp with
      shep := { state := .running }, mbx := { m0 := { slot := .taken, cmd := 1809 } }, build := tTiny, flocks := [(0, { p0 := { locked := true } })], tally := { u2 := { owner := .bm } } }
def w_calDone_s : State :=
  { tUp with
      hook := [(1, { attached := true, writer := 3, reader := 4 })], shep := { state := .running, xcalJob := { state := 1 } } }
def w_jobStatus_s : State :=
  { tUp with
      shep := { state := .running, rowJob := { state := 2, progress := 4 } }, mbx := { m1 := { slot := .taken, cmd := 1810, args := [(0, 1)] } } }
def w_jobStatus_s_2 : State :=
  { tUp with
      shep := { state := .running, rowJob := { state := 1 } }, mbx := { m1 := { slot := .taken, cmd := 1810, args := [(0, 1)] } } }
def w_jobStatus_s_3 : State :=
  { tUp with shep := { state := .running }, mbx := { m1 := { slot := .taken, cmd := 1810, args := [(0, 9)] } } }
def w_jobAbort_s : State :=
  { tUp with
      shep := { state := .running, xcalJob := { state := 1 } }, mbx := { m0 := { slot := .taken, cmd := 1811, args := [(0, 2)] } } }
def w_jobAbort_s_2 : State :=
  { tUp with shep := { state := .running }, mbx := { m0 := { slot := .taken, cmd := 1811, args := [(0, 2)] } } }
def w_jobKill_s : State :=
  { tUp with
      shep := { state := .running, rowJob := { state := 1 } }, mbx := { m2 := { slot := .taken, cmd := 1856, args := [(0, 1)] } } }
def w_releaseTally_s : State :=
  { tUp with
      shep := { state := .running }, mbx := { m2 := { slot := .taken, cmd := 1857 } }, tally := { u2 := { owner := .fw }, u3 := { owner := .fw, state := .measuring } } }
def w_eventClear_s : State :=
  { tUp with events := [(3, { bits := 7, seq := 3 })], out := { tUp.out with seen := [(3, { bits := 5, seq := 2 })] } }
def w_eventClear_s_2 : State :=
  { tUp with events := [(3, { bits := 7, seq := 3 })], out := { tUp.out with seen := [(3, { bits := 5, seq := 2 })] } }
def w_regWrite_s_7 : State :=
  { tUp with tally := { u1 := { owner := .host } } }
def w_preBellApply_s : State :=
  { tUp with cfgW := [(0x7100, 100)], cfg := { pend := [0x7100] } }
def w_preBellApply_s_2 : State :=
  { tUp with fold := { started := true }, cfgW := [(0x7100, 100)], cfg := { pend := [0x7100] } }
def w_configPassEnd_s : State :=
  { tUp with build := tTiny, time := { total := 1000 }, cfg := { refValid := true } }
def w_restoreWriteDone_s : State :=
  { tUp with
      build := tTiny, time := { slowEdges := 1000 }, cfg := { restoring := true, copy := [5, 77], portWrote := [0x3000] } }
def w_onBackup_s : State :=
  { tUp with lc := { backupOk := true } }
def w_onMain_s : State :=
  { tUp with time := { slowEdges := 65536 }, lc := { onBackup := true, mainOk := true } }
def w_backupFail_s : State :=
  { tUp with lc := { backupOk := true } }
def w_supplyOkChange_s : State :=
  { tUp with lc := { backupOk := true } }
def w_coldReset_s : State :=
  { tUp with time := { counter := 9 }, nowR := [(0x2000, 1)] }
def w_powerOnResetRelease_s : State :=
  { tUp with lc := { por := true } }
def w_warmReset_s : State :=
  { tUp with
      build := tTiny, time := { counter := 9 }, fold := { started := true }, shep := { active := some 0, state := .halted } }
def w_fabPowerLoss_s : State :=
  { tUp with build := tTiny, fold := { started := true } }
def w_fabPowerReturn_s : State :=
  { tUp with power := { pgood := false } }
def w_hcAreset_s : State :=
  { tUp with out := { resp := .slverr }, lc := { held := [3] } }
def w_eraseDone_s : State :=
  { tUp with build := tTiny, data := [(7, 9)], ret := [(3, 4)], lc := { erasing := true, state := 3 } }
def w_lcTransition_s : State :=
  { tUp with lc := { state := 1 } }
def w_lcRevoke_s : State :=
  { tUp with lc := { state := 2, fuses := { keyProg := 3 } } }
def w_lcDone_s : State :=
  { tUp with lc := { state := 1, job := some (.transition 3 4) } }
def w_lcDone_s_2 : State :=
  { tUp with lc := { state := 2, job := some (.revoke 1 4) } }
def w_lcTransition_s_3 : State :=
  { tUp with lc := { state := 1, job := some (.transition 2 4) } }
def w_lcDone_s_3 : State :=
  { tUp with lc := { state := 1, job := some (.transition 3 4), held := [0x509] } }
def w_testAccess_s_2 : State :=
  { tUp with lc := { fuses := { keyProg := 2 } } }
def w_testAccess_s_7 : State :=
  { tUp with lc := { state := 1, access := 1 } }
def w_testAccess_s_8 : State :=
  { tUp with lc := { state := 3, access := 3 } }
def w_buttonPress_s : State :=
  { tUp with time := { slowEdges := 70000 } }
def w_btnLong_s : State :=
  { tUp with time := { slowEdges := 18750000 }, lc := { button := true } }
def w_btnShort_s : State :=
  { tUp with time := { slowEdges := 70000 }, lc := { button := true } }
def w_buttonRelease_s : State :=
  { tUp with time := { slowEdges := 70000 }, lc := { button := true, longPress := true } }
def w_ledChange_s : State :=
  { tUp with time := { counter := 2 ^ 23 }, shep := { identifyEnd := some 9 } }
def w_sclTimeout_s : State :=
  { tUp with out := { i2c := [1] } }
def w_tickEdge_s : State :=
  { tUp with
      build := tTiny, time := { counter := 999, total := 999, slow := 39 }, fold := { started := true, f := 4096, g := 64, classes := [(0, { kEff := 12096, inc := 3 * 65536 })] }, regions := [(3, { out := true, c := 7 }), (4, { out := true, parked := true, lag16 := 9 })] }
def w_tickEdge_s_2 : State :=
  { tUp with build := tTiny, nowR := [(0x2000, 4)], time := { counter := 9, slow := 4 } }
def w_tickEdge_s_3 : State :=
  { tUp with build := tTiny, root := { tUp.root with bypass := true }, time := { counter := 7 } }
def w_tickEdge_s_4 : State :=
  { tUp with build := tTiny, root := { bypass := true }, time := { counter := 7, slow := 35 } }
def w_tickEdge_s_5 : State :=
  { tUp with time := { held := true } }
def w_tickEdge_s_6 : State :=
  { tUp with
      build := tTiny, time := { slow := 39 }, out := { waiting := [⟨⟨.host, 15, none⟩, 0x3008, 0x12345678, []⟩] } }
def w_tickEdge_s_7 : State :=
  { tUp with build := tTiny, time := { slow := 39 }, root := { tUp.root with
      meas := some ⟨.s1, 2, false, 9, 0⟩, heldMeas := [(.host, 0x317)] }, out := { waiting := [⟨⟨.host, 15, none⟩, 0x3008, 0x12345678, []⟩] } }
def w_issuedEdge_s : State :=
  { tUp with
      hook := [(1, { attached := true, writer := 3, reader := 4 })], xing := { tab := [(1, { enabled := true, armed := true })] }, time := { counter := 999, total := 999 }, fold := { started := true, f := 4096, g := 64, classes := [(0, { kEff := 12096, inc := 3 * 65536 })] }, regions := [(3, { out := true, c := 7, freq := 750 }), (4, { out := true })] }
def w_issuedEdge_s_2 : State :=
  { tUp with regions := [(3, { out := true, parked := true })] }

theorem test_crystalQualified :
    w_crystalQualified_s.root.refOk = false ∧
    w_crystalQualified_s.root.refLost = false ∧
    qualifiedEdges w_crystalQualified_s = true ∧
    nextSat (exec (.crystalQualified) w_crystalQualified_s)
      (fun t => decide (t.root.refOk = true) && decide (((synOf w_crystalQualified_s .s0).powered = true →
      (synOf w_crystalQualified_s .s0).locked = false → (synOf w_crystalQualified_s .s0).acquiring = false →
      (synOf w_crystalQualified_s .s0).failed = false → (synOf w_crystalQualified_s .s0).noBand = false →
      measuring w_crystalQualified_s .s0 = false →
      (synOf t .s0).acquiring = (selectRootBand (synOf w_crystalQualified_s .s0).table (250 * (synOf w_crystalQualified_s .s0).dT.toNat)).isSome ∧
      (synOf t .s0).noBand = (selectRootBand (synOf w_crystalQualified_s .s0).table (250 * (synOf w_crystalQualified_s .s0).dT.toNat)).isNone)) &&
      decide (((synOf w_crystalQualified_s .s1).powered = true → (synOf w_crystalQualified_s .s1).locked = false →
      (synOf w_crystalQualified_s .s1).acquiring = false → (synOf w_crystalQualified_s .s1).failed = false →
      (synOf w_crystalQualified_s .s1).noBand = false → measuring w_crystalQualified_s .s1 = false →
      (synOf t .s1).acquiring = (selectRootBand (synOf w_crystalQualified_s .s1).table (250 * (synOf w_crystalQualified_s .s1).dT.toNat)).isSome ∧
      (synOf t .s1).noBand = (selectRootBand (synOf w_crystalQualified_s .s1).table (250 * (synOf w_crystalQualified_s .s1).dT.toNat)).isNone))) = true :=
  by decide +kernel

theorem test_crystalQualified_more :
    qualifiedEdges State.reset = false ∧
    nextSat (exec (.crystalQualified) (State.reset))
      (fun t => decide (t.root.refOk = State.reset.root.refOk)) = true :=
  by decide +kernel

theorem test_missingCrystalEdge :
    tUp.root.missing = false ∧
    tUp.root.refOk = true ∧
    nextSat (exec (.missingCrystalEdge) tUp)
      (fun t => decide (t.root.goodEdges = 0) && decide (t.root.missing = true) &&
      decide (t.root.missedAt = elapsed tUp) && decide (t.root.slowFromTick = !tUp.root.bypass) &&
      decide ((synOf t .s0).frozen = true) && decide ((synOf t .s1).frozen = true) && decide ((tUp.root.bypass = true →
      t.time.held = true ∧ t.fold.suspended = true ∧ Flagged t .root 10))) = true :=
  by decide +kernel

theorem test_edgesResume :
    w_edgesResume_s.root.missing = true ∧
    w_edgesResume_s.root.refLost = false ∧
    (w_edgesResume_s.root.bypass = true ∨ w_edgesResume_s.time.held = true ∨ elapsed w_edgesResume_s ≤ w_edgesResume_s.root.missedAt + 320) ∧
    nextSat (exec (.edgesResume) w_edgesResume_s)
      (fun t => decide (t.root.missing = false) && decide (t.root.slowFromTick = false) &&
      decide (t.root.refOk = w_edgesResume_s.root.refOk) && decide (t.time.held = false) &&
      decide (((synOf w_edgesResume_s .s0).failed = false → (synOf t .s0).frozen = false)) &&
      decide (((synOf w_edgesResume_s .s1).failed = false → (synOf t .s1).frozen = false)) &&
      decide ((eventOf t .root).bits.getLsbD 5 = (eventOf w_edgesResume_s .root).bits.getLsbD 5) &&
      decide ((eventOf t .root).bits.getLsbD 6 = (eventOf w_edgesResume_s .root).bits.getLsbD 6)) = true :=
  by decide +kernel

theorem test_edgesResume_more :
    w_edgesResume_s_2.root.bypass = false ∧
    w_edgesResume_s_2.time.held = false ∧
    w_edgesResume_s_2.root.missedAt + 320 < elapsed w_edgesResume_s_2 ∧
    nextSat (exec (.edgesResume) w_edgesResume_s_2)
      (fun t => decide (t.root = w_edgesResume_s_2.root)) = true :=
  by decide +kernel

theorem test_refLoss :
    w_refLoss_s.root.missing = true ∧
    w_refLoss_s.root.refLost = false ∧
    (w_refLoss_s.root.bypass = true ∨ w_refLoss_s.time.held = true ∨ w_refLoss_s.root.missedAt + 320 ≤ elapsed w_refLoss_s) ∧
    nextSat (exec (.refLoss) w_refLoss_s)
      (fun t => decide (t.root.refOk = false) && decide (t.root.refLost = true) && decide (Flagged t .root 5)) = true :=
  by decide +kernel

theorem test_refLoss_more :
    w_refLoss_s_2.root.bypass = false ∧
    w_refLoss_s_2.time.held = false ∧
    elapsed w_refLoss_s_2 < w_refLoss_s_2.root.missedAt + 320 ∧
    nextSat (exec (.refLoss) w_refLoss_s_2)
      (fun t => decide (t.root = w_refLoss_s_2.root)) = true :=
  by decide +kernel

theorem test_refReturn :
    w_refReturn_s.root.refLost = true ∧
    qualifiedEdges w_refReturn_s = true ∧
    nextSat (exec (.refReturn) w_refReturn_s)
      (fun t => decide (t.root.refOk = true) && decide (t.root.recV = w_refReturn_s.time.counter) &&
      decide (t.root.refLost = false) && decide (t.root.missing = false) && decide (t.root.slowFromTick = false) &&
      decide (t.time.held = false) && decide (Flagged t .root 6) && decide (((synOf w_refReturn_s .s0).failed = false →
      (synOf t .s0).frozen = false)) && decide (((synOf w_refReturn_s .s0).failed = false →
      w_refReturn_s.root.bypass = true ∨ w_refReturn_s.root.active = prefSyn w_refReturn_s →
      (synOf t .s0).phaseResets = (synOf w_refReturn_s .s0).phaseResets)) &&
      decide (((synOf w_refReturn_s .s1).failed = false → (synOf t .s1).frozen = false)) &&
      decide (((synOf w_refReturn_s .s1).failed = false →
      w_refReturn_s.root.bypass = true ∨ w_refReturn_s.root.active = prefSyn w_refReturn_s →
      (synOf t .s1).phaseResets = (synOf w_refReturn_s .s1).phaseResets)) &&
      decide (((synOf w_refReturn_s .s0).failed = true → (synOf t .s0).failed = false ∧ (synOf t .s0).frozen = false ∧
      (synOf t .s0).locked = false)) && decide (((synOf w_refReturn_s .s1).failed = true →
      (synOf t .s1).failed = false ∧ (synOf t .s1).frozen = false ∧ (synOf t .s1).locked = false))) = true :=
  by decide +kernel

theorem test_frozenFailureCountEnd :
    w_frozenFailureCountEnd_s.root.missing = false ∧
    w_frozenFailureCountEnd_s.root.refLost = false ∧
    qualifiedEdges w_frozenFailureCountEnd_s = true ∧
    nextSat (exec (.frozenFailureCountEnd) w_frozenFailureCountEnd_s)
      (fun t => decide (t.root.refOk = w_frozenFailureCountEnd_s.root.refOk) &&
      decide (((synOf w_frozenFailureCountEnd_s .s0).failed = true → (synOf t .s0).failed = false ∧
      (synOf t .s0).frozen = false ∧ (synOf t .s0).locked = false)) &&
      decide (((synOf w_frozenFailureCountEnd_s .s1).failed = true → (synOf t .s1).failed = false ∧
      (synOf t .s1).frozen = false ∧ (synOf t .s1).locked = false)) &&
      decide (((synOf w_frozenFailureCountEnd_s .s0).failed = false →
      synOf t .s0 = synOf w_frozenFailureCountEnd_s .s0)) &&
      decide (((synOf w_frozenFailureCountEnd_s .s1).failed = false →
      synOf t .s1 = synOf w_frozenFailureCountEnd_s .s1))) = true :=
  by decide +kernel

theorem test_frozenFailureCountEnd_more :
    qualifiedEdges w_frozenFailureCountEnd_s_2 = false ∧
    nextSat (exec (.frozenFailureCountEnd) w_frozenFailureCountEnd_s_2)
      (fun t => decide (t.root = w_frozenFailureCountEnd_s_2.root)) = true :=
  by decide +kernel

theorem test_frozenOutputFail :
    (synOf tFrozen (.s0 : Syn)).frozen = true ∧
    (synOf tFrozen (.s0 : Syn)).failed = false ∧
    (synOf tFrozen (.s0 : Syn)).powered = true ∧
    (6000 < (6001 : Nat) ∨ (6001 : Nat) < 2000) ∧
    nextSat (exec (.frozenOutputFail (.s0 : Syn) (6001 : Nat)) tFrozen)
      (fun t => decide ((synOf t (.s0 : Syn)).failed = true) && decide ((synOf t (.s0 : Syn)).locked = false) &&
      decide (Flagged t .root (lossBit (.s0 : Syn))) && decide ((driving tFrozen (.s0 : Syn) = true →
      spareReady tFrozen (otherSyn (.s0 : Syn)) = true → t.root.active = otherSyn (.s0 : Syn) ∧ Flagged t .root 2 ∧
      t.time.counter = tFrozen.time.counter)) && decide ((driving tFrozen (.s0 : Syn) = true →
      spareReady tFrozen (otherSyn (.s0 : Syn)) = false → tFrozen.root.applied = none → tFrozen.root.missing = true →
      t.time.held = true ∧ t.time.counter = tFrozen.time.counter ∧ t.fold.suspended = true ∧ Flagged t .root 10)) &&
      decide ((driving tFrozen (.s0 : Syn) = false → t.root.aligned = false ∧ t.root.active = tFrozen.root.active ∧
      t.time = tFrozen.time))) = true :=
  by decide +kernel

theorem test_frozenOutputFail_more :
    driving w_frozenOutputFail_s_2 (.s0 : Syn) = true ∧
    (synOf w_frozenOutputFail_s_2 (.s0 : Syn)).frozen = true ∧
    (synOf w_frozenOutputFail_s_2 (.s0 : Syn)).failed = false ∧
    (synOf w_frozenOutputFail_s_2 (.s0 : Syn)).powered = true ∧
    (6000 < (1999 : Nat) ∨ (1999 : Nat) < 2000) ∧
    spareReady w_frozenOutputFail_s_2 (otherSyn (.s0 : Syn)) = false ∧
    w_frozenOutputFail_s_2.root.applied = none ∧
    w_frozenOutputFail_s_2.root.missing = true ∧
    nextSat (exec (.frozenOutputFail (.s0 : Syn) (1999 : Nat)) w_frozenOutputFail_s_2)
      (fun t => decide (t.time.held = true) && decide (t.time.counter = w_frozenOutputFail_s_2.time.counter) &&
      decide (t.fold.suspended = true) && decide (t.root.bypass = w_frozenOutputFail_s_2.root.bypass) &&
      decide (Flagged t .root 10)) = true :=
  by decide +kernel

theorem test_lockLoss :
    (synOf tUp (.s0 : Syn)).locked = true ∧
    (synOf tUp (.s0 : Syn)).frozen = false ∧
    ((false : Bool) = true ∨ (400 < (401 : Int).natAbs ∧ 400 < (-401 : Int).natAbs)) ∧
    1 ≤ (1 : Nat) ∧
    nextSat (exec (.lockLoss (.s0 : Syn) (401 : Int) (-401 : Int) (false : Bool) (false : Bool) (1 : Nat)) tUp)
      (fun t => decide ((synOf t (.s0 : Syn)).locked = false) && decide (((synOf tUp (.s0 : Syn)).powered = true →
      (spareEn tUp = true ∨ prefSyn tUp = (.s0 : Syn)) → tUp.root.refOk = true →
      (synOf tUp (.s0 : Syn)).noBand = false → measuring tUp (.s0 : Syn) = false →
      (synOf t (.s0 : Syn)).acquiring = (selectRootBand (synOf tUp (.s0 : Syn)).table (250 * (synOf tUp (.s0 : Syn)).dT.toNat)).isSome)) &&
      decide (Flagged t .root (lossBit (.s0 : Syn))) && decide (((false : Bool) = false →
      driving tUp (.s0 : Syn) = true → spareReady tUp (otherSyn (.s0 : Syn)) = true →
      t.root.active = otherSyn (.s0 : Syn) ∧ t.root.bypass = false ∧ Flagged t .root 2 ∧
      t.time.counter = tUp.time.counter)) && decide (((false : Bool) = false → driving tUp (.s0 : Syn) = true →
      spareReady tUp (otherSyn (.s0 : Syn)) = false → tUp.root.missing = false → tUp.root.applied = none →
      t.root.bypass = true ∧ t.root.bypTarget + 5 = tUp.root.recV + 5 * (1 : Nat) ∧
      nextCounter t = max tUp.time.counter (tUp.root.recV + 5 * (1 : Nat)) ∧ Flagged t .root 3)) &&
      decide (((false : Bool) = true → driving tUp (.s0 : Syn) = true →
      (synOf tUp (otherSyn (.s0 : Syn))).locked = true → (synOf tUp (otherSyn (.s0 : Syn))).frozen = false →
      tUp.root.missing = false → t.root.bypass = true ∧ t.root.active = tUp.root.active ∧
      nextCounter t = max tUp.time.counter (tUp.root.recV + 5 * (1 : Nat)) ∧
      (synOf t (otherSyn (.s0 : Syn))).locked = false ∧ Flagged t .root 3 ∧
      Flagged t .root (lossBit (otherSyn (.s0 : Syn)))))) = true :=
  by decide +kernel

theorem test_lockLoss_more :
    (true : Bool) = true ∧
    driving w_lockLoss_s_2 (.s0 : Syn) = true ∧
    (synOf w_lockLoss_s_2 (.s0 : Syn)).locked = true ∧
    (synOf w_lockLoss_s_2 (.s0 : Syn)).frozen = false ∧
    (true : Bool) = true ∧
    1 ≤ (3 : Nat) ∧
    (synOf w_lockLoss_s_2 (otherSyn (.s0 : Syn))).locked = true ∧
    (synOf w_lockLoss_s_2 (otherSyn (.s0 : Syn))).frozen = false ∧
    w_lockLoss_s_2.root.missing = false ∧
    nextSat (exec (.lockLoss (.s0 : Syn) (0 : Int) (0 : Int) (true : Bool) (true : Bool) (3 : Nat)) w_lockLoss_s_2)
      (fun t => decide (t.root.bypass = true) &&
      decide (nextCounter t = max w_lockLoss_s_2.time.counter (w_lockLoss_s_2.root.recV + 5 * (3 : Nat))) &&
      decide ((synOf t (.s0 : Syn)).locked = false) && decide ((synOf t (otherSyn (.s0 : Syn))).locked = false) &&
      decide (Flagged t .root (lossBit (.s0 : Syn))) && decide (Flagged t .root (lossBit (otherSyn (.s0 : Syn)))) &&
      decide (Flagged t .root 3)) = true :=
  by decide +kernel

theorem test_lockAcquired :
    (synOf w_lockAcquired_s (.s0 : Syn)).acquiring = true ∧
    (synOf w_lockAcquired_s (.s0 : Syn)).powered = true ∧
    (synOf w_lockAcquired_s (.s0 : Syn)).frozen = false ∧
    nextSat (exec (.lockAcquired (.s0 : Syn)) w_lockAcquired_s)
      (fun t => decide ((synOf t (.s0 : Syn)).locked = true) && decide ((synOf t (.s0 : Syn)).acquiring = false) &&
      decide ((synOf t (.s0 : Syn)).band = (synOf w_lockAcquired_s (.s0 : Syn)).band) &&
      decide ((synOf t (.s0 : Syn)).lockAt = elapsed w_lockAcquired_s) &&
      decide ((synOf t (.s0 : Syn)).qualified = (synOf w_lockAcquired_s (.s0 : Syn)).qualified)) = true :=
  by decide +kernel

theorem test_synthQualified :
    (synOf w_synthQualified_s (.s1 : Syn)).locked = true ∧
    (synOf w_synthQualified_s (.s1 : Syn)).qualified = false ∧
    (synOf w_synthQualified_s (.s1 : Syn)).frozen = false ∧
    (synOf w_synthQualified_s (.s1 : Syn)).lockAt + 327680 ≤ elapsed w_synthQualified_s ∧
    (synOf w_synthQualified_s (.s1 : Syn)).powered = true ∧
    spareEn w_synthQualified_s = true ∧
    nextSat (exec (.synthQualified (.s1 : Syn)) w_synthQualified_s)
      (fun t => decide ((synOf t (.s1 : Syn)).qualified = true) && decide ((w_synthQualified_s.root.bypass = false →
      w_synthQualified_s.root.active ≠ (.s1 : Syn) → prefSyn w_synthQualified_s = w_synthQualified_s.root.active →
      t.root.aligned = true ∧ t.root.active = w_synthQualified_s.root.active ∧
      (synOf t (.s1 : Syn)).phaseResets = (synOf w_synthQualified_s (.s1 : Syn)).phaseResets + 1)) &&
      decide ((w_synthQualified_s.root.bypass = false → w_synthQualified_s.root.active ≠ (.s1 : Syn) →
      prefSyn w_synthQualified_s = (.s1 : Syn) → t.root.active = (.s1 : Syn) ∧ Flagged t .root 2))) = true :=
  by decide +kernel

theorem test_synthQualified_more :
    elapsed w_synthQualified_s_2 < (synOf w_synthQualified_s_2 (.s1 : Syn)).lockAt + 327680 ∧
    nextSat (exec (.synthQualified (.s1 : Syn)) w_synthQualified_s_2)
      (fun t => decide (t.root = w_synthQualified_s_2.root)) = true :=
  by decide +kernel

theorem test_bypExit :
    w_bypExit_s.root.bypass = true ∧
    bypassForce w_bypExit_s = false ∧
    w_bypExit_s.root.missing = false ∧
    w_bypExit_s.time.held = false ∧
    w_bypExit_s.root.refOk = true ∧
    mayReturn w_bypExit_s (.s0 : Syn) = true ∧
    (synOf w_bypExit_s (otherSyn (.s0 : Syn))).frozen = false ∧
    nextSat (exec (.bypExit (.s0 : Syn) (true : Bool) (true : Bool)) w_bypExit_s)
      (fun t => decide ((synOf t (.s0 : Syn)).phaseResets = (synOf w_bypExit_s (.s0 : Syn)).phaseResets + 1) &&
      decide (t.time.counter = w_bypExit_s.time.counter) && decide (((true : Bool) = true → (true : Bool) = true →
      t.root.bypass = false ∧ t.root.active = (.s0 : Syn) ∧ t.root.recV = w_bypExit_s.time.counter ∧
      t.power.meshUp = (w_bypExit_s.power.meshUp || w_bypExit_s.power.pgood) ∧ Flagged t .root 4)) &&
      decide (((true : Bool) = false ∨ (true : Bool) = false → t.root.bypass = true))) = true :=
  by decide +kernel

theorem test_prefWrite :
    Performs (⟨.host, 15, none⟩ : Wr) 0x2000 w_prefWrite_s ∧
    (nextSat (exec (.prefWrite (⟨.host, 15, none⟩ : Wr) (3 : Word)) w_prefWrite_s)
      (fun t => decide (nowGet t 0x2000 = (3 : Word) &&& 7) && decide ((w_prefWrite_s.root.bypass = false →
      w_prefWrite_s.root.active ≠ synNum (fld (3 : Word) 0 1) →
      spareReady w_prefWrite_s (synNum (fld (3 : Word) 0 1)) = true → t.root.active = synNum (fld (3 : Word) 0 1) ∧
      Flagged t .root 2)) &&
      decide ((w_prefWrite_s.root.bypass = true ∨ w_prefWrite_s.root.active = synNum (fld (3 : Word) 0 1) ∨ spareReady w_prefWrite_s (synNum (fld (3 : Word) 0 1)) = false →
      t.root.active = w_prefWrite_s.root.active))) = true) :=
  ⟨⟨by decide, by decide, by decide, by decide, by decide⟩, by decide +kernel⟩

theorem test_spareEnWrite :
    Performs (⟨.host, 15, none⟩ : Wr) 0x2000 tUp ∧
    (nextSat (exec (.spareEnWrite (⟨.host, 15, none⟩ : Wr) (0 : Word)) tUp)
      (fun t => decide (nowGet t 0x2000 = (0 : Word) &&& 7) &&
      decide ((synOf t (synNum (fld (0 : Word) 0 1))).powered = true) && decide ((bitAt (0 : Word) 1 = true →
      (synOf t (otherSyn (synNum (fld (0 : Word) 0 1)))).powered = true)) && decide ((bitAt (0 : Word) 1 = false →
      driving tUp (otherSyn (synNum (fld (0 : Word) 0 1))) = false →
      (synOf t (otherSyn (synNum (fld (0 : Word) 0 1)))).powered = false))) = true) :=
  ⟨⟨by decide, by decide, by decide, by decide, by decide⟩, by decide +kernel⟩

theorem test_bypassForce :
    Performs (⟨.host, 15, none⟩ : Wr) 0x2000 tUp ∧
    (nextSat (exec (.bypassForce (⟨.host, 15, none⟩ : Wr) (7 : Word)) tUp)
      (fun t => decide (nowGet t 0x2000 = (7 : Word) &&& 7) && decide (bypassForce t = bitAt (7 : Word) 2) &&
      decide (t.root.bypass = tUp.root.bypass) && decide (t.time = tUp.time)) = true) :=
  ⟨⟨by decide, by decide, by decide, by decide, by decide⟩, by decide +kernel⟩

theorem test_divApply :
    Performs (⟨.host, 15, none⟩ : Wr) 0x200C w_divApply_s ∧
    (fld (0x301 : Word) 0 8 ≠ w_divApply_s.root.divTag.toNat ∧
    w_divApply_s.root.switchedAt ≠ some (elapsed w_divApply_s) ∧
    (bitAt (0x301 : Word) 8 = true → applyRejects w_divApply_s .s0 = false) ∧
    (bitAt (0x301 : Word) 9 = true → applyRejects w_divApply_s .s1 = false) ∧
    nextSat (exec (.divApply (⟨.host, 15, none⟩ : Wr) (0x301 : Word)) w_divApply_s)
      (fun t => decide (t.root.divTag = BitVec.ofNat 8 (fld (0x301 : Word) 0 8)) &&
      decide ((bitAt (0x301 : Word) 8 = true →
      ((synOf t .s0).refMode.toNat, (synOf t .s0).n.toNat, (synOf t .s0).dT.toNat) = shadowOf w_divApply_s .s0)) &&
      decide ((bitAt (0x301 : Word) 9 = true →
      ((synOf t .s1).refMode.toNat, (synOf t .s1).n.toNat, (synOf t .s1).dT.toNat) = shadowOf w_divApply_s .s1))) = true) :=
  ⟨⟨by decide, by decide, by decide, by decide, by decide⟩, by decide +kernel⟩

theorem test_divApply_more :
    (Performs (⟨.host, 15, none⟩ : Wr) 0x200C w_divApply_s_2 ∧
    (fld (0x101 : Word) 0 8 ≠ w_divApply_s_2.root.divTag.toNat ∧
    w_divApply_s_2.root.switchedAt = some (elapsed w_divApply_s_2) ∧
    nextSat (exec (.divApply (⟨.host, 15, none⟩ : Wr) (0x101 : Word)) w_divApply_s_2)
      (fun t => decide (t.root = w_divApply_s_2.root) &&
      decide (t.out.captures = w_divApply_s_2.out.captures ++ [⟨⟨.host, 15, none⟩, 0x200C, (0x101 : Word), []⟩]) &&
      decide (t.events = w_divApply_s_2.events)) = true)) ∧
    (Performs (⟨.host, 15, none⟩ : Wr) 0x200C w_divApply_s_3 ∧
    (fld (0x101 : Word) 0 8 ≠ w_divApply_s_3.root.divTag.toNat ∧
    w_divApply_s_3.root.switchedAt ≠ some (elapsed w_divApply_s_3) ∧
    ((bitAt (0x101 : Word) 8 = true ∧ applyRejects w_divApply_s_3 .s0 = true) ∨ (bitAt (0x101 : Word) 9 = true ∧
      applyRejects w_divApply_s_3 .s1 = true)) ∧
    nextSat (exec (.divApply (⟨.host, 15, none⟩ : Wr) (0x101 : Word)) w_divApply_s_3)
      (fun t => decide (t.root = { w_divApply_s_3.root with applied := t.root.applied }) &&
      decide (Flagged t .root 7)) = true)) :=
  ⟨⟨⟨by decide, by decide, by decide, by decide, by decide⟩, by decide +kernel⟩,
   ⟨⟨by decide, by decide, by decide, by decide, by decide⟩, by decide +kernel⟩⟩

theorem test_rootBtabWrite :
    Performs (⟨.host, 15, none⟩ : Wr) 0x2020 w_rootBtabWrite_s ∧
    (nextSat (exec (.rootBtabWrite (⟨.host, 15, none⟩ : Wr) (0xC0001234 : Word)) w_rootBtabWrite_s)
      (fun t => decide (tabGet (synOf t (synNum (fld (nowGet w_rootBtabWrite_s (portKey (⟨.host, 15, none⟩ : Wr).port 0x201C)) 4 1))).table (fld (nowGet w_rootBtabWrite_s (portKey (⟨.host, 15, none⟩ : Wr).port 0x201C)) 0 4) 0 = (0xC0001234 : Word) &&& rootEntryMask) &&
      decide (memWord t.ret (0x40 + 64 * synIx (synNum (fld (nowGet w_rootBtabWrite_s (portKey (⟨.host, 15, none⟩ : Wr).port 0x201C)) 4 1)) + 4 * fld (nowGet w_rootBtabWrite_s (portKey (⟨.host, 15, none⟩ : Wr).port 0x201C)) 0 4) = (0xC0001234 : Word) &&& rootEntryMask) &&
      decide (((synOf w_rootBtabWrite_s (synNum (fld (nowGet w_rootBtabWrite_s (portKey (⟨.host, 15, none⟩ : Wr).port 0x201C)) 4 1))).noBand = true →
      (synOf w_rootBtabWrite_s (synNum (fld (nowGet w_rootBtabWrite_s (portKey (⟨.host, 15, none⟩ : Wr).port 0x201C)) 4 1))).powered = true →
      (synOf w_rootBtabWrite_s (synNum (fld (nowGet w_rootBtabWrite_s (portKey (⟨.host, 15, none⟩ : Wr).port 0x201C)) 4 1))).locked = false →
      (synOf w_rootBtabWrite_s (synNum (fld (nowGet w_rootBtabWrite_s (portKey (⟨.host, 15, none⟩ : Wr).port 0x201C)) 4 1))).acquiring = false →
      (synOf w_rootBtabWrite_s (synNum (fld (nowGet w_rootBtabWrite_s (portKey (⟨.host, 15, none⟩ : Wr).port 0x201C)) 4 1))).failed = false →
      w_rootBtabWrite_s.root.refOk = true →
      measuring w_rootBtabWrite_s (synNum (fld (nowGet w_rootBtabWrite_s (portKey (⟨.host, 15, none⟩ : Wr).port 0x201C)) 4 1)) = false →
      (synOf t (synNum (fld (nowGet w_rootBtabWrite_s (portKey (⟨.host, 15, none⟩ : Wr).port 0x201C)) 4 1))).acquiring = (selectRootBand (synOf t (synNum (fld (nowGet w_rootBtabWrite_s (portKey (⟨.host, 15, none⟩ : Wr).port 0x201C)) 4 1))).table (250 * (synOf w_rootBtabWrite_s (synNum (fld (nowGet w_rootBtabWrite_s (portKey (⟨.host, 15, none⟩ : Wr).port 0x201C)) 4 1))).dT.toNat)).isSome))) = true) :=
  ⟨⟨by decide, by decide, by decide, by decide, by decide⟩, by decide +kernel⟩

theorem test_rootMeas :
    Performs (⟨.host, 15, none⟩ : Wr) 0x2024 tUp ∧
    (tUp.root.meas = none ∧
    fld (0x100 : Word) 8 8 ≠ tUp.root.measTag.toNat ∧
    driving tUp (synNum (fld (0x100 : Word) 4 1)) = true ∧
    nextSat (exec (.rootMeas (⟨.host, 15, none⟩ : Wr) (0x100 : Word)) tUp)
      (fun t => decide (t.root.measStatus = 1) && decide (t.root.measTag = BitVec.ofNat 8 (fld (0x100 : Word) 8 8)) &&
      decide (t.root.meas = none)) = true) :=
  ⟨⟨by decide, by decide, by decide, by decide, by decide⟩, by decide +kernel⟩

theorem test_rootMeas_more :
    (Performs (⟨.host, 15, none⟩ : Wr) 0x2024 tUp ∧
    (tUp.root.meas = none ∧
    fld (0x135 : Word) 8 8 ≠ tUp.root.measTag.toNat ∧
    driving tUp (synNum (fld (0x135 : Word) 4 1)) = false ∧
    nextSat (exec (.rootMeas (⟨.host, 15, none⟩ : Wr) (0x135 : Word)) tUp)
      (fun t => decide (t.root.measStatus = 3) &&
      decide (t.root.meas = some ⟨synNum (fld (0x135 : Word) 4 1), BitVec.ofNat 4 (fld (0x135 : Word) 0 4), bitAt (0x135 : Word) 5, BitVec.ofNat 8 (fld (0x135 : Word) 8 8), elapsed tUp⟩) &&
      decide ((synOf t (synNum (fld (0x135 : Word) 4 1))).locked = false)) = true)) ∧
    (Performs (⟨.host, 15, none⟩ : Wr) 0x2024 w_rootMeas_s_3 ∧
    (w_rootMeas_s_3.root.meas ≠ none ∧
    nextSat (exec (.rootMeas (⟨.host, 15, none⟩ : Wr) (0x135 : Word)) w_rootMeas_s_3)
      (fun t => decide (t.root = { w_rootMeas_s_3.root with
      heldMeas := w_rootMeas_s_3.root.heldMeas ++ [((⟨.host, 15, none⟩ : Wr).port, (0x135 : Word))] }) &&
      decide (t.nowR = w_rootMeas_s_3.nowR)) = true)) :=
  ⟨⟨⟨by decide, by decide, by decide, by decide, by decide⟩, by decide +kernel⟩,
   ⟨⟨by decide, by decide, by decide, by decide, by decide⟩, by decide +kernel⟩⟩

theorem test_rootMeasDone :
    w_rootMeasDone_s.root.meas = some (⟨.s1, 5, true, 9, 0⟩ : RootMeas) ∧
    w_rootMeasDone_s.root.heldMeas = [] ∧
    (⟨.s1, 5, true, 9, 0⟩ : RootMeas).start + measTicks ≤ elapsed w_rootMeasDone_s ∧
    nextSat (exec (.rootMeasDone (777 : BitVec 16)) w_rootMeasDone_s)
      (fun t => decide (t.root.meas = none) && decide (t.root.measCount = (777 : BitVec 16)) &&
      decide (t.root.measTag = (⟨.s1, 5, true, 9, 0⟩ : RootMeas).tag) && decide (t.root.measStatus = 0) &&
      decide ((synOf t (⟨.s1, 5, true, 9, 0⟩ : RootMeas).syn).locked = false) &&
      decide (((synOf w_rootMeasDone_s (⟨.s1, 5, true, 9, 0⟩ : RootMeas).syn).powered = true →
      w_rootMeasDone_s.root.refOk = true →
      (synOf w_rootMeasDone_s (⟨.s1, 5, true, 9, 0⟩ : RootMeas).syn).noBand = false →
      (synOf t (⟨.s1, 5, true, 9, 0⟩ : RootMeas).syn).acquiring = (selectRootBand (synOf w_rootMeasDone_s (⟨.s1, 5, true, 9, 0⟩ : RootMeas).syn).table (250 * (synOf w_rootMeasDone_s (⟨.s1, 5, true, 9, 0⟩ : RootMeas).syn).dT.toNat)).isSome))) = true :=
  by decide +kernel

theorem test_rootMeasDone_more :
    w_rootMeasDone_s_2.root.meas = some (⟨.s1, 5, true, 9, 0⟩ : RootMeas) ∧
    (⟨.s1, 5, true, 9, 0⟩ : RootMeas).start + measTicks ≤ elapsed w_rootMeasDone_s_2 ∧
    w_rootMeasDone_s_2.root.heldMeas = [((.host : Port), (0x1A16 : Word))] ∧
    fld (0x1A16 : Word) 8 8 ≠ (⟨.s1, 5, true, 9, 0⟩ : RootMeas).tag.toNat ∧
    driving w_rootMeasDone_s_2 .s0 = true ∧
    (⟨.s1, 5, true, 9, 0⟩ : RootMeas).syn = .s1 ∧
    fld (0x1A16 : Word) 4 1 = 1 ∧
    nextSat (exec (.rootMeasDone (777 : BitVec 16)) w_rootMeasDone_s_2)
      (fun t => decide (t.root.measCount = (777 : BitVec 16)) &&
      decide (t.root.measTag = (⟨.s1, 5, true, 9, 0⟩ : RootMeas).tag) && decide (t.root.measStatus = 3) &&
      decide (t.root.meas = some ⟨.s1, BitVec.ofNat 4 (fld (0x1A16 : Word) 0 4), bitAt (0x1A16 : Word) 5, BitVec.ofNat 8 (fld (0x1A16 : Word) 8 8), elapsed w_rootMeasDone_s_2⟩) &&
      decide (t.root.heldMeas = [])) = true :=
  by decide +kernel

theorem test_rootAgeWrite :
    Performs (⟨.host, 15, none⟩ : Wr) 0x2034 tUp ∧
    (nextSat (exec (.rootAgeWrite (⟨.host, 15, none⟩ : Wr) (0xFFFFF123 : Word)) tUp)
      (fun t => decide (nowGet t 0x2034 = (0xFFFFF123 : Word) &&& 0xFFF) &&
      decide (t.root.ageCurrent = tUp.root.ageCurrent) && decide (t.mus.ageSteps = 0)) = true) :=
  ⟨⟨by decide, by decide, by decide, by decide, by decide⟩, by decide +kernel⟩

theorem test_ageSlewStep :
    w_ageSlewStep_s.root.ageAt + 65536 ≤ w_ageSlewStep_s.time.slowEdges ∧
    nextSat (exec (.ageSlewStep) w_ageSlewStep_s)
      (fun t => decide (t.root.ageAt = w_ageSlewStep_s.time.slowEdges) &&
      decide ((w_ageSlewStep_s.root.ageCurrent.slt (BitVec.ofNat 12 (fld (nowGet w_ageSlewStep_s 0x2034) 0 12)) = true →
      t.root.ageCurrent = w_ageSlewStep_s.root.ageCurrent + 1)) &&
      decide (((BitVec.ofNat 12 (fld (nowGet w_ageSlewStep_s 0x2034) 0 12)).slt w_ageSlewStep_s.root.ageCurrent = true →
      t.root.ageCurrent = w_ageSlewStep_s.root.ageCurrent - 1)) &&
      decide ((w_ageSlewStep_s.root.ageCurrent = BitVec.ofNat 12 (fld (nowGet w_ageSlewStep_s 0x2034) 0 12) →
      t.root.ageCurrent = w_ageSlewStep_s.root.ageCurrent))) = true :=
  by decide +kernel

theorem test_ageSlewStep_more :
    w_ageSlewStep_s_2.time.slowEdges < w_ageSlewStep_s_2.root.ageAt + 65536 ∧
    nextSat (exec (.ageSlewStep) w_ageSlewStep_s_2)
      (fun t => decide (t.root = w_ageSlewStep_s_2.root)) = true :=
  by decide +kernel

theorem test_syncInEdge :
    nextSat (exec (.syncInEdge (0x1234 : BitVec 16)) w_syncInEdge_s)
      (fun t => decide (t.root.syncEdges = w_syncInEdge_s.root.syncEdges + 1) &&
      decide ((bitAt (nowGet w_syncInEdge_s 0x202C) 0 = true → t.root.syncPhase = (0x1234 : BitVec 16))) &&
      decide ((bitAt (nowGet w_syncInEdge_s 0x202C) 0 = false → t.root.syncPhase = w_syncInEdge_s.root.syncPhase)) &&
      decide ((bitAt (nowGet w_syncInEdge_s 0x202C) 1 = true → Flagged t .root 9 ∧
      (synOf t .s0).phaseResets = (synOf w_syncInEdge_s .s0).phaseResets + (if driving w_syncInEdge_s .s0 &&
      w_syncInEdge_s.time.firstBell then 0 else 1) ∧
      (synOf t .s1).phaseResets = (synOf w_syncInEdge_s .s1).phaseResets + (if driving w_syncInEdge_s .s1 &&
      w_syncInEdge_s.time.firstBell then 0 else 1)))) = true :=
  by decide +kernel

theorem test_bellSnapReq :
    Performs (⟨.host, 15, none⟩ : Wr) 0x1000 w_bellSnapReq_s ∧
    (BitVec.ofNat 8 (fld (5 : Word) 0 8) ≠ (snapOf w_bellSnapReq_s 0 (⟨.host, 15, none⟩ : Wr).port).tag ∧
    nextSat (exec (.bellSnapReq (⟨.host, 15, none⟩ : Wr) (5 : Word)) w_bellSnapReq_s)
      (fun t => decide (snapOf t 0 (⟨.host, 15, none⟩ : Wr).port = ⟨true, BitVec.ofNat 8 (fld (5 : Word) 0 8), 0, w_bellSnapReq_s.root.bypass, [BitVec.ofNat 32 w_bellSnapReq_s.time.counter, BitVec.ofNat 32 (w_bellSnapReq_s.time.counter / 2 ^ 32)]⟩)) = true) :=
  ⟨⟨by decide, by decide, by decide, by decide, by decide⟩, by decide +kernel⟩

theorem test_bellLoad :
    Performs (⟨.host, 15, none⟩ : Wr) 0x1018 w_bellLoad_s ∧
    (BitVec.ofNat 8 (fld (1 : Word) 0 8) ≠ w_bellLoad_s.time.loadTag ∧
    w_bellLoad_s.time.firstBell = false ∧
    nextSat (exec (.bellLoad (⟨.host, 15, none⟩ : Wr) (1 : Word)) w_bellLoad_s)
      (fun t => decide (t.time.loadTag = BitVec.ofNat 8 (fld (1 : Word) 0 8)) &&
      decide (t.time.counter = (nowGet w_bellLoad_s 0x1010).toNat + 2 ^ 32 * (nowGet w_bellLoad_s 0x1014).toNat) &&
      decide (Flagged t .bell 0) && decide ((w_bellLoad_s.fold.pending = true → t.fold.pending = false ∧
      t.fold.rejCause = 4 ∧ Flagged t .fold 5))) = true) :=
  ⟨⟨by decide, by decide, by decide, by decide, by decide⟩, by decide +kernel⟩

theorem test_bellLoad_more :
    (Performs (⟨.host, 15, none⟩ : Wr) 0x1018 w_bellLoad_s_2 ∧
    (BitVec.ofNat 8 (fld (1 : Word) 0 8) ≠ w_bellLoad_s_2.time.loadTag ∧
    w_bellLoad_s_2.time.firstBell = true ∧
    nextSat (exec (.bellLoad (⟨.host, 15, none⟩ : Wr) (1 : Word)) w_bellLoad_s_2)
      (fun t => decide (t.time.loadTag = BitVec.ofNat 8 (fld (1 : Word) 0 8)) &&
      decide (t.time.counter = w_bellLoad_s_2.time.counter) && decide (Flagged t .bell 1)) = true)) :=
  ⟨⟨by decide, by decide, by decide, by decide, by decide⟩, by decide +kernel⟩

theorem test_broadcastFrame :
    isPath w_broadcastFrame_s (2 : Nat) (0 : Nat) = true ∧
    w_broadcastFrame_s.power.meshUp = true ∧
    frameGood (0xB4 : BitVec 128) = false ∧
    nextSat (exec (.broadcastFrame (2 : Nat) (0 : Nat) (0xB4 : BitVec 128)) w_broadcastFrame_s)
      (fun t => decide ((pathOf (flockOf t (2 : Nat)) (0 : Nat)).crcBad = (pathOf (flockOf w_broadcastFrame_s (2 : Nat)) (0 : Nat)).crcBad + 1)) = true :=
  by decide +kernel

theorem test_broadcastFrame_more :
    (isPath w_broadcastFrame_s_2 (2 : Nat) (0 : Nat) = true ∧
    w_broadcastFrame_s_2.power.meshUp = true ∧
    frameSync (tFrame : BitVec 128) = true ∧
    frameGood (tFrame : BitVec 128) = true ∧
    meshSetFor (tFrame : BitVec 128) (2 : Nat) (0 : Nat) = none ∧
    (pathOf (flockOf w_broadcastFrame_s_2 (2 : Nat)) (0 : Nat)).repValid = true ∧
    nextSat (exec (.broadcastFrame (2 : Nat) (0 : Nat) (tFrame : BitVec 128)) w_broadcastFrame_s_2)
      (fun t => decide ((pathOf (flockOf t (2 : Nat)) (0 : Nat)).crcBad = 0) &&
      decide ((frameLoad (tFrame : BitVec 128) = false →
      ((pathOf (flockOf t (2 : Nat)) (0 : Nat)).mismatch = true ↔ ((frameT (tFrame : BitVec 128) : Int) + (pathOf (flockOf w_broadcastFrame_s_2 (2 : Nat)) (0 : Nat)).m.toNat ≠ (pathOf (flockOf w_broadcastFrame_s_2 (2 : Nat)) (0 : Nat)).repBase + w_broadcastFrame_s_2.time.frameLast)))) &&
      decide ((frameLoad (tFrame : BitVec 128) = true → (pathOf (flockOf t (2 : Nat)) (0 : Nat)).mismatch = false ∧
      (pathOf (flockOf t (2 : Nat)) (0 : Nat)).repBase = (frameT (tFrame : BitVec 128) : Int) + (pathOf (flockOf w_broadcastFrame_s_2 (2 : Nat)) (0 : Nat)).m.toNat - w_broadcastFrame_s_2.time.frameLast))) = true) ∧
    (isPath w_broadcastFrame_s_3 (2 : Nat) (0 : Nat) = true ∧
    w_broadcastFrame_s_3.power.meshUp = true ∧
    frameSync (tFrame : BitVec 128) = true ∧
    frameGood (tFrame : BitVec 128) = true ∧
    meshSetFor (tFrame : BitVec 128) (2 : Nat) (0 : Nat) = none ∧
    (pathOf (flockOf w_broadcastFrame_s_3 (2 : Nat)) (0 : Nat)).repValid = false ∧
    (pathOf (flockOf w_broadcastFrame_s_3 (2 : Nat)) (0 : Nat)).mValid = true ∧
    nextSat (exec (.broadcastFrame (2 : Nat) (0 : Nat) (tFrame : BitVec 128)) w_broadcastFrame_s_3)
      (fun t => decide ((pathOf (flockOf t (2 : Nat)) (0 : Nat)).crcBad = 0) &&
      decide ((pathOf (flockOf t (2 : Nat)) (0 : Nat)).repValid = true) &&
      decide ((pathOf (flockOf t (2 : Nat)) (0 : Nat)).mismatch = false) &&
      decide ((pathOf (flockOf t (2 : Nat)) (0 : Nat)).repBase = (frameT (tFrame : BitVec 128) : Int) + (pathOf (flockOf w_broadcastFrame_s_3 (2 : Nat)) (0 : Nat)).m.toNat + 128 - w_broadcastFrame_s_3.time.frameTot)) = true) ∧
    (isPath w_broadcastFrame_s_4 (2 : Nat) (0 : Nat) = true ∧
    w_broadcastFrame_s_4.power.meshUp = true ∧
    frameSync (tFrameSet : BitVec 128) = true ∧
    frameGood (tFrameSet : BitVec 128) = true ∧
    meshSetFor (tFrameSet : BitVec 128) (2 : Nat) (0 : Nat) = some ((9 : Nat), (true : Bool)) ∧
    (w_broadcastFrame_s_4.root.bypass = false ∨ (pathOf (flockOf w_broadcastFrame_s_4 (2 : Nat)) (0 : Nat)).locked = false) ∧
    nextSat (exec (.broadcastFrame (2 : Nat) (0 : Nat) (tFrameSet : BitVec 128)) w_broadcastFrame_s_4)
      (fun t => decide ((pathOf (flockOf t (2 : Nat)) (0 : Nat)).m = BitVec.ofNat 6 (9 : Nat)) &&
      decide ((pathOf (flockOf t (2 : Nat)) (0 : Nat)).mValid = (true : Bool)) &&
      decide ((pathOf (flockOf t (2 : Nat)) (0 : Nat)).repValid = false)) = true) :=
  ⟨by decide +kernel, by decide +kernel, by decide +kernel⟩

theorem test_pathLockDone :
    isPath w_pathLockDone_s (2 : Nat) (0 : Nat) = true ∧
    w_pathLockDone_s.power.meshUp = true ∧
    w_pathLockDone_s.root.bypass = false ∧
    w_pathLockDone_s.root.refOk = true ∧
    pathFits (pathOf (flockOf w_pathLockDone_s (2 : Nat)) (0 : Nat)).m.toNat (⟨33, 4⟩ : PathDelay) = true ∧
    (pathOf (flockOf w_pathLockDone_s (2 : Nat)) (0 : Nat)).mValid = true ∧
    (pathOf (flockOf w_pathLockDone_s (2 : Nat)) (0 : Nat)).repValid = true ∧
    (pathOf (flockOf w_pathLockDone_s (2 : Nat)) (0 : Nat)).locked = false ∧
    frameSync (tFrame : BitVec 128) = true ∧
    frameGood (tFrame : BitVec 128) = true ∧
    (pathOf (flockOf w_pathLockDone_s (2 : Nat)) (0 : Nat)).repFrom ≤ w_pathLockDone_s.time.frameLast ∧
    (frameT (tFrame : BitVec 128) : Int) + (pathOf (flockOf w_pathLockDone_s (2 : Nat)) (0 : Nat)).m.toNat = (pathOf (flockOf w_pathLockDone_s (2 : Nat)) (0 : Nat)).repBase + w_pathLockDone_s.time.frameLast ∧
    nextSat (exec (.pathLockDone (2 : Nat) (0 : Nat) (⟨33, 4⟩ : PathDelay) (tFrame : BitVec 128)) w_pathLockDone_s)
      (fun t => decide ((pathOf (flockOf t (2 : Nat)) (0 : Nat)).locked = true) &&
      decide ((pathOf (flockOf t (2 : Nat)) (0 : Nat)).delta = (⟨33, 4⟩ : PathDelay).delta) &&
      decide ((pathOf (flockOf t (2 : Nat)) (0 : Nat)).calOut = false) &&
      decide ((pathOf (flockOf t (2 : Nat)) (0 : Nat)).failed = (pathOf (flockOf w_pathLockDone_s (2 : Nat)) (0 : Nat)).failed) &&
      decide ((pathOf (flockOf t (2 : Nat)) (0 : Nat)).cleanFrom = w_pathLockDone_s.time.total)) = true :=
  by decide +kernel

theorem test_pathLockDone_more :
    (isPath w_pathLockDone_s_2 (2 : Nat) (0 : Nat) = true ∧
    w_pathLockDone_s_2.time.frameLast < (pathOf (flockOf w_pathLockDone_s_2 (2 : Nat)) (0 : Nat)).repFrom ∧
    nextSat (exec (.pathLockDone (2 : Nat) (0 : Nat) (⟨33, 4⟩ : PathDelay) (tFrame : BitVec 128)) w_pathLockDone_s_2)
      (fun t => decide (t.flocks = w_pathLockDone_s_2.flocks)) = true) ∧
    (isPath w_pathLockDone_s_3 (2 : Nat) (0 : Nat) = true ∧
    pathFits (pathOf (flockOf w_pathLockDone_s_3 (2 : Nat)) (0 : Nat)).m.toNat (⟨33, 11⟩ : PathDelay) = false ∧
    nextSat (exec (.pathLockDone (2 : Nat) (0 : Nat) (⟨33, 11⟩ : PathDelay) (tFrame : BitVec 128)) w_pathLockDone_s_3)
      (fun t => decide (t.flocks = w_pathLockDone_s_3.flocks)) = true) :=
  ⟨by decide +kernel, by decide +kernel⟩

theorem test_deltaTrack :
    isPath w_deltaTrack_s (2 : Nat) (0 : Nat) = true ∧
    (pathOf (flockOf w_deltaTrack_s (2 : Nat)) (0 : Nat)).locked = true ∧
    w_deltaTrack_s.root.bypass = false ∧
    w_deltaTrack_s.time.held = false ∧
    (pathOf (flockOf w_deltaTrack_s (2 : Nat)) (0 : Nat)).trackAt + 256 ≤ elapsed w_deltaTrack_s ∧
    (true : Bool) = true ∧
    nextSat (exec (.deltaTrack (2 : Nat) (0 : Nat) (true : Bool)) w_deltaTrack_s)
      (fun t => decide (((pathOf (flockOf w_deltaTrack_s (2 : Nat)) (0 : Nat)).delta = 0 →
      (pathOf (flockOf t (2 : Nat)) (0 : Nat)).delta = 1023 ∧
      (pathOf (flockOf t (2 : Nat)) (0 : Nat)).m = (pathOf (flockOf w_deltaTrack_s (2 : Nat)) (0 : Nat)).m + 1 ∧
      (pathOf (flockOf t (2 : Nat)) (0 : Nat)).repBase = (pathOf (flockOf w_deltaTrack_s (2 : Nat)) (0 : Nat)).repBase + 1)) &&
      decide (((pathOf (flockOf w_deltaTrack_s (2 : Nat)) (0 : Nat)).delta ≠ 0 →
      (pathOf (flockOf t (2 : Nat)) (0 : Nat)).delta = (pathOf (flockOf w_deltaTrack_s (2 : Nat)) (0 : Nat)).delta - 1 ∧
      (pathOf (flockOf t (2 : Nat)) (0 : Nat)).m = (pathOf (flockOf w_deltaTrack_s (2 : Nat)) (0 : Nat)).m))) = true :=
  by decide +kernel

theorem test_deltaTrack_more :
    (isPath w_deltaTrack_s_2 (2 : Nat) (0 : Nat) = true ∧
    (pathOf (flockOf w_deltaTrack_s_2 (2 : Nat)) (0 : Nat)).locked = true ∧
    w_deltaTrack_s_2.root.bypass = false ∧
    w_deltaTrack_s_2.time.held = false ∧
    (pathOf (flockOf w_deltaTrack_s_2 (2 : Nat)) (0 : Nat)).trackAt + 256 ≤ elapsed w_deltaTrack_s_2 ∧
    (false : Bool) = false ∧
    nextSat (exec (.deltaTrack (2 : Nat) (0 : Nat) (false : Bool)) w_deltaTrack_s_2)
      (fun t => decide (((pathOf (flockOf w_deltaTrack_s_2 (2 : Nat)) (0 : Nat)).delta = 1023 →
      (pathOf (flockOf t (2 : Nat)) (0 : Nat)).delta = 0 ∧
      (pathOf (flockOf t (2 : Nat)) (0 : Nat)).m = (pathOf (flockOf w_deltaTrack_s_2 (2 : Nat)) (0 : Nat)).m - 1 ∧
      (pathOf (flockOf t (2 : Nat)) (0 : Nat)).repBase = (pathOf (flockOf w_deltaTrack_s_2 (2 : Nat)) (0 : Nat)).repBase - 1)) &&
      decide (((pathOf (flockOf w_deltaTrack_s_2 (2 : Nat)) (0 : Nat)).delta ≠ 1023 →
      (pathOf (flockOf t (2 : Nat)) (0 : Nat)).delta = (pathOf (flockOf w_deltaTrack_s_2 (2 : Nat)) (0 : Nat)).delta + 1 ∧
      (pathOf (flockOf t (2 : Nat)) (0 : Nat)).m = (pathOf (flockOf w_deltaTrack_s_2 (2 : Nat)) (0 : Nat)).m))) = true) ∧
    (isPath w_deltaTrack_s_3 (2 : Nat) (0 : Nat) = true ∧
    (w_deltaTrack_s_3.root.bypass = true ∨ w_deltaTrack_s_3.time.held = true ∨ elapsed w_deltaTrack_s_3 < (pathOf (flockOf w_deltaTrack_s_3 (2 : Nat)) (0 : Nat)).trackAt + 256) ∧
    nextSat (exec (.deltaTrack (2 : Nat) (0 : Nat) (true : Bool)) w_deltaTrack_s_3)
      (fun t => decide (t.flocks = w_deltaTrack_s_3.flocks)) = true) :=
  ⟨by decide +kernel, by decide +kernel⟩

theorem test_pathFail :
    isPath w_pathFail_s (2 : Nat) (0 : Nat) = true ∧
    (pathOf (flockOf w_pathFail_s (2 : Nat)) (0 : Nat)).locked = true ∧
    (pathOf (flockOf w_pathFail_s (2 : Nat)) (0 : Nat)).failed = false ∧
    faultHolds w_pathFail_s (2 : Nat) (0 : Nat) (.noEdge : PathFault) = true ∧
    (.noEdge : PathFault) ≠ .mismatch ∧
    nextSat (exec (.pathFail (2 : Nat) (0 : Nat) (.noEdge : PathFault)) w_pathFail_s)
      (fun t => decide ((pathOf (flockOf t (2 : Nat)) (0 : Nat)).failed = true) &&
      decide ((pathOf (flockOf t (2 : Nat)) (0 : Nat)).locked = false) &&
      decide ((pathOf (flockOf t (2 : Nat)) (0 : Nat)).mValid = false) &&
      decide ((pathOf (flockOf t (2 : Nat)) (0 : Nat)).repValid = false) && decide (Flagged t .bell 2) &&
      decide ((flockOf t (2 : Nat)).fails = if (flockOf w_pathFail_s (2 : Nat)).fails = 255 then 255 else (flockOf w_pathFail_s (2 : Nat)).fails + 1)) = true :=
  by decide +kernel

theorem test_pathFail_more :
    (isPath w_pathFail_s_2 (2 : Nat) (0 : Nat) = true ∧
    (pathOf (flockOf w_pathFail_s_2 (2 : Nat)) (0 : Nat)).locked = true ∧
    (pathOf (flockOf w_pathFail_s_2 (2 : Nat)) (0 : Nat)).failed = false ∧
    faultHolds w_pathFail_s_2 (2 : Nat) (0 : Nat) .mismatch = true ∧
    (healthyPaths w_pathFail_s_2 (2 : Nat)).length = 2 ∧
    (healthyPaths w_pathFail_s_2 (2 : Nat)).contains (0 : Nat) = true ∧
    nextSat (exec (.pathFail (2 : Nat) (0 : Nat) .mismatch) w_pathFail_s_2)
      (fun t => decide (Flagged t .bell 2) && decide (Flagged t .bell 5)) = true) ∧
    (isPath w_pathFail_s_3 (2 : Nat) (0 : Nat) = true ∧
    (w_pathFail_s_3.time.held = true ∨ (judgedAlone w_pathFail_s_3 (2 : Nat) (0 : Nat) = false ∧
      otherLocked w_pathFail_s_3 (2 : Nat) (0 : Nat) = [])) ∧
    nextSat (exec (.pathFail (2 : Nat) (0 : Nat) (.echoLost : PathFault)) w_pathFail_s_3)
      (fun t => decide (t.flocks = w_pathFail_s_3.flocks)) = true) :=
  ⟨by decide +kernel, by decide +kernel⟩

theorem test_pathReturn :
    isPath w_pathReturn_s (2 : Nat) (1 : Nat) = true ∧
    (pathOf (flockOf w_pathReturn_s (2 : Nat)) (1 : Nat)).failed = true ∧
    (pathOf (flockOf w_pathReturn_s (2 : Nat)) (1 : Nat)).locked = true ∧
    (pathOf (flockOf w_pathReturn_s (2 : Nat)) (1 : Nat)).mismatch = false ∧
    (pathOf (flockOf w_pathReturn_s (2 : Nat)) (1 : Nat)).crcBad < (if (flockOf w_pathReturn_s (2 : Nat)).noClock then 1 else 2) ∧
    (pathOf (flockOf w_pathReturn_s (2 : Nat)) (1 : Nat)).cleanFrom + 65536 ≤ w_pathReturn_s.time.total ∧
    nextSat (exec (.pathReturn (2 : Nat) (1 : Nat)) w_pathReturn_s)
      (fun t => decide ((pathOf (flockOf t (2 : Nat)) (1 : Nat)).failed = false) &&
      decide ((pathOf (flockOf t (2 : Nat)) (1 : Nat)).locked = true) && decide (Flagged t .bell 3)) = true :=
  by decide +kernel

theorem test_meshDisable :
    Performs (⟨.host, 15, none⟩ : Wr) ((flockAddr (2 : Nat) 0xC)) w_meshDisable_s ∧
    (w_meshDisable_s.build.valid = true ∧
    (2 : Nat) < w_meshDisable_s.build.flocks ∧
    nextSat (exec (.meshDisable (⟨.host, 15, none⟩ : Wr) (2 : Nat) (1 : Word)) w_meshDisable_s)
      (fun t => decide (nowGet t (flockAddr (2 : Nat) 0xC) = (1 : Word) &&& 7) &&
      decide ((eventOf t .bell).bits.getLsbD 2 = (eventOf w_meshDisable_s .bell).bits.getLsbD 2) &&
      decide ((healthyPaths t (2 : Nat) ≠ [] → (flockOf t (2 : Nat)).sel.toNat ∈ healthyPaths t (2 : Nat)))) = true) :=
  ⟨⟨by decide, by decide, by decide, by decide, by decide⟩, by decide +kernel⟩

theorem test_foldStart :
    Performs (⟨.host, 15, none⟩ : Wr) 0x3010 w_foldStart_s ∧
    (BitVec.ofNat 8 (fld (1 : Word) 0 8) ≠ w_foldStart_s.fold.startTag ∧
    w_foldStart_s.time.counter + 128 ≤ firstWritten w_foldStart_s ∧
    meshReadyNow w_foldStart_s = true ∧
    startCfgOk w_foldStart_s = true ∧
    w_foldStart_s.fold.started = false ∧
    nextSat (exec (.foldStart (⟨.host, 15, none⟩ : Wr) (1 : Word)) w_foldStart_s)
      (fun t => decide (t.fold.pending = true) && decide (t.fold.firstTick = firstWritten w_foldStart_s) &&
      decide (t.fold.startTag = BitVec.ofNat 8 (fld (1 : Word) 0 8))) = true) :=
  ⟨⟨by decide, by decide, by decide, by decide, by decide⟩, by decide +kernel⟩

theorem test_foldStart_more :
    (Performs (⟨.host, 15, none⟩ : Wr) 0x3010 w_foldStart_s_2 ∧
    (BitVec.ofNat 8 (fld (1 : Word) 0 8) ≠ w_foldStart_s_2.fold.startTag ∧
    (firstWritten w_foldStart_s_2 < w_foldStart_s_2.time.counter + 128 ∨ meshReadyNow w_foldStart_s_2 = false ∨ startCfgOk w_foldStart_s_2 = false ∨ w_foldStart_s_2.fold.started = true) ∧
    nextSat (exec (.foldStart (⟨.host, 15, none⟩ : Wr) (1 : Word)) w_foldStart_s_2)
      (fun t => decide (t.fold.pending = w_foldStart_s_2.fold.pending) &&
      decide (t.fold.startTag = BitVec.ofNat 8 (fld (1 : Word) 0 8)) && decide (Flagged t .fold 5) &&
      decide (t.fold.rejCause = if firstWritten w_foldStart_s_2 < w_foldStart_s_2.time.counter + 128 then 1 else if meshReadyNow w_foldStart_s_2 = false then 2 else if startCfgOk w_foldStart_s_2 = false then 3 else 5)) = true)) ∧
    (Performs (⟨.host, 15, none⟩ : Wr) 0x3010 w_foldStart_s_3 ∧
    (BitVec.ofNat 8 (fld (1 : Word) 0 8) ≠ w_foldStart_s_3.fold.startTag ∧
    w_foldStart_s_3.time.counter + 128 ≤ firstWritten w_foldStart_s_3 ∧
    meshReadyNow w_foldStart_s_3 = true ∧
    startCfgOk w_foldStart_s_3 = true ∧
    w_foldStart_s_3.fold.started = false ∧
    nextSat (exec (.foldStart (⟨.host, 15, none⟩ : Wr) (1 : Word)) w_foldStart_s_3)
      (fun t => decide (t.fold.pending = true) && decide (t.fold.firstTick = firstWritten w_foldStart_s_3) &&
      decide (t.fold.startTag = BitVec.ofNat 8 (fld (1 : Word) 0 8))) = true)) ∧
    (Performs (⟨.host, 15, none⟩ : Wr) 0x3010 w_foldStart_s_4 ∧
    (BitVec.ofNat 8 (fld (1 : Word) 0 8) ≠ w_foldStart_s_4.fold.startTag ∧
    (firstWritten w_foldStart_s_4 < w_foldStart_s_4.time.counter + 128 ∨ meshReadyNow w_foldStart_s_4 = false ∨ startCfgOk w_foldStart_s_4 = false ∨ w_foldStart_s_4.fold.started = true) ∧
    nextSat (exec (.foldStart (⟨.host, 15, none⟩ : Wr) (1 : Word)) w_foldStart_s_4)
      (fun t => decide (t.fold.pending = w_foldStart_s_4.fold.pending) &&
      decide (t.fold.startTag = BitVec.ofNat 8 (fld (1 : Word) 0 8)) && decide (Flagged t .fold 5) &&
      decide (t.fold.rejCause = if firstWritten w_foldStart_s_4 < w_foldStart_s_4.time.counter + 128 then 1 else if meshReadyNow w_foldStart_s_4 = false then 2 else if startCfgOk w_foldStart_s_4 = false then 3 else 5)) = true)) :=
  ⟨⟨⟨by decide, by decide, by decide, by decide, by decide⟩, by decide +kernel⟩,
   ⟨⟨by decide, by decide, by decide, by decide, by decide⟩, by decide +kernel⟩,
   ⟨⟨by decide, by decide, by decide, by decide, by decide⟩, by decide +kernel⟩⟩

theorem test_regionPark :
    isRegion w_regionPark_s (3 : Nat) = true ∧
    mayPark w_regionPark_s (3 : Nat) = true ∧
    nextSat (exec (.regionPark (3 : Nat)) w_regionPark_s)
      (fun t => decide ((regionOf t (3 : Nat)).parked = true) && decide ((regionOf t (3 : Nat)).pulling = false) &&
      decide ((regionOf t (3 : Nat)).kDone = w_regionPark_s.time.counter - w_regionPark_s.fold.bellTick)) = true :=
  by decide +kernel

theorem test_graceTailStart :
    w_graceTailStart_s.fold.tail = false ∧
    w_graceTailStart_s.time.held = false ∧
    w_graceTailStart_s.fold.started = true ∧
    w_graceTailStart_s.fold.bellTick + (w_graceTailStart_s.fold.f - w_graceTailStart_s.fold.g) ≤ w_graceTailStart_s.time.counter ∧
    nextSat (exec (.graceTailStart) w_graceTailStart_s)
      (fun t => decide (t.fold.tail = true) && decide ((regionOf t 3).leanC = none)) = true :=
  by decide +kernel

theorem test_graceTailStart_more :
    w_graceTailStart_s_2.fold.tail = false ∧
    w_graceTailStart_s_2.time.held = false ∧
    w_graceTailStart_s_2.fold.started = false ∧
    nearFirst w_graceTailStart_s_2 = true ∧
    nextSat (exec (.graceTailStart) w_graceTailStart_s_2)
      (fun t => decide (t.fold.tail = true)) = true :=
  by decide +kernel

theorem test_call :
    w_call_s.fold.started = true ∧
    w_call_s.fold.ring = false ∧
    w_call_s.time.held = false ∧
    w_call_s.fold.nextBell ≤ w_call_s.time.counter + 16 ∧
    w_call_s.fold.plannedReq ≤ w_call_s.fold.plannedLaps ∧
    (∀ r < w_call_s.build.regions, incomplete w_call_s r = false) ∧
    nextSat (exec (.call) w_call_s)
      (fun t => decide (t.fold.ring = true) && decide (t.fold.nextBell = w_call_s.fold.nextBell)) = true :=
  by decide +kernel

theorem test_call_more :
    (w_call_s_2.fold.started = true ∧
    w_call_s_2.fold.ring = false ∧
    w_call_s_2.time.held = false ∧
    w_call_s_2.fold.nextBell ≤ w_call_s_2.time.counter + 16 ∧
    w_call_s_2.fold.plannedReq ≤ w_call_s_2.fold.plannedLaps ∧
    (∃ r < w_call_s_2.build.regions, incomplete w_call_s_2 r = true) ∧
    nextSat (exec (.call) w_call_s_2)
      (fun t => decide (t.fold.ring = false) && decide (t.fold.laps = w_call_s_2.fold.laps + 1) &&
      decide (t.fold.lapsAll = w_call_s_2.fold.lapsAll + 1) &&
      decide (t.fold.nextBell = w_call_s_2.fold.nextBell + 64) && decide ((w_call_s_2.fold.laps = 0 →
      t.fold.missed = w_call_s_2.fold.missed + 1 ∧ Flagged t .fold 1)) &&
      decide ((stallLaps w_call_s_2 ≤ w_call_s_2.fold.laps + 1 → t.fold.stalled = true))) = true) ∧
    (w_call_s_3.fold.started = true ∧
    w_call_s_3.fold.ring = false ∧
    w_call_s_3.time.held = false ∧
    w_call_s_3.fold.nextBell ≤ w_call_s_3.time.counter + 16 ∧
    w_call_s_3.fold.plannedLaps < w_call_s_3.fold.plannedReq ∧
    nextSat (exec (.call) w_call_s_3)
      (fun t => decide (t.fold.plannedLaps = w_call_s_3.fold.plannedReq) &&
      decide (t.fold.laps = w_call_s_3.fold.laps) &&
      decide (t.fold.nextBell = w_call_s_3.fold.nextBell + 64 * (w_call_s_3.fold.plannedReq - w_call_s_3.fold.plannedLaps)) &&
      decide (Flagged t .fold 10)) = true) :=
  ⟨by decide +kernel, by decide +kernel⟩

theorem test_bell :
    w_bell_s.time.held = false ∧
    w_bell_s.fold.started = true ∧
    w_bell_s.fold.ring = true ∧
    w_bell_s.fold.nextBell ≤ w_bell_s.time.counter ∧
    nextSat (exec (.bell) w_bell_s)
      (fun t => decide (t.fold.bellTick = w_bell_s.fold.nextBell) && decide (t.fold.folds = w_bell_s.fold.folds + 1) &&
      decide (t.fold.nextBell = w_bell_s.fold.nextBell + t.fold.f) && decide (t.fold.laps = 0) &&
      decide (t.fold.plannedLaps = 0) && decide (t.fold.tail = false) && decide (t.fold.ring = false) &&
      decide (Flagged t .fold 0) && decide ((regionOf t 3).c = 0)) = true :=
  by decide +kernel

theorem test_bell_more :
    w_bell_s_2.time.held = false ∧
    w_bell_s_2.fold.started = false ∧
    w_bell_s_2.fold.pending = true ∧
    w_bell_s_2.fold.firstTick ≤ w_bell_s_2.time.counter ∧
    nextSat (exec (.bell) w_bell_s_2)
      (fun t => decide (t.fold.started = true) && decide (t.fold.pending = false) &&
      decide (t.fold.bellTick = w_bell_s_2.fold.firstTick) && decide (t.time.firstBell = true) &&
      decide (Flagged t .fold 0) && decide (Flagged t .fold 4)) = true :=
  by decide +kernel

theorem test_pull :
    isRegion w_pull_s (3 : Nat) = true ∧
    pullsNow w_pull_s (3 : Nat) = true ∧
    (regionOf w_pull_s (3 : Nat)).pulling = false ∧
    nextSat (exec (.pull (3 : Nat)) w_pull_s)
      (fun t => decide ((regionOf t (3 : Nat)).pulling = true) &&
      decide (t.fold.pulls = w_pull_s.fold.pulls + 1)) = true :=
  by decide +kernel

theorem test_excludeSet :
    Performs (⟨.host, 15, none⟩ : Wr) 0x3020 tUp ∧
    ((1 : BitVec 8) ≠ tUp.fold.exclTag ∧
    isRegion tUp (3 : BitVec 13).toNat = true ∧
    (regionOf tUp (3 : BitVec 13).toNat).excl = .no ∧
    nextSat (exec (.excludeSet (⟨.host, 15, none⟩ : Wr) (3 : BitVec 13) (1 : BitVec 8)) tUp)
      (fun t => decide ((regionOf t (3 : BitVec 13).toNat).excl = .byHost) &&
      decide ((regionOf t (3 : BitVec 13).toNat).parked = true) && decide (t.fold.exclRes = 0) &&
      decide (t.fold.exclTag = (1 : BitVec 8)) && decide (t.fold.exclRegion = (3 : BitVec 13))) = true) :=
  ⟨⟨by decide, by decide, by decide, by decide, by decide⟩, by decide +kernel⟩

theorem test_excludeSet_more :
    (Performs (⟨.host, 15, none⟩ : Wr) 0x3020 w_excludeSet_s_2 ∧
    ((1 : BitVec 8) ≠ w_excludeSet_s_2.fold.exclTag ∧
    isRegion w_excludeSet_s_2 (3 : BitVec 13).toNat = true ∧
    (regionOf w_excludeSet_s_2 (3 : BitVec 13).toNat).excl ≠ .no ∧
    nextSat (exec (.excludeSet (⟨.host, 15, none⟩ : Wr) (3 : BitVec 13) (1 : BitVec 8)) w_excludeSet_s_2)
      (fun t => decide ((regionOf t (3 : BitVec 13).toNat).readmit = false) &&
      decide (t.fold.exclRes = if (regionOf w_excludeSet_s_2 (3 : BitVec 13).toNat).readmit then 0 else 1) &&
      decide (t.fold.exclTag = (1 : BitVec 8))) = true)) ∧
    (Performs (⟨.host, 15, none⟩ : Wr) 0x3020 tUp ∧
    ((1 : BitVec 8) ≠ tUp.fold.exclTag ∧
    isRegion tUp (256 : BitVec 13).toNat = false ∧
    nextSat (exec (.excludeSet (⟨.host, 15, none⟩ : Wr) (256 : BitVec 13) (1 : BitVec 8)) tUp)
      (fun t => decide (t.fold.exclRes = 2) && decide (t.fold.exclTag = (1 : BitVec 8)) &&
      decide (t.regions = tUp.regions) && decide (Flagged t .fold 12)) = true)) :=
  ⟨⟨⟨by decide, by decide, by decide, by decide, by decide⟩, by decide +kernel⟩,
   ⟨⟨by decide, by decide, by decide, by decide, by decide⟩, by decide +kernel⟩⟩

theorem test_excludeClear :
    Performs (⟨.host, 15, none⟩ : Wr) 0x3020 w_excludeClear_s ∧
    ((1 : BitVec 8) ≠ w_excludeClear_s.fold.exclTag ∧
    isRegion w_excludeClear_s (3 : BitVec 13).toNat = true ∧
    (regionOf w_excludeClear_s (3 : BitVec 13).toNat).excl ≠ .no ∧
    (regionOf w_excludeClear_s (3 : BitVec 13).toNat).readmit = false ∧
    nextSat (exec (.excludeClear (⟨.host, 15, none⟩ : Wr) (3 : BitVec 13) (1 : BitVec 8)) w_excludeClear_s)
      (fun t => decide ((regionOf t (3 : BitVec 13).toNat).readmit = true) &&
      decide ((regionOf t (3 : BitVec 13).toNat).excl = (regionOf w_excludeClear_s (3 : BitVec 13).toNat).excl) &&
      decide (t.fold.exclRes = 0) && decide (t.fold.exclTag = (1 : BitVec 8))) = true) :=
  ⟨⟨by decide, by decide, by decide, by decide, by decide⟩, by decide +kernel⟩

theorem test_excludeClear_more :
    (Performs (⟨.host, 15, none⟩ : Wr) 0x3020 w_excludeClear_s_2 ∧
    ((1 : BitVec 8) ≠ w_excludeClear_s_2.fold.exclTag ∧
    isRegion w_excludeClear_s_2 (3 : BitVec 13).toNat = true ∧
    ((regionOf w_excludeClear_s_2 (3 : BitVec 13).toNat).excl = .no ∨ (regionOf w_excludeClear_s_2 (3 : BitVec 13).toNat).readmit = true) ∧
    nextSat (exec (.excludeClear (⟨.host, 15, none⟩ : Wr) (3 : BitVec 13) (1 : BitVec 8)) w_excludeClear_s_2)
      (fun t => decide (t.regions = w_excludeClear_s_2.regions) && decide (t.fold.exclRes = 1) &&
      decide (t.fold.exclTag = (1 : BitVec 8)) && decide (t.fold.exclRegion = (3 : BitVec 13))) = true)) ∧
    (Performs (⟨.host, 15, none⟩ : Wr) 0x3020 tUp ∧
    ((1 : BitVec 8) ≠ tUp.fold.exclTag ∧
    isRegion tUp (256 : BitVec 13).toNat = false ∧
    nextSat (exec (.excludeClear (⟨.host, 15, none⟩ : Wr) (256 : BitVec 13) (1 : BitVec 8)) tUp)
      (fun t => decide (t.regions = tUp.regions) && decide (t.fold.exclRes = 2) &&
      decide (t.fold.exclTag = (1 : BitVec 8)) && decide (t.fold.exclRegion = (256 : BitVec 13)) &&
      decide (Flagged t .fold 12)) = true)) :=
  ⟨⟨⟨by decide, by decide, by decide, by decide, by decide⟩, by decide +kernel⟩,
   ⟨⟨by decide, by decide, by decide, by decide, by decide⟩, by decide +kernel⟩⟩

theorem test_foldTetherWrite :
    Performs (⟨.host, 15, none⟩ : Wr) 0x3004 tUp ∧
    (tUp.xing.captured = false ∧
    4 ≤ fld (0x81E : Word) 0 6 ∧
    fld (0x81E : Word) 0 6 ≤ 32 ∧
    2 ≤ fld (0x81E : Word) 8 4 ∧
    fld (0x81E : Word) 8 4 ≤ 8 ∧
    fld (0x81E : Word) 8 4 + 2 ≤ fld (0x81E : Word) 0 6 ∧
    nextSat (exec (.foldTetherWrite (⟨.host, 15, none⟩ : Wr) (0x81E : Word)) tUp)
      (fun t => decide (nowGet t 0x3004 = (0x81E : Word) &&& 0xF3F)) = true) :=
  ⟨⟨by decide, by decide, by decide, by decide, by decide⟩, by decide +kernel⟩

theorem test_foldTetherWrite_more :
    (Performs (⟨.host, 15, none⟩ : Wr) 0x3004 tUp ∧
    ((tUp.xing.captured = true ∨ fld (0x221 : Word) 0 6 < 4 ∨ 32 < fld (0x221 : Word) 0 6 ∨ fld (0x221 : Word) 8 4 < 2 ∨ 8 < fld (0x221 : Word) 8 4 ∨ fld (0x221 : Word) 0 6 < fld (0x221 : Word) 8 4 + 2) ∧
    nextSat (exec (.foldTetherWrite (⟨.host, 15, none⟩ : Wr) (0x221 : Word)) tUp)
      (fun t => decide (nowGet t 0x3004 = nowGet tUp 0x3004) && decide (Flagged t .fold 6)) = true)) :=
  ⟨⟨by decide, by decide, by decide, by decide, by decide⟩, by decide +kernel⟩

theorem test_foldStatReq :
    Performs (⟨.host, 15, none⟩ : Wr) 0x3028 w_foldStatReq_s ∧
    (BitVec.ofNat 8 (fld (1 : Word) 0 8) ≠ (snapOf w_foldStatReq_s 1 (⟨.host, 15, none⟩ : Wr).port).tag ∧
    nextSat (exec (.foldStatReq (⟨.host, 15, none⟩ : Wr) (1 : Word)) w_foldStatReq_s)
      (fun t => decide (snapOf t 1 (⟨.host, 15, none⟩ : Wr).port = ⟨true, BitVec.ofNat 8 (fld (1 : Word) 0 8), 0, false, foldStatWords w_foldStatReq_s⟩)) = true) :=
  ⟨⟨by decide, by decide, by decide, by decide, by decide⟩, by decide +kernel⟩

theorem test_foldLogSel :
    Performs (⟨.host, 15, none⟩ : Wr) 0x3050 w_foldLogSel_s ∧
    (nextSat (exec (.foldLogSel (⟨.host, 15, none⟩ : Wr) (1 : Word)) w_foldLogSel_s)
      (fun t => decide (tabGet t.logs (portIx (⟨.host, 15, none⟩ : Wr).port) {} = w_foldLogSel_s.fold.log.getD (fld (1 : Word) 0 4) {})) = true) :=
  ⟨⟨by decide, by decide, by decide, by decide, by decide⟩, by decide +kernel⟩

theorem test_tetherStop :
    isXing w_tetherStop_s (1 : Nat) = true ∧
    (xingOf w_tetherStop_s (1 : Nat)).armed = true ∧
    bandOf w_tetherStop_s < (slipOf (xingOf w_tetherStop_s (1 : Nat))).natAbs ∧
    0 < slipOf (xingOf w_tetherStop_s (1 : Nat)) ∧
    stoppable w_tetherStop_s (hookOf w_tetherStop_s (1 : Nat)).reader = true ∧
    (xingOf w_tetherStop_s (1 : Nat)).stopR = false ∧
    nextSat (exec (.tetherStop (1 : Nat)) w_tetherStop_s)
      (fun t => decide ((xingOf t (1 : Nat)).stopR = true) &&
      decide ((xingOf t (1 : Nat)).stopW = (xingOf w_tetherStop_s (1 : Nat)).stopW) &&
      decide ((xingOf t (1 : Nat)).tstops = (xingOf w_tetherStop_s (1 : Nat)).tstops + 1) &&
      decide (t.fold.tstops = w_tetherStop_s.fold.tstops + 1)) = true :=
  by decide +kernel

theorem test_tetherStop_more :
    isXing w_tetherStop_s_2 (1 : Nat) = true ∧
    (xingOf w_tetherStop_s_2 (1 : Nat)).armed = true ∧
    bandOf w_tetherStop_s_2 < (slipOf (xingOf w_tetherStop_s_2 (1 : Nat))).natAbs ∧
    slipOf (xingOf w_tetherStop_s_2 (1 : Nat)) < 0 ∧
    stoppable w_tetherStop_s_2 (hookOf w_tetherStop_s_2 (1 : Nat)).writer = true ∧
    (xingOf w_tetherStop_s_2 (1 : Nat)).stopW = false ∧
    nextSat (exec (.tetherStop (1 : Nat)) w_tetherStop_s_2)
      (fun t => decide ((xingOf t (1 : Nat)).stopW = true) &&
      decide ((xingOf t (1 : Nat)).stopR = (xingOf w_tetherStop_s_2 (1 : Nat)).stopR) &&
      decide ((xingOf t (1 : Nat)).tstops = (xingOf w_tetherStop_s_2 (1 : Nat)).tstops + 1) &&
      decide (t.fold.tstops = w_tetherStop_s_2.fold.tstops + 1)) = true :=
  by decide +kernel

theorem test_availInterlock :
    isXing w_availInterlock_s (1 : Nat) = true ∧
    (xingOf w_availInterlock_s (1 : Nat)).armed = true ∧
    (xingOf w_availInterlock_s (1 : Nat)).avail = false ∧
    stoppable w_availInterlock_s (hookOf w_availInterlock_s (1 : Nat)).reader = true ∧
    beatOn w_availInterlock_s (hookOf w_availInterlock_s (1 : Nat)).reader (1 : Nat) = true ∧
    availBlocks (xingOf w_availInterlock_s (1 : Nat)) (65536 * w_availInterlock_s.time.total) = true ∧
    nextSat (exec (.availInterlock (1 : Nat)) w_availInterlock_s)
      (fun t => decide ((xingOf t (1 : Nat)).avail = true) &&
      decide ((xingOf t (1 : Nat)).availCnt = (xingOf w_availInterlock_s (1 : Nat)).availCnt + 1) &&
      decide (t.fold.tstops = w_availInterlock_s.fold.tstops + 1)) = true :=
  by decide +kernel

theorem test_roomStop :
    isXing w_roomStop_s (1 : Nat) = true ∧
    (xingOf w_roomStop_s (1 : Nat)).armed = true ∧
    (xingOf w_roomStop_s (1 : Nat)).room = false ∧
    stoppable w_roomStop_s (hookOf w_roomStop_s (1 : Nat)).writer = true ∧
    beatOn w_roomStop_s (hookOf w_roomStop_s (1 : Nat)).writer (1 : Nat) = true ∧
    roomBlocks (xingOf w_roomStop_s (1 : Nat)) = true ∧
    nextSat (exec (.roomStop (1 : Nat)) w_roomStop_s)
      (fun t => decide ((xingOf t (1 : Nat)).room = true) &&
      decide ((xingOf t (1 : Nat)).roomCnt = (xingOf w_roomStop_s (1 : Nat)).roomCnt + 1) &&
      decide (Flagged t .xing 7) && decide (t.fold.tstops = w_roomStop_s.fold.tstops + 1)) = true :=
  by decide +kernel

theorem test_tetherStopRelease :
    isXing w_tetherStopRelease_s (1 : Nat) = true ∧
    nextSat (exec (.tetherStopRelease (1 : Nat)) w_tetherStopRelease_s)
      (fun t => decide ((availBlocks (xingOf w_tetherStopRelease_s (1 : Nat)) (tickEnd w_tetherStopRelease_s) = false →
      (xingOf t (1 : Nat)).avail = false)) && decide ((roomBlocks (xingOf w_tetherStopRelease_s (1 : Nat)) = false →
      (xingOf t (1 : Nat)).room = false)) &&
      decide (((slipOf (xingOf w_tetherStopRelease_s (1 : Nat))).natAbs ≤ bandOf w_tetherStopRelease_s →
      (xingOf t (1 : Nat)).stopR = false ∧ (xingOf t (1 : Nat)).stopW = false))) = true :=
  by decide +kernel

theorem test_xingSel :
    Performs (⟨.host, 15, none⟩ : Wr) 0x5000 tUp ∧
    (BitVec.ofNat 8 (fld (0x1000002 : Word) 24 8) ≠ (snapOf tUp 3 (⟨.host, 15, none⟩ : Wr).port).tag ∧
    fld (0x1000002 : Word) 0 15 < tUp.build.xings ∧
    nextSat (exec (.xingSel (⟨.host, 15, none⟩ : Wr) (0x1000002 : Word)) tUp)
      (fun t => decide (snapOf t 3 (⟨.host, 15, none⟩ : Wr).port = ⟨true, BitVec.ofNat 8 (fld (0x1000002 : Word) 24 8), fld (0x1000002 : Word) 0 15, false, xingWords tUp (fld (0x1000002 : Word) 0 15)⟩)) = true) :=
  ⟨⟨by decide, by decide, by decide, by decide, by decide⟩, by decide +kernel⟩

theorem test_xingCfgWrite :
    Performs (⟨.host, 15, none⟩ : Wr) 0x501C tUp ∧
    (tUp.xing.captured = false ∧
    fld (50 : Word) 0 6 ≤ 50 ∧
    nextSat (exec (.xingCfgWrite (⟨.host, 15, none⟩ : Wr) (50 : Word)) tUp)
      (fun t => decide (nowGet t 0x501C = (50 : Word) &&& 0x3F)) = true) :=
  ⟨⟨by decide, by decide, by decide, by decide, by decide⟩, by decide +kernel⟩

theorem test_xingCfgWrite_more :
    (Performs (⟨.host, 15, none⟩ : Wr) 0x501C tUp ∧
    ((tUp.xing.captured = true ∨ 50 < fld (51 : Word) 0 6) ∧
    nextSat (exec (.xingCfgWrite (⟨.host, 15, none⟩ : Wr) (51 : Word)) tUp)
      (fun t => decide (nowGet t 0x501C = nowGet tUp 0x501C) &&
      decide (Flagged t .xing (if tUp.xing.captured then 6 else 9))) = true)) :=
  ⟨⟨by decide, by decide, by decide, by decide, by decide⟩, by decide +kernel⟩

theorem test_auditEnWrite :
    Performs (⟨.host, 15, none⟩ : Wr) 0x5030 tUp ∧
    (nextSat (exec (.auditEnWrite (⟨.host, 15, none⟩ : Wr) (1 : Word)) tUp)
      (fun t => decide (nowGet t 0x5030 = (1 : Word) &&& 1)) = true) :=
  ⟨⟨by decide, by decide, by decide, by decide, by decide⟩, by decide +kernel⟩

theorem test_auditClear :
    Performs (⟨.host, 15, none⟩ : Wr) 0x5030 w_auditClear_s ∧
    (bitAt (2 : Word) 1 = true ∧
    nextSat (exec (.auditClear (⟨.host, 15, none⟩ : Wr) (2 : Word)) w_auditClear_s)
      (fun t => decide (t.xing.auditHit = false) && decide (t.xing.auditUnpaired = false) &&
      decide (t.xing.auditOffset = 0) && decide (t.xing.auditXing = 0)) = true) :=
  ⟨⟨by decide, by decide, by decide, by decide, by decide⟩, by decide +kernel⟩

theorem test_auditMismatch :
    isXing w_auditMismatch_s (1 : Nat) = true ∧
    bitAt (nowGet w_auditMismatch_s 0x5030) 0 = true ∧
    (xingOf w_auditMismatch_s (1 : Nat)).enabled = true ∧
    (xingOf w_auditMismatch_s (1 : Nat)).armed = true ∧
    (xingOf w_auditMismatch_s (1 : Nat)).lat < (10 : Nat) ∧
    (10 : Nat) ≠ (12 : Nat) ∧
    (((12 : Nat) : Int) - (10 : Nat)).natAbs ≤ 8 ∧
    nextSat (exec (.auditMismatch (1 : Nat) (some (10 : Nat)) ⟨some (12 : Nat), false⟩) w_auditMismatch_s)
      (fun t => decide ((xingOf t (1 : Nat)).mismatchCnt = (xingOf w_auditMismatch_s (1 : Nat)).mismatchCnt + 1) &&
      decide (Flagged t .xing 3) && decide (t.xing.auditHit = true)) = true :=
  by decide +kernel

theorem test_auditMismatch_more :
    (isXing w_auditMismatch_s_2 (1 : Nat) = true ∧
    bitAt (nowGet w_auditMismatch_s_2 0x5030) 0 = true ∧
    (xingOf w_auditMismatch_s_2 (1 : Nat)).enabled = true ∧
    (xingOf w_auditMismatch_s_2 (1 : Nat)).armed = true ∧
    (xingOf w_auditMismatch_s_2 (1 : Nat)).lat < (10 : Nat) ∧
    nextSat (exec (.auditMismatch (1 : Nat) (some (10 : Nat)) ⟨some (10 : Nat), (false : Bool)⟩) w_auditMismatch_s_2)
      (fun t => decide ((xingOf t (1 : Nat)).matchCnt = (xingOf w_auditMismatch_s_2 (1 : Nat)).matchCnt + 1) &&
      decide ((xingOf t (1 : Nat)).mismatchCnt = (xingOf w_auditMismatch_s_2 (1 : Nat)).mismatchCnt)) = true) ∧
    (isXing w_auditMismatch_s_3 (1 : Nat) = true ∧
    bitAt (nowGet w_auditMismatch_s_3 0x5030) 0 = true ∧
    (xingOf w_auditMismatch_s_3 (1 : Nat)).enabled = true ∧
    (xingOf w_auditMismatch_s_3 (1 : Nat)).armed = true ∧
    (xingOf w_auditMismatch_s_3 (1 : Nat)).lat < (10 : Nat) ∧
    8 < (((20 : Nat) : Int) - (10 : Nat)).natAbs ∧
    nextSat (exec (.auditMismatch (1 : Nat) (some (10 : Nat)) ⟨some (20 : Nat), false⟩) w_auditMismatch_s_3)
      (fun t => decide ((xingOf t (1 : Nat)).mismatchCnt = (xingOf w_auditMismatch_s_3 (1 : Nat)).mismatchCnt + 2) &&
      decide (Flagged t .xing 3) && decide (t.xing.auditHit = true)) = true) ∧
    (isXing w_auditMismatch_s_4 (1 : Nat) = true ∧
    bitAt (nowGet w_auditMismatch_s_4 0x5030) 0 = true ∧
    (xingOf w_auditMismatch_s_4 (1 : Nat)).enabled = true ∧
    (xingOf w_auditMismatch_s_4 (1 : Nat)).armed = true ∧
    (xingOf w_auditMismatch_s_4 (1 : Nat)).lat < (10 : Nat) ∧
    nextSat (exec (.auditMismatch (1 : Nat) (some (10 : Nat)) ⟨none, (false : Bool)⟩) w_auditMismatch_s_4)
      (fun t => decide ((xingOf t (1 : Nat)).mismatchCnt = (xingOf w_auditMismatch_s_4 (1 : Nat)).mismatchCnt + 1) &&
      decide (Flagged t .xing 3) && decide (t.xing.auditHit = true)) = true) ∧
    (isXing w_auditMismatch_s_5 (1 : Nat) = true ∧
    ((xingOf w_auditMismatch_s_5 (1 : Nat)).armed = false ∨ (10 : Nat) ≤ (xingOf w_auditMismatch_s_5 (1 : Nat)).lat) ∧
    nextSat (exec (.auditMismatch (1 : Nat) (some (10 : Nat)) ⟨none, (false : Bool)⟩) w_auditMismatch_s_5)
      (fun t => decide (t.xing = w_auditMismatch_s_5.xing)) = true) :=
  ⟨by decide +kernel, by decide +kernel, by decide +kernel, by decide +kernel⟩

theorem test_windsockStretch :
    isRegion w_windsockStretch_s (3 : Nat) = true ∧
    samples w_windsockStretch_s (3 : Nat) = true ∧
    levelOf w_windsockStretch_s (3 : Nat) (⟨0x55555555, 0⟩ : Sample).margins (regionOf w_windsockStretch_s (3 : Nat)).raiseR = .stretch ∧
    (regionOf w_windsockStretch_s (3 : Nat)).level ≠ .hold ∧
    nextSat (exec (.windsockStretch (3 : Nat) (⟨0x55555555, 0⟩ : Sample)) w_windsockStretch_s)
      (fun t => decide ((regionOf t (3 : Nat)).level = .stretch) &&
      decide ((regionOf t (3 : Nat)).margin = marginOf (⟨0x55555555, 0⟩ : Sample).margins (worstType (wsTypes w_windsockStretch_s (3 : Nat)) (⟨0x55555555, 0⟩ : Sample).margins)) &&
      decide (((regionOf w_windsockStretch_s (3 : Nat)).parked = false →
      (regionOf t (3 : Nat)).owed = (regionOf w_windsockStretch_s (3 : Nat)).owed ++ [⟨65536 * w_windsockStretch_s.time.total + (⟨0x55555555, 0⟩ : Sample).at16, curveW w_windsockStretch_s (classOfRegion w_windsockStretch_s (3 : Nat)) (marginOf (⟨0x55555555, 0⟩ : Sample).margins (worstType (wsTypes w_windsockStretch_s (3 : Nat)) (⟨0x55555555, 0⟩ : Sample).margins)), decide ((regionOf w_windsockStretch_s (3 : Nat)).raiseR ≠ 0) &&
      decide (levelNum (levelOf w_windsockStretch_s (3 : Nat) (⟨0x55555555, 0⟩ : Sample).margins 0) < 2)⟩]))) = true :=
  by decide +kernel

theorem test_windsockHold :
    isRegion w_windsockHold_s (3 : Nat) = true ∧
    samples w_windsockHold_s (3 : Nat) = true ∧
    levelOf w_windsockHold_s (3 : Nat) (0x55551555 : BitVec 32) (regionOf w_windsockHold_s (3 : Nat)).raiseR = .hold ∧
    nextSat (exec (.windsockHold (3 : Nat) (0x55551555 : BitVec 32)) w_windsockHold_s)
      (fun t => decide ((regionOf t (3 : Nat)).level = .hold) && decide ((regionOf t (3 : Nat)).above = 0) &&
      decide (((regionOf w_windsockHold_s (3 : Nat)).level ≠ .hold →
      (regionOf t (3 : Nat)).holdOn = (regionOf w_windsockHold_s (3 : Nat)).holdOn + 1 ∧ Flagged t .rcg 4))) = true :=
  by decide +kernel

theorem test_holdRelease :
    isRegion w_holdRelease_s (3 : Nat) = true ∧
    samples w_holdRelease_s (3 : Nat) = true ∧
    (regionOf w_holdRelease_s (3 : Nat)).level = .hold ∧
    levelOf w_holdRelease_s (3 : Nat) (0xFFFFFFFF : BitVec 32) (regionOf w_holdRelease_s (3 : Nat)).raiseR ≠ .hold ∧
    nextSat (exec (.holdRelease (3 : Nat) (0xFFFFFFFF : BitVec 32)) w_holdRelease_s)
      (fun t => decide (((regionOf w_holdRelease_s (3 : Nat)).above < 3 → (regionOf t (3 : Nat)).level = .hold ∧
      (regionOf t (3 : Nat)).above = (regionOf w_holdRelease_s (3 : Nat)).above + 1)) &&
      decide ((3 ≤ (regionOf w_holdRelease_s (3 : Nat)).above →
      (regionOf t (3 : Nat)).level = levelOf w_holdRelease_s (3 : Nat) (0xFFFFFFFF : BitVec 32) (regionOf w_holdRelease_s (3 : Nat)).raiseR ∧
      (regionOf t (3 : Nat)).above = 0))) = true :=
  by decide +kernel

theorem test_holdRelease_more :
    isRegion w_holdRelease_s_2 (3 : Nat) = true ∧
    samples w_holdRelease_s_2 (3 : Nat) = true ∧
    (regionOf w_holdRelease_s_2 (3 : Nat)).level ≠ .hold ∧
    levelNum (levelOf w_holdRelease_s_2 (3 : Nat) (0xFFFFFFFF : BitVec 32) (regionOf w_holdRelease_s_2 (3 : Nat)).raiseR) < 2 ∧
    nextSat (exec (.holdRelease (3 : Nat) (0xFFFFFFFF : BitVec 32)) w_holdRelease_s_2)
      (fun t => decide ((regionOf t (3 : Nat)).level = levelOf w_holdRelease_s_2 (3 : Nat) (0xFFFFFFFF : BitVec 32) (regionOf w_holdRelease_s_2 (3 : Nat)).raiseR)) = true :=
  by decide +kernel

theorem test_adviseOnset :
    isRegion w_adviseOnset_s (3 : Nat) = true ∧
    samples w_adviseOnset_s (3 : Nat) = true ∧
    levelOf w_adviseOnset_s (3 : Nat) (0x88888888 : BitVec 32) (regionOf w_adviseOnset_s (3 : Nat)).raiseR = .advise ∧
    (regionOf w_adviseOnset_s (3 : Nat)).level = .none ∧
    nextSat (exec (.adviseOnset (3 : Nat) (0x88888888 : BitVec 32)) w_adviseOnset_s)
      (fun t => decide ((regionOf t (3 : Nat)).level = .advise) &&
      decide ((regionOf t (3 : Nat)).advOn = (regionOf w_adviseOnset_s (3 : Nat)).advOn + 1)) = true :=
  by decide +kernel

theorem test_clampWindowEnd :
    w_clampWindowEnd_s.fold.started = true ∧
    clampEn w_clampWindowEnd_s = true ∧
    (w_clampWindowEnd_s.fold.ring = false ∨ w_clampWindowEnd_s.zones.clampFrom + 256 ≤ w_clampWindowEnd_s.fold.nextBell) ∧
    w_clampWindowEnd_s.zones.clampFrom + 256 ≤ w_clampWindowEnd_s.time.counter ∧
    nextSat (exec (.clampWindowEnd) w_clampWindowEnd_s)
      (fun t => decide (t.zones.clampFrom = w_clampWindowEnd_s.zones.clampFrom + 256) &&
      decide ((zoneOf t 0).clamp = true ∧ Flagged t .zone 3) && decide ((regionOf t 3).clampEdges = 0)) = true :=
  by decide +kernel

theorem test_clampWindowEnd_more :
    w_clampWindowEnd_s_2.fold.started = true ∧
    clampEn w_clampWindowEnd_s_2 = true ∧
    (w_clampWindowEnd_s_2.fold.ring = false ∨ w_clampWindowEnd_s_2.zones.clampFrom + 256 ≤ w_clampWindowEnd_s_2.fold.nextBell) ∧
    w_clampWindowEnd_s_2.zones.clampFrom + 256 ≤ w_clampWindowEnd_s_2.time.counter ∧
    nextSat (exec (.clampWindowEnd) w_clampWindowEnd_s_2)
      (fun t => decide (t.zones.clampFrom = w_clampWindowEnd_s_2.zones.clampFrom + 256) &&
      decide ((zoneOf t 0).clamp = true ∧ Flagged t .zone 3) && decide ((regionOf t 3).clampEdges = 0)) = true :=
  by decide +kernel

theorem test_zoneStatReq :
    Performs (⟨.host, 15, none⟩ : Wr) 0x7024 tUp ∧
    (BitVec.ofNat 8 (fld (1 : Word) 0 8) ≠ (snapOf tUp 5 (⟨.host, 15, none⟩ : Wr).port).tag ∧
    nextSat (exec (.zoneStatReq (⟨.host, 15, none⟩ : Wr) (1 : Word)) tUp)
      (fun t => decide (snapOf t 5 (⟨.host, 15, none⟩ : Wr).port = ⟨true, BitVec.ofNat 8 (fld (1 : Word) 0 8), 0, false, zoneWords tUp⟩)) = true) :=
  ⟨⟨by decide, by decide, by decide, by decide, by decide⟩, by decide +kernel⟩

theorem test_zoneStatReq_more :
    (Performs (⟨.host, 15, none⟩ : Wr) 0x7024 tUp ∧
    (BitVec.ofNat 8 (fld (1 : Word) 0 8) ≠ (snapOf tUp 5 (⟨.host, 15, none⟩ : Wr).port).tag ∧
    nextSat (exec (.zoneStatReq (⟨.host, 15, none⟩ : Wr) (1 : Word)) tUp)
      (fun t => decide (snapOf t 5 (⟨.host, 15, none⟩ : Wr).port = ⟨true, BitVec.ofNat 8 (fld (1 : Word) 0 8), 0, false, zoneWords tUp⟩)) = true)) :=
  ⟨⟨by decide, by decide, by decide, by decide, by decide⟩, by decide +kernel⟩

theorem test_bandChangeStopEnd :
    isGen w_bandChangeStopEnd_s (3 : Nat) = true ∧
    (genOf w_bandChangeStopEnd_s (3 : Nat)).stopEnd = some (0 : Nat) ∧
    (0 : Nat) ≤ w_bandChangeStopEnd_s.time.total ∧
    nextSat (exec (.bandChangeStopEnd (3 : Nat)) w_bandChangeStopEnd_s)
      (fun t => decide ((genOf t (3 : Nat)).stopEnd = none) && decide ((genOf t (3 : Nat)).planned = none) &&
      decide ((genOf t (3 : Nat)).band = some 4 ∧ (genOf t (3 : Nat)).div = 2) &&
      decide (((genOf w_bandChangeStopEnd_s (3 : Nat)).planned = none →
      (genOf t (3 : Nat)).band = (genOf w_bandChangeStopEnd_s (3 : Nat)).band))) = true :=
  by decide +kernel

theorem test_rcgSel :
    Performs (⟨.host, 15, none⟩ : Wr) 0x4000 w_rcgSel_s ∧
    (BitVec.ofNat 8 (fld (0x1000003 : Word) 24 8) ≠ (snapOf w_rcgSel_s 2 (⟨.host, 15, none⟩ : Wr).port).tag ∧
    fld (0x1000003 : Word) 0 13 < w_rcgSel_s.build.regions ∧
    nextSat (exec (.rcgSel (⟨.host, 15, none⟩ : Wr) (0x1000003 : Word)) w_rcgSel_s)
      (fun t => decide (snapOf t 2 (⟨.host, 15, none⟩ : Wr).port = ⟨true, BitVec.ofNat 8 (fld (0x1000003 : Word) 24 8), fld (0x1000003 : Word) 0 13, false, regionWords w_rcgSel_s (fld (0x1000003 : Word) 0 13)⟩)) = true) :=
  ⟨⟨by decide, by decide, by decide, by decide, by decide⟩, by decide +kernel⟩

theorem test_rcgCfgWrite :
    Performs (⟨.host, 15, none⟩ : Wr) 0x400C w_rcgCfgWrite_s ∧
    (w_rcgCfgWrite_s.build.valid = true ∧
    selRegion w_rcgCfgWrite_s (⟨.host, 15, none⟩ : Wr).port < w_rcgCfgWrite_s.build.regions ∧
    nextSat (exec (.rcgCfgWrite (⟨.host, 15, none⟩ : Wr) (0x101 : Word)) w_rcgCfgWrite_s)
      (fun t => decide (bellW t (keyRcg (selRegion w_rcgCfgWrite_s (⟨.host, 15, none⟩ : Wr).port)) = (0x101 : Word) &&& 0xFFF3) &&
      decide (t.cfgA = w_rcgCfgWrite_s.cfgA)) = true) :=
  ⟨⟨by decide, by decide, by decide, by decide, by decide⟩, by decide +kernel⟩

theorem test_rcgCfgWrite_more :
    (Performs (⟨.host, 15, none⟩ : Wr) 0x400C w_rcgCfgWrite_s_2 ∧
    (w_rcgCfgWrite_s_2.build.regions ≤ selRegion w_rcgCfgWrite_s_2 (⟨.host, 15, none⟩ : Wr).port ∧
    nextSat (exec (.rcgCfgWrite (⟨.host, 15, none⟩ : Wr) (0x101 : Word)) w_rcgCfgWrite_s_2)
      (fun t => decide (t.cfgW = w_rcgCfgWrite_s_2.cfgW) && decide (Flagged t .cfg 7)) = true)) :=
  ⟨⟨by decide, by decide, by decide, by decide, by decide⟩, by decide +kernel⟩

theorem test_rcgBmeas :
    Performs (⟨.host, 15, none⟩ : Wr) 0x404C w_rcgBmeas_s ∧
    (BitVec.ofNat 8 (fld (0x1000003 : Word) 24 8) ≠ w_rcgBmeas_s.bmTag ∧
    w_rcgBmeas_s.bmBusy = true ∧
    nextSat (exec (.rcgBmeas (⟨.host, 15, none⟩ : Wr) (0x1000003 : Word)) w_rcgBmeas_s)
      (fun t => decide (t.bmStatus = 2) && decide (t.bmTag = BitVec.ofNat 8 (fld (0x1000003 : Word) 24 8)) &&
      decide (t.bmRows = w_rcgBmeas_s.bmRows) && decide (t.bmBusy = true)) = true) :=
  ⟨⟨by decide, by decide, by decide, by decide, by decide⟩, by decide +kernel⟩

theorem test_rcgBmeas_more :
    (Performs (⟨.host, 15, none⟩ : Wr) 0x404C w_rcgBmeas_s_2 ∧
    (BitVec.ofNat 8 (fld (0x1000003 : Word) 24 8) ≠ w_rcgBmeas_s_2.bmTag ∧
    w_rcgBmeas_s_2.bmBusy = false ∧
    bitAt (0x1000003 : Word) 16 = false ∧
    isGen w_rcgBmeas_s_2 (fld (0x1000003 : Word) 0 13) = true ∧
    isServing w_rcgBmeas_s_2 (fld (0x1000003 : Word) 0 13) = true ∧
    nextSat (exec (.rcgBmeas (⟨.host, 15, none⟩ : Wr) (0x1000003 : Word)) w_rcgBmeas_s_2)
      (fun t => decide (t.bmStatus = 1) && decide (t.bmTag = BitVec.ofNat 8 (fld (0x1000003 : Word) 24 8)) &&
      decide (t.bmBusy = false) && decide (t.gens = w_rcgBmeas_s_2.gens)) = true)) ∧
    (Performs (⟨.host, 15, none⟩ : Wr) 0x404C w_rcgBmeas_s_3 ∧
    (BitVec.ofNat 8 (fld (0x1001402 : Word) 24 8) ≠ w_rcgBmeas_s_3.bmTag ∧
    w_rcgBmeas_s_3.bmBusy = false ∧
    bitAt (0x1001402 : Word) 16 = false ∧
    isGen w_rcgBmeas_s_3 (fld (0x1001402 : Word) 0 13) = true ∧
    isServing w_rcgBmeas_s_3 (fld (0x1001402 : Word) 0 13) = false ∧
    nextSat (exec (.rcgBmeas (⟨.host, 15, none⟩ : Wr) (0x1001402 : Word)) w_rcgBmeas_s_3)
      (fun t => decide (t.bmStatus = 3) && decide (t.bmBusy = true) &&
      decide (t.bmRows = [fld (0x1001402 : Word) 0 13]) &&
      decide ((genOf t (fld (0x1001402 : Word) 0 13)).st = .measuring) &&
      decide ((genOf t (fld (0x1001402 : Word) 0 13)).measFrom = some (if (genOf w_rcgBmeas_s_3 (fld (0x1001402 : Word) 0 13)).calFrom.isSome then .locking else (genOf w_rcgBmeas_s_3 (fld (0x1001402 : Word) 0 13)).st)) &&
      decide ((genOf t (fld (0x1001402 : Word) 0 13)).measAt = elapsed w_rcgBmeas_s_3)) = true)) ∧
    (Performs (⟨.host, 15, none⟩ : Wr) 0x404C w_rcgBmeas_s_4 ∧
    (BitVec.ofNat 8 (fld (0x1010000 : Word) 24 8) ≠ w_rcgBmeas_s_4.bmTag ∧
    w_rcgBmeas_s_4.bmBusy = false ∧
    bitAt (0x1010000 : Word) 16 = true ∧
    nextSat (exec (.rcgBmeas (⟨.host, 15, none⟩ : Wr) (0x1010000 : Word)) w_rcgBmeas_s_4)
      (fun t => decide (t.bmStatus = 3) && decide (t.bmBusy = true) &&
      decide (t.bmRows = (allGens w_rcgBmeas_s_4.build).filter (fun g => !isServing w_rcgBmeas_s_4 g))) = true)) :=
  ⟨⟨⟨by decide, by decide, by decide, by decide, by decide⟩, by decide +kernel⟩,
   ⟨⟨by decide, by decide, by decide, by decide, by decide⟩, by decide +kernel⟩,
   ⟨⟨by decide, by decide, by decide, by decide, by decide⟩, by decide +kernel⟩⟩

theorem test_rcgBmeasDone :
    w_rcgBmeasDone_s.bmBusy = true ∧
    bmeasOver w_rcgBmeasDone_s = false ∧
    nextSat (exec (.rcgBmeasDone ([(3, [(1000, 2000)])] : List (Nat × List (Nat × Nat)))) w_rcgBmeasDone_s)
      (fun t => decide (t.bmBusy = true) && decide (t.bmRows = w_rcgBmeasDone_s.bmRows) &&
      decide (memWord t.data 0x800180 = measuredEntry 1000 2000 ∧ (genOf t 3).measBands = 1)) = true :=
  by decide +kernel

theorem test_rcgBmeasDone_more :
    w_rcgBmeasDone_s_2.bmBusy = true ∧
    (∀ g ∈ w_rcgBmeasDone_s_2.bmRows, (genOf w_rcgBmeasDone_s_2 g).measFrom = none ∨ (genOf w_rcgBmeasDone_s_2 g).measAt + 36576 ≤ elapsed w_rcgBmeasDone_s_2) ∧
    nextSat (exec (.rcgBmeasDone ([(3, [(1000, 2000)])] : List (Nat × List (Nat × Nat)))) w_rcgBmeasDone_s_2)
      (fun t => decide (t.bmBusy = false) && decide (t.bmRows = []) && decide ((genOf t 3).rowOk = false)) = true :=
  by decide +kernel

theorem test_bandRowWrite :
    (Instr.bandRowWrite w_bandRowWrite_b).wellFormed = true ∧
    w_bandRowWrite_s.power.fabUp = true ∧
    isGen w_bandRowWrite_s ((w_bandRowWrite_b.addr.toNat - 0x800000) / 128) = true ∧
    w_bandRowWrite_b.strb ≠ 0 ∧
    (genOf w_bandRowWrite_s ((w_bandRowWrite_b.addr.toNat - 0x800000) / 128)).rowWroteAt ≠ some (elapsed w_bandRowWrite_s) ∧
    nextSat (exec (.bandRowWrite w_bandRowWrite_b) w_bandRowWrite_s)
      (fun t => decide (t.out.beats = [.okay]) &&
      decide ((genOf t ((w_bandRowWrite_b.addr.toNat - 0x800000) / 128)).rowOk = false) &&
      decide ((List.range 32).all (fun k => decide (memGet t.data (w_bandRowWrite_b.addr.toNat + k) = if w_bandRowWrite_b.strb.getLsbD k = true then w_bandRowWrite_b.data.extractLsb' (8 * k) 8 &&& bandMask (w_bandRowWrite_b.addr.toNat + k) else memGet w_bandRowWrite_s.data (w_bandRowWrite_b.addr.toNat + k))) = true)) = true :=
  by decide +kernel

theorem test_bandRowWrite_more :
    ((Instr.bandRowWrite w_bandRowWrite_b_2).wellFormed = true ∧
    w_bandRowWrite_s_2.power.fabUp = true ∧
    isGen w_bandRowWrite_s_2 ((w_bandRowWrite_b_2.addr.toNat - 0x800000) / 128) = true ∧
    w_bandRowWrite_b_2.strb ≠ 0 ∧
    (genOf w_bandRowWrite_s_2 ((w_bandRowWrite_b_2.addr.toNat - 0x800000) / 128)).rowWroteAt = some (elapsed w_bandRowWrite_s_2) ∧
    nextSat (exec (.bandRowWrite w_bandRowWrite_b_2) w_bandRowWrite_s_2)
      (fun t => decide (t.out.beats = [.okay]) &&
      decide ((genOf t ((w_bandRowWrite_b_2.addr.toNat - 0x800000) / 128)).rowOk = false) &&
      decide ((List.range 32).all (fun k => decide (memGet t.data (w_bandRowWrite_b_2.addr.toNat + k) = if w_bandRowWrite_b_2.strb.getLsbD k = true ∧
      ((w_bandRowWrite_b_2.addr.toNat % 128 + k) / 4 < (genOf w_bandRowWrite_s_2 ((w_bandRowWrite_b_2.addr.toNat - 0x800000) / 128)).rowWrote.1 ∨ (genOf w_bandRowWrite_s_2 ((w_bandRowWrite_b_2.addr.toNat - 0x800000) / 128)).rowWrote.2 ≤ (w_bandRowWrite_b_2.addr.toNat % 128 + k) / 4) then w_bandRowWrite_b_2.data.extractLsb' (8 * k) 8 &&& bandMask (w_bandRowWrite_b_2.addr.toNat + k) else memGet w_bandRowWrite_s_2.data (w_bandRowWrite_b_2.addr.toNat + k))) = true)) = true) ∧
    ((Instr.bandRowWrite w_bandRowWrite_b_3).wellFormed = true ∧
    w_bandRowWrite_s_3.power.fabUp = true ∧
    isGen w_bandRowWrite_s_3 ((w_bandRowWrite_b_3.addr.toNat - 0x800000) / 128) = false ∧
    nextSat (exec (.bandRowWrite w_bandRowWrite_b_3) w_bandRowWrite_s_3)
      (fun t => decide (t.out.beats = [.okay]) && decide (t.data = w_bandRowWrite_s_3.data) &&
      decide (t.gens = w_bandRowWrite_s_3.gens)) = true) :=
  ⟨by decide +kernel, by decide +kernel⟩

theorem test_pinWrite :
    (Instr.pinWrite w_pinWrite_b).wellFormed = true ∧
    tUp.power.fabUp = true ∧
    tUp.xing.calRun = false ∧
    nextSat (exec (.pinWrite w_pinWrite_b) tUp)
      (fun t => decide (t.out.beats = [.okay]) &&
      decide ((List.range 32).all (fun k => decide (memGet t.data (w_pinWrite_b.addr.toNat + k) = if w_pinWrite_b.strb.getLsbD k = true ∧
      w_pinWrite_b.addr.toNat + k - 0x900000 < tUp.build.xings then w_pinWrite_b.data.extractLsb' (8 * k) 8 else memGet tUp.data (w_pinWrite_b.addr.toNat + k))) = true)) = true :=
  by decide +kernel

theorem test_pinWrite_more :
    (Instr.pinWrite w_pinWrite_b_2).wellFormed = true ∧
    w_pinWrite_s_2.power.fabUp = true ∧
    w_pinWrite_s_2.xing.calRun = true ∧
    nextSat (exec (.pinWrite w_pinWrite_b_2) w_pinWrite_s_2)
      (fun t => decide (t.out.beats = [.okay]) && decide (t.data = w_pinWrite_s_2.data) &&
      decide (Flagged t .xing 5)) = true :=
  by decide +kernel

theorem test_fcstEntryWrite :
    (Instr.fcstEntryWrite w_fcstEntryWrite_b).wellFormed = true ∧
    w_fcstEntryWrite_s.power.fabUp = true ∧
    w_fcstEntryWrite_b.addr.toNat < 0x400000 ∧
    w_fcstEntryWrite_s.fcst.single = false ∧
    (fbank w_fcstEntryWrite_s (if w_fcstEntryWrite_b.addr.toNat < 0x200000 then 0 else 1)).st = .opened ∧
    nextSat (exec (.fcstEntryWrite w_fcstEntryWrite_b) w_fcstEntryWrite_s)
      (fun t => decide (t.out.beats = [.okay]) &&
      decide ((List.range 32).all (fun k => decide (memGet t.data (w_fcstEntryWrite_b.addr.toNat + k) = if w_fcstEntryWrite_b.strb.getLsbD k = true then w_fcstEntryWrite_b.data.extractLsb' (8 * k) 8 else memGet w_fcstEntryWrite_s.data (w_fcstEntryWrite_b.addr.toNat + k))) = true) &&
      decide ((w_fcstEntryWrite_b.strb = BitVec.allOnes 32 →
      (fbank t (if w_fcstEntryWrite_b.addr.toNat < 0x200000 then 0 else 1)).wcount = (fbank w_fcstEntryWrite_s (if w_fcstEntryWrite_b.addr.toNat < 0x200000 then 0 else 1)).wcount + 4)) &&
      decide ((w_fcstEntryWrite_b.strb = 1 → Flagged t .fcst 9))) = true :=
  by decide +kernel

theorem test_fcstEntryWrite_more :
    ((Instr.fcstEntryWrite w_fcstEntryWrite_b_2).wellFormed = true ∧
    w_fcstEntryWrite_s_2.power.fabUp = true ∧
    w_fcstEntryWrite_b_2.addr.toNat < 0x400000 ∧
    w_fcstEntryWrite_s_2.fcst.single = false ∧
    (fbank w_fcstEntryWrite_s_2 (if w_fcstEntryWrite_b_2.addr.toNat < 0x200000 then 0 else 1)).st = .active ∧
    nextSat (exec (.fcstEntryWrite w_fcstEntryWrite_b_2) w_fcstEntryWrite_s_2)
      (fun t => decide (t.out.beats = [.slverr]) && decide (t.data = w_fcstEntryWrite_s_2.data) &&
      decide (Flagged t .fcst 7)) = true) ∧
    ((Instr.fcstEntryWrite w_fcstEntryWrite_b_3).wellFormed = true ∧
    w_fcstEntryWrite_s_3.power.fabUp = true ∧
    w_fcstEntryWrite_b_3.addr.toNat < 0x400000 ∧
    w_fcstEntryWrite_s_3.fcst.single = false ∧
    (fbank w_fcstEntryWrite_s_3 (if w_fcstEntryWrite_b_3.addr.toNat < 0x200000 then 0 else 1)).st = .waiting ∧
    w_fcstEntryWrite_b_3.strb = BitVec.allOnes 32 ∧
    nextSat (exec (.fcstEntryWrite w_fcstEntryWrite_b_3) w_fcstEntryWrite_s_3)
      (fun t => decide (t.out.beats = [.okay]) &&
      decide ((List.range 32).all (fun k => decide (memGet t.data (w_fcstEntryWrite_b_3.addr.toNat + k) = if w_fcstEntryWrite_b_3.strb.getLsbD k = true then w_fcstEntryWrite_b_3.data.extractLsb' (8 * k) 8 else memGet w_fcstEntryWrite_s_3.data (w_fcstEntryWrite_b_3.addr.toNat + k))) = true) &&
      decide ((fbank t (if w_fcstEntryWrite_b_3.addr.toNat < 0x200000 then 0 else 1)).wcount = (fbank w_fcstEntryWrite_s_3 (if w_fcstEntryWrite_b_3.addr.toNat < 0x200000 then 0 else 1)).wcount + 4) &&
      decide (((fbank w_fcstEntryWrite_s_3 (if w_fcstEntryWrite_b_3.addr.toNat < 0x200000 then 0 else 1)).wcount + 4 = (fbank w_fcstEntryWrite_s_3 (if w_fcstEntryWrite_b_3.addr.toNat < 0x200000 then 0 else 1)).want →
      (fbank t (if w_fcstEntryWrite_b_3.addr.toNat < 0x200000 then 0 else 1)).st = .verify)) &&
      decide (((fbank w_fcstEntryWrite_s_3 (if w_fcstEntryWrite_b_3.addr.toNat < 0x200000 then 0 else 1)).wcount + 4 < (fbank w_fcstEntryWrite_s_3 (if w_fcstEntryWrite_b_3.addr.toNat < 0x200000 then 0 else 1)).want →
      (fbank t (if w_fcstEntryWrite_b_3.addr.toNat < 0x200000 then 0 else 1)).st = .waiting)) &&
      decide (((fbank w_fcstEntryWrite_s_3 (if w_fcstEntryWrite_b_3.addr.toNat < 0x200000 then 0 else 1)).want < (fbank w_fcstEntryWrite_s_3 (if w_fcstEntryWrite_b_3.addr.toNat < 0x200000 then 0 else 1)).wcount + 4 →
      (fbank t (if w_fcstEntryWrite_b_3.addr.toNat < 0x200000 then 0 else 1)).st = .opened ∧ t.fcst.sealRes = 2 ∧
      Flagged t .fcst 1))) = true) ∧
    ((Instr.fcstEntryWrite w_fcstEntryWrite_b_4).wellFormed = true ∧
    w_fcstEntryWrite_s_4.power.fabUp = true ∧
    w_fcstEntryWrite_s_4.fcst.single = false ∧
    ((fbank w_fcstEntryWrite_s_4 (if w_fcstEntryWrite_b_4.addr.toNat < 0x200000 ∨ 0x400000 ≤ w_fcstEntryWrite_b_4.addr.toNat ∧
      w_fcstEntryWrite_b_4.addr.toNat < 0x400040 then 0 else 1)).st = .empty ∨ (fbank w_fcstEntryWrite_s_4 (if w_fcstEntryWrite_b_4.addr.toNat < 0x200000 ∨ 0x400000 ≤ w_fcstEntryWrite_b_4.addr.toNat ∧
      w_fcstEntryWrite_b_4.addr.toNat < 0x400040 then 0 else 1)).st = .verify ∨ (fbank w_fcstEntryWrite_s_4 (if w_fcstEntryWrite_b_4.addr.toNat < 0x200000 ∨ 0x400000 ≤ w_fcstEntryWrite_b_4.addr.toNat ∧
      w_fcstEntryWrite_b_4.addr.toNat < 0x400040 then 0 else 1)).st = .sealed) ∧
    nextSat (exec (.fcstEntryWrite w_fcstEntryWrite_b_4) w_fcstEntryWrite_s_4)
      (fun t => decide (t.out.beats = [.slverr]) && decide (t.data = w_fcstEntryWrite_s_4.data) &&
      decide (((fbank w_fcstEntryWrite_s_4 (if w_fcstEntryWrite_b_4.addr.toNat < 0x200000 ∨ 0x400000 ≤ w_fcstEntryWrite_b_4.addr.toNat ∧
      w_fcstEntryWrite_b_4.addr.toNat < 0x400040 then 0 else 1)).st = .empty →
      t.events = w_fcstEntryWrite_s_4.events)) &&
      decide (((fbank w_fcstEntryWrite_s_4 (if w_fcstEntryWrite_b_4.addr.toNat < 0x200000 ∨ 0x400000 ≤ w_fcstEntryWrite_b_4.addr.toNat ∧
      w_fcstEntryWrite_b_4.addr.toNat < 0x400040 then 0 else 1)).st ≠ .empty → Flagged t .fcst 8))) = true) :=
  ⟨by decide +kernel, by decide +kernel, by decide +kernel⟩

theorem test_calImageWrite :
    (Instr.calImageWrite w_calImageWrite_b).wellFormed = true ∧
    tUp.power.fabUp = true ∧
    nextSat (exec (.calImageWrite w_calImageWrite_b) tUp)
      (fun t => decide (t.out.beats = [.okay]) &&
      decide ((List.range 32).all (fun k => decide (memGet t.data (w_calImageWrite_b.addr.toNat + k) = if w_calImageWrite_b.strb.getLsbD k = true then w_calImageWrite_b.data.extractLsb' (8 * k) 8 else memGet tUp.data (w_calImageWrite_b.addr.toNat + k))) = true)) = true :=
  by decide +kernel

theorem test_fwDataWrite :
    (Instr.fwDataWrite w_fwDataWrite_b).wellFormed = true ∧
    w_fwDataWrite_s.power.fabUp = true ∧
    (swBank w_fwDataWrite_s (if w_fwDataWrite_b.addr.toNat < 0xC20000 then 0 else 1)).st = .opened ∧
    nextSat (exec (.fwDataWrite w_fwDataWrite_b) w_fwDataWrite_s)
      (fun t => decide (t.out.beats = [.okay]) &&
      decide ((List.range 32).all (fun k => decide (memGet t.data (w_fwDataWrite_b.addr.toNat + k) = if w_fwDataWrite_b.strb.getLsbD k = true then w_fwDataWrite_b.data.extractLsb' (8 * k) 8 else memGet w_fwDataWrite_s.data (w_fwDataWrite_b.addr.toNat + k))) = true) &&
      decide ((w_fwDataWrite_b.strb = BitVec.allOnes 32 →
      (swBank t (if w_fwDataWrite_b.addr.toNat < 0xC20000 then 0 else 1)).wcount = (swBank w_fwDataWrite_s (if w_fwDataWrite_b.addr.toNat < 0xC20000 then 0 else 1)).wcount + 1)) &&
      decide ((w_fwDataWrite_b.strb = 1 → Flagged t .shep 9))) = true :=
  by decide +kernel

theorem test_fwDataWrite_more :
    ((Instr.fwDataWrite w_fwDataWrite_b_2).wellFormed = true ∧
    w_fwDataWrite_s_2.power.fabUp = true ∧
    (swBank w_fwDataWrite_s_2 (if w_fwDataWrite_b_2.addr.toNat < 0xC20000 then 0 else 1)).st = .active ∧
    nextSat (exec (.fwDataWrite w_fwDataWrite_b_2) w_fwDataWrite_s_2)
      (fun t => decide (t.out.beats = [.slverr]) && decide (t.data = w_fwDataWrite_s_2.data) &&
      decide (Flagged t .shep 7)) = true) ∧
    ((Instr.fwDataWrite w_fwDataWrite_b_3).wellFormed = true ∧
    w_fwDataWrite_s_3.power.fabUp = true ∧
    (swBank w_fwDataWrite_s_3 (if w_fwDataWrite_b_3.addr.toNat < 0xC20000 then 0 else 1)).st = .waiting ∧
    elapsed w_fwDataWrite_s_3 ≤ (swBank w_fwDataWrite_s_3 (if w_fwDataWrite_b_3.addr.toNat < 0xC20000 then 0 else 1)).timer ∧
    w_fwDataWrite_b_3.strb = BitVec.allOnes 32 ∧
    nextSat (exec (.fwDataWrite w_fwDataWrite_b_3) w_fwDataWrite_s_3)
      (fun t => decide (t.out.beats = [.okay]) &&
      decide ((List.range 32).all (fun k => decide (memGet t.data (w_fwDataWrite_b_3.addr.toNat + k) = if w_fwDataWrite_b_3.strb.getLsbD k = true then w_fwDataWrite_b_3.data.extractLsb' (8 * k) 8 else memGet w_fwDataWrite_s_3.data (w_fwDataWrite_b_3.addr.toNat + k))) = true) &&
      decide (((swBank w_fwDataWrite_s_3 (if w_fwDataWrite_b_3.addr.toNat < 0xC20000 then 0 else 1)).wcount + 1 = (swBank w_fwDataWrite_s_3 (if w_fwDataWrite_b_3.addr.toNat < 0xC20000 then 0 else 1)).want →
      (swBank t (if w_fwDataWrite_b_3.addr.toNat < 0xC20000 then 0 else 1)).st = .verify)) &&
      decide (((swBank w_fwDataWrite_s_3 (if w_fwDataWrite_b_3.addr.toNat < 0xC20000 then 0 else 1)).wcount + 1 < (swBank w_fwDataWrite_s_3 (if w_fwDataWrite_b_3.addr.toNat < 0xC20000 then 0 else 1)).want →
      (swBank t (if w_fwDataWrite_b_3.addr.toNat < 0xC20000 then 0 else 1)).st = .waiting ∧
      (swBank t (if w_fwDataWrite_b_3.addr.toNat < 0xC20000 then 0 else 1)).wcount = (swBank w_fwDataWrite_s_3 (if w_fwDataWrite_b_3.addr.toNat < 0xC20000 then 0 else 1)).wcount + 1))) = true) ∧
    ((Instr.fwDataWrite w_fwDataWrite_b_4).wellFormed = true ∧
    w_fwDataWrite_s_4.power.fabUp = true ∧
    ((swBank w_fwDataWrite_s_4 (if w_fwDataWrite_b_4.addr.toNat < 0xC20000 then 0 else 1)).st = .empty ∨ (swBank w_fwDataWrite_s_4 (if w_fwDataWrite_b_4.addr.toNat < 0xC20000 then 0 else 1)).st = .verify ∨ (swBank w_fwDataWrite_s_4 (if w_fwDataWrite_b_4.addr.toNat < 0xC20000 then 0 else 1)).st = .sealed) ∧
    nextSat (exec (.fwDataWrite w_fwDataWrite_b_4) w_fwDataWrite_s_4)
      (fun t => decide (t.out.beats = [.slverr]) && decide (t.data = w_fwDataWrite_s_4.data) &&
      decide (((swBank w_fwDataWrite_s_4 (if w_fwDataWrite_b_4.addr.toNat < 0xC20000 then 0 else 1)).st ≠ .empty →
      Flagged t .shep 8))) = true) :=
  ⟨by decide +kernel, by decide +kernel, by decide +kernel⟩

theorem test_manifestWrite :
    (Instr.manifestWrite w_manifestWrite_b).wellFormed = true ∧
    nextSat (exec (.manifestWrite w_manifestWrite_b) tUp)
      (fun t => decide (t.out.beats = [.slverr]) && decide (t.data = tUp.data)) = true :=
  by decide +kernel

theorem test_badBurst :
    nextSat (exec (.badBurst (true : Bool) (3 : Nat)) tUp)
      (fun t => decide (t.out.beats = List.replicate (3 : Nat) .slverr) && decide (t.data = tUp.data)) = true :=
  by decide +kernel

theorem test_fcstModeWrite :
    Performs (⟨.host, 15, none⟩ : Wr) 0x6000 w_fcstModeWrite_s ∧
    (bitAt (1 : Word) 0 ≠ w_fcstModeWrite_s.fcst.single ∧
    w_fcstModeWrite_s.fcst.active = none ∧
    w_fcstModeWrite_s.fcst.commitBank = none ∧
    nextSat (exec (.fcstModeWrite (⟨.host, 15, none⟩ : Wr) (1 : Word)) w_fcstModeWrite_s)
      (fun t => decide (t.fcst.single = bitAt (1 : Word) 0) && decide (t.fcst.b0 = {}) &&
      decide (t.fcst.b1 = {})) = true) :=
  ⟨⟨by decide, by decide, by decide, by decide, by decide⟩, by decide +kernel⟩

theorem test_fcstModeWrite_more :
    (Performs (⟨.host, 15, none⟩ : Wr) 0x6000 w_fcstModeWrite_s_2 ∧
    (bitAt (1 : Word) 0 ≠ w_fcstModeWrite_s_2.fcst.single ∧
    (w_fcstModeWrite_s_2.fcst.active.isSome = true ∨ w_fcstModeWrite_s_2.fcst.commitBank.isSome = true) ∧
    nextSat (exec (.fcstModeWrite (⟨.host, 15, none⟩ : Wr) (1 : Word)) w_fcstModeWrite_s_2)
      (fun t => decide (t.fcst.single = w_fcstModeWrite_s_2.fcst.single) &&
      decide (t.fcst.b0 = w_fcstModeWrite_s_2.fcst.b0) && decide (t.fcst.rej = 6) &&
      decide (Flagged t .fcst 10)) = true)) :=
  ⟨⟨by decide, by decide, by decide, by decide, by decide⟩, by decide +kernel⟩

theorem test_fcstOpen :
    Performs (⟨.host, 15, none⟩ : Wr) 0x6004 tUp ∧
    ((1 : BitVec 8) ≠ tUp.fcst.cmdTag ∧
    ((1 : BitVec 1) = 0 ∨ tUp.fcst.single = false) ∧
    tUp.fcst.active ≠ some (1 : BitVec 1) ∧
    tUp.fcst.committed = false ∧
    nextSat (exec (.fcstOpen (⟨.host, 15, none⟩ : Wr) (1 : BitVec 1) (1 : BitVec 8)) tUp)
      (fun t => decide (fbank t (1 : BitVec 1) = { st := .opened }) &&
      decide (t.fcst.cmdTag = (1 : BitVec 8))) = true) :=
  ⟨⟨by decide, by decide, by decide, by decide, by decide⟩, by decide +kernel⟩

theorem test_fcstOpen_more :
    (Performs (⟨.host, 15, none⟩ : Wr) 0x6004 w_fcstOpen_s_2 ∧
    ((1 : BitVec 8) ≠ w_fcstOpen_s_2.fcst.cmdTag ∧
    ((1 : BitVec 1) = 0 ∨ w_fcstOpen_s_2.fcst.single = false) ∧
    (w_fcstOpen_s_2.fcst.active = some (1 : BitVec 1) ∨ w_fcstOpen_s_2.fcst.committed = true) ∧
    nextSat (exec (.fcstOpen (⟨.host, 15, none⟩ : Wr) (1 : BitVec 1) (1 : BitVec 8)) w_fcstOpen_s_2)
      (fun t => decide (fbank t (1 : BitVec 1) = fbank w_fcstOpen_s_2 (1 : BitVec 1)) && decide (t.fcst.rej = 1) &&
      decide (t.fcst.cmdTag = (1 : BitVec 8)) && decide (Flagged t .fcst 10)) = true)) ∧
    (Performs (⟨.host, 15, none⟩ : Wr) 0x6004 w_fcstOpen_s_3 ∧
    ((1 : BitVec 8) ≠ w_fcstOpen_s_3.fcst.cmdTag ∧
    (1 : BitVec 1) = 1 ∧
    w_fcstOpen_s_3.fcst.single = true ∧
    nextSat (exec (.fcstOpen (⟨.host, 15, none⟩ : Wr) (1 : BitVec 1) (1 : BitVec 8)) w_fcstOpen_s_3)
      (fun t => decide (t.fcst.b1 = w_fcstOpen_s_3.fcst.b1) && decide (t.fcst.rej = 4) &&
      decide (t.fcst.cmdTag = (1 : BitVec 8)) && decide (Flagged t .fcst 10)) = true)) :=
  ⟨⟨⟨by decide, by decide, by decide, by decide, by decide⟩, by decide +kernel⟩,
   ⟨⟨by decide, by decide, by decide, by decide, by decide⟩, by decide +kernel⟩⟩

theorem test_fcstSeal :
    Performs (⟨.host, 15, none⟩ : Wr) 0x6004 w_fcstSeal_s ∧
    ((1 : BitVec 8) ≠ w_fcstSeal_s.fcst.cmdTag ∧
    ((0 : BitVec 1) = 0 ∨ w_fcstSeal_s.fcst.single = false) ∧
    (fbank w_fcstSeal_s (0 : BitVec 1)).st = .opened ∧
    nextSat (exec (.fcstSeal (⟨.host, 15, none⟩ : Wr) (0 : BitVec 1) (1 : BitVec 8)) w_fcstSeal_s)
      (fun t => decide ((fbank t (0 : BitVec 1)).wcount = (fbank w_fcstSeal_s (0 : BitVec 1)).wcount) &&
      decide (((fbank w_fcstSeal_s (0 : BitVec 1)).wcount < hdrCount w_fcstSeal_s (0 : BitVec 1) →
      (fbank t (0 : BitVec 1)).st = .waiting ∧ (fbank t (0 : BitVec 1)).timer = w_fcstSeal_s.time.total + 4096)) &&
      decide (((fbank w_fcstSeal_s (0 : BitVec 1)).wcount = hdrCount w_fcstSeal_s (0 : BitVec 1) →
      (fbank t (0 : BitVec 1)).st = .verify ∧
      (fbank t (0 : BitVec 1)).timer = w_fcstSeal_s.time.total + ceilDiv (min (hdrCount w_fcstSeal_s (0 : BitVec 1)) (bankSize w_fcstSeal_s)) 16)) &&
      decide ((hdrCount w_fcstSeal_s (0 : BitVec 1) < (fbank w_fcstSeal_s (0 : BitVec 1)).wcount →
      (fbank t (0 : BitVec 1)).st = .opened ∧ t.fcst.sealRes = 2 ∧ Flagged t .fcst 1))) = true) :=
  ⟨⟨by decide, by decide, by decide, by decide, by decide⟩, by decide +kernel⟩

theorem test_fcstSeal_more :
    (Performs (⟨.host, 15, none⟩ : Wr) 0x6004 tUp ∧
    ((1 : BitVec 8) ≠ tUp.fcst.cmdTag ∧
    ((0 : BitVec 1) = 0 ∨ tUp.fcst.single = false) ∧
    (fbank tUp (0 : BitVec 1)).st ≠ .opened ∧
    nextSat (exec (.fcstSeal (⟨.host, 15, none⟩ : Wr) (0 : BitVec 1) (1 : BitVec 8)) tUp)
      (fun t => decide (fbank t (0 : BitVec 1) = fbank tUp (0 : BitVec 1)) && decide (t.fcst.rej = 2) &&
      decide (Flagged t .fcst 10)) = true)) ∧
    (Performs (⟨.host, 15, none⟩ : Wr) 0x6004 w_fcstSeal_s_3 ∧
    ((1 : BitVec 8) ≠ w_fcstSeal_s_3.fcst.cmdTag ∧
    (1 : BitVec 1) = 1 ∧
    w_fcstSeal_s_3.fcst.single = true ∧
    nextSat (exec (.fcstSeal (⟨.host, 15, none⟩ : Wr) (1 : BitVec 1) (1 : BitVec 8)) w_fcstSeal_s_3)
      (fun t => decide (t.fcst.b1 = w_fcstSeal_s_3.fcst.b1) && decide (t.fcst.rej = 4) &&
      decide (t.fcst.cmdTag = (1 : BitVec 8)) && decide (Flagged t .fcst 10)) = true)) :=
  ⟨⟨⟨by decide, by decide, by decide, by decide, by decide⟩, by decide +kernel⟩,
   ⟨⟨by decide, by decide, by decide, by decide, by decide⟩, by decide +kernel⟩⟩

theorem test_fcstSwap :
    Performs (⟨.host, 15, none⟩ : Wr) 0x6004 w_fcstSwap_s ∧
    ((1 : BitVec 8) ≠ w_fcstSwap_s.fcst.cmdTag ∧
    ((0 : BitVec 1) = 0 ∨ w_fcstSwap_s.fcst.single = false) ∧
    (fbank w_fcstSwap_s (0 : BitVec 1)).st ≠ .empty ∧
    (fbank w_fcstSwap_s (0 : BitVec 1)).st ≠ .active ∧
    (nowGet w_fcstSwap_s 0x6008 = 0 ∨ w_fcstSwap_s.fold.folds.toNat < (nowGet w_fcstSwap_s 0x6008).toNat) ∧
    (nowGet w_fcstSwap_s 0x6008 = 0 ∨ w_fcstSwap_s.fcst.committed = false ∨ nowGet w_fcstSwap_s 0x6008 ≠ w_fcstSwap_s.fold.folds + 1) ∧
    nextSat (exec (.fcstSwap (⟨.host, 15, none⟩ : Wr) (0 : BitVec 1) (1 : BitVec 8)) w_fcstSwap_s)
      (fun t => decide (t.fcst.swap = some ((0 : BitVec 1), nowGet w_fcstSwap_s 0x6008)) &&
      decide (t.fcst.stop = false)) = true) :=
  ⟨⟨by decide, by decide, by decide, by decide, by decide⟩, by decide +kernel⟩

theorem test_fcstSwap_more :
    (Performs (⟨.host, 15, none⟩ : Wr) 0x6004 w_fcstSwap_s_2 ∧
    ((1 : BitVec 8) ≠ w_fcstSwap_s_2.fcst.cmdTag ∧
    ((0 : BitVec 1) = 0 ∨ w_fcstSwap_s_2.fcst.single = false) ∧
    (fbank w_fcstSwap_s_2 (0 : BitVec 1)).st ≠ .empty ∧
    (fbank w_fcstSwap_s_2 (0 : BitVec 1)).st ≠ .active ∧
    nowGet w_fcstSwap_s_2 0x6008 ≠ 0 ∧
    ((nowGet w_fcstSwap_s_2 0x6008).toNat ≤ w_fcstSwap_s_2.fold.folds.toNat ∨ (w_fcstSwap_s_2.fcst.committed = true ∧
      nowGet w_fcstSwap_s_2 0x6008 = w_fcstSwap_s_2.fold.folds + 1)) ∧
    nextSat (exec (.fcstSwap (⟨.host, 15, none⟩ : Wr) (0 : BitVec 1) (1 : BitVec 8)) w_fcstSwap_s_2)
      (fun t => decide (t.fcst.swap = w_fcstSwap_s_2.fcst.swap) && decide (t.fcst.rej = 7) &&
      decide (Flagged t .fcst 10)) = true)) ∧
    (Performs (⟨.host, 15, none⟩ : Wr) 0x6004 tUp ∧
    ((1 : BitVec 8) ≠ tUp.fcst.cmdTag ∧
    ((1 : BitVec 1) = 0 ∨ tUp.fcst.single = false) ∧
    ((fbank tUp (1 : BitVec 1)).st = .empty ∨ (fbank tUp (1 : BitVec 1)).st = .active) ∧
    nextSat (exec (.fcstSwap (⟨.host, 15, none⟩ : Wr) (1 : BitVec 1) (1 : BitVec 8)) tUp)
      (fun t => decide (t.fcst.swap = tUp.fcst.swap) && decide (t.fcst.stop = tUp.fcst.stop) &&
      decide (t.fcst.rej = 3) && decide (t.fcst.cmdTag = (1 : BitVec 8)) && decide (Flagged t .fcst 10)) = true)) ∧
    (Performs (⟨.host, 15, none⟩ : Wr) 0x6004 w_fcstSwap_s_4 ∧
    ((1 : BitVec 8) ≠ w_fcstSwap_s_4.fcst.cmdTag ∧
    (1 : BitVec 1) = 1 ∧
    w_fcstSwap_s_4.fcst.single = true ∧
    nextSat (exec (.fcstSwap (⟨.host, 15, none⟩ : Wr) (1 : BitVec 1) (1 : BitVec 8)) w_fcstSwap_s_4)
      (fun t => decide (t.fcst.swap = w_fcstSwap_s_4.fcst.swap) && decide (t.fcst.stop = w_fcstSwap_s_4.fcst.stop) &&
      decide (t.fcst.rej = 4) && decide (t.fcst.cmdTag = (1 : BitVec 8)) && decide (Flagged t .fcst 10)) = true)) :=
  ⟨⟨⟨by decide, by decide, by decide, by decide, by decide⟩, by decide +kernel⟩,
   ⟨⟨by decide, by decide, by decide, by decide, by decide⟩, by decide +kernel⟩,
   ⟨⟨by decide, by decide, by decide, by decide, by decide⟩, by decide +kernel⟩⟩

theorem test_fcstStop :
    Performs (⟨.host, 15, none⟩ : Wr) 0x6004 w_fcstStop_s ∧
    ((1 : BitVec 8) ≠ w_fcstStop_s.fcst.cmdTag ∧
    nextSat (exec (.fcstStop (⟨.host, 15, none⟩ : Wr) (1 : BitVec 8)) w_fcstStop_s)
      (fun t => decide (t.fcst.swap = none) && decide (t.fcst.stop = true) &&
      decide (t.fcst.cmdTag = (1 : BitVec 8))) = true) :=
  ⟨⟨by decide, by decide, by decide, by decide, by decide⟩, by decide +kernel⟩

theorem test_fcstCmdNone :
    Performs (⟨.host, 15, none⟩ : Wr) 0x6004 tUp ∧
    ((1 : BitVec 8) ≠ tUp.fcst.cmdTag ∧
    nextSat (exec (.fcstCmdNone (⟨.host, 15, none⟩ : Wr) (1 : BitVec 8)) tUp)
      (fun t => decide (t.fcst = { tUp.fcst with cmdTag := (1 : BitVec 8) })) = true) :=
  ⟨⟨by decide, by decide, by decide, by decide, by decide⟩, by decide +kernel⟩

theorem test_fcstCmdInvalid :
    Performs (⟨.host, 15, none⟩ : Wr) 0x6004 tUp ∧
    ((1 : BitVec 8) ≠ tUp.fcst.cmdTag ∧
    5 ≤ (6 : BitVec 3).toNat ∧
    nextSat (exec (.fcstCmdInvalid (⟨.host, 15, none⟩ : Wr) (6 : BitVec 3) (1 : BitVec 8)) tUp)
      (fun t => decide (t.fcst.rej = 5) && decide (t.fcst.cmdTag = (1 : BitVec 8)) &&
      decide (Flagged t .fcst 10)) = true) :=
  ⟨⟨by decide, by decide, by decide, by decide, by decide⟩, by decide +kernel⟩

theorem test_fcstSealShort :
    (fbank w_fcstSealShort_s (1 : BitVec 1)).st = .waiting ∧
    (fbank w_fcstSealShort_s (1 : BitVec 1)).timer ≤ w_fcstSealShort_s.time.total ∧
    nextSat (exec (.fcstSealShort (1 : BitVec 1)) w_fcstSealShort_s)
      (fun t => decide ((fbank t (1 : BitVec 1)).st = .opened) &&
      decide ((fbank t (1 : BitVec 1)).wcount = (fbank w_fcstSealShort_s (1 : BitVec 1)).wcount) &&
      decide (t.fcst.sealRes = 1) && decide (Flagged t .fcst 1)) = true :=
  by decide +kernel

theorem test_fcstVerifyDone :
    (fbank tSealable (0 : BitVec 1)).st = .verify ∧
    (fbank tSealable (0 : BitVec 1)).timer ≤ tSealable.time.total ∧
    (checkSeal tSealable (0 : BitVec 1)).1 = 0 ∧
    nextSat (exec (.fcstVerifyDone (0 : BitVec 1)) tSealable)
      (fun t => decide ((fbank t (0 : BitVec 1)).st = .sealed) && decide (t.fcst.sealRes = 0) &&
      decide (Flagged t .fcst 0)) = true :=
  by decide +kernel

theorem test_fcstVerifyDone_more :
    (fbank w_fcstVerifyDone_s_2 (0 : BitVec 1)).st = .verify ∧
    (fbank w_fcstVerifyDone_s_2 (0 : BitVec 1)).timer ≤ w_fcstVerifyDone_s_2.time.total ∧
    (checkSeal w_fcstVerifyDone_s_2 (0 : BitVec 1)).1 ≠ 0 ∧
    nextSat (exec (.fcstVerifyDone (0 : BitVec 1)) w_fcstVerifyDone_s_2)
      (fun t => decide ((fbank t (0 : BitVec 1)).st = .opened) &&
      decide (t.fcst.sealRes = BitVec.ofNat 4 (checkSeal w_fcstVerifyDone_s_2 (0 : BitVec 1)).1) &&
      decide (t.fcst.sealIdx = (checkSeal w_fcstVerifyDone_s_2 (0 : BitVec 1)).2) &&
      decide (Flagged t .fcst 1)) = true :=
  by decide +kernel

theorem test_fcstStatReq :
    Performs (⟨.host, 15, none⟩ : Wr) 0x602C tUp ∧
    (BitVec.ofNat 8 (fld (1 : Word) 0 8) ≠ (snapOf tUp 4 (⟨.host, 15, none⟩ : Wr).port).tag ∧
    nextSat (exec (.fcstStatReq (⟨.host, 15, none⟩ : Wr) (1 : Word)) tUp)
      (fun t => decide (snapOf t 4 (⟨.host, 15, none⟩ : Wr).port = ⟨true, BitVec.ofNat 8 (fld (1 : Word) 0 8), 0, false, fcstStatWords tUp⟩)) = true) :=
  ⟨⟨by decide, by decide, by decide, by decide, by decide⟩, by decide +kernel⟩

theorem test_fcstNop :
    dueEntry w_fcstNop_s (0 : Nat) 0 = some ((54975581388808 : Nat), (50 : Nat)) ∧
    nextSat (exec (.fcstNop (0 : Nat)) w_fcstNop_s)
      (fun t => decide ((flockOf t 0).nextIdx = (0 : Nat) + 1) && decide (t.regions = w_fcstNop_s.regions)) = true :=
  by decide +kernel

theorem test_preStretch :
    dueEntry w_preStretch_s (0 : Nat) 1 = some ((54975732580360 : Nat), (50 : Nat)) ∧
    nextSat (exec (.preStretch (0 : Nat)) w_preStretch_s)
      (fun t => decide ((flockOf t 0).nextIdx = (0 : Nat) + 1) && decide ((regionOf t 3).preN = 3 ∧
      (regionOf t 3).preW = 2) && decide (regionOf t 2 = regionOf w_preStretch_s 2)) = true :=
  by decide +kernel

theorem test_fcLean :
    dueEntry w_fcLean_s (0 : Nat) 2 = some ((54975850283016 : Nat), (50 : Nat)) ∧
    nextSat (exec (.fcLean (0 : Nat)) w_fcLean_s)
      (fun t => decide ((flockOf t 0).nextIdx = (0 : Nat) + 1) && decide ((regionOf t 3).leanC = some 7) &&
      decide (regionOf t 2 = regionOf w_fcLean_s 2)) = true :=
  by decide +kernel

theorem test_holdMargin :
    dueEntry w_holdMargin_s (0 : Nat) 3 = some ((54975984435208 : Nat), (50 : Nat)) ∧
    nextSat (exec (.holdMargin (0 : Nat)) w_holdMargin_s)
      (fun t => decide ((flockOf t 0).nextIdx = (0 : Nat) + 1) && decide ((regionOf t 3).raiseR = 6) &&
      decide (regionOf t 2 = regionOf w_holdMargin_s 2)) = true :=
  by decide +kernel

theorem test_fcRelease :
    dueEntry w_fcRelease_s (0 : Nat) 4 = some ((54976118325256 : Nat), (50 : Nat)) ∧
    nextSat (exec (.fcRelease (0 : Nat)) w_fcRelease_s)
      (fun t => decide ((flockOf t 0).nextIdx = (0 : Nat) + 1) && decide ((regionOf t 3).leanC = none ∧
      (regionOf t 3).raiseR = 5) && decide (regionOf t 2 = regionOf w_fcRelease_s 2)) = true :=
  by decide +kernel

theorem test_calSlot :
    dueEntry w_calSlot_s (0 : Nat) 5 = some ((54976260341768 : Nat), (50 : Nat)) ∧
    nextSat (exec (.calSlot (0 : Nat)) w_calSlot_s)
      (fun t => decide ((flockOf t 0).nextIdx = (0 : Nat) + 1) &&
      decide ((regionOf t 3).slot = some (100, 50, 4 * 120)) &&
      decide (regionOf t 2 = regionOf w_calSlot_s 2)) = true :=
  by decide +kernel

theorem test_skewCount :
    isRegion w_skewCount_s (3 : Nat) = true ∧
    w_skewCount_s.fold.started = true ∧
    (regionOf w_skewCount_s (3 : Nat)).skew = [⟨(1 : Nat), (50 : Nat), false⟩] ∧
    firstOnset (regionOf w_skewCount_s (3 : Nat)) (50 : Nat) = some (55 : Nat) ∧
    (55 : Nat) + 16 ≤ flockOffset w_skewCount_s ((3 : Nat) / 16) ∧
    nextSat (exec (.skewCount (3 : Nat)) w_skewCount_s)
      (fun t => decide (t.fcst.hits = w_skewCount_s.fcst.hits + 1) &&
      decide (t.fcst.misses = w_skewCount_s.fcst.misses) &&
      decide (t.fcst.skewSum = w_skewCount_s.fcst.skewSum + BitVec.ofInt 32 (((55 : Nat) : Int) - (50 : Nat)))) = true :=
  by decide +kernel

theorem test_skewCount_more :
    isRegion w_skewCount_s_2 (3 : Nat) = true ∧
    w_skewCount_s_2.fold.started = true ∧
    (regionOf w_skewCount_s_2 (3 : Nat)).skew = [⟨(1 : Nat), (50 : Nat), false⟩] ∧
    firstOnset (regionOf w_skewCount_s_2 (3 : Nat)) (50 : Nat) = none ∧
    (50 : Nat) + 16 ≤ flockOffset w_skewCount_s_2 ((3 : Nat) / 16) ∧
    nextSat (exec (.skewCount (3 : Nat)) w_skewCount_s_2)
      (fun t => decide (t.fcst.hits = w_skewCount_s_2.fcst.hits) &&
      decide (t.fcst.misses = w_skewCount_s_2.fcst.misses + 1) &&
      decide (t.fcst.skewSum = w_skewCount_s_2.fcst.skewSum)) = true :=
  by decide +kernel

theorem test_generatorFail :
    (0 : Nat) < w_generatorFail_s.build.flocks ∧
    genRow w_generatorFail_s.build (0 : Nat) (3 : Nat) = some (3 : Nat) ∧
    testsRun w_generatorFail_s (3 : Nat) = true ∧
    faultFires w_generatorFail_s (3 : Nat) ((.stop 80000) : GenFault) = true ∧
    regionOfGen w_generatorFail_s (3 : Nat) = some (3 : Nat) ∧
    inContract w_generatorFail_s (3 : Nat) = true ∧
    (genOf w_generatorFail_s (3 : Nat)).st ≠ .qualified ∧
    (flockOf w_generatorFail_s ((3 : Nat) / 16)).taken = [] ∧
    computedChoice (markFailed (3 : Nat) w_generatorFail_s) (3 : Nat) (fun y => decide ((genOf (markFailed (3 : Nat) w_generatorFail_s) y).st = .free) || (genOf (markFailed (3 : Nat) w_generatorFail_s) y).calFrom.isSome) = some (5120 : Nat) ∧
    nextSat (exec (.generatorFail (0 : Nat) (3 : Nat) ((.stop 80000) : GenFault)) w_generatorFail_s)
      (fun t => decide ((genOf t (3 : Nat)).st = .failed) && decide ((genOf t (5120 : Nat)).st = .serving) &&
      decide ((regionOf t (3 : Nat)).mux = muxCode w_generatorFail_s (3 : Nat) (5120 : Nat) ∨ ((regionOf t (3 : Nat)).switchTo = some (5120 : Nat) ∧
      (genOf t (5120 : Nat)).stopEnd = some (w_generatorFail_s.time.total + 150))) &&
      decide ((flockOf t ((3 : Nat) / 16)).failovers = (flockOf w_generatorFail_s ((3 : Nat) / 16)).failovers + 1) &&
      decide (t.foTotal = w_generatorFail_s.foTotal + 1) && decide (Flagged t .flock 0)) = true :=
  by decide +kernel

theorem test_generatorFail_more :
    ((0 : Nat) < w_generatorFail_s_2.build.flocks ∧
    genRow w_generatorFail_s_2.build (0 : Nat) (3 : Nat) = some (3 : Nat) ∧
    testsRun w_generatorFail_s_2 (3 : Nat) = true ∧
    faultFires w_generatorFail_s_2 (3 : Nat) ((.slow 10 10) : GenFault) = true ∧
    regionOfGen w_generatorFail_s_2 (3 : Nat) = some (3 : Nat) ∧
    inContract w_generatorFail_s_2 (3 : Nat) = true ∧
    (genOf w_generatorFail_s_2 (3 : Nat)).st ≠ .qualified ∧
    (flockOf w_generatorFail_s_2 ((3 : Nat) / 16)).taken = [] ∧
    computedChoice (markFailed (3 : Nat) w_generatorFail_s_2) (3 : Nat) (fun y => decide ((genOf (markFailed (3 : Nat) w_generatorFail_s_2) y).st = .free) || (genOf (markFailed (3 : Nat) w_generatorFail_s_2) y).calFrom.isSome) = none ∧
    nextSat (exec (.generatorFail (0 : Nat) (3 : Nat) ((.slow 10 10) : GenFault)) w_generatorFail_s_2)
      (fun t => decide ((genOf t (3 : Nat)).st = .failed) && decide ((regionOf t (3 : Nat)).excl = .auto) &&
      decide ((regionOf t (3 : Nat)).mux = 3) && decide (Flagged t .fold 9)) = true) ∧
    ((0 : Nat) < w_generatorFail_s_3.build.flocks ∧
    genRow w_generatorFail_s_3.build (0 : Nat) (3 : Nat) = some (3 : Nat) ∧
    testsRun w_generatorFail_s_3 (3 : Nat) = true ∧
    faultFires w_generatorFail_s_3 (3 : Nat) ((.fast 5000 5000) : GenFault) = true ∧
    (genOf w_generatorFail_s_3 (3 : Nat)).st = .qualified ∧
    (flockOf w_generatorFail_s_3 (0 : Nat)).taken = [] ∧
    nextSat (exec (.generatorFail (0 : Nat) (3 : Nat) ((.fast 5000 5000) : GenFault)) w_generatorFail_s_3)
      (fun t => decide ((genOf t (3 : Nat)).st = .failed)) = true) :=
  ⟨by decide +kernel, by decide +kernel⟩

theorem test_claimRetry :
    (3 : Nat) < 16 ∧
    isRegion w_claimRetry_s (16 * (0 : Nat) + (3 : Nat)) = true ∧
    (flockOf w_claimRetry_s (0 : Nat)).claims.find? (fun c => c.1 = (3 : Nat)) = some ((3 : Nat), (1 : Nat), (4 : Nat)) ∧
    (4 : Nat) < w_claimRetry_s.time.total ∧
    inContract w_claimRetry_s (16 * (0 : Nat) + (3 : Nat)) = true ∧
    (flockOf w_claimRetry_s (0 : Nat)).taken = [] ∧
    computedChoice w_claimRetry_s (16 * (0 : Nat) + (3 : Nat)) (fun y => decide ((genOf w_claimRetry_s y).st = .free) || (genOf w_claimRetry_s y).calFrom.isSome) = some (5120 : Nat) ∧
    nextSat (exec (.claimRetry (0 : Nat) (3 : Nat)) w_claimRetry_s)
      (fun t => decide ((genOf t (5120 : Nat)).st = .serving) &&
      decide ((regionOf t (16 * (0 : Nat) + (3 : Nat))).mux = muxCode w_claimRetry_s (16 * (0 : Nat) + (3 : Nat)) (5120 : Nat) ∨ ((regionOf t (16 * (0 : Nat) + (3 : Nat))).switchTo = some (5120 : Nat) ∧
      (genOf t (5120 : Nat)).stopEnd = some (w_claimRetry_s.time.total + 150))) && decide (Flagged t .flock 0) &&
      decide ((flockOf t 0).claims = [])) = true :=
  by decide +kernel

theorem test_spareLost :
    isSpare w_spareLost_s (1 : Nat) (0 : Nat) = true ∧
    faultFires w_spareLost_s (spareRow w_spareLost_s.build (1 : Nat) (0 : Nat)) ((.stop 80000) : GenFault) = true ∧
    (genOf w_spareLost_s (spareRow w_spareLost_s.build (1 : Nat) (0 : Nat))).st = .free ∧
    (genOf w_spareLost_s (spareRow w_spareLost_s.build (1 : Nat) (0 : Nat))).stopEnd = none ∧
    (genOf w_spareLost_s (spareRow w_spareLost_s.build (1 : Nat) (0 : Nat))).calFrom = none ∧
    nextSat (exec (.spareLost (1 : Nat) (0 : Nat) ((.stop 80000) : GenFault)) w_spareLost_s)
      (fun t => decide ((genOf t (spareRow w_spareLost_s.build (1 : Nat) (0 : Nat))).st = .failed) &&
      decide (Flagged t .flock 1)) = true :=
  by decide +kernel

theorem test_spareLocked :
    isSpare w_spareLocked_s (1 : Nat) (0 : Nat) = true ∧
    (genOf w_spareLocked_s (spareRow w_spareLocked_s.build (1 : Nat) (0 : Nat))).st = .locking ∧
    (genOf w_spareLocked_s (spareRow w_spareLocked_s.build (1 : Nat) (0 : Nat))).stopEnd = none ∧
    (genOf w_spareLocked_s (spareRow w_spareLocked_s.build (1 : Nat) (0 : Nat))).verified = true ∧
    (genOf w_spareLocked_s (spareRow w_spareLocked_s.build (1 : Nat) (0 : Nat))).lockFrom + 256 ≤ w_spareLocked_s.time.total ∧
    nextSat (exec (.spareLocked (1 : Nat) (0 : Nat)) w_spareLocked_s)
      (fun t => decide ((genOf t (spareRow w_spareLocked_s.build (1 : Nat) (0 : Nat))).st = .free)) = true :=
  by decide +kernel

theorem test_drvParity :
    (1 : Nat) < tUp.build.flocks ∧
    nextSat (exec (.drvParity (1 : Nat)) tUp)
      (fun t => decide ((flockOf t (1 : Nat)).parity = true) && decide ((flockOf t (1 : Nat)).svc = true) &&
      decide (Flagged t .flock 11)) = true :=
  by decide +kernel

theorem test_clearParity :
    Performs (⟨.host, 15, none⟩ : Wr) ((flockAddr (1 : Nat) 0x2C)) w_clearParity_s ∧
    ((1 : Nat) < w_clearParity_s.build.flocks ∧
    (1 : BitVec 8) ≠ (flockOf w_clearParity_s (1 : Nat)).genTag ∧
    nextSat (exec (.clearParity (⟨.host, 15, none⟩ : Wr) (1 : Nat) (0 : BitVec 5) (1 : BitVec 8)) w_clearParity_s)
      (fun t => decide ((flockOf t (1 : Nat)).parity = false) &&
      decide ((flockOf t (1 : Nat)).svc = (spareOutNow w_clearParity_s (1 : Nat) || (flockOf w_clearParity_s (1 : Nat)).lastPath || decide (0 < exclCount w_clearParity_s (1 : Nat)))) &&
      decide ((flockOf t (1 : Nat)).genStatus = 0) && decide ((flockOf t (1 : Nat)).genTag = (1 : BitVec 8))) = true) :=
  ⟨⟨by decide, by decide, by decide, by decide, by decide⟩, by decide +kernel⟩

theorem test_retest :
    Performs (⟨.host, 15, none⟩ : Wr) ((flockAddr (1 : Nat) 0x2C)) w_retest_s ∧
    ((1 : Nat) < w_retest_s.build.flocks ∧
    (1 : BitVec 8) ≠ (flockOf w_retest_s (1 : Nat)).genTag ∧
    genRow w_retest_s.build (1 : Nat) (3 : BitVec 5).toNat = some (19 : Nat) ∧
    (flockOf w_retest_s (1 : Nat)).retest = none ∧
    (genOf w_retest_s (19 : Nat)).st = .failed ∧
    nextSat (exec (.retest (⟨.host, 15, none⟩ : Wr) (1 : Nat) (3 : BitVec 5) (1 : BitVec 8)) w_retest_s)
      (fun t => decide ((flockOf t (1 : Nat)).retest = some (3 : BitVec 5).toNat) &&
      decide (t.gens = w_retest_s.gens) && decide ((flockOf t (1 : Nat)).genStatus = 3) &&
      decide ((flockOf t (1 : Nat)).genTag = (1 : BitVec 8))) = true) :=
  ⟨⟨by decide, by decide, by decide, by decide, by decide⟩, by decide +kernel⟩

theorem test_retest_more :
    (Performs (⟨.host, 15, none⟩ : Wr) ((flockAddr (1 : Nat) 0x2C)) tUp ∧
    ((1 : Nat) < tUp.build.flocks ∧
    (1 : BitVec 8) ≠ (flockOf tUp (1 : Nat)).genTag ∧
    genRow tUp.build (1 : Nat) (3 : BitVec 5).toNat = some (19 : Nat) ∧
    ((flockOf tUp (1 : Nat)).retest.isSome = true ∨ (genOf tUp (19 : Nat)).st ≠ .failed) ∧
    nextSat (exec (.retest (⟨.host, 15, none⟩ : Wr) (1 : Nat) (3 : BitVec 5) (1 : BitVec 8)) tUp)
      (fun t => decide ((flockOf t (1 : Nat)).retest = (flockOf tUp (1 : Nat)).retest) && decide (t.gens = tUp.gens) &&
      decide ((flockOf t (1 : Nat)).genStatus = 1) &&
      decide ((flockOf t (1 : Nat)).genTag = (1 : BitVec 8))) = true)) :=
  ⟨⟨by decide, by decide, by decide, by decide, by decide⟩, by decide +kernel⟩

theorem test_retestDone :
    (1 : Nat) < w_retestDone_s.build.flocks ∧
    (flockOf w_retestDone_s (1 : Nat)).retest = some (3 : Nat) ∧
    genRow w_retestDone_s.build (1 : Nat) (3 : Nat) = some (19 : Nat) ∧
    coreRuns w_retestDone_s = true ∧
    36576 ≤ (⟨36600, true⟩ : RetestRun).verified ∧
    (flockOf w_retestDone_s (1 : Nat)).retestAt + (⟨36600, true⟩ : RetestRun).verified + 65536 ≤ w_retestDone_s.time.total ∧
    retestCut w_retestDone_s (1 : Nat) (⟨36600, true⟩ : RetestRun).verified = false ∧
    rowVerifies ((List.range 24).map (fun b => measuredEntry (([(1000, 2000)] : List (Nat × Nat)).getD b (0, 0)).1 (([(1000, 2000)] : List (Nat × Nat)).getD b (0, 0)).2)) = true ∧
    (⟨36600, true⟩ : RetestRun).clean = true ∧
    nextSat (exec (.retestDone (1 : Nat) ([(1000, 2000)] : List (Nat × Nat)) (⟨36600, true⟩ : RetestRun)) w_retestDone_s)
      (fun t => decide ((genOf t (19 : Nat)).st = .qualified) &&
      decide ((genOf t (19 : Nat)).copy = ((List.range 24).map (fun b => measuredEntry (([(1000, 2000)] : List (Nat × Nat)).getD b (0, 0)).1 (([(1000, 2000)] : List (Nat × Nat)).getD b (0, 0)).2))) &&
      decide ((flockOf t (1 : Nat)).retest = none) && decide (Flagged t .flock 6) &&
      decide ((flockOf t (1 : Nat)).genStatus = if (flockOf w_retestDone_s (1 : Nat)).reportsRetest then 0 else (flockOf w_retestDone_s (1 : Nat)).genStatus)) = true :=
  by decide +kernel

theorem test_retestDone_more :
    (1 : Nat) < w_retestDone_s_2.build.flocks ∧
    (flockOf w_retestDone_s_2 (1 : Nat)).retest = some (3 : Nat) ∧
    genRow w_retestDone_s_2.build (1 : Nat) (3 : Nat) = some (19 : Nat) ∧
    coreRuns w_retestDone_s_2 = true ∧
    36576 ≤ (⟨36600, true⟩ : RetestRun).verified ∧
    (flockOf w_retestDone_s_2 (1 : Nat)).retestAt + (⟨36600, true⟩ : RetestRun).verified ≤ w_retestDone_s_2.time.total ∧
    (rowVerifies ((List.range 24).map (fun b => measuredEntry (([] : List (Nat × Nat)).getD b (0, 0)).1 (([] : List (Nat × Nat)).getD b (0, 0)).2)) = false ∨ retestCut w_retestDone_s_2 (1 : Nat) (⟨36600, true⟩ : RetestRun).verified = true ∨ (⟨36600, true⟩ : RetestRun).clean = false) ∧
    nextSat (exec (.retestDone (1 : Nat) ([] : List (Nat × Nat)) (⟨36600, true⟩ : RetestRun)) w_retestDone_s_2)
      (fun t => decide ((genOf t (19 : Nat)).st = .failed) && decide ((flockOf t (1 : Nat)).retest = none) &&
      decide (Flagged t .flock 12) &&
      decide ((flockOf t (1 : Nat)).genStatus = if (flockOf w_retestDone_s_2 (1 : Nat)).reportsRetest then 2 else (flockOf w_retestDone_s_2 (1 : Nat)).genStatus)) = true :=
  by decide +kernel

theorem test_reinstate :
    Performs (⟨.host, 15, none⟩ : Wr) ((flockAddr (1 : Nat) 0x2C)) w_reinstate_s ∧
    ((1 : Nat) < w_reinstate_s.build.flocks ∧
    (1 : BitVec 8) ≠ (flockOf w_reinstate_s (1 : Nat)).genTag ∧
    genRow w_reinstate_s.build (1 : Nat) (16 : BitVec 5).toNat = some (5122 : Nat) ∧
    (genOf w_reinstate_s (5122 : Nat)).st = .qualified ∧
    16 ≤ (16 : BitVec 5).toNat ∧
    nextSat (exec (.reinstate (⟨.host, 15, none⟩ : Wr) (1 : Nat) (16 : BitVec 5) (1 : BitVec 8)) w_reinstate_s)
      (fun t => decide ((genOf t (5122 : Nat)).st = .locking) && decide (Flagged t .flock 7) &&
      decide ((flockOf t (1 : Nat)).genStatus = 0) && decide ((flockOf t (1 : Nat)).genTag = (1 : BitVec 8))) = true) :=
  ⟨⟨by decide, by decide, by decide, by decide, by decide⟩, by decide +kernel⟩

theorem test_reinstate_more :
    (Performs (⟨.host, 15, none⟩ : Wr) ((flockAddr (1 : Nat) 0x2C)) w_reinstate_s_2 ∧
    ((1 : Nat) < w_reinstate_s_2.build.flocks ∧
    (1 : BitVec 8) ≠ (flockOf w_reinstate_s_2 (1 : Nat)).genTag ∧
    genRow w_reinstate_s_2.build (1 : Nat) (3 : BitVec 5).toNat = some (19 : Nat) ∧
    (genOf w_reinstate_s_2 (19 : Nat)).st = .qualified ∧
    (3 : BitVec 5).toNat < 16 ∧
    ((regionOf w_reinstate_s_2 (19 : Nat)).parked = false ∨ excluded w_reinstate_s_2 (19 : Nat) = true) ∧
    nextSat (exec (.reinstate (⟨.host, 15, none⟩ : Wr) (1 : Nat) (3 : BitVec 5) (1 : BitVec 8)) w_reinstate_s_2)
      (fun t => decide ((genOf t (19 : Nat)).failback = true) && decide ((genOf t (19 : Nat)).st = .qualified) &&
      decide (t.regions = w_reinstate_s_2.regions) && decide (Flagged t .flock 7) &&
      decide ((flockOf t (1 : Nat)).genStatus = 0) && decide ((flockOf t (1 : Nat)).genTag = (1 : BitVec 8))) = true)) ∧
    (Performs (⟨.host, 15, none⟩ : Wr) ((flockAddr (1 : Nat) 0x2C)) w_reinstate_s_3 ∧
    ((1 : Nat) < w_reinstate_s_3.build.flocks ∧
    (1 : BitVec 8) ≠ (flockOf w_reinstate_s_3 (1 : Nat)).genTag ∧
    genRow w_reinstate_s_3.build (1 : Nat) (3 : BitVec 5).toNat = some (19 : Nat) ∧
    (genOf w_reinstate_s_3 (19 : Nat)).st = .qualified ∧
    (3 : BitVec 5).toNat < 16 ∧
    (regionOf w_reinstate_s_3 (19 : Nat)).parked = true ∧
    excluded w_reinstate_s_3 (19 : Nat) = false ∧
    servingGen w_reinstate_s_3 (19 : Nat) = some (5122 : Nat) ∧
    (5122 : Nat) ≠ (19 : Nat) ∧
    nextSat (exec (.reinstate (⟨.host, 15, none⟩ : Wr) (1 : Nat) (3 : BitVec 5) (1 : BitVec 8)) w_reinstate_s_3)
      (fun t => decide ((genOf t (19 : Nat)).st = .serving) && decide ((regionOf t (19 : Nat)).mux = 0) &&
      decide ((genOf t (5122 : Nat)).st = .locking) && decide (Flagged t .flock 7) && decide (Flagged t .flock 8) &&
      decide ((flockOf t (1 : Nat)).genStatus = 0) && decide ((flockOf t (1 : Nat)).genTag = (1 : BitVec 8))) = true)) ∧
    (Performs (⟨.host, 15, none⟩ : Wr) ((flockAddr (1 : Nat) 0x2C)) w_reinstate_s_4 ∧
    ((1 : Nat) < w_reinstate_s_4.build.flocks ∧
    (1 : BitVec 8) ≠ (flockOf w_reinstate_s_4 (1 : Nat)).genTag ∧
    genRow w_reinstate_s_4.build (1 : Nat) (3 : BitVec 5).toNat = some (19 : Nat) ∧
    (genOf w_reinstate_s_4 (19 : Nat)).st = .qualified ∧
    (3 : BitVec 5).toNat < 16 ∧
    (regionOf w_reinstate_s_4 (19 : Nat)).parked = true ∧
    excluded w_reinstate_s_4 (19 : Nat) = false ∧
    servingGen w_reinstate_s_4 (19 : Nat) = none ∧
    nextSat (exec (.reinstate (⟨.host, 15, none⟩ : Wr) (1 : Nat) (3 : BitVec 5) (1 : BitVec 8)) w_reinstate_s_4)
      (fun t => decide ((genOf t (19 : Nat)).st = .serving) && decide ((regionOf t (19 : Nat)).mux = 0) &&
      decide (Flagged t .flock 7) && decide ((flockOf t (1 : Nat)).genStatus = 0) &&
      decide ((flockOf t (1 : Nat)).genTag = (1 : BitVec 8))) = true)) ∧
    (Performs (⟨.host, 15, none⟩ : Wr) ((flockAddr (1 : Nat) 0x2C)) tUp ∧
    ((1 : Nat) < tUp.build.flocks ∧
    (1 : BitVec 8) ≠ (flockOf tUp (1 : Nat)).genTag ∧
    genRow tUp.build (1 : Nat) (3 : BitVec 5).toNat = some (19 : Nat) ∧
    (genOf tUp (19 : Nat)).st ≠ .qualified ∧
    nextSat (exec (.reinstate (⟨.host, 15, none⟩ : Wr) (1 : Nat) (3 : BitVec 5) (1 : BitVec 8)) tUp)
      (fun t => decide (t.gens = tUp.gens) && decide (t.regions = tUp.regions) &&
      decide ((flockOf t (1 : Nat)).genStatus = 1) &&
      decide ((flockOf t (1 : Nat)).genTag = (1 : BitVec 8))) = true)) :=
  ⟨⟨⟨by decide, by decide, by decide, by decide, by decide⟩, by decide +kernel⟩,
   ⟨⟨by decide, by decide, by decide, by decide, by decide⟩, by decide +kernel⟩,
   ⟨⟨by decide, by decide, by decide, by decide, by decide⟩, by decide +kernel⟩,
   ⟨⟨by decide, by decide, by decide, by decide, by decide⟩, by decide +kernel⟩⟩

theorem test_retire :
    Performs (⟨.host, 15, none⟩ : Wr) ((flockAddr (1 : Nat) 0x2C)) w_retire_s ∧
    ((1 : Nat) < w_retire_s.build.flocks ∧
    (1 : BitVec 8) ≠ (flockOf w_retire_s (1 : Nat)).genTag ∧
    genRow w_retire_s.build (1 : Nat) (16 : BitVec 5).toNat = some (5122 : Nat) ∧
    isServing w_retire_s (5122 : Nat) = false ∧
    nextSat (exec (.retire (⟨.host, 15, none⟩ : Wr) (1 : Nat) (16 : BitVec 5) (1 : BitVec 8)) w_retire_s)
      (fun t => decide ((genOf t (5122 : Nat)).st = .failed) && decide ((flockOf t (1 : Nat)).genStatus = 0) &&
      decide ((flockOf t (1 : Nat)).genTag = (1 : BitVec 8))) = true) :=
  ⟨⟨by decide, by decide, by decide, by decide, by decide⟩, by decide +kernel⟩

theorem test_retire_more :
    (Performs (⟨.host, 15, none⟩ : Wr) ((flockAddr (1 : Nat) 0x2C)) w_retire_s_2 ∧
    ((1 : Nat) < w_retire_s_2.build.flocks ∧
    (1 : BitVec 8) ≠ (flockOf w_retire_s_2 (1 : Nat)).genTag ∧
    genRow w_retire_s_2.build (1 : Nat) (3 : BitVec 5).toNat = some (19 : Nat) ∧
    isServing w_retire_s_2 (19 : Nat) = true ∧
    nextSat (exec (.retire (⟨.host, 15, none⟩ : Wr) (1 : Nat) (3 : BitVec 5) (1 : BitVec 8)) w_retire_s_2)
      (fun t => decide (t.gens = w_retire_s_2.gens) && decide ((flockOf t (1 : Nat)).genStatus = 1) &&
      decide ((flockOf t (1 : Nat)).genTag = (1 : BitVec 8))) = true)) :=
  ⟨⟨by decide, by decide, by decide, by decide, by decide⟩, by decide +kernel⟩

theorem test_crkArm :
    Performs (⟨.host, 15, none⟩ : Wr) 0xE000 tUp ∧
    (fld (0xA5 : Word) 0 8 = 0xA5 ∧
    nextSat (exec (.crkArm (⟨.host, 15, none⟩ : Wr) (0xA5 : Word)) tUp)
      (fun t => decide (t.crook.armed = true) && decide (t.crook.armedAt = tUp.time.slowEdges)) = true) :=
  ⟨⟨by decide, by decide, by decide, by decide, by decide⟩, by decide +kernel⟩

theorem test_crkArm_more :
    (Performs (⟨.host, 15, none⟩ : Wr) 0xE000 tUp ∧
    (fld (0x5A : Word) 0 8 ≠ 0xA5 ∧
    nextSat (exec (.crkArm (⟨.host, 15, none⟩ : Wr) (0x5A : Word)) tUp)
      (fun t => decide (t.crook = tUp.crook)) = true)) :=
  ⟨⟨by decide, by decide, by decide, by decide, by decide⟩, by decide +kernel⟩

theorem test_crkArmExpiry :
    w_crkArmExpiry_s.crook.armed = true ∧
    w_crkArmExpiry_s.crook.armedAt + 64 ≤ w_crkArmExpiry_s.time.slowEdges ∧
    nextSat (exec (.crkArmExpiry) w_crkArmExpiry_s)
      (fun t => decide (t.crook.armed = false)) = true :=
  by decide +kernel

theorem test_forceHoldRegion :
    Performs (⟨.host, 15, none⟩ : Wr) 0xE004 w_forceHoldRegion_s ∧
    ((⟨.host, 15, none⟩ : Wr).rival = none ∧
    (1 : BitVec 8) ≠ w_forceHoldRegion_s.crook.tag ∧
    w_forceHoldRegion_s.crook.armed = true ∧
    isRegion w_forceHoldRegion_s (3 : BitVec 13).toNat = true ∧
    excluded w_forceHoldRegion_s (3 : BitVec 13).toNat = false ∧
    nextSat (exec (.forceHoldRegion (⟨.host, 15, none⟩ : Wr) (3 : BitVec 13) (1 : BitVec 8)) w_forceHoldRegion_s)
      (fun t => decide ((regionOf t (3 : BitVec 13).toNat).forced = true) && decide (t.crook.rej = 0) &&
      decide (t.crook.tag = (1 : BitVec 8)) && decide (t.crook.armed = false)) = true) :=
  ⟨⟨by decide, by decide, by decide, by decide, by decide⟩, by decide +kernel⟩

theorem test_forceHoldRegion_more :
    (Performs (⟨.host, 15, none⟩ : Wr) 0xE004 w_forceHoldRegion_s_2 ∧
    ((⟨.host, 15, none⟩ : Wr).rival = none ∧
    (1 : BitVec 8) ≠ w_forceHoldRegion_s_2.crook.tag ∧
    w_forceHoldRegion_s_2.crook.armed = true ∧
    (isRegion w_forceHoldRegion_s_2 (300 : BitVec 13).toNat = false ∨ excluded w_forceHoldRegion_s_2 (300 : BitVec 13).toNat = true) ∧
    nextSat (exec (.forceHoldRegion (⟨.host, 15, none⟩ : Wr) (300 : BitVec 13) (1 : BitVec 8)) w_forceHoldRegion_s_2)
      (fun t => decide (t.regions = w_forceHoldRegion_s_2.regions) && decide (t.crook.rej = 2) &&
      decide (t.crook.tag = (1 : BitVec 8)) && decide (t.crook.armed = false)) = true)) ∧
    (Performs (⟨.host, 15, none⟩ : Wr) 0xE004 tUp ∧
    ((⟨.host, 15, none⟩ : Wr).rival = none ∧
    (1 : BitVec 8) ≠ tUp.crook.tag ∧
    tUp.crook.armed = false ∧
    nextSat (exec (.forceHoldRegion (⟨.host, 15, none⟩ : Wr) (3 : BitVec 13) (1 : BitVec 8)) tUp)
      (fun t => decide (t.regions = tUp.regions) && decide (t.crook.rej = 1) && decide (t.crook.tag = (1 : BitVec 8)) &&
      decide (t.crook.armed = false)) = true)) ∧
    (Performs (⟨.bm, 15, some .host⟩ : Wr) 0xE004 w_forceHoldRegion_s_4 ∧
    ((⟨.bm, 15, some .host⟩ : Wr).port = .bm ∧
    (⟨.bm, 15, some .host⟩ : Wr).rival = some .host ∧
    (1 : BitVec 8) ≠ w_forceHoldRegion_s_4.crook.tag ∧
    w_forceHoldRegion_s_4.crook.armed = true ∧
    nextSat (exec (.forceHoldRegion (⟨.bm, 15, some .host⟩ : Wr) (3 : BitVec 13) (1 : BitVec 8)) w_forceHoldRegion_s_4)
      (fun t => decide (t.regions = w_forceHoldRegion_s_4.regions) && decide (t.crook.rej = 3) &&
      decide (t.crook.tag = (1 : BitVec 8)) && decide (t.crook.armed = true)) = true)) :=
  ⟨⟨⟨by decide, by decide, by decide, by decide, by decide⟩, by decide +kernel⟩,
   ⟨⟨by decide, by decide, by decide, by decide, by decide⟩, by decide +kernel⟩,
   ⟨⟨by decide, by decide, by decide, by decide, by decide⟩, by decide +kernel⟩⟩

theorem test_releaseRegion :
    Performs (⟨.host, 15, none⟩ : Wr) 0xE004 w_releaseRegion_s ∧
    ((⟨.host, 15, none⟩ : Wr).rival = none ∧
    (1 : BitVec 8) ≠ w_releaseRegion_s.crook.tag ∧
    w_releaseRegion_s.crook.armed = true ∧
    isRegion w_releaseRegion_s (3 : BitVec 13).toNat = true ∧
    excluded w_releaseRegion_s (3 : BitVec 13).toNat = false ∧
    nextSat (exec (.releaseRegion (⟨.host, 15, none⟩ : Wr) (3 : BitVec 13) (1 : BitVec 8)) w_releaseRegion_s)
      (fun t => decide ((regionOf t (3 : BitVec 13).toNat).forced = false) && decide (t.crook.rej = 0) &&
      decide (t.crook.tag = (1 : BitVec 8)) && decide (t.crook.armed = false)) = true) :=
  ⟨⟨by decide, by decide, by decide, by decide, by decide⟩, by decide +kernel⟩

theorem test_forceHoldFlock :
    Performs (⟨.host, 15, none⟩ : Wr) 0xE004 w_forceHoldFlock_s ∧
    ((⟨.host, 15, none⟩ : Wr).rival = none ∧
    (1 : BitVec 8) ≠ w_forceHoldFlock_s.crook.tag ∧
    w_forceHoldFlock_s.crook.armed = true ∧
    (0 : BitVec 13).toNat < w_forceHoldFlock_s.build.flocks ∧
    nextSat (exec (.forceHoldFlock (⟨.host, 15, none⟩ : Wr) (0 : BitVec 13) (1 : BitVec 8)) w_forceHoldFlock_s)
      (fun t => decide ((regionOf t 3).forced = true) && decide (t.crook.rej = 0) &&
      decide (t.crook.tag = (1 : BitVec 8)) && decide (t.crook.armed = false)) = true) :=
  ⟨⟨by decide, by decide, by decide, by decide, by decide⟩, by decide +kernel⟩

theorem test_releaseFlock :
    Performs (⟨.host, 15, none⟩ : Wr) 0xE004 w_releaseFlock_s ∧
    ((⟨.host, 15, none⟩ : Wr).rival = none ∧
    (1 : BitVec 8) ≠ w_releaseFlock_s.crook.tag ∧
    w_releaseFlock_s.crook.armed = true ∧
    (2 : BitVec 13).toNat < w_releaseFlock_s.build.flocks ∧
    nextSat (exec (.releaseFlock (⟨.host, 15, none⟩ : Wr) (2 : BitVec 13) (1 : BitVec 8)) w_releaseFlock_s)
      (fun t => decide ((regionOf t 35).forced = true) && decide (t.crook.rej = 0) &&
      decide (t.crook.tag = (1 : BitVec 8)) && decide (t.crook.armed = false)) = true) :=
  ⟨⟨by decide, by decide, by decide, by decide, by decide⟩, by decide +kernel⟩

theorem test_forceFailover :
    Performs (⟨.host, 15, none⟩ : Wr) 0xE004 w_forceFailover_s ∧
    ((⟨.host, 15, none⟩ : Wr).rival = none ∧
    (1 : BitVec 8) ≠ w_forceFailover_s.crook.tag ∧
    w_forceFailover_s.crook.armed = true ∧
    isRegion w_forceFailover_s (16 * (0 : BitVec 9).toNat + (3 : BitVec 4).toNat) = true ∧
    excluded w_forceFailover_s (16 * (0 : BitVec 9).toNat + (3 : BitVec 4).toNat) = false ∧
    (flockOf w_forceFailover_s ((16 * (0 : BitVec 9).toNat + (3 : BitVec 4).toNat) / 16)).taken.any (fun c => c.slot = (16 * (0 : BitVec 9).toNat + (3 : BitVec 4).toNat) % 16) = false ∧
      (flockOf w_forceFailover_s ((16 * (0 : BitVec 9).toNat + (3 : BitVec 4).toNat) / 16)).claims.any (fun q => q.1 = (16 * (0 : BitVec 9).toNat + (3 : BitVec 4).toNat) % 16) = false ∧
    crkTarget w_forceFailover_s (16 * (0 : BitVec 9).toNat + (3 : BitVec 4).toNat) (1 : BitVec 2).toNat = some (5120 : Nat) ∧
    nextSat (exec (.forceFailover (⟨.host, 15, none⟩ : Wr) (0 : BitVec 9) (3 : BitVec 4) (1 : BitVec 2) (1 : BitVec 8)) w_forceFailover_s)
      (fun t => decide ((genOf t (5120 : Nat)).st = .serving) &&
      decide ((regionOf t (16 * (0 : BitVec 9).toNat + (3 : BitVec 4).toNat)).mux = muxCode w_forceFailover_s (16 * (0 : BitVec 9).toNat + (3 : BitVec 4).toNat) (5120 : Nat) ∨ ((regionOf t (16 * (0 : BitVec 9).toNat + (3 : BitVec 4).toNat)).switchTo = some (5120 : Nat) ∧
      (genOf t (5120 : Nat)).stopEnd = some (w_forceFailover_s.time.total + 150))) &&
      decide (t.foTotal = w_forceFailover_s.foTotal + 1) && decide (Flagged t .flock 0) &&
      decide ((genOf t 3).st = .failed) && decide (t.crook.rej = 0) && decide (t.crook.tag = (1 : BitVec 8)) &&
      decide (t.crook.armed = false)) = true) :=
  ⟨⟨by decide, by decide, by decide, by decide, by decide⟩, by decide +kernel⟩

theorem test_forceFailover_more :
    (Performs (⟨.host, 15, none⟩ : Wr) 0xE004 w_forceFailover_s_2 ∧
    ((⟨.host, 15, none⟩ : Wr).rival = none ∧
    (1 : BitVec 8) ≠ w_forceFailover_s_2.crook.tag ∧
    w_forceFailover_s_2.crook.armed = true ∧
    isRegion w_forceFailover_s_2 (16 * (0 : BitVec 9).toNat + (3 : BitVec 4).toNat) = true ∧
    excluded w_forceFailover_s_2 (16 * (0 : BitVec 9).toNat + (3 : BitVec 4).toNat) = false ∧
    (flockOf w_forceFailover_s_2 ((16 * (0 : BitVec 9).toNat + (3 : BitVec 4).toNat) / 16)).taken.any (fun c => c.slot = (16 * (0 : BitVec 9).toNat + (3 : BitVec 4).toNat) % 16) = false ∧
      (flockOf w_forceFailover_s_2 ((16 * (0 : BitVec 9).toNat + (3 : BitVec 4).toNat) / 16)).claims.any (fun q => q.1 = (16 * (0 : BitVec 9).toNat + (3 : BitVec 4).toNat) % 16) = false ∧
    crkTarget w_forceFailover_s_2 (16 * (0 : BitVec 9).toNat + (3 : BitVec 4).toNat) (1 : BitVec 2).toNat = none ∧
    nextSat (exec (.forceFailover (⟨.host, 15, none⟩ : Wr) (0 : BitVec 9) (3 : BitVec 4) (1 : BitVec 2) (1 : BitVec 8)) w_forceFailover_s_2)
      (fun t => decide (t.gens = w_forceFailover_s_2.gens) && decide (t.regions = w_forceFailover_s_2.regions) &&
      decide (t.crook.rej = 4) && decide (t.crook.tag = (1 : BitVec 8)) && decide (t.crook.armed = false)) = true)) ∧
    (Performs (⟨.host, 15, none⟩ : Wr) 0xE004 w_forceFailover_s_3 ∧
    ((⟨.host, 15, none⟩ : Wr).rival = none ∧
    (1 : BitVec 8) ≠ w_forceFailover_s_3.crook.tag ∧
    w_forceFailover_s_3.crook.armed = true ∧
    isRegion w_forceFailover_s_3 (16 * (0 : BitVec 9).toNat + (3 : BitVec 4).toNat) = true ∧
    excluded w_forceFailover_s_3 (16 * (0 : BitVec 9).toNat + (3 : BitVec 4).toNat) = false ∧
    ((flockOf w_forceFailover_s_3 ((16 * (0 : BitVec 9).toNat + (3 : BitVec 4).toNat) / 16)).taken.any (fun c => c.slot = (16 * (0 : BitVec 9).toNat + (3 : BitVec 4).toNat) % 16) = true ∨ (flockOf w_forceFailover_s_3 ((16 * (0 : BitVec 9).toNat + (3 : BitVec 4).toNat) / 16)).claims.any (fun q => q.1 = (16 * (0 : BitVec 9).toNat + (3 : BitVec 4).toNat) % 16) = true) ∧
    nextSat (exec (.forceFailover (⟨.host, 15, none⟩ : Wr) (0 : BitVec 9) (3 : BitVec 4) (1 : BitVec 2) (1 : BitVec 8)) w_forceFailover_s_3)
      (fun t => decide (t.gens = w_forceFailover_s_3.gens) && decide (t.regions = w_forceFailover_s_3.regions) &&
      decide (t.crook.held = some ((⟨.host, 15, none⟩ : Wr).port, (1 : BitVec 8), (16 * (0 : BitVec 9).toNat + (3 : BitVec 4).toNat), (1 : BitVec 2).toNat)) &&
      decide (t.crook.armed = false) && decide (t.crook.tag = w_forceFailover_s_3.crook.tag)) = true)) :=
  ⟨⟨⟨by decide, by decide, by decide, by decide, by decide⟩, by decide +kernel⟩,
   ⟨⟨by decide, by decide, by decide, by decide, by decide⟩, by decide +kernel⟩⟩

theorem test_crkCoreReset :
    Performs (⟨.host, 15, none⟩ : Wr) 0xE004 w_crkCoreReset_s ∧
    ((⟨.host, 15, none⟩ : Wr).rival = none ∧
    (1 : BitVec 8) ≠ w_crkCoreReset_s.crook.tag ∧
    w_crkCoreReset_s.crook.armed = true ∧
    w_crkCoreReset_s.shep.active.isSome = true ∧
    nextSat (exec (.crkCoreReset (⟨.host, 15, none⟩ : Wr) (1 : BitVec 8)) w_crkCoreReset_s)
      (fun t => decide (t.shep.state = .running) && decide (t.shep.boot = 4) && decide (t.crook.rej = 0) &&
      decide (t.crook.tag = (1 : BitVec 8)) && decide (t.crook.armed = false)) = true) :=
  ⟨⟨by decide, by decide, by decide, by decide, by decide⟩, by decide +kernel⟩

theorem test_crkCoreReset_more :
    (Performs (⟨.host, 15, none⟩ : Wr) 0xE004 w_crkCoreReset_s_2 ∧
    ((⟨.host, 15, none⟩ : Wr).rival = none ∧
    (1 : BitVec 8) ≠ w_crkCoreReset_s_2.crook.tag ∧
    w_crkCoreReset_s_2.crook.armed = true ∧
    w_crkCoreReset_s_2.shep.active = none ∧
    nextSat (exec (.crkCoreReset (⟨.host, 15, none⟩ : Wr) (1 : BitVec 8)) w_crkCoreReset_s_2)
      (fun t => decide (t.shep = w_crkCoreReset_s_2.shep) && decide (t.crook.rej = 0) &&
      decide (t.crook.tag = (1 : BitVec 8)) && decide (t.crook.armed = false)) = true)) :=
  ⟨⟨by decide, by decide, by decide, by decide, by decide⟩, by decide +kernel⟩

theorem test_crkInvalidOp :
    Performs (⟨.host, 15, none⟩ : Wr) 0xE004 w_crkInvalidOp_s ∧
    ((⟨.host, 15, none⟩ : Wr).rival = none ∧
    (1 : BitVec 8) ≠ w_crkInvalidOp_s.crook.tag ∧
    w_crkInvalidOp_s.crook.armed = true ∧
    7 ≤ (9 : BitVec 4).toNat ∧
    nextSat (exec (.crkInvalidOp (⟨.host, 15, none⟩ : Wr) (9 : BitVec 4) (1 : BitVec 8)) w_crkInvalidOp_s)
      (fun t => decide (t.regions = w_crkInvalidOp_s.regions) && decide (t.shep = w_crkInvalidOp_s.shep) &&
      decide (t.crook.rej = 5) && decide (t.crook.tag = (1 : BitVec 8)) && decide (t.crook.armed = false)) = true) :=
  ⟨⟨by decide, by decide, by decide, by decide, by decide⟩, by decide +kernel⟩

theorem test_tallyClaim :
    Performs (⟨.host, 15, none⟩ : Wr) 0x9000 tUp ∧
    ((1 : BitVec 8) ≠ claimTag tUp (⟨.host, 15, none⟩ : Wr).port ∧
    (1 : BitVec 2) ≠ 0 ∧
    loses (⟨.host, 15, none⟩ : Wr) = false ∧
    (tallyUnit tUp (1 : BitVec 2).toNat).owner = .none ∧
    (tallyUnit tUp (1 : BitVec 2).toNat).freedAt ≠ some tUp.time.slowEdges ∧
    ((⟨.host, 15, none⟩ : Wr).port = .host ∨ tUp.tally.claimHost = none) ∧
    ((⟨.host, 15, none⟩ : Wr).port = .bm ∨ tUp.tally.claimBm = none) ∧
    ((⟨.host, 15, none⟩ : Wr).port = .shep ∨ tUp.tally.claimFw = none) ∧
    nextSat (exec (.tallyClaim (⟨.host, 15, none⟩ : Wr) (1 : BitVec 2) (1 : BitVec 8)) tUp)
      (fun t => decide ((tallyUnit t (1 : BitVec 2).toNat).owner = ownerOf (⟨.host, 15, none⟩ : Wr).port) &&
      decide (claimOf t (⟨.host, 15, none⟩ : Wr).port = none) &&
      decide (claimTag t (⟨.host, 15, none⟩ : Wr).port = (1 : BitVec 8))) = true) :=
  ⟨⟨by decide, by decide, by decide, by decide, by decide⟩, by decide +kernel⟩

theorem test_tallyClaim_more :
    (Performs (⟨.host, 15, none⟩ : Wr) 0x9000 w_tallyClaim_s_2 ∧
    ((1 : BitVec 8) ≠ claimTag w_tallyClaim_s_2 (⟨.host, 15, none⟩ : Wr).port ∧
    (1 : BitVec 2) ≠ 0 ∧
    (tallyUnit w_tallyClaim_s_2 (1 : BitVec 2).toNat).owner ≠ .none ∧
    nextSat (exec (.tallyClaim (⟨.host, 15, none⟩ : Wr) (1 : BitVec 2) (1 : BitVec 8)) w_tallyClaim_s_2)
      (fun t => decide ((tallyUnit t (1 : BitVec 2).toNat).owner = (tallyUnit w_tallyClaim_s_2 (1 : BitVec 2).toNat).owner) &&
      decide (claimOf t (⟨.host, 15, none⟩ : Wr).port = some ⟨(1 : BitVec 2), w_tallyClaim_s_2.time.slowEdges⟩) &&
      decide (claimTag t (⟨.host, 15, none⟩ : Wr).port = (1 : BitVec 8))) = true)) ∧
    (Performs (⟨.host, 15, none⟩ : Wr) 0x9000 tUp ∧
    ((1 : BitVec 8) ≠ claimTag tUp (⟨.host, 15, none⟩ : Wr).port ∧
    (0 : BitVec 2) = 0 ∧
    nextSat (exec (.tallyClaim (⟨.host, 15, none⟩ : Wr) (0 : BitVec 2) (1 : BitVec 8)) tUp)
      (fun t => decide (Flagged t .tally 5) && decide (claimTag t (⟨.host, 15, none⟩ : Wr).port = (1 : BitVec 8)) &&
      decide ((tallyUnit t 0).owner = .fw)) = true)) :=
  ⟨⟨⟨by decide, by decide, by decide, by decide, by decide⟩, by decide +kernel⟩,
   ⟨⟨by decide, by decide, by decide, by decide, by decide⟩, by decide +kernel⟩⟩

theorem test_tallyRelease :
    Performs (⟨.host, 15, none⟩ : Wr) 0x9000 w_tallyRelease_s ∧
    ((1 : BitVec 8) ≠ claimTag w_tallyRelease_s (⟨.host, 15, none⟩ : Wr).port ∧
    (1 : BitVec 2) ≠ 0 ∧
    (tallyUnit w_tallyRelease_s (1 : BitVec 2).toNat).owner = ownerOf (⟨.host, 15, none⟩ : Wr).port ∧
    tallyBusy (tallyUnit w_tallyRelease_s (1 : BitVec 2).toNat) = false ∧
    w_tallyRelease_s.tally.claimHost = none ∧
    w_tallyRelease_s.tally.claimBm = none ∧
    w_tallyRelease_s.tally.claimFw = none ∧
    nextSat (exec (.tallyRelease (⟨.host, 15, none⟩ : Wr) (1 : BitVec 2) (1 : BitVec 8)) w_tallyRelease_s)
      (fun t => decide ((tallyUnit t (1 : BitVec 2).toNat).owner = .none) &&
      decide (claimTag t (⟨.host, 15, none⟩ : Wr).port = (1 : BitVec 8))) = true) :=
  ⟨⟨by decide, by decide, by decide, by decide, by decide⟩, by decide +kernel⟩

theorem test_tallyRelease_more :
    (Performs (⟨.host, 15, none⟩ : Wr) 0x9000 w_tallyRelease_s_2 ∧
    ((1 : BitVec 8) ≠ claimTag w_tallyRelease_s_2 (⟨.host, 15, none⟩ : Wr).port ∧
    (1 : BitVec 2) ≠ 0 ∧
    (tallyUnit w_tallyRelease_s_2 (1 : BitVec 2).toNat).owner = ownerOf (⟨.host, 15, none⟩ : Wr).port ∧
    tallyBusy (tallyUnit w_tallyRelease_s_2 (1 : BitVec 2).toNat) = true ∧
    nextSat (exec (.tallyRelease (⟨.host, 15, none⟩ : Wr) (1 : BitVec 2) (1 : BitVec 8)) w_tallyRelease_s_2)
      (fun t => decide ((tallyUnit t (1 : BitVec 2).toNat).owner = (tallyUnit w_tallyRelease_s_2 (1 : BitVec 2).toNat).owner) &&
      decide ((tallyUnit t (1 : BitVec 2).toNat).releasing = true) &&
      decide (claimTag t (⟨.host, 15, none⟩ : Wr).port = (1 : BitVec 8))) = true)) :=
  ⟨⟨by decide, by decide, by decide, by decide, by decide⟩, by decide +kernel⟩

theorem test_claimTimeout :
    claimOf w_claimTimeout_s (.bm : Port) = some (⟨1, 0⟩ : Claim) ∧
    (⟨1, 0⟩ : Claim).since + 64 ≤ w_claimTimeout_s.time.slowEdges ∧
    nextSat (exec (.claimTimeout (.bm : Port)) w_claimTimeout_s)
      (fun t => decide (claimOf t (.bm : Port) = none) && decide (Flagged t .tally 6)) = true :=
  by decide +kernel

theorem test_tallyArm :
    Performs (⟨.host, 15, none⟩ : Wr) ((tallyAddr (0 : BitVec 2).toNat 0x30)) w_tallyArm_s ∧
    ((tallyUnit w_tallyArm_s (0 : BitVec 2).toNat).owner = ownerOf (⟨.host, 15, none⟩ : Wr).port ∧
    (1 : BitVec 8) ≠ (tallyUnit w_tallyArm_s (0 : BitVec 2).toNat).tag ∧
    ((0 : BitVec 2) ≠ 0 ∨ (calTakesUnit0 w_tallyArm_s = false ∧
      unit0Taken w_tallyArm_s (armFrom w_tallyArm_s 0) (armFrom w_tallyArm_s 0 + armSpan w_tallyArm_s 0) = false)) ∧
    tallyBusy (tallyUnit w_tallyArm_s (0 : BitVec 2).toNat) = false ∧
    (tallyUnit w_tallyArm_s (0 : BitVec 2).toNat).phaseCal = none ∧
    tallyCfgOk w_tallyArm_s (0 : BitVec 2).toNat = true ∧
    tGate w_tallyArm_s (0 : BitVec 2).toNat ≠ 1 ∧
    refGone w_tallyArm_s = false ∧
    nextSat (exec (.tallyArm (⟨.host, 15, none⟩ : Wr) (0 : BitVec 2) (1 : BitVec 8) (⟨0, 0⟩ : RingPos) (⟨⟨80, 0⟩, ⟨160, 0⟩⟩ : CalEnds)) w_tallyArm_s)
      (fun t => decide ((tallyUnit t (0 : BitVec 2).toNat).state = .calibrating) &&
      decide ((tallyUnit t (0 : BitVec 2).toNat).gain = calOf (calR1 ⟨(⟨0, 0⟩ : RingPos), (⟨⟨80, 0⟩, ⟨160, 0⟩⟩ : CalEnds)⟩) (calR2 ⟨(⟨0, 0⟩ : RingPos), (⟨⟨80, 0⟩, ⟨160, 0⟩⟩ : CalEnds)⟩)) &&
      decide ((calOf (calR1 ⟨(⟨0, 0⟩ : RingPos), (⟨⟨80, 0⟩, ⟨160, 0⟩⟩ : CalEnds)⟩) (calR2 ⟨(⟨0, 0⟩ : RingPos), (⟨⟨80, 0⟩, ⟨160, 0⟩⟩ : CalEnds)⟩) = none →
      Flagged t .tally 4)) && decide ((tallyUnit t (0 : BitVec 2).toNat).calRead = true) &&
      decide ((tallyUnit t (0 : BitVec 2).toNat).calAt = elapsed w_tallyArm_s) &&
      decide ((tallyUnit t (0 : BitVec 2).toNat).rep = 0) &&
      decide ((tallyUnit t (0 : BitVec 2).toNat).r1 = calR1 ⟨(⟨0, 0⟩ : RingPos), (⟨⟨80, 0⟩, ⟨160, 0⟩⟩ : CalEnds)⟩ ∧
      (tallyUnit t (0 : BitVec 2).toNat).r2 = calR2 ⟨(⟨0, 0⟩ : RingPos), (⟨⟨80, 0⟩, ⟨160, 0⟩⟩ : CalEnds)⟩) &&
      decide ((tallyUnit t (0 : BitVec 2).toNat).tag = (1 : BitVec 8)) &&
      decide ((tallyUnit t (0 : BitVec 2).toNat).rej = 0)) = true) :=
  ⟨⟨by decide, by decide, by decide, by decide, by decide⟩, by decide +kernel⟩

theorem test_tallyArm_more :
    (Performs (⟨.host, 15, none⟩ : Wr) ((tallyAddr (0 : BitVec 2).toNat 0x30)) w_tallyArm_s_2 ∧
    ((tallyUnit w_tallyArm_s_2 (0 : BitVec 2).toNat).owner = ownerOf (⟨.host, 15, none⟩ : Wr).port ∧
    (1 : BitVec 8) ≠ (tallyUnit w_tallyArm_s_2 (0 : BitVec 2).toNat).tag ∧
    ((0 : BitVec 2) ≠ 0 ∨ (calTakesUnit0 w_tallyArm_s_2 = false ∧
      unit0Taken w_tallyArm_s_2 (armFrom w_tallyArm_s_2 0) (armFrom w_tallyArm_s_2 0 + armSpan w_tallyArm_s_2 0) = false)) ∧
    tallyBusy (tallyUnit w_tallyArm_s_2 (0 : BitVec 2).toNat) = false ∧
    (tallyUnit w_tallyArm_s_2 (0 : BitVec 2).toNat).phaseCal = none ∧
    tallyCfgOk w_tallyArm_s_2 (0 : BitVec 2).toNat = true ∧
    tGate w_tallyArm_s_2 (0 : BitVec 2).toNat = 1 ∧
    w_tallyArm_s_2.time.counter + 32 ≤ tAt w_tallyArm_s_2 (0 : BitVec 2).toNat ∧
    refGone w_tallyArm_s_2 = false ∧
    nextSat (exec (.tallyArm (⟨.host, 15, none⟩ : Wr) (0 : BitVec 2) (1 : BitVec 8) (⟨0, 0⟩ : RingPos) (⟨⟨80, 0⟩, ⟨160, 0⟩⟩ : CalEnds)) w_tallyArm_s_2)
      (fun t => decide ((tallyUnit t (0 : BitVec 2).toNat).state = .waiting) &&
      decide ((tallyUnit t (0 : BitVec 2).toNat).rep = 0) && decide ((tallyUnit t (0 : BitVec 2).toNat).gain = none) &&
      decide ((tallyUnit t (0 : BitVec 2).toNat).calRead = false) &&
      decide ((tallyUnit t (0 : BitVec 2).toNat).tag = (1 : BitVec 8)) &&
      decide ((tallyUnit t (0 : BitVec 2).toNat).rej = 0)) = true)) ∧
    (Performs (⟨.host, 15, none⟩ : Wr) ((tallyAddr (0 : BitVec 2).toNat 0x30)) tUp ∧
    ((tallyUnit tUp (0 : BitVec 2).toNat).owner ≠ ownerOf (⟨.host, 15, none⟩ : Wr).port ∧
    (1 : BitVec 8) ≠ (tallyUnit tUp (0 : BitVec 2).toNat).tag ∧
    nextSat (exec (.tallyArm (⟨.host, 15, none⟩ : Wr) (0 : BitVec 2) (1 : BitVec 8) (⟨0, 0⟩ : RingPos) (⟨⟨80, 0⟩, ⟨160, 0⟩⟩ : CalEnds)) tUp)
      (fun t => decide ((tallyUnit t (0 : BitVec 2).toNat).state = (tallyUnit tUp (0 : BitVec 2).toNat).state) &&
      decide (Flagged t .tally 5) && decide ((tallyUnit t (0 : BitVec 2).toNat).tag = (1 : BitVec 8)) &&
      decide ((tallyUnit t (0 : BitVec 2).toNat).rej = 1)) = true)) ∧
    (Performs (⟨.host, 15, none⟩ : Wr) ((tallyAddr (0 : BitVec 2).toNat 0x30)) tUp ∧
    ((tallyUnit tUp (0 : BitVec 2).toNat).owner ≠ ownerOf (⟨.host, 15, none⟩ : Wr).port ∧
    (0 : BitVec 8) = (tallyUnit tUp (0 : BitVec 2).toNat).tag ∧
    nextSat (exec (.tallyArm (⟨.host, 15, none⟩ : Wr) (0 : BitVec 2) (0 : BitVec 8) (⟨0, 0⟩ : RingPos) (⟨⟨80, 0⟩, ⟨160, 0⟩⟩ : CalEnds)) tUp)
      (fun t => decide ((tallyUnit t (0 : BitVec 2).toNat) = (tallyUnit tUp (0 : BitVec 2).toNat)) &&
      decide (Flagged t .tally 5)) = true)) ∧
    (Performs (⟨.host, 15, none⟩ : Wr) ((tallyAddr (0 : BitVec 2).toNat 0x30)) w_tallyArm_s_5 ∧
    ((tallyUnit w_tallyArm_s_5 (0 : BitVec 2).toNat).owner = ownerOf (⟨.host, 15, none⟩ : Wr).port ∧
    (1 : BitVec 8) ≠ (tallyUnit w_tallyArm_s_5 (0 : BitVec 2).toNat).tag ∧
    ((0 : BitVec 2) ≠ 0 ∨ (calTakesUnit0 w_tallyArm_s_5 = false ∧
      unit0Taken w_tallyArm_s_5 (armFrom w_tallyArm_s_5 0) (armFrom w_tallyArm_s_5 0 + armSpan w_tallyArm_s_5 0) = false)) ∧
    (tallyBusy (tallyUnit w_tallyArm_s_5 (0 : BitVec 2).toNat) = true ∨ (tallyUnit w_tallyArm_s_5 (0 : BitVec 2).toNat).phaseCal.isSome = true) ∧
    nextSat (exec (.tallyArm (⟨.host, 15, none⟩ : Wr) (0 : BitVec 2) (1 : BitVec 8) (⟨0, 0⟩ : RingPos) (⟨⟨80, 0⟩, ⟨160, 0⟩⟩ : CalEnds)) w_tallyArm_s_5)
      (fun t => decide ((tallyUnit t (0 : BitVec 2).toNat).state = (tallyUnit w_tallyArm_s_5 (0 : BitVec 2).toNat).state) &&
      decide ((tallyUnit t (0 : BitVec 2).toNat).tag = (1 : BitVec 8)) &&
      decide ((tallyUnit t (0 : BitVec 2).toNat).rej = 2)) = true)) ∧
    (Performs (⟨.host, 15, none⟩ : Wr) ((tallyAddr (0 : BitVec 2).toNat 0x30)) w_tallyArm_s_6 ∧
    ((tallyUnit w_tallyArm_s_6 (0 : BitVec 2).toNat).owner = ownerOf (⟨.host, 15, none⟩ : Wr).port ∧
    (1 : BitVec 8) ≠ (tallyUnit w_tallyArm_s_6 (0 : BitVec 2).toNat).tag ∧
    ((0 : BitVec 2) ≠ 0 ∨ (calTakesUnit0 w_tallyArm_s_6 = false ∧
      unit0Taken w_tallyArm_s_6 (armFrom w_tallyArm_s_6 0) (armFrom w_tallyArm_s_6 0 + armSpan w_tallyArm_s_6 0) = false)) ∧
    tallyBusy (tallyUnit w_tallyArm_s_6 (0 : BitVec 2).toNat) = false ∧
    (tallyUnit w_tallyArm_s_6 (0 : BitVec 2).toNat).phaseCal = none ∧
    tallyCfgOk w_tallyArm_s_6 (0 : BitVec 2).toNat = false ∧
    nextSat (exec (.tallyArm (⟨.host, 15, none⟩ : Wr) (0 : BitVec 2) (1 : BitVec 8) (⟨0, 0⟩ : RingPos) (⟨⟨80, 0⟩, ⟨160, 0⟩⟩ : CalEnds)) w_tallyArm_s_6)
      (fun t => decide ((tallyUnit t (0 : BitVec 2).toNat).state = (tallyUnit w_tallyArm_s_6 (0 : BitVec 2).toNat).state) &&
      decide ((tallyUnit t (0 : BitVec 2).toNat).tag = (1 : BitVec 8)) &&
      decide ((tallyUnit t (0 : BitVec 2).toNat).rej = 3)) = true)) ∧
    (Performs (⟨.host, 15, none⟩ : Wr) ((tallyAddr (0 : BitVec 2).toNat 0x30)) w_tallyArm_s_7 ∧
    ((tallyUnit w_tallyArm_s_7 (0 : BitVec 2).toNat).owner = ownerOf (⟨.host, 15, none⟩ : Wr).port ∧
    (1 : BitVec 8) ≠ (tallyUnit w_tallyArm_s_7 (0 : BitVec 2).toNat).tag ∧
    ((0 : BitVec 2) ≠ 0 ∨ (calTakesUnit0 w_tallyArm_s_7 = false ∧
      unit0Taken w_tallyArm_s_7 (armFrom w_tallyArm_s_7 0) (armFrom w_tallyArm_s_7 0 + armSpan w_tallyArm_s_7 0) = false)) ∧
    tallyBusy (tallyUnit w_tallyArm_s_7 (0 : BitVec 2).toNat) = false ∧
    (tallyUnit w_tallyArm_s_7 (0 : BitVec 2).toNat).phaseCal = none ∧
    tallyCfgOk w_tallyArm_s_7 (0 : BitVec 2).toNat = true ∧
    tGate w_tallyArm_s_7 (0 : BitVec 2).toNat = 1 ∧
    tAt w_tallyArm_s_7 (0 : BitVec 2).toNat < w_tallyArm_s_7.time.counter + 32 ∧
    nextSat (exec (.tallyArm (⟨.host, 15, none⟩ : Wr) (0 : BitVec 2) (1 : BitVec 8) (⟨0, 0⟩ : RingPos) (⟨⟨80, 0⟩, ⟨160, 0⟩⟩ : CalEnds)) w_tallyArm_s_7)
      (fun t => decide ((tallyUnit t (0 : BitVec 2).toNat).state = (tallyUnit w_tallyArm_s_7 (0 : BitVec 2).toNat).state) &&
      decide ((tallyUnit t (0 : BitVec 2).toNat).tag = (1 : BitVec 8)) &&
      decide ((tallyUnit t (0 : BitVec 2).toNat).rej = 4)) = true)) ∧
    (Performs (⟨.host, 15, none⟩ : Wr) ((tallyAddr (0 : BitVec 2).toNat 0x30)) w_tallyArm_s_8 ∧
    ((tallyUnit w_tallyArm_s_8 (0 : BitVec 2).toNat).owner = ownerOf (⟨.host, 15, none⟩ : Wr).port ∧
    (1 : BitVec 8) ≠ (tallyUnit w_tallyArm_s_8 (0 : BitVec 2).toNat).tag ∧
    (0 : BitVec 2) = 0 ∧
    (calTakesUnit0 w_tallyArm_s_8 = true ∨ unit0Taken w_tallyArm_s_8 (armFrom w_tallyArm_s_8 0) (armFrom w_tallyArm_s_8 0 + armSpan w_tallyArm_s_8 0) = true) ∧
    nextSat (exec (.tallyArm (⟨.host, 15, none⟩ : Wr) (0 : BitVec 2) (1 : BitVec 8) (⟨0, 0⟩ : RingPos) (⟨⟨80, 0⟩, ⟨160, 0⟩⟩ : CalEnds)) w_tallyArm_s_8)
      (fun t => decide (t.tally = w_tallyArm_s_8.tally)) = true)) :=
  ⟨⟨⟨by decide, by decide, by decide, by decide, by decide⟩, by decide +kernel⟩,
   ⟨⟨by decide, by decide, by decide, by decide, by decide⟩, by decide +kernel⟩,
   ⟨⟨by decide, by decide, by decide, by decide, by decide⟩, by decide +kernel⟩,
   ⟨⟨by decide, by decide, by decide, by decide, by decide⟩, by decide +kernel⟩,
   ⟨⟨by decide, by decide, by decide, by decide, by decide⟩, by decide +kernel⟩,
   ⟨⟨by decide, by decide, by decide, by decide, by decide⟩, by decide +kernel⟩,
   ⟨⟨by decide, by decide, by decide, by decide, by decide⟩, by decide +kernel⟩⟩

theorem test_tallyAbort :
    Performs (⟨.host, 15, none⟩ : Wr) ((tallyAddr (0 : BitVec 2).toNat 0x30)) w_tallyAbort_s ∧
    ((tallyUnit w_tallyAbort_s (0 : BitVec 2).toNat).owner = ownerOf (⟨.host, 15, none⟩ : Wr).port ∧
    (1 : BitVec 8) ≠ (tallyUnit w_tallyAbort_s (0 : BitVec 2).toNat).tag ∧
    tallyBusy (tallyUnit w_tallyAbort_s (0 : BitVec 2).toNat) = true ∧
    nextSat (exec (.tallyAbort (⟨.host, 15, none⟩ : Wr) (0 : BitVec 2) (1 : BitVec 8)) w_tallyAbort_s)
      (fun t => decide ((tallyUnit t (0 : BitVec 2).toNat).state = .done) &&
      decide ((tallyUnit t (0 : BitVec 2).toNat).rep = (tallyUnit w_tallyAbort_s (0 : BitVec 2).toNat).rep) &&
      decide (tabGet (tallyUnit t (0 : BitVec 2).toNat).buf 0 0 = resultWord 4 0) &&
      decide ((tallyUnit t (0 : BitVec 2).toNat).tag = (1 : BitVec 8)) &&
      decide ((tallyUnit t (0 : BitVec 2).toNat).rej = 0)) = true) :=
  ⟨⟨by decide, by decide, by decide, by decide, by decide⟩, by decide +kernel⟩

theorem test_tallyAbort_more :
    (Performs (⟨.host, 15, none⟩ : Wr) ((tallyAddr (0 : BitVec 2).toNat 0x30)) w_tallyAbort_s_2 ∧
    ((tallyUnit w_tallyAbort_s_2 (0 : BitVec 2).toNat).owner = ownerOf (⟨.host, 15, none⟩ : Wr).port ∧
    (1 : BitVec 8) ≠ (tallyUnit w_tallyAbort_s_2 (0 : BitVec 2).toNat).tag ∧
    tallyBusy (tallyUnit w_tallyAbort_s_2 (0 : BitVec 2).toNat) = false ∧
    nextSat (exec (.tallyAbort (⟨.host, 15, none⟩ : Wr) (0 : BitVec 2) (1 : BitVec 8)) w_tallyAbort_s_2)
      (fun t => decide ((tallyUnit t (0 : BitVec 2).toNat).state = (tallyUnit w_tallyAbort_s_2 (0 : BitVec 2).toNat).state) &&
      decide ((tallyUnit t (0 : BitVec 2).toNat).tag = (1 : BitVec 8)) &&
      decide ((tallyUnit t (0 : BitVec 2).toNat).rej = 0)) = true)) :=
  ⟨⟨by decide, by decide, by decide, by decide, by decide⟩, by decide +kernel⟩

theorem test_tallyCalRefresh :
    refGone w_tallyCalRefresh_s = false ∧
    ((tallyUnit w_tallyCalRefresh_s (0 : BitVec 2).toNat).state = .waiting ∨ (tallyUnit w_tallyCalRefresh_s (0 : BitVec 2).toNat).state = .calibrating) ∧
    nextCalAt w_tallyCalRefresh_s (0 : BitVec 2).toNat = some (3 : Nat) ∧
    calEnd (3 : Nat) ≤ elapsed w_tallyCalRefresh_s ∧
    (calOf (calR1 ⟨(⟨0, 0⟩ : RingPos), (⟨⟨80, 0⟩, ⟨160, 0⟩⟩ : CalEnds)⟩) (calR2 ⟨(⟨0, 0⟩ : RingPos), (⟨⟨80, 0⟩, ⟨160, 0⟩⟩ : CalEnds)⟩)).isSome = true ∧
    nextSat (exec (.tallyCalRefresh (0 : BitVec 2) (⟨0, 0⟩ : RingPos) (⟨⟨80, 0⟩, ⟨160, 0⟩⟩ : CalEnds)) w_tallyCalRefresh_s)
      (fun t => decide ((tallyUnit t (0 : BitVec 2).toNat).state = (tallyUnit w_tallyCalRefresh_s (0 : BitVec 2).toNat).state) &&
      decide ((tallyUnit t (0 : BitVec 2).toNat).r1 = calR1 ⟨(⟨0, 0⟩ : RingPos), (⟨⟨80, 0⟩, ⟨160, 0⟩⟩ : CalEnds)⟩ ∧
      (tallyUnit t (0 : BitVec 2).toNat).r2 = calR2 ⟨(⟨0, 0⟩ : RingPos), (⟨⟨80, 0⟩, ⟨160, 0⟩⟩ : CalEnds)⟩) &&
      decide ((tallyUnit t (0 : BitVec 2).toNat).calRead = true) &&
      decide ((tallyUnit t (0 : BitVec 2).toNat).calAt = (3 : Nat)) &&
      decide ((tallyUnit t (0 : BitVec 2).toNat).gain = (calOf (calR1 ⟨(⟨0, 0⟩ : RingPos), (⟨⟨80, 0⟩, ⟨160, 0⟩⟩ : CalEnds)⟩) (calR2 ⟨(⟨0, 0⟩ : RingPos), (⟨⟨80, 0⟩, ⟨160, 0⟩⟩ : CalEnds)⟩)))) = true :=
  by decide +kernel

theorem test_tallyCalRefresh_more :
    (refGone w_tallyCalRefresh_s_2 = false ∧
    ((tallyUnit w_tallyCalRefresh_s_2 (0 : BitVec 2).toNat).state = .waiting ∨ (tallyUnit w_tallyCalRefresh_s_2 (0 : BitVec 2).toNat).state = .calibrating) ∧
    nextCalAt w_tallyCalRefresh_s_2 (0 : BitVec 2).toNat = some (3 : Nat) ∧
    calEnd (3 : Nat) ≤ elapsed w_tallyCalRefresh_s_2 ∧
    (calOf (calR1 ⟨(⟨0, 0⟩ : RingPos), (⟨⟨80, 0⟩, ⟨10, 0⟩⟩ : CalEnds)⟩) (calR2 ⟨(⟨0, 0⟩ : RingPos), (⟨⟨80, 0⟩, ⟨10, 0⟩⟩ : CalEnds)⟩)) = none ∧
    (tGate w_tallyCalRefresh_s_2 (0 : BitVec 2).toNat ≠ 2 ∨ (tallyUnit w_tallyCalRefresh_s_2 (0 : BitVec 2).toNat).state = .waiting ∨ (tallyUnit w_tallyCalRefresh_s_2 (0 : BitVec 2).toNat).refLost = true) ∧
    nextSat (exec (.tallyCalRefresh (0 : BitVec 2) (⟨0, 0⟩ : RingPos) (⟨⟨80, 0⟩, ⟨10, 0⟩⟩ : CalEnds)) w_tallyCalRefresh_s_2)
      (fun t => decide ((tallyUnit t (0 : BitVec 2).toNat).state = (tallyUnit w_tallyCalRefresh_s_2 (0 : BitVec 2).toNat).state) &&
      decide ((tallyUnit t (0 : BitVec 2).toNat).r1 = calR1 ⟨(⟨0, 0⟩ : RingPos), (⟨⟨80, 0⟩, ⟨10, 0⟩⟩ : CalEnds)⟩ ∧
      (tallyUnit t (0 : BitVec 2).toNat).r2 = calR2 ⟨(⟨0, 0⟩ : RingPos), (⟨⟨80, 0⟩, ⟨10, 0⟩⟩ : CalEnds)⟩) &&
      decide ((tallyUnit t (0 : BitVec 2).toNat).calRead = true) &&
      decide ((tallyUnit t (0 : BitVec 2).toNat).gain = none) && decide (Flagged t .tally 4)) = true) ∧
    (refGone w_tallyCalRefresh_s_3 = false ∧
    ((tallyUnit w_tallyCalRefresh_s_3 (0 : BitVec 2).toNat).state = .waiting ∨ (tallyUnit w_tallyCalRefresh_s_3 (0 : BitVec 2).toNat).state = .calibrating) ∧
    nextCalAt w_tallyCalRefresh_s_3 (0 : BitVec 2).toNat = some (3 : Nat) ∧
    calEnd (3 : Nat) ≤ elapsed w_tallyCalRefresh_s_3 ∧
    (calOf (calR1 ⟨(⟨0, 0⟩ : RingPos), (⟨⟨80, 0⟩, ⟨10, 0⟩⟩ : CalEnds)⟩) (calR2 ⟨(⟨0, 0⟩ : RingPos), (⟨⟨80, 0⟩, ⟨10, 0⟩⟩ : CalEnds)⟩)) = none ∧
    tGate w_tallyCalRefresh_s_3 (0 : BitVec 2).toNat = 2 ∧
    (tallyUnit w_tallyCalRefresh_s_3 (0 : BitVec 2).toNat).state = .calibrating ∧
    (tallyUnit w_tallyCalRefresh_s_3 (0 : BitVec 2).toNat).refLost = false ∧
    tRepeats w_tallyCalRefresh_s_3 (0 : BitVec 2).toNat ≤ (tallyUnit w_tallyCalRefresh_s_3 (0 : BitVec 2).toNat).rep + 1 ∧
    nextSat (exec (.tallyCalRefresh (0 : BitVec 2) (⟨0, 0⟩ : RingPos) (⟨⟨80, 0⟩, ⟨10, 0⟩⟩ : CalEnds)) w_tallyCalRefresh_s_3)
      (fun t => decide ((tallyUnit t (0 : BitVec 2).toNat).state = .done) &&
      decide (tabGet (tallyUnit t (0 : BitVec 2).toNat).buf 0 0 = resultWord 3 0) &&
      decide (Flagged t .tally (0 : BitVec 2).toNat)) = true) ∧
    (refGone w_tallyCalRefresh_s_4 = true ∧
    (tallyUnit w_tallyCalRefresh_s_4 (0 : BitVec 2).toNat).state = .calibrating ∧
    (tallyUnit w_tallyCalRefresh_s_4 (0 : BitVec 2).toNat).calRead = false ∧
    tRepeats w_tallyCalRefresh_s_4 (0 : BitVec 2).toNat ≤ (tallyUnit w_tallyCalRefresh_s_4 (0 : BitVec 2).toNat).rep + 1 ∧
    nextSat (exec (.tallyCalRefresh (0 : BitVec 2) (⟨0, 0⟩ : RingPos) (⟨⟨80, 0⟩, ⟨160, 0⟩⟩ : CalEnds)) w_tallyCalRefresh_s_4)
      (fun t => decide ((tallyUnit t (0 : BitVec 2).toNat).state = .done) && decide (Flagged t .tally 7) &&
      decide (Flagged t .tally (0 : BitVec 2).toNat) &&
      decide (tabGet (tallyUnit t (0 : BitVec 2).toNat).buf 0 0 = resultWord 6 0)) = true) :=
  ⟨by decide +kernel, by decide +kernel, by decide +kernel⟩

theorem test_tallyGateOpen :
    gateDue w_tallyGateOpen_s (⟨0, ⟨0, 0⟩⟩ : RingGate).unit.toNat = true ∧
    ((tallyUnit w_tallyGateOpen_s (⟨0, ⟨0, 0⟩⟩ : RingGate).unit.toNat).gain.isSome = true ∨ (tallyUnit w_tallyGateOpen_s (⟨0, ⟨0, 0⟩⟩ : RingGate).unit.toNat).refLost = true) ∧
    nextSat (exec (.tallyGateOpen (⟨0, ⟨0, 0⟩⟩ : RingGate)) w_tallyGateOpen_s)
      (fun t => decide ((tallyUnit t (⟨0, ⟨0, 0⟩⟩ : RingGate).unit.toNat).state = .measuring) &&
      decide ((tallyUnit t (⟨0, ⟨0, 0⟩⟩ : RingGate).unit.toNat).gateOpen = true) &&
      decide ((tallyUnit t (⟨0, ⟨0, 0⟩⟩ : RingGate).unit.toNat).openedAt = w_tallyGateOpen_s.time.total) &&
      decide ((tallyUnit t (⟨0, ⟨0, 0⟩⟩ : RingGate).unit.toNat).startPos = ringSteps (⟨0, ⟨0, 0⟩⟩ : RingGate).pos) &&
      decide ((tallyUnit t (⟨0, ⟨0, 0⟩⟩ : RingGate).unit.toNat).started = decide (fld (tStart w_tallyGateOpen_s (⟨0, ⟨0, 0⟩⟩ : RingGate).unit.toNat) 0 6 = 20)) &&
      decide ((tallyUnit t (⟨0, ⟨0, 0⟩⟩ : RingGate).unit.toNat).stops = [])) = true :=
  by decide +kernel

theorem test_tallyGateOpen_more :
    gateDue w_tallyGateOpen_s_2 (⟨0, ⟨0, 0⟩⟩ : RingGate).unit.toNat = true ∧
    (tallyUnit w_tallyGateOpen_s_2 (⟨0, ⟨0, 0⟩⟩ : RingGate).unit.toNat).gain = none ∧
    (tallyUnit w_tallyGateOpen_s_2 (⟨0, ⟨0, 0⟩⟩ : RingGate).unit.toNat).refLost = false ∧
    nextSat (exec (.tallyGateOpen (⟨0, ⟨0, 0⟩⟩ : RingGate)) w_tallyGateOpen_s_2)
      (fun t => decide (tabGet (tallyUnit t (⟨0, ⟨0, 0⟩⟩ : RingGate).unit.toNat).buf 0 0 = resultWord 3 0)) = true :=
  by decide +kernel

theorem test_tallyStartEdge :
    windowOpen w_tallyStartEdge_s (⟨0, ⟨1, 0, false⟩, ⟨0, 0⟩⟩ : RingEdge).unit.toNat = true ∧
    (tallyUnit w_tallyStartEdge_s (⟨0, ⟨1, 0, false⟩, ⟨0, 0⟩⟩ : RingEdge).unit.toNat).started = false ∧
    chosenEdge w_tallyStartEdge_s (tStart w_tallyStartEdge_s (⟨0, ⟨1, 0, false⟩, ⟨0, 0⟩⟩ : RingEdge).unit.toNat) (⟨0, ⟨1, 0, false⟩, ⟨0, 0⟩⟩ : RingEdge).tap = true ∧
    nextSat (exec (.tallyStartEdge (⟨0, ⟨1, 0, false⟩, ⟨0, 0⟩⟩ : RingEdge)) w_tallyStartEdge_s)
      (fun t => decide ((tallyUnit t (⟨0, ⟨1, 0, false⟩, ⟨0, 0⟩⟩ : RingEdge).unit.toNat).startCount = (tallyUnit w_tallyStartEdge_s (⟨0, ⟨1, 0, false⟩, ⟨0, 0⟩⟩ : RingEdge).unit.toNat).startCount + 1) &&
      decide ((tallyUnit t (⟨0, ⟨1, 0, false⟩, ⟨0, 0⟩⟩ : RingEdge).unit.toNat).started = decide (((tallyUnit w_tallyStartEdge_s (⟨0, ⟨1, 0, false⟩, ⟨0, 0⟩⟩ : RingEdge).unit.toNat).startCount + 1) % prescale (tStart w_tallyStartEdge_s (⟨0, ⟨1, 0, false⟩, ⟨0, 0⟩⟩ : RingEdge).unit.toNat) = 0)) &&
      decide ((tallyUnit t (⟨0, ⟨1, 0, false⟩, ⟨0, 0⟩⟩ : RingEdge).unit.toNat).startPos = ringSteps (⟨0, ⟨1, 0, false⟩, ⟨0, 0⟩⟩ : RingEdge).pos) &&
      decide ((tallyUnit t (⟨0, ⟨1, 0, false⟩, ⟨0, 0⟩⟩ : RingEdge).unit.toNat).state = .measuring)) = true :=
  by decide +kernel

theorem test_tallyStopEdge :
    windowOpen w_tallyStopEdge_s (0 : BitVec 2).toNat = true ∧
    (tallyUnit w_tallyStopEdge_s (0 : BitVec 2).toNat).started = true ∧
    (tallyUnit w_tallyStopEdge_s (0 : BitVec 2).toNat).startPos ≤ ringSteps (⟨7, 0⟩ : RingPos) + 1 ∧
    (0 : BitVec 3).toNat ∈ tStops w_tallyStopEdge_s (0 : BitVec 2).toNat ∧
    (∀ y ∈ (tallyUnit w_tallyStopEdge_s (0 : BitVec 2).toNat).stops, y.1 ≠ (0 : BitVec 3).toNat) ∧
    chosenEdge w_tallyStopEdge_s (tStop w_tallyStopEdge_s (0 : BitVec 2).toNat (0 : BitVec 3).toNat) (⟨1, 0, false⟩ : TapEdge) = true ∧
    ((stopCh (tallyUnit w_tallyStopEdge_s (0 : BitVec 2).toNat) (0 : BitVec 3).toNat).count + 1) % prescale (tStop w_tallyStopEdge_s (0 : BitVec 2).toNat (0 : BitVec 3).toNat) = 0 ∧
    (stopCh (tallyUnit w_tallyStopEdge_s (0 : BitVec 2).toNat) (0 : BitVec 3).toNat).last.any (fun p => decide (ringSteps (⟨7, 0⟩ : RingPos) - p < 64)) = false ∧
    ((stopCh (tallyUnit w_tallyStopEdge_s (0 : BitVec 2).toNat) (0 : BitVec 3).toNat).count + 1) / prescale (tStop w_tallyStopEdge_s (0 : BitVec 2).toNat (0 : BitVec 3).toNat) = fld (tStop w_tallyStopEdge_s (0 : BitVec 2).toNat (0 : BitVec 3).toNat) 24 6 ∧
    (tallyUnit w_tallyStopEdge_s (0 : BitVec 2).toNat).gain = some ((1280, 0) : Int × Int) ∧
    nextSat (exec (.tallyStopEdge (0 : BitVec 2) (0 : BitVec 3) (⟨1, 0, false⟩ : TapEdge) (⟨7, 0⟩ : RingPos)) w_tallyStopEdge_s)
      (fun t => decide ((tallyUnit t (0 : BitVec 2).toNat).stops = (tallyUnit w_tallyStopEdge_s (0 : BitVec 2).toNat).stops ++ [((0 : BitVec 3).toNat, resultWord 0 (correct ((1280, 0) : Int × Int) (ringSteps (⟨7, 0⟩ : RingPos) - (tallyUnit w_tallyStopEdge_s (0 : BitVec 2).toNat).startPos)))]) &&
      decide ((tallyUnit t (0 : BitVec 2).toNat).lastAt = w_tallyStopEdge_s.time.total)) = true :=
  by decide +kernel

theorem test_tallyStopEdge_more :
    windowOpen w_tallyStopEdge_s_2 (0 : BitVec 2).toNat = true ∧
    (tallyUnit w_tallyStopEdge_s_2 (0 : BitVec 2).toNat).started = true ∧
    (tallyUnit w_tallyStopEdge_s_2 (0 : BitVec 2).toNat).startPos ≤ ringSteps (⟨7, 0⟩ : RingPos) + 1 ∧
    (0 : BitVec 3).toNat ∈ tStops w_tallyStopEdge_s_2 (0 : BitVec 2).toNat ∧
    (∀ y ∈ (tallyUnit w_tallyStopEdge_s_2 (0 : BitVec 2).toNat).stops, y.1 ≠ (0 : BitVec 3).toNat) ∧
    chosenEdge w_tallyStopEdge_s_2 (tStop w_tallyStopEdge_s_2 (0 : BitVec 2).toNat (0 : BitVec 3).toNat) (⟨1, 0, false⟩ : TapEdge) = true ∧
    ((stopCh (tallyUnit w_tallyStopEdge_s_2 (0 : BitVec 2).toNat) (0 : BitVec 3).toNat).count + 1) % prescale (tStop w_tallyStopEdge_s_2 (0 : BitVec 2).toNat (0 : BitVec 3).toNat) = 0 ∧
    (stopCh (tallyUnit w_tallyStopEdge_s_2 (0 : BitVec 2).toNat) (0 : BitVec 3).toNat).last.any (fun p => decide (ringSteps (⟨7, 0⟩ : RingPos) - p < 64)) = true ∧
    nextSat (exec (.tallyStopEdge (0 : BitVec 2) (0 : BitVec 3) (⟨1, 0, false⟩ : TapEdge) (⟨7, 0⟩ : RingPos)) w_tallyStopEdge_s_2)
      (fun t => decide ((tallyUnit t (0 : BitVec 2).toNat).stops = (tallyUnit w_tallyStopEdge_s_2 (0 : BitVec 2).toNat).stops ++ [((0 : BitVec 3).toNat, resultWord 5 0)])) = true :=
  by decide +kernel

theorem test_tallyWindowClose :
    (tallyUnit w_tallyWindowClose_s (0 : BitVec 2).toNat).state = .measuring ∧
    (tallyUnit w_tallyWindowClose_s (0 : BitVec 2).toNat).refLost = false ∧
    resultsAt w_tallyWindowClose_s (0 : BitVec 2).toNat ≤ w_tallyWindowClose_s.time.total ∧
    tRepeats w_tallyWindowClose_s (0 : BitVec 2).toNat ≤ (tallyUnit w_tallyWindowClose_s (0 : BitVec 2).toNat).rep + 1 ∧
    nextSat (exec (.tallyWindowClose (0 : BitVec 2) (⟨0, 0⟩ : RingPos) (⟨⟨80, 0⟩, ⟨160, 0⟩⟩ : CalEnds)) w_tallyWindowClose_s)
      (fun t => decide ((tallyUnit t (0 : BitVec 2).toNat).state = .done) &&
      decide (Flagged t .tally (0 : BitVec 2).toNat) &&
      decide (tabGet (tallyUnit t (0 : BitVec 2).toNat).buf 0 0 = resultWord 0 77) &&
      decide (tabGet (tallyUnit t (0 : BitVec 2).toNat).res 0 0 = resultWord 0 77)) = true :=
  by decide +kernel

theorem test_tallyWindowClose_more :
    (tallyUnit w_tallyWindowClose_s_2 (0 : BitVec 2).toNat).state = .measuring ∧
    (tallyUnit w_tallyWindowClose_s_2 (0 : BitVec 2).toNat).refLost = false ∧
    resultsAt w_tallyWindowClose_s_2 (0 : BitVec 2).toNat ≤ w_tallyWindowClose_s_2.time.total ∧
    (tallyUnit w_tallyWindowClose_s_2 (0 : BitVec 2).toNat).rep + 1 < tRepeats w_tallyWindowClose_s_2 (0 : BitVec 2).toNat ∧
    refGone w_tallyWindowClose_s_2 = false ∧
    nextSat (exec (.tallyWindowClose (0 : BitVec 2) (⟨0, 0⟩ : RingPos) (⟨⟨80, 0⟩, ⟨160, 0⟩⟩ : CalEnds)) w_tallyWindowClose_s_2)
      (fun t => decide ((tallyUnit t (0 : BitVec 2).toNat).state = .calibrating) &&
      decide ((tallyUnit t (0 : BitVec 2).toNat).rep = (tallyUnit w_tallyWindowClose_s_2 (0 : BitVec 2).toNat).rep + 1) &&
      decide ((tallyUnit t (0 : BitVec 2).toNat).gain = calOf (calR1 ⟨(⟨0, 0⟩ : RingPos), (⟨⟨80, 0⟩, ⟨160, 0⟩⟩ : CalEnds)⟩) (calR2 ⟨(⟨0, 0⟩ : RingPos), (⟨⟨80, 0⟩, ⟨160, 0⟩⟩ : CalEnds)⟩)) &&
      decide ((calOf (calR1 ⟨(⟨0, 0⟩ : RingPos), (⟨⟨80, 0⟩, ⟨160, 0⟩⟩ : CalEnds)⟩) (calR2 ⟨(⟨0, 0⟩ : RingPos), (⟨⟨80, 0⟩, ⟨160, 0⟩⟩ : CalEnds)⟩) = none →
      Flagged t .tally 4)) && decide ((tallyUnit t (0 : BitVec 2).toNat).calAt = elapsed w_tallyWindowClose_s_2) &&
      decide (tabGet (tallyUnit t (0 : BitVec 2).toNat).buf 0 0 = resultWord 2 0)) = true :=
  by decide +kernel

theorem test_tempSample :
    (1 : Nat) < w_tempSample_s.build.flocks ∧
    w_tempSample_s.power.fabUp = true ∧
    w_tempSample_s.cal.tempAt.all (fun t0 => decide (t0 + 65536 ≤ elapsed w_tempSample_s)) = true ∧
    plausible (flockOf w_tempSample_s (1 : Nat)).tempPrev (100 : Int) = true ∧
    nextSat (exec (.tempSample [((1 : Nat), (100 : Int))] (0 : Int)) w_tempSample_s)
      (fun t => decide ((flockOf t (1 : Nat)).temp = (100 : Int)) &&
      decide ((flockOf t (1 : Nat)).tempPrev = some (100 : Int)) &&
      decide (t.cal.tempAt = some (elapsed w_tempSample_s)) && decide ((flockOf t (1 : Nat)).tempSeen = true) &&
      decide ((calMode w_tempSample_s = true →
      moved w_tempSample_s (100 : Int) (flockOf w_tempSample_s (1 : Nat)).tempLast = true →
      ∀ r ∈ ownRows (1 : Nat), isRegion w_tempSample_s r = true → (regionOf t r).due = true))) = true :=
  by decide +kernel

theorem test_tempSample_more :
    (tUp.cal.tempAt.all (fun t0 => decide (t0 + 65536 ≤ elapsed tUp)) = true ∧
    plausible tUp.cal.tempAoPrev (90 : Int) = true ∧
    nextSat (exec (.tempSample ([] : List (Nat × Int)) (90 : Int)) tUp)
      (fun t => decide (t.cal.tempAo = (90 : Int)) && decide (t.cal.tempAoPrev = some (90 : Int)) &&
      decide (t.cal.tempAoSeen = true) && decide ((calMode tUp = true → moved tUp (90 : Int) tUp.cal.tempAoLast = true →
      t.root.s0.due = true ∧ t.root.s1.due = true ∧ t.tally.u0.due = true ∧ t.tally.u1.due = true ∧
      t.tally.u2.due = true ∧ t.tally.u3.due = true))) = true) ∧
    (tUp.cal.tempAt.all (fun t0 => decide (t0 + 65536 ≤ elapsed tUp)) = true ∧
    plausible tUp.cal.tempAoPrev (900 : Int) = false ∧
    nextSat (exec (.tempSample ([] : List (Nat × Int)) (900 : Int)) tUp)
      (fun t => decide (t.cal.tempAo = tUp.cal.tempAo) && decide (t.cal.tempAoSeen = tUp.cal.tempAoSeen) &&
      decide (t.cal.tempAoPrev = some (900 : Int)) && decide (t.root = tUp.root)) = true) ∧
    (w_tempSample_s_4.cal.tempAt = some (0 : Nat) ∧
    elapsed w_tempSample_s_4 < (0 : Nat) + 65536 ∧
    nextSat (exec (.tempSample ([] : List (Nat × Int)) (9 : Int)) w_tempSample_s_4)
      (fun t => decide (t.cal = w_tempSample_s_4.cal) && decide (t.flocks = w_tempSample_s_4.flocks) &&
      decide (t.regions = w_tempSample_s_4.regions) && decide (t.root = w_tempSample_s_4.root)) = true) :=
  ⟨by decide +kernel, by decide +kernel, by decide +kernel⟩

theorem test_calFlockDue :
    Performs (⟨.host, 15, none⟩ : Wr) 0xA004 w_calFlockDue_s ∧
    ((1 : BitVec 8) ≠ w_calFlockDue_s.cal.tag ∧
    calMode w_calFlockDue_s = true ∧
    (1 : BitVec 9).toNat < w_calFlockDue_s.build.flocks ∧
    nextSat (exec (.calFlockDue (⟨.host, 15, none⟩ : Wr) (1 : BitVec 9) (1 : BitVec 8)) w_calFlockDue_s)
      (fun t => decide (∀ r ∈ ownRows (1 : BitVec 9).toNat, isRegion w_calFlockDue_s r = true →
      (regionOf t r).due = true) && decide (t.cal.tag = (1 : BitVec 8)) && decide (t.cal.rej = 0)) = true) :=
  ⟨⟨by decide, by decide, by decide, by decide, by decide⟩, by decide +kernel⟩

theorem test_calFlockDue_more :
    (Performs (⟨.host, 15, none⟩ : Wr) 0xA004 tUp ∧
    ((1 : BitVec 8) ≠ tUp.cal.tag ∧
    (calMode tUp = false ∨ tUp.build.flocks ≤ (300 : BitVec 9).toNat) ∧
    nextSat (exec (.calFlockDue (⟨.host, 15, none⟩ : Wr) (300 : BitVec 9) (1 : BitVec 8)) tUp)
      (fun t => decide (t.regions = tUp.regions) && decide (t.cal.tag = (1 : BitVec 8)) &&
      decide (t.cal.rej = if calMode tUp = false then 1 else 2)) = true)) :=
  ⟨⟨by decide, by decide, by decide, by decide, by decide⟩, by decide +kernel⟩

theorem test_calAllDue :
    Performs (⟨.host, 15, none⟩ : Wr) 0xA004 w_calAllDue_s ∧
    ((1 : BitVec 8) ≠ w_calAllDue_s.cal.tag ∧
    calMode w_calAllDue_s = true ∧
    nextSat (exec (.calAllDue (⟨.host, 15, none⟩ : Wr) (1 : BitVec 8)) w_calAllDue_s)
      (fun t => decide ((regionOf t 16).due = true) && decide (t.cal.tag = (1 : BitVec 8)) &&
      decide (t.cal.rej = 0)) = true) :=
  ⟨⟨by decide, by decide, by decide, by decide, by decide⟩, by decide +kernel⟩

theorem test_calAllDue_more :
    (Performs (⟨.host, 15, none⟩ : Wr) 0xA004 w_calAllDue_s_2 ∧
    ((1 : BitVec 8) ≠ w_calAllDue_s_2.cal.tag ∧
    calMode w_calAllDue_s_2 = false ∧
    nextSat (exec (.calAllDue (⟨.host, 15, none⟩ : Wr) (1 : BitVec 8)) w_calAllDue_s_2)
      (fun t => decide (t.regions = w_calAllDue_s_2.regions) && decide (t.cal.tag = (1 : BitVec 8)) &&
      decide (t.cal.rej = 1)) = true)) :=
  ⟨⟨by decide, by decide, by decide, by decide, by decide⟩, by decide +kernel⟩

theorem test_restore :
    Performs (⟨.host, 15, none⟩ : Wr) 0xA004 tStaged ∧
    ((1 : BitVec 8) ≠ tStaged.cal.tag ∧
    stagingOk tStaged = true) :=
  ⟨⟨by decide, by decide, by decide, by decide, by decide⟩, ⟨by decide, staged_ok⟩⟩

theorem test_restore_more :
    (Performs (⟨.host, 15, none⟩ : Wr) 0xA004 tUp ∧
    ((1 : BitVec 8) ≠ tUp.cal.tag ∧
    stagingOk tUp = false ∧
    nextSat (exec (.restore (⟨.host, 15, none⟩ : Wr) (1 : BitVec 8)) tUp)
      (fun t => decide (t.cal.restorePend = tUp.cal.restorePend) && decide (Flagged t .cal 6) &&
      decide (t.cal.tag = (1 : BitVec 8)) && decide (t.cal.rej = 3)) = true)) :=
  ⟨⟨by decide, by decide, by decide, by decide, by decide⟩, by decide +kernel⟩

theorem test_cancelRestore :
    Performs (⟨.host, 15, none⟩ : Wr) 0xA004 w_cancelRestore_s ∧
    ((1 : BitVec 8) ≠ w_cancelRestore_s.cal.tag ∧
    nextSat (exec (.cancelRestore (⟨.host, 15, none⟩ : Wr) (1 : BitVec 8)) w_cancelRestore_s)
      (fun t => decide (t.cal.restorePend = false) && decide (t.cal.tag = (1 : BitVec 8)) &&
      decide (t.cal.rej = 0)) = true) :=
  ⟨⟨by decide, by decide, by decide, by decide, by decide⟩, by decide +kernel⟩

theorem test_calInvalidOp :
    Performs (⟨.host, 15, none⟩ : Wr) 0xA004 tUp ∧
    ((1 : BitVec 8) ≠ tUp.cal.tag ∧
    5 ≤ (6 : BitVec 3).toNat ∧
    nextSat (exec (.calInvalidOp (⟨.host, 15, none⟩ : Wr) (6 : BitVec 3) (1 : BitVec 8)) tUp)
      (fun t => decide (t.cal.restorePend = tUp.cal.restorePend) && decide (t.regions = tUp.regions) &&
      decide (t.cal.tag = (1 : BitVec 8)) && decide (t.cal.rej = 4)) = true) :=
  ⟨⟨by decide, by decide, by decide, by decide, by decide⟩, by decide +kernel⟩

theorem test_bandgapTrimStep :
    w_bandgapTrimStep_s.cal.bandgapAt + 2 ^ 20 ≤ w_bandgapTrimStep_s.time.total ∧
    ((-300) : Int).natAbs ≤ 5000 ∧
    w_bandgapTrimStep_s.cal.bandgapTarget = w_bandgapTrimStep_s.cal.bandgap ∧
    nextSat (exec (.bandgapTrimStep ((-300) : Int)) w_bandgapTrimStep_s)
      (fun t => decide (t.cal.bandgapAt = w_bandgapTrimStep_s.time.total) &&
      decide (t.cal.bandgap = if 250 < ((-300) : Int) ∧
      w_bandgapTrimStep_s.cal.bandgap ≠ 0 then w_bandgapTrimStep_s.cal.bandgap - 1 else if ((-300) : Int) < -250 ∧
      w_bandgapTrimStep_s.cal.bandgap ≠ 255 then w_bandgapTrimStep_s.cal.bandgap + 1 else w_bandgapTrimStep_s.cal.bandgap) &&
      decide (t.cal.bandgapRejected = false)) = true :=
  by decide +kernel

theorem test_bandgapTrimStep_more :
    w_bandgapTrimStep_s_2.cal.bandgapAt + 2 ^ 20 ≤ w_bandgapTrimStep_s_2.time.total ∧
    5000 < (6000 : Int).natAbs ∧
    nextSat (exec (.bandgapTrimStep (6000 : Int)) w_bandgapTrimStep_s_2)
      (fun t => decide (t.cal.bandgap = w_bandgapTrimStep_s_2.cal.bandgap) &&
      decide (t.cal.cntRej = w_bandgapTrimStep_s_2.cal.cntRej + 1) &&
      decide (t.cal.bandgapRejected = !w_bandgapTrimStep_s_2.cal.bandgapRejected) && decide (Flagged t .cal 1) &&
      decide ((w_bandgapTrimStep_s_2.cal.bandgapRejected = true → Flagged t .cal 2))) = true :=
  by decide +kernel

theorem test_regionHoldStart :
    isRegion w_regionHoldStart_s (3 : Nat) = true ∧
    armedNow w_regionHoldStart_s (3 : Nat) = true ∧
    calMode w_regionHoldStart_s = true ∧
    w_regionHoldStart_s.root.bypass = false ∧
    w_regionHoldStart_s.fold.started = true ∧
    failedNow w_regionHoldStart_s (3 : Nat) = false ∧
    entryWaits w_regionHoldStart_s ((3 : Nat) / 16) = false ∧
    slotStarts w_regionHoldStart_s (3 : Nat) = true ∧
    nextSat (exec (.regionHoldStart (3 : Nat)) w_regionHoldStart_s)
      (fun t => decide ((regionOf t (3 : Nat)).hold = some ⟨w_regionHoldStart_s.time.counter, false, false, (flockOf w_regionHoldStart_s ((3 : Nat) / 16)).temp⟩) &&
      decide ((regionOf t (3 : Nat)).detached = true) && decide ((regionOf t (3 : Nat)).heldThisFold = true)) = true :=
  by decide +kernel

theorem test_regionHoldStart_more :
    (isRegion w_regionHoldStart_s_2 (3 : Nat) = true ∧
    armedNow w_regionHoldStart_s_2 (3 : Nat) = true ∧
    calMode w_regionHoldStart_s_2 = true ∧
    w_regionHoldStart_s_2.root.bypass = false ∧
    w_regionHoldStart_s_2.fold.started = true ∧
    failedNow w_regionHoldStart_s_2 (3 : Nat) = false ∧
    entryWaits w_regionHoldStart_s_2 ((3 : Nat) / 16) = false ∧
    slotStarts w_regionHoldStart_s_2 (3 : Nat) = false ∧
    w_regionHoldStart_s_2.fold.calPlanned = true ∧
    w_regionHoldStart_s_2.fold.tail = true ∧
    (regionOf w_regionHoldStart_s_2 (3 : Nat)).parked = true ∧
    bandChanging w_regionHoldStart_s_2 (3 : Nat) = false ∧
    nextSat (exec (.regionHoldStart (3 : Nat)) w_regionHoldStart_s_2)
      (fun t => decide ((regionOf t (3 : Nat)).hold = some ⟨w_regionHoldStart_s_2.time.counter, true, false, (flockOf w_regionHoldStart_s_2 ((3 : Nat) / 16)).temp⟩) &&
      decide ((regionOf t (3 : Nat)).detached = (regionOf w_regionHoldStart_s_2 (3 : Nat)).detached) &&
      decide ((regionOf t (3 : Nat)).heldThisFold = true)) = true) ∧
    (isRegion w_regionHoldStart_s_3 (3 : Nat) = true ∧
    armedNow w_regionHoldStart_s_3 (3 : Nat) = true ∧
    calMode w_regionHoldStart_s_3 = true ∧
    w_regionHoldStart_s_3.root.bypass = false ∧
    w_regionHoldStart_s_3.fold.started = true ∧
    failedNow w_regionHoldStart_s_3 (3 : Nat) = false ∧
    entryWaits w_regionHoldStart_s_3 ((3 : Nat) / 16) = false ∧
    slotStarts w_regionHoldStart_s_3 (3 : Nat) = true ∧
    nextSat (exec (.regionHoldStart (3 : Nat)) w_regionHoldStart_s_3)
      (fun t => decide ((regionOf t (3 : Nat)).hold = some ⟨w_regionHoldStart_s_3.time.counter, false, false, (flockOf w_regionHoldStart_s_3 ((3 : Nat) / 16)).temp⟩) &&
      decide ((regionOf t (3 : Nat)).detached = true) && decide ((regionOf t (3 : Nat)).heldThisFold = true)) = true) ∧
    (isRegion w_regionHoldStart_s_4 (3 : Nat) = true ∧
    armedNow w_regionHoldStart_s_4 (3 : Nat) = true ∧
    calMode w_regionHoldStart_s_4 = true ∧
    w_regionHoldStart_s_4.root.bypass = false ∧
    w_regionHoldStart_s_4.fold.started = true ∧
    failedNow w_regionHoldStart_s_4 (3 : Nat) = false ∧
    entryWaits w_regionHoldStart_s_4 ((3 : Nat) / 16) = false ∧
    slotStarts w_regionHoldStart_s_4 (3 : Nat) = false ∧
    w_regionHoldStart_s_4.fold.calPlanned = true ∧
    w_regionHoldStart_s_4.fold.tail = true ∧
    (regionOf w_regionHoldStart_s_4 (3 : Nat)).parked = true ∧
    bandChanging w_regionHoldStart_s_4 (3 : Nat) = false ∧
    nextSat (exec (.regionHoldStart (3 : Nat)) w_regionHoldStart_s_4)
      (fun t => decide ((regionOf t (3 : Nat)).hold = some ⟨w_regionHoldStart_s_4.time.counter, true, false, (flockOf w_regionHoldStart_s_4 ((3 : Nat) / 16)).temp⟩) &&
      decide ((regionOf t (3 : Nat)).detached = (regionOf w_regionHoldStart_s_4 (3 : Nat)).detached) &&
      decide ((regionOf t (3 : Nat)).heldThisFold = true)) = true) :=
  ⟨by decide +kernel, by decide +kernel, by decide +kernel⟩

theorem test_regionHoldEnd :
    isRegion w_regionHoldEnd_s (3 : Nat) = true ∧
    (regionOf w_regionHoldEnd_s (3 : Nat)).hold = some ({ start := 0, atBell := false, discard := true, temp := 0 } : Hold) ∧
    ({ start := 0, atBell := false, discard := true, temp := 0 } : Hold).start + 450 ≤ w_regionHoldEnd_s.time.counter ∧
    (({ start := 0, atBell := false, discard := true, temp := 0 } : Hold).discard = true ∨ calMode w_regionHoldEnd_s = false ∨ servingGen w_regionHoldEnd_s (3 : Nat) = none) ∧
    nextSat (exec (.regionHoldEnd (3 : Nat) ((0, 0) : Nat × Nat) ([] : List Nat) (false : Bool)) w_regionHoldEnd_s)
      (fun t => decide ((regionOf t (3 : Nat)).hold = none) && decide ((regionOf t (3 : Nat)).detached = false) &&
      decide (((regionOf w_regionHoldEnd_s (3 : Nat)).parked = false → (regionOf t (3 : Nat)).track = .reel)) &&
      decide ((regionOf t (3 : Nat)).waiting = none) && decide (t.cal.cntSlot = w_regionHoldEnd_s.cal.cntSlot) &&
      decide (t.cal.cntBell = w_regionHoldEnd_s.cal.cntBell) && decide (Flagged t .cal 7)) = true :=
  by decide +kernel

theorem test_regionHoldEnd_more :
    (isRegion w_regionHoldEnd_s_2 (3 : Nat) = true ∧
    (regionOf w_regionHoldEnd_s_2 (3 : Nat)).hold = some ({ start := 0, atBell := false, discard := false, temp := 0 } : Hold) ∧
    ({ start := 0, atBell := false, discard := false, temp := 0 } : Hold).start + 450 ≤ w_regionHoldEnd_s_2.time.counter ∧
    ({ start := 0, atBell := false, discard := false, temp := 0 } : Hold).discard = false ∧
    calMode w_regionHoldEnd_s_2 = true ∧
    ((false : Bool) = false ∨ coreRuns w_regionHoldEnd_s_2 = false) ∧
    servingGen w_regionHoldEnd_s_2 (3 : Nat) = some (3 : Nat) ∧
    nextSat (exec (.regionHoldEnd (3 : Nat) ((5, 0) : Nat × Nat) ([] : List Nat) (false : Bool)) w_regionHoldEnd_s_2)
      (fun t => decide ((regionOf t (3 : Nat)).hold = none) &&
      decide (((regionOf w_regionHoldEnd_s_2 (3 : Nat)).parked = false → (regionOf t (3 : Nat)).track = .reel)) &&
      decide ((regionOf t (3 : Nat)).waiting = some ⟨({ start := 0, atBell := false, discard := false, temp := 0 } : Hold), (3 : Nat), (selBand (genOf w_regionHoldEnd_s_2 (3 : Nat))).getD 0, curEntry (genOf w_regionHoldEnd_s_2 (3 : Nat)), ((5, 0) : Nat × Nat).1, ((5, 0) : Nat × Nat).2, ([] : List Nat)⟩) &&
      decide ((regionOf t (3 : Nat)).due = (regionOf w_regionHoldEnd_s_2 (3 : Nat)).due)) = true) ∧
    (isRegion w_regionHoldEnd_s_3 (3 : Nat) = true ∧
    (regionOf w_regionHoldEnd_s_3 (3 : Nat)).hold = some ({ start := 0, atBell := false, discard := false, temp := 0 } : Hold) ∧
    ({ start := 0, atBell := false, discard := false, temp := 0 } : Hold).start + 450 ≤ w_regionHoldEnd_s_3.time.counter ∧
    ({ start := 0, atBell := false, discard := false, temp := 0 } : Hold).discard = false ∧
    calMode w_regionHoldEnd_s_3 = true ∧
    (true : Bool) = true ∧
    coreRuns w_regionHoldEnd_s_3 = true ∧
    servingGen w_regionHoldEnd_s_3 (3 : Nat) = some (3 : Nat) ∧
    (cellsOk (curEntry (genOf w_regionHoldEnd_s_3 (3 : Nat))) ((128, 205) : Nat × Nat).1 ((128, 205) : Nat × Nat).2 = true ∧
      (List.range 8).all (fun k => sockOk (nomOf w_regionHoldEnd_s_3 (classOfRegion w_regionHoldEnd_s_3 (3 : Nat))) (([614, 614, 614, 614, 614, 614, 614, 614] : List Nat).getD k 0)) = true) ∧
    nextSat (exec (.regionHoldEnd (3 : Nat) ((128, 205) : Nat × Nat) ([614, 614, 614, 614, 614, 614, 614, 614] : List Nat) (true : Bool)) w_regionHoldEnd_s_3)
      (fun t => decide ((regionOf t (3 : Nat)).hold = none) && decide ((regionOf t (3 : Nat)).rejected = false) &&
      decide (t.cal.cntSlot = w_regionHoldEnd_s_3.cal.cntSlot + (if ({ start := 0, atBell := false, discard := false, temp := 0 } : Hold).atBell then 0 else 1)) &&
      decide (t.cal.cntBell = w_regionHoldEnd_s_3.cal.cntBell + (if ({ start := 0, atBell := false, discard := false, temp := 0 } : Hold).atBell then 1 else 0)) &&
      decide (t.cal.cntRej = w_regionHoldEnd_s_3.cal.cntRej)) = true) ∧
    (isRegion w_regionHoldEnd_s_4 (3 : Nat) = true ∧
    (regionOf w_regionHoldEnd_s_4 (3 : Nat)).hold = some ({ start := 0, atBell := false, discard := false, temp := 0 } : Hold) ∧
    ({ start := 0, atBell := false, discard := false, temp := 0 } : Hold).start + 450 ≤ w_regionHoldEnd_s_4.time.counter ∧
    ({ start := 0, atBell := false, discard := false, temp := 0 } : Hold).discard = false ∧
    calMode w_regionHoldEnd_s_4 = true ∧
    (true : Bool) = true ∧
    coreRuns w_regionHoldEnd_s_4 = true ∧
    servingGen w_regionHoldEnd_s_4 (3 : Nat) = some (3 : Nat) ∧
    ¬(cellsOk (curEntry (genOf w_regionHoldEnd_s_4 (3 : Nat))) ((0, 0) : Nat × Nat).1 ((0, 0) : Nat × Nat).2 = true ∧
      (List.range 8).all (fun k => sockOk (nomOf w_regionHoldEnd_s_4 (classOfRegion w_regionHoldEnd_s_4 (3 : Nat))) (([] : List Nat).getD k 0)) = true) ∧
    nextSat (exec (.regionHoldEnd (3 : Nat) ((0, 0) : Nat × Nat) ([] : List Nat) (true : Bool)) w_regionHoldEnd_s_4)
      (fun t => decide ((regionOf t (3 : Nat)).hold = none) &&
      decide ((regionOf t (3 : Nat)).rejected = !(regionOf w_regionHoldEnd_s_4 (3 : Nat)).rejected) &&
      decide ((regionOf t (3 : Nat)).due = ((regionOf w_regionHoldEnd_s_4 (3 : Nat)).due &&
      !(regionOf w_regionHoldEnd_s_4 (3 : Nat)).rejected)) &&
      decide (t.cal.cntRej = w_regionHoldEnd_s_4.cal.cntRej + (if cellsOk (curEntry (genOf w_regionHoldEnd_s_4 (3 : Nat))) ((0, 0) : Nat × Nat).1 ((0, 0) : Nat × Nat).2 = true then 0 else 1) + (if (List.range 8).all (fun k => sockOk (nomOf w_regionHoldEnd_s_4 (classOfRegion w_regionHoldEnd_s_4 (3 : Nat))) (([] : List Nat).getD k 0)) = true then 0 else 1)) &&
      decide (Flagged t .cal 1) && decide (((regionOf w_regionHoldEnd_s_4 (3 : Nat)).rejected = true →
      Flagged t .cal 2)) && decide (((regionOf w_regionHoldEnd_s_4 (3 : Nat)).parked = false →
      cellsOk (curEntry (genOf w_regionHoldEnd_s_4 (3 : Nat))) ((0, 0) : Nat × Nat).1 ((0, 0) : Nat × Nat).2 = true →
      (genOf t (3 : Nat)).cellProp = some ((selBand (genOf w_regionHoldEnd_s_4 (3 : Nat))).getD 0, cellProposal (curEntry (genOf w_regionHoldEnd_s_4 (3 : Nat))) ((0, 0) : Nat × Nat).1))) &&
      decide (((regionOf w_regionHoldEnd_s_4 (3 : Nat)).parked = false →
      (List.range 8).all (fun k => sockOk (nomOf w_regionHoldEnd_s_4 (classOfRegion w_regionHoldEnd_s_4 (3 : Nat))) (([] : List Nat).getD k 0)) = true →
      (genOf t (3 : Nat)).sockProp = (List.range 8).map (fun k => sockProposal (nomOf w_regionHoldEnd_s_4 (classOfRegion w_regionHoldEnd_s_4 (3 : Nat))) (([] : List Nat).getD k 0))))) = true) ∧
    (isRegion w_regionHoldEnd_s_5 (3 : Nat) = true ∧
    (regionOf w_regionHoldEnd_s_5 (3 : Nat)).hold = some ({ start := 0, atBell := false, discard := true, temp := 0 } : Hold) ∧
    ({ start := 0, atBell := false, discard := true, temp := 0 } : Hold).start + 450 ≤ w_regionHoldEnd_s_5.time.counter ∧
    (({ start := 0, atBell := false, discard := true, temp := 0 } : Hold).discard = true ∨ calMode w_regionHoldEnd_s_5 = false ∨ servingGen w_regionHoldEnd_s_5 (3 : Nat) = none) ∧
    nextSat (exec (.regionHoldEnd (3 : Nat) ((0, 0) : Nat × Nat) ([] : List Nat) (false : Bool)) w_regionHoldEnd_s_5)
      (fun t => decide ((regionOf t (3 : Nat)).hold = none) && decide ((regionOf t (3 : Nat)).detached = false) &&
      decide (((regionOf w_regionHoldEnd_s_5 (3 : Nat)).parked = false → (regionOf t (3 : Nat)).track = .reel)) &&
      decide ((regionOf t (3 : Nat)).waiting = none) && decide (t.cal.cntSlot = w_regionHoldEnd_s_5.cal.cntSlot) &&
      decide (t.cal.cntBell = w_regionHoldEnd_s_5.cal.cntBell) && decide (Flagged t .cal 7)) = true) ∧
    (isRegion w_regionHoldEnd_s_6 (3 : Nat) = true ∧
    (regionOf w_regionHoldEnd_s_6 (3 : Nat)).hold = some ({ start := 0, atBell := false, discard := false, temp := 0 } : Hold) ∧
    ({ start := 0, atBell := false, discard := false, temp := 0 } : Hold).start + 450 ≤ w_regionHoldEnd_s_6.time.counter ∧
    ({ start := 0, atBell := false, discard := false, temp := 0 } : Hold).discard = false ∧
    calMode w_regionHoldEnd_s_6 = true ∧
    ((false : Bool) = false ∨ coreRuns w_regionHoldEnd_s_6 = false) ∧
    servingGen w_regionHoldEnd_s_6 (3 : Nat) = some (3 : Nat) ∧
    nextSat (exec (.regionHoldEnd (3 : Nat) ((5, 0) : Nat × Nat) ([] : List Nat) (false : Bool)) w_regionHoldEnd_s_6)
      (fun t => decide ((regionOf t (3 : Nat)).hold = none) &&
      decide (((regionOf w_regionHoldEnd_s_6 (3 : Nat)).parked = false → (regionOf t (3 : Nat)).track = .reel)) &&
      decide ((regionOf t (3 : Nat)).waiting = some ⟨({ start := 0, atBell := false, discard := false, temp := 0 } : Hold), (3 : Nat), (selBand (genOf w_regionHoldEnd_s_6 (3 : Nat))).getD 0, curEntry (genOf w_regionHoldEnd_s_6 (3 : Nat)), ((5, 0) : Nat × Nat).1, ((5, 0) : Nat × Nat).2, ([] : List Nat)⟩) &&
      decide ((regionOf t (3 : Nat)).due = (regionOf w_regionHoldEnd_s_6 (3 : Nat)).due)) = true) ∧
    (isRegion w_regionHoldEnd_s_7 (3 : Nat) = true ∧
    (regionOf w_regionHoldEnd_s_7 (3 : Nat)).hold = some ({ start := 0, atBell := false, discard := false, temp := 0 } : Hold) ∧
    ({ start := 0, atBell := false, discard := false, temp := 0 } : Hold).start + 450 ≤ w_regionHoldEnd_s_7.time.counter ∧
    ({ start := 0, atBell := false, discard := false, temp := 0 } : Hold).discard = false ∧
    calMode w_regionHoldEnd_s_7 = true ∧
    (true : Bool) = true ∧
    coreRuns w_regionHoldEnd_s_7 = true ∧
    servingGen w_regionHoldEnd_s_7 (3 : Nat) = some (3 : Nat) ∧
    (cellsOk (curEntry (genOf w_regionHoldEnd_s_7 (3 : Nat))) ((128, 205) : Nat × Nat).1 ((128, 205) : Nat × Nat).2 = true ∧
      (List.range 8).all (fun k => sockOk (nomOf w_regionHoldEnd_s_7 (classOfRegion w_regionHoldEnd_s_7 (3 : Nat))) (([614, 614, 614, 614, 614, 614, 614, 614] : List Nat).getD k 0)) = true) ∧
    nextSat (exec (.regionHoldEnd (3 : Nat) ((128, 205) : Nat × Nat) ([614, 614, 614, 614, 614, 614, 614, 614] : List Nat) (true : Bool)) w_regionHoldEnd_s_7)
      (fun t => decide ((regionOf t (3 : Nat)).hold = none) && decide ((regionOf t (3 : Nat)).rejected = false) &&
      decide (t.cal.cntSlot = w_regionHoldEnd_s_7.cal.cntSlot + (if ({ start := 0, atBell := false, discard := false, temp := 0 } : Hold).atBell then 0 else 1)) &&
      decide (t.cal.cntBell = w_regionHoldEnd_s_7.cal.cntBell + (if ({ start := 0, atBell := false, discard := false, temp := 0 } : Hold).atBell then 1 else 0)) &&
      decide (t.cal.cntRej = w_regionHoldEnd_s_7.cal.cntRej)) = true) ∧
    (isRegion w_regionHoldEnd_s_8 (3 : Nat) = true ∧
    (regionOf w_regionHoldEnd_s_8 (3 : Nat)).hold = some ({ start := 0, atBell := false, discard := false, temp := 0 } : Hold) ∧
    ({ start := 0, atBell := false, discard := false, temp := 0 } : Hold).start + 450 ≤ w_regionHoldEnd_s_8.time.counter ∧
    ({ start := 0, atBell := false, discard := false, temp := 0 } : Hold).discard = false ∧
    calMode w_regionHoldEnd_s_8 = true ∧
    (true : Bool) = true ∧
    coreRuns w_regionHoldEnd_s_8 = true ∧
    servingGen w_regionHoldEnd_s_8 (3 : Nat) = some (3 : Nat) ∧
    ¬(cellsOk (curEntry (genOf w_regionHoldEnd_s_8 (3 : Nat))) ((0, 0) : Nat × Nat).1 ((0, 0) : Nat × Nat).2 = true ∧
      (List.range 8).all (fun k => sockOk (nomOf w_regionHoldEnd_s_8 (classOfRegion w_regionHoldEnd_s_8 (3 : Nat))) (([] : List Nat).getD k 0)) = true) ∧
    nextSat (exec (.regionHoldEnd (3 : Nat) ((0, 0) : Nat × Nat) ([] : List Nat) (true : Bool)) w_regionHoldEnd_s_8)
      (fun t => decide ((regionOf t (3 : Nat)).hold = none) &&
      decide ((regionOf t (3 : Nat)).rejected = !(regionOf w_regionHoldEnd_s_8 (3 : Nat)).rejected) &&
      decide ((regionOf t (3 : Nat)).due = ((regionOf w_regionHoldEnd_s_8 (3 : Nat)).due &&
      !(regionOf w_regionHoldEnd_s_8 (3 : Nat)).rejected)) &&
      decide (t.cal.cntRej = w_regionHoldEnd_s_8.cal.cntRej + (if cellsOk (curEntry (genOf w_regionHoldEnd_s_8 (3 : Nat))) ((0, 0) : Nat × Nat).1 ((0, 0) : Nat × Nat).2 = true then 0 else 1) + (if (List.range 8).all (fun k => sockOk (nomOf w_regionHoldEnd_s_8 (classOfRegion w_regionHoldEnd_s_8 (3 : Nat))) (([] : List Nat).getD k 0)) = true then 0 else 1)) &&
      decide (Flagged t .cal 1) && decide (((regionOf w_regionHoldEnd_s_8 (3 : Nat)).rejected = true →
      Flagged t .cal 2)) && decide (((regionOf w_regionHoldEnd_s_8 (3 : Nat)).parked = false →
      cellsOk (curEntry (genOf w_regionHoldEnd_s_8 (3 : Nat))) ((0, 0) : Nat × Nat).1 ((0, 0) : Nat × Nat).2 = true →
      (genOf t (3 : Nat)).cellProp = some ((selBand (genOf w_regionHoldEnd_s_8 (3 : Nat))).getD 0, cellProposal (curEntry (genOf w_regionHoldEnd_s_8 (3 : Nat))) ((0, 0) : Nat × Nat).1))) &&
      decide (((regionOf w_regionHoldEnd_s_8 (3 : Nat)).parked = false →
      (List.range 8).all (fun k => sockOk (nomOf w_regionHoldEnd_s_8 (classOfRegion w_regionHoldEnd_s_8 (3 : Nat))) (([] : List Nat).getD k 0)) = true →
      (genOf t (3 : Nat)).sockProp = (List.range 8).map (fun k => sockProposal (nomOf w_regionHoldEnd_s_8 (classOfRegion w_regionHoldEnd_s_8 (3 : Nat))) (([] : List Nat).getD k 0))))) = true) :=
  ⟨by decide +kernel, by decide +kernel, by decide +kernel, by decide +kernel, by decide +kernel, by decide +kernel, by decide +kernel⟩

theorem test_spareCalStart :
    isSpare w_spareCalStart_s (1 : Nat) (0 : Nat) = true ∧
    (genOf w_spareCalStart_s (spareRow w_spareCalStart_s.build (1 : Nat) (0 : Nat))).due = true ∧
    (genOf w_spareCalStart_s (spareRow w_spareCalStart_s.build (1 : Nat) (0 : Nat))).st = .free ∧
    calRuns w_spareCalStart_s = true ∧
    (othersCover w_spareCalStart_s (1 : Nat) (spareRow w_spareCalStart_s.build (1 : Nat) (0 : Nat)) = true ∨ (w_spareCalStart_s.fold.calPlanned = true ∧
      w_spareCalStart_s.fold.tail = true)) ∧
    turnOf w_spareCalStart_s (1 : Nat) = true ∧
    nextSat (exec (.spareCalStart (1 : Nat) (0 : Nat)) w_spareCalStart_s)
      (fun t => decide ((genOf t (spareRow w_spareCalStart_s.build (1 : Nat) (0 : Nat))).st = .measuring) &&
      decide ((genOf t (spareRow w_spareCalStart_s.build (1 : Nat) (0 : Nat))).calFrom = some w_spareCalStart_s.time.total)) = true :=
  by decide +kernel

theorem test_spareCalEnd :
    isSpare w_spareCalEnd_s (1 : Nat) (0 : Nat) = true ∧
    (genOf w_spareCalEnd_s (spareRow w_spareCalEnd_s.build (1 : Nat) (0 : Nat))).calFrom = some (0 : Nat) ∧
    (0 : Nat) + 450 ≤ w_spareCalEnd_s.time.total ∧
    (true : Bool) = true ∧
    coreRuns w_spareCalEnd_s = true ∧
    w_spareCalEnd_s.root.bypass = false ∧
    calMode w_spareCalEnd_s = true ∧
    cellsOk (entryOf (genOf w_spareCalEnd_s (spareRow w_spareCalEnd_s.build (1 : Nat) (0 : Nat))).copy ((selBand (genOf w_spareCalEnd_s (spareRow w_spareCalEnd_s.build (1 : Nat) (0 : Nat)))).getD 0)) ((128, 205) : Nat × Nat).1 ((128, 205) : Nat × Nat).2 = true ∧
    nextSat (exec (.spareCalEnd (1 : Nat) (0 : Nat) ((128, 205) : Nat × Nat) (true : Bool)) w_spareCalEnd_s)
      (fun t => decide ((genOf t (spareRow w_spareCalEnd_s.build (1 : Nat) (0 : Nat))).st = .locking) &&
      decide ((genOf t (spareRow w_spareCalEnd_s.build (1 : Nat) (0 : Nat))).calFrom = none) &&
      decide ((genOf t (spareRow w_spareCalEnd_s.build (1 : Nat) (0 : Nat))).rejected = false) &&
      decide (tabGet (genOf t (spareRow w_spareCalEnd_s.build (1 : Nat) (0 : Nat))).cells ((selBand (genOf w_spareCalEnd_s (spareRow w_spareCalEnd_s.build (1 : Nat) (0 : Nat)))).getD 0) 0 = tabGet (genOf w_spareCalEnd_s (spareRow w_spareCalEnd_s.build (1 : Nat) (0 : Nat))).cells ((selBand (genOf w_spareCalEnd_s (spareRow w_spareCalEnd_s.build (1 : Nat) (0 : Nat)))).getD 0) 0 + BitVec.ofInt 8 (cellProposal (entryOf (genOf w_spareCalEnd_s (spareRow w_spareCalEnd_s.build (1 : Nat) (0 : Nat))).copy ((selBand (genOf w_spareCalEnd_s (spareRow w_spareCalEnd_s.build (1 : Nat) (0 : Nat)))).getD 0)) ((128, 205) : Nat × Nat).1))) = true :=
  by decide +kernel

theorem test_spareCalEnd_more :
    (isSpare w_spareCalEnd_s_2 (1 : Nat) (0 : Nat) = true ∧
    (genOf w_spareCalEnd_s_2 (spareRow w_spareCalEnd_s_2.build (1 : Nat) (0 : Nat))).calFrom = some (0 : Nat) ∧
    (0 : Nat) + 450 ≤ w_spareCalEnd_s_2.time.total ∧
    (true : Bool) = true ∧
    coreRuns w_spareCalEnd_s_2 = true ∧
    w_spareCalEnd_s_2.root.bypass = false ∧
    calMode w_spareCalEnd_s_2 = true ∧
    cellsOk (entryOf (genOf w_spareCalEnd_s_2 (spareRow w_spareCalEnd_s_2.build (1 : Nat) (0 : Nat))).copy ((selBand (genOf w_spareCalEnd_s_2 (spareRow w_spareCalEnd_s_2.build (1 : Nat) (0 : Nat)))).getD 0)) ((0, 0) : Nat × Nat).1 ((0, 0) : Nat × Nat).2 = false ∧
    nextSat (exec (.spareCalEnd (1 : Nat) (0 : Nat) ((0, 0) : Nat × Nat) (true : Bool)) w_spareCalEnd_s_2)
      (fun t => decide ((genOf t (spareRow w_spareCalEnd_s_2.build (1 : Nat) (0 : Nat))).st = .locking) &&
      decide ((genOf t (spareRow w_spareCalEnd_s_2.build (1 : Nat) (0 : Nat))).calFrom = none) &&
      decide ((genOf t (spareRow w_spareCalEnd_s_2.build (1 : Nat) (0 : Nat))).rejected = !(genOf w_spareCalEnd_s_2 (spareRow w_spareCalEnd_s_2.build (1 : Nat) (0 : Nat))).rejected) &&
      decide ((genOf t (spareRow w_spareCalEnd_s_2.build (1 : Nat) (0 : Nat))).cells = (genOf w_spareCalEnd_s_2 (spareRow w_spareCalEnd_s_2.build (1 : Nat) (0 : Nat))).cells) &&
      decide (t.cal.cntRej = w_spareCalEnd_s_2.cal.cntRej + 1) && decide (Flagged t .cal 1)) = true) ∧
    (isSpare w_spareCalEnd_s_3 (1 : Nat) (0 : Nat) = true ∧
    (genOf w_spareCalEnd_s_3 (spareRow w_spareCalEnd_s_3.build (1 : Nat) (0 : Nat))).calFrom = some (0 : Nat) ∧
    (0 : Nat) + 450 ≤ w_spareCalEnd_s_3.time.total ∧
    ((false : Bool) = false ∨ coreRuns w_spareCalEnd_s_3 = false) ∧
    w_spareCalEnd_s_3.root.bypass = false ∧
    calMode w_spareCalEnd_s_3 = true ∧
    nextSat (exec (.spareCalEnd (1 : Nat) (0 : Nat) ((0, 0) : Nat × Nat) (false : Bool)) w_spareCalEnd_s_3)
      (fun t => decide ((genOf t (spareRow w_spareCalEnd_s_3.build (1 : Nat) (0 : Nat))).st = .locking) &&
      decide ((genOf t (spareRow w_spareCalEnd_s_3.build (1 : Nat) (0 : Nat))).calFrom = none) &&
      decide ((genOf t (spareRow w_spareCalEnd_s_3.build (1 : Nat) (0 : Nat))).waiting = some ((selBand (genOf w_spareCalEnd_s_3 (spareRow w_spareCalEnd_s_3.build (1 : Nat) (0 : Nat)))).getD 0, ((0, 0) : Nat × Nat).1, ((0, 0) : Nat × Nat).2)) &&
      decide ((genOf t (spareRow w_spareCalEnd_s_3.build (1 : Nat) (0 : Nat))).cells = (genOf w_spareCalEnd_s_3 (spareRow w_spareCalEnd_s_3.build (1 : Nat) (0 : Nat))).cells)) = true) ∧
    (isSpare w_spareCalEnd_s_4 (1 : Nat) (0 : Nat) = true ∧
    (genOf w_spareCalEnd_s_4 (spareRow w_spareCalEnd_s_4.build (1 : Nat) (0 : Nat))).calFrom = some (0 : Nat) ∧
    (0 : Nat) + 450 ≤ w_spareCalEnd_s_4.time.total ∧
    (w_spareCalEnd_s_4.root.bypass = true ∨ calMode w_spareCalEnd_s_4 = false) ∧
    nextSat (exec (.spareCalEnd (1 : Nat) (0 : Nat) ((0, 0) : Nat × Nat) (false : Bool)) w_spareCalEnd_s_4)
      (fun t => decide ((genOf t (spareRow w_spareCalEnd_s_4.build (1 : Nat) (0 : Nat))).st = .locking) &&
      decide ((genOf t (spareRow w_spareCalEnd_s_4.build (1 : Nat) (0 : Nat))).calFrom = none) &&
      decide ((genOf t (spareRow w_spareCalEnd_s_4.build (1 : Nat) (0 : Nat))).cells = (genOf w_spareCalEnd_s_4 (spareRow w_spareCalEnd_s_4.build (1 : Nat) (0 : Nat))).cells) &&
      decide (Flagged t .cal 7)) = true) :=
  ⟨by decide +kernel, by decide +kernel, by decide +kernel⟩

theorem test_pathCalStart :
    isPath w_pathCalStart_s (1 : Nat) (0 : Nat) = true ∧
    (pathOf (flockOf w_pathCalStart_s (1 : Nat)) (0 : Nat)).due = true ∧
    pathUsable w_pathCalStart_s (1 : Nat) (0 : Nat) = true ∧
    calRuns w_pathCalStart_s = true ∧
    2 ≤ (healthyPaths w_pathCalStart_s (1 : Nat)).length ∧
    turnOf w_pathCalStart_s (1 : Nat) = true ∧
    nextSat (exec (.pathCalStart (1 : Nat) (0 : Nat)) w_pathCalStart_s)
      (fun t => decide ((pathOf (flockOf t (1 : Nat)) (0 : Nat)).calOut = true) &&
      decide ((pathOf (flockOf t (1 : Nat)) (0 : Nat)).calFrom = w_pathCalStart_s.time.total)) = true :=
  by decide +kernel

theorem test_pathCalDone :
    isPath w_pathCalDone_s (1 : Nat) (0 : Nat) = true ∧
    (pathOf (flockOf w_pathCalDone_s (1 : Nat)) (0 : Nat)).calOut = true ∧
    (pathOf (flockOf w_pathCalDone_s (1 : Nat)) (0 : Nat)).locked = true ∧
    fwHolds w_pathCalDone_s = false ∧
    ((List.replicate 128 (3, 31000)) : List (BitVec 8 × Nat)).length = 128 ∧
    (pathOf (flockOf w_pathCalDone_s (1 : Nat)) (0 : Nat)).tapsNew = none ∧
    calMode w_pathCalDone_s = true ∧
    (∀ y ∈ ((List.replicate 128 (3, 31000)) : List (BitVec 8 × Nat)), 4 * ((y.2 : Int) - 31250).natAbs ≤ 31250) ∧
    nextSat (exec (.pathCalDone (1 : Nat) (0 : Nat) ((List.replicate 128 (3, 31000)) : List (BitVec 8 × Nat))) w_pathCalDone_s)
      (fun t => decide ((pathOf (flockOf t (1 : Nat)) (0 : Nat)).taps = ((List.replicate 128 (3, 31000)) : List (BitVec 8 × Nat)).map Prod.fst) &&
      decide ((pathOf (flockOf t (1 : Nat)) (0 : Nat)).rejected = false) &&
      decide ((pathOf (flockOf t (1 : Nat)) (0 : Nat)).locked = false ∧
      (pathOf (flockOf t (1 : Nat)) (0 : Nat)).mValid = false ∧
      (pathOf (flockOf t (1 : Nat)) (0 : Nat)).calOut = true) &&
      decide ((pathOf (flockOf t (1 : Nat)) (0 : Nat)).tapsOld = some (pathOf (flockOf w_pathCalDone_s (1 : Nat)) (0 : Nat)).taps) &&
      decide ((sameBytes (((List.replicate 128 (3, 31000)) : List (BitVec 8 × Nat)).map Prod.fst) (pathOf (flockOf w_pathCalDone_s (1 : Nat)) (0 : Nat)).taps = false →
      t.cal.calTick = w_pathCalDone_s.time.counter))) = true :=
  by decide +kernel

theorem test_pathCalDone_more :
    (isPath w_pathCalDone_s_2 (1 : Nat) (0 : Nat) = true ∧
    (pathOf (flockOf w_pathCalDone_s_2 (1 : Nat)) (0 : Nat)).calOut = true ∧
    (pathOf (flockOf w_pathCalDone_s_2 (1 : Nat)) (0 : Nat)).locked = true ∧
    fwHolds w_pathCalDone_s_2 = false ∧
    ((List.replicate 128 (3, 1000)) : List (BitVec 8 × Nat)).length = 128 ∧
    (pathOf (flockOf w_pathCalDone_s_2 (1 : Nat)) (0 : Nat)).tapsNew = none ∧
    calMode w_pathCalDone_s_2 = true ∧
    ¬(∀ y ∈ ((List.replicate 128 (3, 1000)) : List (BitVec 8 × Nat)), 4 * ((y.2 : Int) - 31250).natAbs ≤ 31250) ∧
    nextSat (exec (.pathCalDone (1 : Nat) (0 : Nat) ((List.replicate 128 (3, 1000)) : List (BitVec 8 × Nat))) w_pathCalDone_s_2)
      (fun t => decide ((pathOf (flockOf t (1 : Nat)) (0 : Nat)).taps = (pathOf (flockOf w_pathCalDone_s_2 (1 : Nat)) (0 : Nat)).taps) &&
      decide ((pathOf (flockOf t (1 : Nat)) (0 : Nat)).rejected = !(pathOf (flockOf w_pathCalDone_s_2 (1 : Nat)) (0 : Nat)).rejected) &&
      decide ((pathOf (flockOf t (1 : Nat)) (0 : Nat)).locked = false ∧
      (pathOf (flockOf t (1 : Nat)) (0 : Nat)).mValid = false ∧
      (pathOf (flockOf t (1 : Nat)) (0 : Nat)).calOut = true) &&
      decide (t.cal.cntRej = w_pathCalDone_s_2.cal.cntRej + 1) && decide (Flagged t .cal 1)) = true) ∧
    (isPath w_pathCalDone_s_3 (1 : Nat) (0 : Nat) = true ∧
    (pathOf (flockOf w_pathCalDone_s_3 (1 : Nat)) (0 : Nat)).calOut = true ∧
    (pathOf (flockOf w_pathCalDone_s_3 (1 : Nat)) (0 : Nat)).locked = true ∧
    fwHolds w_pathCalDone_s_3 = false ∧
    ((List.replicate 128 (3, 1000)) : List (BitVec 8 × Nat)).length = 128 ∧
    (pathOf (flockOf w_pathCalDone_s_3 (1 : Nat)) (0 : Nat)).tapsNew = some ([5] : List (BitVec 8)) ∧
    nextSat (exec (.pathCalDone (1 : Nat) (0 : Nat) ((List.replicate 128 (3, 1000)) : List (BitVec 8 × Nat))) w_pathCalDone_s_3)
      (fun t => decide ((pathOf (flockOf t (1 : Nat)) (0 : Nat)).taps = ([5] : List (BitVec 8))) &&
      decide ((pathOf (flockOf t (1 : Nat)) (0 : Nat)).tapsNew = none) &&
      decide ((pathOf (flockOf t (1 : Nat)) (0 : Nat)).locked = false ∧
      (pathOf (flockOf t (1 : Nat)) (0 : Nat)).mValid = false ∧
      (pathOf (flockOf t (1 : Nat)) (0 : Nat)).calOut = true)) = true) :=
  ⟨by decide +kernel, by decide +kernel⟩

theorem test_tallyPhaseCalStart :
    (tallyUnit w_tallyPhaseCalStart_s (0 : BitVec 2).toNat).due = true ∧
    (tallyUnit w_tallyPhaseCalStart_s (0 : BitVec 2).toNat).owner = .fw ∧
    tallyBusy (tallyUnit w_tallyPhaseCalStart_s (0 : BitVec 2).toNat) = false ∧
    (tallyUnit w_tallyPhaseCalStart_s (0 : BitVec 2).toNat).phaseCal = none ∧
    calRuns w_tallyPhaseCalStart_s = true ∧
    ((0 : BitVec 2) ≠ 0 ∨ unit0Free w_tallyPhaseCalStart_s 8192 = true) ∧
    turnOf w_tallyPhaseCalStart_s islandSource = true ∧
    nextSat (exec (.tallyPhaseCalStart (0 : BitVec 2)) w_tallyPhaseCalStart_s)
      (fun t => decide ((tallyUnit t (0 : BitVec 2).toNat).phaseCal = some w_tallyPhaseCalStart_s.time.total)) = true :=
  by decide +kernel

theorem test_tallyPhaseCalDone :
    (tallyUnit w_tallyPhaseCalDone_s (0 : BitVec 2).toNat).phaseCal = some (0 : Nat) ∧
    (0 : Nat) + 8192 ≤ w_tallyPhaseCalDone_s.time.total ∧
    coreRuns w_tallyPhaseCalDone_s = true ∧
    ((List.replicate 16 (1, 15600)) : List (BitVec 8 × Nat)).length = 16 ∧
    (tallyUnit w_tallyPhaseCalDone_s (0 : BitVec 2).toNat).owner = .fw ∧
    calMode w_tallyPhaseCalDone_s = true ∧
    (∀ y ∈ ((List.replicate 16 (1, 15600)) : List (BitVec 8 × Nat)), 4 * ((y.2 : Int) - 15625).natAbs ≤ 15625) ∧
    nextSat (exec (.tallyPhaseCalDone (0 : BitVec 2) ((List.replicate 16 (1, 15600)) : List (BitVec 8 × Nat))) w_tallyPhaseCalDone_s)
      (fun t => decide ((tallyUnit t (0 : BitVec 2).toNat).phaseCal = none) &&
      decide ((tallyUnit t (0 : BitVec 2).toNat).phases = ((List.replicate 16 (1, 15600)) : List (BitVec 8 × Nat)).map Prod.fst) &&
      decide ((tallyUnit t (0 : BitVec 2).toNat).due = false) &&
      decide (t.cal.tempAoLast = w_tallyPhaseCalDone_s.cal.tempAo)) = true :=
  by decide +kernel

theorem test_tallyPhaseCalDone_more :
    (tallyUnit w_tallyPhaseCalDone_s_2 (0 : BitVec 2).toNat).phaseCal = some (0 : Nat) ∧
    (0 : Nat) + 8192 ≤ w_tallyPhaseCalDone_s_2.time.total ∧
    coreRuns w_tallyPhaseCalDone_s_2 = true ∧
    ((List.replicate 16 (1, 5)) : List (BitVec 8 × Nat)).length = 16 ∧
    (tallyUnit w_tallyPhaseCalDone_s_2 (0 : BitVec 2).toNat).owner = .fw ∧
    calMode w_tallyPhaseCalDone_s_2 = true ∧
    ¬(∀ y ∈ ((List.replicate 16 (1, 5)) : List (BitVec 8 × Nat)), 4 * ((y.2 : Int) - 15625).natAbs ≤ 15625) ∧
    nextSat (exec (.tallyPhaseCalDone (0 : BitVec 2) ((List.replicate 16 (1, 5)) : List (BitVec 8 × Nat))) w_tallyPhaseCalDone_s_2)
      (fun t => decide ((tallyUnit t (0 : BitVec 2).toNat).phaseCal = none) &&
      decide ((tallyUnit t (0 : BitVec 2).toNat).phases = (tallyUnit w_tallyPhaseCalDone_s_2 (0 : BitVec 2).toNat).phases) &&
      decide ((tallyUnit t (0 : BitVec 2).toNat).rejected = !(tallyUnit w_tallyPhaseCalDone_s_2 (0 : BitVec 2).toNat).rejected) &&
      decide (t.cal.cntRej = w_tallyPhaseCalDone_s_2.cal.cntRej + 1) && decide (Flagged t .cal 1)) = true :=
  by decide +kernel

theorem test_chargePumpCalStart :
    (synOf w_chargePumpCalStart_s (.s1 : Syn)).due = true ∧
    w_chargePumpCalStart_s.root.aligned = true ∧
    w_chargePumpCalStart_s.root.active ≠ (.s1 : Syn) ∧
    (synOf w_chargePumpCalStart_s (.s1 : Syn)).locked = true ∧
    (synOf w_chargePumpCalStart_s (.s1 : Syn)).qualified = true ∧
    (synOf w_chargePumpCalStart_s (.s1 : Syn)).frozen = false ∧
    (synOf w_chargePumpCalStart_s (.s1 : Syn)).pumpCal = false ∧
    calRuns w_chargePumpCalStart_s = true ∧
    unit0Free w_chargePumpCalStart_s 25000 = true ∧
    tallyBusy w_chargePumpCalStart_s.tally.u0 = false ∧
    turnOf w_chargePumpCalStart_s islandSource = true ∧
    nextSat (exec (.chargePumpCalStart (.s1 : Syn)) w_chargePumpCalStart_s)
      (fun t => decide ((synOf t (.s1 : Syn)).pumpCal = true) && decide (t.root.aligned = false) &&
      decide (t.cal.pumpFrom = w_chargePumpCalStart_s.time.total)) = true :=
  by decide +kernel

theorem test_chargePumpCalDone :
    (synOf w_chargePumpCalDone_s (.s1 : Syn)).pumpCal = true ∧
    coreRuns w_chargePumpCalDone_s = true ∧
    calMode w_chargePumpCalDone_s = true ∧
    100 * (((1040 : Nat) : Int) - loopKHz w_chargePumpCalDone_s (.s1 : Syn)).natAbs ≤ 40 * loopKHz w_chargePumpCalDone_s (.s1 : Syn) ∧
    nextSat (exec (.chargePumpCalDone (.s1 : Syn) (1040 : Nat) (7 : BitVec 6)) w_chargePumpCalDone_s)
      (fun t => decide ((synOf t (.s1 : Syn)).pumpCal = false) &&
      decide ((synOf t (.s1 : Syn)).pumpTarget = (7 : BitVec 6)) && decide ((synOf t (.s1 : Syn)).due = false) &&
      decide ((synOf t (.s1 : Syn)).rejected = false)) = true :=
  by decide +kernel

theorem test_chargePumpCalDone_more :
    (synOf w_chargePumpCalDone_s_2 (.s1 : Syn)).pumpCal = true ∧
    coreRuns w_chargePumpCalDone_s_2 = true ∧
    calMode w_chargePumpCalDone_s_2 = true ∧
    40 * loopKHz w_chargePumpCalDone_s_2 (.s1 : Syn) < 100 * (((5 : Nat) : Int) - loopKHz w_chargePumpCalDone_s_2 (.s1 : Syn)).natAbs ∧
    nextSat (exec (.chargePumpCalDone (.s1 : Syn) (5 : Nat) (0 : BitVec 6)) w_chargePumpCalDone_s_2)
      (fun t => decide ((synOf t (.s1 : Syn)).pumpCal = false) &&
      decide ((synOf t (.s1 : Syn)).pumpTarget = (synOf w_chargePumpCalDone_s_2 (.s1 : Syn)).pumpTarget) &&
      decide ((synOf t (.s1 : Syn)).rejected = !(synOf w_chargePumpCalDone_s_2 (.s1 : Syn)).rejected) &&
      decide (t.cal.cntRej = w_chargePumpCalDone_s_2.cal.cntRej + 1) && decide (Flagged t .cal 1)) = true :=
  by decide +kernel

theorem test_calTimeout :
    v1Timeout w_calTimeout_s = true ∧
    coreRuns w_calTimeout_s = true ∧
    isSpare w_calTimeout_s (1 : Nat) (0 : Nat) = true ∧
    (genOf w_calTimeout_s (spareRow w_calTimeout_s.build (1 : Nat) (0 : Nat))).calFrom = some (0 : Nat) ∧
    (0 : Nat) + 4 * 706 ≤ w_calTimeout_s.time.total ∧
    nextSat (exec (.calTimeout (.spare (1 : Nat) (0 : Nat))) w_calTimeout_s)
      (fun t => decide ((genOf t (spareRow w_calTimeout_s.build (1 : Nat) (0 : Nat))).st = .locking) &&
      decide ((genOf t (spareRow w_calTimeout_s.build (1 : Nat) (0 : Nat))).calFrom = none) &&
      decide (Flagged t .cal 4)) = true :=
  by decide +kernel

theorem test_calTimeout_more :
    (v1Timeout w_calTimeout_s_2 = true ∧
    coreRuns w_calTimeout_s_2 = true ∧
    isPath w_calTimeout_s_2 (1 : Nat) (0 : Nat) = true ∧
    (pathOf (flockOf w_calTimeout_s_2 (1 : Nat)) (0 : Nat)).calOut = true ∧
    (pathOf (flockOf w_calTimeout_s_2 (1 : Nat)) (0 : Nat)).calFrom + 4 * 10240 ≤ w_calTimeout_s_2.time.total ∧
    nextSat (exec (.calTimeout (.path (1 : Nat) (0 : Nat))) w_calTimeout_s_2)
      (fun t => decide ((pathOf (flockOf t (1 : Nat)) (0 : Nat)).calOut = false) &&
      decide ((pathOf (flockOf t (1 : Nat)) (0 : Nat)).taps = (pathOf (flockOf w_calTimeout_s_2 (1 : Nat)) (0 : Nat)).tapsOld.getD (pathOf (flockOf w_calTimeout_s_2 (1 : Nat)) (0 : Nat)).taps) &&
      decide (Flagged t .cal 4)) = true) ∧
    (v1Timeout w_calTimeout_s_3 = true ∧
    coreRuns w_calTimeout_s_3 = true ∧
    (tallyUnit w_calTimeout_s_3 (0 : Nat)).phaseCal = some (0 : Nat) ∧
    (0 : Nat) + 4 * 8192 ≤ w_calTimeout_s_3.time.total ∧
    nextSat (exec (.calTimeout (.tally (0 : Nat))) w_calTimeout_s_3)
      (fun t => decide ((tallyUnit t (0 : Nat)).phaseCal = none) &&
      decide ((tallyUnit t (0 : Nat)).phases = (tallyUnit w_calTimeout_s_3 (0 : Nat)).phases) &&
      decide (Flagged t .cal 4)) = true) ∧
    (v1Timeout w_calTimeout_s_4 = true ∧
    coreRuns w_calTimeout_s_4 = true ∧
    (synOf w_calTimeout_s_4 (.s1 : Syn)).pumpCal = true ∧
    w_calTimeout_s_4.cal.pumpFrom + 4 * 25000 ≤ w_calTimeout_s_4.time.total ∧
    nextSat (exec (.calTimeout (.pump (.s1 : Syn))) w_calTimeout_s_4)
      (fun t => decide ((synOf t (.s1 : Syn)).pumpCal = false) &&
      decide ((synOf t (.s1 : Syn)).pumpTarget = (synOf w_calTimeout_s_4 (.s1 : Syn)).pumpTarget) &&
      decide (Flagged t .cal 4)) = true) :=
  ⟨by decide +kernel, by decide +kernel, by decide +kernel⟩

theorem test_cableIn :
    (mport w_cableIn_s (0 : BitVec 1)).cableAt + 65536 ≤ w_cableIn_s.time.slowEdges ∧
    (mport w_cableIn_s (0 : BitVec 1)).cable = false ∧
    (true : Bool) = true ∧
    portEn w_cableIn_s (0 : BitVec 1).toNat = true ∧
    nextSat (exec (.cableIn (0 : BitVec 1) (true : Bool)) w_cableIn_s)
      (fun t => decide ((mport t (0 : BitVec 1)).cableAt = w_cableIn_s.time.slowEdges) &&
      decide ((mport t (0 : BitVec 1)).cable = true) &&
      decide ((mport t (0 : BitVec 1)).st = if (mport w_cableIn_s (0 : BitVec 1)).st = .off ∨ (mport w_cableIn_s (0 : BitVec 1)).st = .noCable then .training else (mport w_cableIn_s (0 : BitVec 1)).st) &&
      decide (Flagged t .mus 0)) = true :=
  by decide +kernel

theorem test_cableIn_more :
    (mport w_cableIn_s_2 (0 : BitVec 1)).cableAt + 65536 ≤ w_cableIn_s_2.time.slowEdges ∧
    (mport w_cableIn_s_2 (0 : BitVec 1)).cable = true ∧
    (false : Bool) = false ∧
    portEn w_cableIn_s_2 (0 : BitVec 1).toNat = true ∧
    nextSat (exec (.cableIn (0 : BitVec 1) (false : Bool)) w_cableIn_s_2)
      (fun t => decide ((mport t (0 : BitVec 1)).cableAt = w_cableIn_s_2.time.slowEdges) &&
      decide ((mport t (0 : BitVec 1)).cable = false) && decide ((mport t (0 : BitVec 1)).st = .noCable) &&
      decide (Flagged t .mus 1) && decide (((mport w_cableIn_s_2 (0 : BitVec 1)).st = .up → Flagged t .mus 3 ∧
      t.mus.downs = w_cableIn_s_2.mus.downs + 1))) = true :=
  by decide +kernel

theorem test_portUp :
    (mport w_portUp_s (⟨0, 1024⟩ : LinkUp).port).st = .training ∧
    2 ≤ (mport w_portUp_s (⟨0, 1024⟩ : LinkUp).port).hellos ∧
    1024 ≤ (⟨0, 1024⟩ : LinkUp).clean ∧
    nextSat (exec (.portUp (⟨0, 1024⟩ : LinkUp)) w_portUp_s)
      (fun t => decide ((mport t (⟨0, 1024⟩ : LinkUp).port).st = .up) && decide (Flagged t .mus 2)) = true :=
  by decide +kernel

theorem test_portDown :
    (mport w_portDown_s (0 : BitVec 1)).st = .up ∧
    downs ((.errors 17) : DownCause) = true ∧
    nextSat (exec (.portDown (0 : BitVec 1) ((.errors 17) : DownCause)) w_portDown_s)
      (fun t => decide ((mport t (0 : BitVec 1)).st = if ((.errors 17) : DownCause) = DownCause.cable then .noCable else .training) &&
      decide (Flagged t .mus 3) && decide (t.mus.downs = w_portDown_s.mus.downs + 1) &&
      decide ((w_portDown_s.mus.parent = some (0 : BitVec 1) → roundOff w_portDown_s < 262144 → t.mus.parent = none ∧
      t.mus.hops = 0x3FF)) && decide ((w_portDown_s.mus.parent = some (0 : BitVec 1) → 327680 ≤ roundOff w_portDown_s →
      roundOff w_portDown_s < 655360 → w_portDown_s.mus.offsetSeen = false → roundRuns w_portDown_s = true →
      inTree (mport w_portDown_s (otherPort (0 : BitVec 1))) = true →
      wasSent t (otherPort (0 : BitVec 1)) 5 97 = true))) = true :=
  by decide +kernel

theorem test_helloSend :
    helloDue w_helloSend_s (mport w_helloSend_s (0 : BitVec 1)) = true ∧
    nextSat (exec (.helloSend (0 : BitVec 1)) w_helloSend_s)
      (fun t => decide (t.mus.sent = ((0 : BitVec 1), mkFrame w_helloSend_s (0 : BitVec 1) 1 255 false (leBytes 8 w_helloSend_s.time.counter ++ leBytes 1 (0 : BitVec 1).toNat)) :: w_helloSend_s.mus.sent)) = true :=
  by decide +kernel

theorem test_hello :
    (mport w_hello_s (0 : BitVec 1)).st ≠ .off ∧
    (mport w_hello_s (0 : BitVec 1)).st ≠ .noCable ∧
    w_hello_f.type = 1 ∧
    w_hello_f.crc = musterCrc w_hello_f ∧
    w_hello_f.root.toNat = rootId w_hello_s ∧
    nextSat (exec (.hello (0 : BitVec 1) w_hello_f) w_hello_s)
      (fun t => decide ((mport t (0 : BitVec 1)).peer = BitVec.ofNat 10 w_hello_f.src.toNat) &&
      decide ((mport t (0 : BitVec 1)).coarse = 256 * ((w_hello_s.time.counter : Int) - payNat w_hello_f 0 8) - (mport w_hello_s (0 : BitVec 1)).delay.toNat) &&
      decide ((mport t (0 : BitVec 1)).st = if w_hello_f.src.toNat = hostId w_hello_s then .loop else if (mport w_hello_s (0 : BitVec 1)).st = .loop ∨ (mport w_hello_s (0 : BitVec 1)).st = .conflict then .training else (mport w_hello_s (0 : BitVec 1)).st) &&
      decide (((mport t (0 : BitVec 1)).st = .training →
      (mport t (0 : BitVec 1)).hellos = (mport w_hello_s (0 : BitVec 1)).hellos + 1))) = true :=
  by decide +kernel

theorem test_hello_more :
    ((mport w_hello_s_2 (0 : BitVec 1)).st ≠ .off ∧
    (mport w_hello_s_2 (0 : BitVec 1)).st ≠ .noCable ∧
    w_hello_f_2.type = 1 ∧
    w_hello_f_2.crc = musterCrc w_hello_f_2 ∧
    w_hello_f_2.root.toNat = rootId w_hello_s_2 ∧
    isRoot w_hello_s_2 = false ∧
    coreRuns w_hello_s_2 = true ∧
    w_hello_s_2.mus.parent = some (0 : BitVec 1) ∧
    64 * 256 < (256 * ((w_hello_s_2.time.counter : Int) - payNat w_hello_f_2 0 8) - (mport w_hello_s_2 (0 : BitVec 1)).delay.toNat).natAbs ∧
    w_hello_s_2.time.firstBell = true ∧
    nextSat (exec (.hello (0 : BitVec 1) w_hello_f_2) w_hello_s_2)
      (fun t => decide (Flagged t .mus 11) &&
      decide (t.mus.farSlew = if 0 < 256 * ((w_hello_s_2.time.counter : Int) - payNat w_hello_f_2 0 8) - (mport w_hello_s_2 (0 : BitVec 1)).delay.toNat then -1 else 1) &&
      decide (t.mus.slewS = if 0 < 256 * ((w_hello_s_2.time.counter : Int) - payNat w_hello_f_2 0 8) - (mport w_hello_s_2 (0 : BitVec 1)).delay.toNat then -slewMax w_hello_s_2 else slewMax w_hello_s_2)) = true) ∧
    ((mport w_hello_s_3 (0 : BitVec 1)).st ≠ .off ∧
    (mport w_hello_s_3 (0 : BitVec 1)).st ≠ .noCable ∧
    w_hello_f_3.type = 1 ∧
    w_hello_f_3.crc ≠ musterCrc w_hello_f_3 ∧
    nextSat (exec (.hello (0 : BitVec 1) w_hello_f_3) w_hello_s_3)
      (fun t => decide (t.mus.discard = w_hello_s_3.mus.discard + 1) &&
      decide ((mport t (0 : BitVec 1)) = { (mport w_hello_s_3 (0 : BitVec 1)) with hellos := 0 })) = true) ∧
    ((mport w_hello_s_4 (0 : BitVec 1)).st ≠ .off ∧
    (mport w_hello_s_4 (0 : BitVec 1)).st ≠ .noCable ∧
    w_hello_f_4.type = 1 ∧
    w_hello_f_4.crc = musterCrc w_hello_f_4 ∧
    w_hello_f_4.root.toNat ≠ rootId w_hello_s_4 ∧
    nextSat (exec (.hello (0 : BitVec 1) w_hello_f_4) w_hello_s_4)
      (fun t => decide (t.mus.discard = w_hello_s_4.mus.discard + 1) &&
      decide ((mport t (0 : BitVec 1)).st = .conflict) && decide (Flagged t .mus 9) &&
      decide (((mport w_hello_s_4 (0 : BitVec 1)).st = .up → Flagged t .mus 3))) = true) :=
  ⟨by decide +kernel, by decide +kernel, by decide +kernel⟩

theorem test_roundStart :
    dueAt w_roundStart_s 0 = true ∧
    w_roundStart_s.mus.roundAt ≠ some w_roundStart_s.time.total ∧
    nextSat (exec (.roundStart) w_roundStart_s)
      (fun t => decide (t.mus.inRound = true) && decide (t.mus.round = w_roundStart_s.time.counter / 2 ^ 20) &&
      decide (t.mus.cfg = if coreRuns w_roundStart_s then nowGet w_roundStart_s 0xB000 else w_roundStart_s.mus.cfg) &&
      decide (t.mus.parent = none) && decide (t.mus.theta = none) && decide (t.mus.applied = false) &&
      decide (t.mus.hops = if isRoot t then 0 else 0x3FF) && decide (∀ p : BitVec 1, isRoot t = true →
      coreRuns w_roundStart_s = true → (mport t p).st = .up → wasSent t p 2 0 = true)) = true :=
  by decide +kernel

theorem test_tree :
    w_tree_f.type = 2 ∧
    w_tree_f.crc = musterCrc w_tree_f ∧
    w_tree_f.root.toNat = rootId w_tree_s ∧
    inTree (mport w_tree_s (0 : BitVec 1)) = true ∧
    (mport w_tree_s (0 : BitVec 1)).cut = false ∧
    (mport w_tree_s (0 : BitVec 1)).roundFailed = false ∧
    w_tree_f.round.toNat = roundNow w_tree_s ∧
    slotOk w_tree_f = true ∧
    w_tree_f.seq.toNat ∉ (mport w_tree_s (0 : BitVec 1)).seen ∧
    isRoot w_tree_s = false ∧
    takesPart w_tree_s = true ∧
    w_tree_f.hops.toNat + 1 ≤ 1023 ∧
    roundOff w_tree_s < 262144 ∧
    w_tree_s.mus.parent = none ∧
    nextSat (exec (.tree (0 : BitVec 1) w_tree_f) w_tree_s)
      (fun t => decide (t.mus.parent = some (0 : BitVec 1)) && decide (t.mus.hops = w_tree_f.hops.toNat + 1) &&
      decide ((mport t (0 : BitVec 1)).parent = true) &&
      decide ((inTree (mport w_tree_s (otherPort (0 : BitVec 1))) = true →
      wasSent t (otherPort (0 : BitVec 1)) 2 0 = true))) = true :=
  by decide +kernel

theorem test_tree_more :
    w_tree_f_2.type = 2 ∧
    w_tree_f_2.crc = musterCrc w_tree_f_2 ∧
    w_tree_f_2.root.toNat = rootId w_tree_s_2 ∧
    inTree (mport w_tree_s_2 (0 : BitVec 1)) = true ∧
    (mport w_tree_s_2 (0 : BitVec 1)).cut = false ∧
    (mport w_tree_s_2 (0 : BitVec 1)).roundFailed = false ∧
    w_tree_f_2.round.toNat = roundNow w_tree_s_2 ∧
    slotOk w_tree_f_2 = true ∧
    w_tree_f_2.seq.toNat ∉ (mport w_tree_s_2 (0 : BitVec 1)).seen ∧
    isRoot w_tree_s_2 = true ∧
    nextSat (exec (.tree (0 : BitVec 1) w_tree_f_2) w_tree_s_2)
      (fun t => decide (t.mus.parent = w_tree_s_2.mus.parent) && decide (t.mus.hops = w_tree_s_2.mus.hops) &&
      decide (t.mus.sent = w_tree_s_2.mus.sent)) = true :=
  by decide +kernel

theorem test_syncSend :
    w_syncSend_s.mus.inRound = true ∧
    roundRuns w_syncSend_s = true ∧
    dueAt w_syncSend_s (262144 + 1024 * (2 : BitVec 6).toNat) = true ∧
    inTree (mport w_syncSend_s 0) = true ∧
    wasSent w_syncSend_s 0 3 (1 + (2 : BitVec 6).toNat) = false ∧
    (some 400 : Option Int) = some (400 : Int) ∧
    unit0Times w_syncSend_s (exchangeAt w_syncSend_s (2 : BitVec 6).toNat) 0 = true ∧
    nextSat (exec (.syncSend (2 : BitVec 6) (some 400 : Option Int) (none : Option Int)) w_syncSend_s)
      (fun t => decide (wasSent t 0 3 (1 + (2 : BitVec 6).toNat) = true) &&
      decide (markerAt (mport t 0).tx (2 : BitVec 6).toNat = some (scaleTime w_syncSend_s (400 : Int)))) = true :=
  by decide +kernel

theorem test_syncSend_more :
    (w_syncSend_s_2.mus.inRound = true ∧
    roundRuns w_syncSend_s_2 = true ∧
    dueAt w_syncSend_s_2 (262144 + 1024 * (2 : BitVec 6).toNat) = true ∧
    inTree (mport w_syncSend_s_2 1) = true ∧
    wasSent w_syncSend_s_2 1 3 (1 + (2 : BitVec 6).toNat) = false ∧
    (some 400 : Option Int) = some (400 : Int) ∧
    unit0Times w_syncSend_s_2 (exchangeAt w_syncSend_s_2 (2 : BitVec 6).toNat) 2 = true ∧
    nextSat (exec (.syncSend (2 : BitVec 6) (none : Option Int) (some 400 : Option Int)) w_syncSend_s_2)
      (fun t => decide (wasSent t 1 3 (1 + (2 : BitVec 6).toNat) = true) &&
      decide (markerAt (mport t 1).tx (2 : BitVec 6).toNat = some (scaleTime w_syncSend_s_2 (400 : Int)))) = true) ∧
    (w_syncSend_s_3.mus.inRound = true ∧
    roundRuns w_syncSend_s_3 = true ∧
    dueAt w_syncSend_s_3 (262144 + 1024 * (2 : BitVec 6).toNat) = true ∧
    inTree (mport w_syncSend_s_3 0) = true ∧
    wasSent w_syncSend_s_3 0 3 (1 + (2 : BitVec 6).toNat) = false ∧
    ((some 400 : Option Int) = none ∨ unit0Times w_syncSend_s_3 (exchangeAt w_syncSend_s_3 (2 : BitVec 6).toNat) 0 = false) ∧
    nextSat (exec (.syncSend (2 : BitVec 6) (some 400 : Option Int) (none : Option Int)) w_syncSend_s_3)
      (fun t => decide (wasSent t 0 3 (1 + (2 : BitVec 6).toNat) = true) &&
      decide ((mport t 0).tx = (mport w_syncSend_s_3 0).tx)) = true) :=
  ⟨by decide +kernel, by decide +kernel⟩

theorem test_sync :
    w_sync_f.type = 3 ∧
    w_sync_f.crc = musterCrc w_sync_f ∧
    w_sync_f.root.toNat = rootId w_sync_s ∧
    inTree (mport w_sync_s (0 : BitVec 1)) = true ∧
    (mport w_sync_s (0 : BitVec 1)).cut = false ∧
    (mport w_sync_s (0 : BitVec 1)).roundFailed = false ∧
    w_sync_f.round.toNat = roundNow w_sync_s ∧
    slotOk w_sync_f = true ∧
    w_sync_f.seq.toNat ∉ (mport w_sync_s (0 : BitVec 1)).seen ∧
    (some 400 : Option Int) = some (400 : Int) ∧
    unit0Times w_sync_s (exchangeAt w_sync_s (w_sync_f.seq.toNat - 1)) (2 * (0 : BitVec 1).toNat + 1) = true ∧
    nextSat (exec (.sync (0 : BitVec 1) w_sync_f (some 400 : Option Int)) w_sync_s)
      (fun t => decide (markerAt (mport t (0 : BitVec 1)).rx (w_sync_f.seq.toNat - 1) = some (scaleTime w_sync_s (400 : Int))) &&
      decide ((mport t (0 : BitVec 1)).seen = w_sync_f.seq.toNat :: (mport w_sync_s (0 : BitVec 1)).seen)) = true :=
  by decide +kernel

theorem test_sync_more :
    (mport w_sync_s_2 (0 : BitVec 1)).st ≠ .off ∧
    (mport w_sync_s_2 (0 : BitVec 1)).st ≠ .noCable ∧
    w_sync_f_2.type = 3 ∧
    w_sync_f_2.crc = musterCrc w_sync_f_2 ∧
    w_sync_f_2.root.toNat = rootId w_sync_s_2 ∧
    (mport w_sync_s_2 (0 : BitVec 1)).cut = false ∧
    (mport w_sync_s_2 (0 : BitVec 1)).roundFailed = false ∧
    w_sync_f_2.round.toNat = roundNow w_sync_s_2 ∧
    (slotOk w_sync_f_2 = false ∨ w_sync_f_2.seq.toNat ∈ (mport w_sync_s_2 (0 : BitVec 1)).seen) ∧
    nextSat (exec (.sync (0 : BitVec 1) w_sync_f_2 (none : Option Int)) w_sync_s_2)
      (fun t => decide ((mport t (0 : BitVec 1)).roundFailed = true) &&
      decide ((mport t (0 : BitVec 1)).rx = (mport w_sync_s_2 (0 : BitVec 1)).rx) &&
      decide (t.mus.discard = w_sync_s_2.mus.discard + 1)) = true :=
  by decide +kernel

theorem test_followSend :
    w_followSend_s.mus.inRound = true ∧
    roundRuns w_followSend_s = true ∧
    dueAt w_followSend_s (262144 + 1024 * (2 * (0 : BitVec 5).toNat + 1) + 512) = true ∧
    nextSat (exec (.followSend (0 : BitVec 5)) w_followSend_s)
      (fun t => decide (∀ p : BitVec 1, inTree (mport w_followSend_s p) = true →
      wasSent t p 4 (65 + (0 : BitVec 5).toNat) = true) &&
      decide ((0, mkFrame w_followSend_s 0 4 65 false (leBytes 4 7 ++ leBytes 4 1 ++ (leBytes 4 11 ++ leBytes 4 1))) ∈ t.mus.sent)) = true :=
  by decide +kernel

theorem test_follow :
    w_follow_f.type = 4 ∧
    w_follow_f.crc = musterCrc w_follow_f ∧
    w_follow_f.root.toNat = rootId w_follow_s ∧
    inTree (mport w_follow_s (0 : BitVec 1)) = true ∧
    (mport w_follow_s (0 : BitVec 1)).cut = false ∧
    (mport w_follow_s (0 : BitVec 1)).roundFailed = false ∧
    w_follow_f.round.toNat = roundNow w_follow_s ∧
    slotOk w_follow_f = true ∧
    w_follow_f.seq.toNat ∉ (mport w_follow_s (0 : BitVec 1)).seen ∧
    nextSat (exec (.follow (0 : BitVec 1) w_follow_f) w_follow_s)
      (fun t => decide ((mport t (0 : BitVec 1)).sums = (2 * (w_follow_f.seq.toNat - 65), paySigned w_follow_f 0 4, paySigned w_follow_f 4 4) :: (2 * (w_follow_f.seq.toNat - 65) + 1, paySigned w_follow_f 8 4, paySigned w_follow_f 12 4) :: (mport w_follow_s (0 : BitVec 1)).sums)) = true :=
  by decide +kernel

theorem test_offset :
    w_offset_f.frame.type = 5 ∧
    w_offset_f.frame.crc = musterCrc w_offset_f.frame ∧
    w_offset_f.frame.root.toNat = rootId w_offset_s ∧
    inTree (mport w_offset_s (0 : BitVec 1)) = true ∧
    (mport w_offset_s (0 : BitVec 1)).cut = false ∧
    (mport w_offset_s (0 : BitVec 1)).roundFailed = false ∧
    w_offset_f.frame.round.toNat = roundNow w_offset_s ∧
    slotOk w_offset_f.frame = true ∧
    w_offset_f.frame.seq.toNat ∉ (mport w_offset_s (0 : BitVec 1)).seen ∧
    w_offset_f.served = true ∧
    w_offset_s.mus.parent = some (0 : BitVec 1) ∧
    w_offset_s.mus.offsetSeen = false ∧
    roundRuns w_offset_s = true ∧
    roundOff w_offset_s < 655360 ∧
    w_offset_s.mus.thetaP = some (3 : Rat) ∧
    nextSat (exec (.offset (0 : BitVec 1) w_offset_f) w_offset_s)
      (fun t => decide (t.mus.offsetSeen = true) &&
      decide (t.mus.theta = if w_offset_f.frame.flags.getLsbD 1 then none else some ((3 : Rat) + paySigned w_offset_f.frame 0 8)) &&
      decide ((inTree (mport w_offset_s (otherPort (0 : BitVec 1))) = true →
      wasSent t (otherPort (0 : BitVec 1)) 5 97 = true)) && decide (t.shep = w_offset_s.shep)) = true :=
  by decide +kernel

theorem test_offset_more :
    w_offset_f_2.frame.type = 5 ∧
    w_offset_f_2.frame.crc = musterCrc w_offset_f_2.frame ∧
    w_offset_f_2.frame.root.toNat = rootId w_offset_s_2 ∧
    inTree (mport w_offset_s_2 (0 : BitVec 1)) = true ∧
    (mport w_offset_s_2 (0 : BitVec 1)).cut = false ∧
    (mport w_offset_s_2 (0 : BitVec 1)).roundFailed = false ∧
    w_offset_f_2.frame.round.toNat = roundNow w_offset_s_2 ∧
    slotOk w_offset_f_2.frame = true ∧
    w_offset_f_2.frame.seq.toNat ∉ (mport w_offset_s_2 (0 : BitVec 1)).seen ∧
    w_offset_f_2.served = false ∧
    w_offset_s_2.shep.state = .running ∧
    nextSat (exec (.offset (0 : BitVec 1) w_offset_f_2) w_offset_s_2)
      (fun t => decide (t.shep.hung = true) && decide (t.mus.theta = w_offset_s_2.mus.theta) &&
      decide (t.mus.offsetSeen = w_offset_s_2.mus.offsetSeen)) = true :=
  by decide +kernel

theorem test_muDone :
    w_muDone_f.type = 6 ∧
    w_muDone_f.crc = musterCrc w_muDone_f ∧
    w_muDone_f.root.toNat = rootId w_muDone_s ∧
    inTree (mport w_muDone_s (0 : BitVec 1)) = true ∧
    (mport w_muDone_s (0 : BitVec 1)).cut = false ∧
    (mport w_muDone_s (0 : BitVec 1)).roundFailed = false ∧
    w_muDone_f.round.toNat = roundNow w_muDone_s ∧
    slotOk w_muDone_f = true ∧
    w_muDone_f.seq.toNat ∉ (mport w_muDone_s (0 : BitVec 1)).seen ∧
    nextSat (exec (.muDone (0 : BitVec 1) w_muDone_f) w_muDone_s)
      (fun t => decide ((mport t (0 : BitVec 1)).childDone = some (payNat w_muDone_f 0 2, payNat w_muDone_f 2 2, payNat w_muDone_f 4 4, payNat w_muDone_f 8 2)) &&
      decide ((mport t (0 : BitVec 1)).child = true)) = true :=
  by decide +kernel

theorem test_doneDeadline :
    w_doneDeadline_s.mus.inRound = true ∧
    roundRuns w_doneDeadline_s = true ∧
    dueAt w_doneDeadline_s (655360 + 320 * (1024 - w_doneDeadline_s.mus.hops)) = true ∧
    w_doneDeadline_s.mus.parent = some (0 : BitVec 1) ∧
    inTree (mport w_doneDeadline_s (0 : BitVec 1)) = true ∧
    w_doneDeadline_s.mus.doneSent = false ∧
    nextSat (exec (.doneDeadline) w_doneDeadline_s)
      (fun t => decide (t.mus.doneSent = true) && decide (wasSent t (0 : BitVec 1) 6 98 = true)) = true :=
  by decide +kernel

theorem test_upSweep :
    w_upSweep_s.mus.inRound = true ∧
    roundRuns w_upSweep_s = true ∧
    dueAt w_upSweep_s 655360 = true ∧
    allDone w_upSweep_s = true ∧
    w_upSweep_s.mus.parent = some (0 : BitVec 1) ∧
    inTree (mport w_upSweep_s (0 : BitVec 1)) = true ∧
    w_upSweep_s.mus.doneSent = false ∧
    nextSat (exec (.upSweep) w_upSweep_s)
      (fun t => decide (t.mus.doneSent = true) && decide (wasSent t (0 : BitVec 1) 6 98 = true)) = true :=
  by decide +kernel

theorem test_downSweep :
    w_downSweep_s.mus.inRound = true ∧
    roundRuns w_downSweep_s = true ∧
    dueAt w_downSweep_s 327680 = true ∧
    isRoot w_downSweep_s = true ∧
    w_downSweep_s.mus.parent = none ∧
    nextSat (exec (.downSweep) w_downSweep_s)
      (fun t => decide (∀ p : BitVec 1, inTree (mport w_downSweep_s p) = true → wasSent t p 5 97 = true)) = true :=
  by decide +kernel

theorem test_downSweep_more :
    w_downSweep_s_2.mus.inRound = true ∧
    roundRuns w_downSweep_s_2 = true ∧
    dueAt w_downSweep_s_2 327680 = true ∧
    isRoot w_downSweep_s_2 = false ∧
    w_downSweep_s_2.mus.parent = some (0 : BitVec 1) ∧
    inTree (mport w_downSweep_s_2 (0 : BitVec 1)) = false ∧
    w_downSweep_s_2.mus.offsetSeen = false ∧
    nextSat (exec (.downSweep) w_downSweep_s_2)
      (fun t => decide ((inTree (mport w_downSweep_s_2 (otherPort (0 : BitVec 1))) = true →
      wasSent t (otherPort (0 : BitVec 1)) 5 97 = true))) = true :=
  by decide +kernel

theorem test_muApply :
    w_muApply_s.mus.inRound = true ∧
    w_muApply_s.mus.applied = false ∧
    dueAt w_muApply_s 983040 = true ∧
    isRoot w_muApply_s = true ∧
    ppsEn w_muApply_s = false ∧
    nextSat (exec (.muApply) w_muApply_s)
      (fun t => decide (t.mus.applied = true) && decide (t.mus.freqF = 0) && decide (t.mus.slewS = 0) &&
      decide (t.mus.mode = 0) && decide (t.mus.holdover = false) && decide (t.mus.reached = (subtree w_muApply_s).1) &&
      decide (Flagged t .mus 8) && decide (t.mus.statHops = w_muApply_s.mus.hops) && decide (t.mus.shownF = 0 ∧
      t.mus.shownS = 0)) = true :=
  by decide +kernel

theorem test_muApply_more :
    (w_muApply_s_2.mus.inRound = true ∧
    w_muApply_s_2.mus.applied = false ∧
    dueAt w_muApply_s_2 983040 = true ∧
    isRoot w_muApply_s_2 = false ∧
    w_muApply_s_2.mus.theta = some (40000 : Rat) ∧
    roundRuns w_muApply_s_2 = true ∧
    w_muApply_s_2.root.bypass = false ∧
    nextSat (exec (.muApply) w_muApply_s_2)
      (fun t => decide (t.mus.applied = true) &&
      decide (t.mus.freqF = clampRat (-25000) 25000 (w_muApply_s_2.mus.freqF - ((40000 : Rat) + (w_muApply_s_2.mus.rotor - w_muApply_s_2.mus.rotorMid)) * 1000000000 / (8 * roundTime))) &&
      decide (t.mus.slewS = clampRat (-slewMax w_muApply_s_2) (slewMax w_muApply_s_2) (-((40000 : Rat) + (w_muApply_s_2.mus.rotor - w_muApply_s_2.mus.rotorMid)) * 1000000000 / roundTime)) &&
      decide (t.mus.lastTheta = nearest ((40000 : Rat) + (w_muApply_s_2.mus.rotor - w_muApply_s_2.mus.rotorMid))) &&
      decide (t.mus.mode = 2) && decide (t.mus.holdover = false) &&
      decide (t.mus.statParent = w_muApply_s_2.mus.parent)) = true) ∧
    (w_muApply_s_3.mus.inRound = true ∧
    w_muApply_s_3.mus.applied = false ∧
    dueAt w_muApply_s_3 983040 = true ∧
    isRoot w_muApply_s_3 = false ∧
    w_muApply_s_3.mus.theta = none ∧
    nextSat (exec (.muApply) w_muApply_s_3)
      (fun t => decide (t.mus.applied = true) && decide (t.mus.freqF = w_muApply_s_3.mus.freqF) &&
      decide (t.mus.holdover = true) && decide (t.mus.holdRounds = satAt 65535 (w_muApply_s_3.mus.holdRounds + 1)) &&
      decide (t.mus.mode = if w_muApply_s_3.mus.farSlew ≠ 0 then 4 else if takesPart w_muApply_s_3 = false ∨ (w_muApply_s_3.mus.hopsOver = true ∧
      w_muApply_s_3.mus.parent = none) then 5 else 3) && decide ((w_muApply_s_3.mus.holdover = false →
      Flagged t .mus 4))) = true) ∧
    (w_muApply_s_4.mus.inRound = true ∧
    w_muApply_s_4.mus.applied = false ∧
    dueAt w_muApply_s_4 983040 = true ∧
    isRoot w_muApply_s_4 = true ∧
    ppsEn w_muApply_s_4 = true ∧
    coreRuns w_muApply_s_4 = true ∧
    w_muApply_s_4.root.bypass = false ∧
    w_muApply_s_4.mus.ppsUse = some (40 : Int) ∧
    w_muApply_s_4.time.total ≤ w_muApply_s_4.mus.ppsSeen + 500000000 ∧
    nextSat (exec (.muApply) w_muApply_s_4)
      (fun t => decide (t.mus.applied = true) &&
      decide (t.mus.freqF = clampRat (-25000) 25000 (w_muApply_s_4.mus.freqF - (40 : Int) * 1000000000 / (8 * 4000000000000))) &&
      decide (t.mus.slewS = clampRat (-slewMax w_muApply_s_4) (slewMax w_muApply_s_4) (-(40 : Int) * 1000000000 / roundTime)) &&
      decide (t.mus.mode = 1) && decide (t.mus.ppsUse = none) && decide (t.mus.holdover = false)) = true) :=
  ⟨by decide +kernel, by decide +kernel, by decide +kernel⟩

theorem test_ageTransfer :
    ageEn w_ageTransfer_s = true ∧
    coreRuns w_ageTransfer_s = true ∧
    256 ≤ w_ageTransfer_s.mus.fRounds ∧
    w_ageTransfer_s.mus.holdover = false ∧
    nextSat (exec (.ageTransfer) w_ageTransfer_s)
      (fun t => decide (t.mus.fSum = 0) && decide (t.mus.fRounds = 0) &&
      decide (t.out.waiting = w_ageTransfer_s.out.waiting ++ [⟨⟨.shep, 15, none⟩, 0x2034, BitVec.ofNat 32 (intField 12 (max (-2048) (min 2047 (signedFld (nowGet w_ageTransfer_s 0x2034) 0 12 + (nearest (w_ageTransfer_s.mus.fSum / w_ageTransfer_s.mus.fRounds / 10)))))), [((nearest (w_ageTransfer_s.mus.fSum / w_ageTransfer_s.mus.fRounds / 10))).toNat, (-(nearest (w_ageTransfer_s.mus.fSum / w_ageTransfer_s.mus.fRounds / 10))).toNat, 1]⟩])) = true :=
  by decide +kernel

theorem test_ppsInEdge :
    w_ppsInEdge_s.mus.todArmed = true ∧
    nextSat (exec (.ppsInEdge (0 : Int)) w_ppsInEdge_s)
      (fun t => decide (t.mus.todArmed = false) && decide (t.time = w_ppsInEdge_s.time) &&
      decide (t.mus.todLoad = some ((nowGet w_ppsInEdge_s 0xB030).toNat + 2 ^ 32 * (nowGet w_ppsInEdge_s 0xB034).toNat, w_ppsInEdge_s.time.total + (if w_ppsInEdge_s.root.bypass then 5 else 1)))) = true :=
  by decide +kernel

theorem test_ppsInEdge_more :
    (isRoot w_ppsInEdge_s_2 = true ∧
    ppsEn w_ppsInEdge_s_2 = true ∧
    coreRuns w_ppsInEdge_s_2 = true ∧
    meetsExchange (nearSecond w_ppsInEdge_s_2) = false ∧
    (40 : Int).natAbs ≤ 8192000 ∧
    unit0Times w_ppsInEdge_s_2 (nearSecond w_ppsInEdge_s_2 - 512) 0 = true ∧
    nextSat (exec (.ppsInEdge (40 : Int)) w_ppsInEdge_s_2)
      (fun t => decide (t.mus.ppsUse = some ((40 : Int) + signedFld (nowGet w_ppsInEdge_s_2 0xB004) 0 32)) &&
      decide (t.mus.ppsErr = (40 : Int) + signedFld (nowGet w_ppsInEdge_s_2 0xB004) 0 32) &&
      decide (t.mus.ppsSeen = w_ppsInEdge_s_2.time.total)) = true) ∧
    (isRoot w_ppsInEdge_s_3 = true ∧
    ppsEn w_ppsInEdge_s_3 = true ∧
    coreRuns w_ppsInEdge_s_3 = true ∧
    meetsExchange (nearSecond w_ppsInEdge_s_3) = false ∧
    8192000 < (9000000 : Int).natAbs ∧
    nextSat (exec (.ppsInEdge (9000000 : Int)) w_ppsInEdge_s_3)
      (fun t => decide (t.mus.ppsUse = w_ppsInEdge_s_3.mus.ppsUse) &&
      decide (t.mus.ppsSeen = w_ppsInEdge_s_3.time.total) && decide (Flagged t .mus 10)) = true) :=
  ⟨by decide +kernel, by decide +kernel⟩

theorem test_ppsOut :
    w_ppsOut_s.mus.ppsOutAt = none ∧
    w_ppsOut_s.time.counter % 250000000 < max 1 w_ppsOut_s.time.inc ∧
    nextSat (exec (.ppsOut) w_ppsOut_s)
      (fun t => decide (t.mus.ppsOutAt = some (elapsed w_ppsOut_s))) = true :=
  by decide +kernel

theorem test_todArm :
    Performs (⟨.host, 15, none⟩ : Wr) 0xB038 tUp ∧
    (BitVec.ofNat 8 (fld (1 : Word) 0 8) ≠ tUp.mus.todTag ∧
    nextSat (exec (.todArm (⟨.host, 15, none⟩ : Wr) (1 : Word)) tUp)
      (fun t => decide (t.mus.todTag = BitVec.ofNat 8 (fld (1 : Word) 0 8)) &&
      decide (t.mus.todArmed = true)) = true) :=
  ⟨⟨by decide, by decide, by decide, by decide, by decide⟩, by decide +kernel⟩

theorem test_fwOpen :
    Performs (⟨.host, 15, none⟩ : Wr) 0xC024 w_fwOpen_s ∧
    ((1 : BitVec 8) ≠ w_fwOpen_s.shep.cmdTag ∧
    w_fwOpen_s.shep.active ≠ some (1 : BitVec 1) ∧
    w_fwOpen_s.shep.committed = none ∧
    nextSat (exec (.fwOpen (⟨.host, 15, none⟩ : Wr) (1 : BitVec 1) (1 : BitVec 8)) w_fwOpen_s)
      (fun t => decide ((swBank t (1 : BitVec 1)) = { st := .opened }) &&
      decide ((w_fwOpen_s.shep.swap = some (1 : BitVec 1) → t.shep.swap = none ∧ Flagged t .shep 6)) &&
      decide (t.shep.cmdTag = (1 : BitVec 8)) && decide (t.shep.rej = 0)) = true) :=
  ⟨⟨by decide, by decide, by decide, by decide, by decide⟩, by decide +kernel⟩

theorem test_fwOpen_more :
    (Performs (⟨.host, 15, none⟩ : Wr) 0xC024 w_fwOpen_s_2 ∧
    ((1 : BitVec 8) ≠ w_fwOpen_s_2.shep.cmdTag ∧
    (w_fwOpen_s_2.shep.active = some (1 : BitVec 1) ∨ w_fwOpen_s_2.shep.committed.isSome = true) ∧
    nextSat (exec (.fwOpen (⟨.host, 15, none⟩ : Wr) (1 : BitVec 1) (1 : BitVec 8)) w_fwOpen_s_2)
      (fun t => decide ((swBank t (1 : BitVec 1)) = (swBank w_fwOpen_s_2 (1 : BitVec 1))) &&
      decide (t.shep.cmdTag = (1 : BitVec 8)) && decide (t.shep.rej = 1) && decide (Flagged t .shep 12)) = true)) :=
  ⟨⟨by decide, by decide, by decide, by decide, by decide⟩, by decide +kernel⟩

theorem test_fwSeal :
    Performs (⟨.host, 15, none⟩ : Wr) 0xC024 w_fwSeal_s ∧
    ((1 : BitVec 8) ≠ w_fwSeal_s.shep.cmdTag ∧
    (swBank w_fwSeal_s (0 : BitVec 1)).st = .opened ∧
    nextSat (exec (.fwSeal (⟨.host, 15, none⟩ : Wr) (0 : BitVec 1) (1 : BitVec 8)) w_fwSeal_s)
      (fun t => decide ((swBank t (0 : BitVec 1)).wcount = (swBank w_fwSeal_s (0 : BitVec 1)).wcount) &&
      decide (((swBank w_fwSeal_s (0 : BitVec 1)).wcount < imgLength w_fwSeal_s (0 : BitVec 1) / 32 →
      (swBank t (0 : BitVec 1)).st = .waiting ∧ (swBank t (0 : BitVec 1)).timer = elapsed w_fwSeal_s + 4096)) &&
      decide (((swBank w_fwSeal_s (0 : BitVec 1)).wcount = imgLength w_fwSeal_s (0 : BitVec 1) / 32 →
      (swBank t (0 : BitVec 1)).st = .verify ∧
      (swBank t (0 : BitVec 1)).timer = elapsed w_fwSeal_s + imgVerifyTicks w_fwSeal_s (0 : BitVec 1))) &&
      decide ((imgLength w_fwSeal_s (0 : BitVec 1) / 32 < (swBank w_fwSeal_s (0 : BitVec 1)).wcount →
      (swBank t (0 : BitVec 1)).st = .opened ∧ t.shep.sealRes = 2 ∧ Flagged t .shep 4)) &&
      decide (t.shep.cmdTag = (1 : BitVec 8)) && decide (t.shep.rej = 0)) = true) :=
  ⟨⟨by decide, by decide, by decide, by decide, by decide⟩, by decide +kernel⟩

theorem test_fwSeal_more :
    (Performs (⟨.host, 15, none⟩ : Wr) 0xC024 tUp ∧
    ((1 : BitVec 8) ≠ tUp.shep.cmdTag ∧
    (swBank tUp (0 : BitVec 1)).st ≠ .opened ∧
    nextSat (exec (.fwSeal (⟨.host, 15, none⟩ : Wr) (0 : BitVec 1) (1 : BitVec 8)) tUp)
      (fun t => decide ((swBank t (0 : BitVec 1)) = (swBank tUp (0 : BitVec 1))) &&
      decide (t.shep.cmdTag = (1 : BitVec 8)) && decide (t.shep.rej = 2) && decide (Flagged t .shep 12)) = true)) :=
  ⟨⟨by decide, by decide, by decide, by decide, by decide⟩, by decide +kernel⟩

theorem test_fwSwap :
    Performs (⟨.host, 15, none⟩ : Wr) 0xC024 w_fwSwap_s ∧
    ((1 : BitVec 8) ≠ w_fwSwap_s.shep.cmdTag ∧
    (swBank w_fwSwap_s (0 : BitVec 1)).st ≠ .empty ∧
    (swBank w_fwSwap_s (0 : BitVec 1)).st ≠ .active ∧
    nextSat (exec (.fwSwap (⟨.host, 15, none⟩ : Wr) (0 : BitVec 1) (1 : BitVec 8)) w_fwSwap_s)
      (fun t => decide (t.shep.swap = some (0 : BitVec 1)) && decide (t.shep.cmdTag = (1 : BitVec 8)) &&
      decide (t.shep.rej = 0)) = true) :=
  ⟨⟨by decide, by decide, by decide, by decide, by decide⟩, by decide +kernel⟩

theorem test_fwSwap_more :
    (Performs (⟨.host, 15, none⟩ : Wr) 0xC024 tUp ∧
    ((1 : BitVec 8) ≠ tUp.shep.cmdTag ∧
    ((swBank tUp (0 : BitVec 1)).st = .empty ∨ (swBank tUp (0 : BitVec 1)).st = .active) ∧
    nextSat (exec (.fwSwap (⟨.host, 15, none⟩ : Wr) (0 : BitVec 1) (1 : BitVec 8)) tUp)
      (fun t => decide (t.shep.swap = tUp.shep.swap) && decide (t.shep.cmdTag = (1 : BitVec 8)) &&
      decide (t.shep.rej = 3) && decide (Flagged t .shep 12)) = true)) :=
  ⟨⟨by decide, by decide, by decide, by decide, by decide⟩, by decide +kernel⟩

theorem test_fwBankInvalidOp :
    Performs (⟨.host, 15, none⟩ : Wr) 0xC024 tUp ∧
    ((1 : BitVec 8) ≠ tUp.shep.cmdTag ∧
    4 ≤ (5 : BitVec 3).toNat ∧
    nextSat (exec (.fwBankInvalidOp (⟨.host, 15, none⟩ : Wr) (5 : BitVec 3) (1 : BitVec 8)) tUp)
      (fun t => decide (t.shep.b0 = tUp.shep.b0) && decide (t.shep.b1 = tUp.shep.b1) &&
      decide (t.shep.cmdTag = (1 : BitVec 8)) && decide (t.shep.rej = 4) && decide (Flagged t .shep 12)) = true) :=
  ⟨⟨by decide, by decide, by decide, by decide, by decide⟩, by decide +kernel⟩

theorem test_fwSealShort :
    (swBank w_fwSealShort_s (1 : BitVec 1)).st = .waiting ∧
    (swBank w_fwSealShort_s (1 : BitVec 1)).timer ≤ elapsed w_fwSealShort_s ∧
    nextSat (exec (.fwSealShort (1 : BitVec 1)) w_fwSealShort_s)
      (fun t => decide ((swBank t (1 : BitVec 1)).st = .opened) &&
      decide ((swBank t (1 : BitVec 1)).wcount = (swBank w_fwSealShort_s (1 : BitVec 1)).wcount) &&
      decide (t.shep.sealRes = 1) && decide (Flagged t .shep 4)) = true :=
  by decide +kernel

theorem test_fwVerifyDone :
    (swBank tImage (0 : BitVec 1)).st = .verify ∧
    (swBank tImage (0 : BitVec 1)).timer ≤ elapsed tImage ∧
    imgCheck tImage (0 : BitVec 1) = 0 ∧
    nextSat (exec (.fwVerifyDone (0 : BitVec 1)) tImage)
      (fun t => decide ((swBank t (0 : BitVec 1)).st = .sealed) && decide (t.shep.sealRes = 0) &&
      decide (Flagged t .shep 3)) = true :=
  by decide +kernel

theorem test_fwVerifyDone_more :
    (swBank w_fwVerifyDone_s_2 (0 : BitVec 1)).st = .verify ∧
    (swBank w_fwVerifyDone_s_2 (0 : BitVec 1)).timer ≤ elapsed w_fwVerifyDone_s_2 ∧
    imgCheck w_fwVerifyDone_s_2 (0 : BitVec 1) ≠ 0 ∧
    nextSat (exec (.fwVerifyDone (0 : BitVec 1)) w_fwVerifyDone_s_2)
      (fun t => decide ((swBank t (0 : BitVec 1)).st = .opened) &&
      decide (t.shep.sealRes = BitVec.ofNat 4 (imgCheck w_fwVerifyDone_s_2 (0 : BitVec 1))) &&
      decide (Flagged t .shep 4) && decide ((imgCheck w_fwVerifyDone_s_2 (0 : BitVec 1) = 5 → Flagged t .cfg 8 ∧
      t.cfg.denyPort = 1))) = true :=
  by decide +kernel

theorem test_fwSwapPreStart :
    w_fwSwapPreStart_s.shep.swap = some (0 : BitVec 1) ∧
    w_fwSwapPreStart_s.fold.started = false ∧
    w_fwSwapPreStart_s.fold.pending = false ∧
    slowNow w_fwSwapPreStart_s = true ∧
    (swBank w_fwSwapPreStart_s (0 : BitVec 1)).st = .sealed ∧
    nextSat (exec (.fwSwapPreStart) w_fwSwapPreStart_s)
      (fun t => decide (t.shep.active = some (0 : BitVec 1)) && decide ((swBank t (0 : BitVec 1)).st = .active) &&
      decide (t.shep.swap = none) && decide (t.shep.state = .running) &&
      decide (t.shep.boot = if w_fwSwapPreStart_s.shep.active = none then 1 else 2) && decide (Flagged t .shep 5) &&
      decide ((∀ a, w_fwSwapPreStart_s.shep.active = some a → a ≠ (0 : BitVec 1) →
      (swBank t a).st = .sealed))) = true :=
  by decide +kernel

theorem test_halt :
    w_halt_s.shep.state = .running ∧
    haltHolds w_halt_s (.loadFault : HaltCause) (0x30000 : Word).toNat = true ∧
    nextSat (exec (.halt (.loadFault : HaltCause) (0x100 : Word) (0x30000 : Word)) w_halt_s)
      (fun t => decide (t.shep.state = .halted) && decide (t.shep.haltAt = w_halt_s.shep.edges) &&
      decide (t.shep.haltCount = if w_halt_s.shep.haltCount = 255 then 255 else w_halt_s.shep.haltCount + 1) &&
      decide (Flagged t .shep 0) && decide ((mbox t 1).status = 0xE2) &&
      decide (t.shep.haltCause = BitVec.ofNat 4 (haltCode (.loadFault : HaltCause))) &&
      decide (t.shep.haltPc = (0x100 : Word)) &&
      decide (t.shep.haltVal = haltValue w_halt_s (.loadFault : HaltCause) (0x30000 : Word))) = true :=
  by decide +kernel

theorem test_halt_more :
    (w_halt_s_2.shep.state ≠ .running ∨ haltHolds w_halt_s_2 (.loadFault : HaltCause) (0x77 : Word).toNat = false) ∧
    nextSat (exec (.halt (.loadFault : HaltCause) (0 : Word) (0x77 : Word)) w_halt_s_2)
      (fun t => decide (t.shep = w_halt_s_2.shep)) = true :=
  by decide +kernel

theorem test_shepAssertWrite :
    w_shepAssertWrite_s.shep.state = .running ∧
    nextSat (exec (.shepAssertWrite (7 : BitVec 16) (0x200 : Word)) w_shepAssertWrite_s)
      (fun t => decide (t.shep.state = .halted) && decide (t.shep.haltAt = w_shepAssertWrite_s.shep.edges) &&
      decide (t.shep.haltCount = if w_shepAssertWrite_s.shep.haltCount = 255 then 255 else w_shepAssertWrite_s.shep.haltCount + 1) &&
      decide (Flagged t .shep 0) && decide ((mbox t 1).status = 0xE2) && decide (t.shep.haltCause = 9) &&
      decide (t.shep.haltPc = (0x200 : Word)) && decide (t.shep.haltVal = (7 : BitVec 16).setWidth 32)) = true :=
  by decide +kernel

theorem test_haltRestart :
    w_haltRestart_s.shep.state = .halted ∧
    bitAt (nowGet w_haltRestart_s 0xC008) 0 = true ∧
    w_haltRestart_s.shep.haltAt + 256 ≤ w_haltRestart_s.shep.edges ∧
    w_haltRestart_s.shep.active.isSome = true ∧
    nextSat (exec (.haltRestart) w_haltRestart_s)
      (fun t => decide (t.shep.state = .running) && decide (t.shep.boot = 6) && decide (Flagged t .shep 2) &&
      decide (t.shep.restarts = if w_haltRestart_s.shep.restarts = 255 then 255 else w_haltRestart_s.shep.restarts + 1)) = true :=
  by decide +kernel

theorem test_wdog :
    w_wdog_s.shep.state = .running ∧
    bitAt (nowGet w_wdog_s 0xC008) 6 = true ∧
    w_wdog_s.shep.wdogOut = false ∧
    wdogPeriod w_wdog_s ≤ w_wdog_s.shep.wdogCount ∧
    bitAt (nowGet w_wdog_s 0xC008) 5 = true ∧
    w_wdog_s.shep.active.isSome = true ∧
    nextSat (exec (.wdog) w_wdog_s)
      (fun t => decide (t.shep.state = .running) && decide (t.shep.boot = 5) &&
      decide (t.shep.wdogBox = takenBox w_wdog_s) && decide (Flagged t .shep 1) && decide (Flagged t .shep 2)) = true :=
  by decide +kernel

theorem test_wdog_more :
    w_wdog_s_2.shep.state = .running ∧
    bitAt (nowGet w_wdog_s_2 0xC008) 6 = true ∧
    w_wdog_s_2.shep.wdogOut = false ∧
    wdogPeriod w_wdog_s_2 ≤ w_wdog_s_2.shep.wdogCount ∧
    bitAt (nowGet w_wdog_s_2 0xC008) 5 = false ∧
    nextSat (exec (.wdog) w_wdog_s_2)
      (fun t => decide (t.shep = { w_wdog_s_2.shep with wdogOut := true }) && decide (Flagged t .shep 1)) = true :=
  by decide +kernel

theorem test_watchdogKick :
    w_watchdogKick_s.shep.state = .running ∧
    bitAt (1 : Word) 0 = true ∧
    nextSat (exec (.watchdogKick (1 : Word)) w_watchdogKick_s)
      (fun t => decide (t.shep.wdogCount = 0) && decide (t.shep.wdogOut = false)) = true :=
  by decide +kernel

theorem test_eccCorr :
    nextSat (exec (.eccCorr (true : Bool)) tUp)
      (fun t => decide (t.shep.eccInsn = (if (true : Bool) = true ∧
      tUp.shep.eccInsn ≠ 65535 then tUp.shep.eccInsn + 1 else tUp.shep.eccInsn)) &&
      decide (t.shep.eccData = (if (true : Bool) = false ∧
      tUp.shep.eccData ≠ 65535 then tUp.shep.eccData + 1 else tUp.shep.eccData)) &&
      decide (Flagged t .shep 10)) = true :=
  by decide +kernel

theorem test_mbxGo :
    Performs (⟨.host, 15, none⟩ : Wr) ((mbxAddr (0 : BitVec 2).toNat 0)) tUp ∧
    (isMbox (0 : BitVec 2) = true ∧
    mbxClient (⟨.host, 15, none⟩ : Wr).port (0 : BitVec 2).toNat = true ∧
    (0 : BitVec 2) ≠ 2 ∧
    (mbox tUp (0 : BitVec 2).toNat).slot = .idle ∧
    nextSat (exec (.mbxGo (⟨.host, 15, none⟩ : Wr) (0 : BitVec 2)) tUp)
      (fun t => decide ((mbox t (0 : BitVec 2).toNat).slot = .posted) && decide (t.crook = tUp.crook)) = true) :=
  ⟨⟨by decide, by decide, by decide, by decide, by decide⟩, by decide +kernel⟩

theorem test_mbxGo_more :
    (Performs (⟨.host, 15, none⟩ : Wr) ((mbxAddr (2 : BitVec 2).toNat 0)) w_mbxGo_s_2 ∧
    (isMbox (2 : BitVec 2) = true ∧
    mbxClient (⟨.host, 15, none⟩ : Wr).port (2 : BitVec 2).toNat = true ∧
    (2 : BitVec 2) = 2 ∧
    w_mbxGo_s_2.crook.armed = true ∧
    (⟨.host, 15, none⟩ : Wr).rival = none ∧
    (mbox w_mbxGo_s_2 (2 : BitVec 2).toNat).slot = .idle ∧
    nextSat (exec (.mbxGo (⟨.host, 15, none⟩ : Wr) (2 : BitVec 2)) w_mbxGo_s_2)
      (fun t => decide ((mbox t (2 : BitVec 2).toNat).slot = .posted) && decide (t.crook.armed = false)) = true)) ∧
    (Performs (⟨.host, 15, none⟩ : Wr) ((mbxAddr (2 : BitVec 2).toNat 0)) tUp ∧
    (isMbox (2 : BitVec 2) = true ∧
    mbxClient (⟨.host, 15, none⟩ : Wr).port (2 : BitVec 2).toNat = true ∧
    (2 : BitVec 2) = 2 ∧
    tUp.crook.armed = false ∧
    nextSat (exec (.mbxGo (⟨.host, 15, none⟩ : Wr) (2 : BitVec 2)) tUp)
      (fun t => decide ((mbox t (2 : BitVec 2).toNat) = (mbox tUp (2 : BitVec 2).toNat)) &&
      decide (Flagged t .mbx 6)) = true)) ∧
    (Performs (⟨.host, 15, none⟩ : Wr) ((mbxAddr (0 : BitVec 2).toNat 0)) w_mbxGo_s_4 ∧
    (isMbox (0 : BitVec 2) = true ∧
    mbxClient (⟨.host, 15, none⟩ : Wr).port (0 : BitVec 2).toNat = true ∧
    (0 : BitVec 2) ≠ 2 ∧
    (mbox w_mbxGo_s_4 (0 : BitVec 2).toNat).slot ≠ .idle ∧
    nextSat (exec (.mbxGo (⟨.host, 15, none⟩ : Wr) (0 : BitVec 2)) w_mbxGo_s_4)
      (fun t => decide ((mbox t (0 : BitVec 2).toNat) = (mbox w_mbxGo_s_4 (0 : BitVec 2).toNat)) &&
      decide (Flagged t .mbx (3 + (0 : BitVec 2).toNat))) = true)) ∧
    (Performs (⟨.host, 15, none⟩ : Wr) ((mbxAddr (0 : BitVec 2).toNat 0)) tUp ∧
    (isMbox (0 : BitVec 2) = true ∧
    mbxClient (⟨.host, 15, none⟩ : Wr).port (0 : BitVec 2).toNat = true ∧
    (0 : BitVec 2) ≠ 2 ∧
    (mbox tUp (0 : BitVec 2).toNat).slot = .idle ∧
    nextSat (exec (.mbxGo (⟨.host, 15, none⟩ : Wr) (0 : BitVec 2)) tUp)
      (fun t => decide ((mbox t (0 : BitVec 2).toNat).slot = .posted) && decide (t.crook = tUp.crook)) = true)) ∧
    (Performs (⟨.host, 15, none⟩ : Wr) ((mbxAddr (2 : BitVec 2).toNat 0)) w_mbxGo_s_6 ∧
    (isMbox (2 : BitVec 2) = true ∧
    mbxClient (⟨.host, 15, none⟩ : Wr).port (2 : BitVec 2).toNat = true ∧
    (2 : BitVec 2) = 2 ∧
    w_mbxGo_s_6.crook.armed = true ∧
    (⟨.host, 15, none⟩ : Wr).rival = none ∧
    (mbox w_mbxGo_s_6 (2 : BitVec 2).toNat).slot = .idle ∧
    nextSat (exec (.mbxGo (⟨.host, 15, none⟩ : Wr) (2 : BitVec 2)) w_mbxGo_s_6)
      (fun t => decide ((mbox t (2 : BitVec 2).toNat).slot = .posted) && decide (t.crook.armed = false)) = true)) ∧
    (Performs (⟨.host, 15, none⟩ : Wr) ((mbxAddr (2 : BitVec 2).toNat 0)) tUp ∧
    (isMbox (2 : BitVec 2) = true ∧
    mbxClient (⟨.host, 15, none⟩ : Wr).port (2 : BitVec 2).toNat = true ∧
    (2 : BitVec 2) = 2 ∧
    tUp.crook.armed = false ∧
    nextSat (exec (.mbxGo (⟨.host, 15, none⟩ : Wr) (2 : BitVec 2)) tUp)
      (fun t => decide ((mbox t (2 : BitVec 2).toNat) = (mbox tUp (2 : BitVec 2).toNat)) &&
      decide (Flagged t .mbx 6)) = true)) ∧
    (Performs (⟨.host, 15, none⟩ : Wr) ((mbxAddr (0 : BitVec 2).toNat 0)) w_mbxGo_s_8 ∧
    (isMbox (0 : BitVec 2) = true ∧
    mbxClient (⟨.host, 15, none⟩ : Wr).port (0 : BitVec 2).toNat = true ∧
    (0 : BitVec 2) ≠ 2 ∧
    (mbox w_mbxGo_s_8 (0 : BitVec 2).toNat).slot ≠ .idle ∧
    nextSat (exec (.mbxGo (⟨.host, 15, none⟩ : Wr) (0 : BitVec 2)) w_mbxGo_s_8)
      (fun t => decide ((mbox t (0 : BitVec 2).toNat) = (mbox w_mbxGo_s_8 (0 : BitVec 2).toNat)) &&
      decide (Flagged t .mbx (3 + (0 : BitVec 2).toNat))) = true)) :=
  ⟨⟨⟨by decide, by decide, by decide, by decide, by decide⟩, by decide +kernel⟩,
   ⟨⟨by decide, by decide, by decide, by decide, by decide⟩, by decide +kernel⟩,
   ⟨⟨by decide, by decide, by decide, by decide, by decide⟩, by decide +kernel⟩,
   ⟨⟨by decide, by decide, by decide, by decide, by decide⟩, by decide +kernel⟩,
   ⟨⟨by decide, by decide, by decide, by decide, by decide⟩, by decide +kernel⟩,
   ⟨⟨by decide, by decide, by decide, by decide, by decide⟩, by decide +kernel⟩,
   ⟨⟨by decide, by decide, by decide, by decide, by decide⟩, by decide +kernel⟩⟩

theorem test_mbxWithdraw :
    Performs (⟨.host, 15, none⟩ : Wr) ((mbxAddr (0 : BitVec 2).toNat 0)) w_mbxWithdraw_s ∧
    (isMbox (0 : BitVec 2) = true ∧
    mbxClient (⟨.host, 15, none⟩ : Wr).port (0 : BitVec 2).toNat = true ∧
    (0 : BitVec 2) ≠ 2 ∧
    ((mbox w_mbxWithdraw_s (0 : BitVec 2).toNat).slot = .posted ∨ ((mbox w_mbxWithdraw_s (0 : BitVec 2).toNat).slot = .taken ∧
      w_mbxWithdraw_s.time.slowEdges ≤ (mbox w_mbxWithdraw_s (0 : BitVec 2).toNat).takenAt + 1)) ∧
    nextSat (exec (.mbxWithdraw (⟨.host, 15, none⟩ : Wr) (0 : BitVec 2)) w_mbxWithdraw_s)
      (fun t => decide ((mbox t (0 : BitVec 2).toNat).slot = .idle) &&
      decide ((mbox t (0 : BitVec 2).toNat).status = 0xE3) &&
      decide ((mbox t (0 : BitVec 2).toNat).tag = BitVec.ofNat 8 (fld (mbox w_mbxWithdraw_s (0 : BitVec 2).toNat).cmd 8 8)) &&
      decide ((mbox t (0 : BitVec 2).toNat).res = (mbox w_mbxWithdraw_s (0 : BitVec 2).toNat).res) &&
      decide ((mbox t (0 : BitVec 2).toNat).doneCount = (mbox w_mbxWithdraw_s (0 : BitVec 2).toNat).doneCount + 1) &&
      decide (Flagged t .mbx (0 : BitVec 2).toNat)) = true) :=
  ⟨⟨by decide, by decide, by decide, by decide, by decide⟩, by decide +kernel⟩

theorem test_mbxWithdraw_more :
    (Performs (⟨.host, 15, none⟩ : Wr) ((mbxAddr (2 : BitVec 2).toNat 0)) w_mbxWithdraw_s_2 ∧
    (isMbox (2 : BitVec 2) = true ∧
    mbxClient (⟨.host, 15, none⟩ : Wr).port (2 : BitVec 2).toNat = true ∧
    (2 : BitVec 2) = 2 ∧
    w_mbxWithdraw_s_2.crook.armed = true ∧
    (⟨.host, 15, none⟩ : Wr).rival = none ∧
    (mbox w_mbxWithdraw_s_2 (2 : BitVec 2).toNat).slot = .posted ∧
    nextSat (exec (.mbxWithdraw (⟨.host, 15, none⟩ : Wr) (2 : BitVec 2)) w_mbxWithdraw_s_2)
      (fun t => decide ((mbox t (2 : BitVec 2).toNat).slot = .idle) &&
      decide ((mbox t (2 : BitVec 2).toNat).status = 0xE3) &&
      decide ((mbox t (2 : BitVec 2).toNat).res = (mbox w_mbxWithdraw_s_2 (2 : BitVec 2).toNat).res) &&
      decide ((mbox t (2 : BitVec 2).toNat).doneCount = (mbox w_mbxWithdraw_s_2 (2 : BitVec 2).toNat).doneCount + 1) &&
      decide (Flagged t .mbx 2) && decide (t.crook = w_mbxWithdraw_s_2.crook)) = true)) ∧
    (Performs (⟨.host, 15, none⟩ : Wr) ((mbxAddr (2 : BitVec 2).toNat 0)) tUp ∧
    (isMbox (2 : BitVec 2) = true ∧
    mbxClient (⟨.host, 15, none⟩ : Wr).port (2 : BitVec 2).toNat = true ∧
    (2 : BitVec 2) = 2 ∧
    tUp.crook.armed = false ∧
    nextSat (exec (.mbxWithdraw (⟨.host, 15, none⟩ : Wr) (2 : BitVec 2)) tUp)
      (fun t => decide ((mbox t (2 : BitVec 2).toNat) = (mbox tUp (2 : BitVec 2).toNat)) &&
      decide (Flagged t .mbx 6)) = true)) ∧
    (Performs (⟨.host, 15, none⟩ : Wr) ((mbxAddr (0 : BitVec 2).toNat 0)) tUp ∧
    (isMbox (0 : BitVec 2) = true ∧
    mbxClient (⟨.host, 15, none⟩ : Wr).port (0 : BitVec 2).toNat = true ∧
    (0 : BitVec 2) ≠ 2 ∧
    ((mbox tUp (0 : BitVec 2).toNat).slot = .idle ∨ ((mbox tUp (0 : BitVec 2).toNat).slot = .taken ∧
      (mbox tUp (0 : BitVec 2).toNat).takenAt + 1 < tUp.time.slowEdges)) ∧
    nextSat (exec (.mbxWithdraw (⟨.host, 15, none⟩ : Wr) (0 : BitVec 2)) tUp)
      (fun t => decide ((mbox t (0 : BitVec 2).toNat) = (mbox tUp (0 : BitVec 2).toNat))) = true)) ∧
    (Performs (⟨.host, 15, none⟩ : Wr) ((mbxAddr (0 : BitVec 2).toNat 0)) w_mbxWithdraw_s_5 ∧
    (isMbox (0 : BitVec 2) = true ∧
    mbxClient (⟨.host, 15, none⟩ : Wr).port (0 : BitVec 2).toNat = true ∧
    (0 : BitVec 2) ≠ 2 ∧
    ((mbox w_mbxWithdraw_s_5 (0 : BitVec 2).toNat).slot = .posted ∨ ((mbox w_mbxWithdraw_s_5 (0 : BitVec 2).toNat).slot = .taken ∧
      w_mbxWithdraw_s_5.time.slowEdges ≤ (mbox w_mbxWithdraw_s_5 (0 : BitVec 2).toNat).takenAt + 1)) ∧
    nextSat (exec (.mbxWithdraw (⟨.host, 15, none⟩ : Wr) (0 : BitVec 2)) w_mbxWithdraw_s_5)
      (fun t => decide ((mbox t (0 : BitVec 2).toNat).slot = .idle) &&
      decide ((mbox t (0 : BitVec 2).toNat).status = 0xE3) &&
      decide ((mbox t (0 : BitVec 2).toNat).tag = BitVec.ofNat 8 (fld (mbox w_mbxWithdraw_s_5 (0 : BitVec 2).toNat).cmd 8 8)) &&
      decide ((mbox t (0 : BitVec 2).toNat).res = (mbox w_mbxWithdraw_s_5 (0 : BitVec 2).toNat).res) &&
      decide ((mbox t (0 : BitVec 2).toNat).doneCount = (mbox w_mbxWithdraw_s_5 (0 : BitVec 2).toNat).doneCount + 1) &&
      decide (Flagged t .mbx (0 : BitVec 2).toNat)) = true)) ∧
    (Performs (⟨.host, 15, none⟩ : Wr) ((mbxAddr (2 : BitVec 2).toNat 0)) w_mbxWithdraw_s_6 ∧
    (isMbox (2 : BitVec 2) = true ∧
    mbxClient (⟨.host, 15, none⟩ : Wr).port (2 : BitVec 2).toNat = true ∧
    (2 : BitVec 2) = 2 ∧
    w_mbxWithdraw_s_6.crook.armed = true ∧
    (⟨.host, 15, none⟩ : Wr).rival = none ∧
    (mbox w_mbxWithdraw_s_6 (2 : BitVec 2).toNat).slot = .posted ∧
    nextSat (exec (.mbxWithdraw (⟨.host, 15, none⟩ : Wr) (2 : BitVec 2)) w_mbxWithdraw_s_6)
      (fun t => decide ((mbox t (2 : BitVec 2).toNat).slot = .idle) &&
      decide ((mbox t (2 : BitVec 2).toNat).status = 0xE3) &&
      decide ((mbox t (2 : BitVec 2).toNat).res = (mbox w_mbxWithdraw_s_6 (2 : BitVec 2).toNat).res) &&
      decide ((mbox t (2 : BitVec 2).toNat).doneCount = (mbox w_mbxWithdraw_s_6 (2 : BitVec 2).toNat).doneCount + 1) &&
      decide (Flagged t .mbx 2) && decide (t.crook = w_mbxWithdraw_s_6.crook)) = true)) ∧
    (Performs (⟨.host, 15, none⟩ : Wr) ((mbxAddr (2 : BitVec 2).toNat 0)) tUp ∧
    (isMbox (2 : BitVec 2) = true ∧
    mbxClient (⟨.host, 15, none⟩ : Wr).port (2 : BitVec 2).toNat = true ∧
    (2 : BitVec 2) = 2 ∧
    tUp.crook.armed = false ∧
    nextSat (exec (.mbxWithdraw (⟨.host, 15, none⟩ : Wr) (2 : BitVec 2)) tUp)
      (fun t => decide ((mbox t (2 : BitVec 2).toNat) = (mbox tUp (2 : BitVec 2).toNat)) &&
      decide (Flagged t .mbx 6)) = true)) ∧
    (Performs (⟨.host, 15, none⟩ : Wr) ((mbxAddr (0 : BitVec 2).toNat 0)) tUp ∧
    (isMbox (0 : BitVec 2) = true ∧
    mbxClient (⟨.host, 15, none⟩ : Wr).port (0 : BitVec 2).toNat = true ∧
    (0 : BitVec 2) ≠ 2 ∧
    ((mbox tUp (0 : BitVec 2).toNat).slot = .idle ∨ ((mbox tUp (0 : BitVec 2).toNat).slot = .taken ∧
      (mbox tUp (0 : BitVec 2).toNat).takenAt + 1 < tUp.time.slowEdges)) ∧
    nextSat (exec (.mbxWithdraw (⟨.host, 15, none⟩ : Wr) (0 : BitVec 2)) tUp)
      (fun t => decide ((mbox t (0 : BitVec 2).toNat) = (mbox tUp (0 : BitVec 2).toNat))) = true)) :=
  ⟨⟨⟨by decide, by decide, by decide, by decide, by decide⟩, by decide +kernel⟩,
   ⟨⟨by decide, by decide, by decide, by decide, by decide⟩, by decide +kernel⟩,
   ⟨⟨by decide, by decide, by decide, by decide, by decide⟩, by decide +kernel⟩,
   ⟨⟨by decide, by decide, by decide, by decide, by decide⟩, by decide +kernel⟩,
   ⟨⟨by decide, by decide, by decide, by decide, by decide⟩, by decide +kernel⟩,
   ⟨⟨by decide, by decide, by decide, by decide, by decide⟩, by decide +kernel⟩,
   ⟨⟨by decide, by decide, by decide, by decide, by decide⟩, by decide +kernel⟩⟩

theorem test_mbxTake :
    coreRuns w_mbxTake_s = true ∧
    takenBox w_mbxTake_s = none ∧
    [2, 0, 1].find? (fun k => decide ((mbox w_mbxTake_s k).slot = .posted) &&
      !withdrawing w_mbxTake_s k) = some (2 : Nat) ∧
    nextSat (exec (.mbxTake) w_mbxTake_s)
      (fun t => decide ((mbox t (2 : Nat)).slot = .taken) &&
      decide ((mbox t (2 : Nat)).cmd = (mbox w_mbxTake_s (2 : Nat)).cmd)) = true :=
  by decide +kernel

theorem test_mbxTake_more :
    coreRuns w_mbxTake_s_2 = true ∧
    takenBox w_mbxTake_s_2 = none ∧
    [2, 0, 1].find? (fun k => decide ((mbox w_mbxTake_s_2 k).slot = .posted) &&
      !withdrawing w_mbxTake_s_2 k) = some (2 : Nat) ∧
    nextSat (exec (.mbxTake) w_mbxTake_s_2)
      (fun t => decide ((mbox t (2 : Nat)).slot = .taken) &&
      decide ((mbox t (2 : Nat)).cmd = (mbox w_mbxTake_s_2 (2 : Nat)).cmd)) = true :=
  by decide +kernel

theorem test_version :
    coreRuns w_version_s = true ∧
    takenBox w_version_s = some (0 : Nat) ∧
    fld (mbox w_version_s (0 : Nat)).cmd 0 8 = 1 ∧
    (∀ k < 8, 0 ≤ k → argOf w_version_s (0 : Nat) k = 0) ∧
    w_version_s.shep.active = some (0 : BitVec 1) ∧
    nextSat (exec (.version) w_version_s)
      (fun t => decide ((mbox t (0 : Nat)).slot = .idle) && decide ((mbox t (0 : Nat)).status = 0) &&
      decide ((mbox t (0 : Nat)).tag = BitVec.ofNat 8 (fld (mbox w_version_s (0 : Nat)).cmd 8 8)) &&
      decide ((mbox t (0 : Nat)).doneCount = (mbox w_version_s (0 : Nat)).doneCount + 1) &&
      decide (Flagged t .mbx (0 : Nat)) && decide (t.shep.completed = w_version_s.shep.completed + 1) &&
      decide (tabGet (mbox t (0 : Nat)).res 0 0 = BitVec.ofNat 32 (imgVersion w_version_s (0 : BitVec 1))) &&
      decide (tabGet (mbox t (0 : Nat)).res 1 0 = BitVec.ofNat 32 (imgField w_version_s (0 : BitVec 1) 10 2))) = true :=
  by decide +kernel

theorem test_version_more :
    coreRuns w_version_s_2 = true ∧
    takenBox w_version_s_2 = some (0 : Nat) ∧
    fld (mbox w_version_s_2 (0 : Nat)).cmd 0 8 = 1 ∧
    (0 : Nat) < 8 ∧
    argOf w_version_s_2 (0 : Nat) (0 : Nat) ≠ 0 ∧
    nextSat (exec (.version) w_version_s_2)
      (fun t => decide ((mbox t (0 : Nat)).slot = .idle) && decide ((mbox t (0 : Nat)).status = 3) &&
      decide ((mbox t (0 : Nat)).tag = BitVec.ofNat 8 (fld (mbox w_version_s_2 (0 : Nat)).cmd 8 8)) &&
      decide ((mbox t (0 : Nat)).doneCount = (mbox w_version_s_2 (0 : Nat)).doneCount + 1) &&
      decide (Flagged t .mbx (0 : Nat)) && decide (t.shep.completed = w_version_s_2.shep.completed + 1)) = true :=
  by decide +kernel

theorem test_status :
    coreRuns w_status_s = true ∧
    takenBox w_status_s = some (1 : Nat) ∧
    fld (mbox w_status_s (1 : Nat)).cmd 0 8 = 2 ∧
    (∀ k < 8, 0 ≤ k → argOf w_status_s (1 : Nat) k = 0) ∧
    nextSat (exec (.status) w_status_s)
      (fun t => decide ((mbox t (1 : Nat)).slot = .idle) && decide ((mbox t (1 : Nat)).status = 0) &&
      decide ((mbox t (1 : Nat)).tag = BitVec.ofNat 8 (fld (mbox w_status_s (1 : Nat)).cmd 8 8)) &&
      decide ((mbox t (1 : Nat)).doneCount = (mbox w_status_s (1 : Nat)).doneCount + 1) &&
      decide (Flagged t .mbx (1 : Nat)) && decide (t.shep.completed = w_status_s.shep.completed + 1) &&
      decide (tabGet (mbox t (1 : Nat)).res 0 0 = packWord [(0, 1, b2n (w_status_s.shep.rowJob.state = 1)), (1, 1, b2n (w_status_s.shep.xcalJob.state = 1)), (8, 1, b2n (calHeld w_status_s))]) &&
      decide (tabGet (mbox t (1 : Nat)).res 1 0 = BitVec.ofNat 32 ((w_status_s.time.total - w_status_s.shep.startAt) / 2 ^ 20)) &&
      decide (tabGet (mbox t (1 : Nat)).res 2 0 = w_status_s.shep.internal) &&
      decide (tabGet (mbox t (1 : Nat)).res 3 0 = BitVec.ofNat 32 w_status_s.shep.completed)) = true :=
  by decide +kernel

theorem test_nop :
    coreRuns w_nop_s = true ∧
    takenBox w_nop_s = some (2 : Nat) ∧
    fld (mbox w_nop_s (2 : Nat)).cmd 0 8 = 3 ∧
    (∀ k < 8, 1 ≤ k → argOf w_nop_s (2 : Nat) k = 0) ∧
    nextSat (exec (.nop) w_nop_s)
      (fun t => decide ((mbox t (2 : Nat)).slot = .idle) && decide ((mbox t (2 : Nat)).status = 0) &&
      decide ((mbox t (2 : Nat)).tag = BitVec.ofNat 8 (fld (mbox w_nop_s (2 : Nat)).cmd 8 8)) &&
      decide ((mbox t (2 : Nat)).doneCount = (mbox w_nop_s (2 : Nat)).doneCount + 1) &&
      decide (Flagged t .mbx (2 : Nat)) && decide (t.shep.completed = w_nop_s.shep.completed + 1) &&
      decide (tabGet (mbox t (2 : Nat)).res 0 0 = BitVec.ofNat 32 (argOf w_nop_s (2 : Nat) 0))) = true :=
  by decide +kernel

theorem test_cfgCommit :
    coreRuns w_cfgCommit_s = true ∧
    takenBox w_cfgCommit_s = some (0 : Nat) ∧
    fld (mbox w_cfgCommit_s (0 : Nat)).cmd 0 8 = 32 ∧
    (0 : Nat) = 0 ∧
    (∀ k < 8, 0 ≤ k → argOf w_cfgCommit_s (0 : Nat) k = 0) ∧
    (rcgDict w_cfgCommit_s).length ≤ 32 :=
  by decide +kernel

theorem test_cfgCommit_more :
    (coreRuns w_cfgCommit_s_2 = true ∧
    takenBox w_cfgCommit_s_2 = some (0 : Nat) ∧
    fld (mbox w_cfgCommit_s_2 (0 : Nat)).cmd 0 8 = 32 ∧
    (0 : Nat) = 0 ∧
    (∀ k < 8, 0 ≤ k → argOf w_cfgCommit_s_2 (0 : Nat) k = 0) ∧
    32 < (rcgDict w_cfgCommit_s_2).length ∧
    nextSat (exec (.cfgCommit) w_cfgCommit_s_2)
      (fun t => decide ((mbox t (0 : Nat)).slot = .idle) && decide ((mbox t (0 : Nat)).status = 6) &&
      decide ((mbox t (0 : Nat)).tag = BitVec.ofNat 8 (fld (mbox w_cfgCommit_s_2 (0 : Nat)).cmd 8 8)) &&
      decide ((mbox t (0 : Nat)).doneCount = (mbox w_cfgCommit_s_2 (0 : Nat)).doneCount + 1) &&
      decide (Flagged t .mbx (0 : Nat)) && decide (t.shep.completed = w_cfgCommit_s_2.shep.completed + 1) &&
      decide (tabGet (mbox t (0 : Nat)).res 0 0 = 4) && decide (t.ret = w_cfgCommit_s_2.ret)) = true) ∧
    (coreRuns w_cfgCommit_s_3 = true ∧
    takenBox w_cfgCommit_s_3 = some (1 : Nat) ∧
    fld (mbox w_cfgCommit_s_3 (1 : Nat)).cmd 0 8 = 32 ∧
    (1 : Nat) ≠ 0 ∧
    nextSat (exec (.cfgCommit) w_cfgCommit_s_3)
      (fun t => decide ((mbox t (1 : Nat)).slot = .idle) && decide ((mbox t (1 : Nat)).status = 4) &&
      decide ((mbox t (1 : Nat)).tag = BitVec.ofNat 8 (fld (mbox w_cfgCommit_s_3 (1 : Nat)).cmd 8 8)) &&
      decide ((mbox t (1 : Nat)).doneCount = (mbox w_cfgCommit_s_3 (1 : Nat)).doneCount + 1) &&
      decide (Flagged t .mbx (1 : Nat)) && decide (t.shep.completed = w_cfgCommit_s_3.shep.completed + 1) &&
      decide (t.ret = w_cfgCommit_s_3.ret)) = true) :=
  ⟨by decide +kernel, by decide +kernel⟩

theorem test_identify :
    coreRuns w_identify_s = true ∧
    takenBox w_identify_s = some (0 : Nat) ∧
    fld (mbox w_identify_s (0 : Nat)).cmd 0 8 = 33 ∧
    (0 : Nat) ≠ 2 ∧
    (∀ k < 8, 1 ≤ k → argOf w_identify_s (0 : Nat) k = 0) ∧
    argOf w_identify_s (0 : Nat) 0 ≤ 3600 ∧
    nextSat (exec (.identify) w_identify_s)
      (fun t => decide ((mbox t (0 : Nat)).slot = .idle) && decide ((mbox t (0 : Nat)).status = 0) &&
      decide ((mbox t (0 : Nat)).tag = BitVec.ofNat 8 (fld (mbox w_identify_s (0 : Nat)).cmd 8 8)) &&
      decide ((mbox t (0 : Nat)).doneCount = (mbox w_identify_s (0 : Nat)).doneCount + 1) &&
      decide (Flagged t .mbx (0 : Nat)) && decide (t.shep.completed = w_identify_s.shep.completed + 1) &&
      decide (t.shep.identifyEnd = if argOf w_identify_s (0 : Nat) 0 = 0 then none else some (w_identify_s.time.counter + 250000000 * argOf w_identify_s (0 : Nat) 0))) = true :=
  by decide +kernel

theorem test_identify_more :
    coreRuns w_identify_s_2 = true ∧
    takenBox w_identify_s_2 = some (0 : Nat) ∧
    fld (mbox w_identify_s_2 (0 : Nat)).cmd 0 8 = 33 ∧
    (0 : Nat) ≠ 2 ∧
    (∀ k < 8, 1 ≤ k → argOf w_identify_s_2 (0 : Nat) k = 0) ∧
    3600 < argOf w_identify_s_2 (0 : Nat) 0 ∧
    nextSat (exec (.identify) w_identify_s_2)
      (fun t => decide ((mbox t (0 : Nat)).slot = .idle) && decide ((mbox t (0 : Nat)).status = 3) &&
      decide ((mbox t (0 : Nat)).tag = BitVec.ofNat 8 (fld (mbox w_identify_s_2 (0 : Nat)).cmd 8 8)) &&
      decide ((mbox t (0 : Nat)).doneCount = (mbox w_identify_s_2 (0 : Nat)).doneCount + 1) &&
      decide (Flagged t .mbx (0 : Nat)) && decide (t.shep.completed = w_identify_s_2.shep.completed + 1) &&
      decide (t.shep.identifyEnd = w_identify_s_2.shep.identifyEnd)) = true :=
  by decide +kernel

theorem test_identifyExpiry :
    w_identifyExpiry_s.shep.identifyEnd = some (0 : Nat) ∧
    (0 : Nat) ≤ w_identifyExpiry_s.time.counter ∧
    nextSat (exec (.identifyExpiry) w_identifyExpiry_s)
      (fun t => decide (t.shep.identifyEnd = none)) = true :=
  by decide +kernel

theorem test_badOpcode :
    coreRuns w_badOpcode_s = true ∧
    takenBox w_badOpcode_s = some (0 : Nat) ∧
    fld (mbox w_badOpcode_s (0 : Nat)).cmd 0 8 ∉ fwOpcodes ∧
    nextSat (exec (.badOpcode) w_badOpcode_s)
      (fun t => decide ((mbox t (0 : Nat)).slot = .idle) && decide ((mbox t (0 : Nat)).status = 2) &&
      decide ((mbox t (0 : Nat)).tag = BitVec.ofNat 8 (fld (mbox w_badOpcode_s (0 : Nat)).cmd 8 8)) &&
      decide ((mbox t (0 : Nat)).doneCount = (mbox w_badOpcode_s (0 : Nat)).doneCount + 1) &&
      decide (Flagged t .mbx (0 : Nat)) && decide (t.shep.completed = w_badOpcode_s.shep.completed + 1)) = true :=
  by decide +kernel

theorem test_rowVerify :
    coreRuns w_rowVerify_s = true ∧
    takenBox w_rowVerify_s = some (0 : Nat) ∧
    fld (mbox w_rowVerify_s (0 : Nat)).cmd 0 8 = 16 ∧
    (0 : Nat) = 0 ∧
    (∀ k < 8, 2 ≤ k → argOf w_rowVerify_s (0 : Nat) k = 0) ∧
    (argOf w_rowVerify_s (0 : Nat) 1 = 0 ∨ (argOf w_rowVerify_s (0 : Nat) 1 ≤ 5760 ∧
      argOf w_rowVerify_s (0 : Nat) 0 + argOf w_rowVerify_s (0 : Nat) 1 ≤ 5120 + 2 * w_rowVerify_s.build.flocks)) ∧
    w_rowVerify_s.shep.rowJob.state ≠ 1 ∧
    nextSat (exec (.rowVerify) w_rowVerify_s)
      (fun t => decide ((mbox t (0 : Nat)).slot = .idle) && decide ((mbox t (0 : Nat)).status = 1) &&
      decide ((mbox t (0 : Nat)).tag = BitVec.ofNat 8 (fld (mbox w_rowVerify_s (0 : Nat)).cmd 8 8)) &&
      decide ((mbox t (0 : Nat)).doneCount = (mbox w_rowVerify_s (0 : Nat)).doneCount + 1) &&
      decide (Flagged t .mbx (0 : Nat)) && decide (t.shep.completed = w_rowVerify_s.shep.completed + 1) &&
      decide (t.shep.rowJob = { state := 1, first := argOf w_rowVerify_s (0 : Nat) 0, count := argOf w_rowVerify_s (0 : Nat) 1 })) = true :=
  by decide +kernel

theorem test_rowVerify_more :
    (coreRuns w_rowVerify_s_2 = true ∧
    takenBox w_rowVerify_s_2 = some (0 : Nat) ∧
    fld (mbox w_rowVerify_s_2 (0 : Nat)).cmd 0 8 = 16 ∧
    (0 : Nat) = 0 ∧
    (∀ k < 8, 2 ≤ k → argOf w_rowVerify_s_2 (0 : Nat) k = 0) ∧
    argOf w_rowVerify_s_2 (0 : Nat) 1 ≠ 0 ∧
      (5760 < argOf w_rowVerify_s_2 (0 : Nat) 1 ∨ 5120 + 2 * w_rowVerify_s_2.build.flocks < argOf w_rowVerify_s_2 (0 : Nat) 0 + argOf w_rowVerify_s_2 (0 : Nat) 1) ∧
    nextSat (exec (.rowVerify) w_rowVerify_s_2)
      (fun t => decide ((mbox t (0 : Nat)).slot = .idle) && decide ((mbox t (0 : Nat)).status = 3) &&
      decide ((mbox t (0 : Nat)).tag = BitVec.ofNat 8 (fld (mbox w_rowVerify_s_2 (0 : Nat)).cmd 8 8)) &&
      decide ((mbox t (0 : Nat)).doneCount = (mbox w_rowVerify_s_2 (0 : Nat)).doneCount + 1) &&
      decide (Flagged t .mbx (0 : Nat)) && decide (t.shep.completed = w_rowVerify_s_2.shep.completed + 1) &&
      decide (t.shep.rowJob = w_rowVerify_s_2.shep.rowJob)) = true) ∧
    (coreRuns w_rowVerify_s_3 = true ∧
    takenBox w_rowVerify_s_3 = some (0 : Nat) ∧
    fld (mbox w_rowVerify_s_3 (0 : Nat)).cmd 0 8 = 16 ∧
    (0 : Nat) = 0 ∧
    (∀ k < 8, 2 ≤ k → argOf w_rowVerify_s_3 (0 : Nat) k = 0) ∧
    argOf w_rowVerify_s_3 (0 : Nat) 1 = 0 ∧
    w_rowVerify_s_3.shep.rowJob.state = 1 ∧
    nextSat (exec (.rowVerify) w_rowVerify_s_3)
      (fun t => decide ((mbox t (0 : Nat)).slot = .idle) && decide ((mbox t (0 : Nat)).status = 5) &&
      decide ((mbox t (0 : Nat)).tag = BitVec.ofNat 8 (fld (mbox w_rowVerify_s_3 (0 : Nat)).cmd 8 8)) &&
      decide ((mbox t (0 : Nat)).doneCount = (mbox w_rowVerify_s_3 (0 : Nat)).doneCount + 1) &&
      decide (Flagged t .mbx (0 : Nat)) && decide (t.shep.completed = w_rowVerify_s_3.shep.completed + 1) &&
      decide (t.shep.rowJob = w_rowVerify_s_3.shep.rowJob)) = true) :=
  ⟨by decide +kernel, by decide +kernel⟩

theorem test_rowVerifyJobEnd :
    coreRuns w_rowVerifyJobEnd_s = true ∧
    w_rowVerifyJobEnd_s.shep.rowJob.state = 1 ∧
    nextSat (exec (.rowVerifyJobEnd ([] : List Nat)) w_rowVerifyJobEnd_s)
      (fun t => decide (t.shep.rowJob.state = 2) &&
      decide (t.shep.rowJob.progress = (jobRows w_rowVerifyJobEnd_s w_rowVerifyJobEnd_s.shep.rowJob).length) &&
      decide (Flagged t .shep 11) && decide ((genOf t 3).rowOk = true ∧ Flagged t .rcg 7)) = true :=
  by decide +kernel

theorem test_xcal :
    coreRuns w_xcal_s = true ∧
    takenBox w_xcal_s = some (0 : Nat) ∧
    fld (mbox w_xcal_s (0 : Nat)).cmd 0 8 = 17 ∧
    (0 : Nat) = 0 ∧
    (∀ k < 8, 0 ≤ k → argOf w_xcal_s (0 : Nat) k = 0) ∧
    w_xcal_s.shep.xcalJob.state ≠ 1 ∧
    w_xcal_s.fold.started = false ∧
    meshReadyNow w_xcal_s = true ∧
    w_xcal_s.root.bypass = false ∧
    heldByOthers w_xcal_s = 0 ∧
    nextSat (exec (.xcal) w_xcal_s)
      (fun t => decide ((mbox t (0 : Nat)).slot = .idle) && decide ((mbox t (0 : Nat)).status = 1) &&
      decide ((mbox t (0 : Nat)).tag = BitVec.ofNat 8 (fld (mbox w_xcal_s (0 : Nat)).cmd 8 8)) &&
      decide ((mbox t (0 : Nat)).doneCount = (mbox w_xcal_s (0 : Nat)).doneCount + 1) &&
      decide (Flagged t .mbx (0 : Nat)) && decide (t.shep.completed = w_xcal_s.shep.completed + 1) &&
      decide (t.shep.xcalJob = { state := 1 }) && decide (t.xing.calRun = true) &&
      decide (t.xing.manifestReady = false) && decide (t.xing.captured = true) && decide (t.tally.u1.owner = .fw ∧
      t.tally.u2.owner = .fw ∧ t.tally.u3.owner = .fw)) = true :=
  by decide +kernel

theorem test_xcal_more :
    (coreRuns w_xcal_s_2 = true ∧
    takenBox w_xcal_s_2 = some (0 : Nat) ∧
    fld (mbox w_xcal_s_2 (0 : Nat)).cmd 0 8 = 17 ∧
    (0 : Nat) = 0 ∧
    (∀ k < 8, 0 ≤ k → argOf w_xcal_s_2 (0 : Nat) k = 0) ∧
    w_xcal_s_2.shep.xcalJob.state = 1 ∧
    nextSat (exec (.xcal) w_xcal_s_2)
      (fun t => decide ((mbox t (0 : Nat)).slot = .idle) && decide ((mbox t (0 : Nat)).status = 5) &&
      decide ((mbox t (0 : Nat)).tag = BitVec.ofNat 8 (fld (mbox w_xcal_s_2 (0 : Nat)).cmd 8 8)) &&
      decide ((mbox t (0 : Nat)).doneCount = (mbox w_xcal_s_2 (0 : Nat)).doneCount + 1) &&
      decide (Flagged t .mbx (0 : Nat)) && decide (t.shep.completed = w_xcal_s_2.shep.completed + 1) &&
      decide (t.xing = w_xcal_s_2.xing)) = true) ∧
    (coreRuns w_xcal_s_3 = true ∧
    takenBox w_xcal_s_3 = some (0 : Nat) ∧
    fld (mbox w_xcal_s_3 (0 : Nat)).cmd 0 8 = 17 ∧
    (0 : Nat) = 0 ∧
    (∀ k < 8, 0 ≤ k → argOf w_xcal_s_3 (0 : Nat) k = 0) ∧
    w_xcal_s_3.shep.xcalJob.state ≠ 1 ∧
    (w_xcal_s_3.fold.started = true ∨ meshReadyNow w_xcal_s_3 = false ∨ w_xcal_s_3.root.bypass = true) ∧
    nextSat (exec (.xcal) w_xcal_s_3)
      (fun t => decide ((mbox t (0 : Nat)).slot = .idle) && decide ((mbox t (0 : Nat)).status = 6) &&
      decide ((mbox t (0 : Nat)).tag = BitVec.ofNat 8 (fld (mbox w_xcal_s_3 (0 : Nat)).cmd 8 8)) &&
      decide ((mbox t (0 : Nat)).doneCount = (mbox w_xcal_s_3 (0 : Nat)).doneCount + 1) &&
      decide (Flagged t .mbx (0 : Nat)) && decide (t.shep.completed = w_xcal_s_3.shep.completed + 1) &&
      decide (tabGet (mbox t (0 : Nat)).res 0 0 = (if w_xcal_s_3.fold.started then 1 else if meshReadyNow w_xcal_s_3 = false then 2 else 3)) &&
      decide (t.xing = w_xcal_s_3.xing)) = true) ∧
    (coreRuns w_xcal_s_4 = true ∧
    takenBox w_xcal_s_4 = some (0 : Nat) ∧
    fld (mbox w_xcal_s_4 (0 : Nat)).cmd 0 8 = 17 ∧
    (0 : Nat) = 0 ∧
    (∀ k < 8, 0 ≤ k → argOf w_xcal_s_4 (0 : Nat) k = 0) ∧
    w_xcal_s_4.shep.xcalJob.state ≠ 1 ∧
    w_xcal_s_4.fold.started = false ∧
    meshReadyNow w_xcal_s_4 = true ∧
    w_xcal_s_4.root.bypass = false ∧
    heldByOthers w_xcal_s_4 ≠ 0 ∧
    nextSat (exec (.xcal) w_xcal_s_4)
      (fun t => decide ((mbox t (0 : Nat)).slot = .idle) && decide ((mbox t (0 : Nat)).status = 7) &&
      decide ((mbox t (0 : Nat)).tag = BitVec.ofNat 8 (fld (mbox w_xcal_s_4 (0 : Nat)).cmd 8 8)) &&
      decide ((mbox t (0 : Nat)).doneCount = (mbox w_xcal_s_4 (0 : Nat)).doneCount + 1) &&
      decide (Flagged t .mbx (0 : Nat)) && decide (t.shep.completed = w_xcal_s_4.shep.completed + 1) &&
      decide (tabGet (mbox t (0 : Nat)).res 0 0 = BitVec.ofNat 32 (heldByOthers w_xcal_s_4)) &&
      decide (t.xing = w_xcal_s_4.xing)) = true) :=
  ⟨by decide +kernel, by decide +kernel, by decide +kernel⟩

theorem test_calDone :
    coreRuns w_calDone_s = true ∧
    w_calDone_s.root.bypass = false ∧
    w_calDone_s.shep.xcalJob.state = 1 ∧
    nextSat (exec (.calDone ([(1, List.replicate 16 500)] : List (Nat × List Nat))) w_calDone_s)
      (fun t => decide (t.shep.xcalJob.state = 2) && decide (t.xing.calRun = false) &&
      decide (t.xing.manifestReady = true) && decide (t.xing.calTick = w_calDone_s.time.counter) &&
      decide (Flagged t .xing 0) && decide (Flagged t .shep 11) && decide ((xingOf t 1).listed = true)) = true :=
  by decide +kernel

theorem test_jobStatus :
    coreRuns w_jobStatus_s = true ∧
    takenBox w_jobStatus_s = some (1 : Nat) ∧
    fld (mbox w_jobStatus_s (1 : Nat)).cmd 0 8 = 18 ∧
    (∀ k < 8, 1 ≤ k → argOf w_jobStatus_s (1 : Nat) k = 0) ∧
    (argOf w_jobStatus_s (1 : Nat) 0 = 1 ∨ argOf w_jobStatus_s (1 : Nat) 0 = 2) ∧
    (jobOf w_jobStatus_s (argOf w_jobStatus_s (1 : Nat) 0)).state ≠ 1 ∧
    nextSat (exec (.jobStatus) w_jobStatus_s)
      (fun t => decide ((mbox t (1 : Nat)).slot = .idle) && decide ((mbox t (1 : Nat)).status = 0) &&
      decide ((mbox t (1 : Nat)).tag = BitVec.ofNat 8 (fld (mbox w_jobStatus_s (1 : Nat)).cmd 8 8)) &&
      decide ((mbox t (1 : Nat)).doneCount = (mbox w_jobStatus_s (1 : Nat)).doneCount + 1) &&
      decide (Flagged t .mbx (1 : Nat)) && decide (t.shep.completed = w_jobStatus_s.shep.completed + 1) &&
      decide (tabGet (mbox t (1 : Nat)).res 0 0 = BitVec.ofNat 32 (jobOf w_jobStatus_s (argOf w_jobStatus_s (1 : Nat) 0)).state) &&
      decide (tabGet (mbox t (1 : Nat)).res 1 0 = BitVec.ofNat 32 (jobOf w_jobStatus_s (argOf w_jobStatus_s (1 : Nat) 0)).progress) &&
      decide (t.freeCtr = w_jobStatus_s.freeCtr)) = true :=
  by decide +kernel

theorem test_jobStatus_more :
    (coreRuns w_jobStatus_s_2 = true ∧
    takenBox w_jobStatus_s_2 = some (1 : Nat) ∧
    fld (mbox w_jobStatus_s_2 (1 : Nat)).cmd 0 8 = 18 ∧
    (∀ k < 8, 1 ≤ k → argOf w_jobStatus_s_2 (1 : Nat) k = 0) ∧
    (argOf w_jobStatus_s_2 (1 : Nat) 0 = 1 ∨ argOf w_jobStatus_s_2 (1 : Nat) 0 = 2) ∧
    (jobOf w_jobStatus_s_2 (argOf w_jobStatus_s_2 (1 : Nat) 0)).state = 1) ∧
    (coreRuns w_jobStatus_s_3 = true ∧
    takenBox w_jobStatus_s_3 = some (1 : Nat) ∧
    fld (mbox w_jobStatus_s_3 (1 : Nat)).cmd 0 8 = 18 ∧
    (∀ k < 8, 1 ≤ k → argOf w_jobStatus_s_3 (1 : Nat) k = 0) ∧
    argOf w_jobStatus_s_3 (1 : Nat) 0 ≠ 1 ∧
    argOf w_jobStatus_s_3 (1 : Nat) 0 ≠ 2 ∧
    nextSat (exec (.jobStatus) w_jobStatus_s_3)
      (fun t => decide ((mbox t (1 : Nat)).slot = .idle) && decide ((mbox t (1 : Nat)).status = 3) &&
      decide ((mbox t (1 : Nat)).tag = BitVec.ofNat 8 (fld (mbox w_jobStatus_s_3 (1 : Nat)).cmd 8 8)) &&
      decide ((mbox t (1 : Nat)).doneCount = (mbox w_jobStatus_s_3 (1 : Nat)).doneCount + 1) &&
      decide (Flagged t .mbx (1 : Nat)) && decide (t.shep.completed = w_jobStatus_s_3.shep.completed + 1)) = true) :=
  ⟨by decide +kernel, by decide +kernel⟩

theorem test_jobAbort :
    coreRuns w_jobAbort_s = true ∧
    takenBox w_jobAbort_s = some (0 : Nat) ∧
    fld (mbox w_jobAbort_s (0 : Nat)).cmd 0 8 = 19 ∧
    (0 : Nat) = 0 ∧
    (∀ k < 8, 1 ≤ k → argOf w_jobAbort_s (0 : Nat) k = 0) ∧
    (argOf w_jobAbort_s (0 : Nat) 0 = 1 ∨ argOf w_jobAbort_s (0 : Nat) 0 = 2) ∧
    (jobOf w_jobAbort_s (argOf w_jobAbort_s (0 : Nat) 0)).state = 1 ∧
    nextSat (exec (.jobAbort) w_jobAbort_s)
      (fun t => decide ((mbox t (0 : Nat)).slot = .idle) && decide ((mbox t (0 : Nat)).status = 0) &&
      decide ((mbox t (0 : Nat)).tag = BitVec.ofNat 8 (fld (mbox w_jobAbort_s (0 : Nat)).cmd 8 8)) &&
      decide ((mbox t (0 : Nat)).doneCount = (mbox w_jobAbort_s (0 : Nat)).doneCount + 1) &&
      decide (Flagged t .mbx (0 : Nat)) && decide (t.shep.completed = w_jobAbort_s.shep.completed + 1) &&
      decide ((jobOf t (argOf w_jobAbort_s (0 : Nat) 0)).state = 3) && decide ((argOf w_jobAbort_s (0 : Nat) 0 = 2 →
      t.xing.calRun = false ∧ t.xing.manifestReady = false)) && decide (Flagged t .shep 11)) = true :=
  by decide +kernel

theorem test_jobAbort_more :
    coreRuns w_jobAbort_s_2 = true ∧
    takenBox w_jobAbort_s_2 = some (0 : Nat) ∧
    fld (mbox w_jobAbort_s_2 (0 : Nat)).cmd 0 8 = 19 ∧
    (0 : Nat) = 0 ∧
    (∀ k < 8, 1 ≤ k → argOf w_jobAbort_s_2 (0 : Nat) k = 0) ∧
    (argOf w_jobAbort_s_2 (0 : Nat) 0 = 1 ∨ argOf w_jobAbort_s_2 (0 : Nat) 0 = 2) ∧
    (jobOf w_jobAbort_s_2 (argOf w_jobAbort_s_2 (0 : Nat) 0)).state ≠ 1 ∧
    nextSat (exec (.jobAbort) w_jobAbort_s_2)
      (fun t => decide ((mbox t (0 : Nat)).slot = .idle) && decide ((mbox t (0 : Nat)).status = 8) &&
      decide ((mbox t (0 : Nat)).tag = BitVec.ofNat 8 (fld (mbox w_jobAbort_s_2 (0 : Nat)).cmd 8 8)) &&
      decide ((mbox t (0 : Nat)).doneCount = (mbox w_jobAbort_s_2 (0 : Nat)).doneCount + 1) &&
      decide (Flagged t .mbx (0 : Nat)) && decide (t.shep.completed = w_jobAbort_s_2.shep.completed + 1) &&
      decide (t.shep.rowJob = w_jobAbort_s_2.shep.rowJob) &&
      decide (t.shep.xcalJob = w_jobAbort_s_2.shep.xcalJob)) = true :=
  by decide +kernel

theorem test_jobKill :
    coreRuns w_jobKill_s = true ∧
    takenBox w_jobKill_s = some (2 : Nat) ∧
    fld (mbox w_jobKill_s (2 : Nat)).cmd 0 8 = 64 ∧
    (2 : Nat) = 2 ∧
    (∀ k < 8, 1 ≤ k → argOf w_jobKill_s (2 : Nat) k = 0) ∧
    (argOf w_jobKill_s (2 : Nat) 0 = 1 ∨ argOf w_jobKill_s (2 : Nat) 0 = 2) ∧
    (jobOf w_jobKill_s (argOf w_jobKill_s (2 : Nat) 0)).state = 1 ∧
    nextSat (exec (.jobKill) w_jobKill_s)
      (fun t => decide ((mbox t (2 : Nat)).slot = .idle) && decide ((mbox t (2 : Nat)).status = 0) &&
      decide ((mbox t (2 : Nat)).tag = BitVec.ofNat 8 (fld (mbox w_jobKill_s (2 : Nat)).cmd 8 8)) &&
      decide ((mbox t (2 : Nat)).doneCount = (mbox w_jobKill_s (2 : Nat)).doneCount + 1) &&
      decide (Flagged t .mbx (2 : Nat)) && decide (t.shep.completed = w_jobKill_s.shep.completed + 1) &&
      decide ((jobOf t (argOf w_jobKill_s (2 : Nat) 0)).state = 3) && decide (Flagged t .shep 11)) = true :=
  by decide +kernel

theorem test_releaseTally :
    coreRuns w_releaseTally_s = true ∧
    takenBox w_releaseTally_s = some (2 : Nat) ∧
    fld (mbox w_releaseTally_s (2 : Nat)).cmd 0 8 = 65 ∧
    (2 : Nat) = 2 ∧
    (∀ k < 8, 0 ≤ k → argOf w_releaseTally_s (2 : Nat) k = 0) ∧
    w_releaseTally_s.tally.claimHost = none ∧
    w_releaseTally_s.tally.claimBm = none ∧
    w_releaseTally_s.tally.claimFw = none ∧
    nextSat (exec (.releaseTally) w_releaseTally_s)
      (fun t => decide ((mbox t (2 : Nat)).slot = .idle) && decide ((mbox t (2 : Nat)).status = 0) &&
      decide ((mbox t (2 : Nat)).tag = BitVec.ofNat 8 (fld (mbox w_releaseTally_s (2 : Nat)).cmd 8 8)) &&
      decide ((mbox t (2 : Nat)).doneCount = (mbox w_releaseTally_s (2 : Nat)).doneCount + 1) &&
      decide (Flagged t .mbx (2 : Nat)) && decide (t.shep.completed = w_releaseTally_s.shep.completed + 1) &&
      decide (tabGet (mbox t (2 : Nat)).res 0 0 = BitVec.ofNat 32 (bitsWhere 4 (fun u => 1 ≤ u &&
      (tallyUnit w_releaseTally_s u).owner = .fw))) && decide (t.tally.u2.owner = .none ∧
      t.tally.u3.releasing = true)) = true :=
  by decide +kernel

theorem test_eventClear :
    Performs (⟨.host, 15, none⟩ : Wr) ((eventAddr (.fold : Block))) w_eventClear_s ∧
    (fld (0x2000000 : Word) 24 8 = (seenOf w_eventClear_s (.fold : Block)).seq.toNat ∧
    nextSat (exec (.eventClear (⟨.host, 15, none⟩ : Wr) (.fold : Block) (0x2000000 : Word)) w_eventClear_s)
      (fun t => decide ((eventOf t (.fold : Block)).bits = 2) &&
      decide ((eventOf t (.fold : Block)).seq = (eventOf w_eventClear_s (.fold : Block)).seq) &&
      decide ((eventOf t (.fold : Block)).about = (eventOf w_eventClear_s (.fold : Block)).about)) = true) :=
  ⟨⟨by decide, by decide, by decide, by decide, by decide⟩, by decide +kernel⟩

theorem test_eventClear_more :
    (Performs (⟨.host, 15, none⟩ : Wr) ((eventAddr (.fold : Block))) w_eventClear_s_2 ∧
    (fld (0x3000000 : Word) 24 8 ≠ (seenOf w_eventClear_s_2 (.fold : Block)).seq.toNat ∧
    nextSat (exec (.eventClear (⟨.host, 15, none⟩ : Wr) (.fold : Block) (0x3000000 : Word)) w_eventClear_s_2)
      (fun t => decide (t.events = w_eventClear_s_2.events) &&
      decide (t.out.waiting = w_eventClear_s_2.out.waiting ++ [⟨(⟨.host, 15, none⟩ : Wr), eventAddr (.fold : Block), (0x3000000 : Word), []⟩]) &&
      decide (clearEvents (.fold : Block) (0x3000000 : Word) w_eventClear_s_2 = w_eventClear_s_2)) = true)) :=
  ⟨⟨by decide, by decide, by decide, by decide, by decide⟩, by decide +kernel⟩

theorem test_cfgCtrlWrite :
    Performs (⟨.host, 15, none⟩ : Wr) 0x10 tUp ∧
    ((⟨.host, 15, none⟩ : Wr).port ≠ .bm ∧
    nextSat (exec (.cfgCtrlWrite (⟨.host, 15, none⟩ : Wr) (0xF000E : Word)) tUp)
      (fun t => decide (t.cfg.checkEn = (if bitAt (0xF000E : Word) 16 then bitAt (0xF000E : Word) 0 else tUp.cfg.checkEn)) &&
      decide (t.cfg.refValid = (if bitAt (0xF000E : Word) 17 then bitAt (0xF000E : Word) 1 else tUp.cfg.refValid)) &&
      decide (t.cfg.restoreEn = (if bitAt (0xF000E : Word) 18 then bitAt (0xF000E : Word) 2 else tUp.cfg.restoreEn)) &&
      decide (viewOf t (⟨.host, 15, none⟩ : Wr).port = (if bitAt (0xF000E : Word) 19 then bitAt (0xF000E : Word) 3 else viewOf tUp (⟨.host, 15, none⟩ : Wr).port)) &&
      decide (viewOf t .bm = false) && decide ((bitAt (0xF000E : Word) 17 = true → bitAt (0xF000E : Word) 1 = true →
      t.cfg.restoredOnce = false))) = true) :=
  ⟨⟨by decide, by decide, by decide, by decide, by decide⟩, by decide +kernel⟩

theorem test_cfgCtrlWrite_more :
    (Performs (⟨.bm, 15, none⟩ : Wr) 0x10 tUp ∧
    ((⟨.bm, 15, none⟩ : Wr).port = .bm ∧
    nextSat (exec (.cfgCtrlWrite (⟨.bm, 15, none⟩ : Wr) (0xF000E : Word)) tUp)
      (fun t => decide (t.cfg.checkEn = tUp.cfg.checkEn) && decide (t.cfg.refValid = tUp.cfg.refValid) &&
      decide (t.cfg.restoreEn = tUp.cfg.restoreEn) &&
      decide (viewOf t .bm = (if bitAt (0xF000E : Word) 19 then bitAt (0xF000E : Word) 3 else viewOf tUp .bm)) &&
      decide ((bitAt (0xF000E : Word) 16 = true ∨ bitAt (0xF000E : Word) 17 = true ∨ bitAt (0xF000E : Word) 18 = true →
      Flagged t .cfg 8))) = true)) :=
  ⟨⟨by decide, by decide, by decide, by decide, by decide⟩, by decide +kernel⟩

theorem test_regWrite :
    Performs (⟨.host, 15, none⟩ : Wr) (((0x3000 : BitVec 20).toNat - (0x3000 : BitVec 20).toNat % 4)) tUp ∧
    (actingWrite tUp (⟨.host, 15, none⟩ : Wr) ((0x3000 : BitVec 20).toNat - (0x3000 : BitVec 20).toNat % 4) (0x12345678 : Word) = none ∧
    eventBlock ((0x3000 : BitVec 20).toNat - (0x3000 : BitVec 20).toNat % 4) = none ∧
    ((0x3000 : BitVec 20).toNat - (0x3000 : BitVec 20).toNat % 4) < 0x15000 ∧
    bellReg tUp.build ((0x3000 : BitVec 20).toNat - (0x3000 : BitVec 20).toNat % 4) = some ((0xFF7FF7FF : Word), (0x10004040 : Word)) ∧
    nextSat (exec (.regWrite (⟨.host, 15, none⟩ : Wr) (0x3000 : BitVec 20) (0x12345678 : Word)) tUp)
      (fun t => decide (bellW t ((0x3000 : BitVec 20).toNat - (0x3000 : BitVec 20).toNat % 4) = (0x12345678 : Word) &&& (0xFF7FF7FF : Word)) &&
      decide (t.cfgA = tUp.cfgA) && decide (t.nowR = tUp.nowR)) = true) :=
  ⟨⟨by decide, by decide, by decide, by decide, by decide⟩, by decide +kernel⟩

theorem test_regWrite_more :
    (Performs (⟨.host, 15, none⟩ : Wr) (((0x3008 : BitVec 20).toNat - (0x3008 : BitVec 20).toNat % 4)) tUp ∧
    (actingWrite tUp (⟨.host, 15, none⟩ : Wr) ((0x3008 : BitVec 20).toNat - (0x3008 : BitVec 20).toNat % 4) (0x12345678 : Word) = none ∧
    eventBlock ((0x3008 : BitVec 20).toNat - (0x3008 : BitVec 20).toNat % 4) = none ∧
    ((0x3008 : BitVec 20).toNat - (0x3008 : BitVec 20).toNat % 4) < 0x15000 ∧
    bellReg tUp.build ((0x3008 : BitVec 20).toNat - (0x3008 : BitVec 20).toNat % 4) = none ∧
    nowReg tUp.build tUp.root.xtalSel.toNat ((0x3008 : BitVec 20).toNat - (0x3008 : BitVec 20).toNat % 4) = some ((0xFFFFFFFF : Word), (0 : Word)) ∧
    nextSat (exec (.regWrite (⟨.host, 15, none⟩ : Wr) (0x3008 : BitVec 20) (0x12345678 : Word)) tUp)
      (fun t => decide (nowGet t ((0x3008 : BitVec 20).toNat - (0x3008 : BitVec 20).toNat % 4) = (0x12345678 : Word) &&& (0xFFFFFFFF : Word)) &&
      decide (t.cfgW = tUp.cfgW) && decide (t.cfgA = tUp.cfgA)) = true)) ∧
    (Performs (⟨.host, 15, none⟩ : Wr) (((4 : BitVec 20).toNat - (4 : BitVec 20).toNat % 4)) tUp ∧
    (actingWrite tUp (⟨.host, 15, none⟩ : Wr) ((4 : BitVec 20).toNat - (4 : BitVec 20).toNat % 4) (0x12345678 : Word) = none ∧
    eventBlock ((4 : BitVec 20).toNat - (4 : BitVec 20).toNat % 4) = none ∧
    (0x15000 ≤ ((4 : BitVec 20).toNat - (4 : BitVec 20).toNat % 4) ∨ (bellReg tUp.build ((4 : BitVec 20).toNat - (4 : BitVec 20).toNat % 4) = none ∧
      nowReg tUp.build tUp.root.xtalSel.toNat ((4 : BitVec 20).toNat - (4 : BitVec 20).toNat % 4) = none)) ∧
    nextSat (exec (.regWrite (⟨.host, 15, none⟩ : Wr) (4 : BitVec 20) (0x12345678 : Word)) tUp)
      (fun t => decide (t.cfgW = tUp.cfgW) && decide (t.cfgA = tUp.cfgA) && decide (t.nowR = tUp.nowR) &&
      decide (t.events = tUp.events)) = true)) ∧
    (Performs (⟨.host, 15, none⟩ : Wr) (((0xD004 : BitVec 20).toNat - (0xD004 : BitVec 20).toNat % 4)) tUp ∧
    (((0xD004 : BitVec 20).toNat - (0xD004 : BitVec 20).toNat % 4) = mbxAddr (0 : Nat) 4 ∧
    isMbox (BitVec.ofNat 2 (0 : Nat)) = true ∧
    (0 : Nat) < 2 ∧
    mbxClient (⟨.host, 15, none⟩ : Wr).port (0 : Nat) = true ∧
    (mbox tUp (0 : Nat)).slot = .idle ∧
    nextSat (exec (.regWrite (⟨.host, 15, none⟩ : Wr) (0xD004 : BitVec 20) (0x12340501 : Word)) tUp)
      (fun t => decide ((mbox t (0 : Nat)).cmd = (0x12340501 : Word) &&& 0xFFFF) &&
      decide ((mbox t (0 : Nat)).args = (mbox tUp (0 : Nat)).args)) = true)) ∧
    (Performs (⟨.host, 15, none⟩ : Wr) (((0xD014 : BitVec 20).toNat - (0xD014 : BitVec 20).toNat % 4)) tUp ∧
    (((0xD014 : BitVec 20).toNat - (0xD014 : BitVec 20).toNat % 4) = mbxAddr (0 : Nat) (0x10 + 4 * (1 : Nat)) ∧
    (1 : Nat) < 8 ∧
    (0 : Nat) < 2 ∧
    mbxClient (⟨.host, 15, none⟩ : Wr).port (0 : Nat) = true ∧
    (mbox tUp (0 : Nat)).slot = .idle ∧
    nextSat (exec (.regWrite (⟨.host, 15, none⟩ : Wr) (0xD014 : BitVec 20) (77 : Word)) tUp)
      (fun t => decide (tabGet (mbox t (0 : Nat)).args (1 : Nat) 0 = (77 : Word)) &&
      decide ((mbox t (0 : Nat)).cmd = (mbox tUp (0 : Nat)).cmd)) = true)) ∧
    (Performs (⟨.host, 15, none⟩ : Wr) (((0x10058 : BitVec 20).toNat - (0x10058 : BitVec 20).toNat % 4)) tUp ∧
    (tUp.build.valid = true ∧
    ((0x10058 : BitVec 20).toNat - (0x10058 : BitVec 20).toNat % 4) = flockAddr (1 : Nat) 0x18 ∧
    (1 : Nat) < tUp.build.flocks ∧
    bellReg tUp.build (keySpareCfg (1 : Nat)) = some ((0xF : Word), (0 : Word)) ∧
    nextSat (exec (.regWrite (⟨.host, 15, none⟩ : Wr) (0x10058 : BitVec 20) (0xFFFFFFFF : Word)) tUp)
      (fun t => decide (bellW t (keySpareCfg (1 : Nat)) = (0xFFFFFFFF : Word) &&& (0xF : Word)) &&
      decide (t.cfgA = tUp.cfgA)) = true)) ∧
    (Performs (⟨.host, 15, none⟩ : Wr) (((0x9210 : BitVec 20).toNat - (0x9210 : BitVec 20).toNat % 4)) w_regWrite_s_7 ∧
    (((0x9210 : BitVec 20).toNat - (0x9210 : BitVec 20).toNat % 4) = tallyAddr (1 : Nat) (0x10 : Nat) ∧
    (1 : Nat) < 4 ∧
    (0x10 : Nat) < 0x30 ∧
    (tallyUnit w_regWrite_s_7 (1 : Nat)).owner = ownerOf (⟨.host, 15, none⟩ : Wr).port ∧
    nowReg w_regWrite_s_7.build w_regWrite_s_7.root.xtalSel.toNat (tallyAddr (1 : Nat) (0x10 : Nat)) = some ((0x3F7FFFFF : Word), (0x01000000 : Word)) ∧
    nextSat (exec (.regWrite (⟨.host, 15, none⟩ : Wr) (0x9210 : BitVec 20) (0xFFFFFFFF : Word)) w_regWrite_s_7)
      (fun t => decide (nowGet t (tallyAddr (1 : Nat) (0x10 : Nat)) = (0xFFFFFFFF : Word) &&& (0x3F7FFFFF : Word)) &&
      decide (t.tally = w_regWrite_s_7.tally)) = true)) ∧
    (Performs (⟨.host, 15, none⟩ : Wr) (((0x9210 : BitVec 20).toNat - (0x9210 : BitVec 20).toNat % 4)) tUp ∧
    (((0x9210 : BitVec 20).toNat - (0x9210 : BitVec 20).toNat % 4) = tallyAddr (1 : Nat) (0x10 : Nat) ∧
    (1 : Nat) < 4 ∧
    (0x10 : Nat) < 0x30 ∧
    (tallyUnit tUp (1 : Nat)).owner ≠ ownerOf (⟨.host, 15, none⟩ : Wr).port ∧
    nextSat (exec (.regWrite (⟨.host, 15, none⟩ : Wr) (0x9210 : BitVec 20) (0xFFFFFFFF : Word)) tUp)
      (fun t => decide (t.nowR = tUp.nowR) && decide (t.tally = tUp.tally) && decide (Flagged t .tally 5) &&
      decide (((⟨.host, 15, none⟩ : Wr).port = .bm → Flagged t .cfg 8))) = true)) :=
  ⟨⟨⟨by decide, by decide, by decide, by decide, by decide⟩, by decide +kernel⟩,
   ⟨⟨by decide, by decide, by decide, by decide, by decide⟩, by decide +kernel⟩,
   ⟨⟨by decide, by decide, by decide, by decide, by decide⟩, by decide +kernel⟩,
   ⟨⟨by decide, by decide, by decide, by decide, by decide⟩, by decide +kernel⟩,
   ⟨⟨by decide, by decide, by decide, by decide, by decide⟩, by decide +kernel⟩,
   ⟨⟨by decide, by decide, by decide, by decide, by decide⟩, by decide +kernel⟩,
   ⟨⟨by decide, by decide, by decide, by decide, by decide⟩, by decide +kernel⟩⟩

theorem test_regWrite_rows :
    nextSat (exec (.regWrite ⟨.host, 15, none⟩ 0xE000 0xA5) tUp) (fun t => t.crook.armed) = true :=
  by decide +kernel

theorem test_preBellApply :
    w_preBellApply_s.fold.started = false ∧
    slowNow w_preBellApply_s = true ∧
    nextSat (exec (.preBellApply) w_preBellApply_s)
      (fun t => decide (bellA t 0x7100 = 100) && decide (bellA t 0x7104 = bellA w_preBellApply_s 0x7104) &&
      decide (t.cfg.pend = w_preBellApply_s.cfg.pend.filter (fun k => !(earlyKeys w_preBellApply_s).contains k)) &&
      decide (t.cfg.applyCnt = (if (earlyKeys w_preBellApply_s).any (fun k => takes w_preBellApply_s (k, judge { w_preBellApply_s with
      cfg := { w_preBellApply_s.cfg with
      pend := earlyKeys w_preBellApply_s } } (fun _ _ => false) k)) then w_preBellApply_s.cfg.applyCnt + 1 else w_preBellApply_s.cfg.applyCnt)) &&
      decide (t.cfgW = w_preBellApply_s.cfgW)) = true :=
  by decide +kernel

theorem test_preBellApply_more :
    (w_preBellApply_s_2.fold.started = true ∨ slowNow w_preBellApply_s_2 = false) ∧
    nextSat (exec (.preBellApply) w_preBellApply_s_2)
      (fun t => decide (t.cfg = w_preBellApply_s_2.cfg)) = true :=
  by decide +kernel

theorem test_configPassEnd :
    w_configPassEnd_s.power.fabUp = true ∧
    w_configPassEnd_s.cfg.passFrom + passTicks w_configPassEnd_s.build ≤ w_configPassEnd_s.time.total ∧
    nextSat (exec (.configPassEnd) w_configPassEnd_s)
      (fun t => decide (t.cfg.crc = configCrc w_configPassEnd_s) &&
      decide (t.cfg.passFrom = w_configPassEnd_s.time.total) && decide ((w_configPassEnd_s.cfg.checkEn = true →
      w_configPassEnd_s.cfg.refValid = true → configCrc w_configPassEnd_s = nowGet w_configPassEnd_s 0x1C →
      t.cfg.drift = false)) && decide ((w_configPassEnd_s.cfg.checkEn = true → w_configPassEnd_s.cfg.refValid = true →
      configCrc w_configPassEnd_s ≠ nowGet w_configPassEnd_s 0x1C → t.cfg.drift = true ∧ Flagged t .cfg 0 ∧
      (w_configPassEnd_s.cfg.awaitPass = true → Flagged t .cfg 1) ∧ (w_configPassEnd_s.cfg.restoreEn = true →
      t.cfg.restoredOnce = true)))) = true :=
  by decide +kernel

theorem test_restoreWriteDone :
    w_restoreWriteDone_s.cfg.restoring = true ∧
    w_restoreWriteDone_s.cfg.restoreAt + passTicks w_restoreWriteDone_s.build ≤ elapsed w_restoreWriteDone_s ∧
    (configKeys w_restoreWriteDone_s.build).Nodup ∧
    nextSat (exec (.restoreWriteDone) w_restoreWriteDone_s)
      (fun t => decide (t.cfg.restoring = false) && decide (t.cfg.restoreSet = true) &&
      decide (bellW t 0x3000 = bellW w_restoreWriteDone_s 0x3000) && decide (bellW t 0x3100 = 77) &&
      decide (t.cfgA = w_restoreWriteDone_s.cfgA)) = true :=
  by decide +kernel

theorem test_onBackup :
    w_onBackup_s.lc.por = false ∧
    w_onBackup_s.lc.backupOk = true ∧
    w_onBackup_s.lc.onBackup = false ∧
    nextSat (exec (.onBackup) w_onBackup_s)
      (fun t => decide (t.lc.onBackup = true) && decide (t.lc.mainOk = false) && decide (Flagged t .lc 0) &&
      decide (t.lc.switches = if w_onBackup_s.lc.switches = 255 then 255 else w_onBackup_s.lc.switches + 1)) = true :=
  by decide +kernel

theorem test_onBackup_more :
    tUp.lc.por = false ∧
    (tUp.lc.backupOk = false ∨ tUp.lc.onBackup = true) ∧
    nextSat (exec (.onBackup) tUp)
      (fun t => decide (t.lc = { tUp.lc with mainOk := false }) && decide (t.events = tUp.events)) = true :=
  by decide +kernel

theorem test_onMain :
    w_onMain_s.lc.onBackup = true ∧
    w_onMain_s.lc.mainOk = true ∧
    w_onMain_s.lc.mainFrom + 65536 ≤ w_onMain_s.time.slowEdges ∧
    nextSat (exec (.onMain) w_onMain_s)
      (fun t => decide (t.lc.onBackup = false) && decide (Flagged t .lc 1) &&
      decide (t.lc.switches = if w_onMain_s.lc.switches = 255 then 255 else w_onMain_s.lc.switches + 1)) = true :=
  by decide +kernel

theorem test_backupFail :
    w_backupFail_s.lc.backupOk = true ∧
    nextSat (exec (.backupFail) w_backupFail_s)
      (fun t => decide (t.lc.backupOk = false) && decide (Flagged t .lc 2)) = true :=
  by decide +kernel

theorem test_supplyOkChange :
    w_supplyOkChange_s.lc.por = false ∧
    nextSat (exec (.supplyOkChange (true : Bool) (false : Bool)) w_supplyOkChange_s)
      (fun t => decide (t.lc.mainOk = (true : Bool)) && decide (t.lc.backupOk = (false : Bool)) &&
      decide (t.lc.mainFrom = (if (true : Bool) = true ∧
      w_supplyOkChange_s.lc.mainOk = false then w_supplyOkChange_s.time.slowEdges else w_supplyOkChange_s.lc.mainFrom)) &&
      decide ((w_supplyOkChange_s.lc.backupOk = true → (false : Bool) = false → Flagged t .lc 2))) = true :=
  by decide +kernel

theorem test_coldReset :
    w_coldReset_s.lc.por = false ∧
    nextSat (exec (.coldReset) w_coldReset_s)
      (fun t => decide (t.time = {}) && decide (t.nowR = []) && decide (t.cfgA = []) && decide (t.cfgW = []) &&
      decide (t.events = []) && decide (t.regions = []) && decide (t.gens = []) && decide (t.flocks = []) &&
      decide (t.data = []) && decide (t.shep.state = .held) && decide (t.lc.fuses = w_coldReset_s.lc.fuses) &&
      decide (t.lc.state = w_coldReset_s.lc.fuses.state) &&
      decide (t.root.s0.table = fusedTable w_coldReset_s.lc.fuses 0) &&
      decide (t.root.s1.table = fusedTable w_coldReset_s.lc.fuses 1) &&
      decide (t.root.xtalSel = w_coldReset_s.straps.xtalSel) && decide (t.power.fabUp = false) &&
      decide (t.lc.bmAddr = w_coldReset_s.straps.bmAddr) && decide (t.out.waiting = [])) = true :=
  by decide +kernel

theorem test_powerOnReset :
    nextSat (exec (.powerOnReset) tUp)
      (fun t => decide (t.time = {}) && decide (t.nowR = []) && decide (t.cfgA = []) && decide (t.cfgW = []) &&
      decide (t.events = []) && decide (t.regions = []) && decide (t.gens = []) && decide (t.flocks = []) &&
      decide (t.data = []) && decide (t.shep.state = .held) && decide (t.lc.fuses = tUp.lc.fuses) &&
      decide (t.lc.state = tUp.lc.fuses.state) && decide (t.root.xtalSel = tUp.straps.xtalSel) &&
      decide (t.power.fabUp = false) && decide (t.lc.bmAddr = tUp.straps.bmAddr) && decide (t.out.waiting = []) &&
      decide (t.lc.por = true) && decide (t.ret = [])) = true :=
  by decide +kernel

theorem test_powerOnResetRelease :
    w_powerOnResetRelease_s.lc.por = true ∧
    nextSat (exec (.powerOnResetRelease) w_powerOnResetRelease_s)
      (fun t => decide (t.time = {}) && decide (t.nowR = []) && decide (t.cfgA = []) && decide (t.cfgW = []) &&
      decide (t.events = []) && decide (t.regions = []) && decide (t.gens = []) && decide (t.flocks = []) &&
      decide (t.data = []) && decide (t.shep.state = .held) && decide (t.lc.fuses = w_powerOnResetRelease_s.lc.fuses) &&
      decide (t.lc.state = w_powerOnResetRelease_s.lc.fuses.state) &&
      decide (t.root.s0.table = fusedTable w_powerOnResetRelease_s.lc.fuses 0) &&
      decide (t.root.s1.table = fusedTable w_powerOnResetRelease_s.lc.fuses 1) &&
      decide (t.root.xtalSel = w_powerOnResetRelease_s.straps.xtalSel) && decide (t.power.fabUp = false) &&
      decide (t.lc.bmAddr = w_powerOnResetRelease_s.straps.bmAddr) && decide (t.out.waiting = []) &&
      decide (t.lc.por = false)) = true :=
  by decide +kernel

theorem test_warmReset :
    w_warmReset_s.lc.por = false ∧
    w_warmReset_s.power.pgood = true ∧
    nextSat (exec (.warmReset) w_warmReset_s)
      (fun t => decide (t.time = w_warmReset_s.time) && decide (t.lc = w_warmReset_s.lc) &&
      decide (t.mus = { w_warmReset_s.mus with restarted := t.mus.restarted }) && decide (t.ret = w_warmReset_s.ret) &&
      decide (t.data = w_warmReset_s.data) && decide (t.fcst = {}) && decide (t.fold = {}) && decide (t.crook = {}) &&
      decide (t.dmem = []) && decide (t.shep.b0 = w_warmReset_s.shep.b0) &&
      decide (t.shep.b1 = w_warmReset_s.shep.b1) && decide (t.power.fabUp = (w_warmReset_s.power.meshReady &&
      (w_warmReset_s.power.fabUp || !w_warmReset_s.lc.erasing))) && decide (t.shep.state = .running ∧
      t.shep.boot = 3) && decide ((t.power.fabUp = false ∨ w_warmReset_s.shep.active = none →
      t.shep.state = .held))) = true :=
  by decide +kernel

theorem test_fabPowerLoss :
    w_fabPowerLoss_s.lc.por = false ∧
    nextSat (exec (.fabPowerLoss) w_fabPowerLoss_s)
      (fun t => decide (t.time = w_fabPowerLoss_s.time) && decide (t.lc = w_fabPowerLoss_s.lc) &&
      decide (t.mus = w_fabPowerLoss_s.mus) && decide (t.ret = w_fabPowerLoss_s.ret) && decide (t.regions = []) &&
      decide (t.data = []) && decide (t.fold = {}) && decide (t.fcst = {}) && decide (t.shep = {}) &&
      decide (t.power = { pgood := false, restoreDue := true })) = true :=
  by decide +kernel

theorem test_fabPowerReturn :
    nextSat (exec (.fabPowerReturn) w_fabPowerReturn_s)
      (fun t => decide (t.power = { w_fabPowerReturn_s.power with
      pgood := true, meshUp := w_fabPowerReturn_s.power.meshUp || (!w_fabPowerReturn_s.lc.por &&
      !w_fabPowerReturn_s.root.bypass) })) = true :=
  by decide +kernel

theorem test_hcAreset :
    nextSat (exec (.hcAreset) w_hcAreset_s)
      (fun t => decide (t.out = { w_hcAreset_s.out with resp := .okay, waiting := dropWithheld w_hcAreset_s .host }) &&
      decide (t.lc = { w_hcAreset_s.lc with held := [] }) && decide (t.root = { w_hcAreset_s.root with
      heldMeas := w_hcAreset_s.root.heldMeas.filter (fun e => decide (e.1 ≠ .host)) }) &&
      decide (t.crook = { w_hcAreset_s.crook with
      held := w_hcAreset_s.crook.held.filter (fun h => decide (h.1 ≠ .host)) })) = true :=
  by decide +kernel

theorem test_eraseDone :
    w_eraseDone_s.lc.erasing = true ∧
    w_eraseDone_s.lc.por = false ∧
    nextSat (exec (.eraseDone) w_eraseDone_s)
      (fun t => decide (t.lc.erasing = false) && decide (t.lc.fuses.erased = true) && decide (memGet t.data 7 = 0) &&
      decide (memGet t.ret 3 = 0) && decide (t.xing.manifest = [])) = true :=
  by decide +kernel

theorem test_lcTransition :
    Performs (⟨.host, 15, none⟩ : Wr) 0xF004 w_lcTransition_s ∧
    ((1 : BitVec 8) ≠ w_lcTransition_s.lc.cmdTag ∧
    w_lcTransition_s.lc.job = none ∧
    transitionRej w_lcTransition_s (3 : BitVec 2) = 0 ∧
    nextSat (exec (.lcTransition (⟨.host, 15, none⟩ : Wr) (3 : BitVec 2) (1 : BitVec 8)) w_lcTransition_s)
      (fun t => decide (t.lc = { w_lcTransition_s.lc with
      job := some (.transition (3 : BitVec 2) (1 : BitVec 8)) })) = true) :=
  ⟨⟨by decide, by decide, by decide, by decide, by decide⟩, by decide +kernel⟩

theorem test_lcTransition_more :
    (Performs (⟨.host, 15, none⟩ : Wr) 0xF004 tUp ∧
    ((1 : BitVec 8) ≠ tUp.lc.cmdTag ∧
    tUp.lc.job = none ∧
    transitionRej tUp (2 : BitVec 2) ≠ 0 ∧
    nextSat (exec (.lcTransition (⟨.host, 15, none⟩ : Wr) (2 : BitVec 2) (1 : BitVec 8)) tUp)
      (fun t => decide (t.lc.rej = BitVec.ofNat 4 (transitionRej tUp (2 : BitVec 2))) &&
      decide (t.lc.cmdTag = (1 : BitVec 8)) && decide (t.lc.job = none) && decide (t.lc.state = tUp.lc.state) &&
      decide (Flagged t .lc 6)) = true)) ∧
    (Performs (⟨.host, 15, none⟩ : Wr) 0xF004 w_lcTransition_s_3 ∧
    (w_lcTransition_s_3.lc.job ≠ none ∧
    nextSat (exec (.lcTransition (⟨.host, 15, none⟩ : Wr) (3 : BitVec 2) (1 : BitVec 8)) w_lcTransition_s_3)
      (fun t => decide (t.lc = { w_lcTransition_s_3.lc with
      held := w_lcTransition_s_3.lc.held ++ [lcWord 1 (3 : BitVec 2).toNat 0 (1 : BitVec 8).toNat] }) &&
      decide (t.nowR = w_lcTransition_s_3.nowR)) = true)) :=
  ⟨⟨⟨by decide, by decide, by decide, by decide, by decide⟩, by decide +kernel⟩,
   ⟨⟨by decide, by decide, by decide, by decide, by decide⟩, by decide +kernel⟩⟩

theorem test_lcRevoke :
    Performs (⟨.host, 15, none⟩ : Wr) 0xF004 w_lcRevoke_s ∧
    ((1 : BitVec 8) ≠ w_lcRevoke_s.lc.cmdTag ∧
    w_lcRevoke_s.lc.job = none ∧
    revokeRej w_lcRevoke_s (1 : BitVec 2) = 0 ∧
    nextSat (exec (.lcRevoke (⟨.host, 15, none⟩ : Wr) (1 : BitVec 2) (1 : BitVec 8)) w_lcRevoke_s)
      (fun t => decide (t.lc = { w_lcRevoke_s.lc with job := some (.revoke (1 : BitVec 2) (1 : BitVec 8)) })) = true) :=
  ⟨⟨by decide, by decide, by decide, by decide, by decide⟩, by decide +kernel⟩

theorem test_lcRevoke_more :
    (Performs (⟨.host, 15, none⟩ : Wr) 0xF004 tUp ∧
    ((1 : BitVec 8) ≠ tUp.lc.cmdTag ∧
    tUp.lc.job = none ∧
    revokeRej tUp (0 : BitVec 2) ≠ 0 ∧
    nextSat (exec (.lcRevoke (⟨.host, 15, none⟩ : Wr) (0 : BitVec 2) (1 : BitVec 8)) tUp)
      (fun t => decide (t.lc.rej = BitVec.ofNat 4 (revokeRej tUp (0 : BitVec 2))) &&
      decide (t.lc.cmdTag = (1 : BitVec 8)) && decide (t.lc.job = none) && decide (Flagged t .lc 6)) = true)) :=
  ⟨⟨by decide, by decide, by decide, by decide, by decide⟩, by decide +kernel⟩

theorem test_lcOpRefuse :
    Performs (⟨.host, 15, none⟩ : Wr) 0xF004 tUp ∧
    ((1 : BitVec 8) ≠ tUp.lc.cmdTag ∧
    tUp.lc.job = none ∧
    nextSat (exec (.lcOpRefuse (⟨.host, 15, none⟩ : Wr) (1 : BitVec 8)) tUp)
      (fun t => decide (t.lc.rej = if tUp.lc.erasing then 2 else if tUp.lc.onBackup then 3 else 10) &&
      decide (t.lc.cmdTag = (1 : BitVec 8)) && decide (t.lc.job = none) && decide (Flagged t .lc 6)) = true) :=
  ⟨⟨by decide, by decide, by decide, by decide, by decide⟩, by decide +kernel⟩

theorem test_lcDone :
    w_lcDone_s.lc.job = some (.transition (3 : BitVec 2) (4 : BitVec 8)) ∧
    w_lcDone_s.lc.held = [] ∧
    nextSat (exec (.lcDone) w_lcDone_s)
      (fun t => decide (t.lc.state = (3 : BitVec 2)) && decide (t.lc.fuses.state = (3 : BitVec 2)) &&
      decide (t.lc.erasing = (w_lcDone_s.lc.erasing || decide ((3 : BitVec 2) = 3))) &&
      decide (t.lc.cmdTag = (4 : BitVec 8)) && decide (t.lc.rej = 0) && decide (t.lc.job = none) &&
      decide (Flagged t .lc 5)) = true :=
  by decide +kernel

theorem test_lcDone_more :
    (w_lcDone_s_2.lc.job = some (.revoke (1 : BitVec 2) (4 : BitVec 8)) ∧
    w_lcDone_s_2.lc.held = [] ∧
    nextSat (exec (.lcDone) w_lcDone_s_2)
      (fun t => decide (t.lc.fuses.keyRevoked.getLsbD (1 : BitVec 2).toNat = true) &&
      decide (t.lc.state = w_lcDone_s_2.lc.state) && decide (t.lc.cmdTag = (4 : BitVec 8)) && decide (t.lc.rej = 0) &&
      decide (t.lc.job = none) && decide (Flagged t .lc 5)) = true) ∧
    (w_lcDone_s_3.lc.job = some (.transition 3 (4 : BitVec 8)) ∧
    w_lcDone_s_3.lc.held = [(0x509 : Word)] ∧
    fld (0x509 : Word) 0 2 = 1 ∧
    BitVec.ofNat 8 (fld (0x509 : Word) 8 8) ≠ (4 : BitVec 8) ∧
    nextSat (exec (.lcDone) w_lcDone_s_3)
      (fun t => decide (t.lc.state = 3) && decide (t.lc.erasing = true) && decide (t.lc.rej = 1) &&
      decide (t.lc.cmdTag = BitVec.ofNat 8 (fld (0x509 : Word) 8 8)) && decide (t.lc.job = none) &&
      decide (t.lc.held = []) && decide (Flagged t .lc 5) && decide (Flagged t .lc 6)) = true) :=
  ⟨by decide +kernel, by decide +kernel⟩

theorem test_testAccess :
    tUp.lc.por = false ∧
    tUp.lc.access = 0 ∧
    tUp.lc.fuses.keyProg.getLsbD (1 : BitVec 2).toNat = false ∧
    nextSat (exec (.testAccess (.programKey (1 : BitVec 2) (77 : BitVec 384))) tUp)
      (fun t => decide (t.lc.fuses.keyProg.getLsbD (1 : BitVec 2).toNat = true) &&
      decide (tabGet t.lc.fuses.keys (1 : BitVec 2).toNat 0 = (77 : BitVec 384))) = true :=
  by decide +kernel

theorem test_testAccess_more :
    (w_testAccess_s_2.lc.por = false ∧
    w_testAccess_s_2.lc.access = 0 ∧
    w_testAccess_s_2.lc.fuses.keyProg.getLsbD (1 : BitVec 2).toNat = true ∧
    nextSat (exec (.testAccess (.programKey (1 : BitVec 2) (77 : BitVec 384))) w_testAccess_s_2)
      (fun t => decide (t.lc.fuses = w_testAccess_s_2.lc.fuses)) = true) ∧
    (tUp.lc.por = false ∧
    tUp.lc.access = 0 ∧
    nextSat (exec (.testAccess (.programDieId (77 : BitVec 64))) tUp)
      (fun t => decide (t.lc.fuses = (if tUp.lc.fuses.dieIdSet then tUp.lc.fuses else { tUp.lc.fuses with
      dieId := (77 : BitVec 64), dieIdSet := true })) && decide (t.lc.tap.ir = .vendor)) = true) ∧
    (tUp.lc.por = false ∧
    tUp.lc.access = 0 ∧
    nextSat (exec (.testAccess .programTrims) tUp)
      (fun t => decide (t.lc.fuses = { tUp.lc.fuses with trims := true })) = true) ∧
    (tUp.lc.por = false ∧
    tUp.lc.access = 0 ∧
    nextSat (exec (.testAccess (.programRootBand (.s1 : Syn) (5 : BitVec 4) (9 : BitVec 32))) tUp)
      (fun t => decide (tabGet t.lc.fuses.rootBand (16 * synIx (.s1 : Syn) + (5 : BitVec 4).toNat) 0 = (9 : BitVec 32)) &&
      decide (tabGet t.lc.fuses.rootBand 5 0 = 0) &&
      decide ((synOf t (.s1 : Syn)).table = (synOf tUp (.s1 : Syn)).table)) = true) ∧
    (tUp.lc.por = false ∧
    tUp.lc.access = 0 ∧
    nextSat (exec (.testAccess .blowManufactureComplete) tUp)
      (fun t => decide (t.lc.fuses = { tUp.lc.fuses with mfgComplete := true })) = true) ∧
    (w_testAccess_s_7.lc.por = false ∧
    (w_testAccess_s_7.lc.access = 1 ∨ w_testAccess_s_7.lc.access = 2) ∧
    (.programTrims : TestOp) ≠ .tapReset ∧
    (.programTrims : TestOp) ≠ .bypass ∧
    (.programTrims : TestOp) ≠ .sample ∧
    (.programTrims : TestOp) ≠ .preload ∧
    (.programTrims : TestOp) ≠ .extest ∧
    nextSat (exec (.testAccess (.programTrims : TestOp)) w_testAccess_s_7)
      (fun t => decide (t.lc.tap.ir = .bypass) && decide ((w_testAccess_s_7.power.fabUp = true → Flagged t .cfg 8)) &&
      decide ((w_testAccess_s_7.power.fabUp = false → t.events = w_testAccess_s_7.events ∧
      t.cfg = w_testAccess_s_7.cfg))) = true) ∧
    (w_testAccess_s_8.lc.por = false ∧
    w_testAccess_s_8.lc.access = 3 ∧
    isOtherOp (.programTrims : TestOp) = false ∧
    nextSat (exec (.testAccess (.programTrims : TestOp)) w_testAccess_s_8)
      (fun t => decide (t.lc.fuses = w_testAccess_s_8.lc.fuses)) = true) ∧
    (tUp.lc.por = false ∧
    ((.extest : TestOp) = .tapReset ∨ (.extest : TestOp) = .bypass ∨ (.extest : TestOp) = .sample ∨ (.extest : TestOp) = .preload ∨ (.extest : TestOp) = .extest) ∧
    nextSat (exec (.testAccess (.extest : TestOp)) tUp)
      (fun t => decide (t.lc.fuses = tUp.lc.fuses) && decide (((.extest : TestOp) = .extest → t.lc.tap.ir = .extest)) &&
      decide (((.extest : TestOp) = .sample → t.lc.tap.ir = .sample)) && decide (((.extest : TestOp) = .preload →
      t.lc.tap.ir = .preload)) && decide (((.extest : TestOp) = .tapReset ∨ (.extest : TestOp) = .bypass →
      t.lc.tap.ir = .bypass ∧ t.lc.tap.code = 0xFF)) && decide (((.extest : TestOp) = .sample →
      ∀ p ∈ pads, ∀ b, padLevel tUp p = some b → t.lc.tap.scan.getD (pads.findIdx (· = p)) false = b)) &&
      decide (((.extest : TestOp) = .extest →
      ∀ p ∈ pads, padDrives t p = some (tUp.lc.tap.scan.getD (pads.findIdx (· = p)) false)))) = true) :=
  ⟨by decide +kernel, by decide +kernel, by decide +kernel, by decide +kernel, by decide +kernel, by decide +kernel, by decide +kernel, by decide +kernel⟩

theorem test_buttonPress :
    w_buttonPress_s.lc.pressedAt + 65536 ≤ w_buttonPress_s.time.slowEdges ∧
    w_buttonPress_s.lc.button = false ∧
    w_buttonPress_s.lc.por = false ∧
    nextSat (exec (.buttonPress) w_buttonPress_s)
      (fun t => decide (t.lc = { w_buttonPress_s.lc with
      button := true, longPress := false, pressedAt := w_buttonPress_s.time.slowEdges })) = true :=
  by decide +kernel

theorem test_btnLong :
    w_btnLong_s.lc.button = true ∧
    w_btnLong_s.lc.longPress = false ∧
    w_btnLong_s.lc.pressedAt + longPressLen ≤ w_btnLong_s.time.slowEdges ∧
    nextSat (exec (.btnLong) w_btnLong_s)
      (fun t => decide (t.lc.longPress = true) && decide (t.lc.button = true) && decide (Flagged t .lc 4)) = true :=
  by decide +kernel

theorem test_btnShort :
    w_btnShort_s.lc.pressedAt + 65536 ≤ w_btnShort_s.time.slowEdges ∧
    w_btnShort_s.lc.button = true ∧
    w_btnShort_s.lc.longPress = false ∧
    w_btnShort_s.time.slowEdges < w_btnShort_s.lc.pressedAt + longPressLen ∧
    nextSat (exec (.btnShort) w_btnShort_s)
      (fun t => decide (t.lc.button = false) && decide (t.lc.pressedAt = w_btnShort_s.time.slowEdges) &&
      decide (Flagged t .lc 3)) = true :=
  by decide +kernel

theorem test_buttonRelease :
    w_buttonRelease_s.lc.pressedAt + 65536 ≤ w_buttonRelease_s.time.slowEdges ∧
    w_buttonRelease_s.lc.button = true ∧
    w_buttonRelease_s.lc.longPress = true ∧
    nextSat (exec (.buttonRelease) w_buttonRelease_s)
      (fun t => decide (t.lc.button = false) && decide (t.lc.pressedAt = w_buttonRelease_s.time.slowEdges) &&
      decide (t.lc.longPress = false) && decide (t.events = w_buttonRelease_s.events)) = true :=
  by decide +kernel

theorem test_ledChange :
    ledTime w_ledChange_s = true ∧
    w_ledChange_s.lc.ledAt < ledQuantum w_ledChange_s ∧
    nextSat (exec (.ledChange) w_ledChange_s)
      (fun t => decide (t.lc.led = ledPattern w_ledChange_s (ledQuantum w_ledChange_s)) &&
      decide (t.lc.ledAt = ledQuantum w_ledChange_s) && decide (t.lc.flash = w_ledChange_s.lc.flash) &&
      decide ((ledPattern w_ledChange_s (ledQuantum w_ledChange_s) ≠ w_ledChange_s.lc.led → t.lc.ledFor = 0))) = true :=
  by decide +kernel

theorem test_i2cTransaction :
    (0x58 : BitVec 7) = bmTarget tUp ∧
    2 ^ 20 ≤ (0x100000 : BitVec 24).toNat ∧
    nextSat (exec (.i2cTransaction (.write (0x58 : BitVec 7) (0x100000 : BitVec 24) ([1, 2, 3, 4] : List (BitVec 8)))) tUp)
      (fun t => decide (t.out.nack = true)) = true :=
  by decide +kernel

theorem test_i2cTransaction_more :
    ((0x58 : BitVec 7) = bmTarget tUp ∧
    (0xE000 : BitVec 24).toNat < 2 ^ 20 ∧
    nextSat (exec (.i2cTransaction (.write (0x58 : BitVec 7) (0xE000 : BitVec 24) [(0xA5 : BitVec 8), (0 : BitVec 8), (0 : BitVec 8), (0 : BitVec 8)])) tUp)
      (fun t => decide (t.crook.armed = true)) = true) ∧
    ((0x58 : BitVec 7) = bmTarget tUp ∧
    (0xE008 : BitVec 24).toNat < 2 ^ 20 ∧
    nextSat (exec (.i2cTransaction (.read (0x58 : BitVec 7) (0xE008 : BitVec 24) (1 : Nat))) tUp)
      (fun t => decide (t.out.i2c.length = 4 * (1 : Nat)) && decide (((1 : Nat) = 1 →
      t.out.i2c = leBytes 4 (regRead { tUp with out := { tUp.out with
      i2c := [], nack := false } } .bm (0xE008 : BitVec 24).toNat).toNat)) && decide (t.out.nack = false)) = true) ∧
    (i2cTarget ((.read 3 0 1) : I2c) ≠ bmTarget tUp ∧
    nextSat (exec (.i2cTransaction ((.read 3 0 1) : I2c)) tUp)
      (fun t => decide (t.out = tUp.out)) = true) :=
  ⟨by decide +kernel, by decide +kernel, by decide +kernel⟩

theorem test_sclTimeout :
    nextSat (exec (.sclTimeout) w_sclTimeout_s)
      (fun t => decide (t.out.i2c = [])) = true :=
  by decide +kernel

theorem test_tickEdge :
    w_tickEdge_s.lc.por = false ∧
    w_tickEdge_s.time.held = false ∧
    w_tickEdge_s.root.bypass = false ∧
    (false : Bool) = false ∧
    w_tickEdge_s.crook.held = none ∧
    w_tickEdge_s.out.waiting = [] ∧
    w_tickEdge_s.out.captures = [] ∧
    w_tickEdge_s.mus.todLoad = none ∧
    w_tickEdge_s.mus.joinTicks = none ∧
    nextSat (exec (.tickEdge (false : Bool) ([(3, 2)] : List (Nat × Nat))) w_tickEdge_s)
      (fun t => decide (t.time.counter = (w_tickEdge_s.time.counter + 1) % 2 ^ 64) &&
      decide (t.time.total = w_tickEdge_s.time.total + (w_tickEdge_s.time.counter + 1 - w_tickEdge_s.time.counter)) &&
      decide (t.time.slow = (w_tickEdge_s.time.slow + 1) % 40) &&
      decide (t.time.slowEdges = w_tickEdge_s.time.slowEdges + (w_tickEdge_s.time.slow + 1) / 40) &&
      decide ((w_tickEdge_s.root.missing = false → (synOf w_tickEdge_s w_tickEdge_s.root.active).locked = true →
      (w_tickEdge_s.time.slow + 1) % 5 = 0 → t.root.recV = t.time.counter)) &&
      decide ((regionOf t 3).lag16 = 16 * 1000 * 3 - 16 * 7 - 2) && decide ((regionOf t 4).lag16 = 0)) = true :=
  by decide +kernel

theorem test_tickEdge_more :
    (w_tickEdge_s_2.lc.por = false ∧
    w_tickEdge_s_2.time.held = false ∧
    w_tickEdge_s_2.root.bypass = false ∧
    (false : Bool) = false ∧
    bypassForce w_tickEdge_s_2 = true ∧
    w_tickEdge_s_2.root.missing = false ∧
    (w_tickEdge_s_2.time.slow + 1) % 5 = 0 ∧
    w_tickEdge_s_2.out.waiting = [] ∧
    w_tickEdge_s_2.out.captures = [] ∧
    w_tickEdge_s_2.mus.todLoad = none ∧
    w_tickEdge_s_2.mus.joinTicks = none ∧
    nextSat (exec (.tickEdge (false : Bool) ([] : List (Nat × Nat))) w_tickEdge_s_2)
      (fun t => decide (t.root.bypass = true) && decide (t.time.counter = (w_tickEdge_s_2.time.counter + 1) % 2 ^ 64) &&
      decide (t.root.bypTarget = t.time.counter) && decide (Flagged t .root 3)) = true) ∧
    (w_tickEdge_s_3.lc.por = false ∧
    w_tickEdge_s_3.time.held = false ∧
    w_tickEdge_s_3.root.bypass = true ∧
    (true : Bool) = true ∧
    w_tickEdge_s_3.root.missing = false ∧
    w_tickEdge_s_3.root.refOk = true ∧
    w_tickEdge_s_3.out.waiting = [] ∧
    w_tickEdge_s_3.out.captures = [] ∧
    w_tickEdge_s_3.mus.todLoad = none ∧
    w_tickEdge_s_3.mus.joinTicks = none ∧
    nextSat (exec (.tickEdge (true : Bool) ([] : List (Nat × Nat))) w_tickEdge_s_3)
      (fun t => decide (t.time.counter = max w_tickEdge_s_3.time.counter (w_tickEdge_s_3.root.bypTarget + 5) % 2 ^ 64) &&
      decide (t.root.bypTarget = w_tickEdge_s_3.root.bypTarget + 5) &&
      decide (t.time.slow = (w_tickEdge_s_3.time.slow + (5 - w_tickEdge_s_3.time.slow % 5 + 5 * w_tickEdge_s_3.root.lateEdges)) % 40) &&
      decide (t.root.lateEdges = 0) &&
      decide (t.time.total = w_tickEdge_s_3.time.total + (max w_tickEdge_s_3.time.counter (w_tickEdge_s_3.root.bypTarget + 5) - w_tickEdge_s_3.time.counter))) = true) ∧
    (w_tickEdge_s_4.lc.por = false ∧
    (true : Bool) = true ∧
    w_tickEdge_s_4.root.refOk = false ∧
    (w_tickEdge_s_4.root.bypass = true ∨ w_tickEdge_s_4.root.refLost = true) ∧
    w_tickEdge_s_4.out.waiting = [] ∧
    nextSat (exec (.tickEdge (true : Bool) ([] : List (Nat × Nat))) w_tickEdge_s_4)
      (fun t => decide (t.root.goodEdges = min 65536 (w_tickEdge_s_4.root.goodEdges + 1)) &&
      decide (t.time.counter = w_tickEdge_s_4.time.counter) && decide (t.time.total = w_tickEdge_s_4.time.total) &&
      decide (t.time.slow = (if w_tickEdge_s_4.root.refLost = true then w_tickEdge_s_4.time.slow else (w_tickEdge_s_4.time.slow + 5) % 40))) = true) ∧
    ((w_tickEdge_s_5.lc.por = true ∨ (((false : Bool) = false ∨ w_tickEdge_s_5.root.refOk = true ∨ (w_tickEdge_s_5.root.bypass = false ∧
      w_tickEdge_s_5.root.refLost = false)) ∧
      (w_tickEdge_s_5.time.held = true ∨ (false : Bool) ≠ w_tickEdge_s_5.root.bypass ∨ (w_tickEdge_s_5.root.bypass = true ∧
      w_tickEdge_s_5.root.missing = true)))) ∧
    nextSat (exec (.tickEdge (false : Bool) ([] : List (Nat × Nat))) w_tickEdge_s_5)
      (fun t => decide (t.time = w_tickEdge_s_5.time)) = true) ∧
    (w_tickEdge_s_6.lc.por = false ∧
    w_tickEdge_s_6.time.held = false ∧
    w_tickEdge_s_6.root.bypass = false ∧
    (false : Bool) = false ∧
    39 ≤ w_tickEdge_s_6.time.slow ∧
    w_tickEdge_s_6.out.waiting = [⟨(⟨.host, 15, none⟩ : Wr), (0x3008 : Nat), (0x12345678 : Word), []⟩] ∧
    (stalledPorts w_tickEdge_s_6).contains (⟨.host, 15, none⟩ : Wr).port = false ∧
    (⟨.host, 15, none⟩ : Wr).strb = 15 ∧
    writeDenied w_tickEdge_s_6 (⟨.host, 15, none⟩ : Wr).port (0x3008 : Nat) = false ∧
    (0x3008 : Nat) < 0x15000 ∧
    (0x3008 : Nat) ≠ 0x2034 ∧
    edgeBound (0x3008 : Nat) = false ∧
    w_tickEdge_s_6.out.captures = [] ∧
    actingWrite w_tickEdge_s_6 (⟨.host, 15, none⟩ : Wr) (0x3008 : Nat) (0x12345678 : Word) = none ∧
    eventBlock (0x3008 : Nat) = none ∧
    bellReg w_tickEdge_s_6.build (0x3008 : Nat) = none ∧
    nowReg w_tickEdge_s_6.build w_tickEdge_s_6.root.xtalSel.toNat (0x3008 : Nat) = some ((0xFFFFFFFF : Word), (0 : Word)) ∧
    nextSat (exec (.tickEdge (false : Bool) ([] : List (Nat × Nat))) w_tickEdge_s_6)
      (fun t => decide (nowGet t (0x3008 : Nat) = (0x12345678 : Word) &&& (0xFFFFFFFF : Word)) &&
      decide (t.out.waiting = [])) = true) ∧
    (w_tickEdge_s_7.lc.por = false ∧
    w_tickEdge_s_7.time.held = false ∧
    w_tickEdge_s_7.root.bypass = false ∧
    (false : Bool) = false ∧
    39 ≤ w_tickEdge_s_7.time.slow ∧
    w_tickEdge_s_7.out.waiting = [⟨(⟨.host, 15, none⟩ : Wr), (0x3008 : Nat), (0x12345678 : Word), []⟩] ∧
    (stalledPorts w_tickEdge_s_7).contains (⟨.host, 15, none⟩ : Wr).port = true ∧
    w_tickEdge_s_7.out.captures = [] ∧
    w_tickEdge_s_7.mus.todLoad = none ∧
    w_tickEdge_s_7.mus.joinTicks = none ∧
    nextSat (exec (.tickEdge (false : Bool) ([] : List (Nat × Nat))) w_tickEdge_s_7)
      (fun t => decide (t.out.waiting = [⟨(⟨.host, 15, none⟩ : Wr), (0x3008 : Nat), (0x12345678 : Word), []⟩]) &&
      decide (t.time.slowEdges = w_tickEdge_s_7.time.slowEdges + (w_tickEdge_s_7.time.slow + 1) / 40)) = true) :=
  ⟨by decide +kernel, by decide +kernel, by decide +kernel, by decide +kernel, by decide +kernel, by decide +kernel⟩

theorem test_issuedEdge :
    isRegion w_issuedEdge_s (3 : Nat) = true ∧
    mayIssue w_issuedEdge_s (3 : Nat) ((-10) : Int) (20 : Nat) = true ∧
    nextSat (exec (.issuedEdge (3 : Nat) ((-10) : Int) (20 : Nat) (0 : BitVec 4)) w_issuedEdge_s)
      (fun t => decide ((regionOf t (3 : Nat)).c = (regionOf w_issuedEdge_s (3 : Nat)).c + 1) &&
      decide ((regionOf t (3 : Nat)).lastEdge = 65536 * w_issuedEdge_s.time.total + (20 : Nat)) &&
      decide ((regionOf t (3 : Nat)).owed = (regionOf w_issuedEdge_s (3 : Nat)).owed.filter (fun o => !reaches w_issuedEdge_s (3 : Nat) ((-10) : Int) o)) &&
      decide ((regionOf t (3 : Nat)).preN = (regionOf w_issuedEdge_s (3 : Nat)).preN - 1) &&
      decide ((regionOf t (3 : Nat)).strEighths = bump (regionOf w_issuedEdge_s (3 : Nat)).strEighths (wsStretch w_issuedEdge_s (3 : Nat) ((-10) : Int))) &&
      decide ((xingOf t 1).wBeats = 1)) = true :=
  by decide +kernel

theorem test_issuedEdge_more :
    isRegion w_issuedEdge_s_2 (3 : Nat) = true ∧
    mayIssue w_issuedEdge_s_2 (3 : Nat) (0 : Int) (0 : Nat) = false ∧
    nextSat (exec (.issuedEdge (3 : Nat) (0 : Int) (0 : Nat) (0 : BitVec 4)) w_issuedEdge_s_2)
      (fun t => decide (t.regions = w_issuedEdge_s_2.regions)) = true :=
  by decide +kernel

theorem w_front : ({ tUp with pending := [.onMain] } : State).pending = .onMain :: [] ∧ tUp.pending = [] := ⟨rfl, rfl⟩

theorem w_reset_write : regTarget (.foldStart ⟨.host, 15, none⟩ 0x100) = some (⟨.host, 15, none⟩, 0x3010) ∧
    (Instr.foldStart ⟨.host, 15, none⟩ 0x100).wellFormed = true ∧
      reachable State.reset 0x3010 = false := by decide +kernel
theorem w_partial_write : (Instr.foldStart ⟨.host, 7, none⟩ 0x100).wellFormed = true ∧ reachable tUp 0x3010 = true ∧
    (7 : BitVec 4) ≠ 15 ∧
      nextSat (exec (.foldStart ⟨.host, 7, none⟩ 0x100) tUp) (fun t => (eventOf t .cfg).bits.getLsbD 5) = true := by
  decide +kernel
theorem w_denied_write : writeDenied tUp .bm 0x3010 = true ∧
    nextSat (exec (.foldStart ⟨.bm, 15, none⟩ 0x100) tUp) (fun t => decide (t.cfg.denyPort = 2)) = true := by decide +kernel
theorem w_lost_write : writeDenied tUp .shep 0x3010 = false ∧ loses ⟨.shep, 15, some .host⟩ = true ∧
    ranked 0x3010 = true ∧ (Instr.foldStart ⟨.shep, 15, some .host⟩ 0x100).wellFormed = true ∧
    nextSat (exec (.foldStart ⟨.shep, 15, some .host⟩ 0x100) tUp) (fun t => decide (t.out.waiting.length = 1)) = true := by decide +kernel
theorem w_stalled_write : reachable { tUp with root := { tUp.root with heldMeas := [(.host, 1)] } } 0x3010 = true ∧
    portStalls { tUp with root := { tUp.root with heldMeas := [(.host, 1)] } } .host = true ∧
      portStalls tUp .host = false ∧
    (Instr.foldStart ⟨.host, 7, none⟩ 0x100).wellFormed = true := by decide +kernel
theorem w_waiting_write : takenNow { tUp with time := { slow := 7, slowEdges := 1 } } ⟨.host, 15, none⟩ 0x3010 = false ∧
    nextSat (exec (.foldStart ⟨.host, 15, none⟩ 0x100) { tUp with time := { slow := 7, slowEdges := 1 } })
      (fun t => decide (t.out.waiting.length = 1) && !t.fold.pending) = true := by decide +kernel

theorem w_mem_form : memWf tUp.data = true ∧ memWf tUp.ret = true ∧ memWf tUp.dmem = true ∧
    nextSat (step { tUp with pending := [.fcstEntryWrite ⟨0, 0, 1⟩] }) (fun _ => true) = true := by decide +kernel

theorem w_fuse_step : nextSat (step { tUp with pending := [.testAccess (.programDieId 7)] })
    (fun t => t.lc.fuses.dieIdSet) = true := by decide +kernel
theorem w_life_step : LifeCycleOk ({ tUp with
      pending := [.lcDone], lc := { state := 1, fuses := { state := 1 }, job := some (.transition 3 4) } } : State) ∧
    nextSat (step { tUp with
      pending := [.lcDone], lc := { state := 1, fuses := { state := 1 }, job := some (.transition 3 4) } })
      (fun t => decide (t.lc.fuses.state = 3)) = true := by
  refine ⟨⟨rfl, fun target tag h => ?_⟩, by decide +kernel⟩
  simp only [Option.some.injEq, LcJob.transition.injEq] at h
  obtain ⟨rfl, rfl⟩ := h
  decide

theorem w_queue_cold : nextSat (exec .coldReset { tUp with
      pending := [.onMain] }) (fun t => decide (t.pending = [.onMain])) = true := by
  decide +kernel

theorem w_absent_unit : (Instr.pull 300).wellFormed = true ∧ unitPresent tUp (.pull 300) = false := by decide +kernel
theorem w_vendor_test : (Instr.testAccess (.other 9)).wellFormed = true ∧
      unitPresent tUp (.testAccess (.other 9)) = true ∧
    vendorTest tUp (.testAccess (.other 9)) = true := by decide +kernel
theorem w_present_unit : (Instr.pull 3).wellFormed = true ∧ unitPresent tUp (.pull 3) = true ∧
      vendorTest tUp (.pull 3) = false := by
  decide +kernel

theorem w_port_down : portBeat (.pinWrite ⟨0x900000, 1, 1⟩) = some ⟨0x900000, 1, 1⟩ ∧
      State.reset.power.fabUp = false := by decide +kernel

theorem w_frame_root : familyOf (.edgesResume) ∈ [Family.root, Family.mesh, Family.fold] ∧
      (Instr.edgesResume).wellFormed = true ∧
    nextSat (exec (.edgesResume) tFrozen) (fun _ => true) = true := by decide +kernel

theorem w_frame_regi : familyOf (.fcstSealShort 0) ∈ [Family.rcg, Family.xing, Family.fcst] ∧
      (Instr.fcstSealShort 0).wellFormed = true ∧
    nextSat (exec (.fcstSealShort 0) tUp) (fun _ => true) = true := by decide +kernel

theorem w_frame_floc : familyOf (.crkArmExpiry) ∈ [Family.zone, Family.flock, Family.tally, Family.cal] ∧
      (Instr.crkArmExpiry).wellFormed = true ∧
    nextSat (exec (.crkArmExpiry) tUp) (fun _ => true) = true := by decide +kernel

theorem w_frame_must : familyOf (.wdog) ∈ [Family.muster, Family.core, Family.mailbox] ∧
      (Instr.wdog).wellFormed = true ∧
    nextSat (exec (.wdog) tUp) (fun _ => true) = true := by decide +kernel

theorem w_frame_busa : familyOf (.onMain) ∈ [Family.bus, Family.power, Family.tick] ∧ (Instr.onMain).wellFormed = true ∧
    nextSat (exec (.onMain) tUp) (fun _ => true) = true := by decide +kernel

def w_band_beat : Beat := ⟨0x800080, 7, 1⟩
theorem w_unit_frames : ownRegion (.pull 3) = some 3 ∧ nextSat (exec (.pull 3) tUp) (fun _ => true) = true ∧
    nextSat (exec (.forceHoldRegion ⟨.host, 15, none⟩ 3 1) { tUp with
      crook := { armed := true } }) (fun _ => true) = true ∧
    ownXing (.roomStop 2) = some 2 ∧ nextSat (exec (.roomStop 2) tUp) (fun _ => true) = true ∧
    ownFlock (.drvParity 1) = some 1 ∧ nextSat (exec (.drvParity 1) tUp) (fun _ => true) = true ∧
    nextSat (exec (.mbxGo ⟨.host, 15, none⟩ 0) tUp) (fun _ => true) = true ∧
    winOf (aligned w_band_beat).addr.toNat = .band ∧
      nextSat (exec (.bandRowWrite w_band_beat) tUp) (fun _ => true) = true ∧
    nextSat (exec (.lockAcquired .s1) tUp) (fun _ => true) = true := by decide +kernel

theorem w_memory_frames_2 : nextSat (exec .muApply tUp) (fun _ => true) = true ∧
      nextSat (exec .ageTransfer tUp) (fun _ => true) = true ∧
    nextSat (exec .rowVerify tUp) (fun _ => true) = true ∧
      nextSat (exec (.rowVerifyJobEnd []) tUp) (fun _ => true) = true ∧
    nextSat (exec .xcal tUp) (fun _ => true) = true ∧ nextSat (exec (.calDone []) tUp) (fun _ => true) = true ∧
    nextSat (exec (.fcstModeWrite ⟨.host, 15, none⟩ 0) tUp) (fun _ => true) = true := by decide +kernel
theorem w_memory_frames : nextSat (exec (.pinWrite ⟨0x900000, 1, 1⟩) tUp) (fun _ => true) = true ∧
    nextSat (exec (.rcgBmeasDone []) { tUp with bmBusy := true, bmRows := [3] }) (fun _ => true) = true ∧
    nextSat (exec (.retestDone 0 [] ⟨0, false⟩) { tUp with
      flocks := [(0, { retest := some 2 })] }) (fun _ => true) = true ∧
    nextSat (exec (.rootBtabWrite ⟨.host, 15, none⟩ 5) tUp) (fun _ => true) = true ∧
    nextSat (exec .cfgCommit tUp) (fun _ => true) = true := by decide +kernel
theorem w_committed_slot : dirSlot (memWrite [] 0 (dirBytes 2)) = 2 := by decide +kernel

theorem w_register_frame : regTarget (.rcgCfgWrite ⟨.host, 15, none⟩ 0x1234) = some (⟨.host, 15, none⟩, 0x400C) ∧
    nextSat (exec (.rcgCfgWrite ⟨.host, 15, none⟩ 0x1232) tUp)
      (fun t => decide (bellW t (keyRcg 0) ≠ bellW tUp (keyRcg 0) ∧
      bellW t (keyRcg 1) = bellW tUp (keyRcg 1))) = true := by decide +kernel

theorem w_other_ports : nextSat (exec (.bellSnapReq ⟨.bm, 15, none⟩ 0x1) tUp)
    (fun t => decide ((snapOf t 0 .bm).valid = true ∧ (snapOf t 0 .host).valid = false)) = true := by decide +kernel

theorem w_applied : appliesBellClass .call = false ∧ nextSat (exec .call tUp) (fun _ => true) = true ∧
    nextSat (exec .bell tUp) (fun _ => true) = true ∧ 0x3000 ∉ tUp.cfg.pend ∧ tUp.cfg.fresh = [] := by decide +kernel

theorem w_read_back : Performs ⟨.host, 15, none⟩ 0x3000 tUp ∧
      actingWrite tUp ⟨.host, 15, none⟩ 0x3000 0x5004040 = none ∧
    eventBlock 0x3000 = none ∧ bellReg tUp.build 0x3000 = some (0xFF7FF7FF, 0x10004040) ∧
    nextSat (exec (.regWrite ⟨.host, 15, none⟩ 0x3000 0x5004040) tUp)
      (fun t => decide (regRead t .host 0x3000 = 0x5004040 ∧ regRead t .bm 0x3000 = 0x5004040)) = true :=
  ⟨⟨by decide, by decide, by decide, by decide, by decide⟩, by decide +kernel, by decide +kernel, by decide +kernel, by decide +kernel⟩
theorem w_read_plain : Performs ⟨.host, 15, none⟩ 0x3008 tUp ∧
      actingWrite tUp ⟨.host, 15, none⟩ 0x3008 0x5004040 = none ∧
    eventBlock 0x3008 = none ∧ bellReg tUp.build 0x3008 = none ∧ nowReg tUp.build 0 0x3008 = some (0xFFFFFFFF, 0) ∧
    nextSat (exec (.regWrite ⟨.host, 15, none⟩ 0x3008 0x5004040) tUp) (fun t => decide (regRead t .bm 0x3008 = 0x5004040)) = true :=
  ⟨⟨by decide, by decide, by decide, by decide, by decide⟩, by decide +kernel, by decide +kernel, by decide +kernel, by decide +kernel, by decide +kernel⟩
theorem w_read_waiting : takenNow { tUp with time := { slow := 7, slowEdges := 1 } } ⟨.host, 15, none⟩ 0x3008 = false ∧
    nextSat (exec (.regWrite ⟨.host, 15, none⟩ 0x3008 9) { tUp with time := { slow := 7, slowEdges := 1 } })
      (fun t => decide (regRead t .bm 0x3008 = 9 ∧ nowGet t 0x3008 = 0)) = true := by decide +kernel
theorem w_read_flock : tUp.power.fabUp = true ∧ tUp.lc.por = false ∧ 3 < tUp.build.flocks := by decide
theorem w_read_reset : reachable State.reset 0x3000 = false := by decide
theorem w_read_i2c : nextSat (exec (.i2cTransaction (.read 0x58 0x3000 1)) tUp) (fun t => decide (t.out.i2c = leBytes 4 0x10004040)) = true := by
  decide +kernel

theorem w_event_seq : (eventOf tUp .bell).bits.getLsbD 2 = false ∧ (eventOf tUp .bell).bits.getLsbD 3 = false ∧
    (eventOf { tUp with events := [(1, { bits := 4, seq := 255 })] } .bell).bits.getLsbD 2 = true ∧
    (eventOf (raise .bell 3 { tUp with events := [(1, { bits := 4, seq := 255 })] }) .bell).seq = 0 := by decide +kernel
theorem w_irq_level : blockIrq { tUp with events := [(3, { bits := 5 })], nowR := [(0x301C, 4)] } .host .fold = true ∧
    blockIrq { tUp with events := [(3, { bits := 5 })], nowR := [(0x301C, 2)] } .host .fold = false := by decide +kernel

theorem w_status_words : tUp.build.valid = true ∧ readBlock tUp .host 0x8 = packWord [(0, 15, 8), (18, 13, 256)] ∧
    fld (readBlock { tUp with regions := [(18, { mux := 3 })] } .host (flockAddr 1 0x14)) 4 2 = 3 ∧
    nextSat (exec (.regWrite ⟨.host, 15, none⟩ 0x8 5) tUp) (fun _ => true) = true := by decide +kernel

theorem w_root_table : Performs ⟨.host, 15, none⟩ 0x2020 tUp ∧ tUp.lc.por = false ∧
    nextSat (exec .coldReset { tUp with lc := { fuses := { rootBand := [(17, 9)] } } })
      (fun t => decide (memWord t.ret 0x84 = 9 ∧ tabGet t.root.s1.table 1 0 = 9)) = true :=
  ⟨⟨by decide, by decide, by decide, by decide, by decide⟩, by decide, by decide +kernel⟩

theorem w_core_held : CoreOk tUp ∧ nextSat (step { tUp with
      pending := [.halt .loadFault 1 2] }) (fun t => decide (t.shep.state = .held)) = true ∧
    nextSat (exec .coldReset tUp) (fun t => decide (t.shep.state = .held)) = true :=
  ⟨fun _ => rfl, by decide +kernel, by decide +kernel⟩
def w_active_core : State := { tUp with
      build := tTiny, shep := { active := some 0, state := .running, b0 := { st := .active } } }
theorem w_core_warm : w_active_core.power.pgood = true ∧ w_active_core.power.meshReady = true ∧
      w_active_core.shep.active = some 0 ∧
    nextSat (exec .warmReset w_active_core) (fun t => decide (t.shep.state = .running ∧
      t.shep.boot = 3)) = true := by decide +kernel

theorem w_erase_cold : nextSat (exec .coldReset { tUp with lc := { fuses := { state := 3 } } })
    (fun t => t.lc.erasing && !t.power.fabUp) = true ∧
    nextSat (exec .powerOnResetRelease { tUp with lc := { por := true, fuses := { state := 3 } } })
    (fun t => t.lc.erasing && !t.power.fabUp) = true := by decide +kernel
def w_erasing : State :=
  { State.reset with
      build := tTiny, data := [(7, 1)], lc := { erasing := true, state := 3, fuses := { state := 3 } }, power := { meshUp := true, meshReady := true } }
theorem w_erase_done : w_erasing.lc.erasing = true ∧ w_erasing.lc.por = false ∧ w_erasing.power.fabUp = false ∧
      w_erasing.power.pgood = true ∧
    nextSat (exec .warmReset w_erasing) (fun t => !t.power.fabUp) = true ∧
    nextSat (exec .eraseDone w_erasing) (fun t => t.power.fabUp &&
      decide (memGet t.data 7 = 0)) = true := by decide +kernel

theorem w_counter : isColdReset (.bellLoad ⟨.host, 15, none⟩ 1) = false ∧
    nextSat (exec (.bellLoad ⟨.host, 15, none⟩ 1) { tUp with
      time := { slowEdges := 1, firstBell := true, counter := 9 } })
      (fun t => decide (t.time.counter = 9)) = true := by decide +kernel

/-! ### Ill-formed commands and words -/

theorem test_rival_is_another_port : (Instr.bellLoad ⟨.host, 15, some .host⟩ 0).wellFormed = false ∧
    (Instr.bellLoad ⟨.host, 15, some .bm⟩ 0).wellFormed = true := by decide
theorem test_units_of_the_largest_build : (Instr.pull 5120).wellFormed = false ∧
      (Instr.drvParity 320).wellFormed = false ∧
    (Instr.spareLocked 0 2).wellFormed = false ∧ (Instr.spareLocked 320 0).wellFormed = false ∧
    (Instr.pathReturn 0 3).wellFormed = false ∧ (Instr.pathReturn 320 0).wellFormed = false ∧
    (Instr.roomStop 24576).wellFormed = false ∧ (Instr.bandChangeStopEnd 5760).wellFormed = false ∧
    (Instr.pull 5119).wellFormed = true ∧ (Instr.bandChangeStopEnd 5759).wellFormed = true := by decide
theorem test_write_units : (Instr.meshDisable ⟨.host, 15, none⟩ 320 0).wellFormed = false ∧
    (Instr.retest ⟨.host, 15, none⟩ 320 0 1).wellFormed = false ∧ (Instr.mbxGo ⟨.host, 15, none⟩ 3).wellFormed = false ∧
    (Instr.mbxWithdraw ⟨.host, 15, none⟩ 3).wellFormed = false := by decide
theorem test_invalid_ops : (Instr.fcstCmdInvalid ⟨.host, 15, none⟩ 4 1).wellFormed = false ∧
    (Instr.crkInvalidOp ⟨.host, 15, none⟩ 6 1).wellFormed = false ∧
      (Instr.calInvalidOp ⟨.host, 15, none⟩ 4 1).wellFormed = false ∧
    (Instr.fwBankInvalidOp ⟨.host, 15, none⟩ 3 1).wellFormed = false := by decide
theorem test_beats_in_their_windows : (Instr.fcstEntryWrite ⟨0x400080, 1, 0⟩).wellFormed = false ∧
    (Instr.fcstEntryWrite ⟨1, 1, 0⟩).wellFormed = false ∧ (Instr.bandRowWrite ⟨0x8B4000, 1, 0⟩).wellFormed = false ∧
    (Instr.pinWrite ⟨0x906000, 1, 0⟩).wellFormed = false ∧ (Instr.manifestWrite ⟨0xA60040, 1, 0⟩).wellFormed = false ∧
    (Instr.calImageWrite ⟨0xB4E000, 1, 0⟩).wellFormed = false ∧
      (Instr.fwDataWrite ⟨0xC40000, 1, 0⟩).wellFormed = false ∧
    (Instr.fwDataWrite ⟨0xC3FFE0, 1, 0⟩).wellFormed = true := by decide
theorem test_frames_have_their_type : (Instr.hello 0 (mFrame 2 0 1 [])).wellFormed = false ∧
    (Instr.hello 0 (mFrame 1 0 1 [])).wellFormed = false ∧
      (Instr.tree 0 (mFrame 1 0 1 (leBytes 16 0))).wellFormed = false ∧
    (Instr.sync 0 (mFrame 1 0 1 (leBytes 16 0)) none).wellFormed = false ∧
      (Instr.follow 0 (mFrame 3 0 1 (leBytes 16 0))).wellFormed = false ∧
    (Instr.offset 0 ⟨mFrame 3 0 1 (leBytes 16 0), true⟩).wellFormed = false ∧
      (Instr.muDone 0 (mFrame 3 0 1 (leBytes 16 0))).wellFormed = false ∧
    (Instr.hello 0 (mFrame 1 0 1 (leBytes 16 0))).wellFormed = true := by decide +kernel
theorem test_operand_lists : (Instr.rcgBmeasDone [(5760, [])]).wellFormed = false ∧
    (Instr.rcgBmeasDone [(0, List.replicate 25 (1, 2))]).wellFormed = false ∧
    (Instr.retestDone 0 (List.replicate 25 (1, 2)) ⟨0, true⟩).wellFormed = false ∧
      (Instr.tempSample [(320, 1)] 0).wellFormed = false ∧
    (Instr.regionHoldEnd 0 (1, 2) (List.replicate 9 1) true).wellFormed = false ∧
      (Instr.rowVerifyJobEnd [5760]).wellFormed = false ∧
    (Instr.tickEdge false [(5120, 0)]).wellFormed = false ∧
      (Instr.tickEdge false [(0, 16)]).wellFormed = false := by decide +kernel
theorem test_counts_and_timeouts : (Instr.lockLoss .s0 0 0 true false 0).wellFormed = false ∧
    (Instr.badBurst true 0).wellFormed = false ∧ (Instr.badBurst true 257).wellFormed = false ∧
    (Instr.i2cTransaction (.read 0 0 0)).wellFormed = false ∧ (Instr.calTimeout (.spare 320 0)).wellFormed = false ∧
    (Instr.calTimeout (.path 0 3)).wellFormed = false ∧
      (Instr.calTimeout (.tally 4)).wellFormed = false := by decide +kernel
theorem test_calibrated_crossings : (Instr.calDone [(24576, [1])]).wellFormed = false ∧
    (Instr.calDone [(0, List.replicate 17 1)]).wellFormed = false := by decide
theorem test_no_word_spells_a_command : decodeTableWord 32 0 = none ∧ decodeTableWord 0 0 = none ∧
    tUp.withFetchWord 32 5 = tUp := by decide +kernel
end

