-- ==== Sys2Proof/Proofs/Outcomes.lean ====
section
/-!
PROOF. Outcomes (O4) does not hold: the model's timeout of a calibration (R358) looks at the unit it names only while
the core runs, and `unitPresent` asks for the unit whenever the timeout is on.
-/
namespace Sys2Proof.Machine
open Sys2Proof

/-- The smallest build of R24, with 16 flocks: it lacks flock 16. -/
def sixteenFlocks : Build :=
  { regions := 256, flocks := 16, spares := 2, classes := 1, zones := 1, xings := 1, tiers := 0, logic := 256 }

/-- After reset with V1_TO in force: the timeout is on, and the core is held. -/
def timeoutWhileHeld : State :=
  { State.reset with build := sixteenFlocks, cfgA := tabSet State.reset.cfgA 0xA000 0x01000000 0 }

theorem sixteenFlocks_valid : sixteenFlocks.valid = true := by decide

/-- While the core does not run, no timeout is taken, whatever unit it names. -/
theorem calTimeout_core_not_running {s : State} (what : TimedCal) (h : coreRuns s = false) :
    exec (.calTimeout what) s = .next s := by
  simp [exec, execCalTimeout, h]

/-- Refutes O4: with V1_TO set and the core held, the timeout of a calibration of flock 16, which the build lacks,
completes and changes nothing, and so is no fault. -/
theorem not_outcomes : ¬ Obligations.Outcomes := by
  unfold Obligations.Outcomes
  intro h
  have hfault : exec (.calTimeout (.path 16 0)) timeoutWhileHeld = .fault .noSuchUnit :=
    (h _ _ (by decide)).1 (by decide)
  rw [calTimeout_core_not_running _ (by decide)] at hfault
  cases hfault

end Sys2Proof.Machine
end

