-- ==== Sys2Proof/Proofs/UnappliedCommands.lean ====
section
/-!
PROOF. The commands that write no register and apply no bell-class value: each leaves what is applied of the bell-class
registers, the build, the straps and the hookups as they are (R13, R500).
-/
namespace Sys2Proof.Machine
open Sys2Proof

/-- Every next state of the outcome has the property. -/
def Lands (P : State → Prop) (o : Host.Outcome State Fault Refusal) : Prop := ∀ t, o = .next t → P t

theorem lands_next {P : State → Prop} {t : State} : Lands P (.next t) ↔ P t :=
  ⟨fun h => h t rfl, fun p _ h => by cases h; exact p⟩

theorem lands_fault {P : State → Prop} {f : Fault} : Lands P (.fault f) ↔ True := ⟨fun _ => trivial, fun _ _ h => nomatch h⟩

theorem lands_refused {P : State → Prop} {r : Refusal} : Lands P (.refused r) ↔ True := ⟨fun _ => trivial, fun _ _ h => nomatch h⟩

theorem lands_ite {P : State → Prop} {c : Prop} [Decidable c] {a b : Host.Outcome State Fault Refusal} :
    Lands P (if c then a else b) ↔ if c then Lands P a else Lands P b := by split <;> exact Iff.rfl

/-- The parts that a command may change that applies no bell-class value. -/
def unappliedParts : List Part :=
  [.bellWritten, .nowRegs, .root, .time, .snaps, .logs, .flocks, .gens, .regions, .xing, .fold, .fcst, .zones, .foTotal, .crook,
   .tally, .cal, .mus, .shep, .mbx, .check, .lc, .power, .data, .retention, .coreData, .bmeas, .answers, .freeCount] ++ allEvents

/-- The parts that are in the list. -/
theorem unapplied_mem :
    Part.bellWritten ∈ unappliedParts ∧ Part.nowRegs ∈ unappliedParts ∧ Part.root ∈ unappliedParts ∧
    Part.time ∈ unappliedParts ∧ Part.snaps ∈ unappliedParts ∧ Part.logs ∈ unappliedParts ∧
    Part.flocks ∈ unappliedParts ∧ Part.gens ∈ unappliedParts ∧ Part.regions ∈ unappliedParts ∧
    Part.xing ∈ unappliedParts ∧ Part.fold ∈ unappliedParts ∧ Part.fcst ∈ unappliedParts ∧
    Part.zones ∈ unappliedParts ∧ Part.foTotal ∈ unappliedParts ∧ Part.crook ∈ unappliedParts ∧
    Part.tally ∈ unappliedParts ∧ Part.cal ∈ unappliedParts ∧ Part.mus ∈ unappliedParts ∧
    Part.shep ∈ unappliedParts ∧ Part.mbx ∈ unappliedParts ∧ Part.check ∈ unappliedParts ∧
    Part.lc ∈ unappliedParts ∧ Part.power ∈ unappliedParts ∧ Part.data ∈ unappliedParts ∧
    Part.retention ∈ unappliedParts ∧ Part.coreData ∈ unappliedParts ∧ Part.bmeas ∈ unappliedParts ∧
    Part.answers ∈ unappliedParts ∧ Part.freeCount ∈ unappliedParts ∧
    (∀ b, Part.eventReg b ∈ unappliedParts) ∧ (∀ b k, k < 24 → Part.event b k ∈ unappliedParts) :=
  have h : ∀ p ∈ unappliedParts.take 29, p ∈ unappliedParts := fun _ hp => List.mem_of_mem_take hp
  have h (p : Part) (hp : p ∈ unappliedParts.take 29 := by simp [unappliedParts]) : p ∈ unappliedParts := h p hp
  ⟨h _, h _, h _, h _, h _, h _, h _, h _, h _, h _, h _, h _, h _, h _, h _, h _, h _, h _, h _, h _, h _, h _, h _, h _, h _,
    h _, h _, h _, h _, fun b => List.mem_append_right _ (allEvents_reg b), fun b _ hk => List.mem_append_right _ (allEvents_bit b hk)⟩

/-- How a list of parts that an operation may change is seen to lie in another, member by member. -/
theorem parts_sub :
    (∀ (p : Part) (m l : List Part), p :: m ⊆ l ↔ p ∈ l ∧ m ⊆ l) ∧
    (∀ l : List Part, [] ⊆ l) ∧
    (∀ l m n : List Part, l ++ m ⊆ n ↔ l ⊆ n ∧ m ⊆ n) ∧
    (∀ (b : Block) (l : List Part), evs b [] ⊆ l ↔ Part.eventReg b ∈ l) ∧
    (∀ (b : Block) (k : Nat) (ks : List Nat) (l : List Part), evs b (k :: ks) ⊆ l ↔ Part.event b k ∈ l ∧ evs b ks ⊆ l) :=
  ⟨fun _ _ _ => List.cons_subset, List.nil_subset, fun _ _ _ => List.append_subset,
    fun b l => by simp [evs], fun b k ks l => by simp only [evs, List.map_cons, List.cons_subset]; tauto⟩

theorem lossBit_lt (y : Syn) : lossBit y < 24 := by cases y <;> decide

theorem unit_lt (u : BitVec 2) : u.toNat < 24 := by omega

theorem box_lt {m : Nat} (h : m = 0 ∨ m = 1 ∨ m = 2) : m < 24 := by omega


theorem bus_unapplied : busParts ⊆ unappliedParts := by
  simp only [busParts, parts_sub, unapplied_mem, true_and]
  exact List.subset_append_right _ _

/-! ### Operations of one command each -/

theorem same_lcPerform {l : List Part} {s0 s : State} (j : LcJob) (h : [Part.lc] ⊆ l) :
    SameBut l s0 (lcPerform s j) ↔ SameBut l s0 s := by
  have hl : Part.lc ∈ l := h (by simp)
  cases j <;> simp only [lcPerform, ↓same_record, hl, or_true, true_or, and_self]

theorem same_commitConfig {l : List Part} {s0 s t : State} (h : [Part.retention] ⊆ l) (ht : commitConfig s = some t) :
    SameBut l s0 t ↔ SameBut l s0 s := by
  have hl : Part.retention ∈ l := h (by simp)
  unfold commitConfig at ht
  split at ht
  · cases ht
  · cases ht
    simp only [↓same_record, hl, or_true, true_or, and_self]

theorem same_busRead {l : List Part} {s0 s : State} (p : Port) (off : Nat) (h : [.answers, .check] ++ evs .cfg [8] ⊆ l) :
    SameBut l s0 (busRead p off s).2 ↔ SameBut l s0 s := by
  have ha : Part.answers ∈ l := h (List.mem_cons_self)
  simp only [busRead, ↓same_ite, ↓same_deny h, ↓same_record, ha, or_true, true_or, and_self, ite_self]

theorem same_i2cReads {l : List Part} {s0 : State} (off n : Nat) (s : State) (h : [.answers, .check] ++ evs .cfg [8] ⊆ l) :
    SameBut l s0 (i2cReads off n s) ↔ SameBut l s0 s := by
  have ha : Part.answers ∈ l := h (List.mem_cons_self)
  induction n generalizing off s with
  | zero => exact Iff.rfl
  | succ n ih =>
    simp only [i2cReads, ih, ↓same_record, ↓same_busRead _ _ h, ha, or_true, true_or, and_self]

theorem lands_crystalQualified (s : State) :
    Lands (SameBut unappliedParts s) (execCrystalQualified s) := by
  simp only [execCrystalQualified, lands_next, lands_ite, ↓same_record, ↓same_enableSyn, SameBut.rfl, unapplied_mem, parts_sub, Nat.reduceLT, ite_self, or_true, true_or, and_self]

theorem lands_missingCrystalEdge (s : State) :
    Lands (SameBut unappliedParts s) (execMissingCrystalEdge s) := by
  simp only [execMissingCrystalEdge, lands_next, lands_ite, ↓same_ite, ↓same_record, ↓same_tallyRefLost, ↓same_freezeSyn, ↓same_loseTime, SameBut.rfl, unapplied_mem, parts_sub, Nat.reduceLT, ite_self, or_true, true_or, and_self]

theorem lands_edgesResume (s : State) :
    Lands (SameBut unappliedParts s) (execEdgesResume s) := by
  simp only [execEdgesResume, lands_next, lands_ite, ↓same_record, ↓same_prefAct, ↓same_resumeHeld, ↓same_thawSyn, SameBut.rfl, unapplied_mem, parts_sub, Nat.reduceLT, ite_self, or_true, true_or, and_self]

theorem lands_refLoss (s : State) :
    Lands (SameBut unappliedParts s) (execRefLoss s) := by
  simp only [execRefLoss, lands_next, lands_ite, ↓same_record, ↓same_raise, SameBut.rfl, unapplied_mem, Nat.reduceLT, ite_self, or_true, true_or, and_self]

theorem lands_refReturn (s : State) :
    Lands (SameBut unappliedParts s) (execRefReturn s) := by
  simp only [execRefReturn, lands_next, lands_ite, ↓same_record, ↓same_raise, ↓same_releaseFailed, ↓same_thawSyn, ↓same_prefAct, ↓same_resumeHeld, ↓same_enableSyn, SameBut.rfl, unapplied_mem, parts_sub, Nat.reduceLT, ite_self, or_true, true_or, and_self]

theorem lands_frozenOutputFail (y : Syn) (ps : Nat) (s : State) :
    Lands (SameBut unappliedParts s) (execFrozenOutputFail y ps s) := by
  simp only [execFrozenOutputFail]
  split
  · simp only [lands_next, lossBit_lt, ↓same_ite, ↓same_record, ↓same_driverLost, ↓same_raise, ↓same_setSyn, SameBut.rfl, unapplied_mem, parts_sub, Nat.reduceLT, ite_self, or_true, true_or, and_self]
  · exact lands_next.mpr .rfl

theorem lands_lockLoss (y : Syn) (err1 err2 : Int) (slip both : Bool) (edges : Nat) (s : State) :
    Lands (SameBut unappliedParts s) (execLockLoss y err1 err2 slip both edges s) := by
  simp only [execLockLoss]
  split
  · simp only [lands_next, lossBit_lt, ↓same_ite, ↓same_record, ↓same_dropLock, ↓same_driverLost, SameBut.rfl, unapplied_mem, parts_sub, Nat.reduceLT, ite_self, or_true, true_or, and_self]
  · exact lands_next.mpr .rfl

theorem lands_lockAcquired (y : Syn) (s : State) :
    Lands (SameBut unappliedParts s) (execLockAcquired y s) := by
  simp only [execLockAcquired, lands_next, lands_ite, ↓same_setSyn, SameBut.rfl, unapplied_mem, parts_sub, ite_self, and_self]

theorem lands_synthQualified (y : Syn) (s : State) :
    Lands (SameBut unappliedParts s) (execSynthQualified y s) := by
  simp only [execSynthQualified, lands_next, lands_ite, ↓same_record, ↓same_setSyn, ↓same_prefAct, SameBut.rfl, unapplied_mem, parts_sub, Nat.reduceLT, ite_self, or_true, true_or, and_self]

theorem lands_bypExit (y : Syn) (edge1 edge2 : Bool) (s : State) :
    Lands (SameBut unappliedParts s) (execBypExit y edge1 edge2 s) := by
  simp only [execBypExit, lands_next, lands_ite, ↓same_ite, ↓same_record, ↓same_setSyn, ↓same_raise, ↓same_prefAct, SameBut.rfl, unapplied_mem, parts_sub, Nat.reduceLT, ite_self, or_true, true_or, and_self]

theorem lands_rootMeasDone (count : BitVec 16) (s : State) :
    Lands (SameBut unappliedParts s) (execRootMeasDone count s) := by
  unfold execRootMeasDone
  split <;> simp only [lands_next, lands_ite, ↓same_record, ↓same_releaseMeas, ↓same_startAcquire, SameBut.rfl, unapplied_mem, parts_sub, Nat.reduceLT, ite_self, or_true, true_or, and_self]

theorem lands_ageSlewStep (s : State) :
    Lands (SameBut unappliedParts s) (execAgeSlewStep s) := by
  simp only [execAgeSlewStep, lands_next, lands_ite, ↓same_record, SameBut.rfl, unapplied_mem, ite_self, or_true, true_or, and_self]

theorem lands_syncInEdge (phase : BitVec 16) (s : State) :
    Lands (SameBut unappliedParts s) (execSyncInEdge phase s) := by
  simp only [execSyncInEdge, lands_next, lands_ite, ↓same_ite, ↓same_record, ↓same_setSyn, ↓same_raise, SameBut.rfl, unapplied_mem, parts_sub, Nat.reduceLT, ite_self, or_true, true_or, and_self]

theorem lands_broadcastFrame (f p : Nat) (fr : BitVec 128) (s : State) :
    Lands (SameBut unappliedParts s) (execBroadcastFrame f p fr s) := by
  simp only [execBroadcastFrame, lands_next, lands_ite, lands_fault, ↓same_setFlock, SameBut.rfl, unapplied_mem, parts_sub, ite_self, and_self]

theorem lands_deltaTrack (f p : Nat) (late : Bool) (s : State) :
    Lands (SameBut unappliedParts s) (execDeltaTrack f p late s) := by
  simp only [execDeltaTrack, lands_next, lands_ite, lands_fault, ↓same_setFlock, SameBut.rfl, unapplied_mem, parts_sub, ite_self, and_self]

theorem lands_pathFail (f p : Nat) (cause : PathFault) (s : State) :
    Lands (SameBut unappliedParts s) (execPathFail f p cause s) := by
  simp only [execPathFail, lands_next, lands_ite, lands_fault, ↓same_ite, ↓same_failPath, ↓same_raiseAbout, ↓same_pathGone, ↓same_setFlock, SameBut.rfl, unapplied_mem, parts_sub, Nat.reduceLT, ite_self, and_self]

theorem lands_pathReturn (f p : Nat) (s : State) :
    Lands (SameBut unappliedParts s) (execPathReturn f p s) := by
  simp only [execPathReturn, lands_next, lands_ite, lands_fault, ↓same_pathBack, ↓same_raiseAbout, ↓same_setFlock, SameBut.rfl, unapplied_mem, parts_sub, Nat.reduceLT, ite_self, and_self]

theorem lands_call (s : State) :
    Lands (SameBut unappliedParts s) (execCall s) := by
  simp only [execCall, lands_next, lands_ite, ↓same_ite, ↓same_record, ↓same_firstCall, ↓same_deferPlanned, ↓same_deferLap, SameBut.rfl, unapplied_mem, parts_sub, Nat.reduceLT, ite_self, or_true, true_or, and_self]

theorem lands_graceTailStart (s : State) :
    Lands (SameBut unappliedParts s) (execGraceTailStart s) := by
  simp only [execGraceTailStart, lands_next, lands_ite, ↓same_ite, ↓same_record, ↓same_beginTail, ↓same_commitBell, SameBut.rfl, unapplied_mem, parts_sub, Nat.reduceLT, ite_self, or_true, true_or, and_self]

theorem lands_regionPark (r : Nat) (s : State) :
    Lands (SameBut unappliedParts s) (execRegionPark r s) := by
  simp only [execRegionPark, lands_next, lands_ite, lands_fault, ↓same_ite, ↓same_setRegion, ↓same_startPlannedStop, ↓same_applyProposals, ↓same_failBack, SameBut.rfl, unapplied_mem, parts_sub, Nat.reduceLT, ite_self, and_self]

theorem lands_pull (r : Nat) (s : State) :
    Lands (SameBut unappliedParts s) (execPull r s) := by
  simp only [execPull, lands_next, lands_ite, lands_fault, ↓same_record, ↓same_setRegion, SameBut.rfl, unapplied_mem, parts_sub, ite_self, or_true, true_or, and_self]

theorem lands_tetherStop (x : Nat) (s : State) :
    Lands (SameBut unappliedParts s) (execTetherStop x s) := by
  simp only [execTetherStop, lands_next, lands_ite, lands_fault, ↓same_ite, ↓same_countStop, SameBut.rfl, unapplied_mem, parts_sub, ite_self, and_self]

theorem lands_availInterlock (x : Nat) (s : State) :
    Lands (SameBut unappliedParts s) (execAvailInterlock x s) := by
  simp only [execAvailInterlock, lands_next, lands_ite, lands_fault, ↓same_ite, ↓same_countStop, SameBut.rfl, unapplied_mem, parts_sub, ite_self, and_self]

theorem lands_roomStop (x : Nat) (s : State) :
    Lands (SameBut unappliedParts s) (execRoomStop x s) := by
  simp only [execRoomStop, lands_next, lands_ite, lands_fault, ↓same_ite, ↓same_raiseAbout, ↓same_countStop, SameBut.rfl, unapplied_mem, parts_sub, Nat.reduceLT, ite_self, and_self]

theorem lands_tetherStopRelease (x : Nat) (s : State) :
    Lands (SameBut unappliedParts s) (execTetherStopRelease x s) := by
  simp only [execTetherStopRelease, lands_next, lands_ite, lands_fault, ↓same_setXing, SameBut.rfl, unapplied_mem, parts_sub, ite_self, and_self]

theorem lands_windsockStretch (r : Nat) (sample : Sample) (s : State) :
    Lands (SameBut unappliedParts s) (execWindsockStretch r sample s) := by
  simp only [execWindsockStretch, lands_next, lands_ite, lands_fault, ↓same_ite, ↓same_sampleRegion, SameBut.rfl, unapplied_mem, parts_sub, Nat.reduceLT, ite_self, and_self]

theorem lands_windsockHold (r : Nat) (m : Word) (s : State) :
    Lands (SameBut unappliedParts s) (execWindsockHold r m s) := by
  simp only [execWindsockHold, lands_next, lands_ite, lands_fault, ↓same_ite, ↓same_sampleRegion, SameBut.rfl, unapplied_mem, parts_sub, Nat.reduceLT, ite_self, and_self]

theorem lands_holdRelease (r : Nat) (m : Word) (s : State) :
    Lands (SameBut unappliedParts s) (execHoldRelease r m s) := by
  simp only [execHoldRelease, lands_next, lands_ite, lands_fault, ↓same_ite, ↓same_sampleRegion, SameBut.rfl, unapplied_mem, parts_sub, Nat.reduceLT, ite_self, and_self]

theorem lands_adviseOnset (r : Nat) (m : Word) (s : State) :
    Lands (SameBut unappliedParts s) (execAdviseOnset r m s) := by
  simp only [execAdviseOnset, lands_next, lands_ite, lands_fault, ↓same_ite, ↓same_sampleRegion, SameBut.rfl, unapplied_mem, parts_sub, Nat.reduceLT, ite_self, and_self]

theorem lands_bandChangeStopEnd (g : Nat) (s : State) :
    Lands (SameBut unappliedParts s) (execBandChangeStopEnd g s) := by
  simp only [execBandChangeStopEnd]
  split
  · split
    · refine lands_ite.mpr ?_
      split
      · split <;> simp only [lands_next, ↓same_ite, ↓same_setGen, ↓same_setRegion, ↓same_retune, SameBut.rfl, unapplied_mem, parts_sub, ite_self, and_self]
      · exact lands_next.mpr .rfl
    · exact lands_next.mpr .rfl
  · exact lands_fault.mpr trivial

theorem lands_rcgBmeasDone (counts : List (Nat × List (Nat × Nat))) (s : State) :
    Lands (SameBut unappliedParts s) (execRcgBmeasDone counts s) := by
  have hend (g : Nat) (t : State) : SameBut unappliedParts s (endBmeas counts g t) ↔ SameBut unappliedParts s t :=
    same_endBmeas _ _ (by simp only [parts_sub, unapplied_mem, Nat.reduceLT, and_self])
  have hrec (g : Nat) (t : State) : SameBut unappliedParts s (recordBands false counts g t) ↔ SameBut unappliedParts s t :=
    same_recordBands _ _ _ (by simp only [parts_sub, unapplied_mem, and_self])
  have hspare (f : Nat) (t : State) : SameBut unappliedParts s (spareChanged f t) ↔ SameBut unappliedParts s t :=
    same_spareChanged _ (by simp only [parts_sub, unapplied_mem, Nat.reduceLT, and_self])
  simp only [execRcgBmeasDone, lands_next, lands_ite, ↓same_forAll hend, ↓same_forAll hrec, ↓same_forAll hspare, ↓same_record, SameBut.rfl, unapplied_mem, ite_self, or_true, true_or]

theorem lands_bandRowWrite (b : Beat) (s : State) :
    Lands (SameBut unappliedParts s) (execBandRowWrite b s) := by
  simp only [execBandRowWrite, lands_next, ↓same_dpBeat, SameBut.rfl, unapplied_mem, parts_sub, Nat.reduceLT, and_self]

theorem lands_auditMismatch (x : Nat) (mark : Option Nat) (expect : Expect) (s : State) :
    Lands (SameBut unappliedParts s) (execAuditMismatch x mark expect s) := by
  unfold execAuditMismatch
  repeat' split
  all_goals simp only [lands_next, lands_ite, lands_fault, ↓same_setXing, ↓same_auditFails, SameBut.rfl, unapplied_mem, parts_sub, Nat.reduceLT, ite_self, and_self]

theorem lands_pinWrite (b : Beat) (s : State) :
    Lands (SameBut unappliedParts s) (execPinWrite b s) := by
  simp only [execPinWrite, lands_next, ↓same_dpBeat, SameBut.rfl, unapplied_mem, parts_sub, Nat.reduceLT, and_self]

theorem lands_fcstEntryWrite (b : Beat) (s : State) :
    Lands (SameBut unappliedParts s) (execFcstEntryWrite b s) := by
  simp only [execFcstEntryWrite, lands_next, ↓same_dpBeat, SameBut.rfl, unapplied_mem, parts_sub, Nat.reduceLT, and_self]

theorem lands_fcstSealShort (b : BitVec 1) (s : State) :
    Lands (SameBut unappliedParts s) (execFcstSealShort b s) := by
  simp only [execFcstSealShort, lands_next, ↓same_ite, ↓same_sealFails, SameBut.rfl, unapplied_mem, parts_sub, Nat.reduceLT, ite_self, and_self]

theorem lands_fcstVerifyDone (b : BitVec 1) (s : State) :
    Lands (SameBut unappliedParts s) (execFcstVerifyDone b s) := by
  simp only [execFcstVerifyDone, lands_next, lands_ite, ↓same_record, ↓same_setFbank, ↓same_raise, ↓same_sealFails, SameBut.rfl, unapplied_mem, parts_sub, Nat.reduceLT, ite_self, or_true, true_or, and_self]

theorem lands_fcstNop (idx : Nat) (s : State) :
    Lands (SameBut unappliedParts s) (execFcstNop idx s) := by
  unfold execFcstNop
  split <;> simp only [lands_next, ↓same_passEntry, SameBut.rfl, unapplied_mem, parts_sub, and_self]

theorem lands_preStretch (idx : Nat) (s : State) :
    Lands (SameBut unappliedParts s) (execPreStretch idx s) := by
  unfold execPreStretch
  split
  · exact lands_next.mpr .rfl
  · refine lands_next.mpr ((same_deliver _ _ _ _ _ (by simp only [parts_sub, unapplied_mem, and_self]) (fun r t => ?_)).mpr .rfl)
    simp only [↓same_setRegion, unapplied_mem, parts_sub, and_self]

theorem lands_fcLean (idx : Nat) (s : State) :
    Lands (SameBut unappliedParts s) (execFcLean idx s) := by
  unfold execFcLean
  split
  · exact lands_next.mpr .rfl
  · refine lands_next.mpr ((same_deliver _ _ _ _ _ (by simp only [parts_sub, unapplied_mem, and_self]) (fun r t => ?_)).mpr .rfl)
    simp only [↓same_countOvr5, ↓same_setRegion, unapplied_mem, parts_sub, and_self]

theorem lands_holdMargin (idx : Nat) (s : State) :
    Lands (SameBut unappliedParts s) (execHoldMargin idx s) := by
  unfold execHoldMargin
  split
  · exact lands_next.mpr .rfl
  · refine lands_next.mpr ((same_deliver _ _ _ _ _ (by simp only [parts_sub, unapplied_mem, and_self]) (fun r t => ?_)).mpr .rfl)
    simp only [↓same_countOvr5, ↓same_setRegion, unapplied_mem, parts_sub, and_self]

theorem lands_fcRelease (idx : Nat) (s : State) :
    Lands (SameBut unappliedParts s) (execFcRelease idx s) := by
  unfold execFcRelease
  split
  · exact lands_next.mpr .rfl
  · refine lands_next.mpr ((same_deliver _ _ _ _ _ (by simp only [parts_sub, unapplied_mem, and_self]) (fun r t => ?_)).mpr .rfl)
    simp only [↓same_setRegion, unapplied_mem, parts_sub, and_self]

theorem lands_calSlot (idx : Nat) (s : State) :
    Lands (SameBut unappliedParts s) (execCalSlot idx s) := by
  unfold execCalSlot
  split
  · exact lands_next.mpr .rfl
  · refine lands_next.mpr ((same_deliver _ _ _ _ _ (by simp only [parts_sub, unapplied_mem, and_self]) (fun r t => ?_)).mpr .rfl)
    simp only [↓same_ite, ↓same_record, ↓same_setRegion, unapplied_mem, parts_sub, ite_self, or_true, true_or, and_self]

theorem lands_skewCount (r : Nat) (s : State) :
    Lands (SameBut unappliedParts s) (execSkewCount r s) := by
  simp only [execSkewCount, lands_next, lands_ite, lands_fault, ↓same_ite, ↓same_countSkew, SameBut.rfl, unapplied_mem, parts_sub, ite_self, and_self]

theorem lands_clampWindowEnd (s : State) :
    Lands (SameBut unappliedParts s) (execClampWindowEnd s) := by
  simp only [execClampWindowEnd, lands_next, lands_ite, ↓same_record, ↓same_clampEval, SameBut.rfl, unapplied_mem, parts_sub, Nat.reduceLT, ite_self, or_true, true_or, and_self]

theorem lands_generatorFail (f k : Nat) (code : GenFault) (s : State) :
    Lands (SameBut unappliedParts s) (execGeneratorFail f k code s) := by
  simp only [execGeneratorFail, lands_next, lands_ite, lands_fault, ↓same_ite, ↓same_holdForced, ↓same_failGen, SameBut.rfl, unapplied_mem, parts_sub, Nat.reduceLT, ite_self, and_self]

theorem lands_claimRetry (f k : Nat) (s : State) :
    Lands (SameBut unappliedParts s) (execClaimRetry f k s) := by
  unfold execClaimRetry
  repeat' split
  all_goals simp only [lands_next, lands_ite, lands_fault, ↓same_claim, ↓same_setFlock, SameBut.rfl, unapplied_mem, parts_sub, Nat.reduceLT, ite_self, and_self]

theorem lands_spareLost (f j : Nat) (code : GenFault) (s : State) :
    Lands (SameBut unappliedParts s) (execSpareLost f j code s) := by
  simp only [execSpareLost, lands_next, lands_ite, lands_fault, ↓same_markFailed, ↓same_setFlock, ↓same_spareChanged, ↓same_raiseAbout, SameBut.rfl, unapplied_mem, parts_sub, Nat.reduceLT, ite_self, and_self]

theorem lands_spareLocked (f j : Nat) (s : State) :
    Lands (SameBut unappliedParts s) (execSpareLocked f j s) := by
  simp only [execSpareLocked, lands_next, lands_ite, lands_fault, ↓same_ite, ↓same_spareChanged, ↓same_setGen, SameBut.rfl, unapplied_mem, parts_sub, Nat.reduceLT, ite_self, and_self]

theorem lands_drvParity (f : Nat) (s : State) :
    Lands (SameBut unappliedParts s) (execDrvParity f s) := by
  simp only [execDrvParity, lands_next, lands_ite, lands_fault, ↓same_updateSvc, ↓same_raiseAbout, ↓same_setFlock, SameBut.rfl, unapplied_mem, parts_sub, Nat.reduceLT, ite_self, and_self]

theorem lands_retestDone (f : Nat) (counts : List (Nat × Nat)) (run : RetestRun) (s : State) :
    Lands (SameBut unappliedParts s) (execRetestDone f counts run s) := by
  have hbit (p : Prop) [Decidable p] : (if p then 6 else 12) < 24 := by split <;> decide
  simp only [execRetestDone]
  split
  · split
    · exact lands_next.mpr .rfl
    · split
      · exact lands_next.mpr .rfl
      · simp only [lands_next, lands_ite, hbit, ↓same_ite, ↓same_record, ↓same_setGen, ↓same_raiseAbout, ↓same_setFlock, ↓same_spareChanged, SameBut.rfl, unapplied_mem, parts_sub, Nat.reduceLT, ite_self, or_true, true_or, and_self]
  · exact lands_fault.mpr trivial

theorem lands_crkArmExpiry (s : State) :
    Lands (SameBut unappliedParts s) (execCrkArmExpiry s) := by
  simp only [execCrkArmExpiry, lands_next, ↓same_ite, ↓same_record, SameBut.rfl, unapplied_mem, ite_self, or_true, true_or, and_self]

theorem lands_claimTimeout (p : Port) (s : State) :
    Lands (SameBut unappliedParts s) (execClaimTimeout p s) := by
  unfold execClaimTimeout
  split <;> simp only [lands_next, ↓same_ite, ↓same_raiseAbout, ↓same_setClaim, SameBut.rfl, unapplied_mem, parts_sub, Nat.reduceLT, ite_self, and_self]

theorem lands_tallyCalRefresh (u : BitVec 2) (start : RingPos) (ends : CalEnds) (s : State) :
    Lands (SameBut unappliedParts s) (execTallyCalRefresh u start ends s) := by
  unfold execTallyCalRefresh
  refine lands_ite.mpr ?_
  split
  · simp only [lands_next, unit_lt, ↓same_ite, ↓same_afterRepeat, ↓same_lostRepeat, SameBut.rfl, unapplied_mem, parts_sub, Nat.reduceLT, ite_self, and_self]
  · refine lands_ite.mpr ?_
    split
    · split <;> simp only [lands_next, unit_lt, ↓same_ite, ↓same_endRejected, ↓same_takeCal, ↓same_setTally, SameBut.rfl, unapplied_mem, parts_sub, Nat.reduceLT, ite_self, and_self]
    · exact lands_next.mpr .rfl

theorem lands_tallyGateOpen (gate : RingGate) (s : State) :
    Lands (SameBut unappliedParts s) (execTallyGateOpen gate s) := by
  simp only [execTallyGateOpen, lands_next, lands_ite, unit_lt, ↓same_ite, ↓same_openGate, ↓same_afterRepeat, ↓same_writeResults, SameBut.rfl, unapplied_mem, parts_sub, Nat.reduceLT, ite_self, and_self]

theorem lands_tallyStartEdge (edge : RingEdge) (s : State) :
    Lands (SameBut unappliedParts s) (execTallyStartEdge edge s) := by
  simp only [execTallyStartEdge, lands_next, lands_ite, ↓same_setTally, SameBut.rfl, unapplied_mem, parts_sub, ite_self, and_self]

theorem lands_tallyStopEdge (u : BitVec 2) (k : BitVec 3) (edge : TapEdge) (pos : RingPos) (s : State) :
    Lands (SameBut unappliedParts s) (execTallyStopEdge u k edge pos s) := by
  simp only [execTallyStopEdge, lands_next, lands_ite, ↓same_setTally, SameBut.rfl, unapplied_mem, parts_sub, ite_self, and_self]

theorem lands_tallyWindowClose (u : BitVec 2) (start : RingPos) (ends : CalEnds) (s : State) :
    Lands (SameBut unappliedParts s) (execTallyWindowClose u start ends s) := by
  simp only [execTallyWindowClose, lands_next, lands_ite, unit_lt, ↓same_ite, ↓same_writeResults, ↓same_afterRepeat, ↓same_raiseAbout, SameBut.rfl, unapplied_mem, parts_sub, Nat.reduceLT, ite_self, and_self]

theorem lands_tempSample (flocks : List (Nat × Int)) (island : Int) (s : State) :
    Lands (SameBut unappliedParts s) (execTempSample flocks island s) := by
  unfold execTempSample
  refine lands_ite.mpr ?_
  split
  · exact lands_next.mpr .rfl
  · refine lands_next.mpr ((same_sampleIsland _ (by simp only [parts_sub, unapplied_mem, and_self])).mpr ((same_foldl fun p t => ?_).mpr ?_)) <;>
      simp only [↓same_ite, ↓same_record, ↓same_sampleFlock, SameBut.rfl, unapplied_mem, parts_sub, ite_self, or_true, true_or, and_self]

theorem lands_calImageWrite (b : Beat) (s : State) :
    Lands (SameBut unappliedParts s) (execCalImageWrite b s) := by
  simp only [execCalImageWrite, lands_next, ↓same_dpBeat, SameBut.rfl, unapplied_mem, parts_sub, Nat.reduceLT, and_self]

theorem lands_regionHoldStart (r : Nat) (s : State) :
    Lands (SameBut unappliedParts s) (execRegionHoldStart r s) := by
  simp only [execRegionHoldStart, lands_next, lands_ite, lands_fault, ↓same_setRegion, SameBut.rfl, unapplied_mem, parts_sub, ite_self, and_self]

theorem lands_regionHoldEnd (r : Nat) (counts : Nat × Nat) (rings : List Nat) (checked : Bool) (s : State) :
    Lands (SameBut unappliedParts s) (execRegionHoldEnd r counts rings checked s) := by
  unfold execRegionHoldEnd
  repeat' split
  all_goals simp only [lands_next, lands_fault, ↓same_endHold, SameBut.rfl, unapplied_mem, parts_sub, Nat.reduceLT, and_self]

theorem lands_spareCalStart (f j : Nat) (s : State) :
    Lands (SameBut unappliedParts s) (execSpareCalStart f j s) := by
  simp only [execSpareCalStart, lands_next, lands_ite, lands_fault, ↓same_ite, ↓same_spareChanged, ↓same_setGen, SameBut.rfl, unapplied_mem, parts_sub, Nat.reduceLT, ite_self, and_self]

theorem lands_spareCalEnd (f j : Nat) (counts : Nat × Nat) (checked : Bool) (s : State) :
    Lands (SameBut unappliedParts s) (execSpareCalEnd f j counts checked s) := by
  simp only [execSpareCalEnd]
  split
  · split
    · simp only [lands_next, lands_ite, ↓same_ite, ↓same_raiseAbout, ↓same_judgeSpare, ↓same_hangUnless, ↓same_setGen, ↓same_spareChanged, ↓same_spareLocking, SameBut.rfl, unapplied_mem, parts_sub, Nat.reduceLT, ite_self, and_self]
    · exact lands_next.mpr .rfl
  · exact lands_fault.mpr trivial

theorem lands_pathCalStart (f p : Nat) (s : State) :
    Lands (SameBut unappliedParts s) (execPathCalStart f p s) := by
  simp only [execPathCalStart, lands_next, lands_ite, lands_fault, ↓same_ite, ↓same_pathGone, ↓same_setFlock, SameBut.rfl, unapplied_mem, parts_sub, Nat.reduceLT, ite_self, and_self]

theorem lands_pathCalDone (f p : Nat) (taps : List (BitVec 8 × Nat)) (s : State) :
    Lands (SameBut unappliedParts s) (execPathCalDone f p taps s) := by
  unfold execPathCalDone
  split
  · extract_lets fl m put
    refine lands_ite.mpr ?_
    split
    · exact lands_next.mpr .rfl
    · split <;> simp only [lands_next, lands_ite, put, ↓same_setFlock, ↓same_changedIf, ↓same_raiseAbout, ↓same_calDoneCheck, ↓same_rejectResult, SameBut.rfl, unapplied_mem, parts_sub, Nat.reduceLT, ite_self, and_self]
  · exact lands_fault.mpr trivial

theorem lands_tallyPhaseCalStart (u : BitVec 2) (s : State) :
    Lands (SameBut unappliedParts s) (execTallyPhaseCalStart u s) := by
  simp only [execTallyPhaseCalStart, lands_next, ↓same_ite, ↓same_setTally, SameBut.rfl, unapplied_mem, parts_sub, ite_self, and_self]

theorem lands_tallyPhaseCalDone (u : BitVec 2) (phases : List (BitVec 8 × Nat)) (s : State) :
    Lands (SameBut unappliedParts s) (execTallyPhaseCalDone u phases s) := by
  unfold execTallyPhaseCalDone
  extract_lets x
  split <;> simp only [lands_next, lands_ite, ↓same_setTally, ↓same_raise, ↓same_changedIf, ↓same_islandDone, ↓same_rejectResult, SameBut.rfl, unapplied_mem, parts_sub, Nat.reduceLT, ite_self, and_self]

theorem lands_chargePumpCalStart (y : Syn) (s : State) :
    Lands (SameBut unappliedParts s) (execChargePumpCalStart y s) := by
  simp only [execChargePumpCalStart, lands_next, lands_ite, ↓same_record, ↓same_setSyn, SameBut.rfl, unapplied_mem, parts_sub, ite_self, or_true, true_or, and_self]

theorem lands_chargePumpCalDone (y : Syn) (bandwidth : Nat) (code : BitVec 6) (s : State) :
    Lands (SameBut unappliedParts s) (execChargePumpCalDone y bandwidth code s) := by
  simp only [execChargePumpCalDone, lands_next, lands_ite, ↓same_raise, ↓same_pumpOver, ↓same_islandDone, ↓same_setSyn, ↓same_rejectResult, SameBut.rfl, unapplied_mem, parts_sub, Nat.reduceLT, ite_self, and_self]

theorem lands_bandgapTrimStep (microvolts : Int) (s : State) :
    Lands (SameBut unappliedParts s) (execBandgapTrimStep microvolts s) := by
  simp only [execBandgapTrimStep, lands_next, lands_ite, ↓same_record, ↓same_rejectResult, ↓same_changedIf, SameBut.rfl, unapplied_mem, parts_sub, Nat.reduceLT, ite_self, or_true, true_or, and_self]

theorem lands_calTimeout (what : TimedCal) (s : State) :
    Lands (SameBut unappliedParts s) (execCalTimeout what s) := by
  unfold execCalTimeout
  refine lands_ite.mpr ?_
  split
  · exact lands_next.mpr .rfl
  · split
    · split
      · extract_lets g
        split <;> simp only [lands_next, ↓same_ite, ↓same_spareChanged, ↓same_spareLocking, ↓same_raiseAbout, SameBut.rfl, unapplied_mem, parts_sub, Nat.reduceLT, ite_self, and_self]
      · exact lands_fault.mpr trivial
    · simp only [lands_next, lands_ite, lands_fault, ↓same_ite, ↓same_abandonPath, SameBut.rfl, unapplied_mem, parts_sub, Nat.reduceLT, ite_self, and_self]
    · split <;> simp only [lands_next, ↓same_ite, ↓same_raise, ↓same_setTally, SameBut.rfl, unapplied_mem, parts_sub, Nat.reduceLT, ite_self, and_self]
    · simp only [lands_next, ↓same_ite, ↓same_raise, ↓same_pumpOver, SameBut.rfl, unapplied_mem, parts_sub, Nat.reduceLT, ite_self, and_self]

theorem lands_cableIn (p : BitVec 1) (present : Bool) (s : State) :
    Lands (SameBut unappliedParts s) (execCableIn p present s) := by
  unfold execCableIn
  repeat' split
  all_goals simp only [lands_next, lands_ite, ↓same_ite, ↓same_setMport, ↓same_leaveUp, ↓same_raisePort, ↓same_cableFlash, SameBut.rfl, unapplied_mem, parts_sub, Nat.reduceLT, ite_self, and_self]

theorem lands_portUp (link : LinkUp) (s : State) :
    Lands (SameBut unappliedParts s) (execPortUp link s) := by
  simp only [execPortUp, lands_next, ↓same_ite, ↓same_raisePort, ↓same_setMport, SameBut.rfl, unapplied_mem, parts_sub, Nat.reduceLT, ite_self, and_self]

theorem lands_portDown (p : BitVec 1) (cause : DownCause) (s : State) :
    Lands (SameBut unappliedParts s) (execPortDown p cause s) := by
  simp only [execPortDown, lands_next, ↓same_ite, ↓same_leaveUp, SameBut.rfl, unapplied_mem, parts_sub, Nat.reduceLT, ite_self, and_self]

theorem lands_roundStart (s : State) :
    Lands (SameBut unappliedParts s) (execRoundStart s) := by
  have hsend (p : BitVec 1) (t : State) : SameBut unappliedParts s (sendOn p 2 0 false [] t) ↔ SameBut unappliedParts s t :=
    same_sendOn _ _ _ _ _ (by simp only [parts_sub, unapplied_mem, and_self])
  simp only [execRoundStart, lands_next, lands_ite, ↓same_foldl hsend, ↓same_ite, ↓same_record, ↓same_roundPort, SameBut.rfl, unapplied_mem, parts_sub, Nat.reduceLT, ite_self, or_true, true_or, and_self]

theorem lands_helloSend (p : BitVec 1) (s : State) :
    Lands (SameBut unappliedParts s) (execHelloSend p s) := by
  simp only [execHelloSend, lands_next, lands_ite, ↓same_sendOn, ↓same_setMport, SameBut.rfl, unapplied_mem, parts_sub, ite_self, and_self]

theorem lands_hello (p : BitVec 1) (f : Frame) (s : State) :
    Lands (SameBut unappliedParts s) (execHello p f s) := by
  unfold execHello
  refine lands_ite.mpr ?_
  split
  · exact lands_next.mpr .rfl
  · refine lands_next.mpr ((same_receive _ _ _ _ (by simp only [parts_sub, unapplied_mem, Nat.reduceLT, and_self]) (fun t => ?_)).mpr .rfl)
    simp only [↓same_ite, ↓same_turnPort, ↓same_setMport, ↓same_coarseAct, unapplied_mem, parts_sub, Nat.reduceLT, ite_self, and_self]

theorem lands_tree (p : BitVec 1) (f : Frame) (s : State) :
    Lands (SameBut unappliedParts s) (execTree p f s) := by
  unfold execTree
  refine lands_ite.mpr ?_
  split
  · exact lands_next.mpr .rfl
  · refine lands_next.mpr ((same_receive _ _ _ _ (by simp only [parts_sub, unapplied_mem, Nat.reduceLT, and_self]) (fun t => ?_)).mpr .rfl)
    extract_lets h
    refine same_ite.trans ?_
    split
    · exact Iff.rfl
    · refine same_ite.trans ?_
      split
      · simp only [↓same_record, unapplied_mem, or_true, true_or, and_self]
      · split <;> simp only [↓same_ite, ↓same_takeParent, unapplied_mem, parts_sub, ite_self, and_self]

theorem lands_syncSend (k : BitVec 6) (tx0 tx1 : Option Int) (s : State) :
    Lands (SameBut unappliedParts s) (execSyncSend k tx0 tx1 s) := by
  simp only [execSyncSend, lands_next, lands_ite, ↓same_syncOn, SameBut.rfl, unapplied_mem, parts_sub, ite_self, and_self]

theorem lands_sync (p : BitVec 1) (f : Frame) (rx : Option Int) (s : State) :
    Lands (SameBut unappliedParts s) (execSync p f rx s) := by
  unfold execSync
  refine lands_ite.mpr ?_
  split
  · exact lands_next.mpr .rfl
  · refine lands_next.mpr ((same_receive _ _ _ _ (by simp only [parts_sub, unapplied_mem, Nat.reduceLT, and_self]) (fun t => ?_)).mpr .rfl)
    split <;> simp only [↓same_ite, ↓same_setMport, unapplied_mem, parts_sub, ite_self, and_self]

theorem lands_followSend (j : BitVec 5) (s : State) :
    Lands (SameBut unappliedParts s) (execFollowSend j s) := by
  unfold execFollowSend
  extract_lets k
  refine lands_ite.mpr ?_
  split
  · refine lands_next.mpr ((same_foldl fun p t => ?_).mpr .rfl)
    simp only [↓same_ite, ↓same_sendOn, ↓same_followBytes, unapplied_mem, parts_sub, ite_self, and_self]
  · exact lands_next.mpr .rfl

theorem lands_follow (p : BitVec 1) (f : Frame) (s : State) :
    Lands (SameBut unappliedParts s) (execFollow p f s) := by
  unfold execFollow
  refine lands_ite.mpr ?_
  split
  · exact lands_next.mpr .rfl
  · refine lands_next.mpr ((same_receive _ _ _ _ (by simp only [parts_sub, unapplied_mem, Nat.reduceLT, and_self]) (fun t => ?_)).mpr .rfl)
    simp only [↓same_setMport, unapplied_mem, parts_sub, and_self]

theorem lands_offset (p : BitVec 1) (o : Told) (s : State) :
    Lands (SameBut unappliedParts s) (execOffset p o s) := by
  unfold execOffset
  refine lands_ite.mpr ?_
  split
  · exact lands_next.mpr .rfl
  · refine lands_next.mpr ((same_receive _ _ _ _ (by simp only [parts_sub, unapplied_mem, Nat.reduceLT, and_self]) (fun t => ?_)).mpr .rfl)
    simp only [↓same_ite, ↓same_record, ↓same_hangUnless, ↓same_closeExchange, ↓same_sendOffset, unapplied_mem, parts_sub, Nat.reduceLT, ite_self, or_true, true_or, and_self]

theorem lands_muDone (p : BitVec 1) (f : Frame) (s : State) :
    Lands (SameBut unappliedParts s) (execMuDone p f s) := by
  unfold execMuDone
  refine lands_ite.mpr ?_
  split
  · exact lands_next.mpr .rfl
  · refine lands_next.mpr ((same_receive _ _ _ _ (by simp only [parts_sub, unapplied_mem, Nat.reduceLT, and_self]) (fun t => ?_)).mpr .rfl)
    simp only [↓same_ite, ↓same_setMport, ↓same_sendDone, unapplied_mem, parts_sub, ite_self, and_self]

theorem lands_doneDeadline (s : State) :
    Lands (SameBut unappliedParts s) (execDoneDeadline s) := by
  simp only [execDoneDeadline, lands_next, ↓same_ite, ↓same_sendDone, SameBut.rfl, unapplied_mem, parts_sub, ite_self, and_self]

theorem lands_muApply (s : State) :
    Lands (SameBut unappliedParts s) (execMuApply s) := by
  simp only [execMuApply, lands_next, lands_ite, ↓same_ite, ↓same_record, ↓same_reportRound, ↓same_countF, ↓same_applyRoot, ↓same_applyMember, ↓same_fwRecord, SameBut.rfl, unapplied_mem, parts_sub, Nat.reduceLT, ite_self, or_true, true_or, and_self]

theorem lands_ageTransfer (s : State) :
    Lands (SameBut unappliedParts s) (execAgeTransfer s) := by
  simp only [execAgeTransfer, lands_next, lands_ite, ↓same_record, ↓same_await, ↓same_fwRecord, SameBut.rfl, unapplied_mem, parts_sub, ite_self, or_true, true_or, and_self]

theorem lands_ppsInEdge (err : Int) (s : State) :
    Lands (SameBut unappliedParts s) (execPpsInEdge err s) := by
  simp only [execPpsInEdge, lands_next, lands_ite, ↓same_ite, ↓same_record, ↓same_raise, SameBut.rfl, unapplied_mem, Nat.reduceLT, ite_self, or_true, true_or, and_self]

theorem lands_ppsOut (s : State) :
    Lands (SameBut unappliedParts s) (execPpsOut s) := by
  simp only [execPpsOut, lands_next, ↓same_ite, ↓same_record, SameBut.rfl, unapplied_mem, ite_self, or_true, true_or, and_self]

theorem lands_fwDataWrite (b : Beat) (s : State) :
    Lands (SameBut unappliedParts s) (execFwDataWrite b s) := by
  simp only [execFwDataWrite, lands_next, ↓same_dpBeat, SameBut.rfl, unapplied_mem, parts_sub, Nat.reduceLT, and_self]

theorem lands_fwSealShort (b : BitVec 1) (s : State) :
    Lands (SameBut unappliedParts s) (execFwSealShort b s) := by
  simp only [execFwSealShort, lands_next, ↓same_ite, ↓same_swSealFails, SameBut.rfl, unapplied_mem, parts_sub, Nat.reduceLT, ite_self, and_self]

theorem lands_fwVerifyDone (b : BitVec 1) (s : State) :
    Lands (SameBut unappliedParts s) (execFwVerifyDone b s) := by
  simp only [execFwVerifyDone, lands_next, lands_ite, ↓same_ite, ↓same_record, ↓same_setSwBank, ↓same_raise, ↓same_denyImage, ↓same_swSealFails, SameBut.rfl, unapplied_mem, parts_sub, Nat.reduceLT, ite_self, or_true, true_or, and_self]

theorem lands_fwSwapPreStart (s : State) :
    Lands (SameBut unappliedParts s) (execFwSwapPreStart s) := by
  unfold execFwSwapPreStart
  split <;> simp only [lands_next, ↓same_ite, ↓same_swapTo, SameBut.rfl, unapplied_mem, parts_sub, Nat.reduceLT, ite_self, and_self]

theorem lands_halt (c : HaltCause) (pc val : Word) (s : State) :
    Lands (SameBut unappliedParts s) (execHalt c pc val s) := by
  simp only [execHalt, lands_next, ↓same_ite, ↓same_haltCore, SameBut.rfl, unapplied_mem, parts_sub, Nat.reduceLT, ite_self, and_self]

theorem lands_shepAssertWrite (code : BitVec 16) (pc : Word) (s : State) :
    Lands (SameBut unappliedParts s) (execShepAssertWrite code pc s) := by
  simp only [execShepAssertWrite, lands_next, ↓same_haltCore, SameBut.rfl, unapplied_mem, parts_sub, Nat.reduceLT, and_self]

theorem lands_haltRestart (s : State) :
    Lands (SameBut unappliedParts s) (execHaltRestart s) := by
  simp only [execHaltRestart, lands_next, ↓same_ite, ↓same_resetCore, SameBut.rfl, unapplied_mem, parts_sub, Nat.reduceLT, ite_self, and_self]

theorem lands_wdog (s : State) :
    Lands (SameBut unappliedParts s) (execWdog s) := by
  simp only [execWdog, lands_next, lands_ite, ↓same_ite, ↓same_record, ↓same_raise, ↓same_resetCore, SameBut.rfl, unapplied_mem, parts_sub, Nat.reduceLT, ite_self, or_true, true_or, and_self]

theorem lands_watchdogKick (v : Word) (s : State) :
    Lands (SameBut unappliedParts s) (execWatchdogKick v s) := by
  simp only [execWatchdogKick, lands_next, ↓same_ite, ↓same_record, SameBut.rfl, unapplied_mem, ite_self, or_true, true_or, and_self]

theorem lands_eccCorr (insn : Bool) (s : State) :
    Lands (SameBut unappliedParts s) (execEccCorr insn s) := by
  simp only [execEccCorr, lands_next, ↓same_record, ↓same_raise, SameBut.rfl, unapplied_mem, Nat.reduceLT, or_true, true_or, and_self]

theorem lands_mbxTake (s : State) :
    Lands (SameBut unappliedParts s) (execMbxTake s) := by
  unfold execMbxTake
  repeat' split
  all_goals simp only [lands_next, ↓same_setMbox, SameBut.rfl, unapplied_mem, parts_sub, and_self]

theorem lands_version (s : State) :
    Lands (SameBut unappliedParts s) (execVersion s) := by
  unfold execVersion
  refine lands_next.mpr ((same_onCommand _ _ _ _ _ (by simp only [parts_sub, unapplied_mem, Nat.reduceLT, and_self]) (fun m t hm => ?_)).mpr .rfl)
  split
  · simp only [↓same_complete, unapplied_mem, parts_sub, box_lt hm, and_self]
  · exact Iff.rfl

theorem lands_status (s : State) :
    Lands (SameBut unappliedParts s) (execStatus s) := by
  unfold execStatus
  refine lands_next.mpr ((same_onCommand _ _ _ _ _ (by simp only [parts_sub, unapplied_mem, Nat.reduceLT, and_self]) (fun m t hm => ?_)).mpr .rfl)
  simp only [↓same_complete, unapplied_mem, parts_sub, box_lt hm, and_self]

theorem lands_nop (s : State) :
    Lands (SameBut unappliedParts s) (execNop s) := by
  unfold execNop
  refine lands_next.mpr ((same_onCommand _ _ _ _ _ (by simp only [parts_sub, unapplied_mem, Nat.reduceLT, and_self]) (fun m t hm => ?_)).mpr .rfl)
  simp only [↓same_complete, unapplied_mem, parts_sub, box_lt hm, and_self]

theorem lands_rowVerify (s : State) :
    Lands (SameBut unappliedParts s) (execRowVerify s) := by
  unfold execRowVerify
  refine lands_next.mpr ((same_onCommand _ _ _ _ _ (by simp only [parts_sub, unapplied_mem, Nat.reduceLT, and_self]) (fun m t hm => ?_)).mpr .rfl)
  have hrow (g : Nat) (t : State) : SameBut unappliedParts s (if isGen t g then setGen g { genOf t g with rowWas := none } t else t) ↔
      SameBut unappliedParts s t := by simp only [↓same_ite, ↓same_setGen, unapplied_mem, parts_sub, ite_self, and_self]
  simp only [↓same_ite, ↓same_complete, ↓same_setJob, ↓same_jobRecord, ↓same_forAll hrow, unapplied_mem, parts_sub, box_lt hm, ite_self, and_self]

theorem lands_rowVerifyJobEnd (hit : List Nat) (s : State) :
    Lands (SameBut unappliedParts s) (execRowVerifyJobEnd hit s) := by
  have hrow (g : Nat) (t : State) : SameBut unappliedParts s (verifyRow hit g t) ↔ SameBut unappliedParts s t :=
    same_verifyRow _ _ (by simp only [parts_sub, unapplied_mem, Nat.reduceLT, and_self])
  simp only [execRowVerifyJobEnd, lands_next, lands_ite, ↓same_forAll hrow, ↓same_ite, ↓same_record, ↓same_jobRecord, ↓same_raise, ↓same_setJob, SameBut.rfl, unapplied_mem, parts_sub, Nat.reduceLT, ite_self, or_true, true_or, and_self]

theorem lands_xcal (s : State) :
    Lands (SameBut unappliedParts s) (execXcal s) := by
  unfold execXcal
  refine lands_next.mpr ((same_onCommand _ _ _ _ _ (by simp only [parts_sub, unapplied_mem, Nat.reduceLT, and_self]) (fun m t hm => ?_)).mpr .rfl)
  have hown (u : Nat) (t : State) : SameBut unappliedParts s (setTally u { tallyUnit t u with owner := .fw, releasing := false } t) ↔
      SameBut unappliedParts s t := by simp only [↓same_setTally, unapplied_mem, parts_sub, and_self]
  simp only [↓same_ite, ↓same_complete, ↓same_startXcal, ↓same_setJob, ↓same_jobRecord, ↓same_forAll hown, unapplied_mem, parts_sub, box_lt hm, Nat.reduceLT, ite_self, and_self]

theorem lands_calDone (tx : List (Nat × List Nat)) (s : State) :
    Lands (SameBut unappliedParts s) (execCalDone tx s) := by
  simp only [execCalDone, lands_next, lands_ite, ↓same_finishXcal, ↓same_setJob, ↓same_jobRecord, ↓same_releaseFirmware, ↓same_raise, SameBut.rfl, unapplied_mem, parts_sub, Nat.reduceLT, ite_self, and_self]

theorem lands_jobStatus (s : State) :
    Lands (SameBut unappliedParts s) (execJobStatus s) := by
  unfold execJobStatus
  refine lands_next.mpr ((same_onCommand _ _ _ _ _ (by simp only [parts_sub, unapplied_mem, Nat.reduceLT, and_self]) (fun m t hm => ?_)).mpr .rfl)
  simp only [↓same_ite, ↓same_complete, ↓same_takeFreeWord, unapplied_mem, parts_sub, box_lt hm, ite_self, and_self]

theorem lands_jobAbort (s : State) :
    Lands (SameBut unappliedParts s) (execJobAbort s) := by
  unfold execJobAbort
  refine lands_next.mpr ((same_onCommand _ _ _ _ _ (by simp only [parts_sub, unapplied_mem, Nat.reduceLT, and_self]) (fun m t hm => ?_)).mpr .rfl)
  simp only [↓same_endJob, unapplied_mem, parts_sub, box_lt hm, Nat.reduceLT, and_self]

theorem lands_jobKill (s : State) :
    Lands (SameBut unappliedParts s) (execJobKill s) := by
  unfold execJobKill
  refine lands_next.mpr ((same_onCommand _ _ _ _ _ (by simp only [parts_sub, unapplied_mem, Nat.reduceLT, and_self]) (fun m t hm => ?_)).mpr .rfl)
  simp only [↓same_endJob, unapplied_mem, parts_sub, box_lt hm, Nat.reduceLT, and_self]

theorem lands_releaseTally (s : State) :
    Lands (SameBut unappliedParts s) (execReleaseTally s) := by
  unfold execReleaseTally
  refine lands_next.mpr ((same_onCommand _ _ _ _ _ (by simp only [parts_sub, unapplied_mem, Nat.reduceLT, and_self]) (fun m t hm => ?_)).mpr .rfl)
  simp only [↓same_complete, ↓same_releaseFirmware, ↓same_abortJob, unapplied_mem, parts_sub, box_lt hm, Nat.reduceLT, and_self]

theorem lands_cfgCommit (s : State) :
    Lands (SameBut unappliedParts s) (execCfgCommit s) := by
  unfold execCfgCommit
  refine lands_next.mpr ((same_onCommand _ _ _ _ _ (by simp only [parts_sub, unapplied_mem, Nat.reduceLT, and_self]) (fun m t hm => ?_)).mpr .rfl)
  split
  · next u hu =>
    have hu := same_commitConfig (s0 := s) (l := unappliedParts) (by simp only [parts_sub, unapplied_mem, and_self]) hu
    simp only [↓same_complete, hu, unapplied_mem, parts_sub, box_lt hm, and_self]
  · simp only [↓same_complete, unapplied_mem, parts_sub, box_lt hm, and_self]

theorem lands_identify (s : State) :
    Lands (SameBut unappliedParts s) (execIdentify s) := by
  unfold execIdentify
  refine lands_next.mpr ((same_onCommand _ _ _ _ _ (by simp only [parts_sub, unapplied_mem, Nat.reduceLT, and_self]) (fun m t hm => ?_)).mpr .rfl)
  simp only [↓same_ite, ↓same_record, ↓same_complete, unapplied_mem, parts_sub, box_lt hm, ite_self, or_true, true_or, and_self]

theorem lands_identifyExpiry (s : State) :
    Lands (SameBut unappliedParts s) (execIdentifyExpiry s) := by
  unfold execIdentifyExpiry
  split <;> simp only [lands_next, ↓same_ite, ↓same_record, SameBut.rfl, unapplied_mem, ite_self, or_true, true_or, and_self]

theorem lands_badOpcode (s : State) :
    Lands (SameBut unappliedParts s) (execBadOpcode s) := by
  unfold execBadOpcode
  split
  · next m hm => simp only [lands_next, box_lt (takenBox_lt hm), ↓same_ite, ↓same_complete, SameBut.rfl, unapplied_mem, parts_sub, ite_self, and_self]
  · exact lands_next.mpr .rfl

theorem lands_configPassEnd (s : State) :
    Lands (SameBut unappliedParts s) (execConfigPassEnd s) := by
  simp only [execConfigPassEnd, lands_next, lands_ite, ↓same_ite, ↓same_record, ↓same_raise, ↓same_driftRestore, SameBut.rfl, unapplied_mem, parts_sub, Nat.reduceLT, ite_self, or_true, true_or, and_self]

theorem lands_restoreWriteDone (s : State) :
    Lands (SameBut unappliedParts s) (execRestoreWriteDone s) := by
  unfold execRestoreWriteDone
  refine lands_ite.mpr ?_
  split
  · have hput (p : Nat × Word) (t : State) : SameBut unappliedParts s
        { bellPut p.1 p.2 t with cfg := { (bellPut p.1 p.2 t).cfg with byPort := t.cfg.byPort.filter (· ≠ p.1) } } ↔ SameBut unappliedParts s t := by
      simp only [↓same_record, ↓same_bellPut, unapplied_mem, parts_sub, or_true, true_or, and_self]
    simp only [lands_next, ↓same_foldl hput, ↓same_record, SameBut.rfl, unapplied_mem, or_true, true_or, and_self]
  · exact lands_next.mpr .rfl

theorem lands_badBurst (write : Bool) (beats : Nat) (s : State) :
    Lands (SameBut unappliedParts s) (execBadBurst write beats s) := by
  simp only [execBadBurst, lands_next, ↓same_record, SameBut.rfl, unapplied_mem, or_true, true_or, and_self]

theorem lands_onBackup (s : State) :
    Lands (SameBut unappliedParts s) (execOnBackup s) := by
  simp only [execOnBackup, lands_next, lands_ite, ↓same_record, ↓same_raise, ↓same_countSwitch, SameBut.rfl, unapplied_mem, parts_sub, Nat.reduceLT, ite_self, or_true, true_or, and_self]

theorem lands_onMain (s : State) :
    Lands (SameBut unappliedParts s) (execOnMain s) := by
  simp only [execOnMain, lands_next, lands_ite, ↓same_record, ↓same_raise, ↓same_countSwitch, SameBut.rfl, unapplied_mem, parts_sub, Nat.reduceLT, ite_self, or_true, true_or, and_self]

theorem lands_backupFail (s : State) :
    Lands (SameBut unappliedParts s) (execBackupFail s) := by
  simp only [execBackupFail, lands_next, lands_ite, ↓same_record, ↓same_raise, SameBut.rfl, unapplied_mem, Nat.reduceLT, ite_self, or_true, true_or, and_self]

theorem lands_fabPowerReturn (s : State) :
    Lands (SameBut unappliedParts s) (execFabPowerReturn s) := by
  simp only [execFabPowerReturn, lands_next, ↓same_record, SameBut.rfl, unapplied_mem, or_true, true_or, and_self]

theorem lands_hcAreset (s : State) :
    Lands (SameBut unappliedParts s) (execHcAreset s) := by
  simp only [execHcAreset, lands_next, ↓same_record, SameBut.rfl, unapplied_mem, or_true, true_or, and_self]

theorem lands_lcDone (s : State) :
    Lands (SameBut unappliedParts s) (execLcDone s) := by
  unfold execLcDone
  split <;> simp only [lands_next, ↓same_record, ↓same_releaseLc, ↓same_raise, ↓same_lcPerform, SameBut.rfl, unapplied_mem, parts_sub, Nat.reduceLT, or_true, true_or, and_self]

theorem lands_buttonPress (s : State) :
    Lands (SameBut unappliedParts s) (execButtonPress s) := by
  simp only [execButtonPress, lands_next, lands_ite, ↓same_record, SameBut.rfl, unapplied_mem, ite_self, or_true, true_or, and_self]

theorem lands_btnLong (s : State) :
    Lands (SameBut unappliedParts s) (execBtnLong s) := by
  simp only [execBtnLong, lands_next, lands_ite, ↓same_record, ↓same_raise, SameBut.rfl, unapplied_mem, Nat.reduceLT, ite_self, or_true, true_or, and_self]

theorem lands_btnShort (s : State) :
    Lands (SameBut unappliedParts s) (execBtnShort s) := by
  simp only [execBtnShort, lands_next, lands_ite, ↓same_record, ↓same_raise, SameBut.rfl, unapplied_mem, Nat.reduceLT, ite_self, or_true, true_or, and_self]

theorem lands_ledChange (s : State) :
    Lands (SameBut unappliedParts s) (execLedChange s) := by
  simp only [execLedChange, lands_next, lands_ite, ↓same_record, SameBut.rfl, unapplied_mem, ite_self, or_true, true_or, and_self]

theorem lands_i2cTransaction (t : I2c) (s : State) :
    Lands (SameBut unappliedParts s) (execI2cTransaction t s) := by
  unfold execI2cTransaction
  refine lands_ite.mpr ?_
  split
  · exact lands_next.mpr .rfl
  · refine lands_ite.mpr ?_
    split
    · simp only [lands_next, ↓same_record, SameBut.rfl, unapplied_mem, or_true, true_or, and_self]
    · split <;> simp only [lands_next, ↓same_i2cWords bus_unapplied, ↓same_record, ↓same_i2cReads, SameBut.rfl, unapplied_mem, parts_sub, Nat.reduceLT, or_true, true_or, and_self]

theorem lands_sclTimeout (s : State) :
    Lands (SameBut unappliedParts s) (execSclTimeout s) := by
  simp only [execSclTimeout, lands_next, ↓same_record, SameBut.rfl, unapplied_mem, or_true, true_or, and_self]

theorem lands_tickEdge (bypassEdge : Bool) (phases : List (Nat × Nat)) (s : State) :
    Lands (SameBut unappliedParts s) (execTickEdge bypassEdge phases s) := by
  simp only [execTickEdge, lands_next, lands_ite, ↓same_crystalEdge bus_unapplied, ↓same_deliverEdge bus_unapplied, SameBut.rfl, ite_self]

theorem lands_issuedEdge (r : Nat) (dcoAt : Int) (at16 : Nat) (act : BitVec 4) (s : State) :
    Lands (SameBut unappliedParts s) (execIssuedEdge r dcoAt at16 act s) := by
  simp only [execIssuedEdge, lands_next, lands_ite, lands_fault, ↓same_ite, ↓same_issueEdge, SameBut.rfl, unapplied_mem, parts_sub, ite_self, and_self]

theorem lands_downSweep (s : State) :
    Lands (SameBut unappliedParts s) (execDownSweep s) := by
  simp only [execDownSweep]
  split
  · refine lands_ite.mpr ?_
    split
    · simp only [lands_next, ↓same_closeExchange, ↓same_sendOffset, SameBut.rfl, unapplied_mem, parts_sub, Nat.reduceLT, and_self]
    · split <;> simp only [lands_next, ↓same_ite, ↓same_closeExchange, ↓same_sendOffset, SameBut.rfl, unapplied_mem, parts_sub, Nat.reduceLT, ite_self, and_self]
  · exact lands_next.mpr .rfl

theorem lands_upSweep (s : State) :
    Lands (SameBut unappliedParts s) (execUpSweep s) := by
  simp only [execUpSweep, lands_next, ↓same_ite, ↓same_sendDone, SameBut.rfl, unapplied_mem, parts_sub, ite_self, and_self]

theorem lands_frozenFailureCountEnd (s : State) :
    Lands (SameBut unappliedParts s) (execFrozenFailureCountEnd s) := by
  simp only [execFrozenFailureCountEnd, lands_next, lands_ite, ↓same_releaseFailed, SameBut.rfl, unapplied_mem, parts_sub, Nat.reduceLT, ite_self, and_self]

theorem lands_supplyOkChange (mainOk backupOk : Bool) (s : State) :
    Lands (SameBut unappliedParts s) (execSupplyOkChange mainOk backupOk s) := by
  simp only [execSupplyOkChange, lands_next, lands_ite, ↓same_ite, ↓same_record, ↓same_raise, SameBut.rfl, unapplied_mem, Nat.reduceLT, ite_self, or_true, true_or, and_self]

theorem lands_buttonRelease (s : State) :
    Lands (SameBut unappliedParts s) (execButtonRelease s) := by
  simp only [execButtonRelease, lands_next, lands_ite, ↓same_record, SameBut.rfl, unapplied_mem, ite_self, or_true, true_or, and_self]

theorem lands_testAccess (op : TestOp) (s : State) :
    Lands (SameBut unappliedParts s) (execTestAccess op s) := by
  unfold execTestAccess
  repeat' split
  all_goals simp only [lands_next, lands_refused, ↓same_record, ↓same_tapSelect, ↓same_tapScan, ↓same_denyTest, SameBut.rfl, unapplied_mem, parts_sub, Nat.reduceLT, or_true, true_or, and_self]

theorem lands_manifestWrite (b : Beat) (s : State) :
    Lands (SameBut unappliedParts s) (execManifestWrite b s) := by
  simp only [execManifestWrite, lands_next, ↓same_dpBeat, SameBut.rfl, unapplied_mem, parts_sub, Nat.reduceLT, and_self]

/-- A command that neither writes a register nor applies bell-class values leaves what is applied (R13, R500). -/
theorem lands_unapplied {c : Instr} (s : State) (hc : appliesBellClass c = false) (hr : regTarget c = none) :
    Lands (SameBut unappliedParts s) (exec c s) := by
  cases c with
  | crystalQualified => exact lands_crystalQualified s
  | missingCrystalEdge => exact lands_missingCrystalEdge s
  | edgesResume => exact lands_edgesResume s
  | refLoss => exact lands_refLoss s
  | refReturn => exact lands_refReturn s
  | frozenOutputFail a b => exact lands_frozenOutputFail a b s
  | lockLoss a b c d e f => exact lands_lockLoss a b c d e f s
  | lockAcquired a => exact lands_lockAcquired a s
  | synthQualified a => exact lands_synthQualified a s
  | bypExit a b c => exact lands_bypExit a b c s
  | rootMeasDone a => exact lands_rootMeasDone a s
  | ageSlewStep => exact lands_ageSlewStep s
  | syncInEdge a => exact lands_syncInEdge a s
  | broadcastFrame a b c => exact lands_broadcastFrame a b c s
  | deltaTrack a b c => exact lands_deltaTrack a b c s
  | pathFail a b c => exact lands_pathFail a b c s
  | pathReturn a b => exact lands_pathReturn a b s
  | call => exact lands_call s
  | graceTailStart => exact lands_graceTailStart s
  | regionPark a => exact lands_regionPark a s
  | pull a => exact lands_pull a s
  | tetherStop a => exact lands_tetherStop a s
  | availInterlock a => exact lands_availInterlock a s
  | roomStop a => exact lands_roomStop a s
  | tetherStopRelease a => exact lands_tetherStopRelease a s
  | windsockStretch a b => exact lands_windsockStretch a b s
  | windsockHold a b => exact lands_windsockHold a b s
  | holdRelease a b => exact lands_holdRelease a b s
  | adviseOnset a b => exact lands_adviseOnset a b s
  | bandChangeStopEnd a => exact lands_bandChangeStopEnd a s
  | rcgBmeasDone a => exact lands_rcgBmeasDone a s
  | bandRowWrite a => exact lands_bandRowWrite a s
  | auditMismatch a b c => exact lands_auditMismatch a b c s
  | pinWrite a => exact lands_pinWrite a s
  | fcstEntryWrite a => exact lands_fcstEntryWrite a s
  | fcstSealShort a => exact lands_fcstSealShort a s
  | fcstVerifyDone a => exact lands_fcstVerifyDone a s
  | fcstNop a => exact lands_fcstNop a s
  | preStretch a => exact lands_preStretch a s
  | fcLean a => exact lands_fcLean a s
  | holdMargin a => exact lands_holdMargin a s
  | fcRelease a => exact lands_fcRelease a s
  | calSlot a => exact lands_calSlot a s
  | skewCount a => exact lands_skewCount a s
  | clampWindowEnd => exact lands_clampWindowEnd s
  | generatorFail a b c => exact lands_generatorFail a b c s
  | claimRetry a b => exact lands_claimRetry a b s
  | spareLost a b c => exact lands_spareLost a b c s
  | spareLocked a b => exact lands_spareLocked a b s
  | drvParity a => exact lands_drvParity a s
  | retestDone a b c => exact lands_retestDone a b c s
  | crkArmExpiry => exact lands_crkArmExpiry s
  | claimTimeout a => exact lands_claimTimeout a s
  | tallyCalRefresh a b c => exact lands_tallyCalRefresh a b c s
  | tallyGateOpen a => exact lands_tallyGateOpen a s
  | tallyStartEdge a => exact lands_tallyStartEdge a s
  | tallyStopEdge a b c d => exact lands_tallyStopEdge a b c d s
  | tallyWindowClose a b c => exact lands_tallyWindowClose a b c s
  | tempSample a b => exact lands_tempSample a b s
  | calImageWrite a => exact lands_calImageWrite a s
  | regionHoldStart a => exact lands_regionHoldStart a s
  | regionHoldEnd a b c d => exact lands_regionHoldEnd a b c d s
  | spareCalStart a b => exact lands_spareCalStart a b s
  | spareCalEnd a b c d => exact lands_spareCalEnd a b c d s
  | pathCalStart a b => exact lands_pathCalStart a b s
  | pathCalDone a b c => exact lands_pathCalDone a b c s
  | tallyPhaseCalStart a => exact lands_tallyPhaseCalStart a s
  | tallyPhaseCalDone a b => exact lands_tallyPhaseCalDone a b s
  | chargePumpCalStart a => exact lands_chargePumpCalStart a s
  | chargePumpCalDone a b c => exact lands_chargePumpCalDone a b c s
  | bandgapTrimStep a => exact lands_bandgapTrimStep a s
  | calTimeout a => exact lands_calTimeout a s
  | cableIn a b => exact lands_cableIn a b s
  | portUp a => exact lands_portUp a s
  | portDown a b => exact lands_portDown a b s
  | roundStart => exact lands_roundStart s
  | helloSend a => exact lands_helloSend a s
  | hello a b => exact lands_hello a b s
  | tree a b => exact lands_tree a b s
  | syncSend a b c => exact lands_syncSend a b c s
  | sync a b c => exact lands_sync a b c s
  | followSend a => exact lands_followSend a s
  | follow a b => exact lands_follow a b s
  | offset a b => exact lands_offset a b s
  | muDone a b => exact lands_muDone a b s
  | doneDeadline => exact lands_doneDeadline s
  | muApply => exact lands_muApply s
  | ageTransfer => exact lands_ageTransfer s
  | ppsInEdge a => exact lands_ppsInEdge a s
  | ppsOut => exact lands_ppsOut s
  | fwDataWrite a => exact lands_fwDataWrite a s
  | fwSealShort a => exact lands_fwSealShort a s
  | fwVerifyDone a => exact lands_fwVerifyDone a s
  | fwSwapPreStart => exact lands_fwSwapPreStart s
  | halt a b c => exact lands_halt a b c s
  | shepAssertWrite a b => exact lands_shepAssertWrite a b s
  | haltRestart => exact lands_haltRestart s
  | wdog => exact lands_wdog s
  | watchdogKick a => exact lands_watchdogKick a s
  | eccCorr a => exact lands_eccCorr a s
  | mbxTake => exact lands_mbxTake s
  | version => exact lands_version s
  | status => exact lands_status s
  | nop => exact lands_nop s
  | rowVerify => exact lands_rowVerify s
  | rowVerifyJobEnd a => exact lands_rowVerifyJobEnd a s
  | xcal => exact lands_xcal s
  | calDone a => exact lands_calDone a s
  | jobStatus => exact lands_jobStatus s
  | jobAbort => exact lands_jobAbort s
  | jobKill => exact lands_jobKill s
  | releaseTally => exact lands_releaseTally s
  | cfgCommit => exact lands_cfgCommit s
  | identify => exact lands_identify s
  | identifyExpiry => exact lands_identifyExpiry s
  | badOpcode => exact lands_badOpcode s
  | configPassEnd => exact lands_configPassEnd s
  | restoreWriteDone => exact lands_restoreWriteDone s
  | badBurst a b => exact lands_badBurst a b s
  | onBackup => exact lands_onBackup s
  | onMain => exact lands_onMain s
  | backupFail => exact lands_backupFail s
  | fabPowerReturn => exact lands_fabPowerReturn s
  | hcAreset => exact lands_hcAreset s
  | lcDone => exact lands_lcDone s
  | buttonPress => exact lands_buttonPress s
  | btnLong => exact lands_btnLong s
  | btnShort => exact lands_btnShort s
  | ledChange => exact lands_ledChange s
  | i2cTransaction a => exact lands_i2cTransaction a s
  | sclTimeout => exact lands_sclTimeout s
  | tickEdge a b => exact lands_tickEdge a b s
  | issuedEdge a b c d => exact lands_issuedEdge a b c d s
  | downSweep => exact lands_downSweep s
  | upSweep => exact lands_upSweep s
  | frozenFailureCountEnd => exact lands_frozenFailureCountEnd s
  | supplyOkChange a b => exact lands_supplyOkChange a b s
  | buttonRelease => exact lands_buttonRelease s
  | testAccess a => exact lands_testAccess a s
  | manifestWrite a => exact lands_manifestWrite a s
  | bell => exact nomatch hc
  | coldReset => exact nomatch hc
  | eraseDone => exact nomatch hc
  | fabPowerLoss => exact nomatch hc
  | pathLockDone _ _ _ _ => exact nomatch hc
  | powerOnReset => exact nomatch hc
  | powerOnResetRelease => exact nomatch hc
  | preBellApply => exact nomatch hc
  | warmReset => exact nomatch hc
  | _ => exact nomatch hr

end Sys2Proof.Machine
end

