-- ==== Sys2Proof/Proofs/Bells.lean ====
section
/-!
PROOF. What a bell applies (R13, R14, R450): the keys that were pending before its tick, and no other.
-/
namespace Sys2Proof.Machine
open Sys2Proof

/-! ### What a bell applies -/

theorem bellA_of_sameBut {l : List Part} {s t : State} (h : SameBut l s t) (ha : .bellApplied ∉ l) (hb : .build ∉ l) (k : Nat) :
    bellA t k = bellA s k := by
  have ha : t.cfgA = s.cfgA := h .bellApplied ha
  have hb : t.build = s.build := h .build hb
  rw [bellA, bellA, ha, hb]

theorem bellApplied_not_unapplied : Part.bellApplied ∉ unappliedParts := by decide
theorem build_not_unapplied : Part.build ∉ unappliedParts := by decide

theorem raiseList_applied (es : List (Block × Nat × Option Nat)) (s : State) :
    (raiseList es s).cfgA = s.cfgA ∧ (raiseList es s).build = s.build := by
  unfold raiseList
  induction es generalizing s with
  | nil => exact ⟨rfl, rfl⟩
  | cons e es ih =>
    rw [List.foldl_cons]
    refine ⟨(ih _).1.trans ?_, (ih _).2.trans ?_⟩ <;> split <;> simp

theorem bellA_raiseList (es : List (Block × Nat × Option Nat)) (s : State) (k : Nat) : bellA (raiseList es s) k = bellA s k := by
  obtain ⟨ha, hb⟩ := raiseList_applied es s
  rw [bellA, bellA, ha, hb]

/-- One judged key put into what is applied, its events raised. -/
def putJudged (t : State) (j : Nat × Word × List (Block × Nat × Option Nat)) : State :=
  raiseList j.2.2 { t with cfgA := tabSet t.cfgA j.1 j.2.1 (bellReset t.build j.1) }

theorem bellA_putJudged (t : State) (j : Nat × Word × List (Block × Nat × Option Nat)) (k : Nat) :
    bellA (putJudged t j) k = if k = j.1 then j.2.1 else bellA t k := by
  rw [putJudged, bellA_raiseList]
  by_cases h : k = j.1
  · subst h; simp [bellA]
  · simp [bellA, h, tabGet_set_away]

theorem bellA_foldl_putJudged (ks : List Nat) (v : Nat → Word × List (Block × Nat × Option Nat)) (t : State) (k : Nat) :
    bellA ((ks.map (fun k => (k, v k))).foldl putJudged t) k = if k ∈ ks then (v k).1 else bellA t k := by
  induction ks generalizing t with
  | nil => simp
  | cons j ks ih =>
    rw [List.map_cons, List.foldl_cons, ih, bellA_putJudged]
    by_cases hk : k ∈ ks
    · simp [hk]
    · by_cases hj : k = j <;> simp [hk, hj]

/-- An application puts into force what each pending key is judged to be, and no other key (R14, R450). -/
theorem bellA_applyPending (flat : Nat → Nat → Bool) (s : State) (k : Nat) :
    bellA (applyPending flat s) k = if k ∈ s.cfg.pend then (judge s flat k).1 else bellA s k := by
  unfold applyPending
  split
  · next h => simp [h]
  · rw [← bellA_foldl_putJudged]
    refine bellA_of_sameBut (l := unappliedParts) ?_ bellApplied_not_unapplied build_not_unapplied k
    simp only [↓same_record, ↓same_ite, ↓same_raise, unapplied_mem, or_true, true_or, and_self, ite_self, Nat.reduceLT]
    refine (same_forAll fun n t => ?_).mpr .rfl
    simp only [↓same_ite, ↓same_setKRej, unapplied_mem, parts_sub, and_self, ite_self]

/-- The parts that the end of a fold may change before the application of its bell. -/
def preBellParts : List Part := [.fold, .fcst, .regions, .zones] ++ evs .zone [3, 4]

/-- A bell applies what was pending before the writes of its tick, and leaves every other key (R13, R14). -/
theorem bellA_ringBell_other (placed : Nat) (now : State) {k : Nat} (hk : k ∉ (rewindFresh now).cfg.pend) :
    bellA (ringBell placed now) k = bellA (rewindFresh now) k := by
  unfold ringBell
  extract_lets +onlyGivenNames s first missed s' late charged t
  have hpre : SameBut preBellParts s s' := by
    refine same_ite.mpr ?_
    split
    · exact .rfl
    · refine (same_logFold (by decide)).mpr ((same_forAll fun r t => same_countSkew _ _ _ (by decide)).mpr ?_)
      exact (same_cutClampWindow _ (by decide)).mpr .rfl
  have hbefore : bellA s' k = bellA s k := bellA_of_sameBut hpre (by decide) (by decide) k
  have hpend : s'.cfg = s.cfg := hpre .check (by decide)
  have hpost : bellA t k = bellA s' k := by rw [bellA_applyPending, hpend, if_neg hk]
  rw [← hbefore, ← hpost]
  refine bellA_of_sameBut (l := unappliedParts) ?_ bellApplied_not_unapplied build_not_unapplied k
  have hreadmit (r : Nat) (u : State) : SameBut unappliedParts t (readmit r u) ↔ SameBut unappliedParts t u :=
    same_readmit _ (by simp only [parts_sub, unapplied_mem, Nat.reduceLT, and_self])
  have hrearm (r : Nat) (u : State) : SameBut unappliedParts t (rearm r u) ↔ SameBut unappliedParts t u :=
    same_rearm _ (by simp only [parts_sub, unapplied_mem, Nat.reduceLT, and_self])
  have hratio (x : Nat) (u : State) : SameBut unappliedParts t (ratioCheck s' x u) ↔ SameBut unappliedParts t u :=
    same_ratioCheck _ _ (by simp only [parts_sub, unapplied_mem, Nat.reduceLT, and_self])
  have hband (r : Nat) (u : State) : SameBut unappliedParts t (bellBand r u) ↔ SameBut unappliedParts t u :=
    same_bellBand _ (by simp only [parts_sub, unapplied_mem, Nat.reduceLT, and_self])
  simp only [↓same_ite, ↓same_record, ↓same_replayFresh, ↓same_firmwareBell, ↓same_raise, ↓same_forAll hband, ↓same_respareChanged, ↓same_mapGens, ↓same_forAll hratio,
    ↓same_armAll, ↓same_forAll hrearm, ↓same_mapRegions, ↓same_forAll hreadmit, ↓same_restoreApply, ↓same_calCfgApplied,
    ↓same_bellClasses, ↓same_zoneBell, ↓same_historyBell, ↓same_forecastBell, ↓same_shiftBells, ↓same_nextFold, SameBut.rfl,
    unapplied_mem, parts_sub, Nat.reduceLT, ite_self, or_true, true_or, and_self]

/-- Undoing the writes of a tick leaves what is applied (R13). -/
theorem bellA_rewindFresh (s : State) (k : Nat) : bellA (rewindFresh s) k = bellA s k :=
  bellA_of_sameBut ((same_rewindFresh (by decide : _ ⊆ [Part.bellWritten, .check])).mpr .rfl) (by decide) (by decide) k

theorem rewindKey_pend {e : FreshWr} {s : State} {k : Nat} (hk : k ∉ s.cfg.pend) (he : e.key ≠ k) : k ∉ (rewindKey e s).cfg.pend := by
  simp only [rewindKey]
  split
  · split
    · exact hk
    · simpa [hk] using he.symm
  · simp [hk]

/-- Undoing the writes of a tick makes pending no key but one so written (R13). -/
theorem rewindFresh_pend {s : State} {k : Nat} (hk : k ∉ s.cfg.pend) (hf : ∀ e ∈ s.cfg.fresh, e.key ≠ k) :
    k ∉ (rewindFresh s).cfg.pend := by
  have key (es : List FreshWr) (he : ∀ e ∈ es, e.key ≠ k) (t : State) (ht : k ∉ t.cfg.pend) :
      k ∉ (es.foldl (fun t e => rewindKey e t) t).cfg.pend := by
    induction es generalizing t with
    | nil => exact ht
    | cons e es ih =>
      exact ih (fun e' h => he e' (List.mem_cons_of_mem _ h)) _ (rewindKey_pend ht (he e List.mem_cons_self))
  exact key (freshNow s) (fun e he => hf e (List.mem_of_mem_filter he)) s hk

/-- A bell leaves every key that has no pending write and was not written in its tick (R13, R14). -/
theorem bellA_bell_other {s t : State} {k : Nat} (h : exec .bell s = .next t) (hk : k ∉ s.cfg.pend)
    (hf : ∀ e ∈ s.cfg.fresh, e.key ≠ k) : bellA t k = bellA s k := by
  have hring (placed : Nat) : bellA (ringBell placed s) k = bellA s k :=
    (bellA_ringBell_other placed s (rewindFresh_pend hk hf)).trans (bellA_rewindFresh s k)
  have h : Lands (fun t => bellA t k = bellA s k) (execBell s) := by
    unfold execBell
    simp only [lands_ite, lands_next, apply_ite (fun t => bellA t k), hring, ite_self]
  exact h t ‹_›

end Sys2Proof.Machine
end

