-- ==== Sys2Proof/Proofs/RegisterFrames.lean ====
section
/-!
PROOF. The frame of a register write: of the registers, each write changes at most the one at its address, its port's own
register there, and the entry that the port's select register names (R13, R271, R442, R453, R464).
-/
namespace Sys2Proof.Machine
open Sys2Proof

/-! ### Which registers a write changes -/

/-- The parts that hold neither a register's word nor the root block. -/
def quietParts : List Part :=
  [.time, .snaps, .logs, .flocks, .gens, .regions, .xing, .fold, .fcst, .zones, .foTotal, .crook, .tally, .cal, .mus, .shep, .mbx,
   .check, .lc, .power, .data, .retention, .coreData, .bmeas, .answers, .freeCount] ++ allEvents

theorem quiet_eventReg (b : Block) : Part.eventReg b ∈ quietParts := List.mem_append_right _ (allEvents_reg b)

theorem quiet_event (b : Block) {k : Nat} (hk : k < 24) : Part.event b k ∈ quietParts := List.mem_append_right _ (allEvents_bit b hk)

theorem quiet_mem :
    Part.time ∈ quietParts ∧ Part.snaps ∈ quietParts ∧ Part.logs ∈ quietParts ∧ Part.flocks ∈ quietParts ∧
    Part.gens ∈ quietParts ∧ Part.regions ∈ quietParts ∧ Part.xing ∈ quietParts ∧ Part.fold ∈ quietParts ∧
    Part.fcst ∈ quietParts ∧ Part.zones ∈ quietParts ∧ Part.foTotal ∈ quietParts ∧ Part.crook ∈ quietParts ∧
    Part.tally ∈ quietParts ∧ Part.cal ∈ quietParts ∧ Part.mus ∈ quietParts ∧ Part.shep ∈ quietParts ∧
    Part.mbx ∈ quietParts ∧ Part.check ∈ quietParts ∧ Part.lc ∈ quietParts ∧ Part.power ∈ quietParts ∧
    Part.data ∈ quietParts ∧ Part.retention ∈ quietParts ∧ Part.coreData ∈ quietParts ∧ Part.bmeas ∈ quietParts ∧
    Part.answers ∈ quietParts ∧ Part.freeCount ∈ quietParts ∧
    (∀ b, Part.eventReg b ∈ quietParts) ∧ (∀ b k, k < 24 → Part.event b k ∈ quietParts) :=
  have h : ∀ p ∈ quietParts.take 26, p ∈ quietParts := fun _ hp => List.mem_of_mem_take hp
  have h (p : Part) (hp : p ∈ quietParts.take 26 := by simp [quietParts]) : p ∈ quietParts := h p hp
  ⟨h _, h _, h _, h _, h _, h _, h _, h _, h _, h _, h _, h _, h _, h _, h _, h _, h _, h _, h _, h _, h _, h _, h _, h _, h _,
    h _, quiet_eventReg, fun b _ hk => quiet_event b hk⟩

/-- A write by port p at address a changed, of the registers, at most the one at a, p's own register there, and the entry that p's
select register names (R13, R271, R442, R453, R464). -/
structure RegFrame (p : Port) (a : Nat) (s t : State) : Prop where
  applied : t.cfgA = s.cfgA
  now : ∀ k, k ≠ a → k ≠ portKey p a → nowGet t k = nowGet s k
  bell : ∀ k, k ≠ a → (a = 0x400C → k ≠ keyRcg (selRegion s p)) → (a = 0x7008 → btabKey (btabSel s p) ≠ some k) → bellW t k = bellW s k

theorem nowGet_congr {s t : State} (hn : t.nowR = s.nowR) (hb : t.build = s.build) (hx : t.root.xtalSel = s.root.xtalSel) (k : Nat) :
    nowGet t k = nowGet s k := by
  simp only [nowGet, nowReset, hn, hb, hx]

theorem bellW_congr {s t : State} (hw : t.cfgW = s.cfgW) (hb : t.build = s.build) (k : Nat) : bellW t k = bellW s k := by
  simp only [bellW, hw, hb]

theorem bellPut_of_none {k : Nat} (v : Word) {s : State} (h : bellReg s.build k = none) : bellPut k v s = s := by
  simp only [bellPut, h]

theorem bellPut_cfgW {k : Nat} {m d : Word} (v : Word) {s : State} (h : bellReg s.build k = some (m, d)) :
    (bellPut k v s).cfgW = tabSet s.cfgW k (v &&& m) d := by
  simp only [bellPut, h]
  split <;> rfl

theorem bellW_put {k : Nat} {m d : Word} (v : Word) {s : State} (h : bellReg s.build k = some (m, d)) :
    bellW (bellPut k v s) k = v &&& m := by
  simp [bellW, bellPut_cfgW v h, bellReset, h]

theorem bellW_put_other {k j : Nat} (v : Word) (s : State) (h : j ≠ k) : bellW (bellPut k v s) j = bellW s j := by
  rcases hb : bellReg s.build k with _ | ⟨m, d⟩
  · rw [bellPut_of_none v hb]
  · simp [bellW, bellPut_cfgW v hb, tabGet_set_away, h]

section
variable {p : Port} {a : Nat} {s t u : State}

theorem RegFrame.refl : RegFrame p a s s := ⟨rfl, fun _ _ _ => rfl, fun _ _ _ _ => rfl⟩

/-- An operation that keeps the words of the registers, after one that changed at most the ones of the frame. -/
theorem RegFrame.trans_quiet (h : RegFrame p a s t) (hq : SameBut (.root :: quietParts) t u)
    (hx : u.root.xtalSel = t.root.xtalSel) : RegFrame p a s u := by
  have ha : u.cfgA = t.cfgA := hq .bellApplied (by decide)
  have hw : u.cfgW = t.cfgW := hq .bellWritten (by decide)
  have hb : u.build = t.build := hq .build (by decide)
  have hn : u.nowR = t.nowR := hq .nowRegs (by decide)
  exact ⟨ha.trans h.applied, fun k h1 h2 => (nowGet_congr hn hb hx k).trans (h.now k h1 h2),
    fun k h1 h2 h3 => (bellW_congr hw hb k).trans (h.bell k h1 h2 h3)⟩

theorem nowGet_of_quiet (h : SameBut quietParts s t) (k : Nat) : nowGet t k = nowGet s k :=
  have hr : t.root = s.root := h .root (by decide)
  nowGet_congr (h .nowRegs (by decide)) (h .build (by decide)) (by rw [hr]) k

theorem bellW_of_quiet (h : SameBut quietParts s t) (k : Nat) : bellW t k = bellW s k :=
  bellW_congr (h .bellWritten (by decide)) (h .build (by decide)) k

/-- The write of a "now" register, after an operation that changes no register's word. -/
theorem regFrame_nowPut_after {k : Nat} (v : Word) (hk : k = a ∨ k = portKey p a) (h : SameBut quietParts s t) : RegFrame p a s (nowPut k v t) where
  applied := (by simp : (nowPut k v t).cfgA = t.cfgA).trans (h .bellApplied (by decide))
  now j h1 h2 := (nowGet_put_other v t (by rcases hk with rfl | rfl <;> assumption)).trans (nowGet_of_quiet h j)
  bell j _ _ _ := (bellW_congr (by simp) (by simp) j).trans (bellW_of_quiet h j)

theorem regFrame_nowPut {k : Nat} (v : Word) (hk : k = a ∨ k = portKey p a) : RegFrame p a s (nowPut k v s) :=
  regFrame_nowPut_after v hk .rfl

theorem regFrame_bellPut {k : Nat} (v : Word)
    (hk : k = a ∨ a = 0x400C ∧ k = keyRcg (selRegion s p) ∨ a = 0x7008 ∧ btabKey (btabSel s p) = some k) :
    RegFrame p a s (bellPut k v s) where
  applied := by simp
  now j _ _ := nowGet_congr (by simp) (by simp) (by simp) j
  bell j h1 h2 h3 := bellW_put_other v s (by
    rcases hk with rfl | ⟨ha, rfl⟩ | ⟨ha, hk⟩
    · exact h1
    · exact h2 ha
    · rintro rfl; exact h3 ha hk)

/-- An operation that changes no register's word, after one that changed at most those of the frame. -/
theorem RegFrame.then_quiet (h : RegFrame p a s t) (hq : SameBut quietParts t u) : RegFrame p a s u :=
  have hr : u.root = t.root := hq .root (by decide)
  h.trans_quiet (hq.mono (List.subset_cons_self ..)) (by rw [hr])

theorem regFrame_of_nowPut {k : Nat} {v : Word} (hk : k = a ∨ k = portKey p a) (h : SameBut quietParts (nowPut k v s) t) : RegFrame p a s t :=
  (regFrame_nowPut v hk).then_quiet h

theorem regFrame_of_quiet (h : SameBut quietParts s t) : RegFrame p a s t := RegFrame.refl.then_quiet h

end

theorem writeRcgSel_after_nowPut (p : Port) (v : Word) (s : State) :
    SameBut quietParts (nowPut (portKey p 0x4000) v s) (writeRcgSel p v s) := by
  simp only [writeRcgSel, ↓same_ite, ↓same_record, ↓same_snapPut, SameBut.rfl, quiet_mem, parts_sub, Nat.reduceLT, ite_self, or_true, true_or, and_self]

theorem writeXingSel_after_nowPut (p : Port) (v : Word) (s : State) :
    SameBut quietParts (nowPut (portKey p 0x5000) v s) (writeXingSel p v s) := by
  simp only [writeXingSel, ↓same_ite, ↓same_record, ↓same_snapPut, SameBut.rfl, quiet_mem, parts_sub, Nat.reduceLT, ite_self, or_true, true_or, and_self]

theorem writeFcstStatReq_after_nowPut (p : Port) (v : Word) (s : State) :
    SameBut quietParts (nowPut (portKey p 0x602C) v s) (writeFcstStatReq p v s) := by
  simp only [writeFcstStatReq, ↓same_ite, ↓same_record, ↓same_snapPut, SameBut.rfl, quiet_mem, parts_sub, Nat.reduceLT, ite_self, or_true, true_or, and_self]

theorem writeZoneStatReq_after_nowPut (p : Port) (v : Word) (s : State) :
    SameBut quietParts (nowPut (portKey p 0x7024) v s) (writeZoneStatReq p v s) := by
  simp only [writeZoneStatReq, ↓same_ite, ↓same_record, ↓same_snapPut, SameBut.rfl, quiet_mem, parts_sub, Nat.reduceLT, ite_self, or_true, true_or, and_self]

theorem writeFoldStatReq_after_nowPut (p : Port) (v : Word) (s : State) :
    SameBut quietParts (nowPut (portKey p 0x3028) v s) (writeFoldStatReq p v s) := by
  simp only [writeFoldStatReq, ↓same_ite, ↓same_record, ↓same_snapPut, SameBut.rfl, quiet_mem, parts_sub, Nat.reduceLT, ite_self, or_true, true_or, and_self]

theorem writeFoldLogSel_after_nowPut (p : Port) (v : Word) (s : State) :
    SameBut quietParts (nowPut (portKey p 0x3050) v s) (writeFoldLogSel p v s) := by
  simp only [writeFoldLogSel, ↓same_ite, ↓same_record, SameBut.rfl, quiet_mem, parts_sub, Nat.reduceLT, ite_self, or_true, true_or, and_self]

theorem writeBellSnap_after_nowPut (p : Port) (v : Word) (s : State) :
    SameBut quietParts (nowPut (portKey p 0x1000) v s) (writeBellSnap p v s) := by
  simp only [writeBellSnap, ↓same_ite, ↓same_record, ↓same_snapPut, SameBut.rfl, quiet_mem, parts_sub, Nat.reduceLT, ite_self, or_true, true_or, and_self]

theorem writeRcgBmeas_after_nowPut (v : Word) (s : State) :
    SameBut quietParts (nowPut 0x404C v s) (writeRcgBmeas v s) := by
  simp only [writeRcgBmeas, ↓same_ite, ↓same_record, ↓same_startBmeas, SameBut.rfl, quiet_mem, parts_sub, Nat.reduceLT, ite_self, or_true, true_or, and_self]

theorem writeXingAudit_after_nowPut (v : Word) (s : State) :
    SameBut quietParts (nowPut 0x5030 v s) (writeXingAudit v s) := by
  simp only [writeXingAudit, ↓same_ite, ↓same_record, SameBut.rfl, quiet_mem, parts_sub, Nat.reduceLT, ite_self, or_true, true_or, and_self]

theorem writeFcstCtrl_after_nowPut (v : Word) (s : State) :
    SameBut quietParts (nowPut 0x6004 v s) (writeFcstCtrl v s) := by
  simp only [writeFcstCtrl]
  split
  · exact .rfl
  · split <;> simp only [↓same_ite, ↓same_record, ↓same_fcstDoOpen, ↓same_fcstDoSeal, ↓same_fcstDoSwap, ↓same_fcstDoStop, ↓same_fcstReject, SameBut.rfl, quiet_mem, parts_sub, Nat.reduceLT, ite_self, or_true, true_or, and_self]

theorem writeGenCtrl_after_nowPut (f : Nat) (v : Word) (s : State) :
    SameBut quietParts (nowPut (flockAddr f 0x2C) v s) (writeGenCtrl f v s) := by
  simp only [writeGenCtrl]
  split
  · exact .rfl
  · split <;> simp only [↓same_ite, ↓same_record, ↓same_setFlock, ↓same_updateSvc, ↓same_genAnswer, ↓same_doRetest, ↓same_doReinstate, ↓same_doRetire, SameBut.rfl, quiet_mem, parts_sub, Nat.reduceLT, ite_self, or_true, true_or, and_self]

theorem writeMeshCtrl_after_nowPut (f : Nat) (v : Word) (s : State) :
    SameBut quietParts (nowPut (flockAddr f 0xC) v s) (writeMeshCtrl f v s) := by
  simp only [writeMeshCtrl, ↓same_ite, ↓same_record, ↓same_pathGone, ↓same_pathBack, SameBut.rfl, quiet_mem, parts_sub, Nat.reduceLT, ite_self, or_true, true_or, and_self]

theorem writeRootAge_after_nowPut (v : Word) (s : State) :
    SameBut quietParts (nowPut 0x2034 v s) (writeRootAge v s) := by
  simp only [writeRootAge, ↓same_ite, ↓same_record, SameBut.rfl, quiet_mem, parts_sub, Nat.reduceLT, ite_self, or_true, true_or, and_self]

theorem writeTodCtrl_after_nowPut (v : Word) (s : State) :
    SameBut quietParts (nowPut 0xB038 v s) (writeTodCtrl v s) := by
  simp only [writeTodCtrl, ↓same_ite, ↓same_record, SameBut.rfl, quiet_mem, parts_sub, Nat.reduceLT, ite_self, or_true, true_or, and_self]

theorem writeTallyClaim_after_nowPut (w : Wr) (v : Word) (s : State) :
    SameBut quietParts (nowPut 0x9000 v s) (writeTallyClaim w v s) := by
  simp only [writeTallyClaim, ↓same_ite, ↓same_record, ↓same_setClaimTag, ↓same_raiseAbout, ↓same_setClaim, ↓same_giveBack, SameBut.rfl, quiet_mem, parts_sub, Nat.reduceLT, ite_self, or_true, true_or, and_self]

theorem writeCalCtrl_after_nowPut (v : Word) (s : State) :
    SameBut quietParts (nowPut 0xA004 v s) (writeCalCtrl v s) := by
  have hdue (f : Nat) (t : State) : SameBut quietParts (nowPut 0xA004 v s) (flockDue f t) ↔ SameBut quietParts (nowPut 0xA004 v s) t :=
    same_flockDue _ (by simp only [quiet_mem, parts_sub, and_self])
  simp only [writeCalCtrl]
  split
  · exact .rfl
  · split <;> simp only [↓same_ite, ↓same_record, ↓same_calAnswer, ↓same_flockDue, ↓same_raise, ↓same_forAll hdue, SameBut.rfl, quiet_mem, parts_sub, Nat.reduceLT, ite_self, or_true, true_or, and_self]

theorem writeShepBankCtrl_after_nowPut (v : Word) (s : State) :
    SameBut quietParts (nowPut 0xC024 v s) (writeShepBankCtrl v s) := by
  simp only [writeShepBankCtrl]
  split
  · exact .rfl
  · split <;> simp only [↓same_ite, ↓same_record, ↓same_swDoOpen, ↓same_swDoSeal, ↓same_swDoSwap, ↓same_swReject, SameBut.rfl, quiet_mem, parts_sub, Nat.reduceLT, ite_self, or_true, true_or, and_self]

theorem writeFoldCtrl_after_nowPut (v : Word) (s : State) :
    SameBut quietParts (nowPut 0x3010 v s) (writeFoldCtrl v s) := by
  simp only [writeFoldCtrl, ↓same_ite, ↓same_record, ↓same_rejectStart, SameBut.rfl, quiet_mem, parts_sub, Nat.reduceLT, ite_self, or_true, true_or, and_self]

theorem writeFoldExclude_after_nowPut (v : Word) (s : State) :
    SameBut quietParts (nowPut 0x3020 v s) (writeFoldExclude v s) := by
  simp only [writeFoldExclude, ↓same_ite, ↓same_record, ↓same_raise, ↓same_exclAnswer, ↓same_leaveContract, ↓same_unclaim, ↓same_readmit, ↓same_setRegion, SameBut.rfl, quiet_mem, parts_sub, Nat.reduceLT, ite_self, or_true, true_or, and_self]

/-! ### The frame of each register's write -/

section
variable {p : Port} {a : Nat} {s : State}

theorem regFrame_ite {c : Prop} [Decidable c] {t u : State} (ht : c → RegFrame p a s t) (hu : ¬ c → RegFrame p a s u) :
    RegFrame p a s (if c then t else u) := by
  split
  · exact ht ‹_›
  · exact hu ‹_›

theorem regFrame_writeCfgCtrl (w : Wr) (v : Word) : RegFrame p a s (writeCfgCtrl w v s) := by
  refine regFrame_of_quiet ?_
  simp only [writeCfgCtrl]
  cases w.port <;> simp only [↓same_ite, ↓same_record, ↓same_deny, SameBut.rfl, quiet_mem, parts_sub, Nat.reduceLT, ite_self, or_true, true_or, and_self]

theorem regFrame_writeXingCfg (v : Word) : RegFrame p 0x501C s (writeXingCfg v s) := by
  unfold writeXingCfg
  refine regFrame_ite (fun _ => regFrame_of_quiet ?_) fun _ => regFrame_ite (fun _ => regFrame_of_quiet ?_) fun _ => regFrame_nowPut v (.inl rfl) <;>
    simp only [↓same_ite, ↓same_record, ↓same_raise, SameBut.rfl, quiet_mem, parts_sub, Nat.reduceLT, ite_self, or_true, true_or, and_self]

theorem regFrame_writeFoldTether (v : Word) : RegFrame p 0x3004 s (writeFoldTether v s) := by
  refine regFrame_ite (fun _ => regFrame_of_quiet ?_) fun _ => regFrame_nowPut v (.inl rfl)
  simp only [↓same_ite, ↓same_record, ↓same_raise, SameBut.rfl, quiet_mem, parts_sub, Nat.reduceLT, ite_self, or_true, true_or, and_self]

theorem regFrame_writeFcstCfg (v : Word) : RegFrame p 0x6000 s (writeFcstCfg v s) := by
  unfold writeFcstCfg
  refine regFrame_ite (fun _ => .refl) fun _ => regFrame_ite (fun _ => regFrame_of_quiet ?_) fun _ => ?_
  · simp only [↓same_ite, ↓same_record, ↓same_fcstReject, SameBut.rfl, quiet_mem, parts_sub, Nat.reduceLT, ite_self, or_true, true_or, and_self]
  · have hopen (u : State) : RegFrame p 0x6000 s (nowPut 0x6000 v { s with fcst := u.fcst }) :=
      regFrame_nowPut_after v (.inl rfl) (by simp only [↓same_ite, ↓same_record, SameBut.rfl, quiet_mem, parts_sub, Nat.reduceLT, ite_self, or_true, true_or, and_self])
    exact regFrame_ite (fun _ => hopen { s with fcst := { s.fcst with single := bitAt v 0, b0 := {}, b1 := {} } }) fun _ =>
      (hopen { s with fcst := { s.fcst with single := bitAt v 0, b0 := {}, b1 := {} } }).then_quiet
        ((same_freeBytes _ _ _ (by simp only [quiet_mem, parts_sub, and_self])).mpr .rfl)

theorem regFrame_writeTallyCmd (q : Port) (u : Nat) (v : Word) (c : Option CalEdges) (hu : u < 4) (ha : a = tallyAddr u 0x30) :
    RegFrame p a s (writeTallyCmd q u v c s) := by
  have hbit : u < 24 := by omega
  simp only [writeTallyCmd]
  refine regFrame_ite (fun _ => regFrame_of_quiet ?_) fun _ => regFrame_of_nowPut (k := tallyAddr u 0x30) (v := v) (.inl ha.symm) ?_
  · simp only [↓same_ite, ↓same_record, ↓same_notOwner, ↓same_tallyAnswer, hbit, SameBut.rfl, quiet_mem, parts_sub, Nat.reduceLT, ite_self, or_true, true_or, and_self]
  · simp only [↓same_ite, ↓same_record, ↓same_tallyAnswer, ↓same_doArm, ↓same_doAbort, hbit, SameBut.rfl, quiet_mem, parts_sub, Nat.reduceLT, ite_self, or_true, true_or, and_self]

theorem regFrame_writeTallyUnit (w : Wr) (u off : Nat) (v : Word) (hu : u < 4) (ha : a = tallyAddr u off) :
    RegFrame p a s (writeTallyUnit w u off v s) := by
  have hbit : u < 24 := by omega
  unfold writeTallyUnit
  refine regFrame_ite (fun h => ?_) fun _ => regFrame_ite (fun _ => ?_) fun _ => ?_
  · subst h; exact regFrame_writeTallyCmd _ _ _ _ hu ha
  · refine regFrame_ite (fun _ => regFrame_nowPut v (.inl ha.symm)) fun _ => regFrame_of_quiet ?_
    simp only [↓same_ite, ↓same_record, ↓same_notOwner, hbit, SameBut.rfl, quiet_mem, parts_sub, Nat.reduceLT, ite_self, or_true, true_or, and_self]
  · refine regFrame_of_quiet ?_
    simp only [↓same_ite, ↓same_record, ↓same_deny, SameBut.rfl, quiet_mem, parts_sub, Nat.reduceLT, ite_self, or_true, true_or, and_self]

theorem regFrame_writeCrkCmd (w : Wr) (v : Word) : RegFrame p 0xE004 s (writeCrkCmd w v s) := by
  simp only [writeCrkCmd]
  refine regFrame_ite (fun _ => .refl) fun _ => regFrame_ite (fun _ => regFrame_of_quiet ?_) fun _ => regFrame_of_nowPut (k := 0xE004) (v := v) (.inl rfl) ?_
  · simp only [↓same_ite, ↓same_record, ↓same_crkAnswer, SameBut.rfl, quiet_mem, parts_sub, Nat.reduceLT, ite_self, or_true, true_or, and_self]
  · refine same_ite.mpr ?_
    split
    · exact .rfl
    · refine same_ite.mpr ?_
      split
      · simp only [↓same_ite, ↓same_record, ↓same_crkAnswer, SameBut.rfl, quiet_mem, parts_sub, Nat.reduceLT, ite_self, or_true, true_or, and_self]
      · split <;> simp only [↓same_ite, ↓same_record, ↓same_crkAnswer, ↓same_crkRegion, ↓same_crkFlock, ↓same_crkFailover, ↓same_crookReset, SameBut.rfl, quiet_mem, parts_sub, Nat.reduceLT, ite_self, or_true, true_or, and_self]

theorem regFrame_performLc (v : Word) : RegFrame p 0xF004 s (performLc v s) := by
  refine regFrame_of_nowPut (k := 0xF004) (v := v) (.inl rfl) ?_
  simp only [performLc, ↓same_ite, ↓same_record, ↓same_lcJudge, ↓same_lcRefuse, SameBut.rfl, quiet_mem, parts_sub, Nat.reduceLT, ite_self, or_true, true_or, and_self]

theorem regFrame_writeLcCtrl (v : Word) : RegFrame p 0xF004 s (writeLcCtrl v s) := by
  refine regFrame_ite (fun _ => regFrame_of_quiet ?_) fun _ => regFrame_performLc v
  simp only [↓same_ite, ↓same_record, SameBut.rfl, quiet_mem, parts_sub, Nat.reduceLT, ite_self, or_true, true_or, and_self]

theorem regFrame_clearEvents (b : Block) (v : Word) : RegFrame p a s (clearEvents b v s) :=
  regFrame_of_quiet ((same_clearEvents (quiet_eventReg b) (fun _ h => quiet_event b h)).mpr .rfl)

theorem regFrame_writeCrkArm (v : Word) : RegFrame p a s (writeCrkArm v s) := by
  refine regFrame_of_quiet ?_
  simp only [writeCrkArm, ↓same_ite, ↓same_record, SameBut.rfl, quiet_mem, parts_sub, Nat.reduceLT, ite_self, or_true, true_or, and_self]

theorem regFrame_writeAssert (v : Word) : RegFrame p a s (writeAssert v s) :=
  regFrame_of_quiet ((same_writeAssert _ _ (by simp only [quiet_mem, parts_sub, Nat.reduceLT, and_self])).mpr .rfl)

theorem regFrame_writeKick (v : Word) : RegFrame p a s (writeKick v s) :=
  regFrame_of_quiet ((same_writeKick _ (by simp only [quiet_mem, parts_sub, and_self])).mpr .rfl)

theorem regFrame_writeMbox (w : Wr) {m : Nat} (off : Nat) (v : Word) (hm : m < 3) : RegFrame p a s (writeMbox w m off v s) :=
  have hbit : m < 24 ∧ 3 + m < 24 := by omega
  regFrame_of_quiet ((same_writeMbox _ _ _ _ _ (by simp only [hbit, quiet_mem, parts_sub, Nat.reduceLT, and_self])).mpr .rfl)

theorem regFrame_mbxWrite (w : Wr) {m : Nat} (v : Word) (hm : m < 3) : RegFrame p a s (mbxWrite w m (writeMbxCtrl m v) s) := by
  have hbit : m < 24 ∧ 3 + m < 24 := by omega
  refine regFrame_of_quiet ((same_mbxWrite _ _ _ _ (by simp only [quiet_mem, parts_sub, Nat.reduceLT, and_self]) fun t => ?_).mpr .rfl)
  simp only [↓same_ite, ↓same_record, ↓same_writeMbxCtrl, hbit, SameBut.rfl, quiet_mem, parts_sub, Nat.reduceLT, ite_self, or_true, true_or, and_self]

theorem regFrame_writeRcgCfg (v : Word) : RegFrame p 0x400C s (writeRcgCfg (selRegion s p) v s) := by
  refine regFrame_ite (fun _ => regFrame_bellPut v (.inr (.inl ⟨rfl, rfl⟩))) fun _ => regFrame_of_quiet ?_
  simp only [↓same_ite, ↓same_record, ↓same_raise, SameBut.rfl, quiet_mem, parts_sub, Nat.reduceLT, ite_self, or_true, true_or, and_self]

theorem regFrame_writeZoneBtab (v : Word) : RegFrame p 0x7008 s (writeZoneBtab (btabSel s p) v s) := by
  rcases hk : btabKey (btabSel s p) with _ | k
  · rw [writeZoneBtab, hk]; exact .refl
  · rw [writeZoneBtab, hk]; exact regFrame_bellPut v (.inr (.inr ⟨rfl, hk⟩))

theorem regFrame_writeFlockWord (f off : Nat) (v : Word) (ha : a = flockAddr f off) : RegFrame p a s (writeFlockWord f off v s) := by
  unfold writeFlockWord
  refine regFrame_ite (fun _ => .refl) fun _ => regFrame_ite (fun h => ?_) fun _ => regFrame_ite (fun h => ?_) fun _ => regFrame_ite (fun h => ?_) fun _ => .refl
  · exact regFrame_of_nowPut (.inl (by rw [ha, h])) (writeMeshCtrl_after_nowPut f v s)
  · exact regFrame_bellPut v (.inl (by rw [ha, h, keySpareCfg]))
  · exact regFrame_of_nowPut (.inl (by rw [ha, h])) (writeGenCtrl_after_nowPut f v s)

theorem regFrame_whereFlock (f : Nat) {eff : State → State} (h : RegFrame p a s (eff s)) : RegFrame p a s (whereFlock f eff s) :=
  regFrame_ite (fun _ => h) fun _ => .refl

/-! The root block's writes keep the crystal's straps, on which its registers' reset values rest. -/

@[simp] theorem setSyn_xtalSel (y : Syn) (v : Synth) (s : State) : (setSyn y v s).root.xtalSel = s.root.xtalSel := by
  cases y <;> rfl

@[simp] theorem startAcquire_xtalSel (y : Syn) (s : State) : (startAcquire y s).root.xtalSel = s.root.xtalSel := by
  simp only [startAcquire]
  split
  · simp
  · split <;> simp

@[simp] theorem enableSyn_xtalSel (y : Syn) (s : State) : (enableSyn y s).root.xtalSel = s.root.xtalSel := by
  simp only [enableSyn]
  split <;> simp

@[simp] theorem prefSwitch_xtalSel (s : State) : (prefSwitch s).root.xtalSel = s.root.xtalSel := by
  simp only [prefSwitch, switchTo]
  split <;> simp

@[simp] theorem sparePower_xtalSel (s : State) : (sparePower s).root.xtalSel = s.root.xtalSel := by
  simp only [sparePower]
  repeat' split
  all_goals simp

@[simp] theorem loadDividers_xtalSel (y : Syn) (s : State) : (loadDividers y s).root.xtalSel = s.root.xtalSel := by
  simp only [loadDividers]
  split <;> simp

@[simp] theorem applyDividers_xtalSel (v : Word) (s : State) : (applyDividers v s).root.xtalSel = s.root.xtalSel := by
  simp only [applyDividers]
  repeat' split
  all_goals simp

theorem regFrame_of_root {k : Nat} {v : Word} {t : State} (hk : k = a ∨ k = portKey p a)
    (h : SameBut (.root :: quietParts) (nowPut k v s) t) (hx : t.root.xtalSel = s.root.xtalSel) : RegFrame p a s t :=
  (regFrame_nowPut v hk).trans_quiet h (by simpa using hx)

theorem regFrame_writeRootCtrl (v : Word) : RegFrame p 0x2000 s (writeRootCtrl v s) := by
  refine regFrame_of_root (k := 0x2000) (v := v) (.inl rfl) ?_ ?_
  · simp only [↓same_ite, ↓same_record, ↓same_prefAct, ↓same_enableSyn, ↓same_setSyn, writeRootCtrl, SameBut.rfl, List.mem_cons, true_or, quiet_mem, parts_sub, Nat.reduceLT, ite_self, or_true, and_self]
  · simp only [writeRootCtrl]
    split <;> simp [prefAct]

theorem regFrame_writeDivApply (v : Word) : RegFrame p 0x200C s (writeDivApply v s) := by
  refine regFrame_of_root (k := 0x200C) (v := v) (.inl rfl) ?_ ?_
  · simp only [↓same_ite, ↓same_record, ↓same_deferApply, ↓same_applyDividers, writeDivApply, SameBut.rfl, List.mem_cons, true_or, quiet_mem, parts_sub, Nat.reduceLT, ite_self, or_true, and_self]
  · simp only [writeDivApply]
    repeat' split
    all_goals simp [deferApply]

theorem regFrame_writeRootBtab (q : Port) (v : Word) : RegFrame p a s (writeRootBtab q v s) := by
  refine RegFrame.refl.trans_quiet ?_ ?_
  · simp only [↓same_ite, ↓same_record, ↓same_setSyn, ↓same_enableSyn, writeRootBtab, SameBut.rfl, List.mem_cons, true_or, quiet_mem, parts_sub, Nat.reduceLT, ite_self, or_true, and_self]
  · simp only [writeRootBtab]
    split <;> simp

theorem regFrame_performMeas (v : Word) : RegFrame p 0x2024 s (performMeas v s) := by
  refine regFrame_of_root (k := 0x2024) (v := v) (.inl rfl) ?_ ?_
  · simp only [↓same_ite, ↓same_record, ↓same_setSyn, performMeas, SameBut.rfl, List.mem_cons, true_or, quiet_mem, parts_sub, Nat.reduceLT, ite_self, or_true, and_self]
  · simp only [performMeas]
    repeat' split
    all_goals simp

theorem regFrame_writeRootMeas (q : Port) (v : Word) : RegFrame p 0x2024 s (writeRootMeas q v s) := by
  refine regFrame_ite (fun _ => RegFrame.refl.trans_quiet ?_ rfl) fun _ => regFrame_performMeas v
  simp only [↓same_ite, ↓same_record, SameBut.rfl, List.mem_cons, true_or, quiet_mem, parts_sub, Nat.reduceLT, ite_self, or_true, and_self]

theorem regFrame_writeBellLoad (v : Word) : RegFrame p 0x1018 s (writeBellLoad v s) := by
  refine regFrame_of_root (k := 0x1018) (v := v) (.inl rfl) ?_ ?_
  · simp only [↓same_ite, ↓same_record, ↓same_loadCounter, writeBellLoad, SameBut.rfl, List.mem_cons, true_or, quiet_mem, parts_sub, Nat.reduceLT, ite_self, or_true, and_self]
  · simp only [writeBellLoad, loadCounter, resumeOpen]
    repeat' split
    all_goals simp
end

section
variable {p : Port} {a : Nat} {s : State}

/-- Every effect of an optional action of a write lies in its frame. -/
def Frames (p : Port) (a : Nat) (s : State) (o : Option (State → State)) : Prop := ∀ f, o = some f → RegFrame p a s (f s)

theorem frames_none : Frames p a s none := fun _ h => nomatch h

theorem frames_some {f : State → State} (h : RegFrame p a s (f s)) : Frames p a s (some f) := fun _ e => by cases e; exact h

theorem frames_ite {c : Prop} [Decidable c] {x y : Option (State → State)} (hx : c → Frames p a s x)
    (hy : ¬ c → Frames p a s y) : Frames p a s (if c then x else y) := by
  split
  · exact hx ‹_›
  · exact hy ‹_›

theorem tallyAddr_of_range {a : Nat} (h : (decide (0x9100 ≤ a) && decide (a < 0x9500)) = true) :
    (a - 0x9100) / 0x100 < 4 ∧ a = tallyAddr ((a - 0x9100) / 0x100) (a % 0x100) := by
  simp only [Bool.and_eq_true, decide_eq_true_eq] at h
  unfold tallyAddr
  omega

theorem flockAddr_of_range {a : Nat} (h : (decide (0x10000 ≤ a) && decide (a < 0x15000)) = true) :
    a = flockAddr ((a - 0x10000) / 64) (a % 64) := by
  simp only [Bool.and_eq_true, decide_eq_true_eq] at h
  unfold flockAddr
  omega

theorem mbxAddr_of_range {a : Nat} (h : (decide (0xD000 ≤ a) && decide (a < 0xD300)) = true) : (a - 0xD000) / 0x100 < 3 := by
  simp only [Bool.and_eq_true, decide_eq_true_eq] at h
  omega

theorem regFrame_evalClaims (w : Wr) (v : Word) : RegFrame p 0x9000 s (evalClaims (writeTallyClaim w v s)) :=
  (regFrame_of_nowPut (.inl rfl) (writeTallyClaim_after_nowPut w v s)).then_quiet
    ((same_evalClaims (h := by simp only [quiet_mem, parts_sub, and_self])).mpr .rfl)

theorem frames_actingWrite (w : Wr) (a : Nat) (v : Word) (s : State) : Frames w.port a s (actingWrite s w a v) := by
  unfold actingWrite
  extract_lets p
  refine frames_ite (fun h => h ▸ frames_some (regFrame_writeCfgCtrl w v)) fun _ => ?_
  refine frames_ite (fun h => h ▸ frames_some (regFrame_of_nowPut (.inr rfl) (writeBellSnap_after_nowPut p v s))) fun _ => ?_
  refine frames_ite (fun h => h ▸ frames_some (regFrame_writeBellLoad v)) fun _ => ?_
  refine frames_ite (fun h => h ▸ frames_some (regFrame_writeRootCtrl v)) fun _ => ?_
  refine frames_ite (fun h => h ▸ frames_some (regFrame_writeDivApply v)) fun _ => ?_
  refine frames_ite (fun h => h ▸ frames_some (regFrame_nowPut v (.inr rfl))) fun _ => ?_
  refine frames_ite (fun h => h ▸ frames_some (regFrame_writeRootBtab p v)) fun _ => ?_
  refine frames_ite (fun h => h ▸ frames_some (regFrame_writeRootMeas p v)) fun _ => ?_
  refine frames_ite (fun h => h ▸ frames_some (regFrame_of_nowPut (.inl rfl) (writeRootAge_after_nowPut v s))) fun _ => ?_
  refine frames_ite (fun h => h ▸ frames_some (regFrame_writeFoldTether v)) fun _ => ?_
  refine frames_ite (fun h => h ▸ frames_some (regFrame_of_nowPut (.inl rfl) (writeFoldCtrl_after_nowPut v s))) fun _ => ?_
  refine frames_ite (fun h => h ▸ frames_some (regFrame_of_nowPut (.inl rfl) (writeFoldExclude_after_nowPut v s))) fun _ => ?_
  refine frames_ite (fun h => h ▸ frames_some (regFrame_of_nowPut (.inr rfl) (writeFoldStatReq_after_nowPut p v s))) fun _ => ?_
  refine frames_ite (fun h => h ▸ frames_some (regFrame_of_nowPut (.inr rfl) (writeFoldLogSel_after_nowPut p v s))) fun _ => ?_
  refine frames_ite (fun h => h ▸ frames_some (regFrame_of_nowPut (.inr rfl) (writeRcgSel_after_nowPut p v s))) fun _ => ?_
  refine frames_ite (fun h => h ▸ frames_some (regFrame_writeRcgCfg v)) fun _ => ?_
  refine frames_ite (fun h => h ▸ frames_some (regFrame_of_nowPut (.inl rfl) (writeRcgBmeas_after_nowPut v s))) fun _ => ?_
  refine frames_ite (fun h => h ▸ frames_some (regFrame_of_nowPut (.inr rfl) (writeXingSel_after_nowPut p v s))) fun _ => ?_
  refine frames_ite (fun h => h ▸ frames_some (regFrame_writeXingCfg v)) fun _ => ?_
  refine frames_ite (fun h => h ▸ frames_some (regFrame_of_nowPut (.inl rfl) (writeXingAudit_after_nowPut v s))) fun _ => ?_
  refine frames_ite (fun h => h ▸ frames_some (regFrame_writeFcstCfg v)) fun _ => ?_
  refine frames_ite (fun h => h ▸ frames_some (regFrame_of_nowPut (.inl rfl) (writeFcstCtrl_after_nowPut v s))) fun _ => ?_
  refine frames_ite (fun h => h ▸ frames_some (regFrame_of_nowPut (.inr rfl) (writeFcstStatReq_after_nowPut p v s))) fun _ => ?_
  refine frames_ite (fun h => h ▸ frames_some (regFrame_nowPut v (.inr rfl))) fun _ => ?_
  refine frames_ite (fun h => h ▸ frames_some (regFrame_writeZoneBtab v)) fun _ => ?_
  refine frames_ite (fun h => h ▸ frames_some (regFrame_of_nowPut (.inr rfl) (writeZoneStatReq_after_nowPut p v s))) fun _ => ?_
  refine frames_ite (fun h => h ▸ frames_some (regFrame_evalClaims w v)) fun _ => ?_
  refine frames_ite (fun h => frames_some (regFrame_writeTallyUnit w _ _ v (tallyAddr_of_range h).1 (tallyAddr_of_range h).2)) fun _ => ?_
  refine frames_ite (fun h => h ▸ frames_some (regFrame_of_nowPut (.inl rfl) (writeCalCtrl_after_nowPut v s))) fun _ => ?_
  refine frames_ite (fun h => h ▸ frames_some (regFrame_of_nowPut (.inl rfl) (writeTodCtrl_after_nowPut v s))) fun _ => ?_
  refine frames_ite (fun h => frames_some (by split; exacts [regFrame_writeAssert v, .refl])) fun _ => ?_
  refine frames_ite (fun h => frames_some (by split; exacts [regFrame_writeKick v, .refl])) fun _ => ?_
  refine frames_ite (fun h => h ▸ frames_some (regFrame_of_nowPut (.inl rfl) (writeShepBankCtrl_after_nowPut v s))) fun _ => ?_
  refine frames_ite (fun h => frames_some (regFrame_writeMbox w _ v (mbxAddr_of_range h))) fun _ => ?_
  refine frames_ite (fun h => frames_some (regFrame_writeCrkArm v)) fun _ => ?_
  refine frames_ite (fun h => h ▸ frames_some (regFrame_writeCrkCmd w v)) fun _ => ?_
  refine frames_ite (fun h => h ▸ frames_some (regFrame_writeLcCtrl v)) fun _ => ?_
  refine frames_ite (fun h => frames_some (regFrame_writeFlockWord _ _ v (flockAddr_of_range h))) fun _ => ?_
  exact frames_none

theorem regFrame_writeEffect (w : Wr) (a : Nat) (v : Word) (s : State) : RegFrame w.port a s (writeEffect w a v s) := by
  unfold writeEffect
  split
  · next f hf => exact frames_actingWrite w a v s f hf
  · split
    · exact regFrame_clearEvents _ v
    · exact regFrame_ite (fun _ => .refl) fun _ =>
        regFrame_ite (fun _ => regFrame_bellPut v (.inl rfl)) fun _ => regFrame_nowPut v (.inl rfl)
end

/-! ### Every command that writes a register -/

/-- The state in which a register write is performed: the control port's last answer forgotten. -/
def answered (s : State) : State := { s with out := { s.out with resp := .okay } }

theorem nowGet_answered (s : State) (k : Nat) : nowGet (answered s) k = nowGet s k := rfl

theorem unperformed_answered (s : State) (k : Nat) : unperformed (answered s) k = unperformed s k := rfl

theorem nowSeen_answered (s : State) (k : Nat) : nowSeen (answered s) k = nowSeen s k := by
  unfold nowSeen
  simp only [nowGet_answered, lastWritten, unperformed_answered]
  rfl

theorem selRegion_answered (s : State) (p : Port) : selRegion (answered s) p = selRegion s p := by
  rw [selRegion, selRegion, nowSeen_answered]

theorem btabSel_answered (s : State) (p : Port) : btabSel (answered s) p = btabSel s p := by
  rw [btabSel, btabSel, nowSeen_answered]

theorem regFrame_unlessClearWaits {p : Port} {a : Nat} {s : State} (w : Wr) (b : Nat) (v : Word) (ext : List Nat) {eff : State → State}
    (h : RegFrame p a s (eff s)) : RegFrame p a s (unlessClearWaits w b v ext eff s) :=
  regFrame_ite (fun _ => regFrame_of_quiet ((same_await (by simp only [quiet_mem]) (.inr (by simp only [quiet_mem]))).mpr .rfl)) fun _ => h

/-- A command that writes a register performs one register write, whose effect lies in the register's frame; a mailbox's
control word needs the mailbox (R440). -/
theorem exec_regTarget {c : Instr} {w : Wr} {a : Nat} {s : State} (h : regTarget c = some (w, a)) (hm : ∀ v m, c = .mbxGo v m ∨ c = .mbxWithdraw v m → isMbox m = true) :
    ∃ v ext eff, exec c s = .next (regWrite w a v ext eff s) ∧ RegFrame w.port a (answered s) (eff (answered s)) := by
  cases c with
  | prefWrite w v => cases h; exact ⟨_, _, _, rfl, regFrame_writeRootCtrl v⟩
  | spareEnWrite w v => cases h; exact ⟨_, _, _, rfl, regFrame_writeRootCtrl v⟩
  | bypassForce w v => cases h; exact ⟨_, _, _, rfl, regFrame_writeRootCtrl v⟩
  | divApply w v => cases h; exact ⟨_, _, _, rfl, regFrame_writeDivApply v⟩
  | rootBtabWrite w v => cases h; exact ⟨_, _, _, rfl, regFrame_writeRootBtab w.port v⟩
  | rootMeas w v => cases h; exact ⟨_, _, _, rfl, regFrame_writeRootMeas w.port v⟩
  | rootAgeWrite w v => cases h; exact ⟨_, _, _, rfl, regFrame_of_nowPut (.inl rfl) (writeRootAge_after_nowPut _ _)⟩
  | bellSnapReq w v => cases h; exact ⟨_, _, _, rfl, regFrame_of_nowPut (.inr rfl) (writeBellSnap_after_nowPut _ _ _)⟩
  | bellLoad w v => cases h; exact ⟨_, _, _, rfl, regFrame_writeBellLoad v⟩
  | meshDisable w flock v => cases h; exact ⟨_, _, _, rfl, regFrame_whereFlock _ (regFrame_of_nowPut (.inl rfl) (writeMeshCtrl_after_nowPut _ _ _))⟩
  | foldStart w v => cases h; exact ⟨_, _, _, rfl, regFrame_of_nowPut (.inl rfl) (writeFoldCtrl_after_nowPut _ _)⟩
  | excludeSet w region tag => cases h; exact ⟨_, _, _, rfl, regFrame_of_nowPut (.inl rfl) (writeFoldExclude_after_nowPut _ _)⟩
  | excludeClear w region tag => cases h; exact ⟨_, _, _, rfl, regFrame_of_nowPut (.inl rfl) (writeFoldExclude_after_nowPut _ _)⟩
  | foldTetherWrite w v => cases h; exact ⟨_, _, _, rfl, regFrame_writeFoldTether v⟩
  | foldStatReq w v => cases h; exact ⟨_, _, _, rfl, regFrame_of_nowPut (.inr rfl) (writeFoldStatReq_after_nowPut _ _ _)⟩
  | foldLogSel w v => cases h; exact ⟨_, _, _, rfl, regFrame_of_nowPut (.inr rfl) (writeFoldLogSel_after_nowPut _ _ _)⟩
  | rcgSel w v => cases h; exact ⟨_, _, _, rfl, regFrame_of_nowPut (.inr rfl) (writeRcgSel_after_nowPut _ _ _)⟩
  | rcgCfgWrite w v => cases h; exact ⟨_, _, _, rfl, selRegion_answered s w.port ▸ regFrame_writeRcgCfg v⟩
  | rcgBmeas w v => cases h; exact ⟨_, _, _, rfl, regFrame_of_nowPut (.inl rfl) (writeRcgBmeas_after_nowPut _ _)⟩
  | xingSel w v => cases h; exact ⟨_, _, _, rfl, regFrame_of_nowPut (.inr rfl) (writeXingSel_after_nowPut _ _ _)⟩
  | xingCfgWrite w v => cases h; exact ⟨_, _, _, rfl, regFrame_writeXingCfg v⟩
  | auditEnWrite w v => cases h; exact ⟨_, _, _, rfl, regFrame_of_nowPut (.inl rfl) (writeXingAudit_after_nowPut _ _)⟩
  | auditClear w v => cases h; exact ⟨_, _, _, rfl, regFrame_of_nowPut (.inl rfl) (writeXingAudit_after_nowPut _ _)⟩
  | fcstModeWrite w v => cases h; exact ⟨_, _, _, rfl, regFrame_writeFcstCfg v⟩
  | fcstOpen w bank tag => cases h; exact ⟨_, _, _, rfl, regFrame_of_nowPut (.inl rfl) (writeFcstCtrl_after_nowPut _ _)⟩
  | fcstSeal w bank tag => cases h; exact ⟨_, _, _, rfl, regFrame_of_nowPut (.inl rfl) (writeFcstCtrl_after_nowPut _ _)⟩
  | fcstSwap w bank tag => cases h; exact ⟨_, _, _, rfl, regFrame_of_nowPut (.inl rfl) (writeFcstCtrl_after_nowPut _ _)⟩
  | fcstStop w tag => cases h; exact ⟨_, _, _, rfl, regFrame_of_nowPut (.inl rfl) (writeFcstCtrl_after_nowPut _ _)⟩
  | fcstCmdNone w tag => cases h; exact ⟨_, _, _, rfl, regFrame_of_nowPut (.inl rfl) (writeFcstCtrl_after_nowPut _ _)⟩
  | fcstCmdInvalid w op tag => cases h; exact ⟨_, _, _, rfl, regFrame_of_nowPut (.inl rfl) (writeFcstCtrl_after_nowPut _ _)⟩
  | fcstStatReq w v => cases h; exact ⟨_, _, _, rfl, regFrame_of_nowPut (.inr rfl) (writeFcstStatReq_after_nowPut _ _ _)⟩
  | zoneStatReq w v => cases h; exact ⟨_, _, _, rfl, regFrame_of_nowPut (.inr rfl) (writeZoneStatReq_after_nowPut _ _ _)⟩
  | clearParity w flock gen tag => cases h; exact ⟨_, _, _, rfl, regFrame_whereFlock _ (regFrame_of_nowPut (.inl rfl) (writeGenCtrl_after_nowPut _ _ _))⟩
  | retest w flock gen tag => cases h; exact ⟨_, _, _, rfl, regFrame_whereFlock _ (regFrame_of_nowPut (.inl rfl) (writeGenCtrl_after_nowPut _ _ _))⟩
  | reinstate w flock gen tag => cases h; exact ⟨_, _, _, rfl, regFrame_whereFlock _ (regFrame_of_nowPut (.inl rfl) (writeGenCtrl_after_nowPut _ _ _))⟩
  | retire w flock gen tag => cases h; exact ⟨_, _, _, rfl, regFrame_whereFlock _ (regFrame_of_nowPut (.inl rfl) (writeGenCtrl_after_nowPut _ _ _))⟩
  | crkArm w v => cases h; exact ⟨_, _, _, rfl, regFrame_writeCrkArm v⟩
  | forceHoldRegion w target tag => cases h; exact ⟨_, _, _, rfl, regFrame_writeCrkCmd w _⟩
  | releaseRegion w target tag => cases h; exact ⟨_, _, _, rfl, regFrame_writeCrkCmd w _⟩
  | forceHoldFlock w target tag => cases h; exact ⟨_, _, _, rfl, regFrame_writeCrkCmd w _⟩
  | releaseFlock w target tag => cases h; exact ⟨_, _, _, rfl, regFrame_writeCrkCmd w _⟩
  | forceFailover w flock slot gen tag => cases h; exact ⟨_, _, _, rfl, regFrame_writeCrkCmd w _⟩
  | crkCoreReset w tag => cases h; exact ⟨_, _, _, rfl, regFrame_writeCrkCmd w _⟩
  | crkInvalidOp w op tag => cases h; exact ⟨_, _, _, rfl, regFrame_writeCrkCmd w _⟩
  | tallyClaim w unit tag => cases h; exact ⟨_, _, _, rfl, regFrame_evalClaims w _⟩
  | tallyRelease w unit tag => cases h; exact ⟨_, _, _, rfl, regFrame_evalClaims w _⟩
  | tallyArm w unit tag start ends => cases h; exact ⟨_, _, _, rfl, regFrame_writeTallyCmd _ _ _ _ unit.isLt rfl⟩
  | tallyAbort w unit tag => cases h; exact ⟨_, _, _, rfl, regFrame_writeTallyCmd _ _ _ _ unit.isLt rfl⟩
  | calFlockDue w flock tag => cases h; exact ⟨_, _, _, rfl, regFrame_of_nowPut (.inl rfl) (writeCalCtrl_after_nowPut _ _)⟩
  | calAllDue w tag => cases h; exact ⟨_, _, _, rfl, regFrame_of_nowPut (.inl rfl) (writeCalCtrl_after_nowPut _ _)⟩
  | restore w tag => cases h; exact ⟨_, _, _, rfl, regFrame_of_nowPut (.inl rfl) (writeCalCtrl_after_nowPut _ _)⟩
  | cancelRestore w tag => cases h; exact ⟨_, _, _, rfl, regFrame_of_nowPut (.inl rfl) (writeCalCtrl_after_nowPut _ _)⟩
  | calInvalidOp w op tag => cases h; exact ⟨_, _, _, rfl, regFrame_of_nowPut (.inl rfl) (writeCalCtrl_after_nowPut _ _)⟩
  | todArm w v => cases h; exact ⟨_, _, _, rfl, regFrame_of_nowPut (.inl rfl) (writeTodCtrl_after_nowPut _ _)⟩
  | fwOpen w bank tag => cases h; exact ⟨_, _, _, rfl, regFrame_of_nowPut (.inl rfl) (writeShepBankCtrl_after_nowPut _ _)⟩
  | fwSeal w bank tag => cases h; exact ⟨_, _, _, rfl, regFrame_of_nowPut (.inl rfl) (writeShepBankCtrl_after_nowPut _ _)⟩
  | fwSwap w bank tag => cases h; exact ⟨_, _, _, rfl, regFrame_of_nowPut (.inl rfl) (writeShepBankCtrl_after_nowPut _ _)⟩
  | fwBankInvalidOp w op tag => cases h; exact ⟨_, _, _, rfl, regFrame_of_nowPut (.inl rfl) (writeShepBankCtrl_after_nowPut _ _)⟩
  | mbxGo w m =>
    cases h
    have hm : isMbox m = true := hm w m (.inl rfl)
    exact ⟨_, _, _, if_pos hm, regFrame_mbxWrite w _ (of_decide_eq_true hm)⟩
  | mbxWithdraw w m =>
    cases h
    have hm : isMbox m = true := hm w m (.inr rfl)
    exact ⟨_, _, _, if_pos hm, regFrame_mbxWrite w _ (of_decide_eq_true hm)⟩
  | eventClear w blk v => cases h; exact ⟨_, _, _, rfl, regFrame_unlessClearWaits _ _ _ _ (regFrame_clearEvents _ v)⟩
  | cfgCtrlWrite w v => cases h; exact ⟨_, _, _, rfl, regFrame_writeCfgCtrl w v⟩
  | regWrite w addr v => cases h; exact ⟨_, _, _, rfl, regFrame_unlessClearWaits _ _ _ _ (regFrame_writeEffect ..)⟩
  | lcTransition w target tag => cases h; exact ⟨_, _, _, rfl, regFrame_writeLcCtrl _⟩
  | lcRevoke w slot tag => cases h; exact ⟨_, _, _, rfl, regFrame_writeLcCtrl _⟩
  | lcOpRefuse w tag => cases h; exact ⟨_, _, _, rfl, regFrame_writeLcCtrl _⟩
  | _ => exact nomatch h

end Sys2Proof.Machine
end

