-- ==== Sys2Proof/Proofs/RegisterWrites.lean ====
section
/-!
PROOF. The checks that every register write meets, and what follows from them (O5, O51, O53).
-/
namespace Sys2Proof.Machine
open Sys2Proof

/-! ### The outcomes of a register write -/

theorem oneRegister_answered (s : State) (w : Wr) (a : Nat) : oneRegister (answered s) w a = oneRegister s w a := by
  unfold oneRegister
  simp only [selRegion_answered]

section
variable {w : Wr} {a : Nat} {v : Word} {ext : List Nat} {eff : State → State} {s : State}

/-- A register write's checks, in their order, each with its outcome (log 5). -/
theorem regWrite_eq (w : Wr) (a : Nat) (v : Word) (ext : List Nat) (eff : State → State) (s : State) : regWrite w a v ext eff s =
    if !reachable s a then answered s
    else if portStalls s w.port then await ⟨w, a, v, ext⟩ (answered s)
    else if w.strb ≠ 15 then raise .cfg 5 (answered s)
    else if writeDenied s w.port a then deny w.port (answered s)
    else if loses w && ranked a && oneRegister s w a then
      (match w.port with
       | .bm => raise .cfg 6 (answered s)
       | .shep => await ⟨⟨.shep, 15, none⟩, a, v, ext⟩ (answered s)
       | .host => answered s)
    else if takenNow s w a then eff (answered s)
    else await ⟨w, a, v, ext⟩ (answered s) := by
  rw [← oneRegister_answered]
  rfl

theorem regWrite_unreachable (h : reachable s a = false) : regWrite w a v ext eff s = answered s := by
  simp [regWrite_eq, h]

theorem regWrite_stalled (h : reachable s a = true) (hp : portStalls s w.port = true) :
    regWrite w a v ext eff s = await ⟨w, a, v, ext⟩ (answered s) := by
  simp [regWrite_eq, h, hp]

theorem regWrite_partial (h : reachable s a = true) (hp : portStalls s w.port = false) (hs : w.strb ≠ 15) :
    regWrite w a v ext eff s = raise .cfg 5 (answered s) := by
  simp only [regWrite_eq, h, hp, hs, Bool.not_true, Bool.false_eq_true, if_false, ne_eq, not_false_eq_true, if_true]

theorem regWrite_denied (h : reachable s a = true) (hp : portStalls s w.port = false) (hs : w.strb = 15)
    (hd : writeDenied s w.port a = true) : regWrite w a v ext eff s = deny w.port (answered s) := by
  simp [regWrite_eq, h, hp, hs, hd]

theorem regWrite_loses (h : reachable s a = true) (hp : portStalls s w.port = false) (hs : w.strb = 15)
    (hd : writeDenied s w.port a = false) (hl : loses w = true) (hr : ranked a = true) (ho : oneRegister s w a = true) :
    (w.port = .bm → regWrite w a v ext eff s = raise .cfg 6 (answered s)) ∧
    (w.port = .shep → regWrite w a v ext eff s = await ⟨⟨.shep, 15, none⟩, a, v, ext⟩ (answered s)) := by
  constructor <;> intro hport <;> simp [regWrite_eq, h, hs, hl, hr, ho, hport ▸ hp, hport ▸ hd, hport]

/-- A write that no higher-ranked port's outranks. -/
theorem not_outranked (hl : loses w = false ∨ ranked a = false ∨ oneRegister s w a = false) :
    (loses w && ranked a && oneRegister s w a) = false := by
  rcases hl with h | h | h <;> simp [h]

theorem regWrite_waits (h : reachable s a = true) (hp : portStalls s w.port = false) (hs : w.strb = 15)
    (hd : writeDenied s w.port a = false) (hl : (loses w && ranked a && oneRegister s w a) = false) (ht : takenNow s w a = false) :
    regWrite w a v ext eff s = await ⟨w, a, v, ext⟩ (answered s) := by
  simp only [regWrite_eq, h, hp, hs, hd, hl, ht, Bool.not_true, Bool.false_eq_true, if_false, ne_eq, not_true]

theorem regWrite_performed (h : Performs w a s) : regWrite w a v ext eff s = eff (answered s) := by
  obtain ⟨hr, hs, hd, hl, ht⟩ := h
  have hp : portStalls s w.port = false := by
    simp only [takenNow, Bool.and_eq_true, Bool.not_eq_true'] at ht
    exact ht.1
  simp only [regWrite_eq, hr, hp, hs, hd, not_outranked hl, ht, Bool.not_true, Bool.false_eq_true, if_false, ne_eq, not_true, if_true]

theorem same_answered {l : List Part} (s : State) (ha : .answers ∈ l) : SameBut l s (answered s) := by
  simp only [answered, ↓same_record, SameBut.rfl, ha, or_true, true_or, and_self]

/-- A register write performs its effect, or leaves everything but the answer and the records of a write not performed, and VALID
of the port's snapshots where it waits at a request register. -/
theorem regWrite_records_or_effect {l : List Part} (hl : writeParts ⊆ l) (hs : snapSet a = none ∨ .snaps ∈ l) :
    SameBut l s (regWrite w a v ext eff s) ∨ regWrite w a v ext eff s = eff (answered s) := by
  have ha : .answers ∈ l := hl (by decide)
  have hans := same_answered s ha
  have hwait (e : WaitWr) (he : e.addr = a) : SameBut l s (await e (answered s)) := (same_await ha (he ▸ hs)).mpr hans
  have hraise (k : Nat) (hk : .event .cfg k ∈ writeParts) : SameBut l s (raise .cfg k (answered s)) :=
    (same_raise (hl (by decide)) (hl hk)).mpr hans
  rw [regWrite_eq]
  repeat' split
  · exact .inl hans
  · exact .inl (hwait _ rfl)
  · exact .inl (hraise _ (by decide))
  · exact .inl ((same_deny (List.Subset.trans (by decide) hl)).mpr hans)
  · exact .inl (hraise _ (by decide))
  · exact .inl (hwait _ rfl)
  · exact .inl hans
  · exact .inr rfl
  · exact .inl (hwait _ rfl)

end

theorem waiting_snapAsked (e : WaitWr) (s : State) : (snapAsked e s).out = s.out := by
  simp only [snapAsked]
  split
  · split <;> simp
  · rfl

theorem waiting_await (e : WaitWr) (s : State) : (await e s).out.waiting = s.out.waiting ++ [e] := by
  rw [await, waiting_snapAsked]

/-- A denied write leaves the record of it alone. -/
theorem deny_answered (p : Port) (s : State) :
    Flagged (deny p (answered s)) .cfg 8 ∧ (deny p (answered s)).cfg = { s.cfg with denyPort := BitVec.ofNat 2 (portIx p + 1) } ∧
    (deny p (answered s)).out.resp = (if p = .host then .slverr else .okay) ∧
    SameBut ([.answers, .check] ++ evs .cfg [8]) s (deny p (answered s)) := by
  refine ⟨flagged_raise _ .cfg (by decide), rfl, rfl, (same_deny (List.Subset.refl _)).mpr (same_answered s (by decide))⟩

theorem isMbox_of_wellFormed {c : Instr} (hc : c.wellFormed = true) (v : Wr) (m : BitVec 2) (h : c = .mbxGo v m ∨ c = .mbxWithdraw v m) :
    isMbox m = true := by
  rcases h with rfl | rfl <;>
    · simp only [Instr.wellFormed, Bool.and_eq_true] at hc
      exact hc.2

theorem isMbox_of_next {c : Instr} {s t : State} (hc : exec c s = .next t) (v : Wr) (m : BitVec 2) (h : c = .mbxGo v m ∨ c = .mbxWithdraw v m) :
    isMbox m = true := by
  by_contra hm
  rcases h with rfl | rfl
  · cases (if_neg hm : execMbxGo v m s = .fault .noSuchUnit).symm.trans hc
  · cases (if_neg hm : execMbxWithdraw v m s = .fault .noSuchUnit).symm.trans hc

/-- Settles O5: a command that writes a register performs one register write, each of whose checks has its own outcome. -/
theorem writesNotPerformed : Obligations.WritesNotPerformed := by
  unfold Obligations.WritesNotPerformed
  intro c w a s ht hc
  obtain ⟨v, ext, eff, he, -⟩ := exec_regTarget (s := s) ht (isMbox_of_wellFormed hc)
  refine ⟨fun h => ?_, fun h hp => ⟨v, ext, ?_⟩, fun h hp hs => ?_, fun h hp hs hd => ?_, fun h hp hs hd hl hr ho => ?_,
    fun h hp hs hd hl ht => ⟨v, ext, ?_⟩, fun e u => ⟨waiting_await e u, (same_await (by decide) (.inr (by decide))).mpr .rfl⟩⟩
  · rw [he, regWrite_unreachable h]; rfl
  · rw [he, regWrite_stalled h hp]; rfl
  · rw [he, regWrite_partial h hp hs]; rfl
  · exact ⟨_, he.trans (by rw [regWrite_denied h hp hs hd]), deny_answered w.port s⟩
  · obtain ⟨hbm, hshep⟩ := regWrite_loses (v := v) (ext := ext) (eff := eff) h hp hs hd hl hr ho
    exact ⟨fun hport => by rw [he, hbm hport]; rfl, fun hport => ⟨v, ext, by rw [he, hshep hport]; rfl⟩⟩
  · rw [he, regWrite_waits h hp hs hd (not_outranked hl) ht]; rfl

theorem quiet_records : writeParts ⊆ quietParts := by
  simp only [writeParts, quiet_mem, parts_sub, Nat.reduceLT, and_self]

/-- A command that writes a register keeps to that register's frame. -/
theorem regFrame_exec {c : Instr} {w : Wr} {a : Nat} {s t : State} (h : regTarget c = some (w, a)) (ht : exec c s = .next t) :
    RegFrame w.port a s t := by
  obtain ⟨v, ext, eff, he, heff⟩ := exec_regTarget (s := s) h (isMbox_of_next ht)
  cases he.symm.trans ht
  rcases regWrite_records_or_effect (w := w) (v := v) (ext := ext) (eff := eff) (s := s) quiet_records (.inr quiet_mem.2.1) with hq | hq
  · exact regFrame_of_quiet hq
  · rw [hq]
    refine ⟨heff.applied, fun k h1 h2 => heff.now k h1 h2, fun k h1 h2 h3 => heff.bell k h1 ?_ ?_⟩
    · rwa [selRegion_answered]
    · rwa [btabSel_answered]

/-- Settles O51: each command that writes a register performs one write, whose effect lies in the frame of its register. -/
theorem registerWriteFrame : Obligations.RegisterWriteFrame := by
  unfold Obligations.RegisterWriteFrame
  intro c w a s t h ht
  obtain ⟨happlied, hnow, hbell⟩ := regFrame_exec h ht
  exact ⟨happlied, hnow, hbell⟩

/-- Settles O53: a command that applies nothing changes no applied value, by its kind (a register write, or one that leaves what is
applied out of what it may change); a bell applies only what was pending before the writes of its tick. -/
theorem appliedOnlyAtBells : Obligations.AppliedOnlyAtBells := by
  unfold Obligations.AppliedOnlyAtBells
  refine ⟨fun c s t hc ht => ?_, fun s t k ht hk hf => bellA_bell_other ht hk hf⟩
  rcases hr : regTarget c with _ | ⟨w, a⟩
  · exact lands_unapplied s hc hr t ht .bellApplied bellApplied_not_unapplied
  · exact (regFrame_exec hr ht).applied

end Sys2Proof.Machine
end

