-- ==== Sys2Proof/Proofs/StatusWords.lean ====
section
/-!
PROOF. The read-only words that report units (O56): words of equal fields, at addresses that hold no register.
-/
namespace Sys2Proof.Machine
open Sys2Proof

/-! ### Words of equal fields -/

/-- The number whose base 2^w digits are v 0 to v (n - 1). -/
def digitSum (w n : Nat) (v : Nat → Nat) : Nat := (List.range n).foldl (fun a k => a + v k % 2 ^ w * 2 ^ (w * k)) 0

theorem digitSum_succ (w n : Nat) (v : Nat → Nat) : digitSum w (n + 1) v = digitSum w n v + v n % 2 ^ w * 2 ^ (w * n) := by
  simp [digitSum, List.range_succ]

theorem digitSum_lt (w n : Nat) (v : Nat → Nat) : digitSum w n v < 2 ^ (w * n) := by
  induction n with
  | zero => simp [digitSum]
  | succ n ih =>
    have hd : v n % 2 ^ w < 2 ^ w := Nat.mod_lt _ (by positivity)
    calc digitSum w (n + 1) v = digitSum w n v + v n % 2 ^ w * 2 ^ (w * n) := digitSum_succ ..
      _ < 2 ^ (w * n) + v n % 2 ^ w * 2 ^ (w * n) := by omega
      _ = (v n % 2 ^ w + 1) * 2 ^ (w * n) := by ring
      _ ≤ 2 ^ w * 2 ^ (w * n) := Nat.mul_le_mul_right _ hd
      _ = 2 ^ (w * (n + 1)) := by rw [← pow_add]; congr 1; ring

theorem digitSum_digit (w : Nat) {n k : Nat} (v : Nat → Nat) (hk : k < n) : digitSum w n v / 2 ^ (w * k) % 2 ^ w = v k % 2 ^ w := by
  induction n with
  | zero => omega
  | succ n ih =>
    rw [digitSum_succ]
    rcases Nat.lt_succ_iff_lt_or_eq.mp hk with h | rfl
    · obtain ⟨j, rfl⟩ := Nat.exists_eq_add_of_lt h
      have hp : v (k + j + 1) % 2 ^ w * 2 ^ (w * (k + j + 1)) = (v (k + j + 1) % 2 ^ w * 2 ^ (w * j) * 2 ^ w) * 2 ^ (w * k) := by
        rw [show w * (k + j + 1) = w * j + w + w * k by ring, pow_add, pow_add]; ring
      rw [hp, Nat.add_mul_div_right _ _ (by positivity), Nat.add_mul_mod_self_right]
      exact ih (by omega)
    · rw [Nat.add_mul_div_right _ _ (by positivity), Nat.div_eq_of_lt (digitSum_lt ..), Nat.zero_add, Nat.mod_mod]

/-- A word of n fields of w bits each reads each field back. -/
theorem fld_packWord_uniform {w n k : Nat} (v : Nat → Nat) (hk : k < n) (hw : w * n ≤ 32) :
    fld (packWord ((List.range n).map (fun j => (w * j, w, v j)))) (w * k) w = v k % 2 ^ w := by
  have hsum : packWord ((List.range n).map (fun j => (w * j, w, v j))) = BitVec.ofNat 32 (digitSum w n v) := by
    simp only [packWord, digitSum, List.foldl_map]
  have hlt : digitSum w n v < 2 ^ 32 := (digitSum_lt w n v).trans_le (Nat.pow_le_pow_right (by decide) hw)
  rw [hsum, fld_ofNat _ _ _ hlt, digitSum_digit w v hk]

theorem bitAt_packWord_uniform {n k : Nat} (v : Nat → Bool) (hk : k < n) (hw : n ≤ 32) :
    bitAt (packWord ((List.range n).map (fun j => (j, 1, b2n (v j))))) k = v k := by
  have h := fld_packWord_uniform (w := 1) (fun j => b2n (v j)) hk (by omega)
  simp only [Nat.one_mul] at h
  rw [bitAt, Nat.testBit_eq_decide_div_mod_eq]
  simp only [fld] at h
  rw [pow_one] at h
  rw [h]
  cases v k <;> rfl

/-! ### The status words -/

theorem actingWrite_flock {a : Nat} (s : State) (w : Wr) (v : Word) (ha : 0x10000 ≤ a) (hx : a < 0x15000) :
    actingWrite s w a v = some (writeFlockWord ((a - 0x10000) / 64) (a % 64) v) := by
  unfold actingWrite
  iterate 37 rw [if_neg (by grind)]
  rw [if_pos (by grind)]

theorem actingWrite_tallyUnit {a : Nat} (s : State) (w : Wr) (v : Word) (ha : 0x9100 ≤ a) (hx : a < 0x9500) :
    actingWrite s w a v = some (writeTallyUnit w ((a - 0x9100) / 0x100) (a % 0x100) v) := by
  unfold actingWrite
  iterate 27 rw [if_neg (by grind)]
  rw [if_pos (by grind)]

/-- The words that StatusWords names: CFG_PARAM1, FLOCK_MUX, TALLY_CALu and FLOCK_SVCw. -/
def StatusAddr (a : Nat) : Prop :=
  a = 0x8 ∨ (∃ f, f < 320 ∧ a = flockAddr f 0x14) ∨ (∃ u, u < 4 ∧ a = tallyAddr u 0x38) ∨ ∃ q, q < 10 ∧ a = 0x8010 + 4 * q

theorem eventBlock_none {a : Nat} (h : ∀ b, eventAddr b ≠ a) : eventBlock a = none := by
  simp [eventBlock, h]

theorem statusAddr_eventBlock {a : Nat} (h : StatusAddr a) : eventBlock a = none := by
  refine eventBlock_none fun b hb => ?_
  rcases h with rfl | ⟨f, hf, rfl⟩ | ⟨u, hu, rfl⟩ | ⟨q, hq, rfl⟩ <;> cases b <;> simp only [eventAddr, flockAddr, tallyAddr] at hb <;> omega

theorem statusAddr_range {a : Nat} (h : StatusAddr a) :
    a = 0x8 ∨ (0x10000 ≤ a ∧ a < 0x15000 ∧ a % 64 = 0x14) ∨ (0x9100 ≤ a ∧ a < 0x9500 ∧ a % 0x100 = 0x38) ∨
    (0x8010 ≤ a ∧ a < 0x8038 ∧ a % 4 = 0) := by
  rcases h with rfl | ⟨f, hf, rfl⟩ | ⟨u, hu, rfl⟩ | ⟨q, hq, rfl⟩
  · exact .inl rfl
  · unfold flockAddr; omega
  · unfold tallyAddr; omega
  · omega

theorem statusAddr_bellReg {b : Build} {a : Nat} (h : StatusAddr a) (hb : b.valid = true) : bellReg b a = none := by
  have hz : b.zones ≤ 16 ∧ b.classes ≤ 4 := by
    simp only [Build.valid, Bool.and_eq_true, decide_eq_true_eq] at hb
    omega
  have ha := statusAddr_range h
  unfold bellReg
  repeat rw [if_neg (by grind)]

theorem statusAddr_nowReg {b : Build} {a : Nat} (x : Nat) (h : StatusAddr a) : nowReg b x a = none := by
  have ha := statusAddr_range h
  have hm : a % 0x1000000 = a := by omega
  simp only [nowReg, hm]
  repeat rw [if_neg (by grind)]

theorem statusAddr_mod {a : Nat} (h : StatusAddr a) : a % 4 = 0 := by
  have ha := statusAddr_range h
  omega

theorem statusAddr_snapSet {a : Nat} (h : StatusAddr a) : snapSet a = none := by
  have ha := statusAddr_range h
  unfold snapSet
  repeat rw [if_neg (by omega)]

/-- At a status word's address no register acts on a write, but that one of a Tally unit's denies board management (R459). -/
theorem actingWrite_status {a : Nat} (s : State) (w : Wr) (v : Word) (h : StatusAddr a) :
    ∀ f, actingWrite s w a v = some f → ∀ t, f t = t ∨ f t = deny .bm t := by
  have ha := statusAddr_range h
  intro f hf t
  by_cases hx : 0x10000 ≤ a
  · rw [actingWrite_flock s w v hx (by omega)] at hf
    cases hf
    simp only [writeFlockWord, show a % 64 = 0x14 by omega]
    simp
  · by_cases hy : 0x9100 ≤ a
    · rw [actingWrite_tallyUnit s w v hy (by omega)] at hf
      cases hf
      simp only [writeTallyUnit, show a % 0x100 = 0x38 by omega]
      simp only [Nat.reduceEqDiff, Nat.reduceLT, if_false]
      split
      · exact .inr rfl
      · exact .inl rfl
    · unfold actingWrite at hf
      iterate 38 rw [if_neg (by grind)] at hf
      cases hf

theorem same_deny_writeParts {s0 t : State} (p : Port) : SameBut writeParts s0 (deny p t) ↔ SameBut writeParts s0 t :=
  same_deny (by decide)

/-- What a write of a status word performs is a record of a denied write at most. -/
theorem same_writeEffect_status {a : Nat} {s0 s : State} (w : Wr) (v : Word) (h : StatusAddr a) (hb : s.build.valid = true) :
    SameBut writeParts s0 (writeEffect w a v s) ↔ SameBut writeParts s0 s := by
  unfold writeEffect
  rw [statusAddr_eventBlock h, statusAddr_bellReg h hb]
  split
  · next f hf => rcases actingWrite_status s w v h f hf s with e | e <;> rw [e]; exact same_deny_writeParts _
  · simp [nowPut, statusAddr_nowReg _ h]

theorem same_busWrite_status {s : State} {w : Wr} {addr : Nat} {v : Word} (h : StatusAddr addr) (hb : s.build.valid = true) :
    SameBut writeParts s (busWrite w addr v s) := by
  have ha : addr - addr % 4 = addr := by rw [statusAddr_mod h, Nat.sub_zero]
  simp only [busWrite, ha]
  rcases regWrite_records_or_effect (w := w) (a := addr) (v := v) (s := s) (ext := writeExt s w addr)
      (eff := unlessClearWaits w addr v (writeExt s w addr) (writeEffect w addr v)) (List.Subset.refl _) (.inl (statusAddr_snapSet h)) with hq | hq
  · exact hq
  · rw [hq, unlessClearWaits, clearWaits, statusAddr_eventBlock h]
    exact (same_writeEffect_status w v h (s := answered s) hb).mpr (same_answered s (by decide))

/-! ### What each status word reads -/

theorem readBlock_cfg {a : Nat} (s : State) (p : Port) (he : eventBlock a = none) (ha : a < 0x1000) : readBlock s p a = readCfg s p a := by
  simp only [readBlock, he, if_pos ha]

theorem readBlock_flocks {a : Nat} (s : State) (p : Port) (he : eventBlock a = none) (hl : 0x8000 ≤ a) (ha : a < 0x9000) :
    readBlock s p a = readFlocks s a := by
  simp only [readBlock, he]
  repeat rw [if_neg (by omega)]
  rw [if_pos ha]

theorem readBlock_tally {a : Nat} (s : State) (p : Port) (he : eventBlock a = none) (hl : 0x9000 ≤ a) (ha : a < 0xA000) :
    readBlock s p a = readTally s a := by
  simp only [readBlock, he]
  repeat rw [if_neg (by omega)]
  rw [if_pos ha]

theorem readBlock_flock {a : Nat} (s : State) (p : Port) (he : eventBlock a = none) (hl : 0x10000 ≤ a) (ha : a < 0x15000) :
    readBlock s p a = readFlock s p ((a - 0x10000) / 64) (a % 64) := by
  simp only [readBlock, he]
  repeat rw [if_neg (by omega)]
  rw [if_pos ha]

theorem readBlock_param1 (s : State) (p : Port) :
    readBlock s p 0x8 = packWord [(0, 15, s.build.xings), (15, 3, s.build.tiers), (18, 13, s.build.logic)] := by
  rw [readBlock_cfg s p (statusAddr_eventBlock (.inl rfl)) (by decide)]
  rfl

theorem readBlock_mux (s : State) (p : Port) {f : Nat} (hf : f < 320) : readBlock s p (flockAddr f 0x14) =
    if s.build.flocks ≤ f then 0 else packWord ((List.range 16).map (fun k => (2 * k, 2, (regionOf s (16 * f + k)).mux.toNat))) := by
  have ha : flockAddr f 0x14 = 0x10000 + 64 * f + 0x14 := rfl
  have hd : (flockAddr f 0x14 - 0x10000) / 64 = f := by omega
  have hm : flockAddr f 0x14 % 64 = 0x14 := by omega
  rw [readBlock_flock s p (statusAddr_eventBlock (.inr (.inl ⟨f, hf, rfl⟩))) (by omega) (by omega), hd, hm]
  rfl

theorem readBlock_svc (s : State) (p : Port) {q : Nat} (hq : q < 10) : readBlock s p (0x8010 + 4 * q) = svcWord s q := by
  rw [readBlock_flocks s p (statusAddr_eventBlock (.inr (.inr (.inr ⟨q, hq, rfl⟩)))) (by omega) (by omega), readFlocks,
    if_neg (by omega), if_neg (by omega), if_pos (by simp; omega), show (0x8010 + 4 * q - 0x8010) / 4 = q by omega]

theorem readTally_cal {a u : Nat} (s : State) (hl : 0x9100 ≤ a) (ha : a < 0x9500) (hu : (a - 0x9100) / 0x100 = u) (hoff : a % 0x100 = 0x38) :
    readTally s a = packWord [(0, 16, (tallyUnit s u).r1.toNat), (16, 16, (tallyUnit s u).r2.toNat)] := by
  unfold readTally
  rw [if_neg (by omega), if_neg (by omega), if_pos (by grind), hu, hoff]
  rfl

theorem readBlock_cal (s : State) (p : Port) {u : Nat} (hu : u < 4) :
    readBlock s p (tallyAddr u 0x38) = packWord [(0, 16, (tallyUnit s u).r1.toNat), (16, 16, (tallyUnit s u).r2.toNat)] := by
  have ha : tallyAddr u 0x38 = 0x9100 + 0x100 * u + 0x38 := rfl
  rw [readBlock_tally s p (statusAddr_eventBlock (.inr (.inr (.inl ⟨u, hu, rfl⟩)))) (by omega) (by omega),
    readTally_cal (u := u) s (by omega) (by omega) (by omega) (by omega)]

theorem fld_param1 {b : Build} (hb : b.valid = true) :
    fld (packWord [(0, 15, b.xings), (15, 3, b.tiers), (18, 13, b.logic)]) 0 15 = b.xings ∧
    fld (packWord [(0, 15, b.xings), (15, 3, b.tiers), (18, 13, b.logic)]) 15 3 = b.tiers ∧
    fld (packWord [(0, 15, b.xings), (15, 3, b.tiers), (18, 13, b.logic)]) 18 13 = b.logic := by
  have h : b.xings ≤ 24576 ∧ b.tiers ≤ 4 ∧ b.logic ≤ 4096 := by
    simp only [Build.valid, Bool.and_eq_true, decide_eq_true_eq] at hb
    omega
  refine ⟨?_, ?_, ?_⟩ <;> rw [packWord_three, fld_ofNat _ _ _ (by omega)] <;> omega

theorem fld_halves (x y : BitVec 16) :
    fld (packWord [(0, 16, x.toNat), (16, 16, y.toNat)]) 0 16 = x.toNat ∧
    fld (packWord [(0, 16, x.toNat), (16, 16, y.toNat)]) 16 16 = y.toNat := by
  have := x.isLt
  have := y.isLt
  constructor <;> rw [packWord_two, fld_ofNat _ _ _ (by omega)] <;> omega

/-- After reset the status words of the units read 0. -/
theorem status_reset (p : Port) {f u q : Nat} (hf : f < 320) (hu : u < 4) (hq : q < 10) : readBlock State.reset p (flockAddr f 0x14) = 0 ∧
    readBlock State.reset p (tallyAddr u 0x38) = 0 ∧ readBlock State.reset p (0x8010 + 4 * q) = 0 := by
  have hmux (r : Nat) : (regionOf State.reset r).mux = 0 := rfl
  have hsvc (g : Nat) : (flockOf State.reset g).svc = false := rfl
  have htally : (tallyUnit State.reset u).r1 = 0 ∧ (tallyUnit State.reset u).r2 = 0 := by
    unfold tallyUnit
    repeat' split
    all_goals exact ⟨rfl, rfl⟩
  refine ⟨?_, ?_, ?_⟩
  · rw [readBlock_mux _ _ hf]
    simp only [hmux]
    split <;> rfl
  · rw [readBlock_cal _ _ hu, htally.1, htally.2]
    rfl
  · rw [readBlock_svc _ _ hq, svcWord]
    simp only [hsvc, Bool.and_false]
    decide

/-- Settles O56: each status word is a word of equal fields over its units' records, and its address holds no register. -/
theorem statusWords : Obligations.StatusWords := by
  unfold Obligations.StatusWords
  refine ⟨fun s p hb => ?_, fun s p f k hf hf' hk => ?_, fun s p q b hq hb hqb => ?_, fun s p u hu => ?_,
    fun p f u q hf hu hq => status_reset p hf hu hq, fun s t w addr v f u q hb hf hu hq ha ht => ?_⟩
  · rw [readBlock_param1]
    exact fld_param1 hb
  · rw [readBlock_mux s p hf', if_neg (by omega)]
    exact (fld_packWord_uniform _ hk (by decide)).trans (Nat.mod_eq_of_lt (BitVec.isLt _))
  · rw [readBlock_svc s p hq, svcWord, bitAt_packWord_uniform _ hb (by decide)]
    simp [hqb]
  · rw [readBlock_cal s p hu]
    exact fld_halves _ _
  · have hs : StatusAddr addr.toNat := by
      rcases ha with h | h | h | h
      · exact .inl h
      · exact .inr (.inl ⟨f, hf, h⟩)
      · exact .inr (.inr (.inl ⟨u, hu, h⟩))
      · exact .inr (.inr (.inr ⟨q, hq, h⟩))
    cases ht
    exact same_busWrite_status hs hb

end Sys2Proof.Machine
end

