-- ==== Sys2Proof/Proofs/ConfigurationCheck.lean ====
section
/-!
PROOF. The application before the first bell, the end of a pass, and a restore's last write (O33).
-/
namespace Sys2Proof.Machine
open Sys2Proof

/-! ### The application before the first bell -/

theorem applyPending_applyCnt (flat : Nat → Nat → Bool) (s : State) : (applyPending flat s).cfg.applyCnt =
    if s.cfg.pend.any (fun k => takes s (k, judge s flat k)) then s.cfg.applyCnt + 1 else s.cfg.applyCnt := by
  unfold applyPending
  split
  · next h => simp [h]
  · simp only [List.any_map]
    rfl

/-- The state whose pending writes an early application judges: those it takes, and of a restore's only where none waits on. -/
def earlyState (s : State) (restore : Bool) : State := { s with cfg := { s.cfg with pend := earlyKeys s, restoreSet := restore } }

theorem judge_earlyState (s : State) (restore : Bool) (flat : Nat → Nat → Bool) (k : Nat) :
    judge (earlyState s restore) flat k = judge { s with cfg := { s.cfg with pend := earlyKeys s } } flat k := rfl

theorem applyEarly_of_earlyState (s : State) : ∃ restore,
    SameBut [.check] (applyPending (fun _ _ => false) (earlyState s restore)) (applyEarly s) ∧
    (applyEarly s).cfg.pend = s.cfg.pend.filter (fun k => !(earlyKeys s).contains k) ∧
    (applyEarly s).cfg.applyCnt = (applyPending (fun _ _ => false) (earlyState s restore)).cfg.applyCnt := by
  refine ⟨_, ?_, rfl, rfl⟩
  simp only [applyEarly, ↓same_record, (List.mem_singleton.mpr rfl : Part.check ∈ [Part.check]), or_true, true_or, and_self]
  exact .rfl

/-- The parts that follow the application at a slow-clock edge: the spares and calibrations that depend on what is applied. -/
def afterEarlyParts : List Part :=
  [.cal, .flocks, .gens, .regions, .root, .tally] ++ evs .flock [2, 3, 9, 10] ++ evs .rcg [1, 2, 3]

theorem same_preBellApply (s : State) : SameBut afterEarlyParts (applyEarly s) (calCfgApplied s (respareChanged s (applyEarly s))) :=
  (same_calCfgApplied _ _ (by decide)).mpr ((same_respareChanged _ _ (by decide)).mpr .rfl)

theorem bellA_applyEarly (s : State) (k : Nat) : bellA (applyEarly s) k =
    if k ∈ earlyKeys s then (judge { s with cfg := { s.cfg with pend := earlyKeys s } } (fun _ _ => false) k).1 else bellA s k := by
  obtain ⟨restore, hsame, -, -⟩ := applyEarly_of_earlyState s
  rw [bellA_of_sameBut hsame (by decide) (by decide), bellA_applyPending, judge_earlyState]
  rfl

theorem applyEarly_applyCnt (s : State) : (applyEarly s).cfg.applyCnt =
    if (earlyKeys s).any (fun k => takes s (k, judge { s with cfg := { s.cfg with pend := earlyKeys s } } (fun _ _ => false) k))
    then s.cfg.applyCnt + 1 else s.cfg.applyCnt := by
  obtain ⟨restore, -, -, hcnt⟩ := applyEarly_of_earlyState s
  rw [hcnt, applyPending_applyCnt]
  simp only [judge_earlyState]
  rfl

theorem applyEarly_cfgW (s : State) : (applyEarly s).cfgW = s.cfgW := by
  obtain ⟨restore, hsame, -, -⟩ := applyEarly_of_earlyState s
  have h := (same_applyPending (s0 := earlyState s restore) (l := [Part.bellApplied, .check, .fold] ++ evs .cal [8] ++ evs .cfg [2, 4] ++ evs .fold [3, 11] ++ evs .rcg [5, 6, 8] ++ evs .zone [6])
    (fun _ _ => false) (earlyState s restore) (List.Subset.refl _)).mpr .rfl
  exact (hsame .bellWritten (by decide)).trans (h .bellWritten (by decide))

/-! ### The end of a pass -/

theorem driftRestore_keeps (s : State) : (driftRestore s).cfg.crc = s.cfg.crc ∧ (driftRestore s).cfg.passFrom = s.cfg.passFrom ∧
    (driftRestore s).cfg.drift = s.cfg.drift ∧ (∀ k, Flagged s .cfg k → Flagged (driftRestore s) .cfg k) ∧
    (s.cfg.restoreEn = true → (driftRestore s).cfg.restoredOnce = true) := by
  simp only [driftRestore]
  split
  · split
    · split
      · exact ⟨rfl, rfl, rfl, fun _ h => h, fun _ => rfl⟩
      · exact ⟨rfl, rfl, rfl, fun _ h => flagged_raise_of 3 h, fun _ => rfl⟩
    · exact ⟨rfl, rfl, rfl, fun _ h => flagged_raise_of 3 h, fun _ => rfl⟩
  · next h => exact ⟨rfl, rfl, rfl, fun _ h => h, fun hr => by simpa [hr] using h⟩

/-- The state in which a pass ends: its CRC recorded, and a new pass begun. -/
def passEnded (s : State) : State := { s with cfg := { s.cfg with crc := configCrc s, passFrom := s.time.total } }

/-- A pass that finds drift: DRIFT and its event, and CHECK_FAIL where an application awaited the pass. -/
def driftFound (s : State) : State :=
  let t := raise .cfg 0 { passEnded s with cfg := { (passEnded s).cfg with drift := true, awaitPass := false } }
  if s.cfg.awaitPass then raise .cfg 1 t else t

theorem driftFound_cfg (s : State) : (driftFound s).cfg.crc = configCrc s ∧ (driftFound s).cfg.passFrom = s.time.total ∧
    (driftFound s).cfg.drift = true ∧ (driftFound s).cfg.restoreEn = s.cfg.restoreEn := by
  simp only [driftFound, passEnded]
  split <;> exact ⟨rfl, rfl, rfl, rfl⟩

theorem driftFound_flagged (s : State) : Flagged (driftFound s) .cfg 0 ∧ (s.cfg.awaitPass = true → Flagged (driftFound s) .cfg 1) := by
  simp only [driftFound]
  split
  · exact ⟨flagged_raise_of 1 (flagged_raise _ .cfg (by decide)), fun _ => flagged_raise _ .cfg (by decide)⟩
  · next h => exact ⟨flagged_raise _ .cfg (by decide), fun ha => absurd ha h⟩

theorem execConfigPassEnd_of_done {s : State} (hu : s.power.fabUp = true) (hp : s.cfg.passFrom + passTicks s.build ≤ s.time.total) :
    execConfigPassEnd s =
      if s.cfg.checkEn && s.cfg.refValid then
        if configCrc s = nowGet s 0x1C then
          .next { passEnded s with cfg := { (passEnded s).cfg with drift := false, awaitPass := false,
                                                                     restoredOnce := s.cfg.restoredOnce && !s.cfg.drift } }
        else .next (driftRestore (driftFound s))
      else .next { passEnded s with cfg := { (passEnded s).cfg with awaitPass := false } } := by
  unfold execConfigPassEnd
  rw [if_neg (by simp [hu]; omega)]
  rfl

/-! ### The restore's last write -/

/-- One of a restore's values made pending: a write that no port made (R457). -/
def restorePut (t : State) (p : Nat × Word) : State :=
  { bellPut p.1 p.2 t with cfg := { (bellPut p.1 p.2 t).cfg with byPort := t.cfg.byPort.filter (· ≠ p.1) } }

theorem restorePut_keeps (t : State) (p : Nat × Word) : (restorePut t p).build = t.build ∧ (restorePut t p).cfgA = t.cfgA ∧
    (restorePut t p).cfg.restoring = t.cfg.restoring := by
  refine ⟨(bellPut_fields ..).2.1, by simp [restorePut], ?_⟩
  simp only [restorePut, bellPut]
  split
  · rfl
  · split <;> simp_all

theorem bellW_restorePut (t : State) (p : Nat × Word) (k : Nat) : bellW (restorePut t p) k = bellW (bellPut p.1 p.2 t) k := rfl

theorem foldl_restorePut_keeps (ps : List (Nat × Word)) (t : State) : (ps.foldl restorePut t).build = t.build ∧
    (ps.foldl restorePut t).cfgA = t.cfgA ∧ (ps.foldl restorePut t).cfg.restoring = t.cfg.restoring := by
  induction ps generalizing t with
  | nil => exact ⟨rfl, rfl, rfl⟩
  | cons p ps ih =>
    obtain ⟨h1, h2, h3⟩ := ih (restorePut t p)
    obtain ⟨g1, g2, g3⟩ := restorePut_keeps t p
    exact ⟨h1.trans g1, h2.trans g2, h3.trans g3⟩

theorem bellW_foldl_restorePut_other (ps : List (Nat × Word)) (t : State) {k : Nat} (hk : k ∉ ps.map Prod.fst) :
    bellW (ps.foldl restorePut t) k = bellW t k := by
  induction ps generalizing t with
  | nil => rfl
  | cons p ps ih =>
    simp only [List.map_cons, List.mem_cons, not_or] at hk
    exact (ih _ hk.2).trans ((bellW_restorePut t p k).trans (bellW_put_other _ _ hk.1))

/-- Of keys that differ, each holds the value restored to it. -/
theorem bellW_foldl_restorePut (ps : List (Nat × Word)) (t : State) (hps : (ps.map Prod.fst).Nodup) {p : Nat × Word} (hp : p ∈ ps)
    {m d : Word} (hr : bellReg t.build p.1 = some (m, d)) : bellW (ps.foldl restorePut t) p.1 = p.2 &&& m := by
  induction ps generalizing t with
  | nil => cases hp
  | cons q ps ih =>
    simp only [List.map_cons, List.nodup_cons] at hps
    rcases List.mem_cons.mp hp with rfl | hp
    · rw [List.foldl_cons, bellW_foldl_restorePut_other _ _ hps.1, bellW_restorePut, bellW_put _ hr]
    · exact ih _ hps.2 hp (by rwa [(restorePut_keeps t q).1])

/-- The values that a restore makes pending: those of the copy whose key no port has written since (R457). -/
def restored (s : State) : List (Nat × Word) := ((configKeys s.build).zip s.cfg.copy).filter (fun p => !s.cfg.portWrote.contains p.1)

theorem zip_fst_sublist {α β : Type} (xs : List α) (ys : List β) : ((xs.zip ys).map Prod.fst).Sublist xs := by
  induction xs generalizing ys with
  | nil => exact .slnil
  | cons x xs ih =>
    cases ys with
    | nil => exact List.nil_sublist _
    | cons y ys => exact (ih ys).cons_cons x

theorem restored_nodup {s : State} (h : (configKeys s.build).Nodup) : ((restored s).map Prod.fst).Nodup := by
  exact (h.sublist (zip_fst_sublist _ s.cfg.copy)).sublist (List.filter_sublist.map _)

theorem portWrote_not_restored {s : State} {k : Nat} (hk : k ∈ s.cfg.portWrote) : k ∉ (restored s).map Prod.fst := by
  simp only [restored, List.mem_map, List.mem_filter, not_exists, not_and]
  rintro p ⟨-, hp⟩ rfl
  simp [hk] at hp

/-- The state with no restore under way. -/
def restoreOver (s : State) : State := { s with cfg := { s.cfg with restoring := false, copy := [], portWrote := [] } }

/-- A restore's values, written, stand as pending writes of this tick. -/
def restorePended (t : State) : State := { t with cfg := { t.cfg with restoreSet := true, restoreAt := elapsed t } }

theorem restorePended_keeps (t : State) : (restorePended t).cfg.restoring = t.cfg.restoring ∧ (restorePended t).cfg.restoreSet = true ∧
    (restorePended t).cfgA = t.cfgA ∧ ∀ k, bellW (restorePended t) k = bellW t k := ⟨rfl, rfl, rfl, fun _ => rfl⟩

theorem execRestoreWriteDone_of_done {s : State} (hr : s.cfg.restoring = true) (hw : s.cfg.restoreAt + passTicks s.build ≤ elapsed s) :
    execRestoreWriteDone s = .next (restorePended ((restored s).foldl restorePut (restoreOver s))) := by
  unfold execRestoreWriteDone
  rw [if_pos (by simp [hr, hw])]
  have hp (u : State) : (.next { u with cfg := { u.cfg with restoreSet := true, restoreAt := elapsed u } } : Host.Outcome State Fault Refusal) =
      .next (restorePended u) := rfl
  exact hp _

/-- Settles O33, clause by clause: the early application, the pass and the restore each by what their operation leaves. -/
theorem configurationCheck : Obligations.ConfigurationCheck := by
  unfold Obligations.ConfigurationCheck
  refine ⟨fun s hf hs => ?_, fun s h => ?_, fun s hu hp => ?_, fun s hr hw hn => ?_⟩
  · refine ⟨_, if_pos (by simp [hf, hs]), fun k hk => ?_, fun k hk => ?_, ?_, ?_, ?_⟩
    · rw [bellA_of_sameBut (same_preBellApply s) (by decide) (by decide), bellA_applyEarly, if_pos hk]
    · rw [bellA_of_sameBut (same_preBellApply s) (by decide) (by decide), bellA_applyEarly, if_neg hk]
    · rw [show (calCfgApplied s _).cfg = _ from same_preBellApply s .check (by decide)]
      rfl
    · rw [show (calCfgApplied s _).cfg = _ from same_preBellApply s .check (by decide)]
      exact applyEarly_applyCnt s
    · exact (same_preBellApply s .bellWritten (by decide)).trans (applyEarly_cfgW s)
  · refine ⟨s, if_neg ?_, rfl⟩
    rcases h with h | h <;> simp [h]
  · have he := execConfigPassEnd_of_done hu hp
    by_cases hc : (s.cfg.checkEn && s.cfg.refValid) = true
    · rw [if_pos hc] at he
      by_cases hcrc : configCrc s = nowGet s 0x1C
      · rw [if_pos hcrc] at he
        exact ⟨_, he, rfl, rfl, fun _ _ _ => rfl, fun _ _ h => absurd hcrc h⟩
      · rw [if_neg hcrc] at he
        obtain ⟨hcrc', hfrom, hdrift, hflag, honce⟩ := driftRestore_keeps (driftFound s)
        obtain ⟨gcrc, gfrom, gdrift, gen⟩ := driftFound_cfg s
        obtain ⟨g0, g1⟩ := driftFound_flagged s
        exact ⟨_, he, hcrc'.trans gcrc, hfrom.trans gfrom, fun _ _ h => absurd h hcrc, fun _ _ _ =>
          ⟨hdrift.trans gdrift, hflag 0 g0, fun ha => hflag 1 (g1 ha), fun hr => honce (gen.trans hr)⟩⟩
    · rw [if_neg hc] at he
      exact ⟨_, he, rfl, rfl, fun h1 h2 => absurd (by simp [h1, h2]) hc, fun h1 h2 => absurd (by simp [h1, h2]) hc⟩
  · obtain ⟨-, happlied, hdone⟩ := foldl_restorePut_keeps (restored s) (restoreOver s)
    obtain ⟨hover, hset, hkept, hword⟩ := restorePended_keeps ((restored s).foldl restorePut (restoreOver s))
    refine ⟨_, execRestoreWriteDone_of_done hr hw, hover.trans hdone, hset, fun k hk => (hword k).trans ?_,
      fun p hp hk m d hreg => (hword p.1).trans ?_, hkept.trans happlied⟩
    · exact (bellW_foldl_restorePut_other _ _ (portWrote_not_restored hk)).trans (bellW_congr rfl rfl k)
    · exact bellW_foldl_restorePut _ _ (restored_nodup hn) (List.mem_filter.mpr ⟨hp, by simp [hk]⟩) hreg

end Sys2Proof.Machine
end

