-- ==== Sys2Proof/Proofs/ReadBack.lean ====
section
/-!
PROOF. What a read returns after a write, performed or waiting, and what the reads over board management leave (O54).
-/
namespace Sys2Proof.Machine
open Sys2Proof

/-! ### The registers that only store a word -/

theorem ite_some_eq_none {α : Type} {c : Prop} [Decidable c] {x : α} {y : Option α} :
    (if c then some x else y) = none ↔ ¬c ∧ y = none := by
  split <;> simp [*]

/-- The "now" registers whose writes do nothing but store their word. -/
def storedRegs : List Nat :=
  [0x1C, 0x24, 0x1010, 0x1014, 0x1024, 0x2004, 0x2008, 0x2018, 0x202C, 0x3008, 0x300C, 0x301C, 0x4058, 0x5028, 0x6008, 0x6028, 0x701C,
   0x8004, 0x900C, 0xA020, 0xB000, 0xB004, 0xB010, 0xB018, 0xB030, 0xB034, 0xB044, 0xC008, 0xC040, 0xD304, 0xF014]

theorem stored_of_nowReg {b : Build} {x a : Nat} {s : State} {w : Wr} {v : Word} {z : Word × Word} (ha : a < 0x15000)
    (hact : actingWrite s w a v = none) (hn : nowReg b x a = some z) : a ∈ storedRegs := by
  have hm : a % 0x1000000 = a := by omega
  simp only [actingWrite, ite_some_eq_none, and_true, Bool.not_eq_true] at hact
  by_contra hs
  simp only [storedRegs, List.mem_cons, not_or] at hs
  have hf : decide (0x10000 ≤ a) = false := by
    obtain ⟨-, h⟩ : _ ∧ (decide (0x10000 ≤ a) && decide (a < 0x15000)) = false := ⟨trivial, by simp only [hact]⟩
    simpa [ha] using h
  have : nowReg b x a = none := by
    simp only [nowReg, hm, hact, hs, hf, decide_false, Bool.or_false, Bool.false_and, Bool.false_eq_true, if_false]
  cases this.symm.trans hn

theorem eventBlock_stored {a : Nat} (h : a ∈ storedRegs) : eventBlock a = none := by
  revert a
  decide

/-- A register that only stores a word reads the word last written to it. -/
theorem readBlock_stored {a : Nat} (s : State) (p : Port) (h : a ∈ storedRegs) (hb : bellReg s.build a = none) :
    readBlock s p a = nowSeen s a := by
  have he := eventBlock_stored h
  simp only [storedRegs, List.mem_cons, List.not_mem_nil, or_false] at h
  simp only [readBlock, he, readRcg, readFcst, readZone, hb]
  repeat' rcases h with h | h
  all_goals rfl

theorem zones_classes_le {b : Build} (h : b.valid = true) : b.zones ≤ 16 ∧ b.classes ≤ 4 := by
  simp only [Build.valid, Bool.and_eq_true, decide_eq_true_eq] at h
  omega

theorem readFold_bell {s : State} {p : Port} {a : Nat} (hb : (bellReg s.build a).isSome = true)
    (h : a = 0x3000 ∨ 0x3100 ≤ a ∧ a < 0x3100 + 0x10 * s.build.classes ∧ (a % 0x10 = 0 ∨ a % 0x10 = 0xC)) : readFold s p a = bellRead s p a := by
  unfold readFold
  iterate 7 rw [if_neg (by grind)]
  split
  · rw [if_neg (by omega), if_neg (by omega)]
  · rfl

theorem readRcg_bell {s : State} {p : Port} {a : Nat} (hb : (bellReg s.build a).isSome = true) (h : a = 0x4040 ∨ a = 0x4044 ∨ a = 0x4048 ∨ 0x4100 ≤ a) :
    readRcg s p a = bellRead s p a := by
  unfold readRcg
  iterate 7 rw [if_neg (by grind)]
  rw [if_pos hb]

theorem readFcst_bell {s : State} {p : Port} {a : Nat} (hb : (bellReg s.build a).isSome = true) (h : 0x6100 ≤ a) :
    readFcst s p a = bellRead s p a := by
  unfold readFcst
  iterate 10 rw [if_neg (by grind)]
  rw [if_pos hb]

theorem readZone_bell {s : State} {p : Port} {a : Nat} (hb : (bellReg s.build a).isSome = true)
    (h : a = 0x7000 ∨ 0x7100 ≤ a ∧ a < 0x7140 ∨ a % 8 = 0 ∧ 0x7140 ≤ a) : readZone s p a = bellRead s p a := by
  unfold readZone
  iterate 9 rw [if_neg (by grind)]
  rw [if_pos hb]

section
variable {a : Nat} (s : State) (p : Port) (he : eventBlock a = none)
include he

theorem readBlock_fold (hl : 0x3000 ≤ a) (ha : a < 0x4000) : readBlock s p a = readFold s p a := by
  simp only [readBlock, he]
  iterate 3 rw [if_neg (by omega)]
  rw [if_pos ha]

theorem readBlock_rcg (hl : 0x4000 ≤ a) (ha : a < 0x5000) : readBlock s p a = readRcg s p a := by
  simp only [readBlock, he]
  iterate 4 rw [if_neg (by omega)]
  rw [if_pos ha]

theorem readBlock_fcst (hl : 0x6000 ≤ a) (ha : a < 0x7000) : readBlock s p a = readFcst s p a := by
  simp only [readBlock, he]
  iterate 6 rw [if_neg (by omega)]
  rw [if_pos ha]

theorem readBlock_zone (hl : 0x7000 ≤ a) (ha : a < 0x8000) : readBlock s p a = readZone s p a := by
  simp only [readBlock, he]
  iterate 7 rw [if_neg (by omega)]
  rw [if_pos ha]

end

theorem ite_some_isSome {α : Type} {c : Prop} [Decidable c] {x : α} {y : Option α} (h : (if c then some x else y).isSome = true) :
    c ∨ y.isSome = true := by
  split at h
  · exact .inl ‹_›
  · exact .inr h

/-- The addresses of the bell-class registers of the host-wide blocks. -/
theorem bellReg_addr {b : Build} {a : Nat} (ha : a < 0x10000) (hb : (bellReg b a).isSome = true) :
    (a = 0x3000 ∨ 0x3100 ≤ a ∧ a < 0x3100 + 0x10 * b.classes ∧ (a % 0x10 = 0 ∨ a % 0x10 = 0xC)) ∨
    ((a = 0x4040 ∨ a = 0x4044 ∨ a = 0x4048 ∨ 0x4100 ≤ a) ∧ 0x4000 ≤ a ∧ a < 0x4100 + 0x10 * b.classes) ∨
    (0x6100 ≤ a ∧ a < 0x6100 + 4 * b.classes) ∨
    (a = 0x7000 ∨ 0x7100 ≤ a ∧ a < 0x7100 + 4 * b.zones ∨ a % 8 = 0 ∧ 0x7140 ≤ a ∧ a < 0x7140 + 8 * b.classes) ∨
    a = 0xA000 := by
  unfold bellReg at hb
  iterate 14
    rcases ite_some_isSome hb with h | hb
    · clear hb
      grind
  iterate 3 rw [if_neg (by grind)] at hb
  cases hb

/-- A bell-class register reads the value last written, or with VIEW the one applied. -/
theorem readBlock_bellReg {a : Nat} {s : State} (p : Port) (hv : s.build.valid = true) (he : eventBlock a = none) (ha : a < 0x10000)
    (hb : (bellReg s.build a).isSome = true) : readBlock s p a = bellRead s p a := by
  obtain ⟨hz, hc⟩ := zones_classes_le hv
  rcases bellReg_addr ha hb with h | ⟨h, hr⟩ | h | h | rfl
  · rw [readBlock_fold s p he (by omega) (by omega), readFold_bell hb h]
  · rw [readBlock_rcg s p he (by omega) (by omega), readRcg_bell hb h]
  · rw [readBlock_fcst s p he (by omega) (by omega), readFcst_bell hb (by omega)]
  · rw [readBlock_zone s p he (by omega) (by omega), readZone_bell hb (by omega)]
  · rfl

/-! ### What a performed and a waiting write leave to read -/

@[simp] theorem answered_fields (s : State) : (answered s).build = s.build ∧ (answered s).root = s.root ∧ (answered s).nowR = s.nowR ∧
    (answered s).cfgW = s.cfgW ∧ (answered s).cfgA = s.cfgA ∧ (answered s).events = s.events ∧ (answered s).cfg = s.cfg ∧
    (answered s).mbx = s.mbx ∧ (answered s).tally = s.tally ∧ (answered s).lc = s.lc ∧ (answered s).power = s.power ∧
    (answered s).out.waiting = s.out.waiting ∧ (answered s).out.captures = s.out.captures :=
  ⟨rfl, rfl, rfl, rfl, rfl, rfl, rfl, rfl, rfl, rfl, rfl, rfl, rfl⟩

theorem actingWrite_answered (s : State) (w : Wr) (a : Nat) (v : Word) : actingWrite (answered s) w a v = actingWrite s w a v := by
  simp only [actingWrite, selRegion_answered, btabSel_answered]

theorem busWrite_performed {s : State} {w : Wr} {addr : Nat} (v : Word) (h : Performs w (addr - addr % 4) s)
    (he : eventBlock (addr - addr % 4) = none) : busWrite w addr v s = writeEffect w (addr - addr % 4) v (answered s) := by
  simp only [busWrite]
  rw [regWrite_performed h, unlessClearWaits, clearWaits, he]
  rfl

section
variable {s : State} {w : Wr} {a : Nat} {v m d : Word} (ha : a < 0x15000) (hact : actingWrite s w a v = none) (he : eventBlock a = none)
include ha hact he

theorem writeEffect_bell (hb : bellReg s.build a = some (m, d)) : writeEffect w a v (answered s) = bellPut a v (answered s) := by
  simp [writeEffect, actingWrite_answered, hact, he, hb, Nat.not_le.mpr ha]

theorem writeEffect_stored (hb : bellReg s.build a = none) : writeEffect w a v (answered s) = nowPut a v (answered s) := by
  simp [writeEffect, actingWrite_answered, hact, he, hb, Nat.not_le.mpr ha]

end

theorem actingWrite_none_lt {s : State} {w : Wr} {a : Nat} {v : Word} (ha : a < 0x15000) (hact : actingWrite s w a v = none) : a < 0x10000 := by
  by_contra h
  rw [actingWrite_flock s w v (by omega) ha] at hact
  cases hact

theorem regRead_reachable {s t : State} {p : Port} {addr : Nat} (ha : addr - addr % 4 < 0x15000) (hr : reachable s (addr - addr % 4) = true)
    (hl : t.lc = s.lc) (hp : t.power = s.power) : regRead t p addr = readBlock t p (addr - addr % 4) := by
  have hr' : reachable t (addr - addr % 4) = true := by rw [← hr]; simp only [reachable, hl, hp]
  have hv : vendorClosed t (addr - addr % 4) = false := by
    have : ¬0x80000 ≤ addr - addr % 4 := by omega
    simp [vendorClosed, this]
  simp only [regRead, hr', hv, Bool.not_true, Bool.or_false, Bool.false_eq_true, if_false]

theorem viewOf_bellPut (k : Nat) (v : Word) (s : State) (p : Port) : viewOf (bellPut k v s) p = viewOf s p := by
  unfold bellPut
  split
  · rfl
  · simp only []
    cases p <;> split <;> rfl

theorem bellRead_bellPut {s : State} {a : Nat} {m d : Word} (v : Word) (p : Port) (hb : bellReg s.build a = some (m, d)) :
    bellRead (bellPut a v s) p a = if viewOf s p then bellA s a else v &&& m := by
  rw [bellRead, viewOf_bellPut, bellW_put v hb, bellA, bellA]
  simp

theorem stored_facts {a : Nat} (h : a ∈ storedRegs) : a ≠ 0x2024 ∧ a ≠ 0xF004 ∧ a ≠ 0x400C ∧ a ≠ 0x7008 ∧ perPort a = false ∧ snapSet a = none := by
  revert a
  decide

theorem unperformed_stored {a : Nat} (s : State) (h : a ∈ storedRegs) :
    unperformed s a = ((s.out.captures ++ s.out.waiting).filter (fun e => waitKey e = a)).map WaitWr.word := by
  obtain ⟨h1, h2, -⟩ := stored_facts h
  simp [unperformed, h1, h2]

theorem nowSeen_stored_idle {a : Nat} {s : State} (h : a ∈ storedRegs) (hw : s.out.waiting = []) (hc : s.out.captures = []) :
    nowSeen s a = nowGet s a := by
  simp only [nowSeen, lastWritten, unperformed_stored s h, hw, hc]
  split <;> rfl

theorem nowSeen_stored_await {a : Nat} {s : State} {m d v : Word} (w : Wr) (ext : List Nat) (h : a ∈ storedRegs)
    (hn : nowReg s.build s.root.xtalSel.toNat a = some (m, d)) : nowSeen (await ⟨w, a, v, ext⟩ s) a = v &&& m := by
  obtain ⟨-, -, -, -, hp, hs⟩ := stored_facts h
  have hk : waitKey ⟨w, a, v, ext⟩ = a := by simp [waitKey, hp]
  simp [nowSeen, await, snapAsked, hs, hn, lastWritten, unperformed_stored _ h, ← List.append_assoc, hk]

theorem idle_of_takenNow {s : State} {w : Wr} {a : Nat} (h : a ∈ storedRegs) (hb : bellReg s.build a = none) (ht : takenNow s w a = true) :
    s.out.waiting = [] := by
  obtain ⟨-, -, h1, h2, -⟩ := stored_facts h
  have hc : bellClass s a = false := by simp [bellClass, hb, h1, h2]
  simp only [takenNow, hc, atSlowEdge, Bool.false_or, Bool.and_eq_true, List.isEmpty_iff] at ht
  exact ht.2.1.1.1.1.2

theorem readBlock_genCtrl (s : State) (p : Port) {f : Nat} (hf : f < s.build.flocks) (hf' : f < 320) : readBlock s p (flockAddr f 0x2C) =
    packWord [(0, 2, (flockOf s f).genStatus.toNat), (8, 8, (flockOf s f).genTag.toNat)] := by
  have ha : flockAddr f 0x2C = 0x10000 + 64 * f + 0x2C := rfl
  have he : eventBlock (flockAddr f 0x2C) = none := by
    refine eventBlock_none fun b hb => ?_
    cases b <;> simp only [eventAddr, ha] at hb <;> omega
  have hd : (flockAddr f 0x2C - 0x10000) / 64 = f := by omega
  have hm : flockAddr f 0x2C % 64 = 0x2C := by omega
  rw [readBlock_flock s p he (by omega) (by omega), hd, hm]
  exact if_neg (by omega)

/-! ### What the reads over board management leave -/

theorem busRead_open {s : State} {p : Port} {off : Nat} (h : s.lc.access = 0 ∨ s.lc.access = 3) {l : List Part} {s0 : State} (hl : .answers ∈ l) :
    SameBut l s0 (busRead p off s).2 ↔ SameBut l s0 s := by
  have hv : vendorClosed s (off - off % 4) = false := by
    rcases h with h | h <;> simp [vendorClosed, h]
  simp only [busRead, hv, Bool.and_false, Bool.false_eq_true, if_false, ↓same_ite, ↓same_record, hl, or_true, true_or, and_self, ite_self]

theorem same_i2cReads_open {s0 : State} (off n : Nat) (s : State) (h : s.lc.access = 0 ∨ s.lc.access = 3) :
    SameBut [.answers] s0 (i2cReads off n s) ↔ SameBut [.answers] s0 s := by
  induction n generalizing off s with
  | zero => exact Iff.rfl
  | succ n ih =>
    have hlc : (busRead .bm off s).2.lc = s.lc := ((busRead_open h (List.mem_singleton_self _)).mpr SameBut.rfl) .lc (by decide)
    rw [i2cReads, ih _ _ (by simpa only [hlc] using h)]
    simp only [↓same_record, ↓busRead_open h, List.mem_singleton, or_true, true_or, and_self]

/-- A read transaction changes the answer, and the record of a denied read where reads can be denied. -/
theorem same_i2cTransaction_read {s t : State} {target : BitVec 7} {off : BitVec 24} {n : Nat}
    (h : exec (.i2cTransaction (.read target off n)) s = .next t) :
    SameBut ([.answers, .check] ++ evs .cfg [8]) s t ∧ ((s.lc.access = 0 ∨ s.lc.access = 3) → SameBut [.answers] s t) := by
  have h : execI2cTransaction (.read target off n) s = .next t := h
  simp only [execI2cTransaction] at h
  split at h
  · cases h
    exact ⟨.rfl, fun _ => .rfl⟩
  · split at h <;> cases h
    · constructor <;> simp [same_record, SameBut.rfl]
    · refine ⟨(same_i2cReads _ _ _ (List.Subset.refl _)).mpr ?_, fun hs => (same_i2cReads_open _ _ _ ?_).mpr ?_⟩
      · simp [same_record, SameBut.rfl]
      · exact hs
      · simp [same_record, SameBut.rfl]

theorem completes_regWrite {w : Wr} {addr : BitVec 20} {v : Word} {s t : State} {P : State → Prop} (h : busWrite w addr.toNat v s = t) (hP : P t) :
    Completes (.regWrite w addr v) s P := ⟨t, congrArg _ h, hP⟩

/-- Settles O54: a read of a register that only stores a word, or of a bell-class one, is one read of the word that `nowSeen` or
`bellRead` returns, and a write's outcome says what that word is. -/
theorem readBack : Obligations.ReadBack := by
  unfold Obligations.ReadBack
  refine ⟨fun s w addr v m d hv hp ha hact he hb => ?_, fun s w addr v m d hv hcap hp ha hact he hb hn => ?_,
    fun s w addr v m d hv hr hst hs hd hl ht ha hact he hb hn => ?_, fun s p a m d hv hr ha h4 hact he hb hn hw hc => ?_,
    fun s p f hup hpor hf hf' => ?_, fun s p a h => ?_, fun s t target off n h => same_i2cTransaction_read h⟩
  · refine completes_regWrite ((busWrite_performed v hp he).trans (writeEffect_bell ha hact he hb)) ?_
    rw [regRead_reachable (s := s) ha hp.reach (by simp) (by simp),
      readBlock_bellReg w.port (by simpa using hv) he (actingWrite_none_lt ha hact) (by simp [hb])]
    exact bellRead_bellPut (s := answered s) v w.port hb
  · have hm := stored_of_nowReg ha hact hn
    have hi := idle_of_takenNow hm hb hp.now
    have hg := nowGet_put v (answered s) (k := addr.toNat - addr.toNat % 4) hn
    refine completes_regWrite ((busWrite_performed v hp he).trans (writeEffect_stored ha hact he hb)) ⟨?_, hg⟩
    rw [regRead_reachable (s := s) ha hp.reach (by simp) (by simp), readBlock_stored _ _ hm (by simpa using hb),
      nowSeen_stored_idle hm (by simpa using hi) (by simpa using hcap), hg]
  · have hm := stored_of_nowReg ha hact hn
    have hq (ext : List Nat) : SameBut writeParts s (await ⟨w, addr.toNat - addr.toNat % 4, v, ext⟩ (answered s)) :=
      (same_await (by decide) (.inl (stored_facts hm).2.2.2.2.2)).mpr (same_answered s (by decide))
    refine completes_regWrite (regWrite_waits hr hst hs hd (not_outranked (.inl hl)) ht) ⟨?_, nowGet_of_quiet ((hq _).mono quiet_records) _⟩
    rw [regRead_reachable (s := s) ha hr (hq _ .lc (by decide)) (hq _ .power (by decide)), readBlock_stored _ _ hm
      ((congrArg (bellReg · _) (hq _ .build (by decide))).trans hb), nowSeen_stored_await (s := answered s) w _ hm hn]
  · rw [regRead_reachable (s := s) (t := s) (p := p) (addr := a) (by omega) (by rwa [h4]) rfl rfl, h4, Nat.sub_zero,
      readBlock_stored s p (stored_of_nowReg ha hact hn) hb, nowSeen_stored_idle (stored_of_nowReg ha hact hn) hw hc]
  · have h4 : flockAddr f 0x2C % 4 = 0 := by unfold flockAddr; omega
    have hlt : flockAddr f 0x2C < 0x15000 := by unfold flockAddr; omega
    rw [regRead_reachable (s := s) (t := s) (by omega) (by simp [reachable, hup, hpor]) rfl rfl, h4, Nat.sub_zero, readBlock_genCtrl s p hf hf']
  · rw [regRead, if_pos]
    rcases h with h | h <;> simp [h]

end Sys2Proof.Machine
end

