-- ==== Sys2Proof/Proofs/RegisterFile.lean ====
section
/-!
PROOF. What each performed write does: event clears, CFG_CTRL, bell-class and stored registers, the words of the mailboxes, the
flocks and the Tally units, and the commands' registers (O32).
-/
namespace Sys2Proof.Machine
open Sys2Proof

theorem completes_performed {c : Instr} {w : Wr} {a : Nat} {v : Word} {ext : List Nat} {eff : State → State} {s t : State} {P : State → Prop}
    (hc : exec c s = .next (regWrite w a v ext eff s)) (hp : Performs w a s) (ht : eff (answered s) = t) (hP : P t) : Completes c s P :=
  ⟨t, hc.trans (congrArg _ ((regWrite_performed hp).trans ht)), hP⟩

/-! ### Event clears -/

theorem eventBlock_eventAddr (b : Block) : eventBlock (eventAddr b) = some b := by cases b <;> rfl

theorem clearWaits_eventAddr (s : State) (b : Block) (v : Word) :
    clearWaits s (eventAddr b) v = decide (fld v 24 8 ≠ (seenOf s b).seq.toNat) := by
  simp only [clearWaits, eventBlock_eventAddr]

theorem seenOf_answered (s : State) (b : Block) : seenOf (answered s) b = seenOf s b := rfl

/-- A clear that carries SEQ clears the bits that were set before the edge, and nothing else of the register (R445). -/
theorem eventOf_clearEvents {b : Block} {v : Word} {s : State} (h : fld v 24 8 = (seenOf s b).seq.toNat) :
    eventOf (clearEvents b v s) b = { eventOf s b with bits := (eventOf s b).bits &&& ~~~(seenOf s b).bits } := by
  simp only [clearEvents, if_pos h, eventOf, tabGet_set_same]

theorem clearEvents_of_ne {b : Block} {v : Word} {s : State} (h : fld v 24 8 ≠ (seenOf s b).seq.toNat) : clearEvents b v s = s := if_neg h

/-! ### CFG_CTRL -/

theorem viewOf_writeCfgCtrl (w : Wr) (v : Word) (s : State) (p : Port) : viewOf (writeCfgCtrl w v s) p =
    if p = w.port ∧ bitAt v 19 = true then bitAt v 3 else viewOf s p := by
  obtain ⟨q, strb, rival⟩ := w
  unfold writeCfgCtrl
  cases q <;> cases p <;> simp [viewOf, deny]
  all_goals split <;> rfl

/-- The CFG_CTRL bits that a port other than board management writes (R443). -/
theorem cfg_writeCfgCtrl {w : Wr} (v : Word) (s : State) (h : w.port ≠ .bm) :
    (writeCfgCtrl w v s).cfg.checkEn = (if bitAt v 16 then bitAt v 0 else s.cfg.checkEn) ∧
    (writeCfgCtrl w v s).cfg.refValid = (if bitAt v 17 then bitAt v 1 else s.cfg.refValid) ∧
    (writeCfgCtrl w v s).cfg.restoreEn = (if bitAt v 18 then bitAt v 2 else s.cfg.restoreEn) ∧
    (writeCfgCtrl w v s).cfg.restoredOnce = (s.cfg.restoredOnce && !(bitAt v 17 && bitAt v 1)) := by
  simp only [writeCfgCtrl, if_neg h, and_self]

/-- Board management writes its VIEW alone, and is denied for the rest (R459). -/
theorem writeCfgCtrl_bm {w : Wr} (v : Word) (s : State) (h : w.port = .bm) :
    (writeCfgCtrl w v s).cfg.checkEn = s.cfg.checkEn ∧ (writeCfgCtrl w v s).cfg.refValid = s.cfg.refValid ∧
    (writeCfgCtrl w v s).cfg.restoreEn = s.cfg.restoreEn ∧
    (bitAt v 16 = true ∨ bitAt v 17 = true ∨ bitAt v 18 = true → Flagged (writeCfgCtrl w v s) .cfg 8) := by
  simp only [writeCfgCtrl, h, if_true]
  refine ⟨?_, ?_, ?_, fun hb => ?_⟩
  · split <;> rfl
  · split <;> rfl
  · split <;> rfl
  · rw [if_pos (by simpa [or_assoc] using hb)]
    exact flagged_raise _ .cfg (by decide)

/-! ### The words of the mailboxes, the flocks and the Tally units -/

theorem actingWrite_mbox {a : Nat} (s : State) (w : Wr) (v : Word) (ha : 0xD000 ≤ a) (hx : a < 0xD300) :
    actingWrite s w a v = some (writeMbox w ((a - 0xD000) / 0x100) (a % 0x100) v) := by
  unfold actingWrite
  iterate 33 rw [if_neg (by grind)]
  rw [if_pos (by grind)]

/-- At an acting register a performed write is the register's own operation. -/
theorem busWrite_acting {s : State} {w : Wr} {addr : Nat} {v : Word} {f : State → State} (h : Performs w (addr - addr % 4) s)
    (he : eventBlock (addr - addr % 4) = none) (hf : actingWrite s w (addr - addr % 4) v = some f) : busWrite w addr v s = f (answered s) := by
  rw [busWrite_performed v h he, writeEffect, actingWrite_answered, hf]

theorem eventBlock_of_ranges {a : Nat} (h : 0xD000 ≤ a ∧ a < 0xD300 ∨ 0x9100 ≤ a ∧ a < 0x9500 ∨ 0x10000 ≤ a ∧ a < 0x15000) :
    eventBlock a = none :=
  eventBlock_none fun b hb => by cases b <;> simp only [eventAddr] at hb <;> omega

section
variable {s : State} {w : Wr} {addr off : Nat} (v : Word) (hp : Performs w (addr - addr % 4) s)
include hp

theorem busWrite_mbox {m : Nat} (hm : m < 3) (ho : off < 0x100) (ha : addr - addr % 4 = mbxAddr m off) :
    busWrite w addr v s = writeMbox w m off v (answered s) := by
  have h : mbxAddr m off = 0xD000 + 0x100 * m + off := rfl
  have hf := actingWrite_mbox s w v (a := mbxAddr m off) (by omega) (by omega)
  rw [show (mbxAddr m off - 0xD000) / 0x100 = m by omega, show mbxAddr m off % 0x100 = off by omega] at hf
  exact busWrite_acting hp (eventBlock_of_ranges (by omega)) (ha ▸ hf)

theorem busWrite_tally {u : Nat} (hu : u < 4) (ho : off < 0x100) (ha : addr - addr % 4 = tallyAddr u off) :
    busWrite w addr v s = writeTallyUnit w u off v (answered s) := by
  have h : tallyAddr u off = 0x9100 + 0x100 * u + off := rfl
  have hf := actingWrite_tallyUnit s w v (a := tallyAddr u off) (by omega) (by omega)
  rw [show (tallyAddr u off - 0x9100) / 0x100 = u by omega, show tallyAddr u off % 0x100 = off by omega] at hf
  exact busWrite_acting hp (eventBlock_of_ranges (by omega)) (ha ▸ hf)

theorem busWrite_flock {f : Nat} (hf : f < 320) (ho : off < 64) (ha : addr - addr % 4 = flockAddr f off) :
    busWrite w addr v s = writeFlockWord f off v (answered s) := by
  have h : flockAddr f off = 0x10000 + 64 * f + off := rfl
  have hw := actingWrite_flock s w v (a := flockAddr f off) (by omega) (by omega)
  rw [show (flockAddr f off - 0x10000) / 64 = f by omega, show flockAddr f off % 64 = off by omega] at hw
  exact busWrite_acting hp (eventBlock_of_ranges (by omega)) (ha ▸ hw)

end

theorem flocks_le {b : Build} (h : b.valid = true) : b.flocks ≤ 320 := by
  simp only [Build.valid, Bool.and_eq_true, decide_eq_true_eq, beq_iff_eq] at h
  have hm : b.logic * (16 + b.tiers) ≤ 4096 * 20 := Nat.mul_le_mul (by omega) (by omega)
  omega

/-- A client's write of a word of an idle mailbox other than the crook's. -/
theorem mbxWrite_idle {w : Wr} {m : Nat} {eff : State → State} {s : State} (hm : m < 2) (hc : mbxClient w.port m = true)
    (hi : (mbox s m).slot = .idle) : mbxWrite w m (whileIdle m eff) s = eff s := by
  have h2 : m ≠ 2 := by omega
  simp [mbxWrite, whileIdle, hc, hi, h2]

theorem writeMbox_cmd {w : Wr} {m : Nat} (v : Word) {s : State} (hm : m < 2) (hc : mbxClient w.port m = true) (hi : (mbox s m).slot = .idle) :
    mbox (writeMbox w m 4 v s) m = { mbox s m with cmd := v &&& 0xFFFF } := by
  simp only [writeMbox, Nat.reduceEqDiff, if_false, if_true, mbxWrite_idle hm hc hi, mbox_setMbox]

theorem writeMbox_arg {w : Wr} {m k : Nat} (v : Word) {s : State} (hk : k < 8) (hm : m < 2) (hc : mbxClient w.port m = true)
    (hi : (mbox s m).slot = .idle) : mbox (writeMbox w m (0x10 + 4 * k) v s) m = { mbox s m with args := tabSet (mbox s m).args k v 0 } := by
  have hd : (0x10 + 4 * k - 0x10) / 4 = k := by omega
  unfold writeMbox
  rw [if_neg (by omega), if_neg (by omega), if_pos (by simp; omega), mbxWrite_idle hm hc hi, mbox_setMbox, hd]

/-- A write of a Tally unit by a port that does not own it leaves records alone (R327, R459). -/
theorem notOwner_records (p : Port) (u : Nat) (s : State) : (notOwner p u s).nowR = s.nowR ∧ (notOwner p u s).tally = s.tally ∧
    Flagged (notOwner p u s) .tally 5 ∧ (p = .bm → Flagged (notOwner p u s) .cfg 8) := by
  have h5 : Flagged (raiseAbout .tally 5 u s) .tally 5 := flagged_raiseAbout s .tally u (by decide)
  unfold notOwner
  by_cases hp : p = .bm
  · simp only [hp, if_true]
    exact ⟨by simp, by simp, flagged_raise_of 8 h5, fun _ => flagged_raise _ .cfg (by decide)⟩
  · simp only [hp, if_false]
    exact ⟨by simp, by simp, h5, False.elim⟩

/-! ### A write at the address of a command's register -/

/-- A write of an acting register over the bus is the register's command, where its word is the whole of what the command carries. -/
theorem busWrite_eq_command {s : State} {w : Wr} {a : Nat} {v : Word} {ext : List Nat} {f : State → State} (h4 : a % 4 = 0)
    (he : eventBlock a = none) (hx : writeExt s w a = ext) (hf : actingWrite s w a v = some f) : busWrite w a v s = regWrite w a v ext f s := by
  have hf' : actingWrite (answered s) w a v = some f := (actingWrite_answered s w a v).trans hf
  simp only [busWrite, h4, Nat.sub_zero, hx]
  rw [regWrite_eq, regWrite_eq]
  simp only [unlessClearWaits, clearWaits, he, writeEffect, hf', Bool.false_eq_true, if_false]

theorem busWrite_eventAddr (w : Wr) (b : Block) (v : Word) (s : State) : busWrite w (eventAddr b) v s =
    regWrite w (eventAddr b) v [] (unlessClearWaits w (eventAddr b) v [] (clearEvents b v)) s := by
  have h : writeEffect w (eventAddr b) v = clearEvents b v := by cases b <;> rfl
  have h4 : eventAddr b - eventAddr b % 4 = eventAddr b := by cases b <;> rfl
  have hx : writeExt s w (eventAddr b) = [] := by cases b <;> rfl
  rw [busWrite]
  simp only [h4, hx, h]

/-- A word that a write leaves alone: above the register blocks, or at an address without a register (R440). -/
theorem writeEffect_absent {s : State} {w : Wr} {a : Nat} {v : Word} (hact : actingWrite s w a v = none) (he : eventBlock a = none)
    (h : 0x15000 ≤ a ∨ bellReg s.build a = none ∧ nowReg s.build s.root.xtalSel.toNat a = none) : writeEffect w a v (answered s) = answered s := by
  simp only [writeEffect, actingWrite_answered, hact, he]
  split
  · rfl
  · obtain ⟨hb, hn⟩ := h.resolve_left ‹_›
    simp [hb, nowPut, hn]

/-- Settles O32: a performed write is its register's own operation, whose effect each lemma above states. -/
theorem registerFile : Obligations.RegisterFile := by
  unfold Obligations.RegisterFile
  refine ⟨fun s w blk v hp hq => ?_, fun s w blk v hp hq => ?_, fun s w v hp hb => ?_, fun s w v hp hb => ?_,
    fun s w addr v m d hp hact he ha hb => ?_, fun s w addr v m d hp hact he ha hb hn => ?_, fun s w addr v hp hact he ha => ?_,
    fun s w addr v m hp ha _ hm hc hi => ?_, fun s w addr v m k hp ha hk hm hc hi => ?_, fun s w addr v f m d hp hv ha hf hb => ?_,
    fun s w addr v u off m d hp ha hu ho hown hn => ?_, fun s w addr v u off hp ha hu ho hown => ?_, fun s w v => ?_⟩
  · have hd : clearWaits (answered s) (eventAddr blk) v = false := by
      rw [clearWaits_eventAddr, seenOf_answered]; simpa using hq
    refine completes_performed rfl hp (if_neg (by simp [hd])) ?_
    rw [eventOf_clearEvents (s := answered s) hq]
    exact ⟨rfl, rfl, rfl⟩
  · have hd : clearWaits (answered s) (eventAddr blk) v = true := by
      rw [clearWaits_eventAddr, seenOf_answered]; simpa using hq
    have hs : snapSet (eventAddr blk) = none := by cases blk <;> rfl
    refine completes_performed rfl hp (if_pos hd) ⟨?_, waiting_await _ _, clearEvents_of_ne hq⟩
    simp [await, snapAsked, hs]
  · obtain ⟨h1, h2, h3, h4⟩ := cfg_writeCfgCtrl v (answered s) hb
    refine completes_performed rfl hp rfl ⟨h1, h2, h3, ?_, fun p hne => ?_, fun ha hb => ?_⟩
    · rw [viewOf_writeCfgCtrl]; simp; rfl
    · rw [viewOf_writeCfgCtrl, if_neg (by simp [hne])]; rfl
    · simp [h4, ha, hb]
  · obtain ⟨h1, h2, h3, h4⟩ := writeCfgCtrl_bm v (answered s) hb
    refine completes_performed rfl hp rfl ⟨h1, h2, h3, ?_, h4⟩
    rw [viewOf_writeCfgCtrl]
    simp [hb]; rfl
  · refine completes_regWrite ((busWrite_performed v hp he).trans (writeEffect_bell ha hact he hb)) ⟨bellW_put v hb, ?_, ?_⟩
    · simp
    · simp
  · refine completes_regWrite ((busWrite_performed v hp he).trans (writeEffect_stored ha hact he hb)) ⟨nowGet_put v (answered s) hn, ?_, ?_⟩
    · simp
    · simp
  · exact completes_regWrite ((busWrite_performed v hp he).trans (writeEffect_absent hact he ha)) ⟨rfl, rfl, rfl, rfl⟩
  · refine completes_regWrite (busWrite_mbox v hp (by omega) (by decide) ha) ?_
    rw [writeMbox_cmd (s := answered s) v hm hc hi]
    exact ⟨rfl, rfl⟩
  · refine completes_regWrite (busWrite_mbox v hp (by omega) (by omega) ha) ?_
    rw [writeMbox_arg (s := answered s) v hk hm hc hi]
    exact ⟨tabGet_set_same .., rfl⟩
  · have heff : writeFlockWord f 0x18 v (answered s) = bellPut (keySpareCfg f) v (answered s) := if_neg (Nat.not_le.mpr hf)
    have hlt := flocks_le hv
    exact completes_regWrite ((busWrite_flock v hp (by omega) (by decide) ha).trans heff) ⟨bellW_put v hb, by simp⟩
  · have heff : writeTallyUnit w u off v (answered s) = nowPut (tallyAddr u off) v (answered s) := by
      rw [writeTallyUnit, if_neg (by omega), if_pos ho]
      exact if_pos hown
    exact completes_regWrite ((busWrite_tally v hp hu (by omega) ha).trans heff) ⟨nowGet_put v (answered s) hn, by simp⟩
  · have heff : writeTallyUnit w u off v (answered s) = notOwner w.port u (answered s) := by
      rw [writeTallyUnit, if_neg (by omega), if_pos ho]
      exact if_neg hown
    exact completes_regWrite ((busWrite_tally v hp hu (by omega) ha).trans heff) (notOwner_records w.port u (answered s))
  · refine ⟨?_, ?_, ?_, ?_, ?_, ?_, ?_, ?_, ?_, ?_, ?_, ?_, ?_, ?_, ?_, ?_, ?_, ?_, ?_, ?_, ?_, ?_, ?_, fun b => ?_⟩
    case refine_24 => 
      have hb : (BitVec.ofNat 20 (eventAddr b)).toNat = eventAddr b := by cases b <;> rfl
      exact congrArg Host.Outcome.next ((congrArg (busWrite w · v s) hb).trans (busWrite_eventAddr w b v s))
    all_goals exact congrArg Host.Outcome.next (busWrite_eq_command rfl rfl rfl rfl)

end Sys2Proof.Machine
end

