-- ==== Sys2Proof/Proofs/Edges.lean ====
section
/-!
PROOF. An edge of the clock: what its counter and its slow clock become, and what its further work leaves alone (R35, R36, R56, R60,
R76).
-/
namespace Sys2Proof.Machine
open Sys2Proof

/-! ### The part of the root that an edge's further work leaves alone -/

/-- What the counter, the mode and the waiting measurements need of the root. -/
def edgeRoot (s : State) : Bool × Nat × Nat × Nat × List (Port × Word) × BitVec 2 :=
  (s.root.bypass, s.root.recV, s.root.bypTarget, s.root.lateEdges, s.root.heldMeas, s.root.xtalSel)

theorem edgeRoot_congr {s t : State} (h : t.root = s.root) : edgeRoot t = edgeRoot s := by
  simp only [edgeRoot, h]

@[simp] theorem edgeRoot_setSyn (y : Syn) (v : Synth) (s : State) : edgeRoot (setSyn y v s) = edgeRoot s := by
  cases y <;> rfl

@[simp] theorem edgeRoot_raise (b : Block) (k : Nat) (s : State) : edgeRoot (raise b k s) = edgeRoot s := edgeRoot_congr (by simp)

@[simp] theorem edgeRoot_startAcquire (y : Syn) (s : State) : edgeRoot (startAcquire y s) = edgeRoot s := by
  simp only [startAcquire]
  split
  · simp
  · split <;> simp

@[simp] theorem edgeRoot_enableSyn (y : Syn) (s : State) : edgeRoot (enableSyn y s) = edgeRoot s := by
  simp only [enableSyn]
  split <;> simp

@[simp] theorem edgeRoot_prefSwitch (s : State) : edgeRoot (prefSwitch s) = edgeRoot s := by
  simp only [prefSwitch, switchTo]
  split
  · simp only [edgeRoot_setSyn]; rfl
  · rfl

@[simp] theorem edgeRoot_sparePower (s : State) : edgeRoot (sparePower s) = edgeRoot s := by
  simp only [sparePower]
  split
  · split <;> simp
  · split
    · rfl
    · exact edgeRoot_setSyn (otherSyn (prefSyn s)) _ s

@[simp] theorem edgeRoot_prefAct (s : State) : edgeRoot (prefAct s) = edgeRoot s := by simp [prefAct]

theorem edgeRoot_pumpOver (y : Syn) (s : State) : edgeRoot (pumpOver y s) = edgeRoot s := by
  simp only [pumpOver]
  split
  · exact (edgeRoot_prefAct _).trans (edgeRoot_setSyn y _ s)
  · simp

theorem edgeRoot_tallyDone (u : Nat) (ev : Bool) (s : State) : edgeRoot (tallyDone u ev s) = edgeRoot s :=
  edgeRoot_congr (((same_tallyDone u ev s (List.Subset.refl _)).mpr SameBut.rfl) .root (by simp [evs]))

theorem edgeRoot_writeResults (u : Nat) (c : Bool) (word : Nat → Word) (s : State) : edgeRoot (writeResults u c word s) = edgeRoot s :=
  edgeRoot_congr (((same_writeResults u c word (List.Subset.refl _)).mpr SameBut.rfl) .root (by decide))

theorem edgeRoot_yieldUnit0 (s : State) : edgeRoot (yieldUnit0 s) = edgeRoot s := by
  simp only [yieldUnit0]
  split
  · exact (edgeRoot_tallyDone 0 false _).trans (edgeRoot_writeResults 0 false (fun _ => resultWord 4 0) s)
  · have hp (c : Bool) (y : Syn) (u : State) : edgeRoot (if c then pumpOver y u else u) = edgeRoot u := by
      split
      · exact edgeRoot_pumpOver y u
      · rfl
    exact (hp _ _ _).trans (hp _ _ _)

theorem edgeRoot_armUnit0 (at' win : Nat) (stops : List Nat) (s : State) : edgeRoot (armUnit0 at' win stops s) = edgeRoot s :=
  edgeRoot_congr (((same_armUnit0 at' win stops (List.Subset.refl _)).mpr SameBut.rfl) .root (by decide))

theorem edgeRoot_keepUnit0 (s : State) : edgeRoot (keepUnit0 s) = edgeRoot s := by
  simp only [keepUnit0]
  repeat' split
  all_goals simp only [edgeRoot_armUnit0, edgeRoot_yieldUnit0]

theorem edgeRoot_pumpStep (s : State) : edgeRoot (pumpStep s) = edgeRoot s := by
  simp only [pumpStep]
  repeat' split
  all_goals rfl

/-! ### What is timed by ticks at an edge -/

/-- The work of an edge after the regions' and a held failover's. -/
def edgeRest (s : State) : State := ledTick (arrivalsOver (keepUnit0 (ppsWatch (ppsFall (coreTick (rotate (pumpStep s)))))))

def restParts : List Part :=
  [.cal, .root, .mus, .shep, .nowRegs, .tally, .lc] ++ evs .root [2, 8] ++ evs .tally [0, 1, 2, 3, 4, 7] ++ evs .mus [10]

theorem same_edgeRest {l : List Part} {s0 s : State} (h : restParts ⊆ l) : SameBut l s0 (edgeRest s) ↔ SameBut l s0 s := by
  simp only [edgeRest]
  rw [same_ledTick (h := List.Subset.trans (by decide) h), same_arrivalsOver (h := List.Subset.trans (by decide) h),
    same_keepUnit0 (h := List.Subset.trans (by decide) h), same_ppsWatch (h := List.Subset.trans (by decide) h),
    same_ppsFall (h := List.Subset.trans (by decide) h), same_coreTick (h := List.Subset.trans (by decide) h),
    same_rotate (h := List.Subset.trans (by decide) h), same_pumpStep (h := List.Subset.trans (by decide) h)]

theorem edgeRoot_edgeRest (s : State) : edgeRoot (edgeRest s) = edgeRoot s := by
  have hl (u : State) : edgeRoot (ledTick u) = edgeRoot u := edgeRoot_congr (((same_ledTick (List.Subset.refl _)).mpr .rfl) .root (by decide))
  have ha (u : State) : edgeRoot (arrivalsOver u) = edgeRoot u := edgeRoot_congr (((same_arrivalsOver (List.Subset.refl _)).mpr .rfl) .root (by decide))
  have hw (u : State) : edgeRoot (ppsWatch u) = edgeRoot u := edgeRoot_congr (((same_ppsWatch (List.Subset.refl _)).mpr .rfl) .root (by decide))
  have hf (u : State) : edgeRoot (ppsFall u) = edgeRoot u := edgeRoot_congr (((same_ppsFall (List.Subset.refl _)).mpr .rfl) .root (by decide))
  have hr (u : State) : edgeRoot (rotate u) = edgeRoot u := edgeRoot_congr (((same_rotate (List.Subset.refl _)).mpr .rfl) .root (by decide))
  have hc (u : State) : edgeRoot (coreTick u) = edgeRoot u := rfl
  simp only [edgeRest, hl, ha, hw, hf, hr, hc, edgeRoot_keepUnit0, edgeRoot_pumpStep]

/-- The loads of the counter that were asked for (R387, R391). -/
def asked (s : State) : Option (Nat × Nat) × Option Int := (s.mus.todLoad, s.mus.joinTicks)

theorem asked_rotate (s : State) : asked (rotate s) = asked s := by
  simp only [rotate, turnRotor]
  repeat' split
  all_goals rfl

theorem asked_ppsFall (s : State) : asked (ppsFall s) = asked s := by
  simp only [ppsFall]
  repeat' split
  all_goals rfl

theorem lcHeld_ledTick (s : State) : (ledTick s).lc.held = s.lc.held := by
  simp only [ledTick]
  split <;> rfl

theorem asked_congr {s t : State} (h : t.mus = s.mus) : asked t = asked s := by simp only [asked, h]

theorem asked_edgeRest (s : State) : asked (edgeRest s) = asked s := by
  have hl (u : State) : asked (ledTick u) = asked u := asked_congr (((same_ledTick (List.Subset.refl _)).mpr .rfl) .mus (by decide))
  have ha (u : State) : asked (arrivalsOver u) = asked u := asked_congr (((same_arrivalsOver (List.Subset.refl _)).mpr .rfl) .mus (by decide))
  have hk (u : State) : asked (keepUnit0 u) = asked u := asked_congr (((same_keepUnit0 (List.Subset.refl _)).mpr .rfl) .mus (by decide))
  have hw (u : State) : asked (ppsWatch u) = asked u := asked_congr (((same_ppsWatch (List.Subset.refl _)).mpr .rfl) .mus (by decide))
  have hp (u : State) : asked (pumpStep u) = asked u := asked_congr (((same_pumpStep (List.Subset.refl _)).mpr .rfl) .mus (by decide))
  have hc (u : State) : asked (coreTick u) = asked u := rfl
  simp only [edgeRest, hl, ha, hk, hw, hp, hc, asked_rotate, asked_ppsFall]

theorem lcHeld_edgeRest (s : State) : (edgeRest s).lc.held = s.lc.held := by
  have h : SameBut [.cal, .root, .mus, .shep, .nowRegs, .tally, .eventReg .root, .event .root 2, .event .root 8, .eventReg .tally,
      .event .tally 0, .event .tally 1, .event .tally 2, .event .tally 3, .event .tally 4, .event .tally 7, .eventReg .mus, .event .mus 10] s
      (arrivalsOver (keepUnit0 (ppsWatch (ppsFall (coreTick (rotate (pumpStep s))))))) := by
    rw [same_arrivalsOver (h := by decide), same_keepUnit0 (h := by decide), same_ppsWatch (h := by decide), same_ppsFall (h := by decide),
      same_coreTick (h := by decide), same_rotate (h := by decide), same_pumpStep (h := by decide)]
    exact .rfl
  exact (lcHeld_ledTick _).trans (congrArg LcSt.held (h .lc (by decide)))

/-! ### A slow-clock edge without a waiting write -/

theorem takeCaptures_nil {s : State} (h : s.out.captures = []) : takeCaptures s = { s with out := { s.out with captures := [] } } := by
  simp [takeCaptures, h]

theorem performWaiting_nil {s : State} (h : s.out.waiting = []) :
    performWaiting s = { s with out := { s.out with waiting := [], captures := s.out.captures ++ [], took := false } } := by
  simp [performWaiting, waitMarks, h, markStalled, sortWaiting, edgeOrder, raiseIf]

theorem same_performAll_nil {l : List Part} {s0 s : State} (h : s.out.waiting = []) (hq : asked s = (none, none)) (hl : [.answers, .mus] ⊆ l) :
    SameBut l s0 (performAll s) ↔ SameBut l s0 s := by
  have ha : Part.answers ∈ l := hl (by decide)
  have hm : Part.mus ∈ l := hl (by decide)
  obtain ⟨h1, h2⟩ := Prod.mk.inj hq
  simp only [performAll, performWaiting_nil h, requestedLoad, h1, h2]
  simp only [↓same_ite, ↓same_record, ha, hm, or_true, true_or, and_self, ite_self]

theorem same_slowWork_nil {l : List Part} {s0 s : State} (seen : Tab EventReg) (h : s.out.waiting = []) (hq : asked s = (none, none))
    (hl : [.answers, .lc, .mus, .tally] ⊆ l) : SameBut l s0 (slowWork seen s) ↔ SameBut l s0 s := by
  have hi (u : State) : (islandCopies u).out = u.out ∧ asked (islandCopies u) = asked u := ⟨rfl, rfl⟩
  have hs (sc : List Word) : SameBut l s0 { s with out := { s.out with sc := sc, seen := seen } } ↔ SameBut l s0 s := by
    simp only [↓same_record, hl List.mem_cons_self, or_true, true_or, and_self]
  rw [slowWork, same_evalClaims (h := List.Subset.trans (by decide) hl)]
  generalize hu : ({ s with out := { s.out with sc := scWords s, seen := seen } } : State) = u
  rw [same_performAll_nil (by rw [(hi u).1, ← hu]; exact h) (by rw [(hi u).2, ← hu]; exact hq) (List.Subset.trans (by decide) hl),
    same_islandCopies (h := List.Subset.trans (by decide) hl), ← hu]
  exact hs _

theorem same_slowEdge_nil {l : List Part} {s0 s : State} (before : State) (h : s.out.waiting = []) (hq : asked s = (none, none))
    (hl : [.answers, .lc, .mus, .tally] ⊆ l) : SameBut l s0 (slowEdge before s) ↔ SameBut l s0 s := by
  unfold slowEdge
  split
  · exact same_slowWork_nil _ h hq hl
  · exact .rfl

/-! ### The counter and the slow clock at an edge -/

theorem time_countEdge (s : State) : (countEdge s).time = noteEdge (slowCount (slowTicks s) (frameStep s.root.bypass
    { s.time with counter := nextCounter s % 2 ^ 64, total := s.time.total + (nextCounter s - s.time.counter),
                  inc := nextCounter s - s.time.counter })) := by
  simp only [countEdge]
  repeat' split
  all_goals rfl

theorem frameStep_clock (b : Bool) (t : TimeSt) : (frameStep b t).counter = t.counter ∧ (frameStep b t).total = t.total ∧
    (frameStep b t).slow = t.slow ∧ (frameStep b t).slowEdges = t.slowEdges := by
  unfold frameStep
  split <;> exact ⟨rfl, rfl, rfl, rfl⟩

/-- The counter, the ticks since reset and the slow clock after an edge (R35, R56, R76). -/
theorem clock_countEdge (s : State) : (countEdge s).time.counter = nextCounter s % 2 ^ 64 ∧
    (countEdge s).time.total = s.time.total + (nextCounter s - s.time.counter) ∧
    (countEdge s).time.slow = (s.time.slow + slowTicks s) % 40 ∧
    (countEdge s).time.slowEdges = s.time.slowEdges + (s.time.slow + slowTicks s) / 40 := by
  obtain ⟨h1, h2, h3, h4⟩ := frameStep_clock s.root.bypass
    { s.time with counter := nextCounter s % 2 ^ 64, total := s.time.total + (nextCounter s - s.time.counter),
                  inc := nextCounter s - s.time.counter }
  rw [time_countEdge]
  refine ⟨h1, h2, ?_, ?_⟩
  · simp only [noteEdge, slowCount, h3]
  · simp only [noteEdge, slowCount, h3, h4]

/-- The root at an edge that finds the time as given: a bypass edge moves V, and a tick edge that falls on one records it (R36, R56,
R63). -/
def rootAtEdge (t : TimeSt) (s : State) : RootSt :=
  let r := { s.root with lateEdges := 0 }
  if t.slow % 5 = 0 && !s.root.missing then
    let r := { r with goodEdges := min 65536 (s.root.goodEdges + 1) }
    if s.root.bypass then { r with bypTarget := s.root.bypTarget + 5 }
    else if (synOf s s.root.active).locked then { r with recV := t.counter }
    else r
  else r

theorem root_countEdge (s : State) : (countEdge s).root = rootAtEdge (countEdge s).time s := by
  have hy (u : State) (y : Syn) (r : RootSt) (h : r.s0 = u.root.s0 ∧ r.s1 = u.root.s1) (t : TimeSt) :
      synOf { u with root := r, time := t } y = synOf u y := by
    obtain ⟨h0, h1⟩ := h
    cases y
    · exact h0
    · exact h1
  rw [time_countEdge]
  simp only [countEdge, rootAtEdge]
  generalize noteEdge _ = t
  rw [hy s s.root.active { s.root with lateEdges := 0, goodEdges := min 65536 (s.root.goodEdges + 1) } ⟨rfl, rfl⟩ t]
  repeat' split
  all_goals rfl

theorem rootAtEdge_keeps (t : TimeSt) (s : State) : (rootAtEdge t s).bypass = s.root.bypass ∧ (rootAtEdge t s).missing = s.root.missing ∧
    (rootAtEdge t s).lateEdges = 0 ∧ (rootAtEdge t s).heldMeas = s.root.heldMeas ∧ (rootAtEdge t s).xtalSel = s.root.xtalSel := by
  simp only [rootAtEdge]
  repeat' split
  all_goals exact ⟨rfl, rfl, rfl, rfl, rfl⟩

theorem bypTarget_countEdge {s : State} (hb : s.root.bypass = true) (hm : s.root.missing = false) :
    (countEdge s).root.bypTarget = s.root.bypTarget + 5 := by
  have hs : (countEdge s).time.slow % 5 = 0 := by
    rw [(clock_countEdge s).2.2.1, slowTicks, if_pos hb]
    omega
  rw [root_countEdge]
  simp [rootAtEdge, hs, hm, hb]

theorem recV_countEdge {s : State} (hb : s.root.bypass = false) (hm : s.root.missing = false) (hl : (synOf s s.root.active).locked = true)
    (h5 : (s.time.slow + 1) % 5 = 0) : (countEdge s).root.recV = (countEdge s).time.counter := by
  have hs : (countEdge s).time.slow % 5 = 0 := by
    rw [(clock_countEdge s).2.2.1, slowTicks, hb, if_neg (by decide)]
    omega
  rw [root_countEdge]
  simp [rootAtEdge, hs, hm, hb, hl]

theorem edgeRoot_bypassEntered (s : State) : edgeRoot (bypassEntered s) =
    (true, s.root.recV, s.root.bypTarget, s.root.lateEdges, s.root.heldMeas, s.root.xtalSel) := by
  simp only [bypassEntered, edgeRoot_raise, edgeRoot_sparePower]
  rfl

theorem forceEdge_keeps (s : State) : (forceEdge s).root.recV = s.root.recV ∧ (forceEdge s).root.heldMeas = s.root.heldMeas ∧
    (forceEdge s).root.xtalSel = s.root.xtalSel ∧ (s.root.bypass = true → forceEdge s = s) := by
  unfold forceEdge
  split
  · next h =>
    have hr := edgeRoot_bypassEntered { s with root := { s.root with bypTarget := s.time.counter, lateEdges := 0 } }
    simp only [edgeRoot, Prod.mk.injEq] at hr
    obtain ⟨-, h1, -, -, h2, h3⟩ := hr
    exact ⟨h1, h2, h3, fun hb => by simp [hb] at h⟩
  · exact ⟨rfl, rfl, rfl, fun _ => rfl⟩

/-- Bypass is entered at a bypass edge that finds BYPASS_FORCE 1 (R60; log 55). -/
theorem forceEdge_enters {s : State} (hf : bypassForce s = true) (hb : s.root.bypass = false) (hm : s.root.missing = false)
    (h5 : s.time.slow % 5 = 0) : (forceEdge s).root.bypass = true ∧ (forceEdge s).root.bypTarget = s.time.counter ∧
    Flagged (forceEdge s) .root 3 := by
  have hr := edgeRoot_bypassEntered { s with root := { s.root with bypTarget := s.time.counter, lateEdges := 0 } }
  simp only [edgeRoot, Prod.mk.injEq] at hr
  obtain ⟨h1, -, h2, -⟩ := hr
  rw [forceEdge, if_pos (by simp [hf, hb, hm, h5])]
  exact ⟨h1, h2, flagged_raise _ .root (by decide)⟩

/-! ### An edge before its slow-clock edge -/

/-- The regions' work of an edge, and a forced failover that was held to it. -/
def regionsEdge (phases : List (Nat × Nat)) (s : State) : State := crkHeld (regionsTick phases s.time.inc s)

/-- An edge's work before the captures and the slow-clock edge. -/
def midEdge (phases : List (Nat × Nat)) (s : State) : State := edgeRest (regionsEdge phases (forceEdge (countEdge s)))

theorem deliverEdge_eq (phases : List (Nat × Nat)) (s : State) : deliverEdge phases s = slowEdge s (takeCaptures (midEdge phases s)) := rfl

def regionsEdgeParts : List Part :=
  [.crook, .flocks, .fold, .foTotal, .gens, .regions] ++ evs .cal [7] ++ evs .flock [0, 2, 3, 4, 9, 10] ++ evs .rcg [0, 1, 2, 3]

theorem same_regionsEdge {l : List Part} {s0 s : State} (phases : List (Nat × Nat)) (h : regionsEdgeParts ⊆ l) :
    SameBut l s0 (regionsEdge phases s) ↔ SameBut l s0 s := by
  rw [regionsEdge, same_crkHeld (h := List.Subset.trans (by decide) h), same_regionsTick (h := List.Subset.trans (by decide) h)]

theorem same_regionsEdge_self (phases : List (Nat × Nat)) (s : State) : SameBut regionsEdgeParts s (regionsEdge phases s) :=
  (same_regionsEdge phases (List.Subset.refl _)).mpr .rfl

theorem same_edgeRest_self (s : State) : SameBut restParts s (edgeRest s) := (same_edgeRest (List.Subset.refl _)).mpr .rfl

section
variable (phases : List (Nat × Nat)) (s : State)

/-- What an edge changes before its slow-clock edge, its counter and its slow clock apart. -/
theorem same_midEdge : SameBut (.time :: restParts ++ regionsEdgeParts ++ evs .root [3]) s (midEdge phases s) := by
  rw [midEdge, same_edgeRest (h := by decide), same_regionsEdge (h := by decide), same_forceEdge (h := by decide), same_countEdge (h := by decide)]
  exact .rfl

theorem time_midEdge : (midEdge phases s).time = (countEdge s).time := by
  have h : SameBut (restParts ++ regionsEdgeParts ++ evs .root [3]) (countEdge s) (midEdge phases s) := by
    rw [midEdge, same_edgeRest (h := by decide), same_regionsEdge (h := by decide), same_forceEdge (h := by decide)]
    exact .rfl
  exact h .time (by decide)

theorem edgeRoot_midEdge : edgeRoot (midEdge phases s) = edgeRoot (forceEdge (countEdge s)) :=
  (edgeRoot_edgeRest _).trans (edgeRoot_congr (same_regionsEdge_self phases _ .root (by decide)))

theorem asked_midEdge : asked (midEdge phases s) = asked s := by
  have h : SameBut (.time :: .root :: regionsEdgeParts ++ evs .root [3, 8]) s (regionsEdge phases (forceEdge (countEdge s))) := by
    rw [same_regionsEdge (h := by decide), same_forceEdge (h := by decide), same_countEdge (h := by decide)]
    exact .rfl
  exact (asked_edgeRest _).trans (asked_congr (h .mus (by decide)))

theorem stalledPorts_midEdge : stalledPorts (midEdge phases s) = stalledPorts s := by
  have h : SameBut (.time :: .root :: regionsEdgeParts ++ evs .root [3, 8]) s (regionsEdge phases (forceEdge (countEdge s))) := by
    rw [same_regionsEdge (h := by decide), same_forceEdge (h := by decide), same_countEdge (h := by decide)]
    exact .rfl
  have hl : (midEdge phases s).lc.held = s.lc.held := (lcHeld_edgeRest _).trans (congrArg LcSt.held (h .lc (by decide)))
  have hr := edgeRoot_midEdge phases s
  simp only [edgeRoot, Prod.mk.injEq] at hr
  have hm : (midEdge phases s).root.heldMeas = s.root.heldMeas := by
    rw [hr.2.2.2.2.1, (forceEdge_keeps _).2.1, root_countEdge, (rootAtEdge_keeps _ _).2.2.2.1]
  rw [stalledPorts, stalledPorts, hl, hm]

theorem xtalSel_midEdge : (midEdge phases s).root.xtalSel = s.root.xtalSel := by
  have hr := edgeRoot_midEdge phases s
  simp only [edgeRoot, Prod.mk.injEq] at hr
  rw [hr.2.2.2.2.2, (forceEdge_keeps _).2.2.1, root_countEdge, (rootAtEdge_keeps _ _).2.2.2.2]

variable {s} (hw : s.out.waiting = []) (hc : s.out.captures = []) (hq : asked s = (none, none))
include hw hc hq

/-- An edge without a waiting write, a capture or a load leaves what it did before its slow-clock edge. -/
theorem same_deliverEdge_quiet : SameBut [.answers, .lc, .mus, .tally] (midEdge phases s) (deliverEdge phases s) := by
  have ho : (midEdge phases s).out = s.out := same_midEdge phases s .answers (by decide)
  rw [deliverEdge_eq, takeCaptures_nil (by rw [ho, hc]),
    same_slowEdge_nil s (by rw [ho]; exact hw) (asked_midEdge phases s ▸ hq) (List.Subset.refl _)]
  simp only [↓same_record, SameBut.rfl, List.mem_cons, true_or, or_true, and_self]

end

/-! ### The edges of each mode -/

section
variable {s : State} (phases : List (Nat × Nat)) (hpor : s.lc.por = false) (hheld : s.time.held = false)
include hpor hheld

theorem exec_tick (hb : s.root.bypass = false) : exec (.tickEdge false phases) s = .next (deliverEdge phases s) := by
  change execTickEdge false phases s = _
  simp [execTickEdge, hpor, hheld, hb]

theorem exec_bypassEdge (hb : s.root.bypass = true) (hm : s.root.missing = false) (hr : s.root.refOk = true) :
    exec (.tickEdge true phases) s = .next (deliverEdge phases s) := by
  change execTickEdge true phases s = _
  simp [execTickEdge, hpor, hheld, hb, hm, hr]

end

/-- An edge without a clock for the counter, or in power-on reset, does nothing. -/
theorem exec_tickEdge_none {s : State} {b : Bool} (phases : List (Nat × Nat)) (h : s.lc.por = true ∨
    ((b = false ∨ s.root.refOk = true ∨ (s.root.bypass = false ∧ s.root.refLost = false)) ∧
     (s.time.held = true ∨ b ≠ s.root.bypass ∨ (s.root.bypass = true ∧ s.root.missing = true)))) :
    exec (.tickEdge b phases) s = .next s := by
  change execTickEdge b phases s = _
  unfold execTickEdge
  by_cases hp : s.lc.por = true
  · rw [if_pos hp]
  · obtain ⟨h1, h2⟩ := h.resolve_left hp
    have hc : (b && !s.root.refOk && (s.root.bypass || s.root.refLost)) = false := by
      rcases h1 with h | h | ⟨h, h'⟩ <;> simp [*]
    have hd : (s.time.held || decide (b ≠ s.root.bypass) || (s.root.bypass && s.root.missing)) = true := by
      rcases h2 with h | h | ⟨h, h'⟩ <;> simp [*]
    rw [if_neg hp, if_neg (by simp [hc]), if_pos hd]

theorem performAll_unqualified {s : State} (hr : s.root.refOk = false) (hb : s.root.bypass = true) (h : s.out.waiting = []) :
    performAll s = { s with out := { s.out with waiting := [], captures := s.out.captures ++ [], took := false } } := by
  simp [performAll, performWaiting_nil h, edgesRun, hr, hb]

theorem same_slowEdge_unqualified {s : State} (before : State) (hr : s.root.refOk = false) (hb : s.root.bypass = true) (h : s.out.waiting = []) :
    SameBut [.answers, .lc, .tally] s (slowEdge before s) := by
  have hi (u : State) : (islandCopies u).out = u.out ∧ (islandCopies u).root = u.root := ⟨rfl, rfl⟩
  unfold slowEdge
  split
  · rw [slowWork, same_evalClaims (h := by decide)]
    generalize hu : ({ s with out := { s.out with sc := scWords s, seen := before.events } } : State) = u
    have hsu : SameBut [.answers, .lc, .tally] s u := by rw [← hu]; simp [same_record, SameBut.rfl]
    have hur : u.root = s.root := hsu .root (by decide)
    rw [performAll_unqualified (by rw [(hi u).2, hur, hr]) (by rw [(hi u).2, hur, hb]) (by rw [(hi u).1, ← hu]; exact h)]
    simp only [↓same_record, same_islandCopies (l := [.answers, .lc, .tally]) (s := u) (h := by decide), hsu, List.mem_cons, true_or, or_true, and_self]
  · exact .rfl

/-- A crystal edge before its qualification without a waiting write (R35, R36). -/
theorem crystalEdge_quiet {s : State} (hw : s.out.waiting = []) (hr : s.root.refOk = false) (hb : s.root.bypass = true ∨ s.root.refLost = true) :
    (crystalEdge s).root.goodEdges = min 65536 (s.root.goodEdges + 1) ∧ (crystalEdge s).time.counter = s.time.counter ∧
    (crystalEdge s).time.total = s.time.total ∧
    (crystalEdge s).time.slow = if s.root.refLost = true then s.time.slow else (s.time.slow + 5) % 40 := by
  simp only [crystalEdge]
  by_cases hl : s.root.refLost = true
  · simp [hl]
  · rw [if_neg hl]
    have h := same_slowEdge_unqualified (s := { s with root := { s.root with goodEdges := min 65536 (s.root.goodEdges + 1) }, time := slowCount 5 s.time })
      s hr (hb.resolve_right hl) hw
    rw [h .root (by decide), h .time (by decide)]
    simp [slowCount, hl]

/-! ### The fields that an edge without a waiting write leaves -/

section
variable {s : State} (phases : List (Nat × Nat)) (hw : s.out.waiting = []) (hc : s.out.captures = []) (hq : asked s = (none, none))
include hw hc hq

theorem time_deliverEdge : (deliverEdge phases s).time = (countEdge s).time :=
  (same_deliverEdge_quiet phases hw hc hq .time (by decide)).trans (time_midEdge phases s)

theorem edgeRoot_deliverEdge : edgeRoot (deliverEdge phases s) = edgeRoot (forceEdge (countEdge s)) :=
  (edgeRoot_congr (same_deliverEdge_quiet phases hw hc hq .root (by decide))).trans (edgeRoot_midEdge phases s)

theorem flagged_deliverEdge (h : Flagged (forceEdge (countEdge s)) .root 3) : Flagged (deliverEdge phases s) .root 3 := by
  have hm : SameBut (restParts ++ regionsEdgeParts) (forceEdge (countEdge s)) (midEdge phases s) := by
    rw [midEdge, same_edgeRest (h := by decide), same_regionsEdge (h := by decide)]
    exact .rfl
  exact (same_deliverEdge_quiet phases hw hc hq (.event .root 3) (by decide)).trans ((hm (.event .root 3) (by decide)).trans h)

/-- The clock after a tick edge (R35, R76). -/
theorem clock_tick (hb : s.root.bypass = false) : (deliverEdge phases s).time.counter = (s.time.counter + 1) % 2 ^ 64 ∧
    (deliverEdge phases s).time.total = s.time.total + (s.time.counter + 1 - s.time.counter) ∧
    (deliverEdge phases s).time.slow = (s.time.slow + 1) % 40 ∧
    (deliverEdge phases s).time.slowEdges = s.time.slowEdges + (s.time.slow + 1) / 40 := by
  have h := clock_countEdge s
  simp only [nextCounter, slowTicks, hb, Bool.false_eq_true, if_false] at h
  rwa [time_deliverEdge phases hw hc hq]

theorem recV_tick (hb : s.root.bypass = false) (hm : s.root.missing = false) (hl : (synOf s s.root.active).locked = true)
    (h5 : (s.time.slow + 1) % 5 = 0) : (deliverEdge phases s).root.recV = (deliverEdge phases s).time.counter := by
  have hr := edgeRoot_deliverEdge phases hw hc hq
  simp only [edgeRoot, Prod.mk.injEq] at hr
  rw [hr.2.1, (forceEdge_keeps _).1, recV_countEdge hb hm hl h5, time_deliverEdge phases hw hc hq]

/-- The tick edge on a bypass edge that finds BYPASS_FORCE 1 (R60). -/
theorem forced_tick (hb : s.root.bypass = false) (hf : bypassForce s = true) (hm : s.root.missing = false) (h5 : (s.time.slow + 1) % 5 = 0) :
    (deliverEdge phases s).root.bypass = true ∧ (deliverEdge phases s).root.bypTarget = (deliverEdge phases s).time.counter ∧
    Flagged (deliverEdge phases s) .root 3 := by
  have hk := rootAtEdge_keeps (countEdge s).time s
  rw [← root_countEdge] at hk
  obtain ⟨kb, km, -, -, kx⟩ := hk
  have hn : bypassForce (countEdge s) = true := by
    have h : SameBut [.root, .time] s (countEdge s) := (same_countEdge (List.Subset.refl _)).mpr .rfl
    rw [bypassForce, nowGet_congr (h .nowRegs (by decide)) (h .build (by decide)) kx]
    exact hf
  have hs : (countEdge s).time.slow % 5 = 0 := by
    rw [(clock_countEdge s).2.2.1, slowTicks, hb, if_neg (by decide)]
    omega
  obtain ⟨h1, h2, h3⟩ := forceEdge_enters hn (kb.trans hb) (km.trans hm) hs
  have hr := edgeRoot_deliverEdge phases hw hc hq
  simp only [edgeRoot, Prod.mk.injEq] at hr
  exact ⟨hr.1.trans h1, by rw [hr.2.2.1, h2, time_deliverEdge phases hw hc hq], flagged_deliverEdge phases hw hc hq h3⟩

/-- A bypass edge (R35, R56). -/
theorem clock_bypassEdge (hb : s.root.bypass = true) (hm : s.root.missing = false) :
    (deliverEdge phases s).time.counter = max s.time.counter (s.root.bypTarget + 5) % 2 ^ 64 ∧
    (deliverEdge phases s).root.bypTarget = s.root.bypTarget + 5 ∧
    (deliverEdge phases s).time.slow = (s.time.slow + (5 - s.time.slow % 5 + 5 * s.root.lateEdges)) % 40 ∧
    (deliverEdge phases s).root.lateEdges = 0 ∧
    (deliverEdge phases s).time.total = s.time.total + (max s.time.counter (s.root.bypTarget + 5) - s.time.counter) := by
  obtain ⟨h1, h2, h3, -⟩ := clock_countEdge s
  simp only [nextCounter, slowTicks, hb, if_true] at h1 h2 h3
  have hk := rootAtEdge_keeps (countEdge s).time s
  rw [← root_countEdge] at hk
  have hr := edgeRoot_deliverEdge phases hw hc hq
  rw [(forceEdge_keeps _).2.2.2 (hk.1.trans hb)] at hr
  simp only [edgeRoot, Prod.mk.injEq] at hr
  rw [time_deliverEdge phases hw hc hq]
  exact ⟨h1, hr.2.2.1.trans (bypTarget_countEdge hb hm), h3, hr.2.2.2.1.trans hk.2.2.1, h2⟩

end

end Sys2Proof.Machine
end

