-- ==== Sys2Proof/Proofs/SlowClockEdges.lean ====
section
/-!
PROOF. A slow-clock edge with one waiting write, which it performs, or leaves behind a withheld one (R15, R442).
-/
namespace Sys2Proof.Machine
open Sys2Proof

/-! ### A slow-clock edge with one waiting write -/

theorem performWaiting_stalled {u : State} {e : WaitWr} (h : u.out.waiting = [e]) (hs : (stalledPorts u).contains e.w.port = true) :
    performWaiting u = { u with out := { u.out with waiting := [e], captures := u.out.captures ++ [], took := false } } := by
  simp only [performWaiting, waitMarks, h, markStalled, hs]
  rfl

theorem stored_plain {a : Nat} (h : a ∈ storedRegs) : a ≠ 0x10 ∧ a ≠ 0xE004 ∧ a ≠ 0x9000 ∧ a ≠ 0x400C ∧ a ≠ 0x2034 ∧ edgeBound a = false ∧
    (decide (0x9100 ≤ a) && decide (a < 0x9500)) = false := by
  revert a
  decide

theorem not_outranked_alone (e : WaitWr) : outranked [e] e = false := by
  simp [outranked, outranks]

theorem edgeOrder_stored {e : WaitWr} (he : e.addr ∈ storedRegs) : edgeOrder [e] = [e] := by
  obtain ⟨h1, h2, -, -, -, -, ht⟩ := stored_plain he
  have ha : isAbort e = false := by simp only [isAbort, ht, Bool.false_and]
  have hc : isBmCrook e = false := by simp [isBmCrook, h2]
  simp [edgeOrder, ha, hc, h1]

/-- A lone waiting write that nothing stalls is performed as it stands. -/
theorem performWaiting_single {u : State} {e : WaitWr} (h : u.out.waiting = [e]) (hs : (stalledPorts u).contains e.w.port = false)
    (he : e.addr ∈ storedRegs) : performWaiting u =
    waitEffect (withRival [e] e) { u with out := { u.out with waiting := [], captures := u.out.captures ++ [], took := true } } := by
  obtain ⟨h1, h2, -, -, -, hb, ht⟩ := stored_plain he
  have hm : waitMarks u = [(e, false)] := by simp [waitMarks, h, markStalled, withheld, h2, hs, -List.contains_eq_mem]
  simp [performWaiting, hm, sortWaiting, not_outranked_alone, hb, edgeOrder_stored he, raiseIf]

theorem actingWrite_stored {a : Nat} (s : State) (w : Wr) (v : Word) (h : a ∈ storedRegs) : actingWrite s w a v = none := by
  simp only [storedRegs, List.mem_cons, List.not_mem_nil, or_false] at h
  repeat' rcases h with h | h
  all_goals rfl

theorem stored_lt {a : Nat} (h : a ∈ storedRegs) : a < 0x15000 := by
  revert a
  decide

theorem writeDenied_low {a : Nat} (s t : State) (p : Port) (ha : a < 0x15000) : writeDenied t p a = writeDenied s p a := by
  have h : ¬0x80000 ≤ a := by omega
  simp [writeDenied, vendorClosed, h]

/-- A waiting write of a register that only stores a word stores it. -/
theorem waitEffect_stored {u s : State} {e : WaitWr} (he : e.addr ∈ storedRegs) (hs : e.w.strb = 15)
    (hd : writeDenied s e.w.port e.addr = false) (hb : bellReg u.build e.addr = none) : waitEffect e u = nowPut e.addr e.word u := by
  obtain ⟨-, -, h9, h4, h2, -, ht⟩ := stored_plain he
  have hlt := stored_lt he
  have hw : writeEffect e.w e.addr e.word u = nowPut e.addr e.word u := by
    simp [writeEffect, actingWrite_stored u _ _ he, eventBlock_stored he, hb, Nat.not_le.mpr hlt]
  simp [waitEffect, hs, writeDenied_low s u e.w.port hlt, hd, waitMeaning, ht, h9, h4, h2, hw]

/-! ### The loads that follow the waiting writes -/

/-- What the loads of an edge change. -/
def loadParts : List Part := [.fold, .lc, .mus, .regions, .root, .time] ++ evs .bell [0, 1] ++ evs .fold [5]

theorem same_performAll_loads (u : State) : SameBut loadParts (performWaiting u) (performAll u) := by
  simp only [performAll]
  repeat' split
  · exact .rfl
  · simp [same_record, loadParts, SameBut.rfl]
  · exact (same_requestedLoad (List.Subset.refl _)).mpr .rfl

theorem xtalSel_requestedLoad (s : State) : (requestedLoad s).root.xtalSel = s.root.xtalSel := by
  simp only [requestedLoad, loadCounter, resumeOpen]
  repeat' split
  all_goals simp

theorem xtalSel_performAll (u : State) : (performAll u).root.xtalSel = (performWaiting u).root.xtalSel := by
  simp only [performAll]
  repeat' split
  · rfl
  · rfl
  · exact xtalSel_requestedLoad _

theorem same_performAll_unasked {u : State} (hq : asked (performWaiting u) = (none, none)) :
    SameBut [.mus] (performWaiting u) (performAll u) := by
  obtain ⟨h1, h2⟩ := Prod.mk.inj hq
  simp only [performAll, requestedLoad, h1, h2]
  repeat' split
  · exact .rfl
  · simp [same_record, SameBut.rfl]
  · exact .rfl

theorem slowWork_eq (seen : Tab EventReg) (m : State) : ∃ u, slowWork seen m = evalClaims (performAll u) ∧ u.out.waiting = m.out.waiting ∧
    stalledPorts u = stalledPorts m ∧ asked u = asked m ∧ u.time = m.time ∧ u.build = m.build ∧ u.root = m.root :=
  ⟨_, rfl, rfl, rfl, rfl, rfl, rfl, rfl⟩

theorem takeCaptures_keeps {m : State} (h : m.out.captures = []) : (takeCaptures m).out.waiting = m.out.waiting ∧
    stalledPorts (takeCaptures m) = stalledPorts m ∧ asked (takeCaptures m) = asked m ∧ (takeCaptures m).time = m.time ∧
    (takeCaptures m).build = m.build ∧ (takeCaptures m).root = m.root := by
  rw [takeCaptures_nil h]
  exact ⟨rfl, rfl, rfl, rfl, rfl, rfl⟩

/-- The state in which a tick edge's slow-clock edge performs the waiting writes. -/
theorem deliverEdge_slow {s : State} (phases : List (Nat × Nat)) (hb : s.root.bypass = false) (hslow : 39 ≤ s.time.slow) (hc : s.out.captures = []) :
    ∃ u, deliverEdge phases s = evalClaims (performAll u) ∧ u.out.waiting = s.out.waiting ∧ stalledPorts u = stalledPorts s ∧
      asked u = asked s ∧ u.time = (countEdge s).time ∧ u.build = s.build ∧ u.root.xtalSel = s.root.xtalSel := by
  have ho : (midEdge phases s).out = s.out := same_midEdge phases s .answers (by decide)
  have hbd : (midEdge phases s).build = s.build := same_midEdge phases s .build (by decide)
  obtain ⟨m1, m2, m3, m4, m5, m6⟩ := takeCaptures_keeps (m := midEdge phases s) (by rw [ho, hc])
  obtain ⟨u, h, u1, u2, u3, u4, u5, u6⟩ := slowWork_eq s.events (takeCaptures (midEdge phases s))
  have ht := time_midEdge phases s
  have hlt : s.time.slowEdges < (takeCaptures (midEdge phases s)).time.slowEdges := by
    rw [m4, ht, (clock_countEdge s).2.2.2, slowTicks, hb, if_neg (by decide)]
    omega
  refine ⟨u, ?_, u1.trans (m1.trans (by rw [ho])), u2.trans (m2.trans (stalledPorts_midEdge phases s)), u3.trans (m3.trans (asked_midEdge phases s)),
    u4.trans (m4.trans ht), u5.trans (m5.trans hbd), (congrArg RootSt.xtalSel (u6.trans m6)).trans (xtalSel_midEdge phases s)⟩
  rw [deliverEdge_eq, slowEdge, if_pos hlt, h]

section
variable {s : State} {e : WaitWr} (phases : List (Nat × Nat)) (hb : s.root.bypass = false) (hslow : 39 ≤ s.time.slow) (hc : s.out.captures = [])
  (hw : s.out.waiting = [e])
include hb hslow hc hw

/-- A waiting write behind a withheld one of its port waits on (R442). -/
theorem deliverEdge_stalled (hs : (stalledPorts s).contains e.w.port = true) (hq : asked s = (none, none)) :
    (deliverEdge phases s).out.waiting = [e] ∧ (deliverEdge phases s).time.slowEdges = s.time.slowEdges + (s.time.slow + 1) / 40 := by
  obtain ⟨u, hd, uw, us, uq, ut, -, -⟩ := deliverEdge_slow phases hb hslow hc
  have hp := performWaiting_stalled (u := u) (e := e) (uw.trans hw) (by rwa [us])
  have ha := same_performAll_unasked (u := u) (by rw [hp]; exact uq.trans hq)
  have hall : SameBut [.mus, .tally] (performWaiting u) (deliverEdge phases s) := by
    rw [hd, same_evalClaims (h := by decide)]
    exact ha.mono (by decide)
  refine ⟨(congrArg OutSt.waiting (hall .answers (by decide))).trans (by rw [hp]), (congrArg TimeSt.slowEdges (hall .time (by decide))).trans ?_⟩
  rw [hp]
  refine (congrArg TimeSt.slowEdges ut).trans ((clock_countEdge s).2.2.2.trans ?_)
  rw [slowTicks, hb, if_neg (by decide)]

/-- A lone waiting write of a register that only stores a word is performed (R15). -/
theorem deliverEdge_performs {m d : Word} (hs : (stalledPorts s).contains e.w.port = false) (he : e.addr ∈ storedRegs) (hstrb : e.w.strb = 15)
    (hd : writeDenied s e.w.port e.addr = false) (hbell : bellReg s.build e.addr = none)
    (hn : nowReg s.build s.root.xtalSel.toNat e.addr = some (m, d)) :
    nowGet (deliverEdge phases s) e.addr = e.word &&& m ∧ (deliverEdge phases s).out.waiting = [] := by
  obtain ⟨u, hdel, uw, us, -, -, ub, ux⟩ := deliverEdge_slow phases hb hslow hc
  have hp := performWaiting_single (u := u) (e := e) (uw.trans hw) (by rwa [us]) he
  rw [waitEffect_stored (s := s) (e := withRival [e] e) he hstrb hd (by rw [← hbell]; exact congrArg (bellReg · _) ub)] at hp
  have hall : SameBut (.tally :: loadParts) (performWaiting u) (deliverEdge phases s) := by
    rw [hdel, same_evalClaims (h := by simp)]
    exact (same_performAll_loads u).mono (List.subset_cons_self _ _)
  have hx : (deliverEdge phases s).root.xtalSel = (performWaiting u).root.xtalSel := by
    have hr : (evalClaims (performAll u)).root = (performAll u).root := (same_evalClaims (l := [.tally]) (h := by decide)).mpr .rfl .root (by decide)
    rw [hdel, hr, xtalSel_performAll]
  have hn' : nowReg u.build u.root.xtalSel.toNat e.addr = some (m, d) := by rw [ub, ux]; exact hn
  constructor
  · rw [nowGet_congr (hall .nowRegs (by decide)) (hall .build (by decide)) hx, hp]
    exact nowGet_put e.word _ hn'
  · refine (congrArg OutSt.waiting (hall .answers (by decide))).trans ?_
    rw [hp]
    simp

end

end Sys2Proof.Machine
end

