-- ==== Sys2Proof/Proofs/IssuedEdges.lean ====
section
/-!
PROOF. What an issued edge counts in its region and its crossings (R151, R195).
-/
namespace Sys2Proof.Machine
open Sys2Proof

/-! ### An issued edge -/

theorem enabled_xingEdge (s : State) (r at16 x : Nat) (v : Xing) : (xingEdge s r at16 x v).enabled = v.enabled := by
  simp only [xingEdge]
  repeat' split
  all_goals rfl

/-- An enabled crossing's record under a map that keeps it enabled. -/
theorem tabGet_filterMap_enabled {f : Nat → Xing → Xing} (hf : ∀ x v, (f x v).enabled = v.enabled) (x : Nat) (tab : Tab Xing)
    (h : (tabGet tab x {}).enabled = true) :
    tabGet (tab.filterMap (fun e => if f e.1 e.2 = {} then none else some (e.1, f e.1 e.2))) x {} = f x (tabGet tab x {}) := by
  induction tab with
  | nil => cases h
  | cons e tab ih =>
    obtain ⟨j, w⟩ := e
    by_cases hj : j = x
    · subst hj
      simp only [tabGet, if_true] at h ⊢
      have hne : f j w ≠ {} := fun he => by
        have := hf j w
        rw [he, h] at this
        cases this
      simp only [List.filterMap_cons, if_neg hne, tabGet, if_true]
    · simp only [tabGet, if_neg hj] at h ⊢
      simp only [List.filterMap_cons]
      split
      · exact ih h
      · next hs =>
        split at hs
        · cases hs
        · cases hs
          simp only [tabGet, if_neg hj]
          exact ih h

theorem xingOf_mapXings {f : Nat → Xing → Xing} (hf : ∀ x v, (f x v).enabled = v.enabled) {s : State} {x : Nat}
    (h : (xingOf s x).enabled = true) : xingOf (mapXings f s) x = f x (xingOf s x) :=
  tabGet_filterMap_enabled hf x s.xing.tab h

theorem xing_issueEdge (r : Nat) (dcoAt : Int) (at16 : Nat) (act : BitVec 4) (s : State) :
    (issueEdge r dcoAt at16 act s).xing = (mapXings (xingEdge s r at16) s).xing := by
  have he (u : State) : (endFailHold r at16 u).xing = u.xing := by
    simp only [endFailHold]
    repeat' split
    all_goals rfl
  have hc (u : State) : (countCopy r u).xing = u.xing := by
    simp only [countCopy]
    split <;> rfl
  exact (hc _).trans (he _)

theorem regionOf_issueEdge (r : Nat) (dcoAt : Int) (at16 : Nat) (act : BitVec 4) (s : State) :
    regionOf (issueEdge r dcoAt at16 act s) r = regionEdge s r dcoAt at16 act (regionOf s r) :=
  tabGet_set_same ..

theorem charge_keeps (c n : Nat) (x : Region) : (charge c n x).strEighths = x.strEighths ∧ (charge c n x).c = x.c ∧
    (charge c n x).owed = x.owed ∧ (charge c n x).preN = x.preN ∧ (charge c n x).lag16 = x.lag16 ∧
    (charge c n x).openPace = x.openPace ∧ (charge c n x).openTo = x.openTo ∧ (charge c n x).out = x.out := by
  unfold charge
  split <;> exact ⟨rfl, rfl, rfl, rfl, rfl, rfl, rfl, rfl⟩

/-- What an issued edge counts in its region and its crossings (R151, R195). -/
theorem issueEdge_counts (r : Nat) (dcoAt : Int) (at16 : Nat) (act : BitVec 4) (s : State) :
    (regionOf (issueEdge r dcoAt at16 act s) r).c = (regionOf s r).c + 1 ∧
    (regionOf (issueEdge r dcoAt at16 act s) r).lastEdge = 65536 * s.time.total + at16 ∧
    (regionOf (issueEdge r dcoAt at16 act s) r).owed = (regionOf s r).owed.filter (fun o => !reaches s r dcoAt o) ∧
    (regionOf (issueEdge r dcoAt at16 act s) r).preN = (regionOf s r).preN - 1 ∧
    (regionOf (issueEdge r dcoAt at16 act s) r).strEighths = bump (regionOf s r).strEighths (wsStretch s r dcoAt) ∧
    ∀ x, (xingOf s x).enabled = true → xingOf (issueEdge r dcoAt at16 act s) x = xingEdge s r at16 x (xingOf s x) := by
  have hx (x : Nat) (h : (xingOf s x).enabled = true) : xingOf (issueEdge r dcoAt at16 act s) x = xingEdge s r at16 x (xingOf s x) := by
    rw [xingOf, xing_issueEdge]
    exact xingOf_mapXings (enabled_xingEdge s r at16) h
  rw [regionOf_issueEdge]
  simp only [regionEdge, charge_keeps]
  exact ⟨trivial, trivial, trivial, trivial, rfl, hx⟩

end Sys2Proof.Machine
end

