-- ==== Sys2Proof/Proofs/PaceLines.lean ====
section
/-!
PROOF. What the pace lines rest on, and the lag that a tick edge gives a region (R112, R115, R116, R164).
-/
namespace Sys2Proof.Machine
open Sys2Proof

/-! ### What the pace line and the lag rest on -/

/-- What of a flock its regions' pace line rests on. -/
def pathFields (x : Flock) : BitVec 2 × MeshPath × MeshPath × MeshPath × Int := (x.sel, x.p0, x.p1, x.p2, x.bellShift)

/-- What of a region its lag and its open pace line rest on. -/
def paceFields (x : Region) : Nat × Nat × Nat := (x.lag16, x.openPace, x.openTo)

def foldFields (x : FoldSt) : Bool × Nat × Nat × Nat × Tab ClassSt := (x.started, x.f, x.g, x.paceStart, x.classes)

/-- Two states agree on what the pace lines and the lags rest on. -/
structure SamePace (s t : State) : Prop where
  fold : foldFields t.fold = foldFields s.fold
  flock : ∀ f, pathFields (flockOf t f) = pathFields (flockOf s f)
  region : ∀ r, paceFields (regionOf t r) = paceFields (regionOf s r)

theorem SamePace.refl (s : State) : SamePace s s := ⟨rfl, fun _ => rfl, fun _ => rfl⟩

theorem SamePace.trans {s t u : State} (h : SamePace s t) (k : SamePace t u) : SamePace s u :=
  ⟨k.fold.trans h.fold, fun f => (k.flock f).trans (h.flock f), fun r => (k.region r).trans (h.region r)⟩

theorem samePace_of_eq {s t : State} (hf : t.fold = s.fold) (hk : t.flocks = s.flocks) (hr : t.regions = s.regions) : SamePace s t :=
  ⟨by rw [hf], fun f => by simp only [flockOf, hk], fun r => by simp only [regionOf, hr]⟩

theorem samePace_setFlock {f : Nat} {x : Flock} {s : State} (h : pathFields x = pathFields (flockOf s f)) : SamePace s (setFlock f x s) where
  fold := rfl
  flock g := by
    by_cases hg : g = f
    · subst hg
      simpa [setFlock, flockOf] using h
    · simp [setFlock, flockOf, tabGet_set_other, hg]
  region _ := rfl

theorem samePace_setRegion {r : Nat} {x : Region} {s : State} (h : paceFields x = paceFields (regionOf s r)) : SamePace s (setRegion r x s) where
  fold := rfl
  flock _ := rfl
  region q := by
    by_cases hq : q = r
    · subst hq
      simpa [setRegion, regionOf] using h
    · simp [setRegion, regionOf, tabGet_set_other, hq]

theorem samePace_setGen (g : Nat) (x : Gen) (s : State) : SamePace s (setGen g x s) := samePace_of_eq rfl rfl rfl

theorem samePace_raiseAbout (b : Block) (k x : Nat) (s : State) : SamePace s (raiseAbout b k x s) :=
  samePace_of_eq (by simp) (by simp) (by simp)

theorem samePace_forAll {f : Nat → State → State} (h : ∀ k t, SamePace t (f k t)) (l : List Nat) (s : State) : SamePace s (forAll l f s) := by
  induction l generalizing s with
  | nil => exact .refl s
  | cons k l ih => exact (h k s).trans (ih (f k s))

theorem samePace_ite {c : Prop} [Decidable c] {s t u : State} (ht : SamePace s t) (hu : SamePace s u) : SamePace s (if c then t else u) := by
  split
  · exact ht
  · exact hu

/-- A map over a table that keeps a field of every record keeps it of each. -/
theorem tabGet_map_keeps {α β : Type} {p : α → β} {g : Nat → α → α} (h : ∀ k v, p (g k v) = p v) (tab : Tab α) (k : Nat) (d : α) :
    p (tabGet (tab.map (fun e => (e.1, g e.1 e.2))) k d) = p (tabGet tab k d) := by
  induction tab with
  | nil => rfl
  | cons e tab ih =>
    obtain ⟨j, w⟩ := e
    simp only [List.map_cons, tabGet]
    split
    · next hj => exact h j w
    · exact ih

theorem samePace_tailEnds (s : State) : SamePace s (tailEnds s) where
  fold := rfl
  flock _ := rfl
  region r := tabGet_map_keeps (p := paceFields) (g := fun k v => if flockTail s (k / 16) then { v with leanC := none, raiseR := 0 } else v)
    (fun k v => by split <;> rfl) s.regions r {}

theorem samePace_updateSvc (f : Nat) (s : State) : SamePace s (updateSvc f s) := by
  have h1 : SamePace s (if spareOutNow s f && !(flockOf s f).spareOut then raiseAbout .flock 2 f s else s) :=
    samePace_ite (samePace_raiseAbout ..) (.refl s)
  refine h1.trans (SamePace.trans ?_ (samePace_setFlock rfl))
  exact samePace_ite (samePace_raiseAbout ..) (samePace_ite (samePace_raiseAbout ..) (.refl _))

theorem samePace_setCoverGap (f : Nat) (b : Bool) (s : State) : SamePace s (setFlock f { flockOf s f with coverGap := b } s) :=
  samePace_setFlock rfl

theorem samePace_setTailed (f : Nat) (s : State) : SamePace s (setFlock f { flockOf s f with tailed := true } s) := samePace_setFlock rfl

theorem samePace_evalCover (win : Nat → Window) (f : Nat) (s : State) : SamePace s (evalCover win f s) := by
  simp only [evalCover]
  generalize hu : forAll (spareRows s.build f) _ s = u
  have h : SamePace s u := hu ▸ samePace_forAll (fun k t => samePace_setGen k _ t) _ s
  exact h.trans (samePace_ite ((samePace_setCoverGap f _ u).trans (samePace_raiseAbout ..)) (samePace_setCoverGap f _ u))

theorem samePace_endRestrict (r : Nat) (s : State) : SamePace s (endRestrict r s) := by
  simp only [endRestrict]
  split
  · exact samePace_ite (samePace_setRegion rfl) (.refl s)
  · exact .refl s

theorem samePace_startPlannedStop (r : Nat) (s : State) : SamePace s (startPlannedStop r s) := by
  simp only [startPlannedStop]
  split
  · exact samePace_ite (samePace_setGen ..) (.refl s)
  · exact .refl s

theorem samePace_planBand (r : Nat) (s : State) : SamePace s (planBand r s) := by
  have hplan (g : Nat) (x : Gen) : SamePace s (raiseAbout .rcg 0 r (setGen g x s)) := (samePace_setGen ..).trans (samePace_raiseAbout ..)
  simp only [planBand]
  split
  · exact .refl s
  · refine samePace_ite (.refl s) (samePace_ite (samePace_ite (.refl s) ?_) ?_)
    · split
      · exact hplan ..
      · exact .refl s
    · split
      · exact samePace_setGen ..
      · split
        · exact hplan ..
        · exact .refl s

theorem samePace_tailRest (fs : List Nat) (s : State) : SamePace s (tailRest fs s) := by
  simp only [tailRest]
  refine SamePace.trans ?_ (samePace_forAll (fun r t => samePace_ite (samePace_startPlannedStop r t) (.refl t)) _ _)
  refine SamePace.trans ?_ (samePace_forAll (fun f t => samePace_setTailed f t) _ _)
  refine SamePace.trans ?_ (samePace_tailEnds _)
  refine SamePace.trans ?_ (samePace_forAll samePace_endRestrict _ _)
  exact samePace_forAll (fun f t => (samePace_evalCover _ f t).trans (samePace_updateSvc f _)) fs s

theorem samePace_setDeadline (r n : Nat) (s : State) : SamePace s (setRegion r { regionOf s r with deadline := n } s) := samePace_setRegion rfl

theorem samePace_plannedReq (n : Nat) (s : State) : SamePace s { s with fold := { s.fold with plannedReq := n } } :=
  ⟨rfl, fun _ => rfl, fun _ => rfl⟩

theorem samePace_lateDeferral (fs : List Nat) (s : State) : SamePace s (lateDeferral fs s) := by
  simp only [lateDeferral]
  generalize hu : forAll _ _ s = u
  have h : SamePace s u := hu ▸ samePace_forAll (fun r t => samePace_setDeadline r _ t) _ s
  exact h.trans (samePace_ite (.refl u) (samePace_plannedReq _ u))

theorem samePace_lateTails (s : State) : SamePace s (lateTails s) := by
  simp only [lateTails]
  exact samePace_ite ((samePace_forAll samePace_planBand _ s).trans ((samePace_lateDeferral _ _).trans (samePace_tailRest _ _))) (.refl s)

/-- Region r's pace line with an open line of its own. -/
def paceOn (s : State) (r frac openPace openTo : Nat) : Nat :=
  if s.fold.started then
    if (65536 * foldEdge s (r / 16) + frac).toNat < 65536 * (s.fold.f - s.fold.g) then
      (65536 * foldEdge s (r / 16) + frac).toNat * incNow s (classOfRegion s r)
    else (classOf s (classOfRegion s r)).kEff * 2 ^ 32
  else 65536 * openPace + (65536 * (s.time.total - openTo) + frac) * incNow s (classOfRegion s r)

theorem paceAt_eq (s : State) (r frac : Nat) : paceAt s r frac = paceOn s r frac (regionOf s r).openPace (regionOf s r).openTo := rfl

/-- The open line's rise to an edge is the line at that edge (R112). -/
theorem paceOn_riseOpen (s : State) (r : Nat) {x : Region} (h : x.out = true) :
    paceOn s r 0 (riseOpen s r x).openPace (riseOpen s r x).openTo = paceOn s r 0 x.openPace x.openTo := by
  unfold paceOn riseOpen
  cases hs : s.fold.started with
  | true => simp
  | false =>
    simp only [h, Bool.not_true, Bool.or_false, Bool.false_eq_true, if_false, Nat.sub_self, Nat.mul_zero, Nat.zero_mul, Nat.add_zero]
    ring

theorem paceOn_congr {s t : State} (h : SamePace s t) (ha : t.cfgA = s.cfgA) (hb : t.build = s.build) (ht : t.time = s.time)
    (hr : t.root.bypass = s.root.bypass) (r frac op ot : Nat) : paceOn t r frac op ot = paceOn s r frac op ot := by
  have hf := h.fold
  have hk := h.flock
  simp only [foldFields, pathFields, Prod.mk.injEq] at hf hk
  obtain ⟨h1, h2, h3, h4, h5⟩ := hf
  have hbell (k : Nat) : bellA t k = bellA s k := by simp only [bellA, ha, hb]
  have hclass (n : Nat) : classOf t n = classOf s n := by simp only [classOf, h5]
  have hinc (n : Nat) : incNow t n = incNow s n := by simp only [incNow, h1, hclass, swK, cfgF, cfgG, hbell]
  have hcls : classOfRegion t r = classOfRegion s r := by simp only [classOfRegion, hbell]
  have hpath (f p : Nat) : pathOf (flockOf t f) p = pathOf (flockOf s f) p := by
    obtain ⟨-, k1, k2, k3, -⟩ := hk f
    simp only [pathOf, k1, k2, k3]
  have harr (m : Nat) : arrivedTotal t m = arrivedTotal s m := by
    unfold arrivedTotal elapsed
    rw [ht, hr]
  have htime (f : Nat) : flockTime t f = flockTime s f := by simp only [flockTime, (hk f).1, hpath, harr, ht]
  have hedge (f : Nat) : foldEdge t f = foldEdge s f := by simp only [foldEdge, htime, h4, (hk f).2.2.2.2]
  simp only [paceOn, h1, h2, h3, hinc, hcls, hedge, hclass, ht]

/-! ### The lag at an edge -/

theorem regionOf_mapRegions {f : Nat → Region → Region} {s : State} {r : Nat} (h : r < s.build.regions) :
    regionOf (mapRegions f s) r = f r (regionOf s r) := by
  simp [mapRegions, regionOf, tabGet_tabulate, h]

theorem paceFields_trackRegion (s : State) (ticks r : Nat) (x : Region) : paceFields (trackRegion s ticks r x) = paceFields x := by
  simp only [trackRegion]
  repeat' split
  all_goals simp [paceFields, charge_keeps]

theorem riseOpen_keeps (s : State) (r : Nat) (x : Region) : (riseOpen s r x).lag16 = x.lag16 ∧ (riseOpen s r x).parked = x.parked := by
  unfold riseOpen
  split <;> exact ⟨rfl, rfl⟩

/-- The sixteenths of a cycle that a tick edge's samples give region r. -/
def phaseOf (phases : List (Nat × Nat)) (r : Nat) : Nat := ((phases.find? (fun p => p.1 = r)).map (fun p => min p.2 15)).getD 0

theorem captureLag_running {s : State} {phases : List (Nat × Nat)} {r : Nat} {x : Region} (hc : inContract s r = true) (hp : x.parked = false) :
    (captureLag s phases r x).lag16 = paceAt s r 0 / 2 ^ 28 - (16 * x.c + phaseOf phases r) ∧
    (captureLag s phases r x).openPace = x.openPace ∧ (captureLag s phases r x).openTo = x.openTo ∧ (captureLag s phases r x).out = x.out := by
  have hph : (match phases.find? (fun p => p.1 = r) with | some p => min p.2 15 | none => 0) = phaseOf phases r := by
    unfold phaseOf
    split <;> simp [*]
  have hlag := congrArg (fun n => paceAt s r 0 / 2 ^ 28 - (16 * x.c + n)) hph
  simp only [captureLag, hc, hp, Bool.not_true, Bool.false_eq_true, if_false]
  split
  · simp only [charge_keeps]
    exact ⟨hlag, trivial, trivial, trivial⟩
  · exact ⟨hlag, rfl, rfl, rfl⟩

theorem captureLag_parked {s : State} {phases : List (Nat × Nat)} {r : Nat} {x : Region} (hc : inContract s r = true) (hp : x.parked = true) :
    (captureLag s phases r x).lag16 = 0 := by
  simp [captureLag, hc, hp]

/-- The edge's later work in the regions keeps what the pace lines and the lags rest on. -/
theorem samePace_afterTrack (s : State) :
    SamePace s (tailEnds (lateTails { mapGens (genStep s) s with
      flocks := (mapGens (genStep s) s).flocks.map (fun e => (e.1, { e.2 with taken := [], takenLast := e.2.taken })) })) := by
  refine SamePace.trans (t := { mapGens (genStep s) s with
      flocks := (mapGens (genStep s) s).flocks.map (fun e => (e.1, { e.2 with taken := [], takenLast := e.2.taken })) })
    ⟨rfl, fun f => ?_, fun _ => rfl⟩ ((samePace_lateTails _).trans (samePace_tailEnds _))
  exact tabGet_map_keeps (p := pathFields) (g := fun _ v => { v with taken := [], takenLast := v.taken }) (fun _ _ => rfl) s.flocks f {}

/-- The regions once they have been sampled, once their open lines have risen, and once they have been tracked. -/
def sampled (phases : List (Nat × Nat)) (s : State) : State := mapRegions (captureLag s phases) s
def risen (phases : List (Nat × Nat)) (s : State) : State := mapRegions (riseOpen (sampled phases s)) (sampled phases s)
def tracked (phases : List (Nat × Nat)) (ticks : Nat) (s : State) : State := mapRegions (trackRegion (risen phases s) ticks) (risen phases s)

theorem paceFields_tracked (phases : List (Nat × Nat)) (ticks : Nat) {s : State} {r : Nat} (hr : r < s.build.regions) :
    paceFields (regionOf (tracked phases ticks s) r) = paceFields (riseOpen s r (captureLag s phases r (regionOf s r))) := by
  rw [tracked, regionOf_mapRegions (s := risen phases s) hr, paceFields_trackRegion, risen, regionOf_mapRegions (s := sampled phases s) hr, sampled,
    regionOf_mapRegions hr]
  rfl

theorem paceOn_mapRegions (f : Nat → Region → Region) (s : State) : paceOn (mapRegions f s) = paceOn s := rfl

theorem paceOn_tracked (phases : List (Nat × Nat)) (ticks : Nat) (s : State) : paceOn (tracked phases ticks s) = paceOn s := by
  rw [tracked, paceOn_mapRegions, risen, paceOn_mapRegions, sampled, paceOn_mapRegions]

theorem samePace_regionsTick (phases : List (Nat × Nat)) (ticks : Nat) (s : State) : SamePace (tracked phases ticks s) (regionsTick phases ticks s) :=
  samePace_afterTrack (tracked phases ticks s)

/-- What regionsTick makes of a region in the contract: its lag against its pace line, and 0 where it is parked (R112, R116, R164). -/
theorem lag_regionsTick {s : State} (phases : List (Nat × Nat)) (ticks : Nat) {r : Nat} (hr : r < s.build.regions) (hc : inContract s r = true) :
    ((regionOf s r).parked = false → (regionOf (regionsTick phases ticks s) r).lag16 =
      paceAt (regionsTick phases ticks s) r 0 / 2 ^ 28 - (16 * (regionOf s r).c + phaseOf phases r)) ∧
    ((regionOf s r).parked = true → (regionOf (regionsTick phases ticks s) r).lag16 = 0) := by
  have hp := samePace_regionsTick phases ticks s
  have hs : SameBut regionsEdgeParts s (regionsTick phases ticks s) := (same_regionsTick phases ticks (by decide)).mpr .rfl
  have hf := (hp.region r).trans (paceFields_tracked phases ticks hr)
  simp only [paceFields, Prod.mk.injEq] at hf
  obtain ⟨hlag, hop, hot⟩ := hf
  rw [(riseOpen_keeps s r _).1] at hlag
  refine ⟨fun hpark => ?_, fun hpark => hlag.trans (captureLag_parked hc hpark)⟩
  obtain ⟨k1, k2, k3, k4⟩ := captureLag_running (phases := phases) hc hpark
  have hout : (captureLag s phases r (regionOf s r)).out = true := by
    simp only [inContract, Bool.and_eq_true] at hc
    exact k4.trans hc.1
  have hroot : (regionsTick phases ticks s).root = s.root := hs .root (by decide)
  have hpace : paceAt (regionsTick phases ticks s) r 0 = paceAt s r 0 := by
    rw [paceAt_eq, hop, hot, paceOn_congr hp (hs .bellApplied (by decide)) (hs .build (by decide)) (hs .time (by decide)) (congrArg RootSt.bypass hroot)]
    rw [paceOn_tracked, paceOn_riseOpen s r hout, k2, k3, paceAt_eq]
  rw [hlag, k1, hpace]

end Sys2Proof.Machine
end

