-- ==== Sys2Proof/Proofs/ClockEdges.lean ====
section
/-!
PROOF. The edges of the clocks (O39).
-/
namespace Sys2Proof.Machine
open Sys2Proof

/-- What of a region an entry to bypass leaves. -/
def serveFields (x : Region) : Bool × Excl × Bool × Nat := (x.out, x.excl, x.parked, x.c)

theorem serveFields_bypassEntered (s : State) (r : Nat) : serveFields (regionOf (bypassEntered s) r) = serveFields (regionOf s r) := by
  have hr (u : State) : (raise .root 3 (sparePower u)).regions = u.regions := by
    have h : (sparePower u).regions = u.regions := (same_sparePower (List.Subset.refl _)).mpr .rfl .regions (by decide)
    simpa using h
  rw [bypassEntered, regionOf, hr]
  exact tabGet_map_keeps (p := serveFields) (g := fun _ v => { v with hold := v.hold.map (fun h => { h with discard := true }) })
    (fun _ _ => rfl) s.regions r {}

theorem serveFields_edge (s : State) (r : Nat) : serveFields (regionOf (forceEdge (countEdge s)) r) = serveFields (regionOf s r) := by
  have hc : (countEdge s).regions = s.regions := (same_countEdge (List.Subset.refl _)).mpr .rfl .regions (by decide)
  have hcr : regionOf (countEdge s) r = regionOf s r := by rw [regionOf, hc, regionOf]
  unfold forceEdge
  split
  · exact (serveFields_bypassEntered _ r).trans (congrArg serveFields hcr)
  · rw [hcr]

/-- The lag of a region in the contract after an edge at which no failover is held. -/
theorem lag_deliverEdge {s : State} (phases : List (Nat × Nat)) (hw : s.out.waiting = []) (hc : s.out.captures = []) (hq : asked s = (none, none))
    (hk : s.crook.held = none) {r : Nat} (hr : r < s.build.regions) (hin : inContract s r = true) :
    ((regionOf s r).parked = false → (regionOf (deliverEdge phases s) r).lag16 =
      paceAt (deliverEdge phases s) r 0 / 2 ^ 28 - (16 * (regionOf s r).c + phaseOf phases r)) ∧
    ((regionOf s r).parked = true → (regionOf (deliverEdge phases s) r).lag16 = 0) := by
  have hserve := serveFields_edge s r
  have h1 : SameBut ([.root, .time, .regions] ++ evs .root [3, 8]) s (forceEdge (countEdge s)) := by
    rw [same_forceEdge (h := by decide), same_countEdge (h := by decide)]
    exact .rfl
  generalize hu : forceEdge (countEdge s) = u at hserve h1
  simp only [serveFields, Prod.mk.injEq] at hserve
  obtain ⟨hout, hexcl, hpark, hcount⟩ := hserve
  have hub : u.build = s.build := h1 .build (by decide)
  have huc : u.crook = s.crook := h1 .crook (by decide)
  have hlag := lag_regionsTick phases u.time.inc (s := u) (r := r) (by rw [hub]; exact hr) (by
    rw [← hin]
    simp only [inContract, excluded, hout, hexcl])
  rw [hpark, hcount] at hlag
  generalize hR : regionsTick phases u.time.inc u = R at hlag
  have hRc : R.crook = s.crook := by
    rw [← hR, ← huc]
    exact (same_regionsTick phases _ (List.Subset.refl _)).mpr .rfl .crook (by decide)
  have hcrk : crkHeld R = R := by
    simp [crkHeld, hRc, hk]
  have hmid : midEdge phases s = edgeRest R := by
    rw [midEdge, hu, regionsEdge, hR, hcrk]
  have hall : SameBut (.answers :: restParts) R (deliverEdge phases s) := by
    have h := same_deliverEdge_quiet phases hw hc hq
    rw [hmid] at h
    exact ((same_edgeRest_self R).mono (List.subset_cons_self _ _)).trans (h.mono (by decide))
  have hroot : edgeRoot (deliverEdge phases s) = edgeRoot R := by
    have h := same_deliverEdge_quiet phases hw hc hq .root (by decide)
    rw [hmid] at h
    exact (edgeRoot_congr h).trans (edgeRoot_edgeRest R)
  have hreg : (deliverEdge phases s).regions = R.regions := hall .regions (by decide)
  have hsame : SamePace R (deliverEdge phases s) := samePace_of_eq (hall .fold (by decide)) (hall .flocks (by decide)) hreg
  have hrr : regionOf (deliverEdge phases s) r = regionOf R r := by rw [regionOf, hreg, regionOf]
  have hpace : paceAt (deliverEdge phases s) r 0 = paceAt R r 0 := by
    simp only [edgeRoot, Prod.mk.injEq] at hroot
    rw [paceAt_eq, paceAt_eq, hrr, paceOn_congr hsame (hall .bellApplied (by decide)) (hall .build (by decide)) (hall .time (by decide)) hroot.1]
  rw [hrr, hpace]
  exact hlag

/-- Settles O39: an edge is its counter's step, the regions' work, and a slow-clock edge, and what each of these leaves alone carries
the first to the edge's end. -/
theorem clockEdges : Obligations.ClockEdges := by
  unfold Obligations.ClockEdges
  refine ⟨fun s b phases hpor hheld hb hbe hk hw hc hq hj => ?_, fun s b phases hpor hheld hb hbe hf hm h5 hw hc hq hj => ?_,
    fun s b phases hpor hheld hb hbe hm hr hw hc hq hj => ?_, fun s b phases hpor hbe hr hb hw => ?_,
    fun s b phases h => ⟨s, exec_tickEdge_none phases h, rfl⟩,
    fun s b phases w a v m d hpor hheld hb hbe hslow hw hs hstrb hd ha _ _ hc hact _ hbell hn => ?_,
    fun s b phases w a v hpor hheld hb hbe hslow hw hs hc hq hj => ?_, fun s r dcoAt at16 act hr hi => ?_, fun s r dcoAt at16 act hr hi => ?_⟩
  · subst hbe
    have hq : asked s = (none, none) := Prod.ext hq hj
    obtain ⟨h1, h2, h3, h4⟩ := clock_tick phases hw hc hq hb
    exact ⟨_, exec_tick phases hpor hheld hb, h1, h2, h3, h4, fun hm hl h5 => recV_tick phases hw hc hq hb hm hl h5,
      fun r hr hin hp => (lag_deliverEdge phases hw hc hq hk hr hin).1 hp, fun r hr hin hp => (lag_deliverEdge phases hw hc hq hk hr hin).2 hp⟩
  · subst hbe
    have hq : asked s = (none, none) := Prod.ext hq hj
    obtain ⟨h1, h2, h3⟩ := forced_tick phases hw hc hq hb hf hm h5
    exact ⟨_, exec_tick phases hpor hheld hb, h1, (clock_tick phases hw hc hq hb).1, h2, h3⟩
  · subst hbe
    exact ⟨_, exec_bypassEdge phases hpor hheld hb hm hr, clock_bypassEdge phases hw hc (Prod.ext hq hj) hb hm⟩
  · subst hbe
    refine ⟨crystalEdge s, ?_, crystalEdge_quiet hw hr hb⟩
    change execTickEdge true phases s = _
    rcases hb with hb | hb <;> simp [execTickEdge, hpor, hr, hb]
  · subst hbe
    exact ⟨_, exec_tick phases hpor hheld hb,
      deliverEdge_performs phases hb hslow hc hw hs (stored_of_nowReg ha hact hn) hstrb hd hbell hn⟩
  · subst hbe
    exact ⟨_, exec_tick phases hpor hheld hb, deliverEdge_stalled phases hb hslow hc hw hs (Prod.ext hq hj)⟩
  · refine ⟨issueEdge r dcoAt at16 act s, ?_, issueEdge_counts r dcoAt at16 act s⟩
    change execIssuedEdge r dcoAt at16 act s = _
    simp [execIssuedEdge, hr, hi]
  · refine ⟨s, ?_, rfl⟩
    change execIssuedEdge r dcoAt at16 act s = _
    simp [execIssuedEdge, hr, hi]

end Sys2Proof.Machine
end

