-- ==== Sys2Proof/Proofs/QueueAndBuild.lean ====
section
/-!
PROOF. No command touches the queue, the build, the straps or the hookups (O42): a command that writes a register and one that
applies no bell-class value leave them out of what they may change; of the rest, a bell and the end of a reset are chains of
operations that do not name them, and a reset's new state carries them over.
-/
namespace Sys2Proof.Machine
open Sys2Proof

/-- What stands outside the machine of a command: the queue behind it, the build, the straps and the hookups (R24, R34, R521). -/
structure SameInputs (s t : State) : Prop where
  queue : t.pending = s.pending
  build : t.build = s.build
  straps : t.straps = s.straps
  hook : t.hook = s.hook

theorem SameInputs.rfl {s : State} : SameInputs s s := ⟨.refl _, .refl _, .refl _, .refl _⟩

theorem SameInputs.trans {s t u : State} (h : SameInputs s t) (k : SameInputs t u) : SameInputs s u :=
  ⟨k.queue.trans h.queue, k.build.trans h.build, k.straps.trans h.straps, k.hook.trans h.hook⟩

/-- All the parts but these four. -/
def commandParts : List Part := .bellApplied :: unappliedParts

theorem sameInputs_of_sameBut {s t : State} (h : SameBut commandParts s t) : SameInputs s t :=
  ⟨h .queue (by decide), h .build (by decide), h .straps (by decide), h .hook (by decide)⟩

theorem unapplied_command : unappliedParts ⊆ commandParts := List.subset_cons_self ..

/-- The parts of an operation are seen to be among those that a command may change, member by member, where its `same_` lemma
asks for that. -/
theorem unapplied_sub {ps : List Part} (h : ps ⊆ unappliedParts := by simp only [parts_sub, unapplied_mem, Nat.reduceLT, and_self]) :
    ps ⊆ unappliedParts := h

theorem command_sub {ps : List Part}
    (h : ∀ p ∈ ps, p = .bellApplied ∨ p ∈ unappliedParts := by
      simp only [evs, List.map_cons, List.map_nil, List.cons_append, List.nil_append, List.forall_mem_cons, List.not_mem_nil, false_imp_iff,
        implies_true, unapplied_mem, Nat.reduceLT, or_true, true_or, and_self]) :
    ps ⊆ commandParts := fun p hp => List.mem_cons.mpr (h p hp)

/-! ### The commands that write a register -/

theorem lands_regWrite {w : Wr} {a : Nat} {v : Word} {ext : List Nat} {eff : State → State} {s : State}
    (he : ∀ t, SameBut unappliedParts s (eff t) ↔ SameBut unappliedParts s t) :
    Lands (SameBut unappliedParts s) (.next (regWrite w a v ext eff s)) :=
  lands_next.mpr ((same_regWrite (by simp only [writeParts, parts_sub, unapplied_mem, Nat.reduceLT, and_self]) (.inr (by simp only [unapplied_mem])) he).mpr .rfl)

theorem lands_mbxWrite {w : Wr} {m : BitVec 2} {v : Word} {s : State} :
    Lands (SameBut unappliedParts s)
      (if isMbox m then .next (regWrite w (mbxAddr m.toNat 0) v [] (mbxWrite w m.toNat (writeMbxCtrl m.toNat v)) s) else .fault .noSuchUnit) := by
  have hbit : m.toNat < 24 ∧ 3 + m.toNat < 24 := by omega
  refine lands_ite.mpr ?_
  split
  · exact lands_regWrite fun _ => same_mbxWrite (h := unapplied_sub) (he := fun _ =>
      same_writeMbxCtrl (h := by simp only [hbit, parts_sub, unapplied_mem, and_self]) ..) ..
  · exact lands_fault.mpr trivial

theorem lands_writeTallyCmd {w : Wr} {u : BitVec 2} {a : Nat} {v : Word} {ext : List Nat} {c : Option CalEdges} {s : State} :
    Lands (SameBut unappliedParts s) (.next (regWrite w a v ext (writeTallyCmd w.port u.toNat v c) s)) :=
  lands_regWrite fun _ => same_writeTallyCmd (h := by simp only [unit_lt, parts_sub, unapplied_mem, Nat.reduceLT, and_self]) ..

/-- A command that writes a register leaves everything that no register's write changes (R440). -/
theorem lands_regTarget {c : Instr} {w : Wr} {a : Nat} (s : State) (h : regTarget c = some (w, a)) :
    Lands (SameBut unappliedParts s) (exec c s) := by
  cases c with
  | prefWrite | spareEnWrite | bypassForce => exact lands_regWrite fun _ => same_writeRootCtrl (h := unapplied_sub) ..
  | divApply => exact lands_regWrite fun _ => same_writeDivApply (h := unapplied_sub) ..
  | rootBtabWrite => exact lands_regWrite fun _ => same_writeRootBtab (h := unapplied_sub) ..
  | rootMeas => exact lands_regWrite fun _ => same_writeRootMeas (h := unapplied_sub) ..
  | rootAgeWrite => exact lands_regWrite fun _ => same_writeRootAge (h := unapplied_sub) ..
  | bellSnapReq => exact lands_regWrite fun _ => same_writeBellSnap (h := unapplied_sub) ..
  | bellLoad => exact lands_regWrite fun _ => same_writeBellLoad (h := unapplied_sub) ..
  | meshDisable =>
    exact lands_regWrite fun _ => same_whereFlock (he := fun _ => same_writeMeshCtrl (h := unapplied_sub) ..) ..
  | foldStart => exact lands_regWrite fun _ => same_writeFoldCtrl (h := unapplied_sub) ..
  | excludeSet | excludeClear => exact lands_regWrite fun _ => same_writeFoldExclude (h := unapplied_sub) ..
  | foldTetherWrite => exact lands_regWrite fun _ => same_writeFoldTether (h := unapplied_sub) ..
  | foldStatReq => exact lands_regWrite fun _ => same_writeFoldStatReq (h := unapplied_sub) ..
  | foldLogSel => exact lands_regWrite fun _ => same_writeFoldLogSel (h := unapplied_sub) ..
  | rcgSel => exact lands_regWrite fun _ => same_writeRcgSel (h := unapplied_sub) ..
  | rcgCfgWrite => exact lands_regWrite fun _ => same_writeRcgCfg (h := unapplied_sub) ..
  | rcgBmeas => exact lands_regWrite fun _ => same_writeRcgBmeas (h := unapplied_sub) ..
  | xingSel => exact lands_regWrite fun _ => same_writeXingSel (h := unapplied_sub) ..
  | xingCfgWrite => exact lands_regWrite fun _ => same_writeXingCfg (h := unapplied_sub) ..
  | auditEnWrite | auditClear => exact lands_regWrite fun _ => same_writeXingAudit (h := unapplied_sub) ..
  | fcstModeWrite => exact lands_regWrite fun _ => same_writeFcstCfg (h := unapplied_sub) ..
  | fcstOpen | fcstSeal | fcstSwap | fcstStop | fcstCmdNone | fcstCmdInvalid =>
    exact lands_regWrite fun _ => same_writeFcstCtrl (h := unapplied_sub) ..
  | fcstStatReq => exact lands_regWrite fun _ => same_writeFcstStatReq (h := unapplied_sub) ..
  | zoneStatReq => exact lands_regWrite fun _ => same_writeZoneStatReq (h := unapplied_sub) ..
  | clearParity | retest | reinstate | retire =>
    exact lands_regWrite fun _ => same_whereFlock (he := fun _ => same_writeGenCtrl (h := unapplied_sub) ..) ..
  | crkArm => exact lands_regWrite fun _ => same_writeCrkArm (h := unapplied_sub) ..
  | forceHoldRegion | releaseRegion | forceHoldFlock | releaseFlock | forceFailover | crkCoreReset | crkInvalidOp =>
    exact lands_regWrite fun _ => same_writeCrkCmd (h := unapplied_sub) ..
  | tallyClaim | tallyRelease =>
    exact lands_regWrite fun _ => (same_evalClaims (h := unapplied_sub)).trans (same_writeTallyClaim (h := unapplied_sub) ..)
  | tallyArm | tallyAbort => exact lands_writeTallyCmd
  | calFlockDue | calAllDue | restore | cancelRestore | calInvalidOp =>
    exact lands_regWrite fun _ => same_writeCalCtrl (h := unapplied_sub) ..
  | todArm => exact lands_regWrite fun _ => same_writeTodCtrl (h := unapplied_sub) ..
  | fwOpen | fwSeal | fwSwap | fwBankInvalidOp => exact lands_regWrite fun _ => same_writeShepBankCtrl (h := unapplied_sub) ..
  | mbxGo | mbxWithdraw => exact lands_mbxWrite
  | eventClear =>
    exact lands_regWrite fun _ => same_unlessClearWaits (by simp only [unapplied_mem]) (.inr (by simp only [unapplied_mem]))
      (same_clearEvents (by simp only [unapplied_mem]) fun _ hk => by simp only [unapplied_mem, hk])
  | cfgCtrlWrite => exact lands_regWrite fun _ => same_writeCfgCtrl (h := unapplied_sub) ..
  | regWrite => exact lands_next.mpr ((same_busWrite bus_unapplied _ _ _).mpr .rfl)
  | lcTransition | lcRevoke | lcOpRefuse => exact lands_regWrite fun _ => same_writeLcCtrl (h := unapplied_sub) ..
  | _ => exact nomatch h

/-! ### The commands that apply bell-class values -/

theorem sameInputs_ringBell (placed : Nat) (s : State) : SameInputs s (ringBell placed s) :=
  sameInputs_of_sameBut ((same_ringBell _ _ command_sub).mpr .rfl)

theorem sameInputs_bell (s : State) : Lands (SameInputs s) (execBell s) := by
  simp only [execBell, lands_ite, lands_next, apply_ite (SameInputs s), SameInputs.rfl, sameInputs_ringBell, ite_self]

theorem sameInputs_preBellApply (s : State) : Lands (SameInputs s) (execPreBellApply s) := by
  refine lands_ite.mpr ?_
  split
  · exact lands_next.mpr (sameInputs_of_sameBut ((same_calCfgApplied _ _ command_sub).mpr ((same_respareChanged _ _ command_sub).mpr
      ((same_applyEarly command_sub).mpr .rfl))))
  · exact lands_next.mpr .rfl

theorem sameInputs_pathLockDone (f p : Nat) (d : PathDelay) (fr : BitVec 128) (s : State) :
    Lands (SameInputs s) (execPathLockDone f p d fr s) := by
  simp only [execPathLockDone, lands_ite, lands_next, lands_fault, SameInputs.rfl]
  split
  · split
    · refine sameInputs_of_sameBut ((same_meshReadyCheck command_sub).mpr ?_)
      simp only [↓same_ite, same_pathBack (h := command_sub), same_setFlock (h := command_sub), SameBut.rfl, ite_self]
    · trivial
  · trivial

theorem sameInputs_coldState (ret : Mem) (s : State) : SameInputs s (coldState ret s) := ⟨.refl _, .refl _, .refl _, .refl _⟩

theorem sameInputs_warmHeld (s : State) : SameInputs s (warmHeld s) := ⟨.refl _, .refl _, .refl _, .refl _⟩

theorem sameInputs_islandOnly (s : State) : SameInputs s (islandOnly s) := ⟨.refl _, .refl _, .refl _, .refl _⟩

theorem sameInputs_factoryValues (s : State) : SameInputs s (factoryValues s) :=
  sameInputs_of_sameBut ((same_factoryValues command_sub).mpr .rfl)

theorem sameInputs_warmRelease (prev : Word) (s : State) : SameInputs s (warmRelease prev s) :=
  sameInputs_of_sameBut ((same_warmRelease _ command_sub).mpr .rfl)

theorem sameInputs_fabricLeaves (s : State) : SameInputs s (fabricLeaves s) :=
  sameInputs_of_sameBut ((same_fabricLeaves command_sub).mpr .rfl)

theorem sameInputs_warmReset (s : State) : SameInputs s (warmReset s) := by
  simp only [warmReset]
  repeat' split
  · exact (sameInputs_warmHeld s).trans (sameInputs_warmRelease _ _)
  · exact sameInputs_warmHeld s
  · exact .rfl

theorem sameInputs_eraseCustomer (s : State) : SameInputs s (eraseCustomer s) :=
  (sameInputs_factoryValues s).trans ⟨.refl _, .refl _, .refl _, .refl _⟩

theorem sameInputs_powerOnReset (s : State) : Lands (SameInputs s) (execPowerOnReset s) :=
  lands_next.mpr ((sameInputs_coldState [] s).trans ⟨.refl _, .refl _, .refl _, .refl _⟩)

theorem sameInputs_coldReset (s : State) : Lands (SameInputs s) (execColdReset s) := by
  simp only [execColdReset, lands_next, apply_ite (SameInputs s), SameInputs.rfl, sameInputs_coldState, ite_self]

theorem sameInputs_powerOnResetRelease (s : State) : Lands (SameInputs s) (execPowerOnResetRelease s) := by
  simp only [execPowerOnResetRelease, lands_next, apply_ite (SameInputs s), SameInputs.rfl, sameInputs_coldState, ite_self]

theorem sameInputs_fabPowerLoss (s : State) : Lands (SameInputs s) (execFabPowerLoss s) := by
  refine lands_ite.mpr ?_
  split
  · exact lands_next.mpr ⟨.refl _, .refl _, .refl _, .refl _⟩
  · exact lands_next.mpr (((sameInputs_islandOnly s).trans (sameInputs_factoryValues _)).trans ⟨.refl _, .refl _, .refl _, .refl _⟩)

theorem sameInputs_eraseDone (s : State) : Lands (SameInputs s) (execEraseDone s) := by
  have herased (lc : LcSt) : SameInputs s { eraseCustomer s with lc := lc } :=
    (sameInputs_eraseCustomer s).trans ⟨.refl _, .refl _, .refl _, .refl _⟩
  simp only [execEraseDone]
  repeat' (refine lands_ite.mpr ?_; split)
  · exact lands_next.mpr ((herased _).trans (sameInputs_warmReset _))
  · exact lands_next.mpr ((herased _).trans (sameInputs_fabricLeaves _))
  · exact lands_next.mpr (herased _)
  · exact lands_next.mpr .rfl

theorem sameInputs_applies {c : Instr} (s : State) (h : appliesBellClass c = true) : Lands (SameInputs s) (exec c s) := by
  cases c with
  | bell => exact sameInputs_bell s
  | preBellApply => exact sameInputs_preBellApply s
  | pathLockDone f p d fr => exact sameInputs_pathLockDone f p d fr s
  | powerOnReset => exact sameInputs_powerOnReset s
  | powerOnResetRelease => exact sameInputs_powerOnResetRelease s
  | coldReset => exact sameInputs_coldReset s
  | warmReset => exact lands_next.mpr (sameInputs_warmReset s)
  | fabPowerLoss => exact sameInputs_fabPowerLoss s
  | eraseDone => exact sameInputs_eraseDone s
  | _ => exact nomatch h

/-- Settles O42, by the command's kind: it applies bell-class values, it neither does so nor writes a register, or it writes one. -/
theorem queueAndBuildUntouched : Obligations.QueueAndBuildUntouched := by
  unfold Obligations.QueueAndBuildUntouched
  intro c s t ht
  obtain ⟨hqueue, hbuild, hstraps, hhook⟩ : SameInputs s t := by
    cases hc : appliesBellClass c with
    | true => exact sameInputs_applies s hc t ht
    | false =>
      refine sameInputs_of_sameBut (SameBut.mono ?_ unapplied_command)
      rcases hr : regTarget c with _ | ⟨w, a⟩
      · exact lands_unapplied s hc hr t ht
      · exact lands_regTarget s hr t ht
  exact ⟨hqueue, hbuild, hstraps, hhook⟩

end Sys2Proof.Machine
end

