-- ==== Sys2Proof/Proofs/CalibratedUnits.lean ====
section
/-!
PROOF. What the shared operations of calibration leave of the units that are calibrated (R342, R351, R352, R354, R355): a
generator but for its DUE and the cover it shows, a mesh path but for its DUE, and the charge pumps' results.
-/
namespace Sys2Proof.Machine
open Sys2Proof

/-! ### Views of the calibrated units -/

/-- A generator but for DUE and the cover it shows. -/
def genView (s : State) (g : Nat) : Gen := { genOf s g with due := false, cover := 0 }

/-- A mesh path but for DUE. -/
def pathView (s : State) (f p : Nat) : MeshPath := { pathOf (flockOf s f) p with due := false }

section
variable {α : Type} {v : State → α}

/-- Steps that each keep a view of the state keep it together. -/
theorem forAll_view {f : Nat → State → State} (h : ∀ k t, v (f k t) = v t) (l : List Nat) (s : State) : v (forAll l f s) = v s := by
  induction l generalizing s with
  | nil => rfl
  | cons k l ih => exact (ih (f k s)).trans (h k s)

theorem ite_view {c : Prop} [Decidable c] {s t u : State} (ht : v t = v s) (hu : v u = v s) : v (if c then t else u) = v s := by
  split
  · exact ht
  · exact hu

end

@[simp] theorem pathOf_withPath (x : Flock) (p : Nat) (m : MeshPath) : pathOf (withPath x p m) p = m := by
  unfold pathOf withPath
  by_cases h0 : p = 0
  · simp [h0]
  · by_cases h1 : p = 1 <;> simp [h0, h1]

theorem genView_of_gens {s t : State} (h : t.gens = s.gens) : genView t = genView s := by
  funext g
  simp only [genView, genOf, h]

theorem pathView_of_flocks {s t : State} (h : t.flocks = s.flocks) : pathView t = pathView s := by
  funext f p
  simp only [pathView, flockOf, h]

/-- What the view of a generator tells of it. -/
theorem genOf_of_view {s t : State} (h : genView t = genView s) (g : Nat) :
    (genOf t g).st = (genOf s g).st ∧ (genOf t g).calFrom = (genOf s g).calFrom ∧ (genOf t g).rejected = (genOf s g).rejected ∧
    (genOf t g).cells = (genOf s g).cells ∧ (genOf t g).waiting = (genOf s g).waiting := by
  have hg := congrFun h g
  simp only [genView, Gen.mk.injEq] at hg
  simp only [hg, and_self]

/-- What the view of a path tells of it. -/
theorem pathOf_of_view {s t : State} (h : pathView t = pathView s) (f p : Nat) :
    (pathOf (flockOf t f) p).taps = (pathOf (flockOf s f) p).taps ∧ (pathOf (flockOf t f) p).tapsOld = (pathOf (flockOf s f) p).tapsOld ∧
    (pathOf (flockOf t f) p).tapsNew = (pathOf (flockOf s f) p).tapsNew ∧ (pathOf (flockOf t f) p).rejected = (pathOf (flockOf s f) p).rejected ∧
    (pathOf (flockOf t f) p).locked = (pathOf (flockOf s f) p).locked ∧ (pathOf (flockOf t f) p).mValid = (pathOf (flockOf s f) p).mValid ∧
    (pathOf (flockOf t f) p).calOut = (pathOf (flockOf s f) p).calOut ∧ (pathOf (flockOf t f) p).calFrom = (pathOf (flockOf s f) p).calFrom := by
  have hp := congrFun (congrFun h f) p
  simp only [pathView, MeshPath.mk.injEq] at hp
  simp only [hp, and_self]

theorem genView_setGen {g : Nat} {x : Gen} {s : State} (h : { x with due := false, cover := 0 } = genView s g) :
    genView (setGen g x s) = genView s := by
  funext k
  by_cases hk : k = g
  · subst hk; simpa [genView] using h
  · simp [genView, hk]

theorem pathView_setFlock {f : Nat} {x : Flock} {s : State} (h : ∀ p, { pathOf x p with due := false } = pathView s f p) :
    pathView (setFlock f x s) = pathView s := by
  funext k p
  by_cases hk : k = f
  · subst hk; simpa [pathView] using h p
  · simp [pathView, hk]

/-- A path's record written over itself but for DUE keeps every path's view. -/
theorem pathView_withPath_due (f p : Nat) (b : Bool) (s : State) :
    pathView (setFlock f (withPath (flockOf s f) p { pathOf (flockOf s f) p with due := b }) s) = pathView s := by
  refine pathView_setFlock fun q => ?_
  unfold pathView pathOf withPath
  by_cases h0 : p = 0 <;> by_cases h1 : p = 1 <;> by_cases k0 : q = 0 <;> by_cases k1 : q = 1 <;> simp_all

theorem pathView_of_samePace {s t : State} (h : SamePace s t) : pathView t = pathView s := by
  funext f p
  have hf := h.flock f
  simp only [pathFields, Prod.mk.injEq] at hf
  obtain ⟨-, h0, h1, h2, -⟩ := hf
  simp only [pathView, pathOf, h0, h1, h2]

/-! ### What follows a spare's change of state -/

theorem genView_evalCover (win : Nat → Window) (f : Nat) (s : State) : genView (evalCover win f s) = genView s := by
  unfold evalCover
  extract_lets covers rows gap t fl t'
  have ht : genView t = genView s := forAll_view (v := genView) (fun g u => genView_setGen (by rfl)) rows s
  have ht' : genView t' = genView s := (genView_of_gens (by simp [t'])).trans ht
  exact ite_view ((genView_of_gens (by simp)).trans ht') ht'

theorem genView_updateSvc (f : Nat) (s : State) : genView (updateSvc f s) = genView s := by
  have hg : (updateSvc f s).gens = s.gens :=
    (same_updateSvc (l := [.flocks] ++ evs .flock [2, 9, 10]) f (List.Subset.refl _)).mpr .rfl .gens (by decide)
  simp only [funext_iff, genView, genOf, hg, implies_true]

theorem genView_spareChanged (f : Nat) (s : State) : genView (spareChanged f s) = genView s :=
  (genView_updateSvc f _).trans (genView_evalCover _ f s)

theorem flagged_of_sameBut {l : List Part} {s t : State} {b : Block} {k : Nat} (h : SameBut l s t) (hl : .event b k ∉ l) (hf : Flagged s b k) :
    Flagged t b k :=
  (h (.event b k) hl : (eventOf t b).bits.getLsbD k = _).trans hf

/-- A spare's selection of its band changes neither its state nor what its calibration left (R158). -/
theorem spareBand_keeps (atBell : Bool) (g : Nat) (s : State) :
    (genOf (spareBand atBell g s) g).st = (genOf s g).st ∧ (genOf (spareBand atBell g s) g).calFrom = (genOf s g).calFrom ∧
    (genOf (spareBand atBell g s) g).rejected = (genOf s g).rejected ∧ (genOf (spareBand atBell g s) g).cells = (genOf s g).cells ∧
    (genOf (spareBand atBell g s) g).waiting = (genOf s g).waiting := by
  unfold spareBand
  extract_lets x w b t
  rw [genOf_setGen, if_pos rfl]
  split
  · exact ⟨rfl, rfl, rfl, rfl, rfl⟩
  · split <;> exact ⟨rfl, rfl, rfl, rfl, rfl⟩

theorem spareLocking_keeps (atBell : Bool) (g : Nat) (s : State) :
    (genOf (spareLocking atBell g s) g).st = .locking ∧ (genOf (spareLocking atBell g s) g).calFrom = none ∧
    (genOf (spareLocking atBell g s) g).rejected = (genOf s g).rejected ∧ (genOf (spareLocking atBell g s) g).cells = (genOf s g).cells ∧
    (genOf (spareLocking atBell g s) g).waiting = (genOf s g).waiting := by
  unfold spareLocking
  simpa only [genOf_setGen, if_true] using spareBand_keeps atBell g (setGen g { genOf s g with
    st := .locking, div := 1, plannedDiv := 1, lockFrom := s.time.total, slot := 0, calFrom := none, cellProp := none, count := 0 } s)

/-- A spare that goes back to pre-locking keeps what its calibration left: the cells, the last result and the counts that wait
(R158, R282, R355). -/
structure Relocks (g : Nat) (u t : State) : Prop where
  st : (genOf t g).st = .locking
  calFrom : (genOf t g).calFrom = none
  rejected : (genOf t g).rejected = (genOf u g).rejected
  cells : (genOf t g).cells = (genOf u g).cells
  waiting : (genOf t g).waiting = (genOf u g).waiting
  cal : t.cal = u.cal
  flagged : ∀ k, Flagged u .cal k → Flagged t .cal k

theorem relocks_spareChanged (f g : Nat) (atBell : Bool) (u : State) : Relocks g u (spareChanged f (spareLocking atBell g u)) := by
  have hsame : SameBut ([.gens, .flocks] ++ evs .rcg [1, 2, 3] ++ evs .flock [2, 3, 9, 10]) u (spareChanged f (spareLocking atBell g u)) :=
    (same_spareChanged f (by decide)).mpr ((same_spareLocking atBell g (by decide)).mpr .rfl)
  obtain ⟨hst, hfrom, hrej, hcells, hwait⟩ := spareLocking_keeps atBell g u
  obtain ⟨hst', hfrom', hrej', hcells', hwait'⟩ := genOf_of_view (genView_spareChanged f (spareLocking atBell g u)) g
  exact ⟨hst'.trans hst, hfrom'.trans hfrom, hrej'.trans hrej, hcells'.trans hcells, hwait'.trans hwait, hsame .cal (by decide),
    fun k h => flagged_of_sameBut hsame (by simp [evs]) h⟩

/-! ### What follows a path's going out of use, and its coming back -/

theorem pathView_updateSvc (f : Nat) (s : State) : pathView (updateSvc f s) = pathView s := pathView_of_samePace (samePace_updateSvc f s)

/-- A flock's record with its paths as they were. -/
theorem pathView_setFlock_paths {f : Nat} {x : Flock} {s : State} (h0 : x.p0 = (flockOf s f).p0) (h1 : x.p1 = (flockOf s f).p1)
    (h2 : x.p2 = (flockOf s f).p2) : pathView (setFlock f x s) = pathView s :=
  pathView_setFlock fun p => by simp only [pathView, pathOf, h0, h1, h2]

theorem pathView_reselect (f : Nat) (s : State) : pathView (reselect f s) = pathView s := by
  unfold reselect
  extract_lets h fl
  refine ite_view rfl ?_
  cases h with
  | nil => rfl
  | cons p _ => exact pathView_setFlock_paths rfl rfl rfl

theorem pathView_autoExclude (r : Nat) (s : State) : pathView (autoExclude r s) = pathView s := by
  unfold autoExclude
  extract_lets t t'
  exact (pathView_updateSvc ..).trans (pathView_of_flocks (by simp [t', t, leaveContract, disarmXings]))

theorem pathView_clockLost (f : Nat) (s : State) : pathView (clockLost f s) = pathView s :=
  (forAll_view (fun r t => ite_view (pathView_autoExclude r t) rfl) _ _).trans (pathView_setFlock_paths rfl rfl rfl)

theorem raiseAbout_flocks (b : Block) (k x : Nat) (s : State) : (raiseAbout b k x s).flocks = s.flocks := by simp

theorem pathView_pathGone (f : Nat) (s : State) : pathView (pathGone f s) = pathView s := by
  unfold pathGone
  extract_lets t
  have ht : pathView t = pathView s := pathView_reselect f s
  refine Eq.trans ?_ ht
  split
  · exact (pathView_updateSvc ..).trans (ite_view rfl (pathView_clockLost f t))
  · refine ite_view rfl ((pathView_updateSvc ..).trans ?_)
    exact (pathView_of_flocks (raiseAbout_flocks ..)).trans (pathView_setFlock_paths rfl rfl rfl)
  · rfl

theorem pathView_pathBack (f : Nat) (s : State) : pathView (pathBack f s) = pathView s := by
  unfold pathBack
  extract_lets t fl lone u
  have hu : u.flocks = t.flocks := by
    unfold u
    split <;> simp
  have hf : flockOf u f = fl := by simp only [flockOf, hu, fl]
  calc pathView (updateSvc f (setFlock f { fl with noClock := fl.noClock && (healthyPaths u f).isEmpty, lastPath := lone } u)) = pathView u :=
        (pathView_updateSvc ..).trans (pathView_setFlock_paths (by rw [hf]) (by rw [hf]) (by rw [hf]))
    _ = pathView t := pathView_of_flocks hu
    _ = pathView s := pathView_reselect f s

/-! ### What follows a calibration's result -/

theorem gens_noteArrival (f : Nat) (s : State) : (noteArrival f s).gens = s.gens ∧ (noteArrival f s).flocks = s.flocks ∧
    (noteArrival f s).cal.calTick = s.cal.calTick := by
  unfold noteArrival
  extract_lets a
  split <;> exact ⟨rfl, rfl, rfl⟩

theorem setFlock_gens (f : Nat) (x : Flock) (s : State) : (setFlock f x s).gens = s.gens := rfl

theorem genView_dueSpare (g : Nat) (t : State) :
    genView (if (genOf t g).st = .free then setGen g { genOf t g with due := true } t else t) = genView t := by
  split
  · exact genView_setGen rfl
  · rfl

theorem genView_flockDue (f : Nat) (s : State) : genView (flockDue f s) = genView s := by
  unfold flockDue
  extract_lets s1 s2 s3 s4
  have h1 : s1.gens = s.gens := (gens_noteArrival f s).1
  have h2 : s2.gens = s1.gens := forAll_view (v := State.gens) (fun r t => by dsimp only; split <;> simp) ..
  have h3 : genView s3 = genView s2 := forAll_view (v := genView) genView_dueSpare (spareRows s2.build f) s2
  have h4 : s4.gens = s3.gens := forAll_view (v := State.gens) (fun p t => by simp) ..
  exact (genView_of_gens ((setFlock_gens ..).trans h4)).trans (h3.trans (genView_of_gens (h2.trans h1)))

theorem pathView_flockDue (f : Nat) (s : State) : pathView (flockDue f s) = pathView s := by
  have hend (u : State) : pathView (setFlock f { flockOf u f with tempHold := none } u) = pathView u := pathView_setFlock_paths rfl rfl rfl
  unfold flockDue
  extract_lets s1 s2 s3 s4
  have h1 : s1.flocks = s.flocks := (gens_noteArrival f s).2.1
  have h2 : s2.flocks = s1.flocks := forAll_view (v := State.flocks) (fun r t => by dsimp only; split <;> simp) ..
  have h3 : s3.flocks = s2.flocks := forAll_view (v := State.flocks) (fun g t => by dsimp only; split <;> simp) ..
  have h4 : pathView s4 = pathView s3 := forAll_view (v := pathView) (fun p t => pathView_withPath_due f p true t) (List.range s3.build.paths) s3
  exact (hend s4).trans (h4.trans (pathView_of_flocks (h3.trans (h2.trans h1))))

/-- When the values in force last changed is not touched by a trigger (R341, R356). -/
theorem calTick_flockDue (f : Nat) (s : State) : (flockDue f s).cal.calTick = s.cal.calTick := by
  unfold flockDue
  extract_lets s1 s2 s3 s4
  have h1 : s1.cal.calTick = s.cal.calTick := (gens_noteArrival f s).2.2
  have h2 : s2.cal = s1.cal := forAll_view (v := State.cal) (fun r t => by dsimp only; split <;> simp) ..
  have h3 : s3.cal = s2.cal := forAll_view (v := State.cal) (fun g t => by dsimp only; split <;> simp) ..
  have h4 : s4.cal = s3.cal := forAll_view (v := State.cal) (fun p t => by simp) ..
  rw [show (setFlock f { flockOf s4 f with tempHold := none } s4).cal = s4.cal from by simp, h4, h3, h2, h1]

/-- A view that a trigger of the flock and its CAL_DONE keep is kept where its last calibration may complete. -/
theorem calDoneCheck_view {α : Type} {v : State → α} {f : Nat} (hdue : ∀ t, v (flockDue f t) = v t)
    (hraise : ∀ t, v (raiseAbout .cal 0 f t) = v t) (s : State) : v (calDoneCheck f s) = v s := by
  unfold calDoneCheck
  extract_lets busy t
  exact ite_view rfl (ite_view ((hdue t).trans (hraise s)) (hraise s))

theorem genView_calDoneCheck (f : Nat) (s : State) : genView (calDoneCheck f s) = genView s :=
  calDoneCheck_view (genView_flockDue f) (fun _ => genView_of_gens (by simp)) s

theorem pathView_calDoneCheck (f : Nat) (s : State) : pathView (calDoneCheck f s) = pathView s :=
  calDoneCheck_view (pathView_flockDue f) (fun _ => pathView_of_flocks (by simp)) s

theorem calTick_calDoneCheck (f : Nat) (s : State) : (calDoneCheck f s).cal.calTick = s.cal.calTick :=
  calDoneCheck_view (v := fun t => t.cal.calTick) (calTick_flockDue f) (fun _ => by simp) s

theorem genView_changedIf (c : Bool) (s : State) : genView (changedIf c s) = genView s := ite_view (genView_of_gens (by rfl)) rfl

theorem pathView_changedIf (c : Bool) (s : State) : pathView (changedIf c s) = pathView s := ite_view (pathView_of_flocks (by rfl)) rfl

theorem tally_changedIf (c : Bool) (s : State) : (changedIf c s).tally = s.tally := ite_view (v := State.tally) rfl rfl

theorem tempAoLast_changedIf (c : Bool) (s : State) : (changedIf c s).cal.tempAoLast = s.cal.tempAoLast :=
  ite_view (v := fun t => t.cal.tempAoLast) rfl rfl

/-- A rejected result is counted and reported, and no unit's record takes it (R355). -/
structure Reports (s t : State) : Prop where
  count : t.cal.cntRej = s.cal.cntRej + 1
  flagged : Flagged t .cal 1
  same : SameBut ([.cal] ++ evs .cal [1, 2]) s t

theorem Reports.gens {s t : State} (h : Reports s t) : t.gens = s.gens := h.same .gens (by decide)

theorem Reports.flocks {s t : State} (h : Reports s t) : t.flocks = s.flocks := h.same .flocks (by decide)

theorem Reports.tally {s t : State} (h : Reports s t) : t.tally = s.tally := h.same .tally (by decide)

theorem Reports.root {s t : State} (h : Reports s t) : t.root = s.root := h.same .root (by decide)

theorem genOf_of_gens {s t : State} (h : t.gens = s.gens) (g : Nat) : genOf t g = genOf s g := by simp only [genOf, h]

theorem reports_rejectResult (f : Option Nat) (was : Bool) (s : State) : Reports s (rejectResult f was s) where
  count := by cases f <;> simp only [rejectResult, rejectResults] <;> split <;> simp [bump16]
  flagged := by
    cases f <;> simp only [rejectResult, rejectResults] <;> split
    · exact flagged_raise_of 2 (flagged_raise _ .cal (by decide))
    · exact flagged_raise _ .cal (by decide)
    · exact flagged_raiseAbout_of 2 _ (flagged_raiseAbout _ .cal _ (by decide))
    · exact flagged_raiseAbout _ .cal _ (by decide)
  same := (same_rejectResult f was (List.Subset.refl _)).mpr .rfl

/-! ### The charge pumps -/

/-- What a charge pump's calibration leaves of a synthesizer stays, and no calibration of one starts. -/
structure PumpKept (s t : State) : Prop where
  target : ∀ y, (synOf t y).pumpTarget = (synOf s y).pumpTarget
  due : ∀ y, (synOf t y).due = (synOf s y).due
  rejected : ∀ y, (synOf t y).rejected = (synOf s y).rejected
  ended : ∀ y, (synOf s y).pumpCal = false → (synOf t y).pumpCal = false

theorem PumpKept.trans {s t u : State} (h : PumpKept s t) (k : PumpKept t u) : PumpKept s u :=
  ⟨fun y => (k.target y).trans (h.target y), fun y => (k.due y).trans (h.due y), fun y => (k.rejected y).trans (h.rejected y),
    fun y hy => k.ended y (h.ended y hy)⟩

theorem pumpKept_of_syns {s t : State} (h0 : t.root.s0 = s.root.s0) (h1 : t.root.s1 = s.root.s1) : PumpKept s t := by
  have hsyn (y : Syn) : synOf t y = synOf s y := by cases y <;> assumption
  exact ⟨fun y => by rw [hsyn], fun y => by rw [hsyn], fun y => by rw [hsyn], fun y h => by rw [hsyn, h]⟩

theorem PumpKept.refl (s : State) : PumpKept s s := pumpKept_of_syns rfl rfl

theorem pumpKept_setSyn {y : Syn} {x : Synth} {s : State} (ht : x.pumpTarget = (synOf s y).pumpTarget) (hd : x.due = (synOf s y).due)
    (hr : x.rejected = (synOf s y).rejected) (ho : (synOf s y).pumpCal = false → x.pumpCal = false) : PumpKept s (setSyn y x s) := by
  have h (z : Syn) : z = y ∨ synOf (setSyn y x s) z = synOf s z := by cases y <;> cases z <;> simp [synOf, setSyn]
  refine ⟨fun z => ?_, fun z => ?_, fun z => ?_, fun z hz => ?_⟩ <;> rcases h z with rfl | h
  · rw [synOf_setSyn, ht]
  · rw [h]
  · rw [synOf_setSyn, hd]
  · rw [h]
  · rw [synOf_setSyn, hr]
  · rw [h]
  · rw [synOf_setSyn, ho hz]
  · rw [h, hz]

theorem pumpKept_ite {c : Prop} [Decidable c] {s t u : State} (ht : PumpKept s t) (hu : PumpKept s u) : PumpKept s (if c then t else u) := by
  split
  · exact ht
  · exact hu

theorem pumpKept_raise (b : Block) (k : Nat) (s : State) : PumpKept s (raise b k s) := pumpKept_of_syns (by simp) (by simp)

theorem pumpKept_startAcquire (y : Syn) (s : State) : PumpKept s (startAcquire y s) := by
  unfold startAcquire
  extract_lets x
  refine pumpKept_ite (pumpKept_setSyn rfl rfl rfl fun _ => rfl) ?_
  split
  · exact pumpKept_setSyn rfl rfl rfl fun _ => rfl
  · refine PumpKept.trans ?_ (pumpKept_raise ..)
    exact pumpKept_setSyn rfl rfl rfl fun _ => rfl

theorem pumpKept_enableSyn (y : Syn) (s : State) : PumpKept s (enableSyn y s) :=
  pumpKept_ite (pumpKept_startAcquire y s) (.refl s)

theorem pumpKept_sparePower (s : State) : PumpKept s (sparePower s) := by
  unfold sparePower
  extract_lets o x t
  have ht : PumpKept s t := pumpKept_setSyn rfl rfl rfl fun _ => rfl
  refine pumpKept_ite (pumpKept_ite (.refl s) ?_) (pumpKept_ite (.refl s) (ht.trans (pumpKept_of_syns rfl rfl)))
  refine PumpKept.trans ?_ (pumpKept_enableSyn ..)
  exact pumpKept_setSyn rfl rfl rfl id

theorem pumpKept_prefSwitch (s : State) : PumpKept s (prefSwitch s) := by
  unfold prefSwitch
  extract_lets y o t x
  have ht : PumpKept s t := pumpKept_of_syns rfl rfl
  exact pumpKept_ite (ht.trans (pumpKept_setSyn rfl rfl rfl id)) (.refl s)

theorem pumpKept_prefAct (s : State) : PumpKept s (prefAct s) := (pumpKept_prefSwitch s).trans (pumpKept_sparePower _)

theorem pumpKept_alignedAct (s : State) (c : Bool) :
    PumpKept s (if c then prefAct { s with root := { s.root with aligned := true } } else s) := by
  refine pumpKept_ite (PumpKept.trans ?_ (pumpKept_prefAct _)) (.refl s)
  exact pumpKept_of_syns rfl rfl

/-- The end of a charge-pump calibration keeps what it left (R354). -/
theorem pumpKept_pumpOver (y : Syn) (s : State) : PumpKept s (pumpOver y s) := by
  refine PumpKept.trans (t := setSyn y { synOf s y with pumpCal := false } s) ?_ (pumpKept_alignedAct _ _)
  exact pumpKept_setSyn rfl rfl rfl fun _ => rfl

theorem pumpCal_pumpOver (y : Syn) (s : State) : (synOf (pumpOver y s) y).pumpCal = false :=
  (pumpKept_alignedAct (setSyn y { synOf s y with pumpCal := false } s) _).ended y (by simp)

end Sys2Proof.Machine
end

