-- ==== Sys2Proof/Proofs/CalibrationRuns.lean ====
section
/-!
PROOF. The start, the end and the timeout of each unit's calibration (O24): spares, mesh paths, Tally units and charge pumps
(R19, R343, R351 to R355, R357, R358).
-/
namespace Sys2Proof.Machine
open Sys2Proof

/-! ### Spares -/

theorem completes_spareCalStart {s : State} {f j : Nat} (hspare : isSpare s f j = true) (hdue : (genOf s (spareRow s.build f j)).due = true)
    (hst : (genOf s (spareRow s.build f j)).st = .free) (hcal : calRuns s = true)
    (hcover : othersCover s f (spareRow s.build f j) = true ∨ (s.fold.calPlanned = true ∧ s.fold.tail = true)) (hturn : turnOf s f = true) :
    Completes (.spareCalStart f j) s (fun t =>
      (genOf t (spareRow s.build f j)).st = .measuring ∧ (genOf t (spareRow s.build f j)).calFrom = some s.time.total) := by
  have hstart : spareStartable s f j = true := by
    simp only [spareStartable, hdue, hst, hcal, decide_true, Bool.and_self, Bool.true_and, Bool.or_eq_true, Bool.and_eq_true]
    exact hcover
  have hexec : exec (.spareCalStart f j) s = .next (spareChanged f (setGen (spareRow s.build f j)
      { genOf s (spareRow s.build f j) with st := .measuring, calFrom := some s.time.total } s)) := by
    change execSpareCalStart f j s = _
    simp only [execSpareCalStart, hspare, hstart, hturn, Bool.and_self, if_true]
  obtain ⟨hst, hfrom, -⟩ := genOf_of_view (genView_spareChanged f (setGen (spareRow s.build f j)
    { genOf s (spareRow s.build f j) with st := .measuring, calFrom := some s.time.total } s)) (spareRow s.build f j)
  exact ⟨_, hexec, hst.trans (by simp), hfrom.trans (by simp)⟩

section
variable {f g b c0 c1 : Nat} {s : State}

/-- An accepted correction of a spare's cells is applied at once (R355). -/
theorem judgeSpare_accepts (h : cellsOk (entryOf (genOf s g).copy b) c0 c1 = true) :
    (genOf (judgeSpare f g b c0 c1 s) g).rejected = false ∧ tabGet (genOf (judgeSpare f g b c0 c1 s) g).cells b 0 =
      tabGet (genOf s g).cells b 0 + BitVec.ofInt 8 (cellProposal (entryOf (genOf s g).copy b) c0) := by
  simp only [judgeSpare, h, if_true]
  obtain ⟨-, -, hrej, hcells, -⟩ := genOf_of_view ((genView_calDoneCheck f _).trans (genView_changedIf
    (decide (cellProposal (entryOf (genOf s g).copy b) c0 ≠ 0)) (setGen g { genOf s g with
      cells := tabSet (genOf s g).cells b (stepSel (tabGet (genOf s g).cells b 0) (cellProposal (entryOf (genOf s g).copy b) c0)) 0
      due := false, rejected := false, waiting := none } s))) g
  rw [hrej, hcells]
  simp [stepSel]

/-- A rejected one is counted and reported, and the cells stay (R355). -/
theorem judgeSpare_rejects (h : cellsOk (entryOf (genOf s g).copy b) c0 c1 = false) :
    (genOf (judgeSpare f g b c0 c1 s) g).rejected = !(genOf s g).rejected ∧
    (genOf (judgeSpare f g b c0 c1 s) g).cells = (genOf s g).cells ∧
    (judgeSpare f g b c0 c1 s).cal.cntRej = s.cal.cntRej + 1 ∧ Flagged (judgeSpare f g b c0 c1 s) .cal 1 := by
  simp only [judgeSpare, h, Bool.false_eq_true, if_false]
  have hrep := reports_rejectResult (some f) (genOf s g).rejected (setGen g { genOf s g with
    due := (genOf s g).due && !(genOf s g).rejected, rejected := !(genOf s g).rejected, waiting := none } s)
  refine ⟨?_, ?_, hrep.count, hrep.flagged⟩ <;> simp [genOf_of_gens hrep.gens]

end

/-- What becomes of a spare's counts at the end of its calibration: they are discarded, judged, or wait for the core (R343, R351). -/
def spareResult (f g c0 c1 : Nat) (checked : Bool) (s : State) : State :=
  if s.root.bypass || !calMode s then raiseAbout .cal 7 f s
  else if checksNow s checked then judgeSpare f g ((selBand (genOf s g)).getD 0) c0 c1 s
  else hangUnless checked (setGen g { genOf s g with waiting := some ((selBand (genOf s g)).getD 0, c0, c1) } s)

theorem spareResult_judged {f g c0 c1 : Nat} {checked : Bool} {s : State} (hc : checked = true) (hr : coreRuns s = true)
    (hb : s.root.bypass = false) (hm : calMode s = true) :
    spareResult f g c0 c1 checked s = judgeSpare f g ((selBand (genOf s g)).getD 0) c0 c1 s := by
  simp [spareResult, checksNow, hc, hr, hb, hm]

theorem spareResult_waits {f g c0 c1 : Nat} {checked : Bool} {s : State} (hc : checked = false ∨ coreRuns s = false)
    (hb : s.root.bypass = false) (hm : calMode s = true) :
    genOf (spareResult f g c0 c1 checked s) g = { genOf s g with waiting := some ((selBand (genOf s g)).getD 0, c0, c1) } := by
  have hn : checksNow s checked = false := by rcases hc with h | h <;> simp [checksNow, h]
  simp only [spareResult, hb, hm, hn, Bool.not_true, Bool.or_self, Bool.false_eq_true, if_false]
  unfold hangUnless
  split <;> simp [genOf, setGen]

theorem spareResult_discarded {f g c0 c1 : Nat} {checked : Bool} {s : State} (h : s.root.bypass = true ∨ calMode s = false) :
    spareResult f g c0 c1 checked s = raiseAbout .cal 7 f s := by
  rcases h with h | h <;> simp [spareResult, h]

section
variable {s : State} {f j : Nat} {counts : Nat × Nat} {checked : Bool} {f0 : Nat} (hspare : isSpare s f j = true)
  (hfrom : (genOf s (spareRow s.build f j)).calFrom = some f0) (hover : f0 + 450 ≤ s.time.total)
include hspare hfrom hover

/-- A spare whose 450 ticks are over relocks, its counts discarded, judged or waiting (R343, R351). -/
theorem exec_spareCalEnd : ∃ t, exec (.spareCalEnd f j counts checked) s = .next t ∧
    Relocks (spareRow s.build f j) (spareResult f (spareRow s.build f j) counts.1 counts.2 checked s) t := by
  refine ⟨_, ?_, relocks_spareChanged f (spareRow s.build f j) false _⟩
  change execSpareCalEnd f j counts checked s = _
  simp only [execSpareCalEnd, hspare, hfrom, hover, if_true, spareResult]

theorem completes_spareCalEnd_accepted (hc : checked = true) (hr : coreRuns s = true) (hb : s.root.bypass = false) (hm : calMode s = true)
    (hok : cellsOk (entryOf (genOf s (spareRow s.build f j)).copy ((selBand (genOf s (spareRow s.build f j))).getD 0)) counts.1 counts.2 = true) :
    Completes (.spareCalEnd f j counts checked) s (fun t =>
      (genOf t (spareRow s.build f j)).st = .locking ∧ (genOf t (spareRow s.build f j)).calFrom = none ∧
      (genOf t (spareRow s.build f j)).rejected = false ∧
      tabGet (genOf t (spareRow s.build f j)).cells ((selBand (genOf s (spareRow s.build f j))).getD 0) 0 =
        tabGet (genOf s (spareRow s.build f j)).cells ((selBand (genOf s (spareRow s.build f j))).getD 0) 0 +
          BitVec.ofInt 8 (cellProposal (entryOf (genOf s (spareRow s.build f j)).copy
            ((selBand (genOf s (spareRow s.build f j))).getD 0)) counts.1)) := by
  obtain ⟨t, hexec, hrel⟩ := exec_spareCalEnd (counts := counts) (checked := checked) hspare hfrom hover
  rw [spareResult_judged hc hr hb hm] at hrel
  obtain ⟨hrej, hcells⟩ := judgeSpare_accepts (f := f) hok
  exact ⟨t, hexec, hrel.st, hrel.calFrom, hrel.rejected.trans hrej, by rw [hrel.cells, hcells]⟩

theorem completes_spareCalEnd_rejected (hc : checked = true) (hr : coreRuns s = true) (hb : s.root.bypass = false) (hm : calMode s = true)
    (hok : cellsOk (entryOf (genOf s (spareRow s.build f j)).copy ((selBand (genOf s (spareRow s.build f j))).getD 0)) counts.1 counts.2 = false) :
    Completes (.spareCalEnd f j counts checked) s (fun t =>
      (genOf t (spareRow s.build f j)).st = .locking ∧ (genOf t (spareRow s.build f j)).calFrom = none ∧
      (genOf t (spareRow s.build f j)).rejected = !(genOf s (spareRow s.build f j)).rejected ∧
      (genOf t (spareRow s.build f j)).cells = (genOf s (spareRow s.build f j)).cells ∧
      t.cal.cntRej = s.cal.cntRej + 1 ∧ Flagged t .cal 1) := by
  obtain ⟨t, hexec, hrel⟩ := exec_spareCalEnd (counts := counts) (checked := checked) hspare hfrom hover
  rw [spareResult_judged hc hr hb hm] at hrel
  obtain ⟨hrej, hcells, hcount, hflag⟩ := judgeSpare_rejects (f := f) hok
  exact ⟨t, hexec, hrel.st, hrel.calFrom, hrel.rejected.trans hrej, hrel.cells.trans hcells, by rw [hrel.cal, hcount], hrel.flagged 1 hflag⟩

theorem completes_spareCalEnd_waiting (hc : checked = false ∨ coreRuns s = false) (hb : s.root.bypass = false) (hm : calMode s = true) :
    Completes (.spareCalEnd f j counts checked) s (fun t =>
      (genOf t (spareRow s.build f j)).st = .locking ∧ (genOf t (spareRow s.build f j)).calFrom = none ∧
      (genOf t (spareRow s.build f j)).waiting = some ((selBand (genOf s (spareRow s.build f j))).getD 0, counts.1, counts.2) ∧
      (genOf t (spareRow s.build f j)).cells = (genOf s (spareRow s.build f j)).cells) := by
  obtain ⟨t, hexec, hrel⟩ := exec_spareCalEnd (counts := counts) (checked := checked) hspare hfrom hover
  have hgen := spareResult_waits (f := f) (g := spareRow s.build f j) (c0 := counts.1) (c1 := counts.2) hc hb hm
  exact ⟨t, hexec, hrel.st, hrel.calFrom, by rw [hrel.waiting, hgen], by rw [hrel.cells, hgen]⟩

theorem completes_spareCalEnd_discarded (h : s.root.bypass = true ∨ calMode s = false) :
    Completes (.spareCalEnd f j counts checked) s (fun t =>
      (genOf t (spareRow s.build f j)).st = .locking ∧ (genOf t (spareRow s.build f j)).calFrom = none ∧
      (genOf t (spareRow s.build f j)).cells = (genOf s (spareRow s.build f j)).cells ∧ Flagged t .cal 7) := by
  obtain ⟨t, hexec, hrel⟩ := exec_spareCalEnd (counts := counts) (checked := checked) hspare hfrom hover
  rw [spareResult_discarded h] at hrel
  exact ⟨t, hexec, hrel.st, hrel.calFrom, hrel.cells.trans (congrArg Gen.cells (genOf_of_gens (by simp) _)),
    hrel.flagged 7 (flagged_raiseAbout _ .cal _ (by decide))⟩

end

/-! ### Mesh paths -/

/-- Path p of flock f with its record replaced. -/
def putPath (f p : Nat) (m : MeshPath) (s : State) : State := setFlock f (withPath (flockOf s f) p m) s

theorem pathOf_putPath (f p : Nat) (m : MeshPath) (s : State) : pathOf (flockOf (putPath f p m s) f) p = m := by
  simp [putPath]

/-- A path whose taps are accepted relocks with them, and keeps the old ones until it is back in use (R352, R355). -/
def acceptedPath (m : MeshPath) (taps : List (BitVec 8)) : MeshPath :=
  relockPath { m with taps := taps, tapsOld := some m.taps, due := false, rejected := false }

/-- One whose taps are rejected relocks with those it has, and the second rejection in a row ends the due state (R355). -/
def rejectedPath (m : MeshPath) : MeshPath := relockPath { m with due := m.due && !m.rejected, rejected := !m.rejected }

/-- What is told of a path put in place by a state whose paths are still of that view. -/
theorem pathOf_of_put {f p : Nat} {m : MeshPath} {s t : State} (h : pathView t = pathView (putPath f p m s)) :
    (pathOf (flockOf t f) p).taps = m.taps ∧ (pathOf (flockOf t f) p).tapsOld = m.tapsOld ∧ (pathOf (flockOf t f) p).tapsNew = m.tapsNew ∧
    (pathOf (flockOf t f) p).rejected = m.rejected ∧ (pathOf (flockOf t f) p).locked = m.locked ∧
    (pathOf (flockOf t f) p).mValid = m.mValid ∧ (pathOf (flockOf t f) p).calOut = m.calOut ∧
    (pathOf (flockOf t f) p).calFrom = m.calFrom := by
  simpa only [pathOf_putPath] using pathOf_of_view h f p

theorem completes_pathCalStart {s : State} {f p : Nat} (hpath : isPath s f p = true) (hdue : (pathOf (flockOf s f) p).due = true)
    (huse : pathUsable s f p = true) (hcal : calRuns s = true) (htwo : 2 ≤ (healthyPaths s f).length) (hturn : turnOf s f = true) :
    Completes (.pathCalStart f p) s (fun t =>
      (pathOf (flockOf t f) p).calOut = true ∧ (pathOf (flockOf t f) p).calFrom = s.time.total) := by
  have hstart : pathStartable s f p = true := by simp [pathStartable, hdue, hcal, huse, htwo]
  have hexec : exec (.pathCalStart f p) s =
      .next (pathGone f (putPath f p { pathOf (flockOf s f) p with calOut := true, calFrom := s.time.total } s)) := by
    change execPathCalStart f p s = _
    simp only [execPathCalStart, hpath, hstart, hturn, Bool.and_self, if_true, putPath]
  obtain ⟨-, -, -, -, -, -, hout, hfrom⟩ := pathOf_of_put (pathView_pathGone f (putPath f p
    { pathOf (flockOf s f) p with calOut := true, calFrom := s.time.total } s))
  exact ⟨_, hexec, hout, hfrom⟩

theorem calTick_changedIf {c : Bool} (h : c = true) (s : State) : (changedIf c s).cal.calTick = s.time.counter := by
  subst h
  rfl

theorem tapsOk_iff {taps : List (BitVec 8 × Nat)} : tapsOk taps = true ↔ ∀ y ∈ taps, 4 * ((y.2 : Int) - 31250).natAbs ≤ 31250 := by
  simp only [tapsOk, List.all_eq_true, decide_eq_true_eq]

section
variable {s : State} {f p : Nat} {taps : List (BitVec 8 × Nat)} {ts : List (BitVec 8)} (hpath : isPath s f p = true)
  (hout : (pathOf (flockOf s f) p).calOut = true) (hlock : (pathOf (flockOf s f) p).locked = true) (hfw : fwHolds s = false)
  (hlen : taps.length = 128)
include hpath hout hlock hfw hlen

theorem completes_pathCalDone_accepted (hnew : (pathOf (flockOf s f) p).tapsNew = none) (hm : calMode s = true)
    (hok : ∀ y ∈ taps, 4 * ((y.2 : Int) - 31250).natAbs ≤ 31250) :
    Completes (.pathCalDone f p taps) s (fun t =>
      (pathOf (flockOf t f) p).taps = taps.map Prod.fst ∧ (pathOf (flockOf t f) p).rejected = false ∧
      (pathOf (flockOf t f) p).locked = false ∧ (pathOf (flockOf t f) p).mValid = false ∧ (pathOf (flockOf t f) p).calOut = true ∧
      (pathOf (flockOf t f) p).tapsOld = some (pathOf (flockOf s f) p).taps ∧
      (sameBytes (taps.map Prod.fst) (pathOf (flockOf s f) p).taps = false → t.cal.calTick = s.time.counter)) := by
  have hexec : exec (.pathCalDone f p taps) s = .next (calDoneCheck f (changedIf (!sameBytes (taps.map Prod.fst) (pathOf (flockOf s f) p).taps)
      (putPath f p (acceptedPath (pathOf (flockOf s f) p) (taps.map Prod.fst)) s))) := by
    change execPathCalDone f p taps s = _
    simp [execPathCalDone, hpath, hout, hlock, hfw, hlen, tapCount, hnew, hm, tapsOk_iff.mpr hok, putPath, acceptedPath]
  obtain ⟨htaps, hold, -, hrej, hlock', hval, hout', -⟩ := pathOf_of_put ((pathView_calDoneCheck f _).trans (pathView_changedIf
    (!sameBytes (taps.map Prod.fst) (pathOf (flockOf s f) p).taps) (putPath f p (acceptedPath (pathOf (flockOf s f) p) (taps.map Prod.fst)) s)))
  exact ⟨_, hexec, htaps, hrej, hlock', hval, hout'.trans hout, hold,
    fun hnew => (calTick_calDoneCheck f _).trans (calTick_changedIf (by rw [hnew, Bool.not_false]) _)⟩

theorem completes_pathCalDone_rejected (hnew : (pathOf (flockOf s f) p).tapsNew = none) (hm : calMode s = true)
    (hbad : ¬(∀ y ∈ taps, 4 * ((y.2 : Int) - 31250).natAbs ≤ 31250)) :
    Completes (.pathCalDone f p taps) s (fun t =>
      (pathOf (flockOf t f) p).taps = (pathOf (flockOf s f) p).taps ∧
      (pathOf (flockOf t f) p).rejected = !(pathOf (flockOf s f) p).rejected ∧
      (pathOf (flockOf t f) p).locked = false ∧ (pathOf (flockOf t f) p).mValid = false ∧ (pathOf (flockOf t f) p).calOut = true ∧
      t.cal.cntRej = s.cal.cntRej + 1 ∧ Flagged t .cal 1) := by
  have hok : tapsOk taps = false := Bool.eq_false_iff.mpr fun h => hbad (tapsOk_iff.mp h)
  have hexec : exec (.pathCalDone f p taps) s = .next (rejectResult (some f) (pathOf (flockOf s f) p).rejected
      (putPath f p (rejectedPath (pathOf (flockOf s f) p)) s)) := by
    change execPathCalDone f p taps s = _
    simp [execPathCalDone, hpath, hout, hlock, hfw, hlen, tapCount, hnew, hm, hok, putPath, rejectedPath]
  have hrep := reports_rejectResult (some f) (pathOf (flockOf s f) p).rejected (putPath f p (rejectedPath (pathOf (flockOf s f) p)) s)
  obtain ⟨htaps, -, -, hrej, hlock', hval, hout', -⟩ := pathOf_of_put (pathView_of_flocks hrep.flocks)
  exact ⟨_, hexec, htaps, hrej, hlock', hval, hout'.trans hout, hrep.count, hrep.flagged⟩

/-- Restored taps are taken without being judged (R357). -/
theorem completes_pathCalDone_restored (hnew : (pathOf (flockOf s f) p).tapsNew = some ts) :
    Completes (.pathCalDone f p taps) s (fun t =>
      (pathOf (flockOf t f) p).taps = ts ∧ (pathOf (flockOf t f) p).tapsNew = none ∧
      (pathOf (flockOf t f) p).locked = false ∧ (pathOf (flockOf t f) p).mValid = false ∧ (pathOf (flockOf t f) p).calOut = true) := by
  have hexec : exec (.pathCalDone f p taps) s = .next (changedIf (!sameBytes ts (pathOf (flockOf s f) p).taps)
      (putPath f p (relockPath { pathOf (flockOf s f) p with taps := ts, tapsNew := none }) s)) := by
    change execPathCalDone f p taps s = _
    simp [execPathCalDone, hpath, hout, hlock, hfw, hlen, tapCount, hnew, putPath]
  obtain ⟨htaps, -, htaken, -, hlock', hval, hout', -⟩ := pathOf_of_put (pathView_changedIf (!sameBytes ts (pathOf (flockOf s f) p).taps)
    (putPath f p (relockPath { pathOf (flockOf s f) p with taps := ts, tapsNew := none }) s))
  exact ⟨_, hexec, htaps, htaken, hlock', hval, hout'.trans hout⟩

end

/-! ### Tally units -/

theorem tallyUnit_congr {s t : State} (h : t.tally = s.tally) (u : Nat) : tallyUnit t u = tallyUnit s u := by
  simp only [tallyUnit, h]

/-- A unit whose phases are accepted takes them (R353, R355). -/
def acceptedUnit (x : TallyUnit) (phases : List (BitVec 8)) : TallyUnit :=
  { x with phaseCal := none, phases := phases, due := false, rejected := false }

/-- One whose phases are rejected keeps its own, and the second rejection in a row ends the due state (R355). -/
def rejectedUnit (x : TallyUnit) : TallyUnit := { x with phaseCal := none, due := x.due && !x.rejected, rejected := !x.rejected }

theorem completes_tallyPhaseCalStart {s : State} {u : BitVec 2} (hdue : (tallyUnit s u.toNat).due = true)
    (hown : (tallyUnit s u.toNat).owner = .fw) (hbusy : tallyBusy (tallyUnit s u.toNat) = false)
    (hnone : (tallyUnit s u.toNat).phaseCal = none) (hcal : calRuns s = true) (hfree : u ≠ 0 ∨ unit0Free s 8192 = true)
    (hturn : turnOf s islandSource = true) :
    Completes (.tallyPhaseCalStart u) s (fun t => (tallyUnit t u.toNat).phaseCal = some s.time.total) := by
  have hu : (decide (u.toNat ≠ 0) || unit0Free s 8192) = true := by
    rcases hfree with h | h
    · have h0 : u.toNat ≠ 0 := fun h0 => h (BitVec.eq_of_toNat_eq h0)
      simp [h0]
    · simp [h]
  have hstart : tallyStartable s u.toNat = true := by
    simp only [tallyStartable, tallyDue, hdue, hown, hbusy, hnone, hcal, hu, decide_true, Option.isNone_none, Bool.and_self, Bool.not_false]
  refine ⟨setTally u.toNat { tallyUnit s u.toNat with phaseCal := some s.time.total } s, ?_, congrArg TallyUnit.phaseCal (tallyUnit_setTally ..)⟩
  change execTallyPhaseCalStart u s = _
  simp only [execTallyPhaseCalStart, hstart, hturn, Bool.and_self, if_true]

theorem phasesOk_iff {phases : List (BitVec 8 × Nat)} : phasesOk phases = true ↔ ∀ y ∈ phases, 4 * ((y.2 : Int) - 15625).natAbs ≤ 15625 := by
  simp only [phasesOk, List.all_eq_true, decide_eq_true_eq]

section
variable {s : State} {u : BitVec 2} {phases : List (BitVec 8 × Nat)} {f0 : Nat} (hcal : (tallyUnit s u.toNat).phaseCal = some f0)
  (hover : f0 + 8192 ≤ s.time.total) (hrun : coreRuns s = true) (hlen : phases.length = 16) (hown : (tallyUnit s u.toNat).owner = .fw)
  (hm : calMode s = true)
include hcal hover hrun hlen hown hm

theorem completes_tallyPhaseCalDone_accepted (hok : ∀ y ∈ phases, 4 * ((y.2 : Int) - 15625).natAbs ≤ 15625) :
    Completes (.tallyPhaseCalDone u phases) s (fun t =>
      (tallyUnit t u.toNat).phaseCal = none ∧ (tallyUnit t u.toNat).phases = phases.map Prod.fst ∧
      (tallyUnit t u.toNat).due = false ∧ t.cal.tempAoLast = s.cal.tempAo) := by
  have hexec : exec (.tallyPhaseCalDone u phases) s = .next (changedIf (!sameBytes (phases.map Prod.fst) (tallyUnit s u.toNat).phases)
      (islandDone (setTally u.toNat (acceptedUnit (tallyUnit s u.toNat) (phases.map Prod.fst)) s))) := by
    change execTallyPhaseCalDone u phases s = _
    simp [execTallyPhaseCalDone, hcal, hover, hrun, hlen, hown, hm, phasesOk_iff.mpr hok, acceptedUnit]
  have hunit := (tallyUnit_congr (tally_changedIf (!sameBytes (phases.map Prod.fst) (tallyUnit s u.toNat).phases)
    (islandDone (setTally u.toNat (acceptedUnit (tallyUnit s u.toNat) (phases.map Prod.fst)) s))) u.toNat).trans (tallyUnit_setTally ..)
  exact ⟨_, hexec, congrArg TallyUnit.phaseCal hunit, congrArg TallyUnit.phases hunit, congrArg TallyUnit.due hunit,
    (tempAoLast_changedIf _ _).trans (by simp [islandDone])⟩

theorem completes_tallyPhaseCalDone_rejected (hbad : ¬(∀ y ∈ phases, 4 * ((y.2 : Int) - 15625).natAbs ≤ 15625)) :
    Completes (.tallyPhaseCalDone u phases) s (fun t =>
      (tallyUnit t u.toNat).phaseCal = none ∧ (tallyUnit t u.toNat).phases = (tallyUnit s u.toNat).phases ∧
      (tallyUnit t u.toNat).rejected = !(tallyUnit s u.toNat).rejected ∧ t.cal.cntRej = s.cal.cntRej + 1 ∧ Flagged t .cal 1) := by
  have hok : phasesOk phases = false := Bool.eq_false_iff.mpr fun h => hbad (phasesOk_iff.mp h)
  have hexec : exec (.tallyPhaseCalDone u phases) s = .next (rejectResult none (tallyUnit s u.toNat).rejected
      (setTally u.toNat (rejectedUnit (tallyUnit s u.toNat)) s)) := by
    change execTallyPhaseCalDone u phases s = _
    simp [execTallyPhaseCalDone, hcal, hover, hrun, hlen, hown, hm, hok, rejectedUnit]
  have hrep := reports_rejectResult none (tallyUnit s u.toNat).rejected (setTally u.toNat (rejectedUnit (tallyUnit s u.toNat)) s)
  have hunit := (tallyUnit_congr hrep.tally u.toNat).trans (tallyUnit_setTally ..)
  have hphases : (rejectedUnit (tallyUnit s u.toNat)).phases = (tallyUnit s u.toNat).phases := rfl
  exact ⟨_, hexec, congrArg TallyUnit.phaseCal hunit, (congrArg TallyUnit.phases hunit).trans hphases, congrArg TallyUnit.rejected hunit,
    hrep.count.trans (by simp), hrep.flagged⟩

end

/-! ### Charge pumps -/

theorem synOf_congr {s t : State} (h : t.root = s.root) (y : Syn) : synOf t y = synOf s y := by
  simp only [synOf, h]

/-- A synthesizer whose charge-pump code is accepted slews toward it (R355). -/
def acceptedPump (x : Synth) (code : BitVec 6) : Synth := { x with pumpTarget := code, due := false, rejected := false }

/-- One whose result is rejected keeps its code, and the second rejection in a row ends the due state (R355). -/
def rejectedPump (x : Synth) : Synth := { x with due := x.due && !x.rejected, rejected := !x.rejected }

/-- The end of a charge-pump calibration touches no count, and no event of calibration. -/
theorem same_pumpOver_self (y : Syn) (s : State) : SameBut ([.root] ++ evs .root [2, 8]) s (pumpOver y s) :=
  (same_pumpOver y (List.Subset.refl _)).mpr .rfl

theorem cal_pumpOver (y : Syn) (s : State) : (pumpOver y s).cal = s.cal := same_pumpOver_self y s .cal (by decide)

theorem completes_chargePumpCalStart {s : State} {y : Syn} (hdue : (synOf s y).due = true) (haligned : s.root.aligned = true)
    (hactive : s.root.active ≠ y) (hlock : (synOf s y).locked = true) (hqual : (synOf s y).qualified = true)
    (hfrozen : (synOf s y).frozen = false) (hnone : (synOf s y).pumpCal = false) (hcal : calRuns s = true)
    (hfree : unit0Free s 25000 = true) (hbusy : tallyBusy s.tally.u0 = false) (hturn : turnOf s islandSource = true) :
    Completes (.chargePumpCalStart y) s (fun t =>
      (synOf t y).pumpCal = true ∧ t.root.aligned = false ∧ t.cal.pumpFrom = s.time.total) := by
  have hstart : pumpStartable s y = true := by
    simp only [pumpStartable, pumpDue, hdue, haligned, hactive, hlock, hqual, hfrozen, hnone, hcal, hfree, hbusy, ne_eq,
      not_false_eq_true, decide_true, Bool.not_false, Bool.and_self]
  refine ⟨_, if_pos (by simp only [hstart, hturn, Bool.and_self]), ?_, rfl, by simp⟩
  cases y <;> rfl

section
variable {s : State} {y : Syn} {bandwidth : Nat} {code : BitVec 6} (hcal : (synOf s y).pumpCal = true) (hrun : coreRuns s = true)
  (hm : calMode s = true)
include hcal hrun hm

theorem completes_chargePumpCalDone_accepted (hok : 100 * ((bandwidth : Int) - loopKHz s y).natAbs ≤ 40 * loopKHz s y) :
    Completes (.chargePumpCalDone y bandwidth code) s (fun t =>
      (synOf t y).pumpCal = false ∧ (synOf t y).pumpTarget = code ∧ (synOf t y).due = false ∧ (synOf t y).rejected = false) := by
  have hexec : exec (.chargePumpCalDone y bandwidth code) s =
      .next (pumpOver y (islandDone (setSyn y (acceptedPump (synOf s y) code) s))) := by
    change execChargePumpCalDone y bandwidth code s = _
    simp [execChargePumpCalDone, hcal, hrun, hm, bandwidthOk, hok, acceptedPump]
  have hkept := pumpKept_pumpOver y (islandDone (setSyn y (acceptedPump (synOf s y) code) s))
  have hsyn : synOf (islandDone (setSyn y (acceptedPump (synOf s y) code) s)) y = acceptedPump (synOf s y) code :=
    (synOf_congr rfl y).trans (synOf_setSyn ..)
  exact ⟨_, hexec, pumpCal_pumpOver y _, (hkept.target y).trans (congrArg Synth.pumpTarget hsyn), (hkept.due y).trans (congrArg Synth.due hsyn),
    (hkept.rejected y).trans (congrArg Synth.rejected hsyn)⟩

theorem completes_chargePumpCalDone_rejected (hbad : 40 * loopKHz s y < 100 * ((bandwidth : Int) - loopKHz s y).natAbs) :
    Completes (.chargePumpCalDone y bandwidth code) s (fun t =>
      (synOf t y).pumpCal = false ∧ (synOf t y).pumpTarget = (synOf s y).pumpTarget ∧
      (synOf t y).rejected = !(synOf s y).rejected ∧ t.cal.cntRej = s.cal.cntRej + 1 ∧ Flagged t .cal 1) := by
  have hexec : exec (.chargePumpCalDone y bandwidth code) s =
      .next (pumpOver y (rejectResult none (synOf s y).rejected (setSyn y (rejectedPump (synOf s y)) s))) := by
    change execChargePumpCalDone y bandwidth code s = _
    simp [execChargePumpCalDone, hcal, hrun, hm, bandwidthOk, not_le.mpr hbad, rejectedPump]
  have hrep := reports_rejectResult none (synOf s y).rejected (setSyn y (rejectedPump (synOf s y)) s)
  have hsyn := (synOf_congr hrep.root y).trans (synOf_setSyn ..)
  have htarget : (rejectedPump (synOf s y)).pumpTarget = (synOf s y).pumpTarget := rfl
  have hkept := pumpKept_pumpOver y (rejectResult none (synOf s y).rejected (setSyn y (rejectedPump (synOf s y)) s))
  exact ⟨_, hexec, pumpCal_pumpOver y _, (hkept.target y).trans ((congrArg Synth.pumpTarget hsyn).trans htarget),
    (hkept.rejected y).trans (congrArg Synth.rejected hsyn), (congrArg CalSt.cntRej (cal_pumpOver y _)).trans (hrep.count.trans (by simp)),
    flagged_of_sameBut (same_pumpOver_self y _) (by decide) hrep.flagged⟩

end

/-! ### Timeouts -/

/-- An abandoned path is back in use with its old taps (R358). -/
theorem pathView_abandonPath (f p : Nat) (s : State) : pathView (abandonPath f p s) = pathView (putPath f p { pathOf (flockOf s f) p with
    calOut := false, taps := (pathOf (flockOf s f) p).tapsOld.getD (pathOf (flockOf s f) p).taps, tapsOld := none } (raiseAbout .cal 4 f s)) :=
  pathView_pathBack f _

theorem flagged_abandonPath (f p : Nat) (s : State) : Flagged (abandonPath f p s) .cal 4 := by
  refine flagged_of_sameBut (l := [.flocks] ++ evs .bell [4] ++ evs .flock [2, 9, 10]) ?_ (by decide)
    (flagged_raiseAbout s .cal f (by decide : 4 < 24))
  exact (same_pathBack f (List.Subset.refl _)).mpr ((same_setFlock f _ (by decide)).mpr .rfl)

section
variable {s : State} {f j p u f0 : Nat} {y : Syn} (hto : v1Timeout s = true) (hrun : coreRuns s = true)
include hto hrun

theorem completes_calTimeout_spare (hspare : isSpare s f j = true) (hfrom : (genOf s (spareRow s.build f j)).calFrom = some f0)
    (hover : f0 + 4 * 706 ≤ s.time.total) :
    Completes (.calTimeout (.spare f j)) s (fun t =>
      (genOf t (spareRow s.build f j)).st = .locking ∧ (genOf t (spareRow s.build f j)).calFrom = none ∧ Flagged t .cal 4) := by
  have hexec : exec (.calTimeout (.spare f j)) s =
      .next (spareChanged f (spareLocking false (spareRow s.build f j) (raiseAbout .cal 4 f s))) := by
    change execCalTimeout (.spare f j) s = _
    simp only [execCalTimeout, hto, hrun, hspare, hfrom, if_pos hover, Bool.not_true, Bool.or_self, Bool.false_eq_true, if_false, if_true]
  have hrel := relocks_spareChanged f (spareRow s.build f j) false (raiseAbout .cal 4 f s)
  exact ⟨_, hexec, hrel.st, hrel.calFrom, hrel.flagged 4 (flagged_raiseAbout _ .cal _ (by decide))⟩

theorem completes_calTimeout_path (hpath : isPath s f p = true) (hout : (pathOf (flockOf s f) p).calOut = true)
    (hover : (pathOf (flockOf s f) p).calFrom + 4 * 10240 ≤ s.time.total) :
    Completes (.calTimeout (.path f p)) s (fun t =>
      (pathOf (flockOf t f) p).calOut = false ∧
      (pathOf (flockOf t f) p).taps = (pathOf (flockOf s f) p).tapsOld.getD (pathOf (flockOf s f) p).taps ∧ Flagged t .cal 4) := by
  have hexec : exec (.calTimeout (.path f p)) s = .next (abandonPath f p s) := by
    change execCalTimeout (.path f p) s = _
    simp only [execCalTimeout, hto, hrun, hpath, hout, decide_eq_true hover, Bool.not_true, Bool.or_self, Bool.and_self, Bool.false_eq_true,
      if_false, if_true]
  obtain ⟨htaps, -, -, -, -, -, hout', -⟩ := pathOf_of_put (pathView_abandonPath f p s)
  exact ⟨_, hexec, hout', htaps, flagged_abandonPath f p s⟩

theorem completes_calTimeout_tally (hcal : (tallyUnit s u).phaseCal = some f0) (hover : f0 + 4 * 8192 ≤ s.time.total) :
    Completes (.calTimeout (.tally u)) s (fun t =>
      (tallyUnit t u).phaseCal = none ∧ (tallyUnit t u).phases = (tallyUnit s u).phases ∧ Flagged t .cal 4) := by
  have hexec : exec (.calTimeout (.tally u)) s = .next (raise .cal 4 (setTally u { tallyUnit s u with phaseCal := none } s)) := by
    change execCalTimeout (.tally u) s = _
    simp only [execCalTimeout, hto, hrun, hcal, if_pos hover, Bool.not_true, Bool.or_self, Bool.false_eq_true, if_false]
  have hunit (x : TallyUnit) : tallyUnit (raise .cal 4 (setTally u x s)) u = x := 
    (tallyUnit_congr (s := setTally u x s) (by simp) u).trans (tallyUnit_setTally ..)
  exact ⟨_, hexec, congrArg TallyUnit.phaseCal (hunit _), by simp only [hunit], flagged_raise _ .cal (by decide)⟩

theorem completes_calTimeout_pump (hcal : (synOf s y).pumpCal = true) (hover : s.cal.pumpFrom + 4 * 25000 ≤ s.time.total) :
    Completes (.calTimeout (.pump y)) s (fun t =>
      (synOf t y).pumpCal = false ∧ (synOf t y).pumpTarget = (synOf s y).pumpTarget ∧ Flagged t .cal 4) := by
  have hexec : exec (.calTimeout (.pump y)) s = .next (raise .cal 4 (pumpOver y s)) := by
    change execCalTimeout (.pump y) s = _
    simp only [execCalTimeout, hto, hrun, hcal, decide_eq_true hover, Bool.not_true, Bool.or_self, Bool.and_self, Bool.false_eq_true,
      if_false, if_true]
  have hkept := (pumpKept_pumpOver y s).trans (pumpKept_raise .cal 4 _)
  have hend := (pumpKept_raise .cal 4 (pumpOver y s)).ended y (pumpCal_pumpOver y s)
  exact ⟨_, hexec, hend, hkept.target y, flagged_raise _ .cal (by decide)⟩

end

/-- Settles O24, clause by clause: each job's start, end and timeout changes its unit's own record, and what follows keeps what the job
left there. -/
theorem calibrationRuns : Obligations.CalibrationRuns := by
  unfold Obligations.CalibrationRuns
  exact ⟨fun _ _ _ => completes_spareCalStart, fun _ _ _ _ _ _ => completes_spareCalEnd_accepted,
    fun _ _ _ _ _ _ => completes_spareCalEnd_rejected, fun _ _ _ _ _ _ => completes_spareCalEnd_waiting,
    fun _ _ _ _ _ _ => completes_spareCalEnd_discarded, fun _ _ _ => completes_pathCalStart,
    fun _ _ _ _ => completes_pathCalDone_accepted, fun _ _ _ _ => completes_pathCalDone_rejected,
    fun _ _ _ _ _ => completes_pathCalDone_restored, fun _ _ => completes_tallyPhaseCalStart,
    fun _ _ _ _ => completes_tallyPhaseCalDone_accepted, fun _ _ _ _ => completes_tallyPhaseCalDone_rejected,
    fun _ _ => completes_chargePumpCalStart, fun _ _ _ _ => completes_chargePumpCalDone_accepted,
    fun _ _ _ _ => completes_chargePumpCalDone_rejected, fun _ _ _ _ => completes_calTimeout_spare,
    fun _ _ _ => completes_calTimeout_path, fun _ _ _ => completes_calTimeout_tally, fun _ _ => completes_calTimeout_pump⟩

end Sys2Proof.Machine
end

