-- ==== Sys2Proof/Proofs/RootAndFoldFrames.lean ====
section
/-!
PROOF. What each command of the root, the mesh and the folds leaves unchanged (O44): every operation's frame lies in the
footprint of the commands that perform it.
-/
namespace Sys2Proof.Machine
open Sys2Proof

/-- A command keeps to its footprint: every next state agrees with the one before outside it. -/
def KeepsToFootprint (c : Instr) (s : State) : Prop := Lands (SameBut (footprint c) s) (exec c s)

/-- A register write keeps to a list of parts that holds what every write may change and what its effect changes. -/
theorem lands_keptWrite {l : List Part} {w : Wr} {a : Nat} {v : Word} {ext : List Nat} {eff : State → State} {s : State}
    (hl : writeParts ⊆ l) (hs : snapSet a = none ∨ .snaps ∈ l) (he : ∀ t, SameBut l s (eff t) ↔ SameBut l s t) :
    Lands (SameBut l s) (.next (regWrite w a v ext eff s)) :=
  lands_next.mpr ((same_regWrite hl hs he).mpr .rfl)

/-! ### The root -/

theorem keeps_crystalQualified (s : State) : KeepsToFootprint .crystalQualified s := by
  change Lands _ (execCrystalQualified s)
  unfold footprint
  simp [execCrystalQualified, lands_next, lands_ite, ↓same_record, ↓same_enableSyn, SameBut.rfl, evs]

theorem keeps_missingCrystalEdge (s : State) : KeepsToFootprint .missingCrystalEdge s := by
  change Lands _ (execMissingCrystalEdge s)
  unfold footprint
  simp [execMissingCrystalEdge, lands_next, lands_ite, ↓same_ite, ↓same_record, ↓same_tallyRefLost, ↓same_freezeSyn,
    ↓same_loseTime, SameBut.rfl, evs]

theorem keeps_edgesResume (s : State) : KeepsToFootprint .edgesResume s := by
  change Lands _ (execEdgesResume s)
  unfold footprint
  simp [execEdgesResume, lands_next, lands_ite, ↓same_record, ↓same_prefAct, ↓same_resumeHeld, ↓same_thawSyn, SameBut.rfl, evs]

theorem keeps_refLoss (s : State) : KeepsToFootprint .refLoss s := by
  change Lands _ (execRefLoss s)
  unfold footprint
  simp [execRefLoss, lands_next, lands_ite, ↓same_record, ↓same_raise, SameBut.rfl, evs]

theorem keeps_refReturn (s : State) : KeepsToFootprint .refReturn s := by
  change Lands _ (execRefReturn s)
  unfold footprint
  simp [execRefReturn, lands_next, lands_ite, ↓same_record, ↓same_raise, ↓same_releaseFailed, ↓same_thawSyn, ↓same_prefAct,
    ↓same_resumeHeld, ↓same_enableSyn, SameBut.rfl, evs]

theorem keeps_frozenOutputFail (y : Syn) (ps : Nat) (s : State) : KeepsToFootprint (.frozenOutputFail y ps) s := by
  have hl : [Part.answers, .fold, .regions, .root, .time] ++ evs .root [lossBit y, 2, 3, 7, 8, 10] ⊆ footprint (.frozenOutputFail y ps) :=
    List.Subset.refl _
  simp only [parts_sub] at hl
  change Lands _ (execFrozenOutputFail y ps s)
  simp only [execFrozenOutputFail]
  split
  · simp only [lands_next, ↓same_ite, ↓same_record, ↓same_driverLost, ↓same_raise, ↓same_setSyn, SameBut.rfl, hl, parts_sub, ite_self,
      or_true, true_or, and_self]
  · exact lands_next.mpr .rfl

theorem keeps_lockLoss (y : Syn) (err1 err2 : Int) (slip both : Bool) (edges : Nat) (s : State) :
    KeepsToFootprint (.lockLoss y err1 err2 slip both edges) s := by
  have hl : [Part.answers, .fold, .regions, .root, .time] ++ evs .root [0, 1, 2, 3, 7, 8, 10] ⊆
      footprint (.lockLoss y err1 err2 slip both edges) := List.Subset.refl _
  simp only [parts_sub] at hl
  have hbit (z : Syn) : Part.event .root (lossBit z) ∈ footprint (.lockLoss y err1 err2 slip both edges) := by
    cases z <;> exact of_decide_eq_true rfl
  change Lands _ (execLockLoss y err1 err2 slip both edges s)
  simp only [execLockLoss]
  split
  · simp only [lands_next, ↓same_ite, ↓same_record, ↓same_dropLock, ↓same_driverLost, SameBut.rfl, hbit, hl, parts_sub, ite_self,
      or_true, true_or, and_self]
  · exact lands_next.mpr .rfl

theorem keeps_lockAcquired (y : Syn) (s : State) : KeepsToFootprint (.lockAcquired y) s := by
  change Lands _ (execLockAcquired y s)
  unfold footprint
  simp [execLockAcquired, lands_next, lands_ite, ↓same_setSyn, SameBut.rfl]

theorem keeps_synthQualified (y : Syn) (s : State) : KeepsToFootprint (.synthQualified y) s := by
  change Lands _ (execSynthQualified y s)
  unfold footprint
  simp [execSynthQualified, lands_next, lands_ite, ↓same_record, ↓same_setSyn, ↓same_prefAct, SameBut.rfl, evs]

theorem keeps_bypExit (y : Syn) (edge1 edge2 : Bool) (s : State) : KeepsToFootprint (.bypExit y edge1 edge2) s := by
  change Lands _ (execBypExit y edge1 edge2 s)
  unfold footprint
  simp [execBypExit, lands_next, lands_ite, ↓same_ite, ↓same_record, ↓same_setSyn, ↓same_raise, ↓same_prefAct, SameBut.rfl, evs]

section
variable (w : Wr) (v : Word) (s : State)

theorem keeps_prefWrite : KeepsToFootprint (.prefWrite w v) s :=
  lands_keptWrite (of_decide_eq_true rfl) (.inl (by decide)) fun _ => same_writeRootCtrl _ (of_decide_eq_true rfl)

theorem keeps_spareEnWrite : KeepsToFootprint (.spareEnWrite w v) s :=
  lands_keptWrite (of_decide_eq_true rfl) (.inl (by decide)) fun _ => same_writeRootCtrl _ (of_decide_eq_true rfl)

theorem keeps_bypassForce : KeepsToFootprint (.bypassForce w v) s :=
  lands_keptWrite (of_decide_eq_true rfl) (.inl (by decide)) fun _ => same_writeRootCtrl _ (of_decide_eq_true rfl)

theorem keeps_divApply : KeepsToFootprint (.divApply w v) s :=
  lands_keptWrite (of_decide_eq_true rfl) (.inl (by decide)) fun _ => same_writeDivApply _ (of_decide_eq_true rfl)

theorem keeps_rootBtabWrite : KeepsToFootprint (.rootBtabWrite w v) s :=
  lands_keptWrite (of_decide_eq_true rfl) (.inl (by decide)) fun _ => same_writeRootBtab _ _ (of_decide_eq_true rfl)

theorem keeps_rootMeas : KeepsToFootprint (.rootMeas w v) s :=
  lands_keptWrite (of_decide_eq_true rfl) (.inl (by decide)) fun _ => same_writeRootMeas _ _ (of_decide_eq_true rfl)

theorem keeps_rootAgeWrite : KeepsToFootprint (.rootAgeWrite w v) s :=
  lands_keptWrite (of_decide_eq_true rfl) (.inl (by decide)) fun _ => same_writeRootAge _ (of_decide_eq_true rfl)

end

theorem keeps_rootMeasDone (count : BitVec 16) (s : State) : KeepsToFootprint (.rootMeasDone count) s := by
  change Lands _ (execRootMeasDone count s)
  unfold footprint execRootMeasDone
  cases s.root.meas <;> simp [lands_next, lands_ite, ↓same_record, ↓same_releaseMeas, ↓same_startAcquire, SameBut.rfl, evs]

theorem keeps_ageSlewStep (s : State) : KeepsToFootprint .ageSlewStep s := by
  change Lands _ (execAgeSlewStep s)
  unfold footprint
  simp [execAgeSlewStep, lands_next, lands_ite, ↓same_record, SameBut.rfl]

theorem keeps_syncInEdge (phase : BitVec 16) (s : State) : KeepsToFootprint (.syncInEdge phase) s := by
  change Lands _ (execSyncInEdge phase s)
  unfold footprint
  simp [execSyncInEdge, lands_next, lands_ite, ↓same_ite, ↓same_record, ↓same_setSyn, ↓same_raise, SameBut.rfl, evs]

theorem keeps_frozenFailureCountEnd (s : State) : KeepsToFootprint .frozenFailureCountEnd s := by
  change Lands _ (execFrozenFailureCountEnd s)
  unfold footprint
  simp [execFrozenFailureCountEnd, lands_next, lands_ite, ↓same_releaseFailed, SameBut.rfl, evs]

/-! ### The mesh -/

section
variable (w : Wr) (v : Word) (s : State)

theorem keeps_bellSnapReq : KeepsToFootprint (.bellSnapReq w v) s :=
  lands_keptWrite (of_decide_eq_true rfl) (.inr (of_decide_eq_true rfl)) fun _ => same_writeBellSnap _ _ (of_decide_eq_true rfl)

theorem keeps_bellLoad : KeepsToFootprint (.bellLoad w v) s :=
  lands_keptWrite (of_decide_eq_true rfl) (.inl (by decide)) fun _ => same_writeBellLoad _ (of_decide_eq_true rfl)

/-- A flock's registers lie above the zone block, where no write asks for a snapshot (R447). -/
theorem keeps_meshDisable (f : Nat) : KeepsToFootprint (.meshDisable w f v) s :=
  lands_keptWrite (of_decide_eq_true rfl) (.inl (snapSet_far (by simp only [flockAddr]; omega))) fun t =>
    same_whereFlock f _ t fun _ => same_writeMeshCtrl _ _ (of_decide_eq_true rfl)

end

section
variable (f p : Nat) (s : State)

theorem keeps_broadcastFrame (fr : BitVec 128) : KeepsToFootprint (.broadcastFrame f p fr) s := by
  change Lands _ (execBroadcastFrame f p fr s)
  unfold footprint
  simp [execBroadcastFrame, lands_next, lands_ite, lands_fault, ↓same_setFlock, SameBut.rfl]

theorem keeps_pathLockDone (d : PathDelay) (fr : BitVec 128) : KeepsToFootprint (.pathLockDone f p d fr) s := by
  change Lands _ (execPathLockDone f p d fr s)
  unfold footprint
  simp [execPathLockDone, lands_next, lands_ite, lands_fault, ↓same_ite, ↓same_meshReadyCheck, ↓same_pathBack, ↓same_setFlock, SameBut.rfl, evs]

theorem keeps_deltaTrack (late : Bool) : KeepsToFootprint (.deltaTrack f p late) s := by
  change Lands _ (execDeltaTrack f p late s)
  unfold footprint
  simp [execDeltaTrack, lands_next, lands_ite, lands_fault, ↓same_setFlock, SameBut.rfl]

theorem keeps_pathFail (cause : PathFault) : KeepsToFootprint (.pathFail f p cause) s := by
  change Lands _ (execPathFail f p cause s)
  unfold footprint
  simp [execPathFail, lands_next, lands_ite, lands_fault, ↓same_ite, ↓same_failPath, ↓same_raiseAbout, ↓same_pathGone, ↓same_setFlock,
    SameBut.rfl, evs]

theorem keeps_pathReturn : KeepsToFootprint (.pathReturn f p) s := by
  change Lands _ (execPathReturn f p s)
  unfold footprint
  simp [execPathReturn, lands_next, lands_ite, lands_fault, ↓same_pathBack, ↓same_raiseAbout, ↓same_setFlock, SameBut.rfl, evs]

end

/-! ### The folds -/

theorem keeps_bell (s : State) : KeepsToFootprint .bell s := by
  have hring (placed : Nat) : SameBut (footprint .bell) s (ringBell placed s) :=
    (same_ringBell placed s (List.Subset.refl _)).mpr .rfl
  change Lands _ (execBell s)
  simp [execBell, lands_next, lands_ite, ↓same_ite, hring, SameBut.rfl]

theorem keeps_call (s : State) : KeepsToFootprint .call s := by
  change Lands _ (execCall s)
  unfold footprint
  simp [execCall, lands_next, lands_ite, ↓same_ite, ↓same_record, ↓same_firstCall, ↓same_deferPlanned, ↓same_deferLap, SameBut.rfl, evs]

theorem keeps_graceTailStart (s : State) : KeepsToFootprint .graceTailStart s := by
  change Lands _ (execGraceTailStart s)
  unfold footprint
  simp [execGraceTailStart, lands_next, lands_ite, ↓same_ite, ↓same_record, ↓same_beginTail, ↓same_commitBell, SameBut.rfl, evs]

theorem keeps_regionPark (r : Nat) (s : State) : KeepsToFootprint (.regionPark r) s := by
  change Lands _ (execRegionPark r s)
  unfold footprint
  simp [execRegionPark, lands_next, lands_ite, lands_fault, ↓same_ite, ↓same_setRegion, ↓same_startPlannedStop, ↓same_applyProposals,
    ↓same_failBack, SameBut.rfl, evs]

theorem keeps_pull (r : Nat) (s : State) : KeepsToFootprint (.pull r) s := by
  change Lands _ (execPull r s)
  unfold footprint
  simp [execPull, lands_next, lands_ite, lands_fault, ↓same_record, SameBut.rfl]

section
variable (x : Nat) (s : State)

theorem keeps_tetherStop : KeepsToFootprint (.tetherStop x) s := by
  change Lands _ (execTetherStop x s)
  unfold footprint
  simp [execTetherStop, lands_next, lands_ite, lands_fault, ↓same_ite, ↓same_countStop, SameBut.rfl]

theorem keeps_availInterlock : KeepsToFootprint (.availInterlock x) s := by
  change Lands _ (execAvailInterlock x s)
  unfold footprint
  simp [execAvailInterlock, lands_next, lands_ite, lands_fault, ↓same_ite, ↓same_countStop, SameBut.rfl]

theorem keeps_roomStop : KeepsToFootprint (.roomStop x) s := by
  change Lands _ (execRoomStop x s)
  unfold footprint
  simp [execRoomStop, lands_next, lands_ite, lands_fault, ↓same_ite, ↓same_raiseAbout, ↓same_countStop, SameBut.rfl, evs]

theorem keeps_tetherStopRelease : KeepsToFootprint (.tetherStopRelease x) s := by
  change Lands _ (execTetherStopRelease x s)
  unfold footprint
  simp [execTetherStopRelease, lands_next, lands_ite, lands_fault, ↓same_setXing, SameBut.rfl]

end

section
variable (w : Wr) (v : Word) (s : State)

theorem keeps_foldStart : KeepsToFootprint (.foldStart w v) s :=
  lands_keptWrite (of_decide_eq_true rfl) (.inl (by decide)) fun _ => same_writeFoldCtrl _ (of_decide_eq_true rfl)

theorem keeps_excludeSet (region : BitVec 13) (tag : BitVec 8) : KeepsToFootprint (.excludeSet w region tag) s :=
  lands_keptWrite (of_decide_eq_true rfl) (.inl (by decide)) fun _ => same_writeFoldExclude _ (of_decide_eq_true rfl)

theorem keeps_excludeClear (region : BitVec 13) (tag : BitVec 8) : KeepsToFootprint (.excludeClear w region tag) s :=
  lands_keptWrite (of_decide_eq_true rfl) (.inl (by decide)) fun _ => same_writeFoldExclude _ (of_decide_eq_true rfl)

theorem keeps_foldTetherWrite : KeepsToFootprint (.foldTetherWrite w v) s :=
  lands_keptWrite (of_decide_eq_true rfl) (.inl (by decide)) fun _ => same_writeFoldTether _ (of_decide_eq_true rfl)

theorem keeps_foldStatReq : KeepsToFootprint (.foldStatReq w v) s :=
  lands_keptWrite (of_decide_eq_true rfl) (.inr (of_decide_eq_true rfl)) fun _ => same_writeFoldStatReq _ _ (of_decide_eq_true rfl)

theorem keeps_foldLogSel : KeepsToFootprint (.foldLogSel w v) s :=
  lands_keptWrite (of_decide_eq_true rfl) (.inl (by decide)) fun _ => same_writeFoldLogSel _ _ (of_decide_eq_true rfl)

end

/-- Each command of the three chapters keeps to its footprint (R33, R77, R107). -/
theorem keepsToFootprint_of_family {c : Instr} (s : State) (h : familyOf c ∈ [Family.root, Family.mesh, Family.fold]) :
    KeepsToFootprint c s := by
  cases c with
  | crystalQualified => exact keeps_crystalQualified s
  | missingCrystalEdge => exact keeps_missingCrystalEdge s
  | edgesResume => exact keeps_edgesResume s
  | refLoss => exact keeps_refLoss s
  | refReturn => exact keeps_refReturn s
  | frozenOutputFail y ps => exact keeps_frozenOutputFail y ps s
  | lockLoss y err1 err2 slip both edges => exact keeps_lockLoss y err1 err2 slip both edges s
  | lockAcquired y => exact keeps_lockAcquired y s
  | synthQualified y => exact keeps_synthQualified y s
  | bypExit y edge1 edge2 => exact keeps_bypExit y edge1 edge2 s
  | prefWrite w v => exact keeps_prefWrite w v s
  | spareEnWrite w v => exact keeps_spareEnWrite w v s
  | bypassForce w v => exact keeps_bypassForce w v s
  | divApply w v => exact keeps_divApply w v s
  | rootBtabWrite w v => exact keeps_rootBtabWrite w v s
  | rootMeas w v => exact keeps_rootMeas w v s
  | rootMeasDone count => exact keeps_rootMeasDone count s
  | rootAgeWrite w v => exact keeps_rootAgeWrite w v s
  | ageSlewStep => exact keeps_ageSlewStep s
  | syncInEdge phase => exact keeps_syncInEdge phase s
  | frozenFailureCountEnd => exact keeps_frozenFailureCountEnd s
  | bellSnapReq w v => exact keeps_bellSnapReq w v s
  | bellLoad w v => exact keeps_bellLoad w v s
  | broadcastFrame f p fr => exact keeps_broadcastFrame f p s fr
  | pathLockDone f p d fr => exact keeps_pathLockDone f p s d fr
  | deltaTrack f p late => exact keeps_deltaTrack f p s late
  | pathFail f p cause => exact keeps_pathFail f p s cause
  | pathReturn f p => exact keeps_pathReturn f p s
  | meshDisable w f v => exact keeps_meshDisable w v s f
  | foldStart w v => exact keeps_foldStart w v s
  | bell => exact keeps_bell s
  | call => exact keeps_call s
  | graceTailStart => exact keeps_graceTailStart s
  | regionPark r => exact keeps_regionPark r s
  | pull r => exact keeps_pull r s
  | tetherStop x => exact keeps_tetherStop x s
  | availInterlock x => exact keeps_availInterlock x s
  | roomStop x => exact keeps_roomStop x s
  | tetherStopRelease x => exact keeps_tetherStopRelease x s
  | excludeSet w region tag => exact keeps_excludeSet w s region tag
  | excludeClear w region tag => exact keeps_excludeClear w s region tag
  | foldTetherWrite w v => exact keeps_foldTetherWrite w v s
  | foldStatReq w v => exact keeps_foldStatReq w v s
  | foldLogSel w v => exact keeps_foldLogSel w v s
  | _ => exact absurd h (by simp [familyOf])

/-- Settles O44: each command's operations change only parts that its footprint lists. -/
theorem frameRootAndFold : Obligations.FrameRootAndFold := by
  unfold Obligations.FrameRootAndFold
  intro c s t hfamily _ hexec
  exact keepsToFootprint_of_family s hfamily t hexec

end Sys2Proof.Machine
end

