-- ==== Sys2Proof/Proofs/Synthesizers.lean ====
section
/-!
PROOF. The rules of the operations on the two synthesizers: what each leaves of the root, which lock it can take, and what an
acquisition selects (R36, R42, R51 to R56, R63 to R66).
-/
namespace Sys2Proof.Machine
open Sys2Proof

/-! ### What powering, acquiring and changing roles leave of the root -/

/-- A synthesizer but for what powering it and acquiring lock change. -/
def poweredView (x : Synth) : Synth :=
  { x with powered := true, locked := false, qualified := false, acquiring := false, noBand := false, band := 0, pumpCal := false }

/-- The root but for what powering the synthesizers and acquiring lock change (R36, R51, R55). -/
def powerView (r : RootSt) : RootSt := { r with aligned := false, s0 := poweredView r.s0, s1 := poweredView r.s1 }

/-- A synthesizer but also for the phase resets of its divider, which a change of roles makes. -/
def tunedView (x : Synth) : Synth := { poweredView x with phaseResets := 0 }

/-- The root but also for what a change of roles and an entry to bypass change (R52 to R56). -/
def roleView (r : RootSt) : RootSt :=
  { r with bypass := true, active := .s0, bypTarget := 0, lateEdges := 0, aligned := false, s0 := tunedView r.s0, s1 := tunedView r.s1 }

/-- The root but for the synthesizers and their alignment. -/
def crystalView (r : RootSt) : RootSt := { r with aligned := false, s0 := {}, s1 := {} }

theorem roleView_of_powerView {r q : RootSt} (h : powerView r = powerView q) : roleView r = roleView q := by
  have hroles := congrArg roleView h
  exact hroles

theorem crystalView_of_powerView {r q : RootSt} (h : powerView r = powerView q) : crystalView r = crystalView q := by
  have hcrystal := congrArg crystalView h
  exact hcrystal

/-- The view of the root stays, and no synthesizer comes to hold lock. -/
structure Retains (view : RootSt → RootSt) (s t : State) : Prop where
  root : view t.root = view s.root
  unlocked : ∀ y, (synOf s y).locked = false → (synOf t y).locked = false

section
variable {view : RootSt → RootSt} {s t u : State} {y z : Syn} {x : Synth}

theorem Retains.refl (s : State) : Retains view s s := ⟨rfl, fun _ h => h⟩

theorem Retains.trans (h : Retains view s t) (k : Retains view t u) : Retains view s u :=
  ⟨k.root.trans h.root, fun y hy => k.unlocked y (h.unlocked y hy)⟩

theorem retains_of_root (h : t.root = s.root) : Retains view s t := ⟨congrArg view h, fun y hy => by rw [synOf_congr h, hy]⟩

theorem retains_raise (b : Block) (k : Nat) (s : State) : Retains view s (raise b k s) := retains_of_root (by simp)

theorem retains_ite {c : Prop} [Decidable c] (ht : Retains view s t) (hu : Retains view s u) : Retains view s (if c then t else u) := by
  split
  · exact ht
  · exact hu

theorem synOf_setSyn_of_ne (v : Synth) (h : z ≠ y) : synOf (setSyn y v s) z = synOf s z := by
  cases y <;> cases z <;> simp [synOf, setSyn] at h ⊢

theorem retains_setSyn (hv : view (setSyn y x s).root = view s.root) (hx : (synOf s y).locked = false → x.locked = false) :
    Retains view s (setSyn y x s) :=
  ⟨hv, fun z hz => by
    by_cases h : z = y
    · subst h; rw [synOf_setSyn]; exact hx hz
    · rw [synOf_setSyn_of_ne x h]; exact hz⟩

theorem powerView_setSyn (h : poweredView x = poweredView (synOf s y)) : powerView (setSyn y x s).root = powerView s.root := by
  cases y <;> simp only [powerView, setSyn, h] <;> rfl

theorem roleView_setSyn (h : tunedView x = tunedView (synOf s y)) : roleView (setSyn y x s).root = roleView s.root := by
  cases y <;> simp only [roleView, setSyn, h] <;> rfl

theorem crystalView_setSyn : crystalView (setSyn y x s).root = crystalView s.root := by cases y <;> rfl

theorem Retains.roles (h : Retains powerView s t) : Retains roleView s t := ⟨roleView_of_powerView h.root, h.unlocked⟩

theorem Retains.crystal (h : Retains powerView s t) : Retains crystalView s t := ⟨crystalView_of_powerView h.root, h.unlocked⟩

theorem Retains.field {α : Type} (h : Retains view s t) (f : RootSt → α) (hf : ∀ r, f (view r) = f r) : f t.root = f s.root := by
  rw [← hf, h.root, hf]

theorem Retains.synth {α : Type} (h : Retains roleView s t) (y : Syn) (f : Synth → α) (hf : ∀ x, f (tunedView x) = f x) :
    f (synOf t y) = f (synOf s y) := by
  cases y
  · exact h.field (fun r => f r.s0) fun r => hf r.s0
  · exact h.field (fun r => f r.s1) fun r => hf r.s1

theorem Retains.phaseResets (h : Retains powerView s t) (y : Syn) : (synOf t y).phaseResets = (synOf s y).phaseResets := by
  cases y
  · exact h.field (fun r => r.s0.phaseResets) fun _ => rfl
  · exact h.field (fun r => r.s1.phaseResets) fun _ => rfl

end

/-! ### Acquisition -/

/-- A synthesizer without lock (R51). -/
def withoutLock (x : Synth) : Synth := { x with locked := false, qualified := false, acquiring := false, pumpCal := false }

/-- The band that a synthesizer's table gives for its VCO's target (R42). -/
def bandFor (x : Synth) : Option Nat := selectRootBand x.table (250 * x.dT.toNat)

/-- A synthesizer that acquires in the band selected, or has none (R42, R51). -/
def acquiringIn (x : Synth) : Synth :=
  match bandFor x with
  | some b => { withoutLock x with acquiring := true, band := BitVec.ofNat 4 b }
  | none => { withoutLock x with noBand := true }

/-- Synthesizer y may start to acquire: it is powered, the crystal is good, its table was not found without a band and no measurement of
it runs (R36, R42, R44). -/
def mayAcquire (s : State) (y : Syn) : Bool :=
  !(!(synOf s y).powered || !s.root.refOk || (synOf s y).noBand || measuring s y)

section
variable {s t : State} {y : Syn}

/-- The start of an acquisition writes the one synthesizer and raises at most NO_BAND. -/
theorem startAcquire_root (y : Syn) (s : State) :
    (startAcquire y s).root = (setSyn y (if mayAcquire s y then acquiringIn (synOf s y) else withoutLock (synOf s y)) s).root := by
  simp only [startAcquire, mayAcquire, acquiringIn, bandFor, withoutLock]
  by_cases hoff : (!(synOf s y).powered || !s.root.refOk || (synOf s y).noBand || measuring s y) = true
  · simp only [hoff, if_true, Bool.not_true, Bool.false_eq_true, if_false]
  · simp only [hoff, Bool.false_eq_true, if_false]
    cases selectRootBand (synOf s y).table (250 * (synOf s y).dT.toNat) <;> rfl

theorem synOf_startAcquire (y : Syn) (s : State) :
    synOf (startAcquire y s) y = if mayAcquire s y then acquiringIn (synOf s y) else withoutLock (synOf s y) :=
  (synOf_congr (startAcquire_root y s) y).trans (synOf_setSyn ..)

theorem synOf_startAcquire_of_ne {z : Syn} (h : z ≠ y) : synOf (startAcquire y s) z = synOf s z :=
  (synOf_congr (startAcquire_root y s) z).trans (synOf_setSyn_of_ne _ h)

theorem locked_acquiringIn (x : Synth) : (acquiringIn x).locked = false := by unfold acquiringIn; split <;> rfl

theorem locked_startAcquire (y : Syn) (s : State) : (synOf (startAcquire y s) y).locked = false := by
  rw [synOf_startAcquire]
  split
  · exact locked_acquiringIn _
  · rfl

theorem acquiring_acquiringIn (x : Synth) : (acquiringIn x).acquiring = (bandFor x).isSome ∧ ((x.noBand = false → (acquiringIn x).noBand = (bandFor x).isNone)) := by
  unfold acquiringIn
  split
  · next b hb => exact ⟨by simp [hb], fun h => by simp [hb, withoutLock, h]⟩
  · next hb => exact ⟨by simp [hb, withoutLock], fun _ => by simp [hb]⟩

theorem mayAcquire_of (hp : (synOf s y).powered = true) (hr : s.root.refOk = true) (hn : (synOf s y).noBand = false)
    (hm : measuring s y = false) : mayAcquire s y = true := by
  simp [mayAcquire, hp, hr, hn, hm]

theorem startAcquire_selects (h : mayAcquire s y = true) : synOf (startAcquire y s) y = acquiringIn (synOf s y) := by
  rw [synOf_startAcquire, if_pos h]

theorem enableSyn_of_idle (hp : (synOf s y).powered = true) (hl : (synOf s y).locked = false) (ha : (synOf s y).acquiring = false)
    (hf : (synOf s y).failed = false) : enableSyn y s = startAcquire y s := by
  simp [enableSyn, hp, hl, ha, hf]

theorem synOf_enableSyn_of_ne {z : Syn} (h : z ≠ y) : synOf (enableSyn y s) z = synOf s z := by
  simp only [enableSyn]
  split
  · exact synOf_startAcquire_of_ne h
  · rfl

theorem measuring_congr (h : t.root.meas = s.root.meas) (y : Syn) : measuring t y = measuring s y := by simp only [measuring, h]

end

/-! ### The operations -/

theorem poweredView_acquiringIn (x : Synth) : poweredView (acquiringIn x) = poweredView x := by unfold acquiringIn; split <;> rfl

theorem retains_startAcquire (y : Syn) (s : State) : Retains powerView s (startAcquire y s) := by
  refine Retains.trans (t := setSyn y (if mayAcquire s y then acquiringIn (synOf s y) else withoutLock (synOf s y)) s) ?_
    (retains_of_root (startAcquire_root y s))
  refine retains_setSyn (powerView_setSyn ?_) fun _ => ?_ <;> split
  · exact poweredView_acquiringIn _
  · rfl
  · exact locked_acquiringIn _
  · rfl

theorem retains_enableSyn (y : Syn) (s : State) : Retains powerView s (enableSyn y s) :=
  retains_ite (retains_startAcquire y s) (.refl s)

theorem retains_sparePower (s : State) : Retains powerView s (sparePower s) := by
  unfold sparePower
  extract_lets o x t
  have hoff : Retains powerView s t := retains_setSyn (powerView_setSyn rfl) fun _ => rfl
  refine retains_ite (retains_ite (.refl s) ?_) (retains_ite (.refl s) (hoff.trans ⟨rfl, fun y h => by cases y <;> exact h⟩))
  refine Retains.trans ?_ (retains_enableSyn ..)
  exact retains_setSyn (powerView_setSyn rfl) id

theorem retains_switchTo (y : Syn) (s : State) : Retains roleView s (switchTo y s) := ⟨rfl, fun z h => by cases z <;> exact h⟩

theorem retains_prefSwitch (s : State) : Retains roleView s (prefSwitch s) := by
  unfold prefSwitch
  extract_lets y o t x
  refine retains_ite ((retains_switchTo y s).trans ?_) (.refl s)
  exact retains_setSyn (roleView_setSyn rfl) id

theorem retains_prefAct (s : State) : Retains roleView s (prefAct s) := (retains_prefSwitch s).trans (retains_sparePower _).roles

/-- The root as an entry to bypass sets it, before a synthesizer that SPARE_EN = 0 keeps off is powered down (R55, R56). -/
def bypassRoot (s : State) : State :=
  { s with
    root := { s.root with bypass := true, aligned := false, s0 := { s.root.s0 with pumpCal := false },
                          s1 := { s.root.s1 with pumpCal := false } },
    regions := s.regions.map (fun e => (e.1, { e.2 with hold := e.2.hold.map (fun h => { h with discard := true }) })) }

theorem bypassEntered_eq (s : State) : bypassEntered s = raise .root 3 (sparePower (bypassRoot s)) := rfl

theorem retains_bypassRoot (s : State) : Retains roleView s (bypassRoot s) := ⟨rfl, fun z h => by cases z <;> exact h⟩

theorem retains_bypassEntered (s : State) : Retains roleView s (bypassEntered s) :=
  ((retains_bypassRoot s).trans (retains_sparePower _).roles).trans (retains_raise ..)

theorem retains_resumeHeld (s : State) : Retains roleView s (resumeHeld s) := by
  have hend (t : State) (ht : t.root = { s.root with bypTarget := s.time.counter, lateEdges := 0 }) : Retains roleView s t :=
    ⟨by rw [ht]; rfl, fun z h => by cases z <;> simpa [synOf, ht] using h⟩
  unfold resumeHeld
  refine retains_ite (retains_ite (hend _ rfl) ?_) (.refl s)
  exact (hend _ rfl).trans (retains_bypassEntered _)

/-- The counter holds with its value, TIME_LOST is raised and the fold suspended (R66). -/
theorem loseTime_holds (s : State) : (loseTime s).root = s.root ∧ (loseTime s).time.held = true ∧
    (loseTime s).time.counter = s.time.counter ∧ (loseTime s).fold.suspended = true ∧ Flagged (loseTime s) .root 10 :=
  ⟨rfl, rfl, rfl, rfl, flagged_raise _ .root (by decide)⟩

theorem retains_thawSyn (y : Syn) (s : State) : Retains crystalView s (thawSyn y s) := by
  refine retains_ite (.refl s) ?_
  exact retains_setSyn crystalView_setSyn id

theorem retains_releaseFailed (y : Syn) (s : State) : Retains crystalView s (releaseFailed y s) := by
  refine retains_ite (Retains.trans ?_ (retains_startAcquire ..).crystal) (.refl s)
  exact retains_setSyn crystalView_setSyn id

/-! ### Roles -/

section
variable {s t : State} {y : Syn}

theorem prefSyn_congr (hn : t.nowR = s.nowR) (hb : t.build = s.build) (hx : t.root.xtalSel = s.root.xtalSel) : prefSyn t = prefSyn s := by
  simp only [prefSyn, nowGet_congr hn hb hx]

theorem spareEn_congr (hn : t.nowR = s.nowR) (hb : t.build = s.build) (hx : t.root.xtalSel = s.root.xtalSel) : spareEn t = spareEn s := by
  simp only [spareEn, nowGet_congr hn hb hx]

theorem driving_congr (hb : t.root.bypass = s.root.bypass) (ha : t.root.active = s.root.active) (y : Syn) : driving t y = driving s y := by
  simp only [driving, hb, ha]

theorem spareReady_congr (hy : synOf t y = synOf s y) (hb : t.root.bypass = s.root.bypass) (ha : t.root.active = s.root.active)
    (hal : t.root.aligned = s.root.aligned) : spareReady t y = spareReady s y := by
  simp only [spareReady, hy, driving_congr hb ha, hal]

/-- PREF moves the mesh only where the other synthesizer drives and PREF's is ready (R54). -/
theorem prefSwitch_of_stays (h : s.root.bypass = true ∨ s.root.active = prefSyn s ∨ spareReady s (prefSyn s) = false) : prefSwitch s = s := by
  rcases h with h | h | h <;> simp [prefSwitch, h]

/-- The switch to PREF's synthesizer (R54). -/
theorem prefSwitch_of_ready (hb : s.root.bypass = false) (ha : s.root.active ≠ prefSyn s) (hr : spareReady s (prefSyn s) = true) :
    (prefSwitch s).root.active = prefSyn s ∧ (prefSwitch s).root.bypass = false ∧ Flagged (prefSwitch s) .root 2 := by
  have hset (z : Syn) (x : Synth) (u : State) : (setSyn z x u).root.active = u.root.active ∧ (setSyn z x u).root.bypass = u.root.bypass := by
    cases z <;> exact ⟨rfl, rfl⟩
  simp only [prefSwitch, hb, ha, hr, Bool.not_false, decide_true, ne_eq, not_false_eq_true, Bool.and_self, if_true, hset]
  refine ⟨rfl, hb, ?_⟩
  simp only [Flagged, eventOf, setSyn_fields]
  exact flagged_raise _ .root (by decide)

theorem otherSyn_ne (y : Syn) : otherSyn y ≠ y := by cases y <;> simp [otherSyn]

theorem ne_otherSyn (y : Syn) : y ≠ otherSyn y := (otherSyn_ne y).symm

theorem eq_otherSyn {y z : Syn} (h : z ≠ y) : z = otherSyn y := by cases y <;> cases z <;> simp [otherSyn] at h ⊢

/-- SPARE_EN acts on the synthesizer that PREF does not name (R55). -/
theorem synOf_sparePower_preferred (s : State) : synOf (sparePower s) (prefSyn s) = synOf s (prefSyn s) := by
  have hne : prefSyn s ≠ otherSyn (prefSyn s) := ne_otherSyn _
  unfold sparePower
  extract_lets o x t
  have hoff : synOf t (prefSyn s) = synOf s (prefSyn s) := synOf_setSyn_of_ne _ hne
  split
  · split
    · rfl
    · rw [synOf_enableSyn_of_ne hne, synOf_setSyn_of_ne _ hne]
  · split
    · rfl
    · cases h : prefSyn s <;> rw [h] at hoff <;> exact hoff

/-- A powered synthesizer that SPARE_EN or PREF keeps on is left as it is (R55). -/
theorem synOf_sparePower (hp : (synOf s y).powered = true) (hon : spareEn s = true ∨ prefSyn s = y) :
    synOf (sparePower s) y = synOf s y := by
  by_cases hy : prefSyn s = y
  · exact hy ▸ synOf_sparePower_preferred s
  · simp only [sparePower, ← eq_otherSyn (Ne.symm hy), hon.resolve_right hy, hp, if_true]

end

end Sys2Proof.Machine
end

