-- ==== Sys2Proof/Proofs/CrystalEvents.lean ====
section
/-!
PROOF. What the crystal's events do (O6): qualification, the freeze at a missing edge, the return of edges, loss and return of the
reference, and the release of a synthesizer failed while frozen (R36, R62 to R66, R542).
-/
namespace Sys2Proof.Machine
open Sys2Proof

/-! ### Qualification -/

theorem enableSyn_selects {s : State} {y : Syn} (hp : (synOf s y).powered = true) (hl : (synOf s y).locked = false)
    (ha : (synOf s y).acquiring = false) (hf : (synOf s y).failed = false) (hn : (synOf s y).noBand = false)
    (hm : measuring s y = false) (hr : s.root.refOk = true) :
    (synOf (enableSyn y s) y).acquiring = (bandFor (synOf s y)).isSome ∧ (synOf (enableSyn y s) y).noBand = (bandFor (synOf s y)).isNone := by
  rw [enableSyn_of_idle hp hl ha hf, startAcquire_selects (mayAcquire_of hp hr hn hm)]
  exact ⟨(acquiring_acquiringIn _).1, (acquiring_acquiringIn _).2 hn⟩

theorem crystalQualified_starts {s : State} (hok : s.root.refOk = false) (hlost : s.root.refLost = false) (hq : qualifiedEdges s = true) :
    Completes .crystalQualified s (fun t =>
      t.root.refOk = true ∧
      ((synOf s .s0).powered = true → (synOf s .s0).locked = false → (synOf s .s0).acquiring = false → (synOf s .s0).failed = false →
        (synOf s .s0).noBand = false → measuring s .s0 = false →
        (synOf t .s0).acquiring = (bandFor (synOf s .s0)).isSome ∧ (synOf t .s0).noBand = (bandFor (synOf s .s0)).isNone) ∧
      ((synOf s .s1).powered = true → (synOf s .s1).locked = false → (synOf s .s1).acquiring = false → (synOf s .s1).failed = false →
        (synOf s .s1).noBand = false → measuring s .s1 = false →
        (synOf t .s1).acquiring = (bandFor (synOf s .s1)).isSome ∧ (synOf t .s1).noBand = (bandFor (synOf s .s1)).isNone)) := by
  let u : State := { s with root := { s.root with refOk := true, bypTarget := s.time.counter } }
  have h0 : Retains powerView u (enableSyn .s0 u) := retains_enableSyn ..
  have h1 : Retains powerView u (enableSyn .s1 (enableSyn .s0 u)) := h0.trans (retains_enableSyn ..)
  refine ⟨enableSyn .s1 (enableSyn .s0 u), ?_, h1.field RootSt.refOk fun _ => rfl, fun hp hl ha hf hn hm => ?_, fun hp hl ha hf hn hm => ?_⟩
  · change execCrystalQualified s = _
    simp only [execCrystalQualified, hok, hlost, hq, Bool.not_true, Bool.or_self, Bool.false_eq_true, if_false, u]
  · rw [synOf_enableSyn_of_ne (by simp)]
    exact enableSyn_selects (s := u) hp hl ha hf hn hm rfl
  · have hsyn : synOf (enableSyn .s0 u) .s1 = synOf s .s1 := synOf_enableSyn_of_ne (by simp)
    have hmeas : measuring (enableSyn .s0 u) .s1 = false := (measuring_congr (h0.field RootSt.meas fun _ => rfl) .s1).trans hm
    have hselects := enableSyn_selects (s := enableSyn .s0 u) (y := .s1)
    rw [hsyn] at hselects
    exact hselects hp hl ha hf hn hmeas (h0.field RootSt.refOk fun _ => rfl)

/-- Without 65,536 good edges nothing is qualified (R36). -/
theorem crystalQualified_waits {s : State} (hq : qualifiedEdges s = false) :
    Completes .crystalQualified s (fun t => t.root.refOk = s.root.refOk) := by
  refine ⟨s, ?_, rfl⟩
  change execCrystalQualified s = _
  simp only [execCrystalQualified, hq, Bool.not_false, Bool.or_true, if_true]

/-! ### A missing edge -/

/-- The state in which a missing edge of a qualified crystal has frozen both synthesizers (R62, R312). -/
def frozenAt (s : State) : State :=
  tallyRefLost (freezeSyn .s1 (freezeSyn .s0 { s with root := { s.root with
    goodEdges := 0, missing := true, missedAt := elapsed s, slowFromTick := !s.root.bypass, stopped := s.root.stopped || s.root.bypass } }))

theorem retains_freezeSyn (y : Syn) (s : State) : Retains crystalView s (freezeSyn y s) := by
  exact retains_setSyn crystalView_setSyn id

theorem frozen_freezeSyn (y : Syn) (s : State) : (synOf (freezeSyn y s) y).frozen = true := by
  simp [freezeSyn]

theorem root_tallyRefLost (s : State) : (tallyRefLost s).root = s.root :=
  ((same_tallyRefLost (List.Subset.refl _)).mpr SameBut.rfl) .root (by decide)

theorem execMissingCrystalEdge_of_good {s : State} (hm : s.root.missing = false) (hok : s.root.refOk = true) :
    execMissingCrystalEdge s = .next (if (frozenAt s).root.bypass then loseTime (frozenAt s) else frozenAt s) := by
  simp only [execMissingCrystalEdge, hm, hok, Bool.not_true, Bool.or_self, Bool.false_eq_true, if_false, frozenAt]
  rfl

theorem missingCrystalEdge_freezes {s : State} (hm : s.root.missing = false) (hok : s.root.refOk = true) :
    Completes .missingCrystalEdge s (fun t =>
      t.root.goodEdges = 0 ∧ t.root.missing = true ∧ t.root.missedAt = elapsed s ∧ t.root.slowFromTick = !s.root.bypass ∧
      (synOf t .s0).frozen = true ∧ (synOf t .s1).frozen = true ∧
      (s.root.bypass = true → t.time.held = true ∧ t.fold.suspended = true ∧ Flagged t .root 10)) := by
  have hview : Retains crystalView { s with root := { s.root with
      goodEdges := 0, missing := true, missedAt := elapsed s, slowFromTick := !s.root.bypass, stopped := s.root.stopped || s.root.bypass } }
      (frozenAt s) :=
    ((retains_freezeSyn ..).trans (retains_freezeSyn ..)).trans (retains_of_root (root_tallyRefLost _))
  have h0 : (synOf (frozenAt s) .s0).frozen = true := by
    rw [frozenAt, synOf_congr (root_tallyRefLost _), freezeSyn, synOf_setSyn_of_ne _ (by simp)]
    exact frozen_freezeSyn ..
  have h1 : (synOf (frozenAt s) .s1).frozen = true := by
    rw [frozenAt, synOf_congr (root_tallyRefLost _)]
    exact frozen_freezeSyn ..
  have hb : (frozenAt s).root.bypass = s.root.bypass := hview.field RootSt.bypass fun _ => rfl
  have hroot : (if (frozenAt s).root.bypass then loseTime (frozenAt s) else frozenAt s).root = (frozenAt s).root := by
    split
    · exact (loseTime_holds _).1
    · rfl
  refine ⟨_, execMissingCrystalEdge_of_good hm hok, ?_⟩
  dsimp only
  rw [synOf_congr hroot, synOf_congr hroot, hroot]
  refine ⟨hview.field RootSt.goodEdges fun _ => rfl, hview.field RootSt.missing fun _ => rfl, hview.field RootSt.missedAt fun _ => rfl,
    hview.field RootSt.slowFromTick fun _ => rfl, h0, h1, fun h => ?_⟩
  rw [if_pos (hb.trans h)]
  obtain ⟨-, hheld, -, hfold, hflag⟩ := loseTime_holds (frozenAt s)
  exact ⟨hheld, hfold, hflag⟩

/-! ### The return of edges -/

/-- A synthesizer that has not failed unfreezes (R64, R65). -/
def thawed (x : Synth) : Synth := if x.failed then x else { x with frozen := false, readyAtFreeze := false }

theorem synOf_thawSyn (y : Syn) (s : State) : synOf (thawSyn y s) y = thawed (synOf s y) := by
  simp only [thawSyn, thawed]
  split
  · rfl
  · exact synOf_setSyn ..

theorem synOf_thawSyn_of_ne {y z : Syn} {s : State} (h : z ≠ y) : synOf (thawSyn y s) z = synOf s z := by
  simp only [thawSyn]
  split
  · rfl
  · exact synOf_setSyn_of_ne _ h

/-- Both synthesizers unfreeze together (R64, R65). -/
theorem synOf_thaws (s : State) (y : Syn) : synOf (thawSyn .s1 (thawSyn .s0 s)) y = thawed (synOf s y) := by
  cases y
  · rw [synOf_thawSyn_of_ne (by simp), synOf_thawSyn]
  · rw [synOf_thawSyn, synOf_thawSyn_of_ne (by simp)]

theorem retains_thaws (s : State) : Retains crystalView s (thawSyn .s1 (thawSyn .s0 s)) :=
  (retains_thawSyn ..).trans (retains_thawSyn ..)

theorem thawed_of_working {x : Synth} (h : x.failed = false) :
    (thawed x).frozen = false ∧ (thawed x).failed = false ∧ (thawed x).phaseResets = x.phaseResets := by
  simp [thawed, h]

theorem held_resumeHeld (s : State) : (resumeHeld s).time.held = false := by
  have hentered (t : State) : (bypassEntered t).time = t.time :=
    ((same_bypassEntered (List.Subset.refl _)).mpr SameBut.rfl) .time (by decide)
  simp only [resumeHeld]
  split
  · split
    · rfl
    · rw [hentered]
  · next h => simpa using h

theorem time_prefAct (s : State) : (prefAct s).time = s.time :=
  ((same_prefAct (List.Subset.refl _)).mpr SameBut.rfl) .time (by decide)

/-- The root once edges have resumed (R64). -/
def edgesBack (s : State) : State := { s with root := { s.root with missing := false, slowFromTick := false } }

theorem execEdgesResume_of_missing {s : State} (hm : s.root.missing = true) (hl : s.root.refLost = false)
    (hw : s.root.bypass = true ∨ s.time.held = true ∨ elapsed s ≤ s.root.missedAt + 320) :
    execEdgesResume s = .next (prefAct (resumeHeld (thawSyn .s1 (thawSyn .s0 (edgesBack s))))) := by
  have hc : (s.root.bypass || s.time.held || within64 s) = true := by simpa [within64, or_assoc] using hw
  exact if_pos (by simp only [hm, hl, hc, Bool.not_false, Bool.and_self])

theorem edgesResume_thaws {s : State} (hm : s.root.missing = true) (hl : s.root.refLost = false)
    (hw : s.root.bypass = true ∨ s.time.held = true ∨ elapsed s ≤ s.root.missedAt + 320) :
    Completes .edgesResume s (fun t =>
      t.root.missing = false ∧ t.root.slowFromTick = false ∧ t.root.refOk = s.root.refOk ∧ t.time.held = false ∧
      ((synOf s .s0).failed = false → (synOf t .s0).frozen = false) ∧ ((synOf s .s1).failed = false → (synOf t .s1).frozen = false) ∧
      (eventOf t .root).bits.getLsbD 5 = (eventOf s .root).bits.getLsbD 5 ∧
      (eventOf t .root).bits.getLsbD 6 = (eventOf s .root).bits.getLsbD 6) := by
  have hexec := execEdgesResume_of_missing hm hl hw
  have hthaw := retains_thaws (edgesBack s)
  have hback := (retains_resumeHeld (thawSyn .s1 (thawSyn .s0 (edgesBack s)))).trans (retains_prefAct _)
  have hfrozen (y : Syn) (h : (synOf s y).failed = false) :
      (synOf (prefAct (resumeHeld (thawSyn .s1 (thawSyn .s0 (edgesBack s))))) y).frozen = false := by
    rw [hback.synth y Synth.frozen fun _ => rfl, synOf_thaws]
    exact (thawed_of_working (by cases y <;> exact h)).1
  have hkept := keeps_edgesResume s _ hexec
  refine ⟨_, hexec, ?_, ?_, ?_, (congrArg TimeSt.held (time_prefAct _)).trans (held_resumeHeld _), hfrozen .s0, hfrozen .s1, ?_, ?_⟩
  · exact (hback.field RootSt.missing fun _ => rfl).trans (hthaw.field RootSt.missing fun _ => rfl)
  · exact (hback.field RootSt.slowFromTick fun _ => rfl).trans (hthaw.field RootSt.slowFromTick fun _ => rfl)
  · exact (hback.field RootSt.refOk fun _ => rfl).trans (hthaw.field RootSt.refOk fun _ => rfl)
  · exact hkept (.event .root 5) (of_decide_eq_true rfl)
  · exact hkept (.event .root 6) (of_decide_eq_true rfl)

/-- Past the 64 periods, edges do not resume: the loss is declared (R64). -/
theorem edgesResume_late {s : State} (hb : s.root.bypass = false) (hh : s.time.held = false) (hw : s.root.missedAt + 320 < elapsed s) :
    Completes .edgesResume s (fun t => t = s) := by
  have hlate : within64 s = false := by simp only [within64, decide_eq_false_iff_not]; omega
  refine ⟨s, ?_, rfl⟩
  change execEdgesResume s = _
  simp only [execEdgesResume, hb, hh, hlate, Bool.or_self, Bool.and_false, Bool.false_eq_true, if_false]

/-! ### Loss and return of the reference -/

theorem refLoss_declares {s : State} (hm : s.root.missing = true) (hl : s.root.refLost = false)
    (hw : s.root.bypass = true ∨ s.time.held = true ∨ s.root.missedAt + 320 ≤ elapsed s) :
    Completes .refLoss s (fun t => t.root.refOk = false ∧ t.root.refLost = true ∧ Flagged t .root 5) := by
  have hc : (s.root.bypass || s.time.held || past64 s) = true := by simpa [past64, or_assoc] using hw
  refine ⟨raise .root 5 { s with root := { s.root with refOk := false, refLost := true } }, ?_, rfl, rfl, flagged_raise _ .root (by decide)⟩
  change execRefLoss s = _
  simp only [execRefLoss, hm, hl, hc, Bool.not_false, Bool.and_self, if_true]

/-- Before the 64 periods have passed no loss is declared (R64). -/
theorem refLoss_early {s : State} (hb : s.root.bypass = false) (hh : s.time.held = false) (hw : elapsed s < s.root.missedAt + 320) :
    Completes .refLoss s (fun t => t = s) := by
  have hearly : past64 s = false := by simp only [past64, decide_eq_false_iff_not]; omega
  refine ⟨s, ?_, rfl⟩
  change execRefLoss s = _
  simp only [execRefLoss, hb, hh, hearly, Bool.or_self, Bool.and_false, Bool.false_eq_true, if_false]

theorem synOf_releaseFailed_of_ne {y z : Syn} {s : State} (h : z ≠ y) : synOf (releaseFailed y s) z = synOf s z := by
  simp only [releaseFailed]
  split
  · rw [synOf_startAcquire_of_ne h, synOf_setSyn_of_ne _ h]
  · rfl

/-- A synthesizer that has not failed is left as it is (R63). -/
theorem releaseFailed_of_working {y : Syn} {s : State} (h : (synOf s y).failed = false) : releaseFailed y s = s := by
  simp only [releaseFailed, h, Bool.false_eq_true, if_false]

/-- A synthesizer that failed while frozen is released without lock (R63). -/
structure Released (x : Synth) : Prop where
  failed : x.failed = false
  frozen : x.frozen = false
  locked : x.locked = false

theorem released_releaseFailed {y : Syn} {s : State} (h : (synOf s y).failed = true) : Released (synOf (releaseFailed y s) y) := by
  simp only [releaseFailed, h, if_true]
  have hkept := (retains_startAcquire y (setSyn y { synOf s y with failed := false, frozen := false, readyAtFreeze := false } s)).roles
  exact ⟨by rw [hkept.synth y Synth.failed fun _ => rfl, synOf_setSyn], by rw [hkept.synth y Synth.frozen fun _ => rfl, synOf_setSyn],
    locked_startAcquire ..⟩

/-- Both failed synthesizers are released together, and one that has not failed stays (R63). -/
theorem releases_both (s : State) (y : Syn) :
    ((synOf s y).failed = false → synOf (releaseFailed .s1 (releaseFailed .s0 s)) y = synOf s y) ∧
    ((synOf s y).failed = true → Released (synOf (releaseFailed .s1 (releaseFailed .s0 s)) y)) := by
  have h1 : synOf (releaseFailed .s0 s) .s1 = synOf s .s1 := synOf_releaseFailed_of_ne (by simp)
  cases y
  · rw [synOf_releaseFailed_of_ne (by simp)]
    exact ⟨fun h => by rw [releaseFailed_of_working h], released_releaseFailed⟩
  · rw [← h1]
    exact ⟨fun h => by rw [releaseFailed_of_working h], released_releaseFailed⟩

theorem retains_releases (s : State) : Retains crystalView s (releaseFailed .s1 (releaseFailed .s0 s)) :=
  (retains_releaseFailed ..).trans (retains_releaseFailed ..)

/-! ### The return of the reference -/

/-- The synthesizers as the return of the reference leaves them, before the counter resumes (R36, R63, R65). -/
def refBack (s : State) : State :=
  enableSyn .s1 (enableSyn .s0 (releaseFailed .s1 (releaseFailed .s0 (thawSyn .s1 (thawSyn .s0 (raise .root 6
    { s with root := { s.root with
      refOk := true, refLost := false, missing := false, slowFromTick := false, recV := s.time.counter } }))))))

theorem execRefReturn_of_lost {s : State} (hl : s.root.refLost = true) (hq : qualifiedEdges s = true) :
    execRefReturn s = .next (prefAct (resumeHeld (refBack s))) :=
  if_pos (by simp only [hl, hq, Bool.and_self])

/-- A hold ends in bypass, and otherwise nothing changes (R66). -/
theorem resumeHeld_cases (s : State) : resumeHeld s = s ∨ (resumeHeld s).root.bypass = true := by
  simp only [resumeHeld]
  split
  · right
    split
    · next h => exact h
    · exact (retains_sparePower _).field RootSt.bypass fun _ => rfl
  · exact .inl rfl

theorem phaseResets_resumeHeld (s : State) (y : Syn) : (synOf (resumeHeld s) y).phaseResets = (synOf s y).phaseResets := by
  have hentered (t : State) : (synOf (bypassEntered t) y).phaseResets = (synOf t y).phaseResets := by
    rw [bypassEntered_eq, synOf_congr (s := sparePower (bypassRoot t)) (by simp), (retains_sparePower _).phaseResets]
    cases y <;> rfl
  simp only [resumeHeld]
  split
  · split
    · cases y <;> rfl
    · rw [hentered]; cases y <;> rfl
  · rfl

/-- Where PREF asks for no change of roles, a resumed fabric resets no divider (R65). -/
theorem phaseResets_resumed {s : State} (h : s.root.bypass = true ∨ s.root.active = prefSyn s) (y : Syn) :
    (synOf (prefAct (resumeHeld s)) y).phaseResets = (synOf s y).phaseResets := by
  have hstays : prefSwitch (resumeHeld s) = resumeHeld s := by
    rcases resumeHeld_cases s with heq | hb
    · rw [heq]; exact prefSwitch_of_stays (h.imp_right .inl)
    · exact prefSwitch_of_stays (.inl hb)
  rw [prefAct, hstays, (retains_sparePower _).phaseResets, phaseResets_resumeHeld]

theorem refReturn_resumes {s : State} (hl : s.root.refLost = true) (hq : qualifiedEdges s = true) :
    Completes .refReturn s (fun t =>
      t.root.refOk = true ∧ t.root.recV = s.time.counter ∧ t.root.refLost = false ∧ t.root.missing = false ∧
      t.root.slowFromTick = false ∧ t.time.held = false ∧ Flagged t .root 6 ∧
      ∀ y, ((synOf s y).failed = false → (synOf t y).frozen = false) ∧
        ((synOf s y).failed = false → s.root.bypass = true ∨ s.root.active = prefSyn s → (synOf t y).phaseResets = (synOf s y).phaseResets) ∧
        ((synOf s y).failed = true → Released (synOf t y))) := by
  let u := raise .root 6 { s with root := { s.root with
      refOk := true, refLost := false, missing := false, slowFromTick := false, recV := s.time.counter } }
  let v := releaseFailed .s1 (releaseFailed .s0 (thawSyn .s1 (thawSyn .s0 u)))
  have hmend : Retains crystalView u v := (retains_thaws u).trans (retains_releases _)
  have hon : Retains powerView v (refBack s) := (retains_enableSyn ..).trans (retains_enableSyn ..)
  have hback : Retains crystalView u (refBack s) := hmend.trans hon.crystal
  have hres : Retains roleView (refBack s) (prefAct (resumeHeld (refBack s))) := (retains_resumeHeld _).trans (retains_prefAct _)
  have hsame : SameBut ([.root] ++ evs .root [8]) u (refBack s) := by
    simp [refBack, ↓same_enableSyn, ↓same_releaseFailed, ↓same_thawSyn, SameBut.rfl, evs, u]
  have hflag : Flagged (refBack s) .root 6 := flagged_of_sameBut hsame (by decide) (flagged_raise _ .root (by decide))
  have hpref : prefSyn (refBack s) = prefSyn s :=
    prefSyn_congr (hsame .nowRegs (by decide)) (hsame .build (by decide)) (hback.field RootSt.xtalSel fun _ => rfl)
  have hroles (h : s.root.bypass = true ∨ s.root.active = prefSyn s) :
      (refBack s).root.bypass = true ∨ (refBack s).root.active = prefSyn (refBack s) := by
    rw [hpref, hback.field RootSt.bypass fun _ => rfl, hback.field RootSt.active fun _ => rfl]
    exact h
  have hthaw (y : Syn) : synOf (thawSyn .s1 (thawSyn .s0 u)) y = thawed (synOf s y) := by
    rw [synOf_thaws]; cases y <;> rfl
  have hworks (y : Syn) (h : (synOf s y).failed = false) : synOf v y = thawed (synOf s y) :=
    ((releases_both _ y).1 (by rw [hthaw]; exact (thawed_of_working h).2.1)).trans (hthaw y)
  refine ⟨_, execRefReturn_of_lost hl hq, ?_, ?_, ?_, ?_, ?_, (congrArg TimeSt.held (time_prefAct _)).trans (held_resumeHeld _), ?_,
    fun y => ⟨fun h => ?_, fun h hstay => ?_, fun h => ?_⟩⟩
  · exact (hres.field RootSt.refOk fun _ => rfl).trans (hback.field RootSt.refOk fun _ => rfl)
  · exact (hres.field RootSt.recV fun _ => rfl).trans (hback.field RootSt.recV fun _ => rfl)
  · exact (hres.field RootSt.refLost fun _ => rfl).trans (hback.field RootSt.refLost fun _ => rfl)
  · exact (hres.field RootSt.missing fun _ => rfl).trans (hback.field RootSt.missing fun _ => rfl)
  · exact (hres.field RootSt.slowFromTick fun _ => rfl).trans (hback.field RootSt.slowFromTick fun _ => rfl)
  · refine flagged_of_sameBut (l := [.fold, .regions, .root, .time] ++ evs .root [2, 3, 8]) ?_ (by decide) hflag
    simp [↓same_prefAct, ↓same_resumeHeld, SameBut.rfl, evs]
  · rw [hres.synth y Synth.frozen fun _ => rfl, hon.roles.synth y Synth.frozen fun _ => rfl, hworks y h]
    exact (thawed_of_working h).1
  · rw [phaseResets_resumed (hroles hstay), hon.phaseResets, hworks y h]
    exact (thawed_of_working h).2.2
  · have hrel : Released (synOf v y) := (releases_both _ y).2 (by rw [hthaw, thawed, if_pos h]; exact h)
    exact ⟨by rw [hres.synth y Synth.failed fun _ => rfl, hon.roles.synth y Synth.failed fun _ => rfl, hrel.failed],
      by rw [hres.synth y Synth.frozen fun _ => rfl, hon.roles.synth y Synth.frozen fun _ => rfl, hrel.frozen],
      hres.unlocked y (hon.unlocked y hrel.locked)⟩

/-! ### The frozen-failure count -/

theorem frozenFailureCountEnd_releases {s : State} (hm : s.root.missing = false) (hl : s.root.refLost = false)
    (hq : qualifiedEdges s = true) :
    Completes .frozenFailureCountEnd s (fun t =>
      t.root.refOk = s.root.refOk ∧
      ∀ y, ((synOf s y).failed = true → Released (synOf t y)) ∧ ((synOf s y).failed = false → synOf t y = synOf s y)) := by
  refine ⟨releaseFailed .s1 (releaseFailed .s0 s), ?_, (retains_releases s).field RootSt.refOk fun _ => rfl, fun y => (releases_both s y).symm⟩
  change execFrozenFailureCountEnd s = _
  simp only [execFrozenFailureCountEnd, hm, hl, hq, Bool.not_false, Bool.and_self, if_true]

theorem frozenFailureCountEnd_waits {s : State} (hq : qualifiedEdges s = false) :
    Completes .frozenFailureCountEnd s (fun t => t = s) := by
  refine ⟨s, ?_, rfl⟩
  change execFrozenFailureCountEnd s = _
  simp only [execFrozenFailureCountEnd, hq, Bool.and_false, Bool.false_eq_true, if_false]

theorem Released.parts {x : Synth} (h : Released x) : x.failed = false ∧ x.frozen = false ∧ x.locked = false :=
  ⟨h.failed, h.frozen, h.locked⟩

/-- Settles O6: each crystal event's effect, from the rules of the synthesizers' operations. -/
theorem crystalAndReference : Obligations.CrystalAndReference := by
  unfold Obligations.CrystalAndReference
  refine ⟨fun _ => crystalQualified_starts, fun _ => crystalQualified_waits, fun _ => missingCrystalEdge_freezes,
    fun _ => edgesResume_thaws, fun _ => edgesResume_late, fun _ => refLoss_declares, fun _ => refLoss_early, fun s hl hq => ?_,
    fun s hm hl hq => ?_, fun _ => frozenFailureCountEnd_waits⟩
  · obtain ⟨t, hexec, hok, hv, hlost, hmiss, hslow, hheld, hflag, hsyn⟩ := refReturn_resumes hl hq
    obtain ⟨hthaw0, hphase0, hrel0⟩ := hsyn .s0
    obtain ⟨hthaw1, hphase1, hrel1⟩ := hsyn .s1
    exact ⟨t, hexec, hok, hv, hlost, hmiss, hslow, hheld, hflag, hthaw0, hphase0, hthaw1, hphase1, fun h => (hrel0 h).parts,
      fun h => (hrel1 h).parts⟩
  · obtain ⟨t, hexec, hok, hsyn⟩ := frozenFailureCountEnd_releases hm hl hq
    exact ⟨t, hexec, hok, fun h => ((hsyn .s0).1 h).parts, fun h => ((hsyn .s1).1 h).parts, (hsyn .s0).2, (hsyn .s1).2⟩

end Sys2Proof.Machine
end

