-- ==== Sys2Proof/Proofs/LossOfTheDriver.lean ====
section
/-!
PROOF. What the loss of the driving synthesizer does (R48, R52, R55, R56, R63, R66): the ready spare takes the mesh, else bypass is
entered, else the counter holds; and what it leaves of the synthesizers' own records.
-/
namespace Sys2Proof.Machine
open Sys2Proof

/-! ### A takeover by the spare -/

/-- The mesh has gone over to synthesizer y with no tick lost or added (R52). -/
structure TakesOver (y : Syn) (s t : State) : Prop where
  active : t.root.active = y
  bypass : t.root.bypass = s.root.bypass
  flagged : Flagged t .root 2
  time : t.time = s.time

theorem takesOver_takeOverMesh (y : Syn) (s : State) : TakesOver y s (takeOverMesh y s) := ⟨rfl, rfl, flagged_raise _ .root (by decide), rfl⟩

theorem synOf_takeOverMesh (y z : Syn) (s : State) : synOf (takeOverMesh y s) z = synOf s z := by cases z <;> rfl

/-- The state without the apply of the tick, before the events are taken back. -/
theorem root_unapply (u : ApplyUndo) (s : State) : (unapply u s).root = { s.root with
    s0 := unapplySyn (relocks s u.retuned0 .s0) s.root.s0 u.s0, s1 := unapplySyn (relocks s u.retuned1 .s1) s.root.s1 u.s1,
    aligned := if relocks s u.retuned0 .s0 || relocks s u.retuned1 .s1 then u.aligned else s.root.aligned,
    divTag := u.divTag, applied := none } :=
  ((same_unraise (b := .root) (ks := [7, 8]) (List.Subset.refl _)).mpr SameBut.rfl) .root (by decide)

theorem time_unapply (u : ApplyUndo) (s : State) : (unapply u s).time = s.time :=
  ((same_unapply u (List.Subset.refl _)).mpr SameBut.rfl) .time (by decide)

theorem relocks_of_lost {s : State} {y : Syn} (h : driving s y = true ∨ (synOf s y).failed = true) (retuned : Bool) :
    relocks s retuned y = false := by
  rcases h with h | h <;> simp [relocks, h]

/-- What taking an apply back leaves of a synthesizer that was driving or has failed: it is without lock as before (R48). -/
theorem synOf_unapply {s : State} {y : Syn} (h : driving s y = true ∨ (synOf s y).failed = true) (u : ApplyUndo) :
    ∃ o, synOf (unapply u s) y = dividersOf (synOf s y) o := by
  cases y
  · refine ⟨u.s0, ?_⟩
    simp only [synOf, root_unapply, relocks_of_lost h, unapplySyn, Bool.false_eq_true, if_false]
  · refine ⟨u.s1, ?_⟩
    simp only [synOf, root_unapply, relocks_of_lost h, unapplySyn, Bool.false_eq_true, if_false]

/-! ### An entry to bypass -/

/-- Bypass is entered with the count of the edges since the last good one (R56). -/
structure Bypasses (n : Nat) (s t : State) : Prop where
  bypass : t.root.bypass = true
  active : t.root.active = s.root.active
  target : t.root.bypTarget = s.root.recV + 5 * (n - 1)
  flagged : Flagged t .root 3
  time : t.time = s.time

theorem time_enterBypass (n : Nat) (s : State) : (enterBypass n s).time = s.time :=
  ((same_enterBypass n (List.Subset.refl _)).mpr SameBut.rfl) .time (by decide)

theorem bypasses_enterBypass (n : Nat) (s : State) : Bypasses n s (enterBypass n s) where
  bypass := (retains_sparePower _).field RootSt.bypass fun _ => rfl
  active := (retains_sparePower _).field RootSt.active fun _ => rfl
  target := (retains_sparePower _).field RootSt.bypTarget fun _ => rfl
  flagged := flagged_raise _ .root (by decide)
  time := time_enterBypass n s

theorem retains_enterBypass (n : Nat) (s : State) : Retains roleView s (enterBypass n s) := by
  let u : State := { s with root := { s.root with bypTarget := s.root.recV + 5 * (n - 1), lateEdges := n - 1 } }
  have hu : Retains roleView s u := ⟨rfl, fun z h => by cases z <;> exact h⟩
  exact hu.trans (retains_bypassEntered u)

/-- The next bypass edge gives the counter the greater of its value and V + 5 n (R56). -/
theorem Bypasses.nextCounter {n : Nat} {s t : State} (h : Bypasses n s t) (hn : 1 ≤ n) :
    nextCounter t = max s.time.counter (s.root.recV + 5 * n) := by
  have hsum : s.root.recV + 5 * (n - 1) + 5 = s.root.recV + 5 * n := by omega
  rw [Machine.nextCounter, if_pos h.bypass, h.time, h.target, hsum]

/-- An entry to bypass ends only the charge-pump calibration of a synthesizer that stays powered (R55, R354). -/
theorem synOf_enterBypass {s : State} {y : Syn} (n : Nat) (hp : (synOf s y).powered = true) (hon : spareEn s = true ∨ prefSyn s = y) :
    synOf (enterBypass n s) y = { synOf s y with pumpCal := false } := by
  let u := bypassRoot { s with root := { s.root with bypTarget := s.root.recV + 5 * (n - 1), lateEdges := n - 1 } }
  have hu : synOf u y = { synOf s y with pumpCal := false } := by cases y <;> rfl
  have hroot : (enterBypass n s).root = (sparePower u).root := rfl
  rw [synOf_congr hroot, synOf_sparePower (by rw [hu]; exact hp) (by exact hon), hu]

/-! ### The three outcomes -/

/-- What follows when the driving synthesizer is lost (R48, R52, R66). -/
theorem driverLost_cases (y : Syn) (both : Bool) (n : Nat) (s : State) :
    (both = false ∧ s.root.applied ≠ none ∧ ∃ u, driverLost y both n s = deferApply u.word (takeOverMesh (otherSyn y) (unapply u s))) ∨
    (spareReady s (otherSyn y) = true ∧ driverLost y both n s = takeOverMesh (otherSyn y) s) ∨
    (spareReady s (otherSyn y) = false ∧ s.root.missing = true ∧ driverLost y both n s = loseTime s) ∨
    (spareReady s (otherSyn y) = false ∧ s.root.missing = false ∧ driverLost y both n s = enterBypass n s) := by
  rcases hpre : (if both then none else switchOverApply y s) with _ | t
  · have heq : driverLost y both n s = if spareReady s (otherSyn y) then takeOverMesh (otherSyn y) s
        else if s.root.missing then loseTime s else enterBypass n s := by
      simp only [driverLost, hpre]
    right
    rw [heq]
    cases spareReady s (otherSyn y) <;> cases s.root.missing <;> simp
  · left
    have heq : driverLost y both n s = t := by simp only [driverLost, hpre]
    have hboth : both = false := by cases both <;> simp at hpre ⊢
    subst hboth
    simp only [Bool.false_eq_true, if_false, switchOverApply] at hpre
    split at hpre
    · next u hu =>
      split at hpre
      · exact ⟨rfl, by simp [hu], u, heq.trans (Option.some.inj hpre).symm⟩
      · cases hpre
    · cases hpre

section
variable {s : State} {y z : Syn} {both : Bool} {n : Nat}

theorem driverLost_takesOver (hr : spareReady s (otherSyn y) = true) : TakesOver (otherSyn y) s (driverLost y both n s) := by
  rcases driverLost_cases y both n s with ⟨-, -, u, heq⟩ | ⟨-, heq⟩ | ⟨h, -⟩ | ⟨h, -⟩
  · have htake := takesOver_takeOverMesh (otherSyn y) (unapply u s)
    rw [heq]
    exact ⟨rfl, htake.bypass.trans (by rw [root_unapply]), htake.flagged, time_unapply u s⟩
  · rw [heq]; exact takesOver_takeOverMesh _ s
  · simp [hr] at h
  · simp [hr] at h

theorem driverLost_holds (hr : spareReady s (otherSyn y) = false) (happ : both = true ∨ s.root.applied = none) (hm : s.root.missing = true) :
    driverLost y both n s = loseTime s := by
  rcases driverLost_cases y both n s with ⟨hb, ha, -⟩ | ⟨h, -⟩ | ⟨-, -, heq⟩ | ⟨-, h, -⟩
  · rcases happ with h | h
    · simp [h] at hb
    · exact absurd h ha
  · simp [hr] at h
  · exact heq
  · simp [hm] at h

theorem driverLost_bypasses (hr : spareReady s (otherSyn y) = false) (happ : both = true ∨ s.root.applied = none) (hm : s.root.missing = false) :
    driverLost y both n s = enterBypass n s := by
  rcases driverLost_cases y both n s with ⟨hb, ha, -⟩ | ⟨h, -⟩ | ⟨-, h, -⟩ | ⟨-, -, heq⟩
  · rcases happ with h | h
    · simp [h] at hb
    · exact absurd h ha
  · simp [hr] at h
  · simp [hm] at h
  · exact heq

/-- A synthesizer that failed, drove, or was lost together with the driver gains no lock by the loss (R48, R63). -/
theorem driverLost_unlocked (hz : both = true ∨ driving s z = true ∨ (synOf s z).failed = true) (hl : (synOf s z).locked = false) :
    (synOf (driverLost y both n s) z).locked = false ∧ (synOf (driverLost y both n s) z).failed = (synOf s z).failed := by
  rcases driverLost_cases y both n s with ⟨hb, -, u, heq⟩ | ⟨-, heq⟩ | ⟨-, -, heq⟩ | ⟨-, -, heq⟩ <;> rw [heq]
  · obtain ⟨o, ho⟩ := synOf_unapply (hz.resolve_left (by simp [hb])) u
    have hsyn : synOf (deferApply u.word (takeOverMesh (otherSyn y) (unapply u s))) z = dividersOf (synOf s z) o :=
      (synOf_takeOverMesh (otherSyn y) z (unapply u s)).trans ho
    rw [hsyn]
    exact ⟨hl, rfl⟩
  · rw [synOf_takeOverMesh]; exact ⟨hl, rfl⟩
  · rw [synOf_congr (loseTime_holds s).1]; exact ⟨hl, rfl⟩
  · have hkept := retains_enterBypass n s
    exact ⟨hkept.unlocked z hl, hkept.synth z Synth.failed fun _ => rfl⟩

/-- One that PREF or SPARE_EN keeps on acquires as before (R48, R51). -/
theorem driverLost_acquiring (hz : both = true ∨ driving s z = true) (hp : (synOf s z).powered = true)
    (hon : spareEn s = true ∨ prefSyn s = z) : (synOf (driverLost y both n s) z).acquiring = (synOf s z).acquiring := by
  rcases driverLost_cases y both n s with ⟨hb, -, u, heq⟩ | ⟨-, heq⟩ | ⟨-, -, heq⟩ | ⟨-, -, heq⟩ <;> rw [heq]
  · obtain ⟨o, ho⟩ := synOf_unapply (.inl (hz.resolve_left (by simp [hb]))) u
    have hsyn : synOf (deferApply u.word (takeOverMesh (otherSyn y) (unapply u s))) z = dividersOf (synOf s z) o :=
      (synOf_takeOverMesh (otherSyn y) z (unapply u s)).trans ho
    rw [hsyn]
    rfl
  · rw [synOf_takeOverMesh]
  · rw [synOf_congr (loseTime_holds s).1]
  · rw [synOf_enterBypass n hp hon]

/-- The loss events stand through what follows the loss (R51). -/
theorem driverLost_flagged (h : Flagged s .root (lossBit z)) : Flagged (driverLost y both n s) .root (lossBit z) :=
  flagged_of_sameBut ((same_driverLost y both n (List.Subset.refl _)).mpr SameBut.rfl) (by cases z <;> decide) h

end

end Sys2Proof.Machine
end

