-- ==== Sys2Proof/Proofs/LockAndBypass.lean ====
section
/-!
PROOF. Losing and gaining lock, entering and leaving bypass (O7): a frozen synthesizer's failure, the loss of one lock or both, the
lock acquired and qualified, and the return from bypass (R42, R51 to R56, R60, R61, R63, R66).
-/
namespace Sys2Proof.Machine
open Sys2Proof

theorem setSyn_roles (y : Syn) (x : Synth) (s : State) : (setSyn y x s).root.bypass = s.root.bypass ∧
    (setSyn y x s).root.active = s.root.active ∧ (setSyn y x s).root.aligned = s.root.aligned ∧
    (setSyn y x s).root.applied = s.root.applied ∧ (setSyn y x s).root.missing = s.root.missing := by
  cases y <;> exact ⟨rfl, rfl, rfl, rfl, rfl⟩

theorem setSyn_setSyn (y : Syn) (x z : Synth) (s : State) : setSyn y x (setSyn y z s) = setSyn y x s := by cases y <;> rfl

/-- A command has one next state. -/
theorem Completes.of_exec {c : Instr} {s t : State} {P : State → Prop} (h : Completes c s P) (hexec : exec c s = .next t) : P t := by
  obtain ⟨u, hu, hP⟩ := h
  rw [hexec] at hu
  cases hu
  exact hP

/-! ### A frozen synthesizer fails -/

/-- Synthesizer y failed by the frozen-output monitor (R63). -/
def frozenFailed (y : Syn) (s : State) : State :=
  raise .root (lossBit y)
    (setSyn y { synOf s y with failed := true, locked := false, qualified := false, acquiring := false, pumpCal := false } s)

theorem synOf_frozenFailed (y : Syn) (s : State) : (synOf (frozenFailed y s) y).failed = true ∧ (synOf (frozenFailed y s) y).locked = false ∧
    synOf (frozenFailed y s) (otherSyn y) = synOf s (otherSyn y) := by
  have hroot (z : Syn) : synOf (frozenFailed y s) z =
      synOf (setSyn y { synOf s y with failed := true, locked := false, qualified := false, acquiring := false, pumpCal := false } s) z :=
    synOf_congr rfl z
  rw [hroot, hroot, synOf_setSyn, synOf_setSyn_other]
  exact ⟨rfl, rfl, rfl⟩

theorem root_frozenFailed (y : Syn) (s : State) : (frozenFailed y s).root.bypass = s.root.bypass ∧
    (frozenFailed y s).root.active = s.root.active ∧ (frozenFailed y s).root.aligned = s.root.aligned ∧
    (frozenFailed y s).root.applied = s.root.applied ∧ (frozenFailed y s).root.missing = s.root.missing :=
  setSyn_roles y _ s

theorem time_frozenFailed (y : Syn) (s : State) : (frozenFailed y s).time = s.time := by simp [frozenFailed]

section
variable {s : State} {y : Syn} {ps : Nat}

theorem exec_frozenOutputFail (hz : (synOf s y).frozen = true) (hf : (synOf s y).failed = false) (hp : (synOf s y).powered = true)
    (hps : 6000 < ps ∨ ps < 2000) :
    exec (.frozenOutputFail y ps) s = .next (if driving s y then driverLost y false 1 (frozenFailed y s)
      else { frozenFailed y s with root := { (frozenFailed y s).root with aligned := false } }) := by
  have hc : ((synOf s y).frozen && !(synOf s y).failed && (synOf s y).powered && (decide (6000 < ps) || decide (ps < 2000))) = true := by
    simpa [hz, hf, hp] using hps
  exact if_pos hc

theorem frozenOutputFail_fails (hz : (synOf s y).frozen = true) (hf : (synOf s y).failed = false) (hp : (synOf s y).powered = true)
    (hps : 6000 < ps ∨ ps < 2000) :
    Completes (.frozenOutputFail y ps) s (fun t =>
      (synOf t y).failed = true ∧ (synOf t y).locked = false ∧ Flagged t .root (lossBit y) ∧
      (driving s y = true → spareReady s (otherSyn y) = true → t.root.active = otherSyn y ∧ Flagged t .root 2 ∧ t.time.counter = s.time.counter) ∧
      (driving s y = true → spareReady s (otherSyn y) = false → s.root.applied = none → s.root.missing = true →
        t.time.held = true ∧ t.time.counter = s.time.counter ∧ t.fold.suspended = true ∧ Flagged t .root 10) ∧
      (driving s y = false → t.root.aligned = false ∧ t.root.active = s.root.active ∧ t.time = s.time)) := by
  obtain ⟨hfailed, hlocked, hother⟩ := synOf_frozenFailed y s
  obtain ⟨hbyp, hact, hal, happ, hmiss⟩ := root_frozenFailed y s
  have hready : spareReady (frozenFailed y s) (otherSyn y) = spareReady s (otherSyn y) := spareReady_congr hother hbyp hact hal
  have hflag : Flagged (frozenFailed y s) .root (lossBit y) := flagged_raise _ .root (lossBit_lt y)
  refine ⟨_, exec_frozenOutputFail hz hf hp hps, ?_⟩
  cases hd : driving s y
  · rw [if_neg (by simp)]
    refine ⟨?_, ?_, hflag, nofun, nofun, fun _ => ⟨rfl, hact, time_frozenFailed y s⟩⟩
    · cases y <;> exact hfailed
    · cases y <;> exact hlocked
  · rw [if_pos rfl]
    obtain ⟨hunlocked, hstill⟩ := driverLost_unlocked (y := y) (both := false) (n := 1) (.inr (.inr hfailed)) hlocked
    refine ⟨hstill.trans hfailed, hunlocked, driverLost_flagged hflag, fun _ hr => ?_, fun _ hr ha hm => ?_, nofun⟩
    · have htake := driverLost_takesOver (both := false) (n := 1) (hready.trans hr)
      exact ⟨htake.active, htake.flagged, by rw [htake.time, time_frozenFailed]⟩
    · rw [driverLost_holds (hready.trans hr) (.inr (happ.trans ha)) (hmiss.trans hm)]
      obtain ⟨-, hheld, hcount, hfold, h10⟩ := loseTime_holds (frozenFailed y s)
      exact ⟨hheld, by rw [hcount, time_frozenFailed], hfold, h10⟩

/-- With no spare and no bypass edge the counter holds, in the mode that was (R66). -/
theorem frozenOutputFail_holds (hd : driving s y = true) (hz : (synOf s y).frozen = true) (hf : (synOf s y).failed = false)
    (hp : (synOf s y).powered = true) (hps : 6000 < ps ∨ ps < 2000) (hr : spareReady s (otherSyn y) = false)
    (ha : s.root.applied = none) (hm : s.root.missing = true) :
    Completes (.frozenOutputFail y ps) s (fun t =>
      t.time.held = true ∧ t.time.counter = s.time.counter ∧ t.fold.suspended = true ∧ t.root.bypass = s.root.bypass ∧ Flagged t .root 10) := by
  obtain ⟨hbyp, hact, hal, happ, hmiss⟩ := root_frozenFailed y s
  have hready : spareReady (frozenFailed y s) (otherSyn y) = false :=
    (spareReady_congr (synOf_frozenFailed y s).2.2 hbyp hact hal).trans hr
  obtain ⟨hroot, hheld, hcount, hfold, h10⟩ := loseTime_holds (frozenFailed y s)
  refine ⟨loseTime (frozenFailed y s), ?_, hheld, by rw [hcount, time_frozenFailed], hfold, by rw [hroot, hbyp], h10⟩
  rw [exec_frozenOutputFail hz hf hp hps, if_pos hd, driverLost_holds hready (.inr (happ.trans ha)) (hmiss.trans hm)]

end

/-! ### Lock is lost -/

/-- What a lost lock leaves of the root. -/
theorem retains_dropLock (y : Syn) (s : State) : Retains powerView s (dropLock y s) := (retains_startAcquire y s).trans (retains_raise ..)

theorem synOf_dropLock (y z : Syn) (s : State) : synOf (dropLock y s) z = synOf (startAcquire y s) z := synOf_congr rfl z

theorem synOf_dropLock_of_ne {y z : Syn} {s : State} (h : z ≠ y) : synOf (dropLock y s) z = synOf s z :=
  (synOf_dropLock y z s).trans (synOf_startAcquire_of_ne h)

theorem locked_dropLock (y : Syn) (s : State) : (synOf (dropLock y s) y).locked = false :=
  (congrArg Synth.locked (synOf_dropLock y y s)).trans (locked_startAcquire y s)

theorem aligned_dropLock (y : Syn) (s : State) : (dropLock y s).root.aligned = s.root.aligned :=
  (congrArg RootSt.aligned (startAcquire_root y s)).trans (setSyn_roles y _ s).2.2.1

theorem same_dropped (y : Syn) (s : State) : SameBut ([.root] ++ evs .root [lossBit y, 8]) s (dropLock y s) :=
  (same_dropLock y s (List.Subset.refl _)).mpr .rfl

/-- The other synthesizer's lock is lost in the same cycle (R51). -/
def losesAlso (both : Bool) (y : Syn) (s : State) : Bool := both && (synOf s (otherSyn y)).locked && !(synOf s (otherSyn y)).frozen

/-- The state in which y, and the other with it, has lost its lock (R51). -/
def locksLost (both : Bool) (y : Syn) (s : State) : State :=
  if losesAlso both y s then dropLock (otherSyn y) (dropLock y s) else dropLock y s

/-- The warm spare is no longer aligned. -/
def unaligned (s : State) : State := { s with root := { s.root with aligned := false } }

section
variable {s : State} {y : Syn} {err1 err2 : Int} {slip both : Bool} {edges : Nat}

theorem exec_lockLoss (hl : (synOf s y).locked = true) (hz : (synOf s y).frozen = false)
    (herr : slip = true ∨ (400 < err1.natAbs ∧ 400 < err2.natAbs)) :
    exec (.lockLoss y err1 err2 slip both edges) s = .next (
      if driving s y then driverLost y both edges (locksLost both y s)
      else if losesAlso both y s && driving s (otherSyn y) then driverLost (otherSyn y) both edges (unaligned (locksLost both y s))
      else unaligned (locksLost both y s)) := by
  have hc : ((synOf s y).locked && !(synOf s y).frozen && (slip || (decide (400 < err1.natAbs) && decide (400 < err2.natAbs)))) = true := by
    simpa [hl, hz] using herr
  exact if_pos hc

theorem retains_locksLost (both : Bool) (y : Syn) (s : State) : Retains powerView s (locksLost both y s) :=
  retains_ite ((retains_dropLock ..).trans (retains_dropLock ..)) (retains_dropLock ..)

theorem synOf_locksLost (both : Bool) (y : Syn) (s : State) : synOf (locksLost both y s) y = synOf (startAcquire y s) y := by
  unfold locksLost
  split
  · rw [synOf_dropLock_of_ne (ne_otherSyn y), synOf_dropLock]
  · exact synOf_dropLock y y s

theorem same_locksLost (both : Bool) (y : Syn) (s : State) : SameBut ([.root] ++ evs .root [0, 1, 8]) s (locksLost both y s) := by
  have hdrop (z : Syn) (u : State) : SameBut ([.root] ++ evs .root [0, 1, 8]) u (dropLock z u) :=
    (same_dropped z u).mono (by cases z <;> decide)
  unfold locksLost
  split
  · exact (hdrop y s).trans (hdrop _ _)
  · exact hdrop y s

theorem flagged_dropLock (y : Syn) (s : State) : Flagged (dropLock y s) .root (lossBit y) := flagged_raise _ .root (lossBit_lt y)

theorem flagged_locksLost (both : Bool) (y : Syn) (s : State) : Flagged (locksLost both y s) .root (lossBit y) := by
  unfold locksLost
  split
  · exact flagged_of_sameBut (same_dropped _ _) (by cases y <;> decide) (flagged_dropLock y s)
  · exact flagged_dropLock y s

/-- The root's roles after the locks are lost: still those before it. -/
theorem roles_locksLost (both : Bool) (y : Syn) (s : State) : (locksLost both y s).root.bypass = s.root.bypass ∧
    (locksLost both y s).root.active = s.root.active ∧ (locksLost both y s).root.missing = s.root.missing ∧
    (locksLost both y s).root.applied = s.root.applied ∧ (locksLost both y s).root.recV = s.root.recV := by
  have h := retains_locksLost both y s
  exact ⟨h.field RootSt.bypass fun _ => rfl, h.field RootSt.active fun _ => rfl, h.field RootSt.missing fun _ => rfl,
    h.field RootSt.applied fun _ => rfl, h.field RootSt.recV fun _ => rfl⟩

theorem prefSyn_locksLost (both : Bool) (y : Syn) (s : State) :
    spareEn (locksLost both y s) = spareEn s ∧ prefSyn (locksLost both y s) = prefSyn s := by
  have h := same_locksLost both y s
  have hx : (locksLost both y s).root.xtalSel = s.root.xtalSel := (retains_locksLost both y s).field RootSt.xtalSel fun _ => rfl
  exact ⟨spareEn_congr (h .nowRegs (by decide)) (h .build (by decide)) hx, prefSyn_congr (h .nowRegs (by decide)) (h .build (by decide)) hx⟩

theorem locked_locksLost (both : Bool) (y : Syn) (s : State) : (synOf (locksLost both y s) y).locked = false :=
  (congrArg Synth.locked (synOf_locksLost both y s)).trans (locked_startAcquire y s)

theorem powered_startAcquire (y z : Syn) (s : State) : (synOf (startAcquire y s) z).powered = (synOf s z).powered := by
  by_cases h : z = y
  · subst h
    rw [synOf_startAcquire]
    unfold acquiringIn
    repeat' split
    all_goals rfl
  · rw [synOf_startAcquire_of_ne h]

/-- Each case of a lock loss leaves the lost synthesizer without lock, acquiring as it started to. -/
theorem lockLoss_reacquires (hl : (synOf s y).locked = true) (hz : (synOf s y).frozen = false)
    (herr : slip = true ∨ (400 < err1.natAbs ∧ 400 < err2.natAbs)) :
    Completes (.lockLoss y err1 err2 slip both edges) s (fun t =>
      (synOf t y).locked = false ∧
      ((synOf s y).powered = true → (spareEn s = true ∨ prefSyn s = y) →
        (synOf t y).acquiring = (synOf (startAcquire y s) y).acquiring) ∧
      Flagged t .root (lossBit y)) := by
  have hun := locked_locksLost both y s
  have hflag := flagged_locksLost both y s
  have hsyn := synOf_locksLost both y s
  obtain ⟨hbyp, hact, -⟩ := roles_locksLost both y s
  obtain ⟨hspare, hpref⟩ := prefSyn_locksLost both y s
  have hpow (hp : (synOf s y).powered = true) : (synOf (locksLost both y s) y).powered = true := by
    rw [hsyn, powered_startAcquire, hp]
  have hal (w : State) : synOf (unaligned w) y = synOf w y := by cases y <;> rfl
  refine ⟨_, exec_lockLoss hl hz herr, ?_⟩
  split
  · next hd =>
    have hd' : driving (locksLost both y s) y = true := (driving_congr hbyp hact y).trans hd
    refine ⟨(driverLost_unlocked (.inr (.inl hd')) hun).1, fun hp hon => ?_, driverLost_flagged hflag⟩
    rw [driverLost_acquiring (.inr hd') (hpow hp) (by rwa [hspare, hpref]), hsyn]
  · split
    · next hboth =>
      have hboth : both = true := by
        simp only [losesAlso, Bool.and_eq_true] at hboth
        exact hboth.1.1.1
      refine ⟨(driverLost_unlocked (.inl hboth) (by rw [hal]; exact hun)).1, fun hp hon => ?_, driverLost_flagged hflag⟩
      rw [driverLost_acquiring (.inl hboth) (by rw [hal]; exact hpow hp) (by rw [← hspare, ← hpref] at hon; exact hon), hal, hsyn]
    · rw [hal]
      exact ⟨hun, fun _ _ => by rw [hsyn], hflag⟩

/-- One lock lost alone leaves the other synthesizer ready or not, as it was. -/
theorem spareReady_locksLost_one (y : Syn) (s : State) : spareReady (locksLost false y s) (otherSyn y) = spareReady s (otherSyn y) := by
  obtain ⟨hbyp, hact, -⟩ := roles_locksLost false y s
  have heq : locksLost false y s = dropLock y s := if_neg (by simp [losesAlso])
  rw [heq] at hbyp hact ⊢
  exact spareReady_congr (synOf_dropLock_of_ne (otherSyn_ne y)) hbyp hact (aligned_dropLock y s)

/-- A driver lost alone hands the mesh to the ready spare (R52). -/
theorem lockLoss_takesOver (hl : (synOf s y).locked = true) (hz : (synOf s y).frozen = false)
    (herr : slip = true ∨ (400 < err1.natAbs ∧ 400 < err2.natAbs)) (hd : driving s y = true) (hr : spareReady s (otherSyn y) = true) :
    Completes (.lockLoss y err1 err2 slip false edges) s (fun t =>
      t.root.active = otherSyn y ∧ t.root.bypass = false ∧ Flagged t .root 2 ∧ t.time.counter = s.time.counter) := by
  have htake := driverLost_takesOver (both := false) (n := edges) ((spareReady_locksLost_one y s).trans hr)
  have hbyp : s.root.bypass = false := by
    simp only [driving, Bool.and_eq_true, Bool.not_eq_true'] at hd
    exact hd.1
  refine ⟨_, (exec_lockLoss hl hz herr).trans (by rw [if_pos hd]), htake.active, ?_, htake.flagged, ?_⟩
  · rw [htake.bypass, (roles_locksLost false y s).1, hbyp]
  · rw [htake.time, same_locksLost false y s .time (by decide)]

/-- A driver lost with no spare enters bypass (R56). -/
theorem lockLoss_bypasses (hl : (synOf s y).locked = true) (hz : (synOf s y).frozen = false)
    (herr : slip = true ∨ (400 < err1.natAbs ∧ 400 < err2.natAbs)) (hd : driving s y = true) (hr : spareReady s (otherSyn y) = false)
    (hm : s.root.missing = false) (ha : s.root.applied = none) :
    Completes (.lockLoss y err1 err2 slip false edges) s (fun t => Bypasses edges s t) := by
  obtain ⟨-, hact, hmiss, happ, hrec⟩ := roles_locksLost false y s
  have hbyp := bypasses_enterBypass edges (locksLost false y s)
  refine ⟨enterBypass edges (locksLost false y s), ?_, hbyp.bypass, hbyp.active.trans hact, by rw [hbyp.target, hrec], hbyp.flagged, ?_⟩
  · rw [exec_lockLoss hl hz herr, if_pos hd,
      driverLost_bypasses ((spareReady_locksLost_one y s).trans hr) (.inr (happ.trans ha)) (hmiss.trans hm)]
  · rw [hbyp.time, same_locksLost false y s .time (by decide)]

/-- Both locks lost at once enter bypass, whatever apply the tick holds (R55, R56). -/
theorem lockLoss_both (hl : (synOf s y).locked = true) (hz : (synOf s y).frozen = false)
    (herr : slip = true ∨ (400 < err1.natAbs ∧ 400 < err2.natAbs)) (hd : driving s y = true)
    (hlo : (synOf s (otherSyn y)).locked = true) (hzo : (synOf s (otherSyn y)).frozen = false) (hm : s.root.missing = false) :
    Completes (.lockLoss y err1 err2 slip true edges) s (fun t =>
      Bypasses edges s t ∧ (synOf t y).locked = false ∧ (synOf t (otherSyn y)).locked = false ∧
      Flagged t .root (lossBit y) ∧ Flagged t .root (lossBit (otherSyn y))) := by
  obtain ⟨-, hact, hmiss, -, hrec⟩ := roles_locksLost true y s
  have heq : locksLost true y s = dropLock (otherSyn y) (dropLock y s) := if_pos (by simp [losesAlso, hlo, hzo])
  have hun : (synOf (locksLost true y s) (otherSyn y)).locked = false := by rw [heq]; exact locked_dropLock ..
  have hzo' : (synOf (locksLost true y s) (otherSyn y)).frozen = false :=
    ((retains_locksLost true y s).roles.synth _ Synth.frozen fun _ => rfl).trans hzo
  have hr : spareReady (locksLost true y s) (otherSyn y) = false := by simp [spareReady, hun, hzo']
  have hflag : Flagged (locksLost true y s) .root (lossBit (otherSyn y)) := by rw [heq]; exact flagged_dropLock ..
  have hbyp := bypasses_enterBypass edges (locksLost true y s)
  have hgoes : driverLost y true edges (locksLost true y s) = enterBypass edges (locksLost true y s) :=
    driverLost_bypasses hr (.inl rfl) (hmiss.trans hm)
  refine ⟨enterBypass edges (locksLost true y s), ?_,
    ⟨hbyp.bypass, hbyp.active.trans hact, by rw [hbyp.target, hrec], hbyp.flagged, ?_⟩, ?_, ?_, ?_, ?_⟩
  · rw [exec_lockLoss hl hz herr, if_pos hd, hgoes]
  · rw [hbyp.time, same_locksLost true y s .time (by decide)]
  · exact (retains_enterBypass ..).unlocked y (locked_locksLost true y s)
  · exact (retains_enterBypass ..).unlocked _ hun
  · exact hgoes ▸ driverLost_flagged (flagged_locksLost true y s)
  · exact hgoes ▸ driverLost_flagged hflag

end

/-! ### Lock is gained -/

/-- Lock is attained in the band selected at the start of the acquisition (R42, R51). -/
theorem lockAcquired_locks {s : State} {y : Syn} (ha : (synOf s y).acquiring = true) (hp : (synOf s y).powered = true)
    (hz : (synOf s y).frozen = false) :
    Completes (.lockAcquired y) s (fun t =>
      (synOf t y).locked = true ∧ (synOf t y).acquiring = false ∧ (synOf t y).band = (synOf s y).band ∧
      (synOf t y).lockAt = elapsed s ∧ (synOf t y).qualified = (synOf s y).qualified) := by
  refine ⟨setSyn y { synOf s y with locked := true, acquiring := false, lockAt := elapsed s } s, ?_, ?_⟩
  · exact if_pos (by simp [ha, hp, hz])
  · dsimp only
    rw [synOf_setSyn]
    exact ⟨rfl, rfl, rfl, rfl, rfl⟩

section
variable {s : State} {y : Syn}

/-- The qualified synthesizer y becomes the warm spare, its divider reset from the active tick (R53). -/
def warmed (y : Syn) (s : State) : State :=
  let t := setSyn y { synOf s y with qualified := true, phaseResets := (synOf s y).phaseResets + 1 } s
  { t with root := { t.root with aligned := true } }

theorem synOf_warmed (y : Syn) (s : State) :
    synOf (warmed y s) y = { synOf s y with qualified := true, phaseResets := (synOf s y).phaseResets + 1 } := by
  cases y <;> rfl

theorem prefSyn_warmed (y : Syn) (s : State) : prefSyn (warmed y s) = prefSyn s ∧ spareEn (warmed y s) = spareEn s := by
  cases y <;> exact ⟨rfl, rfl⟩

theorem warmed_roles (y : Syn) (s : State) :
    (warmed y s).root.bypass = s.root.bypass ∧ (warmed y s).root.active = s.root.active ∧ (warmed y s).root.aligned = true := by
  cases y <;> exact ⟨rfl, rfl, rfl⟩

/-- The outcome of the qualification: a driver only qualifies, another synthesizer becomes warm and PREF acts (R53, R54). -/
theorem exec_synthQualified (hl : (synOf s y).locked = true) (hq : (synOf s y).qualified = false) (hz : (synOf s y).frozen = false)
    (ht : (synOf s y).lockAt + 327680 ≤ elapsed s) :
    exec (.synthQualified y) s = .next (if !s.root.bypass && s.root.active ≠ y then prefAct (warmed y s)
      else setSyn y { synOf s y with qualified := true } s) := by
  obtain ⟨hbyp, hact, -⟩ := setSyn_roles y { synOf s y with qualified := true } s
  refine (if_pos (by simp [hl, hq, hz, ht])).trans ?_
  dsimp only
  rw [hbyp, hact, synOf_setSyn, setSyn_setSyn]
  split <;> rfl

/-- A powered synthesizer stays qualified through what PREF does, while SPARE_EN keeps it on (R55). -/
theorem qualified_prefAct {s : State} {y : Syn} (hp : (synOf s y).powered = true) (hon : spareEn s = true) :
    (synOf (prefAct s) y).qualified = (synOf s y).qualified := by
  have hx : (prefSwitch s).root.xtalSel = s.root.xtalSel := by simp
  have hsame : SameBut ([.root] ++ evs .root [2]) s (prefSwitch s) := (same_prefSwitch (List.Subset.refl _)).mpr .rfl
  have hswitch : (synOf (prefSwitch s) y).powered = (synOf s y).powered ∧ (synOf (prefSwitch s) y).qualified = (synOf s y).qualified := by
    simp only [prefSwitch]
    split
    · cases prefSyn s <;> cases y <;> exact ⟨rfl, rfl⟩
    · exact ⟨rfl, rfl⟩
  rw [prefAct, synOf_sparePower (hswitch.1.trans hp) (.inl ?_), hswitch.2]
  rw [spareEn_congr (hsame .nowRegs (by decide)) (hsame .build (by decide)) hx, hon]

theorem synthQualified_warms (hl : (synOf s y).locked = true) (hq : (synOf s y).qualified = false) (hz : (synOf s y).frozen = false)
    (ht : (synOf s y).lockAt + 327680 ≤ elapsed s) (hp : (synOf s y).powered = true) (hon : spareEn s = true) :
    Completes (.synthQualified y) s (fun t =>
      (synOf t y).qualified = true ∧
      (s.root.bypass = false → s.root.active ≠ y → prefSyn s = s.root.active →
        t.root.aligned = true ∧ t.root.active = s.root.active ∧ (synOf t y).phaseResets = (synOf s y).phaseResets + 1) ∧
      (s.root.bypass = false → s.root.active ≠ y → prefSyn s = y → t.root.active = y ∧ Flagged t .root 2)) := by
  obtain ⟨hbyp, hact, hal⟩ := warmed_roles y s
  obtain ⟨hpref, hspare⟩ := prefSyn_warmed y s
  have hsyn := synOf_warmed y s
  have hpow : (synOf (warmed y s) y).powered = true := by rw [hsyn, ← hp]
  refine ⟨_, exec_synthQualified hl hq hz ht, ?_, fun hb ha hpa => ?_, fun hb ha hpy => ?_⟩
  · split
    · rw [qualified_prefAct hpow (hspare.trans hon), hsyn]
    · rw [synOf_setSyn]
  · have hstays : prefAct (warmed y s) = warmed y s := by
      have hy : otherSyn (prefSyn (warmed y s)) = y := (eq_otherSyn (by rw [hpref, hpa]; exact fun h => ha h.symm)).symm
      rw [prefAct, prefSwitch_of_stays (.inr (.inl (by rw [hact, hpref, hpa])))]
      simp only [sparePower, hspare, hon, hy, hpow, if_true]
    rw [if_pos (by simp [hb, ha]), hstays, hsyn]
    exact ⟨hal, hact, rfl⟩
  · have hready : spareReady (warmed y s) y = true := by
      simp [spareReady, hsyn, hp, hz, hl, hal, driving, hact, ha]
    obtain ⟨hto, -, hflag⟩ := prefSwitch_of_ready (s := warmed y s) (by rw [hbyp, hb]) (by rw [hact, hpref, hpy]; exact ha)
      (by rw [hpref, hpy]; exact hready)
    rw [if_pos (by simp [hb, ha])]
    refine ⟨?_, ?_⟩
    · exact ((retains_sparePower _).field RootSt.active fun _ => rfl).trans (hto.trans (hpref.trans hpy))
    · exact flagged_of_sameBut ((same_sparePower (List.Subset.refl _)).mpr .rfl) (by decide) hflag

/-- Before 327,680 ticks of lock nothing is qualified (R53). -/
theorem synthQualified_early (h : elapsed s < (synOf s y).lockAt + 327680) : Completes (.synthQualified y) s (fun t => t = s) := by
  refine ⟨s, ?_, rfl⟩
  exact if_neg (by simp; omega)

end

/-! ### The return from bypass -/

section
variable {s : State} {y : Syn} {edge1 edge2 : Bool}

/-- The mesh back on synthesizer y's ticks, the other aligned with it where it is qualified and locked (R61, R501). -/
def returned (y : Syn) (spare : Bool) (s : State) : State :=
  let t : State := { s with root := { s.root with bypass := false, active := y, aligned := spare, recV := s.time.counter, stopped := false },
                            power := { s.power with meshUp := s.power.meshUp || s.power.pgood } }
  if spare then setSyn (otherSyn y) { synOf t (otherSyn y) with phaseResets := (synOf t (otherSyn y)).phaseResets + 1 } t else t

/-- The returning divider is reset from the bypass clock (R61). -/
def resetDivider (y : Syn) (s : State) : State := setSyn y { synOf s y with phaseResets := (synOf s y).phaseResets + 1 } s

/-- The other synthesizer is qualified and locked. -/
def otherWarm (y : Syn) (s : State) : Bool := (synOf s (otherSyn y)).qualified && (synOf s (otherSyn y)).locked

theorem exec_bypExit (hb : s.root.bypass = true) (hf : bypassForce s = false) (hm : s.root.missing = false) (hh : s.time.held = false)
    (hok : s.root.refOk = true) (hr : mayReturn s y = true) :
    exec (.bypExit y edge1 edge2) s = if edge1 && edge2
      then .next (raise .root 4 (prefAct (returned y (otherWarm y (resetDivider y s)) (resetDivider y s))))
      else .next (resetDivider y s) :=
  if_pos (by simp [hb, hf, hm, hh, hok, hr])

theorem returned_root (y : Syn) (spare : Bool) (s : State) : (returned y spare s).root.bypass = false ∧ (returned y spare s).root.active = y ∧
    (returned y spare s).root.aligned = spare ∧ (returned y spare s).root.recV = s.time.counter ∧
    (returned y spare s).power.meshUp = (s.power.meshUp || s.power.pgood) ∧ (returned y spare s).time = s.time ∧
    synOf (returned y spare s) y = synOf s y ∧ prefSyn (returned y spare s) = prefSyn s ∧
    (synOf (returned y spare s) (otherSyn y)).frozen = (synOf s (otherSyn y)).frozen := by
  cases spare <;> cases y <;> exact ⟨rfl, rfl, rfl, rfl, rfl, rfl, rfl, rfl, rfl⟩

theorem resetDivider_facts (y : Syn) (s : State) : (synOf (resetDivider y s) y).phaseResets = (synOf s y).phaseResets + 1 ∧
    synOf (resetDivider y s) (otherSyn y) = synOf s (otherSyn y) ∧ (resetDivider y s).root.bypass = s.root.bypass ∧
    (resetDivider y s).time = s.time ∧ (resetDivider y s).power = s.power ∧ prefSyn (resetDivider y s) = prefSyn s := by
  cases y <;> exact ⟨rfl, rfl, rfl, rfl, rfl, rfl⟩

/-- PREF moves nothing at a return: where it names the other synthesizer, that one is not warm (R54, R61). -/
theorem prefSwitch_returned {spare : Bool} (h : prefSyn s = y ∨ spare = false) (hz : (synOf s (otherSyn y)).frozen = false) :
    prefSwitch (returned y spare s) = returned y spare s := by
  obtain ⟨-, hact, hal, -, -, -, -, hpref, hfrozen⟩ := returned_root y spare s
  by_cases hy : prefSyn s = y
  · exact prefSwitch_of_stays (.inr (.inl (by rw [hact, hpref, hy])))
  · obtain rfl := h.resolve_left hy
    refine prefSwitch_of_stays (.inr (.inr ?_))
    rw [hpref, eq_otherSyn hy]
    simp [spareReady, hfrozen, hz, hal]

theorem otherCold_of_mayReturn (hr : mayReturn s y = true) : prefSyn s = y ∨ otherWarm y s = false := by
  simp only [mayReturn, Bool.and_eq_true, Bool.or_eq_true, Bool.not_eq_true', decide_eq_true_eq] at hr
  exact hr.2.symm

theorem bypExit_returns (hb : s.root.bypass = true) (hf : bypassForce s = false) (hm : s.root.missing = false) (hh : s.time.held = false)
    (hok : s.root.refOk = true) (hr : mayReturn s y = true) (hz : (synOf s (otherSyn y)).frozen = false) :
    Completes (.bypExit y edge1 edge2) s (fun t =>
      (synOf t y).phaseResets = (synOf s y).phaseResets + 1 ∧ t.time.counter = s.time.counter ∧
      (edge1 = true → edge2 = true → t.root.bypass = false ∧ t.root.active = y ∧ t.root.recV = s.time.counter ∧
        t.power.meshUp = (s.power.meshUp || s.power.pgood) ∧ Flagged t .root 4) ∧
      (edge1 = false ∨ edge2 = false → t.root.bypass = true)) := by
  obtain ⟨hphase, hother, hbyp, htime, hpower, hpref⟩ := resetDivider_facts y s
  have hexec := exec_bypExit (edge1 := edge1) (edge2 := edge2) hb hf hm hh hok hr
  cases hedges : edge1 && edge2
  · refine ⟨resetDivider y s, by rw [hexec, hedges]; rfl, hphase, by rw [htime], fun h1 h2 => by simp [h1, h2] at hedges, fun _ => ?_⟩
    rw [hbyp, hb]
  · let w := returned y (otherWarm y (resetDivider y s)) (resetDivider y s)
    obtain ⟨hback, hact, -, hrec, hmesh, htime', hsyn, -, -⟩ := returned_root y (otherWarm y (resetDivider y s)) (resetDivider y s)
    have hstays : prefAct w = sparePower w := by
      refine congrArg sparePower (prefSwitch_returned ?_ (by rw [hother, hz]))
      rw [hpref, otherWarm, hother]
      exact otherCold_of_mayReturn hr
    have hpow : Retains powerView w (sparePower w) := retains_sparePower w
    have hsame : SameBut ([.root] ++ evs .root [8]) w (sparePower w) := (same_sparePower (List.Subset.refl _)).mpr .rfl
    refine ⟨raise .root 4 (sparePower w), by rw [hexec, hedges, ← hstays]; rfl, ?_, ?_, fun _ _ => ⟨?_, ?_, ?_, ?_, ?_⟩, fun h => ?_⟩
    · rw [synOf_congr (s := sparePower w) (by simp), hpow.phaseResets, hsyn, hphase]
    · exact (congrArg TimeSt.counter (hsame .time (by decide))).trans (by rw [htime', htime])
    · exact (hpow.field RootSt.bypass fun _ => rfl).trans hback
    · exact (hpow.field RootSt.active fun _ => rfl).trans hact
    · exact (hpow.field RootSt.recV fun _ => rfl).trans (by rw [hrec, htime])
    · exact (congrArg PowerSt.meshUp (hsame .power (by decide))).trans (by rw [hmesh, hpower])
    · exact flagged_raise _ .root (by decide)
    · rcases h with h | h <;> simp [h] at hedges

end

/-- Settles O7: the outcomes of a loss of the driver, and the rules of acquisition, qualification and return. -/
theorem lockAndBypass : Obligations.LockAndBypass := by
  unfold Obligations.LockAndBypass
  refine ⟨fun s y ps => frozenOutputFail_fails, fun s y ps => frozenOutputFail_holds, fun s y err1 err2 slip both edges hl hz herr hn => ?_,
    fun s y err1 err2 slip both edges hboth hd hl hz hslip hn hlo hzo hm => ?_, fun s y => lockAcquired_locks,
    fun s y => synthQualified_warms, fun s y => synthQualified_early, fun s y edge1 edge2 => bypExit_returns⟩
  · obtain ⟨t, hexec, hun, hacq, hflag⟩ := lockLoss_reacquires (both := both) (edges := edges) hl hz herr
    refine ⟨t, hexec, hun, fun hp hon hok hnb hmeas => ?_, hflag, fun hboth hd hr => ?_, fun hboth hd hr hm ha => ?_, fun hboth hd hlo hzo hm => ?_⟩
    · rw [hacq hp hon, startAcquire_selects (mayAcquire_of hp hok hnb hmeas)]
      exact (acquiring_acquiringIn _).1
    · subst hboth
      exact (lockLoss_takesOver hl hz herr hd hr).of_exec hexec
    · subst hboth
      have hbyp := (lockLoss_bypasses hl hz herr hd hr hm ha).of_exec hexec
      exact ⟨hbyp.bypass, by rw [hbyp.target]; omega, hbyp.nextCounter hn, hbyp.flagged⟩
    · subst hboth
      obtain ⟨hbyp, -, huno, -, hflago⟩ := (lockLoss_both hl hz herr hd hlo hzo hm).of_exec hexec
      exact ⟨hbyp.bypass, hbyp.active, hbyp.nextCounter hn, huno, hbyp.flagged, hflago⟩
  · subst hboth
    obtain ⟨t, hexec, hbyp, hun, huno, hflag, hflago⟩ := lockLoss_both (err1 := err1) (err2 := err2) (edges := edges) hl hz (.inl hslip) hd hlo hzo hm
    exact ⟨t, hexec, hbyp.bypass, hbyp.nextCounter hn, hun, huno, hflag, hflago, hbyp.flagged⟩

end Sys2Proof.Machine
end

