-- ==== Sys2Proof/Proofs/RootRegisters.lean ====
section
/-!
PROOF. The writes of the root block's registers (O8): ROOT_CTRL, ROOT_DIV_APPLY, the root band tables, ROOT_MEAS, ROOT_AGE, and the
synchronisation input (R37, R44 to R50, R54, R55, R67, R69, R72 to R75, R442).
-/
namespace Sys2Proof.Machine
open Sys2Proof

/-- A command that writes a register performs its effect where the write meets every check. -/
theorem completes_write {c : Instr} {w : Wr} {a : Nat} {v : Word} {eff : State → State} {s : State} {P : State → Prop}
    (hc : exec c s = .next (regWrite w a v [] eff s)) (hperf : Performs w a s) (h : P (eff (answered s))) : Completes c s P :=
  ⟨_, hc.trans (congrArg _ (regWrite_performed hperf)), h⟩

/-! ### ROOT_CTRL -/

section
variable (v : Word) (s : State)

theorem nowGet_rootCtrl : nowGet (nowPut 0x2000 v s) 0x2000 = v &&& 7 := nowGet_put v s (by rfl)

/-- The fields of ROOT_CTRL once it is written (R67). -/
theorem rootCtrl_fields : prefSyn (nowPut 0x2000 v s) = synNum (fld v 0 1) ∧ spareEn (nowPut 0x2000 v s) = bitAt v 1 ∧
    bypassForce (nowPut 0x2000 v s) = bitAt v 2 := by
  have h7 : (v &&& 7).toNat = v.toNat &&& 7 := by simp
  refine ⟨?_, ?_, ?_⟩
  · rw [prefSyn, nowGet_rootCtrl, fld, fld, h7, Nat.and_two_pow_sub_one_eq_mod v.toNat 3]
    congr 1; omega
  · rw [spareEn, nowGet_rootCtrl, bitAt, bitAt, h7, Nat.testBit_and]
    simp [show Nat.testBit 7 1 = true from rfl]
  · rw [bypassForce, nowGet_rootCtrl, bitAt, bitAt, h7, Nat.testBit_and]
    simp [show Nat.testBit 7 2 = true from rfl]

/-- What follows PREF and SPARE_EN: PREF's synthesizer is powered (R55). -/
theorem retains_writeRootCtrl : Retains powerView (prefAct (nowPut 0x2000 v s)) (writeRootCtrl v s) := by
  refine retains_ite (.refl _) (Retains.trans ?_ (retains_enableSyn ..))
  exact retains_setSyn (powerView_setSyn rfl) id

theorem same_writeRootCtrl_prefAct : SameBut ([.root] ++ evs .root [8]) (prefAct (nowPut 0x2000 v s)) (writeRootCtrl v s) := by
  simp [writeRootCtrl, ↓same_ite, ↓same_enableSyn, ↓same_setSyn, SameBut.rfl, evs]

theorem same_writeRootCtrl_nowPut : SameBut ([.root] ++ evs .root [2, 8]) (nowPut 0x2000 v s) (writeRootCtrl v s) :=
  ((same_prefAct (List.Subset.refl _)).mpr .rfl).trans ((same_writeRootCtrl_prefAct v s).mono (by decide))

/-- ROOT_CTRL keeps what was written. -/
theorem nowGet_writeRootCtrl : nowGet (writeRootCtrl v s) 0x2000 = v &&& 7 := by
  have hsame := same_writeRootCtrl_nowPut v s
  have hx : (writeRootCtrl v s).root.xtalSel = (nowPut 0x2000 v s).root.xtalSel :=
    ((retains_prefAct _).trans (retains_writeRootCtrl v s).roles).field RootSt.xtalSel fun _ => rfl
  rw [nowGet_congr (hsame .nowRegs (by decide)) (hsame .build (by decide)) hx, nowGet_rootCtrl]

theorem bypass_writeRootCtrl : (writeRootCtrl v s).root.bypass = s.root.bypass := by
  have hacts : (prefAct (nowPut 0x2000 v s)).root.bypass = (nowPut 0x2000 v s).root.bypass := congrArg Prod.fst (edgeRoot_prefAct _)
  rw [(retains_writeRootCtrl v s).field RootSt.bypass fun _ => rfl, hacts]
  simp

theorem active_writeRootCtrl : (writeRootCtrl v s).root.active = (prefSwitch (nowPut 0x2000 v s)).root.active :=
  ((retains_sparePower _).trans (retains_writeRootCtrl v s)).field RootSt.active fun _ => rfl

theorem spareReady_nowPut (k : Nat) (y : Syn) : spareReady (nowPut k v s) y = spareReady s y :=
  spareReady_congr (synOf_congr (by simp) y) (by simp) (by simp) (by simp)

/-- PREF takes the mesh where its synthesizer is ready (R54). -/
theorem writeRootCtrl_switches (hb : s.root.bypass = false) (ha : s.root.active ≠ synNum (fld v 0 1))
    (hr : spareReady s (synNum (fld v 0 1)) = true) :
    (writeRootCtrl v s).root.active = synNum (fld v 0 1) ∧ Flagged (writeRootCtrl v s) .root 2 := by
  obtain ⟨hpref, -, -⟩ := rootCtrl_fields v s
  obtain ⟨hto, -, hflag⟩ := prefSwitch_of_ready (s := nowPut 0x2000 v s) (by simpa using hb) (by rw [hpref]; simpa using ha)
    (by rw [hpref, spareReady_nowPut]; exact hr)
  refine ⟨(active_writeRootCtrl v s).trans (hto.trans hpref), ?_⟩
  exact flagged_of_sameBut (((same_sparePower (List.Subset.refl _)).mpr .rfl).trans (same_writeRootCtrl_prefAct v s)) (by decide) hflag

theorem writeRootCtrl_stays (h : s.root.bypass = true ∨ s.root.active = synNum (fld v 0 1) ∨ spareReady s (synNum (fld v 0 1)) = false) :
    (writeRootCtrl v s).root.active = s.root.active := by
  obtain ⟨hpref, -, -⟩ := rootCtrl_fields v s
  rw [active_writeRootCtrl, prefSwitch_of_stays (by rw [hpref, spareReady_nowPut]; simpa using h)]
  simp

end

/-! ### Power -/

theorem powered_enableSyn (y z : Syn) (s : State) : (synOf (enableSyn y s) z).powered = (synOf s z).powered := by
  simp only [enableSyn]
  split
  · exact powered_startAcquire y z s
  · rfl

/-- SPARE_EN powers the synthesizer that PREF does not name, which else keeps its power only while it drives (R55). -/
theorem powered_sparePower (s : State) : (synOf (sparePower s) (otherSyn (prefSyn s))).powered =
    (spareEn s || (driving s (otherSyn (prefSyn s)) && (synOf s (otherSyn (prefSyn s))).powered)) := by
  unfold sparePower
  extract_lets o x t
  have hoff : (synOf t o).powered = false := by simp [t]
  cases hen : spareEn s
  · simp only [Bool.false_eq_true, if_false, Bool.false_or]
    split
    · next h => cases hp : x.powered <;> simp_all [x, o]
    · next h =>
      have hd : driving s (otherSyn (prefSyn s)) = false := by simp_all [o]
      rw [hd, Bool.false_and]
      cases ho : otherSyn (prefSyn s) <;> rw [show o = otherSyn (prefSyn s) from rfl, ho] at hoff <;> exact hoff
  · simp only [if_true, Bool.true_or]
    split
    · next h => exact h
    · rw [powered_enableSyn, synOf_setSyn]

/-- A switch to PREF's synthesizer leaves the other without the mesh (R54). -/
theorem driving_prefSwitch {s : State} (h : driving s (otherSyn (prefSyn s)) = false) :
    driving (prefSwitch s) (otherSyn (prefSyn s)) = false := by
  by_cases hc : (!s.root.bypass && s.root.active ≠ prefSyn s && spareReady s (prefSyn s)) = true
  · have hto : (prefSwitch s).root.active = prefSyn s := by
      simp only [prefSwitch, hc, if_true]
      exact (setSyn_roles ..).2.1
    simp [driving, hto, ne_otherSyn]
  · simpa only [prefSwitch, hc, Bool.false_eq_true, if_false] using h

theorem prefSyn_prefSwitch (s : State) : prefSyn (prefSwitch s) = prefSyn s ∧ spareEn (prefSwitch s) = spareEn s := by
  have hsame : SameBut ([.root] ++ evs .root [2]) s (prefSwitch s) := (same_prefSwitch (List.Subset.refl _)).mpr .rfl
  have hx : (prefSwitch s).root.xtalSel = s.root.xtalSel := by simp
  exact ⟨prefSyn_congr (hsame .nowRegs (by decide)) (hsame .build (by decide)) hx,
    spareEn_congr (hsame .nowRegs (by decide)) (hsame .build (by decide)) hx⟩

theorem prefSyn_prefAct (s : State) : prefSyn (prefAct s) = prefSyn s := by
  have hsame : SameBut ([.root] ++ evs .root [2, 8]) s (prefAct s) := (same_prefAct (List.Subset.refl _)).mpr .rfl
  exact prefSyn_congr (hsame .nowRegs (by decide)) (hsame .build (by decide)) ((retains_prefAct s).field RootSt.xtalSel fun _ => rfl)

section
variable (v : Word) (s : State)

/-- PREF's synthesizer is powered whatever SPARE_EN says (R55). -/
theorem powered_writeRootCtrl_pref : (synOf (writeRootCtrl v s) (synNum (fld v 0 1))).powered = true := by
  have hpref : prefSyn (prefAct (nowPut 0x2000 v s)) = synNum (fld v 0 1) := (prefSyn_prefAct _).trans (rootCtrl_fields v s).1
  simp only [writeRootCtrl, hpref]
  split
  · next h => exact h
  · rw [powered_enableSyn, synOf_setSyn]

theorem powered_writeRootCtrl_other : (synOf (writeRootCtrl v s) (otherSyn (synNum (fld v 0 1)))).powered =
    (bitAt v 1 || (driving (prefSwitch (nowPut 0x2000 v s)) (otherSyn (synNum (fld v 0 1))) &&
      (synOf (prefSwitch (nowPut 0x2000 v s)) (otherSyn (synNum (fld v 0 1)))).powered)) := by
  obtain ⟨hnow, hen, -⟩ := rootCtrl_fields v s
  obtain ⟨hswitch, hswen⟩ := prefSyn_prefSwitch (nowPut 0x2000 v s)
  have hpref : prefSyn (prefAct (nowPut 0x2000 v s)) = synNum (fld v 0 1) := (prefSyn_prefAct _).trans hnow
  have hkept : synOf (writeRootCtrl v s) (otherSyn (synNum (fld v 0 1))) =
      synOf (prefAct (nowPut 0x2000 v s)) (otherSyn (synNum (fld v 0 1))) := by
    simp only [writeRootCtrl, hpref]
    split
    · rfl
    · rw [synOf_enableSyn_of_ne (otherSyn_ne _), synOf_setSyn_other]
  have hspare := powered_sparePower (prefSwitch (nowPut 0x2000 v s))
  rw [hswitch, hnow, hswen, hen] at hspare
  rw [hkept, prefAct, hspare]

/-- Without SPARE_EN the other synthesizer is off, unless it drives the mesh (R55). -/
theorem unpowered_writeRootCtrl_other (he : bitAt v 1 = false) (hd : driving s (otherSyn (synNum (fld v 0 1))) = false) :
    (synOf (writeRootCtrl v s) (otherSyn (synNum (fld v 0 1)))).powered = false := by
  have hnow : prefSyn (nowPut 0x2000 v s) = synNum (fld v 0 1) := (rootCtrl_fields v s).1
  have hidle : driving (nowPut 0x2000 v s) (otherSyn (synNum (fld v 0 1))) = false := by
    rw [driving_congr (s := s) (by simp) (by simp), hd]
  have hafter := driving_prefSwitch (s := nowPut 0x2000 v s) (by rw [hnow]; exact hidle)
  rw [hnow] at hafter
  rw [powered_writeRootCtrl_other, he, hafter, Bool.false_and, Bool.false_or]

end

section
variable {w : Wr} {v : Word} {s : State} (hperf : Performs w 0x2000 s)
include hperf

theorem prefWrite_switches : Completes (.prefWrite w v) s (fun t =>
    nowGet t 0x2000 = v &&& 7 ∧
    (s.root.bypass = false → s.root.active ≠ synNum (fld v 0 1) → spareReady s (synNum (fld v 0 1)) = true →
      t.root.active = synNum (fld v 0 1) ∧ Flagged t .root 2) ∧
    (s.root.bypass = true ∨ s.root.active = synNum (fld v 0 1) ∨ spareReady s (synNum (fld v 0 1)) = false →
      t.root.active = s.root.active)) :=
  completes_write rfl hperf ⟨nowGet_writeRootCtrl v _, writeRootCtrl_switches v (answered s), writeRootCtrl_stays v (answered s)⟩

theorem spareEnWrite_powers : Completes (.spareEnWrite w v) s (fun t =>
    nowGet t 0x2000 = v &&& 7 ∧ (synOf t (synNum (fld v 0 1))).powered = true ∧
    (bitAt v 1 = true → (synOf t (otherSyn (synNum (fld v 0 1)))).powered = true) ∧
    (bitAt v 1 = false → driving s (otherSyn (synNum (fld v 0 1))) = false → (synOf t (otherSyn (synNum (fld v 0 1)))).powered = false)) :=
  completes_write rfl hperf ⟨nowGet_writeRootCtrl v _, powered_writeRootCtrl_pref v _,
    fun he => (powered_writeRootCtrl_other v _).trans (by rw [he, Bool.true_or]), unpowered_writeRootCtrl_other v (answered s)⟩

/-- BYPASS_FORCE acts at the next bypass edge only (R60). -/
theorem bypassForce_waits : Completes (.bypassForce w v) s (fun t =>
    nowGet t 0x2000 = v &&& 7 ∧ Machine.bypassForce t = bitAt v 2 ∧ t.root.bypass = s.root.bypass ∧ t.time = s.time) := by
  refine completes_write rfl hperf ⟨nowGet_writeRootCtrl v _, ?_, bypass_writeRootCtrl v _, ?_⟩
  · rw [Machine.bypassForce, nowGet_writeRootCtrl, ← nowGet_rootCtrl v (answered s)]
    exact (rootCtrl_fields v (answered s)).2.2
  · exact (same_writeRootCtrl_nowPut v (answered s) .time (by decide)).trans (by simp [answered])

end

/-! ### ROOT_AGE and the synchronisation input -/

theorem rootAgeWrite_redirects {w : Wr} {v : Word} {s : State} (hperf : Performs w 0x2034 s) :
    Completes (.rootAgeWrite w v) s (fun t =>
      nowGet t 0x2034 = v &&& 0xFFF ∧ t.root.ageCurrent = s.root.ageCurrent ∧ t.mus.ageSteps = 0) :=
  completes_write rfl hperf ⟨nowGet_put v (answered s) (by rfl), by simp [writeRootAge], rfl⟩

/-- CURRENT moves one step toward TARGET (R37). -/
theorem ageSlewStep_moves {s : State} (h : s.root.ageAt + 65536 ≤ s.time.slowEdges) :
    Completes .ageSlewStep s (fun t =>
      t.root.ageAt = s.time.slowEdges ∧
      (s.root.ageCurrent.slt (BitVec.ofNat 12 (fld (nowGet s 0x2034) 0 12)) = true → t.root.ageCurrent = s.root.ageCurrent + 1) ∧
      ((BitVec.ofNat 12 (fld (nowGet s 0x2034) 0 12)).slt s.root.ageCurrent = true → t.root.ageCurrent = s.root.ageCurrent - 1) ∧
      (s.root.ageCurrent = BitVec.ofNat 12 (fld (nowGet s 0x2034) 0 12) → t.root.ageCurrent = s.root.ageCurrent)) := by
  refine ⟨_, if_neg (by omega), rfl, fun hup => ?_, fun hdown => ?_, fun heq => ?_⟩ <;> dsimp only
  · rw [if_pos hup]; rfl
  · have hnot : ¬ s.root.ageCurrent.slt (BitVec.ofNat 12 (fld (nowGet s 0x2034) 0 12)) = true := by
      simp only [BitVec.slt, decide_eq_true_eq] at hdown ⊢
      omega
    rw [if_neg hnot, if_pos hdown, BitVec.sub_eq_add_neg]
    rfl
  · have hnot : ¬ s.root.ageCurrent.slt s.root.ageCurrent = true := by simp [BitVec.slt]
    rw [← heq, if_neg hnot, if_neg hnot]
    exact BitVec.add_zero _

theorem ageSlewStep_early {s : State} (h : s.time.slowEdges < s.root.ageAt + 65536) : Completes .ageSlewStep s (fun t => t = s) :=
  ⟨s, if_pos h, rfl⟩

theorem synOf_raise (b : Block) (k : Nat) (s : State) (y : Syn) : synOf (raise b k s) y = synOf s y := synOf_congr (by simp) y

/-- FORCE resets the divider of a synthesizer that does not drive, and of the driver before the first bell (R50). -/
def resetUnlessDriving (y : Syn) (s : State) : State := if driving s y && s.time.firstBell then s else resetDivider y s

theorem phaseResets_resetUnlessDriving (y : Syn) (s : State) : (synOf (resetUnlessDriving y s) y).phaseResets =
    (synOf s y).phaseResets + (if driving s y && s.time.firstBell then 0 else 1) := by
  simp only [resetUnlessDriving]
  split
  · rfl
  · rw [resetDivider, synOf_setSyn]

theorem synOf_resetUnlessDriving_of_ne {y z : Syn} {s : State} (h : z ≠ y) : synOf (resetUnlessDriving y s) z = synOf s z := by
  simp only [resetUnlessDriving]
  split
  · rfl
  · exact synOf_setSyn_of_ne _ h

theorem time_resetUnlessDriving (y : Syn) (s : State) : (resetUnlessDriving y s).time = s.time := by
  simp only [resetUnlessDriving]
  split
  · rfl
  · exact (resetDivider_facts y s).2.2.2.1

theorem retains_resetUnlessDriving (y : Syn) (s : State) : Retains crystalView s (resetUnlessDriving y s) := by
  refine retains_ite (.refl s) ?_
  exact retains_setSyn crystalView_setSyn id

/-- The edge counted and, with MEAS_EN, its phase recorded (R49, R74). -/
def syncCounted (phase : BitVec 16) (s : State) : State :=
  { s with root := { s.root with
    syncEdges := s.root.syncEdges + 1, syncPhase := if bitAt (nowGet s 0x202C) 0 then phase else s.root.syncPhase } }

theorem exec_syncInEdge (phase : BitVec 16) (s : State) : exec (.syncInEdge phase) s =
    if bitAt (nowGet s 0x202C) 1 then .next (raise .root 9 (resetUnlessDriving .s1 (resetUnlessDriving .s0 (syncCounted phase s))))
    else .next (syncCounted phase s) := rfl

theorem syncInEdge_counts (s : State) (phase : BitVec 16) : Completes (.syncInEdge phase) s (fun t =>
    t.root.syncEdges = s.root.syncEdges + 1 ∧ (bitAt (nowGet s 0x202C) 0 = true → t.root.syncPhase = phase) ∧
    (bitAt (nowGet s 0x202C) 0 = false → t.root.syncPhase = s.root.syncPhase) ∧
    (bitAt (nowGet s 0x202C) 1 = true → Flagged t .root 9 ∧
      (synOf t .s0).phaseResets = (synOf s .s0).phaseResets + (if driving s .s0 && s.time.firstBell then 0 else 1) ∧
      (synOf t .s1).phaseResets = (synOf s .s1).phaseResets + (if driving s .s1 && s.time.firstBell then 0 else 1))) := by
  have hphase (h : bitAt (nowGet s 0x202C) 0 = true) : (syncCounted phase s).root.syncPhase = phase := if_pos h
  have hkept (h : bitAt (nowGet s 0x202C) 0 = false) : (syncCounted phase s).root.syncPhase = s.root.syncPhase := if_neg (by simp [h])
  cases hc : bitAt (nowGet s 0x202C) 1
  · exact ⟨syncCounted phase s, by rw [exec_syncInEdge, hc]; rfl, rfl, hphase, hkept, nofun⟩
  · have h0 : Retains crystalView (syncCounted phase s) (resetUnlessDriving .s0 (syncCounted phase s)) := retains_resetUnlessDriving ..
    have h01 := h0.trans (retains_resetUnlessDriving .s1 _)
    have hdrive : driving (resetUnlessDriving .s0 (syncCounted phase s)) .s1 = driving (syncCounted phase s) .s1 :=
      driving_congr (h0.field RootSt.bypass fun _ => rfl) (h0.field RootSt.active fun _ => rfl) .s1
    refine ⟨raise .root 9 (resetUnlessDriving .s1 (resetUnlessDriving .s0 (syncCounted phase s))), by rw [exec_syncInEdge, hc]; rfl,
      h01.field RootSt.syncEdges fun _ => rfl, fun h => (h01.field RootSt.syncPhase fun _ => rfl).trans (hphase h),
      fun h => (h01.field RootSt.syncPhase fun _ => rfl).trans (hkept h), fun _ => ⟨flagged_raise _ .root (by decide), ?_, ?_⟩⟩
    · rw [synOf_raise, synOf_resetUnlessDriving_of_ne (by simp), phaseResets_resetUnlessDriving]
      rfl
    · rw [synOf_raise, phaseResets_resetUnlessDriving, hdrive, time_resetUnlessDriving,
        synOf_resetUnlessDriving_of_ne (by simp)]
      rfl

/-! ### ROOT_DIV_APPLY -/

/-- A synthesizer with the dividers given (R45). -/
def withDividers (x : Synth) (d : Nat × Nat × Nat) : Synth :=
  { x with refMode := BitVec.ofNat 2 d.1, n := BitVec.ofNat 8 d.2.1, dT := BitVec.ofNat 5 d.2.2 }

/-- The dividers of a synthesizer, as its shadow gives them. -/
def dividersIn (x : Synth) : Nat × Nat × Nat := (x.refMode.toNat, x.n.toNat, x.dT.toNat)

section
variable {s t : State} {y z : Syn}

/-- A shadow's fields fit the dividers. -/
theorem dividersIn_withDividers (x : Synth) (s : State) (y : Syn) : dividersIn (withDividers x (shadowOf s y)) = shadowOf s y := by
  have hfits (v : Word) (lo n : Nat) : (BitVec.ofNat n (fld v lo n)).toNat = fld v lo n := by
    simp [fld, BitVec.toNat_ofNat]
  simp only [dividersIn, withDividers, shadowOf, hfits]

theorem loadDividers_cases (y : Syn) (s : State) :
    loadDividers y s = setSyn y (withDividers (synOf s y) (shadowOf s y)) s ∨
    ∃ a, (loadDividers y s).root = { (startAcquire y (setSyn y (withDividers (synOf s y) (shadowOf s y)) s)).root with aligned := a } := by
  unfold loadDividers
  split
  next mode n dT hd =>
    rw [hd]
    dsimp only
    split
    · exact .inr ⟨_, rfl⟩
    · exact .inl rfl

theorem dividersIn_loadDividers (y : Syn) (s : State) : dividersIn (synOf (loadDividers y s) y) = shadowOf s y := by
  have hset : dividersIn (synOf (setSyn y (withDividers (synOf s y) (shadowOf s y)) s) y) = shadowOf s y := by
    rw [synOf_setSyn, dividersIn_withDividers]
  rcases loadDividers_cases y s with h | ⟨a, h⟩
  · rw [h, hset]
  · have hacq : dividersIn (synOf (startAcquire y (setSyn y (withDividers (synOf s y) (shadowOf s y)) s)) y) = shadowOf s y :=
      ((retains_startAcquire ..).roles.synth y dividersIn fun _ => rfl).trans hset
    rw [← hacq]
    cases y <;> simp only [synOf, h]

theorem synOf_loadDividers_of_ne (h : z ≠ y) : synOf (loadDividers y s) z = synOf s z := by
  rcases loadDividers_cases y s with hl | ⟨a, hl⟩
  · rw [hl, synOf_setSyn_of_ne _ h]
  · have hacq : synOf (startAcquire y (setSyn y (withDividers (synOf s y) (shadowOf s y)) s)) z = synOf s z := by
      rw [synOf_startAcquire_of_ne h, synOf_setSyn_of_ne _ h]
    rw [← hacq]
    cases z <;> simp only [synOf, hl]

theorem shadowOf_congr (hn : t.nowR = s.nowR) (hb : t.build = s.build) (hx : t.root.xtalSel = s.root.xtalSel) (y : Syn) :
    shadowOf t y = shadowOf s y := by
  simp only [shadowOf, nowGet_congr hn hb hx]

theorem shadowOf_loadDividers (y z : Syn) (s : State) : shadowOf (loadDividers y s) z = shadowOf s z := by
  have hsame : SameBut ([.root] ++ evs .root [8]) s (loadDividers y s) := (same_loadDividers y (List.Subset.refl _)).mpr .rfl
  exact shadowOf_congr (hsame .nowRegs (by decide)) (hsame .build (by decide)) (by simp) z

end

/-- Each named synthesizer's dividers (R45). -/
def loadNamed (v : Word) (s : State) : State :=
  let s := if bitAt v 8 then loadDividers .s0 s else s
  if bitAt v 9 then loadDividers .s1 s else s

theorem dividersIn_loadNamed (v : Word) (s : State) :
    (bitAt v 8 = true → dividersIn (synOf (loadNamed v s) .s0) = shadowOf s .s0) ∧
    (bitAt v 9 = true → dividersIn (synOf (loadNamed v s) .s1) = shadowOf s .s1) := by
  have hkeep (u : State) : synOf (if bitAt v 9 then loadDividers .s1 u else u) .s0 = synOf u .s0 := by
    split
    · exact synOf_loadDividers_of_ne (by simp)
    · rfl
  refine ⟨fun h8 => ?_, fun h9 => ?_⟩
  · rw [loadNamed, hkeep, if_pos h8, dividersIn_loadDividers]
  · simp only [loadNamed, if_pos h9]
    rw [dividersIn_loadDividers]
    split
    · exact shadowOf_loadDividers ..
    · rfl

/-- An apply of which a named synthesizer must be rejected (R46). -/
def applyRejected (v : Word) (s : State) : Bool := (bitAt v 8 && applyRejects s .s0) || (bitAt v 9 && applyRejects s .s1)

theorem applyDividers_rejected {v : Word} {s : State} (h : applyRejected v s = true) : applyDividers v s = raise .root 7 s := if_pos h

theorem applyDividers_accepted {v : Word} {s : State} (h : applyRejected v s = false) :
    applyDividers v s = { loadNamed v s with root := { (loadNamed v s).root with divTag := BitVec.ofNat 8 (fld v 0 8) } } :=
  if_neg (by have hr := ne_true_of_eq_false h; exact hr)

section
variable (v : Word) (s : State)

theorem shadowOf_nowPut (y : Syn) : shadowOf (nowPut 0x200C v s) y = shadowOf s y := by
  simp only [shadowOf]
  cases y <;> simp only [if_true, reduceCtorEq, if_false] <;> rw [nowGet_put_other v s (by decide)]

theorem applyRejects_nowPut (y : Syn) : applyRejects (nowPut 0x200C v s) y = applyRejects s y := by
  have hroot : (nowPut 0x200C v s).root = s.root := by simp
  simp only [applyRejects, shadowOf_nowPut, driving, synOf_congr hroot, hroot]

end

section
variable {w : Wr} {v : Word} {s : State} (hperf : Performs w 0x200C s) (htag : fld v 0 8 ≠ s.root.divTag.toNat)
include hperf htag

theorem divApply_loads (hsw : s.root.switchedAt ≠ some (elapsed s)) (h0 : bitAt v 8 = true → applyRejects s .s0 = false)
    (h1 : bitAt v 9 = true → applyRejects s .s1 = false) :
    Completes (.divApply w v) s (fun t =>
      t.root.divTag = BitVec.ofNat 8 (fld v 0 8) ∧
      (bitAt v 8 = true → dividersIn (synOf t .s0) = shadowOf s .s0) ∧ (bitAt v 9 = true → dividersIn (synOf t .s1) = shadowOf s .s1)) := by
  have hnot : applyRejected v (nowPut 0x200C v (answered s)) = false := by
    simp only [applyRejected, applyRejects_nowPut]
    have h0' : (bitAt v 8 && applyRejects s .s0) = false := by cases h : bitAt v 8 <;> simp_all
    have h1' : (bitAt v 9 && applyRejects s .s1) = false := by cases h : bitAt v 9 <;> simp_all
    exact (Bool.or_eq_false_iff.mpr ⟨h0', h1'⟩ :)
  obtain ⟨hload0, hload1⟩ := dividersIn_loadNamed v (nowPut 0x200C v (answered s))
  rw [shadowOf_nowPut] at hload0 hload1
  have hroot : (nowPut 0x200C v (answered s)).root = s.root := by simp
  have helapsed : elapsed (nowPut 0x200C v (answered s)) = elapsed s := by simp [elapsed, answered]
  refine completes_write rfl hperf ?_
  simp only [writeDivApply, hroot, htag, helapsed, hsw, if_false, applyDividers_accepted hnot]
  exact ⟨trivial, hload0, hload1⟩

/-- In the tick of a switchover the apply waits for the next tick edge (R48). -/
theorem divApply_waits (hsw : s.root.switchedAt = some (elapsed s)) :
    Completes (.divApply w v) s (fun t =>
      t.root = s.root ∧ t.out.captures = s.out.captures ++ [⟨⟨.host, 15, none⟩, 0x200C, v, []⟩] ∧ t.events = s.events) := by
  have hroot : (nowPut 0x200C v (answered s)).root = s.root := by simp
  have helapsed : elapsed (nowPut 0x200C v (answered s)) = elapsed s := by simp [elapsed, answered]
  refine completes_write rfl hperf ?_
  simp only [writeDivApply, hroot, htag, helapsed, hsw, if_false, if_true, deferApply]
  simp

/-- A named synthesizer that must be rejected rejects the whole apply (R46). -/
theorem divApply_rejects (hsw : s.root.switchedAt ≠ some (elapsed s))
    (hrej : (bitAt v 8 = true ∧ applyRejects s .s0 = true) ∨ (bitAt v 9 = true ∧ applyRejects s .s1 = true)) :
    Completes (.divApply w v) s (fun t => t.root = { s.root with applied := t.root.applied } ∧ Flagged t .root 7) := by
  have hnot : applyRejected v (nowPut 0x200C v (answered s)) = true := by
    simp only [applyRejected, applyRejects_nowPut, Bool.or_eq_true, Bool.and_eq_true]
    exact hrej
  have hroot : (nowPut 0x200C v (answered s)).root = s.root := by simp
  have helapsed : elapsed (nowPut 0x200C v (answered s)) = elapsed s := by simp [elapsed, answered]
  refine completes_write rfl hperf ?_
  simp only [writeDivApply, hroot, htag, helapsed, hsw, if_false, applyDividers_rejected hnot]
  refine ⟨?_, flagged_raise _ .root (by decide)⟩
  simp

end

/-! ### The root band tables -/

/-- A word written to a memory reads back (R9). -/
theorem memWord_memWrite (m : Mem) (a : Nat) (e : Word) : memWord (memWrite m a (leBytes 4 e.toNat)) a = e := by
  have hread : memRead (memWrite m a (leBytes 4 e.toNat)) a 4 = leBytes 4 e.toNat := by
    simp [memRead, leBytes, List.range_succ, memGet_write]
  have hlt := e.isLt
  apply BitVec.eq_of_toNat_eq
  rw [memWord, hread]
  simp only [wordOfBytes, leNat, leBytes, List.range_succ, List.range_zero, List.nil_append, List.cons_append, List.map_cons, List.map_nil,
    List.foldr_cons, List.foldr_nil, BitVec.toNat_ofNat]
  omega

/-- A synthesizer with an entry of its table written: it no longer waits without a band (R42, R72). -/
def withEntry (x : Synth) (b : Nat) (e : Word) : Synth := { x with table := tabSet x.table b e 0, noBand := false }

/-- The synthesizer and the entry that a port's ROOT_BTAB_SEL names (R72). -/
def btabSyn (p : Port) (s : State) : Syn := synNum (fld (nowGet s (portKey p 0x201C)) 4 1)

def btabEntry (p : Port) (s : State) : Nat := fld (nowGet s (portKey p 0x201C)) 0 4

/-- The state with the entry written, before the retention RAM has it. -/
def entryWritten (p : Port) (v : Word) (s : State) : State :=
  let t := setSyn (btabSyn p s) (withEntry (synOf s (btabSyn p s)) (btabEntry p s) (v &&& rootEntryMask)) s
  if (synOf s (btabSyn p s)).noBand then enableSyn (btabSyn p s) t else t

theorem writeRootBtab_eq (p : Port) (v : Word) (s : State) : writeRootBtab p v s = { entryWritten p v s with
    ret := memWrite (entryWritten p v s).ret (0x40 + 64 * synIx (btabSyn p s) + 4 * btabEntry p s)
      (leBytes 4 (v &&& rootEntryMask).toNat) } := rfl

theorem table_entryWritten (p : Port) (v : Word) (s : State) : (synOf (entryWritten p v s) (btabSyn p s)).table =
    tabSet (synOf s (btabSyn p s)).table (btabEntry p s) (v &&& rootEntryMask) 0 := by
  simp only [entryWritten]
  split
  · rw [(retains_enableSyn ..).roles.synth _ Synth.table fun _ => rfl, synOf_setSyn, withEntry]
  · rw [synOf_setSyn, withEntry]

/-- A synthesizer waiting without a band acquires with the new table (R42, R72). -/
theorem entryWritten_acquires {p : Port} {v : Word} {s : State} (hn : (synOf s (btabSyn p s)).noBand = true)
    (hp : (synOf s (btabSyn p s)).powered = true) (hl : (synOf s (btabSyn p s)).locked = false)
    (ha : (synOf s (btabSyn p s)).acquiring = false) (hf : (synOf s (btabSyn p s)).failed = false) (hr : s.root.refOk = true)
    (hm : measuring s (btabSyn p s) = false) : (synOf (entryWritten p v s) (btabSyn p s)).acquiring =
      (selectRootBand (synOf (entryWritten p v s) (btabSyn p s)).table (250 * (synOf s (btabSyn p s)).dT.toNat)).isSome := by
  let t := setSyn (btabSyn p s) (withEntry (synOf s (btabSyn p s)) (btabEntry p s) (v &&& rootEntryMask)) s
  have hview : Retains crystalView s t := retains_setSyn crystalView_setSyn id
  have hsyn : synOf t (btabSyn p s) = withEntry (synOf s (btabSyn p s)) (btabEntry p s) (v &&& rootEntryMask) := synOf_setSyn ..
  have hselects := enableSyn_selects (s := t) (y := btabSyn p s)
  rw [hsyn] at hselects
  have hmeas : measuring t (btabSyn p s) = false := (measuring_congr (hview.field RootSt.meas fun _ => rfl) _).trans hm
  rw [table_entryWritten, entryWritten, if_pos hn]
  exact (hselects hp hl ha hf rfl hmeas ((hview.field RootSt.refOk fun _ => rfl).trans hr)).1

theorem rootBtabWrite_enters {w : Wr} {v : Word} {s : State} (hperf : Performs w 0x2020 s) :
    Completes (.rootBtabWrite w v) s (fun t =>
      tabGet (synOf t (btabSyn w.port s)).table (btabEntry w.port s) 0 = v &&& rootEntryMask ∧
      memWord t.ret (0x40 + 64 * synIx (btabSyn w.port s) + 4 * btabEntry w.port s) = v &&& rootEntryMask ∧
      ((synOf s (btabSyn w.port s)).noBand = true → (synOf s (btabSyn w.port s)).powered = true →
        (synOf s (btabSyn w.port s)).locked = false → (synOf s (btabSyn w.port s)).acquiring = false →
        (synOf s (btabSyn w.port s)).failed = false → s.root.refOk = true → measuring s (btabSyn w.port s) = false →
        (synOf t (btabSyn w.port s)).acquiring =
          (selectRootBand (synOf t (btabSyn w.port s)).table (250 * (synOf s (btabSyn w.port s)).dT.toNat)).isSome)) := by
  have hret (r : Mem) (u : State) (y : Syn) : synOf { u with ret := r } y = synOf u y := by cases y <;> rfl
  have hsyn (y : Syn) : synOf (writeRootBtab w.port v (answered s)) y = synOf (entryWritten w.port v (answered s)) y := by
    rw [writeRootBtab_eq, hret]
  have hy : btabSyn w.port (answered s) = btabSyn w.port s := congrArg (fun n => synNum (fld n 4 1)) (nowGet_answered s _)
  have hb : btabEntry w.port (answered s) = btabEntry w.port s := congrArg (fun n => fld n 0 4) (nowGet_answered s _)
  have htable := table_entryWritten w.port v (answered s)
  have hacq := entryWritten_acquires (p := w.port) (v := v) (s := answered s)
  have hmeas : measuring (answered s) (btabSyn w.port s) = measuring s (btabSyn w.port s) := measuring_congr (by simp) _
  have hanswered : synOf (answered s) (btabSyn w.port s) = synOf s (btabSyn w.port s) := synOf_congr (by simp) _
  rw [hy] at hacq
  rw [hanswered, hmeas] at hacq
  refine completes_write rfl hperf ⟨?_, ?_, ?_⟩
  · rw [hsyn, ← hy, htable, hb]
    exact tabGet_set_same ..
  · rw [writeRootBtab_eq, hy, hb]
    exact memWord_memWrite ..
  · rw [hsyn]
    exact hacq

/-! ### ROOT_MEAS -/

/-- A measurement of the driving synthesizer is refused (R44). -/
theorem performMeas_refuses {v : Word} {s : State} (ht : fld v 8 8 ≠ s.root.measTag.toNat) (hd : driving s (synNum (fld v 4 1)) = true) :
    performMeas v s = { nowPut 0x2024 v s with root := { (nowPut 0x2024 v s).root with
      measStatus := 1, measTag := BitVec.ofNat 8 (fld v 8 8) } } := by
  have hroot : (nowPut 0x2024 v s).root = s.root := by simp
  have hdrive : driving (nowPut 0x2024 v s) (synNum (fld v 4 1)) = true := by rw [driving_congr (s := s) (by rw [hroot]) (by rw [hroot]), hd]
  refine (if_neg (by rw [hroot]; exact ht)).trans ?_
  exact if_pos hdrive

/-- A measurement that starts: its synthesizer leaves lock, and what was measured before stands (R44, R73). -/
structure Measures (v : Word) (s t : State) : Prop where
  status : t.root.measStatus = 3
  meas : t.root.meas = some ⟨synNum (fld v 4 1), BitVec.ofNat 4 (fld v 0 4), bitAt v 5, BitVec.ofNat 8 (fld v 8 8), elapsed s⟩
  locked : (synOf t (synNum (fld v 4 1))).locked = false
  count : t.root.measCount = s.root.measCount
  tag : t.root.measTag = s.root.measTag
  held : t.root.heldMeas = s.root.heldMeas

/-- Synthesizer y leaves lock and its measurement starts (R44). -/
def measStarted (y : Syn) (v : Word) (s : State) : State :=
  let t := setSyn y { synOf s y with locked := false, qualified := false, acquiring := false, pumpCal := false, readyAtFreeze := false } s
  { t with root := { t.root with
    meas := some ⟨y, BitVec.ofNat 4 (fld v 0 4), bitAt v 5, BitVec.ofNat 8 (fld v 8 8), elapsed t⟩, measStatus := 3,
    aligned := if t.root.active = y then t.root.aligned else false } }

theorem measStarted_facts (y : Syn) (v : Word) (s : State) : (measStarted y v s).root.measStatus = 3 ∧
    (measStarted y v s).root.meas = some ⟨y, BitVec.ofNat 4 (fld v 0 4), bitAt v 5, BitVec.ofNat 8 (fld v 8 8), elapsed s⟩ ∧
    (synOf (measStarted y v s) y).locked = false ∧ (measStarted y v s).root.measCount = s.root.measCount ∧
    (measStarted y v s).root.measTag = s.root.measTag ∧ (measStarted y v s).root.heldMeas = s.root.heldMeas := by
  cases y <;> exact ⟨rfl, rfl, rfl, rfl, rfl, rfl⟩

theorem performMeas_starts {v : Word} {s : State} (ht : fld v 8 8 ≠ s.root.measTag.toNat) (hd : driving s (synNum (fld v 4 1)) = false) :
    Measures v s (performMeas v s) := by
  have hroot : (nowPut 0x2024 v s).root = s.root := by simp
  have hdrive : driving (nowPut 0x2024 v s) (synNum (fld v 4 1)) = false := by rw [driving_congr (s := s) (by rw [hroot]) (by rw [hroot]), hd]
  have helapsed : elapsed (nowPut 0x2024 v s) = elapsed s := by simp [elapsed]
  have heq : performMeas v s = measStarted (synNum (fld v 4 1)) v (nowPut 0x2024 v s) :=
    (if_neg (by rw [hroot]; exact ht)).trans (if_neg (by rw [hdrive]; simp))
  obtain ⟨hstatus, hmeas, hlocked, hcount, htag, hheld⟩ := measStarted_facts (synNum (fld v 4 1)) v (nowPut 0x2024 v s)
  rw [heq]
  exact ⟨hstatus, by rw [hmeas, helapsed], hlocked, by rw [hcount, hroot], by rw [htag, hroot], by rw [hheld, hroot]⟩

section
variable {w : Wr} {v : Word} {s : State} (hperf : Performs w 0x2024 s)
include hperf

/-- With no measurement running a write of ROOT_MEAS is performed. -/
theorem completes_rootMeas {P : State → Prop} (hm : s.root.meas = none) (h : P (performMeas v (answered s))) :
    Completes (.rootMeas w v) s P := by
  refine completes_write rfl hperf ?_
  rw [writeRootMeas, if_neg (by simp [hm])]
  exact h

theorem rootMeas_refuses (hm : s.root.meas = none) (ht : fld v 8 8 ≠ s.root.measTag.toNat) (hd : driving s (synNum (fld v 4 1)) = true) :
    Completes (.rootMeas w v) s (fun t =>
      t.root.measStatus = 1 ∧ t.root.measTag = BitVec.ofNat 8 (fld v 8 8) ∧ t.root.meas = none) := by
  refine completes_rootMeas hperf hm ?_
  rw [performMeas_refuses (s := answered s) ht hd]
  exact ⟨rfl, rfl, by simp [hm]⟩

theorem rootMeas_starts (hm : s.root.meas = none) (ht : fld v 8 8 ≠ s.root.measTag.toNat) (hd : driving s (synNum (fld v 4 1)) = false) :
    Completes (.rootMeas w v) s (fun t => Measures v (answered s) t) :=
  completes_rootMeas hperf hm (performMeas_starts (s := answered s) ht hd)

/-- While a measurement runs the write is withheld, and changes nothing else (R442). -/
theorem rootMeas_withheld (hm : s.root.meas ≠ none) :
    Completes (.rootMeas w v) s (fun t => t.root = { s.root with heldMeas := s.root.heldMeas ++ [(w.port, v)] } ∧ t.nowR = s.nowR) := by
  refine completes_write rfl hperf ?_
  rw [writeRootMeas, if_pos (by simpa [Option.isSome_iff_ne_none] using hm)]
  exact ⟨rfl, rfl⟩

end

section
variable {s : State} {m : RootMeas} {count : BitVec 16}

/-- The result of the measurement appears (R73). -/
def measured (m : RootMeas) (count : BitVec 16) (s : State) : State :=
  { s with root := { s.root with meas := none, heldMeas := [], measCount := count, measTag := m.tag, measStatus := 0 } }

theorem exec_rootMeasDone (hm : s.root.meas = some m) (ht : m.start + measTicks ≤ elapsed s) :
    exec (.rootMeasDone count) s = .next (releaseMeas s.root.heldMeas (startAcquire m.syn (measured m count s))) := by
  change execRootMeasDone count s = _
  unfold execRootMeasDone
  rw [hm]
  exact if_neg (by omega)

/-- With nothing withheld the synthesizer acquires lock again (R43). -/
theorem rootMeasDone_reacquires (hm : s.root.meas = some m) (hheld : s.root.heldMeas = []) (ht : m.start + measTicks ≤ elapsed s) :
    Completes (.rootMeasDone count) s (fun t =>
      t.root.meas = none ∧ t.root.measCount = count ∧ t.root.measTag = m.tag ∧ t.root.measStatus = 0 ∧
      (synOf t m.syn).locked = false ∧
      ((synOf s m.syn).powered = true → s.root.refOk = true → (synOf s m.syn).noBand = false →
        (synOf t m.syn).acquiring = (bandFor (synOf s m.syn)).isSome)) := by
  have hview : Retains powerView (measured m count s) (startAcquire m.syn (measured m count s)) := retains_startAcquire ..
  have hsyn : synOf (measured m count s) m.syn = synOf s m.syn := by cases m.syn <;> rfl
  refine ⟨startAcquire m.syn (measured m count s), ?_, hview.field RootSt.meas fun _ => rfl, hview.field RootSt.measCount fun _ => rfl,
    hview.field RootSt.measTag fun _ => rfl, hview.field RootSt.measStatus fun _ => rfl, locked_startAcquire .., fun hp hr hn => ?_⟩
  · rw [exec_rootMeasDone hm ht, hheld]; rfl
  · have hmay : mayAcquire (measured m count s) m.syn = true := mayAcquire_of (by rw [hsyn, hp]) hr (by rw [hsyn, hn]) rfl
    rw [startAcquire_selects hmay, hsyn]
    exact (acquiring_acquiringIn _).1

/-- A withheld write follows and starts the next measurement (R442). -/
theorem rootMeasDone_releases {p : Port} {v : Word} (hm : s.root.meas = some m) (ht : m.start + measTicks ≤ elapsed s)
    (hheld : s.root.heldMeas = [(p, v)]) (htag : fld v 8 8 ≠ m.tag.toNat) (hd : driving s .s0 = true) (h4 : fld v 4 1 = 1) :
    Completes (.rootMeasDone count) s (fun t =>
      t.root.measCount = count ∧ t.root.measTag = m.tag ∧ t.root.measStatus = 3 ∧
      t.root.meas = some ⟨.s1, BitVec.ofNat 4 (fld v 0 4), bitAt v 5, BitVec.ofNat 8 (fld v 8 8), elapsed s⟩ ∧ t.root.heldMeas = []) := by
  let u := startAcquire m.syn (measured m count s)
  have hview : Retains powerView (measured m count s) u := retains_startAcquire ..
  have hmeas : u.root.meas = none := hview.field RootSt.meas fun _ => rfl
  have hsyn : synNum (fld v 4 1) = .s1 := by rw [h4]; rfl
  have hidle : driving u (synNum (fld v 4 1)) = false := by
    have hact : s.root.active = .s0 := by
      simp only [driving, Bool.and_eq_true, decide_eq_true_eq] at hd
      exact hd.2
    rw [hsyn, driving_congr (s := s) (hview.field RootSt.bypass fun _ => rfl) (hview.field RootSt.active fun _ => rfl), driving, hact]
    simp
  have hutag : u.root.measTag = m.tag := hview.field RootSt.measTag fun _ => rfl
  have htime : u.time = s.time := ((same_startAcquire m.syn (List.Subset.refl _)).mpr SameBut.rfl) .time (by decide)
  have hstart := performMeas_starts (s := u) (by rw [hutag]; exact htag) hidle
  refine ⟨performMeas v u, ?_, hstart.count.trans (hview.field RootSt.measCount fun _ => rfl), hstart.tag.trans hutag, hstart.status, ?_,
    hstart.held.trans (hview.field RootSt.heldMeas fun _ => rfl)⟩
  · rw [exec_rootMeasDone hm ht, hheld, releaseMeas, if_neg (by rw [hmeas]; simp)]
    rfl
  · rw [hstart.meas, hsyn, elapsed, htime]
    rfl

end

/-- Settles O8: each root register write, from the rules of what it writes. -/
theorem rootRegisters : Obligations.RootRegisters := by
  unfold Obligations.RootRegisters
  refine ⟨fun s w v => prefWrite_switches, fun s w v => spareEnWrite_powers, fun s w v => bypassForce_waits, fun s w v => divApply_loads,
    fun s w v => divApply_waits, fun s w v => divApply_rejects, fun s w v => rootBtabWrite_enters, fun s w v => rootMeas_refuses,
    fun s w v hperf hm ht hd => ?_, fun s w v => rootMeas_withheld, fun s count m => rootMeasDone_reacquires,
    fun s count m p v hm ht hheld htag hd _ h4 => rootMeasDone_releases hm ht hheld htag hd h4, fun s w v => rootAgeWrite_redirects,
    fun s => ageSlewStep_moves, fun s => ageSlewStep_early, fun s phase => syncInEdge_counts s phase⟩
  obtain ⟨t, hexec, hstart⟩ := rootMeas_starts hperf hm ht hd
  exact ⟨t, hexec, hstart.status, hstart.meas, hstart.locked⟩

end Sys2Proof.Machine
end

