-- ==== Sys2Proof/Proofs/UnitFrames.lean ====
section
/-!
PROOF. A command about one unit leaves the records of its fellows alone (O49).
-/
namespace Sys2Proof.Machine
open Sys2Proof

/-- Every unit's record but r's stays as it is. -/
structure FellowsKept {α : Type} (rec : State → Nat → α) (r : Nat) (s t : State) : Prop where
  kept : ∀ k, k ≠ r → rec t k = rec s k

section
variable {α : Type} {rec : State → Nat → α} {r : Nat} {s t u : State}

theorem FellowsKept.rfl : FellowsKept rec r s s := ⟨fun _ _ => Eq.refl _⟩

theorem FellowsKept.trans (h : FellowsKept rec r s t) (g : FellowsKept rec r t u) : FellowsKept rec r s u :=
  ⟨fun k hk => (g.kept k hk).trans (h.kept k hk)⟩

/-- A step that leaves the fellows alone changes nothing of what is left of them. -/
theorem FellowsKept.step (h : FellowsKept rec r t u) : FellowsKept rec r s u ↔ FellowsKept rec r s t :=
  ⟨fun g => ⟨fun k hk => (h.kept k hk).symm.trans (g.kept k hk)⟩, fun g => g.trans h⟩

theorem fellows_ite {c : Prop} [Decidable c] :
    FellowsKept rec r s (if c then t else u) ↔ if c then FellowsKept rec r s t else FellowsKept rec r s u := by
  split <;> exact Iff.rfl

end

/-! ### Regions -/

section
variable {r : Nat} {s t : State}

theorem regions_of (h : t.regions = s.regions) : FellowsKept regionOf r s t := ⟨fun k _ => by simp only [regionOf, h]⟩

theorem regions_setRegion (x : Region) : FellowsKept regionOf r s (setRegion r x t) ↔ FellowsKept regionOf r s t :=
  FellowsKept.step ⟨fun k hk => by simp [hk]⟩

theorem regions_raiseAbout (b : Block) (k a : Nat) : FellowsKept regionOf r s (raiseAbout b k a t) ↔ FellowsKept regionOf r s t :=
  FellowsKept.step (regions_of (by simp))

theorem regions_zones (z : BallastSt) : FellowsKept regionOf r s { t with zones := z } ↔ FellowsKept regionOf r s t :=
  FellowsKept.step (regions_of rfl)

theorem regions_fold (z : FoldSt) : FellowsKept regionOf r s { t with fold := z } ↔ FellowsKept regionOf r s t :=
  FellowsKept.step (regions_of rfl)

theorem regions_fcst (z : FcstSt) : FellowsKept regionOf r s { t with fcst := z } ↔ FellowsKept regionOf r s t :=
  FellowsKept.step (regions_of rfl)

theorem regionsKept_sampleRegion (r : Nat) (m : Word) (at16 : Nat) (s : State) : FellowsKept regionOf r s (sampleRegion r m at16 s) := by
  simp only [sampleRegion, ↓fellows_ite, ↓regions_raiseAbout, ↓regions_zones, ↓regions_setRegion, FellowsKept.rfl, ite_self]

theorem regionsKept_countSkew (r now : Nat) (atBell : Bool) (s : State) : FellowsKept regionOf r s (countSkew r now atBell s) := by
  simp only [countSkew, ↓regions_setRegion, ↓regions_fcst, FellowsKept.rfl]

/-- An issued edge counts at its crossings, its flock and its copy, and in its own region's record alone (R169). -/
theorem regionsKept_issueEdge (r : Nat) (dcoAt : Int) (at16 : Nat) (act : BitVec 4) (s : State) :
    FellowsKept regionOf r s (issueEdge r dcoAt at16 act s) := by
  have hbase : SameBut [.xing, .flocks, .gens] s (countCopy r (endFailHold r at16 (mapXings (xingEdge s r at16) s))) := by
    simp only [↓same_countCopy, ↓same_endFailHold, ↓same_mapXings, SameBut.rfl, parts_sub, List.mem_cons, true_or, or_true, and_self]
  simp only [issueEdge, ↓regions_fcst, ↓regions_setRegion]
  exact regions_of (hbase .regions (by decide))

theorem lands_own_region {c : Instr} {r : Nat} (s : State) (h : ownRegion c = some r) : Lands (FellowsKept regionOf r s) (exec c s) := by
  cases c with
  | pull q =>
    obtain rfl : q = r := Option.some.inj h
    change Lands _ (execPull q s)
    simp only [execPull, lands_ite, lands_next, lands_fault, ↓regions_fold, ↓regions_setRegion, FellowsKept.rfl, ite_self]
  | windsockStretch q sample =>
    obtain rfl : q = r := Option.some.inj h
    change Lands _ (execWindsockStretch q sample s)
    simp only [execWindsockStretch, lands_ite, lands_next, lands_fault, ↓fellows_ite, regionsKept_sampleRegion, FellowsKept.rfl, ite_self]
  | windsockHold q m =>
    obtain rfl : q = r := Option.some.inj h
    change Lands _ (execWindsockHold q m s)
    simp only [execWindsockHold, lands_ite, lands_next, lands_fault, ↓fellows_ite, regionsKept_sampleRegion, FellowsKept.rfl, ite_self]
  | holdRelease q m =>
    obtain rfl : q = r := Option.some.inj h
    change Lands _ (execHoldRelease q m s)
    simp only [execHoldRelease, lands_ite, lands_next, lands_fault, ↓fellows_ite, regionsKept_sampleRegion, FellowsKept.rfl, ite_self]
  | adviseOnset q m =>
    obtain rfl : q = r := Option.some.inj h
    change Lands _ (execAdviseOnset q m s)
    simp only [execAdviseOnset, lands_ite, lands_next, lands_fault, ↓fellows_ite, regionsKept_sampleRegion, FellowsKept.rfl, ite_self]
  | skewCount q =>
    obtain rfl : q = r := Option.some.inj h
    change Lands _ (execSkewCount q s)
    simp only [execSkewCount, lands_ite, lands_next, lands_fault, ↓fellows_ite, regionsKept_countSkew, FellowsKept.rfl, ite_self]
  | regionHoldStart q =>
    obtain rfl : q = r := Option.some.inj h
    change Lands _ (execRegionHoldStart q s)
    simp only [execRegionHoldStart, lands_ite, lands_next, lands_fault, ↓regions_setRegion, FellowsKept.rfl, ite_self]
  | issuedEdge q dcoAt at16 act =>
    obtain rfl : q = r := Option.some.inj h
    change Lands _ (execIssuedEdge q dcoAt at16 act s)
    simp only [execIssuedEdge, lands_ite, lands_next, lands_fault, ↓fellows_ite, regionsKept_issueEdge, FellowsKept.rfl, ite_self]
  | _ => exact nomatch h

end

/-! ### Crossings -/

section
variable {x : Nat} {s t : State}

theorem xings_of (h : t.xing.tab = s.xing.tab) : FellowsKept xingOf x s t := ⟨fun k _ => by simp only [xingOf, h]⟩

theorem xings_setXing (v : Xing) : FellowsKept xingOf x s (setXing x v t) ↔ FellowsKept xingOf x s t :=
  FellowsKept.step ⟨fun k hk => by simp [hk]⟩

theorem xings_raiseAbout (b : Block) (k a : Nat) : FellowsKept xingOf x s (raiseAbout b k a t) ↔ FellowsKept xingOf x s t :=
  FellowsKept.step (xings_of (by simp))

theorem xings_countStop (v : Xing) : FellowsKept xingOf x s (countStop x v t) ↔ FellowsKept xingOf x s t := by
  have hfold (z : FoldSt) (u : State) : FellowsKept xingOf x s { u with fold := z } ↔ FellowsKept xingOf x s u := FellowsKept.step (xings_of rfl)
  simp only [countStop, hfold, xings_setXing]

theorem xings_auditFails (n : Nat) (unpaired : Bool) (off : Int) :
    FellowsKept xingOf x s (auditFails x n unpaired off t) ↔ FellowsKept xingOf x s t := by
  have hfirst (u : State) : FellowsKept xingOf x s { u with xing := { u.xing with
      auditHit := true, auditUnpaired := unpaired, auditOffset := BitVec.ofNat 8 (intField 8 off), auditXing := BitVec.ofNat 15 x } } ↔
      FellowsKept xingOf x s u := FellowsKept.step (xings_of rfl)
  simp only [auditFails, xings_raiseAbout, ↓fellows_ite, hfirst, xings_setXing, ite_self]

theorem lands_own_xing {c : Instr} {x : Nat} (s : State) (h : ownXing c = some x) : Lands (FellowsKept xingOf x s) (exec c s) := by
  cases c with
  | tetherStop y =>
    obtain rfl : y = x := Option.some.inj h
    change Lands _ (execTetherStop y s)
    simp only [execTetherStop, lands_ite, lands_next, lands_fault, ↓fellows_ite, xings_countStop, FellowsKept.rfl, ite_self]
  | availInterlock y =>
    obtain rfl : y = x := Option.some.inj h
    change Lands _ (execAvailInterlock y s)
    simp only [execAvailInterlock, lands_ite, lands_next, lands_fault, ↓fellows_ite, xings_countStop, FellowsKept.rfl, ite_self]
  | roomStop y =>
    obtain rfl : y = x := Option.some.inj h
    change Lands _ (execRoomStop y s)
    simp only [execRoomStop, lands_ite, lands_next, lands_fault, ↓fellows_ite, xings_raiseAbout, xings_countStop, FellowsKept.rfl, ite_self]
  | tetherStopRelease y =>
    obtain rfl : y = x := Option.some.inj h
    change Lands _ (execTetherStopRelease y s)
    simp only [execTetherStopRelease, lands_ite, lands_next, lands_fault, xings_setXing, FellowsKept.rfl, ite_self]
  | auditMismatch y mark expect =>
    obtain rfl : y = x := Option.some.inj h
    change Lands _ (execAuditMismatch y mark expect s)
    unfold execAuditMismatch
    repeat' split
    all_goals simp only [lands_ite, lands_next, lands_fault, xings_setXing, xings_auditFails, FellowsKept.rfl, ite_self]
  | _ => exact nomatch h

end

/-! ### Flocks -/

section
variable {f : Nat} {s t : State}

theorem flocks_of (h : t.flocks = s.flocks) : FellowsKept flockOf f s t := ⟨fun k _ => by simp only [flockOf, h]⟩

theorem flocks_setFlock (x : Flock) : FellowsKept flockOf f s (setFlock f x t) ↔ FellowsKept flockOf f s t :=
  FellowsKept.step ⟨fun k hk => by simp [hk]⟩

theorem flocks_raiseAbout (b : Block) (k a : Nat) : FellowsKept flockOf f s (raiseAbout b k a t) ↔ FellowsKept flockOf f s t :=
  FellowsKept.step (flocks_of (by simp))

theorem flocks_setGen (g : Nat) (x : Gen) : FellowsKept flockOf f s (setGen g x t) ↔ FellowsKept flockOf f s t :=
  FellowsKept.step (flocks_of (by simp))

theorem flocks_markFailed (g : Nat) : FellowsKept flockOf f s (markFailed g t) ↔ FellowsKept flockOf f s t := flocks_setGen ..

theorem flocks_genAnswer (status : BitVec 2) : FellowsKept flockOf f s (genAnswer f status t) ↔ FellowsKept flockOf f s t :=
  flocks_setFlock _

theorem flocks_updateSvc : FellowsKept flockOf f s (updateSvc f t) ↔ FellowsKept flockOf f s t := by
  simp only [updateSvc, flocks_setFlock, ↓fellows_ite, flocks_raiseAbout, ite_self]

theorem flocks_evalCover (win : Nat → Window) : FellowsKept flockOf f s (evalCover win f t) ↔ FellowsKept flockOf f s t := by
  have hrows (h : Nat → State → State) (hh : ∀ g u, (h g u).flocks = u.flocks) (l : List Nat) :
      FellowsKept flockOf f s (forAll l h t) ↔ FellowsKept flockOf f s t :=
    FellowsKept.step (flocks_of (forAll_view (v := State.flocks) hh l t))
  simp only [evalCover, ↓fellows_ite, flocks_raiseAbout, flocks_setFlock, ite_self]
  exact hrows _ (fun g u => by simp) _

theorem flocks_spareChanged : FellowsKept flockOf f s (spareChanged f t) ↔ FellowsKept flockOf f s t := by
  rw [spareChanged, flocks_updateSvc, flocks_evalCover]

theorem flocks_doRetest (code : Nat) : FellowsKept flockOf f s (doRetest f code t) ↔ FellowsKept flockOf f s t := by
  unfold doRetest
  split <;> simp only [↓fellows_ite, flocks_genAnswer, flocks_setFlock, ite_self]

theorem flocks_doRetire (code : Nat) : FellowsKept flockOf f s (doRetire f code t) ↔ FellowsKept flockOf f s t := by
  unfold doRetire
  split <;> simp only [↓fellows_ite, flocks_genAnswer, flocks_markFailed, flocks_spareChanged, ite_self]

/-- FLOCK_GEN_CTRL's commands but REINSTATE, which may move a region back, write their own flock's record alone (R285, R293). -/
theorem flocks_writeGenCtrl {v : Word} (hop : fld v 8 2 ≠ 2) : FellowsKept flockOf f s (writeGenCtrl f v t) ↔ FellowsKept flockOf f s t := by
  have hput : FellowsKept flockOf f s (nowPut (flockAddr f 0x2C) v t) ↔ FellowsKept flockOf f s t :=
    FellowsKept.step (flocks_of (by simp))
  simp only [writeGenCtrl, ↓fellows_ite]
  split
  · exact hput
  · split
    · rw [flocks_updateSvc, flocks_genAnswer, flocks_setFlock, flocks_setFlock, hput]
    · rw [flocks_doRetest, flocks_setFlock, hput]
    · next h => exact absurd h hop
    · rw [flocks_doRetire, flocks_setFlock, hput]

/-- A write to a flock's register leaves what its effect leaves. -/
theorem lands_flockWrite {w : Wr} {off : Nat} {v : Word} {eff : State → State}
    (h : ∀ t, FellowsKept flockOf f s (eff t) ↔ FellowsKept flockOf f s t) :
    Lands (FellowsKept flockOf f s) (.next (regWrite w (flockAddr f off) v [] (whereFlock f eff) s)) := by
  have hs : snapSet (flockAddr f off) = none := snapSet_far (by simp only [flockAddr]; omega)
  refine lands_next.mpr ?_
  rcases regWrite_records_or_effect (List.Subset.refl writeParts) (.inl hs) with hrec | heff
  · exact flocks_of (hrec .flocks (by decide))
  · rw [heff, whereFlock, fellows_ite, h]
    have hans : FellowsKept flockOf f s (answered s) := flocks_of rfl
    exact (ite_self _).mpr hans

theorem lands_own_flock {c : Instr} {f : Nat} (s : State) (h : ownFlock c = some f) : Lands (FellowsKept flockOf f s) (exec c s) := by
  cases c with
  | broadcastFrame g p fr =>
    obtain rfl : g = f := Option.some.inj h
    change Lands _ (execBroadcastFrame g p fr s)
    simp only [execBroadcastFrame, lands_ite, lands_next, lands_fault, flocks_setFlock, FellowsKept.rfl, ite_self]
  | deltaTrack g p late =>
    obtain rfl : g = f := Option.some.inj h
    change Lands _ (execDeltaTrack g p late s)
    simp only [execDeltaTrack, lands_ite, lands_next, lands_fault, flocks_setFlock, FellowsKept.rfl, ite_self]
  | drvParity g =>
    obtain rfl : g = f := Option.some.inj h
    change Lands _ (execDrvParity g s)
    simp only [execDrvParity, lands_ite, lands_next, lands_fault, flocks_updateSvc, flocks_raiseAbout, flocks_setFlock, FellowsKept.rfl, ite_self]
  | clearParity w g gen tag =>
    obtain rfl : g = f := Option.some.inj h
    exact lands_flockWrite fun t => flocks_writeGenCtrl (by rw [genWord_op]; decide)
  | retest w g gen tag =>
    obtain rfl : g = f := Option.some.inj h
    exact lands_flockWrite fun t => flocks_writeGenCtrl (by rw [genWord_op]; decide)
  | retire w g gen tag =>
    obtain rfl : g = f := Option.some.inj h
    exact lands_flockWrite fun t => flocks_writeGenCtrl (by rw [genWord_op]; decide)
  | retestDone g counts run =>
    obtain rfl : g = f := Option.some.inj h
    have hdata (m : Mem) (u : State) : FellowsKept flockOf g s { u with data := m } ↔ FellowsKept flockOf g s u := FellowsKept.step (flocks_of rfl)
    change Lands _ (execRetestDone g counts run s)
    unfold execRetestDone
    repeat' split
    all_goals simp only [lands_ite, lands_next, lands_fault, flocks_spareChanged, flocks_raiseAbout, flocks_setFlock, ↓fellows_ite, flocks_setGen,
      hdata, FellowsKept.rfl, ite_self]
  | spareLost g j code =>
    obtain rfl : g = f := Option.some.inj h
    change Lands _ (execSpareLost g j code s)
    simp only [execSpareLost, lands_ite, lands_next, lands_fault, flocks_spareChanged, flocks_raiseAbout, flocks_setFlock, flocks_markFailed,
      FellowsKept.rfl, ite_self]
  | spareLocked g j =>
    obtain rfl : g = f := Option.some.inj h
    change Lands _ (execSpareLocked g j s)
    simp only [execSpareLocked, lands_ite, lands_next, lands_fault, ↓fellows_ite, flocks_spareChanged, flocks_setGen, FellowsKept.rfl, ite_self]
  | spareCalStart g j =>
    obtain rfl : g = f := Option.some.inj h
    change Lands _ (execSpareCalStart g j s)
    simp only [execSpareCalStart, lands_ite, lands_next, lands_fault, ↓fellows_ite, flocks_spareChanged, flocks_setGen, FellowsKept.rfl, ite_self]
  | _ => exact nomatch h

end

/-! ### Forced holds -/

section
variable {r : Nat} {s t : State}

theorem regions_crook (z : CrookSt) : FellowsKept regionOf r s { t with crook := z } ↔ FellowsKept regionOf r s t :=
  FellowsKept.step (regions_of rfl)

theorem regions_crkAnswer (tag : BitVec 8) (rej : Nat) : FellowsKept regionOf r s (crkAnswer tag rej t) ↔ FellowsKept regionOf r s t :=
  regions_crook _

theorem regions_crkRegion (on : Bool) (tag : BitVec 8) : FellowsKept regionOf r s (crkRegion on tag r t) ↔ FellowsKept regionOf r s t := by
  simp only [crkRegion, ↓fellows_ite, regions_crkAnswer, setForced, regions_setRegion, ite_self]

/-- A command that names a region to force or release writes that region's record alone (R298). -/
theorem regions_writeCrkCmd {w : Wr} {op : Nat} (hop : op = 1 ∨ op = 2) (region : BitVec 13) (tag : BitVec 8) :
    FellowsKept regionOf region.toNat s (writeCrkCmd w (crkWord op region.toNat 0 tag.toNat) t) ↔ FellowsKept regionOf region.toNat s t := by
  have hput : FellowsKept regionOf region.toNat s (nowPut 0xE004 (crkWord op region.toNat 0 tag.toNat) t) ↔ FellowsKept regionOf region.toNat s t :=
    FellowsKept.step (regions_of (by simp))
  rcases hop with rfl | rfl
  · simp only [writeCrkCmd, crkWord_op, crkWord_target, ↓fellows_ite, regions_crkAnswer, regions_crook, regions_crkRegion, hput, ite_self,
      Nat.reduceMod]
  · simp only [writeCrkCmd, crkWord_op, crkWord_target, ↓fellows_ite, regions_crkAnswer, regions_crook, regions_crkRegion, hput, ite_self,
      Nat.reduceMod]

theorem lands_crkRegion {w : Wr} {op : Nat} (hop : op = 1 ∨ op = 2) (region : BitVec 13) (tag : BitVec 8) :
    Lands (FellowsKept regionOf region.toNat s) (.next (regWrite w 0xE004 (crkWord op region.toNat 0 tag.toNat) []
      (writeCrkCmd w (crkWord op region.toNat 0 tag.toNat)) s)) := by
  refine lands_next.mpr ?_
  rcases regWrite_records_or_effect (List.Subset.refl writeParts) (.inl (by decide : snapSet 0xE004 = none)) with hrec | heff
  · exact regions_of (hrec .regions (by decide))
  · rw [heff, regions_writeCrkCmd hop region tag]
    exact regions_of rfl

end

/-! ### Mailboxes -/

/-- Every one of the three mailboxes but m is as it was. -/
def BoxesKept (m : Nat) (s t : State) : Prop := ∀ k, k < 3 → k ≠ m → mbox t k = mbox s k

section
variable {m : Nat} {s t u : State}

theorem boxesKept_of (h : t.mbx = s.mbx) : BoxesKept m s t := fun k _ _ => by simp only [mbox, h]

theorem BoxesKept.trans (h : BoxesKept m s t) (g : BoxesKept m t u) : BoxesKept m s u := fun k h3 hk => (g k h3 hk).trans (h k h3 hk)

theorem boxesKept_ite {c : Prop} [Decidable c] (ht : BoxesKept m s t) (hu : BoxesKept m s u) : BoxesKept m s (if c then t else u) := by
  split
  · exact ht
  · exact hu

theorem boxesKept_setMbox (hm : m < 3) (x : Mailbox) (s : State) : BoxesKept m s (setMbox m x s) := by
  intro k h3 hk
  have hcases : (m = 0 ∨ m = 1 ∨ m = 2) ∧ (k = 0 ∨ k = 1 ∨ k = 2) := by omega
  obtain ⟨rfl | rfl | rfl, rfl | rfl | rfl⟩ := hcases <;> simp [mbox, setMbox] at hk ⊢

theorem boxesKept_mbxPost (hm : m < 3) (s : State) : BoxesKept m s (mbxPost m s) := by
  have hpost := boxesKept_setMbox hm { mbox s m with slot := .posted } s
  exact boxesKept_ite (boxesKept_ite (hpost.trans (boxesKept_of rfl)) hpost) (boxesKept_of (by simp))

theorem boxesKept_raise (b : Block) (k : Nat) (h : BoxesKept m s t) : BoxesKept m s (raise b k t) := h.trans (boxesKept_of (by simp))

theorem boxesKept_mbxUnpost (hm : m < 3) (s : State) : BoxesKept m s (mbxUnpost m s) :=
  boxesKept_ite (boxesKept_raise _ _ (boxesKept_setMbox hm _ s)) (boxesKept_of rfl)

theorem boxesKept_writeMbxCtrl (hm : m < 3) (v : Word) (s : State) : BoxesKept m s (writeMbxCtrl m v s) := by
  have hpost : BoxesKept m s (if bitAt v 0 then mbxPost m s else s) := boxesKept_ite (boxesKept_mbxPost hm s) (boxesKept_of rfl)
  exact boxesKept_ite (hpost.trans (boxesKept_mbxUnpost hm _)) hpost

/-- A write of a mailbox's control register reaches that mailbox alone (R417). -/
theorem lands_mbxCtrl {w : Wr} {b : BitVec 2} {v : Word} :
    Lands (BoxesKept b.toNat s)
      (if isMbox b then .next (regWrite w (mbxAddr b.toNat 0) v [] (mbxWrite w b.toNat (writeMbxCtrl b.toNat v)) s) else .fault .noSuchUnit) := by
  have hs : snapSet (mbxAddr b.toNat 0) = none := snapSet_far (by simp only [mbxAddr]; omega)
  rw [lands_ite]
  split
  · next hb =>
    have hm : b.toNat < 3 := by simpa [isMbox] using hb
    refine lands_next.mpr ?_
    rcases regWrite_records_or_effect (List.Subset.refl writeParts) (.inl hs) with hrec | heff
    · exact boxesKept_of (hrec .mbx (by decide))
    · rw [heff]
      have hans : BoxesKept b.toNat s (answered s) := boxesKept_of rfl
      exact hans.trans (boxesKept_ite (boxesKept_of rfl) (boxesKept_ite (boxesKept_of (by simp)) (boxesKept_writeMbxCtrl hm v _)))
  · exact lands_fault.mpr trivial

end

/-! ### Generator rows and synthesizers -/

/-- A beat into a row touches that row's record alone (R154). -/
theorem gensKept_bandBeat (b : Beat) (s : State) : FellowsKept genOf ((b.addr.toNat - 0x800000) / 128) s (bandBeat b s) := by
  have hof (t : State) (h : t.gens = s.gens) : FellowsKept genOf ((b.addr.toNat - 0x800000) / 128) s t := ⟨fun k _ => by simp only [genOf, h]⟩
  simp only [bandBeat, ↓fellows_ite]
  split
  · exact ⟨fun k hk => by simp [genOf, answer, setGen, tabGet_set_away, hk]⟩
  · exact hof _ rfl

theorem lands_bandRow (b : Beat) (s : State) (hw : winOf (aligned b).addr.toNat = .band) :
    Lands (FellowsKept genOf (((aligned b).addr.toNat - 0x800000) / 128) s) (exec (.bandRowWrite b) s) := by
  refine lands_next.mpr ?_
  simp only [dpBeat, hw, ↓fellows_ite]
  split
  · exact ⟨fun k _ => rfl⟩
  · exact gensKept_bandBeat (aligned b) s

theorem lands_lockAcquired_other (y : Syn) (s : State) :
    Lands (fun t => synOf t (otherSyn y) = synOf s (otherSyn y)) (exec (.lockAcquired y) s) := by
  change Lands _ (execLockAcquired y s)
  simp only [execLockAcquired, lands_ite, lands_next, synOf_setSyn_other, ite_self]

/-- Settles O49: each command's operations write one unit's record, the crossing's, flock's or region's it is about. -/
theorem unitFrames : Obligations.UnitFrames := by
  unfold Obligations.UnitFrames
  refine ⟨fun c r k s t hc hexec hk => (lands_own_region s hc t hexec).kept k hk, fun w region tag k s t hk hexec => ?_,
    fun c x k s t hc hexec hk => (lands_own_xing s hc t hexec).kept k hk, fun c f k s t hc hexec hk => (lands_own_flock s hc t hexec).kept k hk,
    fun w m k s t h3 hk hexec => ?_, fun b k s t hexec hw hk => (lands_bandRow b s hw t hexec).kept k hk,
    fun y s t hexec => lands_lockAcquired_other y s t hexec⟩
  · rcases hexec with h | h
    · exact (lands_crkRegion (.inl rfl) region tag t h).kept k hk
    · exact (lands_crkRegion (.inr rfl) region tag t h).kept k hk
  · rcases hexec with h | h
    · exact lands_mbxCtrl t h k h3 hk
    · exact lands_mbxCtrl t h k h3 hk

end Sys2Proof.Machine
end

