-- ==== Sys2Proof/Proofs/MemoryFrames.lean ====
section
/-!
PROOF. Which bytes of the data space and of the retention RAM a command may change (O50). Every lemma follows one
address a: each write is shown to lie elsewhere.
-/
namespace Sys2Proof.Machine
open Sys2Proof

/-! ### A memory at one address -/

section
variable {m : Mem} {a x n : Nat} {bs : List (BitVec 8)}

theorem memGet_memWrite_of_outside (h : a < x ∨ x + bs.length ≤ a) : memGet (memWrite m x bs) a = memGet m a := by
  rw [memGet_write, if_neg (by omega)]

theorem memGet_memStrobe_of_unstrobed (hl : bs.length = 32) (h : ∀ k, k < 32 → a = x + k → n.testBit k = false) :
    memGet (memStrobe m x n bs) a = memGet m a := by
  rw [memGet_strobe, if_neg]
  rintro ⟨hx, hlen, hbit⟩
  exact Bool.false_ne_true ((h (a - x) (by omega) (by omega)).symm.trans hbit)

theorem memGet_restoreBytes {fs : List FreshByte} (h : ∀ e ∈ fs, e.addr ≠ a) : memGet (restoreBytes fs m) a = memGet m a := by
  induction fs generalizing m with
  | nil => rfl
  | cons e fs ih =>
    have htail := ih (m := memSet m e.addr e.was) fun d hd => h d (List.mem_cons_of_mem _ hd)
    exact htail.trans ((memGet_set ..).trans (if_neg fun he => h e List.mem_cons_self he.symm))

end

theorem length_leBytes (n v : Nat) : (leBytes n v).length = n := by simp [leBytes]

theorem length_words {α : Type} (l : List α) (f : α → Nat) : (l.flatMap fun e => leBytes 4 (f e)).length = 4 * l.length := by
  simp [List.length_flatMap, length_leBytes, Nat.mul_comm]

theorem bitsWhere_succ (n : Nat) (p : Nat → Bool) : bitsWhere (n + 1) p = bitsWhere n p + if p n then 2 ^ n else 0 := by
  simp [bitsWhere, List.range_succ]

theorem bitsWhere_lt (n : Nat) (p : Nat → Bool) : bitsWhere n p < 2 ^ n := by
  induction n with
  | zero => simp [bitsWhere]
  | succ n ih =>
    rw [bitsWhere_succ, Nat.pow_succ]
    split <;> omega

theorem testBit_bitsWhere (n : Nat) (p : Nat → Bool) (k : Nat) : (bitsWhere n p).testBit k = (decide (k < n) && p k) := by
  induction n with
  | zero => simp [bitsWhere]
  | succ n ih =>
    have htop := Nat.testBit_two_pow_mul_add (b2n (p n)) (bitsWhere_lt n p) k
    have hsum : bitsWhere (n + 1) p = 2 ^ n * b2n (p n) + bitsWhere n p := by
      rw [bitsWhere_succ]
      cases p n <;> simp [b2n, Nat.add_comm]
    rw [hsum, htop]
    rcases Nat.lt_trichotomy k n with h | h | h
    · rw [if_pos h, ih]
      simp [h, Nat.lt_succ_of_lt h]
    · subst h
      cases h : p k <;> simp [b2n]
    · rw [if_neg (by omega), decide_eq_false (by omega), Bool.false_and]
      obtain ⟨j, hj⟩ : ∃ j, k - n = j + 1 := ⟨k - n - 1, by omega⟩
      rw [hj]
      cases p n <;> simp [b2n, Nat.testBit_succ]

/-- A pass over a list keeps what each of its steps keeps. -/
theorem forAll_keeps {α : Type} {v : State → α} {f : Nat → State → State} {l : List Nat}
    (h : ∀ k ∈ l, ∀ t, v (f k t) = v t) (s : State) : v (forAll l f s) = v s := by
  induction l generalizing s with
  | nil => rfl
  | cons k l ih => exact (ih (fun j hj => h j (List.mem_cons_of_mem _ hj)) (f k s)).trans (h k List.mem_cons_self s)

section
variable {a : Nat} {c : Prop} [Decidable c] {s t u : State}

theorem keepsData_ite (ht : memGet t.data a = memGet s.data a) (hu : memGet u.data a = memGet s.data a) :
    memGet (if c then t else u).data a = memGet s.data a := ite_view (v := fun t => memGet t.data a) ht hu

theorem keepsRet_ite (ht : memGet t.ret a = memGet s.ret a) (hu : memGet u.ret a = memGet s.ret a) :
    memGet (if c then t else u).ret a = memGet s.ret a := ite_view (v := fun t => memGet t.ret a) ht hu

end

/-! ### Write beats -/

section
variable {b : Beat} {a : Nat} {s : State}

theorem memGet_storeBeat (h : ∀ k, k < 32 → a = b.addr.toNat + k → b.strb.toNat.testBit k = false) :
    memGet (storeBeat b s).data a = memGet s.data a :=
  memGet_memStrobe_of_unstrobed (length_leBytes ..) h

theorem data_answer (r : Resp) (s : State) : (answer r s).data = s.data := rfl

theorem data_raise (e : Block) (k : Nat) (s : State) : (raise e k s).data = s.data := by simp

theorem data_bankCounted (i : BitVec 1) (x : Bank) (s : State) : (waitCheck i (setFbank i x s)).data = s.data :=
  ((same_waitCheck i (List.Subset.refl _)).mpr .rfl : SameBut _ (setFbank i x s) _) .data (by decide) |>.trans
    (((same_setFbank i x (List.Subset.refl _)).mpr .rfl : SameBut _ s _) .data (by decide))

theorem data_swBankCounted (i : BitVec 1) (x : Bank) (s : State) : (swWaitCheck i (setSwBank i x s)).data = s.data :=
  ((same_swWaitCheck i (List.Subset.refl _)).mpr .rfl : SameBut _ (setSwBank i x s) _) .data (by decide) |>.trans
    (((same_setSwBank i x (List.Subset.refl _)).mpr .rfl : SameBut _ s _) .data (by decide))

theorem ite_either {α : Type} {c : Prop} [Decidable c] {x y u v : α} (hx : x = u ∨ x = v) (hy : y = u ∨ y = v) :
    (if c then x else y) = u ∨ (if c then x else y) = v := by
  split
  · exact hx
  · exact hy

/-- A beat at the forecast banks is stored or touches no byte (R203). -/
theorem data_fcstBeat (b : Beat) (s : State) : (fcstBeat b s).data = s.data ∨ (fcstBeat b s).data = (storeBeat b s).data := by
  simp only [fcstBeat, apply_ite State.data, data_answer, data_raise, data_bankCounted, ite_self]
  exact ite_either (.inl rfl) (ite_either (.inr rfl) (.inl rfl))

/-- A beat at the firmware banks is stored or touches no byte (R412). -/
theorem data_fwBeat (b : Beat) (s : State) : (fwBeat b s).data = s.data ∨ (fwBeat b s).data = (storeBeat b s).data := by
  simp only [fwBeat, apply_ite State.data, data_answer, data_raise, data_swBankCounted, ite_self]
  exact ite_either (.inr rfl) (.inl rfl)

/-- A beat into a row stores the strobed lanes that no measurement holds (R154, R156). -/
theorem memGet_bandBeat (h : ∀ k, k < 32 → a = b.addr.toNat + k → b.strb.toNat.testBit k = false) :
    memGet (bandBeat b s).data a = memGet s.data a := by
  simp only [bandBeat]
  split
  · refine memGet_memStrobe_of_unstrobed (by simp [beatBytes, length_leBytes]) fun k hk ha => ?_
    rw [bandStrb, testBit_bitsWhere, h k hk ha, Bool.false_and, Bool.and_false]
  · rfl

/-- A beat into the pin table stores the strobed bytes of the crossings there are (R234). -/
theorem memGet_pinBeat (h : ∀ k, k < 32 → a = b.addr.toNat + k → b.strb.toNat.testBit k = false) :
    memGet (pinBeat b s).data a = memGet s.data a := by
  simp only [pinBeat]
  split
  · simp [answer]
  · refine memGet_memStrobe_of_unstrobed (length_leBytes ..) fun k hk ha => ?_
    rw [testBit_bitsWhere, h k hk ha, Bool.false_and, Bool.and_false]

theorem memGet_dpBeat (h : ∀ k, k < 32 → a = (aligned b).addr.toNat + k → b.strb.toNat.testBit k = false) :
    memGet (dpBeat b s).data a = memGet s.data a := by
  have hstored {t : State} (ht : t.data = s.data ∨ t.data = (storeBeat (aligned b) s).data) : memGet t.data a = memGet s.data a := by
    rcases ht with ht | ht
    · rw [ht]
    · rw [ht, memGet_storeBeat h]
  simp only [dpBeat]
  split
  · rfl
  · split
    · exact hstored (data_fcstBeat ..)
    · exact memGet_bandBeat h
    · exact memGet_pinBeat h
    · rfl
    · exact memGet_memStrobe_of_unstrobed (length_leBytes ..) h
    · exact hstored (data_fwBeat ..)
    · rfl

/-- Each command of a write port is the beat itself. -/
theorem exec_portBeat {c : Instr} (hc : portBeat c = some b) : exec c s = .next (dpBeat b s) := by
  cases c with
  | fcstEntryWrite d => cases hc; rfl
  | bandRowWrite d => cases hc; rfl
  | pinWrite d => cases hc; rfl
  | manifestWrite d => cases hc; rfl
  | calImageWrite d => cases hc; rfl
  | fwDataWrite d => cases hc; rfl
  | _ => exact nomatch hc

end

/-! ### Measured rows -/

section
variable {a g : Nat} {s : State}

/-- A measurement records entries of its own row's 24 (R154). -/
theorem memGet_recordBands (ends : Bool) (counts : List (Nat × List (Nat × Nat))) (h : a < rowAddr g ∨ rowAddr g + 96 ≤ a) :
    memGet (recordBands ends counts g s).data a = memGet s.data a := by
  have hbands (d : Nat) : (if ends then 24 else min (bandsOver s (genOf s g)) d) ≤ 24 := by
    split
    · exact Nat.le_refl _
    · exact Nat.le_trans (Nat.min_le_left ..) (Nat.min_le_left ..)
  have hlast := hbands (((counts.find? (fun e => e.1 = g)).map Prod.snd).getD []).length
  refine keepsData_ite rfl (memGet_memWrite_of_outside ?_)
  rw [length_words, List.length_drop, List.length_range]
  omega

theorem memGet_endBmeas (counts : List (Nat × List (Nat × Nat))) (h : a < rowAddr g ∨ rowAddr g + 96 ≤ a) :
    memGet (endBmeas counts g s).data a = memGet s.data a := by
  have hrecord := memGet_recordBands true counts h (s := s)
  have hspare (t : State) : (spareLocking false g t).data = t.data :=
    ((same_spareLocking false g (List.Subset.refl _)).mpr .rfl : SameBut _ t _) .data (by decide)
  simp only [endBmeas]
  refine keepsData_ite ?_ hrecord
  exact (congrArg (memGet · a) (hspare _)).trans hrecord

theorem data_spareChanged (f : Nat) (s : State) : (spareChanged f s).data = s.data :=
  ((same_spareChanged f (List.Subset.refl _)).mpr .rfl : SameBut _ s _) .data (by decide)

theorem lands_rcgBmeasDone_row (counts : List (Nat × List (Nat × Nat))) (h : ∀ g ∈ s.bmRows, a < rowAddr g ∨ rowAddr g + 96 ≤ a) :
    Lands (fun t => memGet t.data a = memGet s.data a) (exec (.rcgBmeasDone counts) s) := by
  change Lands _ (execRcgBmeasDone counts s)
  have hspare (l : List Nat) (t : State) : memGet (forAll l spareChanged t).data a = memGet t.data a :=
    forAll_keeps (v := fun t => memGet t.data a) (fun f _ t => congrArg (memGet · a) (data_spareChanged f t)) t
  simp only [execRcgBmeasDone, lands_ite, lands_next, hspare]
  split
  · trivial
  · split
    · exact forAll_keeps (v := fun t => memGet t.data a) (fun g hg t => memGet_endBmeas counts (h g hg)) _
    · exact forAll_keeps (v := fun t => memGet t.data a)
        (fun g hg t => memGet_recordBands false counts (h g (List.mem_of_mem_filter hg))) _

/-- A RETEST rewrites the row of the generator it names (R294). -/
theorem lands_retestDone_row (f : Nat) (counts : List (Nat × Nat)) (run : RetestRun)
    (h : ∀ code g, (flockOf s f).retest = some code → genRow s.build f code = some g → a < rowAddr g ∨ rowAddr g + 96 ≤ a) :
    Lands (fun t => memGet t.data a = memGet s.data a) (exec (.retestDone f counts run) s) := by
  change Lands _ (execRetestDone f counts run s)
  have habout (k x : Nat) (t : State) (b : Block) : (raiseAbout b k x t).data = t.data := by simp
  have hflock (x : Flock) (t : State) : (setFlock f x t).data = t.data := rfl
  have hgen (g : Nat) (x : Gen) (t : State) : (setGen g x t).data = t.data := rfl
  simp only [execRetestDone]
  split
  · split
    · exact lands_next.mpr rfl
    · next code hcode =>
      split
      · exact lands_next.mpr rfl
      · next g hg =>
        rw [lands_ite]
        split
        · exact lands_next.mpr rfl
        · refine lands_next.mpr ?_
          simp only [data_spareChanged, habout, hflock, hgen, apply_ite State.data, ite_self]
          refine memGet_memWrite_of_outside ?_
          rw [length_words, List.length_map, List.length_range]
          exact h code g hcode hg
  · exact lands_fault.mpr trivial

end

/-! ### The retained band table and the configuration slots -/

section
variable {a : Nat} {s : State}

theorem ret_entryWritten (p : Port) (v : Word) (s : State) : (entryWritten p v s).ret = s.ret := by
  have hsyn (y : Syn) (x : Synth) (t : State) : (setSyn y x t).ret = t.ret :=
    ((same_setSyn y x (List.Subset.refl _)).mpr .rfl : SameBut _ t _) .retention (by decide)
  have henable (y : Syn) (t : State) : (enableSyn y t).ret = t.ret :=
    ((same_enableSyn y (List.Subset.refl _)).mpr .rfl : SameBut _ t _) .retention (by decide)
  simp only [entryWritten, apply_ite State.ret, henable, hsyn, ite_self]

theorem lands_rootBtabWrite_entry {w : Wr} {v : Word}
    (h : a < 0x40 + 64 * synIx (btabSyn w.port s) + 4 * btabEntry w.port s ∨
      0x40 + 64 * synIx (btabSyn w.port s) + 4 * btabEntry w.port s + 4 ≤ a) :
    Lands (fun t => memGet t.ret a = memGet s.ret a) (exec (.rootBtabWrite w v) s) := by
  refine lands_next.mpr ?_
  have hs : snapSet 0x2020 = none := rfl
  rcases regWrite_records_or_effect (List.Subset.refl writeParts) (.inl hs) with hrec | heff
  · exact congrArg (memGet · a) (hrec .retention (by decide))
  · have hy : btabSyn w.port (answered s) = btabSyn w.port s := congrArg (fun n => synNum (fld n 4 1)) (nowGet_answered s _)
    have hb : btabEntry w.port (answered s) = btabEntry w.port s := congrArg (fun n => fld n 0 4) (nowGet_answered s _)
    rw [heff, writeRootBtab_eq]
    refine (memGet_memWrite_of_outside ?_).trans (congrArg (memGet · a) (ret_entryWritten ..))
    rw [hy, hb, length_leBytes]
    exact h

/-- A mailbox command changes what its own action changes, beside the answer. -/
theorem onCommand_keeps {α : Type} {v : State → α} {op nargs : Nat} {boxes : List Nat} {f : Nat → State → State}
    (hc : ∀ m st ws t, v (complete m st ws t) = v t) (hf : ∀ m, v (f m s) = v s) : v (onCommand op boxes nargs f s) = v s := by
  unfold onCommand
  split
  · exact ite_view (ite_view (hc ..) (ite_view (hc ..) (hf _))) rfl
  · rfl

theorem ret_complete (m : Nat) (st : BitVec 8) (ws : List Word) (s : State) : (complete m st ws s).ret = s.ret :=
  ((same_complete m st ws s (List.Subset.refl _)).mpr .rfl : SameBut _ s _) .retention (by simp [evs])

theorem data_complete (m : Nat) (st : BitVec 8) (ws : List Word) (s : State) : (complete m st ws s).data = s.data :=
  ((same_complete m st ws s (List.Subset.refl _)).mpr .rfl : SameBut _ s _) .data (by simp [evs])

theorem length_dirBytes (n : Nat) : (dirBytes n).length = 64 := by simp [dirBytes, length_leBytes]

theorem length_slotBytes (s : State) (tick : Nat) : (slotBytes s tick).1.length + 4 + (slotBytes s tick).2.length = slotLen := by
  simp [slotBytes, slotLen, padWords, length_leBytes]

/-- CFG_COMMIT writes the directory and the slot that was not committed before (R427, R498). -/
theorem memGet_commitConfig {t : State} (ht : commitConfig s = some t)
    (h : (64 ≤ a ∧ a < 0x400) ∨ (dirSlot s.ret ≠ 0 ∧ slotBase (dirSlot s.ret) ≤ a ∧ a < slotBase (dirSlot s.ret) + slotLen)) :
    memGet t.ret a = memGet s.ret a := by
  simp only [commitConfig] at ht
  split at ht
  · cases ht
  · obtain rfl := Option.some.inj ht
    refine (memGet_memWrite_of_outside ?_).trans (memGet_memWrite_of_outside ?_)
    · rw [length_dirBytes]
      simp only [slotBase] at h
      split at h <;> omega
    · have hlen := length_slotBytes s (commitTick s)
      simp only [List.length_append, length_leBytes, slotBase, slotLen] at hlen h ⊢
      by_cases hd : dirSlot s.ret = 1
      · rw [if_pos hd, if_neg (by decide)]
        rw [if_pos hd] at h
        omega
      · rw [if_neg hd, if_pos rfl]
        rw [if_neg hd] at h
        omega

theorem lands_cfgCommit_slot
    (h : (64 ≤ a ∧ a < 0x400) ∨ (dirSlot s.ret ≠ 0 ∧ slotBase (dirSlot s.ret) ≤ a ∧ a < slotBase (dirSlot s.ret) + slotLen)) :
    Lands (fun t => memGet t.ret a = memGet s.ret a) (exec .cfgCommit s) := by
  refine lands_next.mpr (onCommand_keeps (v := fun t => memGet t.ret a) (fun _ _ _ _ => congrArg (memGet · a) (ret_complete ..)) fun m => ?_)
  split
  · next t ht => exact (congrArg (memGet · a) (ret_complete ..)).trans (memGet_commitConfig ht h)
  · exact congrArg (memGet · a) (ret_complete ..)

end

/-! ### Firmware's records -/

section
variable {a k : Nat} {s : State}

theorem memGet_fwRecord (h : a < 0x3400 + 4 * k ∨ 0x3400 + 4 * k + 4 ≤ a) (s : State) :
    memGet (fwRecord k s).ret a = memGet s.ret a := by
  refine memGet_memWrite_of_outside ?_
  rw [length_leBytes]
  exact h

theorem lands_muApply_record (h : a < 0x3400 ∨ 0x3404 ≤ a) : Lands (fun t => memGet t.ret a = memGet s.ret a) (exec .muApply s) := by
  change Lands _ (execMuApply s)
  have happly : SameBut ([.mus] ++ evs .mus [4, 5, 6, 7, 8]) s (reportRound (countF (if isRoot s then applyRoot s else applyMember s))) := by
    simp only [↓same_reportRound, ↓same_countF, ↓same_ite, ↓same_applyRoot, ↓same_applyMember, SameBut.rfl, parts_sub, evs, List.map_cons,
      List.map_nil, List.mem_append, List.mem_cons, true_or, or_true, and_self, ite_self]
  have hret := congrArg (memGet · a) (happly .retention (by decide))
  simp only [execMuApply, lands_ite, lands_next, apply_ite State.ret, apply_ite (memGet · a), memGet_fwRecord (k := 0) h, ite_self]
  split
  · exact hret
  · trivial

theorem lands_ageTransfer_record (h : a < 0x3404 ∨ 0x3408 ≤ a) :
    Lands (fun t => memGet t.ret a = memGet s.ret a) (exec .ageTransfer s) := by
  change Lands _ (execAgeTransfer s)
  have hawait (e : WaitWr) (he : snapSet e.addr = none) : (await e s).ret = s.ret :=
    ((same_await (l := [.answers]) (by decide) (.inl he)).mpr .rfl : SameBut _ s _) .retention (by decide)
  simp only [execAgeTransfer, lands_ite, lands_next, memGet_fwRecord (k := 1) h]
  split
  · exact congrArg (memGet · a) (hawait _ rfl)
  · trivial

theorem ret_setJob (n : Nat) (j : Job) (s : State) : (setJob n j s).ret = s.ret :=
  ((same_setJob n j (List.Subset.refl _)).mpr .rfl : SameBut _ s _) .retention (by decide)

theorem lands_rowVerify_record (h : a < 0x3408 ∨ 0x340C ≤ a) :
    Lands (fun t => memGet t.ret a = memGet s.ret a) (exec .rowVerify s) := by
  have hans (m : Nat) (st : BitVec 8) (ws : List Word) (t : State) : memGet (complete m st ws t).ret a = memGet t.ret a :=
    congrArg (memGet · a) (ret_complete ..)
  have hrow (g : Nat) (t : State) : memGet (if isGen t g then setGen g { genOf t g with rowWas := none } t else t).ret a = memGet t.ret a :=
    keepsRet_ite rfl rfl
  refine lands_next.mpr (onCommand_keeps (v := fun t => memGet t.ret a) hans fun m => ?_)
  refine keepsRet_ite (hans ..) (keepsRet_ite (hans ..) ?_)
  refine (hans ..).trans ((memGet_fwRecord (k := 2) h _).trans ?_)
  exact (forAll_view (v := fun t => memGet t.ret a) hrow _ _).trans (congrArg (memGet · a) (ret_setJob ..))

theorem lands_rowVerifyJobEnd_record (rows : List Nat) (h : a < 0x3408 ∨ 0x340C ≤ a) :
    Lands (fun t => memGet t.ret a = memGet s.ret a) (exec (.rowVerifyJobEnd rows) s) := by
  change Lands _ (execRowVerifyJobEnd rows s)
  have hrow (g : Nat) (t : State) : (verifyRow rows g t).ret = t.ret :=
    ((same_verifyRow rows g (List.Subset.refl _)).mpr .rfl : SameBut _ t _) .retention (by decide)
  have hrows (l : List Nat) : (forAll l (verifyRow rows) s).ret = s.ret := forAll_view hrow l s
  have hraise (b : Block) (n : Nat) (t : State) : (raise b n t).ret = t.ret := by simp
  simp only [execRowVerifyJobEnd, lands_ite, lands_next, jobRecord, memGet_fwRecord (k := 1 + 1) h, hraise, ret_setJob,
    apply_ite State.ret, hrows, ite_self]

/-- Firmware's claim of the tally units, before a calibration starts (R422). -/
def tallyTaken (s : State) : State :=
  forAll [1, 2, 3] (fun u t => setTally u { tallyUnit t u with owner := .fw, releasing := false } t) s

/-- XCAL answers with a refusal, or starts its job and keeps a record of it (R422, R427). -/
theorem lands_xcal_keeps {α : Type} {v : State → α} (hans : ∀ m st ws t, v (complete m st ws t) = v t)
    (hstart : ∀ j, v (jobRecord 2 (startXcal (setJob 2 j (tallyTaken s)))) = v s) : Lands (fun t => v t = v s) (exec .xcal s) := by
  refine lands_next.mpr (onCommand_keeps hans fun m => ?_)
  exact ite_view (hans ..) (ite_view (hans ..) (ite_view (hans ..) (ite_view (hans ..) (ite_view (hans ..) ((hans ..).trans (hstart _))))))

theorem lands_xcal_record (h : a < 0x340C ∨ 0x3410 ≤ a) : Lands (fun t => memGet t.ret a = memGet s.ret a) (exec .xcal s) := by
  have hstart (t : State) : (startXcal t).ret = t.ret := ((same_startXcal (List.Subset.refl _)).mpr .rfl : SameBut _ t _) .retention (by decide)
  refine lands_xcal_keeps (v := fun t => memGet t.ret a) (fun _ _ _ _ => congrArg (memGet · a) (ret_complete ..)) fun j => ?_
  refine (memGet_fwRecord (k := 3) h _).trans (congrArg (memGet · a) ?_)
  exact (hstart _).trans (ret_setJob ..)

theorem lands_calDone_record (tx : List (Nat × List Nat)) (h : a < 0x340C ∨ 0x3410 ≤ a) :
    Lands (fun t => memGet t.ret a = memGet s.ret a) (exec (.calDone tx) s) := by
  change Lands _ (execCalDone tx s)
  have hfinish (hw fw : Nat) (t : State) : (finishXcal tx hw fw t).ret = t.ret :=
    ((same_finishXcal tx hw fw (List.Subset.refl _)).mpr .rfl : SameBut _ t _) .retention (by decide)
  have hrelease (t : State) : (releaseFirmware t).ret = t.ret :=
    ((same_releaseFirmware (List.Subset.refl _)).mpr .rfl : SameBut _ t _) .retention (by decide)
  have hraise (b : Block) (n : Nat) (t : State) : (raise b n t).ret = t.ret := by simp
  simp only [execCalDone, lands_ite, lands_next, jobRecord, memGet_fwRecord (k := 2 + 1) h, hrelease, hraise, ret_setJob, hfinish, ite_self]

end

/-! ### The pin table and the forecast headers -/

section
variable {a : Nat} {s : State}

/-- Only a byte of the pin table can be taken back at a calibration's start (R234). -/
theorem memGet_startXcal (h : a < 0x900000 ∨ 0x906000 ≤ a) (s : State) : memGet (startXcal s).data a = memGet s.data a := by
  have hfar (e : FreshByte) (he : e ∈ freshIn s (elapsed s) 0x900000 0x6000) : e.addr ≠ a := by
    have hwin := (List.mem_filter.mp he).2
    simp only [Bool.and_eq_true, decide_eq_true_eq] at hwin
    omega
  have hdrop : (dropPins s).data = restoreBytes (freshIn s (elapsed s) 0x900000 0x6000) s.data := by simp [dropPins, raiseIf, apply_ite State.data]
  exact (congrArg (memGet · a) hdrop).trans (memGet_restoreBytes hfar)

theorem lands_xcal_pins (h : a < 0x900000 ∨ 0x906000 ≤ a) : Lands (fun t => memGet t.data a = memGet s.data a) (exec .xcal s) := by
  have hjob (n : Nat) (j : Job) (t : State) : (setJob n j t).data = t.data :=
    ((same_setJob n j (List.Subset.refl _)).mpr .rfl : SameBut _ t _) .data (by decide)
  refine lands_xcal_keeps (v := fun t => memGet t.data a) (fun _ _ _ _ => congrArg (memGet · a) (data_complete ..)) fun j => ?_
  exact (memGet_startXcal h _).trans (congrArg (memGet · a) (hjob ..))

theorem memGet_freeBytes {x n : Nat} (h : a < x ∨ x + n ≤ a) (s : State) : memGet (freeBytes x n s).data a = memGet s.data a := by
  refine forAll_keeps (v := fun t => memGet t.data a) (fun k hk t => ?_) s
  have hlt := List.mem_range.mp hk
  exact (memGet_set ..).trans (if_neg (by omega))

/-- A return to banked mode leaves bank 1 with an unknown header; nothing else is touched (R203). -/
theorem memGet_writeFcstCfg {v : Word} (h : a < 0x400040 ∨ 0x400080 ≤ a ∨ bitAt v 0 = true) (s : State) :
    memGet (writeFcstCfg v s).data a = memGet s.data a := by
  have hrej : (fcstReject 6 s).data = s.data := ((same_fcstReject 6 (List.Subset.refl _)).mpr .rfl : SameBut _ s _) .data (by decide)
  unfold writeFcstCfg
  refine keepsData_ite rfl (keepsData_ite (congrArg (memGet · a) hrej) ?_)
  split
  · rfl
  · next hv => exact memGet_freeBytes (h.imp_right fun h => h.resolve_right hv) _

theorem lands_fcstModeWrite_header {w : Wr} {v : Word} (h : a < 0x400040 ∨ 0x400080 ≤ a ∨ bitAt v 0 = true) :
    Lands (fun t => memGet t.data a = memGet s.data a) (exec (.fcstModeWrite w v) s) := by
  refine lands_next.mpr ?_
  have hs : snapSet 0x6000 = none := rfl
  rcases regWrite_records_or_effect (List.Subset.refl writeParts) (.inl hs) with hrec | heff
  · exact congrArg (memGet · a) (hrec .data (by decide))
  · rw [heff]
    exact memGet_writeFcstCfg h _

end

/-- Settles O50: every write of a command lies in the bytes named, so an address elsewhere reads as before. -/
theorem memoryFrames : Obligations.MemoryFrames := by
  unfold Obligations.MemoryFrames
  refine ⟨fun c b s t a hc hexec h => ?_, fun counts s t a hexec h => lands_rcgBmeasDone_row counts h t hexec,
    fun f counts run s t a hexec h => lands_retestDone_row f counts run h t hexec,
    fun w v s t a hexec h => lands_rootBtabWrite_entry h t hexec, fun s t a hexec h => lands_cfgCommit_slot h t hexec,
    fun s t a h hexec => lands_muApply_record h t hexec, fun s t a h hexec => lands_ageTransfer_record h t hexec,
    fun rows s t a h hexec => ?_, fun tx s t a h hexec => ?_, fun s t a h hexec => lands_xcal_pins h t hexec,
    fun w v s t a h hexec => lands_fcstModeWrite_header h t hexec⟩
  · obtain rfl := Host.Outcome.next.inj ((exec_portBeat hc).symm.trans hexec)
    exact memGet_dpBeat h
  · rcases hexec with hexec | hexec
    · exact lands_rowVerify_record h t hexec
    · exact lands_rowVerifyJobEnd_record rows h t hexec
  · rcases hexec with hexec | hexec
    · exact lands_xcal_record h t hexec
    · exact lands_calDone_record tx h t hexec

end Sys2Proof.Machine
end

