-- ==== Sys2Proof/Proofs/StepAndReset.lean ====
section
/-!
PROOF. A step takes the command at the front of the queue, and a cold reset leaves the values that the manual states.
-/
namespace Sys2Proof.Machine
open Sys2Proof

/-- Settles O1: a step is a look at the queue, which is empty or has a front. -/
theorem stepTakesTheFront : Obligations.StepTakesTheFront := by
  unfold Obligations.StepTakesTheFront
  refine ⟨fun s c rest h => ?_, fun s h => ?_⟩ <;> simp only [step, h]

/-- Settles O2: each value stands in the reset state as the model writes it. -/
theorem resetValues : Obligations.ResetValues := by
  unfold Obligations.ResetValues
  refine ⟨rfl, rfl, rfl, rfl, rfl, rfl, rfl, rfl, rfl, rfl, rfl, fun a => rfl, rfl, rfl, rfl, rfl, rfl, rfl, rfl, rfl, ?_⟩
  decide

end Sys2Proof.Machine
end

