-- ==== Sys2Proof/Proofs/ClockNeutralCommands.lean ====
section
/-!
PROOF. The commands that leave Bellwether time alone, chapter by chapter: each changes parts of the state among which the time is not
(R76).
-/
namespace Sys2Proof.Machine
open Sys2Proof

/-- Every part of the state but Bellwether time. -/
def offClockParts : List Part := commandParts.erase .time

theorem offClock_iff {p : Part} (hp : p ≠ .time) : p ∈ offClockParts ↔ p = .bellApplied ∨ p ∈ unappliedParts :=
  (List.mem_erase_of_ne hp).trans List.mem_cons

/-- The parts that are in the list. -/
theorem offClock_mem :
    Part.bellApplied ∈ offClockParts ∧ Part.bellWritten ∈ offClockParts ∧ Part.nowRegs ∈ offClockParts ∧ Part.root ∈ offClockParts ∧
    Part.snaps ∈ offClockParts ∧ Part.logs ∈ offClockParts ∧ Part.flocks ∈ offClockParts ∧ Part.gens ∈ offClockParts ∧
    Part.regions ∈ offClockParts ∧ Part.xing ∈ offClockParts ∧ Part.fold ∈ offClockParts ∧ Part.fcst ∈ offClockParts ∧
    Part.zones ∈ offClockParts ∧ Part.foTotal ∈ offClockParts ∧ Part.crook ∈ offClockParts ∧ Part.tally ∈ offClockParts ∧
    Part.cal ∈ offClockParts ∧ Part.mus ∈ offClockParts ∧ Part.shep ∈ offClockParts ∧ Part.mbx ∈ offClockParts ∧
    Part.check ∈ offClockParts ∧ Part.lc ∈ offClockParts ∧ Part.power ∈ offClockParts ∧ Part.data ∈ offClockParts ∧
    Part.retention ∈ offClockParts ∧ Part.coreData ∈ offClockParts ∧ Part.bmeas ∈ offClockParts ∧ Part.answers ∈ offClockParts ∧
    Part.freeCount ∈ offClockParts ∧
    (∀ b, Part.eventReg b ∈ offClockParts) ∧ (∀ b k, k < 24 → Part.event b k ∈ offClockParts) := by
  simp +contextual only [offClock_iff, unapplied_mem, ne_eq, reduceCtorEq, not_false_eq_true, or_true, true_or, implies_true, and_self]

/-- How the parts of an operation are seen to leave Bellwether time out. -/
theorem offClock_sub {ps : List Part} (h : ps ⊆ offClockParts := by simp only [parts_sub, offClock_mem, Nat.reduceLT, and_self]) :
    ps ⊆ offClockParts := h

/-! ### The commands that are no register write, chapter by chapter -/

/-- A beat of the data port leaves time alone (R485). -/
theorem offClock_beat {c : Instr} {b : Beat} (s : State) (hb : portBeat c = some b) : Lands (SameBut offClockParts s) (exec c s) := by
  rw [exec_portBeat hb]
  exact lands_next.mpr ((same_dpBeat _ offClock_sub).mpr .rfl)

theorem offClock_rcg {c : Instr} (s : State) (hf : familyOf c = .rcg) (hr : regTarget c = none) (hb : portBeat c = none) :
    Lands (SameBut offClockParts s) (exec c s) := by
  cases c with
  | windsockStretch | windsockHold | holdRelease | adviseOnset =>
    simp only [exec, execWindsockStretch, execWindsockHold, execHoldRelease, execAdviseOnset, lands_ite, lands_next, lands_fault, ↓same_ite,
      ↓same_sampleRegion, SameBut.rfl, offClock_mem, parts_sub, Nat.reduceLT, ite_self, and_self]
  | bandChangeStopEnd =>
    simp only [exec, execBandChangeStopEnd, lands_ite]
    repeat' split
    all_goals simp only [lands_next, lands_fault, ↓same_setGen, ↓same_setRegion, ↓same_retune, SameBut.rfl, offClock_mem, parts_sub, and_self]
  | rcgBmeasDone =>
    have hend (f : List (Nat × List (Nat × Nat))) (g : Nat) (t : State) := same_endBmeas (s0 := s) (s := t) f g offClock_sub
    have hrec (f : List (Nat × List (Nat × Nat))) (g : Nat) (t : State) := same_recordBands (s0 := s) (s := t) false f g offClock_sub
    have hspare (f : Nat) (t : State) := same_spareChanged (s0 := s) (s := t) f offClock_sub
    simp only [exec, execRcgBmeasDone, lands_ite, lands_next, ↓same_forAll (hend _), ↓same_forAll (hrec _), ↓same_forAll hspare, ↓same_record,
      SameBut.rfl, offClock_mem, ite_self, or_true, true_or]
  | rcgSel | rcgCfgWrite | rcgBmeas => exact nomatch hr
  | bandRowWrite => exact nomatch hb
  | _ => exact nomatch hf

theorem offClock_xing {c : Instr} (s : State) (hf : familyOf c = .xing) (hr : regTarget c = none) (hb : portBeat c = none) :
    Lands (SameBut offClockParts s) (exec c s) := by
  cases c with
  | auditMismatch =>
    simp only [exec, execAuditMismatch]
    repeat' split
    all_goals simp only [lands_next, lands_fault, ↓same_setXing, ↓same_auditFails, SameBut.rfl, offClock_mem, parts_sub, Nat.reduceLT, and_self]
  | xingSel | xingCfgWrite | auditEnWrite | auditClear => exact nomatch hr
  | pinWrite | manifestWrite => exact nomatch hb
  | _ => exact nomatch hf

theorem offClock_fcst {c : Instr} (s : State) (hf : familyOf c = .fcst) (hr : regTarget c = none) (hb : portBeat c = none) :
    Lands (SameBut offClockParts s) (exec c s) := by
  cases c with
  | fcstSealShort | fcstVerifyDone | skewCount =>
    simp only [exec, execFcstSealShort, execFcstVerifyDone, execSkewCount, lands_ite, lands_next, lands_fault, ↓same_ite, ↓same_record,
      ↓same_setFbank, ↓same_raise, ↓same_sealFails, ↓same_countSkew, SameBut.rfl, offClock_mem, parts_sub, Nat.reduceLT, ite_self, or_true,
      true_or, and_self]
  | fcstNop | preStretch | fcLean | holdMargin | fcRelease | calSlot =>
    simp only [exec, execFcstNop, execPreStretch, execFcLean, execHoldMargin, execFcRelease, execCalSlot]
    split <;> simp only [lands_next, ↓same_passEntry, ↓same_deliver, ↓same_ite, ↓same_record, ↓same_countOvr5, ↓same_setRegion, SameBut.rfl,
      offClock_mem, parts_sub, implies_true, ite_self, or_true, true_or, and_self]
  | fcstModeWrite | fcstOpen | fcstSeal | fcstSwap | fcstStop | fcstCmdNone | fcstCmdInvalid | fcstStatReq => exact nomatch hr
  | fcstEntryWrite => exact nomatch hb
  | _ => exact nomatch hf

theorem offClock_zone {c : Instr} (s : State) (hf : familyOf c = .zone) (hr : regTarget c = none) :
    Lands (SameBut offClockParts s) (exec c s) := by
  cases c with
  | clampWindowEnd =>
    simp only [exec, execClampWindowEnd, lands_ite, lands_next, ↓same_record, ↓same_clampEval, SameBut.rfl, offClock_mem, parts_sub, Nat.reduceLT,
      ite_self, or_true, true_or, and_self]
  | zoneStatReq => exact nomatch hr
  | _ => exact nomatch hf

theorem offClock_flock {c : Instr} (s : State) (hf : familyOf c = .flock) (hr : regTarget c = none) :
    Lands (SameBut offClockParts s) (exec c s) := by
  cases c with
  | generatorFail | spareLost | spareLocked | drvParity | crkArmExpiry =>
    simp only [exec, execGeneratorFail, execSpareLost, execSpareLocked, execDrvParity, execCrkArmExpiry, lands_ite, lands_next, lands_fault,
      ↓same_ite, ↓same_record, ↓same_holdForced, ↓same_failGen, ↓same_markFailed, ↓same_setFlock, ↓same_setGen, ↓same_spareChanged,
      ↓same_raiseAbout, ↓same_updateSvc, SameBut.rfl, offClock_mem, parts_sub, Nat.reduceLT, ite_self, or_true, true_or, and_self]
  | claimRetry =>
    simp only [exec, execClaimRetry]
    repeat' split
    all_goals simp only [lands_next, lands_fault, ↓same_claim, ↓same_setFlock, SameBut.rfl, offClock_mem, parts_sub, Nat.reduceLT, and_self]
  | retestDone =>
    simp only [exec, execRetestDone]
    repeat' split
    all_goals simp only [lands_next, lands_fault, ↓same_record, ↓same_setGen, ↓same_raiseAbout, ↓same_setFlock, ↓same_spareChanged, SameBut.rfl,
      offClock_mem, parts_sub, Nat.reduceLT, or_true, true_or, and_self]
  | clearParity | retest | reinstate | retire | crkArm | forceHoldRegion | releaseRegion | forceHoldFlock | releaseFlock | forceFailover |
    crkCoreReset | crkInvalidOp => exact nomatch hr
  | _ => exact nomatch hf

theorem offClock_tally {c : Instr} (s : State) (hf : familyOf c = .tally) (hr : regTarget c = none) :
    Lands (SameBut offClockParts s) (exec c s) := by
  cases c with
  | tallyGateOpen | tallyStartEdge | tallyStopEdge | tallyWindowClose =>
    simp only [exec, execTallyGateOpen, execTallyStartEdge, execTallyStopEdge, execTallyWindowClose, lands_ite, lands_next, unit_lt, ↓same_ite,
      ↓same_openGate, ↓same_afterRepeat, ↓same_writeResults, ↓same_setTally, ↓same_raiseAbout, SameBut.rfl, offClock_mem, parts_sub,
      Nat.reduceLT, ite_self, and_self]
  | claimTimeout | tallyCalRefresh =>
    simp only [exec, execClaimTimeout, execTallyCalRefresh, lands_ite]
    repeat' split
    all_goals simp only [lands_next, unit_lt, ↓same_raiseAbout, ↓same_setClaim, ↓same_afterRepeat, ↓same_lostRepeat, ↓same_endRejected,
      ↓same_takeCal, ↓same_setTally, SameBut.rfl, offClock_mem, parts_sub, Nat.reduceLT, and_self]
  | tallyClaim | tallyRelease | tallyArm | tallyAbort => exact nomatch hr
  | _ => exact nomatch hf

theorem offClock_cal {c : Instr} (s : State) (hf : familyOf c = .cal) (hr : regTarget c = none) (hb : portBeat c = none) :
    Lands (SameBut offClockParts s) (exec c s) := by
  cases c with
  | regionHoldStart | spareCalStart | pathCalStart | tallyPhaseCalStart | chargePumpCalStart | chargePumpCalDone | bandgapTrimStep =>
    simp only [exec, execRegionHoldStart, execSpareCalStart, execPathCalStart, execTallyPhaseCalStart, execChargePumpCalStart,
      execChargePumpCalDone, execBandgapTrimStep, lands_ite, lands_next, lands_fault, ↓same_ite, ↓same_record, ↓same_setRegion,
      ↓same_spareChanged, ↓same_setGen, ↓same_pathGone, ↓same_setFlock, ↓same_setTally, ↓same_setSyn, ↓same_raise, ↓same_pumpOver,
      ↓same_islandDone, ↓same_rejectResult, ↓same_changedIf, SameBut.rfl, offClock_mem, parts_sub, Nat.reduceLT, ite_self, or_true, true_or,
      and_self]
  | regionHoldEnd | spareCalEnd | pathCalDone | tallyPhaseCalDone | calTimeout =>
    simp only [exec, execRegionHoldEnd, execSpareCalEnd, execPathCalDone, execTallyPhaseCalDone, execCalTimeout, lands_ite]
    repeat' split
    all_goals simp only [lands_next, lands_fault, ↓same_endHold, ↓same_raiseAbout, ↓same_judgeSpare, ↓same_hangUnless, ↓same_setGen,
      ↓same_spareChanged, ↓same_spareLocking, ↓same_setFlock, ↓same_changedIf, ↓same_calDoneCheck, ↓same_rejectResult, ↓same_setTally,
      ↓same_raise, ↓same_islandDone, ↓same_abandonPath, ↓same_pumpOver, SameBut.rfl, offClock_mem, parts_sub, Nat.reduceLT, and_self]
  | tempSample =>
    simp only [exec, execTempSample, lands_ite, lands_next, ↓same_sampleIsland, ↓same_foldl, ↓same_ite, ↓same_record, ↓same_sampleFlock,
      SameBut.rfl, offClock_mem, parts_sub, implies_true, ite_self, or_true, true_or, and_self]
  | calFlockDue | calAllDue | restore | cancelRestore | calInvalidOp => exact nomatch hr
  | calImageWrite => exact nomatch hb
  | _ => exact nomatch hf

/-- A frame that arrives is received, or is none of its command's kind (R367). -/
theorem lands_receive {q : Prop} [Decidable q] {p : BitVec 1} {f : Frame} {act : State → State} {s : State}
    (h : ∀ t, SameBut offClockParts s (act t) ↔ SameBut offClockParts s t) :
    Lands (SameBut offClockParts s) (if q then .next s else .next (receive p f act s)) := by
  simp only [lands_ite, lands_next, SameBut.rfl, (same_receive p f act s offClock_sub h).mpr .rfl, ite_self]

theorem offClock_muster {c : Instr} (s : State) (hf : familyOf c = .muster) (hr : regTarget c = none) :
    Lands (SameBut offClockParts s) (exec c s) := by
  cases c with
  | portUp | portDown | roundStart | helloSend | syncSend | followSend | doneDeadline | muApply | ageTransfer | ppsInEdge | ppsOut | upSweep =>
    simp only [exec, execPortUp, execPortDown, execRoundStart, execHelloSend, execSyncSend, execFollowSend, execDoneDeadline, execMuApply,
      execAgeTransfer, execPpsInEdge, execPpsOut, execUpSweep, lands_ite, lands_next, ↓same_foldl, ↓same_ite, ↓same_record, ↓same_raise,
      ↓same_raisePort, ↓same_setMport, ↓same_leaveUp, ↓same_sendOn, ↓same_roundPort, ↓same_syncOn, ↓same_followBytes, ↓same_sendDone,
      ↓same_reportRound, ↓same_countF, ↓same_applyRoot, ↓same_applyMember, ↓same_fwRecord, ↓same_await, SameBut.rfl, offClock_mem, parts_sub,
      Nat.reduceLT, implies_true, ite_self, or_true, true_or, and_self]
  | cableIn | downSweep =>
    simp only [exec, execCableIn, execDownSweep, lands_ite]
    repeat' split
    all_goals simp only [lands_next, ↓same_setMport, ↓same_leaveUp, ↓same_raisePort, ↓same_cableFlash, ↓same_closeExchange, ↓same_sendOffset,
      SameBut.rfl, offClock_mem, parts_sub, Nat.reduceLT, and_self]
  | hello | tree | sync | follow | offset | muDone =>
    refine lands_receive fun t => ?_
    repeat' split
    all_goals simp only [↓same_ite, ↓same_record, ↓same_turnPort, ↓same_setMport, ↓same_coarseAct, ↓same_takeParent, ↓same_hangUnless,
      ↓same_closeExchange, ↓same_sendOffset, ↓same_sendDone, offClock_mem, parts_sub, Nat.reduceLT, ite_self, or_true, true_or, and_self]
  | todArm => exact nomatch hr
  | _ => exact nomatch hf

theorem offClock_core {c : Instr} (s : State) (hf : familyOf c = .core) (hr : regTarget c = none) (hb : portBeat c = none) :
    Lands (SameBut offClockParts s) (exec c s) := by
  cases c with
  | fwSealShort | fwVerifyDone | halt | shepAssertWrite | haltRestart | wdog | watchdogKick | eccCorr =>
    simp only [exec, execFwSealShort, execFwVerifyDone, execHalt, execShepAssertWrite, execHaltRestart, execWdog, execWatchdogKick, execEccCorr,
      lands_ite, lands_next, ↓same_ite, ↓same_record, ↓same_swSealFails, ↓same_setSwBank, ↓same_raise, ↓same_denyImage, ↓same_haltCore,
      ↓same_resetCore, SameBut.rfl, offClock_mem, parts_sub, Nat.reduceLT, ite_self, or_true, true_or, and_self]
  | fwSwapPreStart =>
    simp only [exec, execFwSwapPreStart]
    split <;> simp only [lands_next, ↓same_ite, ↓same_swapTo, SameBut.rfl, offClock_mem, parts_sub, Nat.reduceLT, ite_self, and_self]
  | fwOpen | fwSeal | fwSwap | fwBankInvalidOp => exact nomatch hr
  | fwDataWrite => exact nomatch hb
  | _ => exact nomatch hf

/-- A command of the mailboxes leaves time alone where its action does (R417). -/
theorem lands_onCommand {op nargs : Nat} {boxes : List Nat} {f : Nat → State → State} {s : State}
    (h : ∀ m t, m < 24 → (SameBut offClockParts s (f m t) ↔ SameBut offClockParts s t)) :
    Lands (SameBut offClockParts s) (.next (onCommand op boxes nargs f s)) :=
  lands_next.mpr ((same_onCommand op boxes nargs f s offClock_sub fun m t hm => h m t (box_lt hm)).mpr .rfl)

theorem offClock_mailbox {c : Instr} (s : State) (hf : familyOf c = .mailbox) (hr : regTarget c = none) :
    Lands (SameBut offClockParts s) (exec c s) := by
  cases c with
  | mbxTake | identifyExpiry =>
    simp only [exec, execMbxTake, execIdentifyExpiry]
    repeat' split
    all_goals simp only [lands_next, ↓same_record, ↓same_setMbox, SameBut.rfl, offClock_mem, parts_sub, or_true, true_or, and_self]
  | badOpcode =>
    simp only [exec, execBadOpcode]
    split
    · next m hm => simp only [lands_next, box_lt (takenBox_lt hm), ↓same_ite, ↓same_complete, SameBut.rfl, offClock_mem, parts_sub, ite_self, and_self]
    · exact lands_next.mpr .rfl
  | version =>
    refine lands_onCommand fun m t hm => ?_
    split
    · simp only [↓same_complete, hm, offClock_mem, parts_sub, and_self]
    · exact Iff.rfl
  | status | nop | rowVerify | xcal | jobStatus | jobAbort | jobKill | releaseTally | identify =>
    have hrow (g : Nat) (t : State) : SameBut offClockParts s (if isGen t g then setGen g { genOf t g with rowWas := none } t else t) ↔
        SameBut offClockParts s t := by simp only [↓same_ite, ↓same_setGen, offClock_mem, parts_sub, ite_self, and_self]
    have hown (u : Nat) (t : State) : SameBut offClockParts s (setTally u { tallyUnit t u with owner := .fw, releasing := false } t) ↔
        SameBut offClockParts s t := same_setTally _ _ offClock_sub
    refine lands_onCommand fun m t hm => ?_
    simp only [↓same_ite, ↓same_record, ↓same_complete, ↓same_setJob, ↓same_jobRecord, ↓same_forAll hrow, ↓same_forAll hown, ↓same_startXcal,
      ↓same_takeFreeWord, ↓same_endJob, ↓same_releaseFirmware, ↓same_abortJob, hm, offClock_mem, parts_sub, Nat.reduceLT, ite_self, or_true,
      true_or, and_self]
  | cfgCommit =>
    refine lands_onCommand fun m t hm => ?_
    split
    · next u hu => simp only [↓same_complete, same_commitConfig (s0 := s) offClock_sub hu, hm, offClock_mem, parts_sub, and_self]
    · simp only [↓same_complete, hm, offClock_mem, parts_sub, and_self]
  | rowVerifyJobEnd hit =>
    have hrow (g : Nat) (t : State) := same_verifyRow (s0 := s) (s := t) hit g offClock_sub
    simp only [exec, execRowVerifyJobEnd, lands_ite, lands_next, ↓same_forAll hrow, ↓same_ite, ↓same_record, ↓same_jobRecord, ↓same_raise,
      ↓same_setJob, SameBut.rfl, offClock_mem, parts_sub, Nat.reduceLT, ite_self, or_true, true_or, and_self]
  | calDone =>
    simp only [exec, execCalDone, lands_ite, lands_next, ↓same_finishXcal, ↓same_setJob, ↓same_jobRecord, ↓same_releaseFirmware, ↓same_raise,
      SameBut.rfl, offClock_mem, parts_sub, Nat.reduceLT, ite_self, and_self]
  | mbxGo | mbxWithdraw => exact nomatch hr
  | _ => exact nomatch hf

theorem offClock_bus {c : Instr} (s : State) (hf : familyOf c = .bus) (hr : regTarget c = none) :
    Lands (SameBut offClockParts s) (exec c s) := by
  cases c with
  | configPassEnd | badBurst | preBellApply =>
    simp only [exec, execConfigPassEnd, execBadBurst, execPreBellApply, lands_ite, lands_next, ↓same_ite, ↓same_record, ↓same_raise,
      ↓same_driftRestore, ↓same_calCfgApplied, ↓same_respareChanged, ↓same_applyEarly, SameBut.rfl, offClock_mem, parts_sub, Nat.reduceLT,
      ite_self, or_true, true_or, and_self]
  | restoreWriteDone =>
    simp only [exec, execRestoreWriteDone, lands_ite, lands_next, ↓same_foldl, ↓same_record, ↓same_bellPut, SameBut.rfl, offClock_mem, parts_sub,
      implies_true, ite_self, or_true, true_or, and_self]
  | eventClear | cfgCtrlWrite | regWrite => exact nomatch hr
  | _ => exact nomatch hf

theorem time_warmReset (s : State) : (warmReset s).time = s.time := by
  have hrel (p : Word) (u : State) : (warmRelease p u).time = u.time :=
    ((same_warmRelease (l := offClockParts) (s0 := u) (s := u) p offClock_sub).mpr .rfl) .time (by decide)
  simp only [warmReset]
  repeat' split
  · exact hrel _ _
  · rfl
  · rfl

theorem time_factoryValues (s : State) : (factoryValues s).time = s.time :=
  ((same_factoryValues (l := offClockParts) (s0 := s) (s := s) offClock_sub).mpr .rfl) .time (by decide)

theorem time_fabricLeaves (s : State) : (fabricLeaves s).time = s.time :=
  ((same_fabricLeaves (l := offClockParts) (s0 := s) (s := s) offClock_sub).mpr .rfl) .time (by decide)

/-- A reset of the fabric domain leaves time alone: it lies in the island (R494, R496). -/
theorem time_fabricReset {c : Instr} (s : State) (hc : c = .warmReset ∨ c = .fabPowerLoss ∨ c = .eraseDone) :
    Lands (fun t => t.time = s.time) (exec c s) := by
  rcases hc with rfl | rfl | rfl
  · exact lands_next.mpr (time_warmReset s)
  · refine lands_ite.mpr ?_
    split
    · exact lands_next.mpr rfl
    · exact lands_next.mpr (time_factoryValues (islandOnly s))
  · have herase : (eraseCustomer s).time = s.time := time_factoryValues s
    simp only [exec, execEraseDone, lands_ite, lands_next, time_warmReset, time_fabricLeaves, herase, ite_self]

theorem offClock_power {c : Instr} (s : State) (hf : familyOf c = .power) (hr : regTarget c = none) (ha : appliesBellClass c = false)
    (hi : ∀ t, c ≠ .i2cTransaction t) : Lands (SameBut offClockParts s) (exec c s) := by
  cases c with
  | onBackup | onMain | backupFail | fabPowerReturn | hcAreset | buttonPress | btnLong | btnShort | ledChange | sclTimeout | supplyOkChange |
    buttonRelease =>
    simp only [exec, execOnBackup, execOnMain, execBackupFail, execFabPowerReturn, execHcAreset, execButtonPress, execBtnLong, execBtnShort,
      execLedChange, execSclTimeout, execSupplyOkChange, execButtonRelease, lands_ite, lands_next, ↓same_ite, ↓same_record, ↓same_raise,
      ↓same_countSwitch, SameBut.rfl, offClock_mem, parts_sub, Nat.reduceLT, ite_self, or_true, true_or, and_self]
  | lcDone | testAccess =>
    simp only [exec, execLcDone, execTestAccess]
    repeat' split
    all_goals simp only [lands_next, lands_refused, ↓same_record, ↓same_releaseLc, ↓same_raise, ↓same_lcPerform, ↓same_tapSelect, ↓same_tapScan,
      ↓same_denyTest, SameBut.rfl, offClock_mem, parts_sub, Nat.reduceLT, or_true, true_or, and_self]
  | i2cTransaction t => exact absurd rfl (hi t)
  | powerOnReset | powerOnResetRelease | coldReset | warmReset | fabPowerLoss | eraseDone => exact nomatch ha
  | lcTransition | lcRevoke | lcOpRefuse => exact nomatch hr
  | _ => exact nomatch hf

theorem offClock_issuedEdge (r : Nat) (dcoAt : Int) (at16 : Nat) (act : BitVec 4) (s : State) :
    Lands (SameBut offClockParts s) (exec (.issuedEdge r dcoAt at16 act) s) := by
  simp only [exec, execIssuedEdge, lands_ite, lands_next, lands_fault, ↓same_ite, ↓same_issueEdge, SameBut.rfl, offClock_mem, parts_sub, ite_self,
    and_self]

end Sys2Proof.Machine
end

