-- ==== Sys2Proof/Proofs/CounterNeverDecreases.lean ====
section
/-!
PROOF. Bellwether time across every command: what loses the reference, rings a bell, writes a register or delivers an edge keeps the
counter from going back once the first bell has rung (R76, R77).
-/
namespace Sys2Proof.Machine
open Sys2Proof

/-! ### What keeps the counter from going back -/

/-- Once the first bell has rung in the one state, it has in the other, and the counter there is no smaller (R76, R77). -/
structure ClockKept (s t : State) : Prop where
  kept : s.time.firstBell = true → s.time.counter ≤ t.time.counter ∧ t.time.firstBell = true

namespace ClockKept

theorem rfl {s : State} : ClockKept s s := ⟨fun h => ⟨le_rfl, h⟩⟩

theorem trans {s t u : State} (h : ClockKept s t) (h' : ClockKept t u) : ClockKept s u where
  kept hs := by
    obtain ⟨hle, ht⟩ := h.kept hs
    obtain ⟨hle', hu⟩ := h'.kept ht
    exact ⟨hle.trans hle', hu⟩

theorem of_time {s t : State} (h : t.time = s.time) : ClockKept s t where
  kept hs := by
    rw [h]
    exact ⟨le_rfl, hs⟩

theorem of_same {l : List Part} {s t : State} (h : SameBut l s t) (hl : .time ∉ l := by decide) : ClockKept s t :=
  of_time (h .time hl)

theorem foldl {α : Type} {f : State → α → State} (h : ∀ s a, ClockKept s (f s a)) (as : List α) (s : State) : ClockKept s (as.foldl f s) := by
  induction as generalizing s with
  | nil => exact rfl
  | cons a as ih => exact (h s a).trans (ih _)

theorem ite {q : Prop} [Decidable q] {s t u : State} (ht : ClockKept s t) (hu : ClockKept s u) : ClockKept s (if q then t else u) := by
  split <;> assumption

end ClockKept

/-- A command that leaves time out keeps the clock. -/
theorem lands_clockKept {c : Instr} {l : List Part} {s : State} (h : Lands (SameBut l s) (exec c s)) (hl : .time ∉ l := by decide) :
    Lands (ClockKept s) (exec c s) :=
  fun t ht => .of_same (h t ht) hl

/-! ### The root -/

theorem clockKept_loseTime (s : State) : ClockKept s (loseTime s) := ⟨fun h => ⟨le_rfl, h⟩⟩

theorem clockKept_bypassEntered (s : State) : ClockKept s (bypassEntered s) :=
  .of_same ((same_bypassEntered (l := offClockParts) offClock_sub).mpr .rfl)

theorem clockKept_resumeHeld (s : State) : ClockKept s (resumeHeld s) := by
  have hend (r : RootSt) (f : FoldSt) :
      ClockKept s { s with root := r, time := { s.time with held := false }, fold := f } := ⟨fun h => ⟨le_rfl, h⟩⟩
  unfold resumeHeld
  exact .ite (.ite (hend _ _) ((hend _ _).trans (clockKept_bypassEntered _))) .rfl

theorem clockKept_driverLost (y : Syn) (both : Bool) (n : Nat) (s : State) : ClockKept s (driverLost y both n s) := by
  rcases driverLost_cases y both n s with ⟨-, -, u, heq⟩ | ⟨-, heq⟩ | ⟨-, -, heq⟩ | ⟨-, -, heq⟩ <;> rw [heq]
  · exact .of_time (time_unapply u s)
  · exact .of_time rfl
  · exact clockKept_loseTime s
  · exact .of_time (time_enterBypass n s)

theorem clockKept_missingCrystalEdge (s : State) : Lands (ClockKept s) (exec .missingCrystalEdge s) := by
  have hgood (r : RootSt) : ClockKept s (tallyRefLost (freezeSyn .s1 (freezeSyn .s0 { s with root := r }))) :=
    .of_same (l := offClockParts) (by
      simp only [↓same_tallyRefLost, ↓same_freezeSyn, ↓same_record, SameBut.rfl, offClock_mem, parts_sub, or_true, true_or, and_self])
  simp only [exec, execMissingCrystalEdge, lands_ite, lands_next]
  split
  · exact .of_time rfl
  · exact .ite ((hgood _).trans (clockKept_loseTime _)) (hgood _)

theorem clockKept_edgesResume (s : State) : Lands (ClockKept s) (exec .edgesResume s) := by
  have hthaw (r : RootSt) : ClockKept s (thawSyn .s1 (thawSyn .s0 { s with root := r })) :=
    .of_same (l := offClockParts) (by
      simp only [↓same_thawSyn, ↓same_record, SameBut.rfl, offClock_mem, parts_sub, or_true, true_or, and_self])
  simp only [exec, execEdgesResume, lands_ite, lands_next]
  split
  · exact ((hthaw _).trans (clockKept_resumeHeld _)).trans (.of_time (time_prefAct _))
  · exact .rfl

theorem clockKept_refReturn (s : State) : Lands (ClockKept s) (exec .refReturn s) := by
  have hback : ClockKept s (refBack s) :=
    .of_same (l := offClockParts) (by
      simp only [refBack, ↓same_enableSyn, ↓same_releaseFailed, ↓same_thawSyn, ↓same_raise, ↓same_record, SameBut.rfl, offClock_mem, parts_sub,
        Nat.reduceLT, or_true, true_or, and_self])
  change Lands _ (execRefReturn s)
  by_cases h : s.root.refLost = true ∧ qualifiedEdges s = true
  · rw [execRefReturn_of_lost h.1 h.2]
    exact lands_next.mpr ((hback.trans (clockKept_resumeHeld _)).trans (.of_time (time_prefAct _)))
  · rw [execRefReturn, if_neg (by simpa using h)]
    exact lands_next.mpr .rfl

theorem clockKept_frozenOutputFail (y : Syn) (ps : Nat) (s : State) : Lands (ClockKept s) (exec (.frozenOutputFail y ps) s) := by
  have hfail (x : Synth) (k : Nat) : ClockKept s (raise .root k (setSyn y x s)) := .of_time (by cases y <;> rfl)
  simp only [exec, execFrozenOutputFail, lands_ite, lands_next]
  split
  · exact .ite ((hfail _ _).trans (clockKept_driverLost ..)) (.of_time (by cases y <;> rfl))
  · exact .rfl

theorem clockKept_lockLoss (y : Syn) (err1 err2 : Int) (slip both : Bool) (edges : Nat) (s : State) :
    Lands (ClockKept s) (exec (.lockLoss y err1 err2 slip both edges) s) := by
  have hdrop (z : Syn) (t : State) : ClockKept t (dropLock z t) :=
    .of_same ((same_dropLock (l := offClockParts) z t (by simp only [parts_sub, offClock_mem, lossBit_lt, Nat.reduceLT, and_self])).mpr .rfl)
  have hroot (t : State) (r : RootSt) : ClockKept t { t with root := r } := .of_time rfl
  simp only [exec, execLockLoss, lands_ite, lands_next]
  split
  · have hlost := (hdrop y s).trans (ClockKept.ite (q := (both && (synOf s (otherSyn y)).locked && !(synOf s (otherSyn y)).frozen) = true)
      (hdrop (otherSyn y) _) .rfl)
    exact .ite (hlost.trans (clockKept_driverLost ..)) (.ite (hlost.trans ((hroot _ _).trans (clockKept_driverLost ..)))
      (hlost.trans (hroot _ _)))
  · exact .rfl

/-! ### The bell -/

/-- The first bell, marked where it has been marked before, changes nothing. -/
theorem offClock_firstBell {s t : State} (hs : s.time.firstBell = true) (h : SameBut offClockParts s t) :
    SameBut offClockParts s { t with time := { t.time with firstBell := true } } := by
  have ht : t.time = s.time := h .time (by decide)
  have htime : ({ t.time with firstBell := true } : TimeSt) = t.time := by rw [← hs, ← ht]
  rw [htime]
  exact h

/-- A bell after the first leaves time alone (R76, R112). -/
theorem offClock_ringBell (placed : Nat) {now : State} (hs : now.time.firstBell = true) : SameBut offClockParts now (ringBell placed now) := by
  unfold ringBell
  extract_lets s0 first missed s1 late charged t1 f g isFlat t2 active t3 t4 t5 t6 back t7 t8 time t9 t10 t11 t12 t13 cal t14 t15
  have hs0 : SameBut offClockParts now s0 := (same_rewindFresh offClock_sub).mpr .rfl
  have hs1 : SameBut offClockParts now s1 := by
    have hskew (r : Nat) (t : State) := same_countSkew (s0 := now) (s := t) r (flockOffset t (r / 16)) true offClock_sub
    refine same_ite.mpr ?_
    simp only [↓same_logFold, ↓same_forAll hskew, ↓same_cutClampWindow, hs0, offClock_mem, parts_sub, Nat.reduceLT, ite_self, and_self]
  have ht1 : SameBut offClockParts now t1 := (same_applyPending _ _ offClock_sub).mpr hs1
  have ht3 : SameBut offClockParts now t3 := by
    simp only [t3, t2, ↓same_forecastBell, ↓same_shiftBells, ↓same_nextFold, ht1, offClock_mem, parts_sub, Nat.reduceLT, and_self]
  have ht6 : SameBut offClockParts now t6 := by
    simp only [t6, t5, t4, ↓same_restoreApply, ↓same_calCfgApplied, ↓same_bellClasses, ↓same_zoneBell, ↓same_historyBell, ht3, offClock_mem,
      parts_sub, Nat.reduceLT, and_self]
  have ht8 : SameBut offClockParts now t8 := by
    have hjoin (r : Nat) (t : State) := same_readmit (s0 := now) (s := t) r offClock_sub
    simp only [t8, t7, ↓same_mapRegions, ↓same_forAll hjoin, ht6, offClock_mem, parts_sub, and_self]
  have ht9 : SameBut offClockParts now t9 := by
    have harm (r : Nat) (t : State) := same_rearm (s0 := now) (s := t) r offClock_sub
    refine same_ite.mpr ?_
    split
    · exact (same_armAll offClock_sub).mpr (offClock_firstBell hs ht8)
    · exact (same_forAll harm).mpr ht8
  have ht15 : SameBut offClockParts now t15 := by
    have hratio (x : Nat) (t : State) := same_ratioCheck (s0 := now) (s := t) s1 x offClock_sub
    have hband (r : Nat) (t : State) := same_bellBand (s0 := now) (s := t) r offClock_sub
    simp only [t15, t14, t13, t12, t11, t10, ↓same_raise, ↓same_ite, ↓same_record, ↓same_forAll hband, ↓same_respareChanged, ↓same_mapGens,
      ↓same_forAll hratio, ht9, offClock_mem, parts_sub, Nat.reduceLT, ite_self, or_true, true_or, and_self]
  exact (same_replayFresh _ offClock_sub).mpr ((same_firmwareBell offClock_sub).mpr ht15)

theorem clockKept_bell (s : State) : Lands (ClockKept s) (exec .bell s) := by
  have hring (placed : Nat) : ClockKept s (ringBell placed s) := ⟨fun hs => (ClockKept.of_same (offClock_ringBell placed hs)).kept hs⟩
  simp only [exec, execBell, lands_ite, lands_next]
  split
  · exact .rfl
  · split <;> exact .ite (hring _) .rfl

/-! ### Register writes -/

/-- A register's action leaves Bellwether time alone at every address but BELL_LOAD_CTRL's (R77). -/
theorem acts_offClock {s0 : State} (now : State) (w : Wr) {a : Nat} (v : Word) (ha : a ≠ 0x1018) :
    Acts offClockParts s0 (actingWrite now w a v) := by
  have htally (hc : (0x9100 ≤ a && a < 0x9500) = true) : (a - 0x9100) / 0x100 < 24 := by
    simp only [Bool.and_eq_true, decide_eq_true_eq] at hc
    omega
  have hbox (hc : (0xD000 ≤ a && a < 0xD300) = true) : (a - 0xD000) / 0x100 < 24 ∧ 3 + (a - 0xD000) / 0x100 < 24 := by
    simp only [Bool.and_eq_true, decide_eq_true_eq] at hc
    omega
  unfold actingWrite
  extract_lets p
  repeat' refine acts_ite (fun hc => acts_some fun s => ?_) fun _ => ?_
  -- the mailboxes, the Tally units and BELL_LOAD_CTRL need their addresses
  on_goal 34 => exact same_writeMbox _ _ _ _ _ (by simp only [hbox hc, parts_sub, offClock_mem, Nat.reduceLT, and_self])
  on_goal 28 => exact same_writeTallyUnit _ _ _ _ _ (by simp only [htally hc, parts_sub, offClock_mem, Nat.reduceLT, and_self])
  on_goal 3 => exact absurd hc ha
  all_goals simp only [acts_none, ite_apply, id_eq, ↓same_ite, ↓same_writeCfgCtrl, ↓same_writeBellSnap, ↓same_writeRootCtrl, ↓same_writeDivApply,
    ↓same_nowPut, ↓same_writeRootBtab, ↓same_writeRootMeas, ↓same_writeRootAge, ↓same_writeFoldTether, ↓same_writeFoldCtrl,
    ↓same_writeFoldExclude, ↓same_writeFoldStatReq, ↓same_writeFoldLogSel, ↓same_writeRcgSel, ↓same_writeRcgCfg, ↓same_writeRcgBmeas,
    ↓same_writeXingSel, ↓same_writeXingCfg, ↓same_writeXingAudit, ↓same_writeFcstCfg, ↓same_writeFcstCtrl, ↓same_writeFcstStatReq,
    ↓same_writeZoneBtab, ↓same_writeZoneStatReq, ↓same_evalClaims, ↓same_writeTallyClaim, ↓same_writeCalCtrl,
    ↓same_writeTodCtrl, ↓same_writeAssert, ↓same_writeKick, ↓same_writeShepBankCtrl, ↓same_writeCrkArm,
    ↓same_writeCrkCmd, ↓same_writeLcCtrl, ↓same_writeFlockWord, parts_sub, offClock_mem, Nat.reduceLT, ite_self, and_self]

/-- No check of a register write touches time (R440, R442). -/
theorem writeParts_offClock : writeParts ⊆ offClockParts := by simp only [writeParts, parts_sub, offClock_mem, Nat.reduceLT, and_self]

/-- Once the first bell has rung a load of the counter is rejected (R77). -/
theorem clockKept_loadCounter (value : Nat) (s : State) : ClockKept s (loadCounter value s) where
  kept h := by
    rw [loadCounter, if_pos h]
    exact ⟨le_rfl, h⟩

theorem clockKept_writeBellLoad (v : Word) (s : State) : ClockKept s (writeBellLoad v s) := by
  have htag (t : State) (tag : BitVec 8) (at' : Option Nat) (m : MusSt) :
      ClockKept t { t with time := { t.time with loadTag := tag, loadAt := at' }, mus := m } := ⟨fun h => ⟨le_rfl, h⟩⟩
  have hput : ClockKept s (nowPut 0x1018 v s) := .of_time rfl
  unfold writeBellLoad
  exact .ite hput (hput.trans ((htag _ _ _ _).trans (clockKept_loadCounter _ _)))

theorem clockKept_writeEffect (w : Wr) (a : Nat) (v : Word) (s : State) : ClockKept s (writeEffect w a v s) := by
  by_cases ha : a = 0x1018
  · subst ha
    exact clockKept_writeBellLoad v s
  · unfold writeEffect
    split
    · next f hf => exact .of_same ((acts_offClock s w v ha f hf s).mpr .rfl)
    · split
      · exact .of_time (by rw [clearEvents_eq])
      · exact .ite .rfl (.ite (.of_same ((same_bellPut (l := offClockParts) _ _ offClock_sub).mpr .rfl))
          (.of_same ((same_nowPut (l := offClockParts) _ _ offClock_sub).mpr .rfl)))

theorem clockKept_await (e : WaitWr) (s : State) : ClockKept s (await e s) :=
  .of_same ((same_await (l := offClockParts) (by simp only [offClock_mem]) (.inr (by simp only [offClock_mem]))).mpr .rfl)

theorem clockKept_unlessClearWaits {w : Wr} {a : Nat} {v : Word} {ext : List Nat} {eff : State → State} {s : State}
    (h : ClockKept s (eff s)) : ClockKept s (unlessClearWaits w a v ext eff s) :=
  .ite (clockKept_await _ s) h

/-- A register write keeps the clock where its effect does (R440, R442). -/
theorem clockKept_regWrite {w : Wr} {a : Nat} {v : Word} {ext : List Nat} {eff : State → State} (h : ∀ t, ClockKept t (eff t)) (s : State) :
    ClockKept s (regWrite w a v ext eff s) := by
  have hans : ClockKept s (answered s) := .of_time rfl
  rcases regWrite_records_or_effect (w := w) (a := a) (v := v) (ext := ext) (eff := eff) (s := s) writeParts_offClock
    (.inr (by simp only [offClock_mem])) with hrec | heff
  · exact .of_same hrec
  · rw [heff]
    exact hans.trans (h _)

theorem clockKept_busWrite (w : Wr) (addr : Nat) (v : Word) (s : State) : ClockKept s (busWrite w addr v s) :=
  clockKept_regWrite (fun t => clockKept_unlessClearWaits (clockKept_writeEffect w _ v t)) s

theorem clockKept_i2cWords (off : Nat) (bytes : List (BitVec 8)) (s : State) : ClockKept s (i2cWords off bytes s) := by
  unfold i2cWords
  split
  · exact (clockKept_busWrite ..).trans (clockKept_i2cWords ..)
  · exact .rfl
  · exact clockKept_busWrite ..

theorem clockKept_i2cTransaction (x : I2c) (s : State) : Lands (ClockKept s) (exec (.i2cTransaction x) s) := by
  have hout (o : OutSt) : ClockKept s { s with out := o } := .of_time rfl
  simp only [exec, execI2cTransaction, lands_ite, lands_next]
  repeat' split
  · exact .rfl
  · exact hout _
  · exact lands_next.mpr ((hout _).trans (clockKept_i2cWords ..))
  · exact lands_next.mpr ((hout _).trans (.of_same ((same_i2cReads (l := offClockParts) _ _ _ offClock_sub).mpr .rfl)))

/-! ### A slow-clock edge -/

theorem clockKept_waitMeaning (e : WaitWr) (s : State) : ClockKept s (waitMeaning e s) := by
  unfold waitMeaning
  split
  · next hc =>
    have hu : (e.addr - 0x9100) / 0x100 < 24 := by
      simp only [Bool.and_eq_true, decide_eq_true_eq] at hc
      omega
    exact .of_same ((same_writeTallyCmd (l := offClockParts) _ _ _ _ _ (by simp only [hu, parts_sub, offClock_mem, Nat.reduceLT, and_self])).mpr .rfl)
  · refine .ite (.of_same ((same_writeTallyClaim (l := offClockParts) _ _ offClock_sub).mpr .rfl)) ?_
    refine .ite (.of_same ((same_writeRcgCfg (l := offClockParts) _ _ offClock_sub).mpr .rfl)) ?_
    exact .ite (.of_same ((same_stepRootAge (l := offClockParts) _ _ offClock_sub).mpr .rfl)) (clockKept_writeEffect ..)

theorem clockKept_waitEffect (s : State) (e : WaitWr) : ClockKept s (waitEffect e s) :=
  .ite (.of_time rfl) (.ite (.of_same ((same_deny (l := offClockParts) offClock_sub).mpr .rfl)) (clockKept_waitMeaning e s))

theorem clockKept_takeCaptures (s : State) : ClockKept s (takeCaptures s) := by
  have hout (o : OutSt) : ClockKept s { s with out := o } := .of_time rfl
  exact (hout _).trans (.foldl clockKept_waitEffect _ _)

theorem clockKept_performWaiting (s : State) : ClockKept s (performWaiting s) := by
  have hraise (lost : Bool) (o : OutSt) : ClockKept s (raiseIf lost .cfg 6 { s with out := o }) := .of_time (by rw [raiseIf_eq])
  unfold performWaiting
  extract_lets q stalled
  split
  exact (hraise _ _).trans (.foldl (fun t e => clockKept_waitEffect t _) _ _)

theorem clockKept_requestedLoad (s : State) : ClockKept s (requestedLoad s) := by
  have hmus (m : MusSt) : ClockKept s { s with mus := m } := .of_time rfl
  unfold requestedLoad
  extract_lets t
  split
  · exact (hmus _).trans (clockKept_loadCounter ..)
  · exact (hmus _).trans (clockKept_loadCounter ..)
  · exact hmus _

theorem clockKept_performAll (s : State) : ClockKept s (performAll s) := by
  have hmus (t : State) (m : MusSt) : ClockKept t { t with mus := m } := .of_time rfl
  have hdone := clockKept_performWaiting s
  exact .ite hdone (.ite (hdone.trans (hmus _ _)) (hdone.trans (clockKept_requestedLoad _)))

theorem clockKept_slowEdge (before s : State) : ClockKept s (slowEdge before s) := by
  have hcopy (o : OutSt) : ClockKept s (islandCopies { s with out := o }) := .of_time rfl
  have hclaims (t : State) : ClockKept t (evalClaims t) := .of_same ((same_evalClaims (l := offClockParts) offClock_sub).mpr .rfl)
  exact .ite ((hcopy _).trans ((clockKept_performAll _).trans (hclaims _))) .rfl

/-! ### An edge of the clock -/

/-- The counter at the next edge is no smaller (R56, R76). -/
theorem counter_le_nextCounter (s : State) : s.time.counter ≤ nextCounter s := by
  unfold nextCounter
  split <;> omega

/-- The counter at the next edge keeps within 64 bits where one more tick, and in bypass the next bypass edge, does. -/
theorem nextCounter_lt {s : State} (ht : s.time.counter + 1 < 2 ^ 64) (hb : s.root.bypTarget + 5 < 2 ^ 64) : nextCounter s < 2 ^ 64 := by
  unfold nextCounter
  split <;> omega

theorem firstBell_countEdge (s : State) : (countEdge s).time.firstBell = s.time.firstBell := by
  have hframe (b : Bool) (t : TimeSt) : (frameStep b t).firstBell = t.firstBell := by
    unfold frameStep
    split <;> rfl
  rw [time_countEdge]
  exact hframe _ _

theorem clockKept_midEdge (phases : List (Nat × Nat)) {s : State} (ht : s.time.counter + 1 < 2 ^ 64) (hb : s.root.bypTarget + 5 < 2 ^ 64) :
    ClockKept s (midEdge phases s) where
  kept h := by
    rw [time_midEdge, (clock_countEdge s).1, Nat.mod_eq_of_lt (nextCounter_lt ht hb), firstBell_countEdge]
    exact ⟨counter_le_nextCounter s, h⟩

theorem clockKept_crystalEdge (s : State) : ClockKept s (crystalEdge s) := by
  have hroot (r : RootSt) : ClockKept s { s with root := r } := .of_time rfl
  have hslow (r : RootSt) : ClockKept s { s with root := r, time := slowCount 5 s.time } := ⟨fun h => ⟨le_rfl, h⟩⟩
  exact .ite (hroot _) ((hslow _).trans (clockKept_slowEdge _ _))

theorem clockKept_tickEdge (bypassEdge : Bool) (phases : List (Nat × Nat)) {s : State} (ht : s.time.counter + 1 < 2 ^ 64)
    (hb : s.root.bypTarget + 5 < 2 ^ 64) : Lands (ClockKept s) (exec (.tickEdge bypassEdge phases) s) := by
  have hdeliver : ClockKept s (deliverEdge phases s) := by
    rw [deliverEdge_eq]
    exact (clockKept_midEdge phases ht hb).trans ((clockKept_takeCaptures _).trans (clockKept_slowEdge _ _))
  simp only [exec, execTickEdge, lands_ite, lands_next]
  repeat' split
  · exact .rfl
  · exact clockKept_crystalEdge s
  · exact .rfl
  · exact hdeliver

/-! ### Every command -/

/-- A register write whose effect leaves time alone does so too. -/
theorem offClock_regWrite {w : Wr} {a : Nat} {v : Word} {ext : List Nat} {eff : State → State} {s : State}
    (h : ∀ t, SameBut offClockParts s (eff t) ↔ SameBut offClockParts s t) :
    Lands (SameBut offClockParts s) (.next (regWrite w a v ext eff s)) :=
  lands_keptWrite writeParts_offClock (.inr (by simp only [offClock_mem])) h

theorem offClock_mbxWrite {w : Wr} {m : BitVec 2} {v : Word} {s : State} :
    Lands (SameBut offClockParts s)
      (if isMbox m then .next (regWrite w (mbxAddr m.toNat 0) v [] (mbxWrite w m.toNat (writeMbxCtrl m.toNat v)) s) else .fault .noSuchUnit) := by
  have hbit : m.toNat < 24 ∧ 3 + m.toNat < 24 := by omega
  refine lands_ite.mpr ?_
  split
  · exact offClock_regWrite fun _ => same_mbxWrite (h := offClock_sub) (he := fun _ =>
      same_writeMbxCtrl (h := by simp only [hbit, parts_sub, offClock_mem, and_self]) ..) ..
  · exact lands_fault.mpr trivial

theorem offClock_writeTallyCmd {w : Wr} {u : BitVec 2} {a : Nat} {v : Word} {ext : List Nat} {c : Option CalEdges} {s : State} :
    Lands (SameBut offClockParts s) (.next (regWrite w a v ext (writeTallyCmd w.port u.toNat v c) s)) :=
  offClock_regWrite fun _ => same_writeTallyCmd (h := by simp only [unit_lt, parts_sub, offClock_mem, Nat.reduceLT, and_self]) ..

/-- A command of chapters 4 to 17 that writes one register leaves time alone. -/
theorem offClock_regTarget {c : Instr} {w : Wr} {a : Nat} (s : State) (h : regTarget c = some (w, a))
    (hf : familyOf c ∉ [Family.root, Family.mesh, Family.fold]) (hw : ∀ w addr v, c ≠ .regWrite w addr v) :
    Lands (SameBut offClockParts s) (exec c s) := by
  cases c with
  | rcgSel => exact offClock_regWrite fun _ => same_writeRcgSel (h := offClock_sub) ..
  | rcgCfgWrite => exact offClock_regWrite fun _ => same_writeRcgCfg (h := offClock_sub) ..
  | rcgBmeas => exact offClock_regWrite fun _ => same_writeRcgBmeas (h := offClock_sub) ..
  | xingSel => exact offClock_regWrite fun _ => same_writeXingSel (h := offClock_sub) ..
  | xingCfgWrite => exact offClock_regWrite fun _ => same_writeXingCfg (h := offClock_sub) ..
  | auditEnWrite | auditClear => exact offClock_regWrite fun _ => same_writeXingAudit (h := offClock_sub) ..
  | fcstModeWrite => exact offClock_regWrite fun _ => same_writeFcstCfg (h := offClock_sub) ..
  | fcstOpen | fcstSeal | fcstSwap | fcstStop | fcstCmdNone | fcstCmdInvalid =>
    exact offClock_regWrite fun _ => same_writeFcstCtrl (h := offClock_sub) ..
  | fcstStatReq => exact offClock_regWrite fun _ => same_writeFcstStatReq (h := offClock_sub) ..
  | zoneStatReq => exact offClock_regWrite fun _ => same_writeZoneStatReq (h := offClock_sub) ..
  | clearParity | retest | reinstate | retire =>
    exact offClock_regWrite fun _ => same_whereFlock (he := fun _ => same_writeGenCtrl (h := offClock_sub) ..) ..
  | crkArm => exact offClock_regWrite fun _ => same_writeCrkArm (h := offClock_sub) ..
  | forceHoldRegion | releaseRegion | forceHoldFlock | releaseFlock | forceFailover | crkCoreReset | crkInvalidOp =>
    exact offClock_regWrite fun _ => same_writeCrkCmd (h := offClock_sub) ..
  | tallyClaim | tallyRelease =>
    exact offClock_regWrite fun _ => (same_evalClaims (h := offClock_sub)).trans (same_writeTallyClaim (h := offClock_sub) ..)
  | tallyArm | tallyAbort => exact offClock_writeTallyCmd
  | calFlockDue | calAllDue | restore | cancelRestore | calInvalidOp =>
    exact offClock_regWrite fun _ => same_writeCalCtrl (h := offClock_sub) ..
  | todArm => exact offClock_regWrite fun _ => same_writeTodCtrl (h := offClock_sub) ..
  | fwOpen | fwSeal | fwSwap | fwBankInvalidOp => exact offClock_regWrite fun _ => same_writeShepBankCtrl (h := offClock_sub) ..
  | mbxGo | mbxWithdraw => exact offClock_mbxWrite
  | eventClear =>
    exact offClock_regWrite fun _ => same_unlessClearWaits (by simp only [offClock_mem]) (.inr (by simp only [offClock_mem]))
      (same_clearEvents (by simp only [offClock_mem]) fun _ hk => by simp only [offClock_mem, hk])
  | cfgCtrlWrite => exact offClock_regWrite fun _ => same_writeCfgCtrl (h := offClock_sub) ..
  | lcTransition | lcRevoke | lcOpRefuse => exact offClock_regWrite fun _ => same_writeLcCtrl (h := offClock_sub) ..
  | regWrite w addr v => exact absurd rfl (hw w addr v)
  | _ => simp [regTarget, familyOf] at h hf

/-- The commands of the root, of the counter and of the folds: those that touch time, one by one, and the rest by their footprints. -/
theorem clockKept_of_root {c : Instr} (s : State) (hf : familyOf c ∈ [Family.root, Family.mesh, Family.fold]) : Lands (ClockKept s) (exec c s) := by
  have hkeeps : Lands (SameBut (footprint c) s) (exec c s) := keepsToFootprint_of_family s hf
  cases c with
  | missingCrystalEdge => exact clockKept_missingCrystalEdge s
  | edgesResume => exact clockKept_edgesResume s
  | refReturn => exact clockKept_refReturn s
  | frozenOutputFail y ps => exact clockKept_frozenOutputFail y ps s
  | lockLoss y err1 err2 slip both edges => exact clockKept_lockLoss y err1 err2 slip both edges s
  | bellLoad w v => exact lands_next.mpr (clockKept_regWrite (clockKept_writeBellLoad v) s)
  | bell => exact clockKept_bell s
  | crystalQualified | refLoss | lockAcquired | synthQualified | bypExit | prefWrite | spareEnWrite | bypassForce | divApply | rootBtabWrite |
    rootMeas | rootMeasDone | rootAgeWrite | ageSlewStep | syncInEdge | frozenFailureCountEnd | bellSnapReq | broadcastFrame | pathLockDone |
    deltaTrack | pathFail | pathReturn | meshDisable | foldStart | call | graceTailStart | regionPark | pull | tetherStop | availInterlock |
    roomStop | tetherStopRelease | excludeSet | excludeClear | foldTetherWrite | foldStatReq | foldLogSel =>
    exact lands_clockKept hkeeps (of_decide_eq_true rfl)
  | _ => exact absurd hf (of_decide_eq_true rfl)

/-- A command that applies bell-class values and is no cold reset is a bell, an application before the bell, a lock of a path or a
reset of the fabric domain. -/
theorem applier_cases {c : Instr} (ha : appliesBellClass c = true) (hc : isColdReset c = false) :
    familyOf c ∈ [Family.root, Family.mesh, Family.fold, Family.bus] ∨ c = .warmReset ∨ c = .fabPowerLoss ∨ c = .eraseDone := by
  cases c with
  | bell | pathLockDone | preBellApply => exact .inl (of_decide_eq_true rfl)
  | warmReset | fabPowerLoss | eraseDone => simp
  | powerOnReset | powerOnResetRelease | coldReset => exact nomatch hc
  | _ => exact nomatch ha

/-- The commands of the later chapters that write no register. -/
theorem clockKept_of_later {c : Instr} {s : State} (hf : familyOf c ∉ [Family.root, Family.mesh, Family.fold]) (hr : regTarget c = none)
    (hc : isColdReset c = false) (ht : s.time.counter + 1 < 2 ^ 64) (hb : s.root.bypTarget + 5 < 2 ^ 64) : Lands (ClockKept s) (exec c s) := by
  rcases hp : portBeat c with _ | b
  · rcases hfam : familyOf c
    case root | mesh | fold => simp [hfam] at hf
    case rcg => exact lands_clockKept (offClock_rcg s hfam hr hp)
    case xing => exact lands_clockKept (offClock_xing s hfam hr hp)
    case fcst => exact lands_clockKept (offClock_fcst s hfam hr hp)
    case zone => exact lands_clockKept (offClock_zone s hfam hr)
    case flock => exact lands_clockKept (offClock_flock s hfam hr)
    case tally => exact lands_clockKept (offClock_tally s hfam hr)
    case cal => exact lands_clockKept (offClock_cal s hfam hr hp)
    case muster => exact lands_clockKept (offClock_muster s hfam hr)
    case core => exact lands_clockKept (offClock_core s hfam hr hp)
    case mailbox => exact lands_clockKept (offClock_mailbox s hfam hr)
    case bus => exact lands_clockKept (offClock_bus s hfam hr)
    case power =>
      by_cases ha : appliesBellClass c = true
      · have hreset := (applier_cases ha hc).resolve_left (by simp [hfam])
        exact fun t h => .of_time (time_fabricReset s hreset t h)
      · by_cases hi : ∃ x, c = .i2cTransaction x
        · obtain ⟨x, rfl⟩ := hi
          exact clockKept_i2cTransaction x s
        · exact lands_clockKept (offClock_power s hfam hr (by simpa using ha) fun x h => hi ⟨x, h⟩)
    case tick =>
      cases c with
      | tickEdge bypassEdge phases => exact clockKept_tickEdge bypassEdge phases ht hb
      | issuedEdge r dcoAt at16 act => exact lands_clockKept (offClock_issuedEdge r dcoAt at16 act s)
      | _ => exact nomatch hfam
  · exact lands_clockKept (offClock_beat s hp)

/-- No command but a cold reset makes the counter smaller once the first bell has rung, nor forgets that bell (R76, R77). -/
theorem clockKept_exec {c : Instr} {s : State} (hc : isColdReset c = false) (ht : s.time.counter + 1 < 2 ^ 64)
    (hb : s.root.bypTarget + 5 < 2 ^ 64) : Lands (ClockKept s) (exec c s) := by
  by_cases hf : familyOf c ∈ [Family.root, Family.mesh, Family.fold]
  · exact clockKept_of_root s hf
  · rcases hr : regTarget c with _ | ⟨w, a⟩
    · exact clockKept_of_later hf hr hc ht hb
    · by_cases hw : ∃ w addr v, c = .regWrite w addr v
      · obtain ⟨w, addr, v, rfl⟩ := hw
        exact lands_next.mpr (clockKept_busWrite w addr.toNat v s)
      · exact lands_clockKept (offClock_regTarget s hr hf fun w addr v h => hw ⟨w, addr, v, h⟩)

/-- Settles O60: every command but a cold reset keeps the clock; only an edge moves the counter, and within its 64 bits it moves on. -/
theorem counterNeverDecreases : Obligations.CounterNeverDecreases := by
  unfold Obligations.CounterNeverDecreases
  intro c s t hc hfirst ht hb hexec
  exact (clockKept_exec hc ht hb t hexec).kept hfirst

end Sys2Proof.Machine
end

