-- ==== Sys2Proof/Proofs/MeshPathUse.lean ====
section
/-!
PROOF. What a mesh path's going out of use, its coming back and the mesh's becoming ready leave of the flocks, and which path is selected
after them (R84, R90, R93, R94).
-/
namespace Sys2Proof.Machine
open Sys2Proof

/-! ### What a path's going out of use, and its coming back, leave of the flocks -/

/-- A flock's selected path and its FAILS: of these the reselection alone touches SEL as paths go out of use or come back (R90, R104). -/
def selFails (s : State) (f : Nat) : BitVec 2 × BitVec 8 := ((flockOf s f).sel, (flockOf s f).fails)

theorem selFails_of_flocks {s t : State} (h : t.flocks = s.flocks) : selFails t = selFails s := by
  funext f
  simp only [selFails, flockOf, h]

theorem selFails_setFlock {f : Nat} {x : Flock} {s : State} (hs : x.sel = (flockOf s f).sel) (hf : x.fails = (flockOf s f).fails) :
    selFails (setFlock f x s) = selFails s := by
  funext g
  by_cases hg : g = f
  · subst hg; simp [selFails, hs, hf]
  · simp [selFails, hg]

theorem selFails_raiseAbout (b : Block) (k x : Nat) (s : State) : selFails (raiseAbout b k x s) = selFails s :=
  selFails_of_flocks (raiseAbout_flocks ..)

theorem selFails_updateSvc (f : Nat) (s : State) : selFails (updateSvc f s) = selFails s := by
  unfold updateSvc
  extract_lets x so sv t u y
  have ht : selFails t = selFails s := ite_view (selFails_raiseAbout ..) rfl
  have hu : selFails u = selFails t := ite_view (selFails_raiseAbout ..) (ite_view (selFails_raiseAbout ..) rfl)
  have hset : selFails (setFlock f { y with spareOut := so, svc := sv } u) = selFails u := selFails_setFlock rfl rfl
  exact hset.trans (hu.trans ht)

theorem selFails_autoExclude (r : Nat) (s : State) : selFails (autoExclude r s) = selFails s := by
  unfold autoExclude
  extract_lets t t'
  exact (selFails_updateSvc ..).trans (selFails_of_flocks (by simp [t', t, leaveContract, disarmXings]))

theorem selFails_clockLost (f : Nat) (s : State) : selFails (clockLost f s) = selFails s :=
  (forAll_view (fun r t => ite_view (selFails_autoExclude r t) rfl) _ _).trans (selFails_setFlock rfl rfl)

/-- A path's going out of use touches SEL by the reselection alone (R90, R93). -/
theorem selFails_pathGone (f : Nat) (s : State) : selFails (pathGone f s) = selFails (reselect f s) := by
  unfold pathGone
  extract_lets t
  split
  · exact (selFails_updateSvc ..).trans (ite_view rfl (selFails_clockLost f t))
  · exact ite_view rfl ((selFails_updateSvc ..).trans ((selFails_raiseAbout ..).trans (selFails_setFlock rfl rfl)))
  · rfl

/-- So does a path's coming into use (R84, R93). -/
theorem selFails_pathBack (f : Nat) (s : State) : selFails (pathBack f s) = selFails (reselect f s) := by
  unfold pathBack
  extract_lets t fl lone u
  have hu : u.flocks = t.flocks := by
    unfold u
    split <;> simp
  have hf : flockOf u f = fl := by simp only [flockOf, hu, fl]
  exact (selFails_updateSvc ..).trans ((selFails_setFlock (by rw [hf]) (by rw [hf])).trans (selFails_of_flocks hu))

theorem fails_reselect (f g : Nat) (s : State) : (flockOf (reselect f s) g).fails = (flockOf s g).fails := by
  unfold reselect
  extract_lets h fl
  split
  · rfl
  · cases h with
    | nil => rfl
    | cons p _ => by_cases hg : g = f <;> simp [hg, fl]

theorem fails_pathGone (f g : Nat) (s : State) : (flockOf (pathGone f s) g).fails = (flockOf s g).fails :=
  (congrArg Prod.snd (congrFun (selFails_pathGone f s) g)).trans (fails_reselect f g s)

/-! ### Which paths are healthy -/

/-- The healthy paths rest on the paths' records but for DUE, the selection and FLOCK_MESH_CTRL (R87, R88, R94). -/
theorem usablePaths_congr {s t : State} (hv : pathView t = pathView s) (hb : t.build = s.build) (f : Nat) : usablePaths t f = usablePaths s f := by
  have huse : pathUsable t f = pathUsable s f := by
    funext p
    have hp := congrFun (congrFun hv f) p
    simp only [pathView, MeshPath.mk.injEq] at hp
    simp only [pathUsable, hp]
  rw [usablePaths, usablePaths, huse, hb]

theorem healthyPaths_congr {s t : State} (f : Nat) (hv : pathView t = pathView s) (hb : t.build = s.build)
    (hn : nowGet t (flockAddr f 0xC) = nowGet s (flockAddr f 0xC)) (hs : (flockOf t f).sel = (flockOf s f).sel) :
    healthyPaths t f = healthyPaths s f := by
  simp only [healthyPaths, usablePaths_congr hv hb f, hn, hs]

theorem mem_usablePaths_of_healthy {s : State} {f p : Nat} (h : p ∈ healthyPaths s f) : p ∈ usablePaths s f := by
  unfold healthyPaths at h
  extract_lets u hs at h
  split at h
  · exact (List.mem_filter.mp h).1
  · split at h
    · next hc => rw [List.mem_singleton.mp h]; simpa using hc
    · exact List.mem_of_mem_take h

theorem lt_of_healthy {s : State} {f p : Nat} (h : p ∈ healthyPaths s f) : p < s.build.paths :=
  List.mem_range.mp (List.mem_filter.mp (mem_usablePaths_of_healthy h)).1

/-- After a reselection the path selected is healthy, where any is (R90). -/
theorem sel_reselect_healthy {f : Nat} {s : State} (hb : s.build.paths ≤ 3) (h : healthyPaths (reselect f s) f ≠ []) :
    (flockOf (reselect f s) f).sel.toNat ∈ healthyPaths (reselect f s) f := by
  by_cases hc : (flockOf s f).sel.toNat ∈ healthyPaths s f
  · have hr : reselect f s = s := by
      unfold reselect
      simp only [List.contains_eq_mem, hc, decide_true, if_true]
    rw [hr]
    exact hc
  · rcases hh : healthyPaths s f with _ | ⟨p, ps⟩
    · have hr : reselect f s = s := by
        simp only [reselect, hh, List.contains_nil, Bool.false_eq_true, if_false]
      rw [hr] at h
      exact absurd hh h
    · have hr : reselect f s = setFlock f { flockOf s f with sel := BitVec.ofNat 2 p } s := by
        rw [hh] at hc
        simp only [reselect, hh, List.contains_eq_mem, hc, decide_false, Bool.false_eq_true, if_false]
      have hp : p ∈ healthyPaths s f := by simp [hh]
      have hsel : (flockOf (reselect f s) f).sel.toNat = p := by
        have := lt_of_healthy hp
        simp only [hr, flockOf_setFlock, if_true, BitVec.toNat_ofNat]
        omega
      have huse : usablePaths (reselect f s) f = usablePaths s f := usablePaths_congr (pathView_reselect f s) (by rw [hr]; rfl) f
      have hnow : nowGet (reselect f s) (flockAddr f 0xC) = nowGet s (flockAddr f 0xC) := by rw [hr]; rfl
      have hpu := mem_usablePaths_of_healthy hp
      rw [hsel, healthyPaths]
      simp only [huse, hnow, hsel, List.contains_eq_mem, hpu, decide_true, if_true]
      split
      · next hne =>
        simp only [healthyPaths] at hp
        rwa [if_pos hne] at hp
      · exact List.mem_singleton_self p

/-! ### What the mesh's becoming ready leaves of a path -/

/-- A mesh path but for the tap selections that a calibration brings. -/
def linkOf (m : MeshPath) : MeshPath := { m with due := false, tapsNew := none }

theorem linkOf_of_view {s t : State} (h : pathView t = pathView s) (f p : Nat) :
    linkOf (pathOf (flockOf t f) p) = linkOf (pathOf (flockOf s f) p) := by
  have hp := congrFun (congrFun h f) p
  simp only [pathView, MeshPath.mk.injEq] at hp
  simp only [linkOf, hp]

theorem linkOf_of_flocks {s t : State} (h : t.flocks = s.flocks) (f p : Nat) :
    linkOf (pathOf (flockOf t f) p) = linkOf (pathOf (flockOf s f) p) := linkOf_of_view (pathView_of_flocks h) f p

/-- Restored taps wait, and nothing else of a path is touched (R352, R357). -/
theorem linkOf_loadTaps {d : Mem} {s : State} {f : Nat} (p : Nat) (hf : f < s.build.flocks) :
    linkOf (pathOf (flockOf (loadTaps d s) f) p) = linkOf (pathOf (flockOf s f) p) := by
  have hflock (g : Nat → Flock → Flock) : flockOf (mapFlocks g s) f = g f (flockOf s f) := by
    simp only [flockOf, mapFlocks, tabGet_tabulate, hf, if_true]
  simp only [loadTaps, hflock, pathOf]
  repeat' split
  all_goals rfl

theorem linkOf_factoryMode {s : State} {f : Nat} (p : Nat) (hf : f < s.build.flocks) :
    linkOf (pathOf (flockOf (factoryMode s) f) p) = linkOf (pathOf (flockOf s f) p) := by
  have himage : SameBut [.gens, .root, .tally] s (loadImage s.cal.base s) := (same_loadImage _ (List.Subset.refl _)).mpr .rfl
  have hb : (loadImage s.cal.base s).build = s.build := himage .build (by decide)
  exact (linkOf_loadTaps p (by rwa [hb])).trans (linkOf_of_flocks (himage .flocks (by decide)) f p)

theorem linkOf_fabricLeaves {s : State} {f : Nat} (p : Nat) (hf : f < s.build.flocks) :
    linkOf (pathOf (flockOf (fabricLeaves s) f) p) = linkOf (pathOf (flockOf s f) p) := by
  unfold fabricLeaves
  extract_lets cf pw t0 pw' t1
  have ht1 : SameBut ([.bellApplied, .bellWritten, .check, .nowRegs, .power] ++ evs .cfg [2, 3]) s t1 := by
    have hup : SameBut ([.bellApplied, .bellWritten, .check, .nowRegs, .power] ++ evs .cfg [2, 3]) s t0 := by
      simp [t0, ↓same_record, SameBut.rfl]
    refine same_ite.mpr ?_
    split
    · exact (same_restoreCommitted _ (by decide)).mpr (by simp [↓same_record, ↓hup])
    · exact hup
  have hrest (u : State) : SameBut ([.gens, .regions] ++ evs .rcg [1, 2, 3]) u (spareLocks (releaseRegions u)) :=
    (same_spareLocks (by decide)).mpr ((same_releaseRegions (by decide)).mpr .rfl)
  have hb : t1.build = s.build := ht1 .build (by decide)
  have hmode : linkOf (pathOf (flockOf (if calMode t1 then t1 else factoryMode t1) f) p) = linkOf (pathOf (flockOf t1 f) p) :=
    ite_view (v := fun u => linkOf (pathOf (flockOf u f) p)) rfl (linkOf_factoryMode p (by rwa [hb]))
  exact (linkOf_of_flocks (hrest _ .flocks (by decide)) f p).trans (hmode.trans (linkOf_of_flocks (ht1 .flocks (by decide)) f p))

theorem linkOf_meshReadyCheck {s : State} {f : Nat} (p : Nat) (hf : f < s.build.flocks) :
    linkOf (pathOf (flockOf (meshReadyCheck s) f) p) = linkOf (pathOf (flockOf s f) p) := by
  unfold meshReadyCheck
  extract_lets pw t
  have ht : pathView t = pathView s := forAll_view pathView_pathBack _ { s with power := { s.power with meshReady := true } }
  have hb : t.build = s.build := forAll_view (v := State.build)
    (fun g u => (same_pathBack (l := [.flocks] ++ evs .bell [4] ++ evs .flock [2, 9, 10]) g (List.Subset.refl _)).mpr .rfl .build (by decide)) _
      { s with power := { s.power with meshReady := true } }
  refine ite_view (v := fun u => linkOf (pathOf (flockOf u f) p)) rfl (Eq.trans ?_ (linkOf_of_view ht f p))
  exact ite_view (v := fun u => linkOf (pathOf (flockOf u f) p)) rfl (linkOf_fabricLeaves p (by rwa [hb]))

end Sys2Proof.Machine
end

