-- ==== Sys2Proof/Proofs/MeshCommands.lean ====
section
/-!
PROOF. The commands of Bellwether time and the tick mesh: snapshots and loads of the counter, frames, locking, tracking, failing and
returning paths, and FLOCK_MESH_CTRL (R77 to R106).
-/
namespace Sys2Proof.Machine
open Sys2Proof

/-! ### Snapshots and loads -/

theorem snapOf_snapPut (set : Nat) (p : Port) (n : Snap) (s : State) : snapOf (snapPut set p n s) set p = n := by
  simp [snapOf, snapPut]

theorem completes_bellSnapReq {s : State} {w : Wr} {v : Word} (hw : Performs w 0x1000 s) (htag : BitVec.ofNat 8 (fld v 0 8) ≠ (snapOf s 0 w.port).tag) :
    Completes (.bellSnapReq w v) s (fun t => snapOf t 0 w.port =
      ⟨true, BitVec.ofNat 8 (fld v 0 8), 0, s.root.bypass, [BitVec.ofNat 32 s.time.counter, BitVec.ofNat 32 (s.time.counter / 2 ^ 32)]⟩) := by
  have hput : SameBut [.nowRegs, .answers] s (nowPut (portKey w.port 0x1000) v (answered s)) :=
    (same_nowPut _ _ (by decide)).mpr (same_answered s (by decide))
  have htag' : BitVec.ofNat 8 (fld v 0 8) ≠ (snapOf (nowPut (portKey w.port 0x1000) v (answered s)) 0 w.port).tag := by
    have hsnaps : (nowPut (portKey w.port 0x1000) v (answered s)).snaps = s.snaps := hput .snaps (by decide)
    simpa only [snapOf, hsnaps] using htag
  have htime : (nowPut (portKey w.port 0x1000) v (answered s)).time = s.time := hput .time (by decide)
  have hroot : (nowPut (portKey w.port 0x1000) v (answered s)).root = s.root := hput .root (by decide)
  refine ⟨_, congrArg Host.Outcome.next (regWrite_performed hw), ?_⟩
  simp only [writeBellSnap, htag', if_false, snapOf_snapPut, htime, hroot]

/-- The state in which a load is made: the TAG is taken, and the fields of VALUE stand (R77, R101, R102). -/
def loadAsked (v : Word) (s : State) : State :=
  let s := nowPut 0x1018 v s
  { s with time := { s.time with loadTag := BitVec.ofNat 8 (fld v 0 8), loadAt := some (elapsed s) },
           mus := { s.mus with todArmed := s.mus.todArmed || decide (s.mus.todAt = some (elapsed s)) } }

theorem loadAsked_keeps (v : Word) (s : State) : (loadAsked v s).time.loadTag = BitVec.ofNat 8 (fld v 0 8) ∧
    (loadAsked v s).time.counter = s.time.counter ∧ (loadAsked v s).time.firstBell = s.time.firstBell ∧ (loadAsked v s).fold = s.fold := by
  have hput : SameBut [.nowRegs] s (nowPut 0x1018 v s) := (same_nowPut _ _ (List.Subset.refl _)).mpr .rfl
  have htime : (nowPut 0x1018 v s).time = s.time := hput .time (by decide)
  simp only [loadAsked, htime, true_and]
  exact hput .fold (by decide)

/-- The value to be loaded (R101). -/
def loadValue (s : State) : Nat := (nowGet s 0x1010).toNat + 2 ^ 32 * (nowGet s 0x1014).toNat

theorem loadValue_lt (s : State) : loadValue s < 2 ^ 64 := by
  have := (nowGet s 0x1010).isLt
  have := (nowGet s 0x1014).isLt
  unfold loadValue
  omega

/-- A new TAG of BELL_LOAD_CTRL asks for a load of VALUE (R77, R101). -/
theorem exec_bellLoad {s : State} {w : Wr} {v : Word} (hw : Performs w 0x1018 s) (htag : BitVec.ofNat 8 (fld v 0 8) ≠ s.time.loadTag) :
    exec (.bellLoad w v) s = .next (loadCounter (loadValue s) (loadAsked v (answered s))) := by
  have htime : (nowPut 0x1018 v (answered s)).time = s.time :=
    (same_nowPut (l := [.nowRegs, .answers]) _ _ (by decide)).mpr (same_answered s (by decide)) .time (by decide)
  have hother (k : Nat) (hk : k ≠ 0x1018) : nowGet (loadAsked v (answered s)) k = nowGet s k :=
    (nowGet_put_other v (answered s) hk).trans (nowGet_answered s k)
  have hvalue : loadValue (loadAsked v (answered s)) = loadValue s := by
    simp only [loadValue, hother _ (by decide : (0x1010 : Nat) ≠ 0x1018), hother _ (by decide : (0x1014 : Nat) ≠ 0x1018)]
  refine congrArg Host.Outcome.next ((regWrite_performed hw).trans ?_)
  rw [← hvalue]
  simp only [writeBellLoad, htime, htag, if_false]
  rfl

/-- Before the first bell the counter takes the value (R77). -/
theorem loadCounter_taken {s : State} {value : Nat} (h : s.time.firstBell = false) :
    (loadCounter value s).time.counter = value % 2 ^ 64 ∧ (loadCounter value s).time.loadTag = s.time.loadTag ∧
    Flagged (loadCounter value s) .bell 0 ∧
    (s.fold.pending = true → (loadCounter value s).fold.pending = false ∧ (loadCounter value s).fold.rejCause = 4 ∧
      Flagged (loadCounter value s) .fold 5) := by
  have hopen (u : State) : SameBut [.regions] u (resumeOpen u) := (same_resumeOpen (List.Subset.refl _)).mpr .rfl
  unfold loadCounter
  rw [if_neg (by simp [h])]
  extract_lets n led root time t u
  have ht : Flagged u .bell 0 := flagged_raise _ _ (by decide)
  split
  · have hlast (r : State) (hr : Flagged r .bell 0) : Flagged (raise .fold 5 (resumeOpen r)) .bell 0 :=
      flagged_raise_of 5 (flagged_of_sameBut (hopen r) (by decide) hr)
    refine ⟨?_, ?_, hlast _ ht, fun _ => ⟨?_, ?_, flagged_raise _ _ (by decide)⟩⟩
    · exact congrArg TimeSt.counter (hopen _ .time (by decide))
    · exact (congrArg TimeSt.loadTag (hopen _ .time (by decide))).trans rfl
    · exact congrArg FoldSt.pending (hopen _ .fold (by decide))
    · exact congrArg FoldSt.rejCause (hopen _ .fold (by decide))
  · next hp => exact ⟨rfl, rfl, ht, fun hs => absurd hs hp⟩

theorem completes_bellLoad {s : State} {w : Wr} {v : Word} (hw : Performs w 0x1018 s) (htag : BitVec.ofNat 8 (fld v 0 8) ≠ s.time.loadTag)
    (hfirst : s.time.firstBell = false) :
    Completes (.bellLoad w v) s (fun t =>
      t.time.loadTag = BitVec.ofNat 8 (fld v 0 8) ∧
      t.time.counter = (nowGet s 0x1010).toNat + 2 ^ 32 * (nowGet s 0x1014).toNat ∧ Flagged t .bell 0 ∧
      (s.fold.pending = true → t.fold.pending = false ∧ t.fold.rejCause = 4 ∧ Flagged t .fold 5)) := by
  obtain ⟨hnew, -, hbell, hfold⟩ := loadAsked_keeps v (answered s)
  obtain ⟨hcounter, hkept, hflag, hpend⟩ := loadCounter_taken (value := loadValue s) (hbell.trans hfirst)
  refine ⟨_, exec_bellLoad hw htag, hkept.trans hnew, hcounter.trans (Nat.mod_eq_of_lt (loadValue_lt s)), hflag, fun hs => hpend ?_⟩
  rw [hfold]
  exact hs

theorem completes_bellLoad_late {s : State} {w : Wr} {v : Word} (hw : Performs w 0x1018 s) (htag : BitVec.ofNat 8 (fld v 0 8) ≠ s.time.loadTag)
    (hfirst : s.time.firstBell = true) :
    Completes (.bellLoad w v) s (fun t =>
      t.time.loadTag = BitVec.ofNat 8 (fld v 0 8) ∧ t.time.counter = s.time.counter ∧ Flagged t .bell 1) := by
  obtain ⟨hnew, hcounter, hbell, -⟩ := loadAsked_keeps v (answered s)
  have hload : loadCounter (loadValue s) (loadAsked v (answered s)) = raise .bell 1 (loadAsked v (answered s)) :=
    if_pos (hbell.trans hfirst)
  refine ⟨_, (exec_bellLoad hw htag).trans (congrArg _ hload), hnew, hcounter, flagged_raise _ _ (by decide)⟩

/-! ### Broadcast frames -/

section
variable {s : State} {f p : Nat} {fr : BitVec 128} (hpath : isPath s f p = true) (hup : s.power.meshUp = true)

/-- A path's record after a good frame, before a MESH_SET: the replica checked, loaded or reloaded (R82, R84, R88). -/
def replicaAfter (s : State) (fr : BitVec 128) (m : MeshPath) : MeshPath :=
  let t : Int := frameT fr + m.m.toNat
  let m := { m with crcBad := 0 }
  if m.mValid && !m.repValid then { m with repBase := t + 128 - s.time.frameTot, repValid := true, repFrom := s.time.frameTot, mismatch := false }
  else if m.repValid && frameLoad fr then { m with repBase := t - s.time.frameLast, repFrom := s.time.frameTot, mismatch := false }
  else if m.repValid then { m with mismatch := decide (t ≠ m.repBase + s.time.frameLast) }
  else m

theorem replicaAfter_crcBad (s : State) (fr : BitVec 128) (m : MeshPath) : (replicaAfter s fr m).crcBad = 0 := by
  simp only [replicaAfter]
  repeat' split
  all_goals rfl

theorem replicaAfter_locked (s : State) (fr : BitVec 128) (m : MeshPath) : (replicaAfter s fr m).locked = m.locked := by
  simp only [replicaAfter]
  repeat' split
  all_goals rfl

theorem replicaAfter_check {m : MeshPath} (hr : m.repValid = true) (hl : frameLoad fr = false) :
    replicaAfter s fr m = { m with crcBad := 0, mismatch := decide ((frameT fr : Int) + m.m.toNat ≠ m.repBase + s.time.frameLast) } := by
  simp [replicaAfter, hr, hl]

theorem replicaAfter_reload {m : MeshPath} (hr : m.repValid = true) (hl : frameLoad fr = true) :
    replicaAfter s fr m = { m with crcBad := 0, repBase := (frameT fr : Int) + m.m.toNat - s.time.frameLast, repFrom := s.time.frameTot,
                                   mismatch := false } := by
  simp [replicaAfter, hr, hl]

theorem replicaAfter_load {m : MeshPath} (hr : m.repValid = false) (hm : m.mValid = true) :
    replicaAfter s fr m = { m with crcBad := 0, repBase := (frameT fr : Int) + m.m.toNat + 128 - s.time.frameTot, repValid := true,
                                   repFrom := s.time.frameTot, mismatch := false } := by
  simp [replicaAfter, hr, hm]

/-- The clean time apart, its start anew leaves a path's record alone (R88, R92). -/
theorem cleanAgain_eq (s : State) (b : Bool) (m : MeshPath) : ∃ c, cleanAgain s b m = { m with cleanFrom := c } := by
  unfold cleanAgain
  split
  · exact ⟨_, rfl⟩
  · exact ⟨m.cleanFrom, rfl⟩

include hpath hup

theorem exec_broadcastFrame_bad (hbad : frameGood fr = false) : ∃ c, exec (.broadcastFrame f p fr) s =
    .next (putPath f p { pathOf (flockOf s f) p with crcBad := (pathOf (flockOf s f) p).crcBad + 1, cleanFrom := c } s) := by
  obtain ⟨c, hc⟩ := cleanAgain_eq s (flockOf s f).noClock { pathOf (flockOf s f) p with crcBad := (pathOf (flockOf s f) p).crcBad + 1 }
  refine ⟨c, ?_⟩
  change execBroadcastFrame f p fr s = _
  simp only [execBroadcastFrame, hpath, hup, hbad, hc, if_true, Bool.not_true, Bool.not_false, Bool.false_eq_true, if_false]
  rfl

theorem exec_broadcastFrame_good (hsync : frameSync fr = true) (hgood : frameGood fr = true) : ∃ c, exec (.broadcastFrame f p fr) s =
    .next (putPath f p { takeMeshSet s.root.bypass (meshSetFor fr f p) (replicaAfter s fr (pathOf (flockOf s f) p)) with cleanFrom := c } s) := by
  obtain ⟨c, hc⟩ := cleanAgain_eq s (flockOf s f).noClock
    (takeMeshSet s.root.bypass (meshSetFor fr f p) (replicaAfter s fr (pathOf (flockOf s f) p)))
  refine ⟨c, ?_⟩
  rw [← hc]
  change execBroadcastFrame f p fr s = _
  simp only [execBroadcastFrame, hpath, hup, hsync, hgood, if_true, Bool.not_true, Bool.false_eq_true, if_false]
  rfl

theorem completes_broadcastFrame_bad (hbad : frameGood fr = false) : Completes (.broadcastFrame f p fr) s (fun t =>
    (pathOf (flockOf t f) p).crcBad = (pathOf (flockOf s f) p).crcBad + 1) := by
  obtain ⟨c, hexec⟩ := exec_broadcastFrame_bad hpath hup hbad
  exact ⟨_, hexec, congrArg MeshPath.crcBad (pathOf_putPath ..)⟩

section
variable (hsync : frameSync fr = true) (hgood : frameGood fr = true)
include hsync hgood

theorem completes_broadcastFrame_check (hset : meshSetFor fr f p = none) (hr : (pathOf (flockOf s f) p).repValid = true) :
    Completes (.broadcastFrame f p fr) s (fun t =>
      (pathOf (flockOf t f) p).crcBad = 0 ∧
      (frameLoad fr = false → ((pathOf (flockOf t f) p).mismatch = true ↔
        ((frameT fr : Int) + (pathOf (flockOf s f) p).m.toNat ≠ (pathOf (flockOf s f) p).repBase + s.time.frameLast))) ∧
      (frameLoad fr = true → (pathOf (flockOf t f) p).mismatch = false ∧
        (pathOf (flockOf t f) p).repBase = (frameT fr : Int) + (pathOf (flockOf s f) p).m.toNat - s.time.frameLast)) := by
  obtain ⟨c, hexec⟩ := exec_broadcastFrame_good hpath hup hsync hgood
  refine ⟨_, hexec, ?_⟩
  simp only [pathOf_putPath, hset, takeMeshSet]
  refine ⟨replicaAfter_crcBad .., fun hl => ?_, fun hl => ?_⟩
  · rw [replicaAfter_check hr hl]
    exact decide_eq_true_iff
  · rw [replicaAfter_reload hr hl]
    exact ⟨rfl, rfl⟩

theorem completes_broadcastFrame_load (hset : meshSetFor fr f p = none) (hr : (pathOf (flockOf s f) p).repValid = false)
    (hm : (pathOf (flockOf s f) p).mValid = true) :
    Completes (.broadcastFrame f p fr) s (fun t =>
      (pathOf (flockOf t f) p).crcBad = 0 ∧ (pathOf (flockOf t f) p).repValid = true ∧ (pathOf (flockOf t f) p).mismatch = false ∧
      (pathOf (flockOf t f) p).repBase = (frameT fr : Int) + (pathOf (flockOf s f) p).m.toNat + 128 - s.time.frameTot) := by
  obtain ⟨c, hexec⟩ := exec_broadcastFrame_good hpath hup hsync hgood
  refine ⟨_, hexec, ?_⟩
  simp only [pathOf_putPath, hset, takeMeshSet, replicaAfter_load hr hm, and_self]

theorem completes_broadcastFrame_set {lat : Nat} {ok : Bool} (hset : meshSetFor fr f p = some (lat, ok))
    (hfree : s.root.bypass = false ∨ (pathOf (flockOf s f) p).locked = false) :
    Completes (.broadcastFrame f p fr) s (fun t =>
      (pathOf (flockOf t f) p).m = BitVec.ofNat 6 lat ∧ (pathOf (flockOf t f) p).mValid = ok ∧ (pathOf (flockOf t f) p).repValid = false) := by
  obtain ⟨c, hexec⟩ := exec_broadcastFrame_good hpath hup hsync hgood
  have hnot : (s.root.bypass && (replicaAfter s fr (pathOf (flockOf s f) p)).locked) = false := by
    rw [replicaAfter_locked]
    rcases hfree with h | h <;> simp [h]
  refine ⟨_, hexec, ?_⟩
  simp only [pathOf_putPath, hset, takeMeshSet, hnot, Bool.false_eq_true, if_false, and_self]

end
end

/-! ### Locking and tracking -/

theorem isPath_lt {s : State} {f p : Nat} (h : isPath s f p = true) : f < s.build.flocks := by
  simp only [isPath, Bool.and_eq_true, decide_eq_true_eq] at h
  exact h.1

/-- A path's record as it locks (R84, R92, R352). -/
def lockedPath (s : State) (d : PathDelay) (m : MeshPath) : MeshPath :=
  { m with locked := true, calOut := false, tapsOld := none, delta := d.delta, crcBad := 0, mismatch := false,
           cleanFrom := s.time.total, trackAt := elapsed s }

/-- The conditions of a lock (R81, R84, R92). -/
def lockMet (s : State) (m : MeshPath) (d : PathDelay) (fr : BitVec 128) : Bool :=
  s.power.meshUp && !s.root.bypass && s.root.refOk && m.mValid && m.repValid && !m.locked && pathFits m.m.toNat d && frameSync fr &&
    frameGood fr && decide (m.repFrom ≤ s.time.frameLast) && decide ((frameT fr : Int) + m.m.toNat = m.repBase + s.time.frameLast)

section
variable {s : State} {f p : Nat} {d : PathDelay} {fr : BitVec 128} (hpath : isPath s f p = true)
include hpath

theorem exec_pathLockDone : exec (.pathLockDone f p d fr) s = .next (if lockMet s (pathOf (flockOf s f) p) d fr then
      meshReadyCheck (if (pathOf (flockOf s f) p).failed then putPath f p (lockedPath s d (pathOf (flockOf s f) p)) s
        else pathBack f (putPath f p (lockedPath s d (pathOf (flockOf s f) p)) s))
    else s) := by
  change execPathLockDone f p d fr s = _
  simp only [execPathLockDone, hpath, if_true, apply_ite Host.Outcome.next]
  rfl

theorem completes_pathLockDone (hmet : lockMet s (pathOf (flockOf s f) p) d fr = true) :
    Completes (.pathLockDone f p d fr) s (fun t =>
      (pathOf (flockOf t f) p).locked = true ∧ (pathOf (flockOf t f) p).delta = d.delta ∧ (pathOf (flockOf t f) p).calOut = false ∧
      (pathOf (flockOf t f) p).failed = (pathOf (flockOf s f) p).failed ∧ (pathOf (flockOf t f) p).cleanFrom = s.time.total) := by
  let u := putPath f p (lockedPath s d (pathOf (flockOf s f) p)) s
  have hback : SameBut ([.flocks] ++ evs .bell [4] ++ evs .flock [2, 9, 10]) u (if (pathOf (flockOf s f) p).failed then u else pathBack f u) :=
    same_ite.mpr (by split <;> [exact .rfl; exact (same_pathBack f (List.Subset.refl _)).mpr .rfl])
  have hview : linkOf (pathOf (flockOf (meshReadyCheck (if (pathOf (flockOf s f) p).failed then u else pathBack f u)) f) p) =
      linkOf (lockedPath s d (pathOf (flockOf s f) p)) :=
    calc linkOf (pathOf (flockOf (meshReadyCheck (if (pathOf (flockOf s f) p).failed then u else pathBack f u)) f) p)
        = linkOf (pathOf (flockOf (if (pathOf (flockOf s f) p).failed then u else pathBack f u) f) p) :=
          linkOf_meshReadyCheck p (by rw [show _ = s.build from hback .build (by decide)]; exact isPath_lt hpath)
      _ = linkOf (pathOf (flockOf u f) p) := linkOf_of_view (ite_view rfl (pathView_pathBack f u)) f p
      _ = linkOf (lockedPath s d (pathOf (flockOf s f) p)) := congrArg linkOf (pathOf_putPath ..)
  simp only [linkOf, lockedPath, MeshPath.mk.injEq] at hview
  obtain ⟨hlocked, hfailed, hout, -, -, hdelta, -, -, -, -, -, -, hclean, -⟩ := hview
  exact ⟨_, (exec_pathLockDone hpath).trans (congrArg _ (if_pos hmet)), hlocked, hdelta, hout, hfailed, hclean⟩

theorem completes_pathLockDone_none (hmet : lockMet s (pathOf (flockOf s f) p) d fr = false) :
    Completes (.pathLockDone f p d fr) s (fun t => t = s) :=
  ⟨_, exec_pathLockDone hpath, if_neg (by simp [hmet])⟩

end

/-- One step of δ toward the delay, and at a wrap of m the other way (R85). -/
def trackedPath (s : State) (late : Bool) (m : MeshPath) : MeshPath :=
  let m :=
    if late then (if m.delta = 0 then { m with delta := 1023, m := m.m + 1, repBase := m.repBase + 1 } else { m with delta := m.delta - 1 })
    else (if m.delta = 1023 then { m with delta := 0, m := m.m - 1, repBase := m.repBase - 1 } else { m with delta := m.delta + 1 })
  { m with trackAt := elapsed s }

section
variable {s : State} {f p : Nat} (hpath : isPath s f p = true)
include hpath

theorem exec_deltaTrack {late : Bool} (hl : (pathOf (flockOf s f) p).locked = true) (hb : s.root.bypass = false) (hh : s.time.held = false)
    (ht : (pathOf (flockOf s f) p).trackAt + 256 ≤ elapsed s) :
    exec (.deltaTrack f p late) s = .next (putPath f p (trackedPath s late (pathOf (flockOf s f) p)) s) := by
  have hgo : ¬ (!(pathOf (flockOf s f) p).locked || s.root.bypass || s.time.held || decide (elapsed s < (pathOf (flockOf s f) p).trackAt + 256)) = true := by
    simp [hl, hb, hh, ht]
  exact (if_pos hpath).trans (if_neg hgo)

theorem completes_deltaTrack_late (hl : (pathOf (flockOf s f) p).locked = true) (hb : s.root.bypass = false) (hh : s.time.held = false)
    (ht : (pathOf (flockOf s f) p).trackAt + 256 ≤ elapsed s) : Completes (.deltaTrack f p true) s (fun t =>
      ((pathOf (flockOf s f) p).delta = 0 → (pathOf (flockOf t f) p).delta = 1023 ∧
        (pathOf (flockOf t f) p).m = (pathOf (flockOf s f) p).m + 1 ∧ (pathOf (flockOf t f) p).repBase = (pathOf (flockOf s f) p).repBase + 1) ∧
      ((pathOf (flockOf s f) p).delta ≠ 0 → (pathOf (flockOf t f) p).delta = (pathOf (flockOf s f) p).delta - 1 ∧
        (pathOf (flockOf t f) p).m = (pathOf (flockOf s f) p).m)) := by
  refine ⟨_, exec_deltaTrack hpath hl hb hh ht, ?_⟩
  simp only [pathOf_putPath, trackedPath, if_true]
  exact ⟨fun h => by simp only [h, if_true, and_self], fun h => by simp only [h, if_false, and_self]⟩

theorem completes_deltaTrack_early (hl : (pathOf (flockOf s f) p).locked = true) (hb : s.root.bypass = false) (hh : s.time.held = false)
    (ht : (pathOf (flockOf s f) p).trackAt + 256 ≤ elapsed s) : Completes (.deltaTrack f p false) s (fun t =>
      ((pathOf (flockOf s f) p).delta = 1023 → (pathOf (flockOf t f) p).delta = 0 ∧
        (pathOf (flockOf t f) p).m = (pathOf (flockOf s f) p).m - 1 ∧ (pathOf (flockOf t f) p).repBase = (pathOf (flockOf s f) p).repBase - 1) ∧
      ((pathOf (flockOf s f) p).delta ≠ 1023 → (pathOf (flockOf t f) p).delta = (pathOf (flockOf s f) p).delta + 1 ∧
        (pathOf (flockOf t f) p).m = (pathOf (flockOf s f) p).m)) := by
  refine ⟨_, exec_deltaTrack hpath hl hb hh ht, ?_⟩
  simp only [pathOf_putPath, trackedPath, Bool.false_eq_true, if_false]
  exact ⟨fun h => by simp only [h, if_true, and_self], fun h => by simp only [h, if_false, and_self]⟩

theorem completes_deltaTrack_none {late : Bool}
    (h : s.root.bypass = true ∨ s.time.held = true ∨ elapsed s < (pathOf (flockOf s f) p).trackAt + 256) :
    Completes (.deltaTrack f p late) s (fun t => t = s) := by
  refine ⟨s, ?_, rfl⟩
  change execDeltaTrack f p late s = _
  have hstop : (!(pathOf (flockOf s f) p).locked || s.root.bypass || s.time.held || decide (elapsed s < (pathOf (flockOf s f) p).trackAt + 256)) = true := by
    rcases h with h | h | h <;> simp [h]
  simp only [execDeltaTrack, hpath, hstop, if_true]

/-! ### Failing and returning -/

/-- A mismatch of one of two healthy paths: the one not selected fails (R91). -/
def pairFails (s : State) (f p : Nat) (cause : PathFault) : Bool :=
  cause = .mismatch && (healthyPaths s f).length = 2 && (healthyPaths s f).contains p

/-- The path that a PATH_FAIL fails (R88, R91). -/
def failVictim (s : State) (f p : Nat) (cause : PathFault) : Nat :=
  if pairFails s f p cause then ((healthyPaths s f).filter (· ≠ (flockOf s f).sel.toNat)).headD p else p

theorem exec_pathFail {cause : PathFault} (hl : (pathOf (flockOf s f) p).locked = true) (hf : (pathOf (flockOf s f) p).failed = false)
    (hc : faultHolds s f p cause = true) : exec (.pathFail f p cause) s = .next (pathGone f
      (if pairFails s f p cause then raiseAbout .bell 5 f (failPath f (failVictim s f p cause) s) else failPath f (failVictim s f p cause) s)) := by
  change execPathFail f p cause s = _
  simp only [execPathFail, hpath, hl, hf, hc, if_true, Bool.not_false, Bool.and_self]
  rfl

end

/-- A flock's record as a path of it fails (R88, R104). -/
def failedFlock (p : Nat) (x : Flock) : Flock :=
  { withPath x p { pathOf x p with failed := true, locked := false, mValid := false, repValid := false, crcBad := 0, mismatch := false } with
    fails := if x.fails = 255 then 255 else x.fails + 1 }

theorem flockOf_failPath (f p : Nat) (s : State) : flockOf (failPath f p s) f = failedFlock p (flockOf s f) := by
  have hfails (x : Flock) (m : MeshPath) : (withPath x p m).fails = x.fails := by
    unfold withPath
    repeat' split
    all_goals rfl
  have hset : flockOf (failPath f p s) f = _ := (flockOf_setFlock f f _ s).trans (if_pos rfl)
  rw [hset, failedFlock, hfails]

theorem pathOf_failedFlock (p : Nat) (x : Flock) : pathOf (failedFlock p x) p =
    { pathOf x p with failed := true, locked := false, mValid := false, repValid := false, crcBad := 0, mismatch := false } :=
  pathOf_withPath x p _

/-- What goes out of use by a failure leaves the two reports of it (R88, R91). -/
theorem flagged_pathGone {s : State} {f k : Nat} (hk : k ≠ 4) (h : Flagged s .bell k) : Flagged (pathGone f s) .bell k :=
  flagged_of_sameBut ((same_pathGone (s0 := s) (s := s) f (List.Subset.refl _)).mpr .rfl) (by simp [evs, hk]) h

theorem flagged_failPath (f p : Nat) (s : State) : Flagged (failPath f p s) .bell 2 := flagged_raiseAbout _ .bell _ (by decide)

section
variable {s : State} {f p : Nat} (hpath : isPath s f p = true)
include hpath

theorem completes_pathFail {cause : PathFault} (hl : (pathOf (flockOf s f) p).locked = true) (hf : (pathOf (flockOf s f) p).failed = false)
    (hc : faultHolds s f p cause = true) (hne : cause ≠ .mismatch) : Completes (.pathFail f p cause) s (fun t =>
      (pathOf (flockOf t f) p).failed = true ∧ (pathOf (flockOf t f) p).locked = false ∧ (pathOf (flockOf t f) p).mValid = false ∧
      (pathOf (flockOf t f) p).repValid = false ∧ Flagged t .bell 2 ∧
      ((flockOf t f).fails = if (flockOf s f).fails = 255 then 255 else (flockOf s f).fails + 1)) := by
  have hpair : pairFails s f p cause = false := by simp [pairFails, hne]
  have hgone : linkOf (pathOf (flockOf (pathGone f (failPath f p s)) f) p) = linkOf (pathOf (flockOf (failPath f p s) f) p) :=
    linkOf_of_view (pathView_pathGone f _) f p
  rw [flockOf_failPath, pathOf_failedFlock] at hgone
  simp only [linkOf, MeshPath.mk.injEq] at hgone
  obtain ⟨hlocked, hfailed, -, -, hvalid, -, -, hrep, -⟩ := hgone
  refine ⟨pathGone f (failPath f p s), ?_, hfailed, hlocked, hvalid, hrep, flagged_pathGone (by decide) (flagged_failPath f p s), ?_⟩
  · simp only [exec_pathFail hpath hl hf hc, failVictim, hpair, Bool.false_eq_true, if_false]
  · rw [fails_pathGone, flockOf_failPath, failedFlock]

theorem completes_pathFail_pair (hl : (pathOf (flockOf s f) p).locked = true) (hf : (pathOf (flockOf s f) p).failed = false)
    (hc : faultHolds s f p .mismatch = true) (htwo : (healthyPaths s f).length = 2) (hin : (healthyPaths s f).contains p = true) :
    Completes (.pathFail f p .mismatch) s (fun t => Flagged t .bell 2 ∧ Flagged t .bell 5) := by
  have hpair : pairFails s f p .mismatch = true := by simp only [pairFails, htwo, hin, decide_true, Bool.and_self]
  refine ⟨_, exec_pathFail hpath hl hf hc, ?_⟩
  rw [if_pos hpair]
  exact ⟨flagged_pathGone (by decide) (flagged_raiseAbout_of _ _ (flagged_failPath ..)),
    flagged_pathGone (by decide) (flagged_raiseAbout _ .bell _ (by decide))⟩

/-- No path fails while the counter is held, nor one beside which no other is locked but where it is judged alone (R88, R89, R93). -/
theorem completes_pathFail_none {cause : PathFault} (h : s.time.held = true ∨ (judgedAlone s f p = false ∧ otherLocked s f p = [])) :
    Completes (.pathFail f p cause) s (fun t => t = s) := by
  have hc : faultHolds s f p cause = false := by
    rcases h with h | ⟨hj, ho⟩
    · simp only [faultHolds, h, Bool.not_true, Bool.false_and]
    · simp only [faultHolds, hj, ho, List.isEmpty_nil, Bool.not_true, Bool.or_self, Bool.and_false, Bool.false_and]
  refine ⟨s, ?_, rfl⟩
  change execPathFail f p cause s = _
  simp only [execPathFail, hpath, hc, if_true, Bool.and_false, Bool.false_and, Bool.false_eq_true, if_false]

theorem completes_pathReturn (hf : (pathOf (flockOf s f) p).failed = true) (hl : (pathOf (flockOf s f) p).locked = true)
    (hm : (pathOf (flockOf s f) p).mismatch = false) (hcrc : (pathOf (flockOf s f) p).crcBad < (if (flockOf s f).noClock then 1 else 2))
    (hclean : (pathOf (flockOf s f) p).cleanFrom + 65536 ≤ s.time.total) : Completes (.pathReturn f p) s (fun t =>
      (pathOf (flockOf t f) p).failed = false ∧ (pathOf (flockOf t f) p).locked = true ∧ Flagged t .bell 3) := by
  let u := raiseAbout .bell 3 f (putPath f p { pathOf (flockOf s f) p with failed := false } s)
  have hexec : exec (.pathReturn f p) s = .next (pathBack f u) := by
    have hgo : ((pathOf (flockOf s f) p).failed && (pathOf (flockOf s f) p).locked && !(pathOf (flockOf s f) p).mismatch &&
        decide ((pathOf (flockOf s f) p).crcBad < (if (flockOf s f).noClock then 1 else 2)) &&
        decide ((pathOf (flockOf s f) p).cleanFrom + 65536 ≤ s.time.total)) = true := by
      simp only [hf, hl, hm, hcrc, hclean, Bool.not_false, Bool.and_self, decide_true]
    exact (if_pos hpath).trans (if_pos hgo)
  have hback : linkOf (pathOf (flockOf (pathBack f u) f) p) = linkOf { pathOf (flockOf s f) p with failed := false } :=
    (linkOf_of_view ((pathView_pathBack f u).trans (pathView_of_flocks (raiseAbout_flocks ..))) f p).trans (congrArg linkOf (pathOf_putPath ..))
  simp only [linkOf, MeshPath.mk.injEq] at hback
  obtain ⟨hlocked, hfailed, -⟩ := hback
  have hflag : Flagged u .bell 3 := flagged_raiseAbout _ .bell _ (by decide)
  exact ⟨_, hexec, hfailed, hlocked.trans hl,
    flagged_of_sameBut ((same_pathBack (s0 := u) (s := u) f (List.Subset.refl _)).mpr .rfl) (by decide) hflag⟩

end

/-! ### FLOCK_MESH_CTRL -/

/-- FLOCK_MESH_CTRL holds the three DISABLE bits (R106). -/
theorem nowReg_meshCtrl {b : Build} {f : Nat} (x : Nat) (hb : b.valid = true) (hf : f < b.flocks) : nowReg b x (flockAddr f 0xC) = some (7, 0) := by
  have hflocks := flocks_le hb
  have hmod : flockAddr f 0xC % 0x1000000 = flockAddr f 0xC := by
    unfold flockAddr
    omega
  have hlow (k : Nat) (hk : k < 0x10000) : flockAddr f 0xC ≠ k ∧ ¬ flockAddr f 0xC < k := by
    unfold flockAddr
    omega
  have hin : 0x10000 ≤ flockAddr f 0xC ∧ flockAddr f 0xC < 0x10000 + 64 * b.flocks ∧ flockAddr f 0xC % 64 = 0xC := by
    unfold flockAddr
    omega
  simp only [nowReg, hmod, hlow, hin, Nat.reduceLT, decide_false, decide_true, Bool.or_self, Bool.and_false, Bool.false_and, Bool.and_self,
    Bool.false_eq_true, if_false, if_true]

theorem paths_le_of_valid {b : Build} (hb : b.valid = true) : b.paths ≤ 3 := by
  have hspares : b.spares = 2 ∨ b.spares = 1 ∧ b.regions ≤ 2048 := by
    simp only [Build.valid, Bool.and_eq_true, Bool.or_eq_true, beq_iff_eq, decide_eq_true_eq] at hb
    tauto
  unfold Build.paths
  omega

/-- After the reselection that every change of the paths in use makes, the path selected is healthy where any is (R90, R94). -/
theorem sel_healthy_of_reselected {f : Nat} {u t : State} (hb : u.build.paths ≤ 3) (hv : pathView t = pathView u) (ht : t.build = u.build)
    (hn : nowGet t (flockAddr f 0xC) = nowGet u (flockAddr f 0xC)) (hs : selFails t = selFails (reselect f u))
    (h : healthyPaths t f ≠ []) : (flockOf t f).sel.toNat ∈ healthyPaths t f := by
  have hsame : SameBut [.flocks] u (reselect f u) := (same_reselect f (List.Subset.refl _)).mpr .rfl
  have hbuild : (reselect f u).build = u.build := hsame .build (by decide)
  have hroot : (reselect f u).root = u.root := hsame .root (by decide)
  have hnow : nowGet (reselect f u) (flockAddr f 0xC) = nowGet u (flockAddr f 0xC) :=
    nowGet_congr (hsame .nowRegs (by decide)) hbuild (by rw [hroot]) _
  have hsel : (flockOf t f).sel = (flockOf (reselect f u) f).sel := congrArg Prod.fst (congrFun hs f)
  have hhealthy : healthyPaths t f = healthyPaths (reselect f u) f :=
    healthyPaths_congr f (hv.trans (pathView_reselect f u).symm) (ht.trans hbuild.symm) (hn.trans hnow.symm) hsel
  rw [hhealthy] at h ⊢
  rw [hsel]
  exact sel_reselect_healthy hb h

/-- A write of FLOCK_MESH_CTRL stores the DISABLE bits and selects among the paths left in use (R90, R94). -/
theorem writeMeshCtrl_selects {s : State} {f : Nat} (v : Word) (hb : s.build.valid = true) (hf : f < s.build.flocks) :
    nowGet (writeMeshCtrl f v s) (flockAddr f 0xC) = v &&& 7 ∧
    (healthyPaths (writeMeshCtrl f v s) f ≠ [] → (flockOf (writeMeshCtrl f v s) f).sel.toNat ∈ healthyPaths (writeMeshCtrl f v s) f) := by
  let u := nowPut (flockAddr f 0xC) v s
  have hu : u.build = s.build := (same_nowPut (l := [.nowRegs]) _ _ (List.Subset.refl _)).mpr (.rfl (s := s)) .build (by decide)
  have hput : nowGet u (flockAddr f 0xC) = v &&& 7 := nowGet_put v s (nowReg_meshCtrl _ hb hf)
  have hpaths : u.build.paths ≤ 3 := by rw [hu]; exact paths_le_of_valid hb
  have hcase (t : State) (hsame : SameBut ([.flocks, .fold, .regions, .xing] ++ evs .bell [4] ++ evs .flock [2, 9, 10] ++ evs .fold [9]) u t)
      (hv : pathView t = pathView u) (hs : selFails t = selFails (reselect f u)) :
      nowGet t (flockAddr f 0xC) = v &&& 7 ∧ (healthyPaths t f ≠ [] → (flockOf t f).sel.toNat ∈ healthyPaths t f) := by
    have hbuild : t.build = u.build := hsame .build (by decide)
    have hroot : t.root = u.root := hsame .root (by decide)
    have hn : nowGet t (flockAddr f 0xC) = nowGet u (flockAddr f 0xC) := nowGet_congr (hsame .nowRegs (by decide)) hbuild (by rw [hroot]) _
    exact ⟨hn.trans hput, sel_healthy_of_reselected hpaths hv hbuild hn hs⟩
  simp only [writeMeshCtrl]
  split
  · exact hcase _ ((same_pathGone f (List.Subset.refl _)).mpr .rfl) (pathView_pathGone f u) (selFails_pathGone f u)
  · exact hcase _ ((same_pathBack f (by decide)).mpr .rfl) (pathView_pathBack f u) (selFails_pathBack f u)

theorem completes_meshDisable {s : State} {w : Wr} {f : Nat} {v : Word} (hw : Performs w (flockAddr f 0xC) s) (hb : s.build.valid = true)
    (hf : f < s.build.flocks) : Completes (.meshDisable w f v) s (fun t =>
      nowGet t (flockAddr f 0xC) = v &&& 7 ∧ (eventOf t .bell).bits.getLsbD 2 = (eventOf s .bell).bits.getLsbD 2 ∧
      (healthyPaths t f ≠ [] → (flockOf t f).sel.toNat ∈ healthyPaths t f)) := by
  have hexec : exec (.meshDisable w f v) s = .next (writeMeshCtrl f v (answered s)) :=
    congrArg Host.Outcome.next ((regWrite_performed hw).trans (if_pos hf))
  obtain ⟨hnow, hsel⟩ := writeMeshCtrl_selects (s := answered s) v hb hf
  exact ⟨_, hexec, hnow, keeps_meshDisable w v s f _ hexec (.event .bell 2) (of_decide_eq_true rfl), hsel⟩

/-- Settles O9: each command by what it does to a path's record, and the operations that follow by what they leave of it. -/
theorem meshCommands : Obligations.MeshCommands := by
  unfold Obligations.MeshCommands
  refine ⟨fun s w v hw htag => completes_bellSnapReq hw htag, fun s w v hw htag hfirst => completes_bellLoad hw htag hfirst,
    fun s w v hw htag hfirst => completes_bellLoad_late hw htag hfirst,
    fun s f p fr hpath hup hbad => completes_broadcastFrame_bad hpath hup hbad,
    fun s f p fr hpath hup hsync hgood hset hr => completes_broadcastFrame_check hpath hup hsync hgood hset hr,
    fun s f p fr hpath hup hsync hgood hset hr hm => completes_broadcastFrame_load hpath hup hsync hgood hset hr hm,
    fun s f p fr lat ok hpath hup hsync hgood hset hfree => completes_broadcastFrame_set hpath hup hsync hgood hset hfree,
    fun s f p d fr hpath hup hb hok hfits hm hr hl hsync hgood hfrom heq => completes_pathLockDone hpath ?_,
    fun s f p d fr hpath hfrom => completes_pathLockDone_none hpath ?_,
    fun s f p d fr hpath hfits => completes_pathLockDone_none hpath ?_,
    fun s f p late hpath hl hb hh ht hlate => hlate ▸ completes_deltaTrack_late hpath hl hb hh ht,
    fun s f p late hpath hl hb hh ht hlate => hlate ▸ completes_deltaTrack_early hpath hl hb hh ht,
    fun s f p late hpath h => completes_deltaTrack_none hpath h,
    fun s f p cause hpath hl hf hc hne => completes_pathFail hpath hl hf hc hne,
    fun s f p hpath hl hf hc htwo hin => completes_pathFail_pair hpath hl hf hc htwo hin,
    fun s f p cause hpath h => completes_pathFail_none hpath h,
    fun s f p hpath hf hl hm hcrc hclean => completes_pathReturn hpath hf hl hm hcrc hclean,
    fun s w f v hw hb hf => completes_meshDisable hw hb hf⟩
  · simp only [lockMet, hup, hb, hok, hm, hr, hl, hfits, hsync, hgood, hfrom, heq, decide_true, Bool.not_false, Bool.and_self]
  · simp only [lockMet, Nat.not_le.mpr hfrom, decide_false, Bool.and_false, Bool.false_and]
  · simp only [lockMet, hfits, Bool.and_false, Bool.false_and]

end Sys2Proof.Machine
end

