-- ==== Sys2Proof/Proofs/FoldRegisterCommands.lean ====
section
/-!
PROOF. The registers of the folds: exclusion requests, FOLD_TETHER, the statistics and the log, and the pulls they count
(R118, R120, R128, R129, R137, R139, R148 to R150).
-/
namespace Sys2Proof.Machine
open Sys2Proof

/-! ### Writes of "now" registers -/

/-- Storing a "now" register's word changes that register alone, beside the port's answer. -/
theorem same_nowPut_answered (k : Nat) (v : Word) (s : State) : SameBut [.nowRegs, .answers] s (nowPut k v (answered s)) :=
  (same_nowPut _ _ (by decide)).mpr (same_answered s (by decide))

theorem nowGet_raise (b : Block) (k a : Nat) (s : State) : nowGet (raise b k s) a = nowGet s a :=
  nowGet_congr (by simp) (by simp) (by simp) a

/-! ### The word of an exclusion request -/

section
variable (region : BitVec 13) (tag : BitVec 8)

theorem exclWord_region (set : Nat) : fld (exclWord region.toNat set tag.toNat) 0 13 = region.toNat := by
  have := region.isLt
  have := tag.isLt
  rw [exclWord, packWord_three, fld_ofNat _ _ _ (by omega)]
  omega

theorem exclWord_tag (set : Nat) : BitVec.ofNat 8 (fld (exclWord region.toNat set tag.toNat) 24 8) = tag := by
  have := region.isLt
  have := tag.isLt
  rw [exclWord, packWord_three, fld_ofNat _ _ _ (by omega)]
  apply BitVec.eq_of_toNat_eq
  simp only [BitVec.toNat_ofNat, Nat.reducePow]
  omega

theorem exclWord_set (set : Nat) : bitAt (exclWord region.toNat set tag.toNat) 16 = decide (set % 2 = 1) := by
  have hfld : fld (exclWord region.toNat set tag.toNat) 16 1 = set % 2 := by
    have := region.isLt
    have := tag.isLt
    rw [exclWord, packWord_three, fld_ofNat _ _ _ (by omega)]
    omega
  rw [bitAt, Nat.testBit_eq_decide_div_mod_eq, ← hfld, fld, Nat.pow_one]

theorem exclWord_one : bitAt (exclWord region.toNat 1 tag.toNat) 16 = true := exclWord_set region tag 1

theorem exclWord_zero : bitAt (exclWord region.toNat 0 tag.toNat) 16 = false := exclWord_set region tag 0

end

/-! ### Exclusion requests -/

/-- A region that leaves the contract is excluded and parked (R128). -/
theorem leaveContract_parks (r : Nat) (e : Excl) (s : State) :
    (regionOf (leaveContract r e s) r).excl = e ∧ (regionOf (leaveContract r e s) r).parked = true := by
  have hset : regionOf (leaveContract r e s) r = _ := (regionOf_setRegion r r _ s).trans (if_pos rfl)
  rw [hset]
  exact ⟨rfl, rfl⟩

section
variable {s : State} {v : Word} {r : Nat} {tag : BitVec 8} (hregion : fld v 0 13 = r) (htag : BitVec.ofNat 8 (fld v 24 8) = tag)
  (hnew : tag ≠ s.fold.exclTag)
include hregion htag hnew

/-- A request under a new TAG that names no region of the build is refused (R129, R148). -/
theorem writeFoldExclude_unknown (hr : isRegion s r = false) :
    writeFoldExclude v (answered s) = raise .fold 12 (exclAnswer 2 tag r (nowPut 0x3020 v (answered s))) := by
  have hput := same_nowPut_answered 0x3020 v s
  have hfold : (nowPut 0x3020 v (answered s)).fold = s.fold := hput .fold (by decide)
  have hno : isRegion (nowPut 0x3020 v (answered s)) r = false := by
    rw [isRegion, (hput .build (by decide) : _ = s.build)]
    exact hr
  simp only [writeFoldExclude, hregion, htag, hfold, hnew, hno, Bool.not_false, if_true, if_false]

section
variable (hr : isRegion s r = true)
include hr

/-- A new TAG that names a region sets its exclusion or clears it (R128, R129, R148). -/
theorem writeFoldExclude_known {u : State} (hu : nowPut 0x3020 v (answered s) = u) : writeFoldExclude v (answered s) =
    if bitAt v 16 then
      (if (regionOf s r).excl = .no then exclAnswer 0 tag r (leaveContract r .byHost (unclaim r u))
       else if (regionOf s r).readmit then exclAnswer 0 tag r (setRegion r { regionOf s r with readmit := false } u)
       else exclAnswer 1 tag r u)
    else
      (if (regionOf s r).excl ≠ .no && !(regionOf s r).readmit then
         exclAnswer 0 tag r (setRegion r { regionOf s r with readmit := true } u)
       else exclAnswer 1 tag r u) := by
  have hput := same_nowPut_answered 0x3020 v s
  rw [hu] at hput
  have hfold : u.fold = s.fold := hput .fold (by decide)
  have hyes : isRegion u r = true := by
    rw [isRegion, (hput .build (by decide) : _ = s.build)]
    exact hr
  have hrec : regionOf u r = regionOf s r := by rw [regionOf, (hput .regions (by decide) : _ = s.regions), regionOf]
  simp only [writeFoldExclude, hu, hregion, htag, hfold, hnew, hyes, hrec, Bool.not_true, Bool.false_eq_true, if_false]

end
end

section
variable (res : Nat) (region : BitVec 13) (tag : BitVec 8) (s : State)

/-- A request is answered with its outcome, its TAG and its region (R148). -/
theorem exclAnswer_fields : (exclAnswer res tag region.toNat s).fold.exclRes = BitVec.ofNat 2 res ∧
    (exclAnswer res tag region.toNat s).fold.exclTag = tag ∧ (exclAnswer res tag region.toNat s).fold.exclRegion = region :=
  ⟨rfl, rfl, by simp [exclAnswer]⟩

theorem exclAnswer_regions : (exclAnswer res tag region.toNat s).regions = s.regions := rfl

theorem regionOf_exclAnswer (q : Nat) : regionOf (exclAnswer res tag region.toNat s) q = regionOf s q := rfl

end

section
variable {s : State} {w : Wr} {region : BitVec 13} {tag : BitVec 8} (hw : Performs w 0x3020 s) (hnew : tag ≠ s.fold.exclTag)
include hw hnew

section
variable (hr : isRegion s region.toNat = true)
include hr

theorem completes_excludeSet (hno : (regionOf s region.toNat).excl = .no) : Completes (.excludeSet w region tag) s (fun t =>
    (regionOf t region.toNat).excl = .byHost ∧ (regionOf t region.toNat).parked = true ∧ t.fold.exclRes = 0 ∧ t.fold.exclTag = tag ∧
    t.fold.exclRegion = region) := by
  refine completes_write rfl hw ?_
  rw [writeFoldExclude_known (exclWord_region ..) (exclWord_tag ..) hnew hr rfl, exclWord_one, if_pos rfl, if_pos hno, regionOf_exclAnswer]
  obtain ⟨hexcl, hparked⟩ := leaveContract_parks region.toNat .byHost
    (unclaim region.toNat (nowPut 0x3020 (exclWord region.toNat 1 tag.toNat) (answered s)))
  exact ⟨hexcl, hparked, exclAnswer_fields ..⟩

/-- A set of a region that is excluded already is refused, but it withdraws a pending re-admission (R129). -/
theorem completes_excludeSet_again (hex : (regionOf s region.toNat).excl ≠ .no) : Completes (.excludeSet w region tag) s (fun t =>
    (regionOf t region.toNat).readmit = false ∧ (t.fold.exclRes = if (regionOf s region.toNat).readmit then 0 else 1) ∧
    t.fold.exclTag = tag) := by
  have hregions := same_nowPut_answered 0x3020 (exclWord region.toNat 1 tag.toNat) s .regions (by decide)
  refine completes_write rfl hw ?_
  rw [writeFoldExclude_known (exclWord_region ..) (exclWord_tag ..) hnew hr rfl, exclWord_one, if_pos rfl, if_neg hex]
  by_cases hwait : (regionOf s region.toNat).readmit = true
  · obtain ⟨hres, htag, -⟩ := exclAnswer_fields 0 region tag (setRegion region.toNat { regionOf s region.toNat with readmit := false }
      (nowPut 0x3020 (exclWord region.toNat 1 tag.toNat) (answered s)))
    rw [if_pos hwait, if_pos hwait, regionOf_exclAnswer, regionOf_setRegion, if_pos rfl]
    exact ⟨rfl, hres, htag⟩
  · obtain ⟨hres, htag, -⟩ := exclAnswer_fields 1 region tag (nowPut 0x3020 (exclWord region.toNat 1 tag.toNat) (answered s))
    rw [if_neg hwait, if_neg hwait, regionOf_exclAnswer, regionOf, hregions]
    exact ⟨Bool.not_eq_true _ ▸ hwait, hres, htag⟩

theorem completes_excludeClear (hex : (regionOf s region.toNat).excl ≠ .no) (hwait : (regionOf s region.toNat).readmit = false) :
    Completes (.excludeClear w region tag) s (fun t =>
      (regionOf t region.toNat).readmit = true ∧ (regionOf t region.toNat).excl = (regionOf s region.toNat).excl ∧ t.fold.exclRes = 0 ∧
      t.fold.exclTag = tag) := by
  have hgo : ((regionOf s region.toNat).excl ≠ .no && !(regionOf s region.toNat).readmit) = true := by simp [hex, hwait]
  obtain ⟨hres, htag, -⟩ := exclAnswer_fields 0 region tag (setRegion region.toNat { regionOf s region.toNat with readmit := true }
    (nowPut 0x3020 (exclWord region.toNat 0 tag.toNat) (answered s)))
  refine completes_write rfl hw ?_
  rw [writeFoldExclude_known (exclWord_region ..) (exclWord_tag ..) hnew hr rfl, exclWord_zero, if_neg Bool.false_ne_true, if_pos hgo,
    regionOf_exclAnswer, regionOf_setRegion, if_pos rfl]
  exact ⟨rfl, rfl, hres, htag⟩

theorem completes_excludeClear_refused (h : (regionOf s region.toNat).excl = .no ∨ (regionOf s region.toNat).readmit = true) :
    Completes (.excludeClear w region tag) s (fun t =>
      t.regions = s.regions ∧ t.fold.exclRes = 1 ∧ t.fold.exclTag = tag ∧ t.fold.exclRegion = region) := by
  have hstay : ¬ ((regionOf s region.toNat).excl ≠ .no && !(regionOf s region.toNat).readmit) = true := by
    rcases h with h | h <;> simp [h]
  have hregions := same_nowPut_answered 0x3020 (exclWord region.toNat 0 tag.toNat) s .regions (by decide)
  refine completes_write rfl hw ?_
  rw [writeFoldExclude_known (exclWord_region ..) (exclWord_tag ..) hnew hr rfl, exclWord_zero, if_neg Bool.false_ne_true, if_neg hstay,
    exclAnswer_regions]
  exact ⟨hregions, exclAnswer_fields ..⟩

end

/-- A request that names no region of the build leaves every region, and reports its refusal (R129, R148). -/
theorem exclude_unknown {set : Nat} (hr : isRegion s region.toNat = false) {c : Instr} (hc : exec c s =
      .next (regWrite w 0x3020 (exclWord region.toNat set tag.toNat) [] (writeFoldExclude (exclWord region.toNat set tag.toNat)) s)) :
    Completes c s (fun t => t.regions = s.regions ∧ t.fold.exclRes = 2 ∧ t.fold.exclTag = tag ∧ t.fold.exclRegion = region ∧
      Flagged t .fold 12) := by
  have hregions := same_nowPut_answered 0x3020 (exclWord region.toNat set tag.toNat) s .regions (by decide)
  obtain ⟨hres, htag, hreg⟩ := exclAnswer_fields 2 region tag (nowPut 0x3020 (exclWord region.toNat set tag.toNat) (answered s))
  refine completes_write hc hw ?_
  rw [writeFoldExclude_unknown (exclWord_region ..) (exclWord_tag ..) hnew hr]
  simp only [raise_fields]
  exact ⟨hregions, hres, htag, hreg, flagged_raise _ _ (by decide)⟩

end

/-! ### Pulls -/

theorem completes_pull {s : State} {r : Nat} (hr : isRegion s r = true) (hpull : pullsNow s r = true) (hnew : (regionOf s r).pulling = false) :
    Completes (.pull r) s (fun t => (regionOf t r).pulling = true ∧ t.fold.pulls = s.fold.pulls + 1) := by
  let u := setRegion r { regionOf s r with pulling := true } s
  have hset : regionOf u r = { regionOf s r with pulling := true } := (regionOf_setRegion ..).trans (if_pos rfl)
  refine ⟨{ u with fold := { s.fold with pulls := bump s.fold.pulls 1 } }, ?_, congrArg Region.pulling hset, rfl⟩
  change execPull r s = _
  simp only [execPull, hr, hpull, hnew, Bool.not_false, Bool.and_self, if_true]
  rfl

/-! ### FOLD_TETHER, the statistics and the log -/

section
variable {s : State} {w : Wr} {v : Word}

theorem completes_foldTetherWrite (hw : Performs w 0x3004 s) (hc : s.xing.captured = false) (ht : 4 ≤ fld v 0 6) (ht' : fld v 0 6 ≤ 32)
    (hg : 2 ≤ fld v 8 4) (hg' : fld v 8 4 ≤ 8) (hband : fld v 8 4 + 2 ≤ fld v 0 6) :
    Completes (.foldTetherWrite w v) s (fun t => nowGet t 0x3004 = v &&& 0xF3F) := by
  have hstore : writeFoldTether v (answered s) = nowPut 0x3004 v (answered s) := if_neg (by simp [answered, hc, ht, ht', hg, hg', hband])
  refine completes_write rfl hw ?_
  rw [hstore]
  exact nowGet_put v (answered s) rfl

theorem completes_foldTetherWrite_rejected (hw : Performs w 0x3004 s) (h : s.xing.captured = true ∨ fld v 0 6 < 4 ∨ 32 < fld v 0 6 ∨
      fld v 8 4 < 2 ∨ 8 < fld v 8 4 ∨ fld v 0 6 < fld v 8 4 + 2) :
    Completes (.foldTetherWrite w v) s (fun t => nowGet t 0x3004 = nowGet s 0x3004 ∧ Flagged t .fold 6) := by
  have hreject : writeFoldTether v (answered s) = raise .fold 6 (answered s) := by
    refine if_pos ?_
    rw [show (answered s).xing.captured = s.xing.captured from rfl]
    simp only [ Bool.or_eq_true, Bool.not_eq_true', Bool.and_eq_false_iff, decide_eq_false_iff_not]
    exact h.imp id fun h => by omega
  refine completes_write rfl hw ?_
  rw [hreject]
  exact ⟨nowGet_raise .., flagged_raise _ _ (by decide)⟩

theorem completes_foldStatReq (hw : Performs w 0x3028 s) (htag : BitVec.ofNat 8 (fld v 0 8) ≠ (snapOf s 1 w.port).tag) :
    Completes (.foldStatReq w v) s (fun t => snapOf t 1 w.port = ⟨true, BitVec.ofNat 8 (fld v 0 8), 0, false, foldStatWords s⟩) := by
  have hput := same_nowPut_answered (portKey w.port 0x3028) v s
  have hsnap : snapOf (nowPut (portKey w.port 0x3028) v (answered s)) 1 w.port = snapOf s 1 w.port := by
    rw [snapOf, hput .snaps (by decide), snapOf]
  have hwords : foldStatWords (nowPut (portKey w.port 0x3028) v (answered s)) = foldStatWords s := by
    rw [foldStatWords, hput .fold (by decide), foldStatWords]
  refine completes_write rfl hw ?_
  simp only [writeFoldStatReq, hsnap, htag, hwords, if_false, snapOf_snapPut]

theorem completes_foldLogSel (hw : Performs w 0x3050 s) :
    Completes (.foldLogSel w v) s (fun t => tabGet t.logs (portIx w.port) {} = s.fold.log.getD (fld v 0 4) {}) := by
  have hfold : (nowPut (portKey w.port 0x3050) v (answered s)).fold = s.fold := same_nowPut_answered _ v s .fold (by decide)
  refine completes_write rfl hw ?_
  simp only [writeFoldLogSel, tabGet_set_same, hfold]

end

/-- Settles O11: each request and write by what its register's operation makes of the state, and a pull by the record it counts. -/
theorem foldRegisters : Obligations.FoldRegisters := by
  unfold Obligations.FoldRegisters
  refine ⟨fun s r hr hpull hnew => completes_pull hr hpull hnew,
    fun s w region tag hw hnew hr hno => completes_excludeSet hw hnew hr hno,
    fun s w region tag hw hnew hr hex => completes_excludeSet_again hw hnew hr hex,
    fun s w region tag hw hnew hr => ?_,
    fun s w region tag hw hnew hr hex hwait => completes_excludeClear hw hnew hr hex hwait,
    fun s w region tag hw hnew hr h => completes_excludeClear_refused hw hnew hr h,
    fun s w region tag hw hnew hr => exclude_unknown hw hnew hr rfl,
    fun s w v hw hc ht ht' hg hg' hband => completes_foldTetherWrite hw hc ht ht' hg hg' hband,
    fun s w v hw h => completes_foldTetherWrite_rejected hw h,
    fun s w v hw htag => completes_foldStatReq hw htag,
    fun s w v hw => completes_foldLogSel hw⟩
  obtain ⟨t, hexec, hregions, hres, htag, -, hflag⟩ := exclude_unknown hw hnew hr (c := .excludeSet w region tag) rfl
  exact ⟨t, hexec, hres, htag, hregions, hflag⟩

end Sys2Proof.Machine
end

