-- ==== Sys2Proof/Proofs/CrossingStops.lean ====
section
/-!
PROOF. The stops and interlocks of a crossing, the crossing registers and the audit (R122, R196 to R198, R209, R214, R215, R218, R221).
-/
namespace Sys2Proof.Machine
open Sys2Proof

/-! ### Stops and interlocks -/

/-- A counted stop stands on its crossing, and counts there and in the folds' statistics (R122, R137, R198). -/
theorem countStop_counts (x : Nat) (v : Xing) (s : State) :
    xingOf (countStop x v s) x = { v with tstops := v.tstops + 1 } ∧ (countStop x v s).fold.tstops = s.fold.tstops + 1 :=
  ⟨(xingOf_setXing x x _ s).trans (if_pos rfl), rfl⟩

section
variable {s : State} {x : Nat} (hx : isXing s x = true)
include hx

section
variable (ha : (xingOf s x).armed = true)
include ha

section
variable (hfar : bandOf s < (slipOf (xingOf s x)).natAbs)
include hfar

theorem exec_tetherStop_reader (hahead : 0 < slipOf (xingOf s x)) (hs : stoppable s (hookOf s x).reader = true) (hnew : (xingOf s x).stopR = false) :
    exec (.tetherStop x) s = .next (countStop x { xingOf s x with stopR := true } s) := by
  change execTetherStop x s = _
  simp only [execTetherStop, hx, ha, hfar, hahead, hs, hnew, decide_true, Bool.not_false, Bool.and_self, if_true]

theorem exec_tetherStop_writer (hahead : slipOf (xingOf s x) < 0) (hs : stoppable s (hookOf s x).writer = true) (hnew : (xingOf s x).stopW = false) :
    exec (.tetherStop x) s = .next (countStop x { xingOf s x with stopW := true } s) := by
  change execTetherStop x s = _
  simp only [execTetherStop, hx, ha, hfar, Int.not_lt.mpr hahead.le, hs, hnew, decide_true, Bool.not_false, Bool.and_self, if_true, if_false]

theorem completes_tetherStop_reader (hahead : 0 < slipOf (xingOf s x)) (hs : stoppable s (hookOf s x).reader = true)
    (hnew : (xingOf s x).stopR = false) : Completes (.tetherStop x) s (fun t =>
      (xingOf t x).stopR = true ∧ (xingOf t x).stopW = (xingOf s x).stopW ∧ (xingOf t x).tstops = (xingOf s x).tstops + 1 ∧
      t.fold.tstops = s.fold.tstops + 1) := by
  obtain ⟨hstop, hcount⟩ := countStop_counts x { xingOf s x with stopR := true } s
  refine ⟨_, exec_tetherStop_reader hx ha hfar hahead hs hnew, ?_⟩
  beta_reduce
  rw [hstop]
  exact ⟨rfl, rfl, rfl, hcount⟩

theorem completes_tetherStop_writer (hahead : slipOf (xingOf s x) < 0) (hs : stoppable s (hookOf s x).writer = true)
    (hnew : (xingOf s x).stopW = false) : Completes (.tetherStop x) s (fun t =>
      (xingOf t x).stopW = true ∧ (xingOf t x).stopR = (xingOf s x).stopR ∧ (xingOf t x).tstops = (xingOf s x).tstops + 1 ∧
      t.fold.tstops = s.fold.tstops + 1) := by
  obtain ⟨hstop, hcount⟩ := countStop_counts x { xingOf s x with stopW := true } s
  refine ⟨_, exec_tetherStop_writer hx ha hfar hahead hs hnew, ?_⟩
  beta_reduce
  rw [hstop]
  exact ⟨rfl, rfl, rfl, hcount⟩

end

theorem completes_availInterlock (hnew : (xingOf s x).avail = false) (hs : stoppable s (hookOf s x).reader = true)
    (hbeat : beatOn s (hookOf s x).reader x = true) (hblock : availBlocks (xingOf s x) (65536 * s.time.total) = true) :
    Completes (.availInterlock x) s (fun t =>
      (xingOf t x).avail = true ∧ (xingOf t x).availCnt = (xingOf s x).availCnt + 1 ∧ t.fold.tstops = s.fold.tstops + 1) := by
  have hexec : exec (.availInterlock x) s =
      .next (countStop x { xingOf s x with avail := true, availCnt := (xingOf s x).availCnt + 1 } s) := by
    change execAvailInterlock x s = _
    simp only [execAvailInterlock, hx, ha, hnew, hs, hbeat, hblock, Bool.not_false, Bool.and_self, if_true, bump16]
    rfl
  obtain ⟨hstop, hcount⟩ := countStop_counts x { xingOf s x with avail := true, availCnt := (xingOf s x).availCnt + 1 } s
  refine ⟨_, hexec, ?_⟩
  beta_reduce
  rw [hstop]
  exact ⟨rfl, rfl, hcount⟩

theorem completes_roomStop (hnew : (xingOf s x).room = false) (hs : stoppable s (hookOf s x).writer = true)
    (hbeat : beatOn s (hookOf s x).writer x = true) (hblock : roomBlocks (xingOf s x) = true) :
    Completes (.roomStop x) s (fun t =>
      (xingOf t x).room = true ∧ (xingOf t x).roomCnt = (xingOf s x).roomCnt + 1 ∧ Flagged t .xing 7 ∧ t.fold.tstops = s.fold.tstops + 1) := by
  let u := countStop x { xingOf s x with room := true, roomCnt := (xingOf s x).roomCnt + 1 } s
  have hexec : exec (.roomStop x) s = .next (raiseAbout .xing 7 x u) := by
    change execRoomStop x s = _
    unfold execRoomStop
    rw [if_pos hx]
    exact congrArg _ (if_pos (by simp [ha, hnew, hs, hbeat, hblock]))
  obtain ⟨hstop, hcount⟩ := countStop_counts x { xingOf s x with room := true, roomCnt := (xingOf s x).roomCnt + 1 } s
  have hxing : xingOf (raiseAbout .xing 7 x u) x = xingOf u x := by simp only [xingOf, raiseAbout_fields]
  refine ⟨_, hexec, ?_⟩
  beta_reduce
  rw [hxing, hstop]
  exact ⟨rfl, rfl, flagged_raiseAbout _ .xing _ (by decide), hcount⟩

end

theorem completes_tetherStopRelease : Completes (.tetherStopRelease x) s (fun t =>
    (availBlocks (xingOf s x) (tickEnd s) = false → (xingOf t x).avail = false) ∧
    (roomBlocks (xingOf s x) = false → (xingOf t x).room = false) ∧
    ((slipOf (xingOf s x)).natAbs ≤ bandOf s → (xingOf t x).stopR = false ∧ (xingOf t x).stopW = false)) := by
  refine ⟨_, if_pos hx, ?_⟩
  beta_reduce
  rw [xingOf_setXing, if_pos rfl]
  refine ⟨fun h => ?_, fun h => ?_, fun h => ?_⟩
  · simp only [h, Bool.and_false]
  · simp only [h, Bool.and_false]
  · simp only [Nat.not_lt.mpr h, decide_false, Bool.and_false, Bool.false_and, and_self]

end

/-! ### The crossing registers -/

section
variable {s : State} {w : Wr} {v : Word}

theorem xingWords_congr {t : State} (h : t.xing = s.xing) : xingWords t = xingWords s := by
  funext x
  rw [xingWords, xingOf, h, xingWords, xingOf]

theorem completes_xingSel (hw : Performs w 0x5000 s) (htag : BitVec.ofNat 8 (fld v 24 8) ≠ (snapOf s 3 w.port).tag)
    (hx : fld v 0 15 < s.build.xings) : Completes (.xingSel w v) s (fun t =>
      snapOf t 3 w.port = ⟨true, BitVec.ofNat 8 (fld v 24 8), fld v 0 15, false, xingWords s (fld v 0 15)⟩) := by
  have hput := same_nowPut_answered (portKey w.port 0x5000) v s
  have hsnap : snapOf (nowPut (portKey w.port 0x5000) v (answered s)) 3 w.port = snapOf s 3 w.port := by
    rw [snapOf, hput .snaps (by decide), snapOf]
  have hbuild : (nowPut (portKey w.port 0x5000) v (answered s)).build = s.build := hput .build (by decide)
  have hwords : xingWords (nowPut (portKey w.port 0x5000) v (answered s)) = xingWords s := xingWords_congr (hput .xing (by decide))
  refine completes_write rfl hw ?_
  simp only [writeXingSel, hsnap, htag, hbuild, hx, hwords, if_true, if_false, snapOf_snapPut]

theorem completes_xingCfgWrite (hw : Performs w 0x501C s) (hc : s.xing.captured = false) (hm : fld v 0 6 ≤ 50) :
    Completes (.xingCfgWrite w v) s (fun t => nowGet t 0x501C = v &&& 0x3F) := by
  refine completes_write rfl hw ?_
  have hstore : writeXingCfg v (answered s) = nowPut 0x501C v (answered s) := by
    unfold writeXingCfg
    rw [if_neg (by simpa [answered] using hc), if_neg (Nat.not_lt.mpr hm)]
  rw [hstore]
  exact nowGet_put v (answered s) rfl

theorem completes_xingCfgWrite_refused (hw : Performs w 0x501C s) (h : s.xing.captured = true ∨ 50 < fld v 0 6) :
    Completes (.xingCfgWrite w v) s (fun t =>
      nowGet t 0x501C = nowGet s 0x501C ∧ Flagged t .xing (if s.xing.captured then 6 else 9)) := by
  refine completes_write rfl hw ?_
  have hrefuse : writeXingCfg v (answered s) = raise .xing (if s.xing.captured then 6 else 9) (answered s) := by
    unfold writeXingCfg
    by_cases hc : s.xing.captured = true
    · exact (if_pos hc).trans (by rw [if_pos hc])
    · exact (if_neg hc).trans ((if_pos (h.resolve_left hc)).trans (by rw [if_neg hc]))
  rw [hrefuse]
  exact ⟨nowGet_raise .., flagged_raise _ _ (by split <;> decide)⟩

theorem completes_auditEnWrite (hw : Performs w 0x5030 s) : Completes (.auditEnWrite w v) s (fun t => nowGet t 0x5030 = v &&& 1) := by
  refine completes_write rfl hw ?_
  have hput : nowGet (nowPut 0x5030 v (answered s)) 0x5030 = v &&& 1 := nowGet_put v (answered s) rfl
  unfold writeXingAudit
  split <;> exact hput

theorem completes_auditClear (hw : Performs w 0x5030 s) (hclear : bitAt v 1 = true) : Completes (.auditClear w v) s (fun t =>
    t.xing.auditHit = false ∧ t.xing.auditUnpaired = false ∧ t.xing.auditOffset = 0 ∧ t.xing.auditXing = 0) := by
  refine completes_write rfl hw ?_
  simp only [writeXingAudit, hclear, if_true, and_self]

end

/-! ### The audit -/

/-- A failed pairing counts on its crossing, is reported, and is held until the next clear (R209, R221). -/
theorem auditFails_counts (x n : Nat) (unpaired : Bool) (off : Int) (s : State) :
    (xingOf (auditFails x n unpaired off s) x).mismatchCnt = (xingOf s x).mismatchCnt + BitVec.ofNat 16 n ∧
    Flagged (auditFails x n unpaired off s) .xing 3 ∧ (auditFails x n unpaired off s).xing.auditHit = true := by
  unfold auditFails
  extract_lets v t audit u
  have ht : xingOf t x = { v with mismatchCnt := bump16 v.mismatchCnt n } := (xingOf_setXing x x _ s).trans (if_pos rfl)
  have hu : xingOf u x = xingOf t x ∧ u.xing.auditHit = true := by
    unfold u
    split
    · next h => exact ⟨rfl, h⟩
    · exact ⟨rfl, rfl⟩
  have hxing : (raiseAbout .xing 3 x u).xing = u.xing := by simp
  refine ⟨?_, flagged_raiseAbout _ .xing _ (by decide), by rw [hxing]; exact hu.2⟩
  rw [show xingOf (raiseAbout .xing 3 x u) x = xingOf u x by simp only [xingOf, hxing], hu.1, ht]
  rfl

section
variable {s : State} {x : Nat} (hx : isXing s x = true)
include hx

section
variable (hen : bitAt (nowGet s 0x5030) 0 = true) (he : (xingOf s x).enabled = true) (ha : (xingOf s x).armed = true) {m : Nat}
  (hm : (xingOf s x).lat < m)
include hen he ha hm

/-- A mark read outside the fill beats is judged with what was expected (R209). -/
theorem exec_auditMismatch (expect : Expect) : exec (.auditMismatch x (some m) expect) s =
    match expect.beat with
    | some e =>
      if ((e : Int) - m) = 0 then .next (setXing x { xingOf s x with matchCnt := bump16 (xingOf s x).matchCnt 1 } s)
      else if expect.between then .next s
      else if ((e : Int) - m).natAbs ≤ 8 then .next (auditFails x 1 false ((e : Int) - m) s)
      else .next (auditFails x 2 true 0 s)
    | none => .next (auditFails x 1 true 0 s) := by
  change execAuditMismatch x (some m) expect s = _
  have hfilter : (some m).filter (fun m => (xingOf s x).lat < m) = some m := by simp [Option.filter, hm]
  simp only [execAuditMismatch, hx, hen, he, ha, hfilter, Bool.and_self, if_true]
  cases expect.beat <;> rfl

theorem completes_auditMismatch_near {e : Nat} (hne : m ≠ e) (hnear : ((e : Int) - m).natAbs ≤ 8) :
    Completes (.auditMismatch x (some m) ⟨some e, false⟩) s (fun t =>
      (xingOf t x).mismatchCnt = (xingOf s x).mismatchCnt + 1 ∧ Flagged t .xing 3 ∧ t.xing.auditHit = true) := by
  refine ⟨_, ?_, auditFails_counts x 1 false ((e : Int) - m) s⟩
  have hd : ¬ ((e : Int) - m = 0) := by omega
  rw [exec_auditMismatch hx hen he ha hm]
  simp only [hd, hnear, if_true, if_false, Bool.false_eq_true]

theorem completes_auditMismatch_match (b : Bool) : Completes (.auditMismatch x (some m) ⟨some m, b⟩) s (fun t =>
    (xingOf t x).matchCnt = (xingOf s x).matchCnt + 1 ∧ (xingOf t x).mismatchCnt = (xingOf s x).mismatchCnt) := by
  refine ⟨setXing x { xingOf s x with matchCnt := bump16 (xingOf s x).matchCnt 1 } s, ?_, ?_⟩
  · rw [exec_auditMismatch hx hen he ha hm]
    exact if_pos (Int.sub_self _)
  · beta_reduce
    rw [xingOf_setXing, if_pos rfl]
    exact ⟨rfl, rfl⟩

theorem completes_auditMismatch_far {e : Nat} (hfar : 8 < ((e : Int) - m).natAbs) :
    Completes (.auditMismatch x (some m) ⟨some e, false⟩) s (fun t =>
      (xingOf t x).mismatchCnt = (xingOf s x).mismatchCnt + 2 ∧ Flagged t .xing 3 ∧ t.xing.auditHit = true) := by
  refine ⟨_, ?_, auditFails_counts x 2 true 0 s⟩
  have hd : ¬ ((e : Int) - m = 0) := by omega
  rw [exec_auditMismatch hx hen he ha hm]
  simp only [hd, Nat.not_le.mpr hfar, if_false, Bool.false_eq_true]

theorem completes_auditMismatch_alone (b : Bool) : Completes (.auditMismatch x (some m) ⟨none, b⟩) s (fun t =>
    (xingOf t x).mismatchCnt = (xingOf s x).mismatchCnt + 1 ∧ Flagged t .xing 3 ∧ t.xing.auditHit = true) :=
  ⟨_, exec_auditMismatch hx hen he ha hm ⟨none, b⟩, auditFails_counts x 1 true 0 s⟩

end

/-- A crossing that is not armed is not audited, nor is a fill beat (R209). -/
theorem completes_auditMismatch_none {m : Nat} (b : Bool) (h : (xingOf s x).armed = false ∨ m ≤ (xingOf s x).lat) :
    Completes (.auditMismatch x (some m) ⟨none, b⟩) s (fun t => t = s) := by
  refine ⟨s, ?_, rfl⟩
  change execAuditMismatch x (some m) ⟨none, b⟩ s = _
  unfold execAuditMismatch
  rw [if_pos hx]
  split
  · next hjudged =>
    simp only [Bool.and_eq_true] at hjudged
    have hfill : (some m).filter (fun m => (xingOf s x).lat < m) = none := by
      have hm : m ≤ (xingOf s x).lat := h.resolve_left (by simp [hjudged.2])
      simp [Option.filter, hm]
    rw [hfill]
  · rfl

end

/-- Settles O12: each stop by the crossing's record that it counts, each register by what its write stores, and each audit command by the
pair that it judges. -/
theorem crossingCommands : Obligations.CrossingCommands := by
  unfold Obligations.CrossingCommands
  exact ⟨fun s x hx ha hfar hahead hs hnew => completes_tetherStop_reader hx ha hfar hahead hs hnew,
    fun s x hx ha hfar hahead hs hnew => completes_tetherStop_writer hx ha hfar hahead hs hnew,
    fun s x hx ha hnew hs hbeat hblock => completes_availInterlock hx ha hnew hs hbeat hblock,
    fun s x hx ha hnew hs hbeat hblock => completes_roomStop hx ha hnew hs hbeat hblock,
    fun s x hx => completes_tetherStopRelease hx,
    fun s w v hw htag hx => completes_xingSel hw htag hx,
    fun s w v hw hc hm => completes_xingCfgWrite hw hc hm,
    fun s w v hw h => completes_xingCfgWrite_refused hw h,
    fun s w v hw => completes_auditEnWrite hw,
    fun s w v hw hclear => completes_auditClear hw hclear,
    fun s x m e hx hen he ha hm hne hnear => completes_auditMismatch_near hx hen he ha hm hne hnear,
    fun s x m b hx hen he ha hm => completes_auditMismatch_match hx hen he ha hm b,
    fun s x m e hx hen he ha hm hfar => completes_auditMismatch_far hx hen he ha hm hfar,
    fun s x m b hx hen he ha hm => completes_auditMismatch_alone hx hen he ha hm b,
    fun s x m b hx h => completes_auditMismatch_none hx b h⟩

end Sys2Proof.Machine
end

