-- ==== Sys2Proof/Proofs/FoldStarts.lean ====
section
/-!
PROOF. The start of the fold sequence, parking, the grace tail and the calls (R110, R112, R117, R124, R126, R127, R131, R159, R230).
-/
namespace Sys2Proof.Machine
open Sys2Proof

/-! ### The start -/

/-- The checks of a start rest on the mesh, on what is applied and on the build (R110). -/
theorem startChecks_congr {s t : State} (hf : t.flocks = s.flocks) (ha : t.cfgA = s.cfgA) (hb : t.build = s.build) :
    meshReadyNow t = meshReadyNow s ∧ startCfgOk t = startCfgOk s := by
  have hA (k : Nat) : bellA t k = bellA s k := by simp only [bellA, ha, hb]
  refine ⟨by simp only [meshReadyNow, flockOf, hf, hb], ?_⟩
  simp only [startCfgOk, swK, nomOf, cfgF, cfgG, hA, hb]

/-- FOLD_CTRL is stored, and its TAG noted (R140, R141). -/
def startTagged (v : Word) (s : State) : State :=
  { nowPut 0x3010 v (answered s) with fold := { s.fold with startTag := BitVec.ofNat 8 (fld v 0 8) } }

/-- A new TAG asks for a start: it is rejected with the first cause that holds, else it is pending (R110, R140). -/
theorem writeFoldCtrl_new {s : State} {v : Word} (hnew : BitVec.ofNat 8 (fld v 0 8) ≠ s.fold.startTag) :
    writeFoldCtrl v (answered s) =
      if firstWritten s < s.time.counter + 128 then rejectStart 1 (startTagged v s)
      else if meshReadyNow s = false then rejectStart 2 (startTagged v s)
      else if startCfgOk s = false then rejectStart 3 (startTagged v s)
      else if s.fold.started then rejectStart 5 (startTagged v s)
      else { startTagged v s with fold := { (startTagged v s).fold with pending := true, tail := false, firstTick := firstWritten s } } := by
  have hput := same_nowPut_answered 0x3010 v s
  have hfold : (nowPut 0x3010 v (answered s)).fold = s.fold := hput .fold (by decide)
  have htime : (startTagged v s).time = s.time := hput .time (by decide)
  obtain ⟨hmesh, hcfg⟩ : meshReadyNow (startTagged v s) = meshReadyNow s ∧ startCfgOk (startTagged v s) = startCfgOk s :=
    startChecks_congr (hput .flocks (by decide)) (hput .bellApplied (by decide)) (hput .build (by decide))
  have hword {k : Nat} (hk : k ≠ 0x3010) : nowGet (startTagged v s) k = nowGet s k :=
    (nowGet_put_other v (answered s) hk).trans (nowGet_answered s k)
  have hfirst : firstWritten (startTagged v s) = firstWritten s := by
    simp only [firstWritten, hword (by decide : 0x3008 ≠ 0x3010), hword (by decide : 0x300C ≠ 0x3010)]
  unfold writeFoldCtrl
  extract_lets u tag fold t
  have ht : t = startTagged v s := by simp only [t, fold, u, tag, hfold, startTagged]
  rw [if_neg (by rw [hfold]; exact hnew), ht, hfirst, htime, hmesh, hcfg]
  simp only [Bool.not_eq_true']
  rfl

/-- A rejected start tells its cause, and changes nothing of the sequence (R110, R141). -/
theorem rejectStart_says (cause : Nat) (s : State) :
    (rejectStart cause s).fold = { s.fold with rejCause := BitVec.ofNat 4 cause } ∧ Flagged (rejectStart cause s) .fold 5 :=
  ⟨by simp [rejectStart], flagged_raise _ _ (by decide)⟩

section
variable {s : State} {w : Wr} {v : Word} (hw : Performs w 0x3010 s) (hnew : BitVec.ofNat 8 (fld v 0 8) ≠ s.fold.startTag)
include hw hnew

theorem completes_foldStart (htick : s.time.counter + 128 ≤ firstWritten s) (hmesh : meshReadyNow s = true) (hcfg : startCfgOk s = true)
    (hidle : s.fold.started = false) : Completes (.foldStart w v) s (fun t =>
      t.fold.pending = true ∧ t.fold.firstTick = firstWritten s ∧ t.fold.startTag = BitVec.ofNat 8 (fld v 0 8)) := by
  refine completes_write rfl hw ?_
  rw [writeFoldCtrl_new hnew, if_neg (Nat.not_lt.mpr htick), if_neg (by simp [hmesh]), if_neg (by simp [hcfg]), if_neg (by simp [hidle])]
  exact ⟨rfl, rfl, rfl⟩

theorem completes_foldStart_rejected (h : firstWritten s < s.time.counter + 128 ∨ meshReadyNow s = false ∨ startCfgOk s = false ∨
      s.fold.started = true) : Completes (.foldStart w v) s (fun t =>
      t.fold.pending = s.fold.pending ∧ t.fold.startTag = BitVec.ofNat 8 (fld v 0 8) ∧ Flagged t .fold 5 ∧
      (t.fold.rejCause = if firstWritten s < s.time.counter + 128 then 1 else if meshReadyNow s = false then 2 else
        if startCfgOk s = false then 3 else 5)) := by
  have hsays (cause : Nat) : (rejectStart cause (startTagged v s)).fold.pending = s.fold.pending ∧
      (rejectStart cause (startTagged v s)).fold.startTag = BitVec.ofNat 8 (fld v 0 8) ∧
      Flagged (rejectStart cause (startTagged v s)) .fold 5 ∧
      (rejectStart cause (startTagged v s)).fold.rejCause = BitVec.ofNat 4 cause := by
    obtain ⟨hfold, hflag⟩ := rejectStart_says cause (startTagged v s)
    rw [hfold]
    exact ⟨rfl, rfl, hflag, rfl⟩
  refine completes_write rfl hw ?_
  rw [writeFoldCtrl_new hnew]
  by_cases htick : firstWritten s < s.time.counter + 128
  · rw [if_pos htick, if_pos htick]
    exact hsays 1
  rw [if_neg htick, if_neg htick]
  by_cases hmesh : meshReadyNow s = false
  · rw [if_pos hmesh, if_pos hmesh]
    exact hsays 2
  rw [if_neg hmesh, if_neg hmesh]
  by_cases hcfg : startCfgOk s = false
  · rw [if_pos hcfg, if_pos hcfg]
    exact hsays 3
  rw [if_neg hcfg, if_neg hcfg, if_pos (((h.resolve_left htick).resolve_left hmesh).resolve_left hcfg)]
  exact hsays 5

end

/-! ### What regions keep -/

/-- What p tells of each region. -/
def regionField {α : Type} (p : Region → α) (s : State) (r : Nat) : α := p (regionOf s r)

section
variable {α : Type} {p : Region → α}

theorem regionField_of_regions {s t : State} (h : t.regions = s.regions) : regionField p t = regionField p s := by
  funext r
  simp only [regionField, regionOf, h]

theorem regionField_of_sameBut {l : List Part} {s t : State} (h : SameBut l s t) (hl : .regions ∉ l) :
    regionField p t = regionField p s :=
  regionField_of_regions (h .regions hl)

theorem regionField_setRegion {r : Nat} {x : Region} {s : State} (h : p x = p (regionOf s r)) :
    regionField p (setRegion r x s) = regionField p s := by
  funext q
  by_cases hq : q = r
  · subst hq; simpa [regionField] using h
  · simp [regionField, hq]

/-- A region's own generator takes it back: its multiplexer and its clock's frequency alone change in its record (R295). -/
theorem regionField_failBack (hmux : ∀ x : Region, p { x with mux := 0, switchTo := none } = p x)
    (hfreq : ∀ (x : Region) (f : Nat), p { x with freq := f } = p x) (atBell : Bool) (r : Nat) (s : State) :
    regionField p (failBack atBell r s) = regionField p s := by
  have hback (u : State) : regionField p (retune r (setRegion r { regionOf u r with mux := 0, switchTo := none } u)) = regionField p u :=
    (regionField_setRegion (hfreq ..)).trans (regionField_setRegion (hmux _))
  unfold failBack
  split
  · exact (hback (setGen r { genOf s r with st := .serving, failback := false } s)).trans (regionField_of_regions rfl)
  · next g _ =>
    split
    · exact regionField_of_regions rfl
    · extract_lets s1 own s2 rec s3
      have h1 : regionField p s1 = regionField p s :=
        regionField_of_sameBut ((same_spareLocking (l := [Part.gens] ++ evs .rcg [1, 2, 3]) atBell g (List.Subset.refl _)).mpr .rfl) (by decide)
      have h3 : regionField p s3 = regionField p s2 := (regionField_of_regions (by simp only [s3, raiseAbout_fields, rec])).trans (hback s2)
      have h4 : regionField p (spareChanged (r / 16) s3) = regionField p s3 :=
        regionField_of_sameBut ((same_spareChanged (l := [Part.flocks, .gens] ++ evs .flock [2, 3, 9, 10]) _ (List.Subset.refl _)).mpr .rfl) (by decide)
      exact h4.trans (h3.trans ((regionField_of_regions rfl).trans h1))

end

/-! ### Parking -/

/-- What its parking leaves in a region's record (R112). -/
def parkFields (x : Region) : Bool × Bool × Nat := (x.parked, x.pulling, x.kDone)

theorem completes_regionPark {s : State} {r : Nat} (hr : isRegion s r = true) (hpark : mayPark s r = true) :
    Completes (.regionPark r) s (fun t => (regionOf t r).parked = true ∧ (regionOf t r).pulling = false ∧
      (regionOf t r).kDone = s.time.counter - s.fold.bellTick) := by
  let u := setRegion r { regionOf s r with
    parked := true, track := .run, floor16 := 0, floorNext := 0, pulling := false, preN := 0, kDone := s.time.counter - s.fold.bellTick } s
  let stopped := if u.fold.started && (flockOf u (r / 16)).tailed then startPlannedStop r u else u
  let t := applyProposals r stopped
  let t' := if (genOf t r).failback then failBack false r t else t
  have hexec : exec (.regionPark r) s = .next t' := by
    change execRegionPark r s = _
    unfold execRegionPark
    rw [if_pos hr, if_pos hpark]
  have hu : parkFields (regionOf u r) = (true, false, s.time.counter - s.fold.bellTick) :=
    congrArg parkFields ((regionOf_setRegion ..).trans (if_pos rfl))
  have hstopped : regionField parkFields stopped = regionField parkFields u :=
    ite_view (v := regionField parkFields)
      (regionField_of_sameBut ((same_startPlannedStop (l := [.gens]) r (List.Subset.refl _)).mpr .rfl) (by decide)) rfl
  have ht : regionField parkFields t = regionField parkFields stopped :=
    regionField_of_sameBut ((same_applyProposals (l := [.cal, .gens]) r (List.Subset.refl _)).mpr .rfl) (by decide)
  have ht' : regionField parkFields t' = regionField parkFields t :=
    ite_view (v := regionField parkFields) (regionField_failBack (fun _ => rfl) (fun _ _ => rfl) ..) rfl
  have hend : parkFields (regionOf t' r) = (true, false, s.time.counter - s.fold.bellTick) :=
    (congrFun (ht'.trans (ht.trans hstopped)) r).trans hu
  simp only [parkFields, Prod.mk.injEq] at hend
  exact ⟨t', hexec, hend⟩

/-! ### The grace tail -/

/-- A flock's grace tail rests on the fold, on time and on what its paths tell (R95, R230). -/
theorem flockTail_congr {s t : State} (h : SamePace s t) (hf : t.fold = s.fold) (ht : t.time = s.time) (hr : t.root = s.root) (f : Nat) :
    flockTail t f = flockTail s f := by
  have hflock := h.flock f
  simp only [pathFields, Prod.mk.injEq] at hflock
  obtain ⟨hsel, h0, h1, h2, -⟩ := hflock
  have harr (m : Nat) : arrivedTotal t m = arrivedTotal s m := by
    unfold arrivedTotal elapsed
    rw [ht, hr]
  have hpath (p : Nat) : pathOf (flockOf t f) p = pathOf (flockOf s f) p := by simp only [pathOf, h0, h1, h2]
  have htime : flockTime t f = flockTime s f := by simp only [flockTime, hsel, hpath, harr, ht]
  simp only [flockTail, hf, htime]

/-- A map over a table gives the default, or what it makes of some record. -/
theorem tabGet_map_cases {α : Type} (g : Nat → α → α) (tab : Tab α) (k : Nat) (d : α) :
    tabGet (tab.map (fun e => (e.1, g e.1 e.2))) k d = d ∨ ∃ v, tabGet (tab.map (fun e => (e.1, g e.1 e.2))) k d = g k v := by
  induction tab with
  | nil => exact .inl rfl
  | cons e tab ih =>
    obtain ⟨j, w⟩ := e
    simp only [List.map_cons, tabGet]
    split
    · next hj => subst hj; exact .inr ⟨w, rfl⟩
    · exact ih

/-- Where a flock's grace tail has begun neither LEAN nor HOLD_MARGIN lasts (R230). -/
theorem regionOf_tailEnds {s : State} {r : Nat} (h : flockTail s (r / 16) = true) :
    (regionOf (tailEnds s) r).leanC = none ∧ (regionOf (tailEnds s) r).raiseR = 0 := by
  rcases tabGet_map_cases (fun k v => if flockTail s (k / 16) then { v with leanC := none, raiseR := 0 } else v) s.regions r {} with hd | ⟨v, hv⟩
  · rw [show regionOf (tailEnds s) r = _ from hd]
    exact ⟨rfl, rfl⟩
  · rw [show regionOf (tailEnds s) r = _ from hv, if_pos h]
    exact ⟨rfl, rfl⟩

/-- The planned stop of a parked region starts (R160). -/
def stopParked (r : Nat) (s : State) : State := if (regionOf s r).parked then startPlannedStop r s else s

/-- What a flock does in its tail after LEAN and HOLD_MARGIN ended leaves the regions, and who is in the tail (R230). -/
theorem tailRest_ends (fs : List Nat) (s : State) :
    ∃ u, (tailRest fs s).regions = (tailEnds u).regions ∧ ∀ f, flockTail (tailRest fs s) f = flockTail u f := by
  unfold tailRest
  extract_lets w s1 s2 s3 s4
  have hset (f : Nat) (t : State) :=
    same_setFlock (l := [.flocks, .gens]) (s0 := s3) (s := t) f { flockOf t f with tailed := true } (by decide)
  have hstop (r : Nat) (t : State) : SameBut [.flocks, .gens] s3 (stopParked r t) ↔ SameBut [.flocks, .gens] s3 t := by
    simp only [stopParked, ↓same_ite, ↓same_startPlannedStop r (by decide : _ ⊆ [Part.flocks, .gens]), ite_self]
  have hsame : SameBut [.flocks, .gens] s3 (forAll (regionsIn s4 fs) stopParked s4) := (same_forAll hstop).mpr ((same_forAll hset).mpr .rfl)
  have hpace : SamePace s2 (forAll (regionsIn s4 fs) stopParked s4) :=
    ((samePace_tailEnds s2).trans (samePace_forAll samePace_setTailed ..)).trans
      (samePace_forAll (fun r t => samePace_ite (samePace_startPlannedStop r t) (.refl t)) ..)
  have htails := flockTail_congr hpace (hsame .fold (by decide)) (hsame .time (by decide)) (hsame .root (by decide))
  exact ⟨s2, hsame .regions (by decide), htails⟩

/-- The deferral that the tail asks for is all it tells of the fold (R160, R349). -/
theorem tail_requestDeferral (s : State) : (requestDeferral s).fold.tail = s.fold.tail := by
  have hset (g : State → Region → Nat) (rs : List Nat) (u : State) :
      (forAll rs (fun r t => setRegion r { regionOf t r with deadline := g t (regionOf t r) } t) u).fold = u.fold :=
    forAll_view (v := State.fold) (fun r t => by simp) rs u
  unfold requestDeferral
  extract_lets rs bands cal now late held s1 s2 n fold s3
  have h2 : s2.fold = s.fold := (hset (fun _ x => x.deadline + 1) held s1).trans (hset (fun t _ => t.fold.foldNo + 1) late s)
  have h3 : s3.fold.tail = s.fold.tail := by rw [show s3.fold.tail = s2.fold.tail from rfl, h2]
  split
  · exact h3
  · simpa using h3

theorem tail_beginTail (s : State) : (beginTail s).fold.tail = true := by
  unfold beginTail
  extract_lets s1 fold s2 fs
  have hrest (u : State) : (tailRest fs u).fold = u.fold :=
    (same_tailRest (l := [Part.flocks, .gens, .regions] ++ evs .flock [2, 3, 9, 10]) fs (List.Subset.refl _)).mpr .rfl .fold (by decide)
  have hbands : (tailBands fs s2).fold = s2.fold :=
    (same_tailBands (l := [Part.gens] ++ evs .rcg [0]) fs (List.Subset.refl _)).mpr .rfl .fold (by decide)
  rw [hrest, tail_requestDeferral, hbands]

section
variable {s : State} (htail : s.fold.tail = false) (hheld : s.time.held = false)
include htail hheld

theorem completes_graceTailStart (hrun : s.fold.started = true) (hoff : s.fold.bellTick + (s.fold.f - s.fold.g) ≤ s.time.counter) :
    Completes .graceTailStart s (fun t => t.fold.tail = true ∧
      (∀ r : Nat, flockTail t (r / 16) = true → (regionOf t r).leanC = none ∧ (regionOf t r).raiseR = 0)) := by
  have hexec : exec .graceTailStart s = .next (beginTail s) := by
    change execGraceTailStart s = _
    simp only [execGraceTailStart, htail, hheld, hrun, hoff, Bool.or_self, Bool.false_eq_true, if_true, if_false]
  refine ⟨_, hexec, tail_beginTail s, fun r hr => ?_⟩
  obtain ⟨u, hregions, htails⟩ : ∃ u, (beginTail s).regions = (tailEnds u).regions ∧ ∀ f, flockTail (beginTail s) f = flockTail u f :=
    tailRest_ends ..
  have hrec : regionOf (beginTail s) r = regionOf (tailEnds u) r := by simp only [regionOf, hregions]
  rw [hrec]
  exact regionOf_tailEnds ((htails _).symm.trans hr)

theorem completes_graceTailStart_first (hidle : s.fold.started = false) (hnear : nearFirst s = true) :
    Completes .graceTailStart s (fun t => t.fold.tail = true) := by
  refine ⟨{ commitBell s with fold := { s.fold with tail := true } }, ?_, rfl⟩
  change execGraceTailStart s = _
  simp only [execGraceTailStart, htail, hheld, hidle, hnear, Bool.or_self, Bool.false_eq_true, if_true, if_false]

end

/-! ### The call -/

/-- The regions incomplete at a call (R109, R124). -/
def incompletes (s : State) : List Nat := (List.range s.build.regions).filter (incomplete s)

/-- A fold's first call has been recorded (R133, R136, R259). -/
def atCall (s : State) : State := if s.fold.called then s else firstCall (incompletes s) s

theorem fold_firstCall (inc : List Nat) (s : State) : (firstCall inc s).fold = { s.fold with called := true } := by
  unfold firstCall
  extract_lets s1 fold
  have h1 : s1.fold = s.fold := forAll_view (v := State.fold) (fun r t => by simp) inc s
  rw [(same_ballastDecide (l := [Part.zones] ++ evs .zone [0, 1, 2]) (List.Subset.refl _)).mpr .rfl .fold (by decide)]
  exact congrArg (fun x => { x with called := true }) h1

theorem fold_atCall (s : State) : (atCall s).fold = { s.fold with called := true } := by
  unfold atCall
  split
  · next h => rw [← h]
  · exact fold_firstCall ..

/-- What a fold's first call records changes nothing that is applied (R138). -/
theorem stallLaps_atCall (s : State) : stallLaps (atCall s) = stallLaps s := by
  have hsame : SameBut ([Part.fold, .regions, .zones] ++ evs .zone [0, 1, 2]) s (atCall s) :=
    same_ite.mpr (by split; exacts [.rfl, (same_firstCall _ (List.Subset.refl _)).mpr .rfl])
  rw [stallLaps, bellA_of_sameBut hsame (by decide) (by decide), stallLaps]

/-- A lap counts, the first of its fold as a missed bell, and the lap of STALL_LAPS stalls the fold (R124, R127, R137). -/
theorem fold_deferLap (late : Bool) (s : State) : (deferLap late s).fold = { s.fold with
    missed := if s.fold.laps = 0 then bump s.fold.missed 1 else s.fold.missed, laps := s.fold.laps + 1, lapsAll := bump s.fold.lapsAll 1,
    nextBell := s.fold.nextBell + 64, inLap := true, bandLate := s.fold.bandLate || late,
    stalled := decide (stallLaps s ≤ s.fold.laps + 1) || s.fold.stalled } := by
  unfold deferLap
  extract_lets fold s1 n fold' s2 last
  have h1 : s1.fold = { s.fold with missed := if s.fold.laps = 0 then bump s.fold.missed 1 else s.fold.missed } := by
    by_cases h : s.fold.laps = 0 <;> simp [s1, fold, h]
  have hn : n = s.fold.laps + 1 := congrArg (fun x => x.laps + 1) h1
  have h2 : s2.fold = { s1.fold with
      laps := s.fold.laps + 1, lapsAll := bump s1.fold.lapsAll 1, nextBell := s1.fold.nextBell + 64, inLap := true,
      bandLate := s1.fold.bandLate || late } := by rw [← hn]
  have hlaps : stallLaps s2 = stallLaps s := by
    by_cases h : s.fold.laps = 0 <;> simp [s2, s1, h, stallLaps, bellA]
  rw [hlaps, hn]
  by_cases hstall : stallLaps s ≤ s.fold.laps + 1 <;> cases hwas : s.fold.stalled <;> simp [last, h2, h1, fold, hstall, hwas]

theorem flagged_deferLap (late : Bool) {s : State} (h : s.fold.laps = 0) : Flagged (deferLap late s) .fold 1 := by
  unfold deferLap
  extract_lets fold s1 n fold' s2
  have h2 : Flagged s2 .fold 1 := by
    have h1 : s1 = raise .fold 1 { s with fold := { s.fold with missed := bump s.fold.missed 1 } } := if_pos h
    have hraised := flagged_raise { s with fold := { s.fold with missed := bump s.fold.missed 1 } } Block.fold (k := 1) (by decide)
    rw [← h1] at hraised
    exact hraised
  split
  · exact flagged_raise_of 2 h2
  · exact h2

section
variable {s : State} (hrun : s.fold.started = true) (hring : s.fold.ring = false) (hheld : s.time.held = false)
  (hdue : s.fold.nextBell ≤ s.time.counter + 16)
include hrun hring hheld hdue

/-- A call at its tick takes the laps asked for, or a lap for a region that is incomplete, or lets the bell ring (R124, R131). -/
theorem exec_call_due : exec .call s =
    if 0 < s.fold.plannedReq - s.fold.plannedLaps then .next (deferPlanned (s.fold.plannedReq - s.fold.plannedLaps) (atCall s))
    else if incompletes s ≠ [] then
      .next (deferLap ((incompletes s).all (fun r => (regionOf (atCall s) r).parked && (regionOf (atCall s) r).switchTo.isNone)) (atCall s))
    else .next { atCall s with fold := { (atCall s).fold with ring := true } } := by
  have hreq : (atCall s).fold.plannedReq = s.fold.plannedReq ∧ (atCall s).fold.plannedLaps = s.fold.plannedLaps := by
    rw [fold_atCall]
    exact ⟨rfl, rfl⟩
  change execCall s = _
  unfold execCall
  rw [if_pos (by simp [hrun, hring, hheld, hdue]), ← hreq.1, ← hreq.2]
  rfl

theorem completes_call_planned (hreq : s.fold.plannedLaps < s.fold.plannedReq) : Completes .call s (fun t =>
    t.fold.plannedLaps = s.fold.plannedReq ∧ t.fold.laps = s.fold.laps ∧
    t.fold.nextBell = s.fold.nextBell + 64 * (s.fold.plannedReq - s.fold.plannedLaps) ∧ Flagged t .fold 10) := by
  refine ⟨_, (exec_call_due hrun hring hheld hdue).trans (if_pos (by omega)), ?_⟩
  refine ⟨?_, ?_, ?_, flagged_raise _ _ (by decide)⟩ <;> simp only [deferPlanned, raise_fields, fold_atCall]
  omega

section
variable (hreq : s.fold.plannedReq ≤ s.fold.plannedLaps)
include hreq

theorem completes_call_ring (hall : ∀ r < s.build.regions, incomplete s r = false) : Completes .call s (fun t =>
    t.fold.ring = true ∧ t.fold.nextBell = s.fold.nextBell) := by
  have hnone : incompletes s = [] := by simpa [incompletes] using hall
  refine ⟨_, (exec_call_due hrun hring hheld hdue).trans ((if_neg (by omega)).trans (if_neg (by simp [hnone]))), rfl, ?_⟩
  simp only [fold_atCall]

theorem completes_call_lap (hsome : ∃ r < s.build.regions, incomplete s r = true) : Completes .call s (fun t =>
    t.fold.ring = false ∧ t.fold.laps = s.fold.laps + 1 ∧ t.fold.lapsAll = s.fold.lapsAll + 1 ∧ t.fold.nextBell = s.fold.nextBell + 64 ∧
    (s.fold.laps = 0 → t.fold.missed = s.fold.missed + 1 ∧ Flagged t .fold 1) ∧
    (stallLaps s ≤ s.fold.laps + 1 → t.fold.stalled = true)) := by
  have hsome : incompletes s ≠ [] := by simpa [incompletes] using hsome
  refine ⟨_, (exec_call_due hrun hring hheld hdue).trans ((if_neg (by omega)).trans (if_pos hsome)), ?_⟩
  have hlaps : (atCall s).fold.laps = s.fold.laps := by rw [fold_atCall]
  refine ⟨?_, ?_, ?_, ?_, fun h => ⟨?_, flagged_deferLap _ (hlaps.trans h)⟩, fun h => ?_⟩ <;>
    simp only [fold_deferLap, fold_atCall, stallLaps_atCall]
  · exact hring
  · rfl
  · rw [if_pos h]; rfl
  · simp [h]

end
end

end Sys2Proof.Machine
end

