-- ==== Sys2Proof/Proofs/FoldBells.lean ====
section
/-!
PROOF. What a bell makes of the fold sequence, and the counts it restarts (R112, R113, R117, R137, R141).
-/
namespace Sys2Proof.Machine
open Sys2Proof

/-! ### The sequence, beside what a bell decides of it -/

/-- The fold state but for the classes' K, the log, and the last automatic exclusion. -/
def sequenceOf (s : State) : FoldSt := { s.fold with classes := [], kRej := 0, exclLast := 0, log := [], logSeq := 0 }

theorem sequenceOf_of_fold {s t : State} (h : t.fold = s.fold) : sequenceOf t = sequenceOf s := by rw [sequenceOf, h, sequenceOf]

theorem sequenceOf_of_same {l : List Part} {s t : State} (h : SameBut l s t) (hl : .fold ∉ l) : sequenceOf t = sequenceOf s :=
  sequenceOf_of_fold (h .fold hl)

section
variable (s : State)

theorem sequenceOf_raise (b : Block) (k : Nat) : sequenceOf (raise b k s) = sequenceOf s := sequenceOf_of_fold (by simp)

theorem sequenceOf_setClass (n : Nat) (c : ClassSt) : sequenceOf (setClass n c s) = sequenceOf s := rfl

theorem sequenceOf_setKRej (n : Nat) (on : Bool) : sequenceOf (setKRej n on s) = sequenceOf s := rfl

end

theorem sequenceOf_logFold (s : State) : sequenceOf (logFold s) = sequenceOf s := ite_view (v := sequenceOf) rfl rfl

/-! ### What is applied -/

theorem sequenceOf_putJudged (js : List (Nat × Word × List (Block × Nat × Option Nat))) (t : State) :
    sequenceOf (js.foldl putJudged t) = sequenceOf t := by
  have hraise (es : List (Block × Nat × Option Nat)) (u : State) : (raiseList es u).fold = u.fold := by
    unfold raiseList
    induction es generalizing u with
    | nil => rfl
    | cons e es ih => exact (ih _).trans (by dsimp only; split <;> simp)
  induction js generalizing t with
  | nil => rfl
  | cons j js ih => exact (ih _).trans (sequenceOf_of_fold (hraise ..))

theorem sequenceOf_applyPending (flat : Nat → Nat → Bool) (s : State) : sequenceOf (applyPending flat s) = sequenceOf s := by
  unfold applyPending
  refine ite_view (v := sequenceOf) rfl ?_
  extract_lets js stale f g bad t t1 t2 t3
  have ht : sequenceOf t = sequenceOf s := sequenceOf_putJudged js s
  have h1 : sequenceOf t1 = sequenceOf t := forAll_view (v := sequenceOf) (fun n u => ite_view (v := sequenceOf) (sequenceOf_setKRej ..) rfl) _ _
  have h2 : sequenceOf t2 = sequenceOf t1 := ite_view (v := sequenceOf) (sequenceOf_raise ..) rfl
  have h3 : sequenceOf t3 = sequenceOf t2 := ite_view (v := sequenceOf) (sequenceOf_raise ..) rfl
  exact h3.trans (h2.trans (h1.trans ht))

/-! ### The classes -/

theorem sequenceOf_adapt (n k f g : Nat) (charged cancel : Bool) (s : State) : sequenceOf (adapt n k f g charged cancel s) = sequenceOf s := by
  have hraise (i : Nat) (c : ClassSt) : sequenceOf (raise .fold i (setClass n c s)) = sequenceOf s :=
    (sequenceOf_raise ..).trans (sequenceOf_setClass ..)
  unfold adapt
  exact ite_view (v := sequenceOf) rfl (ite_view (v := sequenceOf) (hraise 7 _) (ite_view (v := sequenceOf) (hraise 8 _) rfl))

theorem sequenceOf_decideK (n k f g : Nat) (s : State) : sequenceOf (decideK n k f g s) = sequenceOf s :=
  sequenceOf_of_same (t := capFloors n k f g s) ((same_capFloors (l := evs .zone [5]) n k f g (List.Subset.refl _)).mpr .rfl) (by decide)

theorem sequenceOf_bellClasses (first : Bool) (charged was : Nat → Bool) (ks : Nat → Nat × Bool) (flat fresh : Nat → Bool) (f g : Nat)
    (s : State) : sequenceOf (bellClasses first charged was ks flat fresh f g s) = sequenceOf s := by
  refine forAll_view (v := sequenceOf) (fun n t => ?_) _ s
  generalize ks n = asked
  obtain ⟨k, ok⟩ := asked
  refine (sequenceOf_decideK ..).trans ((sequenceOf_adapt ..).trans ((sequenceOf_setClass ..).trans ?_))
  exact ite_view (v := sequenceOf) ((sequenceOf_setKRej ..).trans (sequenceOf_raise ..))
    (ite_view (v := sequenceOf) (sequenceOf_setKRej ..) rfl)

/-! ### The re-admissions -/

theorem sequenceOf_updateSvc (f : Nat) (s : State) : sequenceOf (updateSvc f s) = sequenceOf s :=
  sequenceOf_of_same ((same_updateSvc (l := [Part.flocks] ++ evs .flock [2, 9, 10]) f (List.Subset.refl _)).mpr .rfl) (by decide)

theorem sequenceOf_autoExclude (r : Nat) (s : State) : sequenceOf (autoExclude r s) = sequenceOf s := by
  unfold autoExclude
  extract_lets t t'
  have ht : t'.fold = s.fold := by simp [t', t, leaveContract, disarmXings]
  refine (sequenceOf_updateSvc ..).trans ?_
  rw [← sequenceOf_of_fold ht]
  rfl

/-- What a takeover changes, or one that yields its spare, or waits (R287, R288, R290). -/
def takeoverParts : List Part := [Part.flocks, .foTotal, .gens, .regions] ++ evs .cal [7] ++ evs .flock [0, 2, 3, 4, 5, 9, 10]

theorem sequenceOf_claim (r code : Nat) (s : State) : sequenceOf (claim r code s) = sequenceOf s := by
  have htake (e : Taken) (g : Nat) (x : Flock) (u : State) : sequenceOf (takeNoted e r g code (setFlock (r / 16) x u)) = sequenceOf u :=
    sequenceOf_of_same (l := takeoverParts) ((same_takeNoted _ _ _ _ (by decide)).mpr ((same_setFlock _ _ (by decide)).mpr .rfl)) (by decide)
  have hyield (e : Taken) : sequenceOf (yieldClaim (r / 16) e s) = sequenceOf s :=
    sequenceOf_of_same (l := takeoverParts) ((same_yieldClaim _ _ (by decide)).mpr .rfl) (by decide)
  unfold claim
  extract_lets f fl free drop
  split
  · exact (sequenceOf_autoExclude ..).trans rfl
  · extract_lets take
    split
    · exact htake ..
    · refine ite_view (v := sequenceOf) ((htake ..).trans (hyield _)) ?_
      exact sequenceOf_of_same (l := takeoverParts) ((same_retryClaim _ _ (by decide)).mpr .rfl) (by decide)

theorem sequenceOf_readmit (r : Nat) (s : State) : sequenceOf (readmit r s) = sequenceOf s := by
  unfold readmit
  extract_lets x s1 s2 ok s3
  have hback : sequenceOf (failBack true r s1) = sequenceOf s1 :=
    sequenceOf_of_same ((same_failBack (l := [Part.flocks, .gens, .regions] ++ evs .flock [2, 3, 8, 9, 10] ++ evs .rcg [1, 2, 3]) true r
      (List.Subset.refl _)).mpr .rfl) (by decide)
  have h2 : sequenceOf s2 = sequenceOf s := (ite_view (v := sequenceOf) hback rfl).trans rfl
  have h3 : sequenceOf s3 = sequenceOf s2 := ite_view (v := sequenceOf) rfl (sequenceOf_claim ..)
  exact (sequenceOf_updateSvc ..).trans (h3.trans h2)

/-! ### The edges that regions have counted -/

/-- No region has counted an edge of the fold (R112). -/
def NoEdges (s : State) : Prop := regionField Region.c s = fun _ => 0

theorem NoEdges.of_view {s t : State} (h : NoEdges s) (hc : regionField Region.c t = regionField Region.c s) : NoEdges t := hc.trans h

theorem noEdges_regionBell (s : State) : NoEdges (mapRegions (fun _ x => regionBell x) s) := by
  funext r
  simp only [regionField, mapRegions, regionOf, tabGet_tabulate]
  split <;> rfl

theorem edges_raise (b : Block) (k : Nat) (s : State) : regionField Region.c (raise b k s) = regionField Region.c s :=
  regionField_of_regions (by simp)

theorem edges_raiseAbout (b : Block) (k x : Nat) (s : State) : regionField Region.c (raiseAbout b k x s) = regionField Region.c s :=
  regionField_of_regions (by simp)

theorem edges_setRestrict (r : Nat) (s : State) : regionField Region.c (setRestrict r s) = regionField Region.c s :=
  ite_view (v := regionField Region.c) rfl ((edges_raiseAbout ..).trans (regionField_setRegion rfl))

theorem edges_bellBand (r : Nat) (s : State) : regionField Region.c (bellBand r s) = regionField Region.c s := by
  unfold bellBand
  split
  · rfl
  · next g _ =>
    extract_lets +onlyGivenNames x
    refine ite_view (v := regionField Region.c) rfl ?_
    extract_lets +onlyGivenNames d s1 w e b
    have h1 : regionField Region.c s1 = regionField Region.c s := rfl
    refine Eq.trans ?_ h1
    refine ite_view (v := regionField Region.c) (ite_view (v := regionField Region.c) (edges_setRestrict ..) rfl) ?_
    clear_value b
    split
    · extract_lets own s2 y s3
      have h3 : regionField Region.c s3 = regionField Region.c s1 := 
        (edges_raiseAbout ..).trans (regionField_setRegion (s := s2) rfl)
      exact (ite_view (v := regionField Region.c) (edges_setRestrict ..) rfl).trans h3
    · exact (edges_raiseAbout ..).trans (edges_setRestrict ..)

theorem edges_flockDue (f : Nat) (s : State) : regionField Region.c (flockDue f s) = regionField Region.c s := by
  unfold flockDue
  extract_lets s1 s2 s3 s4
  have h1 : regionField Region.c s1 = regionField Region.c s :=
    regionField_of_sameBut ((same_noteArrival (l := [.cal]) f (List.Subset.refl _)).mpr .rfl) (by decide)
  have h2 : regionField Region.c s2 = regionField Region.c s1 := forAll_view (v := regionField Region.c) (fun r t => by
    dsimp only
    split
    · rfl
    · exact regionField_setRegion rfl) _ _
  have h3 : s3.regions = s2.regions := forAll_view (v := State.regions) (fun g t => by dsimp only; split <;> simp) _ _
  have h4 : s4.regions = s3.regions := forAll_view (v := State.regions) (fun p t => by simp) _ _
  exact (regionField_of_regions (s := s4) (by simp)).trans ((regionField_of_regions (h4.trans h3)).trans (h2.trans h1))

theorem edges_calDoneCheck (f : Nat) (s : State) : regionField Region.c (calDoneCheck f s) = regionField Region.c s :=
  calDoneCheck_view (edges_flockDue f) (edges_raiseAbout .cal 0 f) s

theorem edges_holdAccepted (r : Nat) (w : Held) (s : State) : regionField Region.c (holdAccepted r w s) = regionField Region.c s := by
  unfold holdAccepted
  extract_lets f x s1 fl s2
  have h1 : regionField Region.c s1 = regionField Region.c s := regionField_setRegion rfl
  have h2 : regionField Region.c s2 = regionField Region.c s1 := ite_view (v := regionField Region.c) rfl rfl
  exact (edges_calDoneCheck ..).trans ((regionField_of_regions rfl).trans (h2.trans h1))

theorem edges_judgeHold (r : Nat) (w : Held) (s : State) : regionField Region.c (judgeHold r w s) = regionField Region.c s := by
  unfold judgeHold
  extract_lets x bad s1 s2
  have hsame : SameBut [.cal, .gens] s s2 := by
    simp only [s2, s1, ↓same_ite, ↓same_applyProposals r (by decide : _ ⊆ [Part.cal, .gens]),
      ↓same_proposeSocks r w (by decide : _ ⊆ [Part.cal, .gens]),
      ↓same_proposeCells w (by decide : _ ⊆ [Part.cal, .gens]), SameBut.rfl, ite_self]
  have h2 : regionField Region.c s2 = regionField Region.c s := regionField_of_sameBut hsame (by decide)
  have hx : regionOf s2 r = x := by rw [regionOf, hsame .regions (by decide)]; rfl
  refine Eq.trans (ite_view (v := regionField Region.c) (edges_holdAccepted ..) ?_) h2
  refine (regionField_of_sameBut ((same_rejectResults (l := [Part.cal] ++ evs .cal [1, 2]) _ _ _ (List.Subset.refl _)).mpr .rfl) (by decide)).trans ?_
  exact regionField_setRegion (by rw [hx])

theorem edges_judgeSpare (f g b c0 c1 : Nat) (s : State) : regionField Region.c (judgeSpare f g b c0 c1 s) = regionField Region.c s := by
  unfold judgeSpare
  extract_lets x e cells
  refine ite_view (v := regionField Region.c) ((edges_calDoneCheck ..).trans ?_) ?_
  · exact regionField_of_sameBut (l := [.cal, .gens]) ((same_changedIf _ (by decide)).mpr ((same_setGen _ _ (by decide)).mpr .rfl)) (by decide)
  · exact regionField_of_sameBut (l := [Part.cal, .gens] ++ evs .cal [1, 2])
      ((same_rejectResult _ _ (by decide)).mpr ((same_setGen _ _ (by decide)).mpr .rfl)) (by decide)

theorem edges_discardHold (r : Nat) (s : State) : regionField Region.c (discardHold r s) = regionField Region.c s :=
  (edges_raiseAbout ..).trans (regionField_setRegion rfl)

theorem edges_judgeWaiting (s : State) : regionField Region.c (judgeWaiting s) = regionField Region.c s := by
  unfold judgeWaiting
  extract_lets s1
  have h1 : regionField Region.c s1 = regionField Region.c s := by
    refine forAll_view (v := regionField Region.c) (fun r t => ?_) _ _
    split
    · exact ite_view (v := regionField Region.c) (edges_judgeHold ..) (edges_discardHold ..)
    · rfl
  refine Eq.trans (forAll_view (v := regionField Region.c) (fun g t => ?_) _ _) h1
  split
  · exact ite_view (v := regionField Region.c) (edges_judgeSpare ..) (edges_raiseAbout ..)
  · rfl

theorem edges_startCore (cause : Nat) (prev : Word) (s : State) : regionField Region.c (startCore cause prev s) = regionField Region.c s := by
  unfold startCore
  split
  · rfl
  · extract_lets mus shep s1 prior s2
    exact (edges_judgeWaiting _).trans (regionField_of_regions (ite_view (v := State.regions) (s := s1) rfl (by simp)))

theorem edges_firmwareBell (s : State) : regionField Region.c (firmwareBell s) = regionField Region.c s := by
  unfold firmwareBell
  split
  · unfold swapTo
    extract_lets s1 prev first s2 bank s3 shep s4 s5
    have h1 : s1.regions = s.regions := (same_oneRestart (l := [.mbx, .shep]) (List.Subset.refl _)).mpr .rfl .regions (by decide)
    have h2 : s2.regions = s1.regions := by
      unfold s2
      split <;> rfl
    have h5 : s5.regions = s4.regions :=
      ((same_abortJobs (l := [Part.mbx, .shep, .tally, .xing] ++ evs .mbx [0, 1, 2] ++ evs .shep [11]) (by decide)).mpr
        ((same_abortTaken _ _ (by decide)).mpr .rfl)) .regions (by decide)
    exact (edges_raise ..).trans ((edges_startCore ..).trans (regionField_of_regions (h5.trans (h2.trans h1))))
  · rfl

/-! ### The bell -/

/-- What a firmware swap and the writes of the bell's tick may change (R13, R409). -/
def bellEndParts : List Part :=
  [Part.bellWritten, .check, .cal, .coreData, .flocks, .gens, .mbx, .mus, .regions, .shep, .tally, .xing] ++ evs .cal [0, 1, 2, 7] ++
  evs .mbx [0, 1, 2] ++ evs .shep [2, 5, 11]

theorem same_bellEnd (was s : State) : SameBut bellEndParts s (replayFresh was (firmwareBell s)) :=
  (same_replayFresh was (by decide)).mpr ((same_firmwareBell (by decide)).mpr .rfl)

/-- What the crossings and generators take of a bell (R161, R192, R193, R280, R347). -/
def bellUnitParts : List Part :=
  [Part.cal, .flocks, .gens, .regions, .xing] ++ evs .flock [2, 3, 9, 10] ++ evs .rcg [1, 2, 3] ++ evs .xing [2]

section
variable (was s : State)

/-- The crossings that a bell arms: every one at the first bell, which is marked, and those of the re-admitted regions at the others
(R211). -/
theorem same_bellArms (first : Bool) (back : List Nat) : SameBut [.time, .xing] s
    (if first then armAll { s with time := { s.time with firstBell := true } } else forAll back rearm s) := by
  have hrearm (r : Nat) (t : State) := same_rearm (l := [.time, .xing]) (s0 := s) (s := t) r (by decide)
  refine same_ite.mpr ?_
  split
  · refine (same_armAll (by decide)).mpr ?_
    simp only [↓same_record, SameBut.rfl, List.mem_cons, true_or, or_true, and_self]
  · exact (same_forAll hrearm).mpr .rfl

theorem same_bellTold (first : Bool) (c : CalSt) : SameBut ([Part.cal] ++ evs .fold [0, 4]) s
    (raise .fold 0 (if first then raise .fold 4 { s with cal := c } else { s with cal := c })) := by
  have hcal : SameBut ([Part.cal] ++ evs .fold [0, 4]) s { s with cal := c } := by
    simp only [↓same_record, SameBut.rfl, List.cons_append, List.mem_cons, true_or, or_true, and_self]
  refine (same_raise (by decide) (by decide)).mpr (same_ite.mpr ?_)
  split
  · exact (same_raise (by decide) (by decide)).mpr hcal
  · exact hcal

/-- The ratios, the edge counts of the generators and the spares' lines leave every region (R192, R193, R280). -/
theorem same_ratiosAndSpares : SameBut ([Part.flocks, .gens, .xing] ++ evs .flock [2, 3, 9, 10] ++ evs .rcg [1, 2, 3] ++ evs .xing [2]) s
    (respareChanged was (mapGens (fun _ x => { x with count := 0 }) (forAll (listedXings s) (ratioCheck was) s))) := by
  have hratio (x : Nat) (t : State) := same_ratioCheck (l := [Part.flocks, .gens, .xing] ++ evs .flock [2, 3, 9, 10] ++ evs .rcg [1, 2, 3] ++
    evs .xing [2]) (s0 := s) (s := t) was x (by decide)
  exact (same_respareChanged was _ (by decide)).mpr ((same_mapGens _ (by decide)).mpr ((same_forAll hratio).mpr .rfl))

theorem same_bellUnits (rs : List Nat) (t : State) (h : t = respareChanged was (mapGens (fun _ x => { x with count := 0 })
    (forAll (listedXings s) (ratioCheck was) s))) : SameBut bellUnitParts s (forAll rs bellBand t) := by
  have hband (r : Nat) (u : State) := same_bellBand (l := bellUnitParts) (s0 := s) (s := u) r (by decide)
  rw [h]
  exact (same_forAll hband).mpr ((same_ratiosAndSpares was s).mono (by decide))

end

section
variable (placed : Nat) (now : State)

/-- A bell starts the next fold, after one that its application left as it was (R113). -/
theorem sequenceOf_ringBell : ∃ f g u, sequenceOf u = sequenceOf now ∧
    sequenceOf (ringBell placed now) = sequenceOf (nextFold placed f g u) := by
  unfold ringBell
  extract_lets s0 first missed s1 late charged t1 f g isFlat t2 active t3 t4 t5 t6 back t7 t8 time t9 t10 t11 t12 t13 cal t14 t15
  have hs0 : sequenceOf s0 = sequenceOf now :=
    sequenceOf_of_same ((same_rewindFresh (l := [.bellWritten, .check]) (List.Subset.refl _)).mpr .rfl) (by decide)
  have hs1 : sequenceOf s1 = sequenceOf s0 := by
    refine ite_view (v := sequenceOf) rfl ((sequenceOf_logFold _).trans ?_)
    have hskew (r : Nat) (t : State) := same_countSkew (l := [Part.fcst, .regions, .zones] ++ evs .zone [3, 4]) (s0 := s0) (s := t) r
      (flockOffset t (r / 16)) true (by decide)
    exact sequenceOf_of_same ((same_forAll hskew).mpr ((same_cutClampWindow placed (by decide)).mpr .rfl)) (by decide)
  have ht3 : sequenceOf t3 = sequenceOf (nextFold placed f g t1) :=
    sequenceOf_of_same (l := [Part.fcst, .flocks] ++ evs .fcst [2, 3, 4, 5, 6])
      ((same_forecastBell f g (by decide)).mpr ((same_shiftBells placed (by decide)).mpr .rfl)) (by decide)
  have ht4 : sequenceOf t4 = sequenceOf t3 :=
    sequenceOf_of_same (l := [Part.regions, .zones] ++ evs .zone [1, 4]) ((same_zoneBell (by decide)).mpr ((same_historyBell _ (by decide)).mpr .rfl)) (by decide)
  have ht6 : sequenceOf t6 = sequenceOf t5 :=
    sequenceOf_of_same (l := [Part.cal, .flocks, .gens, .regions, .root, .tally] ++ evs .cal [5])
      ((same_restoreApply (by decide)).mpr ((same_calCfgApplied _ _ (by decide)).mpr .rfl)) (by decide)
  have ht7 : sequenceOf t7 = sequenceOf t6 := forAll_view (v := sequenceOf) sequenceOf_readmit back t6
  have ht8 : sequenceOf t8 = sequenceOf t7 := sequenceOf_of_same ((same_mapRegions (l := [.regions]) _ (by decide)).mpr .rfl) (by decide)
  have ht9 : sequenceOf t9 = sequenceOf t8 := sequenceOf_of_same (same_bellArms t8 first back) (by decide)
  have ht13 : sequenceOf t13 = sequenceOf t9 := sequenceOf_of_same (same_bellUnits s1 t9 _ t12 rfl) (by decide)
  have ht15 : sequenceOf t15 = sequenceOf t13 := sequenceOf_of_same (same_bellTold t13 first _) (by decide)
  refine ⟨f, g, t1, (sequenceOf_applyPending ..).trans (hs1.trans hs0), ?_⟩
  calc sequenceOf (replayFresh now (firmwareBell t15)) = sequenceOf t15 := sequenceOf_of_same (same_bellEnd now t15) (by decide)
    _ = sequenceOf t8 := ht15.trans (ht13.trans ht9)
    _ = sequenceOf t5 := ht8.trans (ht7.trans ht6)
    _ = sequenceOf t4 := sequenceOf_bellClasses ..
    _ = sequenceOf (nextFold placed f g t1) := ht4.trans ht3

/-- A bell restarts every region's count of edges (R112). -/
theorem noEdges_ringBell : NoEdges (ringBell placed now) := by
  unfold ringBell
  extract_lets s0 first missed s1 late charged t1 f g isFlat t2 active t3 t4 t5 t6 back t7 t8 time t9 t10 t11 t12 t13 cal t14 t15
  have ht9 : t9.regions = t8.regions := same_bellArms t8 first back .regions (by decide)
  have ht13 : regionField Region.c t13 = regionField Region.c t12 := forAll_view (v := regionField Region.c) edges_bellBand _ _
  have ht15 : regionField Region.c t15 = regionField Region.c t13 := regionField_of_sameBut (same_bellTold t13 first _) (by decide)
  refine (noEdges_regionBell t7).of_view ?_
  calc regionField Region.c (replayFresh now (firmwareBell t15)) = regionField Region.c (firmwareBell t15) :=
        regionField_of_sameBut ((same_replayFresh (l := [.bellWritten, .check]) now (by decide)).mpr .rfl) (by decide)
    _ = regionField Region.c t15 := edges_firmwareBell t15
    _ = regionField Region.c t12 := ht15.trans ht13
    _ = regionField Region.c t9 := regionField_of_sameBut (same_ratiosAndSpares s1 t9) (by decide)
    _ = regionField Region.c t8 := regionField_of_regions ht9

/-- Every bell is told, and the first one marks its time, and is told as such (R76, R113). -/
theorem told_ringBell : Flagged (ringBell placed now) .fold 0 ∧
    (now.fold.started = false → (ringBell placed now).time.firstBell = true ∧ Flagged (ringBell placed now) .fold 4) := by
  unfold ringBell
  extract_lets s0 first missed s1 late charged t1 f g isFlat t2 active t3 t4 t5 t6 back t7 t8 time t9 t10 t11 t12 t13 cal t14 t15
  have hend := same_bellEnd now t15
  have hfirst (hidle : now.fold.started = false) : first = true := by
    have hs0 : s0.fold = now.fold := (same_rewindFresh (l := [.bellWritten, .check]) (List.Subset.refl _)).mpr .rfl .fold (by decide)
    simp only [first, hs0, hidle, Bool.not_false]
  refine ⟨flagged_of_sameBut hend (by decide) (flagged_raise _ _ (by decide)), fun hidle => ⟨?_, ?_⟩⟩
  · have ht9 : t9.time.firstBell = true := by
      have h9 : t9 = armAll { t8 with time := { t8.time with firstBell := true } } := if_pos (hfirst hidle)
      rw [h9, (same_armAll (l := [.xing]) (s0 := { t8 with time := { t8.time with firstBell := true } }) (by decide)).mpr .rfl .time (by decide)]
    have ht13 : t13.time = t9.time := same_bellUnits s1 t9 _ t12 rfl .time (by decide)
    have ht15 : t15.time = t13.time := same_bellTold t13 first _ .time (by decide)
    rw [hend .time (by decide), ht15, ht13]
    exact ht9
  · have ht15 : t15 = raise .fold 0 (raise .fold 4 t14) := congrArg (raise .fold 0) (if_pos (hfirst hidle))
    rw [ht15] at hend ⊢
    exact flagged_of_sameBut hend (by decide) (flagged_raise_of 0 (flagged_raise _ _ (by decide)))

end

/-- A field of the sequence that no bell's decision touches. -/
theorem fold_of_sequence {β : Type} (p : FoldSt → β) {s t : State} (h : sequenceOf t = sequenceOf s) : p (sequenceOf t) = p (sequenceOf s) :=
  congrArg p h

/-- The sequence of a state that agrees, beside what a bell decides, with the next fold after one that agrees with s. -/
theorem nextFold_sequence {placed f g : Nat} {s u t : State} (hu : sequenceOf u = sequenceOf s)
    (ht : sequenceOf t = sequenceOf (nextFold placed f g u)) :
    t.fold.started = true ∧ t.fold.pending = false ∧ t.fold.bellTick = placed ∧ t.fold.folds = s.fold.folds + 1 ∧
    t.fold.nextBell = placed + t.fold.f ∧ t.fold.laps = 0 ∧ t.fold.plannedLaps = 0 ∧ t.fold.tail = false ∧ t.fold.ring = false := by
  have hf : t.fold.f = f := fold_of_sequence FoldSt.f ht
  have hwas : u.fold.folds = s.fold.folds := fold_of_sequence FoldSt.folds hu
  have hfolds : t.fold.folds = u.fold.folds + 1 := fold_of_sequence FoldSt.folds ht
  have hnext : t.fold.nextBell = placed + f := fold_of_sequence FoldSt.nextBell ht
  exact ⟨fold_of_sequence FoldSt.started ht, fold_of_sequence FoldSt.pending ht, fold_of_sequence FoldSt.bellTick ht,
    hfolds.trans (by rw [hwas]), hnext.trans (by rw [hf]), fold_of_sequence FoldSt.laps ht, fold_of_sequence FoldSt.plannedLaps ht,
    fold_of_sequence FoldSt.tail ht, fold_of_sequence FoldSt.ring ht⟩


section
variable {s : State} (hheld : s.time.held = false)
include hheld

theorem completes_bell (hrun : s.fold.started = true) (hring : s.fold.ring = true) (hdue : s.fold.nextBell ≤ s.time.counter) :
    Completes .bell s (fun t =>
      t.fold.bellTick = s.fold.nextBell ∧ t.fold.folds = s.fold.folds + 1 ∧ t.fold.nextBell = s.fold.nextBell + t.fold.f ∧ t.fold.laps = 0 ∧
      t.fold.plannedLaps = 0 ∧ t.fold.tail = false ∧ t.fold.ring = false ∧ Flagged t .fold 0 ∧ (∀ r : Nat, (regionOf t r).c = 0)) := by
  have hexec : exec .bell s = .next (ringBell s.fold.nextBell s) := by
    change execBell s = _
    simp only [execBell, hheld, hrun, hring, hdue, decide_true, Bool.and_self, Bool.false_eq_true, if_true, if_false]
  obtain ⟨f, g, u, hu, hnext⟩ := sequenceOf_ringBell s.fold.nextBell s
  obtain ⟨-, -, hbell, hfolds, hcoming, hlaps, hplanned, htail, hquiet⟩ := nextFold_sequence hu hnext
  exact ⟨_, hexec, hbell, hfolds, hcoming, hlaps, hplanned, htail, hquiet, (told_ringBell _ s).1, congrFun (noEdges_ringBell _ s)⟩

theorem completes_bell_first (hidle : s.fold.started = false) (hpend : s.fold.pending = true) (hdue : s.fold.firstTick ≤ s.time.counter) :
    Completes .bell s (fun t =>
      t.fold.started = true ∧ t.fold.pending = false ∧ t.fold.bellTick = s.fold.firstTick ∧ t.time.firstBell = true ∧ Flagged t .fold 0 ∧
      Flagged t .fold 4) := by
  have hexec : exec .bell s = .next (ringBell s.fold.firstTick s) := by
    change execBell s = _
    simp only [execBell, hheld, hidle, hpend, hdue, decide_true, Bool.and_self, Bool.false_eq_true, if_true, if_false]
  obtain ⟨f, g, u, hu, hnext⟩ := sequenceOf_ringBell s.fold.firstTick s
  obtain ⟨hstarted, hpending, hbell, -⟩ := nextFold_sequence hu hnext
  obtain ⟨htold, hfirst⟩ := told_ringBell s.fold.firstTick s
  obtain ⟨hmark, htoldFirst⟩ := hfirst hidle
  exact ⟨_, hexec, hstarted, hpending, hbell, hmark, htold, htoldFirst⟩

end

/-- Settles O10: a start and a call by the branch that each takes, parking and the tail by what their later steps leave, and a bell by the
next fold it starts and the steps that leave that fold and the restarted counts. -/
theorem foldSequence : Obligations.FoldSequence := by
  unfold Obligations.FoldSequence
  exact ⟨fun s w v hw hnew htick hmesh hcfg hidle => completes_foldStart hw hnew htick hmesh hcfg hidle,
    fun s w v hw hnew h => completes_foldStart_rejected hw hnew h,
    fun s r hr hpark => completes_regionPark hr hpark,
    fun s htail hheld hrun hoff => completes_graceTailStart htail hheld hrun hoff,
    fun s htail hheld hidle hnear => completes_graceTailStart_first htail hheld hidle hnear,
    fun s hrun hring hheld hdue hreq hall => completes_call_ring hrun hring hheld hdue hreq hall,
    fun s hrun hring hheld hdue hreq hsome => completes_call_lap hrun hring hheld hdue hreq hsome,
    fun s hrun hring hheld hdue hreq => completes_call_planned hrun hring hheld hdue hreq,
    fun s hheld hrun hring hdue => completes_bell hheld hrun hring hdue,
    fun s hheld hidle hpend hdue => completes_bell_first hheld hidle hpend hdue⟩

end Sys2Proof.Machine
end

