-- ==== Sys2Proof/Proofs/SpareSlots.lean ====
section
/-!
PROOF. A generator that fails while a forced failover of the tick that left it behind is recorded (R283, R290, R291).
-/
namespace Sys2Proof.Machine
open Sys2Proof

/-- No test of R283 runs on a generator that has FAILED. -/
theorem testsRun_of_failed {s : State} {g : Nat} (h : (genOf s g).st = .failed) : testsRun s g = false := by simp [testsRun, h]

/-- A takeover that a command forced in this tick, which left spare 0 of flock 0 behind: FAILED, as the takeover found it. -/
def forcedAway : Taken := { gen := 0, slot := 0, code := 0, leftWas := some (5120, { st := .failed }), cmd := some (.host, 0, 0, 0, 0) }

/-- Flock 0 has that takeover recorded, while its spare 0 serves by its record slot 16: region 16, which is of flock 1, where nothing is taken
and spare 0 is FREE. -/
def slotBeyond : State :=
  { build := .reference, flocks := [(0, { taken := [forcedAway] })], gens := [(5120, { st := .serving, slot := 16 }), (5122, { st := .free })],
    regions := [(16, { out := true })] }

/-- Holding the forced takeover of flock 0 back leaves its spare 0 as the takeover found it (R291). -/
theorem holdForced_slotBeyond : (genOf (holdForced 0 5120 slotBeyond) 5120).st = .failed := by
  have hheld : ∃ t, holdForced 0 5120 slotBeyond = spareChanged 0 t ∧ (genOf t 5120).st = .failed := ⟨_, rfl, by decide⟩
  obtain ⟨t, ht, hst⟩ := hheld
  rw [ht, (genOf_of_view (genView_spareChanged 0 t) 5120).1]
  exact hst

/-- The failure of that spare changes nothing. -/
theorem exec_generatorFail_slotBeyond (code : GenFault) : exec (.generatorFail 0 16 code) slotBeyond = .next slotBeyond := by
  have hstay : (testsRun (holdForced 0 5120 slotBeyond) 5120 && faultFires (holdForced 0 5120 slotBeyond) 5120 code) = false := by
    rw [testsRun_of_failed holdForced_slotBeyond, Bool.false_and]
  change execGeneratorFail 0 16 code slotBeyond = _
  unfold execGeneratorFail
  rw [if_pos (by decide)]
  change Host.Outcome.next (if (testsRun (holdForced 0 5120 slotBeyond) 5120 && faultFires (holdForced 0 5120 slotBeyond) 5120 code) = true
    then failGen 5120 code (holdForced 0 5120 slotBeyond) else slotBeyond) = _
  rw [hstay, if_neg Bool.false_ne_true]

/-- Refutes O18: its first clause asks that nothing was taken in the tick in the flock of the region that the generator serves, but it is in the
flock which the command names that a forced takeover of the tick is held back.  In `slotBeyond` the two flocks differ, by a slot that the clause does
not bound, and the spare that the command names is left serving. -/
theorem not_failoverCommands : ¬ Obligations.FailoverCommands := by
  unfold Obligations.FailoverCommands
  rintro ⟨hclaim, -⟩
  obtain ⟨t, ht, hfailed, -⟩ := hclaim slotBeyond 0 16 (.stop 73729) 5120 16 5122 (by decide) (by decide) (by decide) (by decide) (by decide)
    (by decide) (by decide) (by decide) (by decide)
  rw [exec_generatorFail_slotBeyond] at ht
  obtain rfl : slotBeyond = t := by simpa using ht
  exact absurd hfailed (by decide)

end Sys2Proof.Machine
end
